-- ==== Sys2Proof/Word.lean ====
section
/-!
DEFINITION. The word types of Exzolek: 64-bit scalar words, bytes, 32-bit instruction words and 5-bit register
fields (R6, R85).
-/

namespace Sys2Proof

/-- A 64-bit scalar value or virtual address. -/
abbrev Word := BitVec 64

/-- One byte of memory. -/
abbrev Byte := BitVec 8

/-- A register field of an instruction word. -/
abbrev Reg := BitVec 5

end Sys2Proof
end

