-- ==== Sys2Proof/Syntax.lean ====
section
/-!
DEFINITION. The instruction type: one constructor per row of spec/opcode_table.json.  The 308 rows with an encoding
carry the fields of their word (R85, R91 to R102).  The 101 rows without one are the module's own steps; each carries
what its rule needs to know (which hart, which channel, which host port, which value).
-/

namespace Sys2Proof

/-- The fields of a V-format word below its major and op (R85): every V-format instruction carries all of them, and
`Instr.wf` says which must be zero (R88, R95, R97). `vs2` holds a v register, an x register or an imm5. -/
structure VOp where
  vd  : Reg
  vs1 : Reg
  vs2 : Reg
  m   : Bool
  ta  : Bool
  ma  : Bool
  e   : Bool
  q   : Bool
  i   : Bool
  deriving DecidableEq, Repr

/-- The fields of a VL-format word below its major and mode (R85, R98): `reg` is vd, vs3 or the q index, `base` the x
base (or the data register of `VST vs, qn`), `idx` the stride, index or scale register, `fmt` the format field. -/
structure VLOp where
  reg  : Reg
  base : Reg
  idx  : Reg
  m    : Bool
  ta   : Bool
  ma   : Bool
  q    : Bool
  fmt  : BitVec 4
  deriving DecidableEq, Repr

/-- The ordering streams of one hart (R159, R218). -/
inductive Stream where
  | scalar
  | vector
  | q (n : BitVec 3)
  | bank
  | thread (i : Nat)
  deriving DecidableEq, Repr

/-- Whose queued access ACCESS_PERFORMED performs: a stream of a hart, or an engine command of a cluster (R220). -/
inductive Accessor where
  | hart (h : Nat) (st : Stream)
  | engine (cl : Nat) (token : Word)
  deriving DecidableEq, Repr

/-- One message accepted at a port: the launch it belongs to, by its queue and sequence number, the fields of its header record (R347)
and its payload bytes. -/
structure Message where
  queue   : Nat
  launch  : Nat
  agent   : BitVec 16
  kind    : Byte
  sizeLog : Byte
  stream  : BitVec 32
  addr    : Word
  seq     : Word
  payload : List Byte
  deriving DecidableEq, Repr

/-- What a host (CXL.mem) or a remote device asks of memory here (R110, R359, R361): `width` bytes at a physical address, or an AMO. -/
inductive MemRequest where
  | read (pa : Word) (width : Nat)
  | write (pa : Word) (width : Nat) (value : Word)
  /-- AMO number `op` of R110 (AMOADD 0 to AMOFADD 10), on 8 bytes or 4; `compare` is what AMOCAS compares with. -/
  | amo (op : Fin 11) (wide : Bool) (pa value compare : Word)
  deriving DecidableEq, Repr

/-- One constructor per row of the opcode table, in its order. -/
inductive Instr where
  | add (d a b : Reg)
  | sub (d a b : Reg)
  | and (d a b : Reg)
  | or (d a b : Reg)
  | xor (d a b : Reg)
  | andn (d a b : Reg)
  | shl (d a b : Reg)
  | shr (d a b : Reg)
  | sra (d a b : Reg)
  | rol (d a b : Reg)
  | ror (d a b : Reg)
  | slt (d a b : Reg)
  | sltn (d a b : Reg)
  | min (d a b : Reg)
  | max (d a b : Reg)
  | minn (d a b : Reg)
  | maxn (d a b : Reg)
  | mul (d a b : Reg)
  | mulh (d a b : Reg)
  | mulhn (d a b : Reg)
  | div (d a b : Reg)
  | divn (d a b : Reg)
  | rem (d a b : Reg)
  | remn (d a b : Reg)
  | clz (d a : Reg)
  | ctz (d a : Reg)
  | popc (d a : Reg)
  | sextb (d a : Reg)
  | sexth (d a : Reg)
  | sextw (d a : Reg)
  | addi (d a : Reg) (imm : BitVec 16)
  | andi (d a : Reg) (imm : BitVec 16)
  | ori (d a : Reg) (imm : BitVec 16)
  | xori (d a : Reg) (imm : BitVec 16)
  | slti (d a : Reg) (imm : BitVec 16)
  | lih (d a : Reg) (imm : BitVec 16)
  | shli (d a : Reg) (sh : BitVec 6)
  | shri (d a : Reg) (sh : BitVec 6)
  | srai (d a : Reg) (sh : BitVec 6)
  | fadd (d a b : Reg) (rm : BitVec 3)
  | fsub (d a b : Reg) (rm : BitVec 3)
  | fmul (d a b : Reg) (rm : BitVec 3)
  | fdiv (d a b : Reg) (rm : BitVec 3)
  | fsqrt (d a : Reg) (rm : BitVec 3)
  | fmadd (d a b : Reg) (rm : BitVec 3)
  | fmin (d a b : Reg)
  | fmax (d a b : Reg)
  | feq (d a b : Reg)
  | flt (d a b : Reg)
  | fle (d a b : Reg)
  | fcvt (d a : Reg) (kind rm : BitVec 3)
  | fclass (d a : Reg)
  | ldb (d a : Reg) (imm : BitVec 16)
  | ldh (d a : Reg) (imm : BitVec 16)
  | ldw (d a : Reg) (imm : BitVec 16)
  | ldd (d a : Reg) (imm : BitVec 16)
  | ldbn (d a : Reg) (imm : BitVec 16)
  | ldhn (d a : Reg) (imm : BitVec 16)
  | ldwn (d a : Reg) (imm : BitVec 16)
  | stb (s a : Reg) (imm : BitVec 16)
  | sth (s a : Reg) (imm : BitVec 16)
  | stw (s a : Reg) (imm : BitVec 16)
  | std (s a : Reg) (imm : BitVec 16)
  | amoadd (d a b : Reg) (acq rel : Bool) (scope : BitVec 3)
  | amoand (d a b : Reg) (acq rel : Bool) (scope : BitVec 3)
  | amoor (d a b : Reg) (acq rel : Bool) (scope : BitVec 3)
  | amoxor (d a b : Reg) (acq rel : Bool) (scope : BitVec 3)
  | amomin (d a b : Reg) (acq rel : Bool) (scope : BitVec 3)
  | amomax (d a b : Reg) (acq rel : Bool) (scope : BitVec 3)
  | amominn (d a b : Reg) (acq rel : Bool) (scope : BitVec 3)
  | amomaxn (d a b : Reg) (acq rel : Bool) (scope : BitVec 3)
  | amoswap (d a b : Reg) (acq rel : Bool) (scope : BitVec 3)
  | amocas (d a b : Reg) (acq rel : Bool) (scope : BitVec 3)
  | amofadd (d a b : Reg) (acq rel : Bool) (scope : BitVec 3)
  | beq (a b : Reg) (off : BitVec 16)
  | bne (a b : Reg) (off : BitVec 16)
  | blt (a b : Reg) (off : BitVec 16)
  | bge (a b : Reg) (off : BitVec 16)
  | bltn (a b : Reg) (off : BitVec 16)
  | bgen (a b : Reg) (off : BitVec 16)
  | jal (off : BitVec 26)
  | jalr (d a : Reg) (imm : BitVec 16)
  | loop (a : Reg) (off : BitVec 16)
  | csrr (d : Reg) (csr : BitVec 12)
  | csrw (a : Reg) (csr : BitVec 12)
  | csrs (a : Reg) (csr : BitVec 12)
  | csrc (a : Reg) (csr : BitVec 12)
  | trap (imm : BitVec 12)
  | brk (imm : BitVec 12)
  | eret
  | fence (scope : BitVec 3)
  | fenceSv
  | fenceVs
  | fenceVv
  | sbar (mask : BitVec 11)
  | ifence
  | yield
  | halt
  | haltDrained (h : Nat)
  | pfx (pred copy emask : Reg) (rm : BitVec 3) (pv cv ev : Bool) (chain : BitVec 5)
  | vsetl (d a b : Reg) (vt : BitVec 10)
  | vlenq (d : Reg)
  | vadd (o : VOp)
  | vsub (o : VOp)
  | vrsub (o : VOp)
  | vmul (o : VOp)
  | vmulh (o : VOp)
  | vmulhn (o : VOp)
  | vmacc (o : VOp)
  | vand (o : VOp)
  | vor (o : VOp)
  | vxor (o : VOp)
  | vshl (o : VOp)
  | vshr (o : VOp)
  | vsra (o : VOp)
  | vmin (o : VOp)
  | vmax (o : VOp)
  | vminn (o : VOp)
  | vmaxn (o : VOp)
  | vsadd (o : VOp)
  | vssub (o : VOp)
  | vsaddn (o : VOp)
  | vssubn (o : VOp)
  | vclz (o : VOp)
  | vctz (o : VOp)
  | vpopc (o : VOp)
  | vmseq (o : VOp)
  | vmsne (o : VOp)
  | vmslt (o : VOp)
  | vmsle (o : VOp)
  | vmsltn (o : VOp)
  | vmslen (o : VOp)
  | vaddVx (o : VOp)
  | vsubVx (o : VOp)
  | vrsubVx (o : VOp)
  | vmulVx (o : VOp)
  | vmulhVx (o : VOp)
  | vmulhnVx (o : VOp)
  | vmaccVx (o : VOp)
  | vandVx (o : VOp)
  | vorVx (o : VOp)
  | vxorVx (o : VOp)
  | vshlVx (o : VOp)
  | vshrVx (o : VOp)
  | vsraVx (o : VOp)
  | vminVx (o : VOp)
  | vmaxVx (o : VOp)
  | vminnVx (o : VOp)
  | vmaxnVx (o : VOp)
  | vsaddVx (o : VOp)
  | vssubVx (o : VOp)
  | vsaddnVx (o : VOp)
  | vssubnVx (o : VOp)
  | vmseqVx (o : VOp)
  | vmsneVx (o : VOp)
  | vmsltVx (o : VOp)
  | vmsleVx (o : VOp)
  | vmsltnVx (o : VOp)
  | vmslenVx (o : VOp)
  | vfadd (o : VOp)
  | vfsub (o : VOp)
  | vfmul (o : VOp)
  | vfdiv (o : VOp)
  | vfsqrt (o : VOp)
  | vfma (o : VOp)
  | vfms (o : VOp)
  | vfnma (o : VOp)
  | vfmin (o : VOp)
  | vfmax (o : VOp)
  | vfminp (o : VOp)
  | vfmaxp (o : VOp)
  | vfabs (o : VOp)
  | vfneg (o : VOp)
  | vfsgnj (o : VOp)
  | vfclass (o : VOp)
  | vfwma (o : VOp)
  | vfwadd (o : VOp)
  | vmfeq (o : VOp)
  | vmflt (o : VOp)
  | vmfle (o : VOp)
  | vmfun (o : VOp)
  | vfaddVf (o : VOp)
  | vfsubVf (o : VOp)
  | vfmulVf (o : VOp)
  | vfdivVf (o : VOp)
  | vfmaVf (o : VOp)
  | vfmsVf (o : VOp)
  | vfnmaVf (o : VOp)
  | vfminVf (o : VOp)
  | vfmaxVf (o : VOp)
  | vfminpVf (o : VOp)
  | vfmaxpVf (o : VOp)
  | vfsgnjVf (o : VOp)
  | vmfeqVf (o : VOp)
  | vmfltVf (o : VOp)
  | vmfleVf (o : VOp)
  | vmfunVf (o : VOp)
  | vfaddx (o : VOp)
  | vfsubx (o : VOp)
  | vfmulx (o : VOp)
  | vdwadd (o : VOp)
  | vdwadds (o : VOp)
  | vdwmul (o : VOp)
  | vdwren (o : VOp)
  | vredsum (o : VOp)
  | vredmax (o : VOp)
  | vredmin (o : VOp)
  | vfredo (o : VOp)
  | vfredt (o : VOp)
  | vfredc (o : VOp)
  | vfredmax (o : VOp)
  | vfredmin (o : VOp)
  | vslideup (o : VOp)
  | vslidedn (o : VOp)
  | vslide1up (o : VOp)
  | vslide1dn (o : VOp)
  | vpermv (o : VOp)
  | vcompress (o : VOp)
  | vexpand (o : VOp)
  | vmerge (o : VOp)
  | vid (o : VOp)
  | viota (o : VOp)
  | vmand (o : VOp)
  | vmor (o : VOp)
  | vmxor (o : VOp)
  | vmandn (o : VOp)
  | vmnot (o : VOp)
  | vmpopc (o : VOp)
  | vmfirst (o : VOp)
  | vmany (o : VOp)
  | vfcvt (o : VOp)
  | vfwcvt (o : VOp)
  | vfncvt (o : VOp)
  | vbdec (o : VOp)
  | vbenc (o : VOp)
  | vunpk (o : VOp)
  | vpack (o : VOp)
  | vlut (o : VOp)
  | vfrcp (o : VOp)
  | vfrsqrt (o : VOp)
  | vfexp2 (o : VOp)
  | vflog2 (o : VOp)
  | vfsinpi (o : VOp)
  | vfcospi (o : VOp)
  | vld (o : VLOp)
  | vlds (o : VLOp)
  | vldx (o : VLOp)
  | vldb (o : VLOp)
  | vfill (o : VLOp)
  | vst (o : VLOp)
  | vsts (o : VLOp)
  | vstx (o : VLOp)
  | vstb (o : VLOp)
  | vspill (o : VLOp)
  | chainedOperation (h : Nat)
  | queueElementsArrive (h : Nat)
  | vmove (o : VOp)
  | vsplat (o : VOp)
  | vmvxs (o : VOp)
  | vmvsx (o : VOp)
  | mopa (tile : BitVec 3) (va vb : Reg) (m : Bool) (pair : BitVec 3)
  | mopax (tile : BitVec 3) (vb vidx : Reg) (m : Bool) (pair : BitVec 3)
  | msclA (vs : Reg)
  | msclB (vs : Reg)
  | mzero (tile : BitVec 3)
  | mldt (tile : BitVec 3) (a s n : Reg)
  | mstt (tile : BitVec 3) (a s n : Reg)
  | mrdv (tile : BitVec 3) (vd n : Reg) (m : Bool)
  | mwrv (tile : BitVec 3) (vs n : Reg) (m : Bool)
  | sbind (q : BitVec 3) (a : Reg)
  | sbindc (q : BitVec 3) (a : Reg)
  | sunbind (q : BitVec 3)
  | vrgn (off : BitVec 16)
  | vrgne
  | lfork (off : BitVec 16)
  | ljoin
  | lexit
  | lxrd (d a b : Reg)
  | xcopy (d a b : Reg) (scope : BitVec 3) (acq rel : Bool)
  | xgath (d a b : Reg) (scope : BitVec 3) (acq rel : Bool)
  | xwait (a : Reg)
  | xwaitWake (h : Nat)
  | xpoll (d a : Reg)
  | commandPoolFreed (h : Nat)
  | engineCommandStart (cl : Nat) (token : Word)
  | engineCommandComplete (cl : Nat) (token : Word)
  | bkadd (d a b : Reg)
  | bkmax (d a b : Reg)
  | bkmul (d a b : Reg)
  | bksmx (d a b : Reg)
  | bkzero (a b : Reg)
  | bkred (d a b : Reg)
  | bankCommandPerform (cl id : Nat)
  | pyinit (d h : Reg)
  | pyapp (d h v : Reg)
  | pystat (d h : Reg) (settled : Bool)
  | pyld (vd h t xs : Reg) (level : BitVec 4) (settled : Bool)
  | instarInitRequest (ctx handle : Word)
  | instarAppend (ctx handle : Word) (item : List Byte)
  | instarMerge (ctx handle : Word)
  | instarLoadServe (ctx handle t : Word) (level : BitVec 4) (settled : Bool)
  | instarStatusServe (ctx handle : Word) (settled : Bool)
  | rcall (d o : Reg) (n : BitVec 6)
  | rread (d o : Reg) (n : BitVec 6)
  | callReturn (h : Nat)
  | logPositionAssign (obj die n : Nat) (args : List Word)
  | replayApplyEntry (obj die : Nat)
  | rreadRun (h : Nat)
  | logfullTimeout (h : Nat)
  | replicaRebuild (obj die : Nat)
  | logCopyRepair (obj copy die : Nat)
  | lnch (d a : Reg)
  | lnchW (d a : Reg)
  | lwait (d a : Reg)
  | lwaitRelease (h : Nat)
  | qpush (v n : Reg)
  | qpop (v n : Reg)
  | qstat (d n : Reg)
  | queueWaitWake (h : Nat)
  | time (d : Reg)
  | sleept (a : Reg)
  | sleeptWake (h : Nat)
  | evset (a b : Reg)
  | evwait (a b : Reg)
  | evwaitWake (h : Nat)
  | bar (a : Reg)
  | barRelease (cl b : Nat)
  | stageGroupDeadlock (cl : Nat)
  | nmrun (d a : Reg)
  | nmbag (d a : Reg)
  | nmwait (a : Reg)
  | nmwaitWake (h : Nat)
  | nrnext
  | nrseek (a : Reg)
  | nrwb (v : Reg)
  | nmuKernelStart (ch : Nat)
  | nmuStepLimit (ch : Nat)
  | nmbagRun (ch : Nat)
  | chunkDecode (h : Nat) (q : BitVec 3)
  | pageRequestResponse (req : Nat) (success : Bool)
  | invalidationRequest (port : Nat) (addr : Word)
  | invalidationComplete
  | stopSkidTimeout (h : Nat)
  | dispatchIteration (queue seq : Nat) (places : List Nat)
  | launchEligible (queue seq : Nat)
  | priorityAging (queue seq : Nat)
  | preemptFold (h : Nat)
  | evictLaunch (queue seq cl : Nat)
  | hartResume (h place : Nat)
  | launchComplete (queue seq : Nat)
  | supervisorStopLaunch (queue seq : Nat)
  | shaltWrite (h : Nat) (value : Word)
  | dieReset (die : Nat)
  | laneRetire (core lane : Nat)
  | hartStateError (h : Nat)
  | hqownClaim (port n : Nat)
  | hqownRelease (port n : Nat)
  | hqsubSubmit (port n : Nat) (addr : Word)
  | objectRegister (port : Nat) (addr : Word)
  | objectDeregister (port : Nat) (handle : Word)
  | semaphoreClaim (port n : Nat)
  | semaphoreRelease (port n : Nat)
  | evadd (port : Nat) (value : Word)
  | evclr (port : Nat) (value : Word)
  | dbctxWrite (n : Nat) (value : Word)
  | dbctlStop (n : Nat)
  | dbctlResume (n : Nat)
  | dbringWrite (n : Nat) (value : Word)
  | dbtailWrite (n : Nat) (value : Word)
  | portMessageAccept (port : Nat) (msg : Message)
  | replayDivergenceTimeout (port : Nat)
  | registerWrite (port offset : Nat) (value : Word)
  | refreshDue (ch bank : Nat)
  | channelPowerdownTimeout (ch : Nat)
  | channelPowerdown (ch : Nat)
  | channelWake (ch : Nat)
  | moduleReset
  | mbgoFetch (port : Nat) (value : Word)
  | recoveryFetchComplete
  | hdmDecoderCommit (port : Nat) (base size : Word)
  | portLinkDown (port : Nat) (sameHost : Bool)
  | spdmRequest (port : Nat) (nonce : Word)
  | cocoonConfigUnlocked (id : Nat) (ctx : Word)
  | cocoonConfigLocked (id : Nat)
  | cocoonRun (id : Nat)
  | cocoonError (id : Nat)
  | tenantDebugEnable (id : Nat)
  | powerClockStep (divider : Nat)
  | idleEntry
  | standbyEntry
  | activeReturn
  | thermalTrip
  | flitCrcRetry (port : Nat)
  | messageAck (port n : Nat) (received : Bool)
  | scaleupPortFail (port other : Nat)
  | remoteAccessTimeout (who : Accessor)
  | illegalInstruction (w : BitVec 32)
  | accessPerformed (who : Accessor)
  | clockCycle (use mask bvl dead : Nat)
  | supervisorResume (h : Nat)
  | contextCreate (ctx sptb : Word)
  | contextEnd (ctx : Word)
  | channelReset (ch : Nat)
  | dieBack (die : Nat)
  | cxlMemRequest (port : Nat) (req : MemRequest)
  | cxlCacheSnoop (port : Nat) (addr : Word) (exclusive : Bool)
  | atomicopRequest (port : Nat) (addr : Word)
  | remoteRequest (port n dev : Nat) (req : MemRequest)
  | patrolScrub (gran : Nat)
  deriving DecidableEq, Repr

end Sys2Proof
end

