-- ==== Sys2Proof/WellFormed.lean ====
section
/-!
DEFINITION. When an instruction is well formed: the checks on a word that need no state (check 1 of R89), each with a
name of its own.
-/

namespace Sys2Proof

/-- The rounding codes an instruction may name (R37): 0 to 4 and 7. -/
def rmOk (rm : BitVec 3) : Bool := rm != 5#3 && rm != 6#3

/-- Scope codes 0 to 5 (R91, R93, R102). -/
def scopeOk (s : BitVec 3) : Bool := s.toNat ≤ 5

/-- A LOOP offset is at least 1 (R92). -/
def loopOffOk (off : BitVec 16) : Bool := off != 0#16 && !off.getLsbD 15

/-- The format pair of MOPA and MOPAX is 0, 1 or 2 (R99). -/
def pairOk (p : BitVec 3) : Bool := p.toNat ≤ 2

/-- A legal PFX word (R103). -/
def pfxOk (pred copy emask : Reg) (rm : BitVec 3) (pv cv ev : Bool) (chain : BitVec 5) : Bool :=
  (pv || pred == 0#5) && (cv || copy == 0#5) && (ev || emask == 0#5) && rmOk rm && chain.toNat ≤ 8 &&
    (pv || cv || ev || rm != 7#3 || chain != 0#5)

/-- Format codes 0x9 to 0xC are the block formats (R33). -/
def fmtIsBlock (f : Nat) : Bool := 9 ≤ f && f ≤ 12

/-- A legal `vtype` value (R33, R94): format 0 to 0xC, a block code only with a block format and never 3, blocks of 32
with the MX formats. -/
def vtypeOk (vt : BitVec 10) : Bool :=
  let f := (vt.extractLsb' 0 4).toNat
  let blk := (vt.extractLsb' 6 2).toNat
  f ≤ 12 && blk ≤ 2 && (fmtIsBlock f || blk == 0) && (f ≤ 9 || blk == 2)

/-- With q = 1 the vs1 field names q(vs1[2:0]) and vs1[4:3] must be 0 (R95). -/
def VOp.qOk (o : VOp) : Bool := !o.q || o.vs1.toNat < 8

/-- The vs2 field is unused (R97). -/
def VOp.noVs2 (o : VOp) : Bool := o.vs2 == 0#5

/-- The vs1 field is unused (R97). -/
def VOp.noVs1 (o : VOp) : Bool := o.vs1 == 0#5

/-- With q = 1 the register field names a queue in its low three bits and the others are 0 (R98). -/
def VLOp.qOk (o : VLOp) : Bool := !o.q || o.reg.toNat < 8

/-- The VL format field: a code of R33 or 0xF (R98). -/
def VLOp.fmtOk (o : VLOp) : Bool := o.fmt.toNat ≤ 12 || o.fmt == 15#4

/-- The word-level legality of an instruction: what R88 to R104 require of the fields its constructor carries, and for
a row without an encoding the ranges of its arguments. -/
def Instr.wf (i : Instr) : Bool :=
  match i with
  | .add _ _ _ => true
  | .sub _ _ _ => true
  | .and _ _ _ => true
  | .or _ _ _ => true
  | .xor _ _ _ => true
  | .andn _ _ _ => true
  | .shl _ _ _ => true
  | .shr _ _ _ => true
  | .sra _ _ _ => true
  | .rol _ _ _ => true
  | .ror _ _ _ => true
  | .slt _ _ _ => true
  | .sltn _ _ _ => true
  | .min _ _ _ => true
  | .max _ _ _ => true
  | .minn _ _ _ => true
  | .maxn _ _ _ => true
  | .mul _ _ _ => true
  | .mulh _ _ _ => true
  | .mulhn _ _ _ => true
  | .div _ _ _ => true
  | .divn _ _ _ => true
  | .rem _ _ _ => true
  | .remn _ _ _ => true
  | .clz _ _ => true
  | .ctz _ _ => true
  | .popc _ _ => true
  | .sextb _ _ => true
  | .sexth _ _ => true
  | .sextw _ _ => true
  | .addi _ _ _ => true
  | .andi _ _ _ => true
  | .ori _ _ _ => true
  | .xori _ _ _ => true
  | .slti _ _ _ => true
  | .lih _ _ _ => true
  | .shli _ _ _ => true
  | .shri _ _ _ => true
  | .srai _ _ _ => true
  | .fadd _ _ _ rm => rmOk rm
  | .fsub _ _ _ rm => rmOk rm
  | .fmul _ _ _ rm => rmOk rm
  | .fdiv _ _ _ rm => rmOk rm
  | .fsqrt _ _ rm => rmOk rm
  | .fmadd _ _ _ rm => rmOk rm
  | .fmin _ _ _ => true
  | .fmax _ _ _ => true
  | .feq _ _ _ => true
  | .flt _ _ _ => true
  | .fle _ _ _ => true
  | .fcvt _ _ _ rm => rmOk rm
  | .fclass _ _ => true
  | .ldb _ _ _ => true
  | .ldh _ _ _ => true
  | .ldw _ _ _ => true
  | .ldd _ _ _ => true
  | .ldbn _ _ _ => true
  | .ldhn _ _ _ => true
  | .ldwn _ _ _ => true
  | .stb _ _ _ => true
  | .sth _ _ _ => true
  | .stw _ _ _ => true
  | .std _ _ _ => true
  | .amoadd _ _ _ _ _ scope => scopeOk scope
  | .amoand _ _ _ _ _ scope => scopeOk scope
  | .amoor _ _ _ _ _ scope => scopeOk scope
  | .amoxor _ _ _ _ _ scope => scopeOk scope
  | .amomin _ _ _ _ _ scope => scopeOk scope
  | .amomax _ _ _ _ _ scope => scopeOk scope
  | .amominn _ _ _ _ _ scope => scopeOk scope
  | .amomaxn _ _ _ _ _ scope => scopeOk scope
  | .amoswap _ _ _ _ _ scope => scopeOk scope
  | .amocas _ _ _ _ _ scope => scopeOk scope
  | .amofadd _ _ _ _ _ scope => scopeOk scope
  | .beq _ _ _ => true
  | .bne _ _ _ => true
  | .blt _ _ _ => true
  | .bge _ _ _ => true
  | .bltn _ _ _ => true
  | .bgen _ _ _ => true
  | .jal _ => true
  | .jalr _ _ _ => true
  | .loop _ off => loopOffOk off
  | .csrr _ _ => true
  | .csrw _ _ => true
  | .csrs _ _ => true
  | .csrc _ _ => true
  | .trap _ => true
  | .brk _ => true
  | .eret => true
  | .fence scope => scopeOk scope
  | .fenceSv => true
  | .fenceVs => true
  | .fenceVv => true
  | .sbar mask => mask != 0#11
  | .ifence => true
  | .yield => true
  | .halt => true
  | .haltDrained h => decide (h < 3584)
  | .pfx pred copy emask rm pv cv ev chain => pfxOk pred copy emask rm pv cv ev chain
  | .vsetl _ _ b vt => vtypeOk vt && (vt.getLsbD 8 || b == 0#5)
  | .vlenq _ => true
  | .vadd o => o.qOk && !o.e && !o.i
  | .vsub o => o.qOk && !o.e && !o.i
  | .vrsub o => o.qOk && !o.e && !o.i
  | .vmul o => o.qOk && !o.e && !o.i
  | .vmulh o => o.qOk && !o.e && !o.i
  | .vmulhn o => o.qOk && !o.e && !o.i
  | .vmacc o => o.qOk && !o.e && !o.i
  | .vand o => o.qOk && !o.e && !o.i
  | .vor o => o.qOk && !o.e && !o.i
  | .vxor o => o.qOk && !o.e && !o.i
  | .vshl o => o.qOk && !o.e && !o.i
  | .vshr o => o.qOk && !o.e && !o.i
  | .vsra o => o.qOk && !o.e && !o.i
  | .vmin o => o.qOk && !o.e && !o.i
  | .vmax o => o.qOk && !o.e && !o.i
  | .vminn o => o.qOk && !o.e && !o.i
  | .vmaxn o => o.qOk && !o.e && !o.i
  | .vsadd o => o.qOk && !o.i
  | .vssub o => o.qOk && !o.i
  | .vsaddn o => o.qOk && !o.i
  | .vssubn o => o.qOk && !o.i
  | .vclz o => o.qOk && !o.e && !o.i && o.noVs2
  | .vctz o => o.qOk && !o.e && !o.i && o.noVs2
  | .vpopc o => o.qOk && !o.e && !o.i && o.noVs2
  | .vmseq o => o.qOk && !o.e && !o.i
  | .vmsne o => o.qOk && !o.e && !o.i
  | .vmslt o => o.qOk && !o.e && !o.i
  | .vmsle o => o.qOk && !o.e && !o.i
  | .vmsltn o => o.qOk && !o.e && !o.i
  | .vmslen o => o.qOk && !o.e && !o.i
  | .vaddVx o => o.qOk && !o.e
  | .vsubVx o => o.qOk && !o.e
  | .vrsubVx o => o.qOk && !o.e
  | .vmulVx o => o.qOk && !o.e
  | .vmulhVx o => o.qOk && !o.e
  | .vmulhnVx o => o.qOk && !o.e
  | .vmaccVx o => o.qOk && !o.e
  | .vandVx o => o.qOk && !o.e
  | .vorVx o => o.qOk && !o.e
  | .vxorVx o => o.qOk && !o.e
  | .vshlVx o => o.qOk && !o.e
  | .vshrVx o => o.qOk && !o.e
  | .vsraVx o => o.qOk && !o.e
  | .vminVx o => o.qOk && !o.e
  | .vmaxVx o => o.qOk && !o.e
  | .vminnVx o => o.qOk && !o.e
  | .vmaxnVx o => o.qOk && !o.e
  | .vsaddVx o => o.qOk
  | .vssubVx o => o.qOk
  | .vsaddnVx o => o.qOk
  | .vssubnVx o => o.qOk
  | .vmseqVx o => o.qOk && !o.e
  | .vmsneVx o => o.qOk && !o.e
  | .vmsltVx o => o.qOk && !o.e
  | .vmsleVx o => o.qOk && !o.e
  | .vmsltnVx o => o.qOk && !o.e
  | .vmslenVx o => o.qOk && !o.e
  | .vfadd o => o.qOk && !o.i
  | .vfsub o => o.qOk && !o.i
  | .vfmul o => o.qOk && !o.i
  | .vfdiv o => o.qOk && !o.i
  | .vfsqrt o => o.qOk && !o.i && o.noVs2
  | .vfma o => o.qOk && !o.i
  | .vfms o => o.qOk && !o.i
  | .vfnma o => o.qOk && !o.i
  | .vfmin o => o.qOk && !o.i
  | .vfmax o => o.qOk && !o.i
  | .vfminp o => o.qOk && !o.i
  | .vfmaxp o => o.qOk && !o.i
  | .vfabs o => o.qOk && !o.i && o.noVs2
  | .vfneg o => o.qOk && !o.i && o.noVs2
  | .vfsgnj o => o.qOk && !o.i
  | .vfclass o => o.qOk && !o.i && o.noVs2
  | .vfwma o => o.qOk && !o.i
  | .vfwadd o => o.qOk && !o.i
  | .vmfeq o => o.qOk && !o.i
  | .vmflt o => o.qOk && !o.i
  | .vmfle o => o.qOk && !o.i
  | .vmfun o => o.qOk && !o.i
  | .vfaddVf o => o.qOk && !o.i
  | .vfsubVf o => o.qOk && !o.i
  | .vfmulVf o => o.qOk && !o.i
  | .vfdivVf o => o.qOk && !o.i
  | .vfmaVf o => o.qOk && !o.i
  | .vfmsVf o => o.qOk && !o.i
  | .vfnmaVf o => o.qOk && !o.i
  | .vfminVf o => o.qOk && !o.i
  | .vfmaxVf o => o.qOk && !o.i
  | .vfminpVf o => o.qOk && !o.i
  | .vfmaxpVf o => o.qOk && !o.i
  | .vfsgnjVf o => o.qOk && !o.i
  | .vmfeqVf o => o.qOk && !o.i
  | .vmfltVf o => o.qOk && !o.i
  | .vmfleVf o => o.qOk && !o.i
  | .vmfunVf o => o.qOk && !o.i
  | .vfaddx o => o.qOk && !o.i
  | .vfsubx o => o.qOk && !o.i
  | .vfmulx o => o.qOk && !o.i
  | .vdwadd o => !o.q && !o.i
  | .vdwadds o => !o.q && !o.i
  | .vdwmul o => !o.q && !o.i
  | .vdwren o => !o.q && !o.i && o.noVs2
  | .vredsum o => o.qOk && !o.ma && !o.i
  | .vredmax o => o.qOk && !o.ma && !o.i
  | .vredmin o => o.qOk && !o.ma && !o.i
  | .vfredo o => o.qOk && !o.ma && !o.i
  | .vfredt o => o.qOk && !o.ma && !o.i
  | .vfredc o => o.qOk && !o.ma && !o.i
  | .vfredmax o => o.qOk && !o.ma && !o.i
  | .vfredmin o => o.qOk && !o.ma && !o.i
  | .vslideup o => o.qOk && !o.e && (!o.i || !o.vs2.getLsbD 4)
  | .vslidedn o => o.qOk && !o.e && (!o.i || !o.vs2.getLsbD 4)
  | .vslide1up o => o.qOk && !o.e && !o.i
  | .vslide1dn o => o.qOk && !o.e && !o.i
  | .vpermv o => o.qOk && !o.e && !o.i
  | .vcompress o => o.qOk && !o.e && !o.i && o.noVs2
  | .vexpand o => o.qOk && !o.e && !o.i && o.noVs2
  | .vmerge o => o.qOk && !o.e && !o.i
  | .vid o => !o.q && !o.e && !o.i && o.noVs1 && o.noVs2
  | .viota o => o.qOk && !o.e && !o.i && o.noVs2
  | .vmand o => !o.m && !o.ma && !o.e && !o.q && !o.i
  | .vmor o => !o.m && !o.ma && !o.e && !o.q && !o.i
  | .vmxor o => !o.m && !o.ma && !o.e && !o.q && !o.i
  | .vmandn o => !o.m && !o.ma && !o.e && !o.q && !o.i
  | .vmnot o => !o.m && !o.ma && !o.e && !o.q && !o.i && o.noVs2
  | .vmpopc o => !o.ta && !o.ma && !o.e && !o.q && !o.i && o.noVs2
  | .vmfirst o => !o.ta && !o.ma && !o.e && !o.q && !o.i && o.noVs2
  | .vmany o => !o.ta && !o.ma && !o.e && !o.q && !o.i && o.noVs2
  | .vfcvt o => o.qOk && !o.i && !o.vs2.getLsbD 4
  | .vfwcvt o => o.qOk && !o.i && !o.vs2.getLsbD 4
  | .vfncvt o => o.qOk && !o.vs2.getLsbD 4
  | .vbdec o => !o.q && !o.e && !o.i && o.noVs2
  | .vbenc o => o.qOk && !o.m && !o.ma && !o.i && o.noVs2
  | .vunpk o => o.qOk && !o.e && !o.i && (o.vs2 == 4#5 || o.vs2 == 8#5 || o.vs2 == 16#5)
  | .vpack o => o.qOk && !o.e && !o.i && (o.vs2 == 4#5 || o.vs2 == 8#5 || o.vs2 == 16#5)
  | .vlut o => o.qOk && !o.e && !o.i
  | .vfrcp o => o.qOk && !o.i && o.noVs2
  | .vfrsqrt o => o.qOk && !o.i && o.noVs2
  | .vfexp2 o => o.qOk && !o.i && o.noVs2
  | .vflog2 o => o.qOk && !o.i && o.noVs2
  | .vfsinpi o => o.qOk && !o.i && o.noVs2
  | .vfcospi o => o.qOk && !o.i && o.noVs2
  | .vld o => o.fmtOk && o.qOk && o.idx == 0#5
  | .vlds o => o.fmtOk && o.qOk
  | .vldx o => o.fmtOk && o.qOk
  | .vldb o => o.fmtOk && !o.q
  | .vfill o => o.fmtOk && !o.q && !o.ta && !o.ma && o.idx == 0#5
  | .vst o => o.fmtOk && o.qOk && !o.ta && !o.ma && o.idx == 0#5
  | .vsts o => o.fmtOk && !o.q && !o.ta && !o.ma
  | .vstx o => o.fmtOk && !o.q && !o.ta && !o.ma
  | .vstb o => o.fmtOk && !o.q && !o.ta && !o.ma
  | .vspill o => o.fmtOk && !o.q && !o.ta && !o.ma && o.idx == 0#5
  | .chainedOperation h => decide (h < 3584)
  | .queueElementsArrive h => decide (h < 3584)
  | .vmove o => o.qOk && !o.e && !o.i && o.noVs2
  | .vsplat o => !o.q && !o.e && !o.i && o.noVs1
  | .vmvxs o => o.qOk && !o.m && !o.ta && !o.ma && !o.e && !o.i && o.noVs2
  | .vmvsx o => !o.q && !o.e && !o.i && o.noVs1
  | .mopa _ _ _ _ pair => pairOk pair
  | .mopax _ _ _ _ pair => pairOk pair
  | .msclA _ => true
  | .msclB _ => true
  | .mzero _ => true
  | .mldt _ _ _ _ => true
  | .mstt _ _ _ _ => true
  | .mrdv _ _ _ _ => true
  | .mwrv _ _ _ _ => true
  | .sbind _ _ => true
  | .sbindc _ _ => true
  | .sunbind _ => true
  | .vrgn off => off != 0#16
  | .vrgne => true
  | .lfork off => off != 0#16
  | .ljoin => true
  | .lexit => true
  | .lxrd _ _ _ => true
  | .xcopy d _ _ scope _ _ => !d.getLsbD 0 && scopeOk scope
  | .xgath d _ _ scope _ _ => !d.getLsbD 0 && scopeOk scope
  | .xwait _ => true
  | .xwaitWake h => decide (h < 3584)
  | .xpoll _ _ => true
  | .commandPoolFreed h => decide (h < 3584)
  | .engineCommandStart cl _ => decide (cl < 224)
  | .engineCommandComplete cl _ => decide (cl < 224)
  | .bkadd _ _ _ => true
  | .bkmax _ _ _ => true
  | .bkmul _ _ _ => true
  | .bksmx _ _ _ => true
  | .bkzero _ _ => true
  | .bkred _ _ _ => true
  | .bankCommandPerform cl _ => decide (cl < 224)
  | .pyinit _ _ => true
  | .pyapp _ _ _ => true
  | .pystat _ _ _ => true
  | .pyld _ _ _ _ _ _ => true
  | .instarInitRequest _ _ => true
  | .instarAppend _ _ _ => true
  | .instarMerge _ _ => true
  | .instarLoadServe _ _ _ _ _ => true
  | .instarStatusServe _ _ _ => true
  | .rcall _ _ _ => true
  | .rread _ _ _ => true
  | .callReturn h => decide (h < 3584)
  | .logPositionAssign obj die n args => decide (obj < 4096) && decide (die < 4) && decide (n < 64) && decide (args.length = 6)
  | .replayApplyEntry obj die => decide (obj < 4096) && decide (die < 4)
  | .rreadRun h => decide (h < 3584)
  | .logfullTimeout h => decide (h < 3584)
  | .replicaRebuild obj die => decide (obj < 4096) && decide (die < 4)
  | .logCopyRepair obj copy die => decide (obj < 4096) && decide (copy < 2) && decide (die < 4)
  | .lnch _ _ => true
  | .lnchW _ _ => true
  | .lwait _ _ => true
  | .lwaitRelease h => decide (h < 3584)
  | .qpush _ n => !n.getLsbD 4
  | .qpop _ n => !n.getLsbD 4
  | .qstat _ n => !n.getLsbD 4
  | .queueWaitWake h => decide (h < 3584)
  | .time _ => true
  | .sleept _ => true
  | .sleeptWake h => decide (h < 3584)
  | .evset _ _ => true
  | .evwait _ _ => true
  | .evwaitWake h => decide (h < 3584)
  | .bar _ => true
  | .barRelease cl b => decide (cl < 224) && decide (b < 16)
  | .stageGroupDeadlock cl => decide (cl < 224)
  | .nmrun _ _ => true
  | .nmbag _ _ => true
  | .nmwait _ => true
  | .nmwaitWake h => decide (h < 3584)
  | .nrnext => true
  | .nrseek _ => true
  | .nrwb _ => true
  | .nmuKernelStart ch => decide (ch < 384)
  | .nmuStepLimit ch => decide (ch < 384)
  | .nmbagRun ch => decide (ch < 384)
  | .chunkDecode h _ => decide (h < 3584)
  | .pageRequestResponse _ _ => true
  | .invalidationRequest port _ => decide (port < 2)
  | .invalidationComplete => true
  | .stopSkidTimeout h => decide (h < 3584)
  | .dispatchIteration queue _ _ => decide (queue < 68)
  | .launchEligible queue _ => decide (queue < 68)
  | .priorityAging queue _ => decide (queue < 68)
  | .preemptFold h => decide (h < 3584)
  | .evictLaunch queue _ cl => decide (queue < 68) && decide (cl < 224)
  | .hartResume h place => decide (h < 3584) && decide (place < 3584)
  | .launchComplete queue _ => decide (queue < 68)
  | .supervisorStopLaunch queue _ => decide (queue < 68)
  | .shaltWrite h _ => decide (h < 3584)
  | .dieReset die => decide (die < 4)
  | .laneRetire core lane => decide (core < 1792) && decide (lane < 16)
  | .hartStateError h => decide (h < 3584)
  | .hqownClaim port n => decide (port < 2) && decide (n < 64)
  | .hqownRelease port n => decide (port < 2) && decide (n < 64)
  | .hqsubSubmit port n _ => decide (port < 2) && decide (n < 64)
  | .objectRegister port _ => decide (port < 2)
  | .objectDeregister port _ => decide (port < 2)
  | .semaphoreClaim port n => decide (port < 2) && decide (n < 16)
  | .semaphoreRelease port n => decide (port < 2) && decide (n < 16)
  | .evadd port _ => decide (port < 2)
  | .evclr port _ => decide (port < 2)
  | .dbctxWrite n _ => decide (n < 64)
  | .dbctlStop n => decide (n < 64)
  | .dbctlResume n => decide (n < 64)
  | .dbringWrite n _ => decide (n < 64)
  | .dbtailWrite n _ => decide (n < 64)
  | .portMessageAccept port _ => decide (port < 65536)
  | .replayDivergenceTimeout port => decide (port < 65536)
  | .registerWrite port _ _ => decide (port < 2)
  | .refreshDue ch _ => decide (ch < 384)
  | .channelPowerdownTimeout ch => decide (ch < 384)
  | .channelPowerdown ch => decide (ch < 384)
  | .channelWake ch => decide (ch < 384)
  | .moduleReset => true
  | .mbgoFetch port _ => decide (port < 2)
  | .recoveryFetchComplete => true
  | .hdmDecoderCommit port _ _ => decide (port < 2)
  | .portLinkDown port _ => decide (port < 2)
  | .spdmRequest port _ => decide (port < 2)
  | .cocoonConfigUnlocked id _ => decide (0 < id) && decide (id < 65536)
  | .cocoonConfigLocked id => decide (0 < id) && decide (id < 65536)
  | .cocoonRun id => decide (0 < id) && decide (id < 65536)
  | .cocoonError id => decide (0 < id) && decide (id < 65536)
  | .tenantDebugEnable id => decide (0 < id) && decide (id < 65536)
  | .powerClockStep _ => true
  | .idleEntry => true
  | .standbyEntry => true
  | .activeReturn => true
  | .thermalTrip => true
  | .flitCrcRetry port => decide (port < 18)
  | .messageAck port _ _ => decide (port < 18)
  | .scaleupPortFail port other => decide (port < 18) && decide (other < 18)
  | .remoteAccessTimeout _ => true
  | .illegalInstruction _ => true
  | .accessPerformed _ => true
  | .clockCycle _ _ _ _ => true
  | .supervisorResume h => decide (h < 3584)
  | .contextCreate _ _ => true
  | .contextEnd _ => true
  | .channelReset ch => decide (ch < 384)
  | .dieBack die => decide (die < 4)
  | .cxlMemRequest port _ => decide (port < 2)
  | .cxlCacheSnoop port _ _ => decide (port < 2)
  | .atomicopRequest port _ => decide (port < 2)
  | .remoteRequest port _ dev _ => decide (port < 18) && decide (dev < 512)
  | .patrolScrub _ => true

end Sys2Proof
end

