-- ==== Sys2Proof/Decode.lean ====
section
/-!
DEFINITION. The decoder and the encoder of the 32-bit instruction words (R85 to R104).  `decode` is total: a word is an
instruction, or it is refused by name (R88).  The layouts of R85 are written once, as the words they spell; a word is
accepted only when its fields satisfy `Instr.wf` and writing the instruction back gives the same word (R88: no bit of a
word is ignored).  What builds an `Instr` is noncomputable only because Lean's compiled form has room for 244 constructors
with fields and the table has 409 rows; the kernel evaluates it all the same.
-/

namespace Sys2Proof

/-! ## The layouts of R85 -/

/-- A modifier bit. -/
def bit (b : Bool) : BitVec 1 := BitVec.ofBool b

/-- X format: major, d, a, b, fn11. -/
def xWord (major : BitVec 6) (d a b : Reg) (fn : BitVec 11) : BitVec 32 := major ++ d ++ a ++ b ++ fn

/-- I, S and B formats: major, two register fields, a 16-bit field. -/
def iWord (major : BitVec 6) (d a : Reg) (imm : BitVec 16) : BitVec 32 := major ++ d ++ a ++ imm

/-- J format: major and a 26-bit offset. -/
def jWord (major : BitVec 6) (off : BitVec 26) : BitVec 32 := major ++ off

/-- SYS layout: major 0, d, a, fn, arg12. -/
def sysWord (d a : Reg) (fn : BitVec 4) (arg : BitVec 12) : BitVec 32 := 0#6 ++ d ++ a ++ fn ++ arg

/-- V format: major, vd, vs1, vs2, m, ta, ma, e, q, i, op. -/
def vWord (major : BitVec 6) (o : VOp) (op : BitVec 5) : BitVec 32 :=
  major ++ o.vd ++ o.vs1 ++ o.vs2 ++ bit o.m ++ bit o.ta ++ bit o.ma ++ bit o.e ++ bit o.q ++ bit o.i ++ op

/-- VL format: major, reg, base, idx, m, ta, ma, q, mode, format. -/
def vlWord (major : BitVec 6) (o : VLOp) (mode : BitVec 3) : BitVec 32 :=
  major ++ o.reg ++ o.base ++ o.idx ++ bit o.m ++ bit o.ta ++ bit o.ma ++ bit o.q ++ mode ++ o.fmt

/-- M format: major, tile, vs1, vs2, v index, m, format pair, fn. -/
def mWord (major : BitVec 6) (tile : BitVec 3) (a b c : Reg) (m : Bool) (pair : BitVec 3) (fn : BitVec 4) : BitVec 32 :=
  major ++ tile ++ a ++ b ++ c ++ bit m ++ pair ++ fn

/-- P format (PFX), and the E format of XENG, which has the same field widths. -/
def pWord (major : BitVec 6) (d a b : Reg) (r : BitVec 3) (u v : Bool) (w : BitVec 6) : BitVec 32 :=
  major ++ d ++ a ++ b ++ r ++ bit u ++ bit v ++ w

/-- VSETL and VLENQ: major 0x21, d, a, b, the selector bit, vtype[9:0] (R94). -/
def setlWord (d a b : Reg) (sel : BitVec 1) (vt : BitVec 10) : BitVec 32 := 0x21#6 ++ d ++ a ++ b ++ sel ++ vt

/-- LXRD: major 0x34, selector 3, d, a, vb, nine zero bits (R101). -/
def laneXrd (d a b : Reg) : BitVec 32 := 0x34#6 ++ 3#2 ++ d ++ a ++ b ++ 0#9

/-! ## Reading the fields of a word -/

def wMajor (w : BitVec 32) : BitVec 6 := w.extractLsb' 26 6
/-- Bits [25:21]. -/
def wD (w : BitVec 32) : Reg := w.extractLsb' 21 5
/-- Bits [20:16]. -/
def wA (w : BitVec 32) : Reg := w.extractLsb' 16 5
/-- Bits [15:11]. -/
def wB (w : BitVec 32) : Reg := w.extractLsb' 11 5
/-- Bits [15:0]. -/
def wImm (w : BitVec 32) : BitVec 16 := w.extractLsb' 0 16
/-- Bits [10:0]. -/
def wFn (w : BitVec 32) : BitVec 11 := w.extractLsb' 0 11
/-- Bits [11:0] (SYS). -/
def wArg (w : BitVec 32) : BitVec 12 := w.extractLsb' 0 12
/-- Bit `n` of the word. -/
def wBit (w : BitVec 32) (n : Nat) : Bool := w.getLsbD n
/-- The V-format fields. -/
def wV (w : BitVec 32) : VOp :=
  { vd := wD w, vs1 := wA w, vs2 := wB w, m := wBit w 10, ta := wBit w 9, ma := wBit w 8, e := wBit w 7,
    q := wBit w 6, i := wBit w 5 }
/-- The VL-format fields. -/
def wVL (w : BitVec 32) : VLOp :=
  { reg := wD w, base := wA w, idx := wB w, m := wBit w 10, ta := wBit w 9, ma := wBit w 8, q := wBit w 7,
    fmt := w.extractLsb' 0 4 }
/-- The tile field [25:23] of the M format; also the queue field of STRM at [23:21] is `wQ`. -/
def wTile (w : BitVec 32) : BitVec 3 := w.extractLsb' 23 3
/-- M format vs1, [22:18]. -/
def wMa (w : BitVec 32) : Reg := w.extractLsb' 18 5
/-- M format vs2, [17:13]. -/
def wMb (w : BitVec 32) : Reg := w.extractLsb' 13 5
/-- M format v index, [12:8]. -/
def wMc (w : BitVec 32) : Reg := w.extractLsb' 8 5
/-- STRM queue field, [23:21]. -/
def wQ (w : BitVec 32) : BitVec 3 := w.extractLsb' 21 3

/-- The names under which a word is refused. -/
inductive Reject where
  /-- Fewer than four bytes are left. -/
  | truncated
  /-- The major opcode is one R87 reserves. -/
  | reservedMajor
  /-- The function field holds a value the encoding chapter does not assign (R91 to R102). -/
  | reservedFunction
  /-- A field or modifier bit holds a value its instruction does not permit (R88, R92 to R104). -/
  | badField
  deriving DecidableEq, Repr


/-! ## Decoding, one function for each major with a function field -/

/-- Major 0x00: CSRR to HALT. -/
def decodeSys (w : BitVec 32) : Option Instr :=
  match (w.extractLsb' 12 4).toNat with
  | 0x1 => some (.csrr (wD w) (wArg w))
  | 0x2 => some (.csrw (wA w) (wArg w))
  | 0x3 => some (.csrs (wA w) (wArg w))
  | 0x4 => some (.csrc (wA w) (wArg w))
  | 0x5 => some (.trap (wArg w))
  | 0x6 => some (.brk (wArg w))
  | 0x7 => some (.eret)
  | 0x8 => some (.fence (w.extractLsb' 0 3))
  | 0xA => some (.sbar (w.extractLsb' 0 11))
  | 0xB => some (.ifence)
  | 0xC => some (.yield)
  | 0xD => some (.halt)
  | 0x9 => match (wArg w).toNat with | 0 => some .fenceSv | 1 => some .fenceVs | 2 => some .fenceVv | _ => none
  | _ => none

/-- Major 0x04: ADD to SEXTW. -/
def decodeAlu (w : BitVec 32) : Option Instr :=
  match (wFn w).toNat with
  | 0 => some (.add (wD w) (wA w) (wB w))
  | 1 => some (.sub (wD w) (wA w) (wB w))
  | 2 => some (.and (wD w) (wA w) (wB w))
  | 3 => some (.or (wD w) (wA w) (wB w))
  | 4 => some (.xor (wD w) (wA w) (wB w))
  | 5 => some (.andn (wD w) (wA w) (wB w))
  | 6 => some (.shl (wD w) (wA w) (wB w))
  | 7 => some (.shr (wD w) (wA w) (wB w))
  | 8 => some (.sra (wD w) (wA w) (wB w))
  | 9 => some (.rol (wD w) (wA w) (wB w))
  | 10 => some (.ror (wD w) (wA w) (wB w))
  | 11 => some (.slt (wD w) (wA w) (wB w))
  | 12 => some (.sltn (wD w) (wA w) (wB w))
  | 13 => some (.min (wD w) (wA w) (wB w))
  | 14 => some (.max (wD w) (wA w) (wB w))
  | 15 => some (.minn (wD w) (wA w) (wB w))
  | 16 => some (.maxn (wD w) (wA w) (wB w))
  | 17 => some (.mul (wD w) (wA w) (wB w))
  | 18 => some (.mulh (wD w) (wA w) (wB w))
  | 19 => some (.mulhn (wD w) (wA w) (wB w))
  | 20 => some (.div (wD w) (wA w) (wB w))
  | 21 => some (.divn (wD w) (wA w) (wB w))
  | 22 => some (.rem (wD w) (wA w) (wB w))
  | 23 => some (.remn (wD w) (wA w) (wB w))
  | 24 => some (.clz (wD w) (wA w))
  | 25 => some (.ctz (wD w) (wA w))
  | 26 => some (.popc (wD w) (wA w))
  | 27 => some (.sextb (wD w) (wA w))
  | 28 => some (.sexth (wD w) (wA w))
  | 29 => some (.sextw (wD w) (wA w))
  | _ => none

/-- Major 0x08: SHLI, SHRI, SRAI. -/
def decodeShi (w : BitVec 32) : Option Instr :=
  match (w.extractLsb' 6 2).toNat with
  | 0 => some (.shli (wD w) (wA w) (w.extractLsb' 0 6))
  | 1 => some (.shri (wD w) (wA w) (w.extractLsb' 0 6))
  | 2 => some (.srai (wD w) (wA w) (w.extractLsb' 0 6))
  | _ => none

/-- Major 0x0A: FADD to FCLASS. -/
def decodeFps (w : BitVec 32) : Option Instr :=
  match (w.extractLsb' 0 5).toNat with
  | 0 => some (.fadd (wD w) (wA w) (wB w) (w.extractLsb' 8 3))
  | 1 => some (.fsub (wD w) (wA w) (wB w) (w.extractLsb' 8 3))
  | 2 => some (.fmul (wD w) (wA w) (wB w) (w.extractLsb' 8 3))
  | 3 => some (.fdiv (wD w) (wA w) (wB w) (w.extractLsb' 8 3))
  | 4 => some (.fsqrt (wD w) (wA w) (w.extractLsb' 8 3))
  | 5 => some (.fmadd (wD w) (wA w) (wB w) (w.extractLsb' 8 3))
  | 6 => some (.fmin (wD w) (wA w) (wB w))
  | 7 => some (.fmax (wD w) (wA w) (wB w))
  | 8 => some (.feq (wD w) (wA w) (wB w))
  | 9 => some (.flt (wD w) (wA w) (wB w))
  | 10 => some (.fle (wD w) (wA w) (wB w))
  | 11 => some (.fcvt (wD w) (wA w) (w.extractLsb' 5 3) (w.extractLsb' 8 3))
  | 12 => some (.fclass (wD w) (wA w))
  | _ => none

/-- Major 0x17: AMOADD, AMOAND, AMOOR, AMOXOR, AMOMIN, AMOMAX, AMOMINN, AMOMAXN, AMOSWAP, AMOCAS, AMOFADD. -/
def decodeAmo (w : BitVec 32) : Option Instr :=
  match (w.extractLsb' 7 4).toNat with
  | 0 => some (.amoadd (wD w) (wA w) (wB w) (wBit w 6) (wBit w 5) (w.extractLsb' 2 3))
  | 1 => some (.amoand (wD w) (wA w) (wB w) (wBit w 6) (wBit w 5) (w.extractLsb' 2 3))
  | 2 => some (.amoor (wD w) (wA w) (wB w) (wBit w 6) (wBit w 5) (w.extractLsb' 2 3))
  | 3 => some (.amoxor (wD w) (wA w) (wB w) (wBit w 6) (wBit w 5) (w.extractLsb' 2 3))
  | 4 => some (.amomin (wD w) (wA w) (wB w) (wBit w 6) (wBit w 5) (w.extractLsb' 2 3))
  | 5 => some (.amomax (wD w) (wA w) (wB w) (wBit w 6) (wBit w 5) (w.extractLsb' 2 3))
  | 6 => some (.amominn (wD w) (wA w) (wB w) (wBit w 6) (wBit w 5) (w.extractLsb' 2 3))
  | 7 => some (.amomaxn (wD w) (wA w) (wB w) (wBit w 6) (wBit w 5) (w.extractLsb' 2 3))
  | 8 => some (.amoswap (wD w) (wA w) (wB w) (wBit w 6) (wBit w 5) (w.extractLsb' 2 3))
  | 9 => some (.amocas (wD w) (wA w) (wB w) (wBit w 6) (wBit w 5) (w.extractLsb' 2 3))
  | 10 => some (.amofadd (wD w) (wA w) (wB w) (wBit w 6) (wBit w 5) (w.extractLsb' 2 3))
  | _ => none

/-- Major 0x21: VSETL, VLENQ. -/
def decodeSetl (w : BitVec 32) : Option Instr :=
  match (w.extractLsb' 10 1).toNat with
  | 0 => some (.vsetl (wD w) (wA w) (wB w) (w.extractLsb' 0 10))
  | 1 => some (.vlenq (wD w))
  | _ => none

/-- Major 0x22: VADD to VMSLEN. -/
def decodeVint (w : BitVec 32) : Option Instr :=
  match (w.extractLsb' 0 5).toNat with
  | 0 => some (.vadd (wV w))
  | 1 => some (.vsub (wV w))
  | 2 => some (.vrsub (wV w))
  | 3 => some (.vmul (wV w))
  | 4 => some (.vmulh (wV w))
  | 5 => some (.vmulhn (wV w))
  | 6 => some (.vmacc (wV w))
  | 7 => some (.vand (wV w))
  | 8 => some (.vor (wV w))
  | 9 => some (.vxor (wV w))
  | 10 => some (.vshl (wV w))
  | 11 => some (.vshr (wV w))
  | 12 => some (.vsra (wV w))
  | 13 => some (.vmin (wV w))
  | 14 => some (.vmax (wV w))
  | 15 => some (.vminn (wV w))
  | 16 => some (.vmaxn (wV w))
  | 17 => some (.vsadd (wV w))
  | 18 => some (.vssub (wV w))
  | 19 => some (.vsaddn (wV w))
  | 20 => some (.vssubn (wV w))
  | 21 => some (.vclz (wV w))
  | 22 => some (.vctz (wV w))
  | 23 => some (.vpopc (wV w))
  | 24 => some (.vmseq (wV w))
  | 25 => some (.vmsne (wV w))
  | 26 => some (.vmslt (wV w))
  | 27 => some (.vmsle (wV w))
  | 28 => some (.vmsltn (wV w))
  | 29 => some (.vmslen (wV w))
  | _ => none

/-- Major 0x23: VADD_VX to VMSLEN_VX. -/
def decodeVintx (w : BitVec 32) : Option Instr :=
  match (w.extractLsb' 0 5).toNat with
  | 0 => some (.vaddVx (wV w))
  | 1 => some (.vsubVx (wV w))
  | 2 => some (.vrsubVx (wV w))
  | 3 => some (.vmulVx (wV w))
  | 4 => some (.vmulhVx (wV w))
  | 5 => some (.vmulhnVx (wV w))
  | 6 => some (.vmaccVx (wV w))
  | 7 => some (.vandVx (wV w))
  | 8 => some (.vorVx (wV w))
  | 9 => some (.vxorVx (wV w))
  | 10 => some (.vshlVx (wV w))
  | 11 => some (.vshrVx (wV w))
  | 12 => some (.vsraVx (wV w))
  | 13 => some (.vminVx (wV w))
  | 14 => some (.vmaxVx (wV w))
  | 15 => some (.vminnVx (wV w))
  | 16 => some (.vmaxnVx (wV w))
  | 17 => some (.vsaddVx (wV w))
  | 18 => some (.vssubVx (wV w))
  | 19 => some (.vsaddnVx (wV w))
  | 20 => some (.vssubnVx (wV w))
  | 24 => some (.vmseqVx (wV w))
  | 25 => some (.vmsneVx (wV w))
  | 26 => some (.vmsltVx (wV w))
  | 27 => some (.vmsleVx (wV w))
  | 28 => some (.vmsltnVx (wV w))
  | 29 => some (.vmslenVx (wV w))
  | _ => none

/-- Major 0x24: VFADD to VMFUN. -/
def decodeVfp (w : BitVec 32) : Option Instr :=
  match (w.extractLsb' 0 5).toNat with
  | 0 => some (.vfadd (wV w))
  | 1 => some (.vfsub (wV w))
  | 2 => some (.vfmul (wV w))
  | 3 => some (.vfdiv (wV w))
  | 4 => some (.vfsqrt (wV w))
  | 5 => some (.vfma (wV w))
  | 6 => some (.vfms (wV w))
  | 7 => some (.vfnma (wV w))
  | 8 => some (.vfmin (wV w))
  | 9 => some (.vfmax (wV w))
  | 10 => some (.vfminp (wV w))
  | 11 => some (.vfmaxp (wV w))
  | 12 => some (.vfabs (wV w))
  | 13 => some (.vfneg (wV w))
  | 14 => some (.vfsgnj (wV w))
  | 15 => some (.vfclass (wV w))
  | 16 => some (.vfwma (wV w))
  | 17 => some (.vfwadd (wV w))
  | 18 => some (.vmfeq (wV w))
  | 19 => some (.vmflt (wV w))
  | 20 => some (.vmfle (wV w))
  | 21 => some (.vmfun (wV w))
  | _ => none

/-- Major 0x25: VFADD_VF to VMFUN_VF. -/
def decodeVfpx (w : BitVec 32) : Option Instr :=
  match (w.extractLsb' 0 5).toNat with
  | 0 => some (.vfaddVf (wV w))
  | 1 => some (.vfsubVf (wV w))
  | 2 => some (.vfmulVf (wV w))
  | 3 => some (.vfdivVf (wV w))
  | 5 => some (.vfmaVf (wV w))
  | 6 => some (.vfmsVf (wV w))
  | 7 => some (.vfnmaVf (wV w))
  | 8 => some (.vfminVf (wV w))
  | 9 => some (.vfmaxVf (wV w))
  | 10 => some (.vfminpVf (wV w))
  | 11 => some (.vfmaxpVf (wV w))
  | 14 => some (.vfsgnjVf (wV w))
  | 18 => some (.vmfeqVf (wV w))
  | 19 => some (.vmfltVf (wV w))
  | 20 => some (.vmfleVf (wV w))
  | 21 => some (.vmfunVf (wV w))
  | _ => none

/-- Major 0x26: VFADDX, VFSUBX, VFMULX, VDWADD, VDWADDS, VDWMUL, VDWREN. -/
def decodeVpair (w : BitVec 32) : Option Instr :=
  match (w.extractLsb' 0 5).toNat with
  | 0 => some (.vfaddx (wV w))
  | 1 => some (.vfsubx (wV w))
  | 2 => some (.vfmulx (wV w))
  | 3 => some (.vdwadd (wV w))
  | 4 => some (.vdwadds (wV w))
  | 5 => some (.vdwmul (wV w))
  | 6 => some (.vdwren (wV w))
  | _ => none

/-- Major 0x27: VREDSUM, VREDMAX, VREDMIN, VFREDO, VFREDT, VFREDC, VFREDMAX, VFREDMIN. -/
def decodeVred (w : BitVec 32) : Option Instr :=
  match (w.extractLsb' 0 5).toNat with
  | 0 => some (.vredsum (wV w))
  | 1 => some (.vredmax (wV w))
  | 2 => some (.vredmin (wV w))
  | 3 => some (.vfredo (wV w))
  | 4 => some (.vfredt (wV w))
  | 5 => some (.vfredc (wV w))
  | 6 => some (.vfredmax (wV w))
  | 7 => some (.vfredmin (wV w))
  | _ => none

/-- Major 0x28: VSLIDEUP, VSLIDEDN, VSLIDE1UP, VSLIDE1DN, VPERMV, VCOMPRESS, VEXPAND, VMERGE, VID, VIOTA. -/
def decodeVperm (w : BitVec 32) : Option Instr :=
  match (w.extractLsb' 0 5).toNat with
  | 0 => some (.vslideup (wV w))
  | 1 => some (.vslidedn (wV w))
  | 2 => some (.vslide1up (wV w))
  | 3 => some (.vslide1dn (wV w))
  | 4 => some (.vpermv (wV w))
  | 5 => some (.vcompress (wV w))
  | 6 => some (.vexpand (wV w))
  | 7 => some (.vmerge (wV w))
  | 8 => some (.vid (wV w))
  | 9 => some (.viota (wV w))
  | _ => none

/-- Major 0x29: VMAND, VMOR, VMXOR, VMANDN, VMNOT, VMPOPC, VMFIRST, VMANY. -/
def decodeVmsk (w : BitVec 32) : Option Instr :=
  match (w.extractLsb' 0 5).toNat with
  | 0 => some (.vmand (wV w))
  | 1 => some (.vmor (wV w))
  | 2 => some (.vmxor (wV w))
  | 3 => some (.vmandn (wV w))
  | 4 => some (.vmnot (wV w))
  | 5 => some (.vmpopc (wV w))
  | 6 => some (.vmfirst (wV w))
  | 7 => some (.vmany (wV w))
  | _ => none

/-- Major 0x2A: VFCVT, VFWCVT, VFNCVT, VBDEC, VBENC. -/
def decodeVcvt (w : BitVec 32) : Option Instr :=
  match (w.extractLsb' 0 5).toNat with
  | 0 => some (.vfcvt (wV w))
  | 1 => some (.vfwcvt (wV w))
  | 2 => some (.vfncvt (wV w))
  | 3 => some (.vbdec (wV w))
  | 4 => some (.vbenc (wV w))
  | _ => none

/-- Major 0x2B: VUNPK, VPACK, VLUT. -/
def decodeVxf (w : BitVec 32) : Option Instr :=
  match (w.extractLsb' 0 5).toNat with
  | 0 => some (.vunpk (wV w))
  | 1 => some (.vpack (wV w))
  | 2 => some (.vlut (wV w))
  | _ => none

/-- Major 0x2C: VFRCP, VFRSQRT, VFEXP2, VFLOG2, VFSINPI, VFCOSPI. -/
def decodeVsfu (w : BitVec 32) : Option Instr :=
  match (w.extractLsb' 0 5).toNat with
  | 0 => some (.vfrcp (wV w))
  | 1 => some (.vfrsqrt (wV w))
  | 2 => some (.vfexp2 (wV w))
  | 3 => some (.vflog2 (wV w))
  | 4 => some (.vfsinpi (wV w))
  | 5 => some (.vfcospi (wV w))
  | _ => none

/-- Major 0x2D: VLD, VLDS, VLDX, VLDB, VFILL. -/
noncomputable def decodeVld (w : BitVec 32) : Option Instr :=
  match (w.extractLsb' 4 3).toNat with
  | 0 => some (.vld (wVL w))
  | 1 => some (.vlds (wVL w))
  | 2 => some (.vldx (wVL w))
  | 3 => some (.vldb (wVL w))
  | 4 => some (.vfill (wVL w))
  | _ => none

/-- Major 0x2E: VST, VSTS, VSTX, VSTB, VSPILL. -/
noncomputable def decodeVst (w : BitVec 32) : Option Instr :=
  match (w.extractLsb' 4 3).toNat with
  | 0 => some (.vst (wVL w))
  | 1 => some (.vsts (wVL w))
  | 2 => some (.vstx (wVL w))
  | 3 => some (.vstb (wVL w))
  | 4 => some (.vspill (wVL w))
  | _ => none

/-- Major 0x2F: VMOVE, VSPLAT, VMVXS, VMVSX. -/
noncomputable def decodeVmv (w : BitVec 32) : Option Instr :=
  match (w.extractLsb' 0 5).toNat with
  | 0 => some (.vmove (wV w))
  | 1 => some (.vsplat (wV w))
  | 2 => some (.vmvxs (wV w))
  | 3 => some (.vmvsx (wV w))
  | _ => none

/-- Major 0x30: MOPA, MOPAX, MSCL_A, MSCL_B. -/
noncomputable def decodeMopa (w : BitVec 32) : Option Instr :=
  match (w.extractLsb' 0 4).toNat with
  | 0 => some (.mopa (wTile w) (wMa w) (wMb w) (wBit w 7) (w.extractLsb' 4 3))
  | 1 => some (.mopax (wTile w) (wMb w) (wMc w) (wBit w 7) (w.extractLsb' 4 3))
  | 2 => some (.msclA (wMa w))
  | 3 => some (.msclB (wMa w))
  | _ => none

/-- Major 0x31: MZERO, MLDT, MSTT, MRDV, MWRV. -/
noncomputable def decodeMtile (w : BitVec 32) : Option Instr :=
  match (w.extractLsb' 0 4).toNat with
  | 0 => some (.mzero (wTile w))
  | 1 => some (.mldt (wTile w) (wMa w) (wMb w) (wMc w))
  | 2 => some (.mstt (wTile w) (wMa w) (wMb w) (wMc w))
  | 3 => some (.mrdv (wTile w) (wMa w) (wMc w) (wBit w 7))
  | 4 => some (.mwrv (wTile w) (wMa w) (wMc w) (wBit w 7))
  | _ => none

/-- Major 0x32: SBIND, SBINDC, SUNBIND. -/
noncomputable def decodeStrm (w : BitVec 32) : Option Instr :=
  match (wFn w).toNat with
  | 0 => some (.sbind (wQ w) (wA w))
  | 1 => some (.sbindc (wQ w) (wA w))
  | 2 => some (.sunbind (wQ w))
  | _ => none

/-- Major 0x33: VRGN, VRGNE. -/
noncomputable def decodeVrgn (w : BitVec 32) : Option Instr :=
  match (w.extractLsb' 25 1).toNat with
  | 0 => some (.vrgn (wImm w))
  | 1 => some .vrgne
  | _ => none

/-- Major 0x34: LFORK, LJOIN, LEXIT, LXRD. -/
noncomputable def decodeLane (w : BitVec 32) : Option Instr :=
  match (w.extractLsb' 24 2).toNat with
  | 0 => some (.lfork (wImm w))
  | 1 => some .ljoin
  | 2 => some .lexit
  | 3 => some (.lxrd (w.extractLsb' 19 5) (w.extractLsb' 14 5) (w.extractLsb' 9 5))
  | _ => none

/-- Major 0x35: XCOPY, XGATH, XWAIT, XPOLL. -/
noncomputable def decodeXeng (w : BitVec 32) : Option Instr :=
  match (w.extractLsb' 0 6).toNat with
  | 0 => some (.xcopy (wD w) (wA w) (wB w) (w.extractLsb' 8 3) (wBit w 7) (wBit w 6))
  | 1 => some (.xgath (wD w) (wA w) (wB w) (w.extractLsb' 8 3) (wBit w 7) (wBit w 6))
  | 2 => some (.xwait (wA w))
  | 3 => some (.xpoll (wD w) (wA w))
  | _ => none

/-- Major 0x36: BKADD, BKMAX, BKMUL, BKSMX, BKZERO, BKRED. -/
noncomputable def decodeBank (w : BitVec 32) : Option Instr :=
  match (wFn w).toNat with
  | 0 => some (.bkadd (wD w) (wA w) (wB w))
  | 1 => some (.bkmax (wD w) (wA w) (wB w))
  | 2 => some (.bkmul (wD w) (wA w) (wB w))
  | 3 => some (.bksmx (wD w) (wA w) (wB w))
  | 4 => some (.bkzero (wA w) (wB w))
  | 5 => some (.bkred (wD w) (wA w) (wB w))
  | _ => none

/-- Major 0x38: RCALL, RREAD. -/
noncomputable def decodeRcall (w : BitVec 32) : Option Instr :=
  match (w.extractLsb' 6 1).toNat with
  | 0 => some (.rcall (wD w) (wA w) (w.extractLsb' 0 6))
  | 1 => some (.rread (wD w) (wA w) (w.extractLsb' 0 6))
  | _ => none

/-- Major 0x39: LNCH, LNCH_W, LWAIT. -/
noncomputable def decodeLnch (w : BitVec 32) : Option Instr :=
  match (w.extractLsb' 0 2).toNat with
  | 0 => some (.lnch (wD w) (wA w))
  | 1 => some (.lnchW (wD w) (wA w))
  | 2 => some (.lwait (wD w) (wA w))
  | _ => none

/-- Major 0x3A: QPUSH, QPOP, QSTAT. -/
noncomputable def decodeQop (w : BitVec 32) : Option Instr :=
  match (wFn w).toNat with
  | 0 => some (.qpush (wD w) (wB w))
  | 1 => some (.qpop (wD w) (wB w))
  | 2 => some (.qstat (wD w) (wB w))
  | _ => none

/-- Major 0x3B: TIME, SLEEPT, EVSET, EVWAIT, BAR. -/
noncomputable def decodeSync (w : BitVec 32) : Option Instr :=
  match (wFn w).toNat with
  | 0 => some (.time (wD w))
  | 1 => some (.sleept (wA w))
  | 2 => some (.evset (wA w) (wB w))
  | 3 => some (.evwait (wA w) (wB w))
  | 4 => some (.bar (wA w))
  | _ => none

/-- Major 0x3C: NMRUN, NMBAG, NMWAIT, NRNEXT, NRSEEK, NRWB. -/
noncomputable def decodeNmu (w : BitVec 32) : Option Instr :=
  match (wFn w).toNat with
  | 0 => some (.nmrun (wD w) (wA w))
  | 1 => some (.nmbag (wD w) (wA w))
  | 2 => some (.nmwait (wA w))
  | 3 => some .nrnext
  | 4 => some (.nrseek (wA w))
  | 5 => some (.nrwb (wD w))
  | _ => none

/-- Major 0x37: PYLD, PYINIT, PYAPP, PYSTAT. -/
noncomputable def decodePyr (w : BitVec 32) : Option Instr :=
  if wBit w 0 then some (.pyld (wD w) (wA w) (wB w) (w.extractLsb' 6 5) (w.extractLsb' 2 4) (wBit w 1)) else
  match (w.extractLsb' 1 2).toNat with
  | 0 => some (.pyinit (wD w) (wA w))
  | 1 => some (.pyapp (wD w) (wA w) (wB w))
  | 2 => some (.pystat (wD w) (wA w) (wBit w 3))
  | _ => none

/-- The majors R87 reserves. -/
def majorReserved (w : BitVec 32) : Bool :=
  wMajor w == 0x0B#6 || wMajor w == 0x3D#6 || wMajor w == 0x3E#6 || wMajor w == 0x3F#6

/-- The instruction whose function fields a word carries, before its other fields are checked (R87, R91 to R102). -/
noncomputable def rawDecode (w : BitVec 32) : Option Instr :=
  match (wMajor w).toNat with
  | 0x00 => decodeSys w
  | 0x01 => some (.pfx (wD w) (wA w) (wB w) (w.extractLsb' 8 3) (wBit w 7) (wBit w 6) (wBit w 5) (w.extractLsb' 0 5))
  | 0x02 => some (.lih (wD w) (wA w) (wImm w))
  | 0x03 => some (.addi (wD w) (wA w) (wImm w))
  | 0x04 => decodeAlu w
  | 0x05 => some (.andi (wD w) (wA w) (wImm w))
  | 0x06 => some (.ori (wD w) (wA w) (wImm w))
  | 0x07 => some (.xori (wD w) (wA w) (wImm w))
  | 0x08 => decodeShi w
  | 0x09 => some (.slti (wD w) (wA w) (wImm w))
  | 0x0A => decodeFps w
  | 0x0C => some (.ldb (wD w) (wA w) (wImm w))
  | 0x0D => some (.ldh (wD w) (wA w) (wImm w))
  | 0x0E => some (.ldw (wD w) (wA w) (wImm w))
  | 0x0F => some (.ldd (wD w) (wA w) (wImm w))
  | 0x10 => some (.ldbn (wD w) (wA w) (wImm w))
  | 0x11 => some (.ldhn (wD w) (wA w) (wImm w))
  | 0x12 => some (.ldwn (wD w) (wA w) (wImm w))
  | 0x13 => some (.stb (wD w) (wA w) (wImm w))
  | 0x14 => some (.sth (wD w) (wA w) (wImm w))
  | 0x15 => some (.stw (wD w) (wA w) (wImm w))
  | 0x16 => some (.std (wD w) (wA w) (wImm w))
  | 0x17 => decodeAmo w
  | 0x18 => some (.beq (wD w) (wA w) (wImm w))
  | 0x19 => some (.bne (wD w) (wA w) (wImm w))
  | 0x1A => some (.blt (wD w) (wA w) (wImm w))
  | 0x1B => some (.bge (wD w) (wA w) (wImm w))
  | 0x1C => some (.bltn (wD w) (wA w) (wImm w))
  | 0x1D => some (.bgen (wD w) (wA w) (wImm w))
  | 0x1E => some (.jal (w.extractLsb' 0 26))
  | 0x1F => some (.jalr (wD w) (wA w) (wImm w))
  | 0x20 => some (.loop (wD w) (wImm w))
  | 0x21 => decodeSetl w
  | 0x22 => decodeVint w
  | 0x23 => decodeVintx w
  | 0x24 => decodeVfp w
  | 0x25 => decodeVfpx w
  | 0x26 => decodeVpair w
  | 0x27 => decodeVred w
  | 0x28 => decodeVperm w
  | 0x29 => decodeVmsk w
  | 0x2A => decodeVcvt w
  | 0x2B => decodeVxf w
  | 0x2C => decodeVsfu w
  | 0x2D => decodeVld w
  | 0x2E => decodeVst w
  | 0x2F => decodeVmv w
  | 0x30 => decodeMopa w
  | 0x31 => decodeMtile w
  | 0x32 => decodeStrm w
  | 0x33 => decodeVrgn w
  | 0x34 => decodeLane w
  | 0x35 => decodeXeng w
  | 0x36 => decodeBank w
  | 0x37 => decodePyr w
  | 0x38 => decodeRcall w
  | 0x39 => decodeLnch w
  | 0x3A => decodeQop w
  | 0x3B => decodeSync w
  | 0x3C => decodeNmu w
  | _ => none

/-! ## The word of each row with an encoding (R85, R91 to R103) -/

def addWord (d a b : Reg) : BitVec 32 := xWord 0x04#6 d a b 0#11
def subWord (d a b : Reg) : BitVec 32 := xWord 0x04#6 d a b 0x1#11
def andWord (d a b : Reg) : BitVec 32 := xWord 0x04#6 d a b 0x2#11
def orWord (d a b : Reg) : BitVec 32 := xWord 0x04#6 d a b 0x3#11
def xorWord (d a b : Reg) : BitVec 32 := xWord 0x04#6 d a b 0x4#11
def andnWord (d a b : Reg) : BitVec 32 := xWord 0x04#6 d a b 0x5#11
def shlWord (d a b : Reg) : BitVec 32 := xWord 0x04#6 d a b 0x6#11
def shrWord (d a b : Reg) : BitVec 32 := xWord 0x04#6 d a b 0x7#11
def sraWord (d a b : Reg) : BitVec 32 := xWord 0x04#6 d a b 0x8#11
def rolWord (d a b : Reg) : BitVec 32 := xWord 0x04#6 d a b 0x9#11
def rorWord (d a b : Reg) : BitVec 32 := xWord 0x04#6 d a b 0xA#11
def sltWord (d a b : Reg) : BitVec 32 := xWord 0x04#6 d a b 0xB#11
def sltnWord (d a b : Reg) : BitVec 32 := xWord 0x04#6 d a b 0xC#11
def minWord (d a b : Reg) : BitVec 32 := xWord 0x04#6 d a b 0xD#11
def maxWord (d a b : Reg) : BitVec 32 := xWord 0x04#6 d a b 0xE#11
def minnWord (d a b : Reg) : BitVec 32 := xWord 0x04#6 d a b 0xF#11
def maxnWord (d a b : Reg) : BitVec 32 := xWord 0x04#6 d a b 0x10#11
def mulWord (d a b : Reg) : BitVec 32 := xWord 0x04#6 d a b 0x11#11
def mulhWord (d a b : Reg) : BitVec 32 := xWord 0x04#6 d a b 0x12#11
def mulhnWord (d a b : Reg) : BitVec 32 := xWord 0x04#6 d a b 0x13#11
def divWord (d a b : Reg) : BitVec 32 := xWord 0x04#6 d a b 0x14#11
def divnWord (d a b : Reg) : BitVec 32 := xWord 0x04#6 d a b 0x15#11
def remWord (d a b : Reg) : BitVec 32 := xWord 0x04#6 d a b 0x16#11
def remnWord (d a b : Reg) : BitVec 32 := xWord 0x04#6 d a b 0x17#11
def clzWord (d a : Reg) : BitVec 32 := xWord 0x04#6 d a 0#5 0x18#11
def ctzWord (d a : Reg) : BitVec 32 := xWord 0x04#6 d a 0#5 0x19#11
def popcWord (d a : Reg) : BitVec 32 := xWord 0x04#6 d a 0#5 0x1A#11
def sextbWord (d a : Reg) : BitVec 32 := xWord 0x04#6 d a 0#5 0x1B#11
def sexthWord (d a : Reg) : BitVec 32 := xWord 0x04#6 d a 0#5 0x1C#11
def sextwWord (d a : Reg) : BitVec 32 := xWord 0x04#6 d a 0#5 0x1D#11
def addiWord (d a : Reg) (imm : BitVec 16) : BitVec 32 := iWord 0x03#6 d a imm
def andiWord (d a : Reg) (imm : BitVec 16) : BitVec 32 := iWord 0x05#6 d a imm
def oriWord (d a : Reg) (imm : BitVec 16) : BitVec 32 := iWord 0x06#6 d a imm
def xoriWord (d a : Reg) (imm : BitVec 16) : BitVec 32 := iWord 0x07#6 d a imm
def sltiWord (d a : Reg) (imm : BitVec 16) : BitVec 32 := iWord 0x09#6 d a imm
def lihWord (d a : Reg) (imm : BitVec 16) : BitVec 32 := iWord 0x02#6 d a imm
def shliWord (d a : Reg) (sh : BitVec 6) : BitVec 32 := iWord 0x08#6 d a (0x0#10 ++ sh)
def shriWord (d a : Reg) (sh : BitVec 6) : BitVec 32 := iWord 0x08#6 d a (0x1#10 ++ sh)
def sraiWord (d a : Reg) (sh : BitVec 6) : BitVec 32 := iWord 0x08#6 d a (0x2#10 ++ sh)
def faddWord (d a b : Reg) (rm : BitVec 3) : BitVec 32 := xWord 0x0A#6 d a b (rm ++ 0x0#8)
def fsubWord (d a b : Reg) (rm : BitVec 3) : BitVec 32 := xWord 0x0A#6 d a b (rm ++ 0x1#8)
def fmulWord (d a b : Reg) (rm : BitVec 3) : BitVec 32 := xWord 0x0A#6 d a b (rm ++ 0x2#8)
def fdivWord (d a b : Reg) (rm : BitVec 3) : BitVec 32 := xWord 0x0A#6 d a b (rm ++ 0x3#8)
def fsqrtWord (d a : Reg) (rm : BitVec 3) : BitVec 32 := xWord 0x0A#6 d a 0#5 (rm ++ 0x4#8)
def fmaddWord (d a b : Reg) (rm : BitVec 3) : BitVec 32 := xWord 0x0A#6 d a b (rm ++ 0x5#8)
def fminWord (d a b : Reg) : BitVec 32 := xWord 0x0A#6 d a b 0x706#11
def fmaxWord (d a b : Reg) : BitVec 32 := xWord 0x0A#6 d a b 0x707#11
def feqWord (d a b : Reg) : BitVec 32 := xWord 0x0A#6 d a b 0x708#11
def fltWord (d a b : Reg) : BitVec 32 := xWord 0x0A#6 d a b 0x709#11
def fleWord (d a b : Reg) : BitVec 32 := xWord 0x0A#6 d a b 0x70A#11
def fcvtWord (d a : Reg) (kind rm : BitVec 3) : BitVec 32 := xWord 0x0A#6 d a 0#5 (rm ++ kind ++ 0xB#5)
def fclassWord (d a : Reg) : BitVec 32 := xWord 0x0A#6 d a 0#5 0x70C#11
def ldbWord (d a : Reg) (imm : BitVec 16) : BitVec 32 := iWord 0x0C#6 d a imm
def ldhWord (d a : Reg) (imm : BitVec 16) : BitVec 32 := iWord 0x0D#6 d a imm
def ldwWord (d a : Reg) (imm : BitVec 16) : BitVec 32 := iWord 0x0E#6 d a imm
def lddWord (d a : Reg) (imm : BitVec 16) : BitVec 32 := iWord 0x0F#6 d a imm
def ldbnWord (d a : Reg) (imm : BitVec 16) : BitVec 32 := iWord 0x10#6 d a imm
def ldhnWord (d a : Reg) (imm : BitVec 16) : BitVec 32 := iWord 0x11#6 d a imm
def ldwnWord (d a : Reg) (imm : BitVec 16) : BitVec 32 := iWord 0x12#6 d a imm
def stbWord (s a : Reg) (imm : BitVec 16) : BitVec 32 := iWord 0x13#6 s a imm
def sthWord (s a : Reg) (imm : BitVec 16) : BitVec 32 := iWord 0x14#6 s a imm
def stwWord (s a : Reg) (imm : BitVec 16) : BitVec 32 := iWord 0x15#6 s a imm
def stdWord (s a : Reg) (imm : BitVec 16) : BitVec 32 := iWord 0x16#6 s a imm
def amoaddWord (d a b : Reg) (acq rel : Bool) (scope : BitVec 3) : BitVec 32 := xWord 0x17#6 d a b (0x0#4 ++ bit acq ++ bit rel ++ scope ++ 0x0#2)
def amoandWord (d a b : Reg) (acq rel : Bool) (scope : BitVec 3) : BitVec 32 := xWord 0x17#6 d a b (0x1#4 ++ bit acq ++ bit rel ++ scope ++ 0x0#2)
def amoorWord (d a b : Reg) (acq rel : Bool) (scope : BitVec 3) : BitVec 32 := xWord 0x17#6 d a b (0x2#4 ++ bit acq ++ bit rel ++ scope ++ 0x0#2)
def amoxorWord (d a b : Reg) (acq rel : Bool) (scope : BitVec 3) : BitVec 32 := xWord 0x17#6 d a b (0x3#4 ++ bit acq ++ bit rel ++ scope ++ 0x0#2)
def amominWord (d a b : Reg) (acq rel : Bool) (scope : BitVec 3) : BitVec 32 := xWord 0x17#6 d a b (0x4#4 ++ bit acq ++ bit rel ++ scope ++ 0x0#2)
def amomaxWord (d a b : Reg) (acq rel : Bool) (scope : BitVec 3) : BitVec 32 := xWord 0x17#6 d a b (0x5#4 ++ bit acq ++ bit rel ++ scope ++ 0x0#2)
def amominnWord (d a b : Reg) (acq rel : Bool) (scope : BitVec 3) : BitVec 32 := xWord 0x17#6 d a b (0x6#4 ++ bit acq ++ bit rel ++ scope ++ 0x0#2)
def amomaxnWord (d a b : Reg) (acq rel : Bool) (scope : BitVec 3) : BitVec 32 := xWord 0x17#6 d a b (0x7#4 ++ bit acq ++ bit rel ++ scope ++ 0x0#2)
def amoswapWord (d a b : Reg) (acq rel : Bool) (scope : BitVec 3) : BitVec 32 := xWord 0x17#6 d a b (0x8#4 ++ bit acq ++ bit rel ++ scope ++ 0x0#2)
def amocasWord (d a b : Reg) (acq rel : Bool) (scope : BitVec 3) : BitVec 32 := xWord 0x17#6 d a b (0x9#4 ++ bit acq ++ bit rel ++ scope ++ 0x0#2)
def amofaddWord (d a b : Reg) (acq rel : Bool) (scope : BitVec 3) : BitVec 32 := xWord 0x17#6 d a b (0xA#4 ++ bit acq ++ bit rel ++ scope ++ 0x0#2)
def beqWord (a b : Reg) (off : BitVec 16) : BitVec 32 := iWord 0x18#6 a b off
def bneWord (a b : Reg) (off : BitVec 16) : BitVec 32 := iWord 0x19#6 a b off
def bltWord (a b : Reg) (off : BitVec 16) : BitVec 32 := iWord 0x1A#6 a b off
def bgeWord (a b : Reg) (off : BitVec 16) : BitVec 32 := iWord 0x1B#6 a b off
def bltnWord (a b : Reg) (off : BitVec 16) : BitVec 32 := iWord 0x1C#6 a b off
def bgenWord (a b : Reg) (off : BitVec 16) : BitVec 32 := iWord 0x1D#6 a b off
def jalWord (off : BitVec 26) : BitVec 32 := jWord 0x1E#6 off
def jalrWord (d a : Reg) (imm : BitVec 16) : BitVec 32 := iWord 0x1F#6 d a imm
def loopWord (a : Reg) (off : BitVec 16) : BitVec 32 := iWord 0x20#6 a 0#5 off
def csrrWord (d : Reg) (csr : BitVec 12) : BitVec 32 := sysWord d 0#5 0x1#4 csr
def csrwWord (a : Reg) (csr : BitVec 12) : BitVec 32 := sysWord 0#5 a 0x2#4 csr
def csrsWord (a : Reg) (csr : BitVec 12) : BitVec 32 := sysWord 0#5 a 0x3#4 csr
def csrcWord (a : Reg) (csr : BitVec 12) : BitVec 32 := sysWord 0#5 a 0x4#4 csr
def trapWord (imm : BitVec 12) : BitVec 32 := sysWord 0#5 0#5 0x5#4 imm
def brkWord (imm : BitVec 12) : BitVec 32 := sysWord 0#5 0#5 0x6#4 imm
def eretWord : BitVec 32 := sysWord 0#5 0#5 0x7#4 0#12
def fenceWord (scope : BitVec 3) : BitVec 32 := sysWord 0#5 0#5 0x8#4 (0x0#9 ++ scope)
def fenceSvWord : BitVec 32 := sysWord 0#5 0#5 0x9#4 0#12
def fenceVsWord : BitVec 32 := sysWord 0#5 0#5 0x9#4 0x1#12
def fenceVvWord : BitVec 32 := sysWord 0#5 0#5 0x9#4 0x2#12
def sbarWord (mask : BitVec 11) : BitVec 32 := sysWord 0#5 0#5 0xA#4 (0x0#1 ++ mask)
def ifenceWord : BitVec 32 := sysWord 0#5 0#5 0xB#4 0#12
def yieldWord : BitVec 32 := sysWord 0#5 0#5 0xC#4 0#12
def haltWord : BitVec 32 := sysWord 0#5 0#5 0xD#4 0#12
def pfxWord (pred copy emask : Reg) (rm : BitVec 3) (pv cv ev : Bool) (chain : BitVec 5) : BitVec 32 := pWord 0x01#6 pred copy emask rm pv cv (bit ev ++ chain)
def vsetlWord (d a b : Reg) (vt : BitVec 10) : BitVec 32 := setlWord d a b 0#1 vt
def vlenqWord (d : Reg) : BitVec 32 := setlWord d 0#5 0#5 0x1#1 0#10
def vaddWord (o : VOp) : BitVec 32 := vWord 0x22#6 o 0x0#5
def vsubWord (o : VOp) : BitVec 32 := vWord 0x22#6 o 0x1#5
def vrsubWord (o : VOp) : BitVec 32 := vWord 0x22#6 o 0x2#5
def vmulWord (o : VOp) : BitVec 32 := vWord 0x22#6 o 0x3#5
def vmulhWord (o : VOp) : BitVec 32 := vWord 0x22#6 o 0x4#5
def vmulhnWord (o : VOp) : BitVec 32 := vWord 0x22#6 o 0x5#5
def vmaccWord (o : VOp) : BitVec 32 := vWord 0x22#6 o 0x6#5
def vandWord (o : VOp) : BitVec 32 := vWord 0x22#6 o 0x7#5
def vorWord (o : VOp) : BitVec 32 := vWord 0x22#6 o 0x8#5
def vxorWord (o : VOp) : BitVec 32 := vWord 0x22#6 o 0x9#5
def vshlWord (o : VOp) : BitVec 32 := vWord 0x22#6 o 0xA#5
def vshrWord (o : VOp) : BitVec 32 := vWord 0x22#6 o 0xB#5
def vsraWord (o : VOp) : BitVec 32 := vWord 0x22#6 o 0xC#5
def vminWord (o : VOp) : BitVec 32 := vWord 0x22#6 o 0xD#5
def vmaxWord (o : VOp) : BitVec 32 := vWord 0x22#6 o 0xE#5
def vminnWord (o : VOp) : BitVec 32 := vWord 0x22#6 o 0xF#5
def vmaxnWord (o : VOp) : BitVec 32 := vWord 0x22#6 o 0x10#5
def vsaddWord (o : VOp) : BitVec 32 := vWord 0x22#6 o 0x11#5
def vssubWord (o : VOp) : BitVec 32 := vWord 0x22#6 o 0x12#5
def vsaddnWord (o : VOp) : BitVec 32 := vWord 0x22#6 o 0x13#5
def vssubnWord (o : VOp) : BitVec 32 := vWord 0x22#6 o 0x14#5
def vclzWord (o : VOp) : BitVec 32 := vWord 0x22#6 o 0x15#5
def vctzWord (o : VOp) : BitVec 32 := vWord 0x22#6 o 0x16#5
def vpopcWord (o : VOp) : BitVec 32 := vWord 0x22#6 o 0x17#5
def vmseqWord (o : VOp) : BitVec 32 := vWord 0x22#6 o 0x18#5
def vmsneWord (o : VOp) : BitVec 32 := vWord 0x22#6 o 0x19#5
def vmsltWord (o : VOp) : BitVec 32 := vWord 0x22#6 o 0x1A#5
def vmsleWord (o : VOp) : BitVec 32 := vWord 0x22#6 o 0x1B#5
def vmsltnWord (o : VOp) : BitVec 32 := vWord 0x22#6 o 0x1C#5
def vmslenWord (o : VOp) : BitVec 32 := vWord 0x22#6 o 0x1D#5
def vaddVxWord (o : VOp) : BitVec 32 := vWord 0x23#6 o 0x0#5
def vsubVxWord (o : VOp) : BitVec 32 := vWord 0x23#6 o 0x1#5
def vrsubVxWord (o : VOp) : BitVec 32 := vWord 0x23#6 o 0x2#5
def vmulVxWord (o : VOp) : BitVec 32 := vWord 0x23#6 o 0x3#5
def vmulhVxWord (o : VOp) : BitVec 32 := vWord 0x23#6 o 0x4#5
def vmulhnVxWord (o : VOp) : BitVec 32 := vWord 0x23#6 o 0x5#5
def vmaccVxWord (o : VOp) : BitVec 32 := vWord 0x23#6 o 0x6#5
def vandVxWord (o : VOp) : BitVec 32 := vWord 0x23#6 o 0x7#5
def vorVxWord (o : VOp) : BitVec 32 := vWord 0x23#6 o 0x8#5
def vxorVxWord (o : VOp) : BitVec 32 := vWord 0x23#6 o 0x9#5
def vshlVxWord (o : VOp) : BitVec 32 := vWord 0x23#6 o 0xA#5
def vshrVxWord (o : VOp) : BitVec 32 := vWord 0x23#6 o 0xB#5
def vsraVxWord (o : VOp) : BitVec 32 := vWord 0x23#6 o 0xC#5
def vminVxWord (o : VOp) : BitVec 32 := vWord 0x23#6 o 0xD#5
def vmaxVxWord (o : VOp) : BitVec 32 := vWord 0x23#6 o 0xE#5
def vminnVxWord (o : VOp) : BitVec 32 := vWord 0x23#6 o 0xF#5
def vmaxnVxWord (o : VOp) : BitVec 32 := vWord 0x23#6 o 0x10#5
def vsaddVxWord (o : VOp) : BitVec 32 := vWord 0x23#6 o 0x11#5
def vssubVxWord (o : VOp) : BitVec 32 := vWord 0x23#6 o 0x12#5
def vsaddnVxWord (o : VOp) : BitVec 32 := vWord 0x23#6 o 0x13#5
def vssubnVxWord (o : VOp) : BitVec 32 := vWord 0x23#6 o 0x14#5
def vmseqVxWord (o : VOp) : BitVec 32 := vWord 0x23#6 o 0x18#5
def vmsneVxWord (o : VOp) : BitVec 32 := vWord 0x23#6 o 0x19#5
def vmsltVxWord (o : VOp) : BitVec 32 := vWord 0x23#6 o 0x1A#5
def vmsleVxWord (o : VOp) : BitVec 32 := vWord 0x23#6 o 0x1B#5
def vmsltnVxWord (o : VOp) : BitVec 32 := vWord 0x23#6 o 0x1C#5
def vmslenVxWord (o : VOp) : BitVec 32 := vWord 0x23#6 o 0x1D#5
def vfaddWord (o : VOp) : BitVec 32 := vWord 0x24#6 o 0x0#5
def vfsubWord (o : VOp) : BitVec 32 := vWord 0x24#6 o 0x1#5
def vfmulWord (o : VOp) : BitVec 32 := vWord 0x24#6 o 0x2#5
def vfdivWord (o : VOp) : BitVec 32 := vWord 0x24#6 o 0x3#5
def vfsqrtWord (o : VOp) : BitVec 32 := vWord 0x24#6 o 0x4#5
def vfmaWord (o : VOp) : BitVec 32 := vWord 0x24#6 o 0x5#5
def vfmsWord (o : VOp) : BitVec 32 := vWord 0x24#6 o 0x6#5
def vfnmaWord (o : VOp) : BitVec 32 := vWord 0x24#6 o 0x7#5
def vfminWord (o : VOp) : BitVec 32 := vWord 0x24#6 o 0x8#5
def vfmaxWord (o : VOp) : BitVec 32 := vWord 0x24#6 o 0x9#5
def vfminpWord (o : VOp) : BitVec 32 := vWord 0x24#6 o 0xA#5
def vfmaxpWord (o : VOp) : BitVec 32 := vWord 0x24#6 o 0xB#5
def vfabsWord (o : VOp) : BitVec 32 := vWord 0x24#6 o 0xC#5
def vfnegWord (o : VOp) : BitVec 32 := vWord 0x24#6 o 0xD#5
def vfsgnjWord (o : VOp) : BitVec 32 := vWord 0x24#6 o 0xE#5
def vfclassWord (o : VOp) : BitVec 32 := vWord 0x24#6 o 0xF#5
def vfwmaWord (o : VOp) : BitVec 32 := vWord 0x24#6 o 0x10#5
def vfwaddWord (o : VOp) : BitVec 32 := vWord 0x24#6 o 0x11#5
def vmfeqWord (o : VOp) : BitVec 32 := vWord 0x24#6 o 0x12#5
def vmfltWord (o : VOp) : BitVec 32 := vWord 0x24#6 o 0x13#5
def vmfleWord (o : VOp) : BitVec 32 := vWord 0x24#6 o 0x14#5
def vmfunWord (o : VOp) : BitVec 32 := vWord 0x24#6 o 0x15#5
def vfaddVfWord (o : VOp) : BitVec 32 := vWord 0x25#6 o 0x0#5
def vfsubVfWord (o : VOp) : BitVec 32 := vWord 0x25#6 o 0x1#5
def vfmulVfWord (o : VOp) : BitVec 32 := vWord 0x25#6 o 0x2#5
def vfdivVfWord (o : VOp) : BitVec 32 := vWord 0x25#6 o 0x3#5
def vfmaVfWord (o : VOp) : BitVec 32 := vWord 0x25#6 o 0x5#5
def vfmsVfWord (o : VOp) : BitVec 32 := vWord 0x25#6 o 0x6#5
def vfnmaVfWord (o : VOp) : BitVec 32 := vWord 0x25#6 o 0x7#5
def vfminVfWord (o : VOp) : BitVec 32 := vWord 0x25#6 o 0x8#5
def vfmaxVfWord (o : VOp) : BitVec 32 := vWord 0x25#6 o 0x9#5
def vfminpVfWord (o : VOp) : BitVec 32 := vWord 0x25#6 o 0xA#5
def vfmaxpVfWord (o : VOp) : BitVec 32 := vWord 0x25#6 o 0xB#5
def vfsgnjVfWord (o : VOp) : BitVec 32 := vWord 0x25#6 o 0xE#5
def vmfeqVfWord (o : VOp) : BitVec 32 := vWord 0x25#6 o 0x12#5
def vmfltVfWord (o : VOp) : BitVec 32 := vWord 0x25#6 o 0x13#5
def vmfleVfWord (o : VOp) : BitVec 32 := vWord 0x25#6 o 0x14#5
def vmfunVfWord (o : VOp) : BitVec 32 := vWord 0x25#6 o 0x15#5
def vfaddxWord (o : VOp) : BitVec 32 := vWord 0x26#6 o 0x0#5
def vfsubxWord (o : VOp) : BitVec 32 := vWord 0x26#6 o 0x1#5
def vfmulxWord (o : VOp) : BitVec 32 := vWord 0x26#6 o 0x2#5
def vdwaddWord (o : VOp) : BitVec 32 := vWord 0x26#6 o 0x3#5
def vdwaddsWord (o : VOp) : BitVec 32 := vWord 0x26#6 o 0x4#5
def vdwmulWord (o : VOp) : BitVec 32 := vWord 0x26#6 o 0x5#5
def vdwrenWord (o : VOp) : BitVec 32 := vWord 0x26#6 o 0x6#5
def vredsumWord (o : VOp) : BitVec 32 := vWord 0x27#6 o 0x0#5
def vredmaxWord (o : VOp) : BitVec 32 := vWord 0x27#6 o 0x1#5
def vredminWord (o : VOp) : BitVec 32 := vWord 0x27#6 o 0x2#5
def vfredoWord (o : VOp) : BitVec 32 := vWord 0x27#6 o 0x3#5
def vfredtWord (o : VOp) : BitVec 32 := vWord 0x27#6 o 0x4#5
def vfredcWord (o : VOp) : BitVec 32 := vWord 0x27#6 o 0x5#5
def vfredmaxWord (o : VOp) : BitVec 32 := vWord 0x27#6 o 0x6#5
def vfredminWord (o : VOp) : BitVec 32 := vWord 0x27#6 o 0x7#5
def vslideupWord (o : VOp) : BitVec 32 := vWord 0x28#6 o 0x0#5
def vslidednWord (o : VOp) : BitVec 32 := vWord 0x28#6 o 0x1#5
def vslide1upWord (o : VOp) : BitVec 32 := vWord 0x28#6 o 0x2#5
def vslide1dnWord (o : VOp) : BitVec 32 := vWord 0x28#6 o 0x3#5
def vpermvWord (o : VOp) : BitVec 32 := vWord 0x28#6 o 0x4#5
def vcompressWord (o : VOp) : BitVec 32 := vWord 0x28#6 o 0x5#5
def vexpandWord (o : VOp) : BitVec 32 := vWord 0x28#6 o 0x6#5
def vmergeWord (o : VOp) : BitVec 32 := vWord 0x28#6 o 0x7#5
def vidWord (o : VOp) : BitVec 32 := vWord 0x28#6 o 0x8#5
def viotaWord (o : VOp) : BitVec 32 := vWord 0x28#6 o 0x9#5
def vmandWord (o : VOp) : BitVec 32 := vWord 0x29#6 o 0x0#5
def vmorWord (o : VOp) : BitVec 32 := vWord 0x29#6 o 0x1#5
def vmxorWord (o : VOp) : BitVec 32 := vWord 0x29#6 o 0x2#5
def vmandnWord (o : VOp) : BitVec 32 := vWord 0x29#6 o 0x3#5
def vmnotWord (o : VOp) : BitVec 32 := vWord 0x29#6 o 0x4#5
def vmpopcWord (o : VOp) : BitVec 32 := vWord 0x29#6 o 0x5#5
def vmfirstWord (o : VOp) : BitVec 32 := vWord 0x29#6 o 0x6#5
def vmanyWord (o : VOp) : BitVec 32 := vWord 0x29#6 o 0x7#5
def vfcvtWord (o : VOp) : BitVec 32 := vWord 0x2A#6 o 0x0#5
def vfwcvtWord (o : VOp) : BitVec 32 := vWord 0x2A#6 o 0x1#5
def vfncvtWord (o : VOp) : BitVec 32 := vWord 0x2A#6 o 0x2#5
def vbdecWord (o : VOp) : BitVec 32 := vWord 0x2A#6 o 0x3#5
def vbencWord (o : VOp) : BitVec 32 := vWord 0x2A#6 o 0x4#5
def vunpkWord (o : VOp) : BitVec 32 := vWord 0x2B#6 o 0x0#5
def vpackWord (o : VOp) : BitVec 32 := vWord 0x2B#6 o 0x1#5
def vlutWord (o : VOp) : BitVec 32 := vWord 0x2B#6 o 0x2#5
def vfrcpWord (o : VOp) : BitVec 32 := vWord 0x2C#6 o 0x0#5
def vfrsqrtWord (o : VOp) : BitVec 32 := vWord 0x2C#6 o 0x1#5
def vfexp2Word (o : VOp) : BitVec 32 := vWord 0x2C#6 o 0x2#5
def vflog2Word (o : VOp) : BitVec 32 := vWord 0x2C#6 o 0x3#5
def vfsinpiWord (o : VOp) : BitVec 32 := vWord 0x2C#6 o 0x4#5
def vfcospiWord (o : VOp) : BitVec 32 := vWord 0x2C#6 o 0x5#5
def vldWord (o : VLOp) : BitVec 32 := vlWord 0x2D#6 o 0x0#3
def vldsWord (o : VLOp) : BitVec 32 := vlWord 0x2D#6 o 0x1#3
def vldxWord (o : VLOp) : BitVec 32 := vlWord 0x2D#6 o 0x2#3
def vldbWord (o : VLOp) : BitVec 32 := vlWord 0x2D#6 o 0x3#3
def vfillWord (o : VLOp) : BitVec 32 := vlWord 0x2D#6 o 0x4#3
def vstWord (o : VLOp) : BitVec 32 := vlWord 0x2E#6 o 0x0#3
def vstsWord (o : VLOp) : BitVec 32 := vlWord 0x2E#6 o 0x1#3
def vstxWord (o : VLOp) : BitVec 32 := vlWord 0x2E#6 o 0x2#3
def vstbWord (o : VLOp) : BitVec 32 := vlWord 0x2E#6 o 0x3#3
def vspillWord (o : VLOp) : BitVec 32 := vlWord 0x2E#6 o 0x4#3
def vmoveWord (o : VOp) : BitVec 32 := vWord 0x2F#6 o 0x0#5
def vsplatWord (o : VOp) : BitVec 32 := vWord 0x2F#6 o 0x1#5
def vmvxsWord (o : VOp) : BitVec 32 := vWord 0x2F#6 o 0x2#5
def vmvsxWord (o : VOp) : BitVec 32 := vWord 0x2F#6 o 0x3#5
def mopaWord (tile : BitVec 3) (va vb : Reg) (m : Bool) (pair : BitVec 3) : BitVec 32 := mWord 0x30#6 tile va vb 0#5 m pair 0#4
def mopaxWord (tile : BitVec 3) (vb vidx : Reg) (m : Bool) (pair : BitVec 3) : BitVec 32 := mWord 0x30#6 tile 0#5 vb vidx m pair 0x1#4
def msclAWord (vs : Reg) : BitVec 32 := mWord 0x30#6 0#3 vs 0#5 0#5 false 0#3 0x2#4
def msclBWord (vs : Reg) : BitVec 32 := mWord 0x30#6 0#3 vs 0#5 0#5 false 0#3 0x3#4
def mzeroWord (tile : BitVec 3) : BitVec 32 := mWord 0x31#6 tile 0#5 0#5 0#5 false 0#3 0#4
def mldtWord (tile : BitVec 3) (a s n : Reg) : BitVec 32 := mWord 0x31#6 tile a s n false 0#3 0x1#4
def msttWord (tile : BitVec 3) (a s n : Reg) : BitVec 32 := mWord 0x31#6 tile a s n false 0#3 0x2#4
def mrdvWord (tile : BitVec 3) (vd n : Reg) (m : Bool) : BitVec 32 := mWord 0x31#6 tile vd 0#5 n m 0#3 0x3#4
def mwrvWord (tile : BitVec 3) (vs n : Reg) (m : Bool) : BitVec 32 := mWord 0x31#6 tile vs 0#5 n m 0#3 0x4#4
def sbindWord (q : BitVec 3) (a : Reg) : BitVec 32 := xWord 0x32#6 (0#2 ++ q) a 0#5 0#11
def sbindcWord (q : BitVec 3) (a : Reg) : BitVec 32 := xWord 0x32#6 (0#2 ++ q) a 0#5 0x1#11
def sunbindWord (q : BitVec 3) : BitVec 32 := xWord 0x32#6 (0#2 ++ q) 0#5 0#5 0x2#11
def vrgnWord (off : BitVec 16) : BitVec 32 := iWord 0x33#6 0#5 0#5 off
def vrgneWord : BitVec 32 := iWord 0x33#6 0x10#5 0#5 0#16
def lforkWord (off : BitVec 16) : BitVec 32 := iWord 0x34#6 0#5 0#5 off
def ljoinWord : BitVec 32 := iWord 0x34#6 0x8#5 0#5 0#16
def lexitWord : BitVec 32 := iWord 0x34#6 0x10#5 0#5 0#16
def lxrdWord (d a b : Reg) : BitVec 32 := laneXrd d a b
def xcopyWord (d a b : Reg) (scope : BitVec 3) (acq rel : Bool) : BitVec 32 := pWord 0x35#6 d a b scope acq rel 0x0#6
def xgathWord (d a b : Reg) (scope : BitVec 3) (acq rel : Bool) : BitVec 32 := pWord 0x35#6 d a b scope acq rel 0x1#6
def xwaitWord (a : Reg) : BitVec 32 := pWord 0x35#6 0#5 a 0#5 0#3 false false 0x2#6
def xpollWord (d a : Reg) : BitVec 32 := pWord 0x35#6 d a 0#5 0#3 false false 0x3#6
def bkaddWord (d a b : Reg) : BitVec 32 := xWord 0x36#6 d a b 0#11
def bkmaxWord (d a b : Reg) : BitVec 32 := xWord 0x36#6 d a b 0x1#11
def bkmulWord (d a b : Reg) : BitVec 32 := xWord 0x36#6 d a b 0x2#11
def bksmxWord (d a b : Reg) : BitVec 32 := xWord 0x36#6 d a b 0x3#11
def bkzeroWord (a b : Reg) : BitVec 32 := xWord 0x36#6 0#5 a b 0x4#11
def bkredWord (d a b : Reg) : BitVec 32 := xWord 0x36#6 d a b 0x5#11
def pyinitWord (d h : Reg) : BitVec 32 := xWord 0x37#6 d h 0#5 0#11
def pyappWord (d h v : Reg) : BitVec 32 := xWord 0x37#6 d h v 0x2#11
def pystatWord (d h : Reg) (settled : Bool) : BitVec 32 := xWord 0x37#6 d h 0#5 (0x0#7 ++ bit settled ++ 0x4#3)
def pyldWord (vd h t xs : Reg) (level : BitVec 4) (settled : Bool) : BitVec 32 := xWord 0x37#6 vd h t (xs ++ level ++ bit settled ++ 0x1#1)
def rcallWord (d o : Reg) (n : BitVec 6) : BitVec 32 := xWord 0x38#6 d o 0#5 (0x0#5 ++ n)
def rreadWord (d o : Reg) (n : BitVec 6) : BitVec 32 := xWord 0x38#6 d o 0#5 (0x1#5 ++ n)
def lnchWord (d a : Reg) : BitVec 32 := xWord 0x39#6 d a 0#5 0#11
def lnchWWord (d a : Reg) : BitVec 32 := xWord 0x39#6 d a 0#5 0x1#11
def lwaitWord (d a : Reg) : BitVec 32 := xWord 0x39#6 d a 0#5 0x2#11
def qpushWord (v n : Reg) : BitVec 32 := xWord 0x3A#6 v 0#5 n 0#11
def qpopWord (v n : Reg) : BitVec 32 := xWord 0x3A#6 v 0#5 n 0x1#11
def qstatWord (d n : Reg) : BitVec 32 := xWord 0x3A#6 d 0#5 n 0x2#11
def timeWord (d : Reg) : BitVec 32 := xWord 0x3B#6 d 0#5 0#5 0#11
def sleeptWord (a : Reg) : BitVec 32 := xWord 0x3B#6 0#5 a 0#5 0x1#11
def evsetWord (a b : Reg) : BitVec 32 := xWord 0x3B#6 0#5 a b 0x2#11
def evwaitWord (a b : Reg) : BitVec 32 := xWord 0x3B#6 0#5 a b 0x3#11
def barWord (a : Reg) : BitVec 32 := xWord 0x3B#6 0#5 a 0#5 0x4#11
def nmrunWord (d a : Reg) : BitVec 32 := xWord 0x3C#6 d a 0#5 0#11
def nmbagWord (d a : Reg) : BitVec 32 := xWord 0x3C#6 d a 0#5 0x1#11
def nmwaitWord (a : Reg) : BitVec 32 := xWord 0x3C#6 0#5 a 0#5 0x2#11
def nrnextWord : BitVec 32 := xWord 0x3C#6 0#5 0#5 0#5 0x3#11
def nrseekWord (a : Reg) : BitVec 32 := xWord 0x3C#6 0#5 a 0#5 0x4#11
def nrwbWord (v : Reg) : BitVec 32 := xWord 0x3C#6 v 0#5 0#5 0x5#11

/-- The word of an instruction (R85, R91 to R103); 0 for a row without an encoding. -/
def encode (i : Instr) : BitVec 32 :=
  match i with
  | .add d a b => addWord d a b
  | .sub d a b => subWord d a b
  | .and d a b => andWord d a b
  | .or d a b => orWord d a b
  | .xor d a b => xorWord d a b
  | .andn d a b => andnWord d a b
  | .shl d a b => shlWord d a b
  | .shr d a b => shrWord d a b
  | .sra d a b => sraWord d a b
  | .rol d a b => rolWord d a b
  | .ror d a b => rorWord d a b
  | .slt d a b => sltWord d a b
  | .sltn d a b => sltnWord d a b
  | .min d a b => minWord d a b
  | .max d a b => maxWord d a b
  | .minn d a b => minnWord d a b
  | .maxn d a b => maxnWord d a b
  | .mul d a b => mulWord d a b
  | .mulh d a b => mulhWord d a b
  | .mulhn d a b => mulhnWord d a b
  | .div d a b => divWord d a b
  | .divn d a b => divnWord d a b
  | .rem d a b => remWord d a b
  | .remn d a b => remnWord d a b
  | .clz d a => clzWord d a
  | .ctz d a => ctzWord d a
  | .popc d a => popcWord d a
  | .sextb d a => sextbWord d a
  | .sexth d a => sexthWord d a
  | .sextw d a => sextwWord d a
  | .addi d a imm => addiWord d a imm
  | .andi d a imm => andiWord d a imm
  | .ori d a imm => oriWord d a imm
  | .xori d a imm => xoriWord d a imm
  | .slti d a imm => sltiWord d a imm
  | .lih d a imm => lihWord d a imm
  | .shli d a sh => shliWord d a sh
  | .shri d a sh => shriWord d a sh
  | .srai d a sh => sraiWord d a sh
  | .fadd d a b rm => faddWord d a b rm
  | .fsub d a b rm => fsubWord d a b rm
  | .fmul d a b rm => fmulWord d a b rm
  | .fdiv d a b rm => fdivWord d a b rm
  | .fsqrt d a rm => fsqrtWord d a rm
  | .fmadd d a b rm => fmaddWord d a b rm
  | .fmin d a b => fminWord d a b
  | .fmax d a b => fmaxWord d a b
  | .feq d a b => feqWord d a b
  | .flt d a b => fltWord d a b
  | .fle d a b => fleWord d a b
  | .fcvt d a kind rm => fcvtWord d a kind rm
  | .fclass d a => fclassWord d a
  | .ldb d a imm => ldbWord d a imm
  | .ldh d a imm => ldhWord d a imm
  | .ldw d a imm => ldwWord d a imm
  | .ldd d a imm => lddWord d a imm
  | .ldbn d a imm => ldbnWord d a imm
  | .ldhn d a imm => ldhnWord d a imm
  | .ldwn d a imm => ldwnWord d a imm
  | .stb s a imm => stbWord s a imm
  | .sth s a imm => sthWord s a imm
  | .stw s a imm => stwWord s a imm
  | .std s a imm => stdWord s a imm
  | .amoadd d a b acq rel scope => amoaddWord d a b acq rel scope
  | .amoand d a b acq rel scope => amoandWord d a b acq rel scope
  | .amoor d a b acq rel scope => amoorWord d a b acq rel scope
  | .amoxor d a b acq rel scope => amoxorWord d a b acq rel scope
  | .amomin d a b acq rel scope => amominWord d a b acq rel scope
  | .amomax d a b acq rel scope => amomaxWord d a b acq rel scope
  | .amominn d a b acq rel scope => amominnWord d a b acq rel scope
  | .amomaxn d a b acq rel scope => amomaxnWord d a b acq rel scope
  | .amoswap d a b acq rel scope => amoswapWord d a b acq rel scope
  | .amocas d a b acq rel scope => amocasWord d a b acq rel scope
  | .amofadd d a b acq rel scope => amofaddWord d a b acq rel scope
  | .beq a b off => beqWord a b off
  | .bne a b off => bneWord a b off
  | .blt a b off => bltWord a b off
  | .bge a b off => bgeWord a b off
  | .bltn a b off => bltnWord a b off
  | .bgen a b off => bgenWord a b off
  | .jal off => jalWord off
  | .jalr d a imm => jalrWord d a imm
  | .loop a off => loopWord a off
  | .csrr d csr => csrrWord d csr
  | .csrw a csr => csrwWord a csr
  | .csrs a csr => csrsWord a csr
  | .csrc a csr => csrcWord a csr
  | .trap imm => trapWord imm
  | .brk imm => brkWord imm
  | .eret => eretWord
  | .fence scope => fenceWord scope
  | .fenceSv => fenceSvWord
  | .fenceVs => fenceVsWord
  | .fenceVv => fenceVvWord
  | .sbar mask => sbarWord mask
  | .ifence => ifenceWord
  | .yield => yieldWord
  | .halt => haltWord
  | .haltDrained _ => 0#32
  | .pfx pred copy emask rm pv cv ev chain => pfxWord pred copy emask rm pv cv ev chain
  | .vsetl d a b vt => vsetlWord d a b vt
  | .vlenq d => vlenqWord d
  | .vadd o => vaddWord o
  | .vsub o => vsubWord o
  | .vrsub o => vrsubWord o
  | .vmul o => vmulWord o
  | .vmulh o => vmulhWord o
  | .vmulhn o => vmulhnWord o
  | .vmacc o => vmaccWord o
  | .vand o => vandWord o
  | .vor o => vorWord o
  | .vxor o => vxorWord o
  | .vshl o => vshlWord o
  | .vshr o => vshrWord o
  | .vsra o => vsraWord o
  | .vmin o => vminWord o
  | .vmax o => vmaxWord o
  | .vminn o => vminnWord o
  | .vmaxn o => vmaxnWord o
  | .vsadd o => vsaddWord o
  | .vssub o => vssubWord o
  | .vsaddn o => vsaddnWord o
  | .vssubn o => vssubnWord o
  | .vclz o => vclzWord o
  | .vctz o => vctzWord o
  | .vpopc o => vpopcWord o
  | .vmseq o => vmseqWord o
  | .vmsne o => vmsneWord o
  | .vmslt o => vmsltWord o
  | .vmsle o => vmsleWord o
  | .vmsltn o => vmsltnWord o
  | .vmslen o => vmslenWord o
  | .vaddVx o => vaddVxWord o
  | .vsubVx o => vsubVxWord o
  | .vrsubVx o => vrsubVxWord o
  | .vmulVx o => vmulVxWord o
  | .vmulhVx o => vmulhVxWord o
  | .vmulhnVx o => vmulhnVxWord o
  | .vmaccVx o => vmaccVxWord o
  | .vandVx o => vandVxWord o
  | .vorVx o => vorVxWord o
  | .vxorVx o => vxorVxWord o
  | .vshlVx o => vshlVxWord o
  | .vshrVx o => vshrVxWord o
  | .vsraVx o => vsraVxWord o
  | .vminVx o => vminVxWord o
  | .vmaxVx o => vmaxVxWord o
  | .vminnVx o => vminnVxWord o
  | .vmaxnVx o => vmaxnVxWord o
  | .vsaddVx o => vsaddVxWord o
  | .vssubVx o => vssubVxWord o
  | .vsaddnVx o => vsaddnVxWord o
  | .vssubnVx o => vssubnVxWord o
  | .vmseqVx o => vmseqVxWord o
  | .vmsneVx o => vmsneVxWord o
  | .vmsltVx o => vmsltVxWord o
  | .vmsleVx o => vmsleVxWord o
  | .vmsltnVx o => vmsltnVxWord o
  | .vmslenVx o => vmslenVxWord o
  | .vfadd o => vfaddWord o
  | .vfsub o => vfsubWord o
  | .vfmul o => vfmulWord o
  | .vfdiv o => vfdivWord o
  | .vfsqrt o => vfsqrtWord o
  | .vfma o => vfmaWord o
  | .vfms o => vfmsWord o
  | .vfnma o => vfnmaWord o
  | .vfmin o => vfminWord o
  | .vfmax o => vfmaxWord o
  | .vfminp o => vfminpWord o
  | .vfmaxp o => vfmaxpWord o
  | .vfabs o => vfabsWord o
  | .vfneg o => vfnegWord o
  | .vfsgnj o => vfsgnjWord o
  | .vfclass o => vfclassWord o
  | .vfwma o => vfwmaWord o
  | .vfwadd o => vfwaddWord o
  | .vmfeq o => vmfeqWord o
  | .vmflt o => vmfltWord o
  | .vmfle o => vmfleWord o
  | .vmfun o => vmfunWord o
  | .vfaddVf o => vfaddVfWord o
  | .vfsubVf o => vfsubVfWord o
  | .vfmulVf o => vfmulVfWord o
  | .vfdivVf o => vfdivVfWord o
  | .vfmaVf o => vfmaVfWord o
  | .vfmsVf o => vfmsVfWord o
  | .vfnmaVf o => vfnmaVfWord o
  | .vfminVf o => vfminVfWord o
  | .vfmaxVf o => vfmaxVfWord o
  | .vfminpVf o => vfminpVfWord o
  | .vfmaxpVf o => vfmaxpVfWord o
  | .vfsgnjVf o => vfsgnjVfWord o
  | .vmfeqVf o => vmfeqVfWord o
  | .vmfltVf o => vmfltVfWord o
  | .vmfleVf o => vmfleVfWord o
  | .vmfunVf o => vmfunVfWord o
  | .vfaddx o => vfaddxWord o
  | .vfsubx o => vfsubxWord o
  | .vfmulx o => vfmulxWord o
  | .vdwadd o => vdwaddWord o
  | .vdwadds o => vdwaddsWord o
  | .vdwmul o => vdwmulWord o
  | .vdwren o => vdwrenWord o
  | .vredsum o => vredsumWord o
  | .vredmax o => vredmaxWord o
  | .vredmin o => vredminWord o
  | .vfredo o => vfredoWord o
  | .vfredt o => vfredtWord o
  | .vfredc o => vfredcWord o
  | .vfredmax o => vfredmaxWord o
  | .vfredmin o => vfredminWord o
  | .vslideup o => vslideupWord o
  | .vslidedn o => vslidednWord o
  | .vslide1up o => vslide1upWord o
  | .vslide1dn o => vslide1dnWord o
  | .vpermv o => vpermvWord o
  | .vcompress o => vcompressWord o
  | .vexpand o => vexpandWord o
  | .vmerge o => vmergeWord o
  | .vid o => vidWord o
  | .viota o => viotaWord o
  | .vmand o => vmandWord o
  | .vmor o => vmorWord o
  | .vmxor o => vmxorWord o
  | .vmandn o => vmandnWord o
  | .vmnot o => vmnotWord o
  | .vmpopc o => vmpopcWord o
  | .vmfirst o => vmfirstWord o
  | .vmany o => vmanyWord o
  | .vfcvt o => vfcvtWord o
  | .vfwcvt o => vfwcvtWord o
  | .vfncvt o => vfncvtWord o
  | .vbdec o => vbdecWord o
  | .vbenc o => vbencWord o
  | .vunpk o => vunpkWord o
  | .vpack o => vpackWord o
  | .vlut o => vlutWord o
  | .vfrcp o => vfrcpWord o
  | .vfrsqrt o => vfrsqrtWord o
  | .vfexp2 o => vfexp2Word o
  | .vflog2 o => vflog2Word o
  | .vfsinpi o => vfsinpiWord o
  | .vfcospi o => vfcospiWord o
  | .vld o => vldWord o
  | .vlds o => vldsWord o
  | .vldx o => vldxWord o
  | .vldb o => vldbWord o
  | .vfill o => vfillWord o
  | .vst o => vstWord o
  | .vsts o => vstsWord o
  | .vstx o => vstxWord o
  | .vstb o => vstbWord o
  | .vspill o => vspillWord o
  | .chainedOperation _ => 0#32
  | .queueElementsArrive _ => 0#32
  | .vmove o => vmoveWord o
  | .vsplat o => vsplatWord o
  | .vmvxs o => vmvxsWord o
  | .vmvsx o => vmvsxWord o
  | .mopa tile va vb m pair => mopaWord tile va vb m pair
  | .mopax tile vb vidx m pair => mopaxWord tile vb vidx m pair
  | .msclA vs => msclAWord vs
  | .msclB vs => msclBWord vs
  | .mzero tile => mzeroWord tile
  | .mldt tile a s n => mldtWord tile a s n
  | .mstt tile a s n => msttWord tile a s n
  | .mrdv tile vd n m => mrdvWord tile vd n m
  | .mwrv tile vs n m => mwrvWord tile vs n m
  | .sbind q a => sbindWord q a
  | .sbindc q a => sbindcWord q a
  | .sunbind q => sunbindWord q
  | .vrgn off => vrgnWord off
  | .vrgne => vrgneWord
  | .lfork off => lforkWord off
  | .ljoin => ljoinWord
  | .lexit => lexitWord
  | .lxrd d a b => lxrdWord d a b
  | .xcopy d a b scope acq rel => xcopyWord d a b scope acq rel
  | .xgath d a b scope acq rel => xgathWord d a b scope acq rel
  | .xwait a => xwaitWord a
  | .xwaitWake _ => 0#32
  | .xpoll d a => xpollWord d a
  | .commandPoolFreed _ => 0#32
  | .engineCommandStart _ _ => 0#32
  | .engineCommandComplete _ _ => 0#32
  | .bkadd d a b => bkaddWord d a b
  | .bkmax d a b => bkmaxWord d a b
  | .bkmul d a b => bkmulWord d a b
  | .bksmx d a b => bksmxWord d a b
  | .bkzero a b => bkzeroWord a b
  | .bkred d a b => bkredWord d a b
  | .bankCommandPerform _ _ => 0#32
  | .pyinit d h => pyinitWord d h
  | .pyapp d h v => pyappWord d h v
  | .pystat d h settled => pystatWord d h settled
  | .pyld vd h t xs level settled => pyldWord vd h t xs level settled
  | .instarInitRequest _ _ => 0#32
  | .instarAppend _ _ _ => 0#32
  | .instarMerge _ _ => 0#32
  | .instarLoadServe _ _ _ _ _ => 0#32
  | .instarStatusServe _ _ _ => 0#32
  | .rcall d o n => rcallWord d o n
  | .rread d o n => rreadWord d o n
  | .callReturn _ => 0#32
  | .logPositionAssign _ _ _ _ => 0#32
  | .replayApplyEntry _ _ => 0#32
  | .rreadRun _ => 0#32
  | .logfullTimeout _ => 0#32
  | .replicaRebuild _ _ => 0#32
  | .logCopyRepair _ _ _ => 0#32
  | .lnch d a => lnchWord d a
  | .lnchW d a => lnchWWord d a
  | .lwait d a => lwaitWord d a
  | .lwaitRelease _ => 0#32
  | .qpush v n => qpushWord v n
  | .qpop v n => qpopWord v n
  | .qstat d n => qstatWord d n
  | .queueWaitWake _ => 0#32
  | .time d => timeWord d
  | .sleept a => sleeptWord a
  | .sleeptWake _ => 0#32
  | .evset a b => evsetWord a b
  | .evwait a b => evwaitWord a b
  | .evwaitWake _ => 0#32
  | .bar a => barWord a
  | .barRelease _ _ => 0#32
  | .stageGroupDeadlock _ => 0#32
  | .nmrun d a => nmrunWord d a
  | .nmbag d a => nmbagWord d a
  | .nmwait a => nmwaitWord a
  | .nmwaitWake _ => 0#32
  | .nrnext => nrnextWord
  | .nrseek a => nrseekWord a
  | .nrwb v => nrwbWord v
  | .nmuKernelStart _ => 0#32
  | .nmuStepLimit _ => 0#32
  | .nmbagRun _ => 0#32
  | .chunkDecode _ _ => 0#32
  | .pageRequestResponse _ _ => 0#32
  | .invalidationRequest _ _ => 0#32
  | .invalidationComplete => 0#32
  | .stopSkidTimeout _ => 0#32
  | .dispatchIteration _ _ _ => 0#32
  | .launchEligible _ _ => 0#32
  | .priorityAging _ _ => 0#32
  | .preemptFold _ => 0#32
  | .evictLaunch _ _ _ => 0#32
  | .hartResume _ _ => 0#32
  | .launchComplete _ _ => 0#32
  | .supervisorStopLaunch _ _ => 0#32
  | .shaltWrite _ _ => 0#32
  | .dieReset _ => 0#32
  | .laneRetire _ _ => 0#32
  | .hartStateError _ => 0#32
  | .hqownClaim _ _ => 0#32
  | .hqownRelease _ _ => 0#32
  | .hqsubSubmit _ _ _ => 0#32
  | .objectRegister _ _ => 0#32
  | .objectDeregister _ _ => 0#32
  | .semaphoreClaim _ _ => 0#32
  | .semaphoreRelease _ _ => 0#32
  | .evadd _ _ => 0#32
  | .evclr _ _ => 0#32
  | .dbctxWrite _ _ => 0#32
  | .dbctlStop _ => 0#32
  | .dbctlResume _ => 0#32
  | .dbringWrite _ _ => 0#32
  | .dbtailWrite _ _ => 0#32
  | .portMessageAccept _ _ => 0#32
  | .replayDivergenceTimeout _ => 0#32
  | .registerWrite _ _ _ => 0#32
  | .refreshDue _ _ => 0#32
  | .channelPowerdownTimeout _ => 0#32
  | .channelPowerdown _ => 0#32
  | .channelWake _ => 0#32
  | .moduleReset => 0#32
  | .mbgoFetch _ _ => 0#32
  | .recoveryFetchComplete => 0#32
  | .hdmDecoderCommit _ _ _ => 0#32
  | .portLinkDown _ _ => 0#32
  | .spdmRequest _ _ => 0#32
  | .cocoonConfigUnlocked _ _ => 0#32
  | .cocoonConfigLocked _ => 0#32
  | .cocoonRun _ => 0#32
  | .cocoonError _ => 0#32
  | .tenantDebugEnable _ => 0#32
  | .powerClockStep _ => 0#32
  | .idleEntry => 0#32
  | .standbyEntry => 0#32
  | .activeReturn => 0#32
  | .thermalTrip => 0#32
  | .flitCrcRetry _ => 0#32
  | .messageAck _ _ _ => 0#32
  | .scaleupPortFail _ _ => 0#32
  | .remoteAccessTimeout _ => 0#32
  | .illegalInstruction _ => 0#32
  | .accessPerformed _ => 0#32
  | .clockCycle _ _ _ _ => 0#32
  | .supervisorResume _ => 0#32
  | .contextCreate _ _ => 0#32
  | .contextEnd _ => 0#32
  | .channelReset _ => 0#32
  | .dieBack _ => 0#32
  | .cxlMemRequest _ _ => 0#32
  | .cxlCacheSnoop _ _ _ => 0#32
  | .atomicopRequest _ _ => 0#32
  | .remoteRequest _ _ _ _ => 0#32
  | .patrolScrub _ => 0#32

/-- The rows with an encoding: the others are steps of the module that no word stands for. -/
def Instr.hasWord (i : Instr) : Bool :=
  match i with
  | .add _ _ _ => true
  | .sub _ _ _ => true
  | .and _ _ _ => true
  | .or _ _ _ => true
  | .xor _ _ _ => true
  | .andn _ _ _ => true
  | .shl _ _ _ => true
  | .shr _ _ _ => true
  | .sra _ _ _ => true
  | .rol _ _ _ => true
  | .ror _ _ _ => true
  | .slt _ _ _ => true
  | .sltn _ _ _ => true
  | .min _ _ _ => true
  | .max _ _ _ => true
  | .minn _ _ _ => true
  | .maxn _ _ _ => true
  | .mul _ _ _ => true
  | .mulh _ _ _ => true
  | .mulhn _ _ _ => true
  | .div _ _ _ => true
  | .divn _ _ _ => true
  | .rem _ _ _ => true
  | .remn _ _ _ => true
  | .clz _ _ => true
  | .ctz _ _ => true
  | .popc _ _ => true
  | .sextb _ _ => true
  | .sexth _ _ => true
  | .sextw _ _ => true
  | .addi _ _ _ => true
  | .andi _ _ _ => true
  | .ori _ _ _ => true
  | .xori _ _ _ => true
  | .slti _ _ _ => true
  | .lih _ _ _ => true
  | .shli _ _ _ => true
  | .shri _ _ _ => true
  | .srai _ _ _ => true
  | .fadd _ _ _ _ => true
  | .fsub _ _ _ _ => true
  | .fmul _ _ _ _ => true
  | .fdiv _ _ _ _ => true
  | .fsqrt _ _ _ => true
  | .fmadd _ _ _ _ => true
  | .fmin _ _ _ => true
  | .fmax _ _ _ => true
  | .feq _ _ _ => true
  | .flt _ _ _ => true
  | .fle _ _ _ => true
  | .fcvt _ _ _ _ => true
  | .fclass _ _ => true
  | .ldb _ _ _ => true
  | .ldh _ _ _ => true
  | .ldw _ _ _ => true
  | .ldd _ _ _ => true
  | .ldbn _ _ _ => true
  | .ldhn _ _ _ => true
  | .ldwn _ _ _ => true
  | .stb _ _ _ => true
  | .sth _ _ _ => true
  | .stw _ _ _ => true
  | .std _ _ _ => true
  | .amoadd _ _ _ _ _ _ => true
  | .amoand _ _ _ _ _ _ => true
  | .amoor _ _ _ _ _ _ => true
  | .amoxor _ _ _ _ _ _ => true
  | .amomin _ _ _ _ _ _ => true
  | .amomax _ _ _ _ _ _ => true
  | .amominn _ _ _ _ _ _ => true
  | .amomaxn _ _ _ _ _ _ => true
  | .amoswap _ _ _ _ _ _ => true
  | .amocas _ _ _ _ _ _ => true
  | .amofadd _ _ _ _ _ _ => true
  | .beq _ _ _ => true
  | .bne _ _ _ => true
  | .blt _ _ _ => true
  | .bge _ _ _ => true
  | .bltn _ _ _ => true
  | .bgen _ _ _ => true
  | .jal _ => true
  | .jalr _ _ _ => true
  | .loop _ _ => true
  | .csrr _ _ => true
  | .csrw _ _ => true
  | .csrs _ _ => true
  | .csrc _ _ => true
  | .trap _ => true
  | .brk _ => true
  | .eret => true
  | .fence _ => true
  | .fenceSv => true
  | .fenceVs => true
  | .fenceVv => true
  | .sbar _ => true
  | .ifence => true
  | .yield => true
  | .halt => true
  | .haltDrained _ => false
  | .pfx _ _ _ _ _ _ _ _ => true
  | .vsetl _ _ _ _ => true
  | .vlenq _ => true
  | .vadd _ => true
  | .vsub _ => true
  | .vrsub _ => true
  | .vmul _ => true
  | .vmulh _ => true
  | .vmulhn _ => true
  | .vmacc _ => true
  | .vand _ => true
  | .vor _ => true
  | .vxor _ => true
  | .vshl _ => true
  | .vshr _ => true
  | .vsra _ => true
  | .vmin _ => true
  | .vmax _ => true
  | .vminn _ => true
  | .vmaxn _ => true
  | .vsadd _ => true
  | .vssub _ => true
  | .vsaddn _ => true
  | .vssubn _ => true
  | .vclz _ => true
  | .vctz _ => true
  | .vpopc _ => true
  | .vmseq _ => true
  | .vmsne _ => true
  | .vmslt _ => true
  | .vmsle _ => true
  | .vmsltn _ => true
  | .vmslen _ => true
  | .vaddVx _ => true
  | .vsubVx _ => true
  | .vrsubVx _ => true
  | .vmulVx _ => true
  | .vmulhVx _ => true
  | .vmulhnVx _ => true
  | .vmaccVx _ => true
  | .vandVx _ => true
  | .vorVx _ => true
  | .vxorVx _ => true
  | .vshlVx _ => true
  | .vshrVx _ => true
  | .vsraVx _ => true
  | .vminVx _ => true
  | .vmaxVx _ => true
  | .vminnVx _ => true
  | .vmaxnVx _ => true
  | .vsaddVx _ => true
  | .vssubVx _ => true
  | .vsaddnVx _ => true
  | .vssubnVx _ => true
  | .vmseqVx _ => true
  | .vmsneVx _ => true
  | .vmsltVx _ => true
  | .vmsleVx _ => true
  | .vmsltnVx _ => true
  | .vmslenVx _ => true
  | .vfadd _ => true
  | .vfsub _ => true
  | .vfmul _ => true
  | .vfdiv _ => true
  | .vfsqrt _ => true
  | .vfma _ => true
  | .vfms _ => true
  | .vfnma _ => true
  | .vfmin _ => true
  | .vfmax _ => true
  | .vfminp _ => true
  | .vfmaxp _ => true
  | .vfabs _ => true
  | .vfneg _ => true
  | .vfsgnj _ => true
  | .vfclass _ => true
  | .vfwma _ => true
  | .vfwadd _ => true
  | .vmfeq _ => true
  | .vmflt _ => true
  | .vmfle _ => true
  | .vmfun _ => true
  | .vfaddVf _ => true
  | .vfsubVf _ => true
  | .vfmulVf _ => true
  | .vfdivVf _ => true
  | .vfmaVf _ => true
  | .vfmsVf _ => true
  | .vfnmaVf _ => true
  | .vfminVf _ => true
  | .vfmaxVf _ => true
  | .vfminpVf _ => true
  | .vfmaxpVf _ => true
  | .vfsgnjVf _ => true
  | .vmfeqVf _ => true
  | .vmfltVf _ => true
  | .vmfleVf _ => true
  | .vmfunVf _ => true
  | .vfaddx _ => true
  | .vfsubx _ => true
  | .vfmulx _ => true
  | .vdwadd _ => true
  | .vdwadds _ => true
  | .vdwmul _ => true
  | .vdwren _ => true
  | .vredsum _ => true
  | .vredmax _ => true
  | .vredmin _ => true
  | .vfredo _ => true
  | .vfredt _ => true
  | .vfredc _ => true
  | .vfredmax _ => true
  | .vfredmin _ => true
  | .vslideup _ => true
  | .vslidedn _ => true
  | .vslide1up _ => true
  | .vslide1dn _ => true
  | .vpermv _ => true
  | .vcompress _ => true
  | .vexpand _ => true
  | .vmerge _ => true
  | .vid _ => true
  | .viota _ => true
  | .vmand _ => true
  | .vmor _ => true
  | .vmxor _ => true
  | .vmandn _ => true
  | .vmnot _ => true
  | .vmpopc _ => true
  | .vmfirst _ => true
  | .vmany _ => true
  | .vfcvt _ => true
  | .vfwcvt _ => true
  | .vfncvt _ => true
  | .vbdec _ => true
  | .vbenc _ => true
  | .vunpk _ => true
  | .vpack _ => true
  | .vlut _ => true
  | .vfrcp _ => true
  | .vfrsqrt _ => true
  | .vfexp2 _ => true
  | .vflog2 _ => true
  | .vfsinpi _ => true
  | .vfcospi _ => true
  | .vld _ => true
  | .vlds _ => true
  | .vldx _ => true
  | .vldb _ => true
  | .vfill _ => true
  | .vst _ => true
  | .vsts _ => true
  | .vstx _ => true
  | .vstb _ => true
  | .vspill _ => true
  | .chainedOperation _ => false
  | .queueElementsArrive _ => false
  | .vmove _ => true
  | .vsplat _ => true
  | .vmvxs _ => true
  | .vmvsx _ => true
  | .mopa _ _ _ _ _ => true
  | .mopax _ _ _ _ _ => true
  | .msclA _ => true
  | .msclB _ => true
  | .mzero _ => true
  | .mldt _ _ _ _ => true
  | .mstt _ _ _ _ => true
  | .mrdv _ _ _ _ => true
  | .mwrv _ _ _ _ => true
  | .sbind _ _ => true
  | .sbindc _ _ => true
  | .sunbind _ => true
  | .vrgn _ => true
  | .vrgne => true
  | .lfork _ => true
  | .ljoin => true
  | .lexit => true
  | .lxrd _ _ _ => true
  | .xcopy _ _ _ _ _ _ => true
  | .xgath _ _ _ _ _ _ => true
  | .xwait _ => true
  | .xwaitWake _ => false
  | .xpoll _ _ => true
  | .commandPoolFreed _ => false
  | .engineCommandStart _ _ => false
  | .engineCommandComplete _ _ => false
  | .bkadd _ _ _ => true
  | .bkmax _ _ _ => true
  | .bkmul _ _ _ => true
  | .bksmx _ _ _ => true
  | .bkzero _ _ => true
  | .bkred _ _ _ => true
  | .bankCommandPerform _ _ => false
  | .pyinit _ _ => true
  | .pyapp _ _ _ => true
  | .pystat _ _ _ => true
  | .pyld _ _ _ _ _ _ => true
  | .instarInitRequest _ _ => false
  | .instarAppend _ _ _ => false
  | .instarMerge _ _ => false
  | .instarLoadServe _ _ _ _ _ => false
  | .instarStatusServe _ _ _ => false
  | .rcall _ _ _ => true
  | .rread _ _ _ => true
  | .callReturn _ => false
  | .logPositionAssign _ _ _ _ => false
  | .replayApplyEntry _ _ => false
  | .rreadRun _ => false
  | .logfullTimeout _ => false
  | .replicaRebuild _ _ => false
  | .logCopyRepair _ _ _ => false
  | .lnch _ _ => true
  | .lnchW _ _ => true
  | .lwait _ _ => true
  | .lwaitRelease _ => false
  | .qpush _ _ => true
  | .qpop _ _ => true
  | .qstat _ _ => true
  | .queueWaitWake _ => false
  | .time _ => true
  | .sleept _ => true
  | .sleeptWake _ => false
  | .evset _ _ => true
  | .evwait _ _ => true
  | .evwaitWake _ => false
  | .bar _ => true
  | .barRelease _ _ => false
  | .stageGroupDeadlock _ => false
  | .nmrun _ _ => true
  | .nmbag _ _ => true
  | .nmwait _ => true
  | .nmwaitWake _ => false
  | .nrnext => true
  | .nrseek _ => true
  | .nrwb _ => true
  | .nmuKernelStart _ => false
  | .nmuStepLimit _ => false
  | .nmbagRun _ => false
  | .chunkDecode _ _ => false
  | .pageRequestResponse _ _ => false
  | .invalidationRequest _ _ => false
  | .invalidationComplete => false
  | .stopSkidTimeout _ => false
  | .dispatchIteration _ _ _ => false
  | .launchEligible _ _ => false
  | .priorityAging _ _ => false
  | .preemptFold _ => false
  | .evictLaunch _ _ _ => false
  | .hartResume _ _ => false
  | .launchComplete _ _ => false
  | .supervisorStopLaunch _ _ => false
  | .shaltWrite _ _ => false
  | .dieReset _ => false
  | .laneRetire _ _ => false
  | .hartStateError _ => false
  | .hqownClaim _ _ => false
  | .hqownRelease _ _ => false
  | .hqsubSubmit _ _ _ => false
  | .objectRegister _ _ => false
  | .objectDeregister _ _ => false
  | .semaphoreClaim _ _ => false
  | .semaphoreRelease _ _ => false
  | .evadd _ _ => false
  | .evclr _ _ => false
  | .dbctxWrite _ _ => false
  | .dbctlStop _ => false
  | .dbctlResume _ => false
  | .dbringWrite _ _ => false
  | .dbtailWrite _ _ => false
  | .portMessageAccept _ _ => false
  | .replayDivergenceTimeout _ => false
  | .registerWrite _ _ _ => false
  | .refreshDue _ _ => false
  | .channelPowerdownTimeout _ => false
  | .channelPowerdown _ => false
  | .channelWake _ => false
  | .moduleReset => false
  | .mbgoFetch _ _ => false
  | .recoveryFetchComplete => false
  | .hdmDecoderCommit _ _ _ => false
  | .portLinkDown _ _ => false
  | .spdmRequest _ _ => false
  | .cocoonConfigUnlocked _ _ => false
  | .cocoonConfigLocked _ => false
  | .cocoonRun _ => false
  | .cocoonError _ => false
  | .tenantDebugEnable _ => false
  | .powerClockStep _ => false
  | .idleEntry => false
  | .standbyEntry => false
  | .activeReturn => false
  | .thermalTrip => false
  | .flitCrcRetry _ => false
  | .messageAck _ _ _ => false
  | .scaleupPortFail _ _ => false
  | .remoteAccessTimeout _ => false
  | .illegalInstruction _ => false
  | .accessPerformed _ => false
  | .clockCycle _ _ _ _ => false
  | .supervisorResume _ => false
  | .contextCreate _ _ => false
  | .contextEnd _ => false
  | .channelReset _ => false
  | .dieBack _ => false
  | .cxlMemRequest _ _ => false
  | .cxlCacheSnoop _ _ _ => false
  | .atomicopRequest _ _ => false
  | .remoteRequest _ _ _ _ => false
  | .patrolScrub _ => false

/-- The decoder of one word: the instruction, or the name under which R88 refuses it. -/
noncomputable def decode (w : BitVec 32) : Except Reject Instr :=
  match rawDecode w with
  | none => if majorReserved w then .error .reservedMajor else .error .reservedFunction
  | some i => if i.wf && encode i == w then .ok i else .error .badField

/-- Four bytes, the first at the lowest address, are one word (R85: little-endian). -/
def wordOfBytes (b0 b1 b2 b3 : Byte) : BitVec 32 := b3 ++ b2 ++ b1 ++ b0

/-- The bytes of a word, lowest address first. -/
def bytesOfWord (w : BitVec 32) : List Byte :=
  [w.extractLsb' 0 8, w.extractLsb' 8 8, w.extractLsb' 16 8, w.extractLsb' 24 8]

/-- The decoder over bytes: the instruction and the rest of the list, or a refusal by name. -/
noncomputable def decodeBytes (bs : List Byte) : Except Reject (Instr × List Byte) :=
  match bs with
  | b0 :: b1 :: b2 :: b3 :: rest =>
    match decode (wordOfBytes b0 b1 b2 b3) with
    | .ok i => .ok (i, rest)
    | .error r => .error r
  | _ => .error .truncated

/-- The instruction of a table row's word: its bits laid out little-endian and given to the decoder. -/
noncomputable def decodeTableWord (nbits w : Nat) : Option Instr :=
  match decodeBytes (bytesOfWord (BitVec.ofNat 32 (w % 2 ^ nbits))) with
  | .ok (i, _) => some i
  | .error _ => none

end Sys2Proof
end

