-- ==== Sys2Proof/Machine/Digest.lean ====
section
/-!
DEFINITION. The digests and signatures the manual names: SHA-384 (R347, R364, R366), the CRC-64 of ECMA-182 (R347), and ECDSA over
brainpoolP384r1 (R364, R366).  All are defined outside the manual (log 6).
-/

namespace Sys2Proof.Machine

/-- Round constants of SHA-512 and SHA-384. -/
def shaK : List (BitVec 64) :=
  [0x428a2f98d728ae22, 0x7137449123ef65cd, 0xb5c0fbcfec4d3b2f, 0xe9b5dba58189dbbc, 0x3956c25bf348b538, 0x59f111f1b605d019, 0x923f82a4af194f9b, 0xab1c5ed5da6d8118] ++
  [0xd807aa98a3030242, 0x12835b0145706fbe, 0x243185be4ee4b28c, 0x550c7dc3d5ffb4e2, 0x72be5d74f27b896f, 0x80deb1fe3b1696b1, 0x9bdc06a725c71235, 0xc19bf174cf692694] ++
  [0xe49b69c19ef14ad2, 0xefbe4786384f25e3, 0x0fc19dc68b8cd5b5, 0x240ca1cc77ac9c65, 0x2de92c6f592b0275, 0x4a7484aa6ea6e483, 0x5cb0a9dcbd41fbd4, 0x76f988da831153b5] ++
  [0x983e5152ee66dfab, 0xa831c66d2db43210, 0xb00327c898fb213f, 0xbf597fc7beef0ee4, 0xc6e00bf33da88fc2, 0xd5a79147930aa725, 0x06ca6351e003826f, 0x142929670a0e6e70] ++
  [0x27b70a8546d22ffc, 0x2e1b21385c26c926, 0x4d2c6dfc5ac42aed, 0x53380d139d95b3df, 0x650a73548baf63de, 0x766a0abb3c77b2a8, 0x81c2c92e47edaee6, 0x92722c851482353b] ++
  [0xa2bfe8a14cf10364, 0xa81a664bbc423001, 0xc24b8b70d0f89791, 0xc76c51a30654be30, 0xd192e819d6ef5218, 0xd69906245565a910, 0xf40e35855771202a, 0x106aa07032bbd1b8] ++
  [0x19a4c116b8d2d0c8, 0x1e376c085141ab53, 0x2748774cdf8eeb99, 0x34b0bcb5e19b48a8, 0x391c0cb3c5c95a63, 0x4ed8aa4ae3418acb, 0x5b9cca4f7763e373, 0x682e6ff3d6b2b8a3] ++
  [0x748f82ee5defb2fc, 0x78a5636f43172f60, 0x84c87814a1f0ab72, 0x8cc702081a6439ec, 0x90befffa23631e28, 0xa4506cebde82bde9, 0xbef9a3f7b2c67915, 0xc67178f2e372532b] ++
  [0xca273eceea26619c, 0xd186b8c721c0c207, 0xeada7dd6cde0eb1e, 0xf57d4f7fee6ed178, 0x06f067aa72176fba, 0x0a637dc5a2c898a6, 0x113f9804bef90dae, 0x1b710b35131c471b] ++
  [0x28db77f523047d84, 0x32caab7b40c72493, 0x3c9ebe0a15c9bebc, 0x431d67c49c100d4c, 0x4cc5d4becb3e42b6, 0x597f299cfc657e2a, 0x5fcb6fab3ad6faec, 0x6c44198c4a475817]

/-- Initial value of SHA-384. -/
def shaInit : List (BitVec 64) :=
  [0xcbbb9d5dc1059ed8, 0x629a292a367cd507, 0x9159015a3070dd17, 0x152fecd8f70e5939, 0x67332667ffc00b31, 0x8eb44a8768581511, 0xdb0c2e0d64f98fa7, 0x47b5481dbefa4fa4]

def shaS0 (x : BitVec 64) : BitVec 64 := x.rotateRight 28 ^^^ x.rotateRight 34 ^^^ x.rotateRight 39
def shaS1 (x : BitVec 64) : BitVec 64 := x.rotateRight 14 ^^^ x.rotateRight 18 ^^^ x.rotateRight 41
def shaG0 (x : BitVec 64) : BitVec 64 := x.rotateRight 1 ^^^ x.rotateRight 8 ^^^ (x >>> 7)
def shaG1 (x : BitVec 64) : BitVec 64 := x.rotateRight 19 ^^^ x.rotateRight 61 ^^^ (x >>> 6)

/-- The eight working words after one round. -/
def shaRound (k w : BitVec 64) : List (BitVec 64) → List (BitVec 64)
  | [a, b, c, d, e, f, g, h] =>
    let t1 := h + shaS1 e + ((e &&& f) ^^^ (~~~e &&& g)) + k + w
    let t2 := shaS0 a + ((a &&& b) ^^^ (a &&& c) ^^^ (b &&& c))
    [t1 + t2, a, b, c, d + t1, e, f, g]
  | x => x

/-- The rounds of a block; `win` holds the next sixteen words of the message schedule. -/
def shaRounds : List (BitVec 64) → (win : List (BitVec 64)) → List (BitVec 64) → List (BitVec 64)
  | k :: ks, w :: t, x =>
    let next := shaG1 (t.getD 13 0) + t.getD 8 0 + shaG0 (t.getD 0 0) + w
    shaRounds ks (t ++ [next]) (shaRound k w x)
  | _, _, x => x

/-- Big-endian value of bytes. -/
def beNat (bs : List Byte) : Nat := bs.foldl (fun n b => n * 256 + b.toNat) 0

/-- The `n` low bytes of a value, big-endian. -/
def beBytes : (n : Nat) → Nat → List Byte
  | 0, _ => []
  | n + 1, x => beBytes n (x / 256) ++ [BitVec.ofNat 8 x]

/-- The sixteen words of a block. -/
def shaWords : (n : Nat) → List Byte → List (BitVec 64)
  | 0, _ => []
  | n + 1, bs => BitVec.ofNat 64 (beNat (bs.take 8)) :: shaWords n (bs.drop 8)

/-- Absorb `n` blocks of 128 bytes. -/
def shaBlocks : (n : Nat) → List Byte → List (BitVec 64) → List (BitVec 64)
  | 0, _, h => h
  | n + 1, bs, h => shaBlocks n (bs.drop 128) (List.zipWith (· + ·) h (shaRounds shaK (shaWords 16 bs) h))

/-- Padding to whole blocks: a 1 bit, zeros and the length in bits. -/
def shaPad (bs : List Byte) : List Byte :=
  let n := bs.length
  bs ++ [0x80#8] ++ List.replicate ((239 - n % 128) % 128) 0 ++ beBytes 16 (8 * n)

/-- SHA-384. -/
def sha384 (bs : List Byte) : BitVec 384 :=
  let p := shaPad bs
  let h := shaBlocks (p.length / 128) p shaInit
  BitVec.ofNat 384 (h.take 6 |>.foldl (fun n w => n * 2 ^ 64 + w.toNat) 0)

/-- One bit of CRC-64. -/
def crcBit (c : BitVec 64) : BitVec 64 := if c.msb then (c <<< 1) ^^^ 0x42F0E1EBA9EA3693#64 else c <<< 1

def crcBits : (n : Nat) → BitVec 64 → BitVec 64
  | 0, c => c
  | n + 1, c => crcBits n (crcBit c)

/-- CRC-64 of ECMA-182. -/
def crc64 (bs : List Byte) : BitVec 64 :=
  bs.foldl (fun (c : BitVec 64) (b : Byte) => crcBits 8 (c ^^^ (b.setWidth 64 <<< 56))) 0

/-! ## ECDSA over brainpoolP384r1 (RFC 5639) -/

/-- The field's prime, the curve's coefficients, its base point, and the order of that point. -/
def curveP : Nat := 0x8CB91E82A3386D280F5D6F7E50E641DF152F7109ED5456B412B1DA197FB71123ACD3A729901D1A71874700133107EC53
def curveA : Nat := 0x7BC382C63D8C150C3C72080ACE05AFA0C2BEA28E4FB22787139165EFBA91F90F8AA5814A503AD4EB04A8C7DD22CE2826
def curveB : Nat := 0x04A8C7DD22CE28268B39B55416F0447C2FB77DE107DCD2A62E880EA53EEB62D57CB4390295DBC9943AB78696FA504C11
def curveG : Nat × Nat :=
  (0x1D1C64F068CF45FFA2A63A81B7C13F6B8847A3E77EF14FE3DB7FCAFE0CBD10E8E826E03436D646AAEF87B2E247D4AF1E,
   0x8ABE1D7520F9C2A45CB1EB8E95CFD55262B70B29FEEC5864E19C054FF99129280E4646217791811142820341263C5315)
def curveN : Nat := 0x8CB91E82A3386D280F5D6F7E50E641DF152F7109ED5456B31F166E6CAC0425A7CF3AB6AF6B7FC3103B883202E9046565

/-- b to the power e modulo m, over the `fuel` low bits of e. -/
def powMod (m : Nat) : (fuel b e : Nat) → Nat
  | 0, _, _ => 1 % m
  | fuel + 1, b, e => let r := powMod m fuel (b * b % m) (e / 2); if e % 2 == 1 then r * b % m else r

/-- The inverse modulo a prime of 384 bits. -/
def invMod (m x : Nat) : Nat := powMod m 384 (x % m) (m - 2)

/-- The difference modulo a number. -/
def subMod (m x y : Nat) : Nat := (x + (m - y % m)) % m

/-- The sum of two points; none is the point at infinity. -/
def addPoint : Option (Nat × Nat) → Option (Nat × Nat) → Option (Nat × Nat)
  | none, q => q
  | p, none => p
  | some (x, y), some (u, v) =>
    if x == u && (y + v) % curveP == 0 then none else
    let l := if x == u then (3 * x * x + curveA) * invMod curveP (2 * y) % curveP else subMod curveP v y * invMod curveP (subMod curveP u x) % curveP
    let w := subMod curveP (l * l) (x + u)
    some (w, subMod curveP (l * subMod curveP x w) y)

/-- k times a point, over the `fuel` low bits of k. -/
def mulPoint : (fuel k : Nat) → Option (Nat × Nat) → Option (Nat × Nat)
  | 0, _, _ => none
  | fuel + 1, k, p => let r := mulPoint fuel (k / 2) (addPoint p p); if k % 2 == 1 then addPoint r p else r

/-- The public key of an uncompressed point: its first byte is 4, and it lies on the curve. -/
def pointOf (key : List Byte) : Option (Nat × Nat) :=
  let x := beNat ((key.drop 1).take 48)
  let y := beNat ((key.drop 49).take 48)
  if key.length == 97 && key.head? == some 4 && x < curveP && y < curveP && y * y % curveP == (x * x * x + curveA * x + curveB) % curveP
  then some (x, y) else none

/-- The signature r, s of a digest is valid under a public key. -/
def ecdsaVerify (key sig : List Byte) (z : BitVec 384) : Bool :=
  let r := beNat (sig.take 48)
  let t := beNat ((sig.drop 48).take 48)
  match pointOf key with
  | none => false
  | some q =>
    let w := invMod curveN t
    0 < r && r < curveN && 0 < t && t < curveN &&
    (match addPoint (mulPoint 384 (z.toNat * w % curveN) (some curveG)) (mulPoint 384 (r * w % curveN) (some q)) with
     | some (x, _) => x % curveN == r
     | none => false)

/-- The signature of a digest under a private key, with a random number. -/
def ecdsaSign (d k : Nat) (z : BitVec 384) : List Byte :=
  let r := match mulPoint 384 (k % curveN) (some curveG) with | some (x, _) => x % curveN | none => 0
  beBytes 48 r ++ beBytes 48 (invMod curveN k * (z.toNat + r * d) % curveN)

end Sys2Proof.Machine
end

