-- ==== Sys2Proof/Machine/Flags.lean ====
section
/-!
DEFINITION. The numbers of the machine (R33 to R56): element formats, exact values, rounding, flags, conversions, block
scales, exact pairs, double words and the correctly rounded functions.  Everything here is a function of its arguments;
nothing reads or writes the state.  Arithmetic is exact on naturals and integers and is rounded once.
-/

namespace Sys2Proof.Machine

/-! ## Flags (R24, R38) -/

def flagNX : Nat := 1
def flagUF : Nat := 2
def flagOF : Nat := 4
def flagDZ : Nat := 8
def flagNV : Nat := 16
def flagPX : Nat := 32
def flagSAT : Nat := 64

/-! ## Bits and integers (R34) -/

/-- The low `w` bits of an integer (R4: wrap). -/
def wrapN (x : Int) (w : Nat) : Nat := (x % (2 ^ w : Int)).toNat

/-- Bits read as two's complement (R34). -/
def sintN (w x : Nat) : Int := if x < 2 ^ (w - 1) then x else (x : Int) - 2 ^ w

/-- Clamp to the signed or the natural range of width `w`; whether it clamped (R34). -/
def clampN (w : Nat) (natural : Bool) (x : Int) : Int × Bool :=
  let lo : Int := if natural then 0 else -(2 ^ (w - 1) : Int)
  let hi : Int := if natural then 2 ^ w - 1 else 2 ^ (w - 1) - 1
  if x < lo then (lo, true) else if hi < x then (hi, true) else (x, false)

/-- Bit `i` of a natural. -/
def bitN (x i : Nat) : Bool := x / 2 ^ i % 2 == 1

/-- Leading zeros of `x` at width `w` (R49). -/
def clzN (w x : Nat) : Nat := if x == 0 then w else w - 1 - x.log2

/-- Trailing zeros, counting at most `w` (R49). -/
def ctzN : (w : Nat) → (x : Nat) → Nat
  | 0, _ => 0
  | w + 1, x => if x % 2 == 1 then 0 else 1 + ctzN w (x / 2)

/-- Ones among the low `w` bits (R49). -/
def popcN : (w : Nat) → (x : Nat) → Nat
  | 0, _ => 0
  | w + 1, x => x % 2 + popcN w (x / 2)

/-! ## Formats (R33, R35) -/

/-- Width of format code `f` (R33). -/
def fmtWidth (f : Nat) : Nat :=
  match f with
  | 0 => 8 | 1 => 16 | 2 => 32 | 3 => 64 | 4 => 32 | 5 => 16 | 6 => 16 | 7 => 8 | 8 => 8 | 9 => 8 | 10 => 4 | _ => 8

/-- Codes 0 to 3 are the integer formats. -/
def fmtIsInt (f : Nat) : Bool := f < 4

/-- A binary floating-point layout: width, fraction bits, bias, largest finite magnitude, whether it has infinities,
canonical NaN (R35, R36; E2M1 has no NaN, and its field is unused). -/
structure FFmt where
  w    : Nat
  p    : Nat
  bias : Int
  maxM : Nat
  infs : Bool
  nan  : Nat
  deriving DecidableEq, Repr

def fp32 : FFmt := { w := 32, p := 23, bias := 127, maxM := 0x7F7FFFFF, infs := true, nan := 0x7FC00000 }
def bf16 : FFmt := { w := 16, p := 7, bias := 127, maxM := 0x7F7F, infs := true, nan := 0x7FC0 }
def fp16 : FFmt := { w := 16, p := 10, bias := 15, maxM := 0x7BFF, infs := true, nan := 0x7E00 }
def e4m3 : FFmt := { w := 8, p := 3, bias := 7, maxM := 0x7E, infs := false, nan := 0x7F }
def e5m2 : FFmt := { w := 8, p := 2, bias := 15, maxM := 0x7B, infs := true, nan := 0x7E }
def e2m1 : FFmt := { w := 4, p := 1, bias := 1, maxM := 0x7, infs := false, nan := 0 }

/-- The layout of a floating-point format code; the element layout for an MX code (R33, R42). -/
def ffmt (f : Nat) : FFmt :=
  match f with
  | 4 => fp32 | 5 => bf16 | 6 => fp16 | 7 => e4m3 | 8 => e5m2 | 10 => e2m1 | 11 => e4m3 | 12 => e5m2 | _ => fp32

/-! ## Exact values -/

/-- A number read exactly: a NaN (signalling or not), an infinity, or (−1)^neg · num / den · 2^e; a zero keeps its
sign. -/
inductive Ex where
  | nan (signalling : Bool)
  | inf (neg : Bool)
  | fin (neg : Bool) (num den : Nat) (e : Int)
  deriving DecidableEq, Repr

namespace Ex

def isNan : Ex → Bool
  | nan _ => true
  | _ => false
def isSig : Ex → Bool
  | nan b => b
  | _ => false
def isInf : Ex → Bool
  | inf _ => true
  | _ => false
def isZero : Ex → Bool
  | fin _ 0 _ _ => true
  | _ => false
def isNeg : Ex → Bool
  | nan _ => false
  | inf b => b
  | fin b _ _ _ => b
def negate : Ex → Ex
  | nan b => nan b
  | inf b => inf (!b)
  | fin b n d e => fin (!b) n d e
/-- A whole number. -/
def ofInt (x : Int) : Ex := fin (x < 0) x.natAbs 1 0

end Ex

/-- 2^k for a non-negative k, else 1. -/
def pow2 (k : Int) : Nat := 2 ^ k.toNat

/-- Read the bits of a floating-point format (R35, R36). -/
def readF (f : FFmt) (x : Nat) : Ex :=
  let neg := bitN x (f.w - 1)
  let m := x % 2 ^ (f.w - 1)
  if f.infs && m > f.maxM then
    if m == f.maxM + 1 then .inf neg else .nan (!bitN x (f.p - 1))
  else if !f.infs && m > f.maxM then .nan false
  else
    let e := m / 2 ^ f.p
    let fr := m % 2 ^ f.p
    if e == 0 then .fin neg fr 1 (1 - f.bias - f.p)
    else .fin neg (2 ^ f.p + fr) 1 ((e : Int) - f.bias - f.p)

/-! ## Rounding (R37, R38, R39) -/

/-- floor(log2(num / den)) of positive naturals. -/
def log2Ratio (num den : Nat) : Int :=
  let k : Int := (num.log2 : Int) - (den.log2 : Int)
  if num * pow2 (-k) < den * pow2 k then k - 1 else k

/-- Whether the mode moves the truncated quotient `q`, remainder `r` of divisor `d`, one up in magnitude (R37). -/
def roundsUp (mode : Nat) (neg : Bool) (q r d : Nat) : Bool :=
  match mode with
  | 0 => 2 * r > d || (2 * r == d && q % 2 == 1)
  | 1 => false
  | 2 => neg && r != 0
  | 3 => !neg && r != 0
  | _ => 2 * r ≥ d && r != 0

/-- num / den · 2^e rounded to a whole number of 2^q: the count, and whether it is inexact. -/
def quantize (mode : Nat) (neg : Bool) (num den : Nat) (e q : Int) : Nat × Bool :=
  let n := num * pow2 (e - q)
  let d := den * pow2 (q - e)
  let quo := n / d
  let r := n % d
  (if roundsUp mode neg quo r d then quo + 1 else quo, r != 0)

/-- What R38 delivers on overflow: true for an infinity, false for the largest finite number. -/
def ovfToInf (mode : Nat) (neg : Bool) : Bool :=
  match mode with
  | 0 => true
  | 1 => false
  | 2 => neg
  | 3 => !neg
  | _ => true

/-- Sign bit and magnitude. -/
def signed (f : FFmt) (neg : Bool) (m : Nat) : Nat := if neg then 2 ^ (f.w - 1) + m else m

/-- Deliver an exact value in a format under a rounding mode, with the flags of R38.  `sat` is the .SAT modifier (R39).
Tininess is judged after rounding with an unbounded exponent (log 20). -/
def roundF (f : FFmt) (mode : Nat) (sat : Bool) (x : Ex) : Nat × Nat :=
  match x with
  | .nan s => (f.nan, if s then flagNV else if f.infs then 0 else if sat then 0 else flagOF + flagNX)
  | .inf neg =>
    if sat then (signed f neg f.maxM, flagOF + flagNX)
    else if f.infs then (signed f neg (f.maxM + 1), 0)
    else (f.nan, flagOF + flagNX)
  | .fin neg num den e =>
    if num == 0 then (signed f neg 0, 0) else
    let emin : Int := 1 - f.bias
    let X := log2Ratio num den + e
    let top := if X < emin then emin else X
    let (sig, inexact) := quantize mode neg num den e (top - f.p)
    let m := (top - emin).toNat * 2 ^ f.p + sig
    if m > f.maxM then
      let toInf := ovfToInf mode neg
      if sat || !toInf then (signed f neg f.maxM, flagOF + flagNX)
      else if f.infs then (signed f neg (f.maxM + 1), flagOF + flagNX)
      else (f.nan, flagOF + flagNX)
    else
      let tiny := X < emin && (X < emin - 1 || (quantize mode neg num den e (X - f.p)).1 < 2 ^ (f.p + 1))
      (signed f neg m, (if inexact then flagNX else 0) + (if inexact && tiny then flagUF else 0))

/-! ## Exact operations (R40, R38) -/

/-- The integer num / den · 2^(e − k), for a value with den = 1 and e ≥ k. -/
def atScale (neg : Bool) (num : Nat) (e k : Int) : Int :=
  let m : Int := num * pow2 (e - k)
  if neg then -m else m

/-- Exact sum of two values with den = 1, and its NV flag; a zero sum takes the sign IEEE 754 gives it (R55). -/
def addEx (mode : Nat) (a b : Ex) : Ex × Nat :=
  match a, b with
  | .nan s, y => (.nan s, if s || y.isSig then flagNV else 0)
  | x, .nan s => (.nan s, if s || x.isSig then flagNV else 0)
  | .inf p, .inf q => if p == q then (.inf p, 0) else (.nan false, flagNV)
  | .inf p, _ => (.inf p, 0)
  | _, .inf q => (.inf q, 0)
  | .fin p n _ e, .fin q m _ g =>
    if n == 0 && m == 0 then (.fin (if p == q then p else mode == 2) 0 1 0, 0) else
    let k := if e < g then e else g
    let s := atScale p n e k + atScale q m g k
    if s == 0 then (.fin (mode == 2) 0 1 0, 0) else (.fin (s < 0) s.natAbs 1 k, 0)

/-- Exact product and its NV flag. -/
def mulEx (a b : Ex) : Ex × Nat :=
  let sn := if a.isSig || b.isSig then flagNV else 0
  if a.isNan || b.isNan then (.nan (a.isSig || b.isSig), sn) else
  match a, b with
  | .inf p, y => if y.isZero then (.nan false, flagNV) else (.inf (p != y.isNeg), 0)
  | x, .inf q => if x.isZero then (.nan false, flagNV) else (.inf (x.isNeg != q), 0)
  | .fin p n d e, .fin q m c g => (.fin (p != q) (n * m) (d * c) (e + g), 0)
  | _, _ => (.nan false, 0)

/-- Exact quotient with its NV or DZ flag. -/
def divEx (a b : Ex) : Ex × Nat :=
  let sn := if a.isSig || b.isSig then flagNV else 0
  if a.isNan || b.isNan then (.nan (a.isSig || b.isSig), sn) else
  match a, b with
  | .inf p, y => if y.isInf then (.nan false, flagNV) else (.inf (p != y.isNeg), 0)
  | x, .inf q => (.fin (x.isNeg != q) 0 1 0, 0)
  | .fin p n d e, .fin q m c g =>
    if m == 0 then (if n == 0 then (.nan false, flagNV) else (.inf (p != q), flagDZ))
    else (.fin (p != q) (n * c) (d * m) (e - g), 0)
  | _, _ => (.nan false, 0)

/-- a · b + c, exact, with NV for 0 · ∞ even when c is a quiet NaN (R40). -/
def fmaEx (mode : Nat) (a b c : Ex) : Ex × Nat :=
  let (p, fp) := mulEx a b
  let (s, fs) := addEx mode p c
  let sig := a.isSig || b.isSig || c.isSig
  (match s with | .nan _ => .nan false | y => y, if sig then flagNV else fp ||| fs)

/-- Integer square root, one bit at a time from bit `k` − 1. -/
def isqrtFrom : (k : Nat) → (n r : Nat) → Nat
  | 0, _, r => r
  | k + 1, n, r => if (r + 2 ^ k) * (r + 2 ^ k) ≤ n then isqrtFrom k n (r + 2 ^ k) else isqrtFrom k n r

/-- floor(√n). -/
def isqrt (n : Nat) : Nat := isqrtFrom (n.log2 / 2 + 1) n 0

/-- √a: exact, or the value just above a lower bound of 64 more bits than any format keeps. -/
def sqrtEx (a : Ex) : Ex × Nat :=
  match a with
  | .nan s => (.nan s, if s then flagNV else 0)
  | .inf neg => if neg then (.nan false, flagNV) else (.inf false, 0)
  | .fin neg n _ e =>
    if n == 0 then (.fin neg 0 1 0, 0)
    else if neg then (.nan false, flagNV)
    else
      let odd := e % 2 != 0
      let n' := (if odd then 2 * n else n) * 2 ^ 128
      let e' := ((if odd then e - 1 else e) - 128) / 2
      let r := isqrt n'
      if r * r == n' then (.fin false r 1 e', 0) else (.fin false (2 * r + 1) 1 (e' - 1), 0)

/-- Round and add the flags; a NaN result is canonical and raises only what its operands raise. -/
def deliver (f : FFmt) (mode : Nat) (x : Ex × Nat) : Nat × Nat :=
  match x.1 with
  | .nan _ => (f.nan, x.2)
  | y => let (r, fl) := roundF f mode false y; (r, fl ||| x.2)

def faddF (f : FFmt) (mode a b : Nat) : Nat × Nat := deliver f mode (addEx mode (readF f a) (readF f b))
def fsubF (f : FFmt) (mode a b : Nat) : Nat × Nat := deliver f mode (addEx mode (readF f a) (readF f b).negate)
def fmulF (f : FFmt) (mode a b : Nat) : Nat × Nat := deliver f mode (mulEx (readF f a) (readF f b))
def fdivF (f : FFmt) (mode a b : Nat) : Nat × Nat := deliver f mode (divEx (readF f a) (readF f b))
def fsqrtF (f : FFmt) (mode a : Nat) : Nat × Nat := deliver f mode (sqrtEx (readF f a))
def fmaF (f : FFmt) (mode a b c : Nat) : Nat × Nat := deliver f mode (fmaEx mode (readF f a) (readF f b) (readF f c))

/-! ## Comparison, minimum, maximum, class (R48, R107) -/

/-- a < b for values that are no NaN, with −0 equal to +0. -/
def ltEx (a b : Ex) : Bool :=
  match a, b with
  | .inf p, .inf q => p && !q
  | .inf p, _ => p
  | _, .inf q => !q
  | .fin p n d e, .fin q m c g =>
    let k := if e < g then e else g
    atScale p (n * c) e k < atScale q (m * d) g k
  | _, _ => false

/-- a = b for values that are no NaN. -/
def eqEx (a b : Ex) : Bool := !a.isNan && !b.isNan && !ltEx a b && !ltEx b a

/-- The order of R48: as `ltEx`, with −0 below +0. -/
def ltZ (a b : Ex) : Bool := ltEx a b || (a.isZero && b.isZero && a.isNeg && !b.isNeg)

/-- minimumNumber (`max` false) and maximumNumber of two bit patterns (R48). -/
def minMaxNum (f : FFmt) (isMax : Bool) (a b : Nat) : Nat × Nat :=
  let x := readF f a
  let y := readF f b
  let fl := if x.isSig || y.isSig then flagNV else 0
  if x.isNan then (if y.isNan then f.nan else b, fl)
  else if y.isNan then (a, fl)
  else (if (if isMax then ltZ x y else ltZ y x) then b else a, 0)

/-- VFMINP and VFMAXP: the canonical NaN when either operand is a NaN (R48). -/
def minMaxProp (f : FFmt) (isMax : Bool) (a b : Nat) : Nat × Nat :=
  let x := readF f a
  let y := readF f b
  if x.isNan || y.isNan then (f.nan, if x.isSig || y.isSig then flagNV else 0)
  else (if (if isMax then ltZ x y else ltZ y x) then b else a, 0)

/-- The comparisons: NV for a signalling NaN, and for any NaN when `quiet` is false (R107, R142). -/
def cmpF (f : FFmt) (rel : Ex → Ex → Bool) (quiet : Bool) (a b : Nat) : Bool × Nat :=
  let x := readF f a
  let y := readF f b
  if x.isNan || y.isNan then (false, if x.isSig || y.isSig || !quiet then flagNV else 0)
  else (rel x y, 0)

def feqRel (x y : Ex) : Bool := eqEx x y
def fltRel (x y : Ex) : Bool := ltEx x y
def fleRel (x y : Ex) : Bool := !ltEx y x

/-- The class bit of R107. -/
def classF (f : FFmt) (a : Nat) : Nat :=
  match readF f a with
  | .nan s => if s then 0x100 else 0x200
  | .inf neg => if neg then 0x1 else 0x80
  | .fin neg n _ _ =>
    if n == 0 then (if neg then 0x8 else 0x10)
    else if a % 2 ^ (f.w - 1) < 2 ^ f.p then (if neg then 0x4 else 0x20)
    else (if neg then 0x2 else 0x40)

/-! ## Conversions (R108, R149, R150) -/

/-- A value into an integer of width `w`: NaN and out-of-range values give the bound R108 names and raise NV. -/
def toIntEx (mode w : Nat) (natural : Bool) (x : Ex) : Nat × Nat :=
  let lo : Int := if natural then 0 else -(2 ^ (w - 1) : Int)
  let hi : Int := if natural then 2 ^ w - 1 else 2 ^ (w - 1) - 1
  match x with
  | .nan _ => (wrapN hi w, flagNV)
  | .inf neg => (wrapN (if neg then lo else hi) w, flagNV)
  | .fin neg n d e =>
    let (q, inexact) := quantize mode neg n d e 0
    let v : Int := if neg then -(q : Int) else q
    if v < lo then (wrapN lo w, flagNV) else if hi < v then (wrapN hi w, flagNV)
    else (wrapN v w, if inexact then flagNX else 0)

/-- Bits read as an integer of width `w`, exactly. -/
def ofIntBits (w : Nat) (natural : Bool) (x : Nat) : Ex := Ex.ofInt (if natural then x else sintN w x)

/-! ## Taper8, MX and SC24 (R42 to R47) -/

/-- Leading bits of the six-bit field `rest` equal to `one`, from bit `k` − 1 down. -/
def leadRun (one : Bool) (rest : Nat) : (k : Nat) → Nat
  | 0 => 0
  | k + 1 => if bitN rest k == one then 1 + leadRun one rest k else 0

/-- Magnitude of Taper8 code m in 1 to 127, as num · 2^e (R45). -/
def taperMag (m : Nat) : Nat × Int :=
  let up := bitN m 6
  let rest := m % 64
  let r := leadRun up rest 6
  let w := match r with | 0 => 0 | 1 => 1 | 2 => 2 | 3 => 2 | 4 => 1 | _ => 0
  let fw := match r with | 0 => 5 | 1 => 3 | 2 => 1 | _ => 0
  let tail := rest % 2 ^ (5 - r)
  let ex := tail / 2 ^ fw
  let fr := tail % 2 ^ fw
  let base : Int := if up then
      (match r with | 0 => 0 | 1 => 1 | 2 => 3 | 3 => 7 | 4 => 11 | 5 => 13 | _ => 14)
    else (match r with | 0 => -1 | 1 => -3 | 2 => -7 | 3 => -11 | 4 => -13 | _ => -14)
  let E : Int := base + (if w == 0 then 0 else ex)
  (2 ^ fw + fr, E - fw)

/-- A Taper8 element, not scaled; none for the reserved code 0x80 (R45). -/
def readTaper (x : Nat) : Option Ex :=
  if x == 0x80 then none
  else if x % 128 == 0 then some (.fin false 0 1 0)
  else let (n, e) := taperMag (x % 128); some (.fin (x ≥ 128) n 1 e)

/-- Order of n · 2^e against num / den · 2^g. -/
def cmpMag (n : Nat) (e : Int) (num den : Nat) (g : Int) : Ordering :=
  let k := if e < g then e else g
  compare (n * den * pow2 (e - k)) (num * pow2 (g - k))

/-- The largest code up to `m` whose magnitude is at most the value; 0 when none is. -/
def taperFloor (num den : Nat) (g : Int) : (m : Nat) → Nat
  | 0 => 0
  | m + 1 =>
    let (n, e) := taperMag (m + 1)
    if cmpMag n e num den g == .gt then taperFloor num den g m else m + 1

/-- Magnitude of a code, 0 included. -/
def taperMag0 (m : Nat) : Nat × Int := if m == 0 then (0, -14) else taperMag m

/-- Nearest Taper8 code, ties to the even m (R46). -/
def encodeTaper (x : Ex) : Nat × Nat :=
  match x with
  | .nan _ => (0x80, flagNV)
  | .inf neg => (if neg then 0xFF else 0x7F, flagOF + flagNX)
  | .fin neg num den g =>
    if num == 0 then (0, 0) else
    let sgn (m : Nat) : Nat := if m == 0 then 0 else if neg then 128 + m else m
    let lo := taperFloor num den g 127
    let (ln, le) := taperMag0 lo
    if lo != 0 && cmpMag ln le num den g == .eq then (sgn lo, 0)
    else if lo == 127 then (sgn 127, flagOF + flagNX)
    else
      let (hn, he) := taperMag (lo + 1)
      let k := if le < he then le else he
      let m := match cmpMag (ln * pow2 (le - k) + hn * pow2 (he - k)) (k - 1) num den g with
        | .lt => lo + 1
        | .eq => if lo % 2 == 0 then lo else lo + 1
        | .gt => lo
      (sgn m, if m == 0 then flagUF + flagNX else flagNX)

/-- An E8M0 scale byte: none when ill-formed (R42). -/
def readE8M0 (b : Nat) : Option Ex := if b == 0xFF then none else some (.fin false 1 1 ((b : Int) - 127))

/-- An SC24 scale word: none when ill-formed (R44). -/
def readSC24 (x : Nat) : Option Ex :=
  let E : Nat := x / 2 ^ 16 % 256
  let fr : Nat := x % 2 ^ 16
  if x ≥ 2 ^ 24 then none
  else if E == 0 && fr == 0 then some (.fin false 0 1 0)
  else if E == 0 || E == 0xFF then none
  else some (.fin false (2 ^ 16 + fr) 1 ((E : Int) - 127 - 16))

/-- An MX element under R43: rounded to nearest even and saturated. -/
def encodeMX (f : FFmt) (x : Ex) : Nat × Nat := roundF f 0 true x

/-- Element of a block format read without its scale; none for a reserved code (R42, R45). -/
def readBlockElem (fmt x : Nat) : Option Ex :=
  if fmt == 9 then readTaper x else some (readF (ffmt fmt) x)

/-! ## Exact pairs and double words (R50 to R52) -/

/-- The pair of R50 for an exact value: hi as the plain operation delivers it, lo the rest. -/
def pairEx (mode : Nat) (infOp : Bool) (x : Ex × Nat) : Nat × Nat × Nat :=
  let (hi, fl) := deliver fp32 mode x
  match readF fp32 hi with
  | .nan _ => (hi, fp32.nan, fl)
  | h =>
    if infOp then (hi, 0, fl)
    else if h.isInf then (hi, 0, fl ||| flagOF ||| flagPX)
    else
      let (d, _) := addEx 0 x.1 h.negate
      if d.isZero then (hi, 0, fl) else
      let (lo, flo) := roundF fp32 mode false d
      (hi, lo, if flo == 0 then fl else fl ||| flagPX)

/-- TwoSum (R50). -/
def twoSum (mode a b : Nat) : Nat × Nat × Nat :=
  let x := readF fp32 a
  let y := readF fp32 b
  pairEx mode (x.isInf || y.isInf) (addEx mode x y)

/-- TwoSum(a, −b) (R50). -/
def twoDiff (mode a b : Nat) : Nat × Nat × Nat :=
  let x := readF fp32 a
  let y := (readF fp32 b).negate
  pairEx mode (x.isInf || y.isInf) (addEx mode x y)

/-- TwoProd (R50). -/
def twoProd (mode a b : Nat) : Nat × Nat × Nat :=
  let x := readF fp32 a
  let y := readF fp32 b
  pairEx mode (x.isInf || y.isInf) (mulEx x y)

/-- R52: when zh is a NaN zl is the canonical NaN, when zh is infinite zl is +0. -/
def dwEnd (z : Nat × Nat × Nat) (fl : Nat) : Nat × Nat × Nat := (z.1, z.2.1, z.2.2 ||| fl)

/-- VDWADD of R52. -/
def dwAdd (xh xl yh yl : Nat) : Nat × Nat × Nat :=
  let (sh, sl, f1) := twoSum 0 xh yh
  let (th, tl, f2) := twoSum 0 xl yl
  let (c, f3) := faddF fp32 0 sl th
  let (vh, vl, f4) := twoSum 0 sh c
  let (w, f5) := faddF fp32 0 tl vl
  dwEnd (twoSum 0 vh w) (f1 ||| f2 ||| f3 ||| f4 ||| f5)

/-- VDWADDS of R52. -/
def dwAddS (xh xl y : Nat) : Nat × Nat × Nat :=
  let (sh, sl, f1) := twoSum 0 xh y
  let (v, f2) := faddF fp32 0 xl sl
  dwEnd (twoSum 0 sh v) (f1 ||| f2)

/-- VDWMUL of R52. -/
def dwMul (xh xl yh yl : Nat) : Nat × Nat × Nat :=
  let (ch, cl1, f1) := twoProd 0 xh yh
  let (t1, f2) := fmulF fp32 0 xh yl
  let (t2, f3) := fmulF fp32 0 xl yh
  let (cl2, f4) := faddF fp32 0 t1 t2
  let (cl3, f5) := faddF fp32 0 cl1 cl2
  dwEnd (twoSum 0 ch cl3) (f1 ||| f2 ||| f3 ||| f4 ||| f5)

/-- VDWREN of R52. -/
def dwRen (xh xl : Nat) : Nat × Nat × Nat := twoSum 0 xh xl

/-! ## Correctly rounded functions (R41, R193, R267)

The value is bracketed in fixed point with 400 fraction bits; a value that is not exact is irrational, and one odd bit
below the bracket stands for what lies beyond it. -/

/-- Fraction bits of the bracket. -/
def fixK : Nat := 400
/-- floor(ln 2 · 2^400). -/
def fixLn2 : Nat :=
  0xB17217F7D1CF79ABC9E3B39803F2F6AF40F343267298B62D8A0D175B8BAAFA2BE7B876206DEBAC98559552FB4AFA1B10ED2E
/-- floor(π · 2^400). -/
def fixPi : Nat :=
  0x3243F6A8885A308D313198A2E03707344A4093822299F31D0082EFA98EC4E6C89452821E638D01377BE5466CF34E90C6CC0AC

/-- Σ tⁿ / n! from term n on, `fuel` terms. -/
def expTerms : (fuel : Nat) → (t term n : Nat) → Nat
  | 0, _, _, _ => 0
  | fuel + 1, t, term, n => term + expTerms fuel t (term * t / 2 ^ fixK / (n + 1)) (n + 1)

/-- 2^f for a fraction f in fixed point, in fixed point. -/
def exp2Fix (f : Nat) : Nat := expTerms 100 (f * fixLn2 / 2 ^ fixK) (2 ^ fixK) 0

/-- Σ z^(2k+1) / (2k+1), `fuel` terms from z^(2k+1) = `pw`. -/
def atanhTerms : (fuel : Nat) → (z2 pw k : Nat) → Nat
  | 0, _, _, _ => 0
  | fuel + 1, z2, pw, k => pw / (2 * k + 1) + atanhTerms fuel z2 (pw * z2 / 2 ^ fixK) (k + 1)

/-- log2 m for m in [1, 2), in fixed point. -/
def log2Fix (m : Nat) : Nat :=
  let z := (m - 2 ^ fixK) * 2 ^ fixK / (m + 2 ^ fixK)
  2 * atanhTerms 140 (z * z / 2 ^ fixK) z 0 * 2 ^ fixK / fixLn2

/-- Σ ± θ^(2k+1) / (2k+1)!, `fuel` terms. -/
def sinTerms : (fuel : Nat) → (t2 term k : Nat) → Int
  | 0, _, _, _ => 0
  | fuel + 1, t2, term, k =>
    (if k % 2 == 0 then (term : Int) else -(term : Int)) +
      sinTerms fuel t2 (term * t2 / 2 ^ fixK / ((2 * k + 2) * (2 * k + 3))) (k + 1)

/-- sin(π r) for r in (0, 1/2), in fixed point. -/
def sinPiFix (r : Nat) : Nat :=
  let t := r * fixPi / 2 ^ fixK
  (sinTerms 60 (t * t / 2 ^ fixK) t 0).toNat

/-- A value just above `n` / 2^400 · 2^e. -/
def aboveFix (neg : Bool) (n : Nat) (e : Int) : Ex := .fin neg (2 * n + 1) 1 (e - fixK - 1)

/-- VFRCP (R41). -/
def rcpEx (x : Ex) : Ex × Nat := divEx (.fin false 1 1 0) x

/-- VFRSQRT (R41). -/
def rsqrtEx (x : Ex) : Ex × Nat :=
  match x with
  | .nan s => (.nan s, if s then flagNV else 0)
  | .inf neg => if neg then (.nan false, flagNV) else (.fin false 0 1 0, 0)
  | .fin neg n _ e =>
    if n == 0 then (.inf neg, flagDZ)
    else if neg then (.nan false, flagNV)
    else
      -- n · 2^e = m · 2^g with m < 2^25 and g even; 1/√ = √(2^256 / m) · 2^(−g/2 − 128)
      let odd := e % 2 != 0
      let m := if odd then 2 * n else n
      let g := if odd then e - 1 else e
      let r := isqrt (2 ^ 256 / m)
      if r * r * m == 2 ^ 256 then (.fin false r 1 (-(g / 2) - 128), 0)
      else (.fin false (2 * r + 1) 1 (-(g / 2) - 129), 0)

/-- A finite value with den = 1 in fixed point, rounded down, with its fraction exact for e ≥ −400. -/
def toFix (neg : Bool) (n : Nat) (e : Int) : Int := atScale neg n (e + fixK) 0

/-- 2^x (R41). -/
def exp2Ex (x : Ex) : Ex × Nat :=
  match x with
  | .nan s => (.nan s, if s then flagNV else 0)
  | .inf neg => (if neg then .fin false 0 1 0 else .inf false, 0)
  | .fin neg n _ e =>
    if n == 0 then (.fin false 1 1 0, 0)
    else if log2Ratio n 1 + e ≥ 12 then (.fin false 3 1 (if neg then -4096 else 4096), 0)
    else
      let v := toFix neg n e
      let k := v / (2 ^ fixK : Int)
      let fr := (v % (2 ^ fixK : Int)).toNat
      if fr == 0 then (.fin false 1 1 k, 0) else (aboveFix false (exp2Fix fr) k, 0)

/-- log2 of n · 2^e > 0. -/
def log2Pos (n : Nat) (e : Int) : Ex :=
  let k := n.log2
  let i : Int := (k : Int) + e
  if n == 2 ^ k then Ex.ofInt i else
  let l := log2Fix (n * 2 ^ (fixK - k))
  let v : Int := 2 * (i * (2 ^ fixK : Int) + l) + 1
  .fin (v < 0) v.natAbs 1 (-(fixK : Int) - 1)

/-- log2 x (R41). -/
def log2Ex (x : Ex) : Ex × Nat :=
  match x with
  | .nan s => (.nan s, if s then flagNV else 0)
  | .inf neg => if neg then (.nan false, flagNV) else (.inf false, 0)
  | .fin neg n _ e =>
    if n == 0 then (.inf true, flagDZ) else if neg then (.nan false, flagNV) else (log2Pos n e, 0)

/-- |x| modulo 2 in fixed point; 0 when it has no fraction bit and is even. -/
def mod2Fix (n : Nat) (e : Int) : Nat :=
  if e ≥ 1 then 0 else (toFix false n e).toNat % 2 ^ (fixK + 1)

/-- sin(π r) for r in [0, 2) in fixed point: exact at multiples of 1/2. -/
def sinPiOf (neg : Bool) (r : Nat) : Ex :=
  let half := 2 ^ (fixK - 1)
  let one := 2 ^ fixK
  let flip := r ≥ one
  let q := if flip then r - one else r
  let q := if q > half then one - q else q
  let s := neg != flip
  if q == 0 then .fin neg 0 1 0
  else if q == half then .fin s 1 1 0
  else aboveFix s (sinPiFix q) 0

/-- sin(π x) (R41). -/
def sinPiEx (x : Ex) : Ex × Nat :=
  match x with
  | .nan s => (.nan s, if s then flagNV else 0)
  | .inf _ => (.nan false, flagNV)
  | .fin neg n _ e => if n == 0 then (.fin neg 0 1 0, 0) else (sinPiOf neg (mod2Fix n e), 0)

/-- cos(π x) = sin(π (x + 1/2)) (R41): +0 at halves. -/
def cosPiEx (x : Ex) : Ex × Nat :=
  match x with
  | .nan s => (.nan s, if s then flagNV else 0)
  | .inf _ => (.nan false, flagNV)
  | .fin _ n _ e => (sinPiOf false ((mod2Fix n e + 2 ^ (fixK - 1)) % 2 ^ (fixK + 1)), 0)

/-- A special function on FP32 bits, under RNE (R41). -/
def sfuF (g : Ex → Ex × Nat) (a : Nat) : Nat × Nat := deliver fp32 0 (g (readF fp32 a))

/-- s · 2^d for exact dyadic d ≤ 0, exact or bracketed (R193). -/
def mulExp2Ex (s d : Ex) : Ex × Nat :=
  match s, d with
  | .fin p n _ e, .fin _ m _ g =>
    if n == 0 || m == 0 then (.fin p n 1 e, 0) else
    let (y, _) := exp2Ex d
    match y with
    | .fin _ k _ h => if d.isNeg && log2Ratio m 1 + g ≥ 12 then (.fin p (3 * n) 1 (e - 4096), 0) else (.fin p (n * k) 1 (e + h), 0)
    | z => (z, 0)
  | x, .fin _ _ _ _ => (x, 0)
  | x, .inf _ => mulEx x (.fin false 0 1 0)
  | x, y => mulEx x y

/-- log2(2^a + 2^b), exact or bracketed (R267). -/
def lseEx (a b : Ex) : Ex × Nat :=
  if a.isNan || b.isNan then (.nan false, 0) else
  match a, b with
  | .inf p, y => if p then (y, 0) else (.inf false, 0)
  | x, .inf q => if q then (x, 0) else (.inf false, 0)
  | x, y =>
    let hi := if ltEx x y then y else x
    let lo := if ltEx x y then x else y
    let (d, _) := addEx 0 lo hi.negate
    if d.isZero then addEx 0 hi (.fin false 1 1 0)
    else if ltEx d (Ex.ofInt (-350)) then addEx 0 hi (.fin false 1 1 (-600))
    else
      match exp2Ex d, hi with
      | (.fin _ k _ h, _), .fin p n _ e =>
        -- 1 + 2^d in fixed point, then its logarithm
        let z := 2 ^ fixK + k * pow2 (h + fixK) / pow2 (-(h + fixK))
        let v : Int := 2 * (toFix p n e + (log2Fix z : Int)) + 1
        (.fin (v < 0) v.natAbs 1 (-(fixK : Int) - 1), 0)
      | _, _ => (.nan false, 0)

end Sys2Proof.Machine
end

