-- ==== Sys2Proof/Config.lean ====
section
/-!
DEFINITION. What the FRN-4812 fixes (R1, R8, R12, R21, R248) and the free values: constants without a body, for the
values the manual leaves open (assumption log 5, 6, 7, 9, 13, 14).
-/

namespace Sys2Proof.Config

/-- Compute dies of the module (R1). -/
def dies : Nat := 4
/-- Clusters of a die (R1). -/
def clusters : Nat := 56
/-- Cores of a cluster (R1). -/
def cores : Nat := 8
/-- Hart slots of a die: 56 clusters of 8 cores of 2 slots (R355). -/
def slotsPerDie : Nat := 896
/-- HBM channels of the module (R1). -/
def channels : Nat := 384
/-- Bytes of one cluster's scratchpad (R244). -/
def scratchBytes : Nat := 0x200000
/-- Bytes of HBM that the decoders route to the device: 768 GiB (R248). -/
def hbmBytes : Nat := 0xC000000000
/-- First address of the local window (R242, row 1). -/
def localBase : Nat := 0x00FFFF0000000000
/-- Last address of the reserved window above the local window (R242, row 2). -/
def reservedTop : Nat := 0x00FFFFFFFFFFFFFF

/-- FREE VALUE (log 5). The nanoseconds an engine adds to the time of acceptance to make a promise time: R184 says only
that a promise is not earlier than the acceptance. -/
opaque promiseDelay : Nat → Nat

/-- An AES-XTS-256 key: two AES-256 keys (R312, R367). -/
abbrev XtsKey := BitVec 512

/-- FREE VALUE (log 6). The n-th key that the hardware random source delivers (R367). -/
opaque randomKey : Nat → XtsKey

/-- FREE VALUE (log 6). The measurement of the boot ROM (R366). -/
opaque romMeasure : BitVec 384

/-- FREE VALUE (log 6). The identity key that the hardware derives from the fuse secret (R366). -/
opaque identityKey : BitVec 384 → BitVec 384

/-- FREE VALUE (log 6). The alias key that an identity key gives a firmware measurement: another for another measurement (R366). -/
opaque aliasKey : BitVec 384 → Equiv.Perm (BitVec 384)

/-- FREE VALUE (log 6). The random number of the n-th signature. -/
opaque signNonce : Nat → BitVec 384

/-- FREE VALUE (log 6). The AES-XTS-256 image, under a key, of the 16 bytes at an address that are written for a cocoon (R312,
R352). -/
opaque cipher : XtsKey → Nat → Equiv.Perm (BitVec 128)

/-- FREE VALUE (log 7). The mean power in watts the management controller reads (R368). -/
opaque measuredPower : Nat → BitVec 16

/-- FREE VALUE (log 9). The bytes of a journal entry: R348 does not give its form. -/
opaque journalCode : List Word → List Byte

/-- FREE VALUE (log 9). The kind that a message has for an access of a sort: R347 does not give the values of the kind. -/
opaque messageKind : Nat → Byte

/-- FREE VALUE (log 9). The stream field of a message of a sort from an agent. -/
opaque messageStream : (agent sort : Nat) → BitVec 32

/-- FREE VALUE (log 9). What a message of a kind that no access of the model has makes of the bytes it addresses. -/
opaque messageEffect : (kind : Byte) → (old payload : List Byte) → List Byte

/-- FREE VALUE (log 14). The port whose host a host-physical address belongs to: the manual does not give the hosts' ranges. -/
opaque hostPort : Nat → Nat

/-- FREE VALUE (log 13). A value the manual calls neither stated nor preserved, fresh at each count. -/
opaque freeWord : Nat → Word

end Sys2Proof.Config
end

