-- ==== Sys2Proof/Machine/State.lean ====
section
/-!
DEFINITION. The state of the module: every hart, memory, cluster, near-memory unit, launch, object and register the
manual names, as plain data (R6 to R32, R113 to R128, R161 to R169, R184 to R195, R208 to R215, R242 to R283,
R295 to R369), and the state after module reset.  The hart whose turn it is stands in `cur`, the others in `others`.
-/

namespace Sys2Proof.Machine

/-! ## Faults and refusals -/

/-- What stops the machine for good. -/
inductive Fault where
  /-- Raised by HART_RESUME when both copies of a frame fail their check: R316 declares the promise void and gives no
  further effect.  Safe: the machine stops where the part's behaviour is not stated. -/
  | promiseVoid
  deriving DecidableEq, Repr

/-- Why an instruction has no meaning. -/
inductive Refusal where
  /-- Raised by no meaning of this model; an arm of `exec` for an instruction not yet modelled would raise it.  Safe. -/
  | notModelled (mnemonic : String)
  deriving DecidableEq, Repr

/-! ## Memory accesses that wait -/

/-- One byte of a queued store: the bits of `mask` are replaced by those of `val` (R157: a store of a 4-bit format
writes nibbles). -/
structure PByte where
  key  : Nat
  mask : Byte
  val  : Byte
  deriving DecidableEq, Repr

/-- A read-modify-write a chained store queues at the location's home (R160). -/
inductive Rmw where
  | addF | maxF | minF | addI | addBf
  deriving DecidableEq, Repr

/-- What a queued access does when it is performed at its home (R220). -/
inductive PAct where
  | write (bytes : List PByte)
  | rmw (op : Rmw) (key : Nat) (x : Nat)
  deriving DecidableEq, Repr

/-- A queued store of one ordering stream (R218). -/
structure PStore where
  stream : Stream
  act    : PAct
  /-- Watchpoints of the hart's own context that its instruction matched when it was issued (R338). -/
  own    : List Nat := []
  deriving DecidableEq, Repr

/-- A write on its way to its home (R187, R218, R221): the cluster it came from, the ordering points it has passed (1 the cluster
crossbar, 2 the die network, 3 the hub's CXL port queue), its home, the hart that issued it, and its stream, none for an engine
command's write of the token. -/
structure Posted where
  cl     : Nat
  level  : Nat
  home   : Nat
  owner  : Nat
  stream : Option Stream
  token  : Word
  act    : PAct
  own    : List Nat := []
  deriving DecidableEq, Repr

/-! ## Stream queues (R161 to R167, R285 to R294) -/

/-- An affine stream descriptor (R162). -/
structure AffDesc where
  base    : Word
  fmt     : Nat
  strides : List Int
  counts  : List Nat
  deriving DecidableEq, Repr

/-- One queued element of a load target: its width and value (R161). -/
structure QElem where
  width : Nat
  val   : Nat
  deriving DecidableEq, Repr

/-- Why a stream delivers no more: a decode failure (0x09), or a word that failed its data check (0x08) (R292, R293). -/
inductive QFail where
  | decode
  | data (addr : Word)
  deriving DecidableEq, Repr

/-- The reading state of a compressed image: the code lengths, what has been decoded, and where the next chunk is. -/
structure ImageState where
  header : Word
  total  : Nat
  chunks : Nat
  lens   : List Nat
  opened : Bool
  next   : Nat
  addr   : Word
  done   : Nat
  syms   : List Nat
  fail   : Option QFail
  /-- Where each chunk that has been decoded begins: its number, its address, and the symbols before it (R294). -/
  marks  : List (Nat × Word × Nat)
  /-- The page request that its read waits for, and the pages answered Success since its last step (R260, R293). -/
  ask    : Option Nat
  paged  : List Word
  deriving DecidableEq, Repr

/-- The five binding states of a q register (R15). -/
inductive QReg where
  | unbound
  /-- An affine load stream: its position, and the elements that stand there and above it and have been fetched (R164, R167). -/
  | load (d : AffDesc) (pos : Nat) (ahead : List Nat)
  | store (d : AffDesc) (pos : Nat)
  | image (im : ImageState) (pos : Nat)
  | target (items : List QElem)
  deriving DecidableEq, Repr

/-! ## The hart -/

/-- An open region (R121). -/
structure RegionEntry where
  stop : Word
  drop : Bool
  deriving DecidableEq, Repr

/-- One element a consumer took from a queue: its value, the stream position still to be fetched, or a position with the value that was
fetched ahead of the consumer, whose watchpoints are still to be matched (R164, R338). -/
inductive Held where
  | val (x : Nat)
  | pos (p : Nat)
  | got (p x : Nat)
  deriving DecidableEq, Repr

/-- A VIQ entry that a trap or a fold set aside: the word, the scalar operands captured when it issued, its prefix, the
elements it took from a queue (R32, R122, R135, R311), when the queue element that failed is not the first position still
to be written, that element and that position (R171), and the v registers as they stood when the instruction began, once it has stopped:
its sources are read before any destination element is written (R66, R170). -/
structure VEntry where
  word  : BitVec 32
  xs    : Vector Word 32
  pfxs  : Word
  held  : Option (List Held)
  start : Option (Nat × Nat)
  old   : Option (Vector (BitVec 4096) 32) := none
  deriving DecidableEq, Repr

/-- What stands in the VIQ (R32, R130, R311): a vector instruction that the AP has issued, with its address, or the
configuration a VSETL gives every later entry. -/
inductive ViqItem where
  | op (pc : Word) (e : VEntry)
  | config (vl vr vpad vtype vlmax : Word)
  deriving DecidableEq, Repr

/-- Where the AP stands while the EP executes an entry behind it: its commit point and its pending prefix (R32). -/
structure ApPoint where
  pc   : Word
  pfxs : Word
  deriving DecidableEq, Repr

inductive ThreadRun where
  | running | waiting | retired
  deriving DecidableEq, Repr

/-- A lane thread (R116, R120). -/
structure LaneThread where
  index : Nat
  pc    : Word
  run   : ThreadRun
  deriving DecidableEq, Repr

/-- Lane mode: the join address, the threads, the place in `threads` of the thread whose turn it is, the granted length
and the snapshot (R116 to R119). -/
structure LaneState where
  join    : Word
  threads : List LaneThread
  turn    : Nat
  len     : Nat
  snap    : Vector (BitVec 4096) 32
  deriving DecidableEq, Repr

/-- A watchpoint match of the instruction being executed: the block whose agent hit it is, none for the hart's own hit; the watchpoint, the
lowest matching byte and the element (R338, R340). -/
structure Strike where
  block : Option Nat
  w     : Nat
  addr  : Word
  elem  : Nat
  deriving DecidableEq, Repr

/-- What entering a handler sets aside (R127), with the watchpoint matches of the instruction that trapped (R340). -/
structure Handler where
  cause   : BitVec 8
  vec     : Bool
  commit  : Word
  entry   : Option VEntry
  ahead   : Option ApPoint
  viq     : List ViqItem
  regions : List RegionEntry
  pfxs    : Word
  lane    : Option LaneState
  strikes : List Strike
  deriving DecidableEq, Repr

/-- A scalar load that has issued and may be performed later, while the AP issues vector instructions (R218): its bytes, whether it
is natural, its register, and what the register holds when it is performed at issue. -/
structure LateLoad where
  key     : Nat
  n       : Nat
  natural : Bool
  rd      : Reg
  value   : Word
  deriving DecidableEq, Repr

/-- A PYAPP that waits at the home near-memory unit while its hart goes on (R63, R270, R376): its word, its stream, its item and its place
in the order of arrival. -/
structure Sent where
  word    : BitVec 32
  handle  : Word
  item    : List Byte
  arrived : Nat
  deriving DecidableEq, Repr

/-- What a hart waits for. -/
inductive Wait where
  /-- Page request `req` (R260). -/
  | page (req : Nat)
  /-- XWAIT, NMWAIT, EVWAIT, QPUSH, QPOP: the waiting word. -/
  | again (w : BitVec 32)
  /-- A sleeping SLEEPT `w`: the promise time and the token (R189). -/
  | sleep (w : BitVec 32) (time token : Word)
  /-- PYINIT `w`: page request `req`, without a trap (R198, R266). -/
  | initPage (w : BitVec 32) (req : Nat)
  /-- A full command pool or NMU (R245, R214). -/
  | pool
  /-- Arrived at barrier `b` (R210). -/
  | barrier (b : Nat)
  /-- LWAIT `w`: the slot is given up until the launch of the handle completes (R207). -/
  | launch (w : BitVec 32) (handle : Word)
  /-- LNCH.W: the slot is given up until the reserved entry of slot `slot` is free (R206). -/
  | entry (slot : Nat)
  /-- RCALL `w` with its position assigned, and its result, status, cause and immediate once they are known (R204, R325). -/
  | call (w : BitVec 32) (slot p : Nat) (res : Option (Word × Nat × Nat × Nat))
  /-- RCALL `w` without a position, with the time it was issued in nanoseconds (R330, R332). -/
  | logFull (w : BitVec 32) (slot since : Nat)
  /-- RREAD `w` with its tail read (R204). -/
  | rread (w : BitVec 32) (slot tail : Nat)
  /-- HALT draining (R128). -/
  | halt
  /-- FENCE or SBAR: its earlier engine and bank commands are still to be performed (R124). -/
  | commands
  /-- A segment that a kernel's window holds (R250, R281). -/
  | hold
  /-- An access to remote memory, or to its peer's ports, since a time in nanoseconds without an answer (R361, R362). -/
  | remote (addr : Word) (since : Nat)
  deriving DecidableEq, Repr

/-- Where a hart stands. -/
inductive Status where
  | unbound
  | running
  | waiting (w : Wait)
  /-- Stopped on a trap that went to the device supervisor (R31). -/
  | stopped
  deriving DecidableEq, Repr

/-- A granted local-window region: offset and size; its number in the launch record, or 16 for the stack (R243, R297). -/
structure LRegion where
  off  : Nat
  size : Nat
  num  : Nat
  disc : Bool
  deriving DecidableEq, Repr

/-- A stop asked of a hart at its next strip boundary (R341): the cause and tval it will read, the module time of the
event, and the kind, number, agent and address of its record. -/
structure StopAsk where
  cause  : Nat
  tval   : Nat
  at_    : Nat
  kind   : Nat
  number : Nat
  agent  : Nat
  addr   : Word
  deriving DecidableEq, Repr

/-- One hart: its registers (R6, R20, R30) and what the module keeps for it. -/
structure Hart where
  /-- Its place h = die · 896 + cluster · 16 + core · 2 + slot (R17, R355). -/
  place   : Nat
  x       : Vector Word 32
  v       : Vector (BitVec 4096) 32
  tiles   : Vector (BitVec 131072) 8
  q       : Vector QReg 8
  scaleA  : Vector (BitVec 32) 64
  scaleB  : Vector (BitVec 32) 64
  pc      : Word
  vl      : Word
  vr      : Word
  vtype   : Word
  vlmax   : Word
  vstart  : Word
  vrm     : Word
  vxflags : Word
  vxsel   : Word
  sord    : Word
  sva     : Word
  lc      : Word
  lbeg    : Word
  lend    : Word
  pfxs    : Word
  dirty   : Word
  lmap    : Word
  coord   : Word
  stage   : Word
  rstat   : Word
  discf   : Word
  tvec    : Word
  tcause  : Word
  tval    : Word
  tpc     : Word
  tqpos   : Word
  tsave   : Word
  vpad    : Word
  lbase   : Word
  lcuse   : Word
  lcmask  : Word
  lcbvl   : Word
  lcdead  : Word
  lcstall : Word
  lccyc   : Word
  sctx    : Word
  sptb    : Word
  sgrant  : Word
  sprio   : Word
  sframe  : Word
  sresume : Word
  scocoon : Word
  shalt   : Word
  /-- The launch record's VLMAX cap, 0 for none (R298). -/
  vlcap   : Nat
  regions : List RegionEntry
  handler : Option Handler
  reissue : Option VEntry
  /-- The AP's commit point while the entry of `reissue` came from the VIQ; `pc` is then that entry's address (R32). -/
  ahead   : Option ApPoint
  /-- Entries the AP has issued and the EP has not begun, oldest first (R32, R311). -/
  viq     : List ViqItem
  lane    : Option LaneState
  /-- Queued stores of its streams, in issue order (R218). -/
  stores  : List PStore
  /-- A scalar load that is still to be performed (R218). -/
  late    : Option LateLoad
  /-- Words its fetch unit read before the hart reaches them (R115, R125). -/
  words   : List (Word × BitVec 32)
  status  : Status
  local_  : List LRegion
  /-- The launch it runs: queue and acceptance sequence number (R306). -/
  launch  : Option (Nat × Nat)
  ord     : Nat
  /-- How many dispatches came before its own (R305). -/
  bornAt  : Nat
  /-- Pages whose request was answered Success since the current instruction began (R260). -/
  paged   : List Word
  /-- Its access to this address in remote memory had no answer in time; the address that it has asked for without an answer, and since
when (R361). -/
  noAnswer : Option Word
  asked   : Option (Word × Nat)
  /-- Held by its debug block (R340), and the breakpoints that have stopped it at its next instruction (R339). -/
  held    : Bool
  passed  : List Nat
  /-- The stop asked of it (R341), and the further agent hits it records when it stops (R343). -/
  pending : Option StopAsk
  more    : List StopAsk
  /-- Watchpoint matches of the instruction it executes, since its first issue (R340). -/
  strikes : List Strike
  /-- Its place in the order in which waiting instructions arrived at what they wait for, and that of the entry at the head of its VIQ
(R208, R271, R328). -/
  arrived : Option Nat
  arrivedEp : Option Nat
  /-- Its appends that wait at home near-memory units, oldest first, while it goes on (R376). -/
  sent    : List Sent
  /-- Counters at the last strip record (R346). -/
  stripAt : List Word
  /-- Slots that do useful work, are masked off, lie beyond vl or are start-up dead in the current cycle (R28). -/
  slots   : Nat × Nat × Nat × Nat
  deriving DecidableEq, Repr

/-- A hart in its chrysalis frame (R311): the whole hart, whether its two copies are intact (R312), whether it may be resized, whether
its regions and stack were evicted (R313) or lost with their die (R317), and the saved bytes of its keep regions and its stack, sealed for a
cocoon's launch (R312). -/
structure Frame where
  hart      : Hart
  copyOk    : Bool
  mirrorOk  : Bool
  resizable : Bool
  evicted   : Bool
  lost      : Bool
  /-- The second copy of those sections: the die whose HBM holds it, and its bytes, sealed like the first (R312). -/
  mirror    : Nat × List Byte
  /-- Which eviction it went with: harts evicted together resume together (R313). -/
  era       : Nat
  saved     : List (LRegion × List Byte)
  /-- Granules of the window whose data failed their check when they were saved, by their offset in eights of bytes (R262). -/
  bad       : List Nat
  /-- Entries of the 16 stage queues, in the frame of the lowest stage of a folded group. -/
  queues    : List (List (BitVec 256))
  /-- The header, x registers and status registers as they were written at `sframe`; none without a frame address (R311). -/
  image     : List Word
  deriving DecidableEq, Repr

/-! ## Clusters (R184 to R195, R208 to R211, R244 to R246) -/

/-- Which unit of a cluster performs a command (R245). -/
inductive Engine where
  | copy | gather | bank | nmuOut
  deriving DecidableEq, Repr

/-- An accepted engine or bank command, with its local ranges [lo, hi) read and written (R187). `block` is its command block, followed
by what it keeps while it runs. -/
structure Cmd where
  engine : Engine
  token  : Word
  owner  : Nat
  ctx    : Word
  sptb   : Word
  block  : List Word
  base   : Word
  scope  : Nat
  rel    : Bool
  /-- Tokens of the hart's commands that an acquire makes it wait for, of its cluster's engines and of near-memory units (R187). -/
  after  : List Word
  nmus   : List Word
  reads  : List (Nat × Nat)
  writes : List (Nat × Nat)
  started : Bool
  /-- Bytes moved, or granules performed. -/
  step   : Nat
  /-- The page request it waits for, and the pages answered Success since its current access began (R260). -/
  page   : Option Nat
  paged  : List Word
  /-- The access to remote memory that it has waited for, and since when (R361). -/
  remote : Option (Word × Nat)
  deriving DecidableEq, Repr

/-- A stored completion status: token, context, code of R188 or R215, kept address, and whether it is kept unseen because
its context was stopped (R342). -/
structure CmdStatus where
  token  : Word
  ctx    : Word
  code   : Nat
  addr   : Word
  hidden : Bool
  deriving DecidableEq, Repr

/-- What holds a granted segment: the regions of a launch on the cluster, or the stack of one of its harts (R297). -/
inductive SegHolder where
  | region (queue seq : Nat)
  | stack (queue seq ord stage : Nat)
  deriving DecidableEq, Repr

/-- A scratchpad segment that has had an owner (R246): the context of its last owner, what holds it now, and whether its
region was discarded since. -/
structure Segment where
  seg       : Nat
  ctx       : Word
  holder    : Option SegHolder
  discarded : Bool
  deriving DecidableEq, Repr

/-- A cluster. -/
structure Cluster where
  pool      : List Cmd
  copySeq   : Nat
  gatherSeq : Nat
  bankSeq   : Nat
  copyLog   : List CmdStatus
  gatherLog : List CmdStatus
  /-- The 4 KiB segments that have had an owner (R246). -/
  segs      : List Segment
  /-- The launch whose stage group holds the cluster, its iteration and its number of harts (R208). -/
  group     : Option (Nat × Nat × Nat × Nat)
  queues    : Vector (List (BitVec 256)) 16
  deriving DecidableEq, Repr

/-! ## Near-memory units (R214, R215, R250 to R253, R276 to R283) -/

inductive NmuKind where
  | run | bag
  /-- A PROG merge of the stream with this context and handle: R268. -/
  | merge (ctx handle : Word)
  deriving DecidableEq, Repr

/-- An accepted NMU command. -/
structure NmuCmd where
  kind  : NmuKind
  token : Word
  owner : Nat
  ctx   : Word
  sptb  : Word
  block : List Word
  /-- The 256 words read at acceptance (R279); none when they were not there to read. -/
  code  : Option (List (BitVec 32))
  /-- Its place in the range checker when its output is local (R214): cluster and offsets [lo, hi). -/
  out   : Option (Nat × Nat × Nat)
  /-- The cluster of the hart that gave it, and the tokens of that hart's commands that it waits for, of the cluster's engines and of
  near-memory units (R214). -/
  home  : Nat
  after : List Word
  nmus  : List Word
  deriving DecidableEq, Repr

/-- The registers of a running kernel (R276) and its words (R279). -/
structure NmuRun where
  cmd    : NmuCmd
  code   : List (BitVec 32)
  x      : Vector Word 16
  v      : Vector (BitVec 2048) 16
  vl     : Nat
  vtype  : Nat
  lc     : Word
  lbeg   : Nat
  lend   : Nat
  armed  : Bool
  rp     : Word
  rs     : Word
  c      : Nat
  steps  : Nat
  pc     : Nat
  /-- Physical addresses of the segments held since the last row step (R281). -/
  window : List Nat
  /-- The row step before the first instruction has been made (R276). -/
  primed : Bool
  /-- A page request it waits for, and the pages answered Success since the current row step began (R277). -/
  wait   : Option Nat
  paged  : List Word
  deriving DecidableEq, Repr

inductive ChannelPower where
  | up
  /-- Power-down asked for at a time in nanoseconds, and waiting (R253). -/
  | asked (since : Nat)
  | down
  deriving DecidableEq, Repr

/-- A channel with its near-memory unit. -/
structure Nmu where
  run    : Option NmuRun
  queue  : List NmuCmd
  seq    : Nat
  log    : List CmdStatus
  wn     : BitVec 4
  wc     : BitVec 4
  power  : ChannelPower
  /-- Row-segment registers written to the reserved area at power-down (R253). -/
  saved  : Option (Vector (BitVec 2048) 16)
  /-- Banks whose refresh is due (R252). -/
  due    : List Nat
  deriving DecidableEq, Repr

/-- A stored item of an instar stream: start of its span and its slot at its level (R265, R269). -/
structure Item where
  start : Nat
  slot  : Nat
  deriving DecidableEq, Repr

/-- A ready instar stream: the copy of its descriptor, the pages' physical addresses of its segments, and its item
table, level by level, oldest first (R264 to R272). -/
structure Instar where
  ctx    : Word
  handle : Word
  sptb   : Word
  store  : Word
  comb   : Nat
  fmt    : Nat
  elems  : Nat
  size   : Nat
  kernel : Word
  home   : Nat
  caps   : List Nat
  segs   : List Nat
  next   : Nat
  levels : List (List Item)
  halted : Bool
  deriving DecidableEq, Repr

/-! ## Replayed objects (R320 to R335) -/

/-- One entry of an object's log (R327): its position, its ring slot, the 64 bytes of its two copies, none for one that fails its check,
the dies whose HBM holds them (R332), and the outcome kept until it is trimmed (R331). -/
structure LogEntry where
  p      : Nat
  slot   : Nat
  copyA  : Option (List Byte)
  copyB  : Option (List Byte)
  dies   : Nat × Nat
  result : Option (Word × Nat × Nat × Nat)
  deriving DecidableEq, Repr

structure Replica where
  bytes   : List Byte
  applied : Nat
  stale   : Bool
  deriving DecidableEq, Repr

structure Robj where
  slot     : Nat
  gen      : Nat
  ctx      : Word
  size     : Nat
  code     : List (BitVec 32)
  /-- kind (true = update) and entry of each method. -/
  methods  : List (Bool × Nat)
  rtimeout : Nat
  k        : Nat
  tail     : Nat
  log      : List LogEntry
  replicas : Vector Replica 4
  logDies  : Nat × Nat
  leaving  : Bool
  deriving DecidableEq, Repr

/-! ## Launches (R295 to R309) -/

/-- An accepted loop-nest record (R295). -/
structure LaunchRec where
  cocoon  : Bool
  record  : Bool
  restart : Bool
  weight  : Nat
  prio    : Nat
  lanes   : Nat
  stages  : Nat
  order   : Nat
  args    : Word
  vlcap   : Nat
  stack   : Nat
  /-- start, bound, step of each declared dimension. -/
  dims    : List (Int × Int × Int)
  entries : List Word
  waits   : List (Nat × Word)
  sigCtr  : Nat
  sigVal  : Word
  regions : List LRegion
  deriving DecidableEq, Repr

structure Launch where
  queue    : Nat
  seq      : Nat
  addr     : Word
  ctx      : Word
  sptb     : Word
  lr       : LaunchRec
  eligible : Bool
  /-- Next ordinal not yet dispatched, and cut-short ordinals to dispatch again, with whether their regions were lost (R317). -/
  next     : Nat
  redo     : List (Nat × Bool)
  halted   : Nat
  /-- Ordinals that will not run again and did not halt (R309, R317). -/
  cut      : List Nat
  /-- Ended by the supervisor (R309). -/
  stopped  : Bool
  done     : Option Nat
  /-- The hart whose reserved entry holds it, none for a shared entry (R302, R206). -/
  reserved : Option Nat
  /-- Time in nanoseconds when it last had an iteration dispatched, or became eligible, and the ageing the walker has noted since
  (R304). -/
  since    : Nat
  boost    : Nat
  /-- In the ring of each die: when it came to its place, the tie-break among those that came then, and the iterations taken in its turn
  (R304). -/
  ring     : Vector (Nat × Nat × Nat) 4
  /-- When its last iteration ended with its context stopped (R342, R343). -/
  heldAt   : Option Nat
  deriving DecidableEq, Repr

/-- A host launch queue (R301). -/
structure HostQueue where
  owner   : Option Nat
  ctx     : Word
  busy    : Bool
  refused : Bool
  seq     : Nat
  reason  : Nat
  /-- The record address of a submission that waits for a page, and the pages answered Success for it (R301). -/
  sub     : Word
  paged   : List Word
  /-- Submissions that wait for the one being checked, oldest first. -/
  waiting : List Word
  deriving DecidableEq, Repr

/-! ## Debug (R336 to R351) -/

structure DebugBlock where
  ctx     : Word
  stopped : Bool
  mode    : Nat
  per     : Nat
  prof    : Bool
  ring    : Word
  hasRing : Bool
  head    : Nat
  tail    : Nat
  lost    : Nat
  jrnl    : Word
  psel    : Nat
  wpaddr  : Vector Word 4
  wpctl   : Vector Word 4
  ibp     : Vector Word 4
  sbp     : Vector Word 2
  /-- Stop and hit records the ring had no room for, oldest first, each with the key it is written under; the value DBTAIL must reach before the context may resume, when some
  of them came before there was a ring; and a resume that waits for both (R344). -/
  waiting : List (Option Config.XtsKey × List Word)
  owed    : Nat
  wanted  : Bool
  /-- Journal entries, oldest first (R348): what was journalled, the hart's iteration and stage, and the values; the bytes of entries that
  have still to be written to the area, each with the key it is written under (R352); and the bytes of the area that are filled. -/
  journal : List (List Word)
  jlate   : List (Option Config.XtsKey × List Byte)
  jfill   : Nat
  /-- The comparator of each watchpoint at its home: the key of its bytes, where its address has a translation (R338). -/
  comp    : Vector (Option Nat) 4
  /-- The RECORD launches accepted since the recording or the replay began, in order (R347, R350). -/
  recs    : List (Nat × Nat)
  deriving DecidableEq, Repr

/-- What a port keeps for one recorded launch: message count, digest and time of the last acceptance (R347, R351), the header records it
accepted, those a replay still expects, in order, the pages the launch has accessed through it (R348), the messages of each source, and,
of the current cycle, the journal entries made here and the record of a divergence (R351). -/
structure PortRec where
  count  : Nat
  digest : BitVec 128
  lastAt : Nat
  seen   : List (List Byte)
  expect : List (List Byte)
  pages  : List Nat
  talk   : List (Nat × Nat)
  fresh  : List (List Word)
  split  : Option (List Word)
  deriving DecidableEq, Repr

/-- A match at a home of a queued write that is performed (R338): block, watchpoint, agent, lowest matching byte, and the module time. -/
structure HomeHit where
  block : Nat
  w     : Nat
  agent : Nat
  addr  : Word
  at_   : Nat
  deriving DecidableEq, Repr

/-! ## Hub, fabric, security and power (R353 to R369) -/

inductive PageWho where
  | hart (h : Nat)
  /-- Queue `q` of the hart with key `h` reads its image (R293). -/
  | image (h q : Nat)
  | engine (cl : Nat) (token : Word)
  | nmu (ch : Nat)
  | queue (n : Nat)
  | pyinit (h : Nat)
  deriving DecidableEq, Repr

/-- A page request sent and not yet answered (R260): the failing address, and the tval of the access violation that a refusal raises
(R206). -/
structure PageReq where
  id   : Nat
  who  : PageWho
  ctx  : Word
  addr : Word
  tval : Word
  deriving DecidableEq, Repr

/-- A translation held by a TLB (R259): the TLB, 0 to 3 the last-level one of a die, 4 + 16 · core + lane the bank of a physical lane in
its core's micro-TLB; context, page number at its size, size in bits, frame, permissions and the leaf's dirty bit as seen. -/
structure TlbEntry where
  die   : Nat
  ctx   : Word
  bits  : Nat
  page  : Nat
  frame : Nat
  x     : Bool
  w     : Bool
  d     : Bool
  deriving DecidableEq, Repr

/-- A non-leaf entry the walker of a die holds (R259): context, the level of the table it names, the address bits above that table's
index, and the table's physical address. -/
structure NonLeaf where
  die   : Nat
  ctx   : Word
  level : Nat
  top   : Nat
  table : Nat
  deriving DecidableEq, Repr

/-- A queued invalidation request: the host address it was read from and its four dwords (R259). -/
structure InvReq where
  ctx   : Word
  va    : Word
  size  : Nat
  count : Word
  done  : Word
  bad   : Bool
  deriving DecidableEq, Repr

inductive TdispState where
  | unlocked | locked | run | error
  deriving DecidableEq, Repr

structure Cocoon where
  id    : Nat
  ctx   : Word
  state : TdispState
  key   : Config.XtsKey
  debug : Bool
  deriving DecidableEq, Repr

/-- A scale-up port (R360 to R363). -/
structure FabricPort where
  working : Bool
  peer    : Nat
  /-- Messages whose headers stand in the tables of 64 entries, by s mod 64: as sender and as receiver (R362). -/
  txTable : List (Nat × Nat)
  rxTable : List (Nat × Nat)
  /-- Sequence numbers sent and not acknowledged, oldest first. -/
  unacked : List Nat
  /-- Flits sent again from the retry buffer (R360). -/
  retries : Nat
  deriving DecidableEq, Repr

/-- Event counters of one context that are not zero (R213), and the context's tables and cocoon (R306). -/
structure Context where
  ctx      : Word
  sptb     : Word
  cocoon   : Nat
  counters : List (Nat × Word)
  deriving DecidableEq, Repr

/-- What a host or a remote device has asked of memory here and waits: an access of an agent that met a held segment (R250), or an
EVADD of a port whose earlier writes are still to be performed: context, counter and value (R358). -/
inductive HubReq where
  /-- An invalidation request whose 32 bytes lie in a held segment (R250). -/
  | inv (addr : Word)
  | mem (agent : Nat) (req : MemRequest)
  | add (agent : Nat) (ctx : Word) (idx : Nat) (x : Word)
  deriving DecidableEq, Repr

inductive PowerState where
  | active | idle | standby
  deriving DecidableEq, Repr

/-- An update of a launch queue (R335): a launch is accepted, an iteration is dispatched to a die, ends by HALT or is cut short, to run
again or not, and the launch completes. -/
inductive QUpdate where
  | accept (seq : Nat)
  | dispatch (seq ord die : Nat)
  | halted (seq ord : Nat)
  | cut (seq ord : Nat) (again : Bool)
  | complete (seq : Nat)
  deriving DecidableEq, Repr

/-- What a replica of a launch queue holds of an accepted launch that has not completed: the next ordinal, those to run again, how many
have halted, and the unfinished ones (R335). -/
structure QLaunch where
  seq    : Nat
  next   : Nat
  redo   : List Nat
  halted : Nat
  cut    : List Nat
  deriving DecidableEq, Repr

/-- A replica of a launch queue: the position it has applied last, and its launches (R335). -/
structure QReplica where
  applied  : Nat × Nat
  launches : List QLaunch
  deriving DecidableEq, Repr

/-- The replayed object of a launch queue (R300, R335): its last position, the updates that are not trimmed, with their positions, the
replica of each die, none while it is stale, and the dies whose HBM holds the two copies of the log.  The position of an acceptance is its
sequence number n, as (n, 0); the updates that follow it stand at (n, 1), (n, 2) and on (log 62). -/
structure QueueLog where
  queue    : Nat
  tail     : Nat × Nat
  entries  : List ((Nat × Nat) × QUpdate)
  replicas : Vector (Option QReplica) 4
  copies   : Nat × Nat
  deriving DecidableEq, Repr

structure Hub where
  queues   : List (Nat × HostQueue)
  /-- The replayed objects of the launch queues that have had an update (R335). -/
  qlogs    : List QueueLog
  devSeq   : Vector Nat 4
  launches : List Launch
  /-- Dispatches made. -/
  dispatches : Nat
  pthr     : Nat
  contexts : List Context
  objects  : List Robj
  gens     : List (Nat × Nat)
  roctx    : Word
  roparm   : Word
  robusy   : Bool
  /-- Registrations (true) and deregistrations that wait, oldest first, with what was written (R321). -/
  rowait   : List (Bool × Word)
  rorefused : Bool
  roreason : Nat
  rohdl    : Word
  /-- Bytes of the supervisor's replica and log areas; none where it has set no bound (R322). -/
  roarea   : Option Nat
  /-- The object whose turn at the replay engine of a die was the last (R329). -/
  roturn   : Vector Nat 4
  debug    : List (Nat × DebugBlock)
  ports    : List (Nat × PortRec)
  /-- The holder of each semaphore (R357), and the port that lost the last tie. -/
  sems     : Vector (Option Nat) 16
  lastLoser : Option Nat
  evctx    : Word
  evidx    : Word
  /-- Requests that wait, oldest first (R250, R358), and what reads and atomics have returned, newest first: the agent, the address, and
  the value there before, none where it is returned poisoned (R262, R353). -/
  requests : List HubReq
  replies  : List (Nat × Word × Option Word)
  invs     : List InvReq
  pages    : List PageReq
  pageSeq  : Nat
  /-- The supervisor's log (R355): what was logged and its argument, newest first. -/
  log      : List (String × Word)
  /-- Corrected errors counted (R261). -/
  corrected : Nat
  mbaddr   : Word
  mbstat   : Nat
  flash    : List Byte
  fuseVersion : Nat
  fuseHash : BitVec 384
  /-- The secret the identity key is derived from (R366). -/
  secret   : BitVec 384
  /-- The firmware has passed R364. -/
  booted   : Bool
  /-- The image that takes effect at the next module reset (R365). -/
  staged   : Option (List Byte)
  measure  : BitVec 384
  /-- Signed SPDM answers: port, nonce, signature (R366). -/
  spdm     : List (Nat × Word × List Byte)
  /-- Ports that hold an SPDM session (R366). -/
  sessions : Vector Bool 2
  cocoons  : List Cocoon
  keySeq   : Nat
  pwrlim   : Nat
  pwrnow   : Nat
  power    : PowerState
  idleSince : Nat
  divider  : Nat
  linkUp   : Vector Bool 2
  hdmBase  : Word
  hdmOk    : Bool
  /-- The error of the last decoder commit of each port, and the base and size each port asked for (R248). -/
  hdmErr   : Vector Bool 2
  hdmPort  : Vector (Option (Word × Word)) 2
  tierBase : Nat
  tierSize : Nat
  fabric   : Vector FabricPort 18
  /-- Messages sent, and messages of other devices accepted: device and source sequence number (R362, R363). -/
  sent     : Nat
  accepted : List (Nat × Nat)
  device   : Nat
  /-- Devices that send no response (R361). -/
  silent   : List Nat
  /-- Ports whose host's memory can no longer be reached (R354). -/
  hostLost : Vector Bool 2
  /-- Lines of host memory that a slice holds exclusive and modified: the line and what host memory itself holds of it (R221,
  R354, R359). -/
  dirty    : List (Nat × List Byte)
  deriving DecidableEq, Repr

/-- Who executes the instruction that `exec` is given. -/
inductive Agent where
  | hart
  | nmu (ch : Nat)
  deriving DecidableEq, Repr

/-- A unit of the hub that goes on with what waits for it. -/
inductive HubUnit where
  /-- A host launch queue: its submission, or the next that waits (R250, R301). -/
  | queue (n : Nat)
  /-- Object registration (R321). -/
  | objects
  /-- The waiting request with number k (R250, R358). -/
  | request (k : Nat)
  /-- The replica of a launch queue on a die (R335), and the die's walker, which reaches for an iteration that another has taken. -/
  | replica (queue die : Nat)
  | reach (queue seq die : Nat)
  deriving DecidableEq, Repr

/-- What happens to the module from outside, or to its arrays. -/
inductive Outside where
  /-- The host assigns the second tier its addresses (R254). -/
  | tier (base size : Nat)
  /-- The fabric manager gives the device its domain number (R360). -/
  | device (n : Nat)
  /-- A remote device stops sending responses, or sends them again (R361). -/
  | silence (dev : Nat) (on : Bool)
  /-- A host stores bytes in its own memory (R359). -/
  | hostStore (pa : Nat) (bytes : List Byte)
  /-- The data of a location fail their check where they are stored, or in the L2 slice that holds the line (R261). -/
  | fail (key : Nat)
  | failSlice (key : Nat)
  /-- A TLB entry, or an entry of a walker cache, is dropped for its parity (R259, R261). -/
  | dropTlb (n : Nat)
  | dropWalk (n : Nat)
  /-- A row-segment register of a channel fails its check (R261). -/
  | nmuFail (ch : Nat)
  /-- The retention state of a channel's near-memory unit fails (R273). -/
  | retention (ch : Nat)
  /-- An HBM stack is reset (R273, R282). -/
  | stackReset (stack : Nat)
  /-- A copy of the frame of the hart that had a place, the first or the mirror, fails its check (R312, R316). -/
  | frameFail (h : Nat) (first : Bool)
  /-- The supervisor's areas for replicas and logs take this many bytes (R322). -/
  | areas (bytes : Nat)
  /-- An error strikes an object's replica on a die, its code there, or its engine in one of its methods (R331). -/
  | replicaError (obj die : Nat)
  /-- An error strikes the replica of a launch queue on a die (R331, R335). -/
  | queueError (queue die : Nat)
  /-- The first or the second copy of a log entry fails its check (R332). -/
  | logFail (obj p : Nat) (first : Bool)
  /-- hokril loads the journal of a recording into block n: its entries, and the header records that each port accepted of each recorded
  launch (R350). -/
  | journal (n : Nat) (entries : List (List Word)) (ports : List (Nat × Nat × List (List Byte)))
  deriving DecidableEq, Repr

/-- One turn of the schedule: who moves next (R217; the manual fixes no order among agents). -/
inductive Turn where
  | issue (h : Nat)
  /-- The AP of hart h issues a vector instruction into the VIQ and goes on (R32). -/
  | ahead (h : Nat)
  /-- The EP of hart h executes the oldest entry of its VIQ (R32). -/
  | ep (h : Nat)
  /-- The EP of hart h performs the store of a stream before the vector load that its VIQ holds ahead of it (R218). -/
  | pass (h : Nat)
  /-- Hart h executes its vector instruction up to element position n, where its EP stops between element groups (R310). -/
  | part (h n : Nat)
  /-- Hart h issues a scalar load that is performed later (R218). -/
  | late (h : Nat)
  /-- The fetch unit of hart h reads the word at an address ahead (R115, R125). -/
  | prefetch (h : Nat) (a : Word)
  /-- Hart h issues the word its fetch unit holds (R115, R125). -/
  | old (h : Nat)
  /-- Hart h goes on while its PYAPP waits at the home near-memory unit (R63, R376). -/
  | send (h : Nat)
  /-- The stream unit of hart h fetches the next element of queue q ahead of its consumers (R164). -/
  | fetch (h q : Nat)
  /-- The oldest queued write of a stream of a hart, or the next write of an engine command, passes its cluster's crossbar (R221). -/
  | post (who : Accessor)
  /-- The write on its way with number n passes its next ordering point, or is performed at its home (R221). -/
  | forward (n : Nat)
  /-- What the lane slots of hart h do in the current cycle (R28). -/
  | lanes (h use mask bvl dead : Nat)
  /-- The debug blocks take the oldest match at a home (R338). -/
  | report
  | hub (u : HubUnit)
  | outside (o : Outside)
  | nmu (ch : Nat)
  | event (i : Instr)
  deriving DecidableEq, Repr

/-- The module. -/
structure State where
  cur       : Hart
  others    : List Hart
  frames    : List Frame
  mem       : List Host.Cell
  /-- 64-bit words whose data fail their check, by their address in eights of bytes (R261, R262). -/
  poison    : List Nat
  tlb       : List TlbEntry
  /-- Non-leaf entries the walkers hold (R259). -/
  walks     : List NonLeaf
  clusters  : List (Nat × Cluster)
  /-- Writes on their way to their homes, oldest first (R221). -/
  net       : List Posted
  /-- Matches at the homes that the debug blocks have still to take, oldest first (R338). -/
  hits      : List HomeHit
  nmus      : List (Nat × Nmu)
  instars   : List Instar
  hub       : Hub
  /-- Physical lanes retired: core, lane (R263). -/
  retired   : List (Nat × Nat)
  /-- Dies that are being reset (R317). -/
  down      : List Nat
  /-- Module time in sevenths of a nanosecond (R212; a core cycle is five of them). -/
  sevenths  : Nat
  /-- Slots that issued at the last cycle in which both slots of their core were ready (R307), or gave the other the next (R128). -/
  turns     : List Nat
  /-- MODEL: who executes. -/
  unit      : Agent
  /-- MODEL: who moves next. -/
  schedule  : List Turn
  /-- MODEL: how many instructions have begun to wait in an order of arrival (R208, R271, R328). -/
  arrivals  : Nat
  /-- MODEL: counter of the free values taken. -/
  freeCount : Nat
  /-- MODEL: what the instruction being executed must wait for before it is performed (R195, R250, R361). -/
  blocked   : Option Wait
  /-- MODEL: the element position before which the EP stops within the instruction being executed (R310). -/
  cut       : Option Nat
  deriving DecidableEq, Repr

/-! ## Reset -/

/-- A hart slot with nothing bound (log 2): every register at the value R19 and R20 give for a launch, before the launch
sequencer has written any. -/
def Hart.blank (place : Nat) : Hart where
  place := place
  x := Vector.replicate 32 0
  v := Vector.replicate 32 0
  tiles := Vector.replicate 8 0
  q := Vector.replicate 8 .unbound
  scaleA := Vector.replicate 64 0
  scaleB := Vector.replicate 64 0
  pc := 0
  vl := 0
  vr := 0
  vtype := 0
  vlmax := 0
  vstart := 0
  vrm := 0
  vxflags := 0
  vxsel := 0
  sord := 0
  sva := 0
  lc := 0
  lbeg := 0
  lend := 0
  pfxs := 0
  dirty := 0
  lmap := 0
  coord := 0
  stage := 0
  rstat := 0
  discf := 0
  tvec := 0
  tcause := 0
  tval := 0
  tpc := 0
  tqpos := 0
  tsave := 0
  vpad := 0
  lbase := 0
  lcuse := 0
  lcmask := 0
  lcbvl := 0
  lcdead := 0
  lcstall := 0
  lccyc := 0
  sctx := 0
  sptb := 0
  sgrant := 0
  sprio := 0
  sframe := 0
  sresume := 0
  scocoon := 0
  shalt := 0
  vlcap := 0
  regions := []
  handler := none
  reissue := none
  ahead := none
  viq := []
  lane := none
  stores := []
  late := none
  words := []
  status := .unbound
  local_ := []
  launch := none
  ord := 0
  bornAt := 0
  paged := []
  noAnswer := none
  asked := none
  held := false
  passed := []
  pending := none
  more := []
  strikes := []
  arrived := none
  arrivedEp := none
  sent := []
  stripAt := []
  slots := (0, 0, 0, 0)

def Cluster.blank : Cluster where
  pool := []
  copySeq := 0
  gatherSeq := 0
  bankSeq := 0
  copyLog := []
  gatherLog := []
  segs := []
  group := none
  queues := Vector.replicate 16 []

/-- A channel after reset: weights 3 and 1 (R251, R356). -/
def Nmu.blank : Nmu where
  run := none
  queue := []
  seq := 0
  log := []
  wn := 3
  wc := 1
  power := .up
  saved := none
  due := []

def HostQueue.blank : HostQueue where
  owner := none
  ctx := 0
  busy := false
  refused := false
  seq := 0
  reason := 0
  sub := 0
  paged := []
  waiting := []

def DebugBlock.blank : DebugBlock where
  ctx := 0
  stopped := false
  mode := 0
  per := 0
  prof := false
  ring := 0
  hasRing := false
  head := 0
  tail := 0
  lost := 0
  jrnl := 0
  psel := 0
  wpaddr := Vector.replicate 4 0
  wpctl := Vector.replicate 4 0
  ibp := Vector.replicate 4 0
  sbp := Vector.replicate 2 0
  waiting := []
  owed := 0
  wanted := false
  journal := []
  jlate := []
  jfill := 0
  comp := Vector.replicate 4 none
  recs := []

def PortRec.blank : PortRec where
  count := 0
  digest := 0
  lastAt := 0
  seen := []
  expect := []
  pages := []
  talk := []
  fresh := []
  split := none

def FabricPort.blank : FabricPort where
  working := true
  peer := 0
  txTable := []
  rxTable := []
  unacked := []
  retries := 0

/-- The hub after module reset: the reset values of R301, R305, R321, R337, R357, R365 and R368.  What those rules leave
open (the decoders' bases, the fuses, the flash, EVCTX, PWRNOW) is log 12. -/
def Hub.reset : Hub where
  queues := []
  qlogs := []
  devSeq := Vector.replicate 4 0
  launches := []
  dispatches := 0
  pthr := 6
  contexts := []
  objects := []
  gens := []
  roctx := 0
  roparm := 0
  robusy := false
  rowait := []
  rorefused := false
  roreason := 0
  rohdl := 0
  roarea := none
  roturn := Vector.replicate 4 0
  debug := []
  ports := []
  sems := Vector.replicate 16 none
  lastLoser := none
  evctx := 0
  evidx := 0
  requests := []
  replies := []
  invs := []
  pages := []
  pageSeq := 0
  log := []
  corrected := 0
  mbaddr := 0
  mbstat := 0
  flash := []
  fuseVersion := 0
  fuseHash := 0
  secret := 0
  booted := false
  staged := none
  measure := 0
  spdm := []
  sessions := Vector.replicate 2 false
  cocoons := []
  keySeq := 0
  pwrlim := 3600
  pwrnow := 0
  power := .active
  idleSince := 0
  divider := 1
  linkUp := Vector.replicate 2 true
  hdmBase := 0
  hdmOk := false
  hdmErr := Vector.replicate 2 false
  hdmPort := Vector.replicate 2 none
  tierBase := 0
  tierSize := 0
  fabric := Vector.replicate 18 FabricPort.blank
  sent := 0
  accepted := []
  device := 0
  silent := []
  hostLost := Vector.replicate 2 false
  dirty := []

/-- The module right after reset: no hart bound, nothing accepted, memory with nothing listed, TIME zero (R212). -/
def State.reset : State where
  cur := Hart.blank 0
  others := []
  frames := []
  mem := []
  poison := []
  tlb := []
  walks := []
  clusters := []
  net := []
  hits := []
  nmus := []
  instars := []
  hub := Hub.reset
  retired := []
  down := []
  sevenths := 0
  turns := []
  unit := .hart
  schedule := []
  arrivals := 0
  freeCount := 0
  blocked := none
  cut := none

end Sys2Proof.Machine
end

