-- ==== Sys2Proof/Machine/Ops.lean ====
section
/-!
DEFINITION. The named operations over the state: memory in its canonical form, registers, address decode and
translation (R242 to R260), the ordering streams' queues (R218), taking a trap and returning from a handler (R31, R32,
R127), and moving to the next instruction (R115).
-/

namespace Sys2Proof.Machine

/-! ## Keyed lists -/

/-- The value a keyed list gives a key, or `d`. -/
def look {α : Type} (d : α) : List (Nat × α) → Nat → α
  | [], _ => d
  | (k, v) :: t, n => if k == n then v else look d t n

/-- Set a key of a keyed list, keys rising. -/
def put {α : Type} : List (Nat × α) → Nat → α → List (Nat × α)
  | [], n, x => [(n, x)]
  | (k, v) :: t, n, x => if n < k then (n, x) :: (k, v) :: t else if n == k then (n, x) :: t else (k, v) :: put t n x

/-! ## Memory (R242, R244, R248; log 1) -/

/-- What a byte nothing has written reads as (log 1; R246 for the scratchpad). -/
def Memory.empty : Byte := 0

def Memory.get : List Host.Cell → Nat → Byte
  | [], _ => Memory.empty
  | (k, b) :: t, a => if k = a then b else Memory.get t a

/-- Write one byte, keeping the addresses rising and listing no byte equal to what an unlisted one reads as. -/
def Memory.set : List Host.Cell → Nat → Byte → List Host.Cell
  | [], a, b => if b = Memory.empty then [] else [(a, b)]
  | (k, c) :: t, a, b =>
    if a < k then (if b = Memory.empty then (k, c) :: t else (a, b) :: (k, c) :: t)
    else if a = k then (if b = Memory.empty then t else (a, b) :: t)
    else (k, c) :: Memory.set t a b

/-- Every address of the list is above `a`, rising, and no listed byte is the empty one. -/
def Memory.above : Option Nat → List Host.Cell → Bool
  | _, [] => true
  | lo, (k, b) :: t => (match lo with | none => true | some a => decide (a < k)) && b != Memory.empty && Memory.above (some k) t

/-- The canonical form: addresses strictly rising, no entry equal to what an unlisted address reads as. -/
def Memory.wf (m : List Host.Cell) : Bool := Memory.above none m

/-- Write a list of bytes upward from `a`. -/
def Memory.setList : List Host.Cell → Nat → List Byte → List Host.Cell
  | m, _, [] => m
  | m, a, b :: t => Memory.setList (Memory.set m a b) (a + 1) t

/-- `n` bytes upward from `a`. -/
def Memory.getList (m : List Host.Cell) (a : Nat) : Nat → List Byte
  | 0 => []
  | n + 1 => Memory.get m a :: Memory.getList m (a + 1) n

/-- Little-endian value of bytes. -/
def leNat : List Byte → Nat
  | [] => 0
  | b :: t => b.toNat + 256 * leNat t

/-- The `n` low bytes of a value, little-endian. -/
def leBytes : (n : Nat) → Nat → List Byte
  | 0, _ => []
  | n + 1, x => BitVec.ofNat 8 x :: leBytes n (x / 256)

/-- Replace the bits of `mask`. -/
def mergeByte (old mask val : Byte) : Byte := (old &&& ~~~mask) ||| (val &&& mask)

/-! ## Parts of the state -/

def clusterOf (place : Nat) : Nat := place / 16
def dieOf (place : Nat) : Nat := place / 896
def clusterDie (cl : Nat) : Nat := cl / 56

def State.cluster (s : State) (c : Nat) : Cluster := look Cluster.blank s.clusters c
def State.setCluster (s : State) (c : Nat) (x : Cluster) : State := { s with clusters := put s.clusters c x }
def State.nmu (s : State) (c : Nat) : Nmu := look Nmu.blank s.nmus c
def State.setNmu (s : State) (c : Nat) (x : Nmu) : State := { s with nmus := put s.nmus c x }
def State.hostQueue (s : State) (n : Nat) : HostQueue := look HostQueue.blank s.hub.queues n
def State.setHostQueue (s : State) (n : Nat) (x : HostQueue) : State := { s with hub := { s.hub with queues := put s.hub.queues n x } }
def State.debug (s : State) (n : Nat) : DebugBlock := look DebugBlock.blank s.hub.debug n
def State.setDebug (s : State) (n : Nat) (x : DebugBlock) : State := { s with hub := { s.hub with debug := put s.hub.debug n x } }
def State.port (s : State) (n : Nat) : PortRec := look PortRec.blank s.hub.ports n
def State.setPort (s : State) (n : Nat) (x : PortRec) : State := { s with hub := { s.hub with ports := put s.hub.ports n x } }

/-- Replace the hub. -/
def State.setHub (s : State) (h : Hub) : State := { s with hub := h }
/-- A host access, a launch or a return to D0 makes the module ACTIVE (R369). -/
def State.wakeUp (s : State) : State := s.setHub { s.hub with power := .active, idleSince := s.sevenths }

/-- A host's access to a register of the window: until firmware runs only the semaphores and the recovery mailbox, which `early` marks, are
presented (R364, R369). -/
def State.hostAccess (s : State) (early : Bool) (f : State → State) : State := if early || s.hub.booted then f s.wakeUp else s.wakeUp

/-- Change the current hart. -/
def State.hart (s : State) (f : Hart → Hart) : State := { s with cur := f s.cur }
/-- Write a line of the supervisor's log (R355). -/
def State.logS (s : State) (what : String) (x : Word) : State := { s with hub := { s.hub with log := (what, x) :: s.hub.log } }

/-- Module time in nanoseconds (R212). -/
def State.time (s : State) : Nat := s.sevenths / 7
/-- TIME as a 64-bit value. -/
def State.timeWord (s : State) : Word := BitVec.ofNat 64 s.time

/-- The next free value (log 5, log 13): which count it has, and the state with the count advanced. -/
def State.fresh (s : State) : Nat × State := (s.freeCount, { s with freeCount := s.freeCount + 1 })

/-- Every bound hart, the current one first. -/
def State.harts (s : State) : List Hart := s.cur :: s.others

def takeHart (h : Nat) : List Hart → Option (Hart × List Hart)
  | [] => none
  | a :: t => if a.place == h then some (a, t) else match takeHart h t with
    | some (x, r) => some (x, a :: r)
    | none => none

/-- The place of the other slot of a core. -/
def matePlace (place : Nat) : Nat := if place % 2 == 0 then place + 1 else place - 1

/-- Make hart `h` the current one; the state is unchanged when it is already, or when no such hart is bound. -/
def State.focus (s : State) (h : Nat) : State :=
  if s.cur.place == h then s else match takeHart h s.others with
    | some (x, r) => { s with cur := x, others := s.cur :: r }
    | none => s

/-- The other slot of the current hart's core comes next when both are ready (R128, R307). -/
def State.giveTurn (s : State) : State :=
  { s with turns := s.cur.place :: s.turns.filter (fun p => p != s.cur.place && p != matePlace s.cur.place) }

/-- Whether hart `h` is bound. -/
def State.bound (s : State) (h : Nat) : Bool := s.harts.any (fun x => x.place == h && x.status != .unbound)

/-- Change every hart. -/
def State.mapHarts (s : State) (f : Hart → Hart) : State := { s with cur := f s.cur, others := s.others.map f }

/-- Change every hart, bound or folded. -/
def State.everyHart (s : State) (f : Hart → Hart) : State :=
  { s.mapHarts f with frames := s.frames.map (fun x => { x with hart := f x.hart }) }

def findContext : List Context → Word → Option Context
  | [], _ => none
  | c :: t, x => if c.ctx == x then some c else findContext t x

def State.context (s : State) (ctx : Word) : Option Context := findContext s.hub.contexts ctx

def setContext : List Context → Context → List Context
  | [], c => [c]
  | d :: t, c => if d.ctx == c.ctx then c :: t else d :: setContext t c

def State.putContext (s : State) (c : Context) : State :=
  { s with hub := { s.hub with contexts := setContext s.hub.contexts c } }

/-! ## Registers (R6, R7) -/

/-- Read x[r]; x0 reads zero. -/
def Hart.rx (h : Hart) (r : Reg) : Word := if r = 0#5 then 0 else h.x[r.toNat]
/-- Write x[r]; a write to x0 is discarded. -/
def Hart.wx (h : Hart) (r : Reg) (x : Word) : Hart := if r = 0#5 then h else { h with x := h.x.set r.toNat x }

/-- The register file index of a natural, modulo 32. -/
def reg32 (n : Nat) : Fin 32 := ⟨n % 32, Nat.mod_lt _ (by decide)⟩

def Hart.rv (h : Hart) (n : Nat) : BitVec 4096 := h.v[reg32 n]

/-- Set bit `k` of `dirty` (R27). -/
def Hart.setDirty (h : Hart) (k : Nat) : Hart := { h with dirty := h.dirty ||| (1#64 <<< k) }

/-- Write v[n] and mark it dirty. -/
def Hart.wv (h : Hart) (n : Nat) (x : BitVec 4096) : Hart :=
  { h with v := h.v.set (reg32 n) x, dirty := h.dirty ||| (1#64 <<< (n % 32)) }

/-- Number of granted lanes (R8). -/
def Hart.lanes (h : Hart) : Nat := popcN 16 h.lmap.toNat

/-- VLMAX for element width w and group size g (R9), capped as R298 states. -/
def vlmaxOf (lanes w g cap : Nat) : Nat :=
  let a := min (256 * lanes / w * g) (256 * lanes)
  if cap == 0 then a else min a cap

/-- OR flags into `vxflags` (R24). -/
def Hart.raise (h : Hart) (fl : Nat) : Hart := { h with vxflags := h.vxflags ||| BitVec.ofNat 64 fl }

/-- Whether one of the flags has its trap enable set (R24). -/
def Hart.trapsOn (h : Hart) (fl : Nat) : Bool := fl &&& (h.vxsel.toNat / 2 ^ 16) % 128 != 0

/-! ## Lane threads (R116 to R120) -/

/-- The thread whose turn it is. -/
def LaneState.thread (l : LaneState) : LaneThread := l.threads.getD l.turn { index := 0, pc := 0, run := .retired }

/-- The address of the next instruction: the thread's in lane mode (R120), else the hart's. -/
def Hart.ip (h : Hart) : Word := match h.lane with
  | some l => l.thread.pc
  | none => h.pc

/-- Bits [32i + 31 : 32i] of vk (R117). -/
def Hart.re (h : Hart) (i : Nat) (r : Reg) : BitVec 32 := if r = 0#5 then 0 else (h.rv r.toNat).extractLsb' (32 * i) 32

/-- Replace bits [32i + 31 : 32i] of a register. -/
def setSlot (x : BitVec 4096) (i : Nat) (y : BitVec 32) : BitVec 4096 :=
  (x &&& ~~~(BitVec.ofNat 4096 0xFFFFFFFF <<< (32 * i))) ||| (y.setWidth 4096 <<< (32 * i))

def Hart.we (h : Hart) (i : Nat) (r : Reg) (y : BitVec 32) : Hart :=
  if r = 0#5 then h else h.wv r.toNat (setSlot (h.rv r.toNat) i y)

/-! ## Where an address goes (R242, R248, R249, R254, R361) -/

/-- What may happen to an access before it is performed: the cause of R31 and the state (TLBs, A and D bits). -/
inductive Reach where
  | ok (key : Nat)
  | bad (cause : Nat)
  deriving DecidableEq, Repr

inductive AKind where
  | read | write | fetch
  deriving DecidableEq, Repr

/-- Where a physical address lies (R248, R254, R361). -/
inductive Target where
  | hbm (off : Nat)
  | host | tier
  | remote (dev off : Nat)
  | hole
  deriving DecidableEq, Repr

def scratchKey (cl off : Nat) : Nat := 2 ^ 52 + 2 ^ 21 * cl + off

/-- The host of a host-physical address can no longer be reached (R354). -/
def State.hostGone (s : State) (pa : Nat) : Bool :=
  if s.hub.hostLost.toList.all (fun b => !b) then false
  else if s.hub.hostLost.toList.all (fun b => b) then true
  else s.hub.hostLost.toList.getD (Config.hostPort pa % 2) false

/-- Classify a physical address. -/
def State.target (s : State) (pa : Nat) : Target :=
  if pa / 2 ^ 51 % 2 == 1 then
    let dev := pa / 2 ^ 42 % 512
    let off := pa % 2 ^ 42
    if off ≥ Config.hbmBytes then .hole else if dev == s.hub.device then .hbm off else .remote dev off
  else
    let base := s.hub.hdmBase.toNat
    if s.hub.hdmOk && base ≤ pa && pa < base + 2 ^ 40 then
      (if pa - base < Config.hbmBytes then .hbm (pa - base) else .hole)
    else if s.hub.tierBase ≤ pa && pa < s.hub.tierBase + s.hub.tierSize then .tier
    else if s.hostGone pa then .hole
    else .host

/-- The device's own HBM in the domain aperture (R361). -/
def State.hbmKey (s : State) (off : Nat) : Nat := 2 ^ 51 + 2 ^ 42 * s.hub.device + off

/-- The key under which memory holds a physical address: HBM stands under its place in the device's own aperture, wherever the
decoders put it (R248, R361). -/
def State.paKey (s : State) (pa : Nat) : Nat :=
  match s.target pa with
  | .hbm off => s.hbmKey off
  | _ => pa

/-- Channel of an HBM offset, 0 to 383 (R248, R215). -/
def channelOf (off : Nat) : Nat := off / 2 ^ 36 * 32 + off / 256 % 32

/-- The 64 bits a byte lies in. -/
def granule (key : Nat) : Nat := key / 8

/-- The 64-bit words that fail with a byte where its data are: HBM is checked by 32 bytes, the scratchpad, and a line while an L2 slice
holds it, by 8 (R261). -/
def failing (slice : Bool) (key : Nat) : List Nat :=
  if !slice && 2 ^ 51 ≤ key && key < 2 ^ 52 then (List.range 4).map (fun k => key / 32 * 4 + k) else [granule key]

/-- A byte's data fail their check (R262). -/
def State.poisoned (s : State) (key : Nat) : Bool := s.poison.contains (granule key)

/-- The data that are checked with a byte's fail their check from now on: where they are stored, or in the L2 slice that holds the line. -/
def State.failData (s : State) (slice : Bool) (key : Nat) : State :=
  { s with poison := (failing slice key).filter (fun g => !s.poison.contains g) ++ s.poison }

/-- One of `n` bytes from `key` fails its check: the lowest. -/
def State.poisonIn (s : State) (key : Nat) : Nat → Bool
  | 0 => false
  | n + 1 => s.poisoned key || s.poisonIn (key + 1) n

/-- Storage segments of a ready stream (R197, R265): 256 bytes from each listed address. -/
def State.instarHit (s : State) (key : Nat) : Bool :=
  s.instars.any (fun i => i.segs.any (fun p => p ≤ key && key < p + 256))

/-- A running kernel of another unit holds the segment of `key` in its window (R250, R281). -/
def State.heldSegment (s : State) (key : Nat) : Bool :=
  s.nmus.any (fun p => s.unit != .nmu p.1 && (match p.2.run with | some r => r.window.contains (key / 256 * 256) | none => false))

/-- Key of the reserved area of a channel, where its row-segment registers go at power-down (R253). -/
def reservedKey (ch : Nat) : Nat := 2 ^ 53 + 4096 * ch

/-- End the low-power state of a channel: its kernel's row-segment registers are restored; when they fail their check the
kernel is left with no word to execute, which faults it (R253, R279). -/
def State.wakeChannel (s : State) (ch : Nat) : State :=
  let n := s.nmu ch
  if n.power != .down then s else
  let bad := s.poisonIn (reservedKey ch) 4096
  let run := match n.run, n.saved with
    | some r, some v => some (if bad then { r with code := [], primed := true, wait := none } else { r with v := v })
    | r, _ => r
  s.setNmu ch { n with power := .up, run := run, saved := none }

/-- End the low-power state of the channel a key lies in. -/
def State.wakeKey (s : State) (key : Nat) : State :=
  match s.target key with
  | .hbm off => s.wakeChannel (channelOf off)
  | _ => s

/-- End the low-power state of the channels that some keys lie in. -/
def State.wakeKeys (s : State) (ks : List Nat) : State := ks.foldl (fun s k => s.wakeKey k) s

/-- Note that the instruction being executed must wait; the first reason stands. -/
def State.block (s : State) (w : Wait) : State := { s with blocked := s.blocked.or (some w) }

/-- Give the lowest working port with room for another message its sequence number (R362). -/
def sendOn (n : Nat) : List FabricPort → Option (List FabricPort)
  | [] => none
  | p :: t => if p.working && p.unacked.length < 32 then some ({ p with unacked := p.unacked ++ [n] } :: t) else (sendOn n t).map (fun r => p :: r)

/-- Since when the current hart has waited for an answer from an address (R361). -/
def State.askedSince (s : State) (a : Word) : Nat := match s.cur.asked with
  | some (b, t) => if b == a then t else s.time
  | none => s.time

/-- Send the message of an access to the memory of a device; with no port to send it on, or no response, the access waits (R361,
R362). -/
def State.sendRemote (s : State) (dev : Nat) (a : Word) : State :=
  match sendOn s.hub.sent s.hub.fabric.toList with
  | some ps =>
    let s := s.setHub { s.hub with sent := s.hub.sent + 1, fabric := Vector.ofFn (fun k => ps.getD k.val s.hub.fabric[k]) }
    if s.hub.silent.contains dev then s.block (.remote a (s.askedSince a)) else s
  | none => s.block (.remote a (s.askedSince a))

/-- An access reaches a key: it ends the low-power state of its channel (R253), and one that met a held segment is noted: it
is performed after the hold is released. -/
def State.touch (s : State) (key : Nat) : State :=
  let s := s.wakeKey key
  if s.heldSegment key then s.block .hold else s

/-! ### Ordering points (R220, R221, R247) -/

/-- The number of a location's home: the scratchpad of a cluster, the L2 slice of the die that owns the stack, the hosts' home,
the second tier's, a remote device's. -/
def State.homeNo (s : State) (key : Nat) : Nat :=
  if key ≥ 2 ^ 52 then 2 ^ 20 + (key - 2 ^ 52) / 2 ^ 21 else
  match s.target key with
  | .hbm off => off / 2 ^ 36 / 3 * 32 + (off / 2 ^ 11 % 32 ^^^ off / 2 ^ 6 % 32)
  | .remote dev _ => 2048 + dev
  | .tier => 1025
  | _ => 1024

/-- Bytes a queued access touches: the first byte of each. -/
def PAct.keys : PAct → List Nat
  | .write bs => bs.map (fun b => b.key)
  | .rmw _ key _ => [key]

/-- The ordering point that an access must pass to be performed for the agents within a scope (R221); 4 is the home. -/
def scopeLevel (scope : BitVec 3) : Nat := min scope.toNat 4

/-- An agent of cluster `cl` lies within the scope of the last ordering point a write has passed. -/
def Posted.within (p : Posted) (cl : Nat) : Bool := match p.level with
  | 1 => p.cl == cl
  | 2 => clusterDie p.cl == clusterDie cl
  | _ => true

/-- A write on its way to the home of `key` comes before an access of an agent of cluster `cl`.  Of two posted writes in the hub's port
queue the host home may perform either first: an access to another line does not wait for one (R221, R240). -/
def State.behind (s : State) (cl key : Nat) : Bool :=
  s.net.any (fun p => p.home == s.homeNo key && p.within cl && (p.level < 3 || p.act.keys.any (fun k => k / 64 == key / 64)))

/-- A write on its way belongs to a stream: of a hart, or of an engine command (R218). -/
def Posted.of (p : Posted) (owner : Nat) (st : Option Stream) (token : Word) : Bool := p.owner == owner && p.stream == st && p.token == token

/-- An earlier write of a stream has not yet been performed for every agent of the module: a later one of the stream is not performed
before it (R218, R221, R225). -/
def State.streamBehind (s : State) (owner : Nat) (st : Option Stream) (token : Word) : Bool :=
  s.net.any (fun p => p.of owner st token && p.level < 3)

/-- Note an access of the current hart that comes after a write on its way. -/
def State.touchNet (s : State) (key : Nat) : State := if s.behind (clusterOf s.cur.place) key then s.block .hold else s

def State.touchNets (s : State) (ks : List Nat) : State := if ks.any (s.behind (clusterOf s.cur.place)) then s.block .hold else s

/-- A write on its way belongs to the current hart, to a stream of `sel`, or to its engine commands. -/
def State.owns (s : State) (engines : Bool) (sel : Stream → Bool) (p : Posted) : Bool :=
  p.owner == s.cur.place && (match p.stream with | some st => sel st | none => engines)

/-- Wait until the current hart's writes on their way have passed an ordering point (R221). -/
def State.awaitNet (s : State) (level : Nat) (engines : Bool) (sel : Stream → Bool) : State :=
  if s.net.any (fun p => p.level < level && s.owns engines sel p) then s.block .hold else s

/-- Lines of host memory that a list of keys touches. -/
def State.hostLines (s : State) (ks : List Nat) : List Nat :=
  ((ks.filter (fun k => k < 2 ^ 52 && s.target k == .host)).map (fun k => k / 64 * 64)).eraseDups

/-- A slice takes lines of host memory exclusive before it changes them (R221, R359). -/
def State.takeLines (s : State) (ks : List Nat) : State :=
  let new := (s.hostLines ks).filter (fun l => !(s.hub.dirty).any (fun d => d.1 == l))
  s.setHub { s.hub with dirty := s.hub.dirty ++ new.map (fun l => (l, Memory.getList s.mem l 64)) }

/-- An access at a virtual address that has been translated to a physical one reaches its home. -/
def State.touchAt (s : State) (a : Word) (pa : Nat) : State :=
  match s.target pa with
  | .remote dev _ => s.sendRemote dev a
  | _ => s.touch (s.paKey pa)

/-- The hart waits; the time since which it has had no answer stays noted (R361). -/
def Hart.waitOn (h : Hart) (x : Wait) : Hart :=
  { h with status := .waiting x, asked := match x with | .remote a t => some (a, t) | _ => h.asked }

/-- A hart that waits for a held segment issues again. -/
def Hart.releaseHold (h : Hart) : Hart := if h.status == .waiting .hold then { h with status := .running } else h

/-- A waiting hart issues again when one of its commands ends. -/
def Hart.commandEnded (owner : Nat) (h : Hart) : Hart :=
  if h.place == owner && (h.status == .waiting .commands || h.status == .waiting .hold) then { h with status := .running } else h

/-- A window has been released (R281). -/
def State.releaseHolds (s : State) : State := s.mapHarts Hart.releaseHold

def State.touchAll (s : State) : List Nat → State
  | [] => s
  | k :: t => (s.touch k).touchAll t

/-- The engine or bank command of a token; the range-checker entry of a near-memory unit's command has a token of that unit (R214,
R215). -/
def Cmd.is (c : Cmd) (token : Word) : Bool := c.engine != .nmuOut && c.token == token

/-- Whether two half-open ranges meet. -/
def rangesMeet (a b : Nat × Nat) : Bool := a.1 < b.2 && b.1 < a.2

/-- A bank command of the current hart that is still to be performed writes to [off, off + n) of the local window (R195). -/
def State.ownBank (s : State) (off n : Nat) : Bool :=
  (s.cluster (clusterOf s.cur.place)).pool.any (fun c => c.engine == .bank && c.owner == s.cur.place && c.writes.any (rangesMeet (off, off + n)))

/-- Note that an access that reads met a bank command of its own hart: it is performed after it.  R195 places no later store after a
bank command. -/
def State.touchBank (s : State) (off n : Nat) (reads : Bool) : State :=
  if reads && s.ownBank off n then s.block .hold else s

/-- Completions of a context are kept unseen: it is stopped (R342). -/
def State.ctxStopped (s : State) (ctx : Word) : Bool :=
  ctx != 0 && (s.hub.debug).any (fun p => p.2.ctx == ctx && p.2.stopped)

/-! ## Translation (R255 to R259) -/

/-- Bits [63:57] of an address equal bit [56] (R109 step 2). -/
def canonical (a : Word) : Bool := a.toNat / 2 ^ 56 == 0 || a.toNat / 2 ^ 56 == 255

def inLocal (a : Word) : Bool := Config.localBase ≤ a.toNat && a.toNat < Config.localBase + Config.scratchBytes
def inReserved (a : Word) : Bool := Config.localBase + Config.scratchBytes ≤ a.toNat && a.toNat ≤ Config.reservedTop
def localOff (a : Word) : Nat := a.toNat - Config.localBase

inductive Walk where
  | leaf (entryKey bits frame : Nat) (x w d : Bool)
  | fault
  | access
  deriving DecidableEq, Repr

/-- An eight-byte entry at a physical address; none when it cannot be read. -/
def State.readEntry (s : State) (pa : Nat) : Option Nat :=
  match s.target pa with
  | .hole => none
  | _ => if s.poisonIn (s.paKey pa) 8 then none else some (leNat (Memory.getList s.mem (s.paKey pa) 8))

/-- One table entry of the walk of R257, at `level` in the table at `t`: what the walk ends with, or the address of the next table. -/
def State.walkEntry (s : State) (a : Nat) (kind : AKind) (level t : Nat) : Sum Walk Nat :=
  let pa := t + 8 * (a / 2 ^ (12 + 9 * level) % 512)
  match s.readEntry pa with
  | none => .inl .access
  | some e =>
    let leaf := bitN e 1
    let bits := 12 + 9 * level
    let frame := e / 2 ^ 12 % 2 ^ 40
    if !bitN e 0 then .inl .fault
    else if bitN e 7 || e / 2 ^ 52 % 256 != 0 || (!leaf && e / 4 % 32 != 0) || (leaf && level ≥ 3) || (!leaf && level == 0)
        || (leaf && frame % 2 ^ (9 * level) != 0) then .inl .access
    else if leaf then
      (if !bitN e 4 || (kind == .write && !bitN e 2) || (kind == .fetch && !bitN e 3) then .inl .fault
       else .inl (.leaf (s.paKey pa) bits frame (bitN e 3) (bitN e 2) (bitN e 6)))
    else .inr (frame * 4096)

/-- The walk of R257 from `level` down, on the table at `t`. -/
def State.walkFrom (s : State) (a : Nat) (kind : AKind) : (level : Nat) → (t : Nat) → Walk
  | 0, t => match s.walkEntry a kind 0 t with
    | .inl w => w
    | .inr _ => .access
  | level + 1, t => match s.walkEntry a kind (level + 1) t with
    | .inl w => w
    | .inr t => s.walkFrom a kind level t

/-- The root table that `sptb` names, and its level; none where the layout refuses the address (R255). -/
def rootTable (sptb a : Word) : Option (Nat × Nat) :=
  let root := sptb.toNat / 4096 % 2 ^ 45 * 4096
  match sptb.toNat % 4 with
  | 0 =>
    let top := a.toNat / 2 ^ 47 % 2 ^ 10
    if top == 0 || top == 1023 then some (3, root) else none
  | 1 => some (4, root)
  | _ => none

/-- The walk from the root that `sptb` names (R255, R257). -/
def State.walk (s : State) (sptb a : Word) (kind : AKind) : Walk :=
  match rootTable sptb a with
  | some (level, t) => s.walkFrom a.toNat kind level t
  | none => .access

/-- The tables a walk passes from `level` down: their levels, their addresses, and the keys of the entries it reads. -/
def State.trailFrom (s : State) (a : Nat) (kind : AKind) : (level : Nat) → (t : Nat) → List (Nat × Nat × Nat)
  | 0, t => [(0, t, s.paKey (t + 8 * (a / 2 ^ 12 % 512)))]
  | level + 1, t =>
    (level + 1, t, s.paKey (t + 8 * (a / 2 ^ (21 + 9 * level) % 512))) ::
      (match s.walkEntry a kind (level + 1) t with
       | .inl _ => []
       | .inr t => s.trailFrom a kind level t)

/-- The tables and entries of a walk from the root. -/
def State.trail (s : State) (sptb a : Word) (kind : AKind) : List (Nat × Nat × Nat) :=
  match rootTable sptb a with
  | some (level, t) => s.trailFrom a.toNat kind level t
  | none => []

/-- Where the walker of a die begins: at the lowest table that an entry it holds names, else at the root (R259). -/
def State.walkStart (s : State) (die : Nat) (ctx a : Word) (level t : Nat) : Nat × Nat :=
  ((List.range level).findSome? (fun k =>
    (s.walks.find? (fun e => e.die == die && e.ctx == ctx && e.level == k && e.top == a.toNat / 2 ^ (21 + 9 * k))).map (fun e => (k, e.table)))).getD
    (level, t)

/-- The walk of a die's walker, from where it begins, with the tables and entries it passes. -/
def State.walkBy (s : State) (die : Nat) (ctx sptb a : Word) (kind : AKind) : Walk × List (Nat × Nat × Nat) :=
  match rootTable sptb a with
  | some (level, t) =>
    let (level, t) := s.walkStart die ctx a level t
    (s.walkFrom a.toNat kind level t, s.trailFrom a.toNat kind level t)
  | none => (.access, [])

/-- The walker of a die holds the entries that name the tables it passed (R259). -/
def State.holdTables (s : State) (die : Nat) (ctx a : Word) (tr : List (Nat × Nat × Nat)) : State :=
  let new := tr.tail.map (fun x => ({ die := die, ctx := ctx, level := x.1, top := a.toNat / 2 ^ (21 + 9 * x.1), table := x.2.1 } : NonLeaf))
  { s with walks := new ++ s.walks.filter (fun e => !new.contains e) }

/-- The TLB entry of a die that covers an address for an access (R259). -/
def findTlb (die : Nat) (ctx : Word) (a : Nat) (kind : AKind) : List TlbEntry → Option TlbEntry
  | [] => none
  | e :: t =>
    if e.die == die && e.ctx == ctx && e.page == a / 2 ^ e.bits
        && (match kind with | .read => true | .write => e.w && e.d | .fetch => e.x) then some e
    else findTlb die ctx a kind t

/-- Set A, and D for a write, in the leaf: an atomic OR at SYS scope, which takes a line of host memory exclusive (R258, R359). -/
def State.markLeaf (s : State) (key : Nat) (kind : AKind) : State :=
  let s := s.takeLines [key]
  let b := Memory.get s.mem key
  { s with mem := Memory.set s.mem key (b ||| (if kind == .write then 0x60#8 else 0x20#8)) }

/-- Keep the first `n` entries of a TLB. -/
def keepTlb (tlb : Nat) : (n : Nat) → List TlbEntry → List TlbEntry
  | _, [] => []
  | n, e :: t => if e.die != tlb then e :: keepTlb tlb n t else match n with
    | 0 => keepTlb tlb 0 t
    | n + 1 => e :: keepTlb tlb n t

/-- Put an entry into its TLB, which holds `n`; the oldest gives way (R259). -/
def State.fillTlb (s : State) (n : Nat) (e : TlbEntry) : State := { s with tlb := keepTlb e.die n (e :: s.tlb) }

/-- An access reaches the entries its walk reads (R247, R250, R253). -/
def State.touchTrail (s : State) (tr : List (Nat × Nat × Nat)) : State := s.touchAll (tr.map (fun x => x.2.2))

/-- Translate an address of row 3 of R242 to the physical address, through the last-level TLB of the die and its walker (R257 to
R259). -/
def State.xlate (s : State) (die : Nat) (ctx sptb a : Word) (kind : AKind) : Reach × State :=
  match findTlb die ctx a.toNat kind s.tlb with
  | some e => (.ok (e.frame * 4096 + a.toNat % 2 ^ e.bits), s)
  | none =>
    let w := s.walkBy die ctx sptb a kind
    let s := (s.touchTrail w.2).holdTables die ctx a w.2
    match w.1 with
    | .fault => (.bad 5, s)
    | .access => (.bad 6, s)
    | .leaf key bits frame x w d =>
      let e : TlbEntry :=
        { die := die, ctx := ctx, bits := bits, page := a.toNat / 2 ^ bits, frame := frame, x := x, w := w, d := d || kind == .write }
      (.ok (frame * 4096 + a.toNat % 2 ^ bits), (s.markLeaf key kind).fillTlb 4096 e)

/-- The lowest lane a hart holds. -/
def Hart.lowLane (h : Hart) : Nat := ((List.range 16).find? (fun k => h.lmap.getLsbD k)).getD 0

/-- The bank of a physical lane in the micro-TLB of a hart's core (R259). -/
def microTlb (place lane : Nat) : Nat := 4 + place / 2 * 16 + lane

/-- Translate an address of the current hart, through a bank of its core's micro-TLB (R259). -/
def State.xlateHart (s : State) (lane : Nat) (a : Word) (kind : AKind) : Reach × State :=
  let bank := microTlb s.cur.place lane
  let die := dieOf s.cur.place
  match findTlb bank s.cur.sctx a.toNat kind s.tlb with
  | some e => (.ok (e.frame * 4096 + a.toNat % 2 ^ e.bits), s)
  | none =>
    let (r, t) := s.xlate die s.cur.sctx s.cur.sptb a kind
    (r, match findTlb die s.cur.sctx a.toNat kind t.tlb with
        | some e => t.fillTlb 16 { e with die := bank }
        | none => t)

/-- Translate an address for a unit other than a hart; none while an entry that its walk reads lies in a held segment (R250). -/
def State.xlateUnit (s : State) (die : Nat) (ctx sptb a : Word) (kind : AKind) : Option Reach × State :=
  let (r, t) := ({ s with blocked := none } : State).xlate die ctx sptb a kind
  if t.blocked.isSome then (none, s) else (some r, { t with blocked := s.blocked })

/-- The bytes [off, off + n) of the local window all lie in regions of the hart (R243). -/
def inRegions (rs : List LRegion) (off : Nat) : Nat → Bool
  | 0 => true
  | n + 1 => rs.any (fun r => r.off ≤ off && off < r.off + r.size) && inRegions rs (off + 1) n

/-- What an access needs of its target besides a translation (R249): plain, an AMO, or a chained operation. -/
inductive ANeed where
  | plain | amo | chain
  deriving DecidableEq, Repr

def targetOk (need : ANeed) : Target → Bool
  | .hole => false
  | .hbm _ => true
  | .host => need != .chain
  | .remote _ _ => need != .chain
  | .tier => need == .plain

/-- Decode and translate one access of the current hart, `n` bytes at `a` that cross no page (R109 steps 2 and 3, R156,
R242, R243, R197, R249); a hart's access through the micro-TLB bank of a lane, the lowest it holds where none is given (R259). -/
def State.reach (s : State) (a : Word) (n : Nat) (kind : AKind) (need : ANeed) (lane : Option Nat := none) : Reach × State :=
  if !canonical a then (.bad 6, s)
  else if inLocal a then
    (if inRegions s.cur.local_ (localOff a) n then
       (.ok (scratchKey (clusterOf s.cur.place) (localOff a)), s.touchBank (localOff a) n (kind != .write || need == .amo))
     else (.bad 6, s))
  else if inReserved a then (.bad 6, s)
  else
    match s.xlateHart (lane.getD s.cur.lowLane) a kind with
    | (.bad c, s) => (.bad c, s)
    | (.ok pa, s) =>
      if targetOk need (s.target pa) && !s.instarHit (s.paKey pa) && s.cur.noAnswer != some a then (.ok (s.paKey pa), (s.touchAt a pa).touchNet (s.paKey pa))
      else (.bad 6, s)

/-! ## Ports (R347 to R351; log 9) -/

inductive WKind where
  | read | write | atomic
  deriving DecidableEq, Repr

def field (x pos len : Nat) : Nat := x % 2 ^ len * 2 ^ pos

def noElem : Nat := 0x1FFF

/-- The key of a context's cocoon, when it has one (R312, R352). -/
def State.sealKey (s : State) (ctx : Word) : Option Config.XtsKey :=
  match s.context ctx with
  | some c => if c.cocoon == 0 then none else (s.hub.cocoons.find? (fun k => k.id == c.cocoon)).map (fun k => k.key)
  | none => none

/-- The debug block that serves a context (R336). -/
def State.blockOf (s : State) (ctx : Word) : Option (Nat × DebugBlock) :=
  if ctx == 0 then none else (s.hub.debug).find? (fun p => p.2.ctx == ctx)

/-- The block that records a launch: its record asks for it, and a block serves its context. -/
def State.recorder (s : State) (launch : Option (Nat × Nat)) : Option (Nat × DebugBlock) :=
  match launch with
  | none => none
  | some (q, n) =>
    match s.hub.launches.find? (fun l => l.queue == q && l.seq == n) with
    | some l => if l.lr.record then s.blockOf l.ctx else none
    | none => none

/-- The kind word of an entry of the i-th recorded launch. -/
def jWord (i kind : Nat) : Word := BitVec.ofNat 64 (kind + 256 * i)

def jWrite : Nat := 13
/-- The arrival of a message at a port. -/
def jPort : Nat := 14

/-- The number of a recorded launch among those of its recording (R350). -/
def DebugBlock.number (d : DebugBlock) (launch : Option (Nat × Nat)) : Nat := d.recs.findIdx (fun l => some l == launch)

/-- Under which number block n keeps a port's record of its i-th recorded launch. -/
def portKey (port n i : Nat) : Nat := port % 2 ^ 16 + 2 ^ 16 * (n + 64 * i)

/-- The header record of a message. -/
def headerBytes (m : Message) : List Byte :=
  leBytes 2 m.agent.toNat ++ [m.kind, m.sizeLog] ++ leBytes 4 m.stream.toNat ++ leBytes 8 m.addr.toNat ++
  leBytes 8 (if m.payload.isEmpty then 0 else (crc64 m.payload).toNat) ++ leBytes 8 m.seq.toNat

/-- D_n from D_{n−1} and H_n. -/
def nextDigest (d : BitVec 128) (hdr : List Byte) : BitVec 128 := (sha384 (beBytes 16 d.toNat ++ hdr)).extractLsb' 256 128

/-- Atomic operations on one location by a chained store, RNE and no flag (R160). -/
def rmwApply (op : Rmw) (old x : Nat) : Nat :=
  match op with
  | .addF => (faddF fp32 0 old x).1
  | .maxF => (minMaxNum fp32 true old x).1
  | .minF => (minMaxNum fp32 false old x).1
  | .addI => (old + x) % 2 ^ 32
  | .addBf => (faddF bf16 0 old x).1

def rmwWidth : Rmw → Nat
  | .addBf => 2
  | _ => 4

/-- What an AMO leaves in memory, none when it performs no write (R110): at width w, of the old value, the operand and the
value the destination held. -/
def amoNew (op w old x d : Nat) : Option Nat :=
  match op with
  | 0 => some ((old + x) % 2 ^ w)
  | 1 => some (old &&& x)
  | 2 => some (old ||| x)
  | 3 => some (old ^^^ x)
  | 4 => some (if sintN w x < sintN w old then x else old)
  | 5 => some (if sintN w old < sintN w x then x else old)
  | 6 => some (if x < old then x else old)
  | 7 => some (if old < x then x else old)
  | 8 => some x
  | 9 => if old == d then some x else none
  | _ => some (faddF fp32 0 old x).1

/-- The agent identifier of a hart (R345). -/
def hartAgent (place : Nat) : Nat :=
  dieOf place * 2 ^ 10 + place / 16 % 56 * 16 + place % 16

/-- The home of a virtual address of the current hart outside its window, by the translation that its access through a lane's bank has
used. -/
def State.homeOf (s : State) (a : Word) (lane : Nat) : Option Nat :=
  match (findTlb (microTlb s.cur.place lane) s.cur.sctx a.toNat .read s.tlb).or (findTlb (dieOf s.cur.place) s.cur.sctx a.toNat .read s.tlb) with
  | some e => some (s.paKey (e.frame * 4096 + a.toNat % 2 ^ e.bits))
  | none => match s.walk s.cur.sptb a .read with
    | .leaf _ bits frame _ _ _ => some (s.paKey (frame * 4096 + a.toNat % 2 ^ bits))
    | _ => none

/-- Launches of a context that a debug block serves are recorded or replayed. -/
def State.observing (s : State) : Bool := (s.hub.debug).any (fun p => p.2.ctx != 0 && !p.2.recs.isEmpty)

/-- Sorts of accesses: a read, a write, AMO number `op` of R110, a chained store (R160), a chained load, a pyramid request. -/
def sortRead : Nat := 0
def sortWrite : Nat := 1
def sortAmo (op : Nat) : Nat := 2 + op
def sortRmw : Rmw → Nat
  | .addF => 16
  | .maxF => 17
  | .minF => 18
  | .addI => 19
  | .addBf => 20
def sortChain (chain : Nat) : Nat := 24 + chain
def sortPyramid (fn : Nat) : Nat := 40 + fn

/-- What a foreign write of a sort makes of `old`, the bytes it addresses; none for a sort that writes nothing. -/
def sortEffect (sort : Nat) (old pay : List Byte) : Option (List Byte) :=
  if sort == sortWrite then some pay
  else if 2 ≤ sort && sort ≤ 12 then
    let n := if sort == sortAmo 9 then pay.length / 2 else pay.length
    (amoNew (sort - 2) (8 * n) (leNat (old.take n)) (leNat (pay.take n)) (leNat (pay.drop n))).map (leBytes n)
  else ([Rmw.addF, Rmw.maxF, Rmw.minF, Rmw.addI, Rmw.addBf].find? (fun op => sortRmw op == sort)).map (fun op =>
    leBytes (rmwWidth op) (rmwApply op (leNat (old.take (rmwWidth op))) (leNat pay)))

/-- What a foreign write of a kind makes of the bytes it addresses. -/
def kindEffect (kind : Byte) (old pay : List Byte) : List Byte :=
  match (List.range 21).find? (fun k => Config.messageKind k == kind) with
  | some k => (sortEffect k old pay).getD (old.take 0)
  | none => Config.messageEffect kind old pay

/-- The port at the home of a location: a scratchpad's ingress, the L2 slice, or the hub. -/
def State.homePort (s : State) (key : Nat) : Nat :=
  let n := s.homeNo key
  if n ≥ 2 ^ 20 then clusterDie (n - 2 ^ 20) * 2 ^ 10 + (n - 2 ^ 20) % 56 * 16
  else if n < 128 then 2 ^ 12 + n / 32 * 2 ^ 10 + n % 32
  else 4 * 2 ^ 12

/-- The port of an HBM channel. -/
def channelPort (ch : Nat) : Nat := 2 * 2 ^ 12 + ch

/-- A divergence at a port (R351): its record of kind 9, which the end of the cycle writes. -/
def State.diverge (s : State) (n i port agent at_ : Nat) (d : BitVec 128) : State :=
  let r : List Word :=
    [ BitVec.ofNat 64 (field 9 56 8 + field agent 32 16), BitVec.ofNat 64 port, BitVec.ofNat 64 at_, BitVec.ofNat 64 (field noElem 32 13),
      d.setWidth 64, (d >>> 64).setWidth 64, s.timeWord, 0 ]
  s.setPort (portKey port n i) { s.port (portKey port n i) with split := some r }

/-- Count a message at a port, which has given the launch access to its page, and journal its place when it is recorded (R347, R348). -/
def State.countMessage (s : State) (key i port : Nat) (record : Bool) (m : Message) : State :=
  let p := s.port key
  let hdr := headerBytes m
  s.setPort key { p with count := p.count + 1, digest := nextDigest p.digest hdr, lastAt := s.sevenths, seen := p.seen ++ [hdr], expect := p.expect.tail,
                         pages := (m.addr.toNat / 4096 :: p.pages).eraseDups, talk := put p.talk m.agent.toNat (look 0 p.talk m.agent.toNat + 1),
                         fresh := if record then p.fresh ++ [[jWord i jPort, BitVec.ofNat 64 port] ++ hdr.map (fun b => b.setWidth 64)] else p.fresh }

/-- The entry of a foreign write: the port, its place in the port's order, and what it does (R348). -/
def writeEntry (port i at_ : Nat) (m : Message) : List Word :=
  [jWord i jWrite, BitVec.ofNat 64 port, BitVec.ofNat 64 at_, m.kind.setWidth 64, m.addr] ++ m.payload.map (fun b => b.setWidth 64)

/-- Journal a write of another agent, at a port through which recorded launches that still run have accessed its page (R348). -/
def State.noteForeign (s : State) (port : Nat) (launch : Option (Nat × Nat)) (m : Message) : State :=
  if m.payload.isEmpty then s else
  (s.hub.debug).foldl (fun (s : State) (b : Nat × DebugBlock) =>
    if b.2.ctx == 0 || b.2.mode == 1 then s else
    (List.range b.2.recs.length).foldl (fun (s : State) i =>
      let p := s.port (portKey port b.1 i)
      if b.2.recs[i]? != launch && (s.recorder b.2.recs[i]?).isSome && p.pages.contains (m.addr.toNat / 4096)
        then s.setPort (portKey port b.1 i) { p with fresh := p.fresh ++ [writeEntry port i p.count m] }
        else s) s) s

/-- A journalled foreign write stands at a place of a port's order (R350). -/
def writeAt (port i at_ : Nat) (e : List Word) : Bool := e.take 3 == [jWord i jWrite, BitVec.ofNat 64 port, BitVec.ofNat 64 at_]

/-- A message of a launch, or of none, reaches a port (R347, R348, R350): one of a recorded launch is counted and its place journalled,
and to the other recordings a write is a foreign one.  In a replay one that arrives early is held, which is `none`, and so is every one
while a foreign write stands before it; one that is not expected diverges (R351). -/
def State.acceptMessage (s : State) (port : Nat) (launch : Option (Nat × Nat)) (msg : Message) : Option State :=
  let s := s.noteForeign port launch msg
  match s.recorder launch with
  | none => some s
  | some (n, b) =>
    let i := b.number launch
    let key := portKey port n i
    let hdr := headerBytes msg
    let p := s.port key
    let counted := s.countMessage key i port (b.mode != 1) msg
    if b.mode != 1 then some counted
    else if b.journal.any (writeAt port i p.count) then none
    else match p.expect with
      | [] => some counted
      | x :: t =>
        if x == hdr then some counted
        else if t.contains hdr then none
        else some (s.diverge n i port msg.agent.toNat (p.count + 1) (nextDigest p.digest x))

/-- The message of an access of an agent to `n` bytes from an address. -/
def State.messageOf (s : State) (port : Nat) (launch : Option (Nat × Nat)) (agent sort addr n : Nat) (pay : List Byte) : Message :=
  let seq := match s.recorder launch with
    | some (b, d) => look 0 (s.port (portKey port b (d.number launch))).talk agent
    | none => 0
  { queue := (launch.getD (0, 0)).1, launch := (launch.getD (0, 0)).2, agent := BitVec.ofNat 16 agent, kind := Config.messageKind sort,
    sizeLog := BitVec.ofNat 8 n.log2, stream := Config.messageStream agent sort, addr := BitVec.ofNat 64 addr, seq := BitVec.ofNat 64 seq,
    payload := pay }

/-- An access reaches a port; one that a replay holds must wait. -/
def State.tell (s : State) (port : Nat) (launch : Option (Nat × Nat)) (agent sort addr n : Nat) (pay : List Byte) : State :=
  if !s.observing then s else
  match s.acceptMessage port launch (s.messageOf port launch agent sort addr n pay) with
  | some t => t
  | none => s.block .hold

/-- The key of a virtual address of the current hart. -/
def State.keyAt (s : State) (a : Word) (lane : Nat) : Option Nat :=
  if inLocal a then some (scratchKey (clusterOf s.cur.place) (localOff a)) else s.homeOf a lane

/-- An access of the current hart that is performed as it is issued reaches the port at its home. -/
def State.tellHart (s : State) (a : Word) (n : Nat) (lane : Option Nat) (sort : Nat) (pay : List Byte) : State :=
  if !s.observing then s else
  match s.keyAt a (lane.getD s.cur.lowLane) with
  | some key => s.tell (s.homePort key) s.cur.launch (hartAgent s.cur.place) sort key n pay
  | none => s

/-- What a part of the machine does for a launch; it is undone when a replay holds a message of it (R350). -/
def State.orHeld (s : State) (f : State → State) : State :=
  if !s.observing then f s else
  let t := f { s with blocked := none }
  if t.blocked.isSome then s else { t with blocked := s.blocked }

/-- The key under which a folded hart's commands stand in their pools. -/
def ownerKey (queue seq ord stage : Nat) : Nat := 2 ^ 20 + ((ord * 8 + stage) * 128 + queue) * 2 ^ 64 + seq

/-- The key of a hart; a hart of no launch keeps its place. -/
def Hart.key (h : Hart) : Nat := match h.launch with
  | some (q, n) => ownerKey q n h.ord h.stage.toNat
  | none => h.place

/-- The launch whose work an agent does for a hart, bound or folded. -/
def State.ownerLaunch (s : State) (owner : Nat) : Option (Nat × Nat) :=
  ((s.harts ++ s.frames.map (fun f => f.hart)).find? (fun h => h.place == owner || h.key == owner)).bind (fun h => h.launch)

/-! ## Watchpoints (R338) -/

def wkindBit : WKind → Nat
  | .read => 1
  | .write => 2
  | .atomic => 3

/-- Whether [a, a + n) touches a watched byte of a watchpoint: the lowest such address. -/
def watchHit (addr ctl : Word) (k : WKind) (a : Word) (n : Nat) : Option Word :=
  if !ctl.getLsbD 0 || !ctl.getLsbD (wkindBit k) then none else
  let base := addr.toNat
  (List.range 16).findSome? (fun j =>
    if ctl.getLsbD (4 + j) && a.toNat ≤ base + j && base + j < a.toNat + n then some (BitVec.ofNat 64 (base + j)) else none)

/-- The lowest watchpoint of a context's own block that an access at a virtual address matches; outside the local window a watchpoint
matches only while its comparator is installed. -/
def State.ownMatch (s : State) (ctx : Word) (k : WKind) (a : Word) (n : Nat) : Option (Nat × Word) :=
  match s.blockOf ctx with
  | none => none
  | some (_, d) => (List.range 4).findSome? (fun w =>
      let x := d.wpaddr.toList.getD w 0
      if !inLocal x && (d.comp.toList.getD w none).isNone then none
      else (watchHit x (d.wpctl.toList.getD w 0) k a n).map (fun y => (w, y)))

/-- A region or stack of the context that is bound on cluster `cl` covers an offset of its window. -/
def State.coversLocal (s : State) (cl : Nat) (ctx : Word) (off : Nat) : Bool :=
  (s.cluster cl).segs.any (fun x => x.seg == off / 4096 && x.ctx == ctx && x.holder.isSome)

/-- The comparator of a watched address outside the local window, through a context's tables: the key of its bytes. -/
def State.comparator (s : State) (ctx a : Word) : Option Nat :=
  match s.context ctx with
  | none => none
  | some c =>
    if inLocal a || !canonical a then none else
    match s.walk c.sptb a .read with
    | .leaf _ bits frame _ _ _ => some (s.paKey (frame * 4096 + a.toNat % 2 ^ bits))
    | _ => none

/-- Install the comparators of a block whose watched address satisfies `f`. -/
def State.install (s : State) (f : Word → Bool) (d : DebugBlock) : DebugBlock :=
  { d with comp := Vector.ofFn (fun w => if f d.wpaddr[w] then s.comparator d.ctx d.wpaddr[w] else d.comp[w]) }

/-- Whether a watchpoint of a context covers the bytes [key, key + n) at their home: by its comparator there, or in the window of cluster
`cl` where the context's own storage covers the watched address.  The lowest one, with the virtual address of the lowest byte. -/
def State.watchedKey (s : State) (d : DebugBlock) (cl : Option Nat) (k : WKind) (key n : Nat) : Option (Nat × Word) :=
  (List.range 4).findSome? (fun w =>
    let a := d.wpaddr.toList.getD w 0
    let base : Option Nat :=
      if inLocal a then (cl.filter (fun c => s.coversLocal c d.ctx (localOff a))).map (fun c => scratchKey c (localOff a))
      else d.comp.toList.getD w none
    match base with
    | none => none
    | some b =>
      (watchHit (BitVec.ofNat 64 b) (d.wpctl.toList.getD w 0) k (BitVec.ofNat 64 key) n).map
        (fun x => (w, a + (x - BitVec.ofNat 64 b))))

/-- The match of the lowest watchpoint, the lowest address first. -/
def lowestMatch : List (Nat × Word) → Option (Nat × Word)
  | [] => none
  | x :: t => match lowestMatch t with
    | some y => if y.1 < x.1 then some y else some x
    | none => some x

/-- The matches at the homes of an access, to ranges of bytes in ascending order, by the blocks that `f` admits (R338): in the window of
cluster `cl`, or outside. -/
def State.homeMatches (s : State) (f : DebugBlock → Bool) (cl : Option Nat) (k : WKind) (rs : List (Nat × Nat)) : List (Nat × Nat × Word) :=
  (s.hub.debug).filterMap (fun (p : Nat × DebugBlock) =>
    if p.2.ctx == 0 || !f p.2 then none
    else (lowestMatch (rs.filterMap (fun r => s.watchedKey p.2 cl k r.1 r.2))).map (fun x => (p.1, x.1, x.2)))

/-- What watches an access of a hart of a context (R338): its own block, in the probe pass or at commit; and for an access performed as it
is issued the blocks at its home, its own among them where it did not match before, as for an address that is another name of the
watched bytes.  None when nothing does, and no launch is recorded or replayed. -/
def State.watched (s : State) (ctx : Word) (k : WKind) (a : Word) (n : Nat) (lane : Option Nat := none) : Option (List (Option Nat × Nat × Word)) :=
  let own := s.ownMatch ctx k a n
  let home : List (Nat × Nat × Word) :=
    if k == .write || inLocal a || !(s.hub.debug).any (fun p => p.2.ctx != 0) then [] else
    match s.homeOf a (lane.getD s.cur.lowLane) with
    | some key => s.homeMatches (fun d => d.ctx != ctx || own.isNone) none k [(key, n)]
    | none => []
  match (own.map (fun x => (none, x.1, x.2))).toList ++ home.map (fun x => (some x.1, x.2.1, x.2.2)) with
  | [] => if s.observing then some [] else none
  | xs => some xs

/-- Note matches of the current hart for an element. -/
def Hart.note (h : Hart) (elem : Nat) (xs : List (Option Nat × Nat × Word)) : Hart :=
  { h with strikes := h.strikes ++ xs.map (fun x => { block := x.1, w := x.2.1, addr := x.2.2, elem := elem }) }

/-- Note the matches of an access of the current hart: its own hits, of which the lowest element comes first (R340), and the agent
hits at its home. -/
def State.noteStrike (s : State) (k : WKind) (a : Word) (n elem : Nat) (lane : Option Nat := none) : State :=
  match s.watched s.cur.sctx k a n lane with
  | none => s
  | some xs => { s with cur := s.cur.note elem xs }

/-- An access of the current hart that is performed as it is issued, of a sort and with a payload: it reaches the port at its home, and its
matches are noted. -/
def State.strike (s : State) (k : WKind) (a : Word) (n elem : Nat) (lane : Option Nat := none) (sort : Nat := sortRead) (pay : List Byte := []) : State :=
  match s.watched s.cur.sctx k a n lane with
  | none => s
  | some xs => ({ s with cur := s.cur.note elem xs } : State).tellHart a n lane sort pay

/-- Note the own hit of a store of the current hart, which its home matches when it is performed. -/
def State.strikeOwn (s : State) (k : WKind) (a : Word) (n elem : Nat) : State :=
  match s.ownMatch s.cur.sctx k a n with
  | none => s
  | some x => { s with cur := s.cur.note elem [(none, x.1, x.2)] }

/-- The agent identifier of a cluster's unit: 1 copy engine, 2 gather unit, 3 bank ALU (R345). -/
def clusterAgent (unit cl : Nat) : Nat := unit * 2 ^ 12 + clusterDie cl * 2 ^ 10 + cl % 56 * 16

/-- The ranges of bytes a queued access touches, and its kind (R338). -/
def PAct.ranges : PAct → List (Nat × Nat)
  | .write bs => bs.map (fun b => (b.key, 1))
  | .rmw op key _ => [(key, match op with | .addBf => 2 | _ => 4)]

def PAct.wkind : PAct → WKind
  | .write _ => .write
  | .rmw _ _ _ => .atomic

/-- The sort of a queued access, and the payload of its message (R347). -/
def PAct.sort : PAct → Nat
  | .write _ => sortWrite
  | .rmw op _ _ => sortRmw op

def PAct.payload (m : List Host.Cell) : PAct → List Byte
  | .write bs => bs.map (fun b => mergeByte (Memory.get m b.key) b.mask b.val)
  | .rmw op _ x => leBytes (rmwWidth op) x

/-- The cluster whose window an access touches. -/
def keyCluster : List (Nat × Nat) → Option Nat
  | (k, _) :: _ => if k ≥ 2 ^ 52 then some ((k - 2 ^ 52) / 2 ^ 21) else none
  | [] => none

/-- Note the matches at its home of an access that is performed there, by the watchpoints of the blocks that `f` admits (R338); it reaches
the port there, of the launch it is made for (R347). -/
def State.noteAt (s : State) (f : DebugBlock → Nat → Bool) (launch : Option (Nat × Nat)) (agent : Nat) (k : WKind) (rs : List (Nat × Nat)) (sort : Nat)
    (pay : List Byte) : State :=
  if !(s.hub.debug).any (fun p => p.2.ctx != 0) then s else
  let key := (rs.headD (0, 0)).1
  (({ s with hits := s.hits ++ ((s.homeMatches (fun _ => true) (keyCluster rs) k rs).filter (fun x => f (s.debug x.1) x.2.1)).map (fun x =>
             { block := x.1, w := x.2.1, agent := agent, addr := x.2.2, at_ := s.sevenths }) } : State)).tell (s.homePort key) launch agent sort key
    ((rs.map (fun r => r.2)).sum) pay

/-- Every watchpoint. -/
def everyWatch : DebugBlock → Nat → Bool := fun _ _ => true

/-- The agent identifier of the hub (R345). -/
def hubAgent : Nat := 8 * 2 ^ 12

/-- Note a queued access of a hart of a context as it is performed; a match of the context's own that was made when it was issued is the
hart's own hit. -/
def State.noteHome (s : State) (ctx : Word) (launch : Option (Nat × Nat)) (place : Nat) (own : List Nat) (a : PAct) : State :=
  s.noteAt (fun d w => d.ctx != ctx || !own.contains w) launch (hartAgent place) a.wkind a.ranges a.sort (a.payload s.mem)

/-- Note the matches of the queued accesses of some streams of the current hart. -/
def State.noteHomes (s : State) (ps : List PStore) : State :=
  ps.foldl (fun s p => s.noteHome s.cur.sctx s.cur.launch s.cur.place p.own p.act) s

/-- How an access of the hub or of a home NMU through a context's tables goes: its key, a page that is missing, a failure, or a segment
that is held (R250, R257, R260). -/
inductive Got where
  | key (k : Nat)
  | page (a : Word)
  | bad
  | held
  deriving DecidableEq, Repr

/-- Translate an access of the hub to `n` naturally aligned bytes through a context's tables: A and D are set, and the channels it
reaches leave the low-power state (R253, R257, R258). -/
def State.hubReach (s : State) (sptb a : Word) (n : Nat) (kind : AKind) : Got × State :=
  if !canonical a || inLocal a || inReserved a || a.toNat % n != 0 then (.bad, s) else
  let tr := s.trail sptb a kind
  if tr.any (fun x => s.heldSegment x.2.2) then (.held, s) else
  let s := tr.foldl (fun s x => s.wakeKey x.2.2) s
  match s.walk sptb a kind with
  | .fault => (.page a, s)
  | .access => (.bad, s)
  | .leaf e bits frame _ _ _ =>
    let pa := frame * 4096 + a.toNat % 2 ^ bits
    let key := s.paKey pa
    let s := s.markLeaf e kind
    if !targetOk .plain (s.target pa) || s.instarHit key || (kind == .read && s.poisonIn key n) then (.bad, s)
    else if s.heldSegment key then (.held, s)
    else (.key key, (s.wakeKey key).noteAt everyWatch none hubAgent (if kind == .write then .write else .read) [(key, n)] sortRead [])

/-- `k` consecutive reads of `n` bytes by the hub, or how the first that does not end ends. -/
def State.hubReads (s : State) (sptb : Word) (n : Nat) : (k : Nat) → (a : Word) → Except Got (List Nat) × State
  | 0, _ => (.ok [], s)
  | k + 1, a =>
    match s.hubReach sptb a n .read with
    | (.key key, s) =>
      (match s.hubReads sptb n k (a + BitVec.ofNat 64 n) with
       | (.ok xs, t) => (.ok (leNat (Memory.getList s.mem key n) :: xs), t)
       | x => x)
    | (g, s) => (.error g, s)

/-! ## Queued stores (R218, R220) -/

def performBytes (m : List Host.Cell) : List PByte → List Host.Cell
  | [] => m
  | b :: t => performBytes (Memory.set m b.key (mergeByte (Memory.get m b.key) b.mask b.val)) t

/-- Perform one queued access at its home (R220). -/
def performAct (m : List Host.Cell) (a : PAct) : List Host.Cell :=
  match a with
  | .write bs => performBytes m bs
  | .rmw op key x =>
    let n := rmwWidth op
    Memory.setList m key (leBytes n (rmwApply op (leNat (Memory.getList m key n)) x))

/-- Perform every queued access of the list whose stream is in the set, in order; the others stay. -/
def performStores (sel : Stream → Bool) (m : List Host.Cell) : List PStore → List Host.Cell × List PStore
  | [] => (m, [])
  | p :: t =>
    if sel p.stream then performStores sel (performAct m p.act) t
    else let (m', r) := performStores sel m t; (m', p :: r)

/-- The current hart has an accepted command of one of the chosen engines that is not yet performed (R245). -/
def State.ownCommand (s : State) (sel : Engine → Bool) : Bool :=
  (s.cluster (clusterOf s.cur.place)).pool.any (fun c => c.owner == s.cur.place && sel c.engine)

def bankEngine : Engine → Bool
  | .bank => true
  | _ => false

/-- Note queued accesses of the current hart that come after a write of their stream on its way (R218, R225). -/
def State.touchStreams (s : State) (sel : Stream → Bool) : State :=
  if s.cur.stores.any (fun p => sel p.stream && s.streamBehind s.cur.place (some p.stream) 0) then s.block .hold else s

/-- A bank command of the current hart, or an append that it has sent, is still to be performed (R197, R218). -/
def State.bankHeld (s : State) : Bool := s.ownCommand bankEngine || !s.cur.sent.isEmpty

/-- Note queued chained operations of the current hart that an access of the bank stream comes before (R218, R225). -/
def State.touchChained (s : State) (sel : Stream → Bool) : State :=
  if s.cur.stores.any (fun p => p.stream == .bank && sel .bank) && s.bankHeld then s.block .hold else s

/-- The first bytes of what the queued accesses of some streams of the current hart touch. -/
def State.queuedKeys (s : State) (sel : Stream → Bool) : List Nat :=
  (s.cur.stores.filter (fun p => sel p.stream)).flatMap (fun p => p.act.keys)

/-- Note what the queued accesses of some streams reach, what they must wait for, and what watches them. -/
def State.noteDrain (s : State) (level : Nat) (sel : Stream → Bool) : State :=
  (((((s.touchAll (s.queuedKeys sel)).touchNets (s.queuedKeys sel)).touchChained sel).touchStreams sel).awaitNet level false sel).noteHomes
    (s.cur.stores.filter (fun p => sel p.stream))

/-- Perform the queued accesses of some streams of the current hart; its writes on their way must have passed an ordering point. -/
def State.drainTo (s : State) (level : Nat) (sel : Stream → Bool) : State :=
  let s := s.noteDrain level sel
  let (m, r) := performStores sel s.mem s.cur.stores
  { s with mem := m, cur := { s.cur with stores := r } }

/-- Perform the accesses of some streams of the current hart at their homes. -/
def State.drain (s : State) (sel : Stream → Bool) : State := s.drainTo 4 sel

def anyStream : Stream → Bool := fun _ => true

/-- Streams the release and acquire rules cover (R111): every one but the lane threads'. -/
def heldStream : Stream → Bool
  | .thread _ => false
  | _ => true

def vectorStream : Stream → Bool
  | .vector => true
  | .q _ => true
  | _ => false

/-- Queue a store of the current hart. -/
def State.queueStore (s : State) (st : Stream) (a : PAct) : State :=
  { s with cur := { s.cur with stores := s.cur.stores ++ [{ stream := st, act := a, own := (s.cur.strikes.filter (fun x => x.block.isNone)).map (fun x => x.w) }] } }

/-- The byte a load of a stream sees: its own stream's youngest queued store, else the home's (R159, R218). -/
def overlay (st : Stream) (key : Nat) (old : Byte) : List PStore → Byte
  | [] => old
  | p :: t =>
    let old := if p.stream == st then
        (match p.act with
         | .write bs => bs.foldl (fun o b => if b.key == key then mergeByte o b.mask b.val else o) old
         | .rmw _ _ _ => old)
      else old
    overlay st key old t

def State.viewByte (s : State) (st : Stream) (key : Nat) : Byte := overlay st key (Memory.get s.mem key) s.cur.stores

def State.viewBytes (s : State) (st : Stream) (key : Nat) : Nat → List Byte
  | 0 => []
  | n + 1 => s.viewByte st key :: s.viewBytes st (key + 1) n

/-- Commands a near-memory unit holds. -/
def Nmu.commands (n : Nmu) : List NmuCmd := (n.run.map (fun r => r.cmd)).toList ++ n.queue

/-- Tokens of the current hart's accepted engine and bank commands that are not yet performed: each is a stream of its own (R218). -/
def State.ownTokens (s : State) : List Word :=
  ((s.cluster (clusterOf s.cur.place)).pool.filter (fun c => c.owner == s.cur.place && c.engine != .nmuOut)).map (fun c => c.token)

/-- Tokens of the current hart's commands that near-memory units hold: each is a stream of its own (R218). -/
def State.ownNmuTokens (s : State) : List Word :=
  s.nmus.flatMap (fun p => (p.2.commands.filter (fun c => c.owner == s.cur.place)).map (fun c => c.token))

/-- An engine or bank command of a cluster is accepted and not yet performed. -/
def State.enginePending (s : State) (cl : Nat) (token : Word) : Bool := (s.cluster cl).pool.any (fun c => c.is token)

/-- A command of a near-memory unit is accepted and not yet performed. -/
def State.nmuPending (s : State) (token : Word) : Bool := s.nmus.any (fun p => p.2.commands.any (fun c => c.token == token))

/-- Every command an acquire waits for is performed, and what those of the engines wrote has passed an ordering point (R187, R214,
R221). -/
def State.acquired (s : State) (cl level : Nat) (after nmus : List Word) : Bool :=
  after.all (fun t => !s.enginePending cl t) && nmus.all (fun t => !s.nmuPending t) &&
    !s.net.any (fun p => p.stream.isNone && after.contains p.token && p.level < level)

def noEngine : Engine → Bool := fun _ => false
/-- The engine and bank commands a FENCE waits for. -/
def fenceEngine : Engine → Bool
  | .nmuOut => false
  | _ => true
/-- A near-memory unit holds a command of the current hart that is not yet performed (R214). -/
def State.ownNmu (s : State) : Bool := s.nmus.any (fun p => p.2.commands.any (fun c => c.owner == s.cur.place))

/-- Commands of the current hart that a FENCE and a BAR wait for are still to be performed (R124, R219). -/
def State.ownStreams (s : State) : Bool := s.ownCommand fenceEngine || s.ownNmu

/-- Perform the queued accesses a release at a scope covers; one that has bank commands still to be performed waits for them first
(R111, R195, R221). -/
def State.released (s : State) (level : Nat) : Option State :=
  let s := s.drainTo level heldStream
  if s.ownCommand bankEngine then none else some s

/-- The bank stream's next access: what it holds is performed first, and it waits for bank commands (R197, R218). -/
def State.bankTurn (s : State) : State :=
  let s := s.drain (fun st => st == .bank)
  if s.ownCommand bankEngine then s.block .hold else s

/-- The waiting instruction of the current hart takes its place in the order of arrival, unless it has one. -/
def State.arrive (s : State) : State :=
  if s.cur.arrived.isSome then s
  else { s with arrivals := s.arrivals + 1, cur := { s.cur with arrived := some s.arrivals } }

/-- Hart `h` arrived before the current one. -/
def State.arrivedBefore (s : State) (h : Hart) : Bool := match h.arrived with
  | some a => s.cur.arrived.all (fun b => a < b)
  | none => false

/-- The hart waits for its own commands and issues its instruction again. -/
def State.waitCommands (s : State) : State := { s with cur := { s.cur with status := .waiting .commands } }

/-- Note the matches of a read that a decoder makes ahead of the hart's instructions: agent hits all (R338). -/
def State.strikeAhead (s : State) (a : Word) (n elem : Nat) : State :=
  match s.watched s.cur.sctx .read a n with
  | none => s
  | some xs =>
    let own := (s.blockOf s.cur.sctx).map (fun b => b.1)
    ({ s with cur := s.cur.note elem (xs.map (fun x => (x.1.orElse (fun _ => own), x.2))) } : State).tellHart a n none sortRead []

/-! ## Traps (R31, R32, R120, R127) -/

/-- A trap: its cause and tval, whether the instruction is a vector instruction, the elements it holds (R135) and where it
goes on writing, the page request it waits for without a trap (R293), whether it only stops between element groups (R310), and the
page that is missing when tval names another address (R206). -/
structure Trap where
  cause : Nat
  tval  : Word
  page  : Option Word := none
  vec   : Bool := false
  held  : Option (List Held) := none
  start : Option (Nat × Nat) := none
  wait  : Option Nat := none
  cut   : Bool := false
  deriving DecidableEq, Repr

/-- How an instruction ends: it completes and the next one follows; a branch is taken; control continues at an address
the instruction names whatever the loop state is; the hart stays as the state says (it waits, or has ended); a trap. -/
inductive Flow where
  | done (s : State)
  | branch (target : Word) (s : State)
  | goto (target : Word) (s : State)
  | stay (s : State)
  | trap (t : Trap) (s : State)
  deriving DecidableEq, Repr

/-- The causes a `tvec` handler takes (R31). -/
def handlerCause (c : Nat) : Bool := c == 2 || c == 3 || c == 7 || c == 0xE || c == 0xF

/-- `tcause` as R29 and R120 lay it out. -/
def tcauseWord (h : Hart) (t : Trap) : Word :=
  let lane := match h.lane with | some l => 2 ^ 62 + 2 ^ 8 * (l.thread.index % 128) | none => 0
  BitVec.ofNat 64 (t.cause + lane + (if t.vec then 2 ^ 63 else 0))

/-- A trap whose tval is an element index holds the thread index in lane mode (R120). -/
def tvalWord (h : Hart) (t : Trap) : Word :=
  match h.lane with
  | some l => if t.cause == 2 || t.cause == 0xF || t.cause == 0x11 then BitVec.ofNat 64 l.thread.index else t.tval
  | none => t.tval

/-- Record a trap: `tcause`, `tval`, `tpc` and, for a vector instruction, `tqpos` (R31). -/
def Hart.recordTrap (h : Hart) (t : Trap) : Hart :=
  { h with tcause := tcauseWord h t, tval := tvalWord h t, tpc := h.ip, tqpos := if t.vec then 0 else h.tqpos,
           noAnswer := none, asked := none, arrived := none, passed := [] }

/-- Take a trap (R31, R127): record it, then continue at `tvec` with the trapping entry, every younger one, the region
stack, the pending prefix and lane mode set aside, or stop and leave the trap to the device supervisor. -/
def Hart.takeTrap (h : Hart) (t : Trap) (entry : Option VEntry) : Hart :=
  let r := h.recordTrap t
  if handlerCause t.cause && h.tvec != 0 && h.handler.isNone then
    { r with
      handler := some { cause := BitVec.ofNat 8 t.cause, vec := t.vec, commit := h.pc, entry := entry, ahead := h.ahead, viq := h.viq,
                        regions := h.regions, pfxs := if t.vec then 0 else h.pfxs, lane := h.lane, strikes := h.strikes }
      strikes := [], reissue := none, ahead := none, viq := [], regions := [], pfxs := 0, lane := none, pc := h.tvec, status := .running }
  else
    { r with reissue := entry, pfxs := if t.vec then 0 else h.pfxs, status := .stopped,
             sresume := if t.cause == 0xD then h.ip + 4 else h.ip }

/-- Return from a handler (R127): the regions the handler left open are discarded and what was set aside is restored. -/
def Hart.eret (h : Hart) (k : Handler) : Hart :=
  { h with
    handler := none, strikes := k.strikes, regions := k.regions, reissue := k.entry, ahead := k.ahead, viq := k.viq, lane := k.lane, pfxs := k.pfxs,
    pc := if k.cause == 0xE#8 then h.tpc + 4 else if k.vec then k.commit else if k.lane.isSome then k.commit else h.tpc }

/-! ## Moving on (R114, R115) -/

/-- The address part of `lend`. -/
def Hart.loopEnd (h : Hart) : Word := h.lend &&& ~~~(3#64)
def Hart.armed (h : Hart) : Bool := h.lend.getLsbD 0
def Hart.disarm (h : Hart) : Hart := { h with lend := h.lend &&& ~~~(1#64) }
/-- Inside the body: the address lies in [lbeg, lend.address]. -/
def Hart.inBody (h : Hart) (a : Word) : Bool := decide (h.lbeg ≤ a) && decide (a ≤ h.loopEnd)

/-- The end step: the next address in sequence, with a loop armed that ends here (R115); none runs in a handler. -/
def Hart.nextPc (h : Hart) : Hart :=
  if h.handler.isNone && h.armed && h.pc == h.loopEnd then
    (if h.lc ≤ 1 then { h.disarm with lc := 0, pc := h.loopEnd + 4 } else { h with lc := h.lc - 1, pc := h.lbeg })
  else { h with pc := h.pc + 4 }

/-- A taken branch or jump: it disarms a loop it leaves (R115). -/
def Hart.branchTo (h : Hart) (t : Word) : Hart :=
  let h := if h.handler.isNone && h.armed && (h.inBody h.pc || h.pc == h.loopEnd) && !h.inBody t then h.disarm else h
  { h with pc := t }

/-- The place in the list of the next thread that runs, after place `k` (R118). -/
def nextTurn (ts : List LaneThread) (k : Nat) : Nat :=
  let n := ts.length
  match (List.range n).find? (fun j => (ts.getD ((k + 1 + j) % n) { index := 0, pc := 0, run := .retired }).run == .running) with
  | some j => (k + 1 + j) % n
  | none => k

/-- Set the thread whose turn it is and give the turn to the next one that runs. -/
def LaneState.turnOver (l : LaneState) (f : LaneThread → LaneThread) : LaneState :=
  let ts := l.threads.set l.turn (f l.thread)
  { l with threads := ts, turn := nextTurn ts l.turn }

/-- No thread runs: all wait at the join or are retired (R119). -/
def LaneState.over (l : LaneState) : Bool := l.threads.all (fun t => t.run != .running)

/-- Leave lane mode when no thread runs (R119). -/
def Hart.joinLanes (h : Hart) : Hart :=
  match h.lane with
  | some l => if l.over then { h with lane := none, pc := l.join + 4 } else h
  | none => h

/-- What every completed instruction does last: the prefix it consumed, the entry it re-issued, the pages it asked for, the access whose
answer it awaited, its watchpoint matches and its place among those that wait are forgotten. -/
def Hart.retire (h : Hart) : Hart :=
  { h with pfxs := 0, reissue := none, paged := [], noAnswer := none, asked := none, strikes := [], passed := [], arrived := none }

/-- The hart after an instruction completed in sequence; after an entry of the VIQ the AP stands where it stood (R32). -/
def Hart.advance (h : Hart) : Hart :=
  match h.lane, h.ahead with
  | some l, _ => { h.retire with lane := some (l.turnOver (fun t => { t with pc := t.pc + 4 })) }
  | none, some a => { h.retire with pc := a.pc, pfxs := a.pfxs, ahead := none, passed := h.passed }
  | none, none => h.retire.nextPc

/-- The hart after a taken branch. -/
def Hart.jump (h : Hart) (t : Word) : Hart :=
  match h.lane with
  | some l => { h.retire with lane := some (l.turnOver (fun x => { x with pc := t })) }
  | none => h.retire.branchTo t

/-! ## Page requests (R260) -/

def pageOf (a : Word) : Word := a &&& ~~~(0xFFF#64)

/-- Send a page request for the page of an address. -/
def State.askPage (s : State) (who : PageWho) (ctx a : Word) (tval : Word := a) : Nat × State :=
  let id := s.hub.pageSeq
  (id, { s with hub := { s.hub with
          pages := s.hub.pages ++ [{ id := id, who := who, ctx := ctx, addr := a, tval := tval }], pageSeq := id + 1 } })

/-- A page fault of the current hart: a page already answered for this instruction is an access violation to the
supervisor; else the hart is suspended with its trap registers written and the request is sent. -/
def State.pageFault (s : State) (t : Trap) (entry : Option VEntry) : State :=
  let a := t.page.getD t.tval
  if s.cur.paged.contains (pageOf a) then
    { s with cur := s.cur.takeTrap { t with cause := 6 } entry }
  else
    let (id, s) := s.askPage (.hart s.cur.place) s.cur.sctx a t.tval
    { s with cur := { s.cur.recordTrap t with reissue := entry, pfxs := if t.vec then 0 else s.cur.pfxs, status := .waiting (.page id) } }

/-- Raise a trap of the current hart: a page fault suspends it, a wait for a page of an image suspends it without a
trap (R293), a stop between element groups keeps the entry (R310), every other trap is taken. -/
def State.raise (s : State) (t : Trap) (entry : Option VEntry) : State :=
  if t.cut then { s with cur := { s.cur with reissue := entry, pfxs := 0 } } else
  match t.wait with
  | some id => { s with cur := { s.cur with reissue := entry, pfxs := if t.vec then 0 else s.cur.pfxs, status := .waiting (.page id) } }
  | none =>
  if t.cause == 5 then s.pageFault t entry else { s with cur := s.cur.takeTrap t entry }

/-! ## Scalar loads, stores and block reads of the current hart -/

/-- The stream of a scalar access: the thread's own in lane mode (R118), else the scalar stream. -/
def Hart.scalarStream (h : Hart) : Stream := match h.lane with
  | some l => .thread l.thread.index
  | none => .scalar

/-- Read `n` bytes (a naturally aligned width) at `a`, in a stream. -/
def State.loadN (s : State) (st : Stream) (a : Word) (n : Nat) : Except Trap Nat × State :=
  match s.reach a n .read .plain with
  | (.bad c, s) => (.error { cause := c, tval := a }, s)
  | (.ok key, s) =>
    if s.poisonIn key n then (.error { cause := 8, tval := a }, s)
    else (.ok (leNat (s.viewBytes st key n)), s)

/-- Read `n` doublewords upward from `a`, as one block (R163, R184, R214, R300). -/
def State.loadDwords (s : State) (st : Stream) (a : Word) : (n : Nat) → Except Trap (List Word) × State
  | 0 => (.ok [], s)
  | n + 1 =>
    match s.loadN st a 8 with
    | (.error t, s) => (.error t, s)
    | (.ok x, s) =>
      match s.loadDwords st (a + 8) n with
      | (.error t, s) => (.error t, s)
      | (.ok xs, s) => (.ok (BitVec.ofNat 64 x :: xs), s)

/-- Queue a store of `n` bytes. -/
def plainBytes (key : Nat) : List Byte → List PByte
  | [] => []
  | b :: t => { key := key, mask := 0xFF, val := b } :: plainBytes (key + 1) t

end Sys2Proof.Machine
end

