-- ==== Sys2Proof/Machine/Operands.lean ====
section
/-!
DEFINITION. Operand forms: the element functions that harts and near-memory units share (R105, R139 to R142, R53 to
R56), and the vector operand forms of a hart: the prefix and its checks (R103, R122), the strip and its element
positions (R12, R134, R170), register groups and their overlap rules (R10, R11, R137), queue sources (R135, R161, R164,
R166, R387), and the write of a destination with its copy and its exception mask (R64, R65, R134).
-/

namespace Sys2Proof.Machine

/-! ## Element functions -/

/-- What one element of an operation gives: its value, the low half of a pair, its flags, and the cause of the trap its
codes raise instead (R151). -/
structure ERes where
  val   : Nat
  lo    : Nat := 0
  flags : Nat := 0
  trap  : Option Nat := none
  deriving DecidableEq, Repr

/-- A value that raises no flag. -/
def ERes.of (x : Nat) : ERes := { val := x }
/-- A value with its flags. -/
def ERes.ofF (x : Nat × Nat) : ERes := { val := x.1, flags := x.2 }
/-- A pair with its flags. -/
def ERes.ofP (x : Nat × Nat × Nat) : ERes := { val := x.1, lo := x.2.1, flags := x.2.2 }

def b2n (b : Bool) : Nat := if b then 1 else 0

/-- Arithmetic shift right at width `w`. -/
def sraN (w a s : Nat) : Nat := wrapN (sintN w a / (2 ^ s : Int)) w

/-- Rotate left at width `w`, s < w. -/
def rolN (w a s : Nat) : Nat := (a * 2 ^ s + a / 2 ^ (w - s)) % 2 ^ w

/-- The truncated signed quotient, with the corners of R34. -/
def divSN (w a b : Nat) : Nat := if b == 0 then 2 ^ w - 1 else wrapN ((sintN w a).tdiv (sintN w b)) w
def remSN (w a b : Nat) : Nat := if b == 0 then a else wrapN ((sintN w a).tmod (sintN w b)) w
def divNN (w a b : Nat) : Nat := if b == 0 then 2 ^ w - 1 else a / b
def remNN (a b : Nat) : Nat := if b == 0 then a else a % b

/-- High half of the product at width `w`. -/
def mulhS (w a b : Nat) : Nat := wrapN (sintN w a * sintN w b / (2 ^ w : Int)) w
def mulhN (w a b : Nat) : Nat := a * b / 2 ^ w

/-- The scalar operations of R91's fn11 codes at width `w` (R105): for naturals below 2^w. -/
def aluN (op w a b : Nat) : Nat :=
  let s := b % w
  match op with
  | 0x00 => (a + b) % 2 ^ w
  | 0x01 => wrapN ((a : Int) - b) w
  | 0x02 => a &&& b
  | 0x03 => a ||| b
  | 0x04 => a ^^^ b
  | 0x05 => a &&& (2 ^ w - 1 - b)
  | 0x06 => a * 2 ^ s % 2 ^ w
  | 0x07 => a / 2 ^ s
  | 0x08 => sraN w a s
  | 0x09 => rolN w a s
  | 0x0A => rolN w a ((w - s) % w)
  | 0x0B => b2n (sintN w a < sintN w b)
  | 0x0C => b2n (a < b)
  | 0x0D => if sintN w a < sintN w b then a else b
  | 0x0E => if sintN w a < sintN w b then b else a
  | 0x0F => if a < b then a else b
  | 0x10 => if a < b then b else a
  | 0x11 => a * b % 2 ^ w
  | 0x12 => mulhS w a b
  | 0x13 => mulhN w a b
  | 0x14 => divSN w a b
  | 0x15 => divNN w a b
  | 0x16 => remSN w a b
  | 0x17 => remNN a b
  | 0x18 => clzN w a
  | 0x19 => ctzN w a
  | 0x1A => popcN w a
  | 0x1B => wrapN (sintN 8 (a % 2 ^ 8)) w
  | 0x1C => wrapN (sintN 16 (a % 2 ^ 16)) w
  | _ => wrapN (sintN 32 (a % 2 ^ 32)) w

/-- Clamp an exact result, raising SAT (R34, R139). -/
def satN (w : Nat) (natural : Bool) (x : Int) : ERes :=
  let (y, c) := clampN w natural x
  { val := wrapN y w, flags := if c then flagSAT else 0 }

/-- The integer element operations by op code (R96, R139, R140): `d` is the old destination element. -/
def vintN (op w a b d : Nat) : ERes :=
  let s := b % w
  let sa := sintN w a
  let sb := sintN w b
  match op with
  | 0 => .of ((a + b) % 2 ^ w)
  | 1 => .of (wrapN ((a : Int) - b) w)
  | 2 => .of (wrapN ((b : Int) - a) w)
  | 3 => .of (a * b % 2 ^ w)
  | 4 => .of (mulhS w a b)
  | 5 => .of (mulhN w a b)
  | 6 => .of ((d + a * b) % 2 ^ w)
  | 7 => .of (a &&& b)
  | 8 => .of (a ||| b)
  | 9 => .of (a ^^^ b)
  | 10 => .of (a * 2 ^ s % 2 ^ w)
  | 11 => .of (a / 2 ^ s)
  | 12 => .of (sraN w a s)
  | 13 => .of (if sa < sb then a else b)
  | 14 => .of (if sa < sb then b else a)
  | 15 => .of (if a < b then a else b)
  | 16 => .of (if a < b then b else a)
  | 17 => satN w false (sa + sb)
  | 18 => satN w false (sa - sb)
  | 19 => satN w true ((a : Int) + b)
  | 20 => satN w true ((a : Int) - b)
  | 21 => .of (clzN w a)
  | 22 => .of (ctzN w a)
  | 23 => .of (popcN w a)
  | 24 => .of (b2n (a == b))
  | 25 => .of (b2n (a != b))
  | 26 => .of (b2n (sa < sb))
  | 27 => .of (b2n (sa ≤ sb))
  | 28 => .of (b2n (a < b))
  | _ => .of (b2n (a ≤ b))

/-- A second FP operand: its exact value, its bits, and the layout they are in (R141: VFPX reads FP32). -/
structure FArg where
  bits : Nat
  fmt  : FFmt
  deriving DecidableEq, Repr

def FArg.ex (b : FArg) : Ex := readF b.fmt b.bits

/-- minimumNumber or maximumNumber of an element and a second operand that may be in another layout (R48, R141): a
scalar that is delivered is rounded once to the element format. -/
def minMaxArg (f : FFmt) (mode : Nat) (isMax prop : Bool) (a : Nat) (b : FArg) : Nat × Nat :=
  if b.fmt == f then (if prop then minMaxProp f isMax a b.bits else minMaxNum f isMax a b.bits) else
  let x := readF f a
  let y := b.ex
  let fl := if x.isSig || y.isSig then flagNV else 0
  let scalar := roundF f mode false y
  if prop && (x.isNan || y.isNan) then (f.nan, fl)
  else if x.isNan then (if y.isNan then (f.nan, fl) else (scalar.1, scalar.2 ||| fl))
  else if y.isNan then (a, fl)
  else if (if isMax then ltZ x y else ltZ y x) then scalar else (a, 0)

/-- A comparison of exact values (R142). -/
def cmpArg (rel : Ex → Ex → Bool) (quiet : Bool) (x y : Ex) : ERes :=
  if x.isNan || y.isNan then { val := 0, flags := if x.isSig || y.isSig || !quiet then flagNV else 0 }
  else .of (b2n (rel x y))

/-- The FP element operations by op code (R96, R141, R142). `f` is the format of `a`, `g` that of the result and of the
addend `d` (FP32 for the widening operations). -/
def vfpN (op : Nat) (f g : FFmt) (mode a : Nat) (b : FArg) (d : Nat) : ERes :=
  let x := readF f a
  let y := b.ex
  let z := readF g d
  let sgn := 2 ^ (f.w - 1)
  match op with
  | 0 | 17 => .ofF (deliver g mode (addEx mode x y))
  | 1 => .ofF (deliver g mode (addEx mode x y.negate))
  | 2 => .ofF (deliver g mode (mulEx x y))
  | 3 => .ofF (deliver g mode (divEx x y))
  | 4 => .ofF (deliver g mode (sqrtEx x))
  | 5 | 16 => .ofF (deliver g mode (fmaEx mode x y z))
  | 6 => .ofF (deliver g mode (fmaEx mode x y z.negate))
  | 7 => .ofF (deliver g mode (fmaEx mode x.negate y z))
  | 8 => .ofF (minMaxArg f mode false false a b)
  | 9 => .ofF (minMaxArg f mode true false a b)
  | 10 => .ofF (minMaxArg f mode false true a b)
  | 11 => .ofF (minMaxArg f mode true true a b)
  | 12 => .of (a % sgn)
  | 13 => .of ((a + sgn) % 2 ^ f.w)
  | 14 => .of (a % sgn + (if bitN b.bits (b.fmt.w - 1) then sgn else 0))
  | 15 => .of (classF f a)
  | 18 => cmpArg feqRel true x y
  | 19 => cmpArg fltRel false x y
  | 20 => cmpArg fleRel false x y
  | _ => { val := b2n (x.isNan || y.isNan), flags := if x.isSig || y.isSig then flagNV else 0 }

/-- The pair operations by op code (R143, R144). -/
def vpairN (op mode ah al bh bl : Nat) : ERes :=
  match op with
  | 0 => .ofP (twoSum mode ah bh)
  | 1 => .ofP (twoDiff mode ah bh)
  | 2 => .ofP (twoProd mode ah bh)
  | 3 => .ofP (dwAdd ah al bh bl)
  | 4 => .ofP (dwAddS ah al bh)
  | 5 => .ofP (dwMul ah al bh bl)
  | _ => .ofP (dwRen ah al)

/-- The special functions by op code (R148). -/
def vsfuN (op a : Nat) : ERes :=
  .ofF (match op with
    | 0 => sfuF rcpEx a
    | 1 => sfuF rsqrtEx a
    | 2 => sfuF exp2Ex a
    | 3 => sfuF log2Ex a
    | 4 => sfuF sinPiEx a
    | _ => sfuF cosPiEx a)

/-! ## Reductions (R53 to R56, R146, R147) -/

/-- A reduction so far: its value, the error term of R55, the flags raised, and the index of the step that raised an
enabled one. -/
structure Red where
  val   : Nat
  err   : Nat := 0
  flags : Nat := 0
  stop  : Option Nat := none
  deriving DecidableEq, Repr

/-- Add a step's flags; `en` holds the enabled flags and `i` the index R147 reports. -/
def Red.step (r : Red) (en i : Nat) (val err fl : Nat) : Red :=
  if r.stop.isSome then r else
  { val := val, err := err, flags := r.flags ||| fl, stop := if fl &&& en != 0 then some i else none }

/-- The elements, none where an element is not active, folded in ascending order. -/
def redFold (f : Red → Nat → Option Nat → Red) : Red → Nat → List (Option Nat) → Red
  | r, _, [] => r
  | r, i, x :: t => redFold f (f r i x) (i + 1) t

/-- The bits of −0. -/
def negZero (f : FFmt) : Nat := 2 ^ (f.w - 1)

/-- One level of the tree of R54: y_i = RN(y_i + y_{i+h}) for i below h. -/
def treeLevel (f : FFmt) (mode en : Nat) : Nat → List Nat → List Nat → Red → List Nat × Red
  | i, a :: as, b :: bs, r =>
    let (v, fl) := faddF f mode a b
    let (rest, r') := treeLevel f mode en (i + 1) as bs (r.step en i 0 0 fl)
    (v :: rest, r')
  | _, _, _, r => ([], r)

/-- The tree: `n` levels on 2^n values. -/
def treeSum (f : FFmt) (mode en : Nat) : (n : Nat) → List Nat → Red → Nat × Red
  | 0, ys, r => (ys.headD (negZero f), r)
  | n + 1, ys, r =>
    let h := 2 ^ n
    let (ys', r') := treeLevel f mode en 0 (ys.take h) (ys.drop h) r
    treeSum f mode en n ys' r'

/-- The least n with vl ≤ 2^n (R54). -/
def treeDepth (vl : Nat) : Nat := if vl ≤ 1 then 0 else (vl - 1).log2 + 1

/-- The reductions by op code (R146): `xs` holds the vl elements of vs1, none where one is not active.  A maximum or minimum with
no active element takes its start value once more, so that a NaN is delivered as R36 says. -/
def vredN (op w : Nat) (f : FFmt) (mode en init : Nat) (xs : List (Option Nat)) : Red :=
  let sum (r : Red) (i : Nat) (x : Option Nat) : Red :=
    let (v, fl) := faddF f mode r.val (x.getD (negZero f)); r.step en i v 0 fl
  let mm (isMax : Bool) (r : Red) (i : Nat) (x : Option Nat) : Red :=
    match x with
    | none => r
    | some y => let (v, fl) := minMaxNum f isMax r.val y; r.step en i v 0 fl
  let orInit (xs : List (Option Nat)) : List (Option Nat) := if xs.all (fun x => x.isNone) then [some init] else xs
  let int (g : Nat → Nat → Nat) (r : Red) (_ : Nat) (x : Option Nat) : Red :=
    match x with
    | none => r
    | some y => { r with val := g r.val y }
  match op with
  | 0 => redFold (int (fun a b => (a + b) % 2 ^ w)) { val := init } 0 xs
  | 1 => redFold (int (fun a b => if sintN w a < sintN w b then b else a)) { val := init } 0 xs
  | 2 => redFold (int (fun a b => if sintN w b < sintN w a then b else a)) { val := init } 0 xs
  | 3 => redFold sum { val := init } 0 xs
  | 4 =>
    let n := treeDepth xs.length
    let ys := xs.map (fun x => x.getD (negZero f)) ++ List.replicate (2 ^ n - xs.length) (negZero f)
    let (y, r) := treeSum f mode en n ys { val := 0 }
    let (v, fl) := faddF f mode init y
    r.step en 0 v 0 fl
  | 5 =>
    let r := redFold (fun r i x =>
      let (s, t, f1) := twoSum mode r.val (x.getD (negZero fp32))
      let (e, f2) := faddF fp32 mode r.err t
      r.step en i s e (f1 ||| f2)) { val := init, err := negZero fp32 } 0 xs
    let (hi, lo, fl) := twoSum mode r.val r.err
    r.step en xs.length hi lo fl
  | 6 => redFold (mm true) { val := init } 0 (orInit xs)
  | _ => redFold (mm false) { val := init } 0 (orInit xs)

/-- Element formats accepted by op code of VRED (R136). -/
def vredFormats (op : Nat) : List Nat := if op ≤ 2 then [0, 1, 2, 3] else if op == 5 then [4] else [4, 5, 6]

/-! ## The prefix (R26, R103, R122) -/

def pfxPending (p : Word) : Bool := p.getLsbD 63
def pfxPred (p : Word) : Option Nat := if p.getLsbD 7 then some (p.toNat / 2 ^ 21 % 32) else none
def pfxCopy (p : Word) : Option Nat := if p.getLsbD 6 then some (p.toNat / 2 ^ 16 % 32) else none
def pfxEmask (p : Word) : Option Nat := if p.getLsbD 5 then some (p.toNat / 2 ^ 11 % 32) else none
def pfxRm (p : Word) : Option Nat := let r := p.toNat / 2 ^ 8 % 8; if r == 7 then none else some r
def pfxChain (p : Word) : Nat := p.toNat % 32

/-- The prefix fields a successor accepts (R122). -/
structure PfxOk where
  pred  : Bool := false
  copy  : Bool := false
  emask : Bool := false
  rm    : Bool := false
  chain : List Nat := []

/-- Check 3 (R89, R122): every field that is present is accepted. -/
def pfxFits (p : Word) (k : PfxOk) : Bool :=
  !pfxPending p ||
    ((k.pred || (pfxPred p).isNone) && (k.copy || (pfxCopy p).isNone) && (k.emask || (pfxEmask p).isNone) &&
     (k.rm || (pfxRm p).isNone) && (pfxChain p == 0 || k.chain.contains (pfxChain p)) &&
     (k.pred || k.copy || k.emask || k.rm || !k.chain.isEmpty))

/-- The prefix word that goes with the instruction being executed: its own when it is re-issued, else what is pending (R122). -/
def Hart.pendingPfx (h : Hart) : Word := match h.reissue with | some e => e.pfxs | none => h.pfxs

/-- The prefix of the instruction being executed; with none, the fields of an absent one. -/
def Hart.pfx (h : Hart) : Word := if pfxPending h.pendingPfx then h.pendingPfx else 0x700#64

/-- A scalar operand of a vector instruction: the one captured when it issued (R32), else x[r]. -/
def Hart.ox (h : Hart) (r : Reg) : Word :=
  match h.reissue with
  | some e => if r = 0#5 then 0 else e.xs[r.toNat]
  | none => h.rx r

/-- The effective rounding mode of a vector instruction (R4). -/
def Hart.mode (h : Hart) : Nat := (pfxRm h.pfx).getD (h.vrm.toNat % 8)

/-! ## The strip (R9, R11, R12, R134) -/

/-- What governs the elements of one vector instruction. -/
structure VCtx where
  lanes  : Nat
  fmt    : Nat
  w      : Nat
  g      : Nat
  blk    : Nat
  twoD   : Bool
  vl     : Nat
  vr     : Nat
  vpad   : Nat
  vstart : Nat
  vlmax  : Nat
  masked : Bool
  mask   : Nat
  maskReg : Nat
  deriving DecidableEq, Repr

/-- Bits of one v register. -/
def Hart.regBits (h : Hart) : Nat := 256 * h.lanes

/-- The low 256 · L bits of v[n]. -/
def Hart.vN (h : Hart) (n : Nat) : Nat := (h.rv n).toNat % 2 ^ h.regBits

/-- Block length of a vtype (R22, R33): 1 for the other formats. -/
def blockLen (vt : Nat) : Nat := if fmtIsBlock (vt % 16) then 8 * 2 ^ (vt / 64 % 4) else 1

/-- The first position still to be written: `vstart`, unless the re-issued entry names another for it (R171). -/
def Hart.firstPos (h : Hart) : Nat := match h.reissue.bind (fun e => e.start) with
  | some (v, n) => if h.vstart.toNat == v then n else h.vstart.toNat
  | none => h.vstart.toNat

/-- The strip in force, for an instruction with modifier bit m (R134, R122). -/
def Hart.vctx (h : Hart) (m : Bool) : VCtx :=
  let vt := h.vtype.toNat
  let mr := (pfxPred h.pfx).getD 0
  { lanes := h.lanes, fmt := vt % 16, w := fmtWidth (vt % 16), g := 2 ^ (vt / 16 % 4), blk := blockLen vt,
    twoD := bitN vt 8, vl := h.vl.toNat, vr := h.vr.toNat, vpad := h.vpad.toNat, vstart := h.firstPos,
    vlmax := h.vlmax.toNat, masked := m, mask := if m then h.vN mr else 0, maskReg := mr }

/-- Registers of a wide group: (32 / w) · g (R137). -/
def VCtx.wide (c : VCtx) : Nat := 32 / c.w * c.g

/-- Element i lies within the strip's work (R134). -/
def VCtx.granted (c : VCtx) (i : Nat) : Bool :=
  if c.twoD then i / 64 < c.vr && i % 64 < c.vl - c.vpad else i < c.vl - c.vpad

/-- The governing bit of element i, 1 when the instruction is not masked. -/
def VCtx.gov (c : VCtx) (i : Nat) : Bool := !c.masked || bitN c.mask i

def VCtx.active (c : VCtx) (i : Nat) : Bool := c.vstart ≤ i && c.granted i && c.gov i

/-- The strip count of R387. -/
def VCtx.count (c : VCtx) : Nat := if c.twoD then c.vr * c.vl else c.vl

/-- Linear index of the j-th element that moves through a queue (R387). -/
def VCtx.place (c : VCtx) (j : Nat) : Nat := if c.twoD then j / c.vl * 64 + j % c.vl else j

/-- The place in a queue of the element with linear index i; none for a position no element moves for. -/
def VCtx.queuePlace (c : VCtx) (i : Nat) : Option Nat :=
  if c.twoD then (if i / 64 < c.vr && i % 64 < c.vl then some (i / 64 * c.vl + i % 64) else none)
  else if i < c.vl then some i else none

/-! ## Groups (R10, R11, R137) -/

/-- Two register ranges meet. -/
def overlap (a n b k : Nat) : Bool := a < b + k && b < a + n

/-- `base` is a multiple of the size of its group (R137); a pair of groups of 8 has 16 registers (R143). -/
def groupOk (base n : Nat) : Bool := n ≤ 16 && base % n == 0

/-- The registers base to base + n − 1 as one string of bits. -/
def Hart.groupN (h : Hart) (base : Nat) : (n : Nat) → Nat
  | 0 => 0
  | n + 1 => h.groupN base n + h.vN (base + n) * 2 ^ (h.regBits * n)

/-- Element i of width w of a string of bits (R11). -/
def elemN (x w i : Nat) : Nat := x / 2 ^ (w * i) % 2 ^ w

/-! ## Queue sources (R135, R161, R164, R166, R387) -/

/-- Read position p of an affine stream (R162). -/
def AffDesc.addr (d : AffDesc) (p : Nat) : Word :=
  let c0 := d.counts.getD 0 1
  let c1 := d.counts.getD 1 1
  BitVec.ofInt 64 ((d.base.toNat : Int) + (p % c0 : Nat) * d.strides.getD 0 0 + (p / c0 % c1 : Nat) * d.strides.getD 1 0
    + (p / c0 / c1 : Nat) * d.strides.getD 2 0)

def AffDesc.total (d : AffDesc) : Nat := d.counts.getD 0 1 * d.counts.getD 1 1 * d.counts.getD 2 1

def reg8 (n : Nat) : Fin 8 := ⟨n % 8, Nat.mod_lt _ (by decide)⟩

def Hart.rq (h : Hart) (n : Nat) : QReg := h.q[reg8 n]
def Hart.wq (h : Hart) (n : Nat) (x : QReg) : Hart := { h with q := h.q.set (reg8 n) x }

/-- Take `n` elements of width `w` from queue `qn`: what the consumer holds, and the queue after it; none where check 4
refuses (R15, R161, R164, R166).  A later element of a load target whose width differs is handed over as it is stored (log 65). -/
def takeQueue (q : QReg) (n w : Nat) : Option (List Held × QReg) :=
  match q with
  | .target items =>
    if items.length < n || (match items with | [] => false | e :: _ => e.width != w) then none
    else some ((items.take n).map (fun e => .val e.val), .target (items.drop n))
  | .load d p xs =>
    if fmtWidth d.fmt != w then none
    else some ((List.range n).map (fun j => match xs[j]? with
                 | some x => .got (p + j) x
                 | none => if p + j < d.total then .pos (p + j) else .val 0), .load d (min d.total (p + n)) (xs.drop n))
  | .image im p =>
    if w != 8 then none else some ((List.range n).map (fun j => .pos (p + j)), .image im (p + n))
  | _ => none

end Sys2Proof.Machine
end

