-- ==== Sys2Proof/Machine/DebugOps.lean ====
section
/-!
DEFINITION. Debug records and stops (R336 to R346): the record ring, the stop of a hart at a strip boundary, and what an
own hit, an agent hit or a requested stop does to the harts of a context.
-/

namespace Sys2Proof.Machine

/-! ## The ring (R344) -/

/-- `n` blocks of 16 bytes from an address, enciphered. -/
def sealBlocks (k : Config.XtsKey) : (n a : Nat) → List Byte → List Byte
  | 0, _, _ => []
  | n + 1, a, bs => leBytes 16 (Config.cipher k a (BitVec.ofNat 128 (leNat (bs.take 16)))).toNat ++ sealBlocks k n (a + 16) (bs.drop 16)

/-- `n` blocks of 16 bytes from an address, deciphered. -/
def openBlocks (k : Config.XtsKey) : (n a : Nat) → List Byte → List Byte
  | 0, _, _ => []
  | n + 1, a, bs =>
    leBytes 16 ((Config.cipher k a).symm (BitVec.ofNat 128 (leNat (bs.take 16)))).toNat ++ openBlocks k n (a + 16) (bs.drop 16)

/-- Bytes as they are written for a context: sealed under its cocoon's key when it has one, in whole blocks (R312, R352). -/
def sealBytes (key : Option Config.XtsKey) (a : Nat) (bs : List Byte) : List Byte := match key with
  | some k => sealBlocks k ((bs.length + 15) / 16) a bs
  | none => bs

/-- Bytes that were written for a context, as its cocoon's key gives them back (R312). -/
def openBytes (key : Option Config.XtsKey) (a : Nat) (bs : List Byte) : List Byte := match key with
  | some k => openBlocks k (bs.length / 16) a bs
  | none => bs

/-- Little-endian bytes of doublewords. -/
def dwordBytes (ws : List Word) : List Byte := ws.flatMap (fun w => leBytes 8 w.toNat)

def ringSlots (d : DebugBlock) : Nat := 2 ^ (d.ring.toNat % 32)
def ringBase (d : DebugBlock) : Nat := d.ring.toNat / 4096 % 2 ^ 45 * 4096
def ringFull (d : DebugBlock) : Bool := !d.hasRing || d.head - d.tail ≥ ringSlots d

/-- Where block n's next record goes. -/
def State.recordKey (s : State) (n : Nat) : Nat := s.paKey (ringBase (s.debug n) + 64 * ((s.debug n).head % ringSlots (s.debug n)))

/-- A kernel's window holds the segment of block n's next record: the record is written after the hold (R250, R281). -/
def State.ringHeld (s : State) (n : Nat) : Bool := (s.debug n).hasRing && s.heldSegment (s.recordKey n)

/-- Write one record at the head of block n's ring, under a key or plainly. -/
def State.writeRecord (s : State) (n : Nat) (r : Option Config.XtsKey × List Word) : State :=
  let d := s.debug n
  let key := s.recordKey n
  let s := s.wakeKey key
  ({ s with mem := Memory.setList s.mem key (sealBytes r.1 key (dwordBytes r.2)) } : State).setDebug n { d with head := d.head + 1 }

/-- A record of the context of block n, with the key it is written under: that of the context's cocoon when the record is made (R352). -/
def State.keyed (s : State) (n : Nat) (r : List Word) : Option Config.XtsKey × List Word := (s.sealKey (s.debug n).ctx, r)

/-- A stop or hit record: written, or held until the ring has room and its place can be written. -/
def State.stopRecord (s : State) (n : Nat) (r : List Word) : State :=
  let d := s.debug n
  if ringFull d || s.ringHeld n || !d.waiting.isEmpty then s.setDebug n { d with waiting := d.waiting ++ [s.keyed n r] }
  else s.writeRecord n (s.keyed n r)

/-- Write held records while the ring has room. -/
def State.flushRecords (s : State) (n : Nat) : (fuel : Nat) → State
  | 0 => s
  | fuel + 1 =>
    let d := s.debug n
    match d.waiting with
    | [] => s
    | r :: t => if ringFull d || s.ringHeld n then s else ((s.setDebug n { d with waiting := t }).writeRecord n r).flushRecords n fuel

/-- A strip record: dropped and counted when the ring has no room; the strip does not close before its place can be written. -/
def State.stripRecord (s : State) (n : Nat) (r : List Word) : State :=
  let s := s.flushRecords n (s.debug n).waiting.length
  let d := s.debug n
  if ringFull d then s.setDebug n { d with lost := d.lost + 1 }
  else if s.ringHeld n then s.block .hold
  else s.writeRecord n (s.keyed n r)

/-! ## Records (R344, R346) -/

/-- A stop or hit record of a hart (R344): `sevenths` is the module time of the event. -/
def hitRecord (h : Hart) (kind number agent : Nat) (group : Bool) (pc addr : Word) (elem sevenths now : Nat) : List Word :=
  let skid := min ((now - sevenths) / 5) (2 ^ 24 - 1)
  [ BitVec.ofNat 64 (field kind 56 8 + field number 48 8 + field agent 32 16 + field (b2n group) 18 1 + field h.coord.toNat 0 18),
    pc, addr,
    BitVec.ofNat 64 (field elem 32 13 + field h.vl.toNat 16 13 + field h.vtype.toNat 0 10),
    h.sord, h.sva, BitVec.ofNat 64 (sevenths / 7),
    BitVec.ofNat 64 (field h.ord 24 40 + skid) ]

/-- The counters of R346, in the order a strip record holds them. -/
def Hart.counters (h : Hart) : List Word := [h.lcuse, h.lcmask, h.lcbvl, h.lcdead, h.lcstall, h.lccyc]

/-- The strip record of the strip that closes (R346). -/
def stripRecordOf (h : Hart) : List Word :=
  let d (k : Nat) : Nat := ((h.counters.getD k 0) - (h.stripAt.getD k 0)).toNat % 2 ^ 32
  [ BitVec.ofNat 64 (field 16 56 8 + field h.coord.toNat 0 18), h.sva, h.sord,
    BitVec.ofNat 64 (field h.vr.toNat 32 13 + field h.vl.toNat 16 13 + field h.vtype.toNat 0 10),
    BitVec.ofNat 64 (d 1 * 2 ^ 32 + d 0), BitVec.ofNat 64 (d 3 * 2 ^ 32 + d 2), BitVec.ofNat 64 (d 5 * 2 ^ 32 + d 4),
    BitVec.ofNat 64 (field h.ord 24 40) ]

/-- Close the current hart's strip: its strip record, when profiling asks for one (R346). -/
def State.closeStrip (s : State) : State :=
  match s.blockOf s.cur.sctx with
  | none => s
  | some (n, d) =>
    if d.prof && s.cur.sord != 0 && s.cur.sord.toNat % 2 ^ d.per == 0 then
      let s := s.stripRecord n (stripRecordOf s.cur)
      { s with cur := { s.cur with stripAt := s.cur.counters } }
    else s

/-! ## Stops (R340 to R342) -/

/-- Hold a hart where it stands, with the cause and tval it reads (R340), and in lane mode the thread whose turn it is (R120). -/
def Hart.holdWith (h : Hart) (cause tval : Nat) : Hart :=
  let t : Trap := { cause := cause, tval := BitVec.ofNat 64 tval }
  { h with held := true, pending := none, more := [], tcause := tcauseWord h t, tval := t.tval, tpc := h.ip }

/-- The element a record of a hart names: the thread whose turn it is in lane mode, or none (R344). -/
def Hart.recordElem (h : Hart) : Nat := match h.lane with | some l => l.thread.index | none => noElem

/-- What a stop of a context asks of a hart: nothing of another context's, of one that a debug block holds, or of one that its own trap
has stopped; one that is folded, sleeps or waits stops where it stands, and another at its next strip boundary (R341). -/
inductive StopCase where
  | none | here | later
  deriving DecidableEq, Repr

def Hart.stopCase (ctx : Word) (skip : Option Nat) (folded : Bool) (h : Hart) : StopCase :=
  if h.sctx != ctx || h.held || skip == some h.place then .none
  else match h.status with
    | .unbound => .none
    | .stopped => .none
    | .running => if folded then .here else .later
    | _ => .here

/-- Ask a hart of the context to stop, or hold it at once where it stands; an ask from before a resume stays to be recorded (R343). -/
def askStop (ctx : Word) (skip : Option Nat) (folded : Bool) (k : StopAsk) (h : Hart) : Hart :=
  match h.stopCase ctx skip folded with
  | .none => h
  | .here => h.holdWith k.cause k.tval
  | .later => { h with pending := some k, more := h.pending.toList ++ h.more }

/-- The asks a hart records when it stops, in the order of their events. -/
def Hart.owedAsks (h : Hart) : List StopAsk := match h.pending with
  | none => h.more
  | some k => h.more.filter (fun x => x.at_ < k.at_) ++ k :: h.more.filter (fun x => !(x.at_ < k.at_))

/-- The stop or hit record of a hart that an ask makes. -/
def State.askRecord (s : State) (n : Nat) (k : StopAsk) (group : Bool) (h : Hart) : State :=
  s.stopRecord n (hitRecord h k.kind k.number k.agent group h.ip k.addr noElem k.at_ s.sevenths)

/-- Records of the harts a stop holds at once. -/
def State.parkedRecords (s : State) (n : Nat) (ctx : Word) (skip : Option Nat) (folded : Bool) (k : StopAsk) : List Hart → State
  | [] => s
  | h :: t => (if h.stopCase ctx skip folded == .here then s.askRecord n k false h else s).parkedRecords n ctx skip folded k t

/-- Stop the context of block n: every hart but the one bound at `skip` is asked to stop (R340, R341). -/
def State.stopContext (s : State) (n : Nat) (skip : Option Nat) (k : StopAsk) : State :=
  let d := s.debug n
  let s := (s.parkedRecords n d.ctx skip false k s.harts).parkedRecords n d.ctx none true k (s.frames.map (fun f => f.hart))
  let s := s.setDebug n { s.debug n with stopped := true }
  { s.mapHarts (askStop d.ctx skip false k) with frames := s.frames.map (fun f => { f with hart := askStop d.ctx none true k f.hart }) }

/-- The ask a companion of a struck hart takes (R340). -/
def companion (s : State) : StopAsk :=
  { cause := 0x15, tval := 0, at_ := s.sevenths, kind := 6, number := 0, agent := 0, addr := 0 }

/-- A record that had to wait after a resume: the context stays stopped until it has been taken (R344). -/
def State.stayStopped (s : State) (n place : Nat) : State :=
  let d := s.debug n
  if d.stopped || d.waiting.isEmpty then s
  else let t := s.stopContext n (some place) (companion s); t.setDebug n { t.debug n with wanted := true }

/-- Where a hart takes the stop asked of it: at a strip boundary, whose VSETL it executes when it resumes (R343); at an element-group
boundary; or where it stands, waiting or stopped by a trap (R341, R379). -/
inductive StopPlace where
  | strip | group | here
  deriving DecidableEq, Repr

/-- Take the stop asked of the current hart; when the context has been resumed meanwhile the hart goes on at once. -/
def State.takeStop (s : State) (at_ : StopPlace) : State :=
  match s.cur.pending, s.blockOf s.cur.sctx with
  | some k, some (n, _) =>
    let h := s.cur
    let s := (h.owedAsks.foldl (fun s k => s.askRecord n k (at_ == .group) h) s).stayStopped n h.place
    { s with cur := { h.holdWith k.cause k.tval with held := (s.debug n).stopped, passed := if at_ == .strip then 4 :: h.passed else h.passed } }
  | _, _ => { s with cur := { s.cur with pending := none, more := [] } }

/-- The stop asked of the current hart before it gives up its slot, or waits (R341). -/
def State.standStop (s : State) : State := if s.cur.pending.isSome then s.takeStop .here else s

/-- A hart that has been asked to stop and reaches no boundary: it waits, or a trap has stopped it. -/
def Hart.idles (h : Hart) : Bool := h.pending.isSome && (match h.status with | .waiting _ => true | .stopped => true | _ => false)

/-- Every such hart stops where it stands (R341, R379). -/
def State.parkIdle (s : State) : State :=
  if !s.harts.any Hart.idles then s
  else (((s.harts.filter Hart.idles).map (fun h => h.place)).foldl (fun s p => (s.focus p).takeStop .here) s).focus s.cur.place

/-- The hit records of the harts that will not stop any more: their launch ends, or they end (R344). -/
def State.payHits (s : State) (p : Hart → Bool) : State :=
  (s.harts.filter (fun h => p h && h.pending.isSome)).foldl (fun s h => match s.blockOf h.sctx with
    | some (n, _) => (h.owedAsks.filter (fun k => k.kind == 2)).foldl (fun s k => s.askRecord n k false h) s
    | none => s) s

/-- The same of the current hart. -/
def State.payOwn (s : State) : State := s.payHits (fun h => h.place == s.cur.place)

/-! ## The journal (R348 to R350) -/

def jTime : Nat := 1
def jLane : Nat := 2
def jLoad : Nat := 3
def jStat : Nat := 4
def jPromise : Nat := 5
def jSleep : Nat := 6
def jPoll : Nat := 7
def jQueue : Nat := 8
def jLaunch : Nat := 9
def jRead : Nat := 10
def jPage : Nat := 11
def jPlace : Nat := 12


/-- Take the first entry of a kind and key off a journal. -/
def takeEntry (kind key : Word) : List (List Word) → Option (List Word × List (List Word))
  | [] => none
  | e :: t =>
    if e.take 2 == [kind, key] then some (e.drop 2, t)
    else (takeEntry kind key t).map (fun r => (r.1, e :: r.2))

/-- Bytes of the journal area; none before DBJRNL is written. -/
def journalSize (d : DebugBlock) : Nat := if d.jrnl == 0 then 0 else 2 ^ (d.jrnl.toNat % 32)

/-- Bytes of journal entries still to be written to the area. -/
def DebugBlock.jowed (d : DebugBlock) : Nat := (d.jlate.map (fun x => x.2.length)).sum

/-- An entry takes its place among those to be written to the journal area, under the key of the context's cocoon (R348, R352). -/
def State.lateEntry (s : State) (n : Nat) (e : List Word) : State :=
  let d := s.debug n
  s.setDebug n { d with jlate := d.jlate ++ [(s.sealKey d.ctx, Config.journalCode e)] }

/-- Append an entry to the journal of block n. -/
def State.putEntry (s : State) (n : Nat) (e : List Word) : State :=
  let s := s.lateEntry n e
  s.setDebug n { s.debug n with journal := (s.debug n).journal ++ [e] }

/-- Where the next entry goes. -/
def State.journalKeys (s : State) (n len : Nat) : List Nat :=
  (List.range len).map (fun j => s.paKey ((s.debug n).jrnl.toNat / 4096 % 2 ^ 45 * 4096 + (s.debug n).jfill + j))

/-- Write the entries that have room in the journal area; one that meets a held segment waits (R250, R348). -/
def State.flushJournal (s : State) (n : Nat) : (fuel : Nat) → State
  | 0 => s
  | fuel + 1 =>
    let d := s.debug n
    match d.jlate with
    | [] => s
    | (k, bs) :: t =>
      let ks := s.journalKeys n bs.length
      if journalSize d < d.jfill + bs.length || ks.any s.heldSegment then s else
      let s := s.wakeKeys ks
      (({ s with mem := Memory.setList s.mem (ks.headD 0) (sealBytes k (ks.headD 0) bs) } : State).setDebug n
        { d with jlate := t, jfill := d.jfill + bs.length }).flushJournal n fuel

/-- A full journal area stops the context (R349). -/
def State.whenFull (s : State) (n : Nat) : State :=
  let d := s.debug n
  if d.jfill + d.jowed < journalSize d || d.stopped || d.mode == 1 then s
  else s.stopContext n none { cause := 0x15, tval := 0, at_ := s.sevenths, kind := 8, number := 0, agent := 0, addr := 0 }

/-- Journal some values of a launch; in replay the journalled ones take their place. -/
def State.journalOnly (s : State) (launch : Option (Nat × Nat)) (key : Nat) (kind : Nat) (xs : List Word) : List Word × State :=
  match s.recorder launch with
  | none => (xs, s)
  | some (n, d) =>
    let kind := jWord (d.number launch) kind
    let key := BitVec.ofNat 64 key
    if d.mode == 1 then
      (match takeEntry kind key d.journal with
       | some (ys, rest) => (ys, s.setDebug n { d with journal := rest })
       | none => (xs, s))
    else (xs, s.putEntry n ([kind, key] ++ xs))

/-- The stop that the journal of a launch makes when its area is full. -/
def State.journalStop (s : State) (launch : Option (Nat × Nat)) : State := match s.recorder launch with
  | some (n, _) => s.whenFull n
  | none => s

/-- Journal some values of a launch, and stop its context when the area is full (R348, R349). -/
def State.journal (s : State) (launch : Option (Nat × Nat)) (key : Nat) (kind : Nat) (xs : List Word) : List Word × State :=
  let (ys, s) := s.journalOnly launch key kind xs
  (ys, s.journalStop launch)

/-- The journal key of a hart: its iteration and stage. -/
def Hart.jkey (h : Hart) : Nat := h.ord * 8 + h.stage.toNat

/-- Journal one value of the current hart (R348). -/
def State.journalled (s : State) (kind : Nat) (x : Word) : Word × State :=
  let (ys, s) := s.journal s.cur.launch s.cur.jkey kind [x]
  (ys.getD 0 x, s)

/-- The value a replay of the current hart will read next. -/
def State.journalNext (s : State) (kind : Nat) : Option Word :=
  match s.recorder s.cur.launch with
  | none => none
  | some (_, d) =>
    if d.mode != 1 then none
    else (takeEntry (jWord (d.number s.cur.launch) kind) (BitVec.ofNat 64 s.cur.jkey) d.journal).bind (fun r => r.1.head?)

/-! ## Hits -/

/-- The own hit of the lowest striking element. -/
def lowestStrike : List Strike → Option Strike
  | [] => none
  | x :: t => match lowestStrike t with
    | none => if x.block.isNone then some x else none
    | some y => if y.elem < x.elem || x.block.isSome then some y else some x

/-- Stop the context of block n for a hart that an event of R340 has struck; while it is stopping or stopped there is no second stop
(R343). -/
def State.stopOthers (s : State) (n place : Nat) : State :=
  if (s.debug n).stopped then s else s.stopContext n (some place) (companion s)

/-- The current hart has been asked to stop by an event of this very cycle. -/
def State.askedNow (s : State) : Bool := s.cur.pending.any (fun k => k.at_ == s.sevenths)

/-- An own hit of the current hart, which has completed the striking instruction at `pc`: its record, its hold, and the stop of the
context's other harts (R340).  While the context is stopping it only writes its record, but two harts struck in one cycle each stop
precisely (R343). -/
def State.ownHit (s : State) (pc : Word) (lane : Bool) (x : Strike) : State :=
  match s.blockOf s.cur.sctx with
  | none => s
  | some (n, d) =>
    let s := s.stopRecord n (hitRecord s.cur 1 x.w (hartAgent s.cur.place) false pc x.addr x.elem s.sevenths s.sevenths)
    if d.stopped && !s.askedNow then s else
    let s := s.payOwn
    let cause := 0x0B + (if lane then 2 ^ 62 + 2 ^ 8 * (x.elem % 128) else 0)
    let h := { s.cur with held := true, pending := none, more := [], tpc := pc, tval := BitVec.ofNat 64 x.w, tcause := BitVec.ofNat 64 cause }
    ({ s with cur := h } : State).stopOthers n s.cur.place

/-- A further agent hit, while the context of block n is stopping or stopped: one kind 2 record for each of its harts, which one that has
still to stop writes when it does (R343). -/
def State.furtherHit (s : State) (n : Nat) (k : StopAsk) : State :=
  let ctx := (s.debug n).ctx
  let mine (h : Hart) : Bool := h.sctx == ctx && h.status != .unbound
  let stops (h : Hart) : Bool := mine h && h.pending.isSome
  let s := ((s.harts.filter (fun h => mine h && !stops h)) ++ (s.frames.map (fun f => f.hart)).filter mine).foldl
    (fun s h => s.askRecord n { k with at_ := s.sevenths } false h) s
  s.mapHarts (fun h => if stops h then { h with more := h.more ++ [k] } else h)

/-- An agent hit on watchpoint w of block n (R340), at a module time: every hart of the context stops at a strip boundary. -/
def State.agentHitAt (s : State) (n w agent : Nat) (addr : Word) (at_ : Nat) : State :=
  let k : StopAsk := { cause := 0x0B, tval := w, at_ := at_, kind := 2, number := w, agent := agent, addr := addr }
  if (s.debug n).stopped then s.furtherHit n k else s.stopContext n none k

def State.agentHit (s : State) (n w agent : Nat) (addr : Word) : State := s.agentHitAt n w agent addr s.sevenths

/-- The debug blocks take the oldest match at a home. -/
def State.report (s : State) : State :=
  match s.hits with
  | [] => s
  | x :: t =>
    let s := { s with hits := t }
    if (s.debug x.block).ctx == 0 then s else s.agentHitAt x.block x.w x.agent x.addr x.at_

/-- The agent hits among the matches of a hart at a place. -/
def State.agentHits (s : State) (place : Nat) (xs : List Strike) : State :=
  xs.foldl (fun s x => match x.block with | some n => s.agentHit n x.w (hartAgent place) x.addr | none => s) s

/-- The matches of a hart whose instruction ends in a trap to the supervisor: the trap is reported, the hit is recorded with it, and
the context's other harts stop (R340, R343). -/
def State.trapStrike (s : State) (h : Hart) (pc : Word) : State :=
  let s := s.agentHits h.place h.strikes
  match lowestStrike h.strikes, s.blockOf h.sctx with
  | some x, some (n, _) =>
    (s.stopRecord n (hitRecord h 1 x.w (hartAgent h.place) false pc x.addr x.elem s.sevenths s.sevenths)).stopOthers n h.place
  | _, _ => s

/-- One access of an agent, to ranges of bytes in ascending order, in the window of cluster `cl`, or outside: its matches against every
block (R338), and its message at the port there (R347), of the launch it is made for; a write's payload is what it has left. -/
def State.agentTouch (s : State) (launch : Option (Nat × Nat)) (agent : Nat) (cl : Option Nat) (k : WKind) (rs : List (Nat × Nat)) : State :=
  let t := (s.homeMatches (fun _ => true) cl k rs).foldl (fun s x => s.agentHit x.1 x.2.1 agent x.2.2) s
  match rs with
  | [] => t
  | (key, n) :: _ =>
    t.tell (t.homePort key) launch agent (if k == .read then sortRead else sortWrite) key n (if k == .read then [] else Memory.getList t.mem key n)

/-- An agent's access to the bytes [key, key + n). -/
def State.agentAccess (s : State) (launch : Option (Nat × Nat)) (agent : Nat) (cl : Option Nat) (k : WKind) (key n : Nat) : State :=
  s.agentTouch launch agent cl k [(key, n)]

/-- The lowest enabled instruction breakpoint at an address (R339), but for those that have stopped the hart there. -/
def ibpHit (d : DebugBlock) (passed : List Nat) (a : Word) : Option Nat :=
  (List.range 4).find? (fun b => !passed.contains b && let r := d.ibp.toList.getD b 0; r.getLsbD 0 && (r.toNat / 4 % 2 ^ 55) == a.toNat / 4 % 2 ^ 55)

/-- The lowest enabled strip breakpoint that a VSETL at `a`, which would make `sord` the given value, matches (R339). -/
def sbpHit (d : DebugBlock) (a sord : Word) : Option Nat :=
  (List.range 2).find? (fun b =>
    let r := d.sbp.toList.getD b 0
    r.getLsbD 63 && r.toNat % 2 ^ 57 == (if r.getLsbD 62 then a else sord).toNat % 2 ^ 57)

/-- Stop the current hart at a breakpoint, before its instruction executes (R340): kind 3 or 4, number as in `tval`. -/
def State.breakAt (s : State) (kind number : Nat) : State :=
  match s.blockOf s.cur.sctx with
  | none => s
  | some (n, _) =>
    let s := (s.stopRecord n (hitRecord s.cur kind number 0 false s.cur.ip 0 s.cur.recordElem s.sevenths s.sevenths)).payOwn
    ({ s with cur := { s.cur.holdWith 0x0C number with passed := number :: s.cur.passed } } : State).stopOthers n s.cur.place

/-! ## What the ports noted in a cycle (R348 to R351) -/

/-- A port's record belongs to block n. -/
def ofBlock (n : Nat) (p : Nat × PortRec) : Bool := p.1 / 2 ^ 16 % 64 == n

/-- Of some ports the record of a divergence at the lowest (R351). -/
def lowestSplit : List (Nat × PortRec) → Option (Nat × List Word)
  | [] => none
  | p :: t => match p.2.split, lowestSplit t with
    | some r, some q => if q.1 < p.1 % 2 ^ 16 then some q else some (p.1 % 2 ^ 16, r)
    | some r, none => some (p.1 % 2 ^ 16, r)
    | none, x => x

/-- Journal what the ports of block n noted: a foreign write is also kept, with its place (R348, R350). -/
def State.takeFresh (s : State) (n : Nat) : State :=
  let es := ((s.hub.ports).filter (ofBlock n)).flatMap (fun p => p.2.fresh)
  es.foldl (fun (s : State) e => if (e.getD 0 0).toNat % 256 == jWrite then s.putEntry n e else s.lateEntry n e) s

/-- The divergences of a cycle take effect at its end: one record of kind 9, and the context stops (R351). -/
def State.settleSplit (s : State) (n : Nat) : State :=
  match lowestSplit ((s.hub.ports).filter (ofBlock n)) with
  | some (_, r) => if (s.debug n).stopped then s else (s.stopRecord n r).stopContext n none (companion s)
  | none => s

/-- What the ports noted in a cycle takes effect at its end. -/
def State.settlePorts (s : State) : State :=
  let t := (s.hub.debug).foldl (fun (s : State) (p : Nat × DebugBlock) =>
    let s := (s.takeFresh p.1).settleSplit p.1
    let s := s.flushJournal p.1 (s.debug p.1).jlate.length
    if (s.debug p.1).recs.isEmpty then s else s.whenFull p.1) s
  t.setHub { t.hub with ports := t.hub.ports.map (fun p => (p.1, { p.2 with fresh := [], split := none })) }

end Sys2Proof.Machine
end

