-- ==== Sys2Proof/Machine/InstarOps.lean ====
section
/-!
DEFINITION. The item table of an instar stream: slots, backlog, merges and combiners (R264 to R271).
-/

namespace Sys2Proof.Machine

/-- C_k. -/
def Instar.cap (i : Instar) (k : Nat) : Nat := 2 ^ i.caps.getD k 0
def Instar.levelsN (i : Instar) : Nat := i.caps.length
/-- Segments of one item slot. -/
def Instar.slotSegs (i : Instar) : Nat := (i.size + 255) / 256

/-- Slots of the levels below k. -/
def slotsBelow (caps : List Nat) : (k : Nat) → Nat
  | 0 => 0
  | k + 1 => slotsBelow caps k + (2 ^ caps.getD k 0 + 1)

/-- First segment of a slot (R265). -/
def Instar.slotSeg (i : Instar) (level slot : Nat) : Nat := 1 + i.slotSegs * (slotsBelow i.caps level + slot)

/-- Segments of the whole storage (R265). -/
def Instar.segCount (i : Instar) : Nat := 1 + i.slotSegs * slotsBelow i.caps i.levelsN

/-- Virtual address of a slot. -/
def Instar.slotAddr (i : Instar) (level slot : Nat) : Word := i.store + BitVec.ofNat 64 (8192 * i.slotSeg level slot)

/-- Memory keys of the bytes of a slot. -/
def Instar.slotKeys (i : Instar) (level slot : Nat) : List Nat :=
  (List.range i.size).map (fun b => i.segs.getD (i.slotSeg level slot + b / 256) 0 + b % 256)

def Instar.level (i : Instar) (k : Nat) : List Item := i.levels.getD k []

def Instar.count (i : Instar) (k : Nat) : Nat := (i.level k).length

/-- The lowest slot of a level that holds no item. -/
def Instar.freeSlot (i : Instar) (k : Nat) : Nat :=
  ((List.range (i.cap k + 1)).find? (fun j => !(i.level k).any (fun x => x.slot == j))).getD 0

/-- The level whose two oldest items the next merge of the cascade takes (R269). -/
def Instar.due (i : Instar) : Option Nat := (List.range (i.levelsN - 1)).find? (fun k => i.count k > i.cap k)

/-- Merges still to be performed, from the counts of the levels upward (R270). -/
def backlogFrom : (caps : List Nat) → (counts : List Nat) → (carry : Nat) → Nat
  | c :: cs, n :: ns, carry =>
    if cs.isEmpty then 0 else
    let m := (n + carry - 2 ^ c + 1) / 2
    m + backlogFrom cs ns m
  | _, _, _ => 0

def Instar.backlog (i : Instar) : Nat := backlogFrom i.caps (i.levels.map (fun l => l.length)) 0

/-- Drop the oldest items of the top level beyond its capacity: an expiry (R269). -/
def Instar.expire (i : Instar) : Instar :=
  let top := i.levelsN - 1
  { i with levels := i.levels.set top ((i.level top).drop (i.count top - i.cap top)) }

/-- The item-table update of a merge at level k into `slot` of level k + 1 (R270). -/
def Instar.mergeDone (i : Instar) (k slot : Nat) : Instar :=
  match i.level k with
  | a :: _ :: rest =>
    ({ i with levels := (i.levels.set k rest).set (k + 1) (i.level (k + 1) ++ [{ start := a.start, slot := slot }]) } : Instar).expire
  | _ => i

/-- The element of a merged item (R267). -/
def combineN (comb fmt a b : Nat) : Nat :=
  let w := fmtWidth fmt
  let f := ffmt fmt
  if fmtIsInt fmt then
    match comb with
    | 0 => (a + b) % 2 ^ w
    | 1 => if sintN w a < sintN w b then b else a
    | 2 => if sintN w b < sintN w a then b else a
    | 3 => wrapN ((sintN w a + sintN w b) / 2) w
    | 5 => a
    | _ => b
  else
    match comb with
    | 0 => (faddF f 0 a b).1
    | 1 => (minMaxNum f true a b).1
    | 2 => (minMaxNum f false a b).1
    | 3 =>
      let (x, _) := addEx 0 (readF f a) (readF f b)
      (deliver f 0 (match x with | .fin n m d e => .fin n m d (e - 1) | y => y, 0)).1
    | 4 => (deliver f 0 (lseEx (readF f a) (readF f b))).1
    | 5 => a
    | _ => b

/-- Elements of a byte string at width w = 8 · n. -/
def chunksOf (n : Nat) : (k : Nat) → List Byte → List Nat
  | 0, _ => []
  | k + 1, bs => leNat (bs.take n) :: chunksOf n k (bs.drop n)

/-- Merge two items elementwise. -/
def Instar.combine (i : Instar) (older newer : List Byte) : List Byte :=
  let n := fmtWidth i.fmt / 8
  (List.zipWith (fun a b => leBytes n (combineN i.comb i.fmt a b)) (chunksOf n i.elems older) (chunksOf n i.elems newer)).flatten

/-- A combiner is permitted for a format (R267). -/
def combOk (comb fmt : Nat) : Bool :=
  match comb with
  | 0 | 1 | 2 | 3 => fmt ≤ 6
  | 4 => fmt == 4
  | 5 | 6 | 7 => fmt ≤ 8
  | _ => false

/-- Bytes at a list of keys, and writing them. -/
def readKeys (m : List Host.Cell) (ks : List Nat) : List Byte := ks.map (Memory.get m)

def writeKeys : List Host.Cell → List Nat → List Byte → List Host.Cell
  | m, k :: ks, b :: bs => writeKeys (Memory.set m k b) ks bs
  | m, _, _ => m

/-- Replace a stream. -/
def setInstar : List Instar → Instar → List Instar
  | [], _ => []
  | x :: t, i => if x.ctx == i.ctx && x.handle == i.handle then i :: t else x :: setInstar t i

def State.instar (s : State) (ctx handle : Word) : Option Instar := s.instars.find? (fun i => i.ctx == ctx && i.handle == handle)

def State.putInstar (s : State) (i : Instar) : State := { s with instars := setInstar s.instars i }

end Sys2Proof.Machine
end

