-- ==== Sys2Proof/Machine/NmuExec.lean ====
section
/-!
DEFINITION. The kernel engine of a near-memory unit (R276 to R282): one word of a kernel, its row steps, and how a kernel
ends.  The word is read by its fields (R91 to R102); a word that `decode` refuses never comes here.
-/

namespace Sys2Proof.Machine

/-! ## Statuses (R215) -/

def nmPending : Nat := 0
def nmDone : Nat := 1
def nmFault : Nat := 2
def nmAccess : Nat := 3
def nmData : Nat := 4
def nmBadseg : Nat := 5
def nmUnknown : Nat := 6

/-- Die of a channel (R215). -/
def channelDie (ch : Nat) : Nat := ch / 96

/-! ## Ending a command -/

/-- Keep a status; a channel keeps its last 256 (R215). -/
def Nmu.report (n : Nmu) (hidden : Bool) (token ctx : Word) (code : Nat) (addr : Word) : Nmu :=
  let x : CmdStatus := { token := token, ctx := ctx, code := code, addr := addr, hidden := hidden }
  { n with log := (x :: n.log).filter (fun y => n.seq < y.token.toNat % 2 ^ 55 + 256) }

/-- Finish a PROG merge: the item table is updated when its kernel ended with DONE, else the stream halts (R268, R272). -/
def State.endMerge (s : State) (ctx handle : Word) (ok : Bool) : State :=
  match s.instar ctx handle with
  | none => s
  | some i =>
    match i.due with
    | none => s
    | some k => s.putInstar (if ok then i.mergeDone k (i.freeSlot (k + 1)) else { i with halted := true })

/-- Free the range-checker entry of a command with a local output (R187, R245). -/
def State.dropOut (s : State) (c : NmuCmd) : State :=
  match c.out with
  | none => s
  | some (cl, _, _) =>
    let k := s.cluster cl
    s.setCluster cl { k with pool := k.pool.filter (fun x => !(x.engine == .nmuOut && x.token == c.token)) }

/-- A command ends: its window is released, its range-checker entry is freed and its status is kept; a PROG merge ends its
stream's merge instead (R215, R268). -/
def State.endCmd (s : State) (ch : Nat) (c : NmuCmd) (code : Nat) (addr : Word) : State :=
  let s := ((s.dropOut c).mapHarts (Hart.commandEnded c.owner)).releaseHolds
  match c.kind with
  | .merge ctx handle => s.endMerge ctx handle (code == nmDone)
  | _ => s.setNmu ch ((s.nmu ch).report (s.ctxStopped c.ctx) c.token c.ctx code addr)

/-- End the running command of a channel: its registers are zeroed (R276), its status is kept, and refreshes that fell due are performed
(R252). -/
def State.nmuEnd (s : State) (ch : Nat) (r : NmuRun) (code : Nat) (addr : Word) : State :=
  (s.setNmu ch { s.nmu ch with run := none, due := [] }).endCmd ch r.cmd code addr

/-- The NMU fault: status FAULT; the supervisor's log records the kernel address and the failing word (R278). -/
def State.nmuFault (s : State) (ch : Nat) (r : NmuRun) (w : BitVec 32) : State :=
  ((s.logS "NMU kernel" (r.cmd.block.getD 0 0)).logS "NMU word" (w.setWidth 64)).nmuEnd ch r nmFault 0

/-! ## Row steps (R277) -/

/-- Where a segment lies. -/
inductive Seg where
  | ok (key : Nat)
  | page
  | access
  /-- An entry of its walk lies in a segment that another kernel's window holds (R250). -/
  | held
  deriving DecidableEq, Repr

/-- Storage of a ready stream that the command may not touch (R277); a PROG merge works on its own stream. -/
def State.segBarred (s : State) (k : NmuKind) (key : Nat) : Bool :=
  s.instars.any (fun i => i.segs.any (fun p => p ≤ key && key < p + 256) &&
    (match k with | .merge ctx h => !(i.ctx == ctx && i.handle == h) | _ => true))

/-- Translate a segment of the kernel of channel `ch`. -/
def State.nmuSeg (s : State) (ch : Nat) (r : NmuRun) (a : Word) (kind : AKind) : Seg × State :=
  if !canonical a || inLocal a || inReserved a || a.toNat % 256 != 0 then (.access, s) else
  match s.xlateUnit (channelDie ch) r.cmd.ctx r.cmd.sptb a kind with
  | (none, s) => (.held, s)
  | (some (.bad 5), s) => (if r.paged.contains (pageOf a) then .access else .page, s)
  | (some (.bad _), s) => (.access, s)
  | (some (.ok pa), s) =>
    match s.target pa with
    | .hbm off =>
      let key := s.paKey pa
      if channelOf off == ch && !s.segBarred r.cmd.kind key then (.ok key, s) else (.access, s)
    | _ => (.access, s)

/-- A row step in progress: the keys of the segments found so far, or how it ends. -/
inductive Row where
  | keys (ks : List Nat)
  | wait (addr : Word)
  | fail (code : Nat) (addr : Word)
  | held
  deriving DecidableEq, Repr

/-- Segments k, k + 1, …, `n` of them, of a row step. -/
def State.rowKeys (s : State) (ch : Nat) (r : NmuRun) : (n k : Nat) → Row × State
  | 0, _ => (.keys [], s)
  | n + 1, k =>
    let a := r.rp + BitVec.ofNat 64 (0x2000 * k)
    match s.nmuSeg ch r a .read with
    | (.page, s) => (.wait a, s)
    | (.access, s) => (.fail nmAccess a, s)
    | (.held, s) => (.held, s)
    | (.ok key, s) =>
      if s.poisonIn key 256 then (.fail nmData a, s) else
      match s.rowKeys ch r n (k + 1) with
      | (.keys ks, s) => (.keys (key :: ks), s)
      | x => x

/-- A 256-byte segment as a register. -/
def segReg (m : List Host.Cell) (key : Nat) : BitVec 2048 := BitVec.ofNat 2048 (leNat (Memory.getList m key 256))

def reg16 (n : Nat) : Fin 16 := ⟨n % 16, Nat.mod_lt _ (by decide)⟩

/-- Load s0, s1, … from the segments. -/
def loadSegs (m : List Host.Cell) : (k : Nat) → List Nat → Vector (BitVec 2048) 16 → Vector (BitVec 2048) 16
  | _, [], v => v
  | k, key :: t, v => loadSegs m (k + 1) t (v.set (reg16 k) (segReg m key))

/-- Set a running kernel. -/
def State.putRun (s : State) (ch : Nat) (r : NmuRun) : State := s.setNmu ch { s.nmu ch with run := some r }

/-- Ask for a page for a kernel. -/
def State.nmuPage (s : State) (ch : Nat) (r : NmuRun) (a : Word) : State :=
  let (id, s) := s.askPage (.nmu ch) r.cmd.ctx a
  s.putRun ch { r with wait := some id, paged := pageOf a :: r.paged }

/-- The agent identifier of a near-memory unit (R345). -/
def nmuAgent (ch : Nat) : Nat := 4 * 2 ^ 12 + ch

/-- Note the accesses of a kernel to some segments; a merge strikes no watchpoint (R338). -/
def State.nmuWatch (s : State) (ch : Nat) (c : NmuCmd) (wk : WKind) : List Nat → State
  | [] => s
  | key :: t =>
    match c.kind with
    | .merge _ _ => s
    | _ => (s.agentAccess (s.ownerLaunch c.owner) (nmuAgent ch) none wk key 256).nmuWatch ch c wk t

/-- A row step of `r`, continuing with `after`: the window held before it is released and the new one is held (R281); refreshes that fell due are performed (R252).  It
counts one step.  While a page is missing the kernel stays at `before`. -/
def State.rowStep (s : State) (ch : Nat) (before r : NmuRun) (after : NmuRun → State → State) : State :=
  s.orHeld (fun s => match s.rowKeys ch r r.c 0 with
    | (.wait a, s) => s.nmuPage ch before a
    | (.fail code a, s) => s.nmuEnd ch r code a
    | (.held, s) => s.putRun ch before
    | (.keys ks, s) =>
      after { r with v := loadSegs s.mem 0 ks r.v, window := ks, steps := r.steps + 1, wait := none, paged := [] }
        ((s.setNmu ch { s.nmu ch with due := [] }).nmuWatch ch r.cmd .read ks).releaseHolds)

/-! ## Registers of the kernel -/

def NmuRun.rx (r : NmuRun) (n : Nat) : Word := if n % 16 == 0 then 0 else r.x[reg16 n]
def NmuRun.wx (r : NmuRun) (n : Nat) (y : Word) : NmuRun := if n % 16 == 0 then r else { r with x := r.x.set (reg16 n) y }
def NmuRun.rv (r : NmuRun) (n : Nat) : Nat := (r.v[reg16 n]).toNat
def NmuRun.wv (r : NmuRun) (n : Nat) (y : Nat) : NmuRun := { r with v := r.v.set (reg16 n) (BitVec.ofNat 2048 y) }

/-- Element width of the kernel's vtype. -/
def NmuRun.w (r : NmuRun) : Nat := fmtWidth (r.vtype % 16)

/-- Elements 0 to vl − 1 from `f`, the others kept. -/
def nmuPack (w : Nat) (f : Nat → Nat) : (n i vl : Nat) → (old : Nat) → Nat
  | 0, _, _, _ => 0
  | n + 1, i, vl, old => (if i < vl then f i % 2 ^ w else old % 2 ^ w) + 2 ^ w * nmuPack w f n (i + 1) vl (old / 2 ^ w)

/-- Element 0 written, every other position kept or, with ta = 1, all ones (R145, R278). -/
def nmuRedWrite (w : Nat) (ta : Bool) (x old : Nat) : Nat :=
  x % 2 ^ w + (if ta then (2 ^ 2048 - 1) / 2 ^ w * 2 ^ w else old / 2 ^ w * 2 ^ w)

/-! ## Moving on (R115, R279) -/

/-- The next word in sequence, with the end step of R115. -/
def NmuRun.next (r : NmuRun) : NmuRun :=
  if r.armed && r.pc == r.lend then
    (if r.lc ≤ 1 then { r with lc := 0, armed := false, pc := r.lend + 1 } else { r with lc := r.lc - 1, pc := r.lbeg })
  else { r with pc := r.pc + 1 }

/-- A taken branch (R115). -/
def NmuRun.branch (r : NmuRun) (t : Nat) : NmuRun :=
  let inside (a : Nat) : Bool := r.lbeg ≤ a && a ≤ r.lend
  { r with pc := t, armed := r.armed && !(inside r.pc && !inside t) }

/-- Store the kernel after an instruction; at 2^20 steps it faults (R279). -/
def State.nmuStep (s : State) (ch : Nat) (w : BitVec 32) (r : NmuRun) : State :=
  if r.steps ≥ 2 ^ 20 then s.nmuFault ch r w else s.putRun ch r

/-- Count the instruction and go on in sequence. -/
def State.nmuDone (s : State) (ch : Nat) (w : BitVec 32) (r : NmuRun) : State :=
  s.nmuStep ch w { r with steps := r.steps + 1 }.next

/-! ## The words of the subset (R278) -/

/-- Target of a branch or LOOP offset, when it lies in the kernel. -/
def nmuTarget (pc : Nat) (off : BitVec 16) : Option Nat :=
  let t : Int := (pc : Int) + off.toInt
  if 0 ≤ t && t < 256 then some t.toNat else none

/-- Whether a branch of major 0x18 to 0x1D is taken (R112). -/
def branchTaken (major : Nat) (a b : Word) : Bool :=
  match major with
  | 0x18 => a == b
  | 0x19 => a != b
  | 0x1A => a.slt b
  | 0x1B => !a.slt b
  | 0x1C => a.ult b
  | _ => !a.ult b

/-- VINT and VFP in an NMU: RNE, no flags. -/
def State.nmuVector (s : State) (ch : Nat) (w : BitVec 32) (r : NmuRun) (fp : Bool) : State :=
  let o := wV w
  let op := w.toNat % 32
  let fmt := r.vtype % 16
  let ok := !o.m && !o.ta && !o.ma && !o.e && !o.q && !o.i && o.vd.toNat < 16 && o.vs1.toNat < 16 && o.vs2.toNat < 16
  let fine := if fp then op ≤ 15 && [4, 5, 6].contains fmt else op ≤ 23 && fmt < 4
  if !(ok && fine) then s.nmuFault ch r w else
  let a := r.rv o.vs1.toNat
  let b := r.rv o.vs2.toNat
  let d := r.rv o.vd.toNat
  let n := r.w
  let f (i : Nat) : Nat :=
    if fp then (vfpN op (ffmt fmt) (ffmt fmt) 0 (elemN a n i) { bits := elemN b n i, fmt := ffmt fmt } (elemN d n i)).val
    else (vintN op n (elemN a n i) (elemN b n i) (elemN d n i)).val
  s.nmuDone ch w (r.wv o.vd.toNat (nmuPack n f (2048 / n) 0 r.vl d))

/-- VRED in an NMU. -/
def State.nmuReduce (s : State) (ch : Nat) (w : BitVec 32) (r : NmuRun) : State :=
  let o := wV w
  let op := w.toNat % 32
  let fmt := r.vtype % 16
  let vd := o.vd.toNat
  let clash := op == 5 && (vd % 2 != 0 || o.vs1.toNat == vd + 1 || o.vs2.toNat == vd + 1)
  if o.m || o.ma || o.e || o.q || o.i || vd ≥ 16 || o.vs1.toNat ≥ 16 || o.vs2.toNat ≥ 16
      || !(vredFormats op).contains fmt || clash then s.nmuFault ch r w
  else if r.vl == 0 then s.nmuDone ch w r else
  let n := r.w
  let a := r.rv o.vs1.toNat
  let z := vredN op n (ffmt fmt) 0 0 (elemN (r.rv o.vs2.toNat) n 0) ((List.range r.vl).map (fun i => some (elemN a n i)))
  let r1 := r.wv vd (nmuRedWrite n o.ta z.val (r.rv vd))
  s.nmuDone ch w (if op == 5 then r1.wv (vd + 1) (nmuRedWrite n o.ta z.err (r.rv (vd + 1))) else r1)

/-- NRSEEK (R280). -/
def State.nmuSeek (s : State) (ch : Nat) (w : BitVec 32) (r : NmuRun) : State :=
  let a := (wA w).toNat
  let y := (r.rx (a + 1)).toNat
  let c := y / 2 ^ 48 % 32
  let rs := BitVec.ofInt 64 (sintN 48 (y % 2 ^ 48))
  if a % 2 == 1 || a == 0 || a ≥ 15 || y / 2 ^ 53 != 0 || c > 16 || rs.toNat % 0x2000 != 0 then s.nmuFault ch r w
  else s.rowStep ch r { r with rp := r.rx a, rs := rs, c := c } (fun r s => s.nmuDone ch w r)

/-- NRWB (R280): 256 bytes to a segment of the kernel's own channel. -/
def State.nmuWriteBack (s : State) (ch : Nat) (w : BitVec 32) (r : NmuRun) : State :=
  let v := (wD w).toNat
  if v > 15 then s.nmuFault ch r w else
  let a := r.rp + BitVec.ofNat 64 (0x2000 * (if v < r.c then v else 0))
  s.orHeld fun s => match s.nmuSeg ch r a .write with
  | (.page, s) => s.nmuPage ch r a
  | (.access, s) => s.nmuEnd ch r nmAccess a
  | (.held, s) => s.putRun ch r
  | (.ok key, s) =>
    let s := { s with mem := Memory.setList s.mem key (leBytes 256 (r.rv v)) }
    (s.nmuWatch ch r.cmd .write [key]).nmuDone ch w { r with paged := [] }

/-- Execute one word of the kernel of channel `ch` (R278). -/
def State.nmuWord (s : State) (ch : Nat) (w : BitVec 32) : State :=
  match (s.nmu ch).run with
  | none => s
  | some r =>
    let major := (wMajor w).toNat
    let d := (wD w).toNat
    let a := (wA w).toNat
    let b := (wB w).toNat
    match major with
    | 0x00 => if w.toNat / 2 ^ 12 % 16 == 0xD then s.nmuEnd ch { r with steps := r.steps + 1 } nmDone 0 else s.nmuFault ch r w
    | 0x03 =>
      if d ≥ 16 || a ≥ 16 then s.nmuFault ch r w
      else s.nmuDone ch w (r.wx d (r.rx a + (wImm w).signExtend 64))
    | 0x04 =>
      if d ≥ 16 || a ≥ 16 || b ≥ 16 then s.nmuFault ch r w
      else s.nmuDone ch w (r.wx d (BitVec.ofNat 64 (aluN (wFn w).toNat 64 (r.rx a).toNat (r.rx b).toNat)))
    | 0x18 | 0x19 | 0x1A | 0x1B | 0x1C | 0x1D =>
      if d ≥ 16 || a ≥ 16 then s.nmuFault ch r w else
      match nmuTarget r.pc (wImm w) with
      | none => s.nmuFault ch r w
      | some t =>
        if branchTaken major (r.rx d) (r.rx a) then s.nmuStep ch w ({ r with steps := r.steps + 1 }.branch t)
        else s.nmuDone ch w r
    | 0x20 =>
      match nmuTarget r.pc (wImm w) with
      | none => s.nmuFault ch r w
      | some t =>
        if d ≥ 16 || r.armed then s.nmuFault ch r w else
        let n := r.rx d
        let r1 := { r with lbeg := r.pc + 1, lend := t, lc := n, armed := n != 0, steps := r.steps + 1 }
        s.nmuStep ch w (if n == 0 then { r1 with pc := t + 1 } else { r1 with pc := r.pc + 1 })
    | 0x21 =>
      let vt := w.toNat % 2 ^ 10
      if w.getLsbD 10 || d ≥ 16 || a ≥ 16 || b != 0 || vt > 6 then s.nmuFault ch r w else
      let vl := min (r.rx a).toNat (2048 / fmtWidth vt)
      s.nmuDone ch w (({ r with vl := vl, vtype := vt } : NmuRun).wx d (BitVec.ofNat 64 vl))
    | 0x22 => s.nmuVector ch w r false
    | 0x24 => s.nmuVector ch w r true
    | 0x27 => s.nmuReduce ch w r
    | 0x3C =>
      match (wFn w).toNat with
      | 3 => s.rowStep ch r { r with rp := r.rp + r.rs } (fun r s => s.nmuDone ch w r)
      | 4 => s.nmuSeek ch w r
      | 5 => s.nmuWriteBack ch w r
      | _ => s.nmuFault ch r w
    | _ => s.nmuFault ch r w

end Sys2Proof.Machine
end

