-- ==== Sys2Proof/Machine/Streams.lean ====
section
/-!
DEFINITION. Streams: reading an element of an affine stream (R162, R164), the chunk decoders of compressed streams (R285
to R293), and what a consumer holds (R135, R387).
-/

namespace Sys2Proof.Machine

/-! ## The code of an image (R286) -/

/-- Symbols in code order: by length, then by value. -/
def codeOrder (lens : List Nat) : List (Nat × Nat) :=
  (List.range 15).flatMap (fun l => ((List.range 256).filter (fun s => lens.getD s 0 == l + 1)).map (fun s => (l + 1, s)))

/-- (length, code, symbol), each code following the one before. -/
def codeAssign : List (Nat × Nat) → (len code : Nat) → List (Nat × Nat × Nat)
  | [], _, _ => []
  | (l, s) :: t, len, code =>
    let c := code * 2 ^ (l - len)
    (l, c, s) :: codeAssign t l (c + 1)

def codeTable (lens : List Nat) : List (Nat × Nat × Nat) :=
  match codeOrder lens with
  | [] => []
  | (l, s) :: t => codeAssign ((l, s) :: t) l 0

/-- The first `l` bits from bit 0 up, the first one most significant. -/
def revBits : (l : Nat) → Nat → Nat
  | 0, _ => 0
  | l + 1, x => x % 2 * 2 ^ l + revBits l (x / 2)

/-- The codeword at the bottom of a buffer: its length and symbol. -/
def matchCode (table : List (Nat × Nat × Nat)) (buf : Nat) : Option (Nat × Nat) :=
  (table.find? (fun e => revBits e.1 buf == e.2.1)).map (fun e => (e.1, e.2.2))

/-- The lengths' sum Σ 2^(15 − len) over the present symbols. -/
def kraft (lens : List Nat) : Nat := lens.foldl (fun a l => if l == 0 then a else a + 2 ^ (15 - l)) 0

/-! ## One chunk (R289) -/

/-- A decoder lane: its buffer and the count of valid bits. -/
abbrev DLane := Nat × Nat

/-- Claims of one step, ascending lane; `left` symbols of the chunk are not yet begun. None when the words run out. -/
def claims : (lanes : List DLane) → (left : Nat) → (ws : List Nat) → Option (List DLane × List Nat)
  | [], _, ws => some ([], ws)
  | ls, 0, ws => some (ls, ws)
  | (b, n) :: t, left + 1, ws =>
    if n < 32 then
      match ws with
      | [] => none
      | x :: ws => (claims t left ws).map (fun r => ((b + x * 2 ^ n, n + 32) :: r.1, r.2))
    else (claims t left ws).map (fun r => ((b, n) :: r.1, r.2))

/-- Decodes of one step. -/
def decodes (table : List (Nat × Nat × Nat)) : (lanes : List DLane) → (left : Nat) → Option (List DLane × List Nat)
  | [], _ => some ([], [])
  | ls, 0 => some (ls, [])
  | (b, n) :: t, left + 1 =>
    match matchCode table b with
    | none => none
    | some (l, sym) => (decodes table t left).map (fun r => ((b / 2 ^ l, n - l) :: r.1, sym :: r.2))

/-- The steps of a chunk. -/
def chunkSteps (table : List (Nat × Nat × Nat)) : (steps : Nat) → (lanes : List DLane) → (left : Nat) → (ws : List Nat) →
    Option (List Nat)
  | 0, _, _, ws => if ws.isEmpty then some [] else none
  | n + 1, lanes, left, ws =>
    match claims lanes left ws with
    | none => none
    | some (lanes, ws) =>
      match decodes table lanes left with
      | none => none
      | some (lanes, syms) => (chunkSteps table n lanes (left - 16) ws).map (fun r => syms ++ r)

/-- The symbols of a chunk, none when it fails. -/
def decodeChunk (lens : List Nat) (ns : Nat) (ws : List Nat) : Option (List Nat) :=
  chunkSteps (codeTable lens) ((ns + 15) / 16) (List.replicate 16 (0, 0)) ns ws

/-! ## Reading the image (R285, R287, R293) -/

/-- How a read of an image ends. -/
inductive ImageRead (α : Type) where
  | ok (x : α)
  | page (addr : Word)
  | fail
  | data (addr : Word)

/-- Read `n` bytes (4 or 8) of an image; `paged` holds the pages whose request was answered. -/
def State.imageLoad (s : State) (qn : Nat) (paged : List Word) (a : Word) (n : Nat) : ImageRead Nat × State :=
  match s.loadN (.q (BitVec.ofNat 3 qn)) a n with
  | (.ok x, s) => (.ok x, s.strikeAhead a n 0x1FFF)
  | (.error t, s) => (if t.cause == 5 then (if paged.contains (pageOf a) then .fail else .page a) else if t.cause == 8 then .data a else .fail, s)

/-- Read `n` values of `k` bytes upward. -/
def State.imageLoads (s : State) (qn : Nat) (paged : List Word) (k : Nat) (a : Word) : (n : Nat) → ImageRead (List Nat) × State
  | 0 => (.ok [], s)
  | n + 1 =>
    match s.imageLoad qn paged a k with
    | (.ok x, s) =>
      (match s.imageLoads qn paged k (a + BitVec.ofNat 64 k) n with
       | (.ok xs, s) => (.ok (x :: xs), s)
       | (.page a, s) => (.page a, s)
       | (.fail, s) => (.fail, s)
       | (.data a, s) => (.data a, s))
    | (.page a, s) => (.page a, s)
    | (.fail, s) => (.fail, s)
    | (.data a, s) => (.data a, s)

/-- A nibble length table from its sixteen doublewords. -/
def lensOf (ds : List Nat) : List Nat := ds.flatMap (fun d => (List.range 16).map (fun k => d / 2 ^ (4 * k) % 16))

/-- Open the header (R285, R286). -/
def ImageState.openHeader (im : ImageState) (ds : List Nat) : ImageState :=
  let t := ds.getD 0 0
  let nc := ds.getD 1 0
  let lens := lensOf (ds.drop 2)
  if t ≥ 2 ^ 48 || nc ≥ 2 ^ 32 || t == 0 || nc == 0 || kraft lens == 0 || kraft lens > 2 ^ 15 then
    { im with opened := true, fail := some .decode }
  else { im with total := t, chunks := nc, lens := lens, opened := true, next := 0, addr := im.header + 144 }

/-- The next thing a decoder does for a stream: read its header, or decode its next chunk (R289 to R292).  The address of
a page it waits for is answered instead. -/
def State.imageStep (s : State) (qn : Nat) (im : ImageState) : Except Word ImageState × State :=
  if im.fail.isSome || (im.opened && im.next ≥ im.chunks) then (.ok im, s)
  else if !im.opened then
    match s.imageLoads qn im.paged 8 im.header 18 with
    | (.ok ds, s) => (.ok { im.openHeader ds with paged := [] }, s)
    | (.page a, s) => (.error a, s)
    | (.fail, s) => (.ok { im with opened := true, fail := some .decode }, s)
    | (.data a, s) => (.ok { im with opened := true, fail := some (.data a) }, s)
  else
    match s.imageLoad qn im.paged im.addr 8 with
    | (.page a, s) => (.error a, s)
    | (.fail, s) => (.ok { im with fail := some .decode }, s)
    | (.data a, s) => (.ok { im with fail := some (.data a) }, s)
    | (.ok hd, s) =>
      let ns := hd % 2 ^ 32
      let nw := hd / 2 ^ 32
      if nw == 0 || nw > 2 ^ 20 || ns == 0 || ns > 65536 || im.done + ns > im.total
          || (im.next + 1 == im.chunks && im.done + ns < im.total) then
        (.ok { im with fail := some .decode }, s)
      else
        match s.imageLoads qn im.paged 4 (im.addr + 8) nw with
        | (.page a, s) => (.error a, s)
        | (.fail, s) => (.ok { im with fail := some .decode }, s)
        | (.data a, s) => (.ok { im with fail := some (.data a) }, s)
        | (.ok ws, s) =>
          match decodeChunk im.lens ns ws with
          | none => (.ok { im with fail := some .decode }, s)
          | some syms =>
            (.ok { im with paged := [], next := im.next + 1, done := im.done + ns, syms := im.syms ++ syms,
                           marks := im.marks ++ [(im.next, im.addr, im.done)],
                           addr := im.addr + BitVec.ofNat 64 ((8 + 4 * nw + 7) / 8 * 8) }, s)

/-! ## What a consumer holds (R164, R166) -/

/-- Where an instruction stops: the first position not written, its cause and tval, the page request it waits for (R293), the
element that failed when that is another (R171), and whether it only stops between element groups (R310). -/
structure Limit where
  elem  : Nat
  cause : Nat
  tval  : Word
  wait  : Option Nat := none
  fails : Option Nat := none
  cut   : Bool := false
  deriving DecidableEq, Repr

/-- Fetch position p of an affine load stream (R156, R164). -/
def State.fetchAffine (s : State) (qn : Nat) (d : AffDesc) (p elem : Nat) : Except Trap Nat × State :=
  let a := d.addr p
  let n := fmtWidth d.fmt / 8
  if a.toNat % n != 0 then (.error { cause := 4, tval := a }, s)
  else match s.loadN (.q (BitVec.ofNat 3 qn)) a n with
    | (.ok x, s) => (.ok x, s.strike .read a n elem)
    | (.error t, s) => (.error t, s)

/-- The stream unit fetches the next element of queue `qn` ahead of its consumers; a fetch that fails, or must wait, is left to them
(R164). -/
def State.fetchAhead (s : State) (qn : Nat) : State := match s.cur.rq qn with
  | .load d p xs =>
    let a := d.addr (p + xs.length)
    if d.total ≤ p + xs.length || a.toNat % (fmtWidth d.fmt / 8) != 0 then s else
    (match ({ s with blocked := none } : State).loadN (.q (BitVec.ofNat 3 qn)) a (fmtWidth d.fmt / 8) with
     | (.ok x, t) => if t.blocked.isSome then s
         else
           let u := t.tellHart a (fmtWidth d.fmt / 8) none sortRead []
           if u.blocked.isSome then s else { u with blocked := s.blocked, cur := u.cur.wq qn (.load d p (xs ++ [x])) }
     | _ => s)
  | _ => s

/-- What the stream units fetched ahead of an instruction that orders later accesses of some queues is fetched again (R111, R124). -/
def Hart.refetch (h : Hart) (sel : Nat → Bool) : Hart :=
  { h with q := Vector.ofFn (fun k => match h.q[k] with
      | .load d p xs => .load d p (if sel k.val then [] else xs)
      | x => x) }

/-- The page at an address that a read of an image needs is asked for (R260, R293). -/
def State.askImage (s : State) (qn : Nat) (im : ImageState) (pos : Nat) (a : Word) : Nat × State :=
  let (id, s) := s.askPage (.image s.cur.key qn) s.cur.sctx a
  (id, { s with cur := s.cur.wq qn (.image { im with ask := some id } pos) })

/-- Deliver position p of a compressed stream, decoding the chunks before it as needed. -/
def State.fetchImage (s : State) (qn p elem : Nat) : (fuel : Nat) → ImageState → Nat → Except Limit Nat × State
  | 0, _, _ => (.ok 0, s)
  | fuel + 1, im, pos =>
    if p < im.done then (.ok (im.syms.getD p 0), s)
    else match im.fail with
      | some .decode => (.error { elem := elem, cause := 9, tval := BitVec.ofNat 64 elem }, s)
      | some (.data a) => (.error { elem := elem, cause := 8, tval := a }, s)
      | none =>
        if im.opened && im.next ≥ im.chunks then (.ok 0, s) else
        if im.ask.isSome then (.error { elem := elem, cause := 5, tval := 0, wait := im.ask }, s) else
        match s.imageStep qn im with
        | (.error a, s) =>
          let (id, s) := s.askImage qn im pos a
          (.error { elem := elem, cause := 5, tval := a, wait := some id }, s)
        | (.ok im, s) => ({ s with cur := s.cur.wq qn (.image im pos) } : State).fetchImage qn p elem fuel im pos

/-- Fetch one held position of queue `qn`. -/
def State.fetchHeld (s : State) (qn p elem : Nat) : Except Limit Nat × State :=
  match s.cur.rq qn with
  | .load d _ _ =>
    (match s.fetchAffine qn d p elem with
     | (.ok x, s) => (.ok x, s)
     | (.error t, s) => (.error { elem := elem, cause := t.cause, tval := t.tval }, s))
  | .image im pos => s.fetchImage qn p elem (p + 3) im pos
  | _ => (.ok 0, s)

/-- Note the watchpoints that an element fetched ahead of its consumer matches (R338). -/
def State.strikeGot (s : State) (qn p elem : Nat) : State := match s.cur.rq qn with
  | .load d _ _ => s.noteStrike .read (d.addr p) (fmtWidth d.fmt / 8) elem
  | _ => s

/-- Fetch what is held, in order, up to the first failure; `place` gives an element's index (R135, R164: every element taken
is fetched, those below `vstart` too). -/
def State.resolve (s : State) (qn : Nat) (place : Nat → Nat) : (j : Nat) → List Held → List Held × Option Limit × State
  | _, [] => ([], none, s)
  | j, .val x :: t =>
    let (r, l, s) := s.resolve qn place (j + 1) t
    (.val x :: r, l, s)
  | j, .got p x :: t =>
    let (r, l, s) := (s.strikeGot qn p (place j)).resolve qn place (j + 1) t
    (.val x :: r, l, s)
  | j, .pos p :: t =>
    match s.fetchHeld qn p (place j) with
    | (.error l, s) => (.pos p :: t, some l, s)
    | (.ok x, s) =>
      let (r, l, s) := s.resolve qn place (j + 1) t
      (.val x :: r, l, s)

/-- The value of the j-th held element. -/
def heldVal (hs : List Held) (j : Nat) : Nat := match hs.getD j (.val 0) with | .val x => x | .pos _ => 0 | .got _ x => x

/-- A source in vs1: its elements, what is held, where the take stops, and how many positions above its own an element is
needed at: a position at or above the stop less `back` is not written yet (R171). -/
structure Src where
  elem  : Nat → Nat
  held  : Option (List Held) := none
  limit : Option Limit := none
  back  : Nat := 0

/-- Take and fetch `n` elements of width `w` from queue `qn`, or use what the re-issued entry holds (R135); none where
check 4 refuses. -/
def State.takeQ (s : State) (qn n w : Nat) (place : Nat → Nat) : Option ((List Held × Option Limit) × State) :=
  match s.cur.reissue.bind (fun e => e.held) with
  | some hs =>
    let (r, l, s) := s.resolve qn place 0 hs
    some ((r, l), s)
  | none =>
    match takeQueue (s.cur.rq qn) n w with
    | none => none
    | some (hs, q) =>
      let s : State := { s with cur := s.cur.wq qn q }
      let (r, l, s) := s.resolve qn place 0 hs
      some ((r, l), s)

end Sys2Proof.Machine
end

