-- ==== Sys2Proof/Machine/VecOps.lean ====
section
/-!
DEFINITION. How a vector instruction of a hart writes (R134, R138): the scan over its element positions with its flags
and traps, the destinations, the copy (R64) and the exception mask (R65), and the shape checks 3 and 4 (R122, R136, R137).
-/

namespace Sys2Proof.Machine

/-! ## The scan (R134, R24) -/

/-- What happens to one element position. -/
inductive Slot where
  | keep | off | tail
  | res (r : ERes)
  deriving DecidableEq, Repr

/-- The slots up to the element where the instruction stopped; every later position is kept. -/
structure Scan where
  slots : List Slot
  flags : Nat
  stop  : Option Limit
  deriving DecidableEq, Repr

def Scan.cons (x : Slot) (fl : Nat) (r : Scan) : Scan := { slots := x :: r.slots, flags := fl ||| r.flags, stop := r.stop }

/-- Positions i, i + 1, …, `n` of them: `en` holds the enabled flags, `lim` the failed element of a queue source, `kept`
the positions an instruction leaves whatever ma says. -/
def scan (c : VCtx) (en : Nat) (lim : Option Limit) (kept : Nat → Bool) (f : Nat → ERes) : (n i : Nat) → Scan
  | 0, _ => { slots := [], flags := 0, stop := none }
  | n + 1, i =>
    if lim.any (fun l => l.elem == i) then { slots := [], flags := 0, stop := lim }
    else if i < c.vstart then (scan c en lim kept f n (i + 1)).cons .keep 0
    else if !c.granted i then (scan c en lim kept f n (i + 1)).cons .tail 0
    else if kept i then (scan c en lim kept f n (i + 1)).cons .keep 0
    else if !c.gov i then (scan c en lim kept f n (i + 1)).cons .off 0
    else
      let r := f i
      match r.trap with
      | some cause => { slots := [], flags := r.flags, stop := some { elem := i, cause := cause, tval := BitVec.ofNat 64 i } }
      | none =>
        if r.flags &&& en != 0 then
          { slots := [], flags := r.flags, stop := some { elem := i, cause := 0xF, tval := BitVec.ofNat 64 i } }
        else (scan c en lim kept f n (i + 1)).cons (.res r) r.flags

/-! ## Destinations -/

/-- A destination: its first register, its registers, its element width and which part of a result it takes. -/
structure Dest where
  base  : Nat
  regs  : Nat
  width : Nat
  pick  : ERes → Nat

/-- What a slot writes: none leaves the element. -/
def Slot.write (ta ma : Bool) (w : Nat) (pick : ERes → Nat) : Slot → Option Nat
  | .keep => none
  | .off => if ma then some (2 ^ w - 1) else none
  | .tail => if ta then some (2 ^ w - 1) else none
  | .res r => some (pick r % 2 ^ w)

/-- Bit i of the exception mask (R65). -/
def Slot.emask (ta : Bool) (sel : Nat) : Slot → Option Nat
  | .keep => none
  | .off => some 0
  | .tail => if ta then some 1 else none
  | .res r => some (b2n (r.flags &&& sel != 0))

/-- The first `n` elements of width `w`, replaced where a write stands. -/
def packElems (w : Nat) : (n : Nat) → (old : Nat) → List (Option Nat) → Nat
  | 0, _, _ => 0
  | _ + 1, old, [] => old
  | n + 1, old, x :: t => x.getD (old % 2 ^ w) + 2 ^ w * packElems w n (old / 2 ^ w) t

/-- Write elements into registers base, base + 1, …; a register is written (and marked dirty) when an element of it is. -/
def Hart.writeRegs (h : Hart) (w : Nat) : (base regs : Nat) → List (Option Nat) → Hart
  | _, 0, _ => h
  | base, regs + 1, ws =>
    let e := h.regBits / w
    let mine := ws.take e
    let h' := if mine.any (fun x => x.isSome) then h.wv base (BitVec.ofNat 4096 (packElems w e (h.vN base) mine)) else h
    Hart.writeRegs h' w (base + 1) regs (ws.drop e)

def Hart.writeDest (h : Hart) (ta ma : Bool) (slots : List Slot) (d : Dest) : Hart :=
  h.writeRegs d.width d.base d.regs (slots.map (Slot.write ta ma d.width d.pick))

/-- Element positions of a destination. -/
def VCtx.positions (c : VCtx) (d : Dest) : Nat := d.regs * (256 * c.lanes / d.width)

/-- The modifier bits and exception-mask register of an instruction. -/
structure VMods where
  ta : Bool := false
  ma : Bool := false
  em : Option Nat := none

def VMods.of (h : Hart) (o : VOp) : VMods := { ta := o.ta, ma := o.ma, em := if o.e then some ((pfxEmask h.pfx).getD 31) else none }

/-- `vxflags` select and enables (R24). -/
def Hart.sel (h : Hart) : Nat := h.vxsel.toNat % 128
def Hart.enabled (h : Hart) : Nat := h.vxsel.toNat / 2 ^ 16 % 128

/-- End a vector instruction: it completes with `vstart` = 0, or stops at an element, holding what it took (R24, R135, R310). -/
def vecEnd (s : State) (h : Hart) (held : Option (List Held)) : Option Limit → Flow
  | none => .done { s with cur := { h with vstart := 0 } }
  | some l =>
    .trap { cause := l.cause, tval := l.tval, vec := true, held := held, start := l.fails.map (fun v => (v, l.elem)), wait := l.wait, cut := l.cut }
      { s with cur := { h with vstart := BitVec.ofNat 64 (l.fails.getD l.elem) } }

/-- Where a failed queue element stops the writing: at its own position, or `back` positions lower, but not below `first` (R164,
R171). -/
def Limit.holding (l : Limit) (first back : Nat) : Limit :=
  let e := max first (l.elem - back)
  if e == l.elem then l else { l with elem := e, fails := some l.elem }

/-- The stop between element groups asked of the instruction, for a strip whose writing begins at `first` (R310). -/
def State.cutAt (s : State) (first : Nat) : Option Limit :=
  s.cut.map (fun n => { elem := max first n, cause := 0, tval := 0, cut := true })

/-- The lower of two stops. -/
def Limit.lower : Option Limit → Option Limit → Option Limit
  | some a, some b => some (if b.elem < a.elem then b else a)
  | some a, none => some a
  | none, b => b

/-- Run an elementwise instruction under the template of R134. -/
def State.elementwise (s : State) (c : VCtx) (md : VMods) (dests : List Dest) (src : Src) (f : Nat → ERes)
    (kept : Nat → Bool := fun _ => false) : Flow :=
  if c.vl == 0 then .done { s with cur := { s.cur with vstart := 0 } } else
  let n := (dests.map c.positions).foldl max (if md.em.isSome then 256 * c.lanes else 0)
  let fails := src.limit.map (fun l => l.holding c.vstart src.back)
  let r := scan c s.cur.enabled (Limit.lower fails (s.cutAt c.vstart)) kept f n 0
  let h := dests.foldl (fun h d => h.writeDest md.ta md.ma r.slots d) s.cur
  let h := match md.em with
    | some k => h.writeRegs 1 k 1 (r.slots.map (Slot.emask md.ta h.sel))
    | none => h
  vecEnd s (h.raise r.flags) src.held (r.stop.or fails)

/-! ## Checks 3 and 4 (R122, R136, R137) -/

/-- The operand shape of a V-format instruction: accepted formats, registers of the vs1 and vs2 groups (0 = no group),
destination registers per half, halves, and what its entry adds. -/
structure Shape where
  formats : List Nat
  n1      : Nat
  n2      : Nat
  nd      : Nat
  halves  : Nat := 1
  rounds  : Bool := false
  copy    : Bool := true
  flat    : Bool := false
  clash   : Bool := false

/-- An illegal-instruction trap of a vector instruction; the trap's value, the word, is put in by `perform`. -/
def illegalV (s : State) : Flow := .trap { cause := 1, tval := 0, vec := true } s

/-- The copy register's destination, when there is one (R64). -/
def Hart.copyDest (h : Hart) (d : Dest) : List Dest :=
  match pfxCopy h.pfx with
  | some k => [{ d with base := k }]
  | none => []

/-- Registers an exception mask must stay clear of (R65, R137). -/
def emClear (h : Hart) (em : Option Nat) (groups : List (Nat × Nat)) (nd : Nat) : Bool :=
  match em with
  | none => true
  | some k =>
    groups.all (fun p => !overlap k 1 p.1 p.2) &&
      (match pfxCopy h.pfx with | some c => !overlap k 1 c nd | none => true)

/-- Checks 3 and 4 of a V-format instruction. -/
def vCheck (h : Hart) (o : VOp) (c : VCtx) (k : Shape) : Bool :=
  let d := o.vd.toNat
  let s1 := o.vs1.toNat
  let s2 := o.vs2.toNat
  let n1 := if o.q then 0 else k.n1
  let nd := k.nd * k.halves
  pfxFits h.pfx { pred := o.m, copy := k.copy, emask := o.e, rm := k.rounds } &&
  (match pfxCopy h.pfx with | some r => r % k.nd == 0 | none => true) &&
  k.formats.contains c.fmt && !(k.flat && c.twoD) &&
  groupOk d nd && (n1 == 0 || groupOk s1 n1) && (k.n2 == 0 || groupOk s2 k.n2) &&
  !(o.m && overlap c.maskReg 1 d nd) && !k.clash &&
  emClear h (if o.e then some ((pfxEmask h.pfx).getD 31) else none) [(d, nd), (s1, n1), (s2, k.n2)] nd

/-- The lowest `n` bits of a group of registers as they stand in another file. -/
def Hart.takeLow (h : Hart) (old : Vector (BitVec 4096) 32) : (base regs n : Nat) → Hart
  | _, 0, _ => h
  | base, regs + 1, n =>
    let k := min n h.regBits
    let x := (h.rv base).toNat / 2 ^ k * 2 ^ k + (old[reg32 base]).toNat % 2 ^ k
    Hart.takeLow { h with v := h.v.set (reg32 base) (BitVec.ofNat 4096 x) } old (base + 1) regs (n - h.regBits)

/-- The hart as an instruction that was stopped reads its sources when it is issued again: the destination elements below `vstart`, which it
has written, as they were when it began (R66, R170). -/
def Hart.asIssued (h : Hart) (ds : List Dest) : Hart := match h.reissue.bind (fun e => e.old) with
  | none => h
  | some old => ds.foldl (fun h d => h.takeLow old d.base d.regs (h.vstart.toNat * d.width)) h

/-- vs1 as a source of width `w`: a group of `n` registers, read in `from_`, or a queue; none where check 4 refuses. -/
def State.src1 (s : State) (o : VOp) (c : VCtx) (w n : Nat) (from_ : Hart := s.cur) : Option (Src × State) :=
  if o.q then
    match s.takeQ (o.vs1.toNat % 8) c.count w c.place with
    | none => none
    | some ((hs, l), s) =>
      some ({ elem := fun i => match c.queuePlace i with | some j => heldVal hs j | none => 0, held := some hs, limit := l }, s)
  else
    let x := from_.groupN o.vs1.toNat n
    some ({ elem := fun i => elemN x w i }, s)

/-- A single-destination elementwise instruction: `f` is given the elements of vs1 and vs2 and the old element of vd. -/
def State.vElem (s : State) (o : VOp) (k : Shape) (w1 w2 wd : Nat) (f : VCtx → Nat → Nat → Nat → ERes) : Flow :=
  let c := s.cur.vctx o.m
  if !vCheck s.cur o c k then illegalV s else
  match s.src1 o c w1 k.n1 with
  | none => illegalV s
  | some (a, s) =>
    let y := s.cur.groupN o.vs2.toNat k.n2
    let z := s.cur.groupN o.vd.toNat k.nd
    let d : Dest := { base := o.vd.toNat, regs := k.nd, width := wd, pick := fun r => r.val }
    s.elementwise c (VMods.of s.cur o) (d :: s.cur.copyDest d) a
      (fun i => f c (a.elem i) (elemN y w2 i) (elemN z wd i))

end Sys2Proof.Machine
end

