-- ==== Sys2Proof/Machine/Perform.lean ====
section
/-!
DEFINITION. What every instruction of a hart goes through (R89, R121, R122): an NMU executes the word by its own rules;
the lane-mode check; the drop of a region; the check of a pending prefix; the instruction's own effect; and its end, a
trap or the next instruction.
-/

namespace Sys2Proof.Machine

/-- Majors 0x22 to 0x31, which a region drops (R121). -/
def dropMajor (w : BitVec 32) : Bool := 0x22 ≤ (wMajor w).toNat && (wMajor w).toNat ≤ 0x31

/-- The lane-thread set by major (R117): everything else is a lane-mode error (R89 check 2), LFORK too (log 26). -/
def laneMajor (w : BitVec 32) : Bool :=
  let m := (wMajor w).toNat
  (0x02 ≤ m && m ≤ 0x0E && m != 0x0B) || (0x10 ≤ m && m ≤ 0x15) || (0x17 ≤ m && m ≤ 0x1D) ||
    (m == 0x34 && w.toNat / 2 ^ 24 % 4 != 0)

/-- The destination x register of an instruction that delivers through the read queue (R63, R121): VMVXS, VMPOPC, VMFIRST,
VMANY. -/
def readQueueDest (w : BitVec 32) : Bool :=
  ((wMajor w).toNat == 0x2F && w.toNat % 32 == 2) || ((wMajor w).toNat == 0x29 && 5 ≤ w.toNat % 32)

/-- The innermost region drops (R121). -/
def Hart.dropping (h : Hart) : Bool := match h.regions with | r :: _ => r.drop | [] => false

/-- After completion, a watchpoint match stops the hart (R340). -/
def State.settle (s0 s : State) (h : Hart) : State :=
  let pc := s0.cur.ip
  let t := ({ s with cur := h } : State).agentHits s.cur.place s.cur.strikes
  match lowestStrike s.cur.strikes with
  | none => t
  | some x => t.ownHit pc s0.cur.lane.isSome x

/-- The entry a trapping vector instruction leaves to be issued again (R32, R122, R135). -/
def entryOf (w : BitVec 32) (h : Hart) (t : Trap) : Option VEntry :=
  if !t.vec then none else
  some { word := w, xs := match h.reissue with | some e => e.xs | none => h.x,
         pfxs := match h.reissue with | some e => e.pfxs | none => h.pfxs,
         held := match t.held with | some hs => some hs | none => h.reissue.bind (fun e => e.held)
         start := t.start
         old := (h.reissue.bind (fun e => e.old)).or (some h.v) }

/-- Raise a trap of the instruction `w`; the watchpoint matches go with a trap to the supervisor (R343). -/
def State.trapWord (s0 : State) (w : BitVec 32) (t : Trap) (s : State) : State :=
  let t := if t.cause == 1 then { t with tval := w.setWidth 64 } else t
  let s1 := s.raise t (entryOf w s0.cur t)
  if s1.cur.status == .stopped && !s1.cur.strikes.isEmpty then
    let t := s1.trapStrike s1.cur s0.cur.ip
    { t with cur := { t.cur with strikes := [] } }
  else s1

/-- End an instruction: `s0` is the state before it.  One that must wait is undone and tried again later (R195, R250, R281,
R361). -/
def State.finish (s0 : State) (w : BitVec 32) (f : Flow) : State :=
  let ended (s t : State) : State := match s.blocked with
    | none => t
    | some x => { s0 with cur := s0.cur.waitOn x }
  match f with
  | .done s => ended s (s0.settle s s.cur.advance)
  | .branch t s => ended s (s0.settle s (s.cur.jump t))
  | .goto t s => ended s (s0.settle s { s.cur.retire with pc := t })
  | .stay s => ended s s
  | .trap t s => ended s (s0.trapWord w t s)

/-- What an instruction of a hart does (R89): checks 2 and 3, then its own effect.  `own` marks an instruction whose entry
checks the prefix itself. -/
def State.hartWord (s : State) (w : BitVec 32) (own : Bool) (body : State → Flow) : State :=
  let vec := dropMajor w
  if s.cur.lane.isSome && !laneMajor w then s.finish w (.trap { cause := 0x11, tval := 0 } s)
  else if vec && s.cur.dropping then
    s.finish w (.done (if readQueueDest w then { s with cur := s.cur.wx (wD w) 0 } else s))
  else if !own && pfxPending s.cur.pendingPfx then s.finish w (.trap { cause := 1, tval := 0, vec := vec } s)
  else s.finish w (body s)

/-- Execute an instruction word: by the NMU whose turn it is, or by the current hart. -/
def performAs (own : Bool) (w : BitVec 32) (s : State) (body : State → Flow) : Host.Outcome State Fault Refusal :=
  .next (match s.unit with
    | .nmu ch => s.nmuWord ch w
    | .hart => ({ s with blocked := none } : State).hartWord w own body)

/-- An instruction that takes no prefix (R122). -/
def perform (w : BitVec 32) (s : State) (body : State → Flow) : Host.Outcome State Fault Refusal := performAs false w s body

/-- An instruction whose entry checks the prefix. -/
def performPfx (w : BitVec 32) (s : State) (body : State → Flow) : Host.Outcome State Fault Refusal := performAs true w s body

end Sys2Proof.Machine
end

