-- ==== Sys2Proof/Machine/Scalar.lean ====
section
/-!
DEFINITION. The scalar integer instructions (R105, R106), at width 64 in a hart and 32 in a lane thread.
-/

namespace Sys2Proof.Machine

/-- Width of a scalar operation (R105). -/
def Hart.sw (h : Hart) : Nat := match h.lane with | some _ => 32 | none => 64

/-- Index of the thread whose turn it is; 0 outside lane mode. -/
def Hart.threadIndex (h : Hart) : Nat := match h.lane with | some l => l.thread.index | none => 0

/-- Read a scalar register: x[r], or e[r] of the thread (R7, R90, R117). -/
def Hart.readX (h : Hart) (r : Reg) : Nat := match h.lane with
  | some l => (h.re l.thread.index r).toNat
  | none => (h.rx r).toNat

/-- Write a scalar register, keeping the low bits of the width. -/
def Hart.writeX (h : Hart) (r : Reg) (x : Nat) : Hart := match h.lane with
  | some l => h.we l.thread.index r (BitVec.ofNat 32 x)
  | none => h.wx r (BitVec.ofNat 64 x)

/-- Complete with a register written. -/
def writeDone (s : State) (d : Reg) (x : Nat) : Flow := .done { s with cur := s.cur.writeX d x }

/-- A two-operand operation by its fn11 code (R91, R105). -/
def alu (op : Nat) (d a b : Reg) (s : State) : Flow := writeDone s d (aluN op s.cur.sw (s.cur.readX a) (s.cur.readX b))

/-- An operation with an immediate of the scalar width. -/
def aluImm (op : Nat) (d a : Reg) (x : Nat) (s : State) : Flow := writeDone s d (aluN op s.cur.sw (s.cur.readX a) x)

/-- imm16 sign-extended to the width (R86). -/
def sextImm (s : State) (imm : BitVec 16) : Nat := wrapN imm.toInt s.cur.sw

/-- A shift by an immediate: bit 5 set is a lane-mode error in a thread (R106). -/
def shiftImm (op : Nat) (d a : Reg) (sh : BitVec 6) (s : State) : Flow :=
  if s.cur.lane.isSome && sh.getLsbD 5 then .trap { cause := 0x11, tval := 0 } s else aluImm op d a sh.toNat s

/-- ADD (R105). -/
def execAdd (d a b : Reg) (s : State) : Host.Outcome State Fault Refusal := perform (addWord d a b) s (alu 0x0 d a b)

/-- SUB (R105). -/
def execSub (d a b : Reg) (s : State) : Host.Outcome State Fault Refusal := perform (subWord d a b) s (alu 0x1 d a b)

/-- AND (R105). -/
def execAnd (d a b : Reg) (s : State) : Host.Outcome State Fault Refusal := perform (andWord d a b) s (alu 0x2 d a b)

/-- OR (R105). -/
def execOr (d a b : Reg) (s : State) : Host.Outcome State Fault Refusal := perform (orWord d a b) s (alu 0x3 d a b)

/-- XOR (R105). -/
def execXor (d a b : Reg) (s : State) : Host.Outcome State Fault Refusal := perform (xorWord d a b) s (alu 0x4 d a b)

/-- ANDN (R105). -/
def execAndn (d a b : Reg) (s : State) : Host.Outcome State Fault Refusal := perform (andnWord d a b) s (alu 0x5 d a b)

/-- SHL (R105). -/
def execShl (d a b : Reg) (s : State) : Host.Outcome State Fault Refusal := perform (shlWord d a b) s (alu 0x6 d a b)

/-- SHR (R105). -/
def execShr (d a b : Reg) (s : State) : Host.Outcome State Fault Refusal := perform (shrWord d a b) s (alu 0x7 d a b)

/-- SRA (R105). -/
def execSra (d a b : Reg) (s : State) : Host.Outcome State Fault Refusal := perform (sraWord d a b) s (alu 0x8 d a b)

/-- ROL (R105). -/
def execRol (d a b : Reg) (s : State) : Host.Outcome State Fault Refusal := perform (rolWord d a b) s (alu 0x9 d a b)

/-- ROR (R105). -/
def execRor (d a b : Reg) (s : State) : Host.Outcome State Fault Refusal := perform (rorWord d a b) s (alu 0xa d a b)

/-- SLT (R105). -/
def execSlt (d a b : Reg) (s : State) : Host.Outcome State Fault Refusal := perform (sltWord d a b) s (alu 0xb d a b)

/-- SLTN (R105). -/
def execSltn (d a b : Reg) (s : State) : Host.Outcome State Fault Refusal := perform (sltnWord d a b) s (alu 0xc d a b)

/-- MIN (R105). -/
def execMin (d a b : Reg) (s : State) : Host.Outcome State Fault Refusal := perform (minWord d a b) s (alu 0xd d a b)

/-- MAX (R105). -/
def execMax (d a b : Reg) (s : State) : Host.Outcome State Fault Refusal := perform (maxWord d a b) s (alu 0xe d a b)

/-- MINN (R105). -/
def execMinn (d a b : Reg) (s : State) : Host.Outcome State Fault Refusal := perform (minnWord d a b) s (alu 0xf d a b)

/-- MAXN (R105). -/
def execMaxn (d a b : Reg) (s : State) : Host.Outcome State Fault Refusal := perform (maxnWord d a b) s (alu 0x10 d a b)

/-- MUL (R105). -/
def execMul (d a b : Reg) (s : State) : Host.Outcome State Fault Refusal := perform (mulWord d a b) s (alu 0x11 d a b)

/-- MULH (R105). -/
def execMulh (d a b : Reg) (s : State) : Host.Outcome State Fault Refusal := perform (mulhWord d a b) s (alu 0x12 d a b)

/-- MULHN (R105). -/
def execMulhn (d a b : Reg) (s : State) : Host.Outcome State Fault Refusal := perform (mulhnWord d a b) s (alu 0x13 d a b)

/-- DIV (R105). -/
def execDiv (d a b : Reg) (s : State) : Host.Outcome State Fault Refusal := perform (divWord d a b) s (alu 0x14 d a b)

/-- DIVN (R105). -/
def execDivn (d a b : Reg) (s : State) : Host.Outcome State Fault Refusal := perform (divnWord d a b) s (alu 0x15 d a b)

/-- REM (R105). -/
def execRem (d a b : Reg) (s : State) : Host.Outcome State Fault Refusal := perform (remWord d a b) s (alu 0x16 d a b)

/-- REMN (R105). -/
def execRemn (d a b : Reg) (s : State) : Host.Outcome State Fault Refusal := perform (remnWord d a b) s (alu 0x17 d a b)

/-- CLZ (R105): one source. -/
def execClz (d a : Reg) (s : State) : Host.Outcome State Fault Refusal := perform (clzWord d a) s (alu 0x18 d a 0#5)

/-- CTZ (R105): one source. -/
def execCtz (d a : Reg) (s : State) : Host.Outcome State Fault Refusal := perform (ctzWord d a) s (alu 0x19 d a 0#5)

/-- POPC (R105): one source. -/
def execPopc (d a : Reg) (s : State) : Host.Outcome State Fault Refusal := perform (popcWord d a) s (alu 0x1a d a 0#5)

/-- SEXTB (R105): one source. -/
def execSextb (d a : Reg) (s : State) : Host.Outcome State Fault Refusal := perform (sextbWord d a) s (alu 0x1b d a 0#5)

/-- SEXTH (R105): one source. -/
def execSexth (d a : Reg) (s : State) : Host.Outcome State Fault Refusal := perform (sexthWord d a) s (alu 0x1c d a 0#5)

/-- SEXTW (R105): one source. -/
def execSextw (d a : Reg) (s : State) : Host.Outcome State Fault Refusal := perform (sextwWord d a) s (alu 0x1d d a 0#5)

/-- ADDI (R106). -/
def execAddi (d a : Reg) (imm : BitVec 16) (s : State) : Host.Outcome State Fault Refusal :=
  perform (addiWord d a imm) s (fun s => aluImm 0x0 d a (sextImm s imm) s)

/-- ANDI (R106). -/
def execAndi (d a : Reg) (imm : BitVec 16) (s : State) : Host.Outcome State Fault Refusal :=
  perform (andiWord d a imm) s (fun s => aluImm 0x2 d a (imm.toNat) s)

/-- ORI (R106). -/
def execOri (d a : Reg) (imm : BitVec 16) (s : State) : Host.Outcome State Fault Refusal :=
  perform (oriWord d a imm) s (fun s => aluImm 0x3 d a (imm.toNat) s)

/-- XORI (R106). -/
def execXori (d a : Reg) (imm : BitVec 16) (s : State) : Host.Outcome State Fault Refusal :=
  perform (xoriWord d a imm) s (fun s => aluImm 0x4 d a (imm.toNat) s)

/-- SLTI (R106). -/
def execSlti (d a : Reg) (imm : BitVec 16) (s : State) : Host.Outcome State Fault Refusal :=
  perform (sltiWord d a imm) s (fun s => aluImm 0xb d a (sextImm s imm) s)

/-- LIH (R106): (a << 16) OR zext(imm16). -/
def execLih (d a : Reg) (imm : BitVec 16) (s : State) : Host.Outcome State Fault Refusal :=
  perform (lihWord d a imm) s (fun s => writeDone s d ((s.cur.readX a * 2 ^ 16 + imm.toNat) % 2 ^ s.cur.sw))

/-- SHLI (R106). -/
def execShli (d a : Reg) (sh : BitVec 6) (s : State) : Host.Outcome State Fault Refusal :=
  perform (shliWord d a sh) s (shiftImm 0x6 d a sh)

/-- SHRI (R106). -/
def execShri (d a : Reg) (sh : BitVec 6) (s : State) : Host.Outcome State Fault Refusal :=
  perform (shriWord d a sh) s (shiftImm 0x7 d a sh)

/-- SRAI (R106). -/
def execSrai (d a : Reg) (sh : BitVec 6) (s : State) : Host.Outcome State Fault Refusal :=
  perform (sraiWord d a sh) s (shiftImm 0x8 d a sh)

end Sys2Proof.Machine
end

