-- ==== Sys2Proof/Machine/LoadStore.lean ====
section
/-!
DEFINITION. Scalar loads, stores and atomics (R109 to R111).
-/

namespace Sys2Proof.Machine

/-- Address of a scalar access (R109): in lane mode relative to `lbase`. -/
def Hart.scalarAddr (h : Hart) (a : Reg) (imm : BitVec 16) : Word := match h.lane with
  | some _ => h.lbase + BitVec.ofNat 64 (h.readX a) + imm.signExtend 64
  | none => h.rx a + imm.signExtend 64

/-- The element a scalar access reports to a watchpoint: the thread index, or none (R340). -/
def Hart.strikeElem (h : Hart) : Nat := match h.lane with | some l => l.thread.index | none => noElem

/-- A load of `n` bytes; the value is sign-extended or not to the width (R109). -/
def load (n : Nat) (natural : Bool) (d a : Reg) (imm : BitVec 16) (s : State) : Flow :=
  let addr := s.cur.scalarAddr a imm
  if addr.toNat % n != 0 then .trap { cause := 4, tval := addr } s else
  match s.loadN s.cur.scalarStream addr n with
  | (.error t, s) => .trap t s
  | (.ok x, s) =>
    let s := s.strike .read addr n s.cur.strikeElem
    writeDone s d (if natural then x else wrapN (sintN (8 * n) x) s.cur.sw)

/-- A store of the `n` low bytes of the data register (R109). -/
def store (n : Nat) (d a : Reg) (imm : BitVec 16) (s : State) : Flow :=
  let addr := s.cur.scalarAddr a imm
  if addr.toNat % n != 0 then .trap { cause := 4, tval := addr } s else
  match s.reach addr n .write .plain with
  | (.bad c, s) => .trap { cause := c, tval := addr } s
  | (.ok key, s) =>
    let s := s.strikeOwn .write addr n s.cur.strikeElem
    .done (s.queueStore s.cur.scalarStream (.write (plainBytes key (leBytes n (s.cur.readX d)))))

/-- The streams an AMO is performed after: its own, and with .REL those of R111. -/
def amoAfter (own : Stream) (rel : Bool) : Stream → Bool := fun st => st == own || (rel && heldStream st)

/-- Bytes of an AMO (R110): 4 for AMOFADD and in lane mode, else 8. -/
def Hart.amoBytes (h : Hart) (op : Nat) : Nat := if op == 10 || h.lane.isSome then 4 else 8

/-- Address of an AMO (R110). -/
def Hart.amoAddr (h : Hart) (a : Reg) : Word := match h.lane with
  | some _ => h.lbase + BitVec.ofNat 64 (h.readX a)
  | none => h.rx a

/-- The memory an AMO leaves: the new value of `n` bytes at a key, which held `old`, of the data register and the destination. -/
def amoMem (op n key old : Nat) (b d : Reg) (s : State) : List Host.Cell :=
  match amoNew op (8 * n) old (s.cur.readX b % 2 ^ (8 * n)) (s.cur.readX d % 2 ^ (8 * n)) with
  | some x => Memory.setList s.mem key (leBytes n x)
  | none => s.mem

/-- An AMO (R110, R111): one indivisible access at the location's home, after the accesses the release covers have passed the
ordering point of its scope (R221); the later accesses of an acquire issue after it in any case.  At SYS scope a slice first takes its
lines of host memory exclusive (R221, R359). -/
def amo (op : Nat) (d a b : Reg) (rel : Bool) (scope : BitVec 3) (s : State) : Flow :=
  let n := s.cur.amoBytes op
  let addr := s.cur.amoAddr a
  if addr.toNat % n != 0 then .trap { cause := 4, tval := addr } s else
  match s.reach addr n .write .amo with
  | (.bad c, s) => .trap { cause := c, tval := addr } s
  | (.ok key, s) =>
    let after := amoAfter s.cur.scalarStream rel
    let s := if scope.toNat ≥ 4 then s.takeLines (key :: s.queuedKeys after) else s
    let s := (s.drainTo (if rel then scopeLevel scope else 0) after)
    if rel && s.ownCommand bankEngine then .stay s.waitCommands else
    if s.poisonIn key n then .trap { cause := 8, tval := addr } s else
    let old := leNat (Memory.getList s.mem key n)
    let s := s.strike .atomic addr n s.cur.strikeElem none (sortAmo op)
      (leBytes n (s.cur.readX b) ++ (if op == 9 then leBytes n (s.cur.readX d) else []))
    writeDone { s with mem := amoMem op n key old b d s } d old

/-- LDB (R109). -/
def execLdb (d a : Reg) (imm : BitVec 16) (s : State) : Host.Outcome State Fault Refusal :=
  perform (ldbWord d a imm) s (load 1 false d a imm)

/-- LDH (R109). -/
def execLdh (d a : Reg) (imm : BitVec 16) (s : State) : Host.Outcome State Fault Refusal :=
  perform (ldhWord d a imm) s (load 2 false d a imm)

/-- LDW (R109). -/
def execLdw (d a : Reg) (imm : BitVec 16) (s : State) : Host.Outcome State Fault Refusal :=
  perform (ldwWord d a imm) s (load 4 false d a imm)

/-- LDD (R109). -/
def execLdd (d a : Reg) (imm : BitVec 16) (s : State) : Host.Outcome State Fault Refusal :=
  perform (lddWord d a imm) s (load 8 true d a imm)

/-- LDBN (R109). -/
def execLdbn (d a : Reg) (imm : BitVec 16) (s : State) : Host.Outcome State Fault Refusal :=
  perform (ldbnWord d a imm) s (load 1 true d a imm)

/-- LDHN (R109). -/
def execLdhn (d a : Reg) (imm : BitVec 16) (s : State) : Host.Outcome State Fault Refusal :=
  perform (ldhnWord d a imm) s (load 2 true d a imm)

/-- LDWN (R109). -/
def execLdwn (d a : Reg) (imm : BitVec 16) (s : State) : Host.Outcome State Fault Refusal :=
  perform (ldwnWord d a imm) s (load 4 true d a imm)

/-- STB (R109). -/
def execStb (d a : Reg) (imm : BitVec 16) (s : State) : Host.Outcome State Fault Refusal :=
  perform (stbWord d a imm) s (store 1 d a imm)

/-- STH (R109). -/
def execSth (d a : Reg) (imm : BitVec 16) (s : State) : Host.Outcome State Fault Refusal :=
  perform (sthWord d a imm) s (store 2 d a imm)

/-- STW (R109). -/
def execStw (d a : Reg) (imm : BitVec 16) (s : State) : Host.Outcome State Fault Refusal :=
  perform (stwWord d a imm) s (store 4 d a imm)

/-- STD (R109). -/
def execStd (d a : Reg) (imm : BitVec 16) (s : State) : Host.Outcome State Fault Refusal :=
  perform (stdWord d a imm) s (store 8 d a imm)

/-- AMOADD (R110). -/
def execAmoadd (d a b : Reg) (acq rel : Bool) (scope : BitVec 3) (s : State) : Host.Outcome State Fault Refusal :=
  perform (amoaddWord d a b acq rel scope) s (amo 0 d a b rel scope)

/-- AMOAND (R110). -/
def execAmoand (d a b : Reg) (acq rel : Bool) (scope : BitVec 3) (s : State) : Host.Outcome State Fault Refusal :=
  perform (amoandWord d a b acq rel scope) s (amo 1 d a b rel scope)

/-- AMOOR (R110). -/
def execAmoor (d a b : Reg) (acq rel : Bool) (scope : BitVec 3) (s : State) : Host.Outcome State Fault Refusal :=
  perform (amoorWord d a b acq rel scope) s (amo 2 d a b rel scope)

/-- AMOXOR (R110). -/
def execAmoxor (d a b : Reg) (acq rel : Bool) (scope : BitVec 3) (s : State) : Host.Outcome State Fault Refusal :=
  perform (amoxorWord d a b acq rel scope) s (amo 3 d a b rel scope)

/-- AMOMIN (R110). -/
def execAmomin (d a b : Reg) (acq rel : Bool) (scope : BitVec 3) (s : State) : Host.Outcome State Fault Refusal :=
  perform (amominWord d a b acq rel scope) s (amo 4 d a b rel scope)

/-- AMOMAX (R110). -/
def execAmomax (d a b : Reg) (acq rel : Bool) (scope : BitVec 3) (s : State) : Host.Outcome State Fault Refusal :=
  perform (amomaxWord d a b acq rel scope) s (amo 5 d a b rel scope)

/-- AMOMINN (R110). -/
def execAmominn (d a b : Reg) (acq rel : Bool) (scope : BitVec 3) (s : State) : Host.Outcome State Fault Refusal :=
  perform (amominnWord d a b acq rel scope) s (amo 6 d a b rel scope)

/-- AMOMAXN (R110). -/
def execAmomaxn (d a b : Reg) (acq rel : Bool) (scope : BitVec 3) (s : State) : Host.Outcome State Fault Refusal :=
  perform (amomaxnWord d a b acq rel scope) s (amo 7 d a b rel scope)

/-- AMOSWAP (R110). -/
def execAmoswap (d a b : Reg) (acq rel : Bool) (scope : BitVec 3) (s : State) : Host.Outcome State Fault Refusal :=
  perform (amoswapWord d a b acq rel scope) s (amo 8 d a b rel scope)

/-- AMOCAS (R110). -/
def execAmocas (d a b : Reg) (acq rel : Bool) (scope : BitVec 3) (s : State) : Host.Outcome State Fault Refusal :=
  perform (amocasWord d a b acq rel scope) s (amo 9 d a b rel scope)

/-- AMOFADD (R110). -/
def execAmofadd (d a b : Reg) (acq rel : Bool) (scope : BitVec 3) (s : State) : Host.Outcome State Fault Refusal :=
  perform (amofaddWord d a b acq rel scope) s (amo 10 d a b rel scope)

end Sys2Proof.Machine
end

