-- ==== Sys2Proof/Machine/Control.lean ====
section
/-!
DEFINITION. Branches, jumps and the hardware loop (R112 to R115).
-/

namespace Sys2Proof.Machine

/-- A branch: the condition compares at the scalar width (R86, R112). -/
def condBranch (taken : Nat → Nat → Nat → Bool) (a b : Reg) (off : BitVec 16) (s : State) : Flow :=
  if taken s.cur.sw (s.cur.readX a) (s.cur.readX b) then .branch (s.cur.ip + (off.signExtend 64 <<< 2)) s else .done s

/-- LOOP (R114). -/
def loopBody (a : Reg) (off : BitVec 16) (s : State) : Flow :=
  let h := s.cur
  if h.armed then .trap { cause := 0x13, tval := h.pc } s else
  let stop := h.pc + (off.signExtend 64 <<< 2)
  let n := h.rx a
  let h1 := { h with lbeg := h.pc + 4, lend := (stop &&& ~~~(3#64)) ||| (if n == 0 then 0 else 1), lc := n }
  .goto (if n == 0 then h1.loopEnd + 4 else h.pc + 4) { s with cur := h1 }

/-- JALR (R112): the target comes from the register's old value; a misaligned one traps and writes nothing. -/
def jalrBody (d a : Reg) (imm : BitVec 16) (s : State) : Flow :=
  let t := s.cur.rx a + imm.signExtend 64
  if t.toNat % 4 != 0 then .trap { cause := 4, tval := t } s
  else .branch t { s with cur := s.cur.wx d (s.cur.pc + 4) }

/-- BEQ (R112). -/
def execBeq (a b : Reg) (off : BitVec 16) (s : State) : Host.Outcome State Fault Refusal :=
  perform (beqWord a b off) s (condBranch (fun _ x y => x == y) a b off)

/-- BNE (R112). -/
def execBne (a b : Reg) (off : BitVec 16) (s : State) : Host.Outcome State Fault Refusal :=
  perform (bneWord a b off) s (condBranch (fun _ x y => x != y) a b off)

/-- BLT (R112). -/
def execBlt (a b : Reg) (off : BitVec 16) (s : State) : Host.Outcome State Fault Refusal :=
  perform (bltWord a b off) s (condBranch (fun w x y => sintN w x < sintN w y) a b off)

/-- BGE (R112). -/
def execBge (a b : Reg) (off : BitVec 16) (s : State) : Host.Outcome State Fault Refusal :=
  perform (bgeWord a b off) s (condBranch (fun w x y => !decide (sintN w x < sintN w y)) a b off)

/-- BLTN (R112). -/
def execBltn (a b : Reg) (off : BitVec 16) (s : State) : Host.Outcome State Fault Refusal :=
  perform (bltnWord a b off) s (condBranch (fun _ x y => x < y) a b off)

/-- BGEN (R112). -/
def execBgen (a b : Reg) (off : BitVec 16) (s : State) : Host.Outcome State Fault Refusal :=
  perform (bgenWord a b off) s (condBranch (fun _ x y => !decide (x < y)) a b off)

/-- JAL (R112): the return address goes to x1. -/
def execJal (off : BitVec 26) (s : State) : Host.Outcome State Fault Refusal :=
  perform (jalWord off) s (fun s => .branch (s.cur.pc + (off.signExtend 64 <<< 2)) { s with cur := s.cur.wx 1#5 (s.cur.pc + 4) })

/-- JALR (R112). -/
def execJalr (d a : Reg) (imm : BitVec 16) (s : State) : Host.Outcome State Fault Refusal :=
  perform (jalrWord d a imm) s (jalrBody d a imm)

/-- LOOP (R114). -/
def execLoop (a : Reg) (off : BitVec 16) (s : State) : Host.Outcome State Fault Refusal :=
  perform (loopWord a off) s (loopBody a off)

end Sys2Proof.Machine
end

