-- ==== Sys2Proof/Machine/VConvert.lean ====
section
/-!
DEFINITION. The conversions (R149 to R152, R42 to R47).
-/

namespace Sys2Proof.Machine

/-- (destination, source) format pairs of VFCVT (R149). -/
def vfcvtPair (d s : Nat) : Bool := [(4, 2), (2, 4), (6, 1), (1, 6), (5, 1), (1, 5)].contains (d, s)

/-- VFCVT (R149, R150): between an FP format and the signed integers of its width. -/
def vfcvtBody (o : VOp) (s : State) : Flow :=
  let c := s.cur.vctx o.m
  let src := o.vs2.toNat % 16
  let mode := s.cur.mode
  s.vElem o { formats := if vfcvtPair c.fmt src then [c.fmt] else [], n1 := c.g, n2 := 0, nd := c.g, rounds := true } c.w c.w c.w
    (fun c a _ _ => .ofF (if fmtIsInt c.fmt then toIntEx mode c.w false (readF (ffmt src) a)
                          else deliver (ffmt c.fmt) mode (ofIntBits c.w false a, 0)))

/-- VFWCVT (R149): exact widening to FP32. -/
def vfwcvtBody (o : VOp) (s : State) : Flow :=
  let c := s.cur.vctx o.m
  let n := c.wide
  let clash := n > 8 || (!o.q && overlap o.vd.toNat n o.vs1.toNat c.g) || o.vs2.toNat != 4
  s.vElem o { formats := [5, 6, 7, 8], n1 := c.g, n2 := 0, nd := n, clash := clash } c.w c.w 32
    (fun c a _ _ => .ofF (roundF fp32 0 false (readF (ffmt c.fmt) a)))

/-- VFNCVT (R39, R149, R150): narrowing from FP32; .SAT for the 8-bit formats only. -/
def vfncvtBody (o : VOp) (s : State) : Flow :=
  let c := s.cur.vctx o.m
  let n := c.wide
  let mode := s.cur.mode
  let clash := n > 8 || (!o.q && overlap o.vd.toNat c.g o.vs1.toNat n) || o.vs2.toNat != 4 || (o.i && c.w != 8)
  s.vElem o { formats := [5, 6, 7, 8], n1 := n, n2 := 0, nd := c.g, rounds := true, clash := clash } 32 32 c.w
    (fun c a _ _ => .ofF (roundF (ffmt c.fmt) mode o.i (readF fp32 a)))

/-! ## Blocks (R151, R152) -/

/-- Scale word k of a block format: none when ill-formed (R42, R44, R151). -/
def readScale (fmt x : Nat) : Option Ex := if fmt == 9 then readSC24 x else if x ≥ 2 ^ 8 then none else readE8M0 x

/-- A decoded block element: RN(scale · value) in FP32 under RNE (R151). -/
def blockElem (fmt scale x : Nat) : ERes :=
  match readScale fmt scale with
  | none => { val := 0, trap := some 3 }
  | some sc =>
    if sc.isZero then .of 0
    else match readBlockElem fmt x with
      | none => { val := 0, trap := some 2 }
      | some y => .ofF (deliver fp32 0 (mulEx sc y))

/-- VBDEC (R151): the scale of block floor(i / b) is read with each of its active elements; the first one decides. -/
def vbdecBody (o : VOp) (s : State) : Flow :=
  let c := s.cur.vctx o.m
  let g := c.g
  let n := c.wide
  let clash := n > 8 || overlap o.vd.toNat n o.vs1.toNat (2 * g)
  let k : Shape := { formats := [9, 10, 11, 12], n1 := 2 * g, n2 := 0, nd := n, clash := clash }
  if !vCheck s.cur o c k then illegalV s else
  let h := s.cur
  let x := h.groupN o.vs1.toNat g
  let z := h.groupN (o.vs1.toNat + g) g
  let d : Dest := { base := o.vd.toNat, regs := n, width := 32, pick := fun r => r.val }
  s.elementwise c (VMods.of h o) (d :: h.copyDest d) { elem := fun _ => 0 }
    (fun i => blockElem c.fmt (elemN z 32 (i / c.blk)) (elemN x c.w i))

/-- The largest magnitude of a list of values that are no NaN: none for an empty list. -/
def maxMag : List Ex → Option Ex
  | [] => none
  | x :: t =>
    let a := match x with | .fin _ n d e => Ex.fin false n d e | .inf _ => .inf false | y => y
    match maxMag t with
    | none => if x.isNan then none else some a
    | some m => if x.isNan then some m else some (if ltEx m a then a else m)

/-- The Taper8 scale word of a block (R47). -/
def taperScale (xs : List Ex) : Nat :=
  match maxMag xs with
  | none => 0x10000
  | some (.fin _ n d e) =>
    if n == 0 then (if xs.any (fun x => x.isNan) then 0x10000 else 0) else
    let e := e - 14
    let X := log2Ratio n d + e
    let q := n * pow2 (e - (X - 16))
    let r := d * pow2 (X - 16 - e)
    let m := (q + r - 1) / r
    let E : Int := if m == 2 ^ 17 then X + 1 + 127 else X + 127
    let f := if m == 2 ^ 17 then 0 else m - 2 ^ 16
    if E < 1 then 0x10000 else if E > 0xFE then 0xFEFFFF else E.toNat * 2 ^ 16 + f
  | some _ => 0xFEFFFF

/-- emax of an MX element format (R43). -/
def mxEmax (fmt : Nat) : Int := if fmt == 10 then 2 else if fmt == 11 then 8 else 15

/-- The MX scale byte of a block: 0xFF when it holds a NaN (R43). -/
def mxScale (fmt : Nat) (xs : List Ex) : Nat :=
  if xs.any (fun x => x.isNan) then 0xFF else
  match maxMag xs with
  | some (.fin _ n d e) =>
    if n == 0 then 0 else
    let X := log2Ratio n d + e - mxEmax fmt
    if X < -127 then 0 else if X > 127 then 254 else (X + 127).toNat
  | some _ => 254
  | none => 0

/-- A block's scale word. -/
def blockScale (fmt : Nat) (xs : List Ex) : Nat := if fmt == 9 then taperScale xs else mxScale fmt xs

/-- Encode one element under a block's scale (R43, R46, R47); an element of an MX block that holds a NaN takes the free
value, and only the NaN raises a flag (log 22). -/
def encodeElem (fmt scale free : Nat) (x : Ex) : ERes :=
  match readScale fmt scale with
  | some sc =>
    if sc.isZero then .of 0
    else
      let q := (divEx x sc).1
      .ofF (if fmt == 9 then encodeTaper q else encodeMX (ffmt fmt) q)
  | none => { val := free, flags := if x.isNan then flagNV else 0 }

/-- What VBENC writes so far: element slots, exception-mask slots, scale slots, flags, and where it stopped. -/
structure BlockScan where
  elems  : List Slot
  masks  : List Slot
  scales : List Slot
  flags  : Nat
  stop   : Option Limit

/-- Blocks k, k + 1, …, `n` of them (R152): `get i` is FP32 element i; a failed queue element stops at its block. -/
def blockScan (c : VCtx) (en : Nat) (lim : Option Limit) (free get : Nat → Nat) : (n k : Nat) → BlockScan
  | 0, _ => { elems := [], masks := [], scales := [], flags := 0, stop := none }
  | n + 1, k =>
    let i0 := k * c.blk
    let same (x : Slot) : List Slot := List.replicate c.blk x
    let next := blockScan c en lim free get n (k + 1)
    let whole (x : Slot) : BlockScan := { next with elems := same x ++ next.elems, masks := same x ++ next.masks, scales := x :: next.scales }
    let failed := lim.filter (fun l => i0 ≤ l.elem && l.elem < i0 + c.blk)
    if failed.isSome then
      { elems := [], masks := [], scales := [], flags := 0, stop := failed.map (fun l => { l with elem := i0 }) }
    else if i0 < c.vstart then whole .keep
    else if (c.queuePlace i0).isNone then whole .tail
    else
      let idx := (List.range c.blk).map (fun j => i0 + j)
      let scale := blockScale c.fmt ((idx.filter c.granted).map (fun i => readF fp32 (get i)))
      let rs := idx.map (fun i => if c.granted i then some (encodeElem c.fmt scale (free i) (readF fp32 (get i))) else none)
      let fl := rs.foldl (fun a r => match r with | some r => a ||| r.flags | none => a) 0
      if fl &&& en != 0 then
        { elems := [], masks := [], scales := [], flags := fl, stop := some { elem := i0, cause := 0xF, tval := BitVec.ofNat 64 i0 } }
      else
        { elems := rs.map (fun r => .res (r.getD (.of 0))) ++ next.elems,
          masks := rs.map (fun r => match r with | some r => .res r | none => .tail) ++ next.masks,
          scales := .res (.of scale) :: next.scales, flags := fl ||| next.flags, stop := next.stop }

/-- VBENC (R152). -/
def vbencBody (o : VOp) (s : State) : Flow :=
  let c := s.cur.vctx o.m
  let g := c.g
  let n := c.wide
  let d := o.vd.toNat
  let clash := n > 8 || (!o.q && overlap d (2 * g) o.vs1.toNat n) || d % (2 * g) != 0 || c.vstart % c.blk != 0 ||
    (o.e && overlap ((pfxEmask s.cur.pfx).getD 31) 1 d (2 * g))
  let k : Shape := { formats := [9, 10, 11, 12], n1 := n, n2 := 0, nd := g, clash := clash }
  if !vCheck s.cur o c k then illegalV s else
  match s.src1 o c 32 n with
  | none => illegalV s
  | some (a, s) =>
    if c.vl == 0 then .done { s with cur := { s.cur with vstart := 0 } } else
      let h := s.cur
      let count := g * (256 * c.lanes / c.w)
      let base := s.freeCount
      let r := blockScan c h.enabled (a.limit.map (fun l => l.holding c.vstart 0)) (fun i => (Config.freeWord (base + i)).toNat % 2 ^ c.w) a.elem (count / c.blk) 0
      let md := VMods.of h o
      let e : Dest := { base := d, regs := g, width := c.w, pick := fun r => r.val }
      let z : Dest := { base := d + g, regs := g, width := 32, pick := fun r => r.val }
      let h1 := (e :: h.copyDest e).foldl (fun h x => h.writeDest md.ta false r.elems x) h
      let fill := r.scales ++ (if r.stop.isNone then List.replicate (g * (256 * c.lanes / 32)) Slot.tail else [])
      let h1 := h1.writeDest md.ta false fill z
      let h1 := match md.em with
        | some k =>
          h1.writeRegs 1 k 1 ((r.masks ++ (if r.stop.isNone then List.replicate (256 * c.lanes) Slot.tail else [])).map (Slot.emask md.ta h.sel))
        | none => h1
      vecEnd { s with freeCount := base + count } (h1.raise r.flags) a.held r.stop

/-- VFCVT (R149). -/
def execVfcvt (o : VOp) (s : State) : Host.Outcome State Fault Refusal := performPfx (vfcvtWord o) s (vfcvtBody o)

/-- VFWCVT (R149). -/
def execVfwcvt (o : VOp) (s : State) : Host.Outcome State Fault Refusal := performPfx (vfwcvtWord o) s (vfwcvtBody o)

/-- VFNCVT (R149). -/
def execVfncvt (o : VOp) (s : State) : Host.Outcome State Fault Refusal := performPfx (vfncvtWord o) s (vfncvtBody o)

/-- VBDEC (R149). -/
def execVbdec (o : VOp) (s : State) : Host.Outcome State Fault Refusal := performPfx (vbdecWord o) s (vbdecBody o)

/-- VBENC (R149). -/
def execVbenc (o : VOp) (s : State) : Host.Outcome State Fault Refusal := performPfx (vbencWord o) s (vbencBody o)

end Sys2Proof.Machine
end

