-- ==== Sys2Proof/Machine/VMem.lean ====
section
/-!
DEFINITION. Vector loads and stores, chained operations, queue-targeted loads, stores to streams, spill and fill (R154 to
R161, R165, R168, R169).
-/

namespace Sys2Proof.Machine

/-! ## Element addresses (R154) -/

/-- Where an element lies: its byte address and, for a 4-bit format, whether it is the high nibble. -/
structure Place where
  addr : Word
  high : Bool
  deriving DecidableEq, Repr

/-- The place at an offset in bytes, or in nibbles for a 4-bit format. -/
def placeAt (w : Nat) (b : Word) (off : Int) : Place :=
  if w == 4 then { addr := b + BitVec.ofInt 64 (off / 2), high := off % 2 == 1 } else { addr := b + BitVec.ofInt 64 off, high := false }

/-- Offset from one element to the next. -/
def unitOf (w : Nat) : Int := if w == 4 then 1 else (w / 8 : Nat)

/-- Bytes an element access touches. -/
def elemBytes (w : Nat) : Nat := max 1 (w / 8)

/-- The address form of a VL word. -/
inductive VForm where
  | unit | strided | indexed
  deriving DecidableEq, Repr

/-- The strides of VLDS in the 2D view: per row and per column. -/
def strides2 (w : Nat) (s : Word) : Int × Int :=
  (sintN 32 (s.toNat % 2 ^ 32), if s.toNat / 2 ^ 32 == 0 then unitOf w else sintN 32 (s.toNat / 2 ^ 32))

/-- Place of element i. -/
def VForm.place (f : VForm) (h : Hart) (c : VCtx) (base idx : Reg) (i : Nat) : Place :=
  let b := h.ox base
  let row : Int := (i / 64 : Nat)
  let col : Int := (i % 64 : Nat)
  match f with
  | .unit => placeAt c.w b (if c.twoD then (row * c.vl + col) * unitOf c.w else i * unitOf c.w)
  | .strided =>
    let s := h.ox idx
    let (sr, sc) := strides2 c.w s
    placeAt c.w b (if c.twoD then row * sr + col * sc else i * s.toInt)
  | .indexed =>
    let w := if c.w == 64 then 64 else 32
    let n := max 1 (32 / c.w) * c.g
    placeAt c.w b (elemN (h.groupN idx.toNat n) w i : Nat)

/-- A stride of a 4-bit format that is odd and not +1 (R157). -/
def VForm.badStride (f : VForm) (h : Hart) (c : VCtx) (idx : Reg) : Option Word :=
  match f with
  | .strided =>
    let s := h.ox idx
    let (sr, sc) := strides2 c.w s
    let all : List Int := if c.twoD then [sr, sc] else [s.toInt]
    if c.w == 4 then (all.find? (fun x => x % 2 == 1 && x != 1)).map (BitVec.ofInt 64) else none
  | _ => none

/-! ## Padding (R155) -/

/-- The strip as a load sees it: a padding element is loaded as if active. -/
def VCtx.padded (c : VCtx) : VCtx :=
  if c.vpad == 0 then c else
  let isPad (i : Nat) : Bool := let k := if c.twoD then i % 64 else i; c.vl - c.vpad ≤ k && k < c.vl
  let pads := (List.range (if c.twoD then 64 * c.vr else c.vl)).filter isPad
  { c with vpad := 0, mask := pads.foldl (fun m i => m ||| 2 ^ i) c.mask }

/-- Element positions of a group at the strip's width. -/
def VCtx.size (c : VCtx) : Nat := c.g * (256 * c.lanes / c.w)

/-- The elements an access touches, ascending (R155). -/
def VCtx.touched (c : VCtx) : List Nat := (List.range c.size).filter c.active

/-! ## Checks 3 and 4 -/

/-- The `vtype` a chain asks for (R160). -/
def chainFits (chain fmt : Nat) : Bool :=
  match chain with
  | 0 => true
  | 4 => fmt == 2
  | 5 => fmt == 5
  | 6 => !fmtIsBlock fmt
  | _ => fmt == 4

/-- The format field names `vtype` (R98). -/
def fmtNamed (o : VLOp) (c : VCtx) : Bool := o.fmt == 15#4 || o.fmt.toNat == c.fmt

/-- Checks of a load: `n` destination registers, `chains` the codes its form takes, `idx` registers of an index group. -/
def loadCheck (h : Hart) (o : VLOp) (c : VCtx) (n idx : Nat) (chains : List Nat) : Bool :=
  pfxFits h.pfx { pred := o.m, copy := true, chain := chains } &&
  (match pfxCopy h.pfx with | some r => r % c.g == 0 | none => true) &&
  chainFits (pfxChain h.pfx) c.fmt && fmtNamed o c &&
  (o.q || (o.reg.toNat % c.g == 0 && o.reg.toNat + n ≤ 32)) &&
  (idx == 0 || (groupOk o.idx.toNat idx && idx ≤ 8 && (o.q || !overlap o.reg.toNat n o.idx.toNat idx))) &&
  !(o.m && !o.q && overlap c.maskReg 1 o.reg.toNat n)

/-- Checks of a store: `n` data registers from `data`. -/
def storeCheck (h : Hart) (o : VLOp) (c : VCtx) (data n idx : Nat) (chains : List Nat) : Bool :=
  pfxFits h.pfx { pred := o.m, chain := chains } &&
  chainFits (pfxChain h.pfx) c.fmt && fmtNamed o c &&
  data % c.g == 0 && data + n ≤ 32 && (idx == 0 || (groupOk o.idx.toNat idx && idx ≤ 8))

/-- Registers of the index group of a form. -/
def VForm.idxRegs (f : VForm) (c : VCtx) : Nat := match f with
  | .indexed => max 1 (32 / c.w) * c.g
  | _ => 0

/-- The lane that holds element i of an indexed form, by the layout of R168 (R259); none for the other forms. -/
def VForm.lane (f : VForm) (h : Hart) (c : VCtx) (i : Nat) : Option Nat := match f with
  | .indexed => ((List.range 16).filter (fun k => h.lmap.getLsbD k))[i % (256 * c.lanes / c.w) * c.w / 32 % c.lanes]?
  | _ => none

/-! ## One element (R156) -/

/-- Check, translate and probe an access of `n` bytes for element i; a watchpoint match is noted (R338), of one that is performed later
only that of the hart's own block. -/
def State.probeAt (s : State) (kind : AKind) (need : ANeed) (wk : WKind) (aligned : Bool) (n i : Nat) (a : Word)
    (lane : Option Nat := none) (later : Bool := kind == .write) (sort : Nat := sortRead) (pay : List Byte := []) : Except Limit Nat × State :=
  if aligned && a.toNat % n != 0 then (.error { elem := i, cause := 4, tval := a }, s) else
  match s.reach a n kind need lane with
  | (.bad c, s) => (.error { elem := i, cause := c, tval := a }, s)
  | (.ok key, s) => (.ok key, if later then s.strikeOwn wk a n i else s.strike wk a n i lane sort pay)

/-- The value at a place: a byte string, or one nibble. -/
def nibbleOf (w : Nat) (high : Bool) (x : Nat) : Nat := if w == 4 then (if high then x / 16 else x % 16) else x

/-- Load `n` bytes for element i in a stream; data that fail their check trap (R156). -/
def State.loadAt (s : State) (st : Stream) (aligned : Bool) (n i : Nat) (a : Word) (lane : Option Nat := none) : Except Limit Nat × State :=
  match s.probeAt .read .plain .read aligned n i a lane with
  | (.error l, s) => (.error l, s)
  | (.ok key, s) =>
    if s.poisonIn key n then (.error { elem := i, cause := 8, tval := a }, s) else (.ok (leNat (s.viewBytes st key n)), s)

/-- What a chained load leaves in memory and returns (R160). -/
def chainLoadOp (chain old : Nat) : Nat × Nat :=
  match chain with
  | 6 => (0, old)
  | 7 => (old, (fmulF fp32 0 old old).1)
  | _ => (old, old % 2 ^ 31)

/-- A chained load of element i: one indivisible access at the home. -/
def State.chainAt (s : State) (chain n i : Nat) (a : Word) (lane : Option Nat := none) : Except Limit Nat × State :=
  match s.probeAt (if chain == 6 then .write else .read) .chain .atomic true n i a lane false (if chain == 6 then sortWrite else sortChain chain)
      (if chain == 6 then List.replicate n 0 else []) with
  | (.error l, s) => (.error l, s)
  | (.ok key, s) =>
    if s.poisonIn key n then (.error { elem := i, cause := 8, tval := a }, s) else
    let (new, ret) := chainLoadOp chain (leNat (Memory.getList s.mem key n))
    (.ok ret, { s with mem := Memory.setList s.mem key (leBytes n new) })

/-- Do `f` for the elements in order, up to the first that fails or at which the EP stops (R310): what each gave, where it stopped, and
the state. -/
def eachElem {α : Type} (f : State → Nat → Except Limit α × State) : List Nat → State → List (Nat × α) × Option Limit × State
  | [], s => ([], none, s)
  | i :: t, s =>
    if s.cut.any (fun n => n ≤ i) then ([], s.cutAt i, s) else
    match f s i with
    | (.error l, s) => ([], some l, s)
    | (.ok x, s) =>
      let (r, l, s) := eachElem f t s
      ((i, x) :: r, l, s)

/-! ## Loads (R155, R161) -/

/-- Elements a queue-targeted load still appends: all of them at first, those from `vstart` on when it is issued again. -/
def queueLeft (h : Hart) (c : VCtx) : Nat :=
  if h.reissue.isSome then ((List.range c.count).filter (fun j => c.vstart ≤ c.place j)).length else c.count

/-- The items of a load target, none when the queue is bound to a stream. -/
def targetItems (q : QReg) : Option (List QElem) :=
  match q with
  | .unbound => some []
  | .target items => some items
  | _ => none

/-- Append the scanned elements to the queue (R161): a position below `vstart` of an instruction that was not issued
before has a free value (log 24). -/
def appendItems (c : VCtx) (ma fresh : Bool) (free : Nat → Nat) (slots : List Slot) : List QElem :=
  (List.range c.count).filterMap (fun j =>
    let i := c.place j
    if i < c.vstart then (if fresh then some { width := c.w, val := free j % 2 ^ c.w } else none)
    else match slots[i]? with
      | some (.res r) => some { width := c.w, val := r.val % 2 ^ c.w }
      | some _ => some { width := c.w, val := if ma then 2 ^ c.w - 1 else 0 }
      | none => none)

/-- End a load: the values reached, the place where it stopped, and the destinations (R155); a load into a queue writes no v
register (R59). -/
def State.endLoad (s : State) (o : VLOp) (c : VCtx) (vals : List (Nat × Nat)) (stop : Option Limit) : Flow :=
  if c.vl == 0 then .done { s with cur := { s.cur with vstart := 0 } } else
  let r := scan c 0 stop (fun _ => false) (fun i => ERes.of (look 0 vals i)) c.size 0
  let d : Dest := { base := o.reg.toNat, regs := c.g, width := c.w, pick := fun r => r.val }
  let h := (if o.q then [] else d :: s.cur.copyDest d).foldl (fun h d => h.writeDest o.ta o.ma r.slots d) s.cur
  vecEnd s h none r.stop

/-- A load through an address form. -/
def vload (f : VForm) (chains : List Nat) (o : VLOp) (s : State) : Flow :=
  let h := s.cur
  let c := (h.vctx o.m).padded
  let chain := pfxChain h.pfx
  if !loadCheck h o c c.g (f.idxRegs c) chains then illegalV s else
  let items := if o.q then targetItems (h.rq o.reg.toNat) else some []
  match items with
  | none => illegalV s
  | some items =>
    if o.q && items.length + queueLeft h c > 2 * h.vlmax.toNat then illegalV s else
    match f.badStride h c o.idx with
    | some x => .trap { cause := 0xA, tval := x, vec := true } s
    | none =>
      let st : Stream := if chain != 0 then .bank else if o.q then .q (BitVec.ofNat 3 o.reg.toNat) else .vector
      let s := if chain != 0 then (if s.cur.sent.isEmpty then s else s.block .hold).bankTurn else s
      let n := elemBytes c.w
      let one (s : State) (i : Nat) : Except Limit Nat × State :=
        let p := f.place h c o.base o.idx i
        let lane := f.lane h c i
        if chain != 0 then s.chainAt chain n i p.addr lane
        else match s.loadAt st (c.w ≥ 8) n i p.addr lane with
          | (.ok x, s) => (.ok (nibbleOf c.w p.high x), s)
          | x => x
      let (vals, stop, s) := eachElem one c.touched s
      if !o.q then s.endLoad o c vals stop else
      let fresh := h.reissue.isNone && c.vstart != 0
      let r := scan c 0 stop (fun _ => false) (fun i => ERes.of (look 0 vals i)) c.size 0
      let base := s.freeCount
      let new := appendItems c o.ma fresh (fun j => (Config.freeWord (base + j)).toNat) r.slots
      let s := { s with freeCount := if fresh then base + c.count else base, cur := s.cur.wq o.reg.toNat (.target (items ++ new)) }
      s.endLoad o c vals stop

/-! ## Stores (R155, R157, R160) -/

/-- Put a nibble into the byte accesses of an instruction: both nibbles of a byte are written as one access (R157). -/
def mergeNibble : List PByte → PByte → List PByte
  | [], b => [b]
  | x :: t, b =>
    if x.key == b.key then { key := x.key, mask := x.mask ||| b.mask, val := mergeByte x.val b.mask b.val } :: t
    else x :: mergeNibble t b

def nibbleByte (key : Nat) (high : Bool) (x : Nat) : PByte :=
  if high then { key := key, mask := 0xF0, val := BitVec.ofNat 8 (16 * (x % 16)) } else { key := key, mask := 0x0F, val := BitVec.ofNat 8 (x % 16) }

/-- The accesses of reached elements: (element, (key, high nibble)). -/
def storeActs (w : Nat) (data : Nat → Nat) (rs : List (Nat × Nat × Bool)) : List PAct :=
  if w == 4 then (rs.foldl (fun l r => mergeNibble l (nibbleByte r.2.1 r.2.2 (data r.1))) []).map (fun b => .write [b])
  else rs.map (fun r => .write (plainBytes r.2.1 (leBytes (w / 8) (data r.1))))

def rmwOf (chain : Nat) : Rmw :=
  match chain with
  | 1 => .addF | 2 => .maxF | 3 => .minF | 4 => .addI | _ => .addBf

/-- Queue the accesses in order. -/
def State.queueAll (s : State) (st : Stream) (acts : List PAct) : State := acts.foldl (fun s a => s.queueStore st a) s

/-- Queue the accesses of reached elements: plain ones in a stream, chained ones as read-modify-writes of the bank stream (R159,
R160). -/
def State.queueElems (s : State) (chain : Nat) (st : Stream) (w : Nat) (data : Nat → Nat) (rs : List (Nat × Nat × Bool)) : State :=
  if chain != 0 then s.queueAll .bank (rs.map (fun r => .rmw (rmwOf chain) r.2.1 (data r.1))) else s.queueAll st (storeActs w data rs)

/-- A store through an address form. -/
def vstore (f : VForm) (chains : List Nat) (o : VLOp) (s : State) : Flow :=
  let h := s.cur
  let c := h.vctx o.m
  let chain := pfxChain h.pfx
  if !storeCheck h o c o.reg.toNat c.g (f.idxRegs c) chains then illegalV s else
  match f.badStride h c o.idx with
  | some x => .trap { cause := 0xA, tval := x, vec := true } s
  | none =>
    let n := elemBytes c.w
    let one (s : State) (i : Nat) : Except Limit (Nat × Bool) × State :=
      let p := f.place h c o.base o.idx i
      match s.probeAt .write (if chain != 0 then .chain else .plain) (if chain != 0 then .atomic else .write) (c.w ≥ 8) n i p.addr (f.lane h c i) with
      | (.ok key, s) => (.ok (key, p.high), s)
      | (.error l, s) => (.error l, s)
    let (rs, stop, s) := eachElem one c.touched s
    let s := s.queueElems chain .vector c.w (elemN (h.groupN o.reg.toNat c.g) c.w) rs
    vecEnd s s.cur none stop

/-- A store to a bound stream (R165): each active element goes to its position, and the position advances past them all
when the instruction completes; with a chain each is a read-modify-write of the bank stream at its position (R159, R160). -/
def vstoreStream (chains : List Nat) (o : VLOp) (s : State) : Flow :=
  let h := s.cur
  let c := h.vctx o.m
  let q := o.reg.toNat
  let chain := pfxChain h.pfx
  match h.rq q with
  | .store d pos =>
    if !storeCheck h o c o.base.toNat c.g 0 chains || fmtWidth d.fmt != c.w then illegalV s else
    let at_ (i : Nat) : Nat := pos + (c.queuePlace i).getD 0
    let one (s : State) (i : Nat) : Except Limit (Nat × Bool) × State :=
      match s.probeAt .write (if chain != 0 then .chain else .plain) (if chain != 0 then .atomic else .write) true (c.w / 8) i (d.addr (at_ i)) with
      | (.ok key, s) => (.ok (key, false), s)
      | (.error l, s) => (.error l, s)
    let (rs, stop, s) := eachElem one (c.touched.filter (fun i => at_ i < d.total)) s
    let s := s.queueElems chain (.q (BitVec.ofNat 3 q)) c.w (elemN (h.groupN o.base.toNat c.g) c.w) rs
    let s := if stop.isNone then { s with cur := s.cur.wq q (.store d (min d.total (pos + c.count))) } else s
    vecEnd s s.cur none stop
  | _ => illegalV s

/-! ## Blocks (R158) -/

/-- Block number of an element, and the first element of a block. -/
def VCtx.blockNo (c : VCtx) (i : Nat) : Nat := if c.twoD then i / 64 * (c.vl / c.blk) + i % 64 / c.blk else i / c.blk
def VCtx.blockFirst (c : VCtx) (i : Nat) : Nat := if c.twoD then i / 64 * 64 + i % 64 / c.blk * c.blk else i / c.blk * c.blk

/-- Bytes of a scale in memory, and its address. -/
def scaleBytes (fmt : Nat) : Nat := if fmt == 9 then 4 else 1
def scaleAddr (fmt : Nat) (b : Word) (k : Nat) : Word := b + BitVec.ofNat 64 (scaleBytes fmt * k)

/-- The first element of each block among the accessed ones, where its scale moves. -/
def VCtx.leads (c : VCtx) (i : Nat) : Bool := c.vstart ≥ i || c.blockFirst i == i || !((List.range i).any (fun j => c.active j && c.blockNo j == c.blockNo i))

/-- VLDB: the elements into vd, the scales into vd + g.  The choices for a `vtype` without blocks, for the scale words of blocks with
no accessed element and for a scale address that is no multiple of 4 are log 56. -/
def vldbBody (o : VLOp) (s : State) : Flow :=
  let h := s.cur
  let c := (h.vctx o.m).padded
  if !fmtIsBlock c.fmt || !loadCheck h o c (2 * c.g) 0 [] then illegalV s else
  let xs := h.ox o.idx
  let m := scaleBytes c.fmt
  let scaleOf (s : State) (i : Nat) : Except Limit (Option Nat) × State :=
    if !c.leads i then (.ok none, s) else
    match s.loadAt .vector true m i (scaleAddr c.fmt xs (c.blockNo i)) with
    | (.error l, s) => (.error { l with elem := c.blockFirst i }, s)
    | (.ok x, s) =>
      if (readScale c.fmt x).isNone then
        (.error { elem := c.blockFirst i, cause := 3, tval := BitVec.ofNat 64 (c.blockFirst i) }, s)
      else (.ok (some x), s)
  let one (s : State) (i : Nat) : Except Limit (Nat × Option Nat) × State :=
    match scaleOf s i with
    | (.error l, s) => (.error l, s)
    | (.ok z, s) =>
      let p := VForm.unit.place h c o.base o.idx i
      match s.loadAt .vector true (elemBytes c.w) i p.addr with
      | (.error l, s) => (.error l, s)
      | (.ok x, s) => (.ok (nibbleOf c.w p.high x, z), s)
  let (rs, stop, s) := eachElem one c.touched s
  let scales := rs.filterMap (fun r => r.2.2.map (fun z => (c.blockNo r.1, z)))
  let ws := (List.range (c.g * (256 * c.lanes / 32))).map (fun k => (scales.find? (fun p => p.1 == k)).map (fun p => p.2))
  let s := { s with cur := s.cur.writeRegs 32 (o.reg.toNat + c.g) c.g ws }
  s.endLoad o c (rs.map (fun r => (r.1, r.2.1))) stop

/-- VSTB: the active elements of vs3, and the scale of every block that holds one, from vs3 + g; a scale that fails its check is
reported at the block's first active element (log 37). -/
def vstbBody (o : VLOp) (s : State) : Flow :=
  let h := s.cur
  let c := h.vctx o.m
  if !fmtIsBlock c.fmt || !storeCheck h o c o.reg.toNat (2 * c.g) 0 [] then illegalV s else
  let xs := h.ox o.idx
  let m := scaleBytes c.fmt
  let z := h.groupN (o.reg.toNat + c.g) c.g
  let scaleOf (s : State) (i : Nat) : Except Limit (Option Nat) × State :=
    if !c.leads i then (.ok none, s) else
    match s.probeAt .write .plain .write true m i (scaleAddr c.fmt xs (c.blockNo i)) with
    | (.error l, s) => (.error l, s)
    | (.ok key, s) => (.ok (some key), s)
  let one (s : State) (i : Nat) : Except Limit ((Nat × Bool) × Option Nat) × State :=
    match scaleOf s i with
    | (.error l, s) => (.error l, s)
    | (.ok zk, s) =>
      let p := VForm.unit.place h c o.base o.idx i
      match s.probeAt .write .plain .write true (elemBytes c.w) i p.addr with
      | (.ok key, s) => (.ok ((key, p.high), zk), s)
      | (.error l, s) => (.error l, s)
  let (rs, stop, s) := eachElem one c.touched s
  let s := s.queueAll .vector (storeActs c.w (elemN (h.groupN o.reg.toNat c.g) c.w) (rs.map (fun r => (r.1, r.2.1))))
  let s := s.queueAll .vector (rs.filterMap (fun r => r.2.2.map (fun key => .write (plainBytes key (leBytes m (elemN z 32 (c.blockNo r.1)))))))
  vecEnd s s.cur none stop

/-! ## Spill and fill (R168, R169) -/

/-- Slots of one lane in a spill frame, rounded up where a VLMAX cap leaves no whole number (log 25). -/
def VCtx.laneSlots (c : VCtx) : Nat := (c.vlmax * c.w + 32 * c.lanes - 1) / (32 * c.lanes)

/-- Frame offset of slot s of register r. -/
def VCtx.slotOffset (c : VCtx) (r s : Nat) : Nat := 4 * (s % c.lanes * c.laneSlots + r * 8 + s / c.lanes)

/-- The frame bytes of element i: (frame offset, first bit of the element they hold, bytes). -/
def VCtx.framePieces (c : VCtx) (i : Nat) : List (Nat × Nat × Nat) :=
  let e := 256 * c.lanes / c.w
  let r := i / e
  let bit := i % e * c.w
  if c.w == 64 then [(c.slotOffset r (bit / 32), 0, 4), (c.slotOffset r (bit / 32 + 1), 32, 4)]
  else [(c.slotOffset r (bit / 32) + bit % 32 / 8, 0, elemBytes c.w)]

/-- The strip of a spill or fill: padding counts as granted; with m = 1 only active elements are touched. -/
def VCtx.spilled (c : VCtx) : VCtx := { c with vpad := 0 }

/-- Checks of VSPILL and VFILL, and the misaligned base. -/
def spillCheck (o : VLOp) (c : VCtx) : Bool := fmtNamed o c && o.reg.toNat % c.g == 0 && o.reg.toNat + c.g ≤ 32

def vspillBody (o : VLOp) (s : State) : Flow :=
  let h := s.cur
  let c := (h.vctx o.m).spilled
  let b := h.ox o.base
  if !spillCheck o c then illegalV s
  else if b.toNat % 4 != 0 then .trap { cause := 4, tval := b, vec := true } s else
  let x := h.groupN o.reg.toNat c.g
  let piece (i : Nat) (s : State) (p : Nat × Nat × Nat) : Except Limit Nat × State :=
    s.probeAt .write .plain .write false p.2.2 i (b + BitVec.ofNat 64 p.1)
  let one (s : State) (i : Nat) : Except Limit (List PAct) × State :=
    let act (key : Nat) (p : Nat × Nat × Nat) : PAct :=
      .write (plainBytes key (leBytes p.2.2 (x / 2 ^ (i * c.w / 8 * 8 + p.2.1) % 2 ^ (8 * p.2.2))))
    match c.framePieces i with
    | [p, p'] =>
      (match piece i s p with
       | (.error l, s) => (.error l, s)
       | (.ok k, s) => (match piece i s p' with
         | (.error l, s) => (.error l, s)
         | (.ok k', s) => (.ok [act k p, act k' p'], s)))
    | ps =>
      let p := ps.headD (0, 0, 1)
      (match piece i s p with
       | (.error l, s) => (.error l, s)
       | (.ok k, s) => (.ok [act k p], s))
  let (rs, stop, s) := eachElem one c.touched s
  let s := s.queueAll .vector (rs.flatMap (fun r => r.2))
  vecEnd s s.cur none stop

def vfillBody (o : VLOp) (s : State) : Flow :=
  let h := s.cur
  let c := (h.vctx o.m).spilled
  let b := h.ox o.base
  if !spillCheck o c || (o.m && overlap 0 1 o.reg.toNat c.g) then illegalV s
  else if b.toNat % 4 != 0 then .trap { cause := 4, tval := b, vec := true } s else
  let piece (i : Nat) (s : State) (p : Nat × Nat × Nat) : Except Limit Nat × State :=
    s.loadAt .vector false p.2.2 i (b + BitVec.ofNat 64 p.1)
  let one (s : State) (i : Nat) : Except Limit Nat × State :=
    match c.framePieces i with
    | [p, p'] =>
      (match piece i s p with
       | (.error l, s) => (.error l, s)
       | (.ok x, s) => (match piece i s p' with
         | (.error l, s) => (.error l, s)
         | (.ok y, s) => (.ok (x + 2 ^ 32 * y), s)))
    | ps =>
      (match piece i s (ps.headD (0, 0, 1)) with
       | (.error l, s) => (.error l, s)
       | (.ok x, s) => (.ok (nibbleOf c.w (i % 2 == 1) x), s))
  let (vals, stop, s) := eachElem one c.touched s
  s.endLoad { o with ta := false, ma := false, q := false } c vals stop

/-! ## Instructions -/

/-- VLD (R154, R160, R161). -/
def execVld (o : VLOp) (s : State) : Host.Outcome State Fault Refusal := performPfx (vldWord o) s (vload .unit [6, 7, 8] o)

/-- VLDS (R154, R157). -/
def execVlds (o : VLOp) (s : State) : Host.Outcome State Fault Refusal := performPfx (vldsWord o) s (vload .strided [6, 7, 8] o)

/-- VLDX (R154). -/
def execVldx (o : VLOp) (s : State) : Host.Outcome State Fault Refusal := performPfx (vldxWord o) s (vload .indexed [] o)

/-- VLDB (R158). -/
def execVldb (o : VLOp) (s : State) : Host.Outcome State Fault Refusal := performPfx (vldbWord o) s (vldbBody o)

/-- VFILL (R169). -/
def execVfill (o : VLOp) (s : State) : Host.Outcome State Fault Refusal := perform (vfillWord o) s (vfillBody o)

/-- VST (R154, R160, R165). -/
def execVst (o : VLOp) (s : State) : Host.Outcome State Fault Refusal :=
  performPfx (vstWord o) s (if o.q then vstoreStream [1, 2, 3, 4, 5] o else vstore .unit [1, 2, 3, 4, 5] o)

/-- VSTS (R154, R157). -/
def execVsts (o : VLOp) (s : State) : Host.Outcome State Fault Refusal := performPfx (vstsWord o) s (vstore .strided [1, 2, 3, 4, 5] o)

/-- VSTX (R154). -/
def execVstx (o : VLOp) (s : State) : Host.Outcome State Fault Refusal := performPfx (vstxWord o) s (vstore .indexed [] o)

/-- VSTB (R158). -/
def execVstb (o : VLOp) (s : State) : Host.Outcome State Fault Refusal := performPfx (vstbWord o) s (vstbBody o)

/-- VSPILL (R169). -/
def execVspill (o : VLOp) (s : State) : Host.Outcome State Fault Refusal := perform (vspillWord o) s (vspillBody o)

end Sys2Proof.Machine
end

