-- ==== Sys2Proof/Machine/Matrix.lean ====
section
/-!
DEFINITION. The matrix array: outer products, scale latches and tiles (R14, R16, R178 to R183).
-/

namespace Sys2Proof.Machine

/-! ## Tiles (R14) -/

def Hart.tile (h : Hart) (t : BitVec 3) : BitVec 131072 := h.tiles[reg8 t.toNat]

/-- Cell 64 · i + j of a tile. -/
def tileCell (t : BitVec 131072) (k : Nat) : Nat := (t.extractLsb' (32 * k) 32).toNat

def setCell (t : BitVec 131072) (k x : Nat) : BitVec 131072 :=
  (t &&& ~~~(BitVec.ofNat 131072 0xFFFFFFFF <<< (32 * k))) ||| (BitVec.ofNat 131072 (x % 2 ^ 32) <<< (32 * k))

def setCells (t : BitVec 131072) (ws : List (Nat × Nat)) : BitVec 131072 := ws.foldl (fun t p => setCell t p.1 p.2) t

/-- Write a tile and set its `dirty` bit (R27, R183). -/
def Hart.wt (h : Hart) (t : BitVec 3) (x : BitVec 131072) : Hart :=
  ({ h with tiles := h.tiles.set (reg8 t.toNat) x } : Hart).setDirty (32 + t.toNat)

/-! ## Outer products (R178 to R181) -/

/-- The formats of the A and B operands under a format pair (R99). -/
def pairFmts (fmt : Nat) (pair : BitVec 3) : Nat × Nat :=
  match pair.toNat with
  | 0 => (fmt, fmt)
  | 1 => (7, 8)
  | _ => (8, 7)

/-- An operand element read exactly, with no scale; none for a reserved code. -/
def mopaElem (fmt x : Nat) : Option Ex := if fmtIsBlock fmt then readBlockElem fmt x else some (readF (ffmt fmt) x)

/-- The exact sum of products, with NV when an infinity meets its opposite or a zero (R179). -/
def sumProducts (mode : Nat) (ps : List (Ex × Ex)) : Ex × Nat :=
  let zs := ps.map (fun p => mulEx p.1 p.2)
  let fl := zs.foldl (fun a z => a ||| z.2) 0
  let xs := zs.map (fun z => z.1)
  let clash := xs.any (fun x => x.isInf && x.isNeg) && xs.any (fun x => x.isInf && !x.isNeg)
  if xs.any Ex.isNan || clash then (.nan false, fl ||| (if clash then flagNV else 0)) else
  match xs with
  | [] => (.fin false 0 1 0, fl)
  | x :: t => (t.foldl (fun a y => (addEx mode a y).1) x, fl)

/-- The new value of a cell and its flags (R179): T + SA · SB · S, rounded once. -/
def mopaCell (mode cell : Nat) (sa sb : Ex) (ps : List (Ex × Ex)) : Nat × Nat :=
  let (x, f1) := sumProducts mode ps
  let (y, f2) := mulEx (mulEx sa sb).1 x
  let (z, f3) := addEx mode (readF fp32 cell) y
  let anySig := (readF fp32 cell).isSig || ps.any (fun p => p.1.isSig || p.2.isSig)
  let (r, fl) := deliver fp32 mode (z, f1 ||| f2 ||| f3)
  (r, fl ||| (if anySig then flagNV else 0))

/-- An INT8 cell (R179). -/
def mopaInt (cell : Nat) (ps : List (Nat × Nat)) : Nat :=
  wrapN (ps.foldl (fun a p => a + sintN 8 p.1 * sintN 8 p.2) (cell : Int)) 32

/-- What an outer product reads: `a k i` and `b k j` as bits. -/
structure MopaIn where
  tile : BitVec 3
  fa   : Nat
  fb   : Nat
  n    : Nat
  vr   : Nat
  rows : List Nat
  a    : Nat → Nat → Nat
  b    : Nat → Nat → Nat

/-- A scale latch: 1 for a format without blocks (R16, R179). -/
def latch (fmt : Nat) (v : Vector (BitVec 32) 64) (i : Nat) : Ex :=
  if fmtIsBlock fmt then readF fp32 (v.toList.getD i 0).toNat else .fin false 1 1 0

/-- The lowest read element of an operand that is a reserved code under a latch that is not +0 (R180). -/
def reservedElem (fmt vr : Nat) (idx : List Nat) (x : Nat → Nat → Nat) (sc : Nat → Ex) : Option Nat :=
  (List.range vr).findSome? (fun k => (idx.find? (fun i => (mopaElem fmt (x k i)).isNone && !(sc i).isZero)).map (fun i => 64 * k + i))

/-- Write cells of a tile; a tile of which no cell is written is not dirty (R27). -/
def Hart.writeCells (h : Hart) (tile : BitVec 3) (ws : List (Nat × Nat)) : Hart :=
  if ws.isEmpty then h else h.wt tile (setCells (h.tile tile) ws)

/-- Perform an outer product, all at once or not at all (R180). -/
def State.mopa (s : State) (p : MopaIn) : Flow :=
  let h := s.cur
  let cols := List.range p.n
  let cells := p.rows.flatMap (fun i => cols.map (fun j => (i, j)))
  let t := h.tile p.tile
  if p.fa == 0 then
    let ws := cells.map (fun c => (64 * c.1 + c.2, mopaInt (tileCell t (64 * c.1 + c.2)) ((List.range p.vr).map (fun k => (p.a k c.1, p.b k c.2)))))
    .done { s with cur := { h.writeCells p.tile ws with vstart := 0 } }
  else
    let sa := latch p.fa h.scaleA
    let sb := latch p.fb h.scaleB
    let bad := match reservedElem p.fa p.vr p.rows p.a sa with
      | some e => some e
      | none => if p.rows.isEmpty then none else reservedElem p.fb p.vr cols p.b sb
    match bad with
    | some e => .trap { cause := 2, tval := BitVec.ofNat 64 e, vec := true } s
    | none =>
      let zero : Ex := .fin false 0 1 0
      let rs := cells.map (fun c =>
        (64 * c.1 + c.2,
         mopaCell h.mode (tileCell t (64 * c.1 + c.2)) (sa c.1) (sb c.2)
           ((List.range p.vr).map (fun k => ((mopaElem p.fa (p.a k c.1)).getD zero, (mopaElem p.fb (p.b k c.2)).getD zero)))))
      let h1 := h.raise (rs.foldl (fun f r => f ||| r.2.2) 0)
      match rs.find? (fun r => r.2.2 &&& h.enabled != 0) with
      | some r => .trap { cause := 0xF, tval := BitVec.ofNat 64 r.1, vec := true } { s with cur := h1 }
      | none => .done { s with cur := { h1.writeCells p.tile (rs.map (fun r => (r.1, r.2.1))) with vstart := 0 } }

/-- Checks 3 and 4 that MOPA and MOPAX share (R99, R122, R178); `groups` are their operand groups. -/
def mopaCheck (h : Hart) (c : VCtx) (m : Bool) (pair : BitVec 3) (groups : List (Nat × Nat)) : Bool :=
  pfxFits h.pfx { pred := m, rm := true } && c.twoD && c.vstart == 0 &&
  (c.fmt == 0 || (4 ≤ c.fmt && c.fmt ≤ 12)) && (pair == 0#3 || c.fmt == 7 || c.fmt == 8) &&
  !(m && groups.any (fun g => overlap 0 1 g.1 g.2 || overlap c.maskReg 1 g.1 g.2))

/-- Granted columns of a MOPA. -/
def VCtx.mopaN (c : VCtx) : Nat := c.vl - c.vpad
/-- M-side rows that take part. -/
def VCtx.mopaRows (c : VCtx) : List Nat := (List.range c.mopaN).filter c.gov

/-- MOPA (R178, R179). -/
def mopaBody (tile : BitVec 3) (va vb : Reg) (m : Bool) (pair : BitVec 3) (s : State) : Flow :=
  let h := s.cur
  let c := h.vctx m
  let a := va.toNat
  let b := vb.toNat
  if !mopaCheck h c m pair [(a, c.g), (b, c.g)] || !groupOk a c.g || !groupOk b c.g then illegalV s else
  let (fa, fb) := pairFmts c.fmt pair
  let x := h.groupN a c.g
  let y := h.groupN b c.g
  s.mopa { tile := tile, fa := fa, fb := fb, n := c.mopaN, vr := c.vr, rows := c.mopaRows,
           a := fun k i => elemN x c.w (64 * k + i), b := fun k j => elemN y c.w (64 * k + j) }

/-- Registers that hold n 32-bit elements (R181). -/
def Hart.regsFor (h : Hart) (n : Nat) : Nat := (32 * n + h.regBits - 1) / h.regBits

/-- 32-bit elements 0, 1, … from register `r` up, whatever `vtype` holds (R181). -/
def Hart.elems32 (h : Hart) (r n : Nat) : Nat → Nat := let x := h.groupN r (h.regsFor n); fun i => elemN x 32 i

/-- Read the row of A for M-side row i: its elements (R181). -/
def State.gatherRow (s : State) (w vr i off : Nat) : Except Limit (List Nat) × State :=
  let a := BitVec.ofNat 64 (Config.localBase + off)
  if w ≥ 8 && off % (w / 8) != 0 then (.error { elem := 0, cause := 4, tval := a }, s)
  else if !inRegions s.cur.local_ off ((vr * w + 7) / 8) then (.error { elem := 0, cause := 6, tval := a }, s)
  else
    let one (s : State) (k : Nat) : Except Limit Nat × State :=
      match s.loadAt .vector false (elemBytes w) i (BitVec.ofNat 64 (Config.localBase + off + k * w / 8)) with
      | (.ok x, s) => (.ok (nibbleOf w (k % 2 == 1) x), s)
      | (.error l, s) => (.error { l with elem := 0 }, s)
    match eachElem one (List.range vr) s with
    | (rs, none, s) => (.ok (rs.map (fun r => r.2)), s)
    | (_, some l, s) => (.error l, s)

/-- MOPAX (R181); it is never interrupted (R310). -/
def mopaxBody (tile : BitVec 3) (vb vidx : Reg) (m : Bool) (pair : BitVec 3) (s : State) : Flow :=
  let h := s.cur
  let c := h.vctx m
  let b := vb.toNat
  let v := vidx.toNat
  let nv := h.regsFor (max 1 c.mopaN)
  if !mopaCheck h c m pair [(v, nv), (b, c.g)] || v + nv > 32 || !groupOk b c.g then illegalV s else
  let (fa, fb) := pairFmts c.fmt pair
  let idx := h.elems32 v (max 1 c.mopaN)
  let y := h.groupN b c.g
  match eachElem (fun s i => s.gatherRow (fmtWidth fa) c.vr i (idx i)) c.mopaRows { s with cut := none } with
  | (_, some l, s) => .trap { cause := l.cause, tval := l.tval, vec := true } s
  | (rows, none, s) =>
    s.mopa { tile := tile, fa := fa, fb := fb, n := c.mopaN, vr := c.vr, rows := c.mopaRows,
             a := fun k i => (look [] rows i).getD k 0, b := fun k j => elemN y c.w (64 * k + j) }

/-- A scale latch takes +0 or a positive finite FP32 number (R182). -/
def latchOk (x : Nat) : Bool := x < 0x7F800000

/-- MSCL (R182): the 64 new latches, or the trap. -/
def mscl (vs : Reg) (set : Hart → Vector (BitVec 32) 64 → Hart) (s : State) : Flow :=
  let h := s.cur
  let v := vs.toNat
  if v + h.regsFor 64 > 32 then illegalV s else
  let x := h.elems32 v 64
  match (List.range 64).find? (fun i => !latchOk (x i)) with
  | some i => .trap { cause := 3, tval := BitVec.ofNat 64 i, vec := true } s
  | none => .done { s with cur := { set h (Vector.ofFn (fun i => BitVec.ofNat 32 (x i.val))) with vstart := 0 } }

/-! ## Tile instructions (R183) -/

/-- First row and row count of an xn operand. -/
def tileRows (x : Word) : Nat × Nat := (x.toNat % 64, x.toNat / 64 % 128)

/-- Checks of MLDT and MSTT, and what is misaligned. -/
def tileMoveCheck (x : Word) : Bool := let (f, c) := tileRows x; 1 ≤ c && c ≤ 64 && f + c ≤ 64 && x.toNat / 2 ^ 13 == 0

def tileMisaligned (a s : Word) (c : Nat) : Option Word :=
  if a.toNat % 4 != 0 then some a else if c ≥ 2 && s.toNat % 4 != 0 then some (a + s) else none

/-- Address of word k of a tile move: 64 words a row. -/
def tileAddr (a s : Word) (k : Nat) : Word := a + BitVec.ofNat 64 (k / 64) * s + BitVec.ofNat 64 (4 * (k % 64))

/-- Words a tile move still transfers. -/
def tileWords (h : Hart) (c : Nat) : List Nat := (List.range (64 * c)).filter (fun k => h.vstart.toNat ≤ k)

/-- MLDT (R183). -/
def mldtBody (tile : BitVec 3) (ra rs rn : Reg) (s : State) : Flow :=
  let h := s.cur
  let a := h.ox ra
  let st := h.ox rs
  let (f, c) := tileRows (h.ox rn)
  if !tileMoveCheck (h.ox rn) then illegalV s else
  match tileMisaligned a st c with
  | some x => .trap { cause := 4, tval := x, vec := true } s
  | none =>
    let (rs, stop, s) := eachElem (fun (s : State) k => s.loadAt .vector false 4 k (tileAddr a st k)) (tileWords h c) s
    let h1 := if rs.isEmpty then s.cur else s.cur.wt tile (setCells (s.cur.tile tile) (rs.map (fun r => (64 * f + r.1, r.2))))
    vecEnd s h1 none stop

/-- MSTT (R183). -/
def msttBody (tile : BitVec 3) (ra rs rn : Reg) (s : State) : Flow :=
  let h := s.cur
  let a := h.ox ra
  let st := h.ox rs
  let (f, c) := tileRows (h.ox rn)
  if !tileMoveCheck (h.ox rn) then illegalV s else
  match tileMisaligned a st c with
  | some x => .trap { cause := 4, tval := x, vec := true } s
  | none =>
    let (rs, stop, s) := eachElem (fun (s : State) k => s.probeAt .write .plain .write false 4 k (tileAddr a st k)) (tileWords h c) s
    let t := h.tile tile
    let s := s.queueAll .vector (rs.map (fun r => .write (plainBytes r.2 (leBytes 4 (tileCell t (64 * f + r.1))))))
    vecEnd s s.cur none stop

/-- The highest granted element; none when none is (R183). -/
def VCtx.highest (c : VCtx) : Option Nat :=
  if c.vl ≤ c.vpad || (c.twoD && c.vr == 0) then none else some (if c.twoD then 64 * (c.vr - 1) + c.vl - c.vpad - 1 else c.vl - c.vpad - 1)

/-- Checks of MRDV and MWRV: a register group and the rows it reaches. -/
def tileRegCheck (c : VCtx) (r : Reg) (xn : Word) : Bool :=
  xn.toNat / 64 == 0 && (c.fmt == 4 || c.fmt == 2) && groupOk r.toNat c.g &&
  (match c.highest with | some e => xn.toNat % 64 + e / 64 ≤ 63 | none => true)

/-- MRDV (R183); it has no ta and ma bits, so tail and masked-off positions stay (R84, log 57). -/
def mrdvBody (tile : BitVec 3) (vd rn : Reg) (m : Bool) (s : State) : Flow :=
  let h := s.cur
  let c := h.vctx m
  let xn := h.ox rn
  if !tileRegCheck c vd xn || (m && overlap c.maskReg 1 vd.toNat c.g) then illegalV s else
  let t := h.tile tile
  s.elementwise c {} [{ base := vd.toNat, regs := c.g, width := 32, pick := fun r => r.val }] { elem := fun _ => 0 }
    (fun e => ERes.of (tileCell t (64 * (xn.toNat % 64) + e)))

/-- MWRV (R183). -/
def mwrvBody (tile : BitVec 3) (vs rn : Reg) (m : Bool) (s : State) : Flow :=
  let h := s.cur
  let c := h.vctx m
  let xn := h.ox rn
  if !tileRegCheck c vs xn then illegalV s else
  let x := h.groupN vs.toNat c.g
  let ws := c.touched.map (fun e => (64 * (xn.toNat % 64) + e, elemN x 32 e))
  .done { s with cur := { h.writeCells tile ws with vstart := 0 } }

/-! ## Instructions -/

/-- MOPA (R178 to R180). -/
def execMopa (tile : BitVec 3) (va vb : Reg) (m : Bool) (pair : BitVec 3) (s : State) : Host.Outcome State Fault Refusal :=
  performPfx (mopaWord tile va vb m pair) s (mopaBody tile va vb m pair)

/-- MOPAX (R181). -/
def execMopax (tile : BitVec 3) (vb vidx : Reg) (m : Bool) (pair : BitVec 3) (s : State) : Host.Outcome State Fault Refusal :=
  performPfx (mopaxWord tile vb vidx m pair) s (mopaxBody tile vb vidx m pair)

/-- MSCL.A (R182). -/
def execMsclA (vs : Reg) (s : State) : Host.Outcome State Fault Refusal :=
  perform (msclAWord vs) s (mscl vs (fun h v => { h with scaleA := v }))

/-- MSCL.B (R182). -/
def execMsclB (vs : Reg) (s : State) : Host.Outcome State Fault Refusal :=
  perform (msclBWord vs) s (mscl vs (fun h v => { h with scaleB := v }))

/-- MZERO (R183). -/
def execMzero (tile : BitVec 3) (s : State) : Host.Outcome State Fault Refusal :=
  perform (mzeroWord tile) s (fun s => .done { s with cur := { s.cur.wt tile 0 with vstart := 0 } })

/-- MLDT (R183). -/
def execMldt (tile : BitVec 3) (a st n : Reg) (s : State) : Host.Outcome State Fault Refusal :=
  perform (mldtWord tile a st n) s (mldtBody tile a st n)

/-- MSTT (R183). -/
def execMstt (tile : BitVec 3) (a st n : Reg) (s : State) : Host.Outcome State Fault Refusal :=
  perform (msttWord tile a st n) s (msttBody tile a st n)

/-- MRDV (R183). -/
def execMrdv (tile : BitVec 3) (vd n : Reg) (m : Bool) (s : State) : Host.Outcome State Fault Refusal :=
  perform (mrdvWord tile vd n m) s (mrdvBody tile vd n m)

/-- MWRV (R183). -/
def execMwrv (tile : BitVec 3) (vs n : Reg) (m : Bool) (s : State) : Host.Outcome State Fault Refusal :=
  perform (mwrvWord tile vs n m) s (mwrvBody tile vs n m)

end Sys2Proof.Machine
end

