-- ==== Sys2Proof/Machine/System.lean ====
section
/-!
DEFINITION. Status registers (R20 to R29, R123), traps and handlers (R126, R127), fences and barriers (R124, R125), YIELD
(R128), the prefix (R103, R122) and the illegal-instruction trap (R88).
-/

namespace Sys2Proof.Machine

/-! ## Status registers (R20) -/

/-- Access codes of R3. -/
inductive CsrAccess where
  | ro | rw | rw1c
  deriving DecidableEq, Repr

/-- The access of a status register number; none for a number R20 does not list. -/
def csrAccess (n : Nat) : Option CsrAccess :=
  match n with
  | 0x004 | 0x005 | 0x006 | 0x007 | 0x00A | 0x00B | 0x00C | 0x014 | 0x019 | 0x01B => some .rw
  | 0x013 => some .rw1c
  | _ => if n ≤ 0x01B || (0x020 ≤ n && n ≤ 0x025) then some .ro else none

/-- The value of a status register (R20). -/
def Hart.readCsr (h : Hart) (n : Nat) : Word :=
  match n with
  | 0x000 => h.vl | 0x001 => h.vr | 0x002 => h.vtype | 0x003 => h.vlmax | 0x004 => h.vstart | 0x005 => h.vrm
  | 0x006 => h.vxflags | 0x007 => h.vxsel | 0x008 => h.sord | 0x009 => h.sva | 0x00A => h.lc | 0x00B => h.lbeg
  | 0x00C => h.lend | 0x00D => h.pfxs | 0x00E => h.dirty | 0x00F => h.lmap | 0x010 => h.coord | 0x011 => h.stage
  | 0x012 => h.rstat | 0x013 => h.discf | 0x014 => h.tvec | 0x015 => h.tcause | 0x016 => h.tval | 0x017 => h.tpc
  | 0x018 => h.tqpos | 0x019 => h.tsave | 0x01A => h.vpad | 0x01B => h.lbase | 0x020 => h.lcuse | 0x021 => h.lcmask
  | 0x022 => h.lcbvl | 0x023 => h.lcdead | 0x024 => h.lcstall | _ => h.lccyc

/-- Whether an RW register takes a value: no reserved bit is set and the value is one it may hold (R23 to R25, R113,
R123). -/
def Hart.csrTakes (h : Hart) (n : Nat) (x : Word) : Bool :=
  match n with
  | 0x004 => x < h.vlmax && x.toNat < 2 ^ 13
  | 0x005 => x.toNat ≤ 4
  | 0x006 => x &&& ~~~(0x7F#64) == 0
  | 0x007 => x &&& ~~~(0x7F007F#64) == 0
  | 0x00B => x.toNat % 4 == 0
  | 0x00C => !x.getLsbD 1
  | 0x014 => x.toNat % 4 == 0
  | _ => true

/-- Store an RW register. -/
def Hart.writeCsr (h : Hart) (n : Nat) (x : Word) : Hart :=
  match n with
  | 0x004 => { h with vstart := x }
  | 0x005 => { h with vrm := x }
  | 0x006 => { h with vxflags := x }
  | 0x007 => { h with vxsel := x }
  | 0x00A => { h with lc := x }
  | 0x00B => { h with lbeg := x }
  | 0x00C => { h with lend := x }
  | 0x014 => { h with tvec := x }
  | 0x019 => { h with tsave := x }
  | 0x01B => { h with lbase := x }
  | _ => h

/-- The illegal-instruction trap of a scalar instruction. -/
def illegal (s : State) : Flow := .trap { cause := 1, tval := 0 } s

/-- The number checks of R21: 0x800 and above is privileged, an unlisted number is illegal. -/
def csrCheck (csr : BitVec 12) (s : State) (k : CsrAccess → Flow) : Flow :=
  if csr.toNat ≥ 0x800 then .trap { cause := 0x10, tval := csr.setWidth 64 } s
  else match csrAccess csr.toNat with
    | none => illegal s
    | some a => k a

/-- CSRR (R123); a read of the lane-cycle record is journalled (R348). -/
def csrRead (d : Reg) (csr : BitVec 12) (s : State) : Flow :=
  csrCheck csr s (fun _ =>
    let x := s.cur.readCsr csr.toNat
    let (x, s) := if csr.toNat ≥ 0x020 then s.journalled jLane x else (x, s)
    .done { s with cur := s.cur.wx d x })

/-- CSRW (R123): a write of `discf` clears the bits that are 1. -/
def csrWrite (a : Reg) (csr : BitVec 12) (s : State) : Flow :=
  csrCheck csr s (fun k =>
    let x := s.cur.rx a
    match k with
    | .ro => illegal s
    | .rw1c => .done { s with cur := { s.cur with discf := s.cur.discf &&& ~~~x } }
    | .rw => if s.cur.csrTakes csr.toNat x then .done { s with cur := s.cur.writeCsr csr.toNat x } else illegal s)

/-- CSRS and CSRC (R123): legal on RW registers only; an operand of 0 changes nothing. -/
def csrModify (f : Word → Word → Word) (a : Reg) (csr : BitVec 12) (s : State) : Flow :=
  csrCheck csr s (fun k =>
    match k with
    | .rw =>
      let x := s.cur.rx a
      let y := f (s.cur.readCsr csr.toNat) x
      if x == 0 then .done s
      else if s.cur.csrTakes csr.toNat y then .done { s with cur := s.cur.writeCsr csr.toNat y } else illegal s
    | _ => illegal s)

/-- CSRR (R123). -/
def execCsrr (d : Reg) (csr : BitVec 12) (s : State) : Host.Outcome State Fault Refusal := perform (csrrWord d csr) s (csrRead d csr)

/-- CSRW (R123). -/
def execCsrw (a : Reg) (csr : BitVec 12) (s : State) : Host.Outcome State Fault Refusal := perform (csrwWord a csr) s (csrWrite a csr)

/-- CSRS (R123). -/
def execCsrs (a : Reg) (csr : BitVec 12) (s : State) : Host.Outcome State Fault Refusal :=
  perform (csrsWord a csr) s (csrModify (fun old x => old ||| x) a csr)

/-- CSRC (R123). -/
def execCsrc (a : Reg) (csr : BitVec 12) (s : State) : Host.Outcome State Fault Refusal :=
  perform (csrcWord a csr) s (csrModify (fun old x => old &&& ~~~x) a csr)

/-! ## Traps and handlers (R126, R127) -/

/-- TRAP (R126). -/
def execTrap (imm : BitVec 12) (s : State) : Host.Outcome State Fault Refusal :=
  perform (trapWord imm) s (fun s => .trap { cause := 0xE, tval := imm.setWidth 64 } s)

/-- A BRK of a context a debug block serves stops the context with a record, and the supervisor leaves the hart held
(R340). -/
def brkHold (imm : BitVec 12) (s : State) : State :=
  match s.blockOf s.cur.sctx with
  | none => s
  | some (n, _) =>
    let s := (s.stopRecord n (hitRecord s.cur 5 0 0 false s.cur.tpc 0 s.cur.recordElem s.sevenths s.sevenths)).payOwn
    ({ s with cur := { s.cur with held := true, pending := none, more := [], tval := imm.setWidth 64 } } : State).stopOthers n s.cur.place

/-- BRK (R126): the trap goes to the device supervisor. -/
def brkBody (imm : BitVec 12) (s : State) : Flow :=
  .stay (brkHold imm (s.raise { cause := 0xD, tval := imm.setWidth 64 } none))

/-- BRK (R126). -/
def execBrk (imm : BitVec 12) (s : State) : Host.Outcome State Fault Refusal := perform (brkWord imm) s (brkBody imm)

/-- ERET (R127): illegal outside a handler. -/
def eretBody (s : State) : Flow :=
  match s.cur.handler with
  | none => illegal s
  | some k => .stay { s with cur := s.cur.retire.eret k }

/-- ERET (R127). -/
def execEret (s : State) : Host.Outcome State Fault Refusal := perform eretWord s eretBody

/-! ## Fences and barriers (R124, R125) -/

/-- Perform the queued accesses of some streams and wait for the hart's own commands of some engines. -/
def fenceOn (streams : Stream → Bool) (engines : Engine → Bool) (s : State) : Flow :=
  let s := s.drain streams
  if s.ownCommand engines then .stay s.waitCommands else .done s

/-- A full fence: every stream, command and chained operation of the hart, performed for the agents of the scope (R124, R219, R221). -/
def fullFence (scope : BitVec 3) (s : State) : Flow :=
  let s := if scope.toNat ≥ 4 then s.takeLines (s.queuedKeys anyStream) else s
  let s := (s.drainTo (scopeLevel scope) anyStream).awaitNet (scopeLevel scope) true anyStream
  if s.ownStreams then .stay s.waitCommands else .done s

/-- Streams named by an SBAR mask (R93). -/
def sbarStream (mask : BitVec 11) : Stream → Bool
  | .q n => mask.getLsbD n.toNat
  | .scalar => mask.getLsbD 8
  | .vector => mask.getLsbD 9
  | .bank => mask.getLsbD 10
  | .thread _ => false

/-- FENCE.scope (R124). -/
def execFence (scope : BitVec 3) (s : State) : Host.Outcome State Fault Refusal := perform (fenceWord scope) s (fullFence scope)

/-- FENCE.SV (R124). -/
def execFenceSv (s : State) : Host.Outcome State Fault Refusal :=
  perform fenceSvWord s (fenceOn (fun st => st == .scalar) noEngine)

/-- FENCE.VS (R124). -/
def execFenceVs (s : State) : Host.Outcome State Fault Refusal := perform fenceVsWord s (fenceOn vectorStream noEngine)

/-- FENCE.VV (R124). -/
def execFenceVv (s : State) : Host.Outcome State Fault Refusal := perform fenceVvWord s (fenceOn vectorStream noEngine)

/-- SBAR (R124): the bank stream holds the bank commands too (R195). -/
def execSbar (mask : BitVec 11) (s : State) : Host.Outcome State Fault Refusal :=
  perform (sbarWord mask) s (fenceOn (sbarStream mask) (fun e => mask.getLsbD 10 && bankEngine e))

/-- IFENCE (R125): the stores the hart performed before it are what later fetches see, and words read ahead are dropped. -/
def execIfence (s : State) : Host.Outcome State Fault Refusal :=
  perform ifenceWord s (fun s =>
    let s := s.drain anyStream
    .done { s with cur := { s.cur with words := [] } })


/-- YIELD (R128). -/
def execYield (s : State) : Host.Outcome State Fault Refusal := perform yieldWord s (fun s => .done s.giveTurn)

/-! ## The prefix and undefined words -/

/-- PFX (R26, R103, R122): its fields wait in `pfxs` for the next instruction. -/
def pfxBody (w : BitVec 32) (s : State) : Flow :=
  .stay { s with cur := { s.cur.advance with pfxs := (w &&& 0x03FFFFFF#32).setWidth 64 ||| 0x8000000000000000#64 } }

/-- PFX (R122). -/
def execPfx (pred copy emask : Reg) (rm : BitVec 3) (pv cv ev : Bool) (chain : BitVec 5) (s : State) : Host.Outcome State Fault Refusal :=
  perform (pfxWord pred copy emask rm pv cv ev chain) s (pfxBody (pfxWord pred copy emask rm pv cv ev chain))

/-- A word that fits no description of R88: the illegal-instruction trap, before any other check; in a kernel the NMU
fault (R278). -/
def execIllegalInstruction (w : BitVec 32) (s : State) : Host.Outcome State Fault Refusal :=
  .next (match s.unit with
    | .nmu ch => (match (s.nmu ch).run with | some r => s.nmuFault ch r w | none => s)
    | .hart => s.raise { cause := 1, tval := w.setWidth 64 } none)

end Sys2Proof.Machine
end

