-- ==== Sys2Proof/Machine/StreamBind.lean ====
section
/-!
DEFINITION. Binding and unbinding streams (R162, R163, R166, R167, R288), the stream unit's own steps (R59, R289), and the
performing of queued accesses (R160, R220).
-/

namespace Sys2Proof.Machine

/-- The stream queue of q register n. -/
def isQ (n : BitVec 3) : Stream → Bool
  | .q m => m == n
  | _ => false

/-- An affine descriptor from its eight doublewords, none when ill-formed (R162, R163): the direction (true = store) and
the stream. -/
def affineOf (ds : List Word) : Option (Bool × AffDesc) :=
  let c := (ds.getD 1 0).toNat
  let dims := c / 2 ^ 8 % 4
  let fmt := c / 2 ^ 4 % 16
  let entry (k : Nat) : Nat := (ds.getD (2 + k) 0).toNat
  let count (k : Nat) : Nat := entry k % 2 ^ 32
  let ok := c / 2 ^ 10 == 0 && c / 2 % 8 == 0 && dims != 0 && fmt ≤ 8 && (ds.drop 5).all (fun d => d == 0) &&
    (List.range 3).all (fun k => if k < dims then count k != 0 else entry k == 0)
  if !ok then none else
  some (c % 2 == 1, { base := ds.getD 0 0, fmt := fmt, strides := (List.range dims).map (fun k => sintN 32 (entry k / 2 ^ 32)),
                      counts := (List.range dims).map count })

/-- Read a 64-byte block as one load of the scalar stream (R163, R184): its failure is reported at its own address. -/
def State.loadBlock (s : State) (a : Word) : Except Trap (List Word) × State :=
  match s.loadDwords .scalar a 8 with
  | (.error t, s) => (.error { t with tval := a }, s)
  | (.ok ds, s) => (.ok ds, s.strike .read a 64 noElem)

/-- SBIND (R163): a store stream that still drains is performed first. -/
def sbindBody (q : BitVec 3) (a : Reg) (s : State) : Flow :=
  let x := s.cur.rx a
  if s.cur.rq q.toNat != .unbound then illegal s
  else if x.toNat % 64 != 0 then .trap { cause := 4, tval := x } s
  else match s.loadBlock x with
    | (.error t, s) => .trap t s
    | (.ok ds, s) =>
      match affineOf ds with
      | none => illegal s
      | some (st, d) =>
        let s := s.drain (isQ q)
        .done { s with cur := s.cur.wq q.toNat (if st then .store d 0 else .load d 0 []) }

/-- SBINDC (R166, R288). -/
def sbindcBody (q : BitVec 3) (a : Reg) (s : State) : Flow :=
  let x := s.cur.rx a
  if s.cur.rq q.toNat != .unbound then illegal s
  else if x.toNat % 64 != 0 then .trap { cause := 4, tval := x } s
  else
    let s := s.drain (isQ q)
    let im : ImageState :=
      { header := x, total := 0, chunks := 0, lens := [], opened := false, next := 0, addr := 0, done := 0, syms := [], fail := none, marks := [], ask := none, paged := [] }
    .done { s with cur := s.cur.wq q.toNat (.image im 0) }

/-- SBIND (R163). -/
def execSbind (q : BitVec 3) (a : Reg) (s : State) : Host.Outcome State Fault Refusal := perform (sbindWord q a) s (sbindBody q a)

/-- SBINDC (R166). -/
def execSbindc (q : BitVec 3) (a : Reg) (s : State) : Host.Outcome State Fault Refusal := perform (sbindcWord q a) s (sbindcBody q a)

/-- SUNBIND (R167): elements a store stream took are still performed. -/
def execSunbind (q : BitVec 3) (s : State) : Host.Outcome State Fault Refusal :=
  perform (sunbindWord q) s (fun s => .done { s with cur := s.cur.wq q.toNat .unbound })

/-! ## The stream unit's own steps -/

/-- The stream-load unit decodes the next thing of a bound image ahead of its consumers (R288, R289). -/
def State.chunkAhead (s : State) (q : BitVec 3) : State :=
  match s.cur.rq q.toNat with
  | .image im pos =>
    if im.ask.isSome then s else
    (match s.imageStep q.toNat im with
     | (.ok im, s) => { s with cur := s.cur.wq q.toNat (.image im pos) }
     | (.error a, s) => (s.askImage q.toNat im pos a).2)
  | _ => s

/-- CHUNK_DECODE (R289): queue `q` of hart `h`; a read that cannot be made yet leaves it for later. -/
def execChunkDecode (h : Nat) (q : BitVec 3) (s : State) : Host.Outcome State Fault Refusal :=
  .next (
    let s := s.focus h
    if s.cur.place != h || s.cur.status == .unbound then s else
    let t := ({ s with blocked := none } : State).chunkAhead q
    if t.blocked.isSome then s
    else ({ t with cur := { t.cur with strikes := s.cur.strikes } } : State).agentHits h (t.cur.strikes.drop s.cur.strikes.length))

/-- QUEUE_ELEMENTS_ARRIVE (R59): a consumer that waits for elements whose page request has been answered issues again. -/
def execQueueElementsArrive (h : Nat) (s : State) : Host.Outcome State Fault Refusal :=
  .next (
    let s := s.focus h
    if s.cur.place != h then s else
    match s.cur.status with
    | .waiting (.page id) => if s.hub.pages.any (fun p => p.id == id) then s else { s with cur := { s.cur with status := .running } }
    | _ => s)

/-! ## Queued accesses reach their homes (R220) -/

/-- Split off the oldest queued access of a stream. -/
def takeOldest (sel : Stream → Bool) : List PStore → Option (PStore × List PStore)
  | [] => none
  | p :: t => if sel p.stream then some (p, t) else (takeOldest sel t).map (fun r => (r.1, p :: r.2))

/-- A queued access of the current hart cannot be performed yet: a kernel's window holds its segment (R250), a write on its way comes
before it (R221), one of its own stream among them (R225), or a bank command of the hart does (R218). -/
def State.notYet (s : State) (p : PStore) : Bool :=
  p.act.keys.any (fun k => s.heldSegment k || s.behind (clusterOf s.cur.place) k) || s.streamBehind s.cur.place (some p.stream) 0 ||
    (p.stream == .bank && s.bankHeld)

/-- Perform the oldest queued access of a stream of the current hart. -/
def State.performOldest (s : State) (sel : Stream → Bool) : State :=
  match takeOldest sel s.cur.stores with
  | none => s
  | some (p, rest) =>
    if s.notYet p then s
    else { (s.wakeKeys p.act.keys).noteHomes [p] with mem := performAct s.mem p.act, cur := { s.cur with stores := rest } }

/-- Let the oldest queued write of a stream of the current hart pass the cluster's crossbar, when one home outside the cluster takes all
of it (R221). -/
def State.postOldest (s : State) (sel : Stream → Bool) : State :=
  match takeOldest sel s.cur.stores with
  | some ({ stream := st, act := .write (b :: bs), own := own }, rest) =>
    let home := s.homeNo b.key
    if b.key ≥ 2 ^ 52 || bs.any (fun x => s.homeNo x.key != home) then s
    else { s with cur := { s.cur with stores := rest },
                  net := s.net ++ [{ cl := clusterOf s.cur.place, level := 1, home := home, owner := s.cur.place, stream := some st, token := 0,
                                     act := .write (b :: bs), own := own }] }
  | _ => s

/-- A write on its way may not pass an earlier one: each ordering point passes accesses towards each home in order; the host home may
perform two posted writes to different bytes in either order (R221).  One of the same stream stays ahead whatever its home, until it is
performed for every agent of the module (R218, R225). -/
def Posted.stands (p earlier : Posted) : Bool :=
  (earlier.of p.owner p.stream p.token && earlier.level < 3 && earlier.level ≤ p.level) ||
  (earlier.home == p.home && earlier.level ≤ p.level &&
    (match p.level with
     | 1 => earlier.cl == p.cl
     | 2 => clusterDie earlier.cl == clusterDie p.cl
     | _ => earlier.act.keys.any p.act.keys.contains))

/-- Note the matches at its home of a write that was on its way, of a hart or of a copy engine (R338). -/
def State.noteNet (s : State) (p : Posted) : State :=
  match p.stream with
  | none => s.noteAt everyWatch (s.ownerLaunch p.owner) (clusterAgent 1 p.cl) p.act.wkind p.act.ranges p.act.sort (p.act.payload s.mem)
  | some _ =>
    match (s.harts ++ s.frames.map (fun f => f.hart)).find? (fun h => h.place == p.owner || h.key == p.owner) with
    | some h => s.noteHome h.sctx h.launch h.place p.own p.act
    | none => s.noteHome 0 none p.owner p.own p.act

/-- The write on its way with number n passes its next ordering point, or is performed at its home; harts that wait for it issue
again (R221). -/
def State.forward (s : State) (n : Nat) : State :=
  match s.net[n]? with
  | none => s
  | some p =>
    if (s.net.take n).any p.stands then s
    else if p.level == 1 || (p.level == 2 && (p.home == 1024 || p.home == 1025)) then
      ({ s with net := s.net.set n { p with level := p.level + 1 } } : State).releaseHolds
    else if p.act.keys.any s.heldSegment then s
    else ({ (s.wakeKeys p.act.keys).noteNet p with mem := performAct s.mem p.act, net := s.net.eraseIdx n } : State).releaseHolds

def PAct.isRmw : PAct → Bool
  | .rmw _ _ _ => true
  | _ => false

/-- CHAINED_OPERATION (R160): the oldest access of the bank stream of hart `h`, a chained read-modify-write, is performed. -/
def execChainedOperation (h : Nat) (s : State) : Host.Outcome State Fault Refusal :=
  .next (
    let s := s.focus h
    if s.cur.place != h then s else
    match takeOldest (fun st => st == .bank) s.cur.stores with
    | some (p, _) => if p.act.isRmw then s.orHeld (fun s => s.performOldest (fun st => st == .bank)) else s
    | none => s)

end Sys2Proof.Machine
end

