-- ==== Sys2Proof/Machine/Region.lean ====
section
/-!
DEFINITION. Regions (R121) and lane mode (R116 to R119).
-/

namespace Sys2Proof.Machine

/-- The word at an address, read as the fetch of the current hart reads it. -/
def State.peekWord (s : State) (a : Word) : Except Trap (BitVec 32) × State :=
  if !canonical a || inLocal a || inReserved a then (.error { cause := 6, tval := a }, s)
  else match s.xlateHart s.cur.lowLane a .fetch with
    | (.bad c, s) => (.error { cause := c, tval := a }, s)
    | (.ok pa, s) =>
      if !targetOk .plain (s.target pa) || s.cur.noAnswer == some a then (.error { cause := 6, tval := a }, s)
      else if s.poisonIn (s.paKey pa) 4 then (.error { cause := 8, tval := a }, s)
      else (.ok (BitVec.ofNat 32 (leNat (Memory.getList s.mem (s.paKey pa) 4))), s.touchAt a pa)

/-! ## Regions (R121) -/

/-- A bit of v0 is set within vl, or within the 2D positions. -/
def Hart.anyMask (h : Hart) : Bool :=
  let m := h.vN 0
  let vl := h.vl.toNat
  if bitN h.vtype.toNat 8 then
    (List.range h.vr.toNat).any (fun r => m / 2 ^ (64 * r) % 2 ^ vl != 0)
  else m % 2 ^ vl != 0

/-- VRGN (R101, R121): dropped, it pushes no entry and is not checked. -/
def vrgnBody (off : BitVec 16) (s : State) : Flow :=
  let h := s.cur
  if h.dropping then .done s
  else if pfxPending h.pendingPfx then illegalV s
  else if h.regions.length ≥ 4 then illegalV s
  else
    let stop := h.pc + (off.setWidth 64 <<< 2)
    match s.peekWord stop with
    | (.error t, s) => .trap { t with vec := true } s
    | (.ok w, s) =>
      if w != vrgneWord then illegalV s
      else .done { s with cur := { s.cur with regions := { stop := stop, drop := !h.anyMask } :: s.cur.regions } }

/-- VRGNE (R121): it pops the innermost entry when that names this address. -/
def vrgneBody (s : State) : Flow :=
  match s.cur.regions with
  | r :: t => .done (if r.stop == s.cur.pc then { s with cur := { s.cur with regions := t } } else s)
  | [] => .done s

/-- VRGN (R121). -/
def execVrgn (off : BitVec 16) (s : State) : Host.Outcome State Fault Refusal := performPfx (vrgnWord off) s (vrgnBody off)

/-- VRGNE (R121). -/
def execVrgne (s : State) : Host.Outcome State Fault Refusal := perform vrgneWord s vrgneBody

/-! ## Lane mode (R116 to R119) -/

/-- LFORK (R116); a word at the join address that cannot be fetched raises the trap of that fetch (log 35). -/
def lforkBody (off : BitVec 16) (s : State) : Flow :=
  let h := s.cur
  let join := h.pc + (off.setWidth 64 <<< 2)
  let vl := h.vl.toNat
  if vl > 8 * h.lanes then illegal s else
  match s.peekWord join with
  | (.error t, s) => .trap t s
  | (.ok w, s) =>
    if w != ljoinWord then illegal s else
    let m := h.vN 0
    let ts : List LaneThread := ((List.range vl).filter (fun i => bitN m i)).map (fun i => { index := i, pc := h.pc + 4, run := .running })
    if ts.isEmpty then .goto (join + 4) s
    else .stay { s with cur := { s.cur.retire with lane := some { join := join, threads := ts, turn := 0, len := vl, snap := h.v } } }

/-- Give the current thread a new state and the turn to the next; leave lane mode when none runs (R119). -/
def Hart.settleThread (h : Hart) (run : ThreadRun) : Hart :=
  match h.lane with
  | some l => ({ h.retire with lane := some (l.turnOver (fun t => { t with run := run })) } : Hart).joinLanes
  | none => h

/-- The lane-mode error outside lane mode (log 26). -/
def laneError (s : State) : Flow := .trap { cause := 0x11, tval := 0 } s

/-- LJOIN (R119). -/
def ljoinBody (s : State) : Flow :=
  match s.cur.lane with
  | none => laneError s
  | some l => if l.thread.pc == l.join then .stay { s with cur := s.cur.settleThread .waiting } else laneError s

/-- LEXIT (R119). -/
def lexitBody (s : State) : Flow :=
  match s.cur.lane with
  | none => laneError s
  | some _ => .stay { s with cur := s.cur.settleThread .retired }

/-- LXRD (R119): an element of the snapshot. -/
def lxrdBody (d a b : Reg) (s : State) : Flow :=
  match s.cur.lane with
  | none => laneError s
  | some l =>
    let j := s.cur.readX a
    writeDone s d (if j < l.len then (l.snap[b.toNat].extractLsb' (32 * j) 32).toNat else 0)

/-- LFORK (R116). -/
def execLfork (off : BitVec 16) (s : State) : Host.Outcome State Fault Refusal := perform (lforkWord off) s (lforkBody off)

/-- LJOIN (R119). -/
def execLjoin (s : State) : Host.Outcome State Fault Refusal := perform ljoinWord s ljoinBody

/-- LEXIT (R119). -/
def execLexit (s : State) : Host.Outcome State Fault Refusal := perform lexitWord s lexitBody

/-- LXRD (R119). -/
def execLxrd (d a b : Reg) (s : State) : Host.Outcome State Fault Refusal := perform (lxrdWord d a b) s (lxrdBody d a b)

end Sys2Proof.Machine
end

