-- ==== Sys2Proof/Machine/Engine.lean ====
section
/-!
DEFINITION. Commands of a cluster: the copy engine and gather unit (R184 to R190), the bank commands (R191 to R195), the range
checker and its pools (R187, R245), and waiting for a command.
-/

namespace Sys2Proof.Machine

/-! ## Waiting -/

/-- The hart waits at its instruction `w`. -/
def waitAgain (w : BitVec 32) (s : State) : Flow := .stay { s with cur := { s.cur with status := .waiting (.again w) } }

/-- Run the waiting instruction of hart `h` again, when it is one of `mine` and the hart is not held. -/
def State.wake (s : State) (h : Nat) (mine : BitVec 32 → Bool) (body : BitVec 32 → State → Flow) : State :=
  let s := s.focus h
  if s.cur.place != h || s.cur.held then s else
  match s.cur.status with
  | .waiting (.again w) =>
    if !mine w then s else
    let s : State := { s with blocked := none, cur := { s.cur with status := .running } }
    s.finish w (body w s)
  | _ => s

/-- An instruction of a major and a low-field function. -/
def isWord (major fn mask : Nat) (w : BitVec 32) : Bool := (wMajor w).toNat == major && w.toNat % mask == fn

/-! ## Tokens and statuses (R188) -/

def stPending : Nat := 0
def stDone : Nat := 1
def stAccess : Nat := 2
def stData : Nat := 3
def stUnknown : Nat := 4

/-- A token of a cluster's engine: `kind` 0 copy, 1 gather. -/
def engineToken (cl kind seq : Nat) : Word :=
  BitVec.ofNat 64 (cl / 56 * 2 ^ 62 + cl % 56 * 2 ^ 56 + kind * 2 ^ 55 + seq % 2 ^ 55)

/-- The number of a bank command, which no token can equal. -/
def bankToken (seq : Nat) : Word := BitVec.ofNat 64 (63 * 2 ^ 56 + seq)

/-- Cluster, engine and sequence number of a token; none when it names no cluster. -/
def tokenParts (t : Word) : Option (Nat × Bool × Nat) :=
  let x := t.toNat
  if x / 2 ^ 56 % 64 ≥ 56 then none else some (x / 2 ^ 62 * 56 + x / 2 ^ 56 % 64, t.getLsbD 55, x % 2 ^ 55)

/-- Status of an engine token seen from a context, with the kept address (R188, R342). -/
def State.engineStatus (s : State) (ctx t : Word) : Nat × Word :=
  match tokenParts t with
  | none => (stUnknown, 0)
  | some (cl, gather, n) =>
    let c := s.cluster cl
    let seq := if gather then c.gatherSeq else c.copySeq
    if n == 0 || n > seq || n + 256 ≤ seq then (stUnknown, 0) else
    match c.pool.find? (fun x => x.token == t && x.engine == (if gather then .gather else .copy)) with
    | some x => if x.ctx == ctx then (stPending, 0) else (stUnknown, 0)
    | none =>
      match (if gather then c.gatherLog else c.copyLog).find? (fun x => x.token == t && x.ctx == ctx) with
      | some x => if x.hidden then (stPending, 0) else (x.code, x.addr)
      | none => (stUnknown, 0)

/-! ## Local and global ranges (R184, R191, R243) -/

/-- The lowest offset at or above `x` that lies in no region, through at most `fuel` regions. -/
def firstOut (rs : List LRegion) : (fuel : Nat) → Nat → Nat
  | 0, x => x
  | n + 1, x =>
    match rs.find? (fun r => r.off ≤ x && x < r.off + r.size) with
    | some r => firstOut rs n (r.off + r.size)
    | none => x

/-- The lowest byte of [lo, lo + n) that the hart may not touch. -/
def badLocal (rs : List LRegion) (lo : Int) (n : Nat) : Option Int :=
  if n == 0 then none
  else if lo < 0 then some lo
  else
    let x := firstOut rs (rs.length + 1) lo.toNat
    if x < lo.toNat + n then some x else none

/-- The lower of two optional offsets. -/
def lower (a b : Option Int) : Option Int :=
  match a, b with
  | some x, some y => some (if y < x then y else x)
  | some x, none => some x
  | none, y => y

/-- The local-window address of an offset. -/
def localAddr (off : Int) : Word := BitVec.ofInt 64 ((Config.localBase : Int) + off)

/-- The offset of a local-window address. -/
def localInt (a : Word) : Int := (a.toNat : Int) - Config.localBase

/-! ## The range checker (R187) -/

/-- Two commands conflict: their local ranges overlap and one of them writes the overlap. -/
def conflict (a b : Cmd) : Bool :=
  a.writes.any (fun r => (b.reads ++ b.writes).any (rangesMeet r)) || a.reads.any (fun r => b.writes.any (rangesMeet r))

/-- A later command waits for an earlier one: they conflict, or both are bank commands of one hart (R195). -/
def waitsFor (earlier c : Cmd) : Bool := conflict earlier c || (earlier.engine == .bank && c.engine == .bank && earlier.owner == c.owner)

/-- No entry accepted before the one that `mine` finds stands in its way. -/
def mayStart (mine : Cmd → Bool) : List Cmd → Bool
  | [] => false
  | c :: t => if mine c then true else mayStart mine t && !(t.any (fun x => mine x && waitsFor c x))

/-- No command accepted before it stands in the way. -/
def canStart (pool : List Cmd) (token : Word) : Bool := mayStart (fun c => c.is token) pool

/-- Commands of one pool that are held. -/
def Cluster.held (c : Cluster) (e : Engine) : Nat := (c.pool.filter (fun x => x.engine == e)).length

/-- Capacity of each pool (R245). -/
def poolSize : Engine → Nat
  | .copy => 64
  | .gather => 64
  | .bank => 112
  | .nmuOut => 16

/-- Wait for an entry of a pool. -/
def waitPool (s : State) : Flow := .stay { s with cur := { s.cur with status := .waiting .pool } }

/-- Replace a command of a pool. -/
def setCmd : List Cmd → Cmd → List Cmd
  | [], _ => []
  | x :: t, c => if x.is c.token then c :: t else x :: setCmd t c

def State.putCmd (s : State) (cl : Nat) (c : Cmd) : State :=
  s.setCluster cl { s.cluster cl with pool := setCmd (s.cluster cl).pool c }

/-- Free a command's entry; its hart's fences and accesses that wait for it issue again. -/
def State.dropCmd (s : State) (cl : Nat) (c : Cmd) : State :=
  (s.setCluster cl { s.cluster cl with pool := (s.cluster cl).pool.filter (fun x => !x.is c.token) }).mapHarts (Hart.commandEnded c.owner)

/-- Statuses of the last 256 accepted commands (R188). -/
def keepStatus (log : List CmdStatus) (seq : Nat) (x : CmdStatus) : List CmdStatus :=
  (x :: log).filter (fun y => seq < y.token.toNat % 2 ^ 55 + 256)

/-- Complete an engine command with a status. -/
def State.endEngine (s : State) (cl : Nat) (c : Cmd) (code : Nat) (addr : Word) : State :=
  let x : CmdStatus := { token := c.token, ctx := c.ctx, code := code, addr := addr, hidden := s.ctxStopped c.ctx }
  let s := s.dropCmd cl c
  let k := s.cluster cl
  s.setCluster cl (match c.engine with
    | .gather => { k with gatherLog := keepStatus k.gatherLog k.gatherSeq x }
    | _ => { k with copyLog := keepStatus k.copyLog k.copySeq x })

/-! ## Command blocks (R185, R186) -/

def blockAt (b : List Word) (k : Nat) : Nat := (b.getD k 0).toNat
/-- Bits [lo + n − 1 : lo] of doubleword k. -/
def blockBits (b : List Word) (k lo n : Nat) : Nat := blockAt b k / 2 ^ lo % 2 ^ n

/-- The geometry of an engine command. -/
structure Geometry where
  runs  : Nat
  len   : Nat
  loff  : Nat → Int

def copyGeometry (b : List Word) : Geometry :=
  let c1 := blockBits b 2 32 16
  { runs := c1 * blockBits b 2 48 16, len := blockBits b 2 0 32,
    loff := fun k => (blockBits b 1 0 21 : Int) + (k % c1 : Nat) * sintN 32 (blockBits b 5 0 32) + (k / c1 : Nat) * sintN 32 (blockBits b 5 32 32) }

def gatherGeometry (b : List Word) : Geometry :=
  { runs := blockBits b 2 32 16, len := blockBits b 2 0 32,
    loff := fun k => (blockBits b 1 0 21 : Int) + (k : Nat) * sintN 32 (blockBits b 5 0 32) }

/-- Global address of byte 0 of run k of a copy. -/
def copyGlobal (b : List Word) (base : Word) (k : Nat) : Word :=
  let c1 := blockBits b 2 32 16
  b.getD 0 0 + base + BitVec.ofNat 64 (k % c1) * b.getD 3 0 + BitVec.ofNat 64 (k / c1) * b.getD 4 0

/-- Check 3 of R184. -/
def copyFieldsOk (b : List Word) : Bool :=
  blockAt b 1 / 2 ^ 21 == 0 && blockBits b 2 0 32 != 0 && blockBits b 2 32 16 != 0 && blockBits b 2 48 16 != 0 &&
  blockAt b 6 / 2 == 0 && blockAt b 7 == 0

/-- Check 3 of R184 for a gather; an index array that is no multiple of 4 is refused with it (log 27). -/
def gatherFieldsOk (b : List Word) : Bool :=
  blockAt b 1 / 2 ^ 21 == 0 && blockBits b 2 48 16 == 0 && blockBits b 2 0 32 != 0 && blockBits b 2 32 16 != 0 &&
  blockAt b 3 % 4 == 0 && blockBits b 5 32 32 == 0 && blockAt b 6 == 0 && blockAt b 7 == 0

/-- The span of local bytes of a command (R187): its lowest and one past its highest. -/
def Geometry.span (g : Geometry) : Int × Int :=
  (List.range g.runs).foldl (fun p k => let a := g.loff k; (if a < p.1 then a else p.1, if p.2 < a + g.len then a + g.len else p.2))
    (g.loff 0, g.loff 0 + g.len)

/-- Check 4, local side: the lowest local byte the hart may not touch. -/
def Geometry.badLocal (g : Geometry) (rs : List LRegion) : Option Int :=
  (List.range g.runs).foldl (fun p k => lower p (Sys2Proof.Machine.badLocal rs (g.loff k) g.len)) none

/-- The lowest byte of [a, a + n) in rows 1 and 2 of R242. -/
def badGlobal (a : Word) (n : Nat) : Option Int :=
  let lo := max a.toNat Config.localBase
  if n != 0 && a.toNat ≤ Config.reservedTop && lo < a.toNat + n && lo ≤ Config.reservedTop then some lo else none

/-! ## Accepting (R184) -/

/-- A promise time: not earlier than the time of acceptance (R184). -/
def State.promise (s : State) (n : Nat) : Word := BitVec.ofNat 64 (max s.timeWord.toNat (min (s.timeWord.toNat + Config.promiseDelay n) (2 ^ 64 - 1)))

/-- Accept a copy or gather command: its promise time and its token go to xd and xd + 1. -/
def State.acceptEngine (s : State) (gather : Bool) (d : Reg) (base : Word) (b : List Word) (scope : BitVec 3)
    (acq rel : Bool) (g : Geometry) : State :=
  let cl := clusterOf s.cur.place
  let k := s.cluster cl
  let seq := (if gather then k.gatherSeq else k.copySeq) + 1
  let token := engineToken cl (b2n gather) seq
  let sp := ((g.span.1).toNat, (g.span.2).toNat)
  let toLocal := gather || blockBits b 6 0 1 == 0
  let c : Cmd :=
    { engine := if gather then .gather else .copy, token := token, owner := s.cur.place, ctx := s.cur.sctx, sptb := s.cur.sptb,
      block := b, base := base, scope := scope.toNat, rel := rel,
      after := if acq then s.ownTokens else [], nmus := if acq then s.ownNmuTokens else [], reads := if toLocal then [] else [sp],
      writes := if toLocal then [sp] else [], started := false, step := 0, page := none, paged := [],
      remote := none }
  let (n, s) := s.fresh
  let s := s.setCluster cl (if gather then { k with pool := k.pool ++ [c], gatherSeq := seq } else { k with pool := k.pool ++ [c], copySeq := seq })
  let (promise, s) := s.journalled jPromise (s.promise n)
  { s with cur := (s.cur.wx d promise).wx (d + 1) token }

/-- XCOPY and XGATH (R184): with .ACQ every access of the hart is performed for the scope before the engine reads, those of its earlier
commands included (R187, R218).  A gather's rows lie where its indices say, which check 4 does not read: a row in rows 1 and 2 of R242
ends the command as ACCESS (log 27). -/
def engineBody (gather : Bool) (d a b : Reg) (scope : BitVec 3) (acq rel : Bool) (s : State) : Flow :=
  let x := s.cur.rx a
  if x.toNat % 64 != 0 then .trap { cause := 4, tval := x } s else
  match s.loadBlock x with
  | (.error t, s) => .trap t s
  | (.ok ds, s) =>
    if !(if gather then gatherFieldsOk ds else copyFieldsOk ds) then illegal s else
    let base := s.cur.rx b
    let g := if gather then gatherGeometry ds else copyGeometry ds
    let bad := if gather then badGlobal (ds.getD 3 0) (4 * g.runs)
      else (List.range g.runs).foldl (fun p k => lower p (badGlobal (copyGlobal ds base k) g.len)) none
    match g.badLocal s.cur.local_, bad with
    | some off, _ => .trap { cause := 6, tval := localAddr off } s
    | none, some x => .trap { cause := 6, tval := BitVec.ofInt 64 x } s
    | none, none =>
      if (s.cluster (clusterOf s.cur.place)).held (if gather then .gather else .copy) ≥ 64 then waitPool s else
      let s := if acq then (s.drainTo (scopeLevel scope) anyStream).awaitNet (scopeLevel scope) true anyStream else s
      .done (s.acceptEngine gather d base ds scope acq rel g)

/-! ## Engine accesses (R187, R188, R220) -/

/-- How one access of an engine goes. -/
inductive Piece where
  | moved
  | wait
  | remote (a : Word)
  | page (a : Word)
  | fail (code : Nat) (a : Word)

/-- Translate a global byte of a command; storage of a ready stream is refused (R197). -/
def State.engineReach (s : State) (cl : Nat) (c : Cmd) (a : Word) (kind : AKind) : Except Piece Nat × State :=
  if !canonical a || inLocal a || inReserved a then (.error (.fail stAccess a), s) else
  match s.xlateUnit (clusterDie cl) c.ctx c.sptb a kind with
  | (none, s) => (.error .wait, s)
  | (some (.bad 5), s) => (.error (if c.paged.contains (pageOf a) then .fail stAccess a else .page a), s)
  | (some (.bad _), s) => (.error (.fail stAccess a), s)
  | (some (.ok pa), s) =>
    let key := s.paKey pa
    if !targetOk .plain (s.target pa) || s.instarHit key then (.error (.fail stAccess a), s)
    else match ({ s with blocked := none } : State).touchAt a pa with
      | t => (match t.blocked with
        | none => if s.behind cl key then (.error .wait, s) else (.ok key, t)
        | some (.remote _ _) => (.error (.remote a), s)
        | some _ => (.error .wait, s))


/-- Bytes of the next access: within a run, and within one 64-byte granule on each side. -/
def pieceLen (len y : Nat) (g : Word) (l : Nat) : Nat := min (len - y) (min (64 - g.toNat % 64) (64 - l % 64))

/-- Read the index of a gather's row (R186). -/
def State.gatherIndex (s : State) (cl : Nat) (c : Cmd) (r : Nat) : Except Piece Nat × State :=
  let a := c.block.getD 3 0 + BitVec.ofNat 64 (4 * r)
  match s.engineReach cl c a .read with
  | (.error p, s) => (.error p, s)
  | (.ok key, s) =>
    if s.poisonIn key 4 then (.error (.fail stData a), s)
    else (.ok (leNat (Memory.getList s.mem key 4)), s.agentAccess (s.ownerLaunch c.owner) (clusterAgent 2 cl) none .read key 4)

/-- The first byte of a range that fails its check. -/
def State.firstPoison (s : State) (key n : Nat) : Option Nat := (List.range n).find? (fun j => s.poisoned (key + j))

/-- Perform a write of an engine command, or, when it is `posted`, let it pass the cluster's crossbar on its way to its home outside
the cluster (R187, R221); a release at SYS scope takes its lines of host memory exclusive (R221, R359). -/
def State.engineWrite (s : State) (cl : Nat) (c : Cmd) (posted : Bool) (key : Nat) (bs : List Byte) : State :=
  if posted then
    { s with net := s.net ++ [{ cl := cl, level := 1, home := s.homeNo key, owner := c.owner, stream := none, token := c.token,
                                act := .write (plainBytes key bs) }] }
  else
    let s := if c.rel && c.scope ≥ 4 then s.takeLines ((List.range bs.length).map (fun j => key + j)) else s
    { s with mem := Memory.setList s.mem key bs }

/-- Move one piece between a local offset and a global address. -/
def State.movePiece (s : State) (cl : Nat) (c : Cmd) (posted toLocal : Bool) (g : Word) (off n : Nat) : Piece × State :=
  if !posted && !toLocal && s.streamBehind c.owner none c.token then (.wait, s) else
  match s.engineReach cl c g (if toLocal then .read else .write) with
  | (.error p, s) => (p, s)
  | (.ok key, s) =>
    let sk := scratchKey cl off
    let (src, dst) := if toLocal then (key, sk) else (sk, key)
    match s.firstPoison src n with
    | some j => (.fail stData (if toLocal then g + BitVec.ofNat 64 j else localAddr (off + j : Nat)), s)
    | none =>
      let agent := clusterAgent (if c.engine == .gather then 2 else 1) cl
      let s1 := s.engineWrite cl c (posted && !toLocal) dst (Memory.getList s.mem src n)
      let l := s.ownerLaunch c.owner
      let s1 := s1.agentAccess l agent (if toLocal then none else some cl) .read src n
      (.moved, if posted && !toLocal then s1 else s1.agentAccess l agent (if toLocal then some cl else none) .write dst n)

/-- One access of a command, and the command after it. -/
def State.engineAccess (s : State) (cl : Nat) (posted : Bool) (c : Cmd) : Piece × Cmd × State :=
  let gather := c.engine == .gather
  let g := if gather then gatherGeometry c.block else copyGeometry c.block
  let k := c.step / g.len
  let y := c.step % g.len
  let toLocal := gather || blockBits c.block 6 0 1 == 0
  let move (c : Cmd) (base : Word) (s : State) : Piece × Cmd × State :=
    let ga := base + BitVec.ofNat 64 y
    let off := (g.loff k).toNat + y
    let n := pieceLen g.len y ga off
    match s.movePiece cl c posted toLocal ga off n with
    | (.moved, s) => (.moved, { c with step := c.step + n, paged := [], remote := none }, s)
    | (p, s) => (p, c, s)
  if !gather then move c (copyGlobal c.block c.base k) s
  else
    let row (i : Nat) : Word := c.block.getD 0 0 + c.base + BitVec.ofNat 64 i * c.block.getD 4 0
    if y != 0 then move c (row (blockAt c.block 8)) s else
    match s.gatherIndex cl c k with
    | (.error p, s) => (p, c, s)
    | (.ok i, s) => move { c with block := c.block.take 8 ++ [BitVec.ofNat 64 i] } (row i) s

/-- Bytes a command moves in all. -/
def Cmd.total (c : Cmd) : Nat :=
  let g := if c.engine == .gather then gatherGeometry c.block else copyGeometry c.block
  g.runs * g.len

/-- A release of a command waits: a write of it has not passed the ordering point of its scope (R187). -/
def State.releasing (s : State) (c : Cmd) : Bool :=
  c.rel && s.net.any (fun p => p.token == c.token && p.stream.isNone && p.level < min c.scope 4)

/-- A command whose accesses are all made completes, with .REL once its writes are performed for its scope (R187, R188). -/
def State.engineDone (s : State) (cl : Nat) (c : Cmd) : State := if s.releasing c then s.putCmd cl c else s.endEngine cl c stDone 0

/-- Perform up to `fuel` accesses of a started command, its writes `posted` or at their homes; it completes when the last is performed,
or fails (R188). -/
def State.engineRun (s : State) (cl : Nat) (posted : Bool) : (fuel : Nat) → Cmd → State
  | 0, c => s.putCmd cl c
  | n + 1, c =>
    if c.step ≥ c.total then s.engineDone cl c else
    match s.engineAccess cl posted c with
    | (.moved, c, s) => if c.step ≥ c.total then s.engineDone cl c else s.engineRun cl posted n c
    | (.wait, c, s) => s.putCmd cl c
    | (.remote a, c, s) => s.putCmd cl { c with remote := c.remote.or (some (a, s.time)) }
    | (.page a, c, s) =>
      let (id, s) := s.askPage (.engine cl c.token) c.ctx a
      s.putCmd cl { c with page := some id }
    | (.fail code a, c, s) => s.endEngine cl c code a

/-- A started engine command of a cluster that waits for no page. -/
def State.findCmd (s : State) (cl : Nat) (token : Word) : Option Cmd := (s.cluster cl).pool.find? (fun c => c.is token)

/-- Run a command of a copy engine or gather unit for `fuel` accesses. -/
def State.engineGo (s : State) (cl : Nat) (posted : Bool) (token : Word) (fuel : Cmd → Nat) : State :=
  match s.findCmd cl token with
  | some c =>
    if (c.engine == .copy || c.engine == .gather) && c.started && c.page.isNone then s.engineRun cl posted (fuel c) c else s
  | none => s

/-! ## XWAIT, XPOLL and the engine events -/

/-- Act on a status as XWAIT does (R188). -/
def onStatus (w : BitVec 32) (st : Nat × Word) (s : State) : Flow :=
  if st.1 == stPending then waitAgain w s
  else if st.1 == stAccess then .trap { cause := 6, tval := st.2 } s
  else if st.1 == stData then .trap { cause := 8, tval := st.2 } s
  else .done s

/-- XWAIT (R188). -/
def xwaitBody (w : BitVec 32) (a : Reg) (s : State) : Flow := onStatus w (s.engineStatus s.cur.sctx (s.cur.rx a)) s

/-- XCOPY (R184, R185). -/
def execXcopy (d a b : Reg) (scope : BitVec 3) (acq rel : Bool) (s : State) : Host.Outcome State Fault Refusal :=
  perform (xcopyWord d a b scope acq rel) s (engineBody false d a b scope acq rel)

/-- XGATH (R184, R186). -/
def execXgath (d a b : Reg) (scope : BitVec 3) (acq rel : Bool) (s : State) : Host.Outcome State Fault Refusal :=
  perform (xgathWord d a b scope acq rel) s (engineBody true d a b scope acq rel)

/-- XWAIT (R188). -/
def execXwait (a : Reg) (s : State) : Host.Outcome State Fault Refusal := perform (xwaitWord a) s (xwaitBody (xwaitWord a) a)

/-- XWAIT_WAKE (R188). -/
def execXwaitWake (h : Nat) (s : State) : Host.Outcome State Fault Refusal :=
  .next (s.wake h (isWord 0x35 2 64) (fun w => xwaitBody w (wA w)))

/-- XPOLL (R188). -/
def execXpoll (d a : Reg) (s : State) : Host.Outcome State Fault Refusal :=
  perform (xpollWord d a) s (fun s =>
    let (x, s) := s.journalled jPoll (BitVec.ofNat 64 (s.engineStatus s.cur.sctx (s.cur.rx a)).1)
    .done { s with cur := s.cur.wx d x })

/-- COMMAND_POOL_FREED (R245): the waiting hart issues its command again. -/
def execCommandPoolFreed (h : Nat) (s : State) : Host.Outcome State Fault Refusal :=
  .next (
    let s := s.focus h
    if s.cur.place == h && s.cur.status == .waiting .pool && !s.cur.held then { s with cur := { s.cur with status := .running } } else s)

/-- ENGINE_COMMAND_START (R187): once every conflicting command accepted before it has completed, and with .ACQ every earlier
command of its hart, with what those wrote performed for its scope (R221). -/
def execEngineCommandStart (cl : Nat) (token : Word) (s : State) : Host.Outcome State Fault Refusal :=
  .next (match s.findCmd cl token with
    | some c => if canStart (s.cluster cl).pool token && s.acquired cl (min c.scope 4) c.after c.nmus then s.putCmd cl { c with started := true } else s
    | none => s)

/-- ENGINE_COMMAND_COMPLETE (R188): the accesses left are performed and the command completes, or it waits for a page. -/
def execEngineCommandComplete (cl : Nat) (token : Word) (s : State) : Host.Outcome State Fault Refusal :=
  .next (s.orHeld (fun s => s.engineGo cl false token (fun c => c.total - c.step + 1)))

/-- ACCESS_PERFORMED (R220): the oldest queued access of a stream of a hart, or the next access of an engine command. -/
def execAccessPerformed (who : Accessor) (s : State) : Host.Outcome State Fault Refusal :=
  .next (s.orHeld (fun s => match who with
    | .hart h st =>
      let s := s.focus h
      if s.cur.place == h then s.performOldest (fun x => x == st) else s
    | .engine cl token => s.engineGo cl false token (fun _ => 1)))

/-! ## Bank commands (R191 to R195) -/

/-- Formats a bank command accepts. -/
def bankFormats (fn : Nat) : List Nat :=
  match fn with
  | 0 | 1 => [2, 4, 5]
  | 2 => [4, 5]
  | 3 => [4]
  | _ => [2, 4]

/-- The range bytes of a bank command on each side. -/
def bankBytes (fn fmt count : Nat) : Nat := if count == 0 then 0 else if fn == 3 then 16 + 4 * count else count * (fmtWidth fmt / 8)

/-- What a bank command asks for: function, format, count, destination and source addresses, bytes of each range. -/
structure BankAsk where
  fn    : Nat
  fmt   : Nat
  count : Nat
  d     : Word
  a     : Word
  bytes : Nat

/-- Whether it reads a source range. -/
def BankAsk.hasSource (k : BankAsk) : Bool := k.fn == 0 || k.fn == 1 || k.fn == 3

/-- Streams of the hart that hold a store to a byte of the ranges: the command is performed after them (R195), and after the
bank stream. -/
def bankAfter (stores : List PStore) (cl : Nat) (rs : List (Nat × Nat)) (st : Stream) : Bool :=
  st == .bank || stores.any (fun p => p.stream == st && p.act.keys.any (fun k => rs.any (fun r => scratchKey cl r.1 ≤ k && k < scratchKey cl r.2)))

/-- Accept a bank command that passed check 1 (R191). -/
def bankAccept (k : BankAsk) (s : State) : Flow :=
  let align := if k.fn == 3 then 16 else if k.fn == 4 then 4 else fmtWidth k.fmt / 8
  if k.d.toNat % align != 0 then .trap { cause := 4, tval := k.d } s
  else if k.hasSource && k.a.toNat % align != 0 then .trap { cause := 4, tval := k.a } s
  else
    let bad := lower (badLocal s.cur.local_ (localInt k.d) k.bytes) (if k.hasSource then badLocal s.cur.local_ (localInt k.a) k.bytes else none)
    match bad with
    | some off => .trap { cause := 6, tval := localAddr off } s
    | none =>
      let cl := clusterOf s.cur.place
      let c := s.cluster cl
      if c.held .bank ≥ 112 then waitPool s else
      let range (x : Word) : List (Nat × Nat) := if k.bytes == 0 then [] else [((localInt x).toNat, (localInt x).toNat + k.bytes)]
      let rd := if k.hasSource then range k.a else []
      let wr := range k.d
      let s := s.drain (bankAfter s.cur.stores cl (rd ++ wr))
      let cmd : Cmd :=
        { engine := .bank, token := bankToken (c.bankSeq + 1), owner := s.cur.place, ctx := s.cur.sctx, sptb := s.cur.sptb,
          block := [BitVec.ofNat 64 k.fn, BitVec.ofNat 64 k.fmt, BitVec.ofNat 64 k.count, k.d, k.a, BitVec.ofNat 64 k.bytes],
          base := 0, scope := 0, rel := false, after := [], nmus := [], reads := rd, writes := wr, started := false, step := 0, page := none, paged := [],
          remote := none }
      .done (s.setCluster cl { c with pool := c.pool ++ [cmd], bankSeq := c.bankSeq + 1 })

/-- BKADD, BKMAX, BKMUL and BKSMX: check 1 (R191). -/
def bankBody (fn : Nat) (d a b : Reg) (s : State) : Flow :=
  let x := (s.cur.rx b).toNat
  let fmt := x / 2 ^ 16 % 16
  let k : BankAsk := { fn := fn, fmt := fmt, count := x % 2 ^ 16, d := s.cur.rx d, a := s.cur.rx a, bytes := bankBytes fn fmt (x % 2 ^ 16) }
  let meet := k.hasSource && k.d != k.a && k.d.toNat < k.a.toNat + k.bytes && k.a.toNat < k.d.toNat + k.bytes
  if x / 2 ^ 20 != 0 || !(bankFormats fn).contains fmt || meet then illegal s else bankAccept k s

/-- BKZERO (R191). -/
def bkzeroBody (a b : Reg) (s : State) : Flow :=
  let n := (s.cur.rx b).toNat
  if n % 4 != 0 then illegal s else bankAccept { fn := 4, fmt := 2, count := n / 4, d := s.cur.rx a, a := 0, bytes := n } s

/-- The new element of BKADD, BKMAX and BKMUL (R192). -/
def bankElem (fn fmt old src : Nat) : Nat :=
  let f := ffmt fmt
  match fn with
  | 0 => if fmt == 2 then (old + src) % 2 ^ 32 else (faddF f 0 old src).1
  | 1 => if fmt == 2 then (if sintN 32 old < sintN 32 src then src else old) else (minMaxNum f true old src).1
  | _ => (deliver f 0 (mulEx (readF f old) (readF fp32 src))).1

/-- s · 2^(m − mn), rounded once (R193). -/
def smxScale (x m mn : Nat) : Nat :=
  if eqEx (readF fp32 m) (readF fp32 mn) then (deliver fp32 0 (readF fp32 x, 0)).1
  else (deliver fp32 0 (mulExp2Ex (readF fp32 x) (addEx 0 (readF fp32 m) (readF fp32 mn).negate).1)).1

/-- A merged word of BKSMX under the maxima m, m′ and the new one. -/
def smxMerge (m m' mn x y : Nat) : Nat := (faddF fp32 0 (smxScale x m mn) (smxScale y m' mn)).1

/-- Word at a key. -/
def State.word32 (s : State) (key : Nat) : Nat := leNat (Memory.getList s.mem key 4)

/-- Write `n` bytes of a bank result; a result made of data that fail their check fails its own (log 28). -/
def State.bankPut (s : State) (key n x : Nat) (bad : Bool) : State :=
  { s with mem := Memory.setList s.mem key (leBytes n x),
           poison := if bad then (s.failData false key).poison else s.poison }

/-- A bank ALU's access to elements of a granule, and to `more` bytes before them, is one access for the watchpoints (R192,
R338). -/
def State.bankSeen (s : State) (launch : Option (Nat × Nat)) (cl : Nat) (k : WKind) (more : List (Nat × Nat)) (key B : Nat) (is : List Nat) : State :=
  s.agentTouch launch (clusterAgent 3 cl) (some cl) k (more ++ (match is with | [] => [] | i :: _ => [(key + i * B, is.length * B)]))

/-- Elements whose bytes lie in 64-byte granule `gi`. -/
def granuleElems (d B n gi : Nat) : List Nat := (List.range n).filter (fun i => (d + i * B) / 64 == gi)

/-- Perform granule number `step` of a command: one indivisible access (R192, R193). -/
def State.bankGranule (s : State) (cl : Nat) (c : Cmd) : State × Cmd :=
  let fn := blockAt c.block 0
  let fmt := blockAt c.block 1
  let n := blockAt c.block 2
  let d := localOff (c.block.getD 3 0)
  let a := localOff (c.block.getD 4 0)
  let gi := d / 64 + c.step
  let dk (x : Nat) : Nat := scratchKey cl (d + x)
  let ak (x : Nat) : Nat := scratchKey cl (a + x)
  match fn with
  | 3 =>
    let c := if c.step == 0 then
        { c with block := c.block.take 6 ++ [s.word32 (dk 0), s.word32 (dk 4), s.word32 (ak 0), s.word32 (ak 4),
            b2n (s.poisonIn (dk 0) 8 || s.poisonIn (ak 0) 8)].map (BitVec.ofNat 64) }
      else c
    let m := blockAt c.block 6
    let z := blockAt c.block 7
    let m' := blockAt c.block 8
    let z' := blockAt c.block 9
    let bad := blockAt c.block 10 == 1
    let nan := [m, z, m', z'].any (fun x => (readF fp32 x).isNan)
    let mn := (minMaxNum fp32 true m m').1
    let s := if c.step != 0 then s else
      (s.bankPut (dk 4) 4 (if nan then fp32.nan else smxMerge m m' mn z z') bad).bankPut (dk 0) 4 (if nan then fp32.nan else mn) bad
    let is := granuleElems (d + 16) 4 n gi
    ((is.foldl (fun (s : State) i =>
      let x := s.word32 (dk (16 + 4 * i))
      let y := s.word32 (ak (16 + 4 * i))
      s.bankPut (dk (16 + 4 * i)) 4 (if nan then fp32.nan else smxMerge m m' mn x y) (bad || s.poisonIn (ak (16 + 4 * i)) 4)) s).bankSeen
        (s.ownerLaunch c.owner) cl .atomic (if c.step == 0 then [(dk 0, 8)] else []) (dk 16) 4 is, c)
  | 4 =>
    let is := granuleElems d 4 n gi
    ((is.foldl (fun (s : State) i => s.bankPut (dk (4 * i)) 4 0 false) s).bankSeen (s.ownerLaunch c.owner) cl .write [] (dk 0) 4 is, c)
  | _ =>
    let B := fmtWidth fmt / 8
    let is := granuleElems d B n gi
    ((is.foldl (fun (s : State) i =>
      let old := leNat (Memory.getList s.mem (dk (i * B)) B)
      let src := if fn == 2 then blockAt c.block 4 % 2 ^ 32 else leNat (Memory.getList s.mem (ak (i * B)) B)
      s.bankPut (dk (i * B)) B (bankElem fn fmt old src) (fn != 2 && s.poisonIn (ak (i * B)) B)) s).bankSeen (s.ownerLaunch c.owner) cl .atomic [] (dk 0) B is, c)

/-- Granules a command touches. -/
def bankGranules (c : Cmd) : Nat :=
  let d := localOff (c.block.getD 3 0)
  let n := blockAt c.block 5
  if n == 0 then 0 else (d + n - 1) / 64 - d / 64 + 1

/-- BANK_COMMAND_PERFORM (R192): the next granule of a started command; after the last its entry is freed. -/
def execBankCommandPerform (cl id : Nat) (s : State) : Host.Outcome State Fault Refusal :=
  .next (s.orHeld (fun s => match s.findCmd cl (bankToken id) with
    | some c =>
      if !c.started then s
      else if c.step ≥ bankGranules c then s.dropCmd cl c
      else
        let (s, c) := s.bankGranule cl c
        let c := { c with step := c.step + 1 }
        if c.step ≥ bankGranules c then s.dropCmd cl c else s.putCmd cl c
    | none => s))

/-- BKRED (R194): the sum of each active column, read in the bank stream. -/
def bkredBody (d a b : Reg) (s : State) : Flow :=
  let h := s.cur
  let c := h.vctx false
  let x := (h.ox b).toNat
  let fmt := x / 2 ^ 16 % 16
  let n := x % 2 ^ 16
  let at_ := h.ox a
  if x / 2 ^ 20 != 0 || !(bankFormats 5).contains fmt || n == 0 || c.twoD || c.fmt != fmt || !groupOk d.toNat c.g then illegalV s
  else if at_.toNat % 4 != 0 then .trap { cause := 4, tval := at_, vec := true } s
  else if c.vl == 0 then .done { s with cur := { s.cur with vstart := 0 } }
  else match badLocal h.local_ (localInt at_) (n * c.vl * 4) with
    | some off => .trap { cause := 6, tval := localAddr off, vec := true } s
    | none =>
      let s := s.bankTurn
      let cell (r j : Nat) : Nat := scratchKey (clusterOf h.place) ((localInt at_).toNat + (r * c.vl + j) * 4)
      let addr (r j : Nat) : Word := at_ + BitVec.ofNat 64 ((r * c.vl + j) * 4)
      let cols := c.touched
      let bad := cols.findSome? (fun j => ((List.range n).find? (fun r => s.poisonIn (cell r j) 4)).map (fun r => (j, r)))
      let lim : Option Limit := bad.map (fun p => { elem := p.1, cause := 8, tval := addr p.2 p.1 })
      let s := cols.foldl (fun s j => (List.range n).foldl (fun (s : State) r => s.strike .read (addr r j) 4 j) s) s
      let sum (j : Nat) : Nat := (List.range (n - 1)).foldl (fun acc r =>
        let y := s.word32 (cell (r + 1) j)
        if fmt == 2 then (acc + y) % 2 ^ 32 else (faddF fp32 0 acc y).1) (s.word32 (cell 0 j))
      s.elementwise c {} [{ base := d.toNat, regs := c.g, width := 32, pick := fun r => r.val }] { elem := fun _ => 0, limit := lim }
        (fun j => ERes.of (sum j))

/-- BKADD (R192). -/
def execBkadd (d a b : Reg) (s : State) : Host.Outcome State Fault Refusal := perform (bkaddWord d a b) s (bankBody 0 d a b)

/-- BKMAX (R192). -/
def execBkmax (d a b : Reg) (s : State) : Host.Outcome State Fault Refusal := perform (bkmaxWord d a b) s (bankBody 1 d a b)

/-- BKMUL (R192). -/
def execBkmul (d a b : Reg) (s : State) : Host.Outcome State Fault Refusal := perform (bkmulWord d a b) s (bankBody 2 d a b)

/-- BKSMX (R193). -/
def execBksmx (d a b : Reg) (s : State) : Host.Outcome State Fault Refusal := perform (bksmxWord d a b) s (bankBody 3 d a b)

/-- BKZERO (R192). -/
def execBkzero (a b : Reg) (s : State) : Host.Outcome State Fault Refusal := perform (bkzeroWord a b) s (bkzeroBody a b)

/-- BKRED (R194). -/
def execBkred (d a b : Reg) (s : State) : Host.Outcome State Fault Refusal := perform (bkredWord d a b) s (bkredBody d a b)

end Sys2Proof.Machine
end

