-- ==== Sys2Proof/Machine/Nmu.lean ====
section
/-!
DEFINITION. Near-memory units as harts use them (R214, R215), the start of kernels (R276, R279), bag reductions (R283), and
refresh and power-down of a channel (R252, R253).
-/

namespace Sys2Proof.Machine

/-! ## Tokens (R215) -/

def nmuToken (ch seq : Nat) : Word :=
  BitVec.ofNat 64 (ch / 96 * 2 ^ 62 + ch / 32 % 3 * 2 ^ 60 + ch % 32 * 2 ^ 55 + seq % 2 ^ 55)

/-- Channel and sequence number of a token; none when it names no stack. -/
def nmuTokenParts (t : Word) : Option (Nat × Nat) :=
  let x := t.toNat
  if x / 2 ^ 60 % 4 == 3 then none else some (x / 2 ^ 62 * 96 + x / 2 ^ 60 % 4 * 32 + x / 2 ^ 55 % 32, x % 2 ^ 55)

/-- A queued or running command. -/
def Nmu.find (n : Nmu) (t : Word) : Option NmuCmd :=
  match n.run with
  | some r => if r.cmd.token == t then some r.cmd else n.queue.find? (fun c => c.token == t)
  | none => n.queue.find? (fun c => c.token == t)

/-- Status of a token seen from a context, with its channel and the kept address. -/
def State.nmuStatus (s : State) (ctx t : Word) : Nat × Nat × Word :=
  match nmuTokenParts t with
  | none => (nmUnknown, 0, 0)
  | some (ch, k) =>
    let n := s.nmu ch
    if k == 0 || k > n.seq || k + 256 ≤ n.seq then (nmUnknown, ch, 0) else
    match n.find t with
    | some c => (if c.ctx == ctx then nmPending else nmUnknown, ch, 0)
    | none =>
      match n.log.find? (fun x => x.token == t && x.ctx == ctx) with
      | some x => (if x.hidden then nmPending else x.code, ch, x.addr)
      | none => (nmUnknown, ch, 0)

/-! ## Reading a kernel (R279) -/

/-- What reading a range of an NMU command gives. -/
inductive NmRead (α : Type) where
  | ok (x : α)
  | page (a : Word)
  | busy
  | fail (code : Nat) (a : Word)

/-- The key of a byte an NMU command of channel `ch` reads or writes anywhere in memory. -/
def State.nmuByte (s : State) (ch : Nat) (c : NmuCmd) (paged : List Word) (a : Word) (kind : AKind) : NmRead Nat × State :=
  if !canonical a || inLocal a || inReserved a then (.fail nmAccess a, s) else
  match s.xlateUnit (channelDie ch) c.ctx c.sptb a kind with
  | (none, s) => (.busy, s)
  | (some (.bad 5), s) => (if paged.contains (pageOf a) then .fail nmAccess a else .page a, s)
  | (some (.bad _), s) => (.fail nmAccess a, s)
  | (some (.ok pa), s) =>
    let key := s.paKey pa
    if !targetOk .plain (s.target pa) || s.segBarred c.kind key then (.fail nmAccess a, s)
    else if s.heldSegment key then (.busy, s)
    else if kind == .read && s.poisoned key then (.fail nmData a, s)
    else (.ok key, s.wakeKey key)

/-- The keys of `n` bytes upward from `a`. -/
def State.nmuBytes (s : State) (ch : Nat) (c : NmuCmd) (paged : List Word) (kind : AKind) : (n : Nat) → Word → NmRead (List Nat) × State
  | 0, _ => (.ok [], s)
  | n + 1, a =>
    match s.nmuByte ch c paged a kind with
    | (.ok k, s) =>
      (match s.nmuBytes ch c paged kind n (a + 1) with
       | (.ok ks, s) => (.ok (k :: ks), s)
       | x => x)
    | (.page a, s) => (.page a, s)
    | (.busy, s) => (.busy, s)
    | (.fail code a, s) => (.fail code a, s)

/-- Words from bytes. -/
def wordsOf : (n : Nat) → List Byte → List (BitVec 32)
  | 0, _ => []
  | n + 1, bs => BitVec.ofNat 32 (leNat (bs.take 4)) :: wordsOf n (bs.drop 4)

/-- The 1 KiB at the kernel address, as a single unit. -/
def State.kernelWords (s : State) (ch : Nat) (c : NmuCmd) (paged : List Word) : NmRead (List (BitVec 32)) × State :=
  match s.nmuBytes ch c paged .read 1024 (c.block.getD 0 0) with
  | (.ok ks, s) => (.ok (wordsOf 256 (readKeys s.mem ks)), s)
  | (.page a, s) => (.page a, s)
  | (.busy, s) => (.busy, s)
  | (.fail code a, s) => (.fail code a, s)

/-! ## NMRUN and NMBAG (R214) -/

/-- Check 3. -/
def nmrunFieldsOk (b : List Word) : Bool := blockAt b 0 % 4 == 0 && blockAt b 7 == 0
def nmbagFieldsOk (b : List Word) : Bool :=
  let rb := blockBits b 1 0 32
  blockBits b 1 32 32 != 0 && rb % 4 == 0 && 4 ≤ rb && rb ≤ 256 && blockBits b 5 0 32 != 0 && blockBits b 5 32 32 == 0 &&
  blockAt b 6 == 0 && blockAt b 7 == 0

/-- Bytes of a bag's output. -/
def bagBytes (b : List Word) : Nat := blockBits b 5 0 32 * blockBits b 1 0 32

/-- A channel holds an accepted command. -/
def State.acceptNmu (s : State) (ch : Nat) (c : NmuCmd) : State := s.setNmu ch { s.nmu ch with queue := (s.nmu ch).queue ++ [c] }

/-- NMRUN and NMBAG (R214); a kernel whose words fail their access or their check when they are read ends its command (R279): every access of the hart comes first, those of its earlier commands included (R218). -/
def nmSubmit (bag : Bool) (d a : Reg) (s : State) : Flow :=
  let x := s.cur.rx a
  if x.toNat % 64 != 0 then .trap { cause := 4, tval := x } s else
  match s.loadBlock x with
  | (.error t, s) => .trap t s
  | (.ok ds, s) =>
    if !(if bag then nmbagFieldsOk ds else nmrunFieldsOk ds) then illegal s else
    let out := ds.getD 4 0
    let isOut := bag && inLocal out
    match (if isOut then badLocal s.cur.local_ (localInt out) (bagBytes ds) else none) with
    | some off => .trap { cause := 6, tval := localAddr off } s
    | none =>
      let first := if bag then ds.getD 0 0 else ds.getD 1 0
      if !canonical first || inLocal first || inReserved first then .trap { cause := 6, tval := first } s else
      match s.xlateHart s.cur.lowLane first .read with
      | (.bad c, s) => .trap { cause := c, tval := first } s
      | (.ok pa, s) =>
        match s.target pa with
        | .hbm off =>
          let ch := channelOf off
          let n := s.nmu ch
          let cl := clusterOf s.cur.place
          if n.queue.length + (if n.run.isSome then 1 else 0) ≥ 16 || (isOut && (s.cluster cl).held .nmuOut ≥ 16) then waitPool s else
          let s := ((s.drainTo 3 anyStream).awaitNet 3 true anyStream).wakeChannel ch
          let token := nmuToken ch (n.seq + 1)
          let lo := localOff out
          let c : NmuCmd :=
            { kind := if bag then .bag else .run, token := token, owner := s.cur.place, ctx := s.cur.sctx, sptb := s.cur.sptb,
              block := ds, code := none, out := if isOut then some (cl, lo, lo + bagBytes ds) else none,
              home := cl, after := s.ownTokens, nmus := s.ownNmuTokens }
          let s := s.setNmu ch { s.nmu ch with seq := n.seq + 1 }
          let s := if bag || !c.after.isEmpty || !c.nmus.isEmpty then s.acceptNmu ch c else
            match s.kernelWords ch c [] with
            | (.ok ws, s) => s.acceptNmu ch { c with code := some ws }
            | (.fail code a, s) => s.setNmu ch ((s.nmu ch).report (s.ctxStopped c.ctx) token c.ctx code a)
            | (_, s) => s.acceptNmu ch c
          let k := s.cluster cl
          let e : Cmd :=
            { engine := .nmuOut, token := token, owner := s.cur.place, ctx := s.cur.sctx, sptb := s.cur.sptb, block := [], base := 0,
              scope := 0, rel := false, after := [], nmus := [], reads := [], writes := [(lo, lo + bagBytes ds)], started := false, step := 0, page := none, paged := [],
              remote := none }
          let s := if isOut then s.setCluster cl { k with pool := k.pool ++ [e] } else s
          .done { s with cur := s.cur.wx d token }
        | _ => .trap { cause := 6, tval := first } s

/-- NMWAIT (R215). -/
def nmwaitBody (w : BitVec 32) (a : Reg) (s : State) : Flow :=
  let (st, ch, addr) := s.nmuStatus s.cur.sctx (s.cur.rx a)
  if st == nmPending then waitAgain w s
  else if st == nmFault || st == nmBadseg then .trap { cause := 0x14, tval := BitVec.ofNat 64 ch } s
  else if st == nmAccess then .trap { cause := 6, tval := addr } s
  else if st == nmData then .trap { cause := 8, tval := addr } s
  else .done s

/-! ## Starting a kernel (R276) -/

/-- The registers a kernel starts with. -/
def NmuRun.start (c : NmuCmd) : NmuRun :=
  let arg (k : Nat) : Word := c.block.getD k 0
  { cmd := c, code := c.code.getD [],
    x := Vector.ofFn (fun i => if i.val == 0 || i.val > 6 then 0 else if i.val == 6 then arg 1 else arg (i.val + 1)),
    v := Vector.replicate 16 0, vl := 0, vtype := 0, lc := 0, lbeg := 0, lend := 0, armed := false,
    rp := arg 1, rs := 0x2000, c := 1, steps := 0, pc := 0, window := [], primed := false, wait := none, paged := [] }

/-- Read the kernel when it was not read at acceptance, then make the first row step. -/
def State.kernelGo (s : State) (ch : Nat) (r : NmuRun) : State :=
  match r.cmd.code with
  | none =>
    (match s.kernelWords ch r.cmd r.paged with
     | (.ok ws, s) => s.putRun ch { r with cmd := { r.cmd with code := some ws }, code := ws }
     | (.page a, s) => s.nmuPage ch r a
     | (.busy, s) => s.putRun ch r
     | (.fail code a, s) => s.nmuEnd ch r code a)
  | some _ => s.rowStep ch r r (fun r s => s.putRun ch { r with primed := true })

/-- The destination slot of a PROG merge reads zero where the kernel does not write (R268). -/
def State.clearSlot (s : State) (c : NmuCmd) : State :=
  match c.kind with
  | .merge ctx handle =>
    (match s.instar ctx handle with
     | some i =>
       (match i.due with
        | some k => let ks := i.slotKeys (k + 1) (i.freeSlot (k + 1)); { s with mem := writeKeys s.mem ks (ks.map (fun _ => 0)) }
        | none => s)
     | none => s)
  | _ => s

/-- Take the next command of the kernel engine. -/
def State.takeCmd (s : State) (ch : Nat) (c : NmuCmd) (rest : List NmuCmd) : State :=
  ((s.setNmu ch { s.nmu ch with queue := rest, run := some (NmuRun.start c) }).clearSlot c)

/-- NMU_KERNEL_START (R276): take an accepted kernel, or go on with one whose first row step waits. -/
def State.kernelStart (s : State) (ch : Nat) : State :=
  let s := s.wakeChannel ch
  let n := s.nmu ch
  match n.run, n.queue with
  | some r, _ => if r.primed || r.wait.isSome || r.cmd.kind == .bag then s else s.kernelGo ch r
  | none, c :: rest => if c.kind == .bag || !s.acquired c.home 3 c.after c.nmus then s else (s.takeCmd ch c rest).kernelGo ch (NmuRun.start c)
  | none, [] => s

/-! ## Bag reductions (R214, R283) -/

/-- 32-bit naturals of an array. -/
def State.bagArray (s : State) (ch : Nat) (r : NmuRun) (a : Word) (n : Nat) : NmRead (List Nat) × State :=
  match s.nmuBytes ch r.cmd r.paged .read (4 * n) a with
  | (.ok ks, s) => (.ok ((wordsOf n (readKeys s.mem ks)).map BitVec.toNat), s.agentTouch (s.ownerLaunch r.cmd.owner) (nmuAgent ch) none .read (ks.map (fun k => (k, 1))))
  | (.page a, s) => (.page a, s)
  | (.busy, s) => (.busy, s)
  | (.fail code a, s) => (.fail code a, s)

/-- Key of a byte of a row: it must lie in HBM. -/
def State.bagRow (s : State) (ch : Nat) (r : NmuRun) (a : Word) (n : Nat) : NmRead (List Nat) × State :=
  match s.nmuBytes ch r.cmd r.paged .read n a with
  | (.ok ks, s) => if ks.all (fun k => match s.target k with | .hbm _ => true | _ => false) then (.ok ks, s) else (.fail nmAccess a, s)
  | x => x

/-- Keys of an output word. -/
def State.bagOut (s : State) (ch : Nat) (r : NmuRun) (a : Word) : NmRead (List Nat) × State :=
  match r.cmd.out with
  | some (cl, _, _) => (.ok ((List.range 4).map (fun j => scratchKey cl (localOff a + j))), s)
  | none =>
    match s.nmuBytes ch r.cmd r.paged .write 4 a with
    | (.ok ks, s) => if ks.all (fun k => match s.target k with | .hbm _ => true | _ => false) then (.ok ks, s) else (.fail nmAccess a, s)
    | x => x

/-- The bag's word e: the running sum over its positions in list order. -/
def State.bagSum (s : State) (ch : Nat) (r : NmuRun) (base : Word) (rb e : Nat) : List Nat → Option Nat → NmRead Nat × State
  | [], acc => (.ok (acc.getD 0), s)
  | i :: t, acc =>
    let a := base + BitVec.ofNat 64 (i * rb + 4 * e)
    match s.bagRow ch r a 4 with
    | (.ok ks, s) =>
      let x := leNat (readKeys s.mem ks)
      (s.agentAccess (s.ownerLaunch r.cmd.owner) (nmuAgent ch) none .read (ks.headD 0) 4).bagSum ch r base rb e t (some (match acc with | none => x | some y => (faddF fp32 0 y x).1))
    | (.page a, s) => (.page a, s)
    | (.busy, s) => (.busy, s)
    | (.fail code a, s) => (.fail code a, s)

/-- Write the output words numbered k, k + 1, …, `n` of them: word k is word k mod (row words) of bag k / (row words). -/
def State.bagWords (s : State) (ch : Nat) (r : NmuRun) (idx seg : List Nat) : (n k : Nat) → NmRead Unit × State
  | 0, _ => (.ok (), s)
  | n + 1, k =>
    let b := r.cmd.block
    let rb := blockBits b 1 0 32
    let e := k % (rb / 4)
    let pos := (List.zip idx seg).filter (fun p => p.2 == k / (rb / 4))
    match s.bagSum ch r (b.getD 0 0) rb e (pos.map (fun p => p.1)) none with
    | (.ok x, s) =>
      (match s.bagOut ch r (b.getD 4 0 + BitVec.ofNat 64 (4 * k)) with
       | (.ok ks, s) =>
         let cl := r.cmd.out.map (fun o => o.1)
         (({ s with mem := writeKeys s.mem ks (leBytes 4 x) } : State).agentAccess (s.ownerLaunch r.cmd.owner) (nmuAgent ch) cl .atomic (ks.headD 0) 4).bagWords ch r idx seg n (k + 1)
       | (.page a, s) => (.page a, s)
       | (.busy, s) => (.busy, s)
       | (.fail code a, s) => (.fail code a, s))
    | (.page a, s) => (.page a, s)
    | (.busy, s) => (.busy, s)
    | (.fail code a, s) => (.fail code a, s)

/-- Run a bag whole.  A page that is missing anywhere is asked for before anything is written. -/
def State.bagGo (s : State) (ch : Nat) (r : NmuRun) : State :=
  let s := s.setNmu ch { s.nmu ch with due := [] }
  let b := r.cmd.block
  let n := blockBits b 1 32 32
  let nb := blockBits b 5 0 32
  let end_ (s : State) (x : NmRead Unit) : State :=
    match x with
    | .ok _ => s.nmuEnd ch r nmDone 0
    | .page a => s.nmuPage ch r a
    | .busy => s.putRun ch r
    | .fail code a => s.nmuEnd ch r code a
  match s.bagArray ch r (b.getD 2 0) n with
  | (.ok idx, s1) =>
    (match s1.bagArray ch r (b.getD 3 0) n with
     | (.ok seg, s1) =>
       if seg.any (fun x => x ≥ nb) then s1.nmuEnd ch r nmBadseg 0 else
       (match s1.bagWords ch r idx seg (bagBytes b / 4) 0 with
        | (.page a, _) => s.nmuPage ch r a
        | (.busy, _) => s.putRun ch r
        | (x, s1) => end_ s1 x)
     | (.page a, _) => s.nmuPage ch r a
     | (.busy, _) => s.putRun ch r
     | (.fail code a, s1) => s1.nmuEnd ch r code a)
  | (.page a, _) => s.nmuPage ch r a
  | (.busy, _) => s.putRun ch r
  | (.fail code a, s1) => s1.nmuEnd ch r code a

/-- A command whose output is local starts after the conflicting commands of its cluster (R187, R214). -/
def State.outReady (s : State) (c : NmuCmd) : Bool :=
  match c.out with
  | some (cl, _, _) => mayStart (fun x => x.engine == .nmuOut && x.token == c.token) (s.cluster cl).pool
  | none => true

/-- NMBAG_RUN (R283). -/
def State.bagRun (s : State) (ch : Nat) : State :=
  let s := s.wakeChannel ch
  let n := s.nmu ch
  match n.run, n.queue with
  | some r, _ => if r.cmd.kind == .bag && r.wait.isNone then s.bagGo ch r else s
  | none, c :: rest =>
    if c.kind == .bag && s.outReady c && s.acquired c.home 3 c.after c.nmus then (s.takeCmd ch c rest).bagGo ch (NmuRun.start c) else s
  | none, [] => s

/-! ## Refresh and power (R252, R253) -/

/-- The NMU is idle: no kernel, command or merge backlog. -/
def State.nmuIdle (s : State) (ch : Nat) : Bool :=
  let n := s.nmu ch
  n.run.isNone && n.queue.isEmpty && s.instars.all (fun i => i.home != ch || i.halted || i.backlog == 0)

/-- Put a channel into the low-power state; a kernel's row-segment registers go to the reserved area. -/
def State.powerDown (s : State) (ch : Nat) : State :=
  let n := s.nmu ch
  s.setNmu ch { n with power := .down, saved := n.run.map (fun r => r.v) }

/-! ## Instructions and events -/

/-- NMRUN (R214). -/
def execNmrun (d a : Reg) (s : State) : Host.Outcome State Fault Refusal := perform (nmrunWord d a) s (nmSubmit false d a)

/-- NMBAG (R214). -/
def execNmbag (d a : Reg) (s : State) : Host.Outcome State Fault Refusal := perform (nmbagWord d a) s (nmSubmit true d a)

/-- NMWAIT (R215). -/
def execNmwait (a : Reg) (s : State) : Host.Outcome State Fault Refusal := perform (nmwaitWord a) s (nmwaitBody (nmwaitWord a) a)

/-- NMWAIT_WAKE (R215). -/
def execNmwaitWake (h : Nat) (s : State) : Host.Outcome State Fault Refusal :=
  .next (s.wake h (isWord 0x3C 2 2048) (fun w => nmwaitBody w (wA w)))

/-- NRNEXT (R280); a hart may not execute it. -/
def execNrnext (s : State) : Host.Outcome State Fault Refusal := perform nrnextWord s illegal

/-- NRSEEK (R280); a hart may not execute it. -/
def execNrseek (a : Reg) (s : State) : Host.Outcome State Fault Refusal := perform (nrseekWord a) s illegal

/-- NRWB (R280); a hart may not execute it. -/
def execNrwb (v : Reg) (s : State) : Host.Outcome State Fault Refusal := perform (nrwbWord v) s illegal

/-- NMU_KERNEL_START (R276). -/
def execNmuKernelStart (ch : Nat) (s : State) : Host.Outcome State Fault Refusal := .next (s.kernelStart ch)

/-- NMU_STEP_LIMIT (R279): a kernel whose count stands at 2^20 raises the NMU fault. -/
def execNmuStepLimit (ch : Nat) (s : State) : Host.Outcome State Fault Refusal :=
  .next (match (s.nmu ch).run with
    | some r => if r.steps ≥ 2 ^ 20 then s.nmuFault ch r (r.code.getD r.pc 0) else s
    | none => s)

/-- NMBAG_RUN (R283). -/
def execNmbagRun (ch : Nat) (s : State) : Host.Outcome State Fault Refusal := .next (s.bagRun ch)

/-- REFRESH_DUE (R252): during a kernel the refresh waits for the end of the row step. -/
def execRefreshDue (ch bank : Nat) (s : State) : Host.Outcome State Fault Refusal :=
  .next (let n := s.nmu ch; if n.run.isSome then s.setNmu ch { n with due := n.due ++ [bank] } else s)

/-- Ask for the low-power state of a channel: an idle one enters it; a busy one waits from the first asking (R253). -/
def State.askDown (s : State) (ch : Nat) : State :=
  let n := s.nmu ch
  if n.power == .down then s
  else if s.nmuIdle ch then s.powerDown ch
  else s.setNmu ch { n with power := if n.power == .up then .asked s.time else n.power }

/-- CHANNEL_POWERDOWN (R253). -/
def execChannelPowerdown (ch : Nat) (s : State) : Host.Outcome State Fault Refusal := .next (s.askDown ch)

/-- CHANNEL_POWERDOWN_TIMEOUT (R253): 10 µs after it was asked, a busy channel saves its NMU and enters the low-power state. -/
def execChannelPowerdownTimeout (ch : Nat) (s : State) : Host.Outcome State Fault Refusal :=
  .next (match (s.nmu ch).power with
    | .asked since => if since + 10000 ≤ s.time then s.powerDown ch else s
    | _ => s)

/-- CHANNEL_WAKE (R253). -/
def execChannelWake (ch : Nat) (s : State) : Host.Outcome State Fault Refusal := .next (s.wakeChannel ch)

end Sys2Proof.Machine
end

