-- ==== Sys2Proof/Machine/Pyramid.lean ====
section
/-!
DEFINITION. Instar streams and the pyramid instructions (R197 to R202, R264 to R272).
-/

namespace Sys2Proof.Machine

/-! ## The descriptor (R264, R266) -/

/-- Item size of a descriptor's doubleword 1. -/
def itemSize (d1 : Nat) : Nat := d1 % 2 ^ 13 * fmtWidth (d1 / 2 ^ 16 % 16) / 8

/-- The fields check and the combiner check. -/
def descFieldsOk (b : List Word) : Bool :=
  let d1 := blockAt b 1
  let d3 := blockAt b 3
  let fmt := d1 / 2 ^ 16 % 16
  let comb := d1 / 2 ^ 24 % 16
  let size := itemSize d1
  let levels := d3 % 32
  let cap (k : Nat) : Nat := blockBits b (4 + k / 8) (8 * (k % 8)) 8
  let kernel := blockAt b 2
  d1 / 2 ^ 28 == 0 && d1 / 2 ^ 20 % 16 == 0 && d1 / 2 ^ 13 % 8 == 0 && d3 / 2 ^ 25 == 0 && d3 / 2 ^ 5 % 2 ^ 11 == 0 &&
  (b.drop 6).all (fun d => d == 0) && fmt ≤ 8 && d1 % 2 ^ 13 != 0 && size ≤ 4096 && levels != 0 && levels ≤ 16 &&
  (List.range 16).all (fun k => if k < levels then 1 ≤ cap k && cap k ≤ 8 else cap k == 0) &&
  combOk comb fmt && (if comb == 7 then kernel != 0 && kernel % 4 == 0 else kernel == 0)

/-- The home check. -/
def descHomeOk (b : List Word) : Bool :=
  let home := blockAt b 3 / 2 ^ 16 % 2 ^ 9
  home < 384 && blockAt b 0 % 256 == 0 && blockAt b 0 / 256 % 32 == home % 32

/-- The stream a descriptor describes, with no storage yet. -/
def instarOf (ctx sptb handle : Word) (b : List Word) : Instar :=
  let d1 := blockAt b 1
  let d3 := blockAt b 3
  let n := d3 % 32
  { ctx := ctx, handle := handle, sptb := sptb, store := b.getD 0 0, comb := d1 / 2 ^ 24 % 16, fmt := d1 / 2 ^ 16 % 16,
    elems := d1 % 2 ^ 13, size := itemSize d1, kernel := b.getD 2 0, home := d3 / 2 ^ 16 % 2 ^ 9,
    caps := (List.range n).map (fun k => blockBits b (4 + k / 8) (8 * (k % 8)) 8), segs := [], next := 0,
    levels := List.replicate n [], halted := false }

/-- How PYINIT ends: READY, BADDESC, a page it waits for, or a segment that is held (R250). -/
inductive InitEnd where
  | ready
  | bad
  | page (a : Word)
  | held
  deriving DecidableEq, Repr

/-- Keys of the segments of a stream, each mapped by a large writable leaf to the home stack, whose A and D bits are set (R258, R266). -/
def State.storageKeys (s : State) (i : Instar) : (n k : Nat) → Except InitEnd (List Nat) × State
  | 0, _ => (.ok [], s)
  | n + 1, k =>
    let a := i.store + BitVec.ofNat 64 (8192 * k)
    if !canonical a || inLocal a || inReserved a then (.error .bad, s) else
    let tr := s.trail i.sptb a .write
    if tr.any (fun x => s.heldSegment x.2.2) then (.error .held, s) else
    match s.walk i.sptb a .write with
    | .fault => (.error (.page a), s)
    | .access => (.error .bad, s)
    | .leaf e bits frame _ _ _ =>
      let pa := frame * 4096 + a.toNat % 2 ^ bits
      let s := (tr.foldl (fun s x => s.wakeKey x.2.2) s).markLeaf e .write
      match s.target pa with
      | .hbm off =>
        if bits < 21 || off / 2 ^ 36 != i.home / 32 then (.error .bad, s)
        else match s.storageKeys i n (k + 1) with
          | (.ok ks, t) => (.ok (s.paKey pa :: ks), t)
          | x => x
      | _ => (.error .bad, s)

/-- Read the descriptor's 32 doublewords through the context's tables. -/
def State.readDesc (s : State) (sptb handle : Word) : Except InitEnd (List Word) × State :=
  match s.hubReads sptb 8 32 handle with
  | (.ok xs, s) => (.ok (xs.map (BitVec.ofNat 64)), s)
  | (.error (.page a), s) => (.error (.page a), s)
  | (.error .held, s) => (.error .held, s)
  | (.error _, s) => (.error .bad, s)

/-- A command of the kernel engine is the PROG merge of a stream. -/
def NmuCmd.merges (ctx handle : Word) (c : NmuCmd) : Bool := c.kind == .merge ctx handle

/-- The kernel of a PROG merge of a stream runs. -/
def State.mergeRuns (s : State) (ctx handle : Word) : Bool :=
  s.nmus.any (fun p => match p.2.run with | some r => r.cmd.merges ctx handle | none => false)

/-- The merges of a stream that have not begun are dropped (R198). -/
def State.dropMerges (s : State) (ctx handle : Word) : State :=
  { s with nmus := s.nmus.map (fun p => (p.1, { p.2 with queue := p.2.queue.filter (fun c => !c.merges ctx handle) })) }

/-- Streams stop being ready: their items are lost, and so are their merges that have not begun (R273).  A PROG kernel that runs goes on
to its end, and its result is dropped (log 39). -/
def State.dropStreams (s : State) (p : Instar → Bool) : State :=
  (s.instars.filter p).foldl (fun s i => s.dropMerges i.ctx i.handle) { s with instars := s.instars.filter (fun i => !p i) }

/-- INSTAR_INIT_REQUEST (R198, R266): validate a descriptor and make the stream ready and empty, its merges dropped; one that fails leaves
the stream as it was. -/
def State.instarInit (s : State) (ctx sptb handle : Word) : InitEnd × State :=
  match s.readDesc sptb handle with
  | (.error e, s) => (e, s)
  | (.ok b, s) =>
    if !descFieldsOk b || !descHomeOk b then (.bad, s) else
    let i := instarOf ctx sptb handle b
    match s.storageKeys i i.segCount 0 with
    | (.error e, s) => (e, s)
    | (.ok ks, s) =>
      let others := s.instars.filter (fun x => !(x.ctx == ctx && x.handle == handle))
      let full := (others.filter (fun x => x.home == i.home)).length ≥ 64
      let meet := others.any (fun x => x.segs.any (fun p => ks.contains p))
      if full || meet then (.bad, s)
      else (.ready, (({ s with instars := { i with segs := ks } :: others } : State).dropMerges ctx handle).wakeChannel i.home)

/-! ## Operations of the home NMU (R269, R270) -/

/-- Append an item, when the stream takes one: its time, or none where the append is refused. -/
def State.instarAppend (s : State) (i : Instar) (item : List Byte) : Option Nat × State :=
  if i.halted || i.next ≥ 2 ^ 52 then (none, s) else
  let slot := i.freeSlot 0
  let j : Instar := ({ i with levels := i.levels.set 0 (i.level 0 ++ [{ start := i.next, slot := slot }]), next := i.next + 1 } : Instar)
  let j := if i.levelsN == 1 then j.expire else j
  (some i.next, ({ s with mem := writeKeys s.mem (i.slotKeys 0 slot) item } : State).putInstar j)

/-- An item's bytes fail their check. -/
def State.itemPoison (s : State) (i : Instar) (level : Nat) (x : Item) : Bool := (i.slotKeys level x.slot).any s.poisoned

/-- The command of a PROG merge (R268); it belongs to no hart: its owner is the place of none. -/
def Instar.progCmd (i : Instar) (k a b : Nat) : NmuCmd :=
  let x (level slot : Nat) : Word := i.slotAddr level slot
  { kind := .merge i.ctx i.handle, token := 0, owner := 2 ^ 12, ctx := i.ctx, sptb := i.sptb,
    block := [i.kernel, x k a, x k a, x k b, x (k + 1) (i.freeSlot (k + 1)), BitVec.ofNat 64 i.size, BitVec.ofNat 64 (k + 1)],
    code := none, out := none, home := 0, after := [], nmus := [] }

/-- INSTAR_MERGE (R270): perform the next due merge, or hand it to the kernel engine. -/
def State.instarMerge (s : State) (i : Instar) : State :=
  if i.halted then s else
  match i.due with
  | none => s
  | some k =>
    match i.level k with
    | a :: b :: _ =>
      if s.itemPoison i k a || s.itemPoison i k b then s.putInstar { i with halted := true }
      else if i.comb == 7 then
        let n := s.nmu i.home
        let mine := NmuCmd.merges i.ctx i.handle
        if n.queue.any mine || n.run.any (fun r => mine r.cmd) then s
        else s.setNmu i.home { n with queue := n.queue ++ [i.progCmd k a.slot b.slot] }
      else
        let slot := i.freeSlot (k + 1)
        let bytes := i.combine (readKeys s.mem (i.slotKeys k a.slot)) (readKeys s.mem (i.slotKeys k b.slot))
        ({ s with mem := writeKeys s.mem (i.slotKeys (k + 1) slot) bytes } : State).putInstar (i.mergeDone k slot)
    | _ => s

/-! ## Serving a load (R200) -/

/-- The stored item that covers a time: its level and the item. -/
def Instar.covers (i : Instar) (t : Nat) : Option (Nat × Item) :=
  (List.range i.levelsN).findSome? (fun k => ((i.level k).find? (fun x => x.start ≤ t && t < x.start + 2 ^ k)).map (fun x => (k, x)))

/-- The oldest stored item. -/
def Instar.oldest (i : Instar) : Option (Nat × Item) :=
  (List.range i.levelsN).reverse.findSome? (fun k => (i.level k).head?.map (fun x => (k, x)))

/-- The span descriptor written to xs. -/
def spanWord (status level start : Nat) : Word := BitVec.ofNat 64 (status * 2 ^ 60 + level * 2 ^ 52 + start % 2 ^ 52)

/-- What a load gives: the span descriptor, and the item where one is delivered. -/
def Instar.serve (i : Instar) (t k : Nat) : Word × Option (Nat × Item) :=
  if t ≥ i.next then (spanWord 3 0 i.next, none) else
  match i.covers t with
  | some (j, x) => (spanWord (if j == k then 0 else if k < j then 1 else 2) j x.start, some (j, x))
  | none =>
    match i.oldest with
    | some (j, x) => (spanWord 4 j x.start, none)
    | none => (spanWord 4 0 0, none)

/-- A settled request is served once no merge is due, or at once on a halted stream (R201, R272). -/
def Instar.settles (i : Instar) (settled : Bool) : Bool := !settled || i.halted || i.backlog == 0

/-! ## The handle (R197) -/

/-- Checks 1 and 2. -/
def State.handleOk (s : State) (a : Word) : Except Trap Unit × State :=
  if a.toNat % 256 != 0 then (.error { cause := 4, tval := a }, s)
  else if !canonical a || inLocal a || inReserved a then (.error { cause := 6, tval := a }, s)
  else match s.xlateHart s.cur.lowLane a .read with
    | (.bad c, s) => (.error { cause := c, tval := a }, s)
    | (.ok pa, s) => (match s.target pa with
      | .hbm _ => (.ok (), s)
      | _ => (.error { cause := 6, tval := a }, s))

/-- All three checks; the third is the EP's, `vec` for an instruction whose EP checks are a vector instruction's (R29; log 15). -/
def State.handleReady (s : State) (a : Word) (vec : Bool) : Except Trap Instar × State :=
  match s.handleOk a with
  | (.error t, s) => (.error t, s)
  | (.ok (), s) =>
    match s.instar s.cur.sctx a with
    | none => (.error { cause := 6, tval := a, vec := vec }, s)
    | some i => (.ok i, s)

/-- The item size the AP reads from the descriptor, as a scalar load of the hart (R199, R338). -/
def State.apItemSize (s : State) (a : Word) : Except Trap Nat × State :=
  match s.loadN .scalar (a + 8) 8 with
  | (.error t, s) => (.error t, s)
  | (.ok x, s) => (.ok (itemSize x), s.strike .read (a + 8) 8 noElem)

/-- Check 4 of R199: a group of `g` registers at `r` that holds an item. -/
def itemGroupOk (c : VCtx) (r size : Nat) : Bool := r % c.g == 0 && size ≤ 32 * c.lanes * c.g

/-! ## Requests that wait at the home NMU (R270) -/

/-- The waiting pyramid request of a hart to a stream, and its word. -/
def pyWaiting (ctx handle : Word) (p : Hart → BitVec 32 → Bool) (h : Hart) : Option (BitVec 32) :=
  let mine (w : BitVec 32) : Option (BitVec 32) :=
    if (wMajor w).toNat == 0x37 && !h.held && h.sctx == ctx && h.rx (wA w) == handle && p h w then some w else none
  match h.status with
  | .waiting (.again w) => mine w
  | .waiting (.initPage w _) => mine w
  | _ => none

/-- Appends to a stream that wait there while their harts, bound or folded, go on: their places in the order of arrival (R270). -/
def State.sentTo (s : State) (ctx handle : Word) : List Nat :=
  (s.harts ++ s.frames.map (fun f => f.hart)).flatMap (fun h =>
    if h.sctx == ctx then (h.sent.filter (fun x => x.handle == handle)).map (fun x => x.arrived) else [])

/-- A request to the stream arrived before the current hart's and waits: another hart's, or an append that its hart does not wait for
(R270). -/
def State.pyBefore (s : State) (ctx handle : Word) : Bool :=
  s.others.any (fun h => (pyWaiting ctx handle (fun _ _ => true) h).isSome && s.arrivedBefore h) ||
    (s.sentTo ctx handle).any (fun a => s.cur.arrived.all (fun b => a < b))

/-- The request waits at the home NMU in its order of arrival (R270). -/
def pyWait (w : BitVec 32) (s : State) : Flow := waitAgain w s.arrive

def isPyinit (w : BitVec 32) : Bool := isWord 0x37 0 2048 w
def isPyapp (w : BitVec 32) : Bool := isWord 0x37 2 2048 w

/-- The bytes a PYAPP of a hart appends, for an item size. -/
def Hart.pyItem (h : Hart) (w : BitVec 32) (size : Nat) : List Byte := leBytes size (h.groupN (wB w).toNat (h.vctx false).g)

/-- The current hart goes on while its PYAPP, which waits at the home near-memory unit, keeps its place there: its result comes later
(R63, R376). -/
def State.sendOff (s : State) : State :=
  match s.cur.status, s.cur.arrived with
  | .waiting (.again w), some a =>
    (match s.instar s.cur.sctx (s.cur.rx (wA w)) with
     | some i => if !isPyapp w || s.cur.held then s else
         { s with cur := { s.cur.advance with
             status := .running, sent := s.cur.sent ++ [{ word := w, handle := i.handle, item := s.cur.pyItem w i.size, arrived := a }] } }
     | none => s)
  | _, _ => s

/-! ## Instructions (R198 to R202) -/

/-- A page that PYINIT needs is missing: it waits for the host without a trap, and a page that was answered and is still missing is a
failed check (R260, R266). -/
def initPage (w : BitVec 32) (d : Reg) (a : Word) (s : State) : Flow :=
  if s.cur.paged.contains (pageOf a) then .done { s with cur := s.cur.wx d 1 } else
  let (id, s) := s.arrive.askPage (.pyinit s.cur.place) s.cur.sctx a
  .stay { s with cur := { s.cur with status := .waiting (.initPage w id) } }

/-- A pyramid request of the current hart, at its handle, arrives at the port of a home channel: once, however long it waits there (R274). -/
def State.arriveAt (s : State) (ch fn : Nat) (handle : Word) : State :=
  if s.cur.arrived.isSome then s else s.tell (channelPort ch) s.cur.launch (hartAgent s.cur.place) (sortPyramid fn) handle.toNat 256 []

/-- The home channel that the descriptor at a handle names. -/
def State.homeField (s : State) (handle : Word) : Nat := match s.homeOf (handle + 24) s.cur.lowLane with
  | some key => leNat (Memory.getList s.mem key 8) / 2 ^ 16 % 2 ^ 9
  | none => 0

/-- PYINIT (R198, R266). -/
def pyinitBody (w : BitVec 32) (d h : Reg) (s : State) : Flow :=
  let a := s.cur.rx h
  match s.handleOk a with
  | (.error t, s) => if t.cause == 5 then initPage w d a s else .trap t s
  | (.ok (), s) =>
    let s := s.bankTurn.arriveAt (s.homeField a) 0 a
    if s.pyBefore s.cur.sctx a || s.mergeRuns s.cur.sctx a then pyWait w s else
    match s.instarInit s.cur.sctx s.cur.sptb a with
    | (.ready, s) => .done { s with cur := s.cur.wx d 0 }
    | (.bad, s) => .done { s with cur := s.cur.wx d 1 }
    | (.held, s) => .stay (s.block .hold)
    | (.page p, s) => initPage w d p s

/-- PYAPP (R199): it waits at the home NMU until the backlog is zero and earlier requests are served (R270). -/
def pyappBody (w : BitVec 32) (d h v : Reg) (s : State) : Flow :=
  let a := s.cur.rx h
  match s.handleReady a true with
  | (.error t, s) => .trap t s
  | (.ok i, s) =>
    match s.apItemSize a with
    | (.error t, s) => .trap t s
    | (.ok size, s) =>
      let c := s.cur.vctx false
      if !itemGroupOk c v.toNat size then illegalV s else
      let s := s.bankTurn.arriveAt i.home 2 a
      if s.pyBefore s.cur.sctx a || !s.cur.sent.isEmpty then pyWait w s
      else if size != i.size || i.halted then .done { s with cur := s.cur.wx d (-1) }
      else if i.backlog != 0 then pyWait w s
      else
        let s := s.wakeChannel i.home
        match s.instarAppend i (leBytes size (s.cur.groupN v.toNat c.g)) with
        | (some t, s) => .done { s with cur := s.cur.wx d (BitVec.ofNat 64 t) }
        | (none, s) => .done { s with cur := s.cur.wx d (-1) }

/-- A settled request must wait: a merge is due, or an earlier request (R201, R270, R271). -/
def State.unsettled (s : State) (i : Instar) (settled : Bool) : Bool := !i.settles settled || (settled && s.pyBefore i.ctx i.handle)

/-- PYSTAT (R202). -/
def pystatBody (w : BitVec 32) (d h : Reg) (settled : Bool) (s : State) : Flow :=
  match s.handleReady (s.cur.rx h) false with
  | (.error t, s) => .trap t s
  | (.ok i, s) =>
    let s := s.bankTurn.arriveAt i.home 4 (s.cur.rx h)
    if s.unsettled i settled then pyWait w s
    else
      let x := BitVec.ofNat 64 (min i.backlog 255 * 2 ^ 56 + i.next % 2 ^ 52)
      let (x, s) := if settled then (x, s) else s.journalled jStat x
      .done { s with cur := s.cur.wx d x }

/-- Write bytes 0 to n − 1 of a group; a register that holds one of them is written. -/
def Hart.writeBytes (h : Hart) (base regs : Nat) (bs : List Byte) : Hart :=
  h.writeRegs 8 base regs (bs.map (fun b => some b.toNat))

/-- Deliver what a PYLD was served: its span descriptor and, where there is one, the item; an unsettled one is journalled (R201,
R274). -/
def pyDeliver (settled : Bool) (vd xs : Reg) (g size : Nat) (x : Word) (item : Option (List Byte)) (s : State) : Flow :=
  let vals : List Word := x :: (match item with | some bs => (chunksOf 8 ((size + 7) / 8) bs).map (BitVec.ofNat 64) | none => [])
  let (ys, s) := if settled then (vals, s) else s.journal s.cur.launch s.cur.jkey jLoad vals
  let h := if ys.length ≤ 1 then s.cur else s.cur.writeBytes vd.toNat g ((dwordBytes (ys.drop 1)).take size)
  .done { s with cur := h.wx xs (ys.getD 0 x) }

/-- PYLD (R200, R201). -/
def pyldBody (w : BitVec 32) (vd h t xs : Reg) (level : BitVec 4) (settled : Bool) (s : State) : Flow :=
  let a := s.cur.rx h
  match s.handleReady a true with
  | (.error t, s) => .trap t s
  | (.ok i, s) =>
    match s.apItemSize a with
    | (.error t, s) => .trap t s
    | (.ok size, s) =>
      let c := s.cur.vctx false
      if !itemGroupOk c vd.toNat size then illegalV s
      else if size != i.size then .trap { cause := 6, tval := a, vec := true } s else
      let s := s.bankTurn.arriveAt i.home 1 a
      if s.unsettled i settled then pyWait w s
      else
        let s := s.wakeChannel i.home
        match i.serve (s.cur.rx t).toNat level.toNat with
        | (x, none) => pyDeliver settled vd xs c.g size x none s
        | (x, some (k, item)) =>
          if s.itemPoison i k item then .trap { cause := 8, tval := i.slotAddr k item.slot, vec := true } s
          else pyDeliver settled vd xs c.g size x (some (readKeys s.mem (i.slotKeys k item.slot))) s

/-- PYINIT (R198). -/
def execPyinit (d h : Reg) (s : State) : Host.Outcome State Fault Refusal := perform (pyinitWord d h) s (pyinitBody (pyinitWord d h) d h)

/-- PYAPP (R199). -/
def execPyapp (d h v : Reg) (s : State) : Host.Outcome State Fault Refusal :=
  perform (pyappWord d h v) s (pyappBody (pyappWord d h v) d h v)

/-- PYSTAT (R202). -/
def execPystat (d h : Reg) (settled : Bool) (s : State) : Host.Outcome State Fault Refusal :=
  perform (pystatWord d h settled) s (pystatBody (pystatWord d h settled) d h settled)

/-- PYLD (R200). -/
def execPyld (vd h t xs : Reg) (level : BitVec 4) (settled : Bool) (s : State) : Host.Outcome State Fault Refusal :=
  perform (pyldWord vd h t xs level settled) s (pyldBody (pyldWord vd h t xs level settled) vd h t xs level settled)

/-! ## The home NMU's own steps -/

/-- The one of some waiting harts that arrived first. -/
def firstArrived : List Hart → Option Hart
  | [] => none
  | h :: t => match firstArrived t with
    | some x => if (match h.arrived, x.arrived with | some a, some b => decide (a ≤ b) | some _, none => true | none, _ => false) then some h else some x
    | none => some h

/-- Run the waiting request that arrived first among those that match. -/
def State.pyServe (s : State) (ctx handle : Word) (p : Hart → BitVec 32 → Bool) (body : BitVec 32 → State → Flow) : State :=
  match firstArrived (s.harts.filter (fun h => (pyWaiting ctx handle p h).isSome)) with
  | some h => s.wake h.place (fun _ => true) body
  | none => s

/-- A request of a kind waits at the home NMU for the stream. -/
def State.pyWaits (s : State) (ctx handle : Word) (p : Hart → BitVec 32 → Bool) : Bool := s.harts.any (fun h => (pyWaiting ctx handle p h).isSome)

/-- INSTAR_INIT_REQUEST (R266): the waiting PYINIT of the handle, or a descriptor that arrived. -/
def execInstarInitRequest (ctx handle : Word) (s : State) : Host.Outcome State Fault Refusal :=
  .next (
    if s.pyWaits ctx handle (fun _ w => isPyinit w) then s.pyServe ctx handle (fun _ w => isPyinit w) (fun w => pyinitBody w (wD w) (wA w))
    else if s.mergeRuns ctx handle then s
    else match s.context ctx with
      | some c => (s.instarInit ctx c.sptb handle).2
      | none => s)

/-- A waiting PYAPP of a hart appends these bytes. -/
def appends (item : List Byte) (h : Hart) (w : BitVec 32) : Bool :=
  isPyapp w && leBytes item.length (h.groupN (wB w).toNat (h.vctx false).g) == item

/-- The oldest append that a hart has sent, to this stream and of this item. -/
def Hart.sentHead (ctx handle : Word) (item : List Byte) (h : Hart) : Option Sent :=
  if h.sctx != ctx then none else h.sent.head?.filter (fun x => x.handle == handle && x.item == item)

/-- The append that arrived first among the oldest ones of the harts, bound or folded, to this stream and of this item. -/
def State.firstSent (s : State) (ctx handle : Word) (item : List Byte) : Option Sent :=
  ((s.harts ++ s.frames.map (fun f => f.hart)).filterMap (Hart.sentHead ctx handle item)).foldl (fun r x => match r with
    | some y => if x.arrived < y.arrived then some x else r
    | none => some x) none

/-- The result of an append that a hart has sent; its later accesses of the bank stream need not wait for it any more. -/
def Hart.sentDone (x : Sent) (r : Word) (h : Hart) : Hart :=
  if h.sent.head? != some x then h else ({ h.wx (wD x.word) r with sent := h.sent.tail } : Hart).releaseHold

/-- No request to the stream that waits arrived before a place. -/
def State.firstAt (s : State) (ctx handle : Word) (a : Nat) : Bool :=
  !s.harts.any (fun h => (pyWaiting ctx handle (fun _ _ => true) h).isSome && h.arrived.any (fun b => b < a)) && !(s.sentTo ctx handle).any (fun b => b < a)

/-- The home near-memory unit performs an append whose hart has gone on; one to a stream that is lost or halted returns all ones (R199,
R272; log 64). -/
def State.serveSent (s : State) (ctx handle : Word) (x : Sent) : State :=
  if !s.firstAt ctx handle x.arrived then s else
  match s.instar ctx handle with
  | none => s.everyHart (Hart.sentDone x (-1))
  | some i =>
    if i.halted || x.item.length != i.size then s.everyHart (Hart.sentDone x (-1))
    else if i.backlog != 0 then s
    else match (s.wakeChannel i.home).instarAppend i x.item with
      | (some t, s) => s.everyHart (Hart.sentDone x (BitVec.ofNat 64 t))
      | (none, s) => s.everyHart (Hart.sentDone x (-1))

/-- INSTAR_APPEND (R269, R270): a waiting PYAPP of this item, an append whose hart has gone on, or an item that arrived, is appended once
the backlog is zero; it ends the low-power state of the home channel (R253). -/
def execInstarAppend (ctx handle : Word) (item : List Byte) (s : State) : Host.Outcome State Fault Refusal :=
  .next (
    if s.pyWaits ctx handle (appends item) then s.pyServe ctx handle (appends item) (fun w => pyappBody w (wD w) (wA w) (wB w))
    else match s.firstSent ctx handle item with
    | some x => s.serveSent ctx handle x
    | none => match s.instar ctx handle with
      | some i =>
        let s := s.wakeChannel i.home
        if i.backlog == 0 && item.length == i.size && !s.pyWaits ctx handle (fun _ _ => true) && (s.sentTo ctx handle).isEmpty
          then (s.instarAppend i item).2 else s
      | none => s)

/-- INSTAR_MERGE (R270). -/
def execInstarMerge (ctx handle : Word) (s : State) : Host.Outcome State Fault Refusal :=
  .next (match s.instar ctx handle with
    | some i => (s.wakeChannel i.home).instarMerge i
    | none => s)

/-- INSTAR_LOAD_SERVE (R271): a waiting PYLD of this time and level is served. -/
def execInstarLoadServe (ctx handle t : Word) (level : BitVec 4) (settled : Bool) (s : State) : Host.Outcome State Fault Refusal :=
  .next (s.pyServe ctx handle
    (fun h w => w.getLsbD 0 && h.rx (wB w) == t && w.extractLsb' 2 4 == level && w.getLsbD 1 == settled)
    (fun w => pyldBody w (wD w) (wA w) (wB w) (w.extractLsb' 6 5) (w.extractLsb' 2 4) (w.getLsbD 1)))

/-- INSTAR_STATUS_SERVE (R202): a waiting PYSTAT is served. -/
def execInstarStatusServe (ctx handle : Word) (settled : Bool) (s : State) : Host.Outcome State Fault Refusal :=
  .next (s.pyServe ctx handle (fun _ w => w.toNat % 8 == 4 && w.getLsbD 3 == settled)
    (fun w => pystatBody w (wD w) (wA w) (w.getLsbD 3)))

end Sys2Proof.Machine
end

