-- ==== Sys2Proof/Machine/Objects.lean ====
section
/-!
DEFINITION. Replayed objects: their methods, their logs and replicas, the calls of a hart, and registration (R203 to R205,
R320 to R334).
-/

namespace Sys2Proof.Machine

/-! ## Methods (R324 to R326) -/

/-- A method being run by a replay engine: its registers, its place, its loop, its buffered copy of the state bytes and the
steps it has made. -/
structure MRun where
  x     : Vector Word 32
  pc    : Int
  lc    : Word
  lbeg  : Int
  lend  : Int
  armed : Bool
  bytes : List Byte
  steps : Nat
  deriving DecidableEq, Repr

/-- How a method ends: its result and the state bytes at HALT, or a cause and an immediate. -/
inductive MEnd where
  | halt (result : Word) (bytes : List Byte)
  | abort (cause imm : Nat)
  deriving DecidableEq, Repr

def MRun.rx (r : MRun) (n : Reg) : Word := if n = 0#5 then 0 else r.x[n.toNat]
def MRun.wx (r : MRun) (n : Reg) (y : Word) : MRun := if n = 0#5 then r else { r with x := r.x.set n.toNat y }

/-- The next word in sequence, with the end step of R115. -/
def MRun.next (r : MRun) : MRun :=
  if r.armed && r.pc == r.lend then
    (if r.lc ≤ 1 then { r with lc := 0, armed := false, pc := r.lend + 1 } else { r with lc := r.lc - 1, pc := r.lbeg })
  else { r with pc := r.pc + 1 }

/-- A taken branch (R115). -/
def MRun.branch (r : MRun) (t : Int) : MRun :=
  let inside (a : Int) : Bool := r.lbeg ≤ a && a ≤ r.lend
  { r with pc := t, armed := r.armed && !(inside r.pc && !inside t) }

/-- Width in bytes of a load or store major, and whether it stores or reads a natural. -/
def methodAccess (major : Nat) : Option (Nat × Bool × Bool) :=
  match major with
  | 0x0C => some (1, false, false) | 0x0D => some (2, false, false) | 0x0E => some (4, false, false) | 0x0F => some (8, false, false)
  | 0x10 => some (1, false, true) | 0x11 => some (2, false, true) | 0x12 => some (4, false, true)
  | 0x13 => some (1, true, false) | 0x14 => some (2, true, false) | 0x15 => some (4, true, false) | 0x16 => some (8, true, false)
  | _ => none

/-- A word is one of the table of R324, with zero in every field R88 requires to be zero. -/
def methodWord (w : BitVec 32) : Bool :=
  let major := (wMajor w).toNat
  match major with
  | 0x00 => w == haltWord || w == trapWord (wArg w)
  | 0x03 => true
  | 0x04 => (wFn w).toNat ≤ 0x17 || ((wFn w).toNat ≤ 0x1D && (wB w == 0#5))
  | 0x20 => (wA w == 0#5) && 0 < (wImm w).toInt
  | _ => (methodAccess major).isSome || (0x18 ≤ major && major ≤ 0x1D)

/-- Replace bytes of a list from position `o`. -/
def patch (bs : List Byte) (o : Nat) (new : List Byte) : List Byte := bs.take o ++ new ++ bs.drop (o + new.length)

/-- One step of a method: it goes on, or ends (R325). -/
def MRun.step (update : Bool) (code : List (BitVec 32)) (r : MRun) : MRun ⊕ MEnd :=
  match (if r.pc < 0 then none else code[r.pc.toNat]?) with
  | none => .inr (.abort 0x01 0)
  | some w =>
    let major := (wMajor w).toNat
    let spent : Bool := r.steps ≥ 4096
    let go (x : MRun) : MRun ⊕ MEnd := if spent then .inr (.abort 0x16 0) else .inl { x with steps := r.steps + 1 }
    if !methodWord w then .inr (.abort 0x01 0)
    else if major == 0x20 && r.armed then .inr (.abort 0x13 0)
    else match methodAccess major with
      | some (n, st, nat) =>
        let o := (r.rx (wA w) + (wImm w).signExtend 64).toNat
        if o % n != 0 then .inr (.abort 0x04 0)
        else if o + n > r.bytes.length || (st && !update) then .inr (.abort 0x06 0)
        else if st then go { r with bytes := patch r.bytes o (leBytes n (r.rx (wD w)).toNat) }.next
        else
          let x := leNat ((r.bytes.drop o).take n)
          go (r.wx (wD w) (BitVec.ofNat 64 (if nat then x else wrapN (sintN (8 * n) x) 64))).next
      | none =>
        match major with
        | 0x00 =>
          if w == haltWord then (if spent then .inr (.abort 0x16 0) else .inr (.halt (r.rx 10#5) r.bytes))
          else .inr (.abort 0x0E (wArg w).toNat)
        | 0x03 => go (r.wx (wD w) (r.rx (wA w) + (wImm w).signExtend 64)).next
        | 0x04 => go (r.wx (wD w) (BitVec.ofNat 64 (aluN (wFn w).toNat 64 (r.rx (wA w)).toNat (r.rx (wB w)).toNat))).next
        | 0x20 =>
          let n := r.rx (wD w)
          let stop := r.pc + (wImm w).toInt
          go { r with lbeg := r.pc + 1, lend := stop, lc := n, armed := n != 0, pc := if n == 0 then stop + 1 else r.pc + 1 }
        | _ => go (if branchTaken major (r.rx (wD w)) (r.rx (wA w)) then r.branch (r.pc + (wImm w).toInt) else r.next)

/-- Run a method to its end: at most 4,097 steps are looked at. -/
def MRun.run (update : Bool) (code : List (BitVec 32)) : (fuel : Nat) → MRun → MEnd
  | 0, _ => .abort 0x16 0
  | n + 1, r =>
    match r.step update code with
    | .inl r => r.run update code n
    | .inr e => e

/-- A method at its entry (R324). -/
def MRun.start (entry : Nat) (args : List Word) (bytes : List Byte) : MRun where
  x := Vector.ofFn (fun k => if 10 ≤ k.val && k.val ≤ 15 then args.getD (k.val - 10) 0 else 0)
  pc := entry
  lc := 0
  lbeg := 0
  lend := 0
  armed := false
  bytes := bytes
  steps := 0

/-- What a call returns: result, status, cause, immediate (R205, R325). -/
abbrev CallEnd := Word × Nat × Nat × Nat

def callOk : Nat := 0
def callTrapped : Nat := 1
def callLogFull : Nat := 2
def callBadMethod : Nat := 3
def callBadKind : Nat := 4
def callBadObj : Nat := 5

/-- Run method n of an object on some state bytes: its outcome and the bytes after it (R326). -/
def Robj.runMethod (o : Robj) (n : Nat) (args : List Word) (bytes : List Byte) : CallEnd × List Byte :=
  let m := o.methods.getD n (false, 0)
  match (MRun.start m.2 args bytes).run m.1 o.code 4097 with
  | .halt x bs => ((x, callOk, 0, 0), if m.1 then bs else bytes)
  | .abort cause imm => ((0, callTrapped, cause, imm), bytes)

/-! ## Objects of the hub -/

def Robj.isUpdate (o : Robj) (n : Nat) : Bool := (o.methods.getD n (false, 0)).1

/-- The handle of an object (R322). -/
def Robj.handle (o : Robj) : Word := BitVec.ofNat 64 (o.ctx.toNat % 2 ^ 32 * 2 ^ 32 + o.gen % 2 ^ 16 * 2 ^ 16 + o.slot)

def State.objSlot (s : State) (slot : Nat) : Option Robj := s.hub.objects.find? (fun o => o.slot == slot)

/-- The object a handle names for calls of a context; one being deregistered takes none (R322, R323). -/
def State.objFor (s : State) (ctx handle : Word) : Option Robj :=
  s.hub.objects.find? (fun o => o.handle == handle && o.ctx == ctx && !o.leaving)

def State.putObj (s : State) (o : Robj) : State :=
  { s with hub := { s.hub with objects := s.hub.objects.map (fun x => if x.slot == o.slot then o else x) } }

def reg4 (n : Nat) : Fin 4 := ⟨n % 4, Nat.mod_lt _ (by decide)⟩

def Robj.replica (o : Robj) (die : Nat) : Replica := o.replicas[reg4 die]
def Robj.setReplica (o : Robj) (die : Nat) (r : Replica) : Robj := { o with replicas := o.replicas.set (reg4 die) r }

/-! ### The bytes of the log (R327) -/

/-- The 64 bytes of an entry. -/
def entryBytes (p die : Nat) (ro : Bool) (n : Nat) (args : List Word) : List Byte :=
  dwordBytes (BitVec.ofNat 64 p :: BitVec.ofNat 64 (die % 4 * 2 ^ 8 + b2n ro * 2 ^ 6 + n % 64) :: (List.range 6).map (fun j => args.getD j 0))

/-- The bytes of an entry, from a copy that passes its check. -/
def LogEntry.bytes (e : LogEntry) : List Byte := (e.copyA.or e.copyB).getD []

/-- Doubleword j of an entry. -/
def LogEntry.word (e : LogEntry) (j : Nat) : Nat := leNat ((e.bytes.drop (8 * j)).take 8)

/-- The caller's die, whether the method is read-only, the method, and the arguments. -/
def LogEntry.die (e : LogEntry) : Nat := e.word 1 / 2 ^ 8 % 4
def LogEntry.ro (e : LogEntry) : Bool := bitN (e.word 1) 6
def LogEntry.n (e : LogEntry) : Nat := e.word 1 % 64
def LogEntry.args (e : LogEntry) : List Word := (List.range 6).map (fun j => BitVec.ofNat 64 (e.word (2 + j)))

/-- Both copies of an entry pass their check, or neither does. -/
def LogEntry.whole (e : LogEntry) : Bool := e.copyA.isSome && e.copyB.isSome
def LogEntry.gone (e : LogEntry) : Bool := e.copyA.isNone && e.copyB.isNone

/-- The log's two copies are whole (R332): calls wait while one is being made again. -/
def Robj.logWhole (o : Robj) : Bool := o.log.all LogEntry.whole

/-- Both copies of the log are whole and lie on dies that are up. -/
def State.logReady (s : State) (o : Robj) : Bool := o.logWhole && !s.down.contains o.logDies.1 && !s.down.contains o.logDies.2

/-- A replica counts: it is not stale (R331). -/
def Robj.healthy (o : Robj) (die : Nat) : Bool := !(o.replica die).stale

/-- The log is full (R330). -/
def Robj.full (o : Robj) : Bool := o.log.length ≥ 2 ^ o.k

/-- Every healthy replica has applied position p. -/
def Robj.passed (o : Robj) (p : Nat) : Bool := (List.range 4).all (fun d => !o.healthy d || p ≤ (o.replica d).applied)

/-- Give the outcome of position p to the call that waits for it. -/
def Hart.deliver (slot p : Nat) (res : CallEnd) (h : Hart) : Hart :=
  match h.status with
  | .waiting (.call w sl q none) => if sl == slot && q == p then { h with status := .waiting (.call w sl q (some res)) } else h
  | _ => h

/-- Trim the entries every healthy replica has applied (R330); the result of one whose caller's replica is stale is handed
to its caller, who returns when the replica is rebuilt (R331). -/
def State.trim (s : State) (o : Robj) : State :=
  let gone := o.log.filter (fun e => o.passed e.p)
  let s := s.putObj { o with log := o.log.filter (fun e => !o.passed e.p) }
  gone.foldl (fun s e => match e.result with
    | some r => if o.healthy e.die then s else s.everyHart (Hart.deliver o.slot e.p r)
    | none => s) s

/-- A hart still waits for a read of the object, or for a result of it. -/
def Hart.readsObj (slot : Nat) (h : Hart) : Bool :=
  match h.status with
  | .waiting (.rread _ sl _) => sl == slot
  | _ => false

/-- Free an object being deregistered once the calls with positions have completed (R323). -/
def State.freeLeaving (s : State) (slot : Nat) : State :=
  match s.objSlot slot with
  | none => s
  | some o =>
    if !o.leaving || !o.log.isEmpty || s.harts.any (Hart.readsObj slot) || s.frames.any (fun f => f.hart.readsObj slot) then s else
    let os := s.hub.objects.filter (fun x => x.slot != slot)
    { s with hub := { s.hub with objects := os, robusy := os.any (fun x => x.leaving) } }

/-- Free every object being deregistered that no call needs any more: harts that waited for a read have ended or have been stopped. -/
def State.freeAllLeaving (s : State) : State := (s.hub.objects.filter (fun o => o.leaving)).foldl (fun s o => s.freeLeaving o.slot) s

/-- A call that can no longer run returns BADOBJ. -/
def Hart.loseCall (slot : Nat) (all : Bool) (h : Hart) : Hart :=
  let bad (w : BitVec 32) : Hart := { h with status := .waiting (.call w slot 0 (some (0, callBadObj, 0, 0))) }
  match h.status with
  | .waiting (.call w sl _ none) => if all && sl == slot then bad w else h
  | .waiting (.logFull w sl _) => if sl == slot then bad w else h
  | .waiting (.rread w sl _) => if all && sl == slot then bad w else h
  | _ => h

/-- An object is lost (R332). -/
def State.loseObject (s : State) (o : Robj) : State :=
  let os := s.hub.objects.filter (fun x => x.slot != o.slot)
  ((({ s with hub := { s.hub with objects := os, robusy := os.any (fun x => x.leaving) } } : State).everyHart
    (Hart.loseCall o.slot true)).logS "object lost" o.handle)

/-! ## Calls of a hart (R203 to R205) -/

/-- x10 to x15. -/
def Hart.callArgs (h : Hart) : List Word := (List.range 6).map (fun j => h.x[reg32 (10 + j)])

/-- The call returns: xd and `rstat` are written and the hart goes on (R203, R205). -/
def Hart.callReturn (h : Hart) (w : BitVec 32) (e : CallEnd) : Hart :=
  let h := { h with rstat := BitVec.ofNat 64 (e.2.1 + e.2.2.1 * 2 ^ 8 + e.2.2.2 * 2 ^ 16), status := .running }
  h.wx (wD w) (if e.2.1 == callOk then e.1 else 0)

/-- A call that returns at once with a status. -/
def callStatus (w : BitVec 32) (st : Nat) (s : State) : Flow := .done { s with cur := s.cur.callReturn w (0, st, 0, 0) }

/-- The entry of a call of method n from a die at the next position, in the ring slot of that position, written on the two dies of the log
(R327, R328). -/
def Robj.entry (o : Robj) (die n : Nat) (args : List Word) : LogEntry :=
  let bs := entryBytes (o.tail + 1) die (!o.isUpdate n) n args
  { p := o.tail + 1, slot := (o.tail + 1) % 2 ^ o.k, copyA := some bs, copyB := some bs, dies := o.logDies, result := none }

/-- Assign the next position to a call of method n from a die, and enter it in the log (R328). -/
def Robj.assign (o : Robj) (die n : Nat) (args : List Word) : Robj := { o with tail := o.tail + 1, log := o.log ++ [o.entry die n args] }

def waitFor (x : Wait) (s : State) : Flow := .stay { s with cur := { s.cur with status := .waiting x } }

/-- The hart waits for a position in an object's log. -/
def Hart.waitsLog (slot : Nat) (h : Hart) : Bool := match h.status with
  | .waiting (.logFull _ sl _) => sl == slot && !h.held
  | _ => false

/-- An RCALL of another hart to the object arrived before the current hart's and waits for a position (R328). -/
def State.calledBefore (s : State) (slot : Nat) : Bool := s.others.any (fun h => h.waitsLog slot && s.arrivedBefore h)

/-- RCALL (R203, R204, R328). -/
def rcallBody (w : BitVec 32) (o : Reg) (n : Nat) (s : State) : Flow :=
  match s.objFor s.cur.sctx (s.cur.rx o) with
  | none => callStatus w callBadObj s
  | some k =>
    if n ≥ k.methods.length then callStatus w callBadMethod s
    else if k.full || !s.logReady k || s.calledBefore k.slot then waitFor (.logFull w k.slot s.time) s.arrive
    else waitFor (.call w k.slot (k.tail + 1) none) (s.putObj (k.assign (dieOf s.cur.place) n s.cur.callArgs))

/-- A replica may run a read with tail T (R204, R329). -/
def Robj.canRead (o : Robj) (die tail : Nat) : Bool := o.healthy die && tail ≤ (o.replica die).applied

/-- Run the read-only method of an RREAD on the local replica. -/
def Robj.read (o : Robj) (die n : Nat) (args : List Word) : CallEnd := (o.runMethod n args (o.replica die).bytes).1

/-- The tail an RREAD of the current hart waits for: in replay the journalled position (R348, R350). -/
def State.readTail (s : State) (o : Robj) : Nat :=
  match s.journalNext jRead with
  | some q => q.toNat
  | none => o.tail

/-- Journal the position at which an RREAD runs (R348). -/
def State.noteRead (s : State) (o : Robj) : State := (s.journalled jRead (BitVec.ofNat 64 (o.replica (dieOf s.cur.place)).applied)).2

/-- The call of the current hart returns. -/
def State.returnWith (s : State) (w : BitVec 32) (e : CallEnd) : State := { s with cur := s.cur.callReturn w e }

/-- The entry that a die's replica of an object applies next. -/
def Robj.nextEntry (o : Robj) (die : Nat) : Option LogEntry := o.log.find? (fun e => e.p == (o.replica die).applied + 1)

/-- The hart waits for a read of the object on a die whose tail is applied there (R329). -/
def Hart.readsNow (o : Robj) (die : Nat) (h : Hart) : Bool := match h.status with
  | .waiting (.rread _ sl tail) => sl == o.slot && dieOf h.place == die && !h.held && o.canRead die tail
  | _ => false

/-- The replay engine of a die may run a method of an object. -/
def State.engineUp (s : State) (die : Nat) (o : Robj) : Bool := die < 4 && o.healthy die && !s.down.contains die && s.logReady o

/-- The replay engine of a die may apply the next entry of an object: every read whose tail is applied there comes first (R329). -/
def State.mayApply (s : State) (die : Nat) (o : Robj) : Bool :=
  s.engineUp die o && (o.nextEntry die).isSome && !s.harts.any (Hart.readsNow o die)

/-- The replay engine of a die has work for an object: a read whose tail is applied there, or an entry to apply (R329). -/
def State.engineWork (s : State) (die : Nat) (o : Robj) : Bool :=
  s.engineUp die o && ((o.nextEntry die).isSome || s.harts.any (Hart.readsNow o die))

/-- Slots of the objects that the replay engine of a die has work for. -/
def State.engineReady (s : State) (die : Nat) : List Nat := (s.hub.objects.filter (s.engineWork die)).map (fun o => o.slot)

/-- Of some slots, the one whose turn it is at the engine of a die: the next after the last one's (R329). -/
def State.turnAmong (s : State) (die : Nat) (ready : List Nat) : Option Nat :=
  let last := s.hub.roturn[reg4 die]
  let least (xs : List Nat) : Option Nat := xs.foldl (fun m x => match m with | some y => some (min x y) | none => some x) none
  (least (ready.filter (fun n => last < n))).or (least ready)

/-- The object whose turn it is at the engine of a die: in it the engine runs the object's reads and then its next entry (R329). -/
def State.engineTurn (s : State) (die : Nat) : Option Nat := s.turnAmong die (s.engineReady die)

/-- An object's turn at the engine of a die is over. -/
def State.passEngine (s : State) (die slot : Nat) : State := s.setHub { s.hub with roturn := s.hub.roturn.set (reg4 die) slot }

/-- A read of an object has run: the turn is over when nothing is left to run for it. -/
def State.readRan (s : State) (die : Nat) (o : Robj) : State := if s.engineWork die o then s else s.passEngine die o.slot

/-- RREAD (R203, R204): the replay engine runs it at once when its turn has come (R329). -/
def rreadBody (w : BitVec 32) (o : Reg) (n : Nat) (s : State) : Flow :=
  match s.objFor s.cur.sctx (s.cur.rx o) with
  | none => callStatus w callBadObj s
  | some k =>
    let die := dieOf s.cur.place
    if n ≥ k.methods.length then callStatus w callBadMethod s
    else if k.isUpdate n then callStatus w callBadKind s
    else
      let tail := s.readTail k
      if k.canRead die tail && s.engineUp die k && s.turnAmong die (k.slot :: s.engineReady die) == some k.slot
      then .done (((s.noteRead k).returnWith w (k.read die n s.cur.callArgs)).readRan die k)
      else waitFor (.rread w k.slot tail) s

/-- RCALL (R204). -/
def execRcall (d o : Reg) (n : BitVec 6) (s : State) : Host.Outcome State Fault Refusal :=
  perform (rcallWord d o n) s (rcallBody (rcallWord d o n) o n.toNat)

/-- RREAD (R204). -/
def execRread (d o : Reg) (n : BitVec 6) (s : State) : Host.Outcome State Fault Refusal :=
  perform (rreadWord d o n) s (rreadBody (rreadWord d o n) o n.toNat)

/-- Let waiting hart `h` act, when it is bound and not held. -/
def State.onWaiting (s : State) (h : Nat) (f : Wait → State → State) : State :=
  let s := s.focus h
  if s.cur.place != h || s.cur.held then s else
  match s.cur.status with
  | .waiting x => f x s
  | _ => s

/-- The waiting call of the current hart returns. -/
def State.returnCall (s : State) (w : BitVec 32) (e : CallEnd) : State := { s with cur := (s.cur.callReturn w e).advance }

/-- CALL_RETURN (R204): the caller's die has applied the call's position, and its replica is not stale (R331). -/
def execCallReturn (h : Nat) (s : State) : Host.Outcome State Fault Refusal :=
  .next (s.onWaiting h (fun x s => match x with
    | .call w slot _ (some e) =>
      (match s.objSlot slot with
       | some o => if o.healthy (dieOf h) || e.2.1 == callBadObj then s.returnCall w e else s
       | none => s.returnCall w e)
    | _ => s))

/-- RREAD_RUN (R204, R329): the waiting RREAD runs once its tail is applied here, in its object's turn. -/
def execRreadRun (h : Nat) (s : State) : Host.Outcome State Fault Refusal :=
  .next (s.onWaiting h (fun x s => match x with
    | .rread w slot tail =>
      (match s.objSlot slot with
       | some o =>
         let die := dieOf h
         if o.canRead die tail && s.engineTurn die == some slot
         then (((s.noteRead o).returnCall w (o.read die (w.toNat % 64) s.cur.callArgs)).readRan die o).freeLeaving slot else s
       | none => s.returnCall w (0, callBadObj, 0, 0))
    | _ => s))

/-- LOGFULL_TIMEOUT (R330): the wait has lasted the object's rtimeout. -/
def execLogfullTimeout (h : Nat) (s : State) : Host.Outcome State Fault Refusal :=
  .next (s.onWaiting h (fun x s => match x with
    | .logFull w slot since =>
      (match s.objSlot slot with
       | some o =>
         if o.full && o.rtimeout != 0 && since + 1000 * o.rtimeout ≤ s.time then s.returnCall w (0, callLogFull, 0, 0) else s
       | none => s.returnCall w (0, callBadObj, 0, 0))
    | _ => s))

/-! ## The sequencer and the replay engines (R328 to R332) -/

/-- The hart waits without a position for this call. -/
def Hart.asks (slot die n : Nat) (args : List Word) (h : Hart) : Bool :=
  match h.status with
  | .waiting (.logFull w sl _) => sl == slot && dieOf h.place == die && w.toNat % 64 == n && h.callArgs == args && !h.held
  | _ => false

/-- LOG_POSITION_ASSIGN (R328, R330): the call that has waited longest for a position of the object takes the next one. -/
def execLogPositionAssign (obj die n : Nat) (args : List Word) (s : State) : Host.Outcome State Fault Refusal :=
  .next (match s.objSlot obj, firstArrived (s.harts.filter (Hart.waitsLog obj)) with
    | some o, some h =>
      if o.full || o.leaving || !s.logReady o || !h.asks obj die n args then s else
      let s := (s.putObj (o.assign die n args)).focus h.place
      (match s.cur.status with
       | .waiting (.logFull w _ _) => { s with cur := { s.cur with status := .waiting (.call w obj (o.tail + 1) none), arrived := none } }
       | _ => s)
    | _, _ => s)

/-- Apply entry e on a die's replica.  The result of a read-only run is a function of the state at its position (R326), so the
one kept with the entry is the one a run on any replica gives there (R328, R331). -/
def Robj.applyEntry (o : Robj) (die : Nat) (e : LogEntry) : CallEnd × Robj :=
  let r := o.replica die
  let (res, bs) := o.runMethod e.n e.args r.bytes
  (res, o.setReplica die { r with bytes := if e.ro then r.bytes else bs, applied := e.p })

/-- Keep a result with its entry. -/
def keepResult (p : Nat) (r : CallEnd) (e : LogEntry) : LogEntry := if e.p == p then { e with result := some r } else e

/-- REPLAY_APPLY_ENTRY (R328, R329): a die's replay engine, which turns between its objects, applies the next entry of one. -/
def execReplayApplyEntry (obj die : Nat) (s : State) : Host.Outcome State Fault Refusal :=
  .next (match s.objSlot obj with
    | none => s
    | some o =>
      if !s.mayApply die o || s.engineTurn die != some obj then s else
      match o.nextEntry die with
      | none => s
      | some e =>
        let (r, o) := o.applyEntry die e
        let s := s.passEngine die obj
        let s := if e.die == die then s.everyHart (Hart.deliver obj e.p r) else s
        (s.trim { o with log := o.log.map (keepResult e.p r) }).freeLeaving obj)

/-- The lowest-numbered die with a healthy replica. -/
def Robj.lowest (o : Robj) : Option Nat := (List.range 4).find? (fun d => o.healthy d)

/-- Results a rebuilt die's waiting calls at or below position q take: those kept with their entries (R331). -/
def Hart.rebuilt (o : Robj) (die q : Nat) (h : Hart) : Hart :=
  match h.status with
  | .waiting (.call w sl p none) =>
    if sl != o.slot || dieOf h.place != die || p > q then h
    else { h with status := .waiting (.call w sl p ((o.log.find? (fun e => e.p == p)).bind (fun e => e.result))) }
  | _ => h

/-- A die's replica becomes stale. -/
def Robj.strike (o : Robj) (die : Nat) : Robj := o.setReplica die { o.replica die with stale := true }

/-- REPLICA_REBUILD (R331): a stale replica of a die that is up becomes a copy of the lowest healthy one; one that was healthy has
been struck by an uncorrectable error, and an object whose every replica is stale is lost (R332). -/
def execReplicaRebuild (obj die : Nat) (s : State) : Host.Outcome State Fault Refusal :=
  .next (match s.objSlot obj with
    | none => s
    | some o =>
      if die ≥ 4 || s.down.contains die then s else
      match (o.strike die).lowest with
      | none => s.loseObject o
      | some src =>
        let r := o.replica src
        let o := o.setReplica die r
        ((s.everyHart (Hart.rebuilt o die r.applied)).trim o).freeLeaving obj)

/-- Write an entry's first or second copy anew on a die, from the other one, where it failed its check (R332). -/
def LogEntry.repair (first : Bool) (die : Nat) (e : LogEntry) : LogEntry :=
  if first then (if e.copyA.isSome then e else { e with copyA := e.copyB, dies := (die, e.dies.2) })
  else if e.copyB.isSome then e else { e with copyB := e.copyA, dies := (e.dies.1, die) }

/-- LOG_COPY_REPAIR (R332): the entries whose copy 0 or 1 failed its check or was lost are written anew from the other one, in the HBM of a
third die; an object with an entry both of whose copies failed is lost.  The log moves to that die when its own is being reset. -/
def execLogCopyRepair (obj copy die : Nat) (s : State) : Host.Outcome State Fault Refusal :=
  .next (match s.objSlot obj with
    | none => s
    | some o =>
      let first := copy == 0
      let (home, other) := if first then o.logDies else (o.logDies.2, o.logDies.1)
      let bad (e : LogEntry) : Bool := if first then e.copyA.isNone else e.copyB.isNone
      if die ≥ 4 || s.down.contains die || die == other || copy > 1 then s
      else if o.log.any LogEntry.gone then s.loseObject o
      else if o.log.any (fun e => bad e && (die == e.dies.1 || die == e.dies.2)) then s
      else
        let at_ := if s.down.contains home then die else home
        s.putObj { o with log := o.log.map (LogEntry.repair first die), logDies := if first then (at_, other) else (other, at_) })

/-! ## Registration (R320 to R323) -/

/-- One of two ports holds a semaphore (R357). -/
def State.holds (s : State) (port n : Nat) : Bool := s.hub.sems.toList.getD n none == some port

/-- The fields of a descriptor's first three doublewords are in range (R320). -/
def robjFieldsOk (d0 d2 : Nat) (code : Nat) : Bool :=
  let nm := d0 / 2 ^ 32 % 2 ^ 8
  let size := d0 % 2 ^ 21
  let words := d2 % 2 ^ 16
  d0 / 2 ^ 40 == 0 && d0 / 2 ^ 21 % 2 ^ 11 == 0 && 1 ≤ nm && nm ≤ 64 && 8 ≤ size && size ≤ 2 ^ 20 && size % 8 == 0 &&
  d2 / 2 ^ 16 == 0 && 1 ≤ words && words ≤ 16384 && code % 4 == 0

/-- A method entry is in range. -/
def robjMethodOk (words m : Nat) : Bool := m / 2 ^ 16 == 0 && !bitN m 14 && m % 2 ^ 14 < words

/-- Read and check a descriptor and its code (R322): size, code words and methods. -/
def State.readRobj (s : State) (sptb a : Word) : Except Got (Nat × List (BitVec 32) × List (Bool × Nat)) × State :=
  match s.hubReads sptb 8 3 a with
  | (.error g, s) => (.error g, s)
  | (.ok ds, s) =>
    let d0 := ds.getD 0 0
    let code := ds.getD 1 0
    let d2 := ds.getD 2 0
    if !robjFieldsOk d0 d2 code then (.error .bad, s) else
    match s.hubReads sptb 8 (d0 / 2 ^ 32 % 2 ^ 8) (a + 24) with
    | (.error g, s) => (.error g, s)
    | (.ok ms, s) =>
      match s.hubReads sptb 4 (d2 % 2 ^ 16) (BitVec.ofNat 64 code) with
      | (.error g, s) => (.error g, s)
      | (.ok ws, s) =>
        if ms.all (robjMethodOk (d2 % 2 ^ 16)) then
          (.ok (d0 % 2 ^ 21, ws.map (BitVec.ofNat 32), ms.map (fun m => (bitN m 15, m % 2 ^ 14))), s)
        else (.error .bad, s)

/-- A refused registration. -/
def State.refuseObject (s : State) (reason : Nat) : State := { s with hub := { s.hub with rorefused := true, roreason := reason } }

/-- The lowest slot with no object. -/
def State.freeObjSlot (s : State) : Option Nat := (List.range 4096).find? (fun n => (s.objSlot n).isNone)

/-- The two dies whose HBM holds a new log: the lowest that are up. -/
def State.newLogDies (s : State) : Nat × Nat :=
  let up := (List.range 4).filter (fun d => !s.down.contains d)
  (up.getD 0 0, up.getD 1 1)

/-- Bytes that an object takes of the supervisor's areas: its four replicas with the code, and the two copies of its log (R322, R327). -/
def objectBytes (size words k : Nat) : Nat := 4 * (size + 4 * words) + 2 * 64 * 2 ^ k

def Robj.areaBytes (o : Robj) : Nat := objectBytes o.size o.code.length o.k

/-- The supervisor's areas can hold another object (R322). -/
def State.areasHold (s : State) (bytes : Nat) : Bool := s.hub.roarea.all (fun n => (s.hub.objects.map Robj.areaBytes).sum + bytes ≤ n)

/-- Registration by descriptor address (R322); one that meets a held segment waits (R250). -/
def State.registerObject (s : State) (a : Word) : State :=
  let k := s.hub.roparm.toNat % 32
  match s.context s.hub.roctx with
  | none => s.refuseObject 1
  | some c =>
    match s.readRobj c.sptb a with
    | (.error .held, s) => s.setHub { s.hub with rowait := (true, a) :: s.hub.rowait }
    | (.error _, s) => s.refuseObject 1
    | (.ok (size, code, methods), s) =>
      if k < 4 || k > 16 then s.refuseObject 1
      else if !s.areasHold (objectBytes size code.length k) then s.refuseObject 2 else
      match s.freeObjSlot with
      | none => s.refuseObject 2
      | some slot =>
        let gen := (look 0 s.hub.gens slot + 1) % 2 ^ 16
        let r (die : Fin 4) : Replica := { bytes := List.replicate size 0, applied := 0, stale := s.down.contains die.val }
        let o : Robj :=
          { slot := slot, gen := gen, ctx := s.hub.roctx, size := size, code := code, methods := methods,
            rtimeout := s.hub.roparm.toNat / 2 ^ 32, k := k, tail := 0, log := [], replicas := Vector.ofFn r,
            logDies := s.newLogDies, leaving := false }
        { s with hub := { s.hub with objects := s.hub.objects ++ [o], gens := put s.hub.gens slot gen, rorefused := false, roreason := 0,
                                     rohdl := o.handle } }

/-- Write ROREG; a write that comes while busy is 1 waits (R321, R364). -/
def State.writeRoreg (s : State) (port : Nat) (addr : Word) : State :=
  if !s.holds port 0 || !s.hub.booted then s.logS "ROREG discarded" addr
  else if s.hub.robusy || !s.hub.rowait.isEmpty then s.setHub { s.hub with rowait := s.hub.rowait ++ [(true, addr)] }
  else s.registerObject addr

/-- OBJECT_REGISTER (R321, R322, R369). -/
def execObjectRegister (port : Nat) (addr : Word) (s : State) : Host.Outcome State Fault Refusal := .next (s.wakeUp.writeRoreg port addr)

/-- Begin a deregistration (R323): calls without a position return BADOBJ. -/
def State.deregister (s : State) (o : Robj) : State :=
  (((s.putObj { o with leaving := true }).everyHart (Hart.loseCall o.slot false)).setHub
    { (s.putObj { o with leaving := true }).hub with robusy := true }).freeLeaving o.slot

/-- Deregistration by handle (R323). -/
def State.deregisterHandle (s : State) (handle : Word) : State :=
  match s.hub.objects.find? (fun o => o.handle == handle) with
  | some o => s.deregister o
  | none => s.logS "RODEREG handle" handle

/-- Write RODEREG; a write that comes while busy is 1 waits (R321, R323). -/
def State.writeRodereg (s : State) (port : Nat) (handle : Word) : State :=
  if !s.holds port 0 || !s.hub.booted then s.logS "RODEREG discarded" handle
  else if s.hub.robusy || !s.hub.rowait.isEmpty then s.setHub { s.hub with rowait := s.hub.rowait ++ [(false, handle)] }
  else s.deregisterHandle handle

/-- The oldest registration or deregistration that waits is made (R321). -/
def State.objectsGo (s : State) : State :=
  if s.hub.robusy then s else
  match s.hub.rowait with
  | [] => s
  | (reg, x) :: t =>
    let s := s.setHub { s.hub with rowait := t }
    if reg then s.registerObject x else s.deregisterHandle x

/-- OBJECT_DEREGISTER (R321, R323). -/
def execObjectDeregister (port : Nat) (handle : Word) (s : State) : Host.Outcome State Fault Refusal := .next (s.wakeUp.writeRodereg port handle)

end Sys2Proof.Machine
end

