-- ==== Sys2Proof/Machine/Launches.lean ====
section
/-!
DEFINITION. Launch records and queues (R295 to R303), the event counters (R213), launches from a hart and their waits (R206,
R207), and the host launch queues (R301).
-/

namespace Sys2Proof.Machine

/-! ## The loop-nest record (R295 to R299) -/

/-- Iterations of one dimension (R296). -/
def dimCount (d : Int × Int × Int) : Nat :=
  let (start, bound, step) := d
  if step > 0 then (max 0 (-((start - bound) / step))).toNat
  else (max 0 (-((bound - start) / -step))).toNat

/-- Dimension names, outermost first (R296). -/
def nestOrder (dims order : Nat) : List Nat := (List.range dims).map (fun p => if order == 0 then p else order / 4 ^ p % 4)

/-- The order field is zero or names a permutation of the dimensions and nothing else. -/
def orderOk (dims order : Nat) : Bool := order / 4 ^ dims == 0 && (List.range dims).all (fun d => (nestOrder dims order).contains d)

/-- Iterations of a launch. -/
def LaunchRec.total (r : LaunchRec) : Nat := r.dims.foldl (fun n d => n * dimCount d) 1

/-- Loop indices of an ordinal: the dimensions taken innermost first. -/
def indicesFrom (dims : List (Int × Int × Int)) : (inner : List Nat) → (o : Nat) → List (Nat × Int)
  | [], _ => []
  | d :: t, o =>
    let x := dims.getD d (0, 1, 1)
    (d, x.1 + (o % dimCount x : Nat) * x.2.2) :: indicesFrom dims t (o / dimCount x)

/-- i0 to i3 of an ordinal (R296, R19). -/
def LaunchRec.indices (r : LaunchRec) (o : Nat) : List Int :=
  let xs := indicesFrom r.dims (nestOrder r.dims.length r.order).reverse o
  (List.range 4).map (fun d => ((xs.find? (fun x => x.1 == d)).map (fun x => x.2)).getD 0)

/-- The lane cap of a lanes code (R295). -/
def lanesOfCode (c : Nat) : Nat := if c == 0 then 16 else 2 ^ (c - 1)

/-- Segments that hold a byte of a region. -/
def LRegion.segs (r : LRegion) : List Nat := if r.size == 0 then [] else
  (List.range ((r.off + r.size - 1) / 4096 - r.off / 4096 + 1)).map (fun k => r.off / 4096 + k)

/-- Segments of some regions, each once. -/
def regionSegs (rs : List LRegion) : List Nat := (rs.flatMap LRegion.segs).dedup

/-- Segments of a stack (R297). -/
def stackSegs (bytes : Nat) : Nat := (bytes + 4095) / 4096

/-- Two regions of the list overlap. -/
def regionsMeet : List LRegion → Bool
  | [] => false
  | r :: t => t.any (fun x => rangesMeet (r.off, r.off + r.size) (x.off, x.off + x.size)) || regionsMeet t

/-- The region of doubleword 32 + j. -/
def regionOf (b : List Word) (j : Nat) : LRegion :=
  { off := blockBits b (32 + j) 0 21, size := blockBits b (32 + j) 21 22, num := j, disc := blockBits b (32 + j) 63 1 == 1 }

/-- The record of 48 doublewords (R295). -/
def launchRecOf (b : List Word) : LaunchRec where
  cocoon := blockBits b 0 50 1 == 1
  record := blockBits b 0 49 1 == 1
  restart := blockBits b 0 48 1 == 1
  weight := blockBits b 0 28 4 + 1
  prio := blockBits b 0 24 3
  lanes := blockBits b 0 20 4
  stages := blockBits b 0 16 4
  order := blockBits b 0 8 8
  args := b.getD 1 0
  vlcap := blockBits b 2 48 13
  stack := blockBits b 2 0 15
  dims := (List.range (blockBits b 0 0 3)).map (fun d =>
    (sintN 32 (blockBits b (4 + 2 * d) 0 32), sintN 32 (blockBits b (4 + 2 * d) 32 32), sintN 32 (blockBits b (5 + 2 * d) 0 32)))
  entries := (List.range (blockBits b 0 16 4)).map (fun s => b.getD (12 + s) 0)
  waits := (List.range (blockBits b 0 40 3)).map (fun k => (blockBits b (20 + 2 * k) 0 12, b.getD (21 + 2 * k) 0))
  sigCtr := blockBits b 28 0 12
  sigVal := b.getD 29 0
  regions := (List.range (blockBits b 0 32 5)).map (regionOf b)

/-- Reserved fields are zero, the entries of unused dimensions, stages, waits and regions among them (R295). -/
def launchReservedOk (b : List Word) : Bool :=
  let z (k lo n : Nat) : Bool := blockBits b k lo n == 0
  let nd := blockBits b 0 0 3
  let ns := blockBits b 0 16 4
  let nw := blockBits b 0 40 3
  let nr := blockBits b 0 32 5
  z 0 51 13 && z 0 43 5 && z 0 37 3 && z 0 27 1 && z 0 3 5 && z 2 61 3 && z 2 15 33 && z 3 0 64 && z 30 0 64 && z 31 0 64 &&
  z 28 12 52 && (List.range 4).all (fun d => z (5 + 2 * d) 32 32 && (d < nd || (z (4 + 2 * d) 0 64 && z (5 + 2 * d) 0 64))) &&
  (List.range 8).all (fun s => s < ns || z (12 + s) 0 64) &&
  (List.range 4).all (fun k => z (20 + 2 * k) 12 52 && (k < nw || (z (20 + 2 * k) 0 64 && z (21 + 2 * k) 0 64))) &&
  (List.range 16).all (fun j => z (32 + j) 43 20 && (j < nr || z (32 + j) 0 64))

/-- The checks of R299 on the fields. -/
def LaunchRec.ok (r : LaunchRec) : Bool :=
  let nd := r.dims.length
  r.lanes ≤ 4 && 1 ≤ nd && nd ≤ 4 && orderOk nd r.order && r.dims.all (fun d => d.2.2 != 0) && r.total ≤ 2 ^ 40 &&
  1 ≤ r.stages && r.stages ≤ 8 && r.entries.all (fun e => e != 0 && e.toNat % 4 == 0) && r.waits.length ≤ 4 &&
  r.regions.length ≤ 16 && r.regions.all (fun x => x.size != 0 && x.off + x.size ≤ 2 ^ 21) && !regionsMeet r.regions &&
  (regionSegs r.regions).length + r.stages * stackSegs r.stack ≤ 512 &&
  (r.vlcap == 0 || [64, 128, 256, 512, 1024, 2048, 4096].contains r.vlcap) && r.stack % 16 == 0 && r.stack ≤ 16384

/-- The context has a cocoon that accepts COCOON launches (R367). -/
def State.cocoonRuns (s : State) (ctx : Word) : Bool := s.hub.cocoons.any (fun c => c.ctx == ctx && c.state == .run)

/-- The record of a submission of a context, none when it is BADREC (R299). -/
def State.checkRecord (s : State) (ctx : Word) (b : List Word) : Option LaunchRec :=
  let r := launchRecOf b
  if launchReservedOk b && r.ok && (!r.cocoon || s.cocoonRuns ctx) then some r else none

/-! ## Accepted launches (R300 to R302) -/

def reasonFull : Nat := 1
def reasonBadRec : Nat := 2

def State.launchAt (s : State) (q seq : Nat) : Option Launch := s.hub.launches.find? (fun l => l.queue == q && l.seq == seq)

def State.putLaunch (s : State) (l : Launch) : State :=
  { s with hub := { s.hub with launches := s.hub.launches.map (fun x => if x.queue == l.queue && x.seq == l.seq then l else x) } }

/-- Every iteration has been dispatched (R302). -/
def Launch.dispatched (l : Launch) : Bool := l.next ≥ l.lr.total && l.redo.isEmpty

/-- It holds an entry of its device queue until every iteration has been dispatched once (R206, R302). -/
def Launch.holdsEntry (l : Launch) : Bool := l.done.isNone && !l.stopped && l.next < l.lr.total

/-- The context's table root. -/
def State.sptbOf (s : State) (ctx : Word) : Word := match s.context ctx with | some c => c.sptb | none => 0

/-- The place of a launch of a queue that reaches a class's ring now: ties go in queue-number order, the device queue last (R304). -/
def State.ringPlace (s : State) (queue : Nat) : Nat × Nat × Nat := (s.time, queue, 0)

/-- Its places in the rings of the four dies. -/
def State.ringJoin (s : State) (queue : Nat) : Vector (Nat × Nat × Nat) 4 := Vector.replicate 4 (s.ringPlace queue)

/-- The block that serves a context records a launch of it, or replays it (R347, R348, R350). -/
def State.record (s : State) (ctx : Word) (q seq : Nat) : State :=
  match s.blockOf ctx with
  | none => s
  | some (n, d) =>
    let mine (k : Nat) : Bool := k / 2 ^ 16 == n + 64 * d.recs.length
    (s.setHub { s.hub with ports := s.hub.ports.map (fun p => if mine p.1 then (p.1, { p.2 with lastAt := s.sevenths }) else p) }).setDebug n
      { d with recs := d.recs ++ [(q, seq)] }

/-- A replica as at reset. -/
def QReplica.blank : QReplica := { applied := (0, 0), launches := [] }

/-- The replayed object of a launch queue; one that has had no update is as at reset, its log in the HBM of the two lowest dies that are
up (R335). -/
def State.queueLog (s : State) (q : Nat) : QueueLog :=
  let up := (List.range 4).filter (fun d => !s.down.contains d)
  (s.hub.qlogs.find? (fun x => x.queue == q)).getD
    { queue := q, tail := (0, 0), entries := [], replicas := Vector.replicate 4 (some QReplica.blank), copies := (up.getD 0 0, up.getD 1 1) }

def setLog : List QueueLog → QueueLog → List QueueLog
  | [], x => [x]
  | y :: t, x => if y.queue == x.queue then x :: t else y :: setLog t x

def State.setQueueLog (s : State) (x : QueueLog) : State := s.setHub { s.hub with qlogs := setLog s.hub.qlogs x }

/-- The position of a queue's next update. -/
def QueueLog.after (x : QueueLog) : QUpdate → Nat × Nat
  | .accept seq => (seq, 0)
  | _ => (x.tail.1, x.tail.2 + 1)

/-- Enter an update of a queue at the end of its log (R300, R335). -/
def State.enter (s : State) (q : Nat) (u : QUpdate) : State :=
  let x := s.queueLog q
  s.setQueueLog { x with tail := x.after u, entries := x.entries ++ [(x.after u, u)] }

/-- One position comes after another. -/
def beyond (p a : Nat × Nat) : Bool := a.1 < p.1 || (a.1 == p.1 && a.2 < p.2)

/-- An iteration has been taken: it was dispatched, and is not to run again. -/
def QLaunch.taken (l : QLaunch) (ord : Nat) : Bool := ord < l.next && !l.redo.contains ord

/-- A dispatch of an iteration; one that finds it taken dispatches nothing (R335). -/
def QLaunch.dispatch (l : QLaunch) (ord : Nat) : QLaunch :=
  if l.redo.contains ord then { l with redo := l.redo.erase ord } else if ord == l.next then { l with next := ord + 1 } else l

/-- The ordinal that a walker which decides from a replica dispatches next. -/
def QLaunch.nextOrd (l : QLaunch) : Nat := l.redo.headD l.next

/-- Change a launch of a replica. -/
def QReplica.change (r : QReplica) (seq : Nat) (f : QLaunch → QLaunch) : QReplica :=
  { r with launches := r.launches.map (fun l => if l.seq == seq then f l else l) }

/-- A replica applies an update (R335). -/
def QReplica.apply (r : QReplica) (p : Nat × Nat) (u : QUpdate) : QReplica :=
  let t : QReplica := match u with
     | .accept seq => { r with launches := r.launches ++ [{ seq := seq, next := 0, redo := [], halted := 0, cut := [] }] }
     | .dispatch seq ord _ => r.change seq (fun l => l.dispatch ord)
     | .halted seq _ => r.change seq (fun l => { l with halted := l.halted + 1 })
     | .cut seq ord again => r.change seq (fun l => if again then { l with redo := l.redo ++ [ord] } else { l with cut := l.cut ++ [ord] })
     | .complete seq => { r with launches := r.launches.filter (fun l => l.seq != seq) }
  { t with applied := p }

/-- Entries that every healthy replica has applied are trimmed (R330). -/
def QueueLog.trim (x : QueueLog) : QueueLog :=
  if x.replicas.toList.all Option.isNone then x else
  { x with entries := x.entries.filter (fun e => x.replicas.toList.any (fun r => r.any (fun r => beyond e.1 r.applied))) }

/-- A die's replica of a queue after some of the entries it has not applied. -/
def QueueLog.applyOn (x : QueueLog) (die : Nat) (n : Nat) : QueueLog := match x.replicas[reg4 die] with
  | some r =>
    let r := ((x.entries.filter (fun e => beyond e.1 r.applied)).take n).foldl (fun r e => r.apply e.1 e.2) r
    ({ x with replicas := x.replicas.set (reg4 die) (some r) } : QueueLog).trim
  | none => x

/-- A stale replica becomes a copy of the lowest-numbered healthy one; where none is, it is made from the log (R331). -/
def QueueLog.rebuild (x : QueueLog) (die : Nat) : QueueLog :=
  { x with replicas := x.replicas.set (reg4 die) (some (((List.range 4).findSome? (fun d => x.replicas[reg4 d])).getD
      (x.entries.foldl (fun r e => r.apply e.1 e.2) QReplica.blank))) }

/-- A die's replica of a queue applies its next entry, or a stale one is rebuilt (R331, R335). -/
def QueueLog.next (x : QueueLog) (die : Nat) : QueueLog := if x.replicas[reg4 die].isNone then (x.rebuild die).trim else x.applyOn die 1

/-- The replica of a die goes on, while the die is up. -/
def State.replicaGo (s : State) (q die : Nat) : State :=
  if die ≥ 4 || s.down.contains die then s else s.setQueueLog ((s.queueLog q).next die)

/-- The replica of a die applies every entry before the position of its walker's dispatch (R335). -/
def QueueLog.catchUp (x : QueueLog) (die : Nat) : QueueLog :=
  let x := if x.replicas[reg4 die].isNone then x.rebuild die else x
  x.applyOn die x.entries.length

/-- The walker of a die dispatches an iteration from its own replica (R335). -/
def State.enterDispatch (s : State) (q seq ord die : Nat) : State :=
  (s.setQueueLog ((s.queueLog q).catchUp die)).enter q (.dispatch seq ord die)

/-- The walker of a die reaches, from its replica as it stands, for an iteration that an earlier entry has taken: its dispatch is entered
and dispatches nothing (R335). -/
def State.reachFor (s : State) (q seq die : Nat) : State :=
  let x := s.queueLog q
  let all := x.entries.foldl (fun (r : QReplica) e => if beyond e.1 r.applied then r.apply e.1 e.2 else r)
  if die ≥ 4 || s.down.contains die then s else
  match x.replicas[reg4 die] with
  | none => s
  | some r =>
    match r.launches.find? (fun l => l.seq == seq), (all r).launches.find? (fun l => l.seq == seq) with
    | some l, some m => if m.taken l.nextOrd then s.enter q (.dispatch seq l.nextOrd die) else s
    | _, _ => s

/-- A die's replica of a queue becomes stale (R331). -/
def QueueLog.strike (x : QueueLog) (die : Nat) : QueueLog := ({ x with replicas := x.replicas.set (reg4 die) none } : QueueLog).trim

/-- A die's replica of a queue becomes stale, and a copy of the log that its HBM held is made again on another die (R331, R332). -/
def QueueLog.loseDie (up : List Nat) (die : Nat) (x : QueueLog) : QueueLog :=
  let (a, b) := x.copies
  let other (k : Nat) : Nat := (up.find? (fun d => d != k)).getD die
  { x.strike die with copies := (if a == die then other b else a, if b == die then other a else b) }

def Context.counter (c : Context) (n : Nat) : Word := look 0 c.counters n

def State.counter (s : State) (ctx : Word) (n : Nat) : Word := match s.context ctx with | some c => c.counter n | none => 0

/-- Every wait condition of a launch holds (R303). -/
def State.waitsHold (s : State) (l : Launch) : Bool := l.lr.waits.all (fun w => w.2 ≤ s.counter l.ctx w.1)

/-- Accept a record into a queue (R300), eligible at once when its wait conditions hold (R303): host queues 0 to 63, device queue of die d 64 + d.  The ports' digests of a recorded launch
begin at 0 (R347), and in a replay the time its first messages are waited for begins (R351). -/
def State.acceptLaunch (s : State) (q : Nat) (addr ctx sptb : Word) (r : LaunchRec) (reserved : Option Nat) : Nat × State :=
  let seq := if q < 64 then (s.hostQueue q).seq + 1 else s.hub.devSeq[reg4 (q - 64)] + 1
  let l : Launch :=
    { queue := q, seq := seq, addr := addr, ctx := ctx, sptb := sptb, lr := r, eligible := false, next := 0, redo := [], halted := 0,
      cut := [], stopped := false, done := none, reserved := reserved, since := s.time, boost := 0, ring := s.ringJoin q, heldAt := none }
  let s := if q < 64 then s.setHostQueue q { s.hostQueue q with seq := seq }
    else s.setHub { s.hub with devSeq := s.hub.devSeq.set (reg4 (q - 64)) seq }
  let l := { l with eligible := s.waitsHold l }
  let s := (if r.record then s.record ctx q seq else s).enter q (.accept seq)
  (seq, { s with hub := { s.hub with launches := s.hub.launches ++ [l], power := .active, idleSince := s.sevenths } })

/-- The handle of a launch of a device queue (R206). -/
def launchHandle (die seq : Nat) : Word := BitVec.ofNat 64 (die * 2 ^ 61 + seq % 2 ^ 61)

/-- The launch of a context that a handle names (R207). -/
def State.launchOf (s : State) (ctx handle : Word) : Option Launch :=
  s.hub.launches.find? (fun l => l.ctx == ctx && 64 ≤ l.queue && launchHandle (l.queue - 64) l.seq == handle)

/-! ## Event counters (R213) -/

/-- A launch becomes eligible: its waiting time begins, and it reaches the rings (R303, R304). -/
def State.makeEligible (s : State) (l : Launch) : Launch := { l with eligible := true, since := s.time, boost := 0, ring := s.ringJoin l.queue }

/-- The walker reads the counters of a context: its launches whose wait conditions hold are eligible from now on (R303). -/
def State.readCounters (s : State) (ctx : Word) : State :=
  s.setHub { s.hub with launches := s.hub.launches.map (fun l =>
    if l.ctx == ctx && !l.eligible && !l.stopped && s.waitsHold l then s.makeEligible l else l) }

/-- Set a counter of a context. -/
def State.setCounter (s : State) (ctx : Word) (n : Nat) (x : Word) : State :=
  match s.context ctx with
  | some c => s.putContext { c with counters := put c.counters n x }
  | none => s.putContext { ctx := ctx, sptb := s.cur.sptb, cocoon := 0, counters := [(n, x)] }

/-- Add to a counter of a context, modulo 2^64; the walker reads the counters after it (R213, R303). -/
def State.addCounter (s : State) (ctx : Word) (n : Nat) (x : Word) : State :=
  (s.setCounter ctx n (s.counter ctx n + x)).readCounters ctx

/-- EVSET (R213): a release at DEV scope. -/
def evsetBody (a b : Reg) (s : State) : Flow :=
  let n := (s.cur.rx a).toNat
  if n ≥ 4096 then illegal s else
  match s.released 3 with
  | none => .stay (s.drainTo 3 heldStream).waitCommands
  | some s => .done (s.addCounter s.cur.sctx n (s.cur.rx b))

/-- EVWAIT (R213). -/
def evwaitBody (w : BitVec 32) (a b : Reg) (s : State) : Flow :=
  let n := (s.cur.rx a).toNat
  if n ≥ 4096 then illegal s
  else if s.cur.rx b ≤ s.counter s.cur.sctx n then .done s else waitAgain w s

/-- EVSET (R213). -/
def execEvset (a b : Reg) (s : State) : Host.Outcome State Fault Refusal := perform (evsetWord a b) s (evsetBody a b)

/-- EVWAIT (R213). -/
def execEvwait (a b : Reg) (s : State) : Host.Outcome State Fault Refusal := perform (evwaitWord a b) s (evwaitBody (evwaitWord a b) a b)

/-- EVWAIT_WAKE (R213). -/
def execEvwaitWake (h : Nat) (s : State) : Host.Outcome State Fault Refusal :=
  .next (s.wake h (isWord 0x3B 3 2048) (fun w => evwaitBody w (wA w) (wB w)))

/-! ## Frames of harts that give their slot up -/

/-- Rename the owner of commands. -/
def renameOwner (from_ to_ : Nat) (c : Cmd) : Cmd := if c.owner == from_ then { c with owner := to_ } else c

def renameNmuOwner (from_ to_ : Nat) (c : NmuCmd) : NmuCmd := if c.owner == from_ then { c with owner := to_ } else c

def Nmu.renameOwner (from_ to_ : Nat) (n : Nmu) : Nmu :=
  { n with run := n.run.map (fun r => { r with cmd := renameNmuOwner from_ to_ r.cmd }), queue := n.queue.map (renameNmuOwner from_ to_) }

/-- Rename the owner of a hart's commands, and of its writes on their way. -/
def State.renameOwners (s : State) (cl from_ to_ : Nat) : State :=
  let s := s.setCluster cl { s.cluster cl with pool := (s.cluster cl).pool.map (renameOwner from_ to_) }
  { s with nmus := s.nmus.map (fun p => (p.1, p.2.renameOwner from_ to_)),
           net := s.net.map (fun p => if p.owner == from_ then { p with owner := to_ } else p) }

/-- Keep the elements of one register that a fold saves (R311): those below the saved vl, in 2D the granted positions. -/
def VCtx.saves (c : VCtx) (i : Nat) : Bool := if c.twoD then c.granted i else i < c.vl

/-- Elements i, i + 1, …, `n` of them, of a register, those not saved zero. -/
def keepElems (c : VCtx) (x : Nat) : (n i : Nat) → Nat
  | 0, _ => 0
  | n + 1, i => (if c.saves i then elemN x c.w i * 2 ^ (c.w * i) else 0) + keepElems c x n (i + 1)

/-- The largest vl among the configuration in force and those that wait in the VIQ (R311). -/
def Hart.savedVl (h : Hart) : Word :=
  h.viq.foldl (fun n e => match e with | .config vl _ _ _ _ => if n < vl then vl else n | .op _ _ => n) h.vl

/-- The registers a resumption will read: a dirty v register keeps its saved elements, any other the image it had; in lane
mode the registers hold the threads' state and stay whole (R311). -/
def Hart.savedRegs (h : Hart) : Vector (BitVec 4096) 32 :=
  let c := ({ h with vl := h.savedVl } : Hart).vctx false
  Vector.ofFn (fun k => if h.lane.isNone && h.dirty.getLsbD k.val then BitVec.ofNat 4096 (keepElems c (h.v[k]).toNat (h.regBits / c.w) 0) else h.v[k])

/-- The word at an address is a VSETL.R (R98, R314). -/
def isVsetlR (w : BitVec 32) : Bool := (wMajor w).toNat == 0x21 && !w.getLsbD 10 && w.getLsbD 9

/-- The word at the resumption address of a hart, as a fetch would find it. -/
def State.resumeWord (s : State) (h : Hart) : Option (BitVec 32) :=
  if !canonical h.pc || inLocal h.pc || inReserved h.pc || h.pc.toNat % 4 != 0 then none else
  match s.walk h.sptb h.pc .fetch with
  | .leaf _ bits frame _ _ _ => some (BitVec.ofNat 32 (leNat (Memory.getList s.mem (s.paKey (frame * 4096 + h.pc.toNat % 2 ^ bits)) 4)))
  | _ => none

/-- A queue register holds no queued element of a load target. -/
def QReg.emptyTarget : QReg → Bool
  | .target items => items.isEmpty
  | _ => true

/-- What a handler has set aside leaves the frame resizable: no entry, no prefix, no lane mode (R127, R314). -/
def Handler.resizable (k : Handler) : Bool := k.entry.isNone && k.viq.isEmpty && !pfxPending k.pfxs && k.lane.isNone

/-- The frame is resizable (R314). -/
def State.resizable (s : State) (h : Hart) : Bool :=
  h.reissue.isNone && h.viq.isEmpty && !pfxPending h.pfxs && h.lane.isNone && h.handler.all Handler.resizable && h.q.toList.all QReg.emptyTarget &&
  (match s.resumeWord h with | some w => isVsetlR w | none => false)

/-- A slot whose hart has left it: its registers stay as they are until the next bind clears them (R19; log 58). -/
def Hart.unbound (h : Hart) : Hart :=
  { h with status := .unbound, launch := none, local_ := [], stores := [], late := none, words := [], viq := [], reissue := none,
           ahead := none, pending := none, held := false, strikes := [], arrived := none, arrivedEp := none, sent := [], asked := none, handler := none, lane := none,
           regions := [], paged := [], noAnswer := none, passed := [] }

/-! ### The frame in memory (R311, R312) -/

/-- The lengths of the sections of a frame, in units of 64 bytes: in the header's seventh doubleword, eight bits each, those of the x
registers, the status registers, the VIQ, the scale latches, the stream bindings and the stage queues, and sixteen that of the lane threads;
in its eighth, sixteen bits each, those of the v registers, the VIQ-held q elements, the tiles and the load-target queues (R311; log 8). -/
def Hart.sections (grouped : Bool) (h : Hart) : List Word :=
  let units (n : Nat) : Nat := (n + 63) / 64
  let held (e : VEntry) : Nat := match e.held with | some hs => hs.length | none => 0
  let taken := (h.reissue.toList.map held).sum + (h.viq.map (fun i => match i with | .op _ e => held e | _ => 0)).sum
  let queued := (h.q.toList.map (fun q => match q with | .target items => items.length | _ => 0)).sum
  [BitVec.ofNat 64 (4 + 6 * 2 ^ 8 + 32 * 2 ^ 16 + 8 * 2 ^ 24 + 8 * 2 ^ 32 + (if grouped && h.stage == 0 then 128 else 0) * 2 ^ 40 +
     (if h.lane.isSome then 288 else 0) * 2 ^ 48),
   BitVec.ofNat 64 (popcN 32 h.dirty.toNat * 8 + units (8 * taken) * 2 ^ 16 + popcN 8 (h.dirty.toNat / 2 ^ 32) * 256 * 2 ^ 32 +
     units (8 * queued) * 2 ^ 48)]

/-- The doublewords of a frame that have a stated place: the header (its layout: log 8), the x registers, and the status registers by
their numbers (R311). -/
def Hart.frameWords (resizable cocoon grouped : Bool) (h : Hart) : List Word :=
  let flags := b2n h.lane.isSome + 2 * b2n resizable + 4 * b2n cocoon
  let call := match h.status with | .waiting (.call _ _ p _) => p | _ => 0
  let token : Word := match h.status with | .waiting (.sleep _ _ t) => t | _ => 0
  [h.ip, BitVec.ofNat 64 (h.lanes + h.lmap.toNat % 2 ^ 16 * 2 ^ 8 + h.vtype.toNat % 2 ^ 16 * 2 ^ 24 + flags * 2 ^ 40), h.dirty,
   BitVec.ofNat 64 call, 0, token] ++ h.sections grouped ++
  h.x.toList ++ (List.range 48).map (fun n => if (csrAccess n).isSome then h.readCsr n else 0)

/-- Set a status register to what its place in a frame holds. -/
def Hart.loadCsr (h : Hart) (n : Nat) (x : Word) : Hart :=
  match n with
  | 0x000 => { h with vl := x } | 0x001 => { h with vr := x } | 0x002 => { h with vtype := x } | 0x003 => { h with vlmax := x }
  | 0x008 => { h with sord := x } | 0x009 => { h with sva := x } | 0x00D => { h with pfxs := x } | 0x00E => { h with dirty := x }
  | 0x00F => { h with lmap := x } | 0x010 => { h with coord := x } | 0x011 => { h with stage := x } | 0x012 => { h with rstat := x }
  | 0x013 => { h with discf := x } | 0x015 => { h with tcause := x } | 0x016 => { h with tval := x } | 0x017 => { h with tpc := x }
  | 0x018 => { h with tqpos := x } | 0x01A => { h with vpad := x } | 0x020 => { h with lcuse := x } | 0x021 => { h with lcmask := x }
  | 0x022 => { h with lcbvl := x } | 0x023 => { h with lcdead := x } | 0x024 => { h with lcstall := x } | 0x025 => { h with lccyc := x }
  | _ => h.writeCsr n x

/-- Take doubleword k of a frame that was changed in memory. -/
def Hart.loadFrame (h : Hart) (k : Nat) (x : Word) : Hart :=
  if k == 0 then { h with sresume := x }
  else if 8 < k && k < 40 then { h with x := h.x.set (reg32 (k - 8)) x }
  else if 40 ≤ k then h.loadCsr (k - 40) x else h

/-- The key of a frame: `sframe` is a physical address (log 8); none where a hart has no frame address. -/
def State.frameKey (s : State) (h : Hart) : Option Nat :=
  if h.sframe == 0 then none else match s.target h.sframe.toNat with
    | .hole => none
    | _ => some (s.paKey h.sframe.toNat)

/-- Bytes of the sections of a frame that have a stated place. -/
def frameBytes : Nat := 704

/-- Keys of the segments those sections lie in. -/
def State.frameSegs (s : State) (h : Hart) : List Nat := match s.frameKey h with
  | some k => [k, k + 256, k + 512, k + frameBytes - 1]
  | none => []

/-- Stages of the launch a hart runs: 1 for a hart of no launch. -/
def State.stagesOf (s : State) (h : Hart) : Nat :=
  match h.launch with
  | some (q, n) => (match s.launchAt q n with | some l => l.lr.stages | none => 1)
  | none => 1

/-- The key a hart's frame and saved scratchpad are sealed under: its cocoon's, when its launch has the COCOON flag (R312). -/
def State.frameSeal (s : State) (h : Hart) : Option Config.XtsKey := match h.launch with
  | some (q, n) => (match s.launchAt q n with | some l => if l.lr.cocoon then s.sealKey h.sctx else none | none => none)
  | none => none

/-- Write a frame to memory, sealed for a cocoon's launch (R311, R312). -/
def State.writeFrame (s : State) (h : Hart) (ws : List Word) : State := match s.frameKey h with
  | some k => { s with mem := Memory.setList s.mem k (sealBytes (s.frameSeal h) k (dwordBytes ws)) }
  | none => s

/-- The die whose HBM holds a frame: its own where no HBM does. -/
def State.frameDie (s : State) (h : Hart) : Nat := match s.target h.sframe.toNat with
  | .hbm off => off / 2 ^ 36 / 3
  | _ => dieOf h.place

/-- The second copy, in the HBM of the next die (R312). -/
def State.mirrorOf (s : State) (h : Hart) (ws : List Word) : Nat × List Byte :=
  ((s.frameDie h + 1) % 4, match s.frameKey h with | some k => sealBytes (s.frameSeal h) k (dwordBytes ws) | none => [])

/-- The hart as the bytes of its frame give it back, from doubleword k on: what is no longer as it was written is taken from them. -/
def readFrame (bs : List Byte) : (k : Nat) → List Word → Hart → Hart
  | _, [], h => h
  | k, w :: t, h =>
    let x := BitVec.ofNat 64 (leNat ((bs.drop (8 * k)).take 8))
    readFrame bs (k + 1) t (if x == w then h else h.loadFrame k x)

/-- The first copy of a frame passes its check (R312). -/
def State.firstCopy (s : State) (f : Frame) : Bool :=
  f.copyOk && (match s.frameKey f.hart with | some k => f.image.isEmpty || !s.poisonIn k frameBytes | none => true)

/-- The hart of a frame, read from the first copy, or from the mirror when the first fails its check (R311, R312). -/
def State.unframe (s : State) (f : Frame) : Frame :=
  match s.frameKey f.hart with
  | some k =>
    let bs := if s.firstCopy f then Memory.getList s.mem k frameBytes else f.mirror.2
    { f with hart := readFrame (openBytes (s.frameSeal f.hart) k bs) 0 f.image f.hart }
  | none => f

/-- What a fold keeps of an image's reading: the decoder stands again before the chunk that holds the position (R294); a stream that
has failed there stays failed (R292). -/
def ImageState.rewind (im : ImageState) (pos : Nat) : ImageState :=
  match (if im.done ≤ pos then none else im.marks.reverse.find? (fun m => m.2.2 ≤ pos)) with
  | some (n, a, d) => { im with next := n, addr := a, done := d, syms := im.syms.take d, fail := none, paged := [],
                                marks := im.marks.filter (fun m => m.1 < n) }
  | none => { im with paged := [] }

/-- The stream bindings as a frame keeps them: binding and position (R294, R311). -/
def QReg.rewind : QReg → QReg
  | .image im pos => .image (im.rewind pos) pos
  | .load d pos _ => .load d pos []
  | q => q

/-- Fold the current hart (R310, R311): its queued stores are performed, its commands run on under its key, its frame is written, and
its slot is free. -/
def State.fold (s : State) : State :=
  let s := ((s.sendOff.drain anyStream).touchAll (s.frameSegs s.cur)).standStop
  let h := s.cur
  let r := s.resizable h
  let ws := if (s.frameKey h).isSome then h.frameWords r (s.frameSeal h).isSome (s.stagesOf h ≥ 2) else []
  let f : Frame :=
    { hart := { h with v := h.savedRegs, q := h.q.map QReg.rewind, sresume := h.ip, words := [] }, copyOk := true, mirrorOk := true,
      mirror := s.mirrorOf h ws,
      resizable := r, evicted := false, lost := false, era := 0, saved := [], bad := [], queues := [], image := ws }
  let s := (s.renameOwners (clusterOf h.place) h.place h.key).writeFrame h ws
  { s with cur := h.unbound, frames := s.frames ++ [f] }

/-- Whether the completions and releases of a launch's context are held (R342). -/
def State.quiet (s : State) (ctx : Word) : Bool := s.ctxStopped ctx

/-! ## Launches from a hart (R206, R207) -/

/-- The 48 doublewords of a record, read as one load (R206, R300). -/
def State.loadRecord (s : State) (a : Word) : Except Trap (List Word) × State :=
  match s.loadDwords .scalar a 48 with
  | (.error t, s) => (.error { t with tval := a, page := some t.tval }, s)
  | (.ok ds, s) => (.ok ds, s.strike .read a 384 noElem)

/-- Shared entries in use of a die's device queue. -/
def State.sharedUsed (s : State) (die : Nat) : Nat :=
  (s.hub.launches.filter (fun l => l.queue == 64 + die && l.reserved.isNone && l.holdsEntry)).length

/-- The reserved entry of a hart slot holds a launch. -/
def State.entryTaken (s : State) (slot : Nat) : Bool := s.hub.launches.any (fun l => l.reserved == some slot && l.holdsEntry)

def refuseWord (reason : Nat) : Word := BitVec.ofNat 64 (2 ^ 63 + reason)

/-- The result of a launch, which is journalled (R348). -/
def State.lnchResult (s : State) (d : Reg) (x : Word) : State :=
  let (x, s) := s.journalled jLaunch x
  { s with cur := s.cur.wx d x }

/-- LNCH and LNCH.W (R206). -/
def lnchBody (reserve : Bool) (d a : Reg) (s : State) : Flow :=
  let x := s.cur.rx a
  if x.toNat % 64 != 0 then .trap { cause := 4, tval := x } s else
  match s.loadRecord x with
  | (.error t, s) => .trap t s
  | (.ok ds, s) =>
    match s.released 3 with
    | none => .stay (s.drainTo 3 heldStream).waitCommands
    | some s =>
      let die := dieOf s.cur.place
      match s.checkRecord s.cur.sctx ds with
      | none => .done (s.lnchResult d (refuseWord reasonBadRec))
      | some r =>
        if reserve && s.entryTaken s.cur.place then
          .stay ({ s with cur := { s.cur with status := .waiting (.entry s.cur.place) } } : State).fold
        else if !reserve && s.sharedUsed die ≥ 256 then .done (s.lnchResult d (refuseWord reasonFull))
        else
          let (seq, s) := s.acceptLaunch (64 + die) x s.cur.sctx s.cur.sptb r (if reserve then some s.cur.place else none)
          .done (s.lnchResult d (launchHandle die seq))

def lwUnknown : Nat := 3

/-- LWAIT (R207): the hart's context goes to its frame and its slot is free until the launch completes. -/
def lwaitBody (w : BitVec 32) (d a : Reg) (s : State) : Flow :=
  let x := s.cur.rx a
  match s.launchOf s.cur.sctx x with
  | none => .done { s with cur := s.cur.wx d (BitVec.ofNat 64 lwUnknown) }
  | some l =>
    match l.done with
    | some st => .done { s with cur := s.cur.wx d (BitVec.ofNat 64 st) }
    | none => .stay ({ s with cur := { s.cur with status := .waiting (.launch w x) } } : State).fold

/-- Change the first frame of hart `h` that waits for a launch. -/
def changeFrame (h : Nat) (f : Hart → Option Hart) : List Frame → List Frame
  | [] => []
  | x :: t =>
    if x.hart.place == h && !x.hart.held then
      (match f x.hart with | some y => { x with hart := y } :: t | none => x :: changeFrame h f t)
    else x :: changeFrame h f t

/-- A folded hart's wait is over when its launch has completed or its entry is free (R206, R207). -/
def State.launchWaitEnds (s : State) (h : Hart) : Option Hart :=
  match h.status with
  | .waiting (.launch w handle) =>
    if s.quiet h.sctx then none else
    (match s.launchOf h.sctx handle with
     | some l => l.done.map (fun st => { (h.wx (wD w) (BitVec.ofNat 64 st)).advance with status := .running, sresume := (h.advance).pc })
     | none => some { (h.wx (wD w) (BitVec.ofNat 64 lwUnknown)).advance with status := .running, sresume := (h.advance).pc })
  | .waiting (.entry slot) => if s.entryTaken slot then none else some { h with status := .running }
  | _ => none

/-- LNCH (R206). -/
def execLnch (d a : Reg) (s : State) : Host.Outcome State Fault Refusal := perform (lnchWord d a) s (lnchBody false d a)

/-- LNCH.W (R206). -/
def execLnchW (d a : Reg) (s : State) : Host.Outcome State Fault Refusal := perform (lnchWWord d a) s (lnchBody true d a)

/-- LWAIT (R207). -/
def execLwait (d a : Reg) (s : State) : Host.Outcome State Fault Refusal := perform (lwaitWord d a) s (lwaitBody (lwaitWord d a) d a)

/-- LWAIT_RELEASE (R207, R309): the folded hart that had place `h` may resume. -/
def execLwaitRelease (h : Nat) (s : State) : Host.Outcome State Fault Refusal :=
  .next { s with frames := changeFrame h s.launchWaitEnds s.frames }

/-! ## Host launch queues (R301) -/

/-- Accepted launches of a queue that have not completed. -/
def State.heldLaunches (s : State) (n : Nat) : Nat := (s.hub.launches.filter (fun l => l.queue == n && l.done.isNone)).length

/-- End a submission with a refusal. -/
def State.refuseSubmit (s : State) (n reason : Nat) : State :=
  s.setHostQueue n { s.hostQueue n with busy := false, refused := true, reason := reason, paged := [] }

/-- Read the 48 doublewords of a record through a context's tables (R300, R301). -/
def State.submitRead (s : State) (sptb a : Word) : Except Got (List Word) × State :=
  match s.hubReads sptb 8 48 a with
  | (.ok xs, s) => (.ok (xs.map (BitVec.ofNat 64)), s)
  | (.error g, s) => (.error g, s)

/-- Check the submission a queue holds (R300, R301): a full queue is told before a bad record. -/
def State.submit (s : State) (n : Nat) : State :=
  let q := s.hostQueue n
  let sptb := s.sptbOf q.ctx
  if s.heldLaunches n ≥ 64 then s.refuseSubmit n reasonFull
  else if q.sub.toNat % 64 != 0 || (s.context q.ctx).isNone then s.refuseSubmit n reasonBadRec
  else match s.submitRead sptb q.sub with
    | (.error (.page a), s) =>
      if q.paged.contains (pageOf a) then s.refuseSubmit n reasonBadRec
      else
        let s := (s.askPage (.queue n) q.ctx a).2
        s.setHostQueue n { s.hostQueue n with busy := true, paged := pageOf a :: q.paged }
    | (.error .held, s) => s.setHostQueue n { s.hostQueue n with busy := true }
    | (.error _, s) => s.refuseSubmit n reasonBadRec
    | (.ok ds, s) =>
      match s.checkRecord q.ctx ds with
      | none => s.refuseSubmit n reasonBadRec
      | some r =>
        let s := (s.acceptLaunch n q.sub q.ctx sptb r none).2
        s.setHostQueue n { s.hostQueue n with busy := false, refused := false, reason := 0, paged := [] }

/-- A port owns host launch queue n. -/
def State.ownsQueue (s : State) (port n : Nat) : Bool := (s.hostQueue n).owner == some port

/-- A read of HQOWN by a port makes it the owner of an unowned queue (R301). -/
def State.claimQueue (s : State) (port n : Nat) : State :=
  if n < 64 && port < 2 && (s.hostQueue n).owner.isNone then s.setHostQueue n { s.hostQueue n with owner := some port } else s

/-- HQOWN_CLAIM (R301, R364). -/
def execHqownClaim (port n : Nat) (s : State) : Host.Outcome State Fault Refusal := .next (s.hostAccess false (fun s => s.claimQueue port n))

/-- Write HQOWN of queue n: a 0 by the owner releases it; its launches stay (R301). -/
def State.writeHqown (s : State) (port n : Nat) (x : Word) : State :=
  if s.ownsQueue port n && x == 0 then s.setHostQueue n { s.hostQueue n with owner := none } else s.logS "HQOWN discarded" (BitVec.ofNat 64 n)

/-- Write HQSUB of queue n: the owner submits a record; one that comes while busy is 1 waits (R301, R364). -/
def State.writeHqsub (s : State) (port n : Nat) (addr : Word) : State :=
  if !s.ownsQueue port n || !s.hub.booted then s.logS "HQSUB discarded" addr
  else if (s.hostQueue n).busy || !(s.hostQueue n).waiting.isEmpty then
    s.setHostQueue n { s.hostQueue n with waiting := (s.hostQueue n).waiting ++ [addr] }
  else (s.setHostQueue n { s.hostQueue n with sub := addr, paged := [] }).submit n

/-- A queue goes on: it checks again a submission that waits for no page, or takes the oldest that waits (R250, R301). -/
def State.queueGo (s : State) (n : Nat) : State :=
  let q := s.hostQueue n
  if q.busy then (if s.hub.pages.any (fun p => p.who == .queue n) then s else s.submit n)
  else match q.waiting with
    | [] => s
    | a :: t => (s.setHostQueue n { q with sub := a, paged := [], waiting := t }).submit n

/-- HQOWN_RELEASE (R301, R364). -/
def execHqownRelease (port n : Nat) (s : State) : Host.Outcome State Fault Refusal :=
  .next (s.hostAccess false (fun s => if n < 64 then s.writeHqown port n 0 else s))

/-- HQSUB_SUBMIT (R301, R364). -/
def execHqsubSubmit (port n : Nat) (addr : Word) (s : State) : Host.Outcome State Fault Refusal :=
  .next (if n < 64 then s.wakeUp.writeHqsub port n addr else s)

end Sys2Proof.Machine
end

