-- ==== Sys2Proof/Machine/Groups.lean ====
section
/-!
DEFINITION. Stage groups: their queues and barriers (R208 to R211); module time and sleeping (R189, R212).
-/

namespace Sys2Proof.Machine

/-! ## Stage groups (R208) -/

/-- The hart belongs to a stage group. -/
def State.staged (s : State) : Bool := s.stagesOf s.cur ≥ 2

/-- The hart belongs to the group (launch, iteration) of a cluster. -/
def Hart.inGroup (g : Nat × Nat × Nat × Nat) (h : Hart) : Bool := h.launch == some (g.1, g.2.1) && h.ord == g.2.2.1 && h.status != .unbound

/-- Live harts of the group: bound or folded ones that have not ended (R210, R211). -/
def State.groupHarts (s : State) (g : Nat × Nat × Nat × Nat) : List Hart :=
  (s.harts ++ s.frames.map (fun f => f.hart)).filter (Hart.inGroup g)

def reg16q (n : Nat) : Fin 16 := ⟨n % 16, Nat.mod_lt _ (by decide)⟩

/-- Entries of queue n of the current hart's cluster, oldest first. -/
def State.stageQueue (s : State) (n : Nat) : List (BitVec 256) := (s.cluster (clusterOf s.cur.place)).queues[reg16q n]

def State.setStageQueue (s : State) (n : Nat) (q : List (BitVec 256)) : State :=
  let c := s.cluster (clusterOf s.cur.place)
  s.setCluster (clusterOf s.cur.place) { c with queues := c.queues.set (reg16q n) q }

/-- The stage-queue error of a hart whose launch declares no stages (R209). -/
def stageError (vec : Bool) (n : Nat) (s : State) : Flow := .trap { cause := 0x12, tval := BitVec.ofNat 64 n, vec := vec } s

/-- The words of QPUSH and QPOP (R209). -/
def isQpush (w : BitVec 32) : Bool := isWord 0x3A 0 2048 w
def isQpop (w : BitVec 32) : Bool := isWord 0x3A 1 2048 w

/-- The place in the order of arrival of a hart's QPUSH that waits at queue n: the hart waits in it, or it heads the VIQ and has arrived
(R208, R209). -/
def Hart.pushing (h : Hart) (n : Nat) : Option Nat :=
  match h.status, h.viq with
  | .waiting (.again w), _ => if isQpush w && (wB w).toNat == n then h.arrived else none
  | _, .op _ e :: _ => if isQpush e.word && (wB e.word).toNat == n then h.arrivedEp else none
  | _, _ => none

/-- Another hart's QPUSH arrived at queue n before the current one and waits there (R208). -/
def State.pushedBefore (s : State) (n : Nat) : Bool :=
  (s.others.filter (fun h => clusterOf h.place == clusterOf s.cur.place && s.stagesOf h ≥ 2)).any
    (fun h => (h.pushing n).any (fun a => s.cur.arrived.all (fun b => a < b)))

/-- QPUSH (R208, R209): a release at CLU scope; it waits while the queue holds 16 entries, and behind those that arrived before it. -/
def qpushBody (w : BitVec 32) (v n : Reg) (s : State) : Flow :=
  if !s.staged then stageError true n.toNat s else
  match s.released 1 with
  | none => .stay (s.drainTo 1 heldStream).waitCommands
  | some s =>
    let q := s.stageQueue n.toNat
    if q.length ≥ 16 || s.pushedBefore n.toNat then waitAgain w s.arrive
    else .done (s.setStageQueue n.toNat (q ++ [(s.cur.rv v.toNat).setWidth 256]))

/-- Bytes 0 to 31 of a register replaced. -/
def lowBytes (old : BitVec 4096) (x : BitVec 256) : BitVec 4096 := (old >>> 256 <<< 256) ||| x.setWidth 4096

/-- QPOP (R209): it waits while the queue is empty. -/
def qpopBody (w : BitVec 32) (v n : Reg) (s : State) : Flow :=
  if !s.staged then stageError true n.toNat s else
  match s.stageQueue n.toNat with
  | [] => waitAgain w s
  | x :: t => let s := s.setStageQueue n.toNat t; .done { s with cur := s.cur.wv v.toNat (lowBytes (s.cur.rv v.toNat) x) }

/-- QSTAT (R209). -/
def qstatBody (d n : Reg) (s : State) : Flow :=
  if !s.staged then stageError false n.toNat s
  else
    let (x, s) := s.journalled jQueue (BitVec.ofNat 64 (s.stageQueue n.toNat).length)
    .done { s with cur := s.cur.wx d x }

/-- QPUSH (R209). -/
def execQpush (v n : Reg) (s : State) : Host.Outcome State Fault Refusal := perform (qpushWord v n) s (qpushBody (qpushWord v n) v n)

/-- QPOP (R209). -/
def execQpop (v n : Reg) (s : State) : Host.Outcome State Fault Refusal := perform (qpopWord v n) s (qpopBody (qpopWord v n) v n)

/-- QSTAT (R209). -/
def execQstat (d n : Reg) (s : State) : Host.Outcome State Fault Refusal := perform (qstatWord d n) s (qstatBody d n)

/-- A waiting QPUSH or QPOP tries again. -/
def queueAgain (w : BitVec 32) (s : State) : Flow := if w.toNat % 2 == 0 then qpushBody w (wD w) (wB w) s else qpopBody w (wD w) (wB w) s

/-- QUEUE_WAIT_WAKE (R209). -/
def execQueueWaitWake (h : Nat) (s : State) : Host.Outcome State Fault Refusal :=
  .next (s.wake h (fun w => (wMajor w).toNat == 0x3A && w.toNat % 2048 ≤ 1) queueAgain)

/-! ## Barriers (R210) -/

/-- BAR (R210): FENCE.CLU first; a hart of a launch without stages is released at once. -/
def barBody (a : Reg) (s : State) : Flow :=
  let b := (s.cur.rx a).toNat
  if b ≥ 16 then illegal s else
  let s := (s.drainTo 1 anyStream).awaitNet 1 true anyStream
  if s.ownStreams then .stay s.waitCommands
  else if !s.staged then .done s
  else waitFor (.barrier b) s

/-- BAR (R210). -/
def execBar (a : Reg) (s : State) : Host.Outcome State Fault Refusal := perform (barWord a) s (barBody a)

/-- Harts of a group that wait at barrier b go on. -/
def Hart.passBarrier (g : Nat × Nat × Nat × Nat) (b : Nat) (h : Hart) : Hart :=
  if h.inGroup g && h.status == .waiting (.barrier b) then { h.advance with status := .running } else h

/-- BAR_RELEASE (R210): every live hart of the cluster's group has arrived at barrier b. -/
def execBarRelease (cl b : Nat) (s : State) : Host.Outcome State Fault Refusal :=
  .next (match (s.cluster cl).group with
    | none => s
    | some g =>
      let hs := s.groupHarts g
      if !hs.isEmpty && hs.all (fun h => h.status == .waiting (.barrier b) && !h.held) then s.mapHarts (Hart.passBarrier g b) else s)

/-- What a live hart of a stuck group waits for, as the tval of its error: none when it can proceed (R211). -/
def stuckAt (c : Cluster) (h : Hart) : Option Nat :=
  if h.held then none else
  match h.status with
  | .waiting (.barrier b) => some (16 + b)
  | .waiting (.again w) =>
    let n := (wB w).toNat
    let k := (c.queues[reg16q n]).length
    if (wMajor w).toNat != 0x3A then none
    else if w.toNat % 2048 == 0 then (if k ≥ 16 then some n else none)
    else if w.toNat % 2048 == 1 then (if k == 0 then some n else none) else none
  | _ => none

/-- Every hart of the list waits at one barrier: it is about to be released. -/
def oneBarrier (hs : List Hart) : Bool := hs.all (fun h => match h.status with | .waiting (.barrier b) => (hs.head?.map (fun k => k.status)) == some (.waiting (.barrier b)) | _ => false)

/-- The stage-queue error of a hart of a stuck group (R211): it traps at its waiting instruction. -/
def State.stuckTrap (s : State) (place tval : Nat) : State :=
  let s := s.focus place
  let w := match s.cur.status with | .waiting (.again w) => w | _ => 0
  let vec := match s.cur.status with | .waiting (.again _) => true | _ => false
  let s : State := { s with cur := { s.cur with status := .running } }
  s.trapWord w { cause := 0x12, tval := BitVec.ofNat 64 tval, vec := vec } s

/-- STAGE_GROUP_DEADLOCK (R211): every live hart of the cluster's group waits on a full or an empty queue or in BAR. -/
def execStageGroupDeadlock (cl : Nat) (s : State) : Host.Outcome State Fault Refusal :=
  .next (match (s.cluster cl).group with
    | none => s
    | some g =>
      let c := s.cluster cl
      let hs := s.groupHarts g
      let folded := s.frames.any (fun f => f.hart.inGroup g)
      if hs.isEmpty || folded || oneBarrier hs || !hs.all (fun h => (stuckAt c h).isSome) then s
      else hs.foldl (fun s h => s.stuckTrap h.place ((stuckAt c h).getD 0)) s)

/-! ## Time (R189, R212) -/

/-- TIME (R212). -/
def execTime (d : Reg) (s : State) : Host.Outcome State Fault Refusal :=
  perform (timeWord d) s (fun s =>
    let (x, s) := s.journalled jTime s.timeWord
    .done { s with cur := s.cur.wx d x })

/-- Act on a status as SLEEPT does at its second read (R189). -/
def sleepEnd (token : Word) (st : Nat × Word) (s : State) : Flow :=
  if st.1 == stPending then .trap { cause := 7, tval := token } s
  else if st.1 == stAccess then .trap { cause := 6, tval := st.2 } s
  else if st.1 == stData then .trap { cause := 8, tval := st.2 } s
  else .done s

/-- The second status read of SLEEPT `w`, which is journalled (R189); in a replay a command that had ended by then is waited for
(R239). -/
def sleptBody (w : BitVec 32) (t token : Word) (s : State) : Flow :=
  let st := s.engineStatus s.cur.sctx token
  let (x, u) := s.journalled jSleep (BitVec.ofNat 64 st.1)
  if st.1 == stPending && x.toNat != stPending then waitFor (.sleep w t token) s else sleepEnd token (x.toNat, st.2) u

/-- SLEEPT (R189). -/
def sleeptBody (w : BitVec 32) (a : Reg) (s : State) : Flow :=
  if a.toNat % 2 == 1 || a == 0#5 then illegal s else
  let t := s.cur.rx a
  let token := s.cur.rx (a + 1)
  let st := s.engineStatus s.cur.sctx token
  if st.1 == stPending then (if t ≤ s.timeWord then sleptBody w t token s else waitFor (.sleep w t token) s)
  else sleepEnd token st s

/-- SLEEPT (R189). -/
def execSleept (a : Reg) (s : State) : Host.Outcome State Fault Refusal := perform (sleeptWord a) s (sleeptBody (sleeptWord a) a)

/-- SLEEPT_WAKE (R189): the promise time is reached. -/
def execSleeptWake (h : Nat) (s : State) : Host.Outcome State Fault Refusal :=
  .next (s.onWaiting h (fun x s => match x with
    | .sleep w t token =>
      if t ≤ s.timeWord then
        let s : State := { s with blocked := none, cur := { s.cur with status := .running } }
        s.finish w (sleptBody w t token s)
      else s
    | _ => s))

end Sys2Proof.Machine
end

