-- ==== Sys2Proof/Machine/Schedule.lean ====
section
/-!
DEFINITION. The walker: free places and scratchpad segments (R8, R246, R297, R298), the rings (R304), dispatch (R306), HALT and
completion (R128, R309), pre-emption, eviction and resumption (R310 to R314), and the loss of dies, lanes and harts (R262,
R263, R317).
-/

namespace Sys2Proof.Machine

/-! ## Places and lanes (R8, R263, R298) -/

def coreOf (place : Nat) : Nat := place / 2

/-- The bound hart at a place. -/
def State.hartAt (s : State) (p : Nat) : Option Hart := s.harts.find? (fun h => h.place == p && h.status != .unbound)

/-- The hart's core is split 8 + 8 (R30 `sgrant`). -/
def Hart.half (h : Hart) : Bool := h.sgrant.getLsbD 8

def State.laneRetired (s : State) (core lane : Nat) : Bool := s.retired.contains (core, lane)

/-- The lowest `n` of some lanes as an `lmap`. -/
def lanesMap (ls : List Nat) (n : Nat) : Nat := (ls.take n).foldl (fun m l => m + 2 ^ l) 0

/-- Unretired lanes of a slot: of the whole core, or of its half. -/
def State.slotLanes (s : State) (place : Nat) (half : Bool) : List Nat :=
  let all := if half then (List.range 8).map (fun k => 8 * (place % 2) + k) else List.range 16
  all.filter (fun l => !s.laneRetired (coreOf place) l)

/-- The slot is free, its die is up, and its core is split, or can be split, so (R298). -/
def State.slotOpen (s : State) (place : Nat) (half : Bool) : Bool :=
  let mate := s.hartAt (matePlace place)
  (s.hartAt place).isNone && !s.down.contains (dieOf place) && (if half then mate.all Hart.half else mate.isNone)

/-- A core may be split so: 8 + 8 only when each half keeps a lane (R263). -/
def State.splits (s : State) (place : Nat) (half : Bool) : Bool :=
  if half then !(s.slotLanes (place / 2 * 2) true).isEmpty && !(s.slotLanes (place / 2 * 2 + 1) true).isEmpty
  else !(s.slotLanes place false).isEmpty

/-- The `lmap` a slot grants to a hart of a lane cap; 0 when the slot is taken or the core cannot be split so. -/
def State.grant (s : State) (place cap : Nat) : Nat :=
  let half := cap != 16
  if s.slotOpen place half && s.splits place half then lanesMap (s.slotLanes place half) cap else 0

/-- `coord` of a place (R17). -/
def coordOf (place : Nat) : Word :=
  BitVec.ofNat 64 (dieOf place * 2 ^ 16 + place / 16 % 56 * 2 ^ 8 + place % 16)

/-- Places of a cluster. -/
def clusterPlaces (cl : Nat) : List Nat := (List.range 16).map (fun k => cl * 16 + k)

/-- Bind a hart at its place. -/
def State.bind (s : State) (h : Hart) : State :=
  if s.cur.place == h.place then { s with cur := h } else { s with others := h :: s.others.filter (fun x => x.place != h.place) }

/-- Free the slot of hart `place`; its registers stay until the next bind clears them (R19; log 58). -/
def State.unbind (s : State) (place : Nat) : State := s.mapHarts (fun h => if h.place == place then h.unbound else h)

/-! ## Segments (R246, R297) -/

def Cluster.segment (c : Cluster) (n : Nat) : Option Segment := c.segs.find? (fun x => x.seg == n)

/-- The segment is free, or held by `who` already. -/
def Cluster.segFree (c : Cluster) (who : SegHolder) (n : Nat) : Bool :=
  match c.segment n with
  | some x => (match x.holder with | none => true | some y => y == who)
  | none => true

/-- Zero `n` bytes from a key. -/
def zeroRange (m : List Host.Cell) (key n : Nat) : List Host.Cell := m.filter (fun c => !(key ≤ c.1 && c.1 < key + n))

def setSegment : List Segment → Segment → List Segment
  | [], x => [x]
  | y :: t, x => if y.seg == x.seg then x :: t else y :: setSegment t x

/-- Grant a segment: it is zeroed unless its last owner was the same context and its region was not discarded (R246). -/
def State.grantSeg (s : State) (cl n : Nat) (ctx : Word) (who : SegHolder) : State :=
  let c := s.cluster cl
  let keep := match c.segment n with
    | some x => x.ctx == ctx && !x.discarded
    | none => false
  let same := match c.segment n with | some x => x.holder == some who | none => false
  if same then s else
  let s := s.setCluster cl { c with segs := setSegment c.segs { seg := n, ctx := ctx, holder := some who, discarded := false } }
  if keep then s else
  let key := scratchKey cl (4096 * n)
  { s with mem := zeroRange s.mem key 4096, poison := s.poison.filter (fun g => !(key / 8 ≤ g && g < key / 8 + 512)) }

def State.grantSegs (s : State) (cl : Nat) (ctx : Word) (who : SegHolder) : List Nat → State
  | [] => s
  | n :: t => (s.grantSeg cl n ctx who).grantSegs cl ctx who t

/-- Free the segments of some holders of a cluster; those of discardable regions count as discarded. -/
def State.freeSegs (s : State) (cl : Nat) (mine : SegHolder → Bool) (discard : Nat → Bool) : State :=
  let c := s.cluster cl
  s.setCluster cl { c with segs := c.segs.map (fun x => match x.holder with
    | some w => if mine w then { x with holder := none, discarded := discard x.seg } else x
    | none => x) }

/-- Free the segments of some holders of every cluster. -/
def State.freeAllSegs (s : State) (mine : SegHolder → Bool) : State := s.clusters.foldl (fun s p => s.freeSegs p.1 mine (fun _ => false)) s

/-- The lowest run of `n` segments that are free and outside a list. -/
def freeRun (c : Cluster) (avoid : List Nat) (n : Nat) : Option Nat :=
  (List.range (513 - n)).find? (fun a => (List.range n).all (fun k =>
    !avoid.contains (a + k) && (match c.segment (a + k) with | some x => x.holder.isNone | none => true)))

/-- First segments of `k` stacks of `n` segments each (R297). -/
def stackRuns (c : Cluster) (n : Nat) : (k : Nat) → (avoid : List Nat) → Option (List Nat)
  | 0, _ => some []
  | k + 1, avoid =>
    if n == 0 then (stackRuns c n k avoid).map (fun t => 0 :: t) else
    match freeRun c avoid n with
    | none => none
    | some a => (stackRuns c n k (avoid ++ (List.range n).map (fun j => a + j))).map (fun t => a :: t)

/-- The stack region whose segments begin at `a`: its bytes are the topmost of them (R297). -/
def stackRegion (bytes a : Nat) : LRegion := { off := (a + stackSegs bytes) * 4096 - bytes, size := bytes, num := 16, disc := false }

/-! ## The rings (R304) -/

/-- How often 64 µs have passed without a dispatch, twice at most; what the walker has noted counts (R304). -/
def State.aged (s : State) (l : Launch) : Nat := min 2 (max l.boost ((s.time - l.since) / 64000))

/-- Effective priority (R304). -/
def State.effective (s : State) (l : Launch) : Nat := min (l.lr.prio + s.aged l) 7

/-- When a launch came to its place in the ring of a die, with the tie-break: one that has aged reached its class then (R304). -/
def State.place (s : State) (die : Nat) (l : Launch) : Nat × Nat × Nat :=
  let k := min (s.aged l) (7 - l.lr.prio)
  if k == 0 then ((l.ring[reg4 die]).1, (l.ring[reg4 die]).2.1, l.seq) else (l.since + 64000 * k, l.queue, l.seq)

/-- Order of places. -/
def placeBefore (a b : Nat × Nat × Nat) : Bool :=
  a.1 < b.1 || (a.1 == b.1 && (a.2.1 < b.2.1 || (a.2.1 == b.2.1 && a.2.2 < b.2.2)))

/-- `a` is ranked before `b` on a die. -/
def State.before (s : State) (die : Nat) (a b : Launch) : Bool :=
  s.effective a > s.effective b || (s.effective a == s.effective b && placeBefore (s.place die a) (s.place die b))

/-- The launch may run on a die (R302). -/
def Launch.runsOn (l : Launch) (die : Nat) : Bool := l.queue < 64 || l.queue == 64 + die

/-- The walker may give the launch something to run. -/
def State.live (s : State) (l : Launch) : Bool := l.eligible && !l.stopped && l.done.isNone && !s.quiet l.ctx

/-- The lanes a launch asks for. -/
def LaunchRec.cap (r : LaunchRec) : Nat := lanesOfCode r.lanes

/-- Segments of the regions and stacks of one iteration fit on a cluster. -/
def State.segsFit (s : State) (l : Launch) (cl : Nat) : Bool :=
  let c := s.cluster cl
  let rs := regionSegs l.lr.regions
  rs.all (c.segFree (.region l.queue l.seq)) && (stackRuns c (stackSegs l.lr.stack) l.lr.stages rs).isSome

/-- Free places of a cluster for a lane cap, as places bound one after another. -/
def State.freePlaces (s : State) (cap : Nat) : List Nat → List Nat
  | [] => []
  | p :: t => if s.grant p cap != 0 then p :: s.freePlaces cap t else s.freePlaces cap t

/-- Places that can be bound together: on a whole core only one of its slots. -/
def apart (cap : Nat) (ps : List Nat) : List Nat := if cap == 16 then ps.filter (fun p => p % 2 == 0 || !ps.contains (p - 1)) else ps

/-- One iteration of the launch fits on a cluster (R306). -/
def State.fitsCluster (s : State) (l : Launch) (cl : Nat) : Bool :=
  (l.lr.stages == 1 || (s.cluster cl).group.isNone) && s.segsFit l cl &&
  (apart l.lr.cap (s.freePlaces l.lr.cap (clusterPlaces cl))).length ≥ l.lr.stages

/-- A folded hart that is ready to resume: it does not wait for a launch, and has not stopped. -/
def Frame.ready (f : Frame) : Bool :=
  match f.hart.status with
  | .stopped => false
  | .waiting (.launch _ _) => false
  | .waiting (.entry _) => false
  | _ => true

/-- The lane cap a folded hart was granted under. -/
def Hart.cap (h : Hart) : Nat := if h.half then h.sgrant.toNat % 32 else 16

/-- The supervisor has left a hart's lane grant as the launch record set it. -/
def State.capKept (s : State) (h : Hart) : Bool := match h.launch with
  | some (q, n) => (s.launchAt q n).all (fun l => l.lr.cap == h.cap)
  | none => true

/-- The `lmap` a folded hart would have at a place; 0 when it may not resume there (R8, R13, R263, R314).  One that is not resizable keeps
its old L, and at its own place the very lanes, a retired one among them; a resizable one of a split core keeps at its own place those of
its lanes that are not retired, and anything else is granted anew. -/
def State.resumeMap (s : State) (f : Frame) (place : Nat) : Nat :=
  let h := f.hart
  let own := place == h.place && s.slotOpen place h.half
  let held := (List.range 16).filter (fun k => h.lmap.getLsbD k)
  if !f.resizable then
    (if own then h.lmap.toNat % 2 ^ 16
     else let m := s.grant place h.cap; if popcN 16 m == h.lanes then m else 0)
  else if own && h.half && s.capKept h then lanesMap (held.filter (fun k => !s.laneRetired (coreOf place) k)) 16
  else s.grant place h.cap

/-- Two folded harts of a launch stood on one cluster and were evicted from it together, or neither was. -/
def Frame.beside (f g : Frame) : Bool :=
  g.hart.launch == f.hart.launch && clusterOf g.hart.place == clusterOf f.hart.place && g.evicted == f.evicted && g.era == f.era

/-- Frames that resume with `f`: the harts of its launch evicted with it from its cluster, or its stage group (R310, R313). -/
def State.together (s : State) (f : Frame) : List Frame :=
  s.frames.filter (fun g => g.ready && f.beside g &&
    (f.evicted || g == f || (s.stagesOf f.hart ≥ 2 && g.hart.ord == f.hart.ord)))

/-- Frames of an evicted launch that still wait for another launch: their memory moves with the others. -/
def State.stayBehind (s : State) (f : Frame) : List Frame :=
  if f.evicted then s.frames.filter (fun g => !g.ready && f.beside g) else []

/-- Segments of a hart's stack. -/
def Hart.stackSegList (h : Hart) : List Nat := (h.local_.filter (fun r => r.num == 16)).flatMap LRegion.segs

/-- Who holds a hart's stack. -/
def Hart.stackHolder (h : Hart) : SegHolder :=
  match h.launch with
  | some (q, n) => .stack q n h.ord h.stage.toNat
  | none => .stack 0 0 0 0

/-- Who holds the regions of a hart's launch. -/
def Hart.regionHolder (h : Hart) : SegHolder := match h.launch with | some (q, n) => .region q n | none => .region 0 0

/-- Regions of a hart's launch. -/
def Hart.launchRegions (h : Hart) : List LRegion := h.local_.filter (fun r => r.num != 16)

/-- Nothing holds the segment. -/
def Cluster.segOpen (c : Cluster) (n : Nat) : Bool := (c.segment n).all (fun x => x.holder.isNone)

/-- The memory of some evicted frames fits on a cluster at its old offsets: nothing holds a segment of it; nor do the launch's own
regions there, which would be overwritten, unless the frame's were lost and hold nothing (R313, R317). -/
def State.memoryFits (s : State) (fs : List Frame) (cl : Nat) : Bool :=
  let c := s.cluster cl
  fs.all (fun f => !f.evicted ||
    ((regionSegs f.hart.launchRegions).all (fun n => if f.lost then c.segFree f.hart.regionHolder n else c.segOpen n) &&
      f.hart.stackSegList.all c.segOpen))

/-- Places for the frames of a set after the first, lowest first, given those already taken; none when they do not fit. -/
def State.placeRest (s : State) (cl : Nat) : List Frame → (taken : List Nat) → Option (List Nat)
  | [], _ => some []
  | f :: t, taken =>
    match (clusterPlaces cl).find? (fun p => !taken.contains p && s.resumeMap f p != 0 && (f.hart.half || !taken.contains (matePlace p))) with
    | none => none
    | some p => (s.placeRest cl t (p :: (if f.hart.half then taken else matePlace p :: taken))).map (fun ps => p :: ps)

/-- The set of frames resumes with `f` at `place`: the places of the others (R310, R313, R314). -/
def State.resumePlaces (s : State) (f : Frame) (place : Nat) : Option (List (Frame × Nat)) :=
  let cl := clusterOf place
  let fs := s.together f
  let rest := fs.filter (fun g => g != f)
  let grouped := s.stagesOf f.hart ≥ 2
  let groupFree := !grouped || (match (s.cluster cl).group with | none => true | some g => f.hart.inGroup g)
  let home := if f.evicted && !f.lost then clusterDie cl == dieOf f.hart.place else cl == clusterOf f.hart.place
  if !home || !groupFree || s.resumeMap f place == 0 || !s.memoryFits (fs ++ s.stayBehind f) cl then none else
  (s.placeRest cl rest (if f.hart.half then [place] else [place, matePlace place])).map (fun ps => (f, place) :: List.zip rest ps)

/-- The clusters a folded hart may resume on. -/
def Frame.homes (f : Frame) : List Nat :=
  if f.evicted && !f.lost then (List.range 56).map (fun k => dieOf f.hart.place * 56 + k) else [clusterOf f.hart.place]

/-- A folded hart of the launch on a die can resume now. -/
def State.frameFits (s : State) (f : Frame) : Bool := f.homes.any (fun cl => (clusterPlaces cl).any (fun p => (s.resumePlaces f p).isSome))

/-- Ready frames of a launch on a die: they resume before new iterations (R304). -/
def State.framesOn (s : State) (l : Launch) (die : Nat) : List Frame :=
  s.frames.filter (fun f => f.ready && f.hart.launch == some (l.queue, l.seq) && dieOf f.hart.place == die)

/-- The launch's next turn on a die fits: a resumption, or a new iteration. -/
def State.fitsOn (s : State) (l : Launch) (die : Nat) : Bool :=
  let fs := s.framesOn l die
  if !fs.isEmpty then fs.any s.frameFits
  else !l.dispatched && l.runsOn die && ((List.range 56).any (fun k => s.fitsCluster l (die * 56 + k)))

/-- A launch ranked before `l` has its turn first on a die. -/
def State.outranked (s : State) (l : Launch) (die : Nat) : Bool :=
  s.hub.launches.any (fun x => !(x.queue == l.queue && x.seq == l.seq) && s.live x && s.before die x l && s.fitsOn x die)

/-- A launch's place in the ring of a die after one of its iterations is dispatched there: an aged one reaches its class's ring
anew; one that has taken its weight goes to the tail. -/
def State.turnTaken (s : State) (l : Launch) (die : Nat) : Launch :=
  if min (s.aged l) (7 - l.lr.prio) != 0 then { l with boost := 0, since := s.time, ring := s.ringJoin l.queue } else
  let (at_, tie, n) := l.ring[reg4 die]
  { l with boost := 0, since := s.time,
           ring := l.ring.set (reg4 die) (if n + 1 ≥ l.lr.weight then (s.time, 128 + s.hub.dispatches, 0) else (at_, tie, n + 1)) }

/-! ## Dispatch (R306) -/

/-- The hart for stage `k` of iteration `ord` at a place, as the launch sequencer leaves it (R19, R306). -/
def State.newHart (s : State) (l : Launch) (ord k place lmap : Nat) (lost : Bool) (stack : Option LRegion) : Hart :=
  let i := l.lr.indices ord
  let iw (d : Nat) : Word := BitVec.ofInt 64 (i.getD d 0)
  let lanes := popcN 16 lmap
  let top : Word := match stack with | some r => BitVec.ofNat 64 (Config.localBase + r.off + r.size) | none => 0
  let x := ((((((((Hart.blank place).x.set 2 top).set 3 (iw 0)).set 4 (iw 1)).set 5 (iw 2)).set 6 (iw 3)).set 7 (BitVec.ofNat 64 k)).set 8 l.lr.args)
  { Hart.blank place with
    x := x, pc := l.lr.entries.getD k 0, coord := coordOf place, stage := BitVec.ofNat 64 k, lmap := BitVec.ofNat 64 lmap,
    vlmax := BitVec.ofNat 64 (vlmaxOf lanes 8 1 l.lr.vlcap), vlcap := l.lr.vlcap, sctx := l.ctx, sptb := l.sptb,
    sgrant := BitVec.ofNat 64 (l.lr.cap + (if l.lr.cap == 16 then 0 else 256)),
    sprio := BitVec.ofNat 64 (l.lr.prio + (l.lr.weight - 1) * 256),
    scocoon := BitVec.ofNat 64 (match s.context l.ctx with | some c => c.cocoon | none => 0),
    discf := if lost then BitVec.ofNat 64 (2 ^ l.lr.regions.length - 1) else 0,
    local_ := l.lr.regions ++ stack.toList, launch := some (l.queue, l.seq), ord := ord, bornAt := s.hub.dispatches, status := .running }

/-- The places of an event suit the launch: as many as it has stages, apart, free, and on one cluster. -/
def State.placesOk (s : State) (l : Launch) (places : List Nat) : Bool :=
  match places with
  | [] => false
  | p :: _ =>
    places.length == l.lr.stages && places.all (fun x => clusterOf x == clusterOf p && s.grant x l.lr.cap != 0 && x < 3584) &&
    places.Nodup && (l.lr.cap != 16 || places.all (fun x => !places.contains (matePlace x))) && l.runsOn (dieOf p) &&
    (l.lr.stages == 1 || (s.cluster (clusterOf p)).group.isNone) && s.segsFit l (clusterOf p)

/-- Bind the harts of an iteration: stage k at the k-th place, its stack in the k-th run. -/
def State.bindStages (s : State) (l : Launch) (ord : Nat) (lost : Bool) : (k : Nat) → List Nat → List Nat → State
  | k, p :: ps, a :: as =>
    let st := if l.lr.stack == 0 then none else some (stackRegion l.lr.stack a)
    let h := s.newHart l ord k p (s.grant p l.lr.cap) lost st
    let segs := (List.range (stackSegs l.lr.stack)).map (fun j => a + j)
    ((s.bind h).grantSegs (clusterOf p) l.ctx (.stack l.queue l.seq ord k) segs).bindStages l ord lost (k + 1) ps as
  | _, _, _ => s

/-- Bind the regions of a launch on a cluster (R297); regions lost with a die read zero (R317). -/
def State.bindRegions (s : State) (l : Launch) (cl : Nat) (lost : Bool) : State :=
  let who : SegHolder := .region l.queue l.seq
  let segs := regionSegs l.lr.regions
  let c := s.cluster cl
  let s := if lost then s.setCluster cl { c with segs := c.segs.map (fun x => if segs.contains x.seg && x.holder != some who then { x with discarded := true } else x) } else s
  s.grantSegs cl l.ctx who segs

/-- Dispatch an iteration at some places of a cluster. -/
def State.dispatch (s : State) (l : Launch) (cl ord : Nat) (lost : Bool) (places : List Nat) : State :=
  let s := s.bindRegions l cl lost
  let runs := (stackRuns (s.cluster cl) (stackSegs l.lr.stack) l.lr.stages (regionSegs l.lr.regions)).getD []
  let s := s.bindStages l ord lost 0 places runs
  let s := s.setHub { s.hub with dispatches := s.hub.dispatches + 1, power := .active, idleSince := s.sevenths }
  if l.lr.stages == 1 then s
  else s.setCluster cl { s.cluster cl with group := some (l.queue, l.seq, ord, l.lr.stages), queues := Vector.replicate 16 [] }

/-- DISPATCH_ITERATION (R304, R306): the launch's next iteration, when its turn has come and the places are free; its places and lane
grants are journalled, and a replay starts it with the same ones only (R348, R350). -/
def execDispatchIteration (queue seq : Nat) (places : List Nat) (s : State) : Host.Outcome State Fault Refusal :=
  .next (match s.launchAt queue seq, places with
    | some l, p :: _ =>
      let die := dieOf p
      if !s.live l || l.dispatched || s.hub.power == .standby || !s.placesOk l places || !(s.framesOn l die).isEmpty || s.outranked l die then s else
      let (ord, lost) := match l.redo with | x :: _ => x | [] => (l.next, false)
      let asked := places.map (BitVec.ofNat 64) ++ places.map (fun x => BitVec.ofNat 64 (s.grant x l.lr.cap))
      let (at_, s1) := s.journalOnly (some (queue, seq)) ord jPlace asked
      if at_ != asked then s else
      let l1 := match l.redo with | _ :: t => { l with redo := t } | [] => { l with next := l.next + 1 }
      (((s1.putLaunch (s1.turnTaken l1 die)).enterDispatch queue seq ord die).dispatch l (clusterOf p) ord lost places).journalStop (some (queue, seq))
    | _, _ => s)

/-- LAUNCH_ELIGIBLE (R303). -/
def execLaunchEligible (queue seq : Nat) (s : State) : Host.Outcome State Fault Refusal :=
  .next (match s.launchAt queue seq with
    | some l =>
      if l.eligible || l.stopped || !s.waitsHold l then s else s.putLaunch (s.makeEligible l)
    | none => s)

/-- PRIORITY_AGING (R304): the walker notes another 64 µs without a dispatch. -/
def execPriorityAging (queue seq : Nat) (s : State) : Host.Outcome State Fault Refusal :=
  .next (match s.launchAt queue seq with
    | some l =>
      if !s.live l || l.dispatched || l.boost ≥ 2 || l.lr.prio + l.boost ≥ 7 || s.time < l.since + 64000 * (l.boost + 1) then s
      else s.putLaunch { l with boost := l.boost + 1 }
    | none => s)

/-! ## The end of an iteration (R128, R309) -/

/-- Harts and frames of an iteration. -/
def State.iterHarts (s : State) (q n ord : Nat) : List Hart := s.groupHarts (q, n, ord, 0)

/-- Free what a hart held: its stack, and its group when it was the last of it. -/
def State.leave (s : State) (h : Hart) : State :=
  let cl := clusterOf h.place
  let s := s.freeSegs cl (fun w => w == h.stackHolder) (fun _ => false)
  match (s.cluster cl).group with
  | some g =>
    if h.inGroup g && (s.groupHarts g).isEmpty then s.setCluster cl { s.cluster cl with group := none, queues := Vector.replicate 16 [] } else s
  | none => s

/-- Note when the last iteration of a launch ends while its context is stopped (R342, R343). -/
def State.noteHeld (s : State) (q n : Nat) : State :=
  match s.launchAt q n with
  | some l => if s.ctxStopped l.ctx then s.putLaunch { l with heldAt := some s.sevenths } else s
  | none => s

/-- The current hart's iteration ends by HALT: its strip closes and its slot is free; the iteration is ended when its last hart
has ended (R306, R346). -/
def State.haltEnd (s : State) : State :=
  let s := s.closeStrip.payOwn
  let h := s.cur
  let s := (s.unbind h.place).leave h
  match h.launch with
  | none => s
  | some (q, n) =>
    match s.launchAt q n with
    | none => s
    | some l =>
      if (s.iterHarts q n h.ord).isEmpty && !l.cut.contains h.ord then ((s.putLaunch { l with halted := l.halted + 1 }).enter q (.halted n h.ord)).noteHeld q n else s

/-- Nothing that HALT waits for is left: no command of the hart, and no write of it on its way (R128). -/
def State.drained (s : State) : Bool := !s.ownCommand fenceEngine && !s.net.any (s.owns true anyStream)

/-- HALT (R128): every queued access is performed, and the hart's commands are waited for. -/
def haltBody (s : State) : Flow :=
  let s := s.drain anyStream
  if s.drained then .stay s.haltEnd else waitFor .halt s

/-- HALT (R128). -/
def execHalt (s : State) : Host.Outcome State Fault Refusal := perform haltWord s haltBody

/-- HALT_DRAINED (R128). -/
def execHaltDrained (h : Nat) (s : State) : Host.Outcome State Fault Refusal :=
  .next (s.onWaiting h (fun x s =>
    if x != .halt || !s.drained then s else
    let t := ({ s with blocked := none } : State).haltEnd
    if t.blocked.isSome then s else t))

/-- Ascending runs of a list of ordinals: first and count. -/
def runsOf : List Nat → List (Nat × Nat)
  | [] => []
  | a :: t => match runsOf t with
    | (b, n) :: r => if a + 1 == b then (a, n + 1) :: r else (a, 1) :: (b, n) :: r
    | [] => [(a, 1)]

/-- Append a range, joined to the last one when they touch. -/
def addRange : List (Nat × Nat) → Nat → Nat → List (Nat × Nat)
  | [], a, n => if n == 0 then [] else [(a, n)]
  | [(b, m)], a, n => if n == 0 then [(b, m)] else if b + m == a then [(b, m + n)] else [(b, m), (a, n)]
  | x :: t, a, n => x :: addRange t a n

/-- Unfinished ranges of a launch (R309): the ordinals cut short, and those never dispatched of a stopped one. -/
def Launch.ranges (l : Launch) : List (Nat × Nat) :=
  addRange (runsOf (l.cut.dedup.insertionSort (fun a b => a ≤ b))) l.next (l.lr.total - l.next)

/-- How a launch ends (R309). -/
def Launch.finalStatus (l : Launch) : Nat := if l.stopped then 2 else if l.cut.isEmpty then 0 else 1

/-- The doublewords of a completion record (R309). -/
def Launch.completion (l : Launch) (time : Nat) : List Word :=
  ([l.finalStatus, l.lr.total, l.halted, l.ranges.length, time, 0, 0, 0] ++ l.ranges.flatMap (fun r => [r.1, r.2])).map (BitVec.ofNat 64)

/-- Keys of `n` doublewords a context may write, none when one fails its translation or access check. -/
def State.writeKeys8 (s : State) (sptb : Word) : (n : Nat) → (a : Word) → Option (List (Nat × Nat))
  | 0, _ => some []
  | n + 1, a =>
    if !canonical a || inLocal a || inReserved a then none else
    match s.walk sptb a .write with
    | .leaf e bits frame _ _ _ =>
      let pa := frame * 4096 + a.toNat % 2 ^ bits
      if !targetOk .plain (s.target pa) || s.instarHit (s.paKey pa) then none
      else (s.writeKeys8 sptb n (a + 8)).map (fun ks => (e, s.paKey pa) :: ks)
    | _ => none

/-- Keys of the table entries that the walks of `n` doublewords read. -/
def State.writeTrail (s : State) (sptb a : Word) (n : Nat) : List Nat :=
  (List.range n).flatMap (fun j => (s.trail sptb (a + BitVec.ofNat 64 (8 * j)) .write).map (fun x => x.2.2))

/-- Write doublewords at keys, with A and D set in their leaves (R258); the channels they reach leave the low-power state (R253). -/
def State.writeDwords (s : State) : List (Nat × Nat) → List Word → State
  | (e, k) :: ks, w :: ws =>
    let s := (((s.wakeKey e).wakeKey k).markLeaf e .write).noteAt everyWatch none hubAgent .write [(k, 8)] sortWrite (leBytes 8 w.toNat)
    ({ s with mem := Memory.setList s.mem k (leBytes 8 w.toNat) } : State).writeDwords ks ws
  | _, _ => s

/-- Write the completion record, or log that it cannot be written (R309). -/
def State.writeCompletion (s : State) (l : Launch) : State :=
  let ws := l.completion s.time
  let s := s.wakeKeys (s.writeTrail l.sptb (l.addr + 384) ws.length)
  match s.writeKeys8 l.sptb ws.length (l.addr + 384) with
  | some ks => s.writeDwords ks ws
  | none => s.logS "completion record" l.addr

/-- Every iteration has ended. -/
def State.allEnded (s : State) (l : Launch) : Bool :=
  let mine (h : Hart) : Bool := h.launch == some (l.queue, l.seq) && h.status != .unbound
  l.stopped || (l.eligible && l.dispatched && !s.harts.any mine && !s.frames.any (fun f => mine f.hart))

/-- Every queued access of the hart at a place can be performed now: none meets a segment that is held, a write on its way, or a bank
command (R218, R221, R250). -/
def State.mayDrain (s : State) (place : Nat) : Bool :=
  let s := s.focus place
  s.cur.place != place || (({ s with blocked := none } : State).noteDrain 4 anyStream).blocked.isNone

/-- Perform every queued access of a hart. -/
def State.drainHart (s : State) (place : Nat) : State :=
  let back := s.cur.place
  let s := s.focus place
  (if s.cur.place == place then s.drain anyStream else s).focus back

/-- Unbind the harts of a launch that ended STOPPED, once the stores they issued are performed. -/
def State.clearLaunch (s : State) (q n : Nat) : State :=
  let mine (h : Hart) : Bool := h.launch == some (q, n)
  let s := (s.harts.filter mine).foldl (fun s h => s.drainHart h.place) s
  let gone := (s.harts ++ s.frames.map (fun f => f.hart)).filter mine
  let s := gone.foldl (fun s h => (if (s.hartAt h.place).any mine then s.unbind h.place else s)) { s with frames := s.frames.filter (fun f => !mine f.hart) }
  (gone.foldl (fun s h => s.leave h) s).freeAllLeaving

/-- The end of a launch meets no held segment: the stores its harts have still to perform, its completion record, and the table entries
on the way to it (R250). -/
def State.completeReady (s : State) (l : Launch) : Bool :=
  (s.harts.filter (fun h => h.launch == some (l.queue, l.seq))).all (fun h => s.mayDrain h.place) &&
    !((s.writeKeys8 l.sptb (l.completion s.time).length (l.addr + 384)).getD []).any (fun k => s.heldSegment k.2) &&
    !(s.writeTrail l.sptb (l.addr + 384) (l.completion s.time).length).any s.heldSegment

/-- The completion of a launch of the context that ended earlier, while the context was stopped, is still held: it is delivered first
(R343). -/
def State.heldBefore (s : State) (l : Launch) : Bool :=
  s.hub.launches.any (fun x => x.ctx == l.ctx && x.done.isNone && s.allEnded x &&
    (match x.heldAt, l.heldAt with
     | some a, some b => a < b
     | some _, none => true
     | none, _ => false))

/-- LAUNCH_COMPLETE (R309): the record, the signal, and the end of the launch, which releases its LWAITs; while the context is
stopped it waits (R342). -/
def execLaunchComplete (queue seq : Nat) (s : State) : Host.Outcome State Fault Refusal :=
  .next (match s.launchAt queue seq with
    | some l =>
      if l.done.isSome || s.quiet l.ctx || !s.allEnded l || !s.completeReady l || s.heldBefore l then s else
      let s := s.clearLaunch queue seq
      let s := s.writeCompletion l
      let s := if l.lr.sigVal == 0 then s else s.addCounter l.ctx l.lr.sigCtr l.lr.sigVal
      let s := s.freeAllSegs (fun w => w == .region queue seq)
      (s.putLaunch { l with done := some l.finalStatus, redo := [] }).enter queue (.complete seq)
    | none => s)

/-! ## Stops by the supervisor (R30, R126, R309) -/

/-- A supervisor stop of a hart (R31): one whose own trap stopped it keeps its record, and its debug block holds it no longer. -/
def Hart.supervisorStop (h : Hart) : Hart :=
  if h.status == .unbound then h
  else if h.status == .stopped then { h with held := false }
  else { h with status := .stopped, held := false, pending := none, more := [], tcause := 0x15, tval := 0, tpc := h.ip, sresume := h.ip }

/-- End a launch (R309): its harts stop, and nothing more of it is dispatched. -/
def State.stopLaunch (s : State) (l : Launch) : State :=
  let mine (h : Hart) : Bool := h.launch == some (l.queue, l.seq)
  let stop (h : Hart) : Hart := if mine h then h.supervisorStop else h
  let ords := ((s.harts ++ s.frames.map (fun f => f.hart)).filter (fun h => mine h && h.status != .unbound)).map (fun h => h.ord)
  (((s.payHits mine).everyHart stop).freeAllLeaving).putLaunch { l with stopped := true, cut := l.cut ++ ords ++ l.redo.map (fun r => r.1), redo := [] }

/-- SUPERVISOR_STOP_LAUNCH (R309): after a trap that went to the supervisor; a hart held by a debug block is not trapped to it. -/
def execSupervisorStopLaunch (queue seq : Nat) (s : State) : Host.Outcome State Fault Refusal :=
  .next (match s.launchAt queue seq with
    | some l =>
      let trapped (h : Hart) : Bool := h.launch == some (queue, seq) && h.status == .stopped && !h.held
      if l.stopped || l.done.isSome || !(s.harts.any trapped || s.frames.any (fun f => trapped f.hart)) then s else s.stopLaunch l
    | none => s)

/-- Change the first frame of the hart that had place `h`. -/
def inFrame (h : Nat) (f : Hart → Hart) : List Frame → List Frame
  | [] => []
  | x :: t => if x.hart.place == h then { x with hart := f x.hart } :: t else x :: inFrame h f t

/-- Change the hart that is bound at place `h`, or else the one that folded there first. -/
def State.onHart (s : State) (h : Nat) (f : Hart → Hart) : State :=
  if (s.hartAt h).isSome then s.mapHarts (fun x => if x.place == h then f x else x) else { s with frames := inFrame h f s.frames }

/-- A value of `shalt`: a 1 stops the hart (R30). -/
def Hart.setShalt (value : Word) (h : Hart) : Hart :=
  let h := { h with shalt := value }
  if value == 1 && !h.held then h.supervisorStop else h

/-- Write `shalt` of hart `h`, bound or in its frame: a 1 stops it (R30). -/
def State.writeShalt (s : State) (h : Nat) (value : Word) : State :=
  if value.toNat / 2 != 0 then s.logS "shalt discarded" value
  else ((if value == 1 then s.payHits (fun x => x.place == h) else s).onHart h (Hart.setShalt value)).freeAllLeaving

/-- SHALT_WRITE (R30). -/
def execShaltWrite (h : Nat) (value : Word) (s : State) : Host.Outcome State Fault Refusal := .next (s.writeShalt h value)

/-- Continue a hart at its resumption address. -/
def Hart.resumeAt (h : Hart) : Hart :=
  match h.lane with
  | some l => { h with lane := some { l with threads := l.threads.set l.turn { l.thread with pc := h.sresume } } }
  | none => { h with pc := h.sresume }

/-- A hart's launch has been ended. -/
def State.ended (s : State) (h : Hart) : Bool :=
  match h.launch with
  | some (q, n) => (match s.launchAt q n with | some l => l.stopped | none => false)
  | none => false

/-- SUPERVISOR_RESUME (R30, R126): a stopped hart, bound or in its frame, continues at `sresume`, after BRK at tpc + 4; while its context is
stopped its debug block holds it (R342). -/
def execSupervisorResume (h : Nat) (s : State) : Host.Outcome State Fault Refusal :=
  .next (s.onHart h (fun x =>
    if x.status != .stopped || x.held || s.ended x then x else { x.resumeAt with status := .running, shalt := 0, held := s.ctxStopped x.sctx }))

/-! ## Pre-emption (R305, R310, R318) -/

/-- Priority class of a hart (R30). -/
def Hart.cls (h : Hart) : Nat := h.sprio.toNat % 8

/-- A launch of class at least PTHR has an iteration, folded or new, that fits no free place (R304, R305). -/
def State.presses (s : State) (l : Launch) (die : Nat) : Bool :=
  s.live l && l.lr.prio ≥ s.hub.pthr &&
  (if (s.framesOn l die).isEmpty then !l.dispatched && l.runsOn die && !((List.range 4).any (fun d => s.fitsOn l d))
   else !(s.framesOn l die).any s.frameFits)

/-- The launch's next turn on a die fits on a cluster of it: a resumption, or a new iteration. -/
def State.turnFits (s : State) (l : Launch) (cl : Nat) : Bool :=
  let fs := s.framesOn l (clusterDie cl)
  if fs.isEmpty then s.fitsCluster l cl
  else fs.any (fun f => f.homes.contains cl && (clusterPlaces cl).any (fun p => (s.resumePlaces f p).isSome))

/-- A hart the walker may pre-empt: it has neither trapped to the supervisor nor begun its HALT (R318); one that its debug block holds
stands still (R342). -/
def Hart.foldable (h : Hart) : Bool :=
  h.status != .unbound && (h.status != .stopped || h.held) && h.status != .waiting .halt && h.pending.isNone

/-- The hart at a place can be folded now: its queued accesses, and its frame, meet no segment that is held (R250). -/
def State.foldReady (s : State) (h : Hart) : Bool := s.mayDrain h.place && !(s.frameSegs h).any s.heldSegment

/-- The bound harts that fold with one: its stage group, or itself (R310). -/
def State.foldSet (s : State) (h : Hart) : List Hart :=
  match h.launch with
  | some (q, n) => if s.stagesOf h ≥ 2 then s.harts.filter (Hart.inGroup (q, n, h.ord, 0)) else [h]
  | none => [h]

/-- A launch of class `c` may have a hart folded, and those that fold with it (R305, R318). -/
def State.mayFold (s : State) (c : Nat) (h : Hart) : Bool := (s.foldSet h).all (fun x => x.foldable && x.cls < c && s.foldReady x)

/-- The order of victims: the lowest class first, and among equals the most recently dispatched (R305). -/
def Hart.victimKey (h : Hart) : Nat := h.cls * 2 ^ 64 + (2 ^ 64 - 1 - h.bornAt % 2 ^ 64)

/-- The greatest of some victims' keys. -/
def worstKey (hs : List Hart) : Nat := hs.foldl (fun k h => max k h.victimKey) 0

/-- A cluster as it would be with some of its harts folded. -/
def State.vacate (s : State) (cl : Nat) (hs : List Hart) : State :=
  let s := s.mapHarts (fun h => if hs.any (fun x => x.place == h.place) then h.unbound else h)
  match (s.cluster cl).group with
  | some g => if s.harts.any (Hart.inGroup g) then s else s.setCluster cl { s.cluster cl with group := none }
  | none => s

/-- Of a list, its worst members first, what is left when each member that the others can do without has gone. -/
def without {α : Type} (suffice : List α → Bool) : (kept rest : List α) → List α
  | kept, [] => kept
  | kept, x :: t => if suffice (kept ++ t) then without suffice kept t else without suffice (kept ++ [x]) t

/-- Sets of harts of a cluster that fold together, and may be folded for class `c`: the worst first. -/
def State.foldable (s : State) (c cl : Nat) : List (List Hart) :=
  let sets := ((s.harts.filter (fun h => clusterOf h.place == cl && h.status != .unbound && s.mayFold c h)).map s.foldSet).dedup
  sets.insertionSort (fun a b => worstKey b ≤ worstKey a)

/-- The harts to fold so that the next turn of a launch fits on a cluster whose segments suffice: only as many as it needs, the lowest
class first, and among equals the most recently dispatched (R305, R306, R310). -/
def State.victimsOn (s : State) (l : Launch) (cl : Nat) : Option (List Hart) :=
  let suffice (xs : List (List Hart)) : Bool := (s.vacate cl xs.flatten).turnFits l cl
  let all := s.foldable l.lr.prio cl
  if suffice all then some (without suffice [] all).flatten else none

/-- The better of two sets of victims: the one whose worst is better. -/
def betterVictims : Option (List Hart) → Option (List Hart) → Option (List Hart)
  | none, y => y
  | x, none => x
  | some a, some b => some (if worstKey b < worstKey a then b else a)

/-- The harts of a die to fold for a launch (R305). -/
def State.victims (s : State) (l : Launch) (die : Nat) : Option (List Hart) :=
  (List.range 56).foldl (fun v k => betterVictims v (s.victimsOn l (die * 56 + k))) none

/-- The next hart to fold for a launch on a die: the first victim of the set (R305). -/
def State.firstVictim (s : State) (l : Launch) (die : Nat) : Option Hart :=
  (s.victims l die).bind (fun hs => hs.find? (fun h => hs.all (fun x => h.victimKey ≤ x.victimKey)))

/-- Fold some harts, one after another. -/
def State.foldAll (s : State) : List Nat → State
  | [] => s
  | p :: t => let s := s.focus p; (if s.cur.place == p && s.cur.status != .unbound then s.fold else s).foldAll t

/-- Put the queues of a folded group into the frames of its lowest stage. -/
def keepQueues (g : Nat × Nat × Nat × Nat) (lowest : Word) (qs : List (List (BitVec 256))) (f : Frame) : Frame :=
  if f.hart.inGroup g && f.hart.stage == lowest then { f with queues := qs } else f

/-- When every hart of a cluster's group is folded, its queues go with its frames (R311). -/
def State.foldGroup (s : State) (cl : Nat) : State :=
  match (s.cluster cl).group with
  | none => s
  | some g =>
    if s.harts.any (Hart.inGroup g) then s else
    let c := s.cluster cl
    let lowest := (s.frames.filter (fun f => f.hart.inGroup g)).foldl (fun n f => if f.hart.stage < n then f.hart.stage else n) (-1)
    { s.setCluster cl { c with group := none, queues := Vector.replicate 16 [] } with frames := s.frames.map (keepQueues g lowest c.queues.toList) }

/-- Fold a hart: a stage group as a whole (R310). -/
def State.foldWhole (s : State) (h : Hart) : State :=
  let t := s.foldAll ((s.foldSet h).map (fun x => x.place))
  if s.stagesOf h ≥ 2 then t.foldGroup (clusterOf h.place) else t

/-- PREEMPT_FOLD (R305, R310, R318): hart `h` is the first victim for a launch that presses on its die. -/
def execPreemptFold (h : Nat) (s : State) : Host.Outcome State Fault Refusal :=
  .next (match s.hartAt h with
    | none => s
    | some v =>
      if s.hub.launches.any (fun l => s.presses l (dieOf h) && (s.firstVictim l (dieOf h)).any (fun x => x.victimKey == v.victimKey && (s.foldSet x).any (fun y => y.place == h)))
      then s.foldWhole v else s)

/-! ## Eviction (R305, R313) -/

/-- Bytes of a region of a cluster's scratchpad, as they are saved for a hart: sealed for a cocoon's launch (R312, R313). -/
def State.saveRegion (s : State) (cl : Nat) (h : Hart) (r : LRegion) : LRegion × List Byte :=
  (r, sealBytes (s.frameSeal h) r.off (Memory.getList s.mem (scratchKey cl r.off) r.size))

/-- The granule of a window, by its offset in eights of bytes, meets a region. -/
def LRegion.hasGranule (r : LRegion) (g : Nat) : Bool := r.off < 8 * g + 8 && 8 * g < r.off + r.size

/-- The frame of an evicted hart: its keep regions and its stack are saved, with what of them fails its check (R262, R313). -/
def State.evictFrame (s : State) (cl era : Nat) (f : Frame) : Frame :=
  let rs := f.hart.local_.filter (fun r => !r.disc)
  let base := scratchKey cl 0 / 8
  { f with evicted := true, era := era, saved := rs.map (s.saveRegion cl f.hart),
           bad := (s.poison.filter (fun g => base ≤ g && rs.any (fun r => r.hasGranule (g - base)))).map (fun g => g - base) }

/-- The number of the next eviction. -/
def State.nextEra (s : State) : Nat := s.frames.foldl (fun n f => max n f.era) 0 + 1

/-- Who holds segments of a launch. -/
def holdsFor (q n : Nat) : SegHolder → Bool
  | .region a b => a == q && b == n
  | .stack a b _ _ => a == q && b == n

/-- Harts of a launch bound on a cluster. -/
def State.hartsOn (s : State) (q n cl : Nat) : List Hart :=
  s.harts.filter (fun h => h.launch == some (q, n) && clusterOf h.place == cl && h.status != .unbound)

/-- A frame of a launch whose memory is still on a cluster. -/
def Frame.standsOn (q n cl : Nat) (f : Frame) : Bool := f.hart.launch == some (q, n) && clusterOf f.hart.place == cl && !f.evicted

/-- A launch may be evicted from a cluster for one of class `c`: it holds segments there, and its harts there can be folded (R305,
R318). -/
def State.evictable (s : State) (c cl : Nat) (v : Launch) : Bool :=
  v.lr.prio < c && !v.stopped && (s.cluster cl).segs.any (fun x => x.holder.any (holdsFor v.queue v.seq)) &&
    (s.hartsOn v.queue v.seq cl).all (fun h => h.foldable && s.foldReady h)

/-- Segments of discardable regions of a launch. -/
def LaunchRec.discSegs (r : LaunchRec) : List Nat := regionSegs (r.regions.filter (fun x => x.disc))

/-- Free what a launch holds of a cluster's segments. -/
def State.freeLaunch (s : State) (v : Launch) (cl : Nat) : State := s.freeSegs cl (holdsFor v.queue v.seq) (fun n => v.lr.discSegs.contains n)

/-- The order of launches to evict: the lowest class first, and among equals the one whose hart there was dispatched last (R305). -/
def State.evictKey (s : State) (v : Launch) (cl : Nat) : Nat :=
  let hs := s.hartsOn v.queue v.seq cl ++ (s.frames.filter (Frame.standsOn v.queue v.seq cl)).map (fun f => f.hart)
  v.lr.prio * 2 ^ 64 + (2 ^ 64 - 1 - (hs.foldl (fun n h => max n (h.bornAt + 1)) 0) % 2 ^ 64)

/-- A cluster as it would be with some launches evicted from it, and with every hart folded that may be folded for class `c`. -/
def State.evictAll (s : State) (c cl : Nat) (vs : List Launch) : State :=
  let s := vs.foldl (fun s v => (s.vacate cl (s.hartsOn v.queue v.seq cl)).freeLaunch v cl) s
  s.vacate cl (s.foldable c cl).flatten

/-- The launches to evict from a cluster so that the next turn of `l` fits there: only as many as it needs; none where they do not
suffice. -/
def State.evictees (s : State) (l : Launch) (cl : Nat) : List Launch :=
  let suffice (vs : List Launch) : Bool := (s.evictAll l.lr.prio cl vs).turnFits l cl
  let all := (s.hub.launches.filter (s.evictable l.lr.prio cl)).insertionSort (fun a b => s.evictKey b cl ≤ s.evictKey a cl)
  if suffice all then without suffice [] all else []

/-- The launch to evict next for one that presses on a die where no pre-emption alone suffices, and the cluster: of the sets that
suffice, the one whose worst member is best, and of it the first in order (R305). -/
def State.firstEvictee (s : State) (l : Launch) (die : Nat) : Option (Launch × Nat) :=
  if (s.victims l die).isSome then none else
  let worst (x : List Launch × Nat) : Nat := x.1.foldl (fun k v => max k (s.evictKey v x.2)) 0
  let sets := ((List.range 56).map (fun k => (s.evictees l (die * 56 + k), die * 56 + k))).filter (fun x => !x.1.isEmpty)
  (sets.find? (fun x => sets.all (fun y => worst x ≤ worst y))).bind (fun x =>
    (x.1.find? (fun v => x.1.all (fun y => s.evictKey v x.2 ≤ s.evictKey y x.2))).map (fun v => (v, x.2)))

/-- Evict a launch from a cluster (R313): its harts there fold; once every command of its context there has completed (R190), its keep
regions and stacks are saved and the segments are freed. -/
def State.evict (s : State) (v : Launch) (cl : Nat) : State :=
  let s := (s.foldAll ((s.hartsOn v.queue v.seq cl).map (fun h => h.place))).foldGroup cl
  if (s.cluster cl).pool.any (fun c => c.ctx == v.ctx) then s else
  let era := s.nextEra
  ({ s with frames := s.frames.map (fun f => if f.standsOn v.queue v.seq cl then s.evictFrame cl era f else f) } : State).freeLaunch v cl

/-- EVICT_LAUNCH (R305, R313). -/
def execEvictLaunch (queue seq cl : Nat) (s : State) : Host.Outcome State Fault Refusal :=
  .next (
    if s.hub.launches.any (fun l => s.presses l (clusterDie cl) &&
        (s.firstEvictee l (clusterDie cl)).any (fun x => x.2 == cl && x.1.queue == queue && x.1.seq == seq))
    then (match s.launchAt queue seq with | some v => s.evict v cl | none => s) else s)

/-! ## Resumption (R314) -/

/-- What a folded hart's wait becomes: it issues a waiting instruction again, and goes on waiting for anything else (R310). -/
def Status.afterFold : Status → Status
  | .waiting (.again _) => .running
  | .waiting .pool => .running
  | .waiting .commands => .running
  | .waiting .hold => .running
  | .waiting (.remote _ _) => .running
  | x => x

/-- Bits of `discf` for the regions of a hart that were discarded, or all of them when they were lost. -/
def discBits (rs : List LRegion) (lost : Bool) : Nat := ((rs.filter (fun r => r.num != 16 && (r.disc || lost))).map (fun r => 2 ^ r.num)).foldl (fun a b => a ||| b) 0

/-- The hart that resumes from a frame at a place with an `lmap` (R311, R313, R314).  Its lane-cycle counters go on as they stand
whatever its new L is: which L the sum of R28 is meant for after that the manual does not say (log 59). -/
def Frame.resume (f : Frame) (place lmap : Nat) : Hart :=
  let h := f.hart
  let lanes := popcN 16 lmap
  let w := fmtWidth (h.vtype.toNat % 16)
  let g := 2 ^ (h.vtype.toNat / 16 % 4)
  let low (x : BitVec 4096) : BitVec 4096 := BitVec.ofNat 4096 (x.toNat % 2 ^ (256 * lanes))
  { h.resumeAt with
    place := place, coord := coordOf place, lmap := BitVec.ofNat 64 lmap, dirty := 0, v := if lanes == h.lanes then h.v else h.v.map low,
    vlmax := if lanes == h.lanes then h.vlmax else BitVec.ofNat 64 (vlmaxOf lanes w g h.vlcap),
    discf := if f.evicted then h.discf ||| BitVec.ofNat 64 (discBits h.local_ f.lost) else h.discf,
    status := h.status.afterFold }

/-- Restore saved regions byte for byte; what failed its check when it was saved fails it again (R262, R313). -/
def State.restore (s : State) (cl : Nat) (ck : Option Config.XtsKey) (bad : List Nat) : List (LRegion × List Byte) → State
  | [] => s
  | (r, bs) :: t =>
    let base := scratchKey cl 0 / 8
    ({ s with mem := Memory.setList s.mem (scratchKey cl r.off) ((openBytes ck r.off bs).take r.size),
              poison := (bad.filter r.hasGranule).map (fun g => base + g) ++ s.poison.filter (fun g => !(base ≤ g && r.hasGranule (g - base))) } :
      State).restore cl ck bad t

/-- Grant the memory of some evicted frames on a cluster and restore it; discardable and lost regions read zero (R246, R313, R317). -/
def State.restoreFrames (s : State) (cl : Nat) (fs : List Frame) : State :=
  match fs.find? (fun f => f.evicted) with
  | none => s
  | some f =>
    let segs := regionSegs f.hart.launchRegions
    let gone := regionSegs (f.hart.launchRegions.filter (fun r => r.disc || f.lost))
    let c := s.cluster cl
    let s := s.setCluster cl { c with segs := c.segs.map (fun x =>
      if gone.contains x.seg && x.holder != some f.hart.regionHolder then { x with discarded := true } else x) }
    let s := (s.grantSegs cl f.hart.sctx f.hart.regionHolder segs).restore cl (s.frameSeal f.hart) f.bad (f.saved.filter (fun r => r.1.num != 16))
    fs.foldl (fun s g => (s.grantSegs cl g.hart.sctx g.hart.stackHolder g.hart.stackSegList).restore cl (s.frameSeal g.hart) g.bad (g.saved.filter (fun r => r.1.num == 16))) s

/-- Bind the frames of a set at their places. -/
def State.bindFrames (s : State) : List (Frame × Nat) → State
  | [] => s
  | (f, p) :: t =>
    let h := f.resume p (s.resumeMap f p)
    let s := s.renameOwners (clusterOf p) h.key p
    ((s.bind h).setHub { s.hub with power := .active, idleSince := s.sevenths }).bindFrames t

/-- Give a resumed group its cluster and its queues back, from whichever of its frames kept them, one that still waits for a launch
among them (R208, R311). -/
def State.regroup (s : State) (cl : Nat) (f : Frame) (fs : List Frame) : State :=
  match f.hart.launch with
  | some (q, n) =>
    if s.stagesOf f.hart < 2 || (s.cluster cl).group.isSome then s else
    let g := (q, n, f.hart.ord, s.stagesOf f.hart)
    let qs := (((fs ++ s.frames.filter (fun x => x.hart.inGroup g)).find? (fun x => !x.queues.isEmpty)).map (fun x => x.queues)).getD []
    { s.setCluster cl { s.cluster cl with group := some g, queues := Vector.ofFn (fun k => qs.getD k.val []) } with
      frames := s.frames.map (fun x => if x.hart.inGroup g then { x with queues := [] } else x) }
  | none => s

/-- A frame that stays folded while its launch's memory moves to a cluster. -/
def Frame.moved (cl : Nat) (f : Frame) : Frame :=
  { f with evicted := false, lost := false, era := 0, saved := [], bad := [],
           hart := { f.hart with place := cl * 16 + f.hart.place % 16, discf := f.hart.discf ||| BitVec.ofNat 64 (discBits f.hart.local_ f.lost) } }

/-- HART_RESUME (R312, R314): the oldest folded hart that had place `h`, with the harts that resume with it, at a free place; a frame in
a held segment is read after the hold, and ends the low-power state of its channel (R250, R253).  When both copies of a frame fail their check the promise is void (R316). -/
def execHartResume (h place : Nat) (s : State) : Host.Outcome State Fault Refusal :=
  match s.frames.find? (fun f => f.hart.place == h && f.ready) with
  | none => .next s
  | some f =>
    if !s.firstCopy f && !f.mirrorOk then .fault .promiseVoid else
    let blocked := match f.hart.launch with
      | some (q, n) => (match s.launchAt q n with | some l => l.stopped || s.outranked l (dieOf place) | none => false)
      | none => false
    if blocked || s.hub.power == .standby || place ≥ 3584 then .next s else
    match s.resumePlaces f place with
    | none => .next s
    | some ps =>
      if ps.any (fun p => !s.firstCopy p.1 && !p.1.mirrorOk) then .fault .promiseVoid else
      let cl := clusterOf place
      let fs := ps.map (fun p => p.1)
      let behind := s.stayBehind f
      let keys := fs.flatMap (fun x => s.frameSegs x.hart)
      if keys.any s.heldSegment then .next s else
      let s := s.wakeKeys keys
      let s := s.restoreFrames cl (fs ++ behind)
      let s := { s with frames := (s.frames.filter (fun g => !fs.contains g)).map (fun g => if behind.contains g then g.moved cl else g) }
      .next ((s.bindFrames (ps.map (fun p => (s.unframe p.1, p.2)))).regroup cl f fs)

/-! ## Lost parts (R262, R263, R317) -/

/-- Cut an iteration short (R317): its harts and frames are gone; it is dispatched again when its launch is restartable. -/
def State.cutShort (s : State) (h : Hart) (lost : Bool) : State :=
  match h.launch with
  | none => s.unbind h.place
  | some (q, n) =>
    let mine (x : Hart) : Bool := x.inGroup (q, n, h.ord, 0)
    let bound := s.harts.filter mine
    let folded := (s.frames.filter (fun f => mine f.hart)).map (fun f => f.hart)
    let s := bound.foldl (fun s x => s.unbind x.place) { s with frames := s.frames.filter (fun f => !mine f.hart) }
    let s := ((bound ++ folded).foldl (fun s x => s.leave x) s).freeAllLeaving
    match s.launchAt q n with
    | none => s
    | some l =>
      if l.stopped then s
      else (s.putLaunch (if l.lr.restart then { l with redo := l.redo ++ [(h.ord, lost)] } else { l with cut := l.cut ++ [h.ord] })).enter q (.cut n h.ord l.lr.restart)

/-- Cut short every hart of a list that is still bound. -/
def State.cutAll (s : State) (lost : Bool) : List Hart → State
  | [] => s
  | h :: t => (if (s.hartAt h.place).any (fun x => x.launch == h.launch && x.ord == h.ord) then s.cutShort h lost else s).cutAll lost t

/-- A die's object replicas become stale, and the log copies in its HBM are to be made again (R331, R332). -/
def Robj.loseDie (die : Nat) (o : Robj) : Robj :=
  let o := if die < 4 then o.strike die else o
  { o with log := o.log.map (fun e => { e with copyA := if e.dies.1 == die then none else e.copyA, copyB := if e.dies.2 == die then none else e.copyB }) }

/-- Objects whose every replica is stale are lost (R332); a stale replica no longer holds back the trimming of the others' logs (R330). -/
def State.loseStale (s : State) : State :=
  s.hub.objects.foldl (fun s o => if o.lowest.isNone then s.loseObject o else (s.trim o).freeLeaving o.slot) s

/-- The NMU of a channel loses its commands; their tokens read UNKNOWN, its streams are lost (R273, R282). -/
def State.resetChannel (s : State) (ch : Nat) : State :=
  let n := s.nmu ch
  let cmds := n.queue ++ (n.run.map (fun r => r.cmd)).toList
  let s := cmds.foldl (fun s c => s.dropOut c) s
  let s := s.setNmu ch { s.nmu ch with run := none, queue := [], power := .up, saved := none, due := [] }
  ({ s with instars := s.instars.filter (fun i => i.home != ch) } : State).releaseHolds

/-- The die of a TLB (R259). -/
def TlbEntry.home (e : TlbEntry) : Nat := if e.die < 4 then e.die else (e.die - 4) / 16 / 448

/-- A cluster after a reset of its die: its commands, queues and grants are gone; sequence numbers go on. -/
def Cluster.afterReset (c : Cluster) : Cluster :=
  { Cluster.blank with copySeq := c.copySeq, gatherSeq := c.gatherSeq, bankSeq := c.bankSeq }

/-- DIE_RESET (R317): harts, regions and queues of the die are lost; folded harts survive in their frames without their
regions. -/
def execDieReset (die : Nat) (s : State) : Host.Outcome State Fault Refusal :=
  .next (
    if die ≥ 4 then s else
    let s := { s with down := if s.down.contains die then s.down else die :: s.down }
    let s := s.cutAll true (s.harts.filter (fun h => dieOf h.place == die && h.status != .unbound))
    let era := s.nextEra
    let lose (f : Frame) : Frame := if dieOf f.hart.place == die && !f.evicted then { f with evicted := true, lost := true, era := era, saved := [], bad := [] } else f
    let s := { s with frames := s.frames.map lose, clusters := s.clusters.map (fun (p : Nat × Cluster) => if clusterDie p.1 == die then (p.1, p.2.afterReset) else p),
                      mem := zeroRange s.mem (scratchKey (56 * die) 0) (56 * 2 ^ 21), tlb := s.tlb.filter (fun e => e.home != die), walks := s.walks.filter (fun e => e.die != die) }
    let s := (List.range 96).foldl (fun s k => s.resetChannel (96 * die + k)) s
    let up := (List.range 4).filter (fun d => !s.down.contains d)
    (s.setHub { s.hub with objects := s.hub.objects.map (Robj.loseDie die), qlogs := s.hub.qlogs.map (QueueLog.loseDie up die) }).loseStale)

/-- DIE_BACK (R317): the die may be used again; its replicas are rebuilt one by one (R331). -/
def execDieBack (die : Nat) (s : State) : Host.Outcome State Fault Refusal := .next { s with down := s.down.filter (fun d => d != die) }

/-- CHANNEL_RESET (R273, R282). -/
def execChannelReset (ch : Nat) (s : State) : Host.Outcome State Fault Refusal := .next (if ch < 384 then s.resetChannel ch else s)

/-- LANE_RETIRE (R263): the harts that hold the lane keep it until they resume at a VSETL.R. -/
def execLaneRetire (core lane : Nat) (s : State) : Host.Outcome State Fault Refusal :=
  .next (if core < 1792 && lane < 16 && !s.laneRetired core lane then { s with retired := (core, lane) :: s.retired } else s)

/-- HART_STATE_ERROR (R262): the hart stops with the data-check trap; its iteration is cut short, and a launch that cannot restart
it ends STOPPED. -/
def execHartStateError (h : Nat) (s : State) : Host.Outcome State Fault Refusal :=
  .next (
    let s := s.focus h
    if s.cur.place != h || s.cur.status == .unbound then s else
    let s := { s with cur := s.cur.takeTrap { cause := 8, tval := 0 } none }
    match s.cur.launch with
    | none => s
    | some (q, n) =>
      match s.launchAt q n with
      | none => s
      | some l =>
        if l.stopped then s
        else if l.lr.restart then (s.logS "hart state error" (BitVec.ofNat 64 h)).cutShort s.cur false
        else s.stopLaunch l)

end Sys2Proof.Machine
end

