-- ==== Sys2Proof/Machine/Pages.lean ====
section
/-!
DEFINITION. Answers to page requests (R260) and the invalidation queue (R259, R273).
-/

namespace Sys2Proof.Machine

/-! ## Page requests (R260) -/

/-- The hart waits for request `id`. -/
def Hart.waitsPage (id : Nat) (h : Hart) : Bool := match h.status with
  | .waiting (.page n) => n == id
  | .waiting (.initPage _ n) => n == id
  | _ => false

/-- A hart's request is answered: after Success it issues again; else the access raises the access violation to the supervisor
with the tval of the page fault (R206, R260). -/
def Hart.pageAnswer (r : PageReq) (success : Bool) (h : Hart) : Hart :=
  if !h.waitsPage r.id then h
  else if success then { h with status := .running, paged := pageOf r.addr :: h.paged }
  else { h.takeTrap { cause := 6, tval := r.tval, vec := h.reissue.isSome } h.reissue with strikes := [] }

/-- The watchpoint matches of a hart whose refused page ends its instruction are recorded with the trap (R343). -/
def State.strikeRefused (s : State) (id : Nat) (success : Bool) : State :=
  match (s.harts ++ s.frames.map (fun f => f.hart)).find? (Hart.waitsPage id) with
  | some h => if success then s else s.trapStrike h h.ip
  | none => s

/-- A PYINIT's request is answered: after Success it is made again; a refusal is a failed check, and it returns BADDESC (R198, R266). -/
def Hart.initAnswer (id : Nat) (a : Word) (success : Bool) (h : Hart) : Hart :=
  match h.status with
  | .waiting (.initPage w n) =>
    if n != id then h
    else if success then { h with status := .waiting (.again w), paged := pageOf a :: h.paged }
    else { (h.wx (wD w) 1).advance with status := .running }
  | _ => h

/-- A stream-load unit's request is answered, while its image is bound (R293). -/
def Hart.imageAnswer (key q id : Nat) (a : Word) (success : Bool) (h : Hart) : Hart :=
  if h.key != key || h.status == .unbound then h else
  let h := match h.rq q with
    | .image im pos =>
      if im.ask != some id then h else
      h.wq q (.image (if success then { im with ask := none, paged := pageOf a :: im.paged }
                      else { im with ask := none, opened := true, fail := some .decode }) pos)
    | _ => h
  if h.waitsPage id then { h with status := .running } else h

/-- Answer the request of whoever made it. -/
def State.answer (s : State) (r : PageReq) (success : Bool) : State :=
  match r.who with
  | .hart _ => (s.strikeRefused r.id success).everyHart (Hart.pageAnswer r success)
  | .pyinit _ => s.everyHart (Hart.initAnswer r.id r.addr success)
  | .image key q => s.everyHart (Hart.imageAnswer key q r.id r.addr success)
  | .engine cl token =>
    (match s.findCmd cl token with
     | some c =>
       if c.page != some r.id then s
       else if success then s.putCmd cl { c with page := none, paged := pageOf r.addr :: c.paged }
       else s.endEngine cl c stAccess r.addr
     | none => s)
  | .nmu ch =>
    (match (s.nmu ch).run with
     | some k =>
       if k.wait != some r.id then s
       else if success then s.putRun ch { k with wait := none }
       else s.nmuEnd ch k nmAccess r.addr
     | none => s)
  | .queue n =>
    if !(s.hostQueue n).busy then s
    else if success then s.submit n
    else s.refuseSubmit n reasonBadRec

/-- The bound or folded hart whose launch a page request belongs to: the one that waits for it, the one whose queue reads an image, or the
one that issued the command. -/
def State.requester (s : State) (r : PageReq) : Option Hart :=
  let owner : Option Nat := match r.who with
    | .engine cl token => (s.findCmd cl token).map (fun c => c.owner)
    | .nmu ch => (s.nmu ch).run.map (fun k => k.cmd.owner)
    | .image key _ => some key
    | _ => none
  (s.harts ++ s.frames.map (fun f => f.hart)).find? (fun h =>
    h.status != .unbound && (h.waitsPage r.id || owner == some h.key || owner == some h.place))

/-- The comparators of watchpoints on a page are installed after a request for it succeeds (R338). -/
def State.installPage (s : State) (ctx a : Word) : State :=
  match s.blockOf ctx with
  | some (n, d) => s.setDebug n (s.install (fun x => pageOf x == pageOf a) d)
  | none => s

/-- PAGE_REQUEST_RESPONSE (R260): each request is answered once; the answer is journalled (R348). -/
def execPageRequestResponse (req : Nat) (success : Bool) (s : State) : Host.Outcome State Fault Refusal :=
  .next (match s.hub.pages.find? (fun p => p.id == req) with
    | none => s
    | some r =>
      let s := s.setHub { s.hub with pages := s.hub.pages.filter (fun p => p.id != req) }
      let (ok, s) := match s.requester r with
        | some h =>
          let (ys, s) := s.journal h.launch h.jkey jPage [BitVec.ofNat 64 (b2n success)]
          (ys.getD 0 0 == 1, s)
        | none => (success, s)
      (if ok then s.installPage r.ctx r.addr else s).answer r ok)

/-! ## The invalidation queue (R259) -/

/-- Entries free in the queue. -/
def State.iqFree (s : State) : Nat := 64 - s.hub.invs.length

/-- A doubleword of host memory. -/
def State.hostDword (s : State) (a : Word) (k : Nat) : Nat := leNat (Memory.getList s.mem (s.paKey (a.toNat + 8 * k)) 8)

/-- The request of 32 bytes at a host address. -/
def State.invRequest (s : State) (a : Word) : InvReq :=
  let d0 := s.hostDword a 0
  let d1 := s.hostDword a 1
  { ctx := BitVec.ofNat 64 (d0 % 2 ^ 32), va := BitVec.ofNat 64 (d1 / 4096 * 4096), size := d1 % 4,
    count := BitVec.ofNat 64 (s.hostDword a 2), done := BitVec.ofNat 64 (s.hostDword a 3),
    bad := d0 / 2 ^ 32 != 0 || d1 / 4 % 1024 != 0 }

/-- A request's 32 bytes lie in a held segment. -/
def State.iqHeld (s : State) (a : Word) : Bool := s.heldSegment (s.paKey a.toNat) || s.heldSegment (s.paKey (a.toNat + 31))

/-- Read the request that IQSUB names; with no free entry the write is discarded (R259, R355), and so is a request whose 32 bytes fail their check or
cannot be reached (R262, R354; log 60). -/
def State.readIqsub (s : State) (addr : Word) : State :=
  if s.iqFree == 0 || s.target addr.toNat == .hole || s.poisonIn (s.paKey addr.toNat) 32 then s.logS "IQSUB discarded" addr
  else (s.wakeKey (s.paKey addr.toNat)).setHub { s.hub with invs := s.hub.invs ++ [s.invRequest addr] }

/-- Write IQSUB; a request whose bytes lie in a held segment is read after the hold, and later ones after it (R250). -/
def State.writeIqsub (s : State) (addr : Word) : State :=
  if s.iqHeld addr || s.hub.requests.any (fun r => match r with | .inv _ => true | _ => false)
  then s.setHub { s.hub with requests := s.hub.requests ++ [.inv addr] } else s.readIqsub addr

/-- INVALIDATION_REQUEST (R259, R355, R364). -/
def execInvalidationRequest (port : Nat) (addr : Word) (s : State) : Host.Outcome State Fault Refusal :=
  .next (if port < 2 then s.hostAccess false (fun s => s.writeIqsub addr) else s)

/-- The request concerns a context. -/
def InvReq.names (r : InvReq) (ctx : Word) : Bool := r.ctx == 0xFFFFFFFF || r.ctx == ctx

/-- The request covers [lo, hi). -/
def InvReq.covers (r : InvReq) (lo hi : Nat) : Bool :=
  r.size == 3 || rangesMeet (lo, hi) (r.va.toNat, r.va.toNat + r.count.toNat * 2 ^ (12 + 9 * r.size))

/-- The storage of a stream lies in a page of the request. -/
def InvReq.takesStream (r : InvReq) (i : Instar) : Bool :=
  r.names i.ctx && (List.range i.segs.length).any (fun k => let a := (i.store + BitVec.ofNat 64 (8192 * k)).toNat; r.covers a (a + 256))

/-- Write `done` of a request; where its host can no longer be reached the write is lost (R354). -/
def State.writeDone8 (s : State) (a : Word) (x : Nat) : State :=
  match s.target a.toNat with
  | .hole => s.logS "invalidation completion" a
  | _ => let s := s.wakeKey (s.paKey a.toNat); { s with mem := Memory.setList s.mem (s.paKey a.toNat) (leBytes 8 x) }

/-- The request covers some of what an entry that a walker holds maps. -/
def InvReq.takesTable (r : InvReq) (e : NonLeaf) : Bool :=
  r.names e.ctx && r.covers (e.top * 2 ^ (21 + 9 * e.level)) ((e.top + 1) * 2 ^ (21 + 9 * e.level))

/-- The comparators of watched addresses whose translation a request invalidates are lost (R338). -/
def InvReq.dropComps (r : InvReq) (d : DebugBlock) : DebugBlock :=
  if !r.names d.ctx then d else
  { d with comp := Vector.ofFn (fun w => if r.covers d.wpaddr[w].toNat (d.wpaddr[w].toNat + 16) then none else d.comp[w]) }

/-- Harts and folded harts of the contexts of a request, by their keys and places. -/
def State.named (s : State) (r : InvReq) : List Nat :=
  ((s.harts.filter (fun h => r.names h.sctx)).map (fun h => h.place)) ++ ((s.frames.filter (fun f => r.names f.hart.sctx)).map (fun f => f.hart.key))

/-- Every access that was translated can be performed at its home now: none of the contexts' harts has one that must wait, and none of
their writes is on its way (R250, R259). -/
def State.invReady (s : State) (r : InvReq) : Bool :=
  (s.harts.filter (fun h => r.names h.sctx)).all (fun h => s.mayDrain h.place) && !s.net.any (fun p => (s.named r).contains p.owner) &&
    !s.heldSegment (s.paKey r.done.toNat)

/-- Carry out a request: no old translation of the range can be used, fetched words of the contexts are dropped, and every access
translated with one is performed. -/
def State.invalidate (s : State) (r : InvReq) : State :=
  let places := (s.harts.filter (fun h => r.names h.sctx)).map (fun h => h.place)
  let s := places.foldl (fun s p => s.drainHart p) s
  let s := { s with tlb := s.tlb.filter (fun e => !(r.names e.ctx && r.covers (e.page * 2 ^ e.bits) ((e.page + 1) * 2 ^ e.bits))),
                    walks := s.walks.filter (fun e => !r.takesTable e),
                    hub := { s.hub with debug := (s.hub.debug).map (fun (p : Nat × DebugBlock) => (p.1, r.dropComps p.2)) } }
  ((s.dropStreams r.takesStream).mapHarts (fun h => if r.names h.sctx then { h with words := [] } else h)).writeDone8 r.done 1

/-- INVALIDATION_COMPLETE (R259): the oldest request; one with a reserved bit set invalidates nothing and is completed with 2. -/
def execInvalidationComplete (s : State) : Host.Outcome State Fault Refusal :=
  .next (match s.hub.invs with
    | [] => s
    | r :: t =>
      if (if r.bad then s.heldSegment (s.paKey r.done.toNat) else !s.invReady r) then s else
      let s := s.setHub { s.hub with invs := t }
      if r.bad then s.writeDone8 r.done 2 else s.invalidate r)

end Sys2Proof.Machine
end

