-- ==== Sys2Proof/Machine/Debug.lean ====
section
/-!
DEFINITION. The debug blocks' events (R336 to R344), the ports' digests and their replay (R347 to R351).
-/

namespace Sys2Proof.Machine

/-! ## Binding and resuming (R336, R340 to R343) -/

/-- Go on after a stop (R343): a hart stopped on BRK continues after it; one that waited issues its instruction again. -/
def Hart.debugResume (ctx : Word) (h : Hart) : Hart :=
  if h.sctx != ctx || !h.held then h else
  let h := { h with held := false }
  if h.status == .stopped && h.tcause.toNat % 256 == 0xD then { h.resumeAt with status := .running }
  else { h with status := h.status.afterFold }

/-- A completion of the context may be seen. -/
def showStatus (ctx : Word) (x : CmdStatus) : CmdStatus := if x.ctx == ctx then { x with hidden := false } else x

/-- Completions held while the context was stopped are delivered (R342, R343). -/
def State.showAll (s : State) (ctx : Word) : State :=
  { s with
    clusters := s.clusters.map (fun (p : Nat × Cluster) =>
      (p.1, { p.2 with copyLog := p.2.copyLog.map (showStatus ctx), gatherLog := p.2.gatherLog.map (showStatus ctx) }))
    nmus := s.nmus.map (fun (p : Nat × Nmu) => (p.1, { p.2 with log := p.2.log.map (showStatus ctx) })) }

/-- Resume the context of block n: the journal area has been drained (R343, R349). -/
def State.resumeContext (s : State) (n : Nat) : State :=
  let d := s.debug n
  let s := s.setDebug n { d with stopped := false, jfill := 0, wanted := false, owed := 0 }
  (s.everyHart (Hart.debugResume d.ctx)).showAll d.ctx

/-- Stop the context of block n at the request of its host (R340, R341). -/
def State.requestStop (s : State) (n : Nat) : State :=
  let d := s.debug n
  if d.ctx == 0 then s
  else if d.stopped then s.setDebug n { d with wanted := false }
  else s.stopContext n none { cause := 0x15, tval := 0, at_ := s.sevenths, kind := 7, number := 0, agent := 0, addr := 0 }

/-- Records that the harts of a context have still to write as they stop. -/
def State.recordsToCome (s : State) (ctx : Word) : Nat :=
  ((s.harts.filter (fun h => h.sctx == ctx && h.pending.isSome)).map (fun h => 1 + h.more.length)).sum

/-- The records that keep a context stopped have been taken: none is held, those from before there was a ring are consumed, and the ring has
room for those of harts that are still stopping (R344). -/
def State.recordsTaken (s : State) (n : Nat) : Bool :=
  let d := s.debug n
  d.waiting.isEmpty && d.owed ≤ d.tail && (s.recordsToCome d.ctx == 0 || (d.hasRing && s.recordsToCome d.ctx + d.head ≤ ringSlots d + d.tail))

/-- A resume asked for by the host: the context stays stopped until its records have been taken (R344). -/
def State.requestResume (s : State) (n : Nat) : State :=
  let d := s.debug n
  if d.ctx == 0 || !d.stopped then s
  else if s.recordsTaken n then s.resumeContext n else s.setDebug n { d with wanted := true }

/-- A resume that waited for the records takes place. -/
def State.lateResume (s : State) (n : Nat) : State := if (s.debug n).wanted && s.recordsTaken n then s.resumeContext n else s

/-- The blocks write the records that a held segment kept waiting (R250). -/
def State.flushAll (s : State) : State :=
  (s.hub.debug).foldl (fun (s : State) (p : Nat × DebugBlock) =>
    if (s.debug p.1).waiting.isEmpty then s else (s.flushRecords p.1 (s.debug p.1).waiting.length).lateResume p.1) s

/-- Release a block; a context it had stopped runs on. -/
def State.releaseBlock (s : State) (n : Nat) : State :=
  let s := if (s.debug n).stopped then s.resumeContext n else s
  s.setDebug n { s.debug n with ctx := 0, comp := Vector.replicate 4 none }

/-- A context may be debugged (R336, R352): it has no cocoon, or its tenant has set the debug enable. -/
def State.debuggable (s : State) (ctx : Word) : Bool := s.hub.cocoons.all (fun c => c.ctx != ctx || c.debug)

/-- Write DBCTX (R336). -/
def State.writeDbctx (s : State) (n : Nat) (x : Word) : State :=
  if x.toNat / 2 ^ 32 != 0 then s.logS "DBCTX discarded" x
  else if x == 0 then s.releaseBlock n
  else if (s.hub.debug).any (fun p => p.1 != n && p.2.ctx == x) then s.logS "DBCTX discarded" x
  else if !s.debuggable x then (s.releaseBlock n).logS "DBCTX discarded" x
  else if (s.debug n).ctx == x then s
  else
    let s := s.releaseBlock n
    s.setDebug n (s.install (fun _ => true) { s.debug n with ctx := x, recs := [] })

/-- DBCTX_WRITE (R336). -/
def execDbctxWrite (n : Nat) (value : Word) (s : State) : Host.Outcome State Fault Refusal := .next (if n < 64 then s.writeDbctx n value else s)

/-- DBCTL_STOP (R340). -/
def execDbctlStop (n : Nat) (s : State) : Host.Outcome State Fault Refusal := .next (if n < 64 then s.requestStop n else s)

/-- DBCTL_RESUME (R343). -/
def execDbctlResume (n : Nat) (s : State) : Host.Outcome State Fault Refusal := .next (if n < 64 then s.requestResume n else s)

/-- A context that may no longer be debugged is served by no block (R352). -/
def State.dropBlocks (s : State) : State :=
  (s.hub.debug).foldl (fun (s : State) (p : Nat × DebugBlock) =>
    if p.2.ctx != 0 && !s.debuggable p.2.ctx then s.releaseBlock p.1 else s) s

/-- Begin a replay: a port expects what it accepted in the recording (R350, R351). -/
def PortRec.replay (now : Nat) (p : PortRec) : PortRec :=
  { p with count := 0, digest := 0, lastAt := now, seen := [], talk := [], fresh := [], split := none, expect := if p.seen.isEmpty then p.expect else p.seen }

/-- A change of the mode of block n (R337, R350): a replay begins, with the recorded launches to be submitted again; or a recording does,
with an empty journal. -/
def State.changeMode (s : State) (n mode : Nat) : State :=
  let d := s.debug n
  if mode == d.mode then s
  else if mode == 1 then
    (s.setHub { s.hub with ports := s.hub.ports.map (fun p => if ofBlock n p then (p.1, p.2.replay s.sevenths) else p) }).setDebug n { d with mode := 1, recs := [] }
  else (s.setHub { s.hub with ports := s.hub.ports.filter (fun p => !ofBlock n p) }).setDebug n { d with mode := mode, recs := [], journal := [], jlate := [] }

/-- Write DBCTL (R337): the mode, strip records, and a stop or a resume. -/
def State.writeDbctl (s : State) (n : Nat) (x : Word) : State :=
  let v := x.toNat
  if v / 2 ^ 10 % 2 ^ 53 != 0 || v / 2 ^ 8 % 4 > 1 || v % 4 == 3 then s.logS "DBCTL discarded" x else
  let s := s.changeMode n (v / 2 ^ 8 % 4)
  let s := s.setDebug n { s.debug n with per := v / 8 % 32, prof := bitN v 2 }
  if bitN v 0 then s.requestStop n else if bitN v 1 then s.requestResume n else s

/-! ## The record ring (R337, R344) -/

/-- Write DBRING: a ring is configured, and held records are written to it. -/
def State.writeDbring (s : State) (n : Nat) (x : Word) : State :=
  let v := x.toNat
  if v / 2 ^ 57 != 0 || v / 2 ^ 5 % 2 ^ 7 != 0 || v % 32 < 6 || v % 32 > 20 then s.logS "DBRING discarded" x
  else
    let d := s.debug n
    let owed := if d.hasRing then 0 else d.waiting.length
    ((s.setDebug n { d with ring := x, hasRing := true, head := 0, tail := 0, owed := owed }).flushRecords n d.waiting.length).lateResume n

/-- Write DBTAIL: records are consumed, and held ones are written. -/
def State.writeDbtail (s : State) (n : Nat) (x : Word) : State :=
  if x.toNat > (s.debug n).head then s.logS "DBTAIL discarded" x
  else ((s.setDebug n { s.debug n with tail := x.toNat }).flushRecords n (s.debug n).waiting.length).lateResume n

/-- DBRING_WRITE (R337). -/
def execDbringWrite (n : Nat) (value : Word) (s : State) : Host.Outcome State Fault Refusal := .next (if n < 64 then s.writeDbring n value else s)

/-- DBTAIL_WRITE (R344). -/
def execDbtailWrite (n : Nat) (value : Word) (s : State) : Host.Outcome State Fault Refusal := .next (if n < 64 then s.writeDbtail n value else s)

/-- STOP_SKID_TIMEOUT (R341): 4,096 cycles after the event, a hart that reached no strip boundary stops between element groups. -/
def execStopSkidTimeout (h : Nat) (s : State) : Host.Outcome State Fault Refusal :=
  .next (
    let s := s.focus h
    if s.cur.place != h then s else
    match s.cur.pending with
    | some _ => if s.cur.owedAsks.any (fun k => k.at_ + 4096 * 5 * s.hub.divider ≤ s.sevenths) then s.takeStop .group else s
    | none => s)

/-! ## Ports (R347, R350, R351) -/

/-- Keys of the bytes that a journalled foreign write addresses. -/
def State.writeSpan (s : State) (e : List Word) : List Nat := (List.range (e.drop 5).length).map (fun j => s.paKey ((e.getD 4 0).toNat + j))

/-- Inject the first foreign write that stands at the present place of a port's order; one that meets a held segment waits (R250, R350). -/
def State.inject (s : State) (n port i : Nat) : State :=
  let d := s.debug n
  match d.journal.find? (writeAt port i (s.port (portKey port n i)).count) with
  | none => s
  | some e =>
    let ks := s.writeSpan e
    if ks.any s.heldSegment then s else
    let key := ks.headD 0
    let bs := (e.drop 5).map (fun w => BitVec.ofNat 8 w.toNat)
    let s := (s.wakeKeys ks).setDebug n { d with journal := d.journal.erase e }
    { s with mem := Memory.setList s.mem key (kindEffect ((e.getD 3 0).setWidth 8) (Memory.getList s.mem key bs.length) bs) }

/-- Inject the foreign writes that stand next at the ports of a block in replay, and let what its ports held try again (R350). -/
def State.injectAll (s : State) (n : Nat) : State :=
  if (s.debug n).mode != 1 || (s.debug n).recs.isEmpty then s else
  (((s.hub.ports).filter (ofBlock n)).foldl (fun (s : State) p =>
    (List.range (s.debug n).journal.length).foldl (fun (s : State) _ => s.inject n (p.1 % 2 ^ 16) (p.1 / 2 ^ 22)) s) s).releaseHolds

/-- PORT_MESSAGE_ACCEPT (R347 to R351): a message that comes from outside the machine's own accesses reaches a port. -/
def execPortMessageAccept (port : Nat) (msg : Message) (s : State) : Host.Outcome State Fault Refusal :=
  .next ((s.acceptMessage port (some (msg.queue, msg.launch)) msg).getD s)

/-- Whether the next journalled message of a launch at a port is overdue (R351). -/
def State.checkPort (s : State) (n port i : Nat) : State :=
  let p := s.port (portKey port n i)
  match p.expect with
  | [] => s
  | x :: _ =>
    if (s.debug n).mode == 1 && p.lastAt + 70000000 ≤ s.sevenths then s.diverge n i port 0xFFFF (p.count + 1) (nextDigest p.digest x) else s

/-- REPLAY_DIVERGENCE_TIMEOUT (R351): the next journalled message has not arrived for 10 ms. -/
def execReplayDivergenceTimeout (port : Nat) (s : State) : Host.Outcome State Fault Refusal :=
  .next ((s.hub.debug).foldl (fun (s : State) (b : Nat × DebugBlock) =>
    if b.2.ctx == 0 then s else (List.range b.2.recs.length).foldl (fun s i => s.checkPort b.1 port i) s) s)

/-- hokril loads a journal into block n (R350). -/
def State.loadJournal (s : State) (n : Nat) (entries : List (List Word)) (ports : List (Nat × Nat × List (List Byte))) : State :=
  let s := s.setDebug n { s.debug n with journal := entries }
  ports.foldl (fun (s : State) p => s.setPort (portKey p.1 n p.2.1) { PortRec.blank with lastAt := s.sevenths, expect := p.2.2 }) s

end Sys2Proof.Machine
end

