-- ==== Sys2Proof/Machine/FpScalar.lean ====
section
/-!
DEFINITION. The scalar FP32 instructions (R107, R108).
-/

namespace Sys2Proof.Machine

/-- The effective mode of a scalar FP32 instruction: the prefix, its own field, `vrm` (R4, R107). -/
def Hart.fpMode (h : Hart) (rm : BitVec 3) : Nat :=
  match pfxRm h.pfx with
  | some r => r
  | none => if rm == 7#3 then h.vrm.toNat % 8 else rm.toNat

/-- An FP32 operand: bits [31:0] (R7). -/
def Hart.readF32 (h : Hart) (r : Reg) : Nat := h.readX r % 2 ^ 32

/-- Deliver a scalar FP result: its flags are set, and an enabled one raises the FP trap with the destination unwritten
(R107). -/
def fpDone (s : State) (d : Reg) (r : Nat × Nat) : Flow :=
  let h := s.cur.raise r.2
  if r.2 &&& h.enabled != 0 then .trap { cause := 0xF, tval := 0 } { s with cur := h }
  else writeDone { s with cur := h } d r.1

/-- An instruction that rounds takes a rounding override (R122). -/
def fpRound (s : State) (k : State → Flow) : Flow :=
  if pfxFits s.cur.pfx { rm := true } then k s else .trap { cause := 1, tval := 0 } s

/-- A two-operand operation that rounds. -/
def fpBin (g : Nat → Nat → Nat → Nat × Nat) (d a b : Reg) (rm : BitVec 3) (s : State) : Flow :=
  fpRound s (fun s => fpDone s d (g (s.cur.fpMode rm) (s.cur.readF32 a) (s.cur.readF32 b)))

/-- A comparison, written as an integer (R107). -/
def fpCmp (rel : Ex → Ex → Bool) (quiet : Bool) (d a b : Reg) (s : State) : Flow :=
  let r := cmpF fp32 rel quiet (s.cur.readF32 a) (s.cur.readF32 b)
  fpDone s d (b2n r.1, r.2)

/-- FCVT by kind (R91, R108): 0 to 3 into an integer, 4 to 7 from one; the 64-bit kinds are a lane-mode error in a
thread. -/
def fcvt (d a : Reg) (kind rm : BitVec 3) (s : State) : Flow :=
  if s.cur.lane.isSome && kind.getLsbD 0 then .trap { cause := 0x11, tval := 0 } s else
  fpRound s (fun s =>
    let w := if kind.getLsbD 0 then 64 else 32
    let natural := kind.getLsbD 1
    let mode := s.cur.fpMode rm
    if kind.getLsbD 2 then
      fpDone s d (deliver fp32 mode (ofIntBits w natural (s.cur.readX a % 2 ^ w), 0))
    else
      let r := toIntEx mode w natural (readF fp32 (s.cur.readF32 a))
      fpDone s d ((if natural then r.1 else wrapN (sintN w r.1) 64), r.2))

/-- FADD (R107). -/
def execFadd (d a b : Reg) (rm : BitVec 3) (s : State) : Host.Outcome State Fault Refusal :=
  performPfx (faddWord d a b rm) s (fpBin (faddF fp32) d a b rm)

/-- FSUB (R107). -/
def execFsub (d a b : Reg) (rm : BitVec 3) (s : State) : Host.Outcome State Fault Refusal :=
  performPfx (fsubWord d a b rm) s (fpBin (fsubF fp32) d a b rm)

/-- FMUL (R107). -/
def execFmul (d a b : Reg) (rm : BitVec 3) (s : State) : Host.Outcome State Fault Refusal :=
  performPfx (fmulWord d a b rm) s (fpBin (fmulF fp32) d a b rm)

/-- FDIV (R107). -/
def execFdiv (d a b : Reg) (rm : BitVec 3) (s : State) : Host.Outcome State Fault Refusal :=
  performPfx (fdivWord d a b rm) s (fpBin (fdivF fp32) d a b rm)

/-- FSQRT (R107). -/
def execFsqrt (d a : Reg) (rm : BitVec 3) (s : State) : Host.Outcome State Fault Refusal :=
  performPfx (fsqrtWord d a rm) s (fun s => fpRound s (fun s => fpDone s d (fsqrtF fp32 (s.cur.fpMode rm) (s.cur.readF32 a))))

/-- FMADD (R107): a · b + d with one rounding. -/
def execFmadd (d a b : Reg) (rm : BitVec 3) (s : State) : Host.Outcome State Fault Refusal :=
  performPfx (fmaddWord d a b rm) s (fun s => fpRound s (fun s =>
    fpDone s d (fmaF fp32 (s.cur.fpMode rm) (s.cur.readF32 a) (s.cur.readF32 b) (s.cur.readF32 d))))

/-- FMIN (R48, R107). -/
def execFmin (d a b : Reg) (s : State) : Host.Outcome State Fault Refusal :=
  perform (fminWord d a b) s (fun s => fpDone s d (minMaxNum fp32 false (s.cur.readF32 a) (s.cur.readF32 b)))

/-- FMAX (R48, R107). -/
def execFmax (d a b : Reg) (s : State) : Host.Outcome State Fault Refusal :=
  perform (fmaxWord d a b) s (fun s => fpDone s d (minMaxNum fp32 true (s.cur.readF32 a) (s.cur.readF32 b)))

/-- FEQ (R107): NV only for a signalling NaN. -/
def execFeq (d a b : Reg) (s : State) : Host.Outcome State Fault Refusal := perform (feqWord d a b) s (fpCmp feqRel true d a b)

/-- FLT (R107): NV for any NaN. -/
def execFlt (d a b : Reg) (s : State) : Host.Outcome State Fault Refusal := perform (fltWord d a b) s (fpCmp fltRel false d a b)

/-- FLE (R107): NV for any NaN. -/
def execFle (d a b : Reg) (s : State) : Host.Outcome State Fault Refusal := perform (fleWord d a b) s (fpCmp fleRel false d a b)

/-- FCVT (R108). -/
def execFcvt (d a : Reg) (kind rm : BitVec 3) (s : State) : Host.Outcome State Fault Refusal :=
  performPfx (fcvtWord d a kind rm) s (fcvt d a kind rm)

/-- FCLASS (R107). -/
def execFclass (d a : Reg) (s : State) : Host.Outcome State Fault Refusal :=
  perform (fclassWord d a) s (fun s => writeDone s d (classF fp32 (s.cur.readF32 a)))

end Sys2Proof.Machine
end

