-- ==== Sys2Proof/Machine/Hub.lean ====
section
/-!
DEFINITION. The hub: its management window (R355 to R358), host ports and decoders (R248, R353, R354), firmware and
attestation (R364 to R366), cocoons (R352, R367), power and time (R28, R368, R369), the scale-up ports (R360 to R363),
contexts (R213, R323), and what hosts and remote devices ask of memory here (R359, R361).
-/

namespace Sys2Proof.Machine

/-! ## Semaphores (R357) -/

def State.setSem (s : State) (n : Nat) (x : Option Nat) : State := s.setHub { s.hub with sems := s.hub.sems.set (reg16 n) x }

/-- The other port's claim of semaphore n comes in the same cycle: it is the next turn (log 40). -/
def State.tied (s : State) (port n : Nat) : Bool :=
  match s.schedule with
  | .event (.semaphoreClaim p m) :: _ => m == n && p == 1 - port
  | _ => false

/-- A read of semaphore n by a port claims it when it is free (R357). -/
def State.claimSem (s : State) (port n : Nat) : State :=
  if n ≥ 16 || port ≥ 2 || (s.hub.sems.toList.getD n none).isSome then s
  else if s.tied port n then
    let winner := s.hub.lastLoser.getD 0
    (s.setSem n (some winner)).setHub { (s.setSem n (some winner)).hub with lastLoser := some (1 - winner) }
  else s.setSem n (some port)

/-- A write to semaphore n: a 0 by the holder releases it, any other write is discarded (R357); one that sets a reserved bit is
logged (R3, R355). -/
def State.writeSem (s : State) (port n : Nat) (x : Word) : State :=
  if x.toNat / 8 != 0 then s.logS "semaphore discarded" x
  else if n < 16 && x == 0 && s.holds port n then s.setSem n none else s

/-- SEMAPHORE_CLAIM (R357, R369). -/
def execSemaphoreClaim (port n : Nat) (s : State) : Host.Outcome State Fault Refusal := .next (s.hostAccess true (fun s => s.claimSem port n))

/-- SEMAPHORE_RELEASE (R357, R369). -/
def execSemaphoreRelease (port n : Nat) (s : State) : Host.Outcome State Fault Refusal := .next (s.hostAccess true (fun s => s.writeSem port n 0))

/-! ## The event-counter window (R358) -/

/-- The port holds semaphore n, or its write is discarded and logged (R355). -/
def State.guarded (s : State) (port n : Nat) (what : String) (x : Word) (f : State → State) : State :=
  if s.holds port n then f s else s.logS what x

/-- The agent identifier of a host port (R345). -/
def portAgent (port : Nat) : Nat := 6 * 2 ^ 12 + port

def HubReq.agent : HubReq → Nat
  | .inv _ => hubAgent
  | .mem a _ => a
  | .add a _ _ _ => a

/-- Write EVADD: a release at SYS scope of the port's earlier writes, so it waits for those that are still to be performed (R358). -/
def State.writeEvadd (s : State) (port : Nat) (x : Word) : State :=
  match s.context s.hub.evctx with
  | some _ =>
    if s.hub.requests.any (fun r => r.agent == portAgent port)
    then s.setHub { s.hub with requests := s.hub.requests ++ [.add (portAgent port) s.hub.evctx s.hub.evidx.toNat x] }
    else s.addCounter s.hub.evctx s.hub.evidx.toNat x
  | none => s.logS "EVADD discarded" x

/-- Write EVCLR. -/
def State.writeEvclr (s : State) (x : Word) : State :=
  if x.toNat / 2 != 0 then s.logS "EVCLR discarded" x
  else match s.context s.hub.evctx with
    | some c => if x == 1 then s.putContext { c with counters := put c.counters s.hub.evidx.toNat 0 } else s
    | none => s.logS "EVCLR discarded" x

/-- EVADD (R358, R364). -/
def execEvadd (port : Nat) (value : Word) (s : State) : Host.Outcome State Fault Refusal :=
  .next (s.hostAccess false (fun s => s.guarded port 1 "EVADD discarded" value (fun s => s.writeEvadd port value)))

/-- EVCLR (R358, R364). -/
def execEvclr (port : Nat) (value : Word) (s : State) : Host.Outcome State Fault Refusal :=
  .next (s.hostAccess false (fun s => s.guarded port 1 "EVCLR discarded" value (fun s => s.writeEvclr value)))

/-! ## The management window (R355) -/

/-- A register value is taken when the bits of `reserved` are zero. -/
def State.take (s : State) (what : String) (ok : Bool) (x : Word) (f : State → State) : State := if ok then f s else s.logS what x

/-- The low n bits are the only ones that may be set. -/
def fits (x : Word) (n : Nat) : Bool := x.toNat / 2 ^ n == 0

def reg2 (n : Nat) : Fin 2 := ⟨n % 2, Nat.mod_lt _ (by decide)⟩

/-- Write register `o` of host launch queue n (R301). -/
def State.writeQueueReg (s : State) (port n o : Nat) (x : Word) : State :=
  match o with
  | 0x00 => s.writeHqown port n x
  | 0x08 => if s.ownsQueue port n then s.take "HQCTX discarded" (fits x 32) x (fun s => s.setHostQueue n { s.hostQueue n with ctx := x })
            else s.logS "HQCTX discarded" x
  | 0x10 => s.writeHqsub port n x
  | _ => if s.ownsQueue port n then s else s.logS "HQSTAT discarded" x

/-- Write an object-registration register (R321); k lies in 4 to 16. -/
def State.writeObjectReg (s : State) (port o : Nat) (x : Word) : State :=
  let k := x.toNat % 32
  match o with
  | 0x00 => s.guarded port 0 "ROCTX discarded" x (fun s => s.take "ROCTX discarded" (fits x 32) x (fun s => s.setHub { s.hub with roctx := x }))
  | 0x08 => s.guarded port 0 "ROPARM discarded" x (fun s =>
      s.take "ROPARM discarded" (x.toNat / 32 % 2 ^ 27 == 0 && 4 ≤ k && k ≤ 16) x (fun s => s.setHub { s.hub with roparm := x }))
  | 0x10 => s.writeRoreg port x
  | 0x18 => s.writeRodereg port x
  | 0x20 => s.guarded port 0 "ROSTAT discarded" x (fun s => s.take "ROSTAT discarded" (x.toNat / 2 ^ 8 % 2 ^ 54 == 0) x (fun s => s))
  | _ => s.guarded port 0 "ROHDL discarded" x (fun s => s)

/-- Write DBJRNL: an empty journal area (R337, R349; log 41). -/
def State.writeDbjrnl (s : State) (n : Nat) (x : Word) : State :=
  let k := x.toNat % 32
  s.take "DBJRNL discarded" (fits x 57 && x.toNat / 32 % 2 ^ 7 == 0 && 20 ≤ k) x (fun s => s.setDebug n { s.debug n with jrnl := x, jfill := 0 })

/-- Write watchpoint, instruction breakpoint or strip breakpoint registers of block n (R337). -/
def State.writeBreaks (s : State) (n o : Nat) (x : Word) : State :=
  let d := s.debug n
  let v := x.toNat
  if 0x60 ≤ o && o < 0xA0 then
    let w := (o - 0x60) / 16
    (if o % 16 == 0 then
       s.take "WPADDR discarded" (fits x 57 && v % 16 == 0) x (fun s => s.setDebug n (s.install (fun a => a == x) { d with wpaddr := d.wpaddr.set (reg4 w) x }))
     else s.take "WPCTL discarded" (fits x 20) x (fun s =>
       s.setDebug n (s.install (fun a => a == d.wpaddr[reg4 w]) { d with wpctl := d.wpctl.set (reg4 w) x })))
  else if 0xA0 ≤ o && o < 0xC0 then
    s.take "IBP discarded" (fits x 57 && !bitN v 1) x (fun s => s.setDebug n { d with ibp := d.ibp.set (reg4 ((o - 0xA0) / 8)) x })
  else if 0xC0 ≤ o && o < 0xD0 then
    s.take "SBP discarded" (v / 2 ^ 57 % 32 == 0) x (fun s => s.setDebug n { d with sbp := d.sbp.set (reg2 ((o - 0xC0) / 8)) x })
  else s

/-- Write register `o` of debug block n (R336, R337). -/
def State.writeDebugReg (s : State) (n o : Nat) (x : Word) : State :=
  match o with
  | 0x00 => s.writeDbctx n x
  | 0x08 => s.writeDbctl n x
  | 0x10 => s.writeDbring n x
  | 0x20 => s.writeDbtail n x
  | 0x30 => s.writeDbjrnl n x
  | 0x38 => s.take "DBPSEL discarded" (fits x 16) x (fun s => s.setDebug n { s.debug n with psel := x.toNat })
  | _ => s.writeBreaks n o x

/-- Write the recovery mailbox (R365): a 1 to MBGO starts a fetch. -/
def State.writeMbgo (s : State) (x : Word) : State :=
  s.take "MBGO discarded" (fits x 1) x (fun s => if x == 1 && s.hub.mbstat != 1 then s.setHub { s.hub with mbstat := 1 } else s)

/-- Write PWRLIM (R368). -/
def State.writePwrlim (s : State) (x : Word) : State :=
  s.take "PWRLIM discarded" (1200 ≤ x.toNat && x.toNat ≤ 3600) x (fun s => s.setHub { s.hub with pwrlim := x.toNat })

/-- Write the event-counter window (R358). -/
def State.writeEventReg (s : State) (port o : Nat) (x : Word) : State :=
  match o with
  | 0x00 => s.take "EVCTX discarded" (fits x 32) x (fun s => s.setHub { s.hub with evctx := x })
  | 0x08 => s.take "EVIDX discarded" (fits x 12) x (fun s => s.setHub { s.hub with evidx := x })
  | 0x18 => s.writeEvadd port x
  | 0x20 => s.writeEvclr x
  | _ => s

/-- A value supervisor register 0x800 + k accepts (R30). -/
def superOk (k : Nat) (x : Word) : Bool :=
  let v := x.toNat
  match k with
  | 0 => fits x 32
  | 1 => fits x 57 && v / 4 % 2 ^ 10 == 0 && v % 4 ≤ 1
  | 2 => fits x 9 && v / 32 % 8 == 0
  | 3 => fits x 12 && v / 8 % 32 == 0
  | 4 => fits x 57 && v % 64 == 0
  | 5 => fits x 57 && v % 4 == 0
  | 6 => fits x 16
  | _ => false

/-- Set supervisor register 0x800 + k of a hart (R30). -/
def Hart.setSuper (k : Nat) (x : Word) (h : Hart) : Hart :=
  match k with
  | 0 => { h with sctx := x }
  | 1 => { h with sptb := x }
  | 2 => { h with sgrant := x }
  | 3 => { h with sprio := x }
  | 4 => { h with sframe := x }
  | 5 => { h with sresume := x }
  | 6 => { h with scocoon := x }
  | _ => h

/-- Write supervisor register 0x800 + k of hart `h`: while it is stopped or in its frame (R30). -/
def State.writeSuper (s : State) (h k : Nat) (x : Word) : State :=
  if k == 7 then s.writeShalt h x
  else if !superOk k x then s.logS "supervisor register discarded" x
  else match s.hartAt h with
    | some y =>
      if y.status == .stopped || y.held then s.mapHarts (fun z => if z.place == h then z.setSuper k x else z)
      else s.logS "supervisor register discarded" x
    | none => { s with frames := inFrame h (Hart.setSuper k x) s.frames }

/-- Until firmware runs only the semaphores and the recovery mailbox are presented (R364). -/
def presented (booted : Bool) (o : Nat) : Bool := booted || o < 0x80 || (0x70000 ≤ o && o < 0x70018)

/-- A host write of a doubleword at an offset of the window (R355): offsets not listed discard it. -/
def State.windowWrite (s : State) (port o : Nat) (x : Word) : State :=
  let at_ (base n : Nat) : Bool := base ≤ o && o < base + n
  if o % 8 != 0 || !presented s.hub.booted o then s
  else if at_ 0 0x80 then s.writeSem port (o / 8) x
  else if at_ 0x10000 0x800 then s.writeQueueReg port ((o - 0x10000) / 32) (o % 32) x
  else if at_ 0x20000 0x30 then s.writeObjectReg port (o - 0x20000) x
  else if at_ 0x30000 0x8000 then s.writeDebugReg ((o - 0x30000) / 0x200) (o % 0x200) x
  else if o == 0x40000 then s.writeIqsub x
  else if o == 0x50000 then s.guarded port 2 "PTHR discarded" x (fun s => s.take "PTHR discarded" (fits x 3) x (fun s => s.setHub { s.hub with pthr := x.toNat }))
  else if at_ 0x60000 0xC00 then
    s.guarded port 2 "channel register discarded" x (fun s => s.take "channel register discarded" (fits x 8) x (fun s =>
      let ch := (o - 0x60000) / 8
      s.setNmu ch { s.nmu ch with wn := x.extractLsb' 4 4, wc := x.extractLsb' 0 4 }))
  else if o == 0x70000 then s.guarded port 3 "MBADDR discarded" x (fun s => s.setHub { s.hub with mbaddr := x })
  else if o == 0x70008 then s.guarded port 3 "MBGO discarded" x (fun s => s.writeMbgo x)
  else if o == 0x80000 then s.guarded port 4 "PWRLIM discarded" x (fun s => s.writePwrlim x)
  else if o == 0x80 then s.take "SEMVIEW discarded" (fits x 32) x (fun s => s)
  else if o == 0x70010 then s.guarded port 3 "MBSTAT discarded" x (fun s => s.take "MBSTAT discarded" (fits x 2) x (fun s => s))
  else if o == 0x80008 then s.guarded port 4 "PWRNOW discarded" x (fun s => s.take "PWRNOW discarded" (fits x 16) x (fun s => s))
  else if o == 0x80010 then s.guarded port 4 "PWRSTATE discarded" x (fun s => s.take "PWRSTATE discarded" (fits x 2) x (fun s => s))
  else if at_ 0x90000 0x28 then s.guarded port 1 "event window discarded" x (fun s => s.writeEventReg port (o - 0x90000) x)
  else if at_ 0x100000 (64 * 3584) then
    s.guarded port 5 "supervisor register discarded" x (fun s => s.writeSuper ((o - 0x100000) / 64) (o / 8 % 8) x)
  else s

/-- REGISTER_WRITE (R355, R369). -/
def execRegisterWrite (port offset : Nat) (value : Word) (s : State) : Host.Outcome State Fault Refusal :=
  .next (if port < 2 then s.wakeUp.windowWrite port offset value else s)

/-! ### Reading the window -/

/-- A semaphore as a port that has claimed it reads it (R357). -/
def State.semWord (s : State) (port n : Nat) : Nat :=
  match s.hub.sems.toList.getD n none with
  | some p => 4 + 2 * p + b2n (p == port)
  | none => 4 + 2 * port + 1

/-- SEMVIEW (R357). -/
def State.semView (s : State) : Nat :=
  ((List.range 16).map (fun n => match s.hub.sems.toList.getD n none with | some p => (p + 1) * 4 ^ n | none => 0)).sum

/-- HQSTAT of queue n (R301). -/
def State.hqstat (s : State) (n : Nat) : Nat :=
  let q := s.hostQueue n
  b2n q.busy * 2 ^ 63 + b2n q.refused * 2 ^ 62 + s.heldLaunches n * 2 ^ 48 + q.seq % 2 ^ 40 * 2 ^ 8 + q.reason

/-- DBPCNT and the two halves of the digest at the selected port of block n (R347). -/
def State.portWords (s : State) (n : Nat) : List Nat :=
  let d := s.debug n
  let p := s.port (portKey d.psel n (d.recs.length - 1))
  [p.count, p.digest.toNat % 2 ^ 64, p.digest.toNat / 2 ^ 64]

/-- A register at an offset of the window that tells addresses, data or digests of a context: for a cocoon's it is read sealed under the
cocoon's key, so that only its tenant learns it (R352; log 61). -/
def State.sealedFor (s : State) (ctx : Word) (o x : Nat) : Nat :=
  match s.sealKey ctx with
  | some k => leNat ((sealBytes (some k) o (leBytes 8 x)).take 8)
  | none => x

/-- Such a register of debug block n. -/
def State.sealed (s : State) (n o x : Nat) : Nat := s.sealedFor (s.debug n).ctx (0x30000 + 0x200 * n + o) x

/-- Register `o` of debug block n (R336, R337). -/
def State.debugWord (s : State) (n o : Nat) : Nat :=
  let d := s.debug n
  match o with
  | 0x00 => d.ctx.toNat
  | 0x08 => b2n d.stopped * 2 ^ 63 + d.mode * 2 ^ 8 + d.per * 8 + b2n d.prof * 4
  | 0x10 => d.ring.toNat
  | 0x18 => d.head
  | 0x20 => d.tail
  | 0x28 => d.lost
  | 0x30 => d.jrnl.toNat
  | 0x38 => d.psel
  | _ =>
    if 0x40 ≤ o && o < 0x58 then s.sealed n o ((s.portWords n).getD ((o - 0x40) / 8) 0)
    else if 0x60 ≤ o && o < 0xA0 then s.sealed n o (if o % 16 == 0 then d.wpaddr else d.wpctl)[reg4 ((o - 0x60) / 16)].toNat
    else if 0xA0 ≤ o && o < 0xC0 then s.sealed n o d.ibp[reg4 ((o - 0xA0) / 8)].toNat
    else if 0xC0 ≤ o && o < 0xD0 then s.sealed n o d.sbp[reg2 ((o - 0xC0) / 8)].toNat
    else 0

/-- Supervisor register 0x800 + k of a hart (R30). -/
def Hart.super (h : Hart) (k : Nat) : Nat :=
  ([h.sctx, h.sptb, h.sgrant, h.sprio, h.sframe, h.sresume, h.scocoon, h.shalt].getD k 0).toNat

/-- Supervisor register 0x800 + k of a hart as the window shows it: the addresses `sptb`, `sframe` and `sresume` of a cocoon's hart are
sealed (R352; log 61). -/
def State.superOf (s : State) (h k : Nat) (y : Hart) : Nat :=
  if k == 1 || k == 4 || k == 5 then s.sealedFor y.sctx (0x100000 + 64 * h + 8 * k) (y.super k) else y.super k

/-- Supervisor register 0x800 + k of the hart that is or had place `h`; it is read while that hart is stopped or in its frame. -/
def State.superWord (s : State) (h k : Nat) : Nat :=
  match s.hartAt h with
  | some y => if y.status == .stopped || y.held then s.superOf h k y else 0
  | none => ((s.frames.find? (fun f => f.hart.place == h)).map (fun f => s.superOf h k f.hart)).getD 0

/-- An object-registration register (R321). -/
def State.objectWord (s : State) (o : Nat) : Nat :=
  match o with
  | 0x00 => s.hub.roctx.toNat
  | 0x08 => s.hub.roparm.toNat
  | 0x20 => b2n (s.hub.robusy || !s.hub.rowait.isEmpty) * 2 ^ 63 + b2n s.hub.rorefused * 2 ^ 62 + s.hub.roreason
  | 0x28 => s.hub.rohdl.toNat
  | _ => 0

/-- What a port's read of the window returns (R355); a claiming read is SEMAPHORE_CLAIM or HQOWN_CLAIM as well. -/
def State.windowRead (s : State) (port o : Nat) : Word :=
  let at_ (base n : Nat) : Bool := base ≤ o && o < base + n
  BitVec.ofNat 64 (
    if o % 8 != 0 || !(presented s.hub.booted o || o == 0x80) then 0
    else if at_ 0 0x80 then s.semWord port (o / 8)
    else if o == 0x80 then s.semView
    else if at_ 0x10000 0x800 then
      let n := (o - 0x10000) / 32
      (match o % 32 with
       | 0x00 => b2n ((s.hostQueue n).owner == some port || (s.hostQueue n).owner.isNone)
       | 0x08 => (s.hostQueue n).ctx.toNat
       | 0x18 => s.hqstat n
       | _ => 0)
    else if at_ 0x20000 0x30 then s.objectWord (o - 0x20000)
    else if at_ 0x30000 0x8000 then s.debugWord ((o - 0x30000) / 0x200) (o % 0x200)
    else if o == 0x40008 then s.iqFree
    else if o == 0x50000 then s.hub.pthr
    else if at_ 0x60000 0xC00 then (let n := s.nmu ((o - 0x60000) / 8); n.wn.toNat * 16 + n.wc.toNat)
    else if o == 0x70000 then s.hub.mbaddr.toNat
    else if o == 0x70010 then s.hub.mbstat
    else if o == 0x80000 then s.hub.pwrlim
    else if o == 0x80008 then s.hub.pwrnow
    else if o == 0x80010 then (match s.hub.power with | .active => 0 | .idle => 1 | .standby => 2)
    else if o == 0x90000 then s.hub.evctx.toNat
    else if o == 0x90008 then s.hub.evidx.toNat
    else if o == 0x90010 then (s.counter s.hub.evctx s.hub.evidx.toNat).toNat
    else if at_ 0x100000 (64 * 3584) then s.superWord ((o - 0x100000) / 64) (o / 8 % 8)
    else 0)

/-! ## Firmware (R364, R365) -/

/-- Little-endian field of an image. -/
def imageField (im : List Byte) (o n : Nat) : Nat := leNat ((im.drop o).take n)

/-- The size field is in range. -/
def imageSizeOk (n : Nat) : Bool := 4096 ≤ n && n ≤ 64 * 2 ^ 20

/-- The checks of R364 on an image, with the fuse counter and key hash. -/
def imageOk (fuseVersion : Nat) (fuseHash : BitVec 384) (im : List Byte) : Bool :=
  let size := imageField im 0 8
  let key := (im.drop 16).take 97
  imageSizeOk size && size ≤ im.length && fuseVersion ≤ imageField im 8 4 && imageField im 12 4 == 0 && sha384 key == fuseHash &&
  imageField im 113 15 == 0 && ecdsaVerify key ((im.drop 128).take 96) (sha384 (im.take 128 ++ (im.take size).drop 224))

/-- Run an image that passes: the fuse counter is raised and the firmware is measured (R364, R366). -/
def Hub.run (h : Hub) (im : List Byte) : Hub :=
  { h with flash := im, booted := true, fuseVersion := imageField im 8 4, measure := sha384 (im.take (imageField im 0 8)) }

/-- The hub's state of its own flash, fuses and place in the fabric, at a module reset; a staged image takes effect (R365). -/
def Hub.restart (h : Hub) : Hub :=
  let flash := h.staged.getD h.flash
  let r := { Hub.reset with flash := flash, fuseVersion := h.fuseVersion, fuseHash := h.fuseHash, secret := h.secret, device := h.device, tierBase := h.tierBase,
                            tierSize := h.tierSize }
  if imageOk h.fuseVersion h.fuseHash flash then r.run flash else r

/-- Memory outside the module: what stays at a module reset. -/
def State.outside (s : State) (c : Host.Cell) : Bool :=
  decide (c.1 < 2 ^ 52) && !(decide (s.hbmKey 0 ≤ c.1) && decide (c.1 < s.hbmKey (2 ^ 42)))

/-- MODULE_RESET (R364). -/
def execModuleReset (s : State) : Host.Outcome State Fault Refusal :=
  .next { State.reset with mem := s.mem.filter s.outside, hub := s.hub.restart, schedule := s.schedule, freeCount := s.freeCount }

/-- MBGO_FETCH (R365, R369). -/
def execMbgoFetch (port : Nat) (value : Word) (s : State) : Host.Outcome State Fault Refusal :=
  .next (s.hostAccess true (fun s => s.guarded port 3 "MBGO discarded" value (fun s => s.writeMbgo value)))

/-- Host memory at a host address, when the whole range can be read. -/
def State.hostBytes (s : State) (a n : Nat) : Option (List Byte) :=
  if s.target a == .host && s.target (a + n - 1) == .host && !s.poisonIn a n then some (Memory.getList s.mem a n) else none

/-- The image at MBADDR (R365). -/
def State.mailboxImage (s : State) : Option (List Byte) :=
  let a := s.hub.mbaddr.toNat
  match s.hostBytes a 8 with
  | none => none
  | some bs => if imageSizeOk (leNat bs) then s.hostBytes a (leNat bs) else none

/-- RECOVERY_FETCH_COMPLETE (R365): an accepted image is run, or staged while firmware runs. -/
def execRecoveryFetchComplete (s : State) : Host.Outcome State Fault Refusal :=
  .next (
    if s.hub.mbstat != 1 then s else
    match s.mailboxImage with
    | none => s.setHub { s.hub with mbstat := 3 }
    | some im =>
      if !imageOk s.hub.fuseVersion s.hub.fuseHash im then s.setHub { s.hub with mbstat := 3 }
      else if s.hub.booted then s.setHub { s.hub with mbstat := 2, staged := some im }
      else s.setHub { s.hub.run im with mbstat := 2 })

/-! ## Host ports (R248, R354, R366) -/

/-- HDM_DECODER_COMMIT (R248): refused unless base and size are as required and agree with the other port's. -/
def execHdmDecoderCommit (port : Nat) (base size : Word) (s : State) : Host.Outcome State Fault Refusal :=
  .next (
    let p := reg2 port
    let agrees := match s.hub.hdmPort[reg2 (port + 1)] with | some (b, _) => b == base | none => true
    if base.toNat % 2 ^ 40 == 0 && size.toNat == Config.hbmBytes && agrees then
      s.setHub { s.hub with hdmPort := s.hub.hdmPort.set p (some (base, size)), hdmErr := s.hub.hdmErr.set p false, hdmBase := base, hdmOk := true }
    else s.setHub { s.hub with hdmErr := s.hub.hdmErr.set p true })

/-- Release what a port owns (R354). -/
def Hub.releasePort (h : Hub) (port : Nat) : Hub :=
  { h with sems := h.sems.map (fun o => if o == some port then none else o),
           queues := h.queues.map (fun (q : Nat × HostQueue) => if q.2.owner == some port then (q.1, { q.2 with owner := none }) else q) }

/-- A byte of the memory of a host that can no longer be reached (R354). -/
def State.lostKey (s : State) (key : Nat) : Bool := key < 2 ^ 51 && s.hostGone key && s.target key == .hole

/-- Queued writes, and writes on their way, to the memory of the hosts that can no longer be reached are dropped and logged: no later
access reaches that memory (R354). -/
def State.dropWrites (s : State) : State :=
  let lost (a : PAct) : Bool := a.keys.any s.lostKey
  let keep (h : Hart) : Hart := { h with stores := h.stores.filter (fun p => !lost p.act) }
  let gone := (s.harts ++ s.frames.map (fun f => f.hart)).flatMap (fun h => (h.stores.filter (fun p => lost p.act)).map (fun p => p.act)) ++
    (s.net.filter (fun p => lost p.act)).map (fun p => p.act)
  let s := s.mapHarts keep
  let s : State := { s with frames := s.frames.map (fun f => { f with hart := keep f.hart }), net := s.net.filter (fun p => !lost p.act) }
  gone.foldl (fun s a => s.logS "write to a lost host dropped" (BitVec.ofNat 64 (a.keys.headD 0))) s.releaseHolds

/-- Drop the dirty lines of the hosts that can no longer be reached; their memory holds what it held (R354). -/
def State.dropLines (s : State) (port : Nat) : State :=
  let s := s.dropWrites
  let (gone, kept) := (s.hub.dirty).partition (fun d => s.hostGone d.1)
  if gone.isEmpty then s else
  ({ s with mem := gone.foldl (fun m d => Memory.setList m d.1 d.2) s.mem, hub := { s.hub with dirty := kept } } : State).logS
    "dirty lines dropped" (BitVec.ofNat 64 port)

/-- PORT_LINK_DOWN (R354): when the other port does not reach the same host, that host's memory is lost and its dirty lines are
dropped. -/
def execPortLinkDown (port : Nat) (sameHost : Bool) (s : State) : Host.Outcome State Fault Refusal :=
  .next (
    let p := reg2 port
    let s := (s.setHub { s.hub.releasePort port with linkUp := s.hub.linkUp.set p false, sessions := s.hub.sessions.set p false }).logS "port link down" (BitVec.ofNat 64 port)
    let otherUp := s.hub.linkUp[reg2 (port + 1)]
    if !otherUp then (s.setHub { s.hub with hostLost := Vector.replicate 2 true }).dropLines port
    else if sameHost then s
    else (s.setHub { s.hub with hostLost := s.hub.hostLost.set p true }).dropLines port)

/-- The signed bytes of an attestation: boot ROM, firmware and fuses, and the requester's nonce (R366; log 6). -/
def Hub.attested (h : Hub) (nonce : Word) : List Byte :=
  beBytes 48 Config.romMeasure.toNat ++ beBytes 48 h.measure.toNat ++ beBytes 4 h.fuseVersion ++ beBytes 48 h.fuseHash.toNat ++ beBytes 8 nonce.toNat

/-- The alias key: derived from the identity key and the measurement of the running firmware (R366). -/
def Hub.aliasKey (h : Hub) : BitVec 384 := Config.aliasKey (Config.identityKey h.secret) h.measure

/-- The answer to a nonce: the measurements, signed by the alias key with the n-th random number. -/
def Hub.attest (h : Hub) (nonce : Word) (n : Nat) : List Byte :=
  ecdsaSign h.aliasKey.toNat (Config.signNonce n).toNat (sha384 (h.attested nonce))

/-- SPDM_REQUEST (R366): either port holds a session and is answered with measurements signed by the alias key of the running firmware. -/
def execSpdmRequest (port : Nat) (nonce : Word) (s : State) : Host.Outcome State Fault Refusal :=
  .next (
    if port ≥ 2 || !s.hub.booted || !s.hub.linkUp[reg2 port] then s
    else
      let (n, s) := s.wakeUp.fresh
      s.setHub { s.hub with sessions := s.hub.sessions.set (reg2 port) true, spdm := s.hub.spdm ++ [(port, nonce, s.hub.attest nonce n)] })

/-! ## Cocoons (R352, R367) -/

def State.cocoon (s : State) (id : Nat) : Option Cocoon := s.hub.cocoons.find? (fun c => c.id == id)

def State.putCocoon (s : State) (c : Cocoon) : State :=
  s.setHub { s.hub with cocoons := c :: s.hub.cocoons.filter (fun x => x.id != c.id) }

/-- A cocoon that is active. -/
def Cocoon.active (c : Cocoon) : Bool := c.state != .error

/-- The cocoon may enter CONFIG_UNLOCKED with a context: it is new, unlocked or in ERROR, and no other holds the context. -/
def State.mayUnlock (s : State) (id : Nat) (ctx : Word) : Bool :=
  0 < id && id < 65536 && (s.context ctx).isSome && s.hub.cocoons.all (fun c => c.id == id || !c.active || c.ctx != ctx) &&
  (match s.cocoon id with | some c => c.state == .unlocked || c.state == .error | none => true) &&
  (s.hub.cocoons.filter (fun c => c.active && c.id != id)).length < 256

/-- Bind contexts to cocoon `id`: only `ctx`. -/
def bindCocoon (id : Nat) (ctx : Word) (c : Context) : Context :=
  if c.ctx == ctx then { c with cocoon := id } else if c.cocoon == id then { c with cocoon := 0 } else c

/-- COCOON_CONFIG_UNLOCKED (R367): a key from the random source. -/
def execCocoonConfigUnlocked (id : Nat) (ctx : Word) (s : State) : Host.Outcome State Fault Refusal :=
  .next (
    if !s.mayUnlock id ctx then s else
    let s := s.putCocoon { id := id, ctx := ctx, state := .unlocked, key := Config.randomKey s.hub.keySeq, debug := false }
    (s.setHub { s.hub with keySeq := s.hub.keySeq + 1, contexts := s.hub.contexts.map (bindCocoon id ctx) }).dropBlocks)

/-- Move a cocoon from one TDISP state to the next. -/
def State.moveCocoon (s : State) (id : Nat) (from_ to_ : TdispState) : State :=
  match s.cocoon id with
  | some c => if c.state == from_ then s.putCocoon { c with state := to_ } else s
  | none => s

/-- COCOON_CONFIG_LOCKED (R367). -/
def execCocoonConfigLocked (id : Nat) (s : State) : Host.Outcome State Fault Refusal := .next (s.moveCocoon id .unlocked .locked)

/-- COCOON_RUN (R367). -/
def execCocoonRun (id : Nat) (s : State) : Host.Outcome State Fault Refusal := .next (s.moveCocoon id .locked .run)

/-- Keys of the scratchpad segments whose last owner is a context. -/
def State.segKeys (s : State) (ctx : Word) : List Nat :=
  s.clusters.flatMap (fun p => (p.2.segs.filter (fun x => x.ctx == ctx)).map (fun x => scratchKey p.1 (4096 * x.seg)))

/-- Zero every scratchpad segment whose last owner is a context. -/
def State.zeroContext (s : State) (ctx : Word) : State :=
  { s with mem := (s.segKeys ctx).foldl (fun m k => zeroRange m k 4096) s.mem
           poison := s.poison.filter (fun g => (s.segKeys ctx).all (fun k => !(k / 8 ≤ g && g < k / 8 + 512))) }

/-- The stores that harts have still to perform, and writes on their way, into some segments: what they would write is zeroed with them
(R367). -/
def State.dropInto (s : State) (segs : List Nat) : State :=
  let into (a : PAct) : Bool := a.keys.any (fun k => segs.any (fun g => g ≤ k && k < g + 4096))
  { s.mapHarts (fun h => { h with stores := h.stores.filter (fun p => !into p.act) }) with net := s.net.filter (fun p => !into p.act) }

/-- End every launch of a context (R309). -/
def State.stopLaunches (s : State) (ctx : Word) : State :=
  (s.hub.launches.filter (fun l => l.ctx == ctx && l.done.isNone && !l.stopped)).foldl (fun s l => s.stopLaunch l) s

/-- COCOON_ERROR (R367). -/
def execCocoonError (id : Nat) (s : State) : Host.Outcome State Fault Refusal :=
  .next (match s.cocoon id with
    | none => s
    | some c =>
      if c.state == .error then s else
      let s := ((s.payHits (fun h => h.sctx == c.ctx)).everyHart (fun h => if h.sctx == c.ctx then h.supervisorStop else h)).freeAllLeaving
      ((((s.stopLaunches c.ctx).dropInto (s.segKeys c.ctx)).zeroContext c.ctx).putCocoon { c with state := .error, key := 0, debug := false }).dropBlocks)

/-- TENANT_DEBUG_ENABLE (R352, R367): while the configuration is locked. -/
def execTenantDebugEnable (id : Nat) (s : State) : Host.Outcome State Fault Refusal :=
  .next (match s.cocoon id with
    | some c => if c.state == .locked then s.putCocoon { c with debug := true } else s
    | none => s)

/-! ## Power (R368, R369) -/

/-- POWER_CLOCK_STEP (R368): the clocks are lowered by a divider; timing alone changes, and the mean power is read. -/
def execPowerClockStep (divider : Nat) (s : State) : Host.Outcome State Fault Refusal :=
  .next (if divider == 0 then s else
    let (k, s) := s.fresh
    s.setHub { s.hub with divider := divider, pwrnow := (Config.measuredPower k).toNat })

/-- A hart is bound, or a command is pending. -/
def State.busyNow (s : State) : Bool :=
  s.harts.any (fun h => h.status != .unbound) || s.clusters.any (fun p => !p.2.pool.isEmpty) ||
    s.nmus.any (fun p => p.2.run.isSome || !p.2.queue.isEmpty)

/-- IDLE_ENTRY (R369): nothing has been live for 1 ms. -/
def execIdleEntry (s : State) : Host.Outcome State Fault Refusal :=
  .next (if s.hub.power == .active && !s.busyNow && s.hub.idleSince + 7000000 ≤ s.sevenths then s.setHub { s.hub with power := .idle } else s)

/-- HBM goes to self-refresh: channels whose unit is busy are asked (R253). -/
def State.selfRefresh (s : State) : State :=
  (List.range 384).foldl State.askDown s

/-- STANDBY_ENTRY (R369): D3hot is set on both ports. -/
def execStandbyEntry (s : State) : Host.Outcome State Fault Refusal := .next (s.selfRefresh.setHub { s.hub with power := .standby })

/-- ACTIVE_RETURN (R369). -/
def execActiveReturn (s : State) : Host.Outcome State Fault Refusal := .next s.wakeUp

/-- THERMAL_TRIP (R369): every hart stops with cause 0x15 and the module enters STANDBY. -/
def execThermalTrip (s : State) : Host.Outcome State Fault Refusal :=
  let s := ((s.payHits (fun _ => true)).everyHart Hart.supervisorStop).freeAllLeaving
  .next (s.selfRefresh.setHub { s.hub with power := .standby })

/-! ## Cycles (R28, R212) -/

/-- One arithmetic-clock cycle of a hart that holds lanes: each of its L slots falls into one class; what `use`, `mask`, `bvl` and
`dead` leave is stalled (R28, R346). -/
def Hart.cycle (use mask bvl dead : Nat) (h : Hart) : Hart :=
  if h.status == .unbound then h else
  let l := h.lanes
  let u := min use l
  let m := min mask (l - u)
  let b := min bvl (l - u - m)
  let d := min dead (l - u - m - b)
  let w (n : Nat) : Word := BitVec.ofNat 64 n
  { h with lccyc := h.lccyc + 1, lcuse := h.lcuse + w u, lcmask := h.lcmask + w m, lcbvl := h.lcbvl + w b, lcdead := h.lcdead + w d,
           lcstall := h.lcstall + w (l - u - m - b - d) }

/-- The cycle of a hart whose slots a turn has named; they are stalled where none has. -/
def Hart.cycleOn (h : Hart) : Hart := { h.cycle h.slots.1 h.slots.2.1 h.slots.2.2.1 h.slots.2.2.2 with slots := (0, 0, 0, 0) }

/-- CLOCK_CYCLE (R28, R212, R307): the current hart's slots fall as named, every other hart's as its own turn has said; a core cycle is
five sevenths of a nanosecond, times the divider; what the ports noted in the cycle takes effect (R349,
R351), foreign writes of a replay are made (R350), and records that a held segment kept waiting are written (R250). -/
def execClockCycle (use mask bvl dead : Nat) (s : State) : Host.Outcome State Fault Refusal :=
  let t := s.sevenths + 5 * s.hub.divider
  let s := s.settlePorts.flushAll
  let s := (s.hub.debug).foldl (fun (s : State) (p : Nat × DebugBlock) => s.injectAll p.1) s
  .next { s with
    cur := s.cur.cycle use mask bvl dead, others := s.others.map Hart.cycleOn, sevenths := t
    hub := { s.hub with idleSince := if s.busyNow then t else s.hub.idleSince } }

/-! ## Scale-up ports (R360 to R363) -/

def reg18 (n : Nat) : Fin 18 := ⟨n % 18, Nat.mod_lt _ (by decide)⟩

def State.setFabric (s : State) (port : Nat) (p : FabricPort) : State := s.setHub { s.hub with fabric := s.hub.fabric.set (reg18 port) p }

/-- FLIT_CRC_RETRY (R360): the flit is sent again. -/
def execFlitCrcRetry (port : Nat) (s : State) : Host.Outcome State Fault Refusal :=
  .next (let p := s.hub.fabric[reg18 port]; if p.working then s.setFabric port { p with retries := p.retries + 1 } else s)

/-- Messages that a failed port still holds go out, in their order, over a working port to the same peer, as far as its window of 32 has
room (R362, R363). -/
def State.refill (s : State) (port : Nat) : State :=
  (List.range 18).foldl (fun s k =>
    let p := s.hub.fabric[reg18 k]
    let q := s.hub.fabric[reg18 port]
    let room := 32 - q.unacked.length
    if p.working || !q.working || p.peer != q.peer || p.unacked.isEmpty then s
    else (s.setFabric k { p with unacked := p.unacked.drop room }).setFabric port { q with unacked := q.unacked ++ p.unacked.take room }) s

/-- A hart that waits for an answer from remote memory issues again. -/
def Hart.answered (h : Hart) : Hart := match h.status with | .waiting (.remote _ _) => { h with status := .running } | _ => h

/-- MESSAGE_ACK (R362): the acknowledgement of message n received, or sent, at a port writes entry n mod 64 of that direction's
table; a received one makes room for another message. -/
def execMessageAck (port n : Nat) (received : Bool) (s : State) : Host.Outcome State Fault Refusal :=
  .next (
    let p := s.hub.fabric[reg18 port]
    if !p.working then s
    else if received then
      (if p.unacked.contains n then
         ((s.setFabric port { p with unacked := p.unacked.filter (fun x => x != n), txTable := put p.txTable (n % 64) n }).refill port).mapHarts Hart.answered
       else s)
    else if s.hub.accepted.any (fun a => a.2 == n) then s.setFabric port { p with rxTable := put p.rxTable (n % 64) n }
    else s)

/-- A port can carry on for a failed one: it works and reaches the same peer (R363). -/
def State.carries (s : State) (port other : Nat) : Bool :=
  reg18 other != reg18 port && s.hub.fabric[reg18 other].working && s.hub.fabric[reg18 other].peer == s.hub.fabric[reg18 port].peer

/-- SCALEUP_PORT_FAIL (R363): unacknowledged messages are sent again, in their order, over a working port to the same peer: the one that
the row names, or else the lowest. -/
def execScaleupPortFail (port other : Nat) (s : State) : Host.Outcome State Fault Refusal :=
  .next (
    let p := s.hub.fabric[reg18 port]
    if !p.working then s
    else
      let t := s.setFabric port { p with working := false }
      match (other :: List.range 18).find? (s.carries port) with
      | some q => t.refill q
      | none => t)

/-- REMOTE_ACCESS_TIMEOUT (R361): 1 ms without an answer.  The hart's instruction issues again and raises the access violation;
an engine command ends as ACCESS. -/
def execRemoteAccessTimeout (who : Accessor) (s : State) : Host.Outcome State Fault Refusal :=
  .next (match who with
    | .hart h _ => s.onWaiting h (fun x s => match x with
        | .remote a since =>
          if since + 1000000 ≤ s.time then { s with cur := { s.cur with status := .running, noAnswer := some a } } else s
        | _ => s)
    | .engine cl token =>
      (match s.findCmd cl token with
       | some c =>
         (match c.remote with
          | some (a, since) => if since + 1000000 ≤ s.time then s.endEngine cl c stAccess a else s
          | none => s)
       | none => s))

/-! ## Contexts (R213, R323) -/

/-- CONTEXT_CREATE (R213): its counters are zero. -/
def execContextCreate (ctx sptb : Word) (s : State) : Host.Outcome State Fault Refusal :=
  .next (if fits ctx 32 && (s.context ctx).isNone then s.putContext { ctx := ctx, sptb := sptb, cocoon := 0, counters := [] } else s)

/-- Something of the context is still live: an NMU command (R282), or a launch or a hart (log 42). -/
def State.contextLive (s : State) (ctx : Word) : Bool :=
  s.nmus.any (fun p => p.2.queue.any (fun c => c.ctx == ctx) || (match p.2.run with | some r => r.cmd.ctx == ctx | none => false)) ||
  s.hub.launches.any (fun l => l.ctx == ctx && l.done.isNone) || s.harts.any (fun h => h.sctx == ctx && h.status != .unbound)

/-- Segments a context leaves count as another context's when one of the same number is created (R246, R315). -/
def Cluster.disown (ctx : Word) (c : Cluster) : Cluster :=
  { c with segs := c.segs.map (fun x => if x.ctx == ctx then { x with discarded := true } else x) }

/-- CONTEXT_END (R273, R282, R315, R323). -/
def execContextEnd (ctx : Word) (s : State) : Host.Outcome State Fault Refusal :=
  .next (
    if (s.context ctx).isNone || s.contextLive ctx then s else
    let s := (s.hub.objects.filter (fun o => o.ctx == ctx && !o.leaving)).foldl (fun s o => s.deregister o) s
    let s := s.dropStreams (fun i => i.ctx == ctx)
    { s with clusters := s.clusters.map (fun (p : Nat × Cluster) => (p.1, p.2.disown ctx)), tlb := s.tlb.filter (fun e => e.ctx != ctx), walks := s.walks.filter (fun e => e.ctx != ctx),
             hub := { s.hub with contexts := s.hub.contexts.filter (fun c => c.ctx != ctx) } })

/-! ## Memory asked for from outside (R353, R359, R361) -/

/-- The address, width, and kind of a request. -/
def requestAddr : MemRequest → Nat
  | .read a _ => a.toNat
  | .write a _ _ => a.toNat
  | .amo _ _ a _ _ => a.toNat

def requestWidth : MemRequest → Nat
  | .read _ n => n
  | .write _ n _ => n
  | .amo op wide _ _ _ => if op == 10 || !wide then 4 else 8

def requestKind : MemRequest → WKind
  | .read _ _ => .read
  | .write _ _ _ => .write
  | _ => .atomic

/-- What a request writes over the old value, none when it writes nothing (R110). -/
def requestNew (old : Nat) : MemRequest → Option Nat
  | .read _ _ => none
  | .write _ _ x => some x.toNat
  | .amo op wide a x c =>
    let w := 8 * requestWidth (.amo op wide a x c)
    amoNew op w old (x.toNat % 2 ^ w) (c.toNat % 2 ^ w)

/-- A read or an atomic of an agent returns the value at its location; data that fail their check are returned poisoned (R262). -/
def State.reply (s : State) (agent : Nat) (req : MemRequest) (key n : Nat) : State :=
  if requestKind req == .write then s else
  let x := if s.poisonIn key n then none else some (BitVec.ofNat 64 (leNat (Memory.getList s.mem key n)))
  s.setHub { s.hub with replies := (agent, BitVec.ofNat 64 (requestAddr req), x) :: s.hub.replies }

/-- Perform a request of an agent at an HBM location of this device: a naturally aligned access of up to 8 bytes. The storage of a
stream is not touched (R197); one that meets a held segment waits, and is performed after the hold (R250). -/
def State.homeRequest (s : State) (agent : Nat) (req : MemRequest) : State :=
  let pa := requestAddr req
  let n := requestWidth req
  let key := s.paKey pa
  match s.target pa with
  | .hbm _ =>
    if !([1, 2, 4, 8].contains n) || pa % n != 0 || s.instarHit key then s
    else if s.heldSegment key then s.setHub { s.hub with requests := s.hub.requests ++ [.mem agent req] } else
    let s := (s.wakeKey key).reply agent req key n
    if requestKind req == .atomic && s.poisonIn key n then s.agentAccess none agent none .read key n else
    match requestNew (leNat (Memory.getList s.mem key n)) req with
    | some x => ({ s with mem := Memory.setList s.mem key (leBytes n x) } : State).agentAccess none agent none (requestKind req) key n
    | none => s.agentAccess none agent none (requestKind req) key n
  | _ => s

/-- A waiting request comes after an earlier one: an EVADD after everything of its port, an access after one of the same granule. -/
def HubReq.follows (r e : HubReq) : Bool :=
  match r, e with
  | .inv _, .inv _ => true
  | .inv _, _ => false
  | _, .inv _ => false
  | .mem _ x, .mem _ y => requestAddr x / 64 == requestAddr y / 64
  | .add a _ _ _, e => e.agent == a
  | .mem _ _, .add _ _ _ _ => false

/-- The waiting request with number k is served, after those it follows; one that meets a held segment waits on. -/
def State.serveRequest (s : State) (k : Nat) : State :=
  match s.hub.requests[k]? with
  | none => s
  | some r =>
    if (s.hub.requests.take k).any r.follows then s else
    let t := s.setHub { s.hub with requests := s.hub.requests.eraseIdx k }
    match r with
    | .inv a => if s.iqHeld a then s else t.readIqsub a
    | .mem agent req => if s.heldSegment (s.paKey (requestAddr req)) then s else t.homeRequest agent req
    | .add _ ctx idx x => if (s.context ctx).isSome then t.addCounter ctx idx x else t.logS "EVADD discarded" x

/-- A request arrives: it waits behind an earlier one of its line that waits. -/
def State.request (s : State) (agent : Nat) (req : MemRequest) : State :=
  if s.hub.requests.any (HubReq.follows (.mem agent req)) then s.setHub { s.hub with requests := s.hub.requests ++ [.mem agent req] }
  else s.homeRequest agent req

/-- CXL_MEM_REQUEST (R359, R364): nothing is accepted before firmware runs or over a link that is down. -/
def execCxlMemRequest (port : Nat) (req : MemRequest) (s : State) : Host.Outcome State Fault Refusal :=
  .next (if port ≥ 2 || !s.hub.booted || !s.hub.linkUp[reg2 port] then s else s.wakeUp.request (portAgent port) req)

/-- A slice gives up the line of a host address: what it holds modified goes back to host memory (R221, R359). -/
def State.giveLine (s : State) (pa : Nat) : State := s.setHub { s.hub with dirty := (s.hub.dirty).filter (fun d => d.1 != pa / 64 * 64) }

/-- CXL_CACHE_SNOOP (R247, R359): the slice answers for its line, and writes back what it holds modified (log 43). -/
def execCxlCacheSnoop (port : Nat) (addr : Word) (_exclusive : Bool) (s : State) : Host.Outcome State Fault Refusal :=
  .next (if port ≥ 2 || !s.hub.linkUp[reg2 port] then s else s.wakeUp.giveLine addr.toNat)

/-- ATOMICOP_REQUEST (R353): completed as Unsupported Request, with no access to HBM. -/
def execAtomicopRequest (port : Nat) (_addr : Word) (s : State) : Host.Outcome State Fault Refusal :=
  .next (if port ≥ 2 || !s.hub.linkUp[reg2 port] then s else s.wakeUp)

/-- REMOTE_REQUEST (R361, R363): message n of a device is performed once. -/
def execRemoteRequest (port n dev : Nat) (req : MemRequest) (s : State) : Host.Outcome State Fault Refusal :=
  .next (
    if !s.hub.fabric[reg18 port].working || s.hub.accepted.contains (dev, n) then s
    else (s.setHub { s.hub with accepted := (dev, n) :: s.hub.accepted }).request (7 * 2 ^ 12 + dev) req)

/-- A corrected error is counted in the supervisor's log (R261). -/
def State.countError (s : State) : State := s.setHub { s.hub with corrected := s.hub.corrected + 1 }

/-- PATROL_SCRUB (R261): an error that can be corrected is corrected and counted. -/
def execPatrolScrub (gran : Nat) (s : State) : Host.Outcome State Fault Refusal :=
  .next (if s.poison.contains gran then s else s.countError)

/-! ## What happens to the module from outside, or to its arrays -/

/-- Nothing stands in HBM yet: the device's number may still be given (log 47). -/
def State.hbmUnused (s : State) : Bool :=
  s.mem.all (fun c => c.1 < 2 ^ 51 || 2 ^ 52 ≤ c.1) && s.poison.all (fun g => g < 2 ^ 48 || 2 ^ 49 ≤ g) && s.nmus.isEmpty && s.instars.isEmpty

/-- A host stores bytes in its own memory: the slices give its lines up first (R359). -/
def State.hostStore (s : State) (pa : Nat) (bs : List Byte) : State :=
  if !(List.range bs.length).all (fun j => s.target (pa + j) == .host) then s else
  let s := (List.range bs.length).foldl (fun s j => s.giveLine (pa + j)) s
  { s with mem := Memory.setList s.mem pa bs }

/-- A row-segment register, or the retention state, of a channel's unit fails: its command ends with FAULT (R261, R278). -/
def State.nmuBreak (s : State) (ch : Nat) : State := match (s.nmu ch).run with
  | some r => s.nmuEnd ch r nmFault 0
  | none => s

/-- Fail a copy of the first frame of the hart that had a place. -/
def failFrame (h : Nat) (first : Bool) : List Frame → List Frame
  | [] => []
  | x :: t => if x.hart.place == h then (if first then { x with copyOk := false } else { x with mirrorOk := false }) :: t else x :: failFrame h first t

/-- A replica of an object becomes stale; an object with none left is lost (R331, R332). -/
def State.strikeReplica (s : State) (obj die : Nat) : State := match s.objSlot obj with
  | some o => if die < 4 then (s.putObj (o.strike die)).loseStale else s
  | none => s

/-- A copy of a log entry fails its check; with the other one failed the object is lost (R332). -/
def State.failEntry (s : State) (obj p : Nat) (first : Bool) : State := match s.objSlot obj with
  | some o =>
    let f (e : LogEntry) : LogEntry := if e.p != p then e else if first then { e with copyA := none } else { e with copyB := none }
    let o := { o with log := o.log.map f }
    if o.log.any LogEntry.gone then s.loseObject o else s.putObj o
  | none => s

/-- One act of the outside, or one failure. -/
def State.undergo (s : State) (o : Outside) : State :=
  match o with
  | .tier base size => if size ≤ 2 ^ 44 then s.setHub { s.hub with tierBase := base, tierSize := size } else s
  | .device n => if n < 512 && s.hbmUnused then s.setHub { s.hub with device := n } else s
  | .silence dev on =>
    if on then s.setHub { s.hub with silent := dev :: s.hub.silent.filter (fun d => d != dev) }
    else (s.setHub { s.hub with silent := s.hub.silent.filter (fun d => d != dev) }).mapHarts Hart.answered
  | .hostStore pa bs => s.hostStore pa bs
  | .fail key => s.failData false key
  | .failSlice key => s.failData true key
  | .dropTlb n => if n < s.tlb.length then ({ s with tlb := s.tlb.eraseIdx n } : State).countError else s
  | .dropWalk n => if n < s.walks.length then ({ s with walks := s.walks.eraseIdx n } : State).countError else s
  | .nmuFail ch => s.nmuBreak ch
  | .retention ch => (s.dropStreams (fun i => i.home == ch)).nmuBreak ch
  | .stackReset stack => if stack < 12 then (List.range 32).foldl (fun s k => s.resetChannel (32 * stack + k)) s else s
  | .frameFail h first => { s with frames := failFrame h first s.frames }
  | .areas n => s.setHub { s.hub with roarea := some n }
  | .replicaError obj die => s.strikeReplica obj die
  | .queueError q die => if die < 4 then s.setQueueLog ((s.queueLog q).strike die) else s
  | .logFail obj p first => s.failEntry obj p first
  | .journal n es ps => if n < 64 then s.loadJournal n es ps else s

/-- A unit of the hub goes on. -/
def State.hubGo (s : State) (u : HubUnit) : State :=
  match u with
  | .queue n => s.queueGo n
  | .objects => s.objectsGo
  | .request k => s.serveRequest k
  | .replica q die => s.replicaGo q die
  | .reach q n die => s.reachFor q n die

end Sys2Proof.Machine
end

