-- ==== Sys2Proof/Machine/VInt.lean ====
section
/-!
DEFINITION. The vector integer instructions and their X forms (R139, R140).
-/

namespace Sys2Proof.Machine

def intFormats : List Nat := [0, 1, 2, 3]

/-- The scalar of an X form at width w (R135): wrap of the x register, or the sign-extended imm5. -/
def vintScalar (h : Hart) (o : VOp) (w : Nat) : Nat := if o.i then wrapN o.vs2.toInt w else (h.ox o.vs2).toNat % 2 ^ w

/-- An elementwise integer operation on two groups. -/
def vint (op : Nat) (o : VOp) (s : State) : Flow :=
  let c := s.cur.vctx o.m
  s.vElem o { formats := intFormats, n1 := c.g, n2 := c.g, nd := c.g } c.w c.w c.w (fun c a b d => vintN op c.w a b d)

/-- An elementwise integer operation on one group. -/
def vintUnary (op : Nat) (o : VOp) (s : State) : Flow :=
  let c := s.cur.vctx o.m
  s.vElem o { formats := intFormats, n1 := c.g, n2 := 0, nd := c.g } c.w c.w c.w (fun c a _ d => vintN op c.w a 0 d)

/-- An elementwise integer operation with a scalar. -/
def vintX (op : Nat) (o : VOp) (s : State) : Flow :=
  let c := s.cur.vctx o.m
  let x := vintScalar s.cur o c.w
  s.vElem o { formats := intFormats, n1 := c.g, n2 := 0, nd := c.g } c.w c.w c.w (fun c a _ d => vintN op c.w a x d)

/-- A compare's mask destination meets a source group (R137). -/
def maskClash (o : VOp) (n1 n2 : Nat) : Bool :=
  (!o.q && overlap o.vd.toNat 1 o.vs1.toNat n1) || overlap o.vd.toNat 1 o.vs2.toNat n2

/-- An integer compare of two groups (R140). -/
def vintCmp (op : Nat) (o : VOp) (s : State) : Flow :=
  let c := s.cur.vctx o.m
  s.vElem o { formats := intFormats, n1 := c.g, n2 := c.g, nd := 1, clash := maskClash o c.g c.g } c.w c.w 1
    (fun c a b _ => vintN op c.w a b 0)

/-- An integer compare with a scalar (R140). -/
def vintCmpX (op : Nat) (o : VOp) (s : State) : Flow :=
  let c := s.cur.vctx o.m
  let x := vintScalar s.cur o c.w
  s.vElem o { formats := intFormats, n1 := c.g, n2 := 0, nd := 1, clash := maskClash o c.g 0 } c.w c.w 1
    (fun c a _ _ => vintN op c.w a x 0)

/-- VADD (R139). -/
def execVadd (o : VOp) (s : State) : Host.Outcome State Fault Refusal := performPfx (vaddWord o) s (vint 0 o)

/-- VSUB (R139). -/
def execVsub (o : VOp) (s : State) : Host.Outcome State Fault Refusal := performPfx (vsubWord o) s (vint 1 o)

/-- VRSUB (R139). -/
def execVrsub (o : VOp) (s : State) : Host.Outcome State Fault Refusal := performPfx (vrsubWord o) s (vint 2 o)

/-- VMUL (R139). -/
def execVmul (o : VOp) (s : State) : Host.Outcome State Fault Refusal := performPfx (vmulWord o) s (vint 3 o)

/-- VMULH (R139). -/
def execVmulh (o : VOp) (s : State) : Host.Outcome State Fault Refusal := performPfx (vmulhWord o) s (vint 4 o)

/-- VMULHN (R139). -/
def execVmulhn (o : VOp) (s : State) : Host.Outcome State Fault Refusal := performPfx (vmulhnWord o) s (vint 5 o)

/-- VMACC (R139). -/
def execVmacc (o : VOp) (s : State) : Host.Outcome State Fault Refusal := performPfx (vmaccWord o) s (vint 6 o)

/-- VAND (R139). -/
def execVand (o : VOp) (s : State) : Host.Outcome State Fault Refusal := performPfx (vandWord o) s (vint 7 o)

/-- VOR (R139). -/
def execVor (o : VOp) (s : State) : Host.Outcome State Fault Refusal := performPfx (vorWord o) s (vint 8 o)

/-- VXOR (R139). -/
def execVxor (o : VOp) (s : State) : Host.Outcome State Fault Refusal := performPfx (vxorWord o) s (vint 9 o)

/-- VSHL (R139). -/
def execVshl (o : VOp) (s : State) : Host.Outcome State Fault Refusal := performPfx (vshlWord o) s (vint 10 o)

/-- VSHR (R139). -/
def execVshr (o : VOp) (s : State) : Host.Outcome State Fault Refusal := performPfx (vshrWord o) s (vint 11 o)

/-- VSRA (R139). -/
def execVsra (o : VOp) (s : State) : Host.Outcome State Fault Refusal := performPfx (vsraWord o) s (vint 12 o)

/-- VMIN (R139). -/
def execVmin (o : VOp) (s : State) : Host.Outcome State Fault Refusal := performPfx (vminWord o) s (vint 13 o)

/-- VMAX (R139). -/
def execVmax (o : VOp) (s : State) : Host.Outcome State Fault Refusal := performPfx (vmaxWord o) s (vint 14 o)

/-- VMINN (R139). -/
def execVminn (o : VOp) (s : State) : Host.Outcome State Fault Refusal := performPfx (vminnWord o) s (vint 15 o)

/-- VMAXN (R139). -/
def execVmaxn (o : VOp) (s : State) : Host.Outcome State Fault Refusal := performPfx (vmaxnWord o) s (vint 16 o)

/-- VSADD (R139). -/
def execVsadd (o : VOp) (s : State) : Host.Outcome State Fault Refusal := performPfx (vsaddWord o) s (vint 17 o)

/-- VSSUB (R139). -/
def execVssub (o : VOp) (s : State) : Host.Outcome State Fault Refusal := performPfx (vssubWord o) s (vint 18 o)

/-- VSADDN (R139). -/
def execVsaddn (o : VOp) (s : State) : Host.Outcome State Fault Refusal := performPfx (vsaddnWord o) s (vint 19 o)

/-- VSSUBN (R139). -/
def execVssubn (o : VOp) (s : State) : Host.Outcome State Fault Refusal := performPfx (vssubnWord o) s (vint 20 o)

/-- VCLZ (R139). -/
def execVclz (o : VOp) (s : State) : Host.Outcome State Fault Refusal := performPfx (vclzWord o) s (vintUnary 21 o)

/-- VCTZ (R139). -/
def execVctz (o : VOp) (s : State) : Host.Outcome State Fault Refusal := performPfx (vctzWord o) s (vintUnary 22 o)

/-- VPOPC (R139). -/
def execVpopc (o : VOp) (s : State) : Host.Outcome State Fault Refusal := performPfx (vpopcWord o) s (vintUnary 23 o)

/-- VMSEQ (R140). -/
def execVmseq (o : VOp) (s : State) : Host.Outcome State Fault Refusal := performPfx (vmseqWord o) s (vintCmp 24 o)

/-- VMSNE (R140). -/
def execVmsne (o : VOp) (s : State) : Host.Outcome State Fault Refusal := performPfx (vmsneWord o) s (vintCmp 25 o)

/-- VMSLT (R140). -/
def execVmslt (o : VOp) (s : State) : Host.Outcome State Fault Refusal := performPfx (vmsltWord o) s (vintCmp 26 o)

/-- VMSLE (R140). -/
def execVmsle (o : VOp) (s : State) : Host.Outcome State Fault Refusal := performPfx (vmsleWord o) s (vintCmp 27 o)

/-- VMSLTN (R140). -/
def execVmsltn (o : VOp) (s : State) : Host.Outcome State Fault Refusal := performPfx (vmsltnWord o) s (vintCmp 28 o)

/-- VMSLEN (R140). -/
def execVmslen (o : VOp) (s : State) : Host.Outcome State Fault Refusal := performPfx (vmslenWord o) s (vintCmp 29 o)

/-- VADD with an x register or imm5 (R139). -/
def execVaddVx (o : VOp) (s : State) : Host.Outcome State Fault Refusal := performPfx (vaddVxWord o) s (vintX 0 o)

/-- VSUB with an x register or imm5 (R139). -/
def execVsubVx (o : VOp) (s : State) : Host.Outcome State Fault Refusal := performPfx (vsubVxWord o) s (vintX 1 o)

/-- VRSUB with an x register or imm5 (R139). -/
def execVrsubVx (o : VOp) (s : State) : Host.Outcome State Fault Refusal := performPfx (vrsubVxWord o) s (vintX 2 o)

/-- VMUL with an x register or imm5 (R139). -/
def execVmulVx (o : VOp) (s : State) : Host.Outcome State Fault Refusal := performPfx (vmulVxWord o) s (vintX 3 o)

/-- VMULH with an x register or imm5 (R139). -/
def execVmulhVx (o : VOp) (s : State) : Host.Outcome State Fault Refusal := performPfx (vmulhVxWord o) s (vintX 4 o)

/-- VMULHN with an x register or imm5 (R139). -/
def execVmulhnVx (o : VOp) (s : State) : Host.Outcome State Fault Refusal := performPfx (vmulhnVxWord o) s (vintX 5 o)

/-- VMACC with an x register or imm5 (R139). -/
def execVmaccVx (o : VOp) (s : State) : Host.Outcome State Fault Refusal := performPfx (vmaccVxWord o) s (vintX 6 o)

/-- VAND with an x register or imm5 (R139). -/
def execVandVx (o : VOp) (s : State) : Host.Outcome State Fault Refusal := performPfx (vandVxWord o) s (vintX 7 o)

/-- VOR with an x register or imm5 (R139). -/
def execVorVx (o : VOp) (s : State) : Host.Outcome State Fault Refusal := performPfx (vorVxWord o) s (vintX 8 o)

/-- VXOR with an x register or imm5 (R139). -/
def execVxorVx (o : VOp) (s : State) : Host.Outcome State Fault Refusal := performPfx (vxorVxWord o) s (vintX 9 o)

/-- VSHL with an x register or imm5 (R139). -/
def execVshlVx (o : VOp) (s : State) : Host.Outcome State Fault Refusal := performPfx (vshlVxWord o) s (vintX 10 o)

/-- VSHR with an x register or imm5 (R139). -/
def execVshrVx (o : VOp) (s : State) : Host.Outcome State Fault Refusal := performPfx (vshrVxWord o) s (vintX 11 o)

/-- VSRA with an x register or imm5 (R139). -/
def execVsraVx (o : VOp) (s : State) : Host.Outcome State Fault Refusal := performPfx (vsraVxWord o) s (vintX 12 o)

/-- VMIN with an x register or imm5 (R139). -/
def execVminVx (o : VOp) (s : State) : Host.Outcome State Fault Refusal := performPfx (vminVxWord o) s (vintX 13 o)

/-- VMAX with an x register or imm5 (R139). -/
def execVmaxVx (o : VOp) (s : State) : Host.Outcome State Fault Refusal := performPfx (vmaxVxWord o) s (vintX 14 o)

/-- VMINN with an x register or imm5 (R139). -/
def execVminnVx (o : VOp) (s : State) : Host.Outcome State Fault Refusal := performPfx (vminnVxWord o) s (vintX 15 o)

/-- VMAXN with an x register or imm5 (R139). -/
def execVmaxnVx (o : VOp) (s : State) : Host.Outcome State Fault Refusal := performPfx (vmaxnVxWord o) s (vintX 16 o)

/-- VSADD with an x register or imm5 (R139). -/
def execVsaddVx (o : VOp) (s : State) : Host.Outcome State Fault Refusal := performPfx (vsaddVxWord o) s (vintX 17 o)

/-- VSSUB with an x register or imm5 (R139). -/
def execVssubVx (o : VOp) (s : State) : Host.Outcome State Fault Refusal := performPfx (vssubVxWord o) s (vintX 18 o)

/-- VSADDN with an x register or imm5 (R139). -/
def execVsaddnVx (o : VOp) (s : State) : Host.Outcome State Fault Refusal := performPfx (vsaddnVxWord o) s (vintX 19 o)

/-- VSSUBN with an x register or imm5 (R139). -/
def execVssubnVx (o : VOp) (s : State) : Host.Outcome State Fault Refusal := performPfx (vssubnVxWord o) s (vintX 20 o)

/-- VMSEQ with an x register or imm5 (R140). -/
def execVmseqVx (o : VOp) (s : State) : Host.Outcome State Fault Refusal := performPfx (vmseqVxWord o) s (vintCmpX 24 o)

/-- VMSNE with an x register or imm5 (R140). -/
def execVmsneVx (o : VOp) (s : State) : Host.Outcome State Fault Refusal := performPfx (vmsneVxWord o) s (vintCmpX 25 o)

/-- VMSLT with an x register or imm5 (R140). -/
def execVmsltVx (o : VOp) (s : State) : Host.Outcome State Fault Refusal := performPfx (vmsltVxWord o) s (vintCmpX 26 o)

/-- VMSLE with an x register or imm5 (R140). -/
def execVmsleVx (o : VOp) (s : State) : Host.Outcome State Fault Refusal := performPfx (vmsleVxWord o) s (vintCmpX 27 o)

/-- VMSLTN with an x register or imm5 (R140). -/
def execVmsltnVx (o : VOp) (s : State) : Host.Outcome State Fault Refusal := performPfx (vmsltnVxWord o) s (vintCmpX 28 o)

/-- VMSLEN with an x register or imm5 (R140). -/
def execVmslenVx (o : VOp) (s : State) : Host.Outcome State Fault Refusal := performPfx (vmslenVxWord o) s (vintCmpX 29 o)

end Sys2Proof.Machine
end

