-- ==== Sys2Proof/Machine/VFp.lean ====
section
/-!
DEFINITION. The vector floating-point instructions and their X forms (R141, R142), the exact pairs and double words
(R143, R144) and the special functions (R148).
-/

namespace Sys2Proof.Machine

def fpFormats : List Nat := [4, 5, 6]

/-- Op codes of VFP that round in the effective mode (R122, R141). -/
def vfpRounds (op : Nat) : Bool := op ≤ 7 || op == 16 || op == 17

/-- An elementwise FP operation on two groups. -/
def vfp (op : Nat) (o : VOp) (s : State) : Flow :=
  let c := s.cur.vctx o.m
  let f := ffmt c.fmt
  let mode := s.cur.mode
  s.vElem o { formats := fpFormats, n1 := c.g, n2 := c.g, nd := c.g, rounds := vfpRounds op } c.w c.w c.w
    (fun _ a b d => vfpN op f f mode a { bits := b, fmt := f } d)

/-- An elementwise FP operation on one group. -/
def vfpUnary (op : Nat) (o : VOp) (s : State) : Flow :=
  let c := s.cur.vctx o.m
  let f := ffmt c.fmt
  let mode := s.cur.mode
  s.vElem o { formats := fpFormats, n1 := c.g, n2 := 0, nd := c.g, rounds := vfpRounds op } c.w c.w c.w
    (fun _ a _ d => vfpN op f f mode a { bits := 0, fmt := f } d)

/-- The FP32 scalar of VFPX (R97). -/
def vfpScalar (h : Hart) (o : VOp) : FArg := { bits := (h.ox o.vs2).toNat % 2 ^ 32, fmt := fp32 }

/-- An elementwise FP operation with a scalar: the minimum and maximum forms round it (R141). -/
def vfpX (op : Nat) (o : VOp) (s : State) : Flow :=
  let c := s.cur.vctx o.m
  let f := ffmt c.fmt
  let mode := s.cur.mode
  let x := vfpScalar s.cur o
  s.vElem o { formats := fpFormats, n1 := c.g, n2 := 0, nd := c.g, rounds := vfpRounds op || (8 ≤ op && op ≤ 11) } c.w c.w c.w
    (fun _ a _ d => vfpN op f f mode a x d)

/-- An FP compare of two groups (R142). -/
def vfpCmp (op : Nat) (o : VOp) (s : State) : Flow :=
  let c := s.cur.vctx o.m
  let f := ffmt c.fmt
  s.vElem o { formats := fpFormats, n1 := c.g, n2 := c.g, nd := 1, clash := maskClash o c.g c.g } c.w c.w 1
    (fun _ a b _ => vfpN op f f 0 a { bits := b, fmt := f } 0)

/-- An FP compare with a scalar (R142). -/
def vfpCmpX (op : Nat) (o : VOp) (s : State) : Flow :=
  let c := s.cur.vctx o.m
  let f := ffmt c.fmt
  let x := vfpScalar s.cur o
  s.vElem o { formats := fpFormats, n1 := c.g, n2 := 0, nd := 1, clash := maskClash o c.g 0 } c.w c.w 1
    (fun _ a _ _ => vfpN op f f 0 a x 0)

/-- A widening operation: narrow sources, an FP32 destination group that meets neither and has at most 8 registers
(R137, R141). -/
def vfpWide (op : Nat) (o : VOp) (s : State) : Flow :=
  let c := s.cur.vctx o.m
  let f := ffmt c.fmt
  let mode := s.cur.mode
  let n := c.wide
  let clash := n > 8 || (!o.q && overlap o.vd.toNat n o.vs1.toNat c.g) || overlap o.vd.toNat n o.vs2.toNat c.g
  s.vElem o { formats := [5, 6, 7, 8], n1 := c.g, n2 := c.g, nd := n, rounds := true, clash := clash } c.w c.w 32
    (fun _ a b d => vfpN op f fp32 mode a { bits := b, fmt := f } d)

/-- VFADD (R141). -/
def execVfadd (o : VOp) (s : State) : Host.Outcome State Fault Refusal := performPfx (vfaddWord o) s (vfp 0 o)

/-- VFSUB (R141). -/
def execVfsub (o : VOp) (s : State) : Host.Outcome State Fault Refusal := performPfx (vfsubWord o) s (vfp 1 o)

/-- VFMUL (R141). -/
def execVfmul (o : VOp) (s : State) : Host.Outcome State Fault Refusal := performPfx (vfmulWord o) s (vfp 2 o)

/-- VFDIV (R141). -/
def execVfdiv (o : VOp) (s : State) : Host.Outcome State Fault Refusal := performPfx (vfdivWord o) s (vfp 3 o)

/-- VFSQRT (R141). -/
def execVfsqrt (o : VOp) (s : State) : Host.Outcome State Fault Refusal := performPfx (vfsqrtWord o) s (vfpUnary 4 o)

/-- VFMA (R141). -/
def execVfma (o : VOp) (s : State) : Host.Outcome State Fault Refusal := performPfx (vfmaWord o) s (vfp 5 o)

/-- VFMS (R141). -/
def execVfms (o : VOp) (s : State) : Host.Outcome State Fault Refusal := performPfx (vfmsWord o) s (vfp 6 o)

/-- VFNMA (R141). -/
def execVfnma (o : VOp) (s : State) : Host.Outcome State Fault Refusal := performPfx (vfnmaWord o) s (vfp 7 o)

/-- VFMIN (R141). -/
def execVfmin (o : VOp) (s : State) : Host.Outcome State Fault Refusal := performPfx (vfminWord o) s (vfp 8 o)

/-- VFMAX (R141). -/
def execVfmax (o : VOp) (s : State) : Host.Outcome State Fault Refusal := performPfx (vfmaxWord o) s (vfp 9 o)

/-- VFMINP (R141). -/
def execVfminp (o : VOp) (s : State) : Host.Outcome State Fault Refusal := performPfx (vfminpWord o) s (vfp 10 o)

/-- VFMAXP (R141). -/
def execVfmaxp (o : VOp) (s : State) : Host.Outcome State Fault Refusal := performPfx (vfmaxpWord o) s (vfp 11 o)

/-- VFABS (R141). -/
def execVfabs (o : VOp) (s : State) : Host.Outcome State Fault Refusal := performPfx (vfabsWord o) s (vfpUnary 12 o)

/-- VFNEG (R141). -/
def execVfneg (o : VOp) (s : State) : Host.Outcome State Fault Refusal := performPfx (vfnegWord o) s (vfpUnary 13 o)

/-- VFSGNJ (R141). -/
def execVfsgnj (o : VOp) (s : State) : Host.Outcome State Fault Refusal := performPfx (vfsgnjWord o) s (vfp 14 o)

/-- VFCLASS (R141). -/
def execVfclass (o : VOp) (s : State) : Host.Outcome State Fault Refusal := performPfx (vfclassWord o) s (vfpUnary 15 o)

/-- VFWMA (R141). -/
def execVfwma (o : VOp) (s : State) : Host.Outcome State Fault Refusal := performPfx (vfwmaWord o) s (vfpWide 16 o)

/-- VFWADD (R141). -/
def execVfwadd (o : VOp) (s : State) : Host.Outcome State Fault Refusal := performPfx (vfwaddWord o) s (vfpWide 17 o)

/-- VMFEQ (R142). -/
def execVmfeq (o : VOp) (s : State) : Host.Outcome State Fault Refusal := performPfx (vmfeqWord o) s (vfpCmp 18 o)

/-- VMFLT (R142). -/
def execVmflt (o : VOp) (s : State) : Host.Outcome State Fault Refusal := performPfx (vmfltWord o) s (vfpCmp 19 o)

/-- VMFLE (R142). -/
def execVmfle (o : VOp) (s : State) : Host.Outcome State Fault Refusal := performPfx (vmfleWord o) s (vfpCmp 20 o)

/-- VMFUN (R142). -/
def execVmfun (o : VOp) (s : State) : Host.Outcome State Fault Refusal := performPfx (vmfunWord o) s (vfpCmp 21 o)

/-- VFADD with an x register read as FP32 (R141). -/
def execVfaddVf (o : VOp) (s : State) : Host.Outcome State Fault Refusal := performPfx (vfaddVfWord o) s (vfpX 0 o)

/-- VFSUB with an x register read as FP32 (R141). -/
def execVfsubVf (o : VOp) (s : State) : Host.Outcome State Fault Refusal := performPfx (vfsubVfWord o) s (vfpX 1 o)

/-- VFMUL with an x register read as FP32 (R141). -/
def execVfmulVf (o : VOp) (s : State) : Host.Outcome State Fault Refusal := performPfx (vfmulVfWord o) s (vfpX 2 o)

/-- VFDIV with an x register read as FP32 (R141). -/
def execVfdivVf (o : VOp) (s : State) : Host.Outcome State Fault Refusal := performPfx (vfdivVfWord o) s (vfpX 3 o)

/-- VFMA with an x register read as FP32 (R141). -/
def execVfmaVf (o : VOp) (s : State) : Host.Outcome State Fault Refusal := performPfx (vfmaVfWord o) s (vfpX 5 o)

/-- VFMS with an x register read as FP32 (R141). -/
def execVfmsVf (o : VOp) (s : State) : Host.Outcome State Fault Refusal := performPfx (vfmsVfWord o) s (vfpX 6 o)

/-- VFNMA with an x register read as FP32 (R141). -/
def execVfnmaVf (o : VOp) (s : State) : Host.Outcome State Fault Refusal := performPfx (vfnmaVfWord o) s (vfpX 7 o)

/-- VFMIN with an x register read as FP32 (R141). -/
def execVfminVf (o : VOp) (s : State) : Host.Outcome State Fault Refusal := performPfx (vfminVfWord o) s (vfpX 8 o)

/-- VFMAX with an x register read as FP32 (R141). -/
def execVfmaxVf (o : VOp) (s : State) : Host.Outcome State Fault Refusal := performPfx (vfmaxVfWord o) s (vfpX 9 o)

/-- VFMINP with an x register read as FP32 (R141). -/
def execVfminpVf (o : VOp) (s : State) : Host.Outcome State Fault Refusal := performPfx (vfminpVfWord o) s (vfpX 10 o)

/-- VFMAXP with an x register read as FP32 (R141). -/
def execVfmaxpVf (o : VOp) (s : State) : Host.Outcome State Fault Refusal := performPfx (vfmaxpVfWord o) s (vfpX 11 o)

/-- VFSGNJ with an x register read as FP32 (R141). -/
def execVfsgnjVf (o : VOp) (s : State) : Host.Outcome State Fault Refusal := performPfx (vfsgnjVfWord o) s (vfpX 14 o)

/-- VMFEQ with an x register read as FP32 (R142). -/
def execVmfeqVf (o : VOp) (s : State) : Host.Outcome State Fault Refusal := performPfx (vmfeqVfWord o) s (vfpCmpX 18 o)

/-- VMFLT with an x register read as FP32 (R142). -/
def execVmfltVf (o : VOp) (s : State) : Host.Outcome State Fault Refusal := performPfx (vmfltVfWord o) s (vfpCmpX 19 o)

/-- VMFLE with an x register read as FP32 (R142). -/
def execVmfleVf (o : VOp) (s : State) : Host.Outcome State Fault Refusal := performPfx (vmfleVfWord o) s (vfpCmpX 20 o)

/-- VMFUN with an x register read as FP32 (R142). -/
def execVmfunVf (o : VOp) (s : State) : Host.Outcome State Fault Refusal := performPfx (vmfunVfWord o) s (vfpCmpX 21 o)

/-! ## Exact pairs and double words (R143, R144) -/

/-- A VPAIR instruction: `p1` and `p2` say whether a source is a pair; `one` whether vs2 is unused. -/
def vpair (op : Nat) (p1 p2 one : Bool) (o : VOp) (s : State) : Flow :=
  let c := s.cur.vctx o.m
  let g := c.g
  let d := o.vd.toNat
  let n1 := if p1 then 2 * g else g
  let n2 := if one then 0 else if p2 then 2 * g else g
  let clash := (!o.q && !p1 && overlap o.vs1.toNat g (d + g) g) || (!one && !p2 && overlap o.vs2.toNat g (d + g) g)
  let k : Shape := { formats := [4], n1 := n1, n2 := n2, nd := g, halves := 2, rounds := op ≤ 2, copy := false, clash := clash }
  if !vCheck s.cur o c k then illegalV s else
  match s.src1 o c 32 n1 with
  | none => illegalV s
  | some (a, s) =>
    let mode := s.cur.mode
    let e := g * (256 * c.lanes / 32)
    let x := s.cur.groupN o.vs1.toNat (2 * g)
    let y := s.cur.groupN o.vs2.toNat (2 * g)
    let hi : Dest := { base := d, regs := g, width := 32, pick := fun r => r.val }
    let lo : Dest := { base := d + g, regs := g, width := 32, pick := fun r => r.lo }
    s.elementwise c (VMods.of s.cur o) [hi, lo] a
      (fun i => vpairN op mode (a.elem i) (elemN x 32 (i + e)) (elemN y 32 i) (elemN y 32 (i + e)))

/-- VFADDX (R143, R144). -/
def execVfaddx (o : VOp) (s : State) : Host.Outcome State Fault Refusal := performPfx (vfaddxWord o) s (vpair 0 false false false o)

/-- VFSUBX (R143, R144). -/
def execVfsubx (o : VOp) (s : State) : Host.Outcome State Fault Refusal := performPfx (vfsubxWord o) s (vpair 1 false false false o)

/-- VFMULX (R143, R144). -/
def execVfmulx (o : VOp) (s : State) : Host.Outcome State Fault Refusal := performPfx (vfmulxWord o) s (vpair 2 false false false o)

/-- VDWADD (R143, R144). -/
def execVdwadd (o : VOp) (s : State) : Host.Outcome State Fault Refusal := performPfx (vdwaddWord o) s (vpair 3 true true false o)

/-- VDWADDS (R143, R144). -/
def execVdwadds (o : VOp) (s : State) : Host.Outcome State Fault Refusal := performPfx (vdwaddsWord o) s (vpair 4 true false false o)

/-- VDWMUL (R143, R144). -/
def execVdwmul (o : VOp) (s : State) : Host.Outcome State Fault Refusal := performPfx (vdwmulWord o) s (vpair 5 true true false o)

/-- VDWREN (R143, R144). -/
def execVdwren (o : VOp) (s : State) : Host.Outcome State Fault Refusal := performPfx (vdwrenWord o) s (vpair 6 true false true o)

/-! ## Special functions (R148) -/

/-- A special function: FP32 only, RNE whatever `vrm` holds (R41). -/
def vsfu (op : Nat) (o : VOp) (s : State) : Flow :=
  let c := s.cur.vctx o.m
  s.vElem o { formats := [4], n1 := c.g, n2 := 0, nd := c.g } 32 32 32 (fun _ a _ _ => vsfuN op a)

/-- VFRCP (R148). -/
def execVfrcp (o : VOp) (s : State) : Host.Outcome State Fault Refusal := performPfx (vfrcpWord o) s (vsfu 0 o)

/-- VFRSQRT (R148). -/
def execVfrsqrt (o : VOp) (s : State) : Host.Outcome State Fault Refusal := performPfx (vfrsqrtWord o) s (vsfu 1 o)

/-- VFEXP2 (R148). -/
def execVfexp2 (o : VOp) (s : State) : Host.Outcome State Fault Refusal := performPfx (vfexp2Word o) s (vsfu 2 o)

/-- VFLOG2 (R148). -/
def execVflog2 (o : VOp) (s : State) : Host.Outcome State Fault Refusal := performPfx (vflog2Word o) s (vsfu 3 o)

/-- VFSINPI (R148). -/
def execVfsinpi (o : VOp) (s : State) : Host.Outcome State Fault Refusal := performPfx (vfsinpiWord o) s (vsfu 4 o)

/-- VFCOSPI (R148). -/
def execVfcospi (o : VOp) (s : State) : Host.Outcome State Fault Refusal := performPfx (vfcospiWord o) s (vsfu 5 o)

end Sys2Proof.Machine
end

