-- ==== Sys2Proof/Machine/VPerm.lean ====
section
/-!
DEFINITION. Permutes (R170, R171, R176), moves (R172), masks (R173, R174) and transformations (R175).
-/

namespace Sys2Proof.Machine

def anyFormat : List Nat := List.range 13

/-- A single-group destination of the element width. -/
def groupDest (o : VOp) (c : VCtx) : Dest := { base := o.vd.toNat, regs := c.g, width := c.w, pick := fun r => r.val }

/-- The shape of a permute: one or two groups of the strip's format, 1D only. -/
def permShape (c : VCtx) (n1 n2 : Nat) (bad : Bool) : Shape :=
  { formats := anyFormat, n1 := n1, n2 := n2, nd := c.g, flat := true, clash := bad }

/-- A permute whose source vs1 is a group or a queue of the element width: `f` gives the element of i, `kept` the
positions it leaves; position i needs no element above i + `back`. -/
def permute (o : VOp) (k : VCtx → Shape) (f : Hart → VCtx → (Nat → Nat) → Nat → Nat) (kept : VCtx → Nat → Bool) (s : State)
    (back : Nat := 0) : Flow :=
  let c := s.cur.vctx o.m
  if !vCheck s.cur o c (k c) then illegalV s else
  let d := groupDest o c
  let h := s.cur.asIssued (d :: s.cur.copyDest d)
  match s.src1 o c c.w c.g h with
  | none => illegalV s
  | some (a, s) =>
    s.elementwise c (VMods.of s.cur o) (d :: s.cur.copyDest d) { a with back := back } (fun i => .of (f h c a.elem i)) (kept c)

def noKept : VCtx → Nat → Bool := fun _ _ => false

/-- The slide amount (R171). -/
def slideBy (h : Hart) (o : VOp) : Nat := if o.i then o.vs2.toNat else (h.ox o.vs2).toNat

/-- VSLIDEUP (R171): positions below the amount are not written. -/
def vslideupBody (o : VOp) (s : State) : Flow :=
  let k := slideBy s.cur o
  permute o (fun c => permShape c c.g 0 false) (fun _ _ e i => e (i - k)) (fun _ i => i < k) s

/-- VSLIDEDN (R171): the register's content up to VLMAX, or the elements taken from a queue. -/
def vslidednBody (o : VOp) (s : State) : Flow :=
  let k := slideBy s.cur o
  permute o (fun c => permShape c c.g 0 false) (fun _ c e i => if i + k < c.vlmax then e (i + k) else 0) noKept s k

/-- VSLIDE1UP (R66, R171). -/
def vslide1upBody (o : VOp) (s : State) : Flow :=
  let x := (s.cur.ox o.vs2).toNat
  permute o (fun c => permShape c c.g 0 false) (fun _ _ e i => if i == 0 then x else e (i - 1)) noKept s

/-- VSLIDE1DN (R171). -/
def vslide1dnBody (o : VOp) (s : State) : Flow :=
  let x := (s.cur.ox o.vs2).toNat
  permute o (fun c => permShape c c.g 0 false) (fun _ c e i => if i + 1 < c.vl - c.vpad then e (i + 1) else x) noKept s 1

/-- VPERMV (R171). -/
def vpermvBody (o : VOp) (s : State) : Flow :=
  permute o (fun c => permShape c c.g c.g false)
    (fun h c e i => let n := e i; if n < c.vlmax then elemN (h.groupN o.vs2.toNat c.g) c.w n else 0) noKept s

/-- Selected positions j < G (R171): those whose governing bit is 1. -/
def VCtx.selected (c : VCtx) : List Nat := (List.range (c.vl - c.vpad)).filter c.gov

/-- VCOMPRESS (R171): the selected elements packed upward; not interrupted. -/
def vcompressBody (o : VOp) (s : State) : Flow :=
  let c := s.cur.vctx o.m
  if !vCheck s.cur o c (permShape c c.g 0 (c.vstart != 0 || o.q)) then illegalV s
  else if c.vl == 0 then .done { s with cur := { s.cur with vstart := 0 } } else
  let h := s.cur
  let x := h.groupN o.vs1.toNat c.g
  let got := c.selected.map (fun j => Slot.res (.of (elemN x c.w j)))
  let d := groupDest o c
  let slots := got ++ List.replicate (c.vl - c.vpad - got.length) Slot.off ++ List.replicate (c.positions d) Slot.tail
  .done { s with cur := { (d :: h.copyDest d).foldl (fun h x => h.writeDest o.ta o.ma slots x) h with vstart := 0 } }

/-- c(i) of R171: selected positions below i. -/
def VCtx.selectedBelow (c : VCtx) (i : Nat) : Nat := if c.masked then popcN (min i (c.vl - c.vpad)) c.mask else i

/-- VEXPAND (R171, R176): a queue source gives as many elements as are selected. -/
def vexpandBody (o : VOp) (s : State) : Flow :=
  let c := s.cur.vctx o.m
  if !vCheck s.cur o c (permShape c c.g 0 false) then illegalV s else
  let d := groupDest o c
  let run (s : State) (a : Src) : Flow :=
    s.elementwise c (VMods.of s.cur o) (d :: s.cur.copyDest d) a (fun i => .of (a.elem (c.selectedBelow i)))
  if o.q then
    let sel := c.selected
    match s.takeQ (o.vs1.toNat % 8) sel.length c.w (fun j => sel.getD j 0) with
    | none => illegalV s
    | some ((hs, l), s) => run s { elem := heldVal hs, held := some hs, limit := l }
  else
    let x := (s.cur.asIssued (d :: s.cur.copyDest d)).groupN o.vs1.toNat c.g
    run s { elem := fun j => elemN x c.w j }

/-- VMERGE (R171): the governing bit chooses, and every granted position from `vstart` up is written. -/
def vmergeBody (o : VOp) (s : State) : Flow :=
  let c := s.cur.vctx o.m
  let k : Shape := { formats := anyFormat, n1 := c.g, n2 := c.g, nd := c.g, clash := !o.m || o.ma }
  if !vCheck s.cur o c k then illegalV s else
  match s.src1 o c c.w c.g with
  | none => illegalV s
  | some (a, s) =>
    let d := groupDest o c
    let y := s.cur.groupN o.vs2.toNat c.g
    s.elementwise { c with masked := false } (VMods.of s.cur o) (d :: s.cur.copyDest d) a
      (fun i => .of (if bitN c.mask i then a.elem i else elemN y c.w i))

/-- VID (R171). -/
def vidBody (o : VOp) (s : State) : Flow :=
  let c := s.cur.vctx o.m
  if !vCheck s.cur o c { formats := anyFormat, n1 := 0, n2 := 0, nd := c.g } then illegalV s else
  let d := groupDest o c
  s.elementwise c (VMods.of s.cur o) (d :: s.cur.copyDest d) { elem := fun _ => 0 } (fun i => .of (i % 2 ^ c.w))

/-- VIOTA (R171): vs1 is one mask register. -/
def viotaBody (o : VOp) (s : State) : Flow :=
  let c := s.cur.vctx o.m
  if !vCheck s.cur o c (permShape c 1 0 o.q) then illegalV s else
  let d := groupDest o c
  let x := (s.cur.asIssued (d :: s.cur.copyDest d)).vN o.vs1.toNat
  let y := if o.m then x &&& c.mask else x
  s.elementwise c (VMods.of s.cur o) (d :: s.cur.copyDest d) { elem := fun _ => 0 }
    (fun i => .of (popcN (min i (c.vl - c.vpad)) y))

/-! ## Moves (R172) -/

/-- VMOVE (R172). -/
def vmoveBody (o : VOp) (s : State) : Flow :=
  let c := s.cur.vctx o.m
  s.vElem o { formats := anyFormat, n1 := c.g, n2 := 0, nd := c.g } c.w c.w c.w (fun _ a _ _ => .of a)

/-- VSPLAT (R172). -/
def vsplatBody (o : VOp) (s : State) : Flow :=
  let c := s.cur.vctx o.m
  let x := (s.cur.ox o.vs2).toNat
  s.vElem o { formats := anyFormat, n1 := 0, n2 := 0, nd := c.g } c.w c.w c.w (fun _ _ _ _ => .of x)

/-- VMVXS (R172): element 0 whatever vl and `vstart` hold, sign-extended for the integer formats.  A queue of which nothing is
taken, vl being 0, gives 0 (log 55). -/
def vmvxsBody (o : VOp) (s : State) : Flow :=
  let c := s.cur.vctx false
  if !pfxFits s.cur.pfx {} || !(o.q || groupOk o.vs1.toNat c.g) then illegalV s else
  match s.src1 o c c.w c.g with
  | none => illegalV s
  | some (a, s) =>
    match a.limit with
    | some l => vecEnd s s.cur a.held (some l)
    | none =>
      let x := a.elem 0
      let y := if fmtIsInt c.fmt then wrapN (sintN c.w x) 64 else x
      .done { s with cur := { s.cur with vstart := 0 }.wx o.vd (BitVec.ofNat 64 y) }

/-- VMVSX (R172): element 0 when it is active; every other position is tail. -/
def vmvsxBody (o : VOp) (s : State) : Flow :=
  let c := s.cur.vctx o.m
  if !vCheck s.cur o c { formats := anyFormat, n1 := 0, n2 := 0, nd := c.g } then illegalV s
  else if c.vl == 0 then .done { s with cur := { s.cur with vstart := 0 } } else
  let h := s.cur
  let x := (h.ox o.vs2).toNat
  let d := groupDest o c
  let slots := (List.range (c.positions d)).map (fun i =>
    if i < c.vstart then Slot.keep
    else if i != 0 then .tail
    else if !c.granted 0 then .tail else if c.gov 0 then .res (.of x) else .off)
  .done { s with cur := { (d :: h.copyDest d).foldl (fun h x => h.writeDest o.ta o.ma slots x) h with vstart := 0 } }

/-! ## Masks (R173, R174) -/

/-- A mask operation on single registers (R173). -/
def vmask (two : Bool) (f : Bool → Bool → Bool) (o : VOp) (s : State) : Flow :=
  let k : Shape := { formats := anyFormat, n1 := 1, n2 := if two then 1 else 0, nd := 1 }
  s.vElem o k 1 1 1 (fun _ a b _ => .of (b2n (f (a == 1) (b == 1))))

/-- The bits a mask-to-scalar instruction counts (R174). -/
def countedBits (h : Hart) (o : VOp) (c : VCtx) : List Nat :=
  let x := h.vN o.vs1.toNat
  (List.range (256 * c.lanes)).filter (fun i => c.granted i && c.gov i && bitN x i)

/-- A mask-to-scalar instruction (R174). -/
def vmaskToX (f : List Nat → Word) (o : VOp) (s : State) : Flow :=
  let c := s.cur.vctx o.m
  if !pfxFits s.cur.pfx { pred := o.m } || c.vstart != 0 then illegalV s
  else .done { s with cur := s.cur.wx o.vd (f (countedBits s.cur o c)) }

/-! ## Transformations (R175) -/

/-- The source byte string of VUNPK and VLUT: the bytes from vs1 upward, read in `from_`, or `n` bytes of a queue; `place` gives the
element that first needs byte j. -/
def State.byteSource (s : State) (o : VOp) (c : VCtx) (from_ : Hart) (n : Nat) (place : Nat → Nat) : Option (Src × State) :=
  if o.q then
    match s.takeQ (o.vs1.toNat % 8) n 8 place with
    | none => none
    | some ((hs, l), s) => some ({ elem := heldVal hs, held := some hs, limit := l }, s)
  else
    let x := from_.groupN o.vs1.toNat (max c.g ((n + 32 * c.lanes - 1) / (32 * c.lanes)))
    some ({ elem := fun j => elemN x 8 j }, s)

/-- Bits [fw · i + fw − 1 : fw · i] of a byte string, fw 4, 8 or 16. -/
def fieldOf (byte : Nat → Nat) (fw i : Nat) : Nat :=
  if fw == 4 then byte (i / 2) / 2 ^ (4 * (i % 2)) % 16
  else if fw == 8 then byte i
  else byte (2 * i) + 256 * byte (2 * i + 1)

/-- VUNPK (R175). -/
def vunpkBody (o : VOp) (s : State) : Flow :=
  let c := s.cur.vctx o.m
  let fw := o.vs2.toNat
  let k : Shape := { formats := [0, 1, 2, 3], n1 := c.g, n2 := 0, nd := c.g, flat := true, clash := fw ≥ c.w }
  if !vCheck s.cur o c k then illegalV s else
  let d := groupDest o c
  match s.byteSource o c (s.cur.asIssued (d :: s.cur.copyDest d)) (((c.vl - c.vpad) * fw + 7) / 8) (fun j => 8 * j / fw) with
  | none => illegalV s
  | some (a, s) =>
    s.elementwise c (VMods.of s.cur o) (d :: s.cur.copyDest d) a (fun i => .of (fieldOf a.elem fw i))

/-- VPACK (R175): the destination's positions are fields of fw bits. -/
def vpackBody (o : VOp) (s : State) : Flow :=
  let c := s.cur.vctx o.m
  let fw := o.vs2.toNat
  let k : Shape := { formats := [0, 1, 2, 3], n1 := c.g, n2 := 0, nd := c.g, flat := true, clash := fw ≥ c.w || o.q }
  if !vCheck s.cur o c k then illegalV s else
  let d : Dest := { base := o.vd.toNat, regs := c.g, width := fw, pick := fun r => r.val }
  let x := (s.cur.asIssued (d :: s.cur.copyDest d)).groupN o.vs1.toNat c.g
  s.elementwise c (VMods.of s.cur o) (d :: s.cur.copyDest d) { elem := fun _ => 0 } (fun i => .of (elemN x c.w i))

/-- VLUT (R175). -/
def vlutBody (o : VOp) (s : State) : Flow :=
  let c := s.cur.vctx o.m
  let n := c.vl - c.vpad
  let bad := !o.q && o.vs1.toNat * (32 * c.lanes) + n > 32 * (32 * c.lanes)
  let k : Shape := { formats := anyFormat, n1 := c.g, n2 := c.g, nd := c.g, flat := true, clash := bad }
  if !vCheck s.cur o c k then illegalV s else
  let d := groupDest o c
  let h := s.cur.asIssued (d :: s.cur.copyDest d)
  match s.byteSource o c h n (fun j => j) with
  | none => illegalV s
  | some (a, s) =>
    let y := h.groupN o.vs2.toNat c.g
    s.elementwise c (VMods.of s.cur o) (d :: s.cur.copyDest d) a
      (fun i => let k := a.elem i; .of (if k < c.vlmax then elemN y c.w k else 0))

/-- VSLIDEUP (R171). -/
def execVslideup (o : VOp) (s : State) : Host.Outcome State Fault Refusal := performPfx (vslideupWord o) s (vslideupBody o)

/-- VSLIDEDN (R171). -/
def execVslidedn (o : VOp) (s : State) : Host.Outcome State Fault Refusal := performPfx (vslidednWord o) s (vslidednBody o)

/-- VSLIDE1UP (R171). -/
def execVslide1up (o : VOp) (s : State) : Host.Outcome State Fault Refusal := performPfx (vslide1upWord o) s (vslide1upBody o)

/-- VSLIDE1DN (R171). -/
def execVslide1dn (o : VOp) (s : State) : Host.Outcome State Fault Refusal := performPfx (vslide1dnWord o) s (vslide1dnBody o)

/-- VPERMV (R171). -/
def execVpermv (o : VOp) (s : State) : Host.Outcome State Fault Refusal := performPfx (vpermvWord o) s (vpermvBody o)

/-- VCOMPRESS (R171). -/
def execVcompress (o : VOp) (s : State) : Host.Outcome State Fault Refusal := performPfx (vcompressWord o) s (vcompressBody o)

/-- VEXPAND (R171). -/
def execVexpand (o : VOp) (s : State) : Host.Outcome State Fault Refusal := performPfx (vexpandWord o) s (vexpandBody o)

/-- VMERGE (R171). -/
def execVmerge (o : VOp) (s : State) : Host.Outcome State Fault Refusal := performPfx (vmergeWord o) s (vmergeBody o)

/-- VID (R171). -/
def execVid (o : VOp) (s : State) : Host.Outcome State Fault Refusal := performPfx (vidWord o) s (vidBody o)

/-- VIOTA (R171). -/
def execViota (o : VOp) (s : State) : Host.Outcome State Fault Refusal := performPfx (viotaWord o) s (viotaBody o)

/-- VMOVE (R172). -/
def execVmove (o : VOp) (s : State) : Host.Outcome State Fault Refusal := performPfx (vmoveWord o) s (vmoveBody o)

/-- VSPLAT (R172). -/
def execVsplat (o : VOp) (s : State) : Host.Outcome State Fault Refusal := performPfx (vsplatWord o) s (vsplatBody o)

/-- VMVXS (R172). -/
def execVmvxs (o : VOp) (s : State) : Host.Outcome State Fault Refusal := performPfx (vmvxsWord o) s (vmvxsBody o)

/-- VMVSX (R172). -/
def execVmvsx (o : VOp) (s : State) : Host.Outcome State Fault Refusal := performPfx (vmvsxWord o) s (vmvsxBody o)

/-- VMAND (R173). -/
def execVmand (o : VOp) (s : State) : Host.Outcome State Fault Refusal :=
  performPfx (vmandWord o) s (vmask true (fun a b => a && b) o)

/-- VMOR (R173). -/
def execVmor (o : VOp) (s : State) : Host.Outcome State Fault Refusal :=
  performPfx (vmorWord o) s (vmask true (fun a b => a || b) o)

/-- VMXOR (R173). -/
def execVmxor (o : VOp) (s : State) : Host.Outcome State Fault Refusal :=
  performPfx (vmxorWord o) s (vmask true (fun a b => a != b) o)

/-- VMANDN (R173). -/
def execVmandn (o : VOp) (s : State) : Host.Outcome State Fault Refusal :=
  performPfx (vmandnWord o) s (vmask true (fun a b => a && !b) o)

/-- VMNOT (R173). -/
def execVmnot (o : VOp) (s : State) : Host.Outcome State Fault Refusal :=
  performPfx (vmnotWord o) s (vmask false (fun a _ => !a) o)

/-- VMPOPC (R174). -/
def execVmpopc (o : VOp) (s : State) : Host.Outcome State Fault Refusal :=
  performPfx (vmpopcWord o) s (vmaskToX (fun l => BitVec.ofNat 64 l.length) o)

/-- VMFIRST (R174). -/
def execVmfirst (o : VOp) (s : State) : Host.Outcome State Fault Refusal :=
  performPfx (vmfirstWord o) s (vmaskToX (fun l => match l with | i :: _ => BitVec.ofNat 64 i | [] => BitVec.allOnes 64) o)

/-- VMANY (R174). -/
def execVmany (o : VOp) (s : State) : Host.Outcome State Fault Refusal :=
  performPfx (vmanyWord o) s (vmaskToX (fun l => if l.isEmpty then 0 else 1) o)

/-- VUNPK (R175). -/
def execVunpk (o : VOp) (s : State) : Host.Outcome State Fault Refusal := performPfx (vunpkWord o) s (vunpkBody o)

/-- VPACK (R175). -/
def execVpack (o : VOp) (s : State) : Host.Outcome State Fault Refusal := performPfx (vpackWord o) s (vpackBody o)

/-- VLUT (R175). -/
def execVlut (o : VOp) (s : State) : Host.Outcome State Fault Refusal := performPfx (vlutWord o) s (vlutBody o)

end Sys2Proof.Machine
end

