-- ==== Sys2Proof/Machine/VRed.lean ====
section
/-!
DEFINITION. The reductions (R145 to R147, R53 to R56).
-/

namespace Sys2Proof.Machine

/-- The exception mask of a reduction (R147): bit 0, zeros below vl, and ta from vl upward. -/
def redEmask (c : VCtx) (ta bit0 : Bool) : List (Option Nat) :=
  (List.range (256 * c.lanes)).map (fun i =>
    if i == 0 then some (b2n bit0) else if i < c.vl then some 0 else if ta then some 1 else none)

/-- A reduction: all elements are read, then element 0 is written and every other position is tail (R145).  An enabled
flag, or a queue element whose fetch failed, traps with nothing written and `vstart` still 0. -/
def vred (op : Nat) (o : VOp) (s : State) : Flow :=
  let c := s.cur.vctx o.m
  let g := c.g
  let d := o.vd.toNat
  let pair := op == 5
  let clash := c.vstart != 0 ||
    (pair && ((!o.q && overlap o.vs1.toNat g (d + g) g) || overlap o.vs2.toNat g (d + g) g))
  let k : Shape := { formats := vredFormats op, n1 := g, n2 := g, nd := g, halves := if pair then 2 else 1, flat := true,
                     rounds := 3 ≤ op && op ≤ 5, copy := !pair, clash := clash }
  if !vCheck s.cur o c k then illegalV s else
  match s.src1 o c c.w g with
  | none => illegalV s
  | some (a, s) =>
    if c.vl == 0 then .done { s with cur := { s.cur with vstart := 0 } } else
    match a.limit with
    | some l => .trap { cause := l.cause, tval := l.tval, vec := true, held := a.held, wait := l.wait } s
    | none =>
      let h := s.cur
      let xs := (List.range c.vl).map (fun i => if c.active i then some (a.elem i) else none)
      let r := vredN op c.w (ffmt c.fmt) h.mode h.enabled (elemN (h.groupN o.vs2.toNat g) c.w 0) xs
      let h := h.raise r.flags
      match r.stop with
      | some i => .trap { cause := 0xF, tval := BitVec.ofNat 64 i, vec := true, held := a.held } { s with cur := h }
      | none =>
        let md := VMods.of h o
        let slots := .res { val := r.val, lo := r.err } :: List.replicate (g * (256 * c.lanes / c.w) - 1) Slot.tail
        let hi : Dest := { base := d, regs := g, width := c.w, pick := fun r => r.val }
        let lo : Dest := { base := d + g, regs := g, width := c.w, pick := fun r => r.lo }
        let h := (if pair then [hi, lo] else hi :: h.copyDest hi).foldl (fun h x => h.writeDest md.ta false slots x) h
        let h := match md.em with
          | some k => h.writeRegs 1 k 1 (redEmask c md.ta (r.flags &&& h.sel != 0))
          | none => h
        .done { s with cur := { h with vstart := 0 } }

/-- VREDSUM (R146). -/
def execVredsum (o : VOp) (s : State) : Host.Outcome State Fault Refusal := performPfx (vredsumWord o) s (vred 0 o)

/-- VREDMAX (R146). -/
def execVredmax (o : VOp) (s : State) : Host.Outcome State Fault Refusal := performPfx (vredmaxWord o) s (vred 1 o)

/-- VREDMIN (R146). -/
def execVredmin (o : VOp) (s : State) : Host.Outcome State Fault Refusal := performPfx (vredminWord o) s (vred 2 o)

/-- VFREDO (R146). -/
def execVfredo (o : VOp) (s : State) : Host.Outcome State Fault Refusal := performPfx (vfredoWord o) s (vred 3 o)

/-- VFREDT (R146). -/
def execVfredt (o : VOp) (s : State) : Host.Outcome State Fault Refusal := performPfx (vfredtWord o) s (vred 4 o)

/-- VFREDC (R146). -/
def execVfredc (o : VOp) (s : State) : Host.Outcome State Fault Refusal := performPfx (vfredcWord o) s (vred 5 o)

/-- VFREDMAX (R146). -/
def execVfredmax (o : VOp) (s : State) : Host.Outcome State Fault Refusal := performPfx (vfredmaxWord o) s (vred 6 o)

/-- VFREDMIN (R146). -/
def execVfredmin (o : VOp) (s : State) : Host.Outcome State Fault Refusal := performPfx (vfredminWord o) s (vred 7 o)

end Sys2Proof.Machine
end

