-- ==== Sys2Proof/Machine/VSet.lean ====
section
/-!
DEFINITION. VSETL and VLENQ (R129 to R133).
-/

namespace Sys2Proof.Machine

/-- The grant of R130: vl and vr for a request of `n` elements and `rows` rows under vtype `vt` and VLMAX `vm`. -/
def grant (vt vm n rows : Nat) : Nat × Nat :=
  let b := blockLen vt
  let up := (n + b - 1) / b * b
  if !bitN vt 8 then (min up (vm / b * b), 1)
  else
    let vr := min rows (vm / 64)
    (if vr == 0 then 0 else min up 64, vr)

/-- VSETL (R129, R130, R132): at its boundary a stop asked of the hart is taken and a strip breakpoint matches before it
executes (R339, R341); a strip record closes the strip before (R346). -/
def vsetlBody (d a b : Reg) (vt : BitVec 10) (s : State) : Flow :=
  let h := s.cur
  let t := vt.toNat
  let vm := vlmaxOf h.lanes (fmtWidth (t % 16)) (2 ^ (t / 16 % 4)) h.vlcap
  let bad := bitN t 8 && vm / 64 == 0
  let bp := if h.passed.any (fun b => b ≥ 4) || bad then none else (s.blockOf h.sctx).bind (fun p => sbpHit p.2 h.pc (h.sord + 1))
  match bp with
  | some k => .stay (s.breakAt 4 (4 + k))
  | none =>
    if h.pending.isSome then .stay (s.takeStop .strip)
    else if bad then .trap { cause := 1, tval := 0 } s
    else
      let s := s.closeStrip
      let n := (h.rx a).toNat
      let (vl, vr) := grant t vm n (if b = 0#5 then 1 else (h.rx b).toNat)
      let h := { s.cur with
        vl := BitVec.ofNat 64 vl, vr := BitVec.ofNat 64 vr, vpad := BitVec.ofNat 64 (vl - n), vtype := vt.setWidth 64,
        vlmax := BitVec.ofNat 64 vm, sord := s.cur.sord + 1, sva := s.cur.pc, vstart := 0 }
      .done { s with cur := h.wx d (BitVec.ofNat 64 vl) }

/-- VSETL (R130). -/
def execVsetl (d a b : Reg) (vt : BitVec 10) (s : State) : Host.Outcome State Fault Refusal :=
  perform (vsetlWord d a b vt) s (vsetlBody d a b vt)

/-- VLENQ (R133): bytes of a spill frame of a group under the current vtype. -/
def execVlenq (d : Reg) (s : State) : Host.Outcome State Fault Refusal :=
  perform (vlenqWord d) s (fun s =>
    .done { s with cur := s.cur.wx d (BitVec.ofNat 64 (s.cur.vlmax.toNat * fmtWidth (s.cur.vtype.toNat % 16) / 8)) })

end Sys2Proof.Machine
end

