-- ==== Sys2Proof/Machine/Dispatch.lean ====
section
/-!
DEFINITION. One arm per constructor of `Instr`: the call of its meaning.
-/

namespace Sys2Proof.Machine

def exec (i : Instr) (s : State) : Host.Outcome State Fault Refusal :=
  match i with
  | .add d a b => Sys2Proof.Machine.execAdd d a b s
  | .sub d a b => Sys2Proof.Machine.execSub d a b s
  | .and d a b => Sys2Proof.Machine.execAnd d a b s
  | .or d a b => Sys2Proof.Machine.execOr d a b s
  | .xor d a b => Sys2Proof.Machine.execXor d a b s
  | .andn d a b => Sys2Proof.Machine.execAndn d a b s
  | .shl d a b => Sys2Proof.Machine.execShl d a b s
  | .shr d a b => Sys2Proof.Machine.execShr d a b s
  | .sra d a b => Sys2Proof.Machine.execSra d a b s
  | .rol d a b => Sys2Proof.Machine.execRol d a b s
  | .ror d a b => Sys2Proof.Machine.execRor d a b s
  | .slt d a b => Sys2Proof.Machine.execSlt d a b s
  | .sltn d a b => Sys2Proof.Machine.execSltn d a b s
  | .min d a b => Sys2Proof.Machine.execMin d a b s
  | .max d a b => Sys2Proof.Machine.execMax d a b s
  | .minn d a b => Sys2Proof.Machine.execMinn d a b s
  | .maxn d a b => Sys2Proof.Machine.execMaxn d a b s
  | .mul d a b => Sys2Proof.Machine.execMul d a b s
  | .mulh d a b => Sys2Proof.Machine.execMulh d a b s
  | .mulhn d a b => Sys2Proof.Machine.execMulhn d a b s
  | .div d a b => Sys2Proof.Machine.execDiv d a b s
  | .divn d a b => Sys2Proof.Machine.execDivn d a b s
  | .rem d a b => Sys2Proof.Machine.execRem d a b s
  | .remn d a b => Sys2Proof.Machine.execRemn d a b s
  | .clz d a => Sys2Proof.Machine.execClz d a s
  | .ctz d a => Sys2Proof.Machine.execCtz d a s
  | .popc d a => Sys2Proof.Machine.execPopc d a s
  | .sextb d a => Sys2Proof.Machine.execSextb d a s
  | .sexth d a => Sys2Proof.Machine.execSexth d a s
  | .sextw d a => Sys2Proof.Machine.execSextw d a s
  | .addi d a imm => Sys2Proof.Machine.execAddi d a imm s
  | .andi d a imm => Sys2Proof.Machine.execAndi d a imm s
  | .ori d a imm => Sys2Proof.Machine.execOri d a imm s
  | .xori d a imm => Sys2Proof.Machine.execXori d a imm s
  | .slti d a imm => Sys2Proof.Machine.execSlti d a imm s
  | .lih d a imm => Sys2Proof.Machine.execLih d a imm s
  | .shli d a sh => Sys2Proof.Machine.execShli d a sh s
  | .shri d a sh => Sys2Proof.Machine.execShri d a sh s
  | .srai d a sh => Sys2Proof.Machine.execSrai d a sh s
  | .fadd d a b rm => Sys2Proof.Machine.execFadd d a b rm s
  | .fsub d a b rm => Sys2Proof.Machine.execFsub d a b rm s
  | .fmul d a b rm => Sys2Proof.Machine.execFmul d a b rm s
  | .fdiv d a b rm => Sys2Proof.Machine.execFdiv d a b rm s
  | .fsqrt d a rm => Sys2Proof.Machine.execFsqrt d a rm s
  | .fmadd d a b rm => Sys2Proof.Machine.execFmadd d a b rm s
  | .fmin d a b => Sys2Proof.Machine.execFmin d a b s
  | .fmax d a b => Sys2Proof.Machine.execFmax d a b s
  | .feq d a b => Sys2Proof.Machine.execFeq d a b s
  | .flt d a b => Sys2Proof.Machine.execFlt d a b s
  | .fle d a b => Sys2Proof.Machine.execFle d a b s
  | .fcvt d a kind rm => Sys2Proof.Machine.execFcvt d a kind rm s
  | .fclass d a => Sys2Proof.Machine.execFclass d a s
  | .ldb d a imm => Sys2Proof.Machine.execLdb d a imm s
  | .ldh d a imm => Sys2Proof.Machine.execLdh d a imm s
  | .ldw d a imm => Sys2Proof.Machine.execLdw d a imm s
  | .ldd d a imm => Sys2Proof.Machine.execLdd d a imm s
  | .ldbn d a imm => Sys2Proof.Machine.execLdbn d a imm s
  | .ldhn d a imm => Sys2Proof.Machine.execLdhn d a imm s
  | .ldwn d a imm => Sys2Proof.Machine.execLdwn d a imm s
  | .stb r a imm => Sys2Proof.Machine.execStb r a imm s
  | .sth r a imm => Sys2Proof.Machine.execSth r a imm s
  | .stw r a imm => Sys2Proof.Machine.execStw r a imm s
  | .std r a imm => Sys2Proof.Machine.execStd r a imm s
  | .amoadd d a b acq rel scope => Sys2Proof.Machine.execAmoadd d a b acq rel scope s
  | .amoand d a b acq rel scope => Sys2Proof.Machine.execAmoand d a b acq rel scope s
  | .amoor d a b acq rel scope => Sys2Proof.Machine.execAmoor d a b acq rel scope s
  | .amoxor d a b acq rel scope => Sys2Proof.Machine.execAmoxor d a b acq rel scope s
  | .amomin d a b acq rel scope => Sys2Proof.Machine.execAmomin d a b acq rel scope s
  | .amomax d a b acq rel scope => Sys2Proof.Machine.execAmomax d a b acq rel scope s
  | .amominn d a b acq rel scope => Sys2Proof.Machine.execAmominn d a b acq rel scope s
  | .amomaxn d a b acq rel scope => Sys2Proof.Machine.execAmomaxn d a b acq rel scope s
  | .amoswap d a b acq rel scope => Sys2Proof.Machine.execAmoswap d a b acq rel scope s
  | .amocas d a b acq rel scope => Sys2Proof.Machine.execAmocas d a b acq rel scope s
  | .amofadd d a b acq rel scope => Sys2Proof.Machine.execAmofadd d a b acq rel scope s
  | .beq a b off => Sys2Proof.Machine.execBeq a b off s
  | .bne a b off => Sys2Proof.Machine.execBne a b off s
  | .blt a b off => Sys2Proof.Machine.execBlt a b off s
  | .bge a b off => Sys2Proof.Machine.execBge a b off s
  | .bltn a b off => Sys2Proof.Machine.execBltn a b off s
  | .bgen a b off => Sys2Proof.Machine.execBgen a b off s
  | .jal off => Sys2Proof.Machine.execJal off s
  | .jalr d a imm => Sys2Proof.Machine.execJalr d a imm s
  | .loop a off => Sys2Proof.Machine.execLoop a off s
  | .csrr d csr => Sys2Proof.Machine.execCsrr d csr s
  | .csrw a csr => Sys2Proof.Machine.execCsrw a csr s
  | .csrs a csr => Sys2Proof.Machine.execCsrs a csr s
  | .csrc a csr => Sys2Proof.Machine.execCsrc a csr s
  | .trap imm => Sys2Proof.Machine.execTrap imm s
  | .brk imm => Sys2Proof.Machine.execBrk imm s
  | .eret => Sys2Proof.Machine.execEret s
  | .fence scope => Sys2Proof.Machine.execFence scope s
  | .fenceSv => Sys2Proof.Machine.execFenceSv s
  | .fenceVs => Sys2Proof.Machine.execFenceVs s
  | .fenceVv => Sys2Proof.Machine.execFenceVv s
  | .sbar mask => Sys2Proof.Machine.execSbar mask s
  | .ifence => Sys2Proof.Machine.execIfence s
  | .yield => Sys2Proof.Machine.execYield s
  | .halt => Sys2Proof.Machine.execHalt s
  | .haltDrained h => Sys2Proof.Machine.execHaltDrained h s
  | .pfx pred copy emask rm pv cv ev chain => Sys2Proof.Machine.execPfx pred copy emask rm pv cv ev chain s
  | .vsetl d a b vt => Sys2Proof.Machine.execVsetl d a b vt s
  | .vlenq d => Sys2Proof.Machine.execVlenq d s
  | .vadd o => Sys2Proof.Machine.execVadd o s
  | .vsub o => Sys2Proof.Machine.execVsub o s
  | .vrsub o => Sys2Proof.Machine.execVrsub o s
  | .vmul o => Sys2Proof.Machine.execVmul o s
  | .vmulh o => Sys2Proof.Machine.execVmulh o s
  | .vmulhn o => Sys2Proof.Machine.execVmulhn o s
  | .vmacc o => Sys2Proof.Machine.execVmacc o s
  | .vand o => Sys2Proof.Machine.execVand o s
  | .vor o => Sys2Proof.Machine.execVor o s
  | .vxor o => Sys2Proof.Machine.execVxor o s
  | .vshl o => Sys2Proof.Machine.execVshl o s
  | .vshr o => Sys2Proof.Machine.execVshr o s
  | .vsra o => Sys2Proof.Machine.execVsra o s
  | .vmin o => Sys2Proof.Machine.execVmin o s
  | .vmax o => Sys2Proof.Machine.execVmax o s
  | .vminn o => Sys2Proof.Machine.execVminn o s
  | .vmaxn o => Sys2Proof.Machine.execVmaxn o s
  | .vsadd o => Sys2Proof.Machine.execVsadd o s
  | .vssub o => Sys2Proof.Machine.execVssub o s
  | .vsaddn o => Sys2Proof.Machine.execVsaddn o s
  | .vssubn o => Sys2Proof.Machine.execVssubn o s
  | .vclz o => Sys2Proof.Machine.execVclz o s
  | .vctz o => Sys2Proof.Machine.execVctz o s
  | .vpopc o => Sys2Proof.Machine.execVpopc o s
  | .vmseq o => Sys2Proof.Machine.execVmseq o s
  | .vmsne o => Sys2Proof.Machine.execVmsne o s
  | .vmslt o => Sys2Proof.Machine.execVmslt o s
  | .vmsle o => Sys2Proof.Machine.execVmsle o s
  | .vmsltn o => Sys2Proof.Machine.execVmsltn o s
  | .vmslen o => Sys2Proof.Machine.execVmslen o s
  | .vaddVx o => Sys2Proof.Machine.execVaddVx o s
  | .vsubVx o => Sys2Proof.Machine.execVsubVx o s
  | .vrsubVx o => Sys2Proof.Machine.execVrsubVx o s
  | .vmulVx o => Sys2Proof.Machine.execVmulVx o s
  | .vmulhVx o => Sys2Proof.Machine.execVmulhVx o s
  | .vmulhnVx o => Sys2Proof.Machine.execVmulhnVx o s
  | .vmaccVx o => Sys2Proof.Machine.execVmaccVx o s
  | .vandVx o => Sys2Proof.Machine.execVandVx o s
  | .vorVx o => Sys2Proof.Machine.execVorVx o s
  | .vxorVx o => Sys2Proof.Machine.execVxorVx o s
  | .vshlVx o => Sys2Proof.Machine.execVshlVx o s
  | .vshrVx o => Sys2Proof.Machine.execVshrVx o s
  | .vsraVx o => Sys2Proof.Machine.execVsraVx o s
  | .vminVx o => Sys2Proof.Machine.execVminVx o s
  | .vmaxVx o => Sys2Proof.Machine.execVmaxVx o s
  | .vminnVx o => Sys2Proof.Machine.execVminnVx o s
  | .vmaxnVx o => Sys2Proof.Machine.execVmaxnVx o s
  | .vsaddVx o => Sys2Proof.Machine.execVsaddVx o s
  | .vssubVx o => Sys2Proof.Machine.execVssubVx o s
  | .vsaddnVx o => Sys2Proof.Machine.execVsaddnVx o s
  | .vssubnVx o => Sys2Proof.Machine.execVssubnVx o s
  | .vmseqVx o => Sys2Proof.Machine.execVmseqVx o s
  | .vmsneVx o => Sys2Proof.Machine.execVmsneVx o s
  | .vmsltVx o => Sys2Proof.Machine.execVmsltVx o s
  | .vmsleVx o => Sys2Proof.Machine.execVmsleVx o s
  | .vmsltnVx o => Sys2Proof.Machine.execVmsltnVx o s
  | .vmslenVx o => Sys2Proof.Machine.execVmslenVx o s
  | .vfadd o => Sys2Proof.Machine.execVfadd o s
  | .vfsub o => Sys2Proof.Machine.execVfsub o s
  | .vfmul o => Sys2Proof.Machine.execVfmul o s
  | .vfdiv o => Sys2Proof.Machine.execVfdiv o s
  | .vfsqrt o => Sys2Proof.Machine.execVfsqrt o s
  | .vfma o => Sys2Proof.Machine.execVfma o s
  | .vfms o => Sys2Proof.Machine.execVfms o s
  | .vfnma o => Sys2Proof.Machine.execVfnma o s
  | .vfmin o => Sys2Proof.Machine.execVfmin o s
  | .vfmax o => Sys2Proof.Machine.execVfmax o s
  | .vfminp o => Sys2Proof.Machine.execVfminp o s
  | .vfmaxp o => Sys2Proof.Machine.execVfmaxp o s
  | .vfabs o => Sys2Proof.Machine.execVfabs o s
  | .vfneg o => Sys2Proof.Machine.execVfneg o s
  | .vfsgnj o => Sys2Proof.Machine.execVfsgnj o s
  | .vfclass o => Sys2Proof.Machine.execVfclass o s
  | .vfwma o => Sys2Proof.Machine.execVfwma o s
  | .vfwadd o => Sys2Proof.Machine.execVfwadd o s
  | .vmfeq o => Sys2Proof.Machine.execVmfeq o s
  | .vmflt o => Sys2Proof.Machine.execVmflt o s
  | .vmfle o => Sys2Proof.Machine.execVmfle o s
  | .vmfun o => Sys2Proof.Machine.execVmfun o s
  | .vfaddVf o => Sys2Proof.Machine.execVfaddVf o s
  | .vfsubVf o => Sys2Proof.Machine.execVfsubVf o s
  | .vfmulVf o => Sys2Proof.Machine.execVfmulVf o s
  | .vfdivVf o => Sys2Proof.Machine.execVfdivVf o s
  | .vfmaVf o => Sys2Proof.Machine.execVfmaVf o s
  | .vfmsVf o => Sys2Proof.Machine.execVfmsVf o s
  | .vfnmaVf o => Sys2Proof.Machine.execVfnmaVf o s
  | .vfminVf o => Sys2Proof.Machine.execVfminVf o s
  | .vfmaxVf o => Sys2Proof.Machine.execVfmaxVf o s
  | .vfminpVf o => Sys2Proof.Machine.execVfminpVf o s
  | .vfmaxpVf o => Sys2Proof.Machine.execVfmaxpVf o s
  | .vfsgnjVf o => Sys2Proof.Machine.execVfsgnjVf o s
  | .vmfeqVf o => Sys2Proof.Machine.execVmfeqVf o s
  | .vmfltVf o => Sys2Proof.Machine.execVmfltVf o s
  | .vmfleVf o => Sys2Proof.Machine.execVmfleVf o s
  | .vmfunVf o => Sys2Proof.Machine.execVmfunVf o s
  | .vfaddx o => Sys2Proof.Machine.execVfaddx o s
  | .vfsubx o => Sys2Proof.Machine.execVfsubx o s
  | .vfmulx o => Sys2Proof.Machine.execVfmulx o s
  | .vdwadd o => Sys2Proof.Machine.execVdwadd o s
  | .vdwadds o => Sys2Proof.Machine.execVdwadds o s
  | .vdwmul o => Sys2Proof.Machine.execVdwmul o s
  | .vdwren o => Sys2Proof.Machine.execVdwren o s
  | .vredsum o => Sys2Proof.Machine.execVredsum o s
  | .vredmax o => Sys2Proof.Machine.execVredmax o s
  | .vredmin o => Sys2Proof.Machine.execVredmin o s
  | .vfredo o => Sys2Proof.Machine.execVfredo o s
  | .vfredt o => Sys2Proof.Machine.execVfredt o s
  | .vfredc o => Sys2Proof.Machine.execVfredc o s
  | .vfredmax o => Sys2Proof.Machine.execVfredmax o s
  | .vfredmin o => Sys2Proof.Machine.execVfredmin o s
  | .vslideup o => Sys2Proof.Machine.execVslideup o s
  | .vslidedn o => Sys2Proof.Machine.execVslidedn o s
  | .vslide1up o => Sys2Proof.Machine.execVslide1up o s
  | .vslide1dn o => Sys2Proof.Machine.execVslide1dn o s
  | .vpermv o => Sys2Proof.Machine.execVpermv o s
  | .vcompress o => Sys2Proof.Machine.execVcompress o s
  | .vexpand o => Sys2Proof.Machine.execVexpand o s
  | .vmerge o => Sys2Proof.Machine.execVmerge o s
  | .vid o => Sys2Proof.Machine.execVid o s
  | .viota o => Sys2Proof.Machine.execViota o s
  | .vmand o => Sys2Proof.Machine.execVmand o s
  | .vmor o => Sys2Proof.Machine.execVmor o s
  | .vmxor o => Sys2Proof.Machine.execVmxor o s
  | .vmandn o => Sys2Proof.Machine.execVmandn o s
  | .vmnot o => Sys2Proof.Machine.execVmnot o s
  | .vmpopc o => Sys2Proof.Machine.execVmpopc o s
  | .vmfirst o => Sys2Proof.Machine.execVmfirst o s
  | .vmany o => Sys2Proof.Machine.execVmany o s
  | .vfcvt o => Sys2Proof.Machine.execVfcvt o s
  | .vfwcvt o => Sys2Proof.Machine.execVfwcvt o s
  | .vfncvt o => Sys2Proof.Machine.execVfncvt o s
  | .vbdec o => Sys2Proof.Machine.execVbdec o s
  | .vbenc o => Sys2Proof.Machine.execVbenc o s
  | .vunpk o => Sys2Proof.Machine.execVunpk o s
  | .vpack o => Sys2Proof.Machine.execVpack o s
  | .vlut o => Sys2Proof.Machine.execVlut o s
  | .vfrcp o => Sys2Proof.Machine.execVfrcp o s
  | .vfrsqrt o => Sys2Proof.Machine.execVfrsqrt o s
  | .vfexp2 o => Sys2Proof.Machine.execVfexp2 o s
  | .vflog2 o => Sys2Proof.Machine.execVflog2 o s
  | .vfsinpi o => Sys2Proof.Machine.execVfsinpi o s
  | .vfcospi o => Sys2Proof.Machine.execVfcospi o s
  | .vld o => Sys2Proof.Machine.execVld o s
  | .vlds o => Sys2Proof.Machine.execVlds o s
  | .vldx o => Sys2Proof.Machine.execVldx o s
  | .vldb o => Sys2Proof.Machine.execVldb o s
  | .vfill o => Sys2Proof.Machine.execVfill o s
  | .vst o => Sys2Proof.Machine.execVst o s
  | .vsts o => Sys2Proof.Machine.execVsts o s
  | .vstx o => Sys2Proof.Machine.execVstx o s
  | .vstb o => Sys2Proof.Machine.execVstb o s
  | .vspill o => Sys2Proof.Machine.execVspill o s
  | .chainedOperation h => Sys2Proof.Machine.execChainedOperation h s
  | .queueElementsArrive h => Sys2Proof.Machine.execQueueElementsArrive h s
  | .vmove o => Sys2Proof.Machine.execVmove o s
  | .vsplat o => Sys2Proof.Machine.execVsplat o s
  | .vmvxs o => Sys2Proof.Machine.execVmvxs o s
  | .vmvsx o => Sys2Proof.Machine.execVmvsx o s
  | .mopa tile va vb m pair => Sys2Proof.Machine.execMopa tile va vb m pair s
  | .mopax tile vb vidx m pair => Sys2Proof.Machine.execMopax tile vb vidx m pair s
  | .msclA vs => Sys2Proof.Machine.execMsclA vs s
  | .msclB vs => Sys2Proof.Machine.execMsclB vs s
  | .mzero tile => Sys2Proof.Machine.execMzero tile s
  | .mldt tile a r n => Sys2Proof.Machine.execMldt tile a r n s
  | .mstt tile a r n => Sys2Proof.Machine.execMstt tile a r n s
  | .mrdv tile vd n m => Sys2Proof.Machine.execMrdv tile vd n m s
  | .mwrv tile vs n m => Sys2Proof.Machine.execMwrv tile vs n m s
  | .sbind q a => Sys2Proof.Machine.execSbind q a s
  | .sbindc q a => Sys2Proof.Machine.execSbindc q a s
  | .sunbind q => Sys2Proof.Machine.execSunbind q s
  | .vrgn off => Sys2Proof.Machine.execVrgn off s
  | .vrgne => Sys2Proof.Machine.execVrgne s
  | .lfork off => Sys2Proof.Machine.execLfork off s
  | .ljoin => Sys2Proof.Machine.execLjoin s
  | .lexit => Sys2Proof.Machine.execLexit s
  | .lxrd d a b => Sys2Proof.Machine.execLxrd d a b s
  | .xcopy d a b scope acq rel => Sys2Proof.Machine.execXcopy d a b scope acq rel s
  | .xgath d a b scope acq rel => Sys2Proof.Machine.execXgath d a b scope acq rel s
  | .xwait a => Sys2Proof.Machine.execXwait a s
  | .xwaitWake h => Sys2Proof.Machine.execXwaitWake h s
  | .xpoll d a => Sys2Proof.Machine.execXpoll d a s
  | .commandPoolFreed h => Sys2Proof.Machine.execCommandPoolFreed h s
  | .engineCommandStart cl token => Sys2Proof.Machine.execEngineCommandStart cl token s
  | .engineCommandComplete cl token => Sys2Proof.Machine.execEngineCommandComplete cl token s
  | .bkadd d a b => Sys2Proof.Machine.execBkadd d a b s
  | .bkmax d a b => Sys2Proof.Machine.execBkmax d a b s
  | .bkmul d a b => Sys2Proof.Machine.execBkmul d a b s
  | .bksmx d a b => Sys2Proof.Machine.execBksmx d a b s
  | .bkzero a b => Sys2Proof.Machine.execBkzero a b s
  | .bkred d a b => Sys2Proof.Machine.execBkred d a b s
  | .bankCommandPerform cl id => Sys2Proof.Machine.execBankCommandPerform cl id s
  | .pyinit d h => Sys2Proof.Machine.execPyinit d h s
  | .pyapp d h v => Sys2Proof.Machine.execPyapp d h v s
  | .pystat d h settled => Sys2Proof.Machine.execPystat d h settled s
  | .pyld vd h t xs level settled => Sys2Proof.Machine.execPyld vd h t xs level settled s
  | .instarInitRequest ctx handle => Sys2Proof.Machine.execInstarInitRequest ctx handle s
  | .instarAppend ctx handle item => Sys2Proof.Machine.execInstarAppend ctx handle item s
  | .instarMerge ctx handle => Sys2Proof.Machine.execInstarMerge ctx handle s
  | .instarLoadServe ctx handle t level settled => Sys2Proof.Machine.execInstarLoadServe ctx handle t level settled s
  | .instarStatusServe ctx handle settled => Sys2Proof.Machine.execInstarStatusServe ctx handle settled s
  | .rcall d o n => Sys2Proof.Machine.execRcall d o n s
  | .rread d o n => Sys2Proof.Machine.execRread d o n s
  | .callReturn h => Sys2Proof.Machine.execCallReturn h s
  | .logPositionAssign obj die n args => Sys2Proof.Machine.execLogPositionAssign obj die n args s
  | .replayApplyEntry obj die => Sys2Proof.Machine.execReplayApplyEntry obj die s
  | .rreadRun h => Sys2Proof.Machine.execRreadRun h s
  | .logfullTimeout h => Sys2Proof.Machine.execLogfullTimeout h s
  | .replicaRebuild obj die => Sys2Proof.Machine.execReplicaRebuild obj die s
  | .logCopyRepair obj copy die => Sys2Proof.Machine.execLogCopyRepair obj copy die s
  | .lnch d a => Sys2Proof.Machine.execLnch d a s
  | .lnchW d a => Sys2Proof.Machine.execLnchW d a s
  | .lwait d a => Sys2Proof.Machine.execLwait d a s
  | .lwaitRelease h => Sys2Proof.Machine.execLwaitRelease h s
  | .qpush v n => Sys2Proof.Machine.execQpush v n s
  | .qpop v n => Sys2Proof.Machine.execQpop v n s
  | .qstat d n => Sys2Proof.Machine.execQstat d n s
  | .queueWaitWake h => Sys2Proof.Machine.execQueueWaitWake h s
  | .time d => Sys2Proof.Machine.execTime d s
  | .sleept a => Sys2Proof.Machine.execSleept a s
  | .sleeptWake h => Sys2Proof.Machine.execSleeptWake h s
  | .evset a b => Sys2Proof.Machine.execEvset a b s
  | .evwait a b => Sys2Proof.Machine.execEvwait a b s
  | .evwaitWake h => Sys2Proof.Machine.execEvwaitWake h s
  | .bar a => Sys2Proof.Machine.execBar a s
  | .barRelease cl b => Sys2Proof.Machine.execBarRelease cl b s
  | .stageGroupDeadlock cl => Sys2Proof.Machine.execStageGroupDeadlock cl s
  | .nmrun d a => Sys2Proof.Machine.execNmrun d a s
  | .nmbag d a => Sys2Proof.Machine.execNmbag d a s
  | .nmwait a => Sys2Proof.Machine.execNmwait a s
  | .nmwaitWake h => Sys2Proof.Machine.execNmwaitWake h s
  | .nrnext => Sys2Proof.Machine.execNrnext s
  | .nrseek a => Sys2Proof.Machine.execNrseek a s
  | .nrwb v => Sys2Proof.Machine.execNrwb v s
  | .nmuKernelStart ch => Sys2Proof.Machine.execNmuKernelStart ch s
  | .nmuStepLimit ch => Sys2Proof.Machine.execNmuStepLimit ch s
  | .nmbagRun ch => Sys2Proof.Machine.execNmbagRun ch s
  | .chunkDecode h q => Sys2Proof.Machine.execChunkDecode h q s
  | .pageRequestResponse req success => Sys2Proof.Machine.execPageRequestResponse req success s
  | .invalidationRequest port addr => Sys2Proof.Machine.execInvalidationRequest port addr s
  | .invalidationComplete => Sys2Proof.Machine.execInvalidationComplete s
  | .stopSkidTimeout h => Sys2Proof.Machine.execStopSkidTimeout h s
  | .dispatchIteration queue seq places => Sys2Proof.Machine.execDispatchIteration queue seq places s
  | .launchEligible queue seq => Sys2Proof.Machine.execLaunchEligible queue seq s
  | .priorityAging queue seq => Sys2Proof.Machine.execPriorityAging queue seq s
  | .preemptFold h => Sys2Proof.Machine.execPreemptFold h s
  | .evictLaunch queue seq cl => Sys2Proof.Machine.execEvictLaunch queue seq cl s
  | .hartResume h place => Sys2Proof.Machine.execHartResume h place s
  | .launchComplete queue seq => Sys2Proof.Machine.execLaunchComplete queue seq s
  | .supervisorStopLaunch queue seq => Sys2Proof.Machine.execSupervisorStopLaunch queue seq s
  | .shaltWrite h value => Sys2Proof.Machine.execShaltWrite h value s
  | .dieReset die => Sys2Proof.Machine.execDieReset die s
  | .laneRetire core lane => Sys2Proof.Machine.execLaneRetire core lane s
  | .hartStateError h => Sys2Proof.Machine.execHartStateError h s
  | .hqownClaim port n => Sys2Proof.Machine.execHqownClaim port n s
  | .hqownRelease port n => Sys2Proof.Machine.execHqownRelease port n s
  | .hqsubSubmit port n addr => Sys2Proof.Machine.execHqsubSubmit port n addr s
  | .objectRegister port addr => Sys2Proof.Machine.execObjectRegister port addr s
  | .objectDeregister port handle => Sys2Proof.Machine.execObjectDeregister port handle s
  | .semaphoreClaim port n => Sys2Proof.Machine.execSemaphoreClaim port n s
  | .semaphoreRelease port n => Sys2Proof.Machine.execSemaphoreRelease port n s
  | .evadd port value => Sys2Proof.Machine.execEvadd port value s
  | .evclr port value => Sys2Proof.Machine.execEvclr port value s
  | .dbctxWrite n value => Sys2Proof.Machine.execDbctxWrite n value s
  | .dbctlStop n => Sys2Proof.Machine.execDbctlStop n s
  | .dbctlResume n => Sys2Proof.Machine.execDbctlResume n s
  | .dbringWrite n value => Sys2Proof.Machine.execDbringWrite n value s
  | .dbtailWrite n value => Sys2Proof.Machine.execDbtailWrite n value s
  | .portMessageAccept port msg => Sys2Proof.Machine.execPortMessageAccept port msg s
  | .replayDivergenceTimeout port => Sys2Proof.Machine.execReplayDivergenceTimeout port s
  | .registerWrite port offset value => Sys2Proof.Machine.execRegisterWrite port offset value s
  | .refreshDue ch bank => Sys2Proof.Machine.execRefreshDue ch bank s
  | .channelPowerdownTimeout ch => Sys2Proof.Machine.execChannelPowerdownTimeout ch s
  | .channelPowerdown ch => Sys2Proof.Machine.execChannelPowerdown ch s
  | .channelWake ch => Sys2Proof.Machine.execChannelWake ch s
  | .moduleReset => Sys2Proof.Machine.execModuleReset s
  | .mbgoFetch port value => Sys2Proof.Machine.execMbgoFetch port value s
  | .recoveryFetchComplete => Sys2Proof.Machine.execRecoveryFetchComplete s
  | .hdmDecoderCommit port base size => Sys2Proof.Machine.execHdmDecoderCommit port base size s
  | .portLinkDown port sameHost => Sys2Proof.Machine.execPortLinkDown port sameHost s
  | .spdmRequest port nonce => Sys2Proof.Machine.execSpdmRequest port nonce s
  | .cocoonConfigUnlocked id ctx => Sys2Proof.Machine.execCocoonConfigUnlocked id ctx s
  | .cocoonConfigLocked id => Sys2Proof.Machine.execCocoonConfigLocked id s
  | .cocoonRun id => Sys2Proof.Machine.execCocoonRun id s
  | .cocoonError id => Sys2Proof.Machine.execCocoonError id s
  | .tenantDebugEnable id => Sys2Proof.Machine.execTenantDebugEnable id s
  | .powerClockStep divider => Sys2Proof.Machine.execPowerClockStep divider s
  | .idleEntry => Sys2Proof.Machine.execIdleEntry s
  | .standbyEntry => Sys2Proof.Machine.execStandbyEntry s
  | .activeReturn => Sys2Proof.Machine.execActiveReturn s
  | .thermalTrip => Sys2Proof.Machine.execThermalTrip s
  | .flitCrcRetry port => Sys2Proof.Machine.execFlitCrcRetry port s
  | .messageAck port n received => Sys2Proof.Machine.execMessageAck port n received s
  | .scaleupPortFail port other => Sys2Proof.Machine.execScaleupPortFail port other s
  | .remoteAccessTimeout who => Sys2Proof.Machine.execRemoteAccessTimeout who s
  | .illegalInstruction w => Sys2Proof.Machine.execIllegalInstruction w s
  | .accessPerformed who => Sys2Proof.Machine.execAccessPerformed who s
  | .clockCycle use mask bvl dead => Sys2Proof.Machine.execClockCycle use mask bvl dead s
  | .supervisorResume h => Sys2Proof.Machine.execSupervisorResume h s
  | .contextCreate ctx sptb => Sys2Proof.Machine.execContextCreate ctx sptb s
  | .contextEnd ctx => Sys2Proof.Machine.execContextEnd ctx s
  | .channelReset ch => Sys2Proof.Machine.execChannelReset ch s
  | .dieBack die => Sys2Proof.Machine.execDieBack die s
  | .cxlMemRequest port req => Sys2Proof.Machine.execCxlMemRequest port req s
  | .cxlCacheSnoop port addr exclusive => Sys2Proof.Machine.execCxlCacheSnoop port addr exclusive s
  | .atomicopRequest port addr => Sys2Proof.Machine.execAtomicopRequest port addr s
  | .remoteRequest port n dev req => Sys2Proof.Machine.execRemoteRequest port n dev req s
  | .patrolScrub gran => Sys2Proof.Machine.execPatrolScrub gran s

end Sys2Proof.Machine
end

