-- ==== Sys2Proof/Machine/Fetch.lean ====
section
/-!
DEFINITION. Fetching an instruction word (R85, R112, R242, R257), the breakpoint checks before it executes (R339), and
placing a word where the next step fetches it.
-/

namespace Sys2Proof.Machine

/-- Fetch the word at the next instruction's address: a failing fetch raises its trap with tval = the address (R112). -/
def State.fetch (s : State) : Except Trap (BitVec 32) × State :=
  let a := s.cur.ip
  if !canonical a || inLocal a || inReserved a then (.error { cause := 6, tval := a }, s)
  else match s.xlateHart s.cur.lowLane a .fetch with
    | (.bad c, s) => (.error { cause := c, tval := a }, s)
    | (.ok pa, s) =>
      if !targetOk .plain (s.target pa) || s.cur.noAnswer == some a then (.error { cause := 6, tval := a }, s) else
      let key := s.paKey pa
      if s.poisonIn key 4 then (.error { cause := 8, tval := a }, s)
      else (.ok (BitVec.ofNat 32 (leNat (Memory.getList s.mem key 4))), s.touchAt a pa)

/-- A hart that issues: bound, running and not held (R340). -/
def Hart.ready (h : Hart) : Bool := h.status == .running && !h.held

/-- An instruction breakpoint stops the current hart before it executes; one passed after a resume does not (R339). -/
def State.breakpoint (s : State) : Option Nat :=
  match s.blockOf s.cur.sctx with
  | some (_, d) => ibpHit d s.cur.passed s.cur.ip
  | none => none

/-- Where the next step fetches, when that address translates to executable memory. -/
def State.fetchKey (s : State) : Option Nat :=
  let a := s.cur.ip
  if !s.cur.ready || s.turns.contains s.cur.place || s.cur.reissue.isSome || !s.cur.viq.isEmpty || s.cur.late.isSome || !s.cur.sent.isEmpty || s.cur.pending.isSome || s.breakpoint.isSome then none
  else if !canonical a || inLocal a || inReserved a then none
  else match s.xlateHart s.cur.lowLane a .fetch with
    | (.ok pa, t) => if targetOk .plain (t.target pa) && t.cur.noAnswer != some a && !t.poisonIn (t.paKey pa) 4 && (t.touchAt a pa).blocked.isNone then some (t.paKey pa) else none
    | _ => none

/-- Page tables that map virtual page 0 to the frame at 0x14000, readable, writable and executable (R256): an H4 root at
0x10000. -/
def bootTables (m : List Host.Cell) : List Host.Cell :=
  let e (m : List Host.Cell) (a x : Nat) := Memory.setList m a (leBytes 8 x)
  e (e (e (e m 0x10000 0x11001) 0x11000 0x12001) 0x12000 0x13001) 0x13000 0x1407F

/-- A running hart with one lane at virtual address 0 of those tables: what a launch leaves (R19, R306). -/
def bootHart (h : Hart) : Hart :=
  { h with pc := 0, sptb := 0x10000, lmap := 1, vlmax := 32, status := .running, held := false, reissue := none, ahead := none, viq := [], lane := none, late := none,
           pending := none, more := [], passed := [0, 1, 2, 3], lend := 0, noAnswer := none, sent := [] }

/-- Store a word where the current hart fetches next; when it cannot fetch, a hart that can is set up first (log 3). -/
def State.placeWord (s : State) (w : BitVec 32) : State :=
  match s.fetchKey with
  | some key => { s with mem := Memory.setList s.mem key (bytesOfWord w), schedule := [] }
  | none =>
    { s with
      cur := bootHart s.cur, turns := s.turns.filter (fun p => p != s.cur.place), tlb := [], walks := [], poison := [], schedule := []
      nmus := s.nmus.filter (fun p => match p.2.run with | some r => !r.window.contains 0x14000 | none => true)
      hub := { s.hub with hdmOk := false, tierSize := 0, hostLost := Vector.replicate 2 false }
      mem := Memory.setList (bootTables s.mem) 0x14000 (bytesOfWord w) }

end Sys2Proof.Machine
end

