-- ==== Sys2Proof/Machine/Turns.lean ====
section
/-!
DEFINITION. What one turn does: a hart issues its next instruction (R89, R307, R339), its EP executes an entry of the VIQ (R32), a
near-memory unit executes its next word (R277), or an event happens; and the turns of a round when no order is given (R217: the manual fixes no order among agents).
-/

namespace Sys2Proof.Machine

/-! ## Issue -/

/-- A word that orders later accesses of queue q: an AMO with .ACQ, a FENCE but FENCE.VS, an SBAR that names the queue, XWAIT, LWAIT, QPOP,
EVWAIT, BAR, NMWAIT (R111, R124, R219). -/
def ordersQueue (w : BitVec 32) (q : Nat) : Bool :=
  let fn := w.toNat / 4096 % 16
  match (wMajor w).toNat with
  | 0x17 => w.getLsbD 6
  | 0x00 => fn == 8 || (fn == 9 && w.toNat % 4096 != 1) || (fn == 0xA && w.getLsbD q)
  | 0x35 => w.toNat % 64 == 2
  | 0x39 => w.toNat % 2048 == 2
  | 0x3A => w.toNat % 2048 == 1
  | 0x3B => w.toNat % 2048 == 3 || w.toNat % 2048 == 4
  | 0x3C => w.toNat % 2048 == 2
  | _ => false

/-- Execute a word: its instruction, or the illegal-instruction trap (R88); what the stream units fetched ahead of a word that orders the
accesses of their queues is fetched again. -/
noncomputable def runWord (w : BitVec 32) (s : State) : Host.Outcome State Fault Refusal :=
  let s : State := if (List.range 8).any (ordersQueue w) then { s with cur := s.cur.refetch (ordersQueue w) } else s
  match decode w with
  | .ok i => exec i s
  | .error _ => exec (.illegalInstruction w) s

/-- Check 1 (R88, R89): the word is an instruction. -/
noncomputable def isInstr (w : BitVec 32) : Bool := match decode w with
  | .ok _ => true
  | .error _ => false

/-- A register field of a word names a register. -/
def fieldNames (w : BitVec 32) (r : Reg) : Bool := wD w == r || wA w == r || wB w == r || w.extractLsb' 6 5 == r

/-- A word waits for the appends that its hart has sent: it names a register that one of them still has to write (R63), or it is neither
scalar nor vector arithmetic, a load or store, a branch nor a pyramid instruction. -/
def Hart.barred (h : Hart) (w : BitVec 32) : Bool :=
  let m := (wMajor w).toNat
  let free := (0x01 ≤ m && m ≤ 0x31 && m != 0x0B && m != 0x17) || m == 0x37
  !h.sent.isEmpty && (!free || h.sent.any (fun x => wD x.word != 0#5 && fieldNames w (wD x.word)))

/-- The current hart issues the instruction at its address; a fetch that must wait is made again. -/
noncomputable def stepWord (s : State) : Host.Outcome State Fault Refusal :=
  match s.breakpoint with
  | some b => .next (s.breakAt 3 b)
  | none =>
    match ({ s with blocked := none } : State).fetch with
    | (r, t) =>
      match t.blocked, r with
      | some x, _ => .next { s with cur := s.cur.waitOn x }
      | none, .error e => .next (t.raise e none)
      | none, .ok w => if t.cur.barred w then .next s else runWord w t

/-! ## The VIQ (R32, R63, R130) -/

/-- The EP executes the oldest entry of the VIQ: a configuration takes force, an instruction is executed in its place with
the scalar operands it took when it issued (R32, R130). -/
noncomputable def epEntry (s : State) : Host.Outcome State Fault Refusal :=
  match s.cur.viq with
  | [] => .next s
  | .config vl vr vpad vtype vlmax :: rest =>
    .next { s with cur := { s.cur with viq := rest, vl := vl, vr := vr, vpad := vpad, vtype := vtype, vlmax := vlmax, vstart := 0 } }
  | .op pc e :: rest =>
    runWord e.word { s with cur := { s.cur with
      viq := rest, ahead := some { pc := s.cur.pc, pfxs := s.cur.pfxs }, pc := pc, pfxs := e.pfxs, reissue := some e,
      arrived := s.cur.arrivedEp, arrivedEp := none } }

/-- Words outside majors 0x22 to 0x31 that issue from the VIQ: BKRED (R194), QPUSH and QPOP (R209), SUNBIND (R167). -/
def lateWord (w : BitVec 32) : Bool := isWord 0x36 5 2048 w || isQpush w || isQpop w || isWord 0x32 2 2048 w

/-- A word the AP hands to the EP without waiting for a result: majors 0x22 to 0x31 but those of R63, and the late words. -/
def viqWord (w : BitVec 32) : Bool := (dropMajor w && !readQueueDest w) || lateWord w

/-- The entry is an instruction of a kind. -/
def ViqItem.isOp (f : BitVec 32 → Bool) : ViqItem → Bool
  | .op _ e => f e.word
  | .config .. => false

/-- The AP may put a word into the VIQ: none behind a QPOP, which is an acquire, no QPUSH, which is a release, behind a vector
instruction (R209), and no late word with a prefix, which it does not take. -/
def Hart.mayQueue (h : Hart) (w : BitVec 32) : Bool :=
  viqWord w && !h.viq.any (ViqItem.isOp isQpop) && !(isQpush w && h.viq.any (ViqItem.isOp dropMajor)) &&
    !(lateWord w && pfxPending h.pfxs)

/-- Scalar loads and stores (R109). -/
def scalarAccess (w : BitVec 32) : Bool := let m := (wMajor w).toNat; 0x0C ≤ m && m ≤ 0x16

/-- A word the AP executes with earlier entries still in the VIQ (R130, R133): PFX, scalar arithmetic, branches, LOOP, VSETL and VLENQ,
and scalar loads and stores unless a QPOP waits there (R209).  Every other word waits until the VIQ is empty (R21, R63, R111, R116, R124,
R126, R128), but for a call (R203). -/
def Hart.mayPass (h : Hart) (w : BitVec 32) : Bool :=
  let m := (wMajor w).toNat
  0x01 ≤ m && m ≤ 0x21 && m != 0x0B && m != 0x17 && !(scalarAccess w && h.viq.any (ViqItem.isOp isQpop))

/-- RCALL and RREAD, which earlier vector instructions run beside (R203). -/
def callWord (w : BitVec 32) : Bool := (wMajor w).toNat == 0x38

/-- The hart waits for a call to return (R203). -/
def Hart.inCall (h : Hart) : Bool := match h.status with
  | .waiting (.call _ _ _ _) => true
  | .waiting (.rread _ _ _) => true
  | .waiting (.logFull _ _ _) => true
  | _ => false

/-- The hart as its AP sees it: under the youngest configuration in the VIQ (R130, R133). -/
def Hart.apView (h : Hart) : Hart :=
  h.viq.foldl (fun h e => match e with
    | .config vl vr vpad vtype vlmax => { h with vl := vl, vr := vr, vpad := vpad, vtype := vtype, vlmax := vlmax }
    | .op _ _ => h) h

/-- Put a vector instruction into the VIQ; the AP goes on (R32, R122). -/
def Hart.enqueue (h : Hart) (w : BitVec 32) : Hart :=
  let e : VEntry := { word := w, xs := h.x, pfxs := h.pfxs, held := none, start := none }
  { h.advance with viq := h.viq ++ [.op h.pc e] }

/-- The hart after its AP executed `w` as `a`, with the EP's configuration as it was; that of a VSETL waits in the VIQ (R130). -/
def Hart.apDone (h a : Hart) (w : BitVec 32) : Hart :=
  let viq := if (wMajor w).toNat == 0x21 && !w.getLsbD 10 then h.viq ++ [.config a.vl a.vr a.vpad a.vtype a.vlmax] else h.viq
  { a with vl := h.vl, vr := h.vr, vpad := h.vpad, vtype := h.vtype, vlmax := h.vlmax, vstart := h.vstart, viq := viq }

/-- The AP's instruction completed with no trap, wait or stop. -/
def Hart.wentOn (h a : Hart) : Bool :=
  a.place == h.place && a.status == .running && a.held == h.held && a.handler.isSome == h.handler.isSome

/-- A field of the word may name a register. -/
def mayName (w : BitVec 32) (r : Reg) : Bool := (List.range 22).any (fun k => w.toNat / 2 ^ k % 32 == r.toNat)

/-- The late load of a hart counts as performed at its issue. -/
def Hart.settleLate (h : Hart) : Hart := match h.late with
  | none => h
  | some l => { h.wx l.rd l.value with late := none }

/-- The late load of the current hart is performed (R218); where data that passed their check at its issue no longer do, or are held, it
was performed then. -/
def State.performLate (s : State) : State := match s.cur.late with
  | none => s
  | some l =>
    if s.poisonIn l.key l.n || s.heldSegment l.key || s.behind (clusterOf s.cur.place) l.key then { s with cur := s.cur.settleLate }
    else
      let x := leNat (s.viewBytes .scalar l.key l.n)
      let y := if l.natural then x else wrapN (sintN (8 * l.n) x) 64
      { s with cur := { s.cur.wx l.rd (BitVec.ofNat 64 y) with late := none } }

/-- Bytes of a scalar load by its major, and whether it is natural (R109). -/
def loadShape (major : Nat) : Option (Nat × Bool) :=
  match major with
  | 0x0C => some (1, false)
  | 0x0D => some (2, false)
  | 0x0E => some (4, false)
  | 0x0F => some (8, true)
  | 0x10 => some (1, true)
  | 0x11 => some (2, true)
  | 0x12 => some (4, true)
  | _ => none

/-- The AP issues while the VIQ holds entries: what would trap, wait or stop is left until the EP has emptied it (R126); check 1 is made
here (R89). -/
noncomputable def stepAp (s : State) : Host.Outcome State Fault Refusal :=
  if s.cur.pending.isSome || s.breakpoint.isSome || s.cur.viq.length ≥ 32 || s.cur.lane.isSome then .next s else
  match ({ s with blocked := none } : State).fetch with
  | (.error _, _) => .next s
  | (.ok w, t) =>
    if t.blocked.isSome || !isInstr w || t.cur.barred w then .next s
    else if t.cur.late.any (fun l => lateWord w || !viqWord w || mayName w l.rd) then .next s
    else if t.cur.mayQueue w then .next { t with cur := t.cur.enqueue w }
    else if t.cur.mayPass w then
      match runWord w { t with cur := t.cur.apView } with
      | .next u => if t.cur.wentOn u.cur then .next { u with cur := t.cur.apDone u.cur w } else .next s
      | o => o
    else if callWord w then
      match runWord w t with
      | .next u => if t.cur.wentOn { u.cur with status := .running } && (u.cur.status == .running || u.cur.inCall) then .next u else .next s
      | o => o
    else .next s

/-- The AP can go on: its turn changes where it stands. -/
noncomputable def State.apGoes (s : State) : Bool := match stepAp s with
  | .next u => u.cur.pc != s.cur.pc || u.cur.viq.length != s.cur.viq.length
  | _ => false

/-- The AP issues a scalar load that is performed later; its register is written then (R218). -/
noncomputable def stepLate (s : State) : Host.Outcome State Fault Refusal :=
  if s.cur.pending.isSome || s.breakpoint.isSome || s.cur.lane.isSome || s.cur.reissue.isSome || s.cur.late.isSome then .next s else
  match ({ s with blocked := none } : State).fetch with
  | (.error _, _) => .next s
  | (.ok w, t) =>
    match loadShape (wMajor w).toNat with
    | none => .next s
    | some (n, natural) =>
      match (t.reach (t.cur.scalarAddr (wA w) (wImm w)) n .read .plain).1 with
      | .bad _ => .next s
      | .ok key =>
        match runWord w { t with cur := t.cur.apView } with
        | .next u =>
          if t.blocked.isNone && t.cur.mayPass w && !t.cur.barred w && t.cur.wentOn u.cur && wD w != 0#5 then
            .next { u with cur := { t.cur.apDone u.cur w with
              x := t.cur.x, late := some { key := key, n := n, natural := natural, rd := wD w, value := u.cur.rx (wD w) } } }
          else .next s
        | o => o

/-- The entry at the head of the VIQ waits, as state `u` shows, and keeps its place in the order of arrival (R208). -/
def State.headArrives (s u : State) : State :=
  match u.cur.status with
  | .waiting _ => { s with arrivals := u.arrivals, cur := { s.cur with arrivedEp := u.cur.arrived } }
  | _ => s

/-- The EP takes the oldest entry.  A QPUSH or QPOP that must wait stays at the head while the AP goes on (R209); beside a call in flight
(R203) or a late load (R218) the EP executes what completes. -/
noncomputable def stepEp (s : State) : Host.Outcome State Fault Refusal :=
  if s.cur.inCall || s.cur.late.isSome then
    match epEntry { s with cur := { s.cur with status := .running } } with
    | .next u =>
      if s.cur.wentOn { u.cur with held := s.cur.held } && u.cur.ahead.isNone && u.cur.reissue.isNone
        then .next { u with cur := { u.cur with status := s.cur.status, arrived := s.cur.arrived } } else .next (s.headArrives u)
    | o => o
  else
    match epEntry s with
    | .next u =>
      (match u.cur.status with
       | .waiting _ => if s.cur.viq.head?.any (ViqItem.isOp lateWord) && s.apGoes then .next (s.headArrives u) else .next u
       | _ => .next u)
    | o => o

/-- A vector load of the default stream into registers, and a store to a bound stream whose data lie apart from them, both without a prefix
or a mask: accesses of distinct streams (R159, R218). -/
def mayCross (l e : VEntry) : Bool :=
  (wMajor l.word).toNat == 0x2D && (wMajor e.word).toNat == 0x2E && !l.word.getLsbD 7 && e.word.getLsbD 7 &&
    !l.word.getLsbD 10 && !e.word.getLsbD 10 && !pfxPending l.pfxs && !pfxPending e.pfxs && !overlap (wD l.word).toNat 8 (wA e.word).toNat 8

/-- The EP performs the second entry of the VIQ, a store of a stream, before the first, a load of the default stream, when both would
complete (R218). -/
noncomputable def stepPass (s : State) : Host.Outcome State Fault Refusal :=
  match s.cur.viq with
  | .op pl l :: .op pe e :: rest =>
    if !mayCross l e || s.cur.inCall || s.cur.late.isSome then .next s else
    (match epEntry s with
     | .next u =>
       if !s.cur.wentOn u.cur || u.cur.ahead.isSome then .next s else
       (match epEntry u, epEntry { s with cur := { s.cur with viq := .op pe e :: .op pl l :: rest } } with
        | .next v, .next t => if s.cur.wentOn v.cur && v.cur.ahead.isNone && s.cur.wentOn t.cur && t.cur.ahead.isNone then .next t else .next s
        | o, _ => o)
     | o => o)
  | _ => .next s

/-- The next instruction is one the AP may put into an empty VIQ. -/
noncomputable def State.mayLead (s : State) : Bool :=
  s.cur.vstart == 0 && s.cur.lane.isNone && s.breakpoint.isNone && s.cur.pending.isNone &&
    (match ({ s with blocked := none } : State).fetch with
     | (.ok w, t) => t.cur.mayQueue w && isInstr w && t.blocked.isNone
     | _ => false)

/-- The current hart issues: an entry set aside is issued again; with entries in the VIQ the AP runs ahead of the EP; else the
two are in step.  `lead` puts a vector instruction into an empty VIQ. -/
noncomputable def stepHart (lead : Bool) (s : State) : Host.Outcome State Fault Refusal :=
  if s.cur.late.isSome then (if !lead then .next s.performLate else if s.cur.viq.isEmpty && !s.mayLead then .next s else stepAp s) else
  match s.cur.reissue with
  | some e => runWord e.word s
  | none => if !s.cur.viq.isEmpty || (lead && s.mayLead) then stepAp s else stepWord s

/-- The other slot of a hart's core is ready. -/
def State.mateReady (s : State) (place : Nat) : Bool := s.harts.any (fun h => h.place == matePlace place && h.ready)

/-- The hart may issue: it is ready, and when both slots of its core are, its slot did not issue at the last cycle in which both were
(R307). -/
def State.mayIssue (s : State) (h : Hart) : Bool := h.ready && !(s.turns.contains h.place && s.mateReady h.place)

/-- The slots after the current hart's turn: when both were ready the other one is next (R307). -/
def State.passTurn (s : State) : State := if s.mateReady s.cur.place then s.giveTurn else s

/-- The EP may take the next entry of the VIQ: the hart is ready or waits for a call, and no entry set aside comes first. -/
def Hart.mayRun (h : Hart) : Bool := (h.ready || (h.inCall && !h.held)) && h.reissue.isNone

/-- A kernel issues its next word; a word beyond its 256th faults (R279); a unit in the low-power state waits (R253). -/
noncomputable def stepNmu (ch : Nat) (s : State) : Host.Outcome State Fault Refusal :=
  match (s.nmu ch).run with
  | none => .next s
  | some r =>
    if r.wait.isSome || (s.nmu ch).power == .down then .next s
    else if r.cmd.kind == .bag then exec (.nmbagRun ch) s
    else if !r.primed then exec (.nmuKernelStart ch) s
    else match r.code[r.pc]? with
      | none => .next (s.nmuFault ch r 0)
      | some w =>
        match runWord w { s with unit := .nmu ch } with
        | .next s => .next { s with unit := .hart }
        | o => o

/-- The current hart executes its oldest vector instruction up to element position `n`, where its EP stops (R310). -/
noncomputable def stepPart (n : Nat) (s : State) : Host.Outcome State Fault Refusal :=
  let t : State := { s with cut := some n }
  match (if s.cur.reissue.isSome || s.cur.viq.isEmpty then stepHart false t else stepEp t) with
  | .next u => .next { u with cut := none }
  | o => o

/-- The fetch unit of the current hart reads the word at an address ahead of the hart (R115, R125). -/
def State.readAhead (s : State) (a : Word) : State :=
  match ({ s with blocked := none, cur := { s.cur with pc := a, lane := none } } : State).fetch with
  | (.ok w, t) => if t.blocked.isSome then s else
      { t with blocked := s.blocked, cur := { s.cur with words := (a, w) :: s.cur.words.filter (fun p => p.1 != a) } }
  | _ => s

/-- The current hart issues the word that its fetch unit holds, which a later store may have replaced in memory (R115, R125). -/
noncomputable def stepOld (s : State) : Host.Outcome State Fault Refusal :=
  match s.cur.words.find? (fun p => p.1 == s.cur.ip) with
  | some p =>
    if s.breakpoint.isSome || s.cur.reissue.isSome || s.cur.late.isSome || !s.cur.viq.isEmpty || s.cur.barred p.2 then .next s
    else runWord p.2 { s with blocked := none }
  | none => .next s

/-- A write passes its cluster's crossbar: the oldest queued one of a stream of a hart, or the next of an engine command (R221). -/
def State.post (s : State) (who : Accessor) : State :=
  match who with
  | .hart h st =>
    let s := s.focus h
    if s.cur.place == h then s.postOldest (fun x => x == st) else s
  | .engine cl token => s.engineGo cl true token (fun _ => 1)

/-- Events beside which a late load stays to be performed: accesses of other agents, and the passing of time. -/
def keepsLate : Instr → Bool
  | .accessPerformed _ => true
  | .chainedOperation _ => true
  | .clockCycle _ _ _ _ => true
  | _ => false

/-- Before any other event every late load counts as performed at its issue. -/
def State.settleLates (s : State) (i : Instr) : State :=
  if keepsLate i || s.harts.all (fun h => h.late.isNone) then s else s.mapHarts Hart.settleLate

/-- One turn. -/
noncomputable def stepTurn (t : Turn) (s : State) : Host.Outcome State Fault Refusal :=
  match t with
  | .issue h =>
    let s := s.focus h
    if s.cur.place == h && s.mayIssue s.cur then stepHart false s.passTurn else .next s
  | .ahead h =>
    let s := s.focus h
    if s.cur.place == h && s.mayIssue s.cur then stepHart true s.passTurn else .next s
  | .ep h =>
    let s := s.focus h
    if s.cur.place == h && s.cur.mayRun then stepEp s else .next s
  | .pass h =>
    let s := s.focus h
    if s.cur.place == h && s.cur.mayRun then stepPass s else .next s
  | .part h n =>
    let s := s.focus h
    if s.cur.place == h && s.mayIssue s.cur then stepPart n s.passTurn else .next s
  | .late h =>
    let s := s.focus h
    if s.cur.place == h && s.mayIssue s.cur then stepLate s.passTurn else .next s
  | .prefetch h a =>
    let s := s.focus h
    .next (if s.cur.place == h && s.cur.ready then s.readAhead a else s)
  | .old h =>
    let s := s.focus h
    if s.cur.place == h && s.mayIssue s.cur then stepOld s.passTurn else .next s
  | .send h =>
    let s := s.focus h
    .next (if s.cur.place == h then s.sendOff else s)
  | .fetch h q =>
    let s := s.focus h
    .next (if s.cur.place == h && s.cur.ready && s.cur.lane.isNone then s.fetchAhead q else s)
  | .post who => .next (s.post who)
  | .forward n => .next (s.orHeld (fun s => s.forward n))
  | .lanes h use mask bvl dead => .next (s.mapHarts (fun x => if x.place == h then { x with slots := (use, mask, bvl, dead) } else x))
  | .report => .next s.report
  | .hub u => .next (s.hubGo u)
  | .outside o => .next (s.undergo o)
  | .nmu ch => stepNmu ch s
  | .event i => exec i (s.settleLates i)

/-! ## A round -/

/-- What may end a bound hart's wait. -/
noncomputable def Hart.wakeTurns (h : Hart) : List Turn :=
  match h.status with
  | .waiting (.again w) =>
    (match (wMajor w).toNat with
     | 0x35 => [.event (.xwaitWake h.place)]
     | 0x3A => [.event (.queueWaitWake h.place), .event (.stageGroupDeadlock (clusterOf h.place))]
     | 0x3B => [.event (.evwaitWake h.place)]
     | 0x3C => [.event (.nmwaitWake h.place)]
     | _ => [])
  | .waiting (.sleep _ _ _) => [.event (.sleeptWake h.place)]
  | .waiting .pool => [.event (.commandPoolFreed h.place)]
  | .waiting .halt => [.event (.haltDrained h.place)]
  | .waiting (.call _ _ _ _) => [.event (.callReturn h.place)]
  | .waiting (.rread _ _ _) => [.event (.rreadRun h.place)]
  | .waiting (.logFull w slot _) => [.event (.logPositionAssign slot (dieOf h.place) (w.toNat % 64) h.callArgs), .event (.logfullTimeout h.place)]
  | .waiting (.remote _ _) => [.event (.remoteAccessTimeout (.hart h.place .scalar))]
  | .waiting (.barrier b) => [.event (.barRelease (clusterOf h.place) b), .event (.stageGroupDeadlock (clusterOf h.place))]
  | _ => []

/-- The next act of an accepted command of a cluster. -/
noncomputable def cmdTurns (cl : Nat) (k : Cluster) : List Turn :=
  k.pool.flatMap (fun c =>
    if !c.started then (if canStart k.pool c.token then [.event (.engineCommandStart cl c.token)] else [])
    else if c.page.isSome then []
    else match c.engine with
      | .bank => [.event (.bankCommandPerform cl (c.token.toNat - (bankToken 0).toNat))]
      | .nmuOut => []
      | _ =>
        (if c.remote.isSome then [.event (.remoteAccessTimeout (.engine cl c.token))] else []) ++ [.event (.engineCommandComplete cl c.token)])

/-- The next act of a channel's near-memory unit. -/
noncomputable def nmuTurns (ch : Nat) (n : Nmu) : List Turn :=
  match n.run, n.queue with
  | some _, _ => [.nmu ch]
  | none, c :: _ => if c.kind == .bag then [.event (.nmbagRun ch)] else [.event (.nmuKernelStart ch)]
  | none, [] => []

/-- Places where an iteration of a launch can be bound: on the lowest cluster with room (R306). -/
def State.freeFor (s : State) (l : Launch) : Option (List Nat) :=
  (List.range 224).findSome? (fun cl =>
    if l.runsOn (clusterDie cl) && s.fitsCluster l cl then
      some ((apart l.lr.cap (s.freePlaces l.lr.cap (clusterPlaces cl))).take l.lr.stages)
    else none)

/-- The pre-emption or eviction the walker makes for a launch (R305). -/
noncomputable def State.pressTurns (s : State) (l : Launch) : List Turn :=
  ((List.range 4).filter (s.presses l)).flatMap (fun d =>
    match s.firstVictim l d, s.firstEvictee l d with
    | some h, _ => [.event (.preemptFold h.place)]
    | none, some (v, cl) => [.event (.evictLaunch v.queue v.seq cl)]
    | none, none => [])

/-- What the walker may do for a launch (R303, R304, R306, R309). -/
noncomputable def State.launchTurns (s : State) (l : Launch) : List Turn :=
  if l.done.isSome then [] else
  let q := l.queue
  let n := l.seq
  (if l.eligible then [.event (.priorityAging q n)] else [.event (.launchEligible q n)]) ++
  (if s.live l && !l.dispatched then (match s.freeFor l with | some ps => [.event (.dispatchIteration q n ps)] | none => []) else []) ++ s.pressTurns l ++
  (if s.allEnded l then [.event (.launchComplete q n)] else [])

/-- A place where a folded hart can resume. -/
def State.roomFor (s : State) (f : Frame) : Option Nat :=
  f.homes.findSome? (fun cl => (clusterPlaces cl).find? (fun p => (s.resumePlaces f p).isSome))

/-- What may end a folded hart's wait (R207, R314). -/
noncomputable def State.frameTurns (s : State) (f : Frame) : List Turn :=
  if !f.ready then [.event (.lwaitRelease f.hart.place)]
  else match s.roomFor f with
    | some p => [.event (.hartResume f.hart.place p)]
    | none => []

/-- What serves a request of a hart that waits at a home NMU (R270, R271). -/
noncomputable def State.pyTurns (s : State) (h : Hart) : List Turn :=
  match h.status with
  | .waiting (.again w) =>
    let a := h.rx (wA w)
    if (wMajor w).toNat != 0x37 then []
    else if isPyinit w then [.event (.instarInitRequest h.sctx a)]
    else if isPyapp w then (match s.instar h.sctx a with
      | some i => [.event (.instarAppend h.sctx a (h.pyItem w i.size))]
      | none => [])
    else if w.getLsbD 0 then [.event (.instarLoadServe h.sctx a (h.rx (wB w)) (w.extractLsb' 2 4) (w.getLsbD 1))]
    else [.event (.instarStatusServe h.sctx a (w.getLsbD 3))]
  | _ => []

/-- Units of the hub that have something to go on with (R250, R301, R321, R358). -/
noncomputable def State.hubTurns (s : State) : List Turn :=
  (s.hub.queues.filter (fun q => q.2.busy || !q.2.waiting.isEmpty)).map (fun q => .hub (.queue q.1)) ++
  (if s.hub.rowait.isEmpty || s.hub.robusy then [] else [.hub .objects]) ++
  (List.range s.hub.requests.length).map (fun k => .hub (.request k)) ++
  s.hub.qlogs.flatMap (fun x => ((List.range 4).filter (fun d => !s.down.contains d)).flatMap (fun d =>
    List.replicate (match x.replicas[reg4 d] with | some r => (x.entries.filter (fun e => beyond e.1 r.applied)).length | none => 1)
      (.hub (.replica x.queue d))))

/-- The turns of the units, the walker and the hub that have something to do. -/
noncomputable def State.unitTurns (s : State) : List Turn :=
  (List.range s.net.length).map (fun n => .forward n) ++ (s.hits.map (fun _ => .report)) ++
  s.clusters.flatMap (fun p => cmdTurns p.1 p.2) ++
  s.nmus.flatMap (fun p => nmuTurns p.1 p.2) ++
  (s.instars.filter (fun i => i.due.isSome && !i.halted)).map (fun i => .event (.instarMerge i.ctx i.handle)) ++
  s.hub.objects.flatMap (fun o => (List.range 4).map (fun d => .event (.replayApplyEntry o.slot d))) ++
  (s.harts ++ s.frames.map (fun f => f.hart)).flatMap (fun h => h.sent.map (fun x => .event (.instarAppend h.sctx x.handle x.item))) ++
  s.hubTurns ++
  s.harts.flatMap (fun h => (h.stores.take 1).map (fun p => .event (.accessPerformed (.hart h.place p.stream))) ++ h.wakeTurns ++ s.pyTurns h) ++
  s.frames.flatMap s.frameTurns ++
  s.hub.launches.flatMap s.launchTurns ++
  (s.harts.filter (fun h => h.pending.isSome)).map (fun h => .event (.stopSkidTimeout h.place)) ++
  (if s.hub.invs.isEmpty then [] else [.event .invalidationComplete]) ++
  (List.range 18).flatMap (fun k => ((s.hub.fabric.toList.getD k FabricPort.blank).unacked.take 1).map (fun n => .event (.messageAck k n true)))

/-- A round: every hart that may issue issues once, the current one first, the units act, and a cycle passes (log 3). -/
noncomputable def State.round (s : State) : List Turn :=
  (s.harts.filter s.mayIssue).map (fun h => .issue h.place) ++
  (s.harts.filter (fun h => h.mayRun && !h.viq.isEmpty)).map (fun h => .ep h.place) ++ s.unitTurns ++ [.event (.clockCycle 0 0 0 0)]

end Sys2Proof.Machine
end

