-- ==== Sys2Proof/Machine/Step.lean ====
section
/-!
DEFINITION. One step of the module: the head of the schedule moves; an empty schedule is first filled with a round.
-/

namespace Sys2Proof.Machine

/-- One step of the module; a hart that has been asked to stop and waits has stopped before it (R341). -/
noncomputable def step (s : State) : Host.Outcome State Fault Refusal :=
  let s := s.parkIdle
  match s.schedule with
  | t :: rest => stepTurn t { s with schedule := rest, unit := .hart }
  | [] =>
    match s.round with
    | t :: rest => stepTurn t { s with schedule := rest, unit := .hart }
    | [] => .next s

/-- The state with an instruction's word where `step` fetches its next instruction. -/
def State.withFetchWord (s : State) (nbits w : Nat) : State := s.placeWord (BitVec.ofNat 32 (w % 2 ^ nbits))

end Sys2Proof.Machine
end

