-- ==== Sys2Proof/Safety.lean ====
section
/-!
DEFINITION. What a safe run is, and the words the statements are made in: the state an instruction begins with, what must
hold for a hart to execute it in the plain way, and how it ends.
-/

namespace Sys2Proof

/-- A step of the module answers a next state. -/
def StepsOn (s : Machine.State) : Prop := ∃ t, Machine.step s = .next t

/-- The first `k` steps from a state all answer a next state. -/
def SafeFor (k : Nat) (s : Machine.State) : Prop := ∃ t, core.run k s = .next t

/-- The memory's canonical form. -/
def MemoryCanonical (s : Machine.State) : Prop := Machine.Memory.wf s.mem = true

namespace Machine

/-- The state an instruction begins its effect with: nothing yet makes it wait. -/
def State.start (s : State) : State := { s with blocked := none }

/-- The current hart executes, no watchpoint match of an earlier attempt is left over (R340), and its EP is not asked to stop within the
instruction (R310). -/
def Executes (s : State) : Prop := s.unit = .hart ∧ s.cur.strikes = [] ∧ s.cut = none

/-- The current hart executes an instruction with no prefix before it (R122). -/
def Plain (s : State) : Prop := Executes s ∧ pfxPending s.cur.pendingPfx = false

/-- The current hart executes outside lane mode with no prefix before the instruction. -/
def PlainHart (s : State) : Prop := Plain s ∧ s.cur.lane = none

/-- The end of an instruction that completes in sequence. -/
def State.completed (s : State) : State := { s with cur := s.cur.advance }

/-- The end of a taken branch. -/
def State.jumped (s : State) (a : Word) : State := { s with cur := s.cur.jump a }

/-- Accesses made one element after the other: `acc s i x t` says that element i's access takes the state s to t and gives x. -/
inductive InOrder {α : Type} (acc : State → Nat → α → State → Prop) : List Nat → State → List (Nat × α) → State → Prop
  | none (s : State) : InOrder acc [] s [] s
  | next {s t u : State} {i : Nat} {x : α} {l : List Nat} {r : List (Nat × α)} :
      acc s i x t → InOrder acc l t r u → InOrder acc (i :: l) s ((i, x) :: r) u

/-! ## What a vector instruction leaves (R24, R27, R64, R65, R134) -/

/-- What element i of a destination holds afterwards (R134): below `vstart` it is kept, a tail element follows ta, a position
the instruction leaves is kept, an inactive element follows ma, and an active one takes the value. -/
def elementAfter (c : VCtx) (ta ma : Bool) (kept : Nat → Bool) (w old val i : Nat) : Nat :=
  if c.vl = 0 ∨ i < c.vstart then old
  else if c.granted i = false then (if ta then 2 ^ w - 1 else old)
  else if kept i then old
  else if c.gov i = false then (if ma then 2 ^ w - 1 else old)
  else val % 2 ^ w

/-- What bit i of the exception mask holds afterwards (R65): 1 where an active element raised a selected flag. -/
def maskAfter (c : VCtx) (ta : Bool) (kept : Nat → Bool) (sel old flags i : Nat) : Nat :=
  if c.vl = 0 ∨ i < c.vstart then old
  else if c.granted i = false then (if ta then 1 else old)
  else if kept i then old
  else if c.gov i = false then 0
  else if flags &&& sel ≠ 0 then 1 else 0

/-- Element positions an instruction goes through: those of its destinations and of its exception mask. -/
def spanOf (c : VCtx) (md : VMods) (dests : List Dest) : Nat :=
  (dests.map c.positions).foldl max (if md.em.isSome then 256 * c.lanes else 0)

/-- Position i takes a value. -/
def takes (c : VCtx) (kept : Nat → Bool) (i : Nat) : Prop := c.vl ≠ 0 ∧ c.active i = true ∧ kept i = false

/-- The hart after a vector instruction with these destinations: each destination element as R134 says, the exception mask as
R65 says, the flags of the active elements added to `vxflags` (R24), `vstart` 0, every other register as before, and `dirty`
set for what changed (R27). -/
structure ElementsWritten (h : Hart) (c : VCtx) (md : VMods) (dests : List Dest) (kept : Nat → Bool) (val : Nat → ERes)
    (t : Hart) : Prop where
  rest : t = { h with v := t.v, dirty := t.dirty, vxflags := t.vxflags, vstart := 0 }
  element : ∀ d ∈ dests, ∀ i, i < c.positions d → elemN (t.groupN d.base d.regs) d.width i =
    elementAfter c md.ta md.ma kept d.width (elemN (h.groupN d.base d.regs) d.width i) (d.pick (val i)) i
  emask : ∀ k, md.em = some k → ∀ i, i < 256 * c.lanes → elemN (t.groupN k 1) 1 i =
    maskAfter c md.ta kept h.sel (elemN (h.groupN k 1) 1 i) (val i).flags i
  others : ∀ k, k < 32 → md.em ≠ some k → (∀ d ∈ dests, overlap k 1 d.base d.regs = false) →
    t.rv k = h.rv k ∧ t.dirty.getLsbD k = h.dirty.getLsbD k
  flags : ∀ b, b < 64 → (t.vxflags.getLsbD b = true ↔
    h.vxflags.getLsbD b = true ∨ ∃ i, i < spanOf c md dests ∧ takes c kept i ∧ (val i).flags.testBit b = true)
  dirtied : ∀ k, (h.dirty.getLsbD k = true → t.dirty.getLsbD k = true) ∧
    (k < 32 → t.rv k ≠ h.rv k → t.dirty.getLsbD k = true) ∧ (32 ≤ k → t.dirty.getLsbD k = h.dirty.getLsbD k)

end Machine

end Sys2Proof
end

