-- ==== Sys2Proof/Certificates/Slice0/Obligations.lean ====
section
/-!
DEFINITION. The statements for the provers: what each instruction and event does, what the machine does between them, and what every
step keeps.  `Spec.…` are the words the statements are made of.
-/

open Sys2Proof Sys2Proof.Machine

/-! ## Numbers (R35 to R38) -/

/-- The rational a finite number stands for; none for an infinity or a NaN (R35, R36). -/
def Spec.rational : Ex → Option ℚ
  | .fin neg n d e => some ((if neg then -1 else 1) * (n / d : ℚ) * (2 : ℚ) ^ e)
  | _ => none

/-- The rational a finite pattern of a format stands for. -/
def Spec.value (f : FFmt) (x : Nat) : Option ℚ := Spec.rational (readF f x)

/-- R37, R38: a finite nonzero number delivered in FP32, BF16, FP16 or E5M2 becomes the finite pattern its rounding mode names: the nearest, with a tie
to the even pattern (RNE) or to the larger magnitude (RNA), the nearest towards zero (RTZ), towards −∞ (RDN) or towards +∞ (RUP); NX is raised
exactly when that pattern differs from the number; what has no finite pattern in the mode becomes an infinity of its sign with OF and NX. -/
def Spec.Rounding : Prop :=
  ∀ f ∈ [fp32, bf16, fp16, e5m2], ∀ (mode : Nat) (neg : Bool) (num den : Nat) (e : Int), mode < 5 → 0 < num → 0 < den →
    let v : ℚ := (if neg then -1 else 1) * (num / den : ℚ) * (2 : ℚ) ^ e
    let r := roundF f mode false (.fin neg num den e)
    (∀ x, Spec.value f r.1 = some x →
      (r.2 % 2 = 1 ↔ x ≠ v) ∧
      ∀ (b : Nat) (y : ℚ), b < 2 ^ f.w → Spec.value f b = some y →
        (mode = 0 → |x - v| ≤ |y - v| ∧ (|x - v| = |y - v| → y ≠ x → r.1 % 2 = 0)) ∧
        (mode = 1 → |x| ≤ |v| ∧ (|y| ≤ |v| → |y| ≤ |x|)) ∧
        (mode = 2 → x ≤ v ∧ (y ≤ v → y ≤ x)) ∧
        (mode = 3 → v ≤ x ∧ (v ≤ y → x ≤ y)) ∧
        (mode = 4 → |x - v| ≤ |y - v| ∧ (|x - v| = |y - v| → |y| ≤ |x|))) ∧
    (Spec.value f r.1 = none → readF f r.1 = .inf neg ∧ r.2 = flagOF + flagNX ∧ mode ≠ 1 ∧ (mode = 2 → neg = true) ∧ (mode = 3 → neg = false) ∧
      ∀ (b : Nat) (y : ℚ), b < 2 ^ f.w → Spec.value f b = some y → |y| < |v|)

/-- R38, R40: of finite operands the sum, product, quotient by a nonzero number, and a · b + c that an operation delivers are exact before they are
rounded, with no flag, the relations compare the numbers; the square root of a positive number lies on the same side as the exact root of every number of up to 40 significant bits. -/
def Spec.ExactResults : Prop :=
  ∀ f ∈ [fp32, bf16, fp16, e4m3, e5m2], ∀ g ∈ [fp32, bf16, fp16, e4m3, e5m2], ∀ h ∈ [fp32, bf16, fp16, e4m3, e5m2],
    ∀ (mode a b c : Nat) (p q r : ℚ), Spec.value f a = some p → Spec.value g b = some q → Spec.value h c = some r →
      Spec.rational (addEx mode (readF f a) (readF g b)).1 = some (p + q) ∧ (addEx mode (readF f a) (readF g b)).2 = 0 ∧
      Spec.rational (mulEx (readF f a) (readF g b)).1 = some (p * q) ∧ (mulEx (readF f a) (readF g b)).2 = 0 ∧
      (q ≠ 0 → Spec.rational (divEx (readF f a) (readF g b)).1 = some (p / q) ∧ (divEx (readF f a) (readF g b)).2 = 0) ∧
      Spec.rational (fmaEx mode (readF f a) (readF g b) (readF h c)).1 = some (p * q + r) ∧
      (fmaEx mode (readF f a) (readF g b) (readF h c)).2 = 0 ∧
      (feqRel (readF f a) (readF g b) = true ↔ p = q) ∧ (fltRel (readF f a) (readF g b) = true ↔ p < q) ∧
      (fleRel (readF f a) (readF g b) = true ↔ p ≤ q) ∧
      (0 < p → ∃ x, Spec.rational (sqrtEx (readF f a)).1 = some x ∧ (sqrtEx (readF f a)).2 = 0 ∧
        ∀ (m : Nat) (k : Int), m < 2 ^ 40 → ((m * (2 : ℚ) ^ k) * (m * (2 : ℚ) ^ k) ≤ p ↔ m * (2 : ℚ) ^ k ≤ x))

/-- Floating-point results are the exact results rounded once (R37, R38, R40). -/
def Obligations.Numbers : Prop := Spec.Rounding ∧ Spec.ExactResults


/-! ## Scalar integer instructions (R105, R106) -/

/-- An instruction of three registers completes with its rule's value in d: of the x registers at width 64 in a hart, of the
thread's e registers at width 32 in lane mode (R105); nothing else but the move to the next instruction happens. -/
def Spec.ScalarOp (con : Reg → Reg → Reg → Instr) (f : (w : Nat) → BitVec w → BitVec w → BitVec w) : Prop :=
  ∀ (d a b : Reg) (s : State), Plain s →
    (s.cur.lane = none →
      exec (con d a b) s = .next ({ s.start with cur := s.cur.wx d (f 64 (s.cur.rx a) (s.cur.rx b)) } : State).completed) ∧
    (∀ l, s.cur.lane = some l → exec (con d a b) s = .next ({ s.start with
      cur := s.cur.we l.thread.index d (f 32 (s.cur.re l.thread.index a) (s.cur.re l.thread.index b)) } : State).completed)

/-- The same for an instruction with one source register. -/
def Spec.ScalarOp1 (con : Reg → Reg → Instr) (f : (w : Nat) → BitVec w → BitVec w) : Prop :=
  ∀ (d a : Reg) (s : State), Plain s →
    (s.cur.lane = none →
      exec (con d a) s = .next ({ s.start with cur := s.cur.wx d (f 64 (s.cur.rx a)) } : State).completed) ∧
    (∀ l, s.cur.lane = some l → exec (con d a) s = .next ({ s.start with
      cur := s.cur.we l.thread.index d (f 32 (s.cur.re l.thread.index a)) } : State).completed)

/-- The shift amount of a width: the low six bits, or five (R105). -/
def Spec.amount {w : Nat} (b : BitVec w) : Nat := b.toNat % w

/-- R105: ADD, SUB, AND, OR, XOR, ANDN, MUL, MULH and MULHN write the wrapped sum, difference, bitwise result, product, and
upper half of the signed or natural product. -/
def Spec.ScalarArithmetic : Prop :=
  Spec.ScalarOp .add (fun _ a b => a + b) ∧ Spec.ScalarOp .sub (fun _ a b => a - b) ∧
  Spec.ScalarOp .and (fun _ a b => a &&& b) ∧ Spec.ScalarOp .or (fun _ a b => a ||| b) ∧
  Spec.ScalarOp .xor (fun _ a b => a ^^^ b) ∧ Spec.ScalarOp .andn (fun _ a b => a &&& ~~~b) ∧
  Spec.ScalarOp .mul (fun _ a b => a * b) ∧
  Spec.ScalarOp .mulh (fun w a b => BitVec.ofInt w (a.toInt * b.toInt / 2 ^ w)) ∧
  Spec.ScalarOp .mulhn (fun w a b => BitVec.ofNat w (a.toNat * b.toNat / 2 ^ w))

/-- R105: SHL, SHR, SRA, ROL and ROR shift or rotate a by the low bits of b. -/
def Spec.ScalarShifts : Prop :=
  Spec.ScalarOp .shl (fun _ a b => a <<< Spec.amount b) ∧ Spec.ScalarOp .shr (fun _ a b => a >>> Spec.amount b) ∧
  Spec.ScalarOp .sra (fun _ a b => a.sshiftRight (Spec.amount b)) ∧
  Spec.ScalarOp .rol (fun _ a b => a.rotateLeft (Spec.amount b)) ∧
  Spec.ScalarOp .ror (fun _ a b => a.rotateRight (Spec.amount b))

/-- R105: SLT and SLTN write 1 when a < b, MIN, MAX, MINN and MAXN the smaller or larger value, signed or natural. -/
def Spec.ScalarComparisons : Prop :=
  Spec.ScalarOp .slt (fun w a b => if a.toInt < b.toInt then 1#w else 0#w) ∧
  Spec.ScalarOp .sltn (fun w a b => if a.toNat < b.toNat then 1#w else 0#w) ∧
  Spec.ScalarOp .min (fun _ a b => if a.toInt ≤ b.toInt then a else b) ∧
  Spec.ScalarOp .max (fun _ a b => if a.toInt ≤ b.toInt then b else a) ∧
  Spec.ScalarOp .minn (fun _ a b => if a.toNat ≤ b.toNat then a else b) ∧
  Spec.ScalarOp .maxn (fun _ a b => if a.toNat ≤ b.toNat then b else a)

/-- R34, R105: DIV and DIVN write the quotient truncated towards zero and REM and REMN what is left; a divisor of zero gives
all ones and a, and the signed quotient of the most negative value by −1 is that value. -/
def Spec.ScalarDivision : Prop :=
  Spec.ScalarOp .div (fun w a b => if b = 0#w then BitVec.allOnes w else BitVec.ofInt w (a.toInt.tdiv b.toInt)) ∧
  Spec.ScalarOp .divn (fun w a b => if b = 0#w then BitVec.allOnes w else BitVec.ofNat w (a.toNat / b.toNat)) ∧
  Spec.ScalarOp .rem (fun w a b => if b = 0#w then a else BitVec.ofInt w (a.toInt - a.toInt.tdiv b.toInt * b.toInt)) ∧
  Spec.ScalarOp .remn (fun w a b => if b = 0#w then a else BitVec.ofNat w (a.toNat % b.toNat))

/-- R49, R105: CLZ and CTZ count zeros from the top and from the bottom, w for zero; POPC counts ones; SEXTB, SEXTH and SEXTW
sign-extend the low 8, 16 or 32 bits. -/
def Spec.ScalarUnary : Prop :=
  Spec.ScalarOp1 .clz (fun w a => BitVec.ofNat w ((List.range w).countP (fun k => a.toNat < 2 ^ (w - 1 - k)))) ∧
  Spec.ScalarOp1 .ctz (fun w a => BitVec.ofNat w ((List.range w).countP (fun k => a.toNat % 2 ^ (k + 1) = 0))) ∧
  Spec.ScalarOp1 .popc (fun w a => BitVec.ofNat w ((List.range w).countP (fun k => a.getLsbD k))) ∧
  Spec.ScalarOp1 .sextb (fun w a => (a.setWidth 8).signExtend w) ∧
  Spec.ScalarOp1 .sexth (fun w a => (a.setWidth 16).signExtend w) ∧
  Spec.ScalarOp1 .sextw (fun w a => (a.setWidth 32).signExtend w)

/-- R105: a word of CLZ, CTZ, POPC, SEXTB, SEXTH or SEXTW (fn11 24 to 29 of R91) with a b field that is not 0 is no instruction. -/
def Spec.UnaryFieldZero : Prop :=
  ∀ (d a b : Reg) (fn : BitVec 11), 24 ≤ fn.toNat → fn.toNat ≤ 29 → b ≠ 0 → ∃ r, decode (0b000100#6 ++ d ++ a ++ b ++ fn) = .error r

/-- What every scalar integer instruction writes, at 64 and at 32 bits (R34, R49, R105). -/
def Obligations.ScalarIntegers : Prop :=
  Spec.ScalarArithmetic ∧ Spec.ScalarShifts ∧ Spec.ScalarComparisons ∧ Spec.ScalarDivision ∧ Spec.ScalarUnary ∧ Spec.UnaryFieldZero

/-- R106: ADDI and SLTI with the sign-extended immediate, ANDI, ORI and XORI with the zero-extended one, and LIH, which shifts a
up by 16 bits and puts the immediate below. -/
def Spec.ScalarImmediates : Prop :=
  ∀ imm : BitVec 16,
    Spec.ScalarOp1 (fun d a => .addi d a imm) (fun w a => a + imm.signExtend w) ∧
    Spec.ScalarOp1 (fun d a => .andi d a imm) (fun w a => a &&& imm.setWidth w) ∧
    Spec.ScalarOp1 (fun d a => .ori d a imm) (fun w a => a ||| imm.setWidth w) ∧
    Spec.ScalarOp1 (fun d a => .xori d a imm) (fun w a => a ^^^ imm.setWidth w) ∧
    Spec.ScalarOp1 (fun d a => .slti d a imm) (fun w a => if a.toInt < (imm.signExtend w).toInt then 1#w else 0#w) ∧
    Spec.ScalarOp1 (fun d a => .lih d a imm) (fun w a => (a <<< 16) ||| imm.setWidth w)

/-- An immediate shift completes with its rule's value in d; in lane mode bit 5 of its amount raises the lane-mode error (R106,
cause 0x11 of R31). -/
def Spec.ShiftOp (con : Reg → Reg → BitVec 6 → Instr) (f : (w : Nat) → BitVec w → Nat → BitVec w) : Prop :=
  ∀ (d a : Reg) (n : BitVec 6) (s : State), Plain s →
    (s.cur.lane = none →
      exec (con d a n) s = .next ({ s.start with cur := s.cur.wx d (f 64 (s.cur.rx a) n.toNat) } : State).completed) ∧
    (∀ l, s.cur.lane = some l →
      exec (con d a n) s = .next (if n.getLsbD 5
        then s.start.trapWord (encode (con d a n)) { cause := 0x11, tval := 0 } s.start
        else ({ s.start with cur := s.cur.we l.thread.index d (f 32 (s.cur.re l.thread.index a) n.toNat) } : State).completed))

/-- R106: SHLI, SHRI and SRAI shift by the immediate; in lane mode bit 5 of the amount raises the lane-mode error. -/
def Spec.ScalarShiftImmediates : Prop :=
  Spec.ShiftOp .shli (fun _ a n => a <<< n) ∧ Spec.ShiftOp .shri (fun _ a n => a >>> n) ∧
  Spec.ShiftOp .srai (fun _ a n => a.sshiftRight n)

/-- What the immediate forms write (R106). -/
def Obligations.ScalarImmediateForms : Prop := Spec.ScalarImmediates ∧ Spec.ScalarShiftImmediates

/-! ## Scalar FP32 instructions (R107, R108) -/

/-- What delivering a scalar FP32 result does (R107): the flags are set in vxflags; one whose trap enable is set raises the FP trap
with the destination unwritten, else the value is written and the instruction completes. -/
def Spec.fpDelivers (w : BitVec 32) (d : Reg) (s : State) (r : Nat × Nat) : State :=
  if r.2 &&& s.cur.enabled = 0 then ({ s.start with cur := (s.cur.raise r.2).writeX d r.1 } : State).completed
  else s.start.trapWord w { cause := 0xF, tval := 0 } { s.start with cur := s.cur.raise r.2 }

/-- A rounding instruction of two sources: its effective mode is the prefix override, else its own field, else vrm (R4, R107). -/
def Spec.FpOp (con : Reg → Reg → Reg → BitVec 3 → Instr) (f : (mode a b d : Nat) → Nat × Nat) : Prop :=
  ∀ (d a b : Reg) (rm : BitVec 3) (s : State), Executes s → pfxFits s.cur.pfx { rm := true } = true →
    exec (con d a b rm) s = .next (Spec.fpDelivers (encode (con d a b rm)) d s
      (f (s.cur.fpMode rm) (s.cur.readF32 a) (s.cur.readF32 b) (s.cur.readF32 d)))

/-- An instruction of two sources that does not round and takes no override. -/
def Spec.FpOpExact (con : Reg → Reg → Reg → Instr) (f : (a b : Nat) → Nat × Nat) : Prop :=
  ∀ (d a b : Reg) (s : State), Plain s →
    exec (con d a b) s = .next (Spec.fpDelivers (encode (con d a b)) d s (f (s.cur.readF32 a) (s.cur.readF32 b)))

/-- R107, R40: FADD, FSUB, FMUL, FDIV, FSQRT and FMADD deliver the correctly rounded sum, difference, product, quotient, square
root and fused a · b + d of their FP32 operands. -/
def Spec.ScalarFloat : Prop :=
  Spec.FpOp .fadd (fun m a b _ => faddF fp32 m a b) ∧ Spec.FpOp .fsub (fun m a b _ => fsubF fp32 m a b) ∧
  Spec.FpOp .fmul (fun m a b _ => fmulF fp32 m a b) ∧ Spec.FpOp .fdiv (fun m a b _ => fdivF fp32 m a b) ∧
  Spec.FpOp .fmadd (fun m a b d => fmaF fp32 m a b d) ∧
  (∀ (d a : Reg) (rm : BitVec 3) (s : State), Executes s → pfxFits s.cur.pfx { rm := true } = true →
    exec (.fsqrt d a rm) s = .next (Spec.fpDelivers (encode (.fsqrt d a rm)) d s
      (fsqrtF fp32 (s.cur.fpMode rm) (s.cur.readF32 a))))

/-- R107: FEQ, FLT and FLE write 1 when the relation of the two numbers holds and 0 otherwise, a NaN giving 0; FEQ raises NV only for
a signalling NaN, FLT and FLE for any; FMIN and FMAX deliver R48's minimumNumber and maximumNumber; FCLASS writes the class bit. -/
def Spec.ScalarFloatCompare : Prop :=
  Spec.FpOpExact .feq (fun a b =>
    let x := readF fp32 a; let y := readF fp32 b
    if x.isNan || y.isNan then (0, if x.isSig || y.isSig then flagNV else 0) else (if feqRel x y then 1 else 0, 0)) ∧
  Spec.FpOpExact .flt (fun a b =>
    let x := readF fp32 a; let y := readF fp32 b
    if x.isNan || y.isNan then (0, flagNV) else (if fltRel x y then 1 else 0, 0)) ∧
  Spec.FpOpExact .fle (fun a b =>
    let x := readF fp32 a; let y := readF fp32 b
    if x.isNan || y.isNan then (0, flagNV) else (if fleRel x y then 1 else 0, 0)) ∧
  Spec.FpOpExact .fmin (minMaxNum fp32 false) ∧ Spec.FpOpExact .fmax (minMaxNum fp32 true) ∧
  (∀ (d a : Reg) (s : State), Plain s →
    exec (.fclass d a) s = .next ({ s.start with cur := s.cur.writeX d (classF fp32 (s.cur.readF32 a)) } : State).completed)

/-- R108: FCVT of kinds 0 to 3 rounds an FP32 number to a 32- or 64-bit integer, signed or natural, and writes it sign- or
zero-extended to 64 bits; kinds 4 to 7 round an integer to FP32; in lane mode the odd kinds raise the lane-mode error. -/
def Spec.ScalarConvert : Prop :=
  ∀ (d a : Reg) (kind rm : BitVec 3) (s : State), Executes s → pfxFits s.cur.pfx { rm := true } = true →
    (s.cur.lane.isSome = true ∧ kind.getLsbD 0 = true →
      exec (.fcvt d a kind rm) s = .next (s.start.trapWord (encode (.fcvt d a kind rm)) { cause := 0x11, tval := 0 } s.start)) ∧
    (¬ (s.cur.lane.isSome = true ∧ kind.getLsbD 0 = true) → exec (.fcvt d a kind rm) s =
      .next (Spec.fpDelivers (encode (.fcvt d a kind rm)) d s
        (let w := if kind.getLsbD 0 then 64 else 32
         let mode := s.cur.fpMode rm
         if kind.getLsbD 2 then deliver fp32 mode (ofIntBits w (kind.getLsbD 1) (s.cur.readX a % 2 ^ w), 0)
         else
           let r := toIntEx mode w (kind.getLsbD 1) (readF fp32 (s.cur.readF32 a))
           (if kind.getLsbD 1 then r.1 else wrapN (sintN w r.1) 64, r.2))))

/-- What the scalar FP32 instructions deliver, with their flags and the FP trap (R40, R107, R108). -/
def Obligations.ScalarFloats : Prop := Spec.ScalarFloat ∧ Spec.ScalarFloatCompare ∧ Spec.ScalarConvert

/-! ## Scalar loads, stores and atomics (R109 to R111) -/

/-- A load that reads: its address is a multiple of its width and the access delivers x with nothing to wait for and no watchpoint
matched; the value, extended, is written to d. -/
def Spec.LoadOp (con : Reg → Reg → BitVec 16 → Instr) (n : Nat) (ext : (w x : Nat) → Nat) : Prop :=
  ∀ (d a : Reg) (imm : BitVec 16) (s t : State) (x : Nat), Plain s → (n = 8 → s.cur.lane = none) →
    (s.cur.scalarAddr a imm).toNat % n = 0 →
    s.start.loadN s.cur.scalarStream (s.cur.scalarAddr a imm) n = (.ok x, t) → t.blocked = none →
    t.watched t.cur.sctx .read (s.cur.scalarAddr a imm) n = none →
    exec (con d a imm) s = .next ({ t with cur := t.cur.writeX d (ext t.cur.sw x) } : State).completed

/-- R109: LDB, LDH and LDW sign-extend the bytes read, LDBN, LDHN and LDWN zero-extend them, LDD reads a doubleword. -/
def Spec.ScalarLoads : Prop :=
  Spec.LoadOp .ldb 1 (fun w x => wrapN (sintN 8 x) w) ∧ Spec.LoadOp .ldh 2 (fun w x => wrapN (sintN 16 x) w) ∧
  Spec.LoadOp .ldw 4 (fun w x => wrapN (sintN 32 x) w) ∧ Spec.LoadOp .ldd 8 (fun _ x => x) ∧
  Spec.LoadOp .ldbn 1 (fun _ x => x) ∧ Spec.LoadOp .ldhn 2 (fun _ x => x) ∧ Spec.LoadOp .ldwn 4 (fun _ x => x)

/-- A store whose address is a multiple of its width and reaches a home queues the low bytes of the data register in its stream,
lowest address first. -/
def Spec.StoreOp (con : Reg → Reg → BitVec 16 → Instr) (n : Nat) : Prop :=
  ∀ (d a : Reg) (imm : BitVec 16) (s t : State) (key : Nat), Plain s → (n = 8 → s.cur.lane = none) →
    (s.cur.scalarAddr a imm).toNat % n = 0 →
    s.start.reach (s.cur.scalarAddr a imm) n .write .plain = (.ok key, t) → t.blocked = none →
    t.ownMatch t.cur.sctx .write (s.cur.scalarAddr a imm) n = none →
    exec (con d a imm) s =
      .next (t.queueStore t.cur.scalarStream (.write (plainBytes key (leBytes n (t.cur.readX d))))).completed

/-- R109: STB, STH, STW and STD store the low 1, 2, 4 and 8 bytes of the data register. -/
def Spec.ScalarStores : Prop :=
  Spec.StoreOp .stb 1 ∧ Spec.StoreOp .sth 2 ∧ Spec.StoreOp .stw 4 ∧ Spec.StoreOp .std 8

/-- A load or store whose check fails traps with tval its address, in the order of R109: misaligned (0x04), not canonical or in the
reserved range (0x06), then what the translation answers. -/
def Spec.AccessTraps (con : Reg → Reg → BitVec 16 → Instr) (n : Nat) (kind : AKind) : Prop :=
  ∀ (d a : Reg) (imm : BitVec 16) (s : State), Plain s → (n = 8 → s.cur.lane = none) →
    let A := s.cur.scalarAddr a imm
    (A.toNat % n ≠ 0 →
      exec (con d a imm) s = .next (s.start.trapWord (encode (con d a imm)) { cause := 4, tval := A } s.start)) ∧
    (A.toNat % n = 0 → (canonical A = false ∨ (inLocal A = false ∧ inReserved A = true)) →
      exec (con d a imm) s = .next (s.start.trapWord (encode (con d a imm)) { cause := 6, tval := A } s.start)) ∧
    (∀ (c : Nat) (t : State), A.toNat % n = 0 → s.start.reach A n kind .plain = (.bad c, t) → t.blocked = none →
      exec (con d a imm) s = .next (s.start.trapWord (encode (con d a imm)) { cause := c, tval := A } t))

/-- R109: the checks of a scalar load's or store's address, in their order, and their traps. -/
def Spec.ScalarAccessTraps : Prop :=
  Spec.AccessTraps .ldb 1 .read ∧ Spec.AccessTraps .ldh 2 .read ∧ Spec.AccessTraps .ldw 4 .read ∧ Spec.AccessTraps .ldd 8 .read ∧
  Spec.AccessTraps .ldbn 1 .read ∧ Spec.AccessTraps .ldhn 2 .read ∧ Spec.AccessTraps .ldwn 4 .read ∧
  Spec.AccessTraps .stb 1 .write ∧ Spec.AccessTraps .sth 2 .write ∧ Spec.AccessTraps .stw 4 .write ∧ Spec.AccessTraps .std 8 .write

/-- Scalar loads and stores and their traps (R109). -/
def Obligations.ScalarMemory : Prop := Spec.ScalarLoads ∧ Spec.ScalarStores ∧ Spec.ScalarAccessTraps

/-- Address and bytes of an AMO: 8 bytes at b, 4 for AMOFADD; in lane mode 4 bytes at lbase + b (R110). -/
def Spec.amoAddr (s : State) (a : Reg) : Word := match s.cur.lane with
  | some _ => s.cur.lbase + BitVec.ofNat 64 (s.cur.readX a)
  | none => s.cur.rx a
def Spec.amoBytes (s : State) (n : Nat) : Nat := match s.cur.lane with
  | some _ => 4
  | none => n

/-- An AMO that is performed (R110, R111, R221): after the accesses it must follow have passed the ordering point of its scope, with the lines
of host memory taken exclusive at SYS scope and above, it reads `old` at its home, writes what `f` gives of old,
s and the value d held, and returns old to d, in one step. -/
def Spec.AmoOp (con : Reg → Reg → Reg → Bool → Bool → BitVec 3 → Instr) (n : Nat)
    (f : (w : Nat) → BitVec w → BitVec w → BitVec w → Option (BitVec w)) : Prop :=
  ∀ (d a b : Reg) (acq rel : Bool) (scope : BitVec 3) (s t : State) (key : Nat), Plain s →
    let m := Spec.amoBytes s n
    let A := Spec.amoAddr s a
    A.toNat % m = 0 → s.start.reach A m .write .amo = (.ok key, t) →
    let after := amoAfter t.cur.scalarStream rel
    let u := (if 4 ≤ scope.toNat then t.takeLines (key :: t.queuedKeys after) else t).drainTo (if rel then min scope.toNat 4 else 0) after
    (rel = true → u.ownCommand bankEngine = false) → u.poisonIn key m = false → u.blocked = none →
    u.watched u.cur.sctx .atomic A m = none →
    let old := leNat (Memory.getList u.mem key m)
    exec (con d a b acq rel scope) s = .next ({ u with
      mem := (match f (8 * m) (BitVec.ofNat (8 * m) old) (BitVec.ofNat (8 * m) (u.cur.readX b)) (BitVec.ofNat (8 * m) (u.cur.readX d)) with
        | some x => Memory.setList u.mem key (leBytes m x.toNat)
        | none => u.mem)
      cur := u.cur.writeX d old } : State).completed

/-- R110: what each AMO leaves in memory. -/
def Spec.ScalarAtomics : Prop :=
  Spec.AmoOp .amoadd 8 (fun _ old x _ => some (old + x)) ∧ Spec.AmoOp .amoand 8 (fun _ old x _ => some (old &&& x)) ∧
  Spec.AmoOp .amoor 8 (fun _ old x _ => some (old ||| x)) ∧ Spec.AmoOp .amoxor 8 (fun _ old x _ => some (old ^^^ x)) ∧
  Spec.AmoOp .amomin 8 (fun _ old x _ => some (if x.toInt < old.toInt then x else old)) ∧
  Spec.AmoOp .amomax 8 (fun _ old x _ => some (if old.toInt < x.toInt then x else old)) ∧
  Spec.AmoOp .amominn 8 (fun _ old x _ => some (if x.toNat < old.toNat then x else old)) ∧
  Spec.AmoOp .amomaxn 8 (fun _ old x _ => some (if old.toNat < x.toNat then x else old)) ∧
  Spec.AmoOp .amoswap 8 (fun _ _ x _ => some x) ∧
  Spec.AmoOp .amocas 8 (fun _ old x d => if old = d then some x else none) ∧
  Spec.AmoOp .amofadd 4 (fun w old x _ => some (BitVec.ofNat w (faddF fp32 0 old.toNat x.toNat).1))

/-- R110: an AMO to an address that is no multiple of its width raises the misaligned trap, and one whose location cannot be reached for an atomic
access the trap of that check, with tval the address and nothing written. -/
def Spec.AtomicTraps : Prop :=
  ∀ (d a b : Reg) (acq rel : Bool) (scope : BitVec 3) (s : State), Plain s →
    ∀ p ∈ [(Instr.amoadd d a b acq rel scope, 8), (.amoand d a b acq rel scope, 8), (.amoor d a b acq rel scope, 8),
           (.amoxor d a b acq rel scope, 8), (.amomin d a b acq rel scope, 8), (.amomax d a b acq rel scope, 8),
           (.amominn d a b acq rel scope, 8), (.amomaxn d a b acq rel scope, 8), (.amoswap d a b acq rel scope, 8),
           (.amocas d a b acq rel scope, 8), (.amofadd d a b acq rel scope, 4)],
      let m := Spec.amoBytes s p.2
      let A := Spec.amoAddr s a
      (A.toNat % m ≠ 0 → exec p.1 s = .next (s.start.trapWord (encode p.1) { cause := 4, tval := A } s.start)) ∧
      (∀ c t, A.toNat % m = 0 → s.start.reach A m .write .amo = (.bad c, t) → t.blocked = none →
        exec p.1 s = .next (s.start.trapWord (encode p.1) { cause := c, tval := A } t))

/-- What every AMO leaves in memory and in its register, and its traps (R110). -/
def Obligations.AtomicOperations : Prop := Spec.ScalarAtomics ∧ Spec.AtomicTraps

/-! ## Branches, jumps and the loop (R112 to R115) -/

/-- A branch compares two registers at the scalar width; taken, it continues at address + 4 · offset (R86, R112). -/
def Spec.BranchOp (con : Reg → Reg → BitVec 16 → Instr) (p : (w : Nat) → BitVec w → BitVec w → Bool) : Prop :=
  ∀ (a b : Reg) (off : BitVec 16) (s : State), Plain s →
    (s.cur.lane = none → exec (con a b off) s = .next (if p 64 (s.cur.rx a) (s.cur.rx b)
      then s.start.jumped (s.cur.pc + 4 * off.signExtend 64) else s.start.completed)) ∧
    (∀ l, s.cur.lane = some l → exec (con a b off) s =
      .next (if p 32 (s.cur.re l.thread.index a) (s.cur.re l.thread.index b)
        then s.start.jumped (l.thread.pc + 4 * off.signExtend 64) else s.start.completed))

/-- R112: when each branch is taken and where it goes. -/
def Spec.Branches : Prop :=
  Spec.BranchOp .beq (fun _ a b => a == b) ∧ Spec.BranchOp .bne (fun _ a b => a != b) ∧
  Spec.BranchOp .blt (fun _ a b => decide (a.toInt < b.toInt)) ∧ Spec.BranchOp .bge (fun _ a b => decide (b.toInt ≤ a.toInt)) ∧
  Spec.BranchOp .bltn (fun _ a b => decide (a.toNat < b.toNat)) ∧ Spec.BranchOp .bgen (fun _ a b => decide (b.toNat ≤ a.toNat))

/-- R112: JAL writes the address of the next word to x1 and continues at its target; JALR takes its target from the register's old
value, then writes d; a target that is no multiple of 4 raises the misaligned trap with d unwritten. -/
def Spec.Jumps : Prop :=
  (∀ (off : BitVec 26) (s : State), PlainHart s → exec (.jal off) s =
    .next (({ s.start with cur := s.cur.wx 1#5 (s.cur.pc + 4) } : State).jumped (s.cur.pc + 4 * off.signExtend 64))) ∧
  (∀ (d a : Reg) (imm : BitVec 16) (s : State), PlainHart s →
    let T := s.cur.rx a + imm.signExtend 64
    exec (.jalr d a imm) s = .next (if T.toNat % 4 = 0
      then ({ s.start with cur := s.cur.wx d (s.cur.pc + 4) } : State).jumped T
      else s.start.trapWord (encode (.jalr d a imm)) { cause := 4, tval := T } s.start))

/-- R114: LOOP arms a loop over the addresses up to address + 4 · offset with the count of its register and continues at its body; a
count of 0 continues after the body with no loop armed; with a loop armed it raises the loop-nesting trap (0x13). -/
def Spec.LoopInstruction : Prop :=
  ∀ (a : Reg) (off : BitVec 16) (s : State), PlainHart s → s.cur.pc.toNat % 4 = 0 →
    exec (.loop a off) s = .next (
      if s.cur.lend.getLsbD 0 then s.start.trapWord (encode (.loop a off)) { cause := 0x13, tval := s.cur.pc } s.start
      else
        let last := s.cur.pc + 4 * off.signExtend 64
        let n := s.cur.rx a
        { s.start with cur := { s.cur.retire with
            lbeg := s.cur.pc + 4, lend := if n = 0 then last else last ||| 1, lc := n,
            pc := if n = 0 then last + 4 else s.cur.pc + 4 } })

/-- R115: where control goes when an instruction completes in sequence: at the last address of an armed loop, outside a handler, back to
its first with the count one less, or past it with the loop disarmed when the count is at most 1; everywhere else to the next word. -/
def Spec.EndStep : Prop :=
  ∀ h : Hart, h.lane = none → h.ahead = none →
    (h.handler = none ∧ h.lend.getLsbD 0 = true ∧ h.pc = h.lend &&& ~~~3 →
      (h.lc.toNat ≤ 1 → h.advance.pc = h.pc + 4 ∧ h.advance.lc = 0 ∧ h.advance.lend = h.lend &&& ~~~1) ∧
      (1 < h.lc.toNat → h.advance.pc = h.lbeg ∧ h.advance.lc = h.lc - 1 ∧ h.advance.lend = h.lend)) ∧
    (¬ (h.handler = none ∧ h.lend.getLsbD 0 = true ∧ h.pc = h.lend &&& ~~~3) →
      h.advance.pc = h.pc + 4 ∧ h.advance.lc = h.lc ∧ h.advance.lend = h.lend) ∧
    h.advance.x = h.x ∧ h.advance.v = h.v ∧ h.advance.lbeg = h.lbeg ∧ h.advance.pfxs = 0

/-- R115: a taken branch or jump keeps the count, and disarms the loop exactly when it stands inside an armed body, outside a handler,
and its target lies outside. -/
def Spec.BranchesAndLoops : Prop :=
  ∀ (h : Hart) (T : Word), h.lane = none →
    let inside (a : Word) : Prop := h.lbeg.toNat ≤ a.toNat ∧ a.toNat ≤ (h.lend &&& ~~~3).toNat
    (h.jump T).pc = T ∧ (h.jump T).lc = h.lc ∧ (h.jump T).lbeg = h.lbeg ∧
    (h.handler = none ∧ h.lend.getLsbD 0 = true ∧ inside h.pc ∧ ¬ inside T → (h.jump T).lend = h.lend &&& ~~~1) ∧
    (¬ (h.handler = none ∧ h.lend.getLsbD 0 = true ∧ inside h.pc ∧ ¬ inside T) → (h.jump T).lend = h.lend)

/-- Branches, jumps and the hardware loop (R112, R114, R115). -/
def Obligations.ControlFlow : Prop := Spec.Branches ∧ Spec.Jumps ∧ Spec.LoopInstruction ∧ Spec.EndStep ∧ Spec.BranchesAndLoops

/-! ## Status registers (R20 to R25, R123) -/

/-- The status registers of R20, by number. -/
def Spec.csrs : List (Nat × (Hart → Word)) :=
  [(0x000, Hart.vl), (0x001, Hart.vr), (0x002, Hart.vtype), (0x003, Hart.vlmax), (0x004, Hart.vstart), (0x005, Hart.vrm),
   (0x006, Hart.vxflags), (0x007, Hart.vxsel), (0x008, Hart.sord), (0x009, Hart.sva), (0x00A, Hart.lc), (0x00B, Hart.lbeg),
   (0x00C, Hart.lend), (0x00D, Hart.pfxs), (0x00E, Hart.dirty), (0x00F, Hart.lmap), (0x010, Hart.coord), (0x011, Hart.stage),
   (0x012, Hart.rstat), (0x013, Hart.discf), (0x014, Hart.tvec), (0x015, Hart.tcause), (0x016, Hart.tval), (0x017, Hart.tpc),
   (0x018, Hart.tqpos), (0x019, Hart.tsave), (0x01A, Hart.vpad), (0x01B, Hart.lbase)] ++
  [(0x020, Hart.lcuse), (0x021, Hart.lcmask), (0x022, Hart.lcbvl), (0x023, Hart.lcdead), (0x024, Hart.lcstall), (0x025, Hart.lccyc)]

/-- The numbers of R20 with RW access. -/
def Spec.rwCsrs : List Nat := [0x004, 0x005, 0x006, 0x007, 0x00A, 0x00B, 0x00C, 0x014, 0x019, 0x01B]

/-- The values an RW register takes: a reserved bit stays 0, vrm holds a code 0 to 4 and vstart is below vlmax (R23 to R25, R113,
R123). -/
def Spec.csrTakes (h : Hart) (n : Nat) (x : Word) : Prop :=
  (n = 0x004 → x.toNat < h.vlmax.toNat ∧ x.toNat < 2 ^ 13) ∧ (n = 0x005 → x.toNat ≤ 4) ∧
  (n = 0x006 → x &&& ~~~0x7F#64 = 0) ∧ (n = 0x007 → x &&& ~~~0x7F007F#64 = 0) ∧
  (n = 0x00B ∨ n = 0x014 → x.toNat % 4 = 0) ∧ (n = 0x00C → x.getLsbD 1 = false)

/-- The hart with one RW register of R20 replaced: that register reads the value, every other one and every x register as before. -/
def Spec.CsrSet (h t : Hart) (n : Nat) (x : Word) : Prop :=
  (∀ p ∈ Spec.csrs, p.2 t = if p.1 = n then x else p.2 h) ∧ t.x = h.x ∧ t.v = h.v

/-- R123: CSRR writes the register's value to xd; a lane-cycle register is journalled, and reads as R20 lists it while no recorder is
attached. -/
def Spec.CsrRead : Prop :=
  ∀ (d : Reg) (csr : BitVec 12) (s : State), PlainHart s → (0x020 ≤ csr.toNat → s.recorder s.cur.launch = none) →
    ∀ p ∈ Spec.csrs, p.1 = csr.toNat →
      exec (.csrr d csr) s = .next ({ s.start with cur := s.cur.wx d (p.2 s.cur) } : State).completed

/-- R123: CSRW of an RW register writes a, CSRS old OR a, CSRC old AND NOT a, when the register takes the value; CSRW of discf clears
the bits that are 1 in a. -/
def Spec.CsrWrite : Prop :=
  ∀ (a : Reg) (csr : BitVec 12) (s : State), PlainHart s →
    (∀ p ∈ Spec.csrs, p.1 = csr.toNat → p.1 ∈ Spec.rwCsrs →
      (Spec.csrTakes s.cur p.1 (s.cur.rx a) → ∃ h, Spec.CsrSet s.cur h p.1 (s.cur.rx a) ∧
        exec (.csrw a csr) s = .next ({ s.start with cur := h } : State).completed) ∧
      (Spec.csrTakes s.cur p.1 (p.2 s.cur ||| s.cur.rx a) → ∃ h, Spec.CsrSet s.cur h p.1 (p.2 s.cur ||| s.cur.rx a) ∧
        exec (.csrs a csr) s = .next ({ s.start with cur := h } : State).completed) ∧
      (Spec.csrTakes s.cur p.1 (p.2 s.cur &&& ~~~s.cur.rx a) → ∃ h, Spec.CsrSet s.cur h p.1 (p.2 s.cur &&& ~~~s.cur.rx a) ∧
        exec (.csrc a csr) s = .next ({ s.start with cur := h } : State).completed)) ∧
    (csr.toNat = 0x013 → exec (.csrw a csr) s =
      .next ({ s.start with cur := { s.cur with discf := s.cur.discf &&& ~~~s.cur.rx a } } : State).completed)

/-- R3, R21, R23, R25, R123: a number from 0x800 up raises the privileged trap with tval the number; a number R20 does not list, a write
of a register that is not RW or a value the register does not take raises the illegal-instruction trap, and nothing is written; CSRS and CSRC
of a value that is not 0 take the check with the value they would write. -/
def Spec.CsrTraps : Prop :=
  ∀ (r : Reg) (csr : BitVec 12) (s : State), PlainHart s →
    let listed := csr.toNat ∈ Spec.csrs.map (fun p => p.1)
    let illegal (i : Instr) : Prop := exec i s = .next (s.start.trapWord (encode i) { cause := 1, tval := 0 } s.start)
    (0x800 ≤ csr.toNat → ∀ i ∈ [Instr.csrr r csr, Instr.csrw r csr, Instr.csrs r csr, Instr.csrc r csr],
      exec i s = .next (s.start.trapWord (encode i) { cause := 0x10, tval := csr.setWidth 64 } s.start)) ∧
    (csr.toNat < 0x800 → ¬ listed →
      illegal (.csrr r csr) ∧ illegal (.csrw r csr) ∧ illegal (.csrs r csr) ∧ illegal (.csrc r csr)) ∧
    (listed → csr.toNat ∉ Spec.rwCsrs → illegal (.csrs r csr) ∧ illegal (.csrc r csr) ∧
      (csr.toNat ≠ 0x013 → illegal (.csrw r csr))) ∧
    (csr.toNat ∈ Spec.rwCsrs → ¬ Spec.csrTakes s.cur csr.toNat (s.cur.rx r) → illegal (.csrw r csr)) ∧
    (∀ p ∈ Spec.csrs, p.1 = csr.toNat → p.1 ∈ Spec.rwCsrs → s.cur.rx r ≠ 0 →
      (¬ Spec.csrTakes s.cur p.1 (p.2 s.cur ||| s.cur.rx r) → illegal (.csrs r csr)) ∧
      (¬ Spec.csrTakes s.cur p.1 (p.2 s.cur &&& ~~~s.cur.rx r) → illegal (.csrc r csr)))

/-- Reads and writes of every status register, and their traps (R3, R21, R23, R25, R123). -/
def Obligations.StatusRegisters : Prop := Spec.CsrRead ∧ Spec.CsrWrite ∧ Spec.CsrTraps

/-! ## Traps (R31, R32, R126, R127) -/

/-- What a trap that a tvec handler takes leaves in the hart (R31, R127). -/
def Spec.EntersHandler (h t : Hart) (cause : Nat) (tval : Word) : Prop :=
  t.tcause = BitVec.ofNat 64 cause ∧ t.tval = tval ∧ t.tpc = h.pc ∧ t.pc = h.tvec ∧ t.status = .running ∧ t.regions = [] ∧
  t.reissue = none ∧ t.handler.isSome = true ∧ t.x = h.x ∧ t.v = h.v ∧ t.vstart = h.vstart ∧ t.tsave = h.tsave ∧
  t.viq = [] ∧ t.ahead = none ∧
  ∀ k, t.handler = some k → k.regions = h.regions ∧ k.pfxs = h.pfxs ∧ k.lane = h.lane ∧ k.viq = h.viq ∧ k.ahead = h.ahead

/-- What a trap that goes to the device supervisor leaves in the hart (R31). -/
def Spec.GoesToSupervisor (h t : Hart) (cause : Nat) (tval : Word) : Prop :=
  t.tcause = BitVec.ofNat 64 cause ∧ t.tval = tval ∧ t.tpc = h.pc ∧ t.pc = h.pc ∧ t.status = .stopped ∧
  t.handler = h.handler ∧ t.regions = h.regions ∧ t.x = h.x ∧ t.v = h.v ∧ t.tvec = h.tvec

/-- R31, R126: TRAP raises cause 0x0E with tval its immediate: the hart continues at tvec when tvec is not zero and it is in no handler
already, and else stops and leaves the trap to the device supervisor; the rest of the module is as it was. -/
def Spec.TrapInstruction : Prop :=
  ∀ (imm : BitVec 12) (s : State), PlainHart s → ∃ h, exec (.trap imm) s = .next { s.start with cur := h } ∧
    (s.cur.tvec ≠ 0 ∧ s.cur.handler = none → Spec.EntersHandler s.cur h 0x0E (imm.setWidth 64)) ∧
    (¬ (s.cur.tvec ≠ 0 ∧ s.cur.handler = none) → Spec.GoesToSupervisor s.cur h 0x0E (imm.setWidth 64))

/-- R31, R126: BRK raises cause 0x0D with tval its immediate and goes to the device supervisor, whatever tvec holds; the hart resumes
at tpc + 4. -/
def Spec.BreakInstruction : Prop :=
  ∀ (imm : BitVec 12) (s : State), PlainHart s → s.blockOf s.cur.sctx = none →
    ∃ h, exec (.brk imm) s = .next { s.start with cur := h } ∧ Spec.GoesToSupervisor s.cur h 0x0D (imm.setWidth 64) ∧
      h.sresume = s.cur.pc + 4

/-- R127: ERET leaves the handler: the set-aside regions, prefix and lane mode are back, the set-aside entries issue first, and the hart
continues after a TRAP, at a scalar instruction that trapped, or from its commit point; outside a handler ERET is illegal. -/
def Spec.HandlerReturn : Prop :=
  ∀ s : State, PlainHart s →
    (s.cur.handler = none → exec .eret s = .next (s.start.trapWord (encode .eret) { cause := 1, tval := 0 } s.start)) ∧
    (∀ k, s.cur.handler = some k → ∃ h, exec .eret s = .next { s.start with cur := h } ∧
      h.handler = none ∧ h.regions = k.regions ∧ h.pfxs = k.pfxs ∧ h.lane = k.lane ∧ h.reissue = k.entry ∧ h.viq = k.viq ∧ h.ahead = k.ahead ∧
      h.x = s.cur.x ∧ h.v = s.cur.v ∧ h.vstart = s.cur.vstart ∧ h.tsave = s.cur.tsave ∧ h.status = s.cur.status ∧
      (k.cause = 0x0E#8 → h.pc = s.cur.tpc + 4) ∧
      (k.cause ≠ 0x0E#8 → k.vec = false → k.lane = none → h.pc = s.cur.tpc) ∧
      (k.cause ≠ 0x0E#8 → k.vec = true → h.pc = k.commit))

/-- R88, R31: a word that is no instruction raises the illegal-instruction trap with the word in tval, before any other check, and goes
to the device supervisor. -/
def Spec.IllegalWord : Prop :=
  ∀ (w : BitVec 32) (s : State), s.unit = .hart → s.cur.lane = none →
    ∃ h, exec (.illegalInstruction w) s = .next { s with cur := h } ∧ Spec.GoesToSupervisor s.cur h 1 (w.setWidth 64)

/-- R32, R63, R130, R135: the EP takes the oldest entry of the VIQ: a configuration takes force, an instruction is executed under its own
address, prefix and captured scalar operands, and when it completes the AP stands where it stood; a vector instruction that is next while the
VIQ holds fewer than 32 entries goes behind them, and the AP passes on.  That an instruction of the system, stream and command majors waits until
the VIQ is empty is the model's choice (log 4).  Harts that have been asked to stop and only wait have stopped before the step. -/
def Spec.QueuedEntries : Prop :=
  (∀ (s0 s : State) (rest : List Turn) (pc : Word) (e : VEntry) (q : List ViqItem) (i : Instr), s0.parkIdle = s → s.schedule = .ep s.cur.place :: rest →
    s.cur.ready = true → s.cur.reissue = none → s.cur.late = none → s.cur.viq = .op pc e :: q → decode e.word = .ok i → dropMajor e.word = true →
    step s0 = exec i { s with schedule := rest, unit := .hart, cur := { s.cur with
      viq := q, ahead := some ⟨s.cur.pc, s.cur.pfxs⟩, pc := pc, pfxs := e.pfxs, reissue := some e, arrived := s.cur.arrivedEp, arrivedEp := none } }) ∧
  (∀ (s0 s : State) (rest : List Turn) (vl vr vpad vt vm : Word) (q : List ViqItem), s0.parkIdle = s → s.schedule = .ep s.cur.place :: rest →
    s.cur.ready = true → s.cur.reissue = none → s.cur.late = none → s.cur.viq = .config vl vr vpad vt vm :: q →
    step s0 = .next { s with schedule := rest, unit := .hart, cur := { s.cur with
      viq := q, vl := vl, vr := vr, vpad := vpad, vtype := vt, vlmax := vm, vstart := 0 } }) ∧
  (∀ (h : Hart) (a : ApPoint), h.lane = none → h.ahead = some a →
    h.advance.pc = a.pc ∧ h.advance.pfxs = a.pfxs ∧ h.advance.ahead = none ∧ h.advance.reissue = none ∧ h.advance.viq = h.viq ∧
    h.advance.lc = h.lc ∧ h.advance.lend = h.lend ∧ h.advance.x = h.x ∧ h.advance.v = h.v) ∧
  (∀ (h : Hart) (e : VEntry) (r : Reg), h.reissue = some e → h.ox r = if r = 0 then 0 else e.xs[r.toNat]) ∧
  (∀ (s0 s t : State) (rest : List Turn) (w : BitVec 32), s0.parkIdle = s → s.schedule = .issue s.cur.place :: rest → s.mayIssue s.cur = true →
    s.cur.reissue = none → s.cur.late = none → s.cur.lane = none → s.cur.viq ≠ [] →
    let u := ({ s with schedule := rest, unit := .hart } : State).passTurn
    u.breakpoint = none → u.cur.pending = none → u.start.fetch = (.ok w, t) → t.blocked = none →
    (s.cur.viq.length < 32 → (∃ i, decode w = .ok i) → (0x22 ≤ (wMajor w).toNat ∧ (wMajor w).toNat ≤ 0x31) → readQueueDest w = false →
      (∀ pc e, .op pc e ∈ s.cur.viq → isQpop e.word = false) → s.cur.barred w = false →
      step s0 = .next { t with cur := { t.cur.advance with viq := t.cur.viq ++ [.op t.cur.pc ⟨w, t.cur.x, t.cur.pfxs, none, none, none⟩] } }) ∧
    ((wMajor w).toNat = 0 ∨ (0x33 ≤ (wMajor w).toNat ∧ (wMajor w).toNat ≠ 0x36 ∧ (wMajor w).toNat ≠ 0x38 ∧ (wMajor w).toNat ≠ 0x3A) →
      step s0 = .next u))

/-- Taking a trap, and returning from its handler (R31, R32, R63, R88, R126, R127, R130, R135). -/
def Obligations.TrapsAndReturn : Prop := Spec.TrapInstruction ∧ Spec.BreakInstruction ∧ Spec.HandlerReturn ∧ Spec.IllegalWord ∧ Spec.QueuedEntries

/-! ## Fences, YIELD, HALT and the prefix (R122, R124, R125, R128) -/

/-- A fence performs the queued accesses of its streams, in the order they were issued (across streams the model's choice, log 16), and holds the hart while commands of its
engines are still to be performed. -/
def Spec.Fences (i : Instr) (streams : Stream → Bool) (engines : Engine → Bool) : Prop :=
  ∀ s : State, PlainHart s → (s.start.drain streams).blocked = none →
    ((s.start.drain streams).ownCommand engines = false → exec i s = .next (s.start.drain streams).completed) ∧
    ((s.start.drain streams).ownCommand engines = true → exec i s = .next (s.start.drain streams).waitCommands)

/-- The hart has a command of a near-memory unit that is not yet performed (R214). -/
def Spec.hasNmu (s : State) : Prop :=
  ∃ p ∈ s.nmus, (∃ r, p.2.run = some r ∧ r.cmd.owner = s.cur.place) ∨ ∃ c ∈ p.2.queue, c.owner = s.cur.place

/-- The hart has a command that FENCE and BAR wait for: of an engine, of the bank stream, or of a near-memory unit (R124, R219). -/
def Spec.hasCommands (s : State) : Prop := s.ownCommand (fun e => e != .nmuOut) = true ∨ Spec.hasNmu s

/-- R124, R219, R221: FENCE of a scope performs every queued access and waits for every command of the hart, and for its writes on their way that
have not passed the scope's ordering point; at SYS scope and above lines of host memory are taken exclusive. -/
def Spec.FullFence (scope : BitVec 3) : Prop :=
  ∀ s : State, PlainHart s →
    let all : Stream → Bool := fun _ => true
    let u := ((if 4 ≤ scope.toNat then s.start.takeLines (s.start.queuedKeys all) else s.start).drainTo (min scope.toNat 4) all).awaitNet
      (min scope.toNat 4) true all
    u.blocked = none →
    (∀ p ∈ u.net, p.owner = s.cur.place → min scope.toNat 4 ≤ p.level) ∧
    (¬ Spec.hasCommands u → exec (.fence scope) s = .next u.completed) ∧ (Spec.hasCommands u → exec (.fence scope) s = .next u.waitCommands)

/-- R124, R125: FENCE of a scope waits for every stream and every command, FENCE.SV for the scalar stream, FENCE.VS and FENCE.VV for the vector
streams, SBAR for the streams of its mask, and IFENCE makes every store the hart issued fetchable and drops the words read ahead. -/
def Spec.FenceInstructions : Prop :=
  (∀ scope, Spec.FullFence scope) ∧
  Spec.Fences .fenceSv (fun st => st == .scalar) (fun _ => false) ∧
  Spec.Fences .fenceVs (fun st => match st with | .vector | .q _ => true | _ => false) (fun _ => false) ∧
  Spec.Fences .fenceVv (fun st => match st with | .vector | .q _ => true | _ => false) (fun _ => false) ∧
  (∀ mask : BitVec 11, Spec.Fences (.sbar mask)
    (fun st => match st with
      | .q n => mask.getLsbD n.toNat | .scalar => mask.getLsbD 8 | .vector => mask.getLsbD 9 | .bank => mask.getLsbD 10
      | .thread _ => false)
    (fun e => mask.getLsbD 10 && e == .bank)) ∧
  (∀ s : State, PlainHart s → (s.start.drain (fun _ => true)).blocked = none →
    exec .ifence s = .next ({ s.start.drain (fun _ => true) with cur := { (s.start.drain (fun _ => true)).cur with words := [] } } : State).completed)

/-- R218, R220, R222: performing the queued accesses of some streams leaves none of them queued, keeps the others in their order, and
carries out the performed ones on memory one after the other in the order they were issued, which across streams is the model's choice (log 16);
no register changes; where nothing makes it wait,
no write of those streams on its way has yet to pass the ordering point asked for (R221), and no bank command comes before a chained operation. -/
def Spec.QueuedAccessesPerformed : Prop :=
  ∀ (s : State) (level : Nat) (sel : Stream → Bool),
    let t := s.drainTo level sel
    s.drain sel = s.drainTo 4 sel ∧
    t.cur = { s.cur with stores := s.cur.stores.filter (fun p => !sel p.stream) } ∧
    t.mem = (s.cur.stores.filter (fun p => sel p.stream)).foldl (fun m p => performAct m p.act) s.mem ∧
    (t.blocked = none → (∀ p ∈ s.net, ∀ st, p.owner = s.cur.place → p.stream = some st → sel st = true → level ≤ p.level) ∧
      (sel .bank = true → (∃ p ∈ s.cur.stores, p.stream = .bank) → s.ownCommand (fun e => e == .bank) = false))

/-- The fences perform the accesses they order (R124, R125, R218, R220, R222). -/
def Obligations.Fences : Prop := Spec.FenceInstructions ∧ Spec.QueuedAccessesPerformed

/-- R128, R307: YIELD has no effect but that the other slot of the core issues before this hart's slot issues again: of the core's slots this one
alone is noted as having had its turn, and the hart bound to a slot noted so may not issue while the hart of the other slot is ready. -/
def Spec.YieldInstruction : Prop :=
  (∀ s : State, PlainHart s → ∃ turns, exec .yield s = .next ({ s.start with turns := turns } : State).completed ∧
    (∀ p, p ∈ turns ↔ p = s.cur.place ∨ (p ∈ s.turns ∧ p ≠ matePlace s.cur.place))) ∧
  (∀ (s : State) (h m : Hart), h.place ∈ s.turns → m ∈ s.harts → m.place = matePlace h.place → m.status = .running → m.held = false →
    s.mayIssue h = false)

/-- The slot of a hart h that has ended is free; that its registers stay as they were until the next bind is the model's choice (log 58). -/
def Spec.slotLeft (h t : Hart) : Prop :=
  t.status = .unbound ∧ t.launch = none ∧ t.place = h.place ∧ t.x = h.x ∧ t.v = h.v ∧ ∀ p ∈ Spec.csrs, p.2 t = p.2 h

/-- R69, R128: HALT performs every queued access; with no engine or bank command of the hart left its slot becomes free, its registers as they
stand (log 58), else it waits, and HALT_DRAINED frees the slot once they are performed, unless the strip record that closes its last strip must wait. -/
def Spec.HaltInstruction : Prop :=
  (∀ s : State, PlainHart s → let u := s.start.drain (fun _ => true)
    u.blocked = none →
    let left : Prop := u.ownCommand (fun e => e != .nmuOut) = true ∨ ∃ p ∈ u.net, p.owner = s.cur.place
    (¬ left → u.haltEnd.blocked = none → exec .halt s = .next u.haltEnd ∧ Spec.slotLeft u.cur u.haltEnd.cur) ∧
    (left → exec .halt s = .next { u with cur := { u.cur with status := .waiting .halt } })) ∧
  (∀ (s : State), s.cur.status = .waiting .halt → s.cur.held = false → s.ownCommand (fun e => e != .nmuOut) = false →
    (∀ p ∈ s.net, p.owner ≠ s.cur.place) → s.start.haltEnd.blocked = none →
    exec (.haltDrained s.cur.place) s = .next s.start.haltEnd ∧ Spec.slotLeft s.cur s.start.haltEnd.cur)

/-- YIELD ends the turn and HALT the iteration (R69, R128, R307). -/
def Obligations.TurnsAndEnds : Prop := Spec.YieldInstruction ∧ Spec.HaltInstruction

/-- R26, R122: PFX leaves bit 63 and its own bits [25:0] in pfxs for the next instruction and changes nothing else. -/
def Spec.PrefixInstruction : Prop :=
  ∀ (pred copy emask : Reg) (rm : BitVec 3) (pv cv ev : Bool) (chain : BitVec 5) (s : State), PlainHart s →
    exec (.pfx pred copy emask rm pv cv ev chain) s = .next ({ s.start with
      cur.pfxs := 1#1 ++ 0#37 ++ (pred ++ copy ++ emask ++ rm ++ bit pv ++ bit cv ++ bit ev ++ chain) } : State).completed

/-! ## VSETL and VLENQ (R129 to R133) -/

/-- The grant of R130 for a request of n elements and a number of rows. -/
def Spec.grant (twoD : Bool) (b vm n rows : Nat) : Nat × Nat :=
  let up := (n + b - 1) / b * b
  if twoD then
    let vr := min rows (vm / 64)
    (if vr = 0 then 0 else min up 64, vr)
  else (min up (vm / b * b), 1)

/-- R9, R130, R131, R132: a VSETL that no stop or strip breakpoint takes sets vl, vr, vpad, vtype, vlmax, sord, sva and vstart as R130
computes them, writes vl to xd and changes no v register; a 2D VSETL with no room for a row is illegal (R129). -/
def Spec.StripOpens : Prop :=
  ∀ (d a b : Reg) (vt : BitVec 10) (s : State), PlainHart s → s.cur.pending = none → s.blockOf s.cur.sctx = none →
    let t := vt.toNat
    let vm := vlmaxOf s.cur.lanes (fmtWidth (t % 16)) (2 ^ (t / 16 % 4)) s.cur.vlcap
    let g := Spec.grant (vt.getLsbD 8) (blockLen t) vm (s.cur.rx a).toNat (if b = 0#5 then 1 else (s.cur.rx b).toNat)
    (vt.getLsbD 8 = true ∧ vm / 64 = 0 →
      exec (.vsetl d a b vt) s = .next (s.start.trapWord (encode (.vsetl d a b vt)) { cause := 1, tval := 0 } s.start)) ∧
    (¬ (vt.getLsbD 8 = true ∧ vm / 64 = 0) →
      let h : Hart := { s.cur with
        vl := BitVec.ofNat 64 g.1, vr := BitVec.ofNat 64 g.2, vpad := BitVec.ofNat 64 (g.1 - (s.cur.rx a).toNat),
        vtype := vt.setWidth 64, vlmax := BitVec.ofNat 64 vm, sord := s.cur.sord + 1, sva := s.cur.pc, vstart := 0 }
      exec (.vsetl d a b vt) s = .next ({ s.start with cur := h.wx d (BitVec.ofNat 64 g.1) } : State).completed)

/-- R133: VLENQ writes VLMAX · w / 8, the bytes of a spill frame of a group. -/
def Spec.FrameLength : Prop :=
  ∀ (d : Reg) (s : State), PlainHart s →
    let n := s.cur.vlmax.toNat * fmtWidth (s.cur.vtype.toNat % 16) / 8
    exec (.vlenq d) s = .next ({ s.start with cur := s.cur.wx d (BitVec.ofNat 64 n) } : State).completed

/-- VSETL, VLENQ and PFX (R9, R26, R122, R130, R131, R132, R133). -/
def Obligations.Strips : Prop := Spec.StripOpens ∧ Spec.FrameLength ∧ Spec.PrefixInstruction

/-! ## Vector arithmetic (R134 to R144, R148, R172, R173) -/

/-- The element rule of a vector instruction: from the hart, the operands, the strip and the elements of vs1, what element i
gives. -/
abbrev Spec.Rule := Hart → VOp → VCtx → (Nat → Nat) → Nat → ERes

/-- A vector instruction under the template of R134: `fetch` gives its source, none where the queue cannot, `strip` the strip its
elements are governed by, `wd` the width of a destination element, `kept` the positions it leaves whatever ma says.  Where checks
3 and 4 or the queue refuse it, it raises the illegal-instruction trap; with its source fetched and no element raising a trap or
an enabled flag it completes, and every element of its destination, and of the copy the prefix asks for, is as R134 and its rule
say. -/
def Spec.VectorFrom (con : VOp → Instr) (shape : VOp → VCtx → Shape) (fetch : State → VOp → VCtx → Option (Src × State))
    (strip : VCtx → VCtx) (wd : VOp → VCtx → Nat) (kept : Hart → VOp → VCtx → Nat → Bool) (rule : Spec.Rule) : Prop :=
  ∀ (o : VOp) (s : State), (con o).wf = true → Executes s → s.cur.lane = none → s.cur.dropping = false →
    let c := s.cur.vctx o.m
    let k := shape o c
    (vCheck s.cur o c k = false ∨ fetch s.start o c = none →
      exec (con o) s = .next (s.start.trapWord (encode (con o)) { cause := 1, tval := 0, vec := true } s.start)) ∧
    (∀ a u, vCheck s.cur o c k = true → fetch s.start o c = some (a, u) → a.limit = none → u.blocked = none → u.cur.strikes = [] →
      (∀ i, takes (strip c) (kept s.cur o c) i →
        (rule u.cur o c a.elem i).trap = none ∧ (rule u.cur o c a.elem i).flags &&& u.cur.enabled = 0) →
      let d : Dest := { base := o.vd.toNat, regs := k.nd, width := wd o c, pick := fun r => r.val }
      ∃ h, exec (con o) s = .next ({ u with cur := h } : State).completed ∧
        ElementsWritten u.cur (strip c) (VMods.of u.cur o) (d :: u.cur.copyDest d) (kept s.cur o c) (rule u.cur o c a.elem) h)

/-- No position is left whatever ma says. -/
def Spec.keepsNone : Hart → VOp → VCtx → Nat → Bool := fun _ _ _ _ => false

/-- The same with vs1 as the source: a group of elements of width w1, or a queue (R135). -/
def Spec.VectorOp (con : VOp → Instr) (shape : VOp → VCtx → Shape) (w1 wd : VCtx → Nat) (kept : Hart → VOp → VCtx → Nat → Bool)
    (rule : Spec.Rule) : Prop :=
  Spec.VectorFrom con shape (fun s o c => s.src1 o c (w1 c) (shape o c).n1) id (fun _ c => wd c) kept rule

/-- The scalar of an X form at width w (R135). -/
def Spec.scalar (h : Hart) (o : VOp) (w : Nat) : Nat := if o.i then wrapN o.vs2.toInt w else (h.ox o.vs2).toNat % 2 ^ w

/-- Elements i of vs2 and of the old vd, in groups of g registers of width w. -/
def Spec.other (h : Hart) (r : Reg) (c : VCtx) (i : Nat) : Nat := elemN (h.groupN r.toNat c.g) c.w i

/-- An integer operation, with a group and with a scalar as its second operand (R96, R139). -/
def Spec.IntOp (con conX : VOp → Instr) (f : (w a b d : Nat) → ERes) : Prop :=
  Spec.VectorOp con (fun _ c => { formats := [0, 1, 2, 3], n1 := c.g, n2 := c.g, nd := c.g }) (fun c => c.w) (fun c => c.w)
    Spec.keepsNone (fun h o c e i => f c.w (e i) (Spec.other h o.vs2 c i) (Spec.other h o.vd c i)) ∧
  Spec.VectorOp conX (fun _ c => { formats := [0, 1, 2, 3], n1 := c.g, n2 := 0, nd := c.g }) (fun c => c.w) (fun c => c.w)
    Spec.keepsNone (fun h o c e i => f c.w (e i) (Spec.scalar h o c.w) (Spec.other h o.vd c i))

/-- An integer operation on one group. -/
def Spec.IntOp1 (con : VOp → Instr) (f : (w a : Nat) → Nat) : Prop :=
  Spec.VectorOp con (fun _ c => { formats := [0, 1, 2, 3], n1 := c.g, n2 := 0, nd := c.g }) (fun c => c.w) (fun c => c.w)
    Spec.keepsNone (fun _ _ c e i => .of (f c.w (e i)))

/-- An exact result clamped to a range; SAT where it lay outside (R34, R139). -/
def Spec.clamped (w : Nat) (lo hi x : Int) : ERes :=
  { val := wrapN (if x < lo then lo else if hi < x then hi else x) w, flags := if x < lo ∨ hi < x then 0x40 else 0 }

/-- The result of a condition: 1 or 0. -/
def Spec.bit (p : Prop) [Decidable p] : ERes := .of (if p then 1 else 0)

/-- R139: the integer operations on two operands, with what each gives of its two elements and the old destination element; and those on one. -/
noncomputable def Spec.intTable : List ((VOp → Instr) × (VOp → Instr) × ((w a b d : Nat) → ERes)) :=
  [(.vadd, .vaddVx, fun w a b _ => .of ((a + b) % 2 ^ w)),
   (.vsub, .vsubVx, fun w a b _ => .of (wrapN ((a : Int) - b) w)),
   (.vrsub, .vrsubVx, fun w a b _ => .of (wrapN ((b : Int) - a) w)),
   (.vmul, .vmulVx, fun w a b _ => .of (a * b % 2 ^ w)),
   (.vmulh, .vmulhVx, fun w a b _ => .of (wrapN (sintN w a * sintN w b / 2 ^ w) w)),
   (.vmulhn, .vmulhnVx, fun w a b _ => .of (a * b / 2 ^ w)),
   (.vmacc, .vmaccVx, fun w a b d => .of ((d + a * b) % 2 ^ w)),
   (.vand, .vandVx, fun _ a b _ => .of (a &&& b)),
   (.vor, .vorVx, fun _ a b _ => .of (a ||| b)),
   (.vxor, .vxorVx, fun _ a b _ => .of (a ^^^ b)),
   (.vshl, .vshlVx, fun w a b _ => .of (a * 2 ^ (b % w) % 2 ^ w)),
   (.vshr, .vshrVx, fun w a b _ => .of (a / 2 ^ (b % w))),
   (.vsra, .vsraVx, fun w a b _ => .of (wrapN (sintN w a / 2 ^ (b % w)) w)),
   (.vmin, .vminVx, fun w a b _ => .of (if sintN w a < sintN w b then a else b)),
   (.vmax, .vmaxVx, fun w a b _ => .of (if sintN w a < sintN w b then b else a)),
   (.vminn, .vminnVx, fun _ a b _ => .of (if a < b then a else b)),
   (.vmaxn, .vmaxnVx, fun _ a b _ => .of (if a < b then b else a)),
   (.vsadd, .vsaddVx, fun w a b _ => Spec.clamped w (-2 ^ (w - 1)) (2 ^ (w - 1) - 1) (sintN w a + sintN w b)),
   (.vssub, .vssubVx, fun w a b _ => Spec.clamped w (-2 ^ (w - 1)) (2 ^ (w - 1) - 1) (sintN w a - sintN w b)),
   (.vsaddn, .vsaddnVx, fun w a b _ => Spec.clamped w 0 (2 ^ w - 1) (a + b)),
   (.vssubn, .vssubnVx, fun w a b _ => Spec.clamped w 0 (2 ^ w - 1) (a - b))]
noncomputable def Spec.intTable1 : List ((VOp → Instr) × ((w a : Nat) → Nat)) :=
  [(.vclz, fun w a => if a = 0 then w else w - 1 - a.log2),
   (.vctz, fun w a => (List.range w).countP (fun k => a % 2 ^ (k + 1) = 0)),
   (.vpopc, fun w a => (List.range w).countP (fun k => a.testBit k))]

/-- R139: the vector integer operations. -/
def Obligations.VectorInteger : Prop :=
  (∀ p ∈ Spec.intTable, Spec.IntOp p.1 p.2.1 p.2.2) ∧ (∀ p ∈ Spec.intTable1, Spec.IntOp1 p.1 p.2)

/-- The shape of a compare: a mask register, which must not meet a source group (R137, R140). -/
def Spec.maskShape (formats : List Nat) (two : Bool) (o : VOp) (c : VCtx) : Shape :=
  { formats := formats, n1 := c.g, n2 := if two then c.g else 0, nd := 1,
    clash := (!o.q && overlap o.vd.toNat 1 o.vs1.toNat c.g) || overlap o.vd.toNat 1 o.vs2.toNat (if two then c.g else 0) }

/-- An integer compare with a group and with a scalar. -/
def Spec.IntCompare (con conX : VOp → Instr) (f : (w a b : Nat) → ERes) : Prop :=
  Spec.VectorOp con (Spec.maskShape [0, 1, 2, 3] true) (fun c => c.w) (fun _ => 1) Spec.keepsNone
    (fun h o c e i => f c.w (e i) (Spec.other h o.vs2 c i)) ∧
  Spec.VectorOp conX (Spec.maskShape [0, 1, 2, 3] false) (fun c => c.w) (fun _ => 1) Spec.keepsNone
    (fun h o c e i => f c.w (e i) (Spec.scalar h o c.w))

/-- An FP compare with a group and with an x register read as FP32. -/
def Spec.FpCompare (con conX : VOp → Instr) (f : (x y : Ex) → ERes) : Prop :=
  Spec.VectorOp con (Spec.maskShape [4, 5, 6] true) (fun c => c.w) (fun _ => 1) Spec.keepsNone
    (fun h o c e i => f (readF (ffmt c.fmt) (e i)) (readF (ffmt c.fmt) (Spec.other h o.vs2 c i))) ∧
  Spec.VectorOp conX (Spec.maskShape [4, 5, 6] false) (fun c => c.w) (fun _ => 1) Spec.keepsNone
    (fun h o c e i => f (readF (ffmt c.fmt) (e i)) (readF fp32 ((h.ox o.vs2).toNat % 2 ^ 32)))

/-- A relation of two numbers: 0 when either is a NaN, with NV for a signalling NaN, and for any NaN where the relation is not
quiet (R142). -/
def Spec.relation (quiet : Bool) (rel : Ex → Ex → Bool) (x y : Ex) : ERes :=
  if x.isNan ∨ y.isNan then { val := 0, flags := if x.isSig ∨ y.isSig ∨ quiet = false then 0x10 else 0 }
  else Spec.bit (rel x y)

/-- R140, R142: the vector compares write one mask bit for each element. -/
def Obligations.VectorCompares : Prop :=
  Spec.IntCompare .vmseq .vmseqVx (fun _ a b => Spec.bit (a = b)) ∧
  Spec.IntCompare .vmsne .vmsneVx (fun _ a b => Spec.bit (a ≠ b)) ∧
  Spec.IntCompare .vmslt .vmsltVx (fun w a b => Spec.bit (sintN w a < sintN w b)) ∧
  Spec.IntCompare .vmsle .vmsleVx (fun w a b => Spec.bit (sintN w a ≤ sintN w b)) ∧
  Spec.IntCompare .vmsltn .vmsltnVx (fun _ a b => Spec.bit (a < b)) ∧
  Spec.IntCompare .vmslen .vmslenVx (fun _ a b => Spec.bit (a ≤ b)) ∧
  Spec.FpCompare .vmfeq .vmfeqVf (Spec.relation true feqRel) ∧
  Spec.FpCompare .vmflt .vmfltVf (Spec.relation false fltRel) ∧
  Spec.FpCompare .vmfle .vmfleVf (Spec.relation false fleRel) ∧
  Spec.FpCompare .vmfun .vmfunVf (fun x y =>
    { val := if x.isNan ∨ y.isNan then 1 else 0, flags := if x.isSig ∨ y.isSig then 0x10 else 0 })

/-- A vector FP operation on two groups: `rounds` where it takes a rounding mode (R122); `f` is given the format, the effective mode
(R4), the elements of vs1 and vs2, and the old destination element. -/
def Spec.VFp2 (con : VOp → Instr) (rounds : Bool) (f : (fmt : FFmt) → (mode a b d : Nat) → ERes) : Prop :=
  Spec.VectorOp con (fun _ c => { formats := [4, 5, 6], n1 := c.g, n2 := c.g, nd := c.g, rounds := rounds }) (fun c => c.w)
    (fun c => c.w) Spec.keepsNone (fun h o c e i => f (ffmt c.fmt) h.mode (e i) (Spec.other h o.vs2 c i) (Spec.other h o.vd c i))

/-- The same with an x register, read as FP32, as its second operand. -/
def Spec.VFpX (con : VOp → Instr) (rounds : Bool) (f : (fmt : FFmt) → (mode a b d : Nat) → ERes) : Prop :=
  Spec.VectorOp con (fun _ c => { formats := [4, 5, 6], n1 := c.g, n2 := 0, nd := c.g, rounds := rounds }) (fun c => c.w)
    (fun c => c.w) Spec.keepsNone
    (fun h o c e i => f (ffmt c.fmt) h.mode (e i) ((h.ox o.vs2).toNat % 2 ^ 32) (Spec.other h o.vd c i))

/-- The same on one group. -/
def Spec.VFp1 (con : VOp → Instr) (formats : List Nat) (rounds : Bool) (f : (fmt : FFmt) → (mode a : Nat) → ERes) : Prop :=
  Spec.VectorOp con (fun _ c => { formats := formats, n1 := c.g, n2 := 0, nd := c.g, rounds := rounds }) (fun c => c.w)
    (fun c => c.w) Spec.keepsNone (fun h _ c e i => f (ffmt c.fmt) h.mode (e i))

/-- An arithmetic operation in both forms: the exact result of the exact operands, delivered once in the element format (R141). -/
def Spec.VFpExact (con conX : VOp → Instr) (f : (mode : Nat) → (x y z : Ex) → Ex × Nat) : Prop :=
  Spec.VFp2 con true (fun g mode a b d => .ofF (deliver g mode (f mode (readF g a) (readF g b) (readF g d)))) ∧
  Spec.VFpX conX true (fun g mode a b d => .ofF (deliver g mode (f mode (readF g a) (readF fp32 b) (readF g d))))

/-- A widening operation: sources of 16 or 8 bits and an FP32 destination of at most 8 registers that meets no source (R137, R141). -/
def Spec.VFpWide (con : VOp → Instr) (f : (mode : Nat) → (x y z : Ex) → Ex × Nat) : Prop :=
  Spec.VectorOp con
    (fun o c => { formats := [5, 6, 7, 8], n1 := c.g, n2 := c.g, nd := 32 / c.w * c.g, rounds := true,
                  clash := 32 / c.w * c.g > 8 || (!o.q && overlap o.vd.toNat (32 / c.w * c.g) o.vs1.toNat c.g) ||
                    overlap o.vd.toNat (32 / c.w * c.g) o.vs2.toNat c.g })
    (fun c => c.w) (fun _ => 32) Spec.keepsNone
    (fun h o c e i => .ofF (deliver fp32 h.mode (f h.mode (readF (ffmt c.fmt) (e i))
      (readF (ffmt c.fmt) (Spec.other h o.vs2 c i)) (readF fp32 (elemN (h.groupN o.vd.toNat (32 / c.w * c.g)) 32 i)))))

/-- R141, R148: the vector FP operations, the widening ones, and the special functions. -/
def Spec.FloatInstructions : Prop :=
  Spec.VFpExact .vfadd .vfaddVf (fun m x y _ => addEx m x y) ∧
  Spec.VFpExact .vfsub .vfsubVf (fun m x y _ => addEx m x y.negate) ∧
  Spec.VFpExact .vfmul .vfmulVf (fun _ x y _ => mulEx x y) ∧
  Spec.VFpExact .vfdiv .vfdivVf (fun _ x y _ => divEx x y) ∧
  Spec.VFpExact .vfma .vfmaVf (fun m x y z => fmaEx m x y z) ∧
  Spec.VFpExact .vfms .vfmsVf (fun m x y z => fmaEx m x y z.negate) ∧
  Spec.VFpExact .vfnma .vfnmaVf (fun m x y z => fmaEx m x.negate y z) ∧
  Spec.VFp1 .vfsqrt [4, 5, 6] true (fun g m a => .ofF (deliver g m (sqrtEx (readF g a)))) ∧
  (∀ p ∈ [(Instr.vfmin, Instr.vfminVf, false, false), (.vfmax, .vfmaxVf, true, false),
          (.vfminp, .vfminpVf, false, true), (.vfmaxp, .vfmaxpVf, true, true)],
    Spec.VFp2 p.1 false (fun g m a b _ => .ofF (minMaxArg g m p.2.2.1 p.2.2.2 a { bits := b, fmt := g })) ∧
    Spec.VFpX p.2.1 true (fun g m a b _ => .ofF (minMaxArg g m p.2.2.1 p.2.2.2 a { bits := b, fmt := fp32 }))) ∧
  Spec.VFp1 .vfabs [4, 5, 6] false (fun g _ a => .of (a % 2 ^ (g.w - 1))) ∧
  Spec.VFp1 .vfneg [4, 5, 6] false (fun g _ a => .of ((a + 2 ^ (g.w - 1)) % 2 ^ g.w)) ∧
  Spec.VFp2 .vfsgnj false (fun g _ a b _ => .of (a % 2 ^ (g.w - 1) + if b.testBit (g.w - 1) then 2 ^ (g.w - 1) else 0)) ∧
  Spec.VFpX .vfsgnjVf false (fun g _ a b _ => .of (a % 2 ^ (g.w - 1) + if b.testBit 31 then 2 ^ (g.w - 1) else 0)) ∧
  Spec.VFp1 .vfclass [4, 5, 6] false (fun g _ a => .of (classF g a)) ∧
  Spec.VFpWide .vfwma (fun m x y z => fmaEx m x y z) ∧ Spec.VFpWide .vfwadd (fun m x y _ => addEx m x y) ∧
  Spec.VFp1 .vfrcp [4] false (fun _ _ a => .ofF (sfuF rcpEx a)) ∧
  Spec.VFp1 .vfrsqrt [4] false (fun _ _ a => .ofF (sfuF rsqrtEx a)) ∧
  Spec.VFp1 .vfexp2 [4] false (fun _ _ a => .ofF (sfuF exp2Ex a)) ∧
  Spec.VFp1 .vflog2 [4] false (fun _ _ a => .ofF (sfuF log2Ex a)) ∧
  Spec.VFp1 .vfsinpi [4] false (fun _ _ a => .ofF (sfuF sinPiEx a)) ∧
  Spec.VFp1 .vfcospi [4] false (fun _ _ a => .ofF (sfuF cosPiEx a))

/-- R48, R141: the minimum and maximum of an element a of format f and an operand b of format g: a NaN gives the other operand, rounded once to f,
or with `prop` the canonical NaN; of two numbers the smaller or larger, −0 below +0. -/
def Spec.MinMaxValues : Prop :=
  ∀ f ∈ [fp32, bf16, fp16], ∀ g ∈ [f, fp32], ∀ (mode a b : Nat) (isMax prop : Bool), a < 2 ^ f.w → b < 2 ^ g.w →
    let x := readF f a
    let y := readF g b
    let r := minMaxArg f mode isMax prop a { bits := b, fmt := g }
    let other := if g = f then (b, 0) else roundF f mode false y
    let nv := if x.isSig ∨ y.isSig then flagNV else 0
    let below (p q : Ex) : Prop := fltRel p q = true ∨ (p.isZero = true ∧ q.isZero = true ∧ p.isNeg = true ∧ q.isNeg = false)
    (x.isNan = true ∧ y.isNan = true ∨ prop = true ∧ (x.isNan = true ∨ y.isNan = true) → r = (f.nan, nv)) ∧
    (prop = false → x.isNan = true → y.isNan = false → r = (other.1, other.2 ||| nv)) ∧
    (prop = false → x.isNan = false → y.isNan = true → r = (a, nv)) ∧
    (x.isNan = false → y.isNan = false →
      ((if isMax then below x y else below y x) → r = other) ∧ (¬ (if isMax then below x y else below y x) → r = (a, 0)))

/-- R41: the special functions.  The reciprocal and the reciprocal square root of every FP32 number, the powers of two of integers, the logarithms of
powers of two, and the sines and cosines at integers and halves are the exact results rounded once to nearest; and the special values of the table. -/
def Spec.SpecialFunctions : Prop :=
  ∀ a, a < 2 ^ 32 →
    let x := readF fp32 a
    let v := Spec.value fp32 a
    let nan := (fp32.nan, flagNV)
    (x.isNan = true → ∀ f ∈ [rcpEx, rsqrtEx, exp2Ex, log2Ex, sinPiEx, cosPiEx], sfuF f a = (fp32.nan, if x.isSig then flagNV else 0)) ∧
    (a = 0 → sfuF rcpEx a = (0x7F800000, flagDZ) ∧ sfuF rsqrtEx a = (0x7F800000, flagDZ) ∧ sfuF exp2Ex a = (0x3F800000, 0) ∧
      sfuF log2Ex a = (0xFF800000, flagDZ)) ∧
    (a = 0x80000000 → sfuF rcpEx a = (0xFF800000, flagDZ) ∧ sfuF rsqrtEx a = (0xFF800000, flagDZ) ∧ sfuF exp2Ex a = (0x3F800000, 0) ∧
      sfuF log2Ex a = (0xFF800000, flagDZ)) ∧
    (a = 0x7F800000 → sfuF rcpEx a = (0, 0) ∧ sfuF rsqrtEx a = (0, 0) ∧ sfuF exp2Ex a = (0x7F800000, 0) ∧ sfuF log2Ex a = (0x7F800000, 0) ∧
      sfuF sinPiEx a = nan ∧ sfuF cosPiEx a = nan) ∧
    (a = 0xFF800000 → sfuF rcpEx a = (0x80000000, 0) ∧ sfuF rsqrtEx a = nan ∧ sfuF exp2Ex a = (0, 0) ∧ sfuF log2Ex a = nan ∧
      sfuF sinPiEx a = nan ∧ sfuF cosPiEx a = nan) ∧
    (∀ p, v = some p → p ≠ 0 → ∃ e, Spec.rational e = some (1 / p) ∧ sfuF rcpEx a = deliver fp32 0 (e, 0)) ∧
    (∀ p, v = some p → p < 0 → sfuF rsqrtEx a = nan ∧ sfuF log2Ex a = nan) ∧
    (∀ p, v = some p → 0 < p → ∃ e y, Spec.rational e = some y ∧ sfuF rsqrtEx a = deliver fp32 0 (e, 0) ∧ 0 < y ∧
      ∀ (m : Nat) (k : Int), m < 2 ^ 40 → ((m * (2 : ℚ) ^ k) * (m * (2 : ℚ) ^ k) * p ≤ 1 ↔ m * (2 : ℚ) ^ k ≤ y)) ∧
    (∀ k : Int, v = some (k : ℚ) → k.natAbs < 4096 → sfuF exp2Ex a = deliver fp32 0 (.fin false 1 1 k, 0)) ∧
    (∀ k : Int, v = some ((2 : ℚ) ^ k) → sfuF log2Ex a = deliver fp32 0 (Ex.ofInt k, 0)) ∧
    (∀ k : Int, v = some (k : ℚ) → sfuF sinPiEx a = (if a < 0x80000000 then 0 else 0x80000000, 0) ∧
      sfuF cosPiEx a = (if k % 2 = 0 then 0x3F800000 else 0xBF800000, 0)) ∧
    (∀ k : Int, v = some (k + 1 / 2 : ℚ) → sfuF sinPiEx a = (if k % 2 = 0 then 0x3F800000 else 0xBF800000, 0) ∧ sfuF cosPiEx a = (0, 0))

/-- What every vector FP instruction writes, element by element (R41, R48, R141, R148). -/
def Obligations.VectorFloat : Prop := Spec.MinMaxValues ∧ Spec.SpecialFunctions ∧ Spec.FloatInstructions

/-- What R50 makes of an exact sum or product v of finite operands, under a mode, with the flags fl of the plain operation: its parts are (hi, lo, flags). -/
def Spec.PairOf (mode : Nat) (plain : Nat × Nat) (v : ℚ) (r : Nat × Nat × Nat) : Prop :=
  r.1 = plain.1 ∧
  (∀ h, Spec.value fp32 r.1 = some h →
    (v = h → r.2 = (0, plain.2)) ∧
    (v ≠ h → (∃ x, x < 2 ^ 32 ∧ Spec.value fp32 x = some (v - h)) → Spec.value fp32 r.2.1 = some (v - h) ∧ r.2.2 = plain.2) ∧
    ((¬ ∃ x, x < 2 ^ 32 ∧ Spec.value fp32 x = some (v - h)) → ∃ e, Spec.rational e = some (v - h) ∧
      r.2 = ((roundF fp32 mode false e).1, plain.2 ||| flagPX))) ∧
  (Spec.value fp32 r.1 = none → r.2 = (0, plain.2 ||| flagOF ||| flagPX))

/-- An operand, or the result, that is an infinity or a NaN (R50): the low half is the canonical NaN beside a NaN, else +0. -/
def Spec.PairLimit (plain : Nat × Nat) (r : Nat × Nat × Nat) : Prop :=
  r = (plain.1, if (readF fp32 plain.1).isNan then fp32.nan else 0, plain.2)

/-- R50, R52: what the pair instructions deliver: the rounded sum, difference or product with what its rounding left, and the double-word sums and
products by their sequences. -/
def Spec.PairValues : Prop :=
  (∀ (mode a b : Nat), mode < 5 → a < 2 ^ 32 → b < 2 ^ 32 →
    (∀ p q, Spec.value fp32 a = some p → Spec.value fp32 b = some q →
      Spec.PairOf mode (faddF fp32 mode a b) (p + q) (twoSum mode a b) ∧ Spec.PairOf mode (fsubF fp32 mode a b) (p - q) (twoDiff mode a b) ∧
      Spec.PairOf mode (fmulF fp32 mode a b) (p * q) (twoProd mode a b)) ∧
    (Spec.value fp32 a = none ∨ Spec.value fp32 b = none →
      Spec.PairLimit (faddF fp32 mode a b) (twoSum mode a b) ∧ Spec.PairLimit (fsubF fp32 mode a b) (twoDiff mode a b) ∧
      Spec.PairLimit (fmulF fp32 mode a b) (twoProd mode a b))) ∧
  (∀ xh xl yh yl : Nat,
    let add (a b : Nat) := faddF fp32 0 a b
    let mul (a b : Nat) := fmulF fp32 0 a b
    let two (a b : Nat) := twoSum 0 a b
    let is (z : Nat × Nat × Nat) (fs : List Nat) (r : Nat × Nat × Nat) : Prop := r.1 = z.1 ∧ r.2.1 = z.2.1 ∧ r.2.2 = fs.foldl (· ||| ·) z.2.2
    (let s := two xh yh
     let t := two xl yl
     let c := add s.2.1 t.1
     let v := two s.1 c.1
     let w := add t.2.1 v.2.1
     is (two v.1 w.1) [s.2.2, t.2.2, c.2, v.2.2, w.2] (dwAdd xh xl yh yl)) ∧
    (let s := two xh yh
     let v := add xl s.2.1
     is (two s.1 v.1) [s.2.2, v.2] (dwAddS xh xl yh)) ∧
    (let c := twoProd 0 xh yh
     let t1 := mul xh yl
     let t2 := mul xl yh
     let c2 := add t1.1 t2.1
     let c3 := add c.2.1 c2.1
     is (two c.1 c3.1) [c.2.2, t1.2, t2.2, c2.2, c3.2] (dwMul xh xl yh yl)) ∧
    is (two xh xl) [] (dwRen xh xl))

/-- A pair operation of FP32 elements (R143): the high half to vd, the low half to vd + g. -/
def Spec.VPair (con : VOp → Instr) (p1 p2 one rounds : Bool) (f : (mode ah al bh bl : Nat) → Nat × Nat × Nat) : Prop :=
  ∀ (o : VOp) (s : State), Executes s → s.cur.lane = none → s.cur.dropping = false →
    let c := s.cur.vctx o.m
    let g := c.g
    let d := o.vd.toNat
    let n1 := if p1 then 2 * g else g
    let k : Shape := { formats := [4], n1 := n1, n2 := if one then 0 else if p2 then 2 * g else g, nd := g, halves := 2, rounds := rounds,
                       copy := false, clash := (!o.q && !p1 && overlap o.vs1.toNat g (d + g) g) ||
                         (!one && !p2 && overlap o.vs2.toNat g (d + g) g) }
    let src := s.start.src1 o c 32 n1
    (vCheck s.cur o c k = false ∨ src = none →
      exec (con o) s = .next (s.start.trapWord (encode (con o)) { cause := 1, tval := 0, vec := true } s.start)) ∧
    (∀ a u, vCheck s.cur o c k = true → src = some (a, u) → a.limit = none → u.blocked = none → u.cur.strikes = [] →
      let e := g * (256 * c.lanes / 32)
      let x := u.cur.groupN o.vs1.toNat (2 * g)
      let y := u.cur.groupN o.vs2.toNat (2 * g)
      let r (i : Nat) : ERes := .ofP (f u.cur.mode (a.elem i) (elemN x 32 (i + e)) (elemN y 32 i) (elemN y 32 (i + e)))
      (∀ i, takes c (fun _ => false) i → (r i).flags &&& u.cur.enabled = 0) →
      ∃ h, exec (con o) s = .next ({ u with cur := h } : State).completed ∧
        ElementsWritten u.cur c (VMods.of u.cur o)
          [{ base := d, regs := g, width := 32, pick := fun r => r.val }, { base := d + g, regs := g, width := 32, pick := fun r => r.lo }]
          (fun _ => false) r h)

/-- R143, R144: the error-free sum, difference and product, and the double-word operations. -/
def Spec.PairInstructions : Prop :=
  Spec.VPair .vfaddx false false false true (fun m ah _ bh _ => twoSum m ah bh) ∧
  Spec.VPair .vfsubx false false false true (fun m ah _ bh _ => twoDiff m ah bh) ∧
  Spec.VPair .vfmulx false false false true (fun m ah _ bh _ => twoProd m ah bh) ∧
  Spec.VPair .vdwadd true true false false (fun _ ah al bh bl => dwAdd ah al bh bl) ∧
  Spec.VPair .vdwadds true false false false (fun _ ah al bh _ => dwAddS ah al bh) ∧
  Spec.VPair .vdwmul true true false false (fun _ ah al bh bl => dwMul ah al bh bl) ∧
  Spec.VPair .vdwren true false true false (fun _ ah al _ _ => dwRen ah al)

/-- The pair instructions (R50, R52, R143, R144). -/
def Obligations.VectorPairs : Prop := Spec.PairValues ∧ Spec.PairInstructions

/-- A mask operation on single registers (R173). -/
def Spec.MaskOp (con : VOp → Instr) (two : Bool) (f : Bool → Bool → Bool) : Prop :=
  Spec.VectorOp con (fun _ _ => { formats := List.range 13, n1 := 1, n2 := if two then 1 else 0, nd := 1 }) (fun _ => 1) (fun _ => 1)
    Spec.keepsNone (fun h o _ e i => Spec.bit (f (e i = 1) (elemN (h.groupN o.vs2.toNat (if two then 1 else 0)) 1 i = 1) = true))

/-- A mask-to-scalar instruction (R174): it needs `vstart` 0, and gives xd a number read off the bits of vs1 that are granted and
governed. -/
def Spec.MaskToX (con : VOp → Instr) (f : (bits : List Nat) → Word) : Prop :=
  ∀ (o : VOp) (s : State), Executes s → s.cur.lane = none → s.cur.dropping = false →
    let c := s.cur.vctx o.m
    let bits := (List.range (256 * c.lanes)).filter (fun i => c.granted i && c.gov i && (s.cur.vN o.vs1.toNat).testBit i)
    let ok := pfxFits s.cur.pfx { pred := o.m } = true ∧ s.cur.vstart = 0
    (¬ ok → exec (con o) s = .next (s.start.trapWord (encode (con o)) { cause := 1, tval := 0, vec := true } s.start)) ∧
    (ok → exec (con o) s = .next ({ s.start with cur := s.cur.wx o.vd (f bits) } : State).completed)

/-- R173, R174: the mask operations, and the mask-to-scalar instructions. -/
def Obligations.VectorMasks : Prop :=
  Spec.MaskOp .vmand true (fun a b => a && b) ∧ Spec.MaskOp .vmor true (fun a b => a || b) ∧
  Spec.MaskOp .vmxor true (fun a b => a != b) ∧ Spec.MaskOp .vmandn true (fun a b => a && !b) ∧
  Spec.MaskOp .vmnot false (fun a _ => !a) ∧
  Spec.MaskToX .vmpopc (fun l => BitVec.ofNat 64 l.length) ∧
  Spec.MaskToX .vmfirst (fun l => if l = [] then BitVec.allOnes 64 else BitVec.ofNat 64 (l.headD 0)) ∧
  Spec.MaskToX .vmany (fun l => if l = [] then 0 else 1)

/-! ## Conversions, reductions, permutes, moves and transformations (R145 to R152, R170 to R176) -/

/-- The shape of a conversion whose destination group is (32 / w) · g registers of FP32 and meets no source register (R137). -/
def Spec.wideShape (formats : List Nat) (n1 : VCtx → Nat) (bad : VOp → Bool) (o : VOp) (c : VCtx) : Shape :=
  { formats := formats, n1 := n1 c, n2 := 0, nd := 32 / c.w * c.g,
    clash := 32 / c.w * c.g > 8 || (!o.q && overlap o.vd.toNat (32 / c.w * c.g) o.vs1.toNat (n1 c)) || bad o }

/-- What VBDEC makes of an element and its scale word: the block-scale trap for an ill-formed scale, 0 for a zero scale, the block-code
trap for a code that is no number, and else their product delivered in FP32 to nearest, ties to even (R151). -/
def Spec.decodedElement (fmt scale x : Nat) : ERes :=
  match readScale fmt scale, readBlockElem fmt x with
  | none, _ => { val := 0, trap := some 0x03 }
  | some sc, y =>
    if sc.isZero then .of 0
    else match y with
      | none => { val := 0, trap := some 0x02 }
      | some y => .ofF (deliver fp32 0 (mulEx sc y))

/-- R149 to R151: VFCVT between an FP format and the signed integers of its width, VFWCVT to FP32, VFNCVT from FP32, and VBDEC. -/
def Spec.VectorConversions : Prop :=
  Spec.VectorOp .vfcvt
    (fun o c => { formats := if (c.fmt, o.vs2.toNat % 16) ∈ [(4, 2), (2, 4), (6, 1), (1, 6), (5, 1), (1, 5)] then [c.fmt] else [],
                  n1 := c.g, n2 := 0, nd := c.g, rounds := true })
    (fun c => c.w) (fun c => c.w) Spec.keepsNone
    (fun h o c e i => .ofF (if c.fmt < 4 then toIntEx h.mode c.w false (readF (ffmt (o.vs2.toNat % 16)) (e i))
      else deliver (ffmt c.fmt) h.mode (ofIntBits c.w false (e i), 0))) ∧
  Spec.VectorOp .vfwcvt (Spec.wideShape [5, 6, 7, 8] (fun c => c.g) (fun o => o.vs2.toNat != 4)) (fun c => c.w) (fun _ => 32)
    Spec.keepsNone (fun _ _ c e i => .ofF (roundF fp32 0 false (readF (ffmt c.fmt) (e i)))) ∧
  Spec.VectorOp .vfncvt
    (fun o c => { formats := [5, 6, 7, 8], n1 := 32 / c.w * c.g, n2 := 0, nd := c.g, rounds := true,
                  clash := 32 / c.w * c.g > 8 || (!o.q && overlap o.vd.toNat c.g o.vs1.toNat (32 / c.w * c.g)) ||
                    o.vs2.toNat != 4 || (o.i && c.w != 8) })
    (fun _ => 32) (fun c => c.w) Spec.keepsNone
    (fun h o c e i => .ofF (roundF (ffmt c.fmt) h.mode o.i (readF fp32 (e i)))) ∧
  Spec.VectorFrom .vbdec
    (fun o c => { formats := [9, 10, 11, 12], n1 := 2 * c.g, n2 := 0, nd := 32 / c.w * c.g,
                  clash := 32 / c.w * c.g > 8 || overlap o.vd.toNat (32 / c.w * c.g) o.vs1.toNat (2 * c.g) })
    (fun s _ _ => some ({ elem := fun _ => 0 }, s)) id (fun _ _ => 32) Spec.keepsNone
    (fun h o c _ i => Spec.decodedElement c.fmt (elemN (h.groupN (o.vs1.toNat + c.g) c.g) 32 (i / c.blk)) (Spec.other h o.vs1 c i))

/-- The hart after an instruction that writes element 0 of its destinations with the halves of a result: every other position is
tail (R145, R172); the flags are added to `vxflags`, `vstart` is 0. -/
structure Spec.FirstWritten (h : Hart) (c : VCtx) (o : VOp) (dests : List Dest) (r : ERes) (t : Hart) : Prop where
  rest : t = { h with v := t.v, dirty := t.dirty, vxflags := h.vxflags ||| BitVec.ofNat 64 r.flags, vstart := 0 }
  element : ∀ d ∈ dests, ∀ i, i < c.positions d → elemN (t.groupN d.base d.regs) d.width i =
    if i = 0 then d.pick r % 2 ^ d.width else if o.ta then 2 ^ d.width - 1 else elemN (h.groupN d.base d.regs) d.width i
  emask : o.e = true → ∀ i, i < 256 * c.lanes →
    let k := (pfxEmask h.pfx).getD 31
    elemN (t.groupN k 1) 1 i = if i = 0 then (if r.flags &&& h.sel ≠ 0 then 1 else 0) else if i < c.vl then 0
      else if o.ta then 1 else elemN (h.groupN k 1) 1 i
  others : ∀ k, k < 32 → (o.e = true → k ≠ (pfxEmask h.pfx).getD 31) → (∀ d ∈ dests, overlap k 1 d.base d.regs = false) →
    t.rv k = h.rv k ∧ t.dirty.getLsbD k = h.dirty.getLsbD k

/-- A reduction (R145 to R147): op code `op` of R96's reductions on the vl elements of vs1, none where one is not active, starting from
element 0 of vs2; with vl 0 it writes nothing. -/
def Spec.Reduction (con : VOp → Instr) (op : Nat) (formats : List Nat) (rounds pair : Bool) : Prop :=
  ∀ (o : VOp) (s : State), (con o).wf = true → Executes s → s.cur.lane = none → s.cur.dropping = false →
    let c := s.cur.vctx o.m
    let g := c.g
    let d := o.vd.toNat
    let k : Shape := { formats := formats, n1 := g, n2 := g, nd := g, halves := if pair then 2 else 1, flat := true, rounds := rounds,
                       copy := !pair, clash := c.vstart != 0 || (pair && ((!o.q && overlap o.vs1.toNat g (d + g) g) ||
                         overlap o.vs2.toNat g (d + g) g)) }
    let src := s.start.src1 o c c.w g
    (vCheck s.cur o c k = false ∨ src = none →
      exec (con o) s = .next (s.start.trapWord (encode (con o)) { cause := 1, tval := 0, vec := true } s.start)) ∧
    (∀ a u, vCheck s.cur o c k = true → src = some (a, u) → a.limit = none → u.blocked = none → u.cur.strikes = [] →
      let xs := (List.range c.vl).map (fun i => if c.active i then some (a.elem i) else none)
      let r := vredN op c.w (ffmt c.fmt) u.cur.mode u.cur.enabled (elemN (u.cur.groupN o.vs2.toNat g) c.w 0) xs
      let hi : Dest := { base := d, regs := g, width := c.w, pick := fun r => r.val }
      let lo : Dest := { base := d + g, regs := g, width := c.w, pick := fun r => r.lo }
      (c.vl = 0 → exec (con o) s = .next ({ u with cur := { u.cur with vstart := 0 } } : State).completed) ∧
      (c.vl ≠ 0 → r.stop = none → ∃ h, exec (con o) s = .next ({ u with cur := h } : State).completed ∧
        Spec.FirstWritten u.cur c o (if pair then [hi, lo] else hi :: u.cur.copyDest hi)
          { val := r.val, lo := r.err, flags := r.flags } h) ∧
      (∀ i, c.vl ≠ 0 → r.stop = some i → exec (con o) s = .next (s.start.trapWord (encode (con o))
        { cause := 0x0F, tval := BitVec.ofNat 64 i, vec := true, held := a.held } { u with cur := u.cur.raise r.flags })))

/-- R53 to R56, R145 to R147: the reductions. -/
def Spec.VectorReductions : Prop :=
  Spec.Reduction .vredsum 0 [0, 1, 2, 3] false false ∧ Spec.Reduction .vredmax 1 [0, 1, 2, 3] false false ∧
  Spec.Reduction .vredmin 2 [0, 1, 2, 3] false false ∧ Spec.Reduction .vfredo 3 [4, 5, 6] true false ∧
  Spec.Reduction .vfredt 4 [4, 5, 6] true false ∧ Spec.Reduction .vfredc 5 [4] true true ∧
  Spec.Reduction .vfredmax 6 [4, 5, 6] false false ∧ Spec.Reduction .vfredmin 7 [4, 5, 6] false false

/-- The tree of R54 on 2^n values. -/
def Spec.tree (f : FFmt) (mode : Nat) : (n : Nat) → (Nat → Nat) → Nat
  | 0, y => y 0
  | n + 1, y => Spec.tree f mode n (fun i => (faddF f mode (y i) (y (i + 2 ^ n))).1)

/-- The compensated sum of R55: the running sum, and the sum of what its steps left. -/
def Spec.compensated (mode : Nat) (xs : List Nat) (start : Nat × Nat) : Nat × Nat :=
  xs.foldl (fun p x => ((twoSum mode p.1 x).1, (faddF fp32 mode p.2 (twoSum mode p.1 x).2.1).1)) start

/-- R53 to R55, R146: what the reductions give: the start value with each active element in turn, the tree sum, the compensated sum; an inactive
element of the three FP sums counts as −0. -/
def Spec.ReductionValues : Prop :=
  ∀ (w : Nat) (f : FFmt) (mode init : Nat) (xs : List (Option Nat)),
    let ys := xs.filterMap id
    (vredN 0 w f mode 0 init xs).val = ys.foldl (fun a b => (a + b) % 2 ^ w) init ∧
    (vredN 1 w f mode 0 init xs).val = ys.foldl (fun a b => if sintN w a < sintN w b then b else a) init ∧
    (vredN 2 w f mode 0 init xs).val = ys.foldl (fun a b => if sintN w b < sintN w a then b else a) init ∧
    (vredN 3 w f mode 0 init xs).val = xs.foldl (fun a x => (faddF f mode a (x.getD (2 ^ (f.w - 1)))).1) init ∧
    (vredN 3 w f mode 0 init xs).stop = none ∧
    (let x (i : Nat) : Nat := ((xs.getD i none).getD (2 ^ (f.w - 1)))
     ∀ n, xs.length ≤ 2 ^ n → (∀ m, m < n → 2 ^ m < xs.length) → (vredN 4 w f mode 0 init xs).val = (faddF f mode init (Spec.tree f mode n x)).1) ∧
    (let p := Spec.compensated mode (xs.map (fun x => x.getD 0x80000000)) (init, 0x80000000)
     (vredN 5 w f mode 0 init xs).val = (twoSum mode p.1 p.2).1 ∧ (vredN 5 w f mode 0 init xs).err = (twoSum mode p.1 p.2).2.1) ∧
    (ys ≠ [] → (vredN 6 w f mode 0 init xs).val = ys.foldl (fun a b => (minMaxNum f true a b).1) init ∧
      (vredN 7 w f mode 0 init xs).val = ys.foldl (fun a b => (minMaxNum f false a b).1) init)

/-- The reductions (R53, R54, R55, R56, R145, R146, R147). -/
def Obligations.VectorReduces : Prop := Spec.VectorReductions ∧ Spec.ReductionValues

/-- The shape of a permute: groups of any format, in 1D only. -/
def Spec.permShape (n1 n2 : VCtx → Nat) (bad : VOp → VCtx → Bool) (o : VOp) (c : VCtx) : Shape :=
  { formats := List.range 13, n1 := n1 c, n2 := n2 c, nd := c.g, flat := true, clash := bad o c }

/-- The hart as such an instruction reads its sources, its destination of width w: issued again after a stop, it finds the elements below
`vstart` that it has written as they were when it began (R66, R170). -/
def Spec.begun (h : Hart) (o : VOp) (c : VCtx) (w : Nat) : Hart :=
  let d : Dest := { base := o.vd.toNat, regs := c.g, width := w, pick := fun r => r.val }
  h.asIssued (d :: h.copyDest d)

/-- R66, R170: what an instruction that is issued again reads: as its hart stands when it was not stopped; else of each destination the elements
below `vstart` as the registers held them when it began, the others, and every other register, as they stand. -/
def Spec.SourcesKept : Prop :=
  (∀ (h : Hart) (ds : List Dest), (∀ e, h.reissue = some e → e.old = none) → h.asIssued ds = h) ∧
  (∀ (h : Hart) (d : Dest) (e : VEntry) (old : Vector (BitVec 4096) 32), h.reissue = some e → e.old = some old → d.base + d.regs ≤ 32 →
    0 < d.width → h.regBits % d.width = 0 → h.regBits ≤ 4096 →
    let t := h.asIssued [d]
    (∀ i, (i + 1) * d.width ≤ d.regs * h.regBits → elemN (t.groupN d.base d.regs) d.width i =
      if i < h.vstart.toNat then elemN (({ h with v := old } : Hart).groupN d.base d.regs) d.width i else elemN (h.groupN d.base d.regs) d.width i) ∧
    (∀ k, k < 32 → overlap k 1 d.base d.regs = false → t.rv k = h.rv k) ∧ t.x = h.x ∧ t.vstart = h.vstart ∧ t.vtype = h.vtype)

/-- A permute of the elements of vs1 (R170). -/
def Spec.Permute (con : VOp → Instr) (n2 : VCtx → Nat) (kept : Hart → VOp → VCtx → Nat → Bool)
    (f : Hart → VOp → VCtx → (Nat → Nat) → Nat → Nat) : Prop :=
  Spec.VectorFrom con (Spec.permShape (fun c => c.g) n2 (fun _ _ => false)) (fun s o c => s.src1 o c c.w c.g (Spec.begun s.cur o c c.w)) id
    (fun _ c => c.w) kept (fun h o c e i => .of (f h o c e i))

/-- The amount of a slide (R171): imm5 or an x register. -/
def Spec.slide (h : Hart) (o : VOp) : Nat := if o.i then o.vs2.toNat else (h.ox o.vs2).toNat

/-- The positions below the strip's element count whose governing bit is 1 (R171). -/
def Spec.chosen (c : VCtx) (n : Nat) : List Nat := (List.range (min n (c.vl - c.vpad))).filter c.gov

/-- R171: the slides, VPERMV, VEXPAND, VMERGE, VID and VIOTA; VCOMPRESS packs the elements whose governing bit is 1 and fills the rest
of the strip as inactive.  That VCOMPRESS and VEXPAND read vs1 as elements with v0 as the selection, and that q = 1 is refused on VIOTA and
VCOMPRESS, is the model's reading (log 31). -/
def Spec.PermuteInstructions : Prop :=
  Spec.Permute .vslideup (fun _ => 0) (fun h o _ i => i < Spec.slide h o) (fun h o _ e i => e (i - Spec.slide h o)) ∧
  Spec.Permute .vslidedn (fun _ => 0) Spec.keepsNone (fun h o c e i => if i + Spec.slide h o < c.vlmax then e (i + Spec.slide h o) else 0) ∧
  Spec.Permute .vslide1up (fun _ => 0) Spec.keepsNone (fun h o _ e i => if i = 0 then (h.ox o.vs2).toNat else e (i - 1)) ∧
  Spec.Permute .vslide1dn (fun _ => 0) Spec.keepsNone
    (fun h o c e i => if i + 1 < c.vl - c.vpad then e (i + 1) else (h.ox o.vs2).toNat) ∧
  Spec.Permute .vpermv (fun c => c.g) Spec.keepsNone
    (fun h o c e i => if e i < c.vlmax then Spec.other (Spec.begun h o c c.w) o.vs2 c (e i) else 0) ∧
  Spec.VectorFrom .vexpand (Spec.permShape (fun c => c.g) (fun _ => 0) (fun _ _ => false))
    (fun s o c => if o.q
      then (s.takeQ (o.vs1.toNat % 8) (Spec.chosen c (c.vl - c.vpad)).length c.w
        (fun j => (Spec.chosen c (c.vl - c.vpad)).getD j 0)).map
          (fun r => ({ elem := heldVal r.1.1, held := some r.1.1, limit := r.1.2 }, r.2))
      else some ({ elem := fun j => Spec.other (Spec.begun s.cur o c c.w) o.vs1 c j }, s))
    id (fun _ c => c.w) Spec.keepsNone (fun _ _ c e i => .of (e (Spec.chosen c i).length)) ∧
  Spec.VectorFrom .vmerge
    (fun o c => { formats := List.range 13, n1 := c.g, n2 := c.g, nd := c.g, clash := !o.m || o.ma })
    (fun s o c => s.src1 o c c.w c.g) (fun c => { c with masked := false }) (fun _ c => c.w) Spec.keepsNone
    (fun h o c e i => .of (if c.mask.testBit i then e i else Spec.other h o.vs2 c i)) ∧
  Spec.VectorFrom .vid (fun _ c => { formats := List.range 13, n1 := 0, n2 := 0, nd := c.g })
    (fun s _ _ => some ({ elem := fun _ => 0 }, s)) id (fun _ c => c.w) Spec.keepsNone (fun _ _ _ _ i => .of i) ∧
  Spec.VectorFrom .viota (Spec.permShape (fun _ => 1) (fun _ => 0) (fun o _ => o.q))
    (fun s _ _ => some ({ elem := fun _ => 0 }, s)) id (fun _ c => c.w) Spec.keepsNone
    (fun h o c _ i => .of ((Spec.chosen c i).filter (fun j => ((Spec.begun h o c c.w).vN o.vs1.toNat).testBit j)).length) ∧
  (∀ (o : VOp) (s : State), (Instr.vcompress o).wf = true → Executes s → s.cur.lane = none → s.cur.dropping = false →
    let c := s.cur.vctx o.m
    let k := Spec.permShape (fun c => c.g) (fun _ => 0) (fun o c => c.vstart != 0 || o.q) o c
    let all := Spec.chosen c (c.vl - c.vpad)
    let d : Dest := { base := o.vd.toNat, regs := c.g, width := c.w, pick := fun r => r.val }
    (vCheck s.cur o c k = false → exec (.vcompress o) s =
      .next (s.start.trapWord (encode (.vcompress o)) { cause := 1, tval := 0, vec := true } s.start)) ∧
    (vCheck s.cur o c k = true → ∃ h, exec (.vcompress o) s = .next ({ s.start with cur := h } : State).completed ∧
      ElementsWritten s.cur { c with masked := true, mask := 2 ^ all.length - 1 } { ta := o.ta, ma := o.ma } (d :: s.cur.copyDest d)
        (fun _ => false) (fun i => .of (Spec.other s.cur o.vs1 c (all.getD i 0))) h))

/-- The permutes (R66, R170, R171). -/
def Obligations.VectorPermutes : Prop := Spec.SourcesKept ∧ Spec.PermuteInstructions

/-- R172: VMOVE copies elements, VSPLAT writes an x register to every active element, VMVXS gives xd element 0 (sign-extended for the
integer formats, whatever vl and `vstart` hold), and VMVSX writes element 0, with every other position tail. -/
def Obligations.VectorMoves : Prop :=
  Spec.VectorOp .vmove (fun _ c => { formats := List.range 13, n1 := c.g, n2 := 0, nd := c.g }) (fun c => c.w) (fun c => c.w)
    Spec.keepsNone (fun _ _ _ e i => .of (e i)) ∧
  Spec.VectorOp .vsplat (fun _ c => { formats := List.range 13, n1 := 0, n2 := 0, nd := c.g }) (fun c => c.w) (fun c => c.w)
    Spec.keepsNone (fun h o _ _ _ => .of (h.ox o.vs2).toNat) ∧
  (∀ (o : VOp) (s : State), (Instr.vmvxs o).wf = true → Executes s → s.cur.lane = none → s.cur.dropping = false →
    let c := s.cur.vctx false
    let src := s.start.src1 o c c.w c.g
    let ok := pfxFits s.cur.pfx {} = true ∧ (o.q = true ∨ o.vs1.toNat % c.g = 0)
    (¬ ok ∨ src = none → exec (.vmvxs o) s =
      .next (s.start.trapWord (encode (.vmvxs o)) { cause := 1, tval := 0, vec := true } s.start)) ∧
    (∀ a u, ok → src = some (a, u) → a.limit = none → u.blocked = none → u.cur.strikes = [] →
      let x := if c.fmt < 4 then BitVec.ofInt 64 (sintN c.w (a.elem 0)) else BitVec.ofNat 64 (a.elem 0)
      let h : Hart := { u.cur with vstart := 0 }
      exec (.vmvxs o) s = .next ({ u with cur := h.wx o.vd x } : State).completed)) ∧
  (∀ (o : VOp) (s : State), (Instr.vmvsx o).wf = true → Executes s → s.cur.lane = none → s.cur.dropping = false →
    let c := s.cur.vctx o.m
    let k : Shape := { formats := List.range 13, n1 := 0, n2 := 0, nd := c.g }
    let d : Dest := { base := o.vd.toNat, regs := c.g, width := c.w, pick := fun r => r.val }
    let one : VCtx := { c with twoD := false, vl := min c.vl 1, vpad := if c.granted 0 then 0 else 1 }
    (vCheck s.cur o c k = false → exec (.vmvsx o) s =
      .next (s.start.trapWord (encode (.vmvsx o)) { cause := 1, tval := 0, vec := true } s.start)) ∧
    (vCheck s.cur o c k = true → ∃ h, exec (.vmvsx o) s = .next ({ s.start with cur := h } : State).completed ∧
      ElementsWritten s.cur one { ta := o.ta, ma := o.ma } (d :: s.cur.copyDest d) (fun _ => false)
        (fun _ => .of (s.cur.ox o.vs2).toNat) h))

/-- The bytes a transformation reads: `n` bytes of a queue, or the bytes of the registers from vs1 upward (R175). -/
def Spec.bytesOf (n : VOp → VCtx → Nat) (place : VOp → Nat → Nat) (s : State) (o : VOp) (c : VCtx) : Option (Src × State) :=
  if o.q then (s.takeQ (o.vs1.toNat % 8) (n o c) 8 (place o)).map
    (fun r => ({ elem := heldVal r.1.1, held := some r.1.1, limit := r.1.2 }, r.2))
  else some ({ elem := fun j => elemN ((Spec.begun s.cur o c c.w).groupN o.vs1.toNat (max c.g ((n o c + 32 * c.lanes - 1) / (32 * c.lanes)))) 8 j }, s)

/-- R175: VUNPK reads fields of 4, 8 or 16 bits from a byte string, VPACK writes them, VLUT looks each byte up in vs2.  That q = 1
on VPACK is refused, and VLUT where its bytes or its table would pass v31, is the model's reading (log 31). -/
def Obligations.VectorTransforms : Prop :=
  Spec.VectorFrom .vunpk
    (fun o c => { formats := [0, 1, 2, 3], n1 := c.g, n2 := 0, nd := c.g, flat := true, clash := c.w ≤ o.vs2.toNat })
    (Spec.bytesOf (fun o c => ((c.vl - c.vpad) * o.vs2.toNat + 7) / 8) (fun o j => 8 * j / o.vs2.toNat)) id (fun _ c => c.w) Spec.keepsNone
    (fun _ o _ e i => .of (if o.vs2 = 4 then e (i / 2) / 16 ^ (i % 2) % 16 else if o.vs2 = 8 then e i else e (2 * i) + 256 * e (2 * i + 1))) ∧
  Spec.VectorFrom .vpack
    (fun o c => { formats := [0, 1, 2, 3], n1 := c.g, n2 := 0, nd := c.g, flat := true, clash := decide (c.w ≤ o.vs2.toNat) || o.q })
    (fun s _ _ => some ({ elem := fun _ => 0 }, s)) id (fun o _ => o.vs2.toNat) Spec.keepsNone
    (fun h o c _ i => .of (Spec.other (Spec.begun h o c o.vs2.toNat) o.vs1 c i)) ∧
  Spec.VectorFrom .vlut
    (fun o c => { formats := List.range 13, n1 := c.g, n2 := c.g, nd := c.g, flat := true,
                  clash := !o.q && decide (32 * (32 * c.lanes) < o.vs1.toNat * (32 * c.lanes) + (c.vl - c.vpad)) })
    (Spec.bytesOf (fun _ c => c.vl - c.vpad) (fun _ j => j)) id (fun _ c => c.w) Spec.keepsNone
    (fun h o c e i => .of (if e i < c.vlmax then Spec.other (Spec.begun h o c c.w) o.vs2 c (e i) else 0))

/-! ### VBENC (R152) -/

/-- The scale word of the block of element i: of the FP32 values of its granted elements (R43, R47, R152). -/
def Spec.scaleOf (c : VCtx) (get : Nat → Nat) (i : Nat) : Nat :=
  blockScale c.fmt (((List.range c.blk).map (fun j => i / c.blk * c.blk + j)).filter c.granted |>.map (fun j => readF fp32 (get j)))

/-- What VBENC makes of element i: the code of its value under the block's scale, 0 for a padding element; an element of an MX block that
holds a NaN has a free value (log 22). -/
def Spec.encodedElement (u : State) (c : VCtx) (get : Nat → Nat) (i : Nat) : ERes :=
  if c.granted i then encodeElem c.fmt (Spec.scaleOf c get i) ((Config.freeWord (u.freeCount + i)).toNat % 2 ^ c.w) (readF fp32 (get i))
  else .of 0

/-- R152: VBENC writes the codes of the strip's blocks to vd and their scale words to vd + g; a block beyond the strip is tail. -/
def Spec.BlockEncode : Prop :=
  ∀ (o : VOp) (s : State), (Instr.vbenc o).wf = true → Executes s → s.cur.lane = none → s.cur.dropping = false →
    let c := s.cur.vctx o.m
    let g := c.g
    let n := 32 / c.w * g
    let d := o.vd.toNat
    let k : Shape := { formats := [9, 10, 11, 12], n1 := n, n2 := 0, nd := g,
                       clash := n > 8 || (!o.q && overlap d (2 * g) o.vs1.toNat n) || d % (2 * g) != 0 || c.vstart % c.blk != 0 ||
                         (o.e && overlap ((pfxEmask s.cur.pfx).getD 31) 1 d (2 * g)) }
    let src := s.start.src1 o c 32 n
    (vCheck s.cur o c k = false ∨ src = none →
      exec (.vbenc o) s = .next (s.start.trapWord (encode (.vbenc o)) { cause := 1, tval := 0, vec := true } s.start)) ∧
    (∀ a u, vCheck s.cur o c k = true → src = some (a, u) → a.limit = none → u.blocked = none → u.cur.strikes = [] → c.vl ≠ 0 →
      let count := g * (256 * c.lanes / c.w)
      let whole := count / c.blk * c.blk
      let code := Spec.encodedElement u c a.elem
      let first (i : Nat) : Nat := i / c.blk * c.blk
      let beyond (i : Nat) : Prop := (c.queuePlace (first i)).isNone = true
      let tail (w old : Nat) : Nat := if o.ta then 2 ^ w - 1 else old
      (∀ i, i < whole → c.vstart ≤ first i → ¬ beyond i → (code i).flags &&& u.cur.enabled = 0) →
      ∃ h, exec (.vbenc o) s = .next ({ u with freeCount := u.freeCount + count, cur := h } : State).completed ∧
        h = { u.cur with v := h.v, dirty := h.dirty, vxflags := h.vxflags, vstart := 0 } ∧
        (∀ b, b = d ∨ (pfxCopy u.cur.pfx = some b ∧ b ≠ d + g) → ∀ i, i < count →
          let old := elemN (u.cur.groupN b g) c.w i
          elemN (h.groupN b g) c.w i =
            if whole ≤ i ∨ first i < c.vstart then old else if beyond i then tail c.w old else (code i).val % 2 ^ c.w) ∧
        (∀ j, j < g * (256 * c.lanes / 32) →
          let old := elemN (u.cur.groupN (d + g) g) 32 j
          elemN (h.groupN (d + g) g) 32 j =
            if count / c.blk ≤ j then tail 32 old else if j * c.blk < c.vstart then old
            else if beyond (j * c.blk) then tail 32 old else Spec.scaleOf c a.elem (j * c.blk) % 2 ^ 32) ∧
        (o.e = true → ∀ i, i < 256 * c.lanes →
          let m := (pfxEmask u.cur.pfx).getD 31
          let old := elemN (u.cur.groupN m 1) 1 i
          elemN (h.groupN m 1) 1 i =
            if whole ≤ i then tail 1 old else if first i < c.vstart then old
            else if beyond i ∨ c.granted i = false then tail 1 old else if (code i).flags &&& u.cur.sel ≠ 0 then 1 else 0) ∧
        (∀ r, r < 32 → (r < d ∨ d + 2 * g ≤ r) → (∀ b, pfxCopy u.cur.pfx = some b → r < b ∨ b + g ≤ r) →
          (o.e = true → r ≠ (pfxEmask u.cur.pfx).getD 31) → h.rv r = u.cur.rv r) ∧
        (∀ b, b < 64 → (h.vxflags.getLsbD b = true ↔ u.cur.vxflags.getLsbD b = true ∨
          ∃ i, i < whole ∧ c.vstart ≤ first i ∧ ¬ beyond i ∧ (code i).flags.testBit b = true)))

/-- Conversions and block formats (R149, R150, R151, R152). -/
def Obligations.VectorConverts : Prop := Spec.VectorConversions ∧ Spec.BlockEncode

/-! ## Vector memory (R154 to R169) -/

/-- Where element i of a strip lies (R154): its offset in bytes, or in nibbles of a 4-bit format. -/
def Spec.elementOffset (f : VForm) (h : Hart) (c : VCtx) (idx : Reg) (i : Nat) : Int :=
  let s := h.ox idx
  let unit : Int := if c.w = 4 then 1 else (c.w / 8 : Nat)
  let row : Int := (i / 64 : Nat)
  let col : Int := (i % 64 : Nat)
  match f with
  | .unit => if c.twoD then (row * c.vl + col) * unit else i * unit
  | .strided =>
    if c.twoD then row * (s.setWidth 32).toInt + col * (if s.toNat / 2 ^ 32 = 0 then unit else (s.extractLsb' 32 32).toInt)
    else i * s.toInt
  | .indexed => (elemN (h.groupN idx.toNat (max 1 (32 / c.w) * c.g)) (if c.w = 64 then 64 else 32) i : Nat)

/-- R154: the address of an element; for a 4-bit format the byte of its nibble, and which nibble. -/
def Spec.ElementAddresses : Prop :=
  ∀ (f : VForm) (h : Hart) (c : VCtx) (base idx : Reg) (i : Nat),
    let p := f.place h c base idx i
    let off := Spec.elementOffset f h c idx i
    (c.w ≠ 4 → p.addr = h.ox base + BitVec.ofInt 64 off) ∧
    (c.w = 4 → p.addr = h.ox base + BitVec.ofInt 64 (off / 2) ∧ (p.high = true ↔ off % 2 = 1))

/-- An element is read: its address is a multiple of its bytes, the access delivers its value with nothing to wait for, and no watchpoint
matches (R156). -/
def Spec.Reads (st : Stream) (w : Nat) (p : Place) (n : Nat) (s : State) (x : Nat) (t : State) (lane : Option Nat := none) : Prop :=
  (8 ≤ w → p.addr.toNat % n = 0) ∧ t.watched t.cur.sctx .read p.addr n lane = none ∧
  ∃ key, s.reach p.addr n .read .plain lane = (.ok key, t) ∧ t.poisonIn key n = false ∧
    let y := leNat (t.viewBytes st key n)
    x = if w = 4 then (if p.high then y / 16 else y % 16) else y

/-- A chained load of one element (R160, R257): LD.CLR, which counts as a write, leaves zero and returns the old bits, LD.SQ returns their square, LD.ABS clears their
sign. -/
def Spec.Chains (chain : Nat) (p : Place) (n : Nat) (s : State) (x : Nat) (t : State) : Prop :=
  p.addr.toNat % n = 0 ∧ ∃ key t0, s.reach p.addr n (if chain = 6 then .write else .read) .chain = (.ok key, t0) ∧ t0.watched t0.cur.sctx .atomic p.addr n = none ∧
    t0.poisonIn key n = false ∧
    let old := leNat (Memory.getList t0.mem key n)
    x = (if chain = 6 then old else if chain = 7 then (fmulF fp32 0 old old).1 else old % 2 ^ 31) ∧
    t = { t0 with mem := Memory.setList t0.mem key (leBytes n (if chain = 6 then 0 else old)) }

/-- Elements appended to a queue (R161): in the order of R387, an element that is masked off as zero, or all ones with ma; positions below
`vstart` that no earlier attempt appended have free values (log 24). -/
def Spec.appended (u : State) (c : VCtx) (ma fresh : Bool) (vals : List (Nat × Nat)) : List QElem :=
  (List.range c.count).filterMap (fun j =>
    if c.place j < c.vstart then
      (if fresh then some { width := c.w, val := (Config.freeWord (u.freeCount + j)).toNat % 2 ^ c.w } else none)
    else some { width := c.w, val := if c.gov (c.place j) then look 0 vals (c.place j) % 2 ^ c.w else if ma then 2 ^ c.w - 1 else 0 })

/-- The state with `vstart` 0. -/
def Spec.restarted (s : State) : State := { s with cur := { s.cur with vstart := 0 } }

/-- A vector load through an address form (R154 to R157, R160, R161): refused by checks 3 and 4; with every accessed element read, it
completes, its destination group written under R134 with a padding element loaded as if active; a load into a queue appends its
elements to it and writes no v register, a copy register of the prefix neither (R59).  That an odd stride's trap gives the stride as tval is log
37. -/
def Spec.Load (con : VLOp → Instr) (f : VForm) (chains : List Nat) : Prop :=
  ∀ (o : VLOp) (s : State), Executes s → s.cur.lane = none → s.cur.dropping = false →
    let h0 := s.cur
    let c := (s.cur.vctx o.m).padded
    let chain := pfxChain s.cur.pfx
    let n := max 1 (c.w / 8)
    let s0 := if chain = 0 then s.start else s.start.bankTurn
    let st : Stream := if o.q then .q (BitVec.ofNat 3 o.reg.toNat) else .vector
    let place (i : Nat) : Place := f.place s.cur c o.base o.idx i
    let target : Option (List QElem) := match s.cur.rq o.reg.toNat with
      | .unbound => some []
      | .target items => some items
      | _ => none
    let fresh := s.cur.reissue.isNone && c.vstart != 0
    let more := if s.cur.reissue.isSome then ((List.range c.count).filter (fun j => c.vstart ≤ c.place j)).length else c.count
    let room : Prop := o.q = true → ∃ items, target = some items ∧ items.length + more ≤ 2 * s.cur.vlmax.toNat
    let ok : Prop := loadCheck s.cur o c c.g (f.idxRegs c) chains = true ∧ room
    let d : Dest := { base := o.reg.toNat, regs := c.g, width := c.w, pick := fun r => r.val }
    (¬ ok → exec (con o) s = .next (s.start.trapWord (encode (con o)) { cause := 1, tval := 0, vec := true } s.start)) ∧
    (∀ x, ok → f.badStride s.cur c o.idx = some x →
      exec (con o) s = .next (s.start.trapWord (encode (con o)) { cause := 0x0A, tval := x, vec := true } s.start)) ∧
    (∀ vals u, ok → f.badStride s.cur c o.idx = none →
      InOrder (fun s i x t => if chain = 0 then Spec.Reads st c.w (place i) n s x t (f.lane h0 c i) else Spec.Chains chain (place i) n s x t)
        c.touched s0 vals u → u.blocked = none → u.cur.strikes = [] →
      (o.q = false → ∃ h, exec (con o) s = .next ({ u with cur := h } : State).completed ∧
        ElementsWritten u.cur c { ta := o.ta, ma := o.ma } (d :: u.cur.copyDest d) (fun _ => false) (fun i => .of (look 0 vals i)) h) ∧
      (o.q = true → (∀ j, j < c.count → c.place j < c.size ∧ c.granted (c.place j) = true) → ∀ items, target = some items →
        exec (con o) s = .next (Spec.restarted ({ u with
            freeCount := if fresh then u.freeCount + c.count else u.freeCount,
            cur := u.cur.wq o.reg.toNat (.target (items ++ Spec.appended u c o.ma fresh vals)) } : State)).completed))

/-- The frame offset of 32-bit slot `slot` of register r of a spilled group (R168). -/
def Spec.frameAt (c : VCtx) (r slot : Nat) : Nat :=
  4 * (slot % c.lanes * ((c.vlmax * c.w + 32 * c.lanes - 1) / (32 * c.lanes)) + r * 8 + slot / c.lanes)

/-- The register, the slot and the bit in it where element i of a group lies (R168). -/
def Spec.frameReg (c : VCtx) (i : Nat) : Nat := i / (256 * c.lanes / c.w)
def Spec.frameBit (c : VCtx) (i : Nat) : Nat := i % (256 * c.lanes / c.w) * c.w

/-- The bytes of element i in a spill frame: where each part lies, and how many it has; an INT64 element has two. -/
def Spec.frameParts (c : VCtx) (i : Nat) : List (Nat × Nat) :=
  let bit := Spec.frameBit c i
  if c.w = 64 then [(Spec.frameAt c (Spec.frameReg c i) (bit / 32), 4), (Spec.frameAt c (Spec.frameReg c i) (bit / 32 + 1), 4)]
  else [(Spec.frameAt c (Spec.frameReg c i) (bit / 32) + bit % 32 / 8, max 1 (c.w / 8))]

/-- R154 to R161, R169: the vector loads, VLDB with the scales of its blocks, and VFILL from a spill frame.  That VLDB is refused under a vtype that is
no block format, and leaves the scale words of blocks it does not touch, is the model's reading (log 56), as is what an odd stride reports (log 37). -/
def Spec.VectorLoads : Prop :=
  Spec.Load .vld .unit [6, 7, 8] ∧ Spec.Load .vlds .strided [6, 7, 8] ∧ Spec.Load .vldx .indexed [] ∧
  (∀ (o : VLOp) (s : State), (Instr.vldb o).wf = true → Executes s → s.cur.lane = none → s.cur.dropping = false →
    let c := (s.cur.vctx o.m).padded
    let m := if c.fmt = 9 then 4 else 1
    let d : Dest := { base := o.reg.toNat, regs := c.g, width := c.w, pick := fun r => r.val }
    let ok : Prop := 9 ≤ c.fmt ∧ c.fmt ≤ 12 ∧ loadCheck s.cur o c (2 * c.g) 0 [] = true
    let acc (s0 : State) (i : Nat) (x : Nat × Option Nat) (t : State) : Prop := ∃ t1,
      (if c.leads i then ∃ z, Spec.Reads .vector 8 { addr := s.cur.ox o.idx + BitVec.ofNat 64 (m * c.blockNo i), high := false } m s0 z t1 ∧
          (readScale c.fmt z).isSome = true ∧ x.2 = some z
        else t1 = s0 ∧ x.2 = none) ∧
      Spec.Reads .vector c.w (VForm.unit.place s.cur c o.base o.idx i) (max 1 (c.w / 8)) t1 x.1 t
    (¬ ok → exec (.vldb o) s = .next (s.start.trapWord (encode (.vldb o)) { cause := 1, tval := 0, vec := true } s.start)) ∧
    (∀ vals u, ok → InOrder acc c.touched s.start vals u → u.blocked = none → u.cur.strikes = [] →
      ∃ h0 h, exec (.vldb o) s = .next ({ u with cur := h } : State).completed ∧
        h0 = { u.cur with v := h0.v, dirty := h0.dirty } ∧
        (∀ k, k < c.g * (256 * c.lanes / 32) → elemN (h0.groupN (o.reg.toNat + c.g) c.g) 32 k =
          match vals.find? (fun r => r.2.2.isSome && c.blockNo r.1 == k) with
          | some r => r.2.2.getD 0 % 2 ^ 32
          | none => elemN (u.cur.groupN (o.reg.toNat + c.g) c.g) 32 k) ∧
        (∀ r, r < 32 → (r < o.reg.toNat + c.g ∨ o.reg.toNat + 2 * c.g ≤ r) → h0.rv r = u.cur.rv r) ∧
        ElementsWritten h0 c { ta := o.ta, ma := o.ma } (d :: h0.copyDest d) (fun _ => false)
          (fun i => .of (look 0 (vals.map (fun r => (r.1, r.2.1))) i)) h)) ∧
  (∀ (o : VLOp) (s : State), PlainHart s → s.cur.dropping = false →
    let c := { s.cur.vctx o.m with vpad := 0 }
    let b := s.cur.ox o.base
    let ok : Prop := fmtNamed o c = true ∧ o.reg.toNat % c.g = 0 ∧ o.reg.toNat + c.g ≤ 32 ∧ (o.m = true → o.reg ≠ 0)
    let d : Dest := { base := o.reg.toNat, regs := c.g, width := c.w, pick := fun r => r.val }
    let part (p : Nat × Nat) (s : State) (x : Nat) (t : State) : Prop :=
      Spec.Reads .vector 0 { addr := b + BitVec.ofNat 64 p.1, high := false } p.2 s x t
    let acc (s : State) (i : Nat) (x : Nat) (t : State) : Prop := match Spec.frameParts c i with
      | [p, q] => ∃ t1 y z, part p s y t1 ∧ part q t1 z t ∧ x = y + 2 ^ 32 * z
      | ps => ∃ y, part (ps.headD (0, 1)) s y t ∧ x = if c.w = 4 then (if i % 2 = 1 then y / 16 else y % 16) else y
    (¬ ok → exec (.vfill o) s = .next (s.start.trapWord (encode (.vfill o)) { cause := 1, tval := 0, vec := true } s.start)) ∧
    (ok → b.toNat % 4 ≠ 0 →
      exec (.vfill o) s = .next (s.start.trapWord (encode (.vfill o)) { cause := 4, tval := b, vec := true } s.start)) ∧
    (∀ vals u, ok → b.toNat % 4 = 0 → InOrder acc c.touched s.start vals u → u.blocked = none → u.cur.strikes = [] →
      ∃ h, exec (.vfill o) s = .next ({ u with cur := h } : State).completed ∧
        ElementsWritten u.cur c {} [d] (fun _ => false) (fun i => .of (look 0 vals i)) h))

/-- Vector loads and the addresses of their elements (R154, R155, R156, R157, R158, R159, R160, R161, R169). -/
def Obligations.VectorLoading : Prop := Spec.ElementAddresses ∧ Spec.VectorLoads

/-- An element's home is reached for a write, with nothing to wait for and no watchpoint of the hart's own matched (R156). -/
def Spec.Writes (need : ANeed) (wk : WKind) (w : Nat) (p : Place) (n : Nat) (s : State) (x : Nat × Bool) (t : State)
    (lane : Option Nat := none) : Prop :=
  (8 ≤ w → p.addr.toNat % n = 0) ∧ s.reach p.addr n .write need lane = (.ok x.1, t) ∧ t.ownMatch t.cur.sctx wk p.addr n = none ∧ x.2 = p.high

/-- The accesses of stored elements in their order: the bytes of each element, lowest address first; of a 4-bit format the nibbles, both
nibbles of a byte as one access (R157). -/
def Spec.elementWrites (w : Nat) (data : Nat → Nat) (rs : List (Nat × Nat × Bool)) : List PAct :=
  if w = 4 then storeActs 4 data rs else rs.map (fun r => .write (plainBytes r.2.1 (leBytes (w / 8) (data r.1))))

/-- The state with accesses queued in a stream. -/
def Spec.queued (s : State) (st : Stream) (acts : List PAct) : State := acts.foldl (fun s a => s.queueStore st a) s


/-- The state with the accesses of stored elements queued: in a stream, or, when they are chained, in the bank stream as
read-modify-writes (R159, R160). -/
def Spec.stored (s : State) (chain : Nat) (st : Stream) (w : Nat) (data : Nat → Nat) (rs : List (Nat × Nat × Bool)) : State :=
  if chain = 0 then Spec.queued s st (Spec.elementWrites w data rs)
  else Spec.queued s .bank (rs.map (fun r => PAct.rmw
    (if chain = 1 then .addF else if chain = 2 then .maxF else if chain = 3 then .minF else if chain = 4 then .addI else .addBf)
    r.2.1 (data r.1)))

/-- A vector store through an address form (R154 to R157, R160): with every accessed element's home reached it queues the elements'
accesses, in the vector stream, or in the bank stream as read-modify-writes when it is chained, and completes. -/
def Spec.Store (con : VLOp → Instr) (f : VForm) (chains : List Nat) : Prop :=
  ∀ (o : VLOp) (s : State), o.q = false → Executes s → s.cur.lane = none → s.cur.dropping = false →
    let c := s.cur.vctx o.m
    let chain := pfxChain s.cur.pfx
    let n := max 1 (c.w / 8)
    let ok := storeCheck s.cur o c o.reg.toNat c.g (f.idxRegs c) chains = true
    let data := fun i => elemN (s.cur.groupN o.reg.toNat c.g) c.w i
    (¬ ok → exec (con o) s = .next (s.start.trapWord (encode (con o)) { cause := 1, tval := 0, vec := true } s.start)) ∧
    (∀ x, ok → f.badStride s.cur c o.idx = some x →
      exec (con o) s = .next (s.start.trapWord (encode (con o)) { cause := 0x0A, tval := x, vec := true } s.start)) ∧
    (∀ rs u, ok → f.badStride s.cur c o.idx = none →
      InOrder (fun s' i x t => Spec.Writes (if chain = 0 then .plain else .chain) (if chain = 0 then .write else .atomic) c.w
        (f.place s.cur c o.base o.idx i) n s' x t (f.lane s.cur c i)) c.touched s.start rs u → u.blocked = none → u.cur.strikes = [] →
      exec (con o) s = .next (Spec.restarted (Spec.stored u chain .vector c.w data rs)).completed)

/-- R154 to R160, R165, R169: the vector stores, VST to a bound stream, VSTB with the scale of every block it stores of, and VSPILL.  That VSTB is
refused under a vtype that is no block format is the model's reading (log 56), as is the tval of an odd stride's trap (log 37). -/
def Obligations.VectorStores : Prop :=
  Spec.Store .vst .unit [1, 2, 3, 4, 5] ∧ Spec.Store .vsts .strided [1, 2, 3, 4, 5] ∧ Spec.Store .vstx .indexed [] ∧
  (∀ (o : VLOp) (s : State), o.q = true → Executes s → s.cur.lane = none → s.cur.dropping = false →
    let c := s.cur.vctx o.m
    let q := o.reg.toNat
    let illegal := exec (.vst o) s = .next (s.start.trapWord (encode (.vst o)) { cause := 1, tval := 0, vec := true } s.start)
    ((∀ d pos, s.cur.rq q ≠ .store d pos) → illegal) ∧
    (∀ d pos, s.cur.rq q = .store d pos →
      let at_ (i : Nat) : Nat := pos + (c.queuePlace i).getD 0
      let chain := pfxChain s.cur.pfx
      let ok := storeCheck s.cur o c o.base.toNat c.g 0 [1, 2, 3, 4, 5] = true ∧ fmtWidth d.fmt = c.w
      (¬ ok → illegal) ∧
      (∀ rs u, ok → InOrder (fun s i x t => Spec.Writes (if chain = 0 then .plain else .chain) (if chain = 0 then .write else .atomic) 8 { addr := d.addr (at_ i), high := false } (c.w / 8) s x t)
          (c.touched.filter (fun i => at_ i < d.total)) s.start rs u → u.blocked = none → u.cur.strikes = [] →
        let t := Spec.stored u chain (.q (BitVec.ofNat 3 q)) c.w (fun i => elemN (s.cur.groupN o.base.toNat c.g) c.w i) rs
        exec (.vst o) s = .next (Spec.restarted
          { t with cur := t.cur.wq q (.store d (min d.total (pos + c.count))) }).completed))) ∧
  (∀ (o : VLOp) (s : State), Executes s → s.cur.lane = none → s.cur.dropping = false →
    let c := s.cur.vctx o.m
    let m := if c.fmt = 9 then 4 else 1
    let ok : Prop := 9 ≤ c.fmt ∧ c.fmt ≤ 12 ∧ storeCheck s.cur o c o.reg.toNat (2 * c.g) 0 [] = true
    let acc (s0 : State) (i : Nat) (x : (Nat × Bool) × Option Nat) (t : State) : Prop := ∃ t1,
      (if c.leads i then ∃ z, Spec.Writes .plain .write 8 { addr := s.cur.ox o.idx + BitVec.ofNat 64 (m * c.blockNo i), high := false } m s0 z t1 ∧
          x.2 = some z.1
        else t1 = s0 ∧ x.2 = none) ∧
      Spec.Writes .plain .write c.w (VForm.unit.place s.cur c o.base o.idx i) (max 1 (c.w / 8)) t1 x.1 t
    (¬ ok → exec (.vstb o) s = .next (s.start.trapWord (encode (.vstb o)) { cause := 1, tval := 0, vec := true } s.start)) ∧
    (∀ rs u, ok → InOrder acc c.touched s.start rs u → u.blocked = none → u.cur.strikes = [] →
      let scale (k : Nat) : Nat := elemN (s.cur.groupN (o.reg.toNat + c.g) c.g) 32 k
      exec (.vstb o) s = .next (Spec.restarted (Spec.queued
        (Spec.queued u .vector (Spec.elementWrites c.w (fun i => elemN (s.cur.groupN o.reg.toNat c.g) c.w i) (rs.map (fun r => (r.1, r.2.1)))))
        .vector (rs.filterMap (fun r => r.2.2.map (fun key => .write (plainBytes key (leBytes m (scale (c.blockNo r.1))))))))).completed)) ∧
  (∀ (o : VLOp) (s : State), PlainHart s → s.cur.dropping = false →
    let c := { s.cur.vctx o.m with vpad := 0 }
    let b := s.cur.ox o.base
    let ok : Prop := fmtNamed o c = true ∧ o.reg.toNat % c.g = 0 ∧ o.reg.toNat + c.g ≤ 32
    let x := s.cur.groupN o.reg.toNat c.g
    let part (p : Nat × Nat) (s : State) (key : Nat) (t : State) : Prop :=
      Spec.Writes .plain .write 0 { addr := b + BitVec.ofNat 64 p.1, high := false } p.2 s (key, false) t
    let bytes (key n v : Nat) : PAct := .write (plainBytes key (leBytes n v))
    let acc (s : State) (i : Nat) (l : List PAct) (t : State) : Prop := match Spec.frameParts c i with
      | [p, q] => ∃ t1 k k', part p s k t1 ∧ part q t1 k' t ∧
          l = [bytes k 4 (elemN x 64 i % 2 ^ 32), bytes k' 4 (elemN x 64 i / 2 ^ 32)]
      | ps => ∃ k, part (ps.headD (0, 1)) s k t ∧ l = [bytes k (ps.headD (0, 1)).2 (if c.w = 4 then elemN x 8 (i / 2) else elemN x c.w i)]
    (¬ ok → exec (.vspill o) s = .next (s.start.trapWord (encode (.vspill o)) { cause := 1, tval := 0, vec := true } s.start)) ∧
    (ok → b.toNat % 4 ≠ 0 →
      exec (.vspill o) s = .next (s.start.trapWord (encode (.vspill o)) { cause := 4, tval := b, vec := true } s.start)) ∧
    (∀ rs u, ok → b.toNat % 4 = 0 → InOrder acc c.touched s.start rs u → u.blocked = none → u.cur.strikes = [] →
      exec (.vspill o) s = .next (Spec.restarted (Spec.queued u .vector (rs.flatMap (fun r => r.2)))).completed))

/-! ## Matrix instructions (R178 to R183) -/

/-- The hart after an instruction that writes cells of one tile: `cell i j` gives the new value of row i, column j, or none for a cell it
leaves; every other tile and register is as before but for the tile's dirty bit, which is set when a cell is written (R27), the flags and
`vstart`. -/
def Spec.TileWritten (h : Hart) (tile : BitVec 3) (flags : Nat) (cell : Nat → Nat → Option Nat) (t : Hart) : Prop :=
  t = { h with tiles := t.tiles, dirty := t.dirty, vxflags := h.vxflags ||| BitVec.ofNat 64 flags, vstart := 0 } ∧
  (∀ i j, i < 64 → j < 64 → cell i j ≠ none → t.dirty = h.dirty ||| (1#64 <<< (32 + tile.toNat))) ∧
  ((∀ i j, i < 64 → j < 64 → cell i j = none) → t.dirty = h.dirty) ∧
  (∀ i j, i < 64 → j < 64 → tileCell (t.tile tile) (64 * i + j) =
    match cell i j with
    | some x => x % 2 ^ 32
    | none => tileCell (h.tile tile) (64 * i + j)) ∧
  (∀ u, u ≠ tile → t.tile u = h.tile u)

/-- What an outer product of these operands does: `a k i` and `b k j` are the elements of A and B.  INT8 adds the products of each cell's
row and column, wrapped; the other formats add the exact sum of products times the two latches, rounded once (R179).  A reserved code that
is read raises the block-code trap at the lowest element of A, else of B, and an enabled flag the trap 0x0F at the lowest cell, with no cell written. -/
def Spec.Outer (i : Instr) (s u : State) (tile : BitVec 3) (c : VCtx) (pair : BitVec 3) (a b : Nat → Nat → Nat) : Prop :=
  let n := c.vl - c.vpad
  let rows := (List.range n).filter c.gov
  let f := if pair = 1 then (7, 8) else if pair = 2 then (8, 7) else (c.fmt, c.fmt)
  let old (i j : Nat) : Nat := tileCell (u.cur.tile tile) (64 * i + j)
  let inTile (i j : Nat) : Prop := i < n ∧ c.gov i = true ∧ j < n
  let sa (i : Nat) : Ex := if 9 ≤ f.1 ∧ f.1 ≤ 12 then readF fp32 (u.cur.scaleA.toList.getD i 0).toNat else .fin false 1 1 0
  let sb (j : Nat) : Ex := if 9 ≤ f.2 ∧ f.2 ≤ 12 then readF fp32 (u.cur.scaleB.toList.getD j 0).toNat else .fin false 1 1 0
  let elem (fmt x : Nat) : Option Ex := if 9 ≤ fmt ∧ fmt ≤ 12 then readBlockElem fmt x else some (readF (ffmt fmt) x)
  let reservedA (k i : Nat) : Prop := elem f.1 (a k i) = none ∧ (sa i).isZero = false
  let reservedB (k j : Nat) : Prop := elem f.2 (b k j) = none ∧ (sb j).isZero = false
  let noneReserved : Prop := (∀ k i, k < c.vr → i ∈ rows → ¬ reservedA k i) ∧ (rows ≠ [] → ∀ k j, k < c.vr → j < n → ¬ reservedB k j)
  let num (fmt x : Nat) : Ex := (elem fmt x).getD (.fin false 0 1 0)
  let cell (i j : Nat) : Nat × Nat :=
    mopaCell u.cur.mode (old i j) (sa i) (sb j) ((List.range c.vr).map (fun k => (num f.1 (a k i), num f.2 (b k j))))
  let flags := (rows.flatMap (fun i => (List.range n).map (fun j => cell i j))).foldl (fun x r => x ||| r.2) 0
  (f.1 = 0 → ∃ h, exec i s = .next ({ u with cur := h } : State).completed ∧ Spec.TileWritten u.cur tile 0
    (fun i j => if inTile i j then
      some (wrapN ((List.range c.vr).foldl (fun (x : Int) k => x + sintN 8 (a k i) * sintN 8 (b k j)) (old i j)) 32) else none) h) ∧
  (f.1 ≠ 0 → noneReserved → (∀ i j, inTile i j → (cell i j).2 &&& u.cur.enabled = 0) →
    ∃ h, exec i s = .next ({ u with cur := h } : State).completed ∧
      Spec.TileWritten u.cur tile flags (fun i j => if inTile i j then some (cell i j).1 else none) h) ∧
  (∀ k r, f.1 ≠ 0 → k < c.vr → r ∈ rows → reservedA k r → (∀ k' r', k' < c.vr → r' ∈ rows → reservedA k' r' → 64 * k + r ≤ 64 * k' + r') →
    exec i s = .next (s.start.trapWord (encode i) { cause := 2, tval := BitVec.ofNat 64 (64 * k + r), vec := true } u)) ∧
  (∀ k r, f.1 ≠ 0 → (∀ k' r', k' < c.vr → r' ∈ rows → ¬ reservedA k' r') → rows ≠ [] → k < c.vr → r < n → reservedB k r →
    (∀ k' r', k' < c.vr → r' < n → reservedB k' r' → 64 * k + r ≤ 64 * k' + r') →
    exec i s = .next (s.start.trapWord (encode i) { cause := 2, tval := BitVec.ofNat 64 (64 * k + r), vec := true } u)) ∧
  (∀ i' j, f.1 ≠ 0 → noneReserved → inTile i' j → (cell i' j).2 &&& u.cur.enabled ≠ 0 →
    (∀ p q, inTile p q → (cell p q).2 &&& u.cur.enabled ≠ 0 → 64 * i' + j ≤ 64 * p + q) →
    exec i s = .next (s.start.trapWord (encode i) { cause := 0x0F, tval := BitVec.ofNat 64 (64 * i' + j), vec := true }
      { u with cur := u.cur.raise flags }))

/-- Checks 3 and 4 of an outer product (R99, R122, R178): a predicate and a rounding mode are all its prefix may hold, the strip is 2D, of a
format it takes, `vstart` is 0, the pair is of the 8-bit FP formats, and neither v0 nor the mask lies in an operand group. -/
def Spec.outerOk (h : Hart) (c : VCtx) (m : Bool) (pair : BitVec 3) (groups : List (Nat × Nat)) : Prop :=
  pfxFits h.pfx { pred := m, rm := true } = true ∧ c.twoD = true ∧ c.vstart = 0 ∧ (c.fmt = 0 ∨ (4 ≤ c.fmt ∧ c.fmt ≤ 12)) ∧
  (pair = 0 ∨ c.fmt = 7 ∨ c.fmt = 8) ∧ (m = true → ∀ g ∈ groups, overlap 0 1 g.1 g.2 = false ∧ overlap c.maskReg 1 g.1 g.2 = false)

/-- Registers that hold n 32-bit elements (R181). -/
def Spec.regsOf (c : VCtx) (n : Nat) : Nat := (32 * n + 256 * c.lanes - 1) / (256 * c.lanes)

/-- R178 to R181: MOPA on two groups of a 2D strip of at most 64 columns (R130), and MOPAX, which gathers row i of A from the local window at
the offset that element i of a register group gives, wholly inside a region the context holds.  The size of that group, enough for the
granted columns and at least one element, is the model's choice (log 57). -/
def Spec.OuterProducts : Prop :=
  (∀ (tile : BitVec 3) (va vb : Reg) (m : Bool) (pair : BitVec 3) (s : State), pair.toNat ≤ 2 → Executes s → s.cur.lane = none →
    s.cur.dropping = false →
    let c := s.cur.vctx m
    let i := Instr.mopa tile va vb m pair
    let ok := Spec.outerOk s.cur c m pair [(va.toNat, c.g), (vb.toNat, c.g)] ∧ va.toNat % c.g = 0 ∧ vb.toNat % c.g = 0
    (¬ ok → exec i s = .next (s.start.trapWord (encode i) { cause := 1, tval := 0, vec := true } s.start)) ∧
    (ok → c.vl ≤ 64 → Spec.Outer i s s.start tile c pair
      (fun k i => elemN (s.cur.groupN va.toNat c.g) c.w (64 * k + i)) (fun k j => elemN (s.cur.groupN vb.toNat c.g) c.w (64 * k + j)))) ∧
  (∀ (tile : BitVec 3) (vb vidx : Reg) (m : Bool) (pair : BitVec 3) (s : State), pair.toNat ≤ 2 → Executes s → s.cur.lane = none →
    s.cur.dropping = false →
    let c := s.cur.vctx m
    let i := Instr.mopax tile vb vidx m pair
    let n := c.vl - c.vpad
    let nv := Spec.regsOf c (max 1 n)
    let w := if pair = 0 then c.w else 8
    let off (i : Nat) : Nat := elemN (s.cur.groupN vidx.toNat nv) 32 i
    let ok := Spec.outerOk s.cur c m pair [(vidx.toNat, nv), (vb.toNat, c.g)] ∧ vidx.toNat + nv ≤ 32 ∧ vb.toNat % c.g = 0
    let row (s : State) (i : Nat) (xs : List Nat) (t : State) : Prop :=
      (8 ≤ w → off i % (w / 8) = 0) ∧ inRegions s.cur.local_ (off i) ((c.vr * w + 7) / 8) = true ∧
      ∃ rs, xs = rs.map (fun r => r.2) ∧ InOrder (fun s k x t => Spec.Reads .vector (if w = 4 then 4 else 0)
        { addr := BitVec.ofNat 64 (Config.localBase + off i + k * w / 8), high := k % 2 == 1 } (max 1 (w / 8)) s x t) (List.range c.vr) s rs t
    (¬ ok → exec i s = .next (s.start.trapWord (encode i) { cause := 1, tval := 0, vec := true } s.start)) ∧
    (∀ rows u, ok → c.vl ≤ 64 → InOrder row ((List.range n).filter c.gov) s.start rows u → u.blocked = none → u.cur.strikes = [] →
      Spec.Outer i s u tile c pair (fun k i => (look [] rows i).getD k 0) (fun k j => elemN (s.cur.groupN vb.toNat c.g) c.w (64 * k + j))))

/-- A move of scale latches (R182): 64 FP32 numbers from the registers at vs, each +0 or positive and finite, else the ill-formed-scale trap at
the lowest one that is not. -/
def Spec.Latches (con : Reg → Instr) (set : Hart → Vector (BitVec 32) 64 → Hart) : Prop :=
  ∀ (vs : Reg) (s : State), PlainHart s → s.cur.dropping = false →
    let c := s.cur.vctx false
    let x (i : Nat) : Nat := elemN (s.cur.groupN vs.toNat (Spec.regsOf c 64)) 32 i
    let ok := vs.toNat + Spec.regsOf c 64 ≤ 32
    (¬ ok → exec (con vs) s = .next (s.start.trapWord (encode (con vs)) { cause := 1, tval := 0, vec := true } s.start)) ∧
    (∀ i, ok → i < 64 → 0x7F800000 ≤ x i → (∀ j, j < i → x j < 0x7F800000) →
      exec (con vs) s = .next (s.start.trapWord (encode (con vs)) { cause := 3, tval := BitVec.ofNat 64 i, vec := true } s.start)) ∧
    (ok → (∀ i, i < 64 → x i < 0x7F800000) → exec (con vs) s = .next ({ s.start with
      cur := { set s.cur (Vector.ofFn (fun i => BitVec.ofNat 32 (x i.val))) with vstart := 0 } } : State).completed)

/-- Address of word k of a tile move: rows of 64 words, a stride apart (R183). -/
def Spec.tileAt (a st : Word) (k : Nat) : Word := a + BitVec.ofNat 64 (k / 64) * st + BitVec.ofNat 64 (4 * (k % 64))

/-- Words a tile move of n rows transfers: from `vstart` on. -/
def Spec.tileWords (h : Hart) (n : Nat) : List Nat := (List.range (64 * n)).filter (fun k => h.vstart.toNat ≤ k)

/-- What MLDT and MSTT check (R183): `done` says what they do on rows first, … of count rows with the base a and the stride st. -/
def Spec.TileMove (con : BitVec 3 → Reg → Reg → Reg → Instr)
    (done : (i : Instr) → (s : State) → (tile : BitVec 3) → (a st : Word) → (first count : Nat) → Prop) : Prop :=
  ∀ (tile : BitVec 3) (ra rs rn : Reg) (s : State), PlainHart s → s.cur.dropping = false →
    let i := con tile ra rs rn
    let a := s.cur.ox ra
    let st := s.cur.ox rs
    let n := s.cur.ox rn
    let first := n.toNat % 64
    let count := n.toNat / 64 % 128
    let ok := n.toNat < 2 ^ 13 ∧ 1 ≤ count ∧ first + count ≤ 64
    (¬ ok → exec i s = .next (s.start.trapWord (encode i) { cause := 1, tval := 0, vec := true } s.start)) ∧
    (ok → a.toNat % 4 ≠ 0 → exec i s = .next (s.start.trapWord (encode i) { cause := 4, tval := a, vec := true } s.start)) ∧
    (ok → a.toNat % 4 = 0 → 2 ≤ count → st.toNat % 4 ≠ 0 →
      exec i s = .next (s.start.trapWord (encode i) { cause := 4, tval := a + st, vec := true } s.start)) ∧
    (ok → a.toNat % 4 = 0 → (2 ≤ count → st.toNat % 4 = 0) → done i s tile a st first count)

/-- The rows of a tile that a register group reaches from row n on, and what MRDV and MWRV check (R183). -/
def Spec.tileGroupOk (c : VCtx) (r : Reg) (n : Word) : Prop :=
  n.toNat < 64 ∧ (c.fmt = 4 ∨ c.fmt = 2) ∧ r.toNat % c.g = 0 ∧
  (c.vpad < c.vl → (c.twoD = true → c.vr ≠ 0) →
    n.toNat + (if c.twoD then 64 * (c.vr - 1) + c.vl - c.vpad - 1 else c.vl - c.vpad - 1) / 64 ≤ 63)

/-- R182, R183: MSCL.A and MSCL.B load the scale latches, MZERO clears a tile, MLDT and MSTT move rows of a tile from and to memory, MRDV and
MWRV move elements between rows of a tile and a register group.  MRDV leaves the tail and the masked-off positions as they were: the
model's reading (log 57). -/
def Spec.TileInstructions : Prop :=
  Spec.Latches .msclA (fun h v => { h with scaleA := v }) ∧ Spec.Latches .msclB (fun h v => { h with scaleB := v }) ∧
  (∀ (tile : BitVec 3) (s : State), PlainHart s → s.cur.dropping = false → ∃ h, exec (.mzero tile) s =
    .next ({ s.start with cur := h } : State).completed ∧ Spec.TileWritten s.cur tile 0 (fun _ _ => some 0) h) ∧
  Spec.TileMove .mldt (fun i s tile a st first count => ∀ vals u,
    InOrder (fun s k x t => Spec.Reads .vector 0 { addr := Spec.tileAt a st k, high := false } 4 s x t) (Spec.tileWords s.cur count) s.start vals u →
    u.blocked = none → u.cur.strikes = [] → vals ≠ [] → ∃ h, exec i s = .next ({ u with cur := h } : State).completed ∧
      Spec.TileWritten u.cur tile 0 (fun r j => if first ≤ r ∧ 64 * (r - first) + j ∈ Spec.tileWords s.cur count
        then some (look 0 vals (64 * (r - first) + j)) else none) h) ∧
  Spec.TileMove .mldt (fun i s _ _ _ _ count => Spec.tileWords s.cur count = [] →
    exec i s = .next (Spec.restarted s.start).completed) ∧
  Spec.TileMove .mstt (fun i s tile a st first count => ∀ keys u,
    InOrder (fun s k x t => Spec.Writes .plain .write 0 { addr := Spec.tileAt a st k, high := false } 4 s (x, false) t)
      (Spec.tileWords s.cur count) s.start keys u → u.blocked = none → u.cur.strikes = [] →
    exec i s = .next (Spec.restarted (Spec.queued u .vector (keys.map (fun r =>
      .write (plainBytes r.2 (leBytes 4 (tileCell (s.cur.tile tile) (64 * first + r.1)))))))).completed) ∧
  (∀ (tile : BitVec 3) (vd rn : Reg) (m : Bool) (s : State), PlainHart s → s.cur.dropping = false →
    let c := s.cur.vctx m
    let n := s.cur.ox rn
    let i := Instr.mrdv tile vd rn m
    let ok := Spec.tileGroupOk c vd n ∧ (m = true → overlap c.maskReg 1 vd.toNat c.g = false)
    (¬ ok → exec i s = .next (s.start.trapWord (encode i) { cause := 1, tval := 0, vec := true } s.start)) ∧
    (ok → ∃ h, exec i s = .next ({ s.start with cur := h } : State).completed ∧
      ElementsWritten s.cur c {} [{ base := vd.toNat, regs := c.g, width := 32, pick := fun r => r.val }] (fun _ => false)
        (fun e => .of (tileCell (s.cur.tile tile) (64 * n.toNat + e))) h)) ∧
  (∀ (tile : BitVec 3) (vs rn : Reg) (m : Bool) (s : State), PlainHart s → s.cur.dropping = false →
    let c := s.cur.vctx m
    let n := s.cur.ox rn
    let i := Instr.mwrv tile vs rn m
    (¬ Spec.tileGroupOk c vs n → exec i s = .next (s.start.trapWord (encode i) { cause := 1, tval := 0, vec := true } s.start)) ∧
    (Spec.tileGroupOk c vs n → c.touched ≠ [] → ∃ h, exec i s = .next ({ s.start with cur := h } : State).completed ∧
      Spec.TileWritten s.cur tile 0 (fun r j => if n.toNat ≤ r ∧ 64 * (r - n.toNat) + j ∈ c.touched
        then some (elemN (s.cur.groupN vs.toNat c.g) 32 (64 * (r - n.toNat) + j)) else none) h) ∧
    (Spec.tileGroupOk c vs n → c.touched = [] → exec i s = .next (Spec.restarted s.start).completed))

/-- Outer products and the tiles (R178, R179, R180, R181, R182, R183). -/
def Obligations.MatrixInstructions : Prop := Spec.OuterProducts ∧ Spec.TileInstructions

/-! ## Streams (R160 to R167, R220, R288, R289) -/

/-- R162, R163: a descriptor of 1 to 3 dimensions with its counts not zero, a non-block format, and every other bit zero, describes a stream
whose position p lies at base + Σ of each dimension's index times its signed stride. -/
def Spec.StreamDescriptor : Prop :=
  ∀ (store : Bool) (base : Word) (fmt : Nat) (dims : List (BitVec 32 × BitVec 32)), fmt ≤ 8 → 1 ≤ dims.length → dims.length ≤ 3 →
    (∀ e ∈ dims, e.1 ≠ 0) →
    let entries := (List.range 3).map (fun k => match dims[k]? with | some e => e.2 ++ e.1 | none => 0#64)
    let control := BitVec.ofNat 64 ((if store then 1 else 0) + 16 * fmt + 256 * dims.length)
    ∃ d, affineOf ([base, control] ++ entries ++ [0, 0, 0]) = some (store, d) ∧ d.fmt = fmt ∧
      d.total = dims.foldl (fun n e => n * e.1.toNat) 1 ∧
      ∀ p, p < d.total → d.addr p = base + BitVec.ofInt 64 (
        let c0 := (dims.getD 0 (1, 0)).1.toNat
        let c1 := (dims.getD 1 (1, 0)).1.toNat
        let s (k : Nat) : Int := (dims.getD k (1, 0)).2.toInt
        ((p % c0 : Nat) : Int) * s 0 + ((p / c0 % c1 : Nat) : Int) * s 1 + ((p / c0 / c1 : Nat) : Int) * s 2)

/-- R163, R166, R167: SBIND binds a queue to the affine stream its 64-byte descriptor describes, after the accesses a store stream of that queue
still has to perform; SBINDC binds it to a compressed image; SUNBIND frees it.  A bound queue, or a descriptor that is ill-formed, is illegal. -/
def Spec.StreamBinding : Prop :=
  (∀ (q : BitVec 3) (a : Reg) (s : State), PlainHart s →
    let x := s.cur.rx a
    let i := Instr.sbind q a
    (s.cur.rq q.toNat ≠ .unbound → exec i s = .next (s.start.trapWord (encode i) { cause := 1, tval := 0 } s.start)) ∧
    (s.cur.rq q.toNat = .unbound → x.toNat % 64 ≠ 0 → exec i s = .next (s.start.trapWord (encode i) { cause := 4, tval := x } s.start)) ∧
    (∀ ds t, s.cur.rq q.toNat = .unbound → x.toNat % 64 = 0 → s.start.loadBlock x = (.ok ds, t) → t.blocked = none → t.cur.strikes = [] →
      (affineOf ds = none → exec i s = .next (s.start.trapWord (encode i) { cause := 1, tval := 0 } t)) ∧
      (∀ store d, affineOf ds = some (store, d) →
        let u := t.drain (fun st => st == .q q)
        u.blocked = none → exec i s = .next ({ u with cur := u.cur.wq q.toNat (if store then .store d 0 else .load d 0 []) } : State).completed))) ∧
  (∀ (q : BitVec 3) (a : Reg) (s : State), PlainHart s →
    let x := s.cur.rx a
    let i := Instr.sbindc q a
    (s.cur.rq q.toNat ≠ .unbound → exec i s = .next (s.start.trapWord (encode i) { cause := 1, tval := 0 } s.start)) ∧
    (s.cur.rq q.toNat = .unbound → x.toNat % 64 ≠ 0 → exec i s = .next (s.start.trapWord (encode i) { cause := 4, tval := x } s.start)) ∧
    (s.cur.rq q.toNat = .unbound → x.toNat % 64 = 0 → ∃ im : ImageState, im.header = x ∧ im.opened = false ∧ im.done = 0 ∧ im.fail = none ∧
      let u := s.start.drain (fun st => st == .q q)
      u.blocked = none → exec i s = .next ({ u with cur := u.cur.wq q.toNat (.image im 0) } : State).completed)) ∧
  (∀ (q : BitVec 3) (s : State), PlainHart s →
    exec (.sunbind q) s = .next ({ s.start with cur := s.cur.wq q.toNat .unbound } : State).completed)

/-- The canonical code of symbol s (R286): the symbols before it, shorter or of its length and smaller, each take their share of its code space. -/
def Spec.codeOf (lens : List Nat) (s : Nat) : Nat :=
  let len (t : Nat) := lens.getD t 0
  (((List.range 256).filter (fun t => len t != 0 && (len t < len s || (len t == len s && t < s)))).map (fun t => 2 ^ (len s - len t))).sum

/-- A decoder: each lane's buffer and count of valid bits, the words not yet claimed, the symbols so far (R289). -/
structure Spec.Decoder where
  buf  : Nat → Nat
  n    : Nat → Nat
  ws   : List Nat
  syms : List Nat

/-- Lane l claims a word in step st, when it has a symbol left and fewer than 32 bits. -/
def Spec.claim (ns st : Nat) (x : Spec.Decoder) (l : Nat) : Option Spec.Decoder :=
  if 16 * st + l < ns ∧ x.n l < 32 then
    match x.ws with
    | [] => none
    | w :: ws => some { x with buf := fun k => if k = l then x.buf l + w * 2 ^ x.n l else x.buf k
                               n := fun k => if k = l then x.n l + 32 else x.n k
                               ws := ws }
  else some x

/-- Lane l decodes its symbol of step st. -/
def Spec.symbol (lens : List Nat) (ns st : Nat) (x : Spec.Decoder) (l : Nat) : Option Spec.Decoder :=
  if 16 * st + l < ns then
    match matchCode (codeTable lens) (x.buf l) with
    | none => none
    | some (len, s) => some { x with buf := fun k => if k = l then x.buf l / 2 ^ len else x.buf k
                                     n := fun k => if k = l then x.n l - len else x.n k
                                     syms := x.syms ++ [s] }
  else some x

/-- R285 to R290: the first read of an image opens its header, or finds it ill-formed; each later one decodes the next chunk: the code is canonical, each lane
claims and decodes as R289 says, and a chunk that does not agree with its counts fails the stream. -/
def Spec.ImageDecoding : Prop :=
  (∀ (lens : List Nat), lens.length = 256 → (∀ l ∈ lens, l ≤ 15) → kraft lens ≤ 2 ^ 15 → ∀ buf len s,
    matchCode (codeTable lens) buf = some (len, s) ↔ s < 256 ∧ len = lens.getD s 0 ∧ len ≠ 0 ∧
      ∀ j, j < len → buf.testBit j = (Spec.codeOf lens s).testBit (len - 1 - j)) ∧
  (∀ (lens : List Nat) (ns : Nat) (ws : List Nat),
    let step (x : Spec.Decoder) (st : Nat) : Option Spec.Decoder :=
      ((List.range 16).foldlM (Spec.claim ns st) x).bind (fun x => (List.range 16).foldlM (Spec.symbol lens ns st) x)
    decodeChunk lens ns ws =
      ((List.range ((ns + 15) / 16)).foldlM step { buf := fun _ => 0, n := fun _ => 0, ws := ws, syms := [] }).bind
        (fun x => if x.ws = [] then some x.syms else none)) ∧
  (∀ (s u : State) (q : Nat) (im : ImageState) (ds : List Nat), im.fail = none → im.opened = false → s.imageLoads q im.paged 8 im.header 18 = (.ok ds, u) →
    let t := ds.getD 0 0
    let nc := ds.getD 1 0
    let lens := (List.range 256).map (fun k => ds.getD (2 + k / 16) 0 / 2 ^ (4 * (k % 16)) % 16)
    let bad := 2 ^ 48 ≤ t ∨ 2 ^ 32 ≤ nc ∨ t = 0 ∨ nc = 0 ∨ (∀ l ∈ lens, l = 0) ∨ 2 ^ 15 < ((lens.filter (· ≠ 0)).map (fun l => 2 ^ (15 - l))).sum
    (bad → s.imageStep q im = (.ok { im with opened := true, fail := some .decode, paged := [] }, u)) ∧
    (¬ bad → s.imageStep q im = (.ok { im with total := t, chunks := nc, lens := lens, opened := true, next := 0, addr := im.header + 144, paged := [] }, u))) ∧
  (∀ (s u : State) (q hd : Nat) (im : ImageState), im.fail = none → im.opened = true → im.next < im.chunks →
    s.imageLoad q im.paged im.addr 8 = (.ok hd, u) →
    let ns := hd % 2 ^ 32
    let nw := hd / 2 ^ 32
    let bad := nw = 0 ∨ 2 ^ 20 < nw ∨ ns = 0 ∨ 65536 < ns ∨ im.total < im.done + ns ∨ (im.next + 1 = im.chunks ∧ im.done + ns < im.total)
    (bad → s.imageStep q im = (.ok { im with fail := some .decode }, u)) ∧
    (∀ ws v, ¬ bad → u.imageLoads q im.paged 4 (im.addr + 8) nw = (.ok ws, v) →
      (decodeChunk im.lens ns ws = none → s.imageStep q im = (.ok { im with fail := some .decode }, v)) ∧
      (∀ syms, decodeChunk im.lens ns ws = some syms →
        let next := im.addr.toNat + 8 + 4 * nw
        ∃ im', s.imageStep q im = (.ok im', v) ∧ im'.syms = im.syms ++ syms ∧ im'.done = im.done + ns ∧ im'.next = im.next + 1 ∧ im'.fail = none ∧
          (im.addr.toNat % 8 = 0 → next + 8 ≤ 2 ^ 64 → im'.addr.toNat = (next + 7) / 8 * 8))))

/-- The oldest queued access of a stream, and the queue without it. -/
def Spec.oldest (st : Stream) (l : List PStore) (p : PStore) (rest : List PStore) : Prop :=
  ∃ a b, l = a ++ p :: b ∧ p.stream = st ∧ (∀ x ∈ a, x.stream ≠ st) ∧ rest = a ++ b

/-- R160, R220, R289, R293: the stream unit's own steps.  ACCESS_PERFORMED carries out the oldest queued access of a stream of a hart at its
home, CHAINED_OPERATION that of its bank stream when it is a read-modify-write; CHUNK_DECODE advances the decoder of a bound image, or asks for
the page it needs; QUEUE_ELEMENTS_ARRIVE lets a consumer issue again whose page request has been answered.  A write on its way passes no
earlier one of its stream, nor one of its cluster to the same home, and is performed at its home once it has passed the die network (R221).
The stream unit fetches the element after those it holds of an affine load stream ahead of its consumers (R164). -/
def Spec.StreamSteps : Prop :=
  (∀ (h : Nat) (st : Stream) (s : State) (p : PStore) (rest : List PStore),
    let t := s.focus h
    s.observing = false → t.cur.place = h → Spec.oldest st t.cur.stores p rest → (∀ k ∈ p.act.keys, t.heldSegment k = false) →
    (∀ q ∈ t.net, ∀ k ∈ p.act.keys, q.home ≠ t.homeNo k) → (∀ q ∈ t.net, q.owner = h → q.stream = some st → q.level = 3) →
    (st = .bank → t.ownCommand (fun e => e == .bank) = false ∧ t.cur.sent = []) →
    let u : State := { t with mem := performAct t.mem p.act, cur := { t.cur with stores := rest }, nmus := (t.wakeKeys p.act.keys).nmus,
                              hits := (t.noteHome t.cur.sctx t.cur.launch t.cur.place p.own p.act).hits }
    exec (.accessPerformed (.hart h st)) s = .next u ∧ (st = .bank → p.act.isRmw = true → exec (.chainedOperation h) s = .next u)) ∧
  (∀ (h : Nat) (q : BitVec 3) (s : State) (im : ImageState) (pos : Nat),
    let t := s.focus h
    t.cur.place = h → t.cur.status ≠ .unbound → t.cur.rq q.toNat = .image im pos → im.ask = none →
    (∀ im' u, t.start.imageStep q.toNat im = (.ok im', u) → u.blocked = none → u.cur.strikes = t.cur.strikes →
      exec (.chunkDecode h q) s = .next { u with cur := u.cur.wq q.toNat (.image im' pos) }) ∧
    (∀ a u, t.start.imageStep q.toNat im = (.error a, u) → u.blocked = none → u.cur.strikes = t.cur.strikes →
      let ask : PageReq := { id := u.hub.pageSeq, who := .image u.cur.key q.toNat, ctx := u.cur.sctx, addr := a, tval := a }
      exec (.chunkDecode h q) s =
        .next { u with cur := u.cur.wq q.toNat (.image { im with ask := some ask.id } pos),
                       hub := { u.hub with pages := u.hub.pages ++ [ask], pageSeq := u.hub.pageSeq + 1 } })) ∧
  (∀ (h id : Nat) (s : State),
    let t := s.focus h
    t.cur.place = h → t.cur.status = .waiting (.page id) → (∀ p ∈ t.hub.pages, p.id ≠ id) →
    exec (.queueElementsArrive h) s = .next { t with cur := { t.cur with status := .running } }) ∧
  (∀ (s : State) (n : Nat) (p : Posted) (rest : List Turn), s.parkIdle = s → s.schedule = .forward n :: rest → s.net[n]? = some p →
    (∀ q ∈ s.net.take n, q.home = p.home → q.cl = p.cl → q.level ≤ p.level → p.level = 1 ∨ p.level = 2 →
      step s = .next { s with schedule := rest, unit := .hart }) ∧
    (∀ q ∈ s.net.take n, q.owner = p.owner → q.stream = p.stream → q.token = p.token → q.level < 3 → q.level ≤ p.level →
      step s = .next { s with schedule := rest, unit := .hart }) ∧
    (s.observing = false → (∀ q ∈ s.net.take n, q.home ≠ p.home ∧ (q.owner ≠ p.owner ∨ q.stream ≠ p.stream)) → p.level = 2 → p.home ≠ 1024 →
      p.home ≠ 1025 →
      (∀ k ∈ p.act.keys, ({ s with unit := .hart } : State).heldSegment k = false) →
      ∃ t, step s = .next t ∧ t.mem = performAct s.mem p.act ∧ t.net = s.net.eraseIdx n)) ∧
  (∀ (h : Nat) (q : BitVec 3) (s : State) (d : AffDesc) (pos x : Nat) (ahead : List Nat) (u : State) (rest : List Turn),
    s.parkIdle = s → s.schedule = .fetch h q.toNat :: rest → s.observing = false →
    let t := ({ s with schedule := rest, unit := .hart } : State).focus h
    let n := fmtWidth d.fmt / 8
    let a := d.addr (pos + ahead.length)
    t.cur.place = h → t.cur.status = .running → t.cur.held = false → t.cur.lane = none → t.cur.rq q.toNat = .load d pos ahead →
    pos + ahead.length < d.total → a.toNat % n = 0 → t.start.loadN (.q q) a n = (.ok x, u) → u.blocked = none → u.observing = false →
    step s = .next { u with blocked := t.blocked, cur := u.cur.wq q.toNat (.load d pos (ahead ++ [x])) })

/-- Stream descriptors, binding, and what their units do (R160, R162, R163, R166, R167, R220, R285, R286, R287, R288, R289, R290, R293). -/
def Obligations.Streams : Prop := Spec.StreamDescriptor ∧ Spec.StreamBinding ∧ Spec.ImageDecoding ∧ Spec.StreamSteps

/-! ## Regions and lane mode (R116 to R121) -/

/-- A bit of v0 is set within the strip: below vl, or in 2D in a row below vr and a column below vl (R121). -/
def Spec.someBit (h : Hart) : Prop :=
  if h.vtype.getLsbD 8 then ∃ r c, r < h.vr.toNat ∧ c < h.vl.toNat ∧ (h.vN 0).testBit (64 * r + c) = true
  else ∃ i, i < h.vl.toNat ∧ (h.vN 0).testBit i = true

/-- R121: VRGN opens a region up to the VRGNE its offset names, dropping when no bit of v0 is set; inside a dropping region it has no effect; a
fifth region, or a word that is no VRGNE, is illegal.  VRGNE closes the innermost region when that names its address.  That the offset is
unsigned (log 35), and that these traps set bit 63 of `tcause` (log 15), is the model's choice. -/
def Spec.Regions : Prop :=
  (∀ (off : BitVec 16) (s : State), Executes s → s.cur.lane = none →
    let i := Instr.vrgn off
    let stop := s.cur.pc + 4 * off.setWidth 64
    let bad (t : State) := exec i s = .next (s.start.trapWord (encode i) { cause := 1, tval := 0, vec := true } t)
    (s.cur.dropping = true → exec i s = .next s.start.completed) ∧
    (s.cur.dropping = false → pfxPending s.cur.pendingPfx = true ∨ 4 ≤ s.cur.regions.length → bad s.start) ∧
    (s.cur.dropping = false → pfxPending s.cur.pendingPfx = false → s.cur.regions.length < 4 → ∀ w t, s.start.peekWord stop = (.ok w, t) →
      t.blocked = none → t.cur.strikes = [] →
      (w ≠ encode .vrgne → bad t) ∧
      (w = encode .vrgne → ∃ drop : Bool, (drop = true ↔ ¬ Spec.someBit t.cur) ∧
        exec i s = .next ({ t with cur := { t.cur with regions := { stop := stop, drop := drop } :: t.cur.regions } } : State).completed))) ∧
  (∀ s : State, PlainHart s → (∀ r rest, s.cur.regions = r :: rest → r.stop = s.cur.pc →
      exec .vrgne s = .next ({ s.start with cur := { s.cur with regions := rest } } : State).completed) ∧
    ((∀ r rest, s.cur.regions = r :: rest → r.stop ≠ s.cur.pc) → exec .vrgne s = .next s.start.completed))

/-- The threads LFORK makes (R116): one for each i below vl with bit i of v0 set, at the word after it. -/
def Spec.newThreads (h : Hart) : List LaneThread :=
  ((List.range h.vl.toNat).filter (fun i => (h.vN 0).testBit i)).map (fun i => { index := i, pc := h.pc + 4, run := .running })

/-- What a thread that leaves the running state leaves (R119): the turn goes to the next running thread, and when none runs the hart continues
after the join address outside lane mode. -/
def Spec.ThreadRests (h : Hart) (l : LaneState) (run : ThreadRun) (t : Hart) : Prop :=
  let ts := l.threads.set l.turn { l.thread with run := run }
  t.x = h.x ∧ t.v = h.v ∧ t.dirty = h.dirty ∧
  ((∀ k ∈ ts, k.run ≠ .running) → t.lane = none ∧ t.pc = l.join + 4) ∧
  ((∃ k ∈ ts, k.run = .running) → t.lane = some { l with threads := ts, turn := nextTurn ts l.turn } ∧ t.pc = h.pc)

/-- R116, R119: LFORK enters lane mode with a snapshot of the v registers, or continues after the join address when no thread is made; LJOIN at
the join address makes its thread wait, elsewhere it is a lane-mode error; LEXIT retires its thread; LXRD reads an element of the snapshot, 0
from vl on.  Outside lane mode the last three raise the lane-mode error too, which is the model's choice (log 26), and so is LFORK's unsigned
offset (log 35). -/
def Spec.LaneMode : Prop :=
  (∀ (off : BitVec 16) (s : State), PlainHart s →
    let i := Instr.lfork off
    let join := s.cur.pc + 4 * off.setWidth 64
    (8 * s.cur.lanes < s.cur.vl.toNat → exec i s = .next (s.start.trapWord (encode i) { cause := 1, tval := 0 } s.start)) ∧
    (s.cur.vl.toNat ≤ 8 * s.cur.lanes → ∀ w t, s.start.peekWord join = (.ok w, t) → t.blocked = none → t.cur = s.cur →
      (w ≠ encode .ljoin → exec i s = .next (s.start.trapWord (encode i) { cause := 1, tval := 0 } t)) ∧
      (w = encode .ljoin → Spec.newThreads s.cur = [] → exec i s = .next { t with cur := { s.cur.retire with pc := join + 4 } }) ∧
      (w = encode .ljoin → Spec.newThreads s.cur ≠ [] → exec i s = .next { t with cur := { s.cur.retire with
        lane := some { join := join, threads := Spec.newThreads s.cur, turn := 0, len := s.cur.vl.toNat, snap := s.cur.v } } }))) ∧
  (∀ (s : State) (l : LaneState), Plain s → s.cur.lane = some l →
    (l.thread.pc = l.join → ∃ h, exec .ljoin s = .next { s.start with cur := h } ∧ Spec.ThreadRests s.cur l .waiting h) ∧
    (l.thread.pc ≠ l.join → exec .ljoin s = .next (s.start.trapWord (encode .ljoin) { cause := 0x11, tval := 0 } s.start)) ∧
    (∃ h, exec .lexit s = .next { s.start with cur := h } ∧ Spec.ThreadRests s.cur l .retired h) ∧
    (∀ d a b : Reg,
      let j := (s.cur.re l.thread.index a).toNat
      let x : BitVec 32 := if j < l.len then l.snap[b.toNat].extractLsb' (32 * j) 32 else 0
      exec (.lxrd d a b) s = .next ({ s.start with cur := s.cur.we l.thread.index d x } : State).completed)) ∧
  (∀ (s : State) (d a b : Reg), PlainHart s → ∀ i ∈ [Instr.ljoin, .lexit, .lxrd d a b], exec i s = .next (s.start.trapWord (encode i) { cause := 0x11, tval := 0 } s.start))

/-- R120: a trap of a lane thread writes `tpc` with the thread's address, `tcause` with the lane bit, the thread's index and the cause, and `tval`
with the index for the causes that number an element and for the lane-mode error. -/
def Spec.LaneTraps : Prop :=
  ∀ (h : Hart) (l : LaneState) (t : Trap) (entry : Option VEntry), h.lane = some l → l.thread.index < 128 → t.cause < 256 → t.vec = false →
    (h.takeTrap t entry).tpc = l.thread.pc ∧
    (h.takeTrap t entry).tcause = BitVec.ofNat 64 (2 ^ 62 + 2 ^ 8 * l.thread.index + t.cause) ∧
    (h.takeTrap t entry).tval = (if t.cause = 2 ∨ t.cause = 0x0F ∨ t.cause = 0x11 then BitVec.ofNat 64 l.thread.index else t.tval)

/-- Vector regions, and lane mode with its traps (R116, R119, R120, R121). -/
def Obligations.RegionsAndLanes : Prop := Spec.Regions ∧ Spec.LaneMode ∧ Spec.LaneTraps

/-! ## Engine commands (R184 to R190, R245) -/

/-- The local byte at an offset lies in a region granted to the hart (R243). -/
def Spec.Granted (h : Hart) (off : Int) : Prop := ∃ r ∈ h.local_, (r.off : Int) ≤ off ∧ off < (r.off + r.size : Nat)

/-- A global byte address in rows 1 and 2 of R242. -/
def Spec.InWindow (a : Word) : Prop := 0x00FFFF0000000000 ≤ a.toNat ∧ a.toNat ≤ 0x00FFFFFFFFFFFFFF

/-- Bits [lo + n - 1 : lo] of doubleword k of a command block. -/
def Spec.field (b : List Word) (k lo n : Nat) : Nat := (b.getD k 0).toNat / 2 ^ lo % 2 ^ n

/-- A signed 32-bit field. -/
def Spec.sfield (b : List Word) (k lo : Nat) : Int := (BitVec.ofNat 32 (Spec.field b k lo 32)).toInt

/-- R185: the XCOPY block with no reserved field, length or count that check 3 refuses. -/
def Spec.CopyBlock (b : List Word) : Prop :=
  Spec.field b 1 21 43 = 0 ∧ 1 ≤ Spec.field b 2 0 32 ∧ 1 ≤ Spec.field b 2 32 16 ∧ 1 ≤ Spec.field b 2 48 16 ∧
  Spec.field b 6 1 63 = 0 ∧ Spec.field b 7 0 64 = 0

/-- R185: the global address and the local offset of byte y of run (i1, i2). -/
def Spec.copyByte (b : List Word) (base : Word) (i1 i2 y : Nat) : Word × Int :=
  (b.getD 0 0 + base + BitVec.ofNat 64 i1 * b.getD 3 0 + BitVec.ofNat 64 i2 * b.getD 4 0 + BitVec.ofNat 64 y,
   (Spec.field b 1 0 21 : Int) + i1 * Spec.sfield b 5 0 + i2 * Spec.sfield b 5 32 + y)

/-- R186: the XGATH block that check 3 takes; an index array that is no multiple of 4 is refused with it (log 27). -/
def Spec.GatherBlock (b : List Word) : Prop :=
  Spec.field b 1 21 43 = 0 ∧ Spec.field b 2 48 16 = 0 ∧ 1 ≤ Spec.field b 2 0 32 ∧ 1 ≤ Spec.field b 2 32 16 ∧
  Spec.field b 3 0 64 % 4 = 0 ∧ Spec.field b 5 32 32 = 0 ∧ Spec.field b 6 0 64 = 0 ∧ Spec.field b 7 0 64 = 0

/-- An engine or bank command of a cluster, or a command of a near-memory unit, is accepted and not yet performed: the two kinds of token are
told apart. -/
def Spec.EnginePending (s : State) (cl : Nat) (token : Word) : Prop := ∃ x ∈ (s.cluster cl).pool, x.engine ≠ .nmuOut ∧ x.token = token
def Spec.NmuPending (s : State) (token : Word) : Prop :=
  ∃ p ∈ s.nmus, (∃ r, p.2.run = some r ∧ r.cmd.token = token) ∨ ∃ x ∈ p.2.queue, x.token = token

/-- What an acquire at a scope waits for (R187, R214, R221): a command of its lists, or a write of an engine's that is on its way below the
ordering point of the scope. -/
def Spec.Unacquired (s : State) (cl level : Nat) (after nmus : List Word) : Prop :=
  (∃ t ∈ after, Spec.EnginePending s cl t) ∨ (∃ t ∈ nmus, Spec.NmuPending s t) ∨
  ∃ p ∈ s.net, p.stream = none ∧ p.token ∈ after ∧ p.level < level

/-- What accepting an engine command leaves (R184, R188): a promise not before the acceptance in xd, the token of the next sequence number
in xd + 1, and the command at the end of the cluster's pool, with .ACQ behind every earlier command of the hart; the rest of the hart, the other clusters and memory as before. -/
def Spec.EngineAccepts (u t : State) (gather acq : Bool) (d : Reg) (b : List Word) (base : Word) : Prop :=
  let cl := clusterOf u.cur.place
  let seq := (if gather then (u.cluster cl).gatherSeq else (u.cluster cl).copySeq) + 1
  let token : Word := BitVec.ofNat 2 (cl / 56) ++ BitVec.ofNat 6 (cl % 56) ++ BitVec.ofBool gather ++ BitVec.ofNat 55 seq
  ∃ (c : Cmd) (promise : Word), u.timeWord ≤ promise ∧ t.cur = ((u.cur.wx d promise).wx (d + 1) token).advance ∧
    (t.cluster cl).pool = (u.cluster cl).pool ++ [c] ∧ c.token = token ∧ c.owner = u.cur.place ∧ c.ctx = u.cur.sctx ∧ c.block = b ∧
    c.base = base ∧ c.engine = (if gather then Engine.gather else .copy) ∧ c.started = false ∧ c.step = 0 ∧
    (acq = false → c.after = [] ∧ c.nmus = []) ∧
    (acq = true → (∀ x ∈ (u.cluster cl).pool, x.owner = u.cur.place → x.engine ≠ .nmuOut → x.token ∈ c.after) ∧
      ∀ p ∈ u.nmus, ∀ x ∈ p.2.queue, x.owner = u.cur.place → x.token ∈ c.nmus) ∧
    (if gather then (t.cluster cl).gatherSeq else (t.cluster cl).copySeq) = seq ∧
    (∀ k, k ≠ cl → t.cluster k = u.cluster k) ∧ t.mem = u.mem ∧ t.others = u.others

/-- R184, R185, R186, R245: XCOPY and XGATH read their block, check it, and are accepted while fewer than 64 commands are held; .ACQ performs
every access of the hart for the scope first, its earlier commands' among them (R187; that these count is log 38).  A misaligned block, an
ill-formed one, a byte outside the grants or a global byte in the local or reserved window traps; a full pool makes the hart wait. -/
def Spec.EngineCommands : Prop :=
  ∀ (gather : Bool) (d a b : Reg) (scope : BitVec 3) (acq rel : Bool) (s : State), PlainHart s →
    let x := s.cur.rx a
    let base := s.cur.rx b
    let i := if gather then Instr.xgath d a b scope acq rel else .xcopy d a b scope acq rel
    (x.toNat % 64 ≠ 0 → exec i s = .next (s.start.trapWord (encode i) { cause := 4, tval := x } s.start)) ∧
    (∀ ds u, x.toNat % 64 = 0 → s.start.loadBlock x = (.ok ds, u) → u.blocked = none → u.cur.strikes = [] → u.cur.x = s.cur.x →
      let ok := if gather then Spec.GatherBlock ds else Spec.CopyBlock ds
      let runs (f : Int → Prop) : Prop :=
        if gather then ∀ r y, r < Spec.field ds 2 32 16 → y < Spec.field ds 2 0 32 → f ((Spec.field ds 1 0 21 : Int) + r * Spec.sfield ds 5 0 + y)
        else ∀ i1 i2 y, i1 < Spec.field ds 2 32 16 → i2 < Spec.field ds 2 48 16 → y < Spec.field ds 2 0 32 → f (Spec.copyByte ds base i1 i2 y).2
      let globals (f : Word → Prop) : Prop :=
        if gather then ∀ j, j < 4 * Spec.field ds 2 32 16 → f (ds.getD 3 0 + BitVec.ofNat 64 j)
        else ∀ i1 i2 y, i1 < Spec.field ds 2 32 16 → i2 < Spec.field ds 2 48 16 → y < Spec.field ds 2 0 32 → f (Spec.copyByte ds base i1 i2 y).1
      let held := (u.cluster (clusterOf u.cur.place)).held (if gather then .gather else .copy)
      let level := min scope.toNat 4
      let v := if acq then (u.drainTo level (fun _ => true)).awaitNet level true (fun _ => true) else u
      (¬ ok → exec i s = .next (s.start.trapWord (encode i) { cause := 1, tval := 0 } u)) ∧
      (ok → runs (Spec.Granted u.cur) → globals (fun g => ¬ Spec.InWindow g) → 64 ≤ held →
        exec i s = .next { u with cur := { u.cur with status := .waiting .pool } }) ∧
      (ok → runs (Spec.Granted u.cur) → globals (fun g => ¬ Spec.InWindow g) → held < 64 → v.blocked = none →
        v.recorder v.cur.launch = none →
        ∃ t, exec i s = .next t ∧ Spec.EngineAccepts v t gather acq d ds base) ∧
      (ok → ∀ off, runs (fun o => o < off → Spec.Granted u.cur o) → ¬ runs (fun o => o ≠ off ∨ Spec.Granted u.cur o) →
        exec i s = .next (s.start.trapWord (encode i) { cause := 6, tval := BitVec.ofInt 64 (0x00FFFF0000000000 + off) } u)) ∧
      (ok → runs (Spec.Granted u.cur) → ∀ g, globals (fun x => Spec.InWindow x → g.toNat ≤ x.toNat) →
        ¬ globals (fun x => ¬ (x = g ∧ Spec.InWindow x)) → exec i s = .next (s.start.trapWord (encode i) { cause := 6, tval := g } u)))

/-- R188: the status of a token, and the address kept with a failure. -/
def Spec.Status (s : State) (ctx token : Word) (code : Nat) (addr : Word) : Prop :=
  s.engineStatus ctx token = (code, addr)

/-- R188: a token that no engine issued, or that is older than the last 256 of its engine, reads UNKNOWN; one that is held by its engine for
the same context reads PENDING. -/
def Spec.EngineStatus : Prop :=
  ∀ (s : State) (ctx : Word) (cl n : Nat) (gather : Bool), cl < 224 → n < 2 ^ 55 →
    let token : Word := BitVec.ofNat 2 (cl / 56) ++ BitVec.ofNat 6 (cl % 56) ++ BitVec.ofBool gather ++ BitVec.ofNat 55 n
    let seq := if gather then (s.cluster cl).gatherSeq else (s.cluster cl).copySeq
    (n = 0 ∨ seq < n ∨ n + 256 ≤ seq → Spec.Status s ctx token 4 0) ∧
    (1 ≤ n → n ≤ seq → seq < n + 256 →
      (∀ c ∈ (s.cluster cl).pool, c.token = token → c.ctx = ctx) →
      (∃ c ∈ (s.cluster cl).pool, c.token = token ∧ c.engine = (if gather then Engine.gather else .copy)) → Spec.Status s ctx token 0 0) ∧
    (1 ≤ n → n ≤ seq → seq < n + 256 → (∀ c ∈ (s.cluster cl).pool, c.token ≠ token) →
      let log := if gather then (s.cluster cl).gatherLog else (s.cluster cl).copyLog
      ∀ x ∈ log, x.token = token → x.ctx = ctx → x.hidden = false → (∀ y ∈ log, y.token = token → y = x) →
        Spec.Status s ctx token x.code x.addr)

/-- R188: what XWAIT does with a status: it waits while PENDING, continues on DONE and UNKNOWN, and traps with the kept address on ACCESS
and DATACHECK. -/
def Spec.AfterStatus (s0 s : State) (w : BitVec 32) (code : Nat) (addr : Word) (t : State) : Prop :=
  (code = 0 → t = { s with cur := { s.cur with status := .waiting (.again w) } }) ∧ (code = 1 ∨ code = 4 → t = s.completed) ∧
  (code = 2 → t = s0.trapWord w { cause := 6, tval := addr } s) ∧ (code = 3 → t = s0.trapWord w { cause := 8, tval := addr } s)

/-- The event e lets hart h, which waits at the instruction i, issue it again. -/
def Spec.Reissues (e i : Instr) (h : Nat) : Prop :=
  ∀ s : State, let f := s.focus h
    f.cur.place = h → f.cur.held = false → PlainHart f → f.cur.status = .waiting (.again (encode i)) →
    ∃ t, exec e s = .next t ∧ exec i { f with cur := { f.cur with status := .running } } = .next t

/-- R188: XPOLL writes the status code and never waits; XWAIT acts on the status, and a waiting XWAIT acts on it again when its event
comes. -/
def Spec.EngineWaits : Prop :=
  (∀ (d a : Reg) (s : State) (code : Nat) (addr : Word), PlainHart s → s.recorder s.cur.launch = none →
    Spec.Status s s.cur.sctx (s.cur.rx a) code addr →
    exec (.xpoll d a) s = .next ({ s.start with cur := s.cur.wx d (BitVec.ofNat 64 code) } : State).completed) ∧
  (∀ (a : Reg) (s : State) (code : Nat) (addr : Word), PlainHart s → Spec.Status s s.cur.sctx (s.cur.rx a) code addr → code ≤ 4 →
    ∃ t, exec (.xwait a) s = .next t ∧ Spec.AfterStatus s.start s.start (encode (.xwait a)) code addr t) ∧
  (∀ (a : Reg) (h : Nat), Spec.Reissues (.xwaitWake h) (.xwait a) h) ∧
  (∀ (h : Nat) (s : State),
    let f := s.focus h
    f.cur.place = h → f.cur.status = .waiting .pool → f.cur.held = false →
    exec (.commandPoolFreed h) s = .next { f with cur := { f.cur with status := .running } })

/-- Copy and gather commands, their statuses and waits (R184, R185, R186, R188, R245). -/
def Obligations.EngineCommandsAndWaits : Prop := Spec.EngineCommands ∧ Spec.EngineStatus ∧ Spec.EngineWaits

/-- R187: ENGINE_COMMAND_START starts a command when no command accepted before it has a local range that overlaps one of its own with one
of the two writing the overlap, and nothing its .ACQ waits for is still to be performed (that the hart's earlier commands count is log 38);
otherwise nothing changes. -/
def Spec.RangeChecker : Prop :=
  ∀ (s : State) (cl : Nat) (c : Cmd) (before after : List Cmd), (s.cluster cl).pool = before ++ c :: after →
    (∀ x ∈ before ++ after, x.token ≠ c.token) → c.engine ≠ .bank → c.engine ≠ .nmuOut →
    let clash (x : Cmd) : Prop := ∃ r ∈ x.reads ++ x.writes, ∃ q ∈ c.reads ++ c.writes, (r ∈ x.writes ∨ q ∈ c.writes) ∧ r.1 < q.2 ∧ q.1 < r.2
    let held := Spec.Unacquired s cl (min c.scope 4) c.after c.nmus
    ((∃ x ∈ before, clash x) ∨ held → exec (.engineCommandStart cl c.token) s = .next s) ∧
    ((∀ x ∈ before, ¬ clash x) → ¬ held → ∃ t, exec (.engineCommandStart cl c.token) s = .next t ∧
      (t.cluster cl).pool = before ++ { c with started := true } :: after ∧ (∀ k, k ≠ cl → t.cluster k = s.cluster k) ∧
      t.mem = s.mem ∧ t.cur = s.cur ∧ t.others = s.others)

/-- No debug block serves a context, so no watchpoint is set and nothing is recorded (R336, R338, R348). -/
def Spec.Unwatched (s : State) : Prop := ∀ p ∈ s.hub.debug, p.2.ctx = 0

/-- One access of a started copy or gather command: it moves n bytes; the command then stands that much further on, or, at the end of its
`total` bytes, has left the pool with its status DONE (R188). -/
def Spec.Moves (e : Instr) (s t : State) (cl : Nat) (c : Cmd) (block : List Word) (src dst n total : Nat) : Prop :=
  ∃ v, exec e s = .next v ∧ v.mem = Memory.setList t.mem dst (Memory.getList t.mem src n) ∧
    (c.step + n < total → v.findCmd cl c.token = some { c with block := block, step := c.step + n, paged := [], remote := none }) ∧
    (c.step + n = total → (v.cluster cl).pool = (t.cluster cl).pool.filter (fun x => !x.is c.token) ∧
      ∃ x, (if c.engine = .gather then (v.cluster cl).gatherLog else (v.cluster cl).copyLog).head? = some x ∧
        x.token = c.token ∧ x.ctx = c.ctx ∧ x.code = 1)

/-- Bytes of an access that begins at byte y of a run of `len`: it stays within the run, and within a 64-byte granule on each side (R188). -/
def Spec.pieceOf (len y : Nat) (a : Word) (l : Nat) : Nat := min (len - y) (min (64 - a.toNat % 64) (64 - l % 64))

/-- A command of cluster `cl` that runs, before its byte `c.step` of `total`, with none of its writes on their way. -/
def Spec.Running (s : State) (cl : Nat) (c : Cmd) (e : Engine) (total : Nat) : Prop :=
  s.findCmd cl c.token = some c ∧ c.engine = e ∧ c.started = true ∧ c.page = none ∧ c.step < total ∧ (∀ p ∈ s.net, p.token ≠ c.token) ∧
  (if e = .gather then (s.cluster cl).gatherSeq else (s.cluster cl).copySeq) < c.token.toNat % 2 ^ 55 + 256

/-- The events that perform the next access of a command; the second also ends it when no other is left. -/
def Spec.nextAccess (cl : Nat) (c : Cmd) (n total : Nat) (e : Instr) : Prop :=
  e = .accessPerformed (.engine cl c.token) ∨ (c.step + n = total ∧ e = .engineCommandComplete cl c.token)

/-- R185, R186, R187, R188, R220: a started copy performs its accesses run by run, each within 64-byte granules of both sides, and a gather row by row,
after it has read the row's index; the destination bytes of an access take the source's, every other byte of memory is as it was but for the access and
dirty bits of the pages, and after the last one the command's token reads DONE.  Stated where no data check, page or hold stands in the way. -/
def Spec.CopyCompletes : Prop :=
  (∀ (s t : State) (cl l g : Nat) (c : Cmd),
    let b := c.block
    let len := Spec.field b 2 0 32
    let c1 := Spec.field b 2 32 16
    let total := c1 * Spec.field b 2 48 16 * len
    let y := c.step % len
    let i1 := c.step / len % c1
    let i2 := c.step / len / c1
    let a := (Spec.copyByte b c.base i1 i2 y).1
    let toLocal : Bool := Spec.field b 6 0 1 = 0
    let n := Spec.pieceOf len y a l
    let src := if toLocal then g else scratchKey cl l
    let dst := if toLocal then scratchKey cl l else g
    Spec.CopyBlock b → Spec.Running s cl c .copy total → (Spec.copyByte b c.base i1 i2 y).2 = l → 0 ≤ (Spec.copyByte b c.base i1 i2 0).2 →
    s.engineReach cl c a (if toLocal then .read else .write) = (.ok g, t) → Spec.Unwatched s → Spec.Unwatched t →
    (∀ j, j < n → t.poisoned (src + j) = false) → ∀ e, Spec.nextAccess cl c n total e → Spec.Moves e s t cl c b src dst n total) ∧
  (∀ (s t u : State) (cl l g gi : Nat) (c : Cmd),
    let b := c.block
    let len := Spec.field b 2 0 32
    let total := Spec.field b 2 32 16 * len
    let y := c.step % len
    let r := c.step / len
    let row (x : Nat) : Word := b.getD 0 0 + c.base + BitVec.ofNat 64 x * b.getD 4 0 + BitVec.ofNat 64 y
    let off (y : Nat) : Int := (Spec.field b 1 0 21 : Int) + r * Spec.sfield b 5 0 + y
    Spec.GatherBlock b → 8 ≤ b.length → Spec.Running s cl c .gather total → off y = l → 0 ≤ off 0 → Spec.Unwatched s → Spec.Unwatched t → Spec.Unwatched u →
    (y = 0 → s.engineReach cl c (b.getD 3 0 + BitVec.ofNat 64 (4 * r)) .read = (.ok gi, t) → t.poisonIn gi 4 = false →
      let x := leNat (Memory.getList t.mem gi 4)
      let c' : Cmd := { c with block := b.take 8 ++ [BitVec.ofNat 64 x] }
      t.engineReach cl c' (row x) .read = (.ok g, u) → (∀ j, j < Spec.pieceOf len y (row x) l → u.poisoned (g + j) = false) →
      ∀ e, Spec.nextAccess cl c (Spec.pieceOf len y (row x) l) total e →
        Spec.Moves e s u cl c c'.block g (scratchKey cl l) (Spec.pieceOf len y (row x) l) total) ∧
    (y ≠ 0 →
      let x := (b.getD 8 0).toNat
      s.engineReach cl c (row x) .read = (.ok g, u) → (∀ j, j < Spec.pieceOf len y (row x) l → u.poisoned (g + j) = false) →
      ∀ e, Spec.nextAccess cl c (Spec.pieceOf len y (row x) l) total e →
        Spec.Moves e s u cl c b g (scratchKey cl l) (Spec.pieceOf len y (row x) l) total))

/-- When an engine command starts, and what a copy moves (R185, R186, R187, R188, R220). -/
def Obligations.EngineTransfers : Prop := Spec.RangeChecker ∧ Spec.CopyCompletes

/-! ## Bank commands (R191 to R195) -/

/-- R191: the formats, the element size that a start address must be a multiple of, and the bytes of a range. -/
def Spec.bankTakes (fn fmt : Nat) : Bool :=
  match fn, fmt with
  | 0, 2 | 0, 4 | 0, 5 | 1, 2 | 1, 4 | 1, 5 | 2, 4 | 2, 5 | 3, 4 => true
  | _, _ => false
def Spec.bankAlign (fn fmt : Nat) : Nat := if fn = 3 then 16 else if fmt = 5 then 2 else 4
def Spec.bankBytes (fn fmt n : Nat) : Nat := if n = 0 then 0 else if fn = 3 then 16 + 4 * n else if fmt = 5 then 2 * n else 4 * n

/-- Every byte of [a, a + n) lies in the local window, in a region of the hart. -/
def Spec.bankRange (h : Hart) (a : Word) (n : Nat) : Prop := ∀ j, j < n → Spec.Granted h ((a.toNat : Int) - 0x00FFFF0000000000 + j)

/-- A local offset of the range [a, a + n). -/
def Spec.inBank (a : Word) (n : Nat) (o : Int) : Prop := (a.toNat : Int) ≤ 0x00FFFF0000000000 + o ∧ 0x00FFFF0000000000 + o < a.toNat + n

/-- What accepting a bank command leaves: the command at the end of the pool, with the queued stores to its ranges and those of the bank
stream performed first; no register but the pc changes. -/
def Spec.BankAccepts (s t : State) (fn fmt n bytes : Nat) (d a : Word) (touched : Int → Prop) : Prop :=
  let cl := clusterOf s.cur.place
  ∃ (c : Cmd) (sel : Stream → Bool), sel .bank = true ∧
    (∀ p ∈ s.cur.stores, ∀ k ∈ p.act.keys, ∀ off : Nat, k = scratchKey cl off → touched off → sel p.stream = true) ∧ t.cur = (s.drain sel).cur.advance ∧ t.mem = (s.drain sel).mem ∧
    (t.cluster cl).pool = (s.cluster cl).pool ++ [c] ∧ c.engine = .bank ∧ c.token = bankToken ((s.cluster cl).bankSeq + 1) ∧
    c.owner = s.cur.place ∧ c.started = false ∧ c.step = 0 ∧
    c.block = [BitVec.ofNat 64 fn, BitVec.ofNat 64 fmt, BitVec.ofNat 64 n, d, a, BitVec.ofNat 64 bytes] ∧
    (t.cluster cl).bankSeq = (s.cluster cl).bankSeq + 1 ∧ ∀ k, k ≠ cl → t.cluster k = s.cluster k

/-- R191, R195, R245: BKADD, BKMAX, BKMUL and BKSMX are accepted into the bank stream when the control word, the alignment and the ranges
pass, and BKZERO when its count is a multiple of 4; a failing check traps. -/
def Spec.BankCommands : Prop :=
  (∀ (d a b : Reg) (s : State), PlainHart s → (∀ sel, (s.start.drain sel).blocked = none) →
    ∀ p ∈ [(0, Instr.bkadd d a b), (1, .bkmax d a b), (2, .bkmul d a b), (3, .bksmx d a b)],
    let fn : Nat := p.1
    let i := p.2
    let x := s.cur.rx b
    let n := (x.extractLsb' 0 16).toNat
    let fmt := (x.extractLsb' 16 4).toNat
    let bytes := Spec.bankBytes fn fmt n
    let da := s.cur.rx d
    let sa := s.cur.rx a
    let two := fn ≠ 2
    let touched (o : Int) : Prop := Spec.inBank da bytes o ∨ (two ∧ Spec.inBank sa bytes o)
    let meet := two ∧ da ≠ sa ∧ da.toNat < sa.toNat + bytes ∧ sa.toNat < da.toNat + bytes
    (x.toNat / 2 ^ 20 ≠ 0 ∨ Spec.bankTakes fn fmt = false ∨ meet →
      exec i s = .next (s.start.trapWord (encode i) { cause := 1, tval := 0 } s.start)) ∧
    (x.toNat / 2 ^ 20 = 0 → Spec.bankTakes fn fmt = true → ¬ meet →
      (da.toNat % Spec.bankAlign fn fmt ≠ 0 → exec i s = .next (s.start.trapWord (encode i) { cause := 4, tval := da } s.start)) ∧
      (da.toNat % Spec.bankAlign fn fmt = 0 → two → sa.toNat % Spec.bankAlign fn fmt ≠ 0 →
        exec i s = .next (s.start.trapWord (encode i) { cause := 4, tval := sa } s.start)) ∧
      (da.toNat % Spec.bankAlign fn fmt = 0 → (two → sa.toNat % Spec.bankAlign fn fmt = 0) → Spec.bankRange s.cur da bytes →
        (two → Spec.bankRange s.cur sa bytes) → (s.cluster (clusterOf s.cur.place)).held .bank < 112 →
        ∃ t, exec i s = .next t ∧ Spec.BankAccepts s.start t fn fmt n bytes da sa touched) ∧
      (da.toNat % Spec.bankAlign fn fmt = 0 → (two → sa.toNat % Spec.bankAlign fn fmt = 0) → ∀ off, touched off → ¬ Spec.Granted s.cur off →
        (∀ o, touched o → o < off → Spec.Granted s.cur o) →
        exec i s = .next (s.start.trapWord (encode i) { cause := 6, tval := BitVec.ofInt 64 (0x00FFFF0000000000 + off) } s.start)))) ∧
  (∀ (a b : Reg) (s : State), PlainHart s → (∀ sel, (s.start.drain sel).blocked = none) →
    let n := (s.cur.rx b).toNat
    let da := s.cur.rx a
    let i := Instr.bkzero a b
    (n % 4 ≠ 0 → exec i s = .next (s.start.trapWord (encode i) { cause := 1, tval := 0 } s.start)) ∧
    (n % 4 = 0 → da.toNat % 4 = 0 → Spec.bankRange s.cur da n → (s.cluster (clusterOf s.cur.place)).held .bank < 112 →
      ∃ t, exec i s = .next t ∧ Spec.BankAccepts s.start t 4 2 (n / 4) n da 0 (Spec.inBank da n)))

/-- What a granule of a bank command leaves: element i of those it `hits`, at `base` + i·B, takes its value, every byte outside those elements
and outside `more` is as it was, and the command goes on to the next granule, or after the last leaves the pool (R192). -/
def Spec.Granule (s : State) (cl id : Nat) (c : Cmd) (block : List Word) (base B bytes : Nat) (hits : Nat → Prop) (more : Nat → Prop) (value : Nat → Nat)
    (t : State) : Prop :=
  let all := ((c.block.getD 3 0).toNat % 64 + bytes + 63) / 64
  (∀ i, hits i → leNat (Memory.getList t.mem (base + i * B) B) = value i % 2 ^ (8 * B)) ∧
  (∀ k, ¬ more k → (∀ i, hits i → ¬ (base + i * B ≤ k ∧ k < base + i * B + B)) → Memory.get t.mem k = Memory.get s.mem k) ∧
  (c.step + 1 < all → t.findCmd cl (bankToken id) = some { c with block := block, step := c.step + 1 }) ∧
  (c.step + 1 = all → (t.cluster cl).pool = (s.cluster cl).pool.filter (fun x => !x.is (bankToken id)))

/-- The local range of a bank command: inside the window. -/
def Spec.inWindow (a : Word) (bytes : Nat) : Prop := 0x00FFFF0000000000 ≤ a.toNat ∧ a.toNat + bytes ≤ 0x00FFFF0000000000 + 2 ^ 21

/-- R192, R262: a granule of a started BKADD, BKMAX or BKMUL writes each element in it with the sum, maximum or product of the element and the source
element or the factor, and one of BKZERO writes zeros. -/
def Spec.BankPerforms : Prop :=
  ∀ (s : State) (cl id : Nat) (c : Cmd) (fn fmt n : Nat) (d a : Word),
    let B := if fmt = 5 then 2 else 4
    let bytes := n * B
    s.findCmd cl (bankToken id) = some c → c.token = bankToken id → Spec.Unwatched s →
    c.started = true → fn = 0 ∨ fn = 1 ∨ fn = 2 ∨ fn = 4 → fmt = 2 ∨ fmt = 4 ∨ fmt = 5 → (fn = 2 → fmt ≠ 2) → (fn = 4 → fmt = 2) → 1 ≤ n →
    Spec.inWindow d bytes → Spec.inWindow a bytes ∨ fn = 2 ∨ fn = 4 → d.toNat % B = 0 → a.toNat % B = 0 ∨ fn = 2 ∨ fn = 4 →
    (d = a ∨ d.toNat + bytes ≤ a.toNat ∨ a.toNat + bytes ≤ d.toNat ∨ fn = 2 ∨ fn = 4) →
    c.block = [BitVec.ofNat 64 fn, BitVec.ofNat 64 fmt, BitVec.ofNat 64 n, d, a, BitVec.ofNat 64 bytes] →
    c.step < (d.toNat % 64 + bytes + 63) / 64 →
    let dk := scratchKey cl (d.toNat - 0x00FFFF0000000000)
    let ak := scratchKey cl (a.toNat - 0x00FFFF0000000000)
    let f := ffmt fmt
    let value (old src : Nat) : Nat :=
      if fn = 0 then (if fmt = 2 then (old + src) % 2 ^ 32 else (faddF f 0 old src).1)
      else if fn = 1 then
        (if fmt = 2 then (if (BitVec.ofNat 32 old).toInt < (BitVec.ofNat 32 src).toInt then src else old) else (minMaxNum f true old src).1)
      else if fn = 2 then (deliver f 0 (mulEx (readF f old) (readF fp32 (a.toNat % 2 ^ 32)))).1
      else 0
    ∃ t, exec (.bankCommandPerform cl id) s = .next t ∧
      Spec.Granule s cl id c c.block dk B bytes (fun i => i < n ∧ (d.toNat % 64 + i * B) / 64 = c.step) (fun _ => False)
        (fun i => value (leNat (Memory.getList s.mem (dk + i * B) B)) (leNat (Memory.getList s.mem (ak + i * B) B))) t

/-- RN(x · f) of R193: f is 1 where the two maxima are equal, else the exact power of two of their difference. -/
def Spec.faded (x m mn : Nat) : Nat :=
  (deliver fp32 0 (if eqEx (readF fp32 m) (readF fp32 mn) then (readF fp32 x, 0)
    else mulExp2Ex (readF fp32 x) (addEx 0 (readF fp32 m) (readF fp32 mn).negate).1)).1

/-- R193: a started BKSMX merges the two maxima, sums and accumulators: the first granule writes the new maximum and the merged sum, and each granule
merges its accumulators; a NaN among the maxima and the sums makes every written word the canonical NaN. -/
def Spec.BankMerges : Prop :=
  ∀ (s : State) (cl id : Nat) (c : Cmd) (n : Nat) (d a : Word) (rest : List Word),
    let bytes := 16 + 4 * n
    s.findCmd cl (bankToken id) = some c → c.token = bankToken id → Spec.Unwatched s → c.started = true → 1 ≤ n → n < 2 ^ 16 →
    Spec.inWindow d bytes → Spec.inWindow a bytes → d.toNat % 16 = 0 → a.toNat % 16 = 0 →
    (d = a ∨ d.toNat + bytes ≤ a.toNat ∨ a.toNat + bytes ≤ d.toNat) →
    c.block = [3, 4, BitVec.ofNat 64 n, d, a, BitVec.ofNat 64 bytes] ++ rest → (c.step = 0 → rest = []) → (c.step ≠ 0 → rest.length = 5) →
    c.step < (d.toNat % 64 + bytes + 63) / 64 →
    let dk := scratchKey cl (d.toNat - 0x00FFFF0000000000)
    let ak := scratchKey cl (a.toNat - 0x00FFFF0000000000)
    let word (k : Nat) : Nat := leNat (Memory.getList s.mem k 4)
    let first (k i : Nat) : Nat := if c.step = 0 then word k else (rest.getD i 0).toNat
    let m := first dk 0
    let z := first (dk + 4) 1
    let m' := first ak 2
    let z' := first (ak + 4) 3
    let nan := [m, z, m', z'].any (fun x => (readF fp32 x).isNan)
    let mn := (minMaxNum fp32 true m m').1
    let merged (x y : Nat) : Nat := if nan then fp32.nan else (faddF fp32 0 (Spec.faded x m mn) (Spec.faded y m' mn)).1
    ∃ (t : State) (bad : Word), exec (.bankCommandPerform cl id) s = .next t ∧
      (c.step = 0 → leNat (Memory.getList t.mem dk 4) = (if nan then fp32.nan else mn) ∧ leNat (Memory.getList t.mem (dk + 4) 4) = merged z z') ∧
      Spec.Granule s cl id c (if c.step = 0 then c.block ++ [BitVec.ofNat 64 m, BitVec.ofNat 64 z, BitVec.ofNat 64 m', BitVec.ofNat 64 z', bad] else c.block)
        (dk + 16) 4 bytes (fun i => i < n ∧ (d.toNat % 64 + 16 + i * 4) / 64 = c.step) (fun k => c.step = 0 ∧ dk ≤ k ∧ k < dk + 8)
        (fun i => merged (word (dk + 16 + i * 4)) (word (ak + 16 + i * 4))) t

/-- R194: BKRED writes to each active column of vd the sum of its n rows, added in ascending row, in a 1D vtype of the control word's
format.  That its traps set bit 63 of `tcause` is the model's choice (log 15). -/
def Spec.BankReduces : Prop :=
  ∀ (d a b : Reg) (s : State), PlainHart s → s.cur.reissue = none → s.cur.dropping = false →
    let h := s.cur
    let c := h.vctx false
    let x := h.rx b
    let n := (x.extractLsb' 0 16).toNat
    let fmt := (x.extractLsb' 16 4).toNat
    let at_ := h.rx a
    let i := Instr.bkred d a b
    (x.toNat / 2 ^ 20 ≠ 0 ∨ (fmt ≠ 2 ∧ fmt ≠ 4) ∨ n = 0 ∨ c.twoD = true ∨ c.fmt ≠ fmt ∨ groupOk d.toNat c.g = false →
      exec i s = .next (s.start.trapWord (encode i) { cause := 1, tval := 0, vec := true } s.start)) ∧
    (x.toNat / 2 ^ 20 = 0 → (fmt = 2 ∨ fmt = 4) → 1 ≤ n → c.twoD = false → c.fmt = fmt → groupOk d.toNat c.g = true → h.regBits = 256 * c.lanes →
      at_.toNat % 4 = 0 → 1 ≤ c.vl → Spec.bankRange h at_ (n * c.vl * 4) →
      let off := at_.toNat - 0x00FFFF0000000000
      let cl := clusterOf h.place
      let u := s.start.bankTurn
      u.blocked = none → Spec.Unwatched s →
      (∀ j, j < n * c.vl * 4 → u.poisoned (scratchKey cl (off + j)) = false) →
      let row (r j : Nat) : Nat := leNat (Memory.getList u.mem (scratchKey cl (off + (r * c.vl + j) * 4)) 4)
      let sum (j : Nat) : Nat :=
        (List.range' 1 (n - 1)).foldl (fun acc r => if fmt = 2 then (acc + row r j) % 2 ^ 32 else (faddF fp32 0 acc (row r j)).1) (row 0 j)
      ∃ t, exec i s = .next ({ u with cur := t } : State).completed ∧
        ElementsWritten u.cur c {} [{ base := d.toNat, regs := c.g, width := 32, pick := fun r => r.val }] (fun _ => false)
          (fun j => { val := sum j }) t)

/-- Bank commands and BKRED (R191, R192, R193, R194, R195, R245, R262). -/
def Obligations.BankOperations : Prop := Spec.BankCommands ∧ Spec.BankPerforms ∧ Spec.BankMerges ∧ Spec.BankReduces

/-! ## Instar streams (R197 to R202, R264 to R272) -/

/-- R197: the handle checks of every pyramid instruction: a handle that is not a multiple of 256, one in the local or reserved window, and,
but for PYINIT, one that no PYINIT has made ready.  That this last trap sets bit 63 of `tcause` for PYAPP and PYLD, and not for PYSTAT, is the model's
choice (log 15). -/
def Spec.StreamHandles : Prop :=
  ∀ (d h v : Reg) (x t : Reg) (level : BitVec 4) (settled : Bool) (s : State), PlainHart s →
    let a := s.cur.rx h
    let py := [(Instr.pyapp d h v, true), (.pystat d h settled, false), (.pyld d h t x level settled, true)]
    let all := Instr.pyinit d h :: py.map (fun p => p.1)
    (a.toNat % 256 ≠ 0 → ∀ i ∈ all, exec i s = .next (s.start.trapWord (encode i) { cause := 4, tval := a } s.start)) ∧
    (a.toNat % 256 = 0 → Spec.InWindow a → ∀ i ∈ all,
      exec i s = .next (s.start.trapWord (encode i) { cause := 6, tval := a } s.start)) ∧
    (∀ u, s.start.handleOk a = (.ok (), u) → u.cur = s.cur → u.blocked = none →
      (∀ r ∈ u.instars, ¬ (r.ctx = s.cur.sctx ∧ r.handle = a)) → ∀ p ∈ py,
      exec p.1 s = .next (s.start.trapWord (encode p.1) { cause := 6, tval := a, vec := p.2 } u))

/-- R264, R266, R267: the descriptor's own checks. -/
def Spec.GoodDescriptor (b : List Word) : Prop :=
  let f (k lo n : Nat) := Spec.field b k lo n
  let fmt := f 1 16 4
  let comb := f 1 24 4
  let n := f 3 0 5
  let cap (k : Nat) := f (4 + k / 8) (8 * (k % 8)) 8
  f 1 28 36 = 0 ∧ f 1 20 4 = 0 ∧ f 1 13 3 = 0 ∧ f 3 25 39 = 0 ∧ f 3 5 11 = 0 ∧ (∀ k, 6 ≤ k → k < 32 → f k 0 64 = 0) ∧
  fmt ≤ 8 ∧ 1 ≤ f 1 0 13 ∧ f 1 0 13 * fmtWidth fmt / 8 ≤ 4096 ∧ 1 ≤ n ∧ n ≤ 16 ∧
  (∀ k, k < 16 → if k < n then 1 ≤ cap k ∧ cap k ≤ 8 else cap k = 0) ∧
  (if comb ≤ 3 then fmt ≤ 6 else if comb = 4 then fmt = 4 else comb ≤ 7) ∧
  (if comb = 7 then f 2 0 64 ≠ 0 ∧ f 2 0 2 = 0 else f 2 0 64 = 0) ∧
  f 3 16 9 < 384 ∧ f 0 0 8 = 0 ∧ f 0 8 5 = f 3 16 9 % 32

/-- What an operation of the hub through a context's tables leaves of memory: every byte is as it was but for the access and dirty bits that
the walks set (R258). -/
def Spec.MarksOnly (s t : State) : Prop := ∀ k, Memory.get t.mem k &&& 0x9F#8 = Memory.get s.mem k &&& 0x9F#8

/-- R198, R258, R266: what a validation leaves: a descriptor that fails leaves every stream as it was; one that passes makes its stream ready and
empty, with next time 0 and no backlog, and leaves every other stream as it was; memory keeps all but the bits the walks set. -/
def Spec.Validates (s : State) (ctx sptb handle : Word) (r : InitEnd) (t : State) : Prop :=
  Spec.MarksOnly s t ∧ t.cur = s.cur ∧ t.others = s.others ∧ t.blocked = s.blocked ∧ (r ≠ .ready → t.instars = s.instars) ∧
  (∀ b u, s.readDesc sptb handle = (.ok b, u) → (¬ Spec.GoodDescriptor b → r = .bad) ∧
    (r = .ready → Spec.GoodDescriptor b ∧
      (∃ i, t.instar ctx handle = some i ∧ i.next = 0 ∧ i.halted = false ∧ i.backlog = 0 ∧ (∀ k, i.level k = []) ∧ i.store = b.getD 0 0 ∧
        i.home = Spec.field b 3 16 9 ∧ i.fmt = Spec.field b 1 16 4 ∧ i.comb = Spec.field b 1 24 4 ∧ i.levelsN = Spec.field b 3 0 5 ∧
        i.size = Spec.field b 1 0 13 * fmtWidth (Spec.field b 1 16 4) / 8) ∧
      ∀ c x, ¬ (c = ctx ∧ x = handle) → t.instar c x = s.instar c x))

/-- No hart, bound or folded, has gone on from an append that still waits at a home NMU (R63, R270). -/
def Spec.NoneSent (s : State) : Prop := ∀ h ∈ s.harts ++ s.frames.map (fun f => f.hart), h.sent = []

/-- No request that waits at a home NMU arrived before the current hart's (R270). -/
def Spec.First (s : State) : Prop :=
  (∀ x ∈ s.others, ∀ w n, (x.status = .waiting (.again w) ∨ ∃ id, x.status = .waiting (.initPage w id)) → x.arrived = some n →
    ∃ m, s.cur.arrived = some m ∧ m ≤ n) ∧ Spec.NoneSent s

/-- The request waits, in its order of arrival. -/
def Spec.waits (s : State) (i : Instr) : State := { s.arrive with cur := { s.arrive.cur with status := .waiting (.again (encode i)) } }

/-- The kernel of a merge of the stream runs. -/
def Spec.merging (s : State) (ctx handle : Word) : Prop := ∃ p ∈ s.nmus, ∃ r, p.2.run = some r ∧ r.cmd.kind = .merge ctx handle

/-- No hart waits at its instruction. -/
def Spec.NoneWaits (l : List Hart) : Prop := ∀ x ∈ l, ∀ w, x.status ≠ .waiting (.again w) ∧ ∀ id, x.status ≠ .waiting (.initPage w id)

/-- A PYINIT waits for a page of the host's, in its order of arrival (R260, R270). -/
def Spec.asksPage (t : State) (w : BitVec 32) (p : Word) : State :=
  let u := t.arrive
  let ask : PageReq := { id := t.hub.pageSeq, who := .pyinit t.cur.place, ctx := t.cur.sctx, addr := p, tval := p }
  { u with hub := { t.hub with pages := t.hub.pages ++ [ask], pageSeq := t.hub.pageSeq + 1 }
           cur := { u.cur with status := .waiting (.initPage w t.hub.pageSeq) } }

/-- R198, R260, R266, R270: PYINIT, after what the bank stream holds and earlier requests, writes 0 to xd when the stream is ready and 1 when
its descriptor is refused; it waits for the host on a missing page, without a trap, and a page that was answered and is still missing refuses
the descriptor; it waits for a merge that runs, and for a held segment.  INSTAR_INIT_REQUEST is the home NMU's validation of another request,
or of the PYINIT that waits. -/
def Spec.StreamInit : Prop :=
  (∀ (d h : Reg) (s u : State) (t0 : Trap), PlainHart s → s.start.handleOk (s.cur.rx h) = (.error t0, u) → t0.cause = 5 → u.blocked = none →
    pageOf (s.cur.rx h) ∉ u.cur.paged →
    exec (.pyinit d h) s = .next (Spec.asksPage u (encode (.pyinit d h)) (s.cur.rx h))) ∧
  (∀ (d h : Reg) (s u t : State) (r : InitEnd), PlainHart s → s.observing = false → s.start.handleOk (s.cur.rx h) = (.ok (), u) →
    let a := s.cur.rx h
    let i := Instr.pyinit d h
    let v := u.bankTurn
    v.blocked = none → v.cur.strikes = [] → Spec.First v →
    (Spec.merging v v.cur.sctx a → exec i s = .next (Spec.waits v i)) ∧
    (¬ Spec.merging v v.cur.sctx a → v.instarInit v.cur.sctx v.cur.sptb a = (r, t) →
      Spec.Validates v v.cur.sctx v.cur.sptb a r t ∧
      (r = .ready → exec i s = .next ({ t with cur := t.cur.wx d 0 } : State).completed) ∧
      (r = .bad → exec i s = .next ({ t with cur := t.cur.wx d 1 } : State).completed) ∧
      (r = .held → exec i s = .next { s.start with cur := { s.cur with status := .waiting .hold } }) ∧
      (∀ p, r = .page p → pageOf p ∈ t.cur.paged → exec i s = .next ({ t with cur := t.cur.wx d 1 } : State).completed) ∧
      (∀ p, r = .page p → pageOf p ∉ t.cur.paged → exec i s = .next (Spec.asksPage t (encode i) p)))) ∧
  (∀ (ctx handle : Word) (c : Context) (s : State), s.context ctx = some c → Spec.NoneWaits s.harts → ¬ Spec.merging s ctx handle →
    ∃ r t, exec (.instarInitRequest ctx handle) s = .next t ∧ Spec.Validates s ctx c.sptb handle r t) ∧
  (∀ (d h : Reg) (s : State), PlainHart s → s.cur.held = false → s.cur.status = .waiting (.again (encode (.pyinit d h))) → Spec.NoneWaits s.others →
    ∃ t, exec (.instarInitRequest s.cur.sctx (s.cur.rx h)) s = .next t ∧
      exec (.pyinit d h) { s with cur := { s.cur with status := .running } } = .next t)

/-- R269, R270: an append of an item gives it the time `next` and a free slot of level 0, which then holds its bytes; the items of the other
levels stay, and so does the table when there is more than one level. -/
def Spec.Appended (s : State) (i : Instar) (item : List Byte) (t : State) : Prop :=
  ∃ j p, t.instar i.ctx i.handle = some j ∧ j.next = i.next + 1 ∧ j.halted = i.halted ∧ (∀ x ∈ i.level 0, x.slot ≠ p) ∧ p ≤ i.cap 0 ∧
    (1 < i.levelsN → j.level 0 = i.level 0 ++ [{ start := i.next, slot := p }]) ∧
    (i.levelsN = 1 → j.level 0 = (i.level 0 ++ [({ start := i.next, slot := p } : Item)]).drop ((i.level 0).length + 1 - i.cap 0)) ∧
    (∀ k, 1 ≤ k → j.level k = i.level k) ∧
    ((i.slotKeys 0 p).Nodup → i.slotKeys 0 p ≠ [] → readKeys t.mem (i.slotKeys 0 p) = item) ∧
    (∀ k, k ∉ i.slotKeys 0 p → Memory.get t.mem k = Memory.get s.mem k)

/-- R199, R265, R269, R270, R272: PYAPP, after what the bank stream holds, appends the first S bytes of its group and writes the time to xd;
it waits while merges are due and while an earlier request waits, and is refused with all ones on a halted stream, a full count or a descriptor
changed since.  INSTAR_APPEND appends an item that arrived, or the one of a PYAPP that waits, or of one whose hart has gone on, which then takes its
time (R63); that a hart may go on, and where such an append stands among the requests that wait, is log 64.  Bit 63 of `tcause` in PYAPP's traps is
log 15. -/
def Spec.StreamAppend : Prop :=
  (∀ (d h v : Reg) (s u t : State) (i : Instar) (size : Nat), PlainHart s → s.observing = false →
    s.start.handleReady (s.cur.rx h) true = (.ok i, u) → u.apItemSize (s.cur.rx h) = (.ok size, t) →
    i.levels.length = i.levelsN → (i.level 0).length ≤ i.cap 0 → 1 ≤ i.levelsN →
    let c := t.cur.vctx false
    let fits := v.toNat % c.g = 0 ∧ size ≤ 32 * c.lanes * c.g
    let w := Instr.pyapp d h v
    let b := t.bankTurn
    (t.blocked = none → ¬ fits → exec w s = .next (s.start.trapWord (encode w) { cause := 1, tval := 0, vec := true } t)) ∧
    (b.blocked = none → b.cur.strikes = [] → b.instar i.ctx i.handle = some i → fits →
      (b.pyBefore b.cur.sctx (s.cur.rx h) = true → exec w s = .next (Spec.waits b w)) ∧
      (Spec.First b →
        (size ≠ i.size ∨ i.halted = true → exec w s = .next ({ b with cur := b.cur.wx d (-1) } : State).completed) ∧
        (size = i.size → i.halted = false → i.backlog ≠ 0 → exec w s = .next (Spec.waits b w)) ∧
        (size = i.size → i.halted = false → i.backlog = 0 → 2 ^ 52 ≤ i.next → ∃ r, exec w s = .next r ∧
          r.cur = (b.cur.wx d (-1)).advance ∧ r.instars = b.instars ∧ r.mem = b.mem) ∧
        (size = i.size → i.halted = false → i.backlog = 0 → i.next < 2 ^ 52 → ∃ r, exec w s = .next r ∧
          r.cur = (b.cur.wx d (BitVec.ofNat 64 i.next)).advance ∧ Spec.Appended b i (leBytes size (b.cur.groupN v.toNat c.g)) r)))) ∧
  (∀ (ctx handle : Word) (item : List Byte) (s : State) (i : Instar), s.instar ctx handle = some i → i.ctx = ctx → i.handle = handle →
    i.levels.length = i.levelsN → (i.level 0).length ≤ i.cap 0 → 1 ≤ i.levelsN → i.backlog = 0 → item.length = i.size → i.halted = false →
    i.next < 2 ^ 52 → Spec.NoneWaits s.harts → Spec.NoneSent s →
    ∃ t, exec (.instarAppend ctx handle item) s = .next t ∧ Spec.Appended s i item t ∧ t.cur = s.cur) ∧
  (∀ (d h v : Reg) (s : State) (i : Instar) (a : Nat) (rest : List Turn), s.parkIdle = s → s.schedule = .send s.cur.place :: rest →
    s.cur.status = .waiting (.again (encode (.pyapp d h v))) → s.cur.held = false → s.cur.arrived = some a → s.instar s.cur.sctx (s.cur.rx h) = some i →
    step s = .next { s with schedule := rest, unit := .hart, cur := { s.cur.advance with status := .running, sent := s.cur.sent ++
      [{ word := encode (.pyapp d h v), handle := i.handle, item := leBytes i.size (s.cur.groupN v.toNat (s.cur.vctx false).g), arrived := a }] } }) ∧
  (∀ (d h v : Reg) (s : State) (i : Instar) (x : Sent), s.instar s.cur.sctx x.handle = some i → i.ctx = s.cur.sctx → i.handle = x.handle →
    x.word = encode (.pyapp d h v) → s.cur.sent = [x] → (∀ h ∈ s.others ++ s.frames.map (fun f => f.hart), h.sent = []) → s.cur.status = .running →
    i.levels.length = i.levelsN → (i.level 0).length ≤ i.cap 0 → 1 ≤ i.levelsN → i.backlog = 0 → x.item.length = i.size → Spec.NoneWaits s.harts →
    (i.halted = true → exec (.instarAppend s.cur.sctx x.handle x.item) s = .next { s with cur := { s.cur.wx d (-1) with sent := [] } }) ∧
    (i.halted = false → i.next < 2 ^ 52 → ∃ t, exec (.instarAppend s.cur.sctx x.handle x.item) s = .next t ∧ Spec.Appended s i x.item t ∧
      t.cur = { s.cur.wx d (BitVec.ofNat 64 i.next) with sent := [] })) ∧
  (∀ (d h v : Reg) (s : State) (size : Nat), PlainHart s → s.cur.held = false → s.cur.status = .waiting (.again (encode (.pyapp d h v))) →
    Spec.NoneWaits s.others →
    let item := leBytes size (s.cur.groupN v.toNat (s.cur.vctx false).g)
    ∃ t, exec (.instarAppend s.cur.sctx (s.cur.rx h) item) s = .next t ∧
      exec (.pyapp d h v) { s with cur := { s.cur with status := .running } } = .next t)

/-- R267: the merged element of each built-in combiner; of LSE the special values and log2 (2^a + 2^a) = a + 1. -/
def Spec.Combiners : Prop :=
  (∀ (fmt a b : Nat), fmt ≤ 3 → a < 2 ^ fmtWidth fmt → b < 2 ^ fmtWidth fmt →
    let w := fmtWidth fmt
    let x := (BitVec.ofNat w a).toInt
    let y := (BitVec.ofNat w b).toInt
    let is (code : Nat) (v : Int) := (BitVec.ofNat w (combineN code fmt a b)).toInt = v ∧ combineN code fmt a b < 2 ^ w
    combineN 0 fmt a b = (a + b) % 2 ^ w ∧ is 1 (max x y) ∧ is 2 (min x y) ∧ is 3 ((x + y) / 2)) ∧
  (∀ (fmt a b : Nat), fmt = 4 ∨ fmt = 5 ∨ fmt = 6 →
    let f := ffmt fmt
    (∀ p q, Spec.value f a = some p → Spec.value f b = some q → ∃ e, Spec.rational e = some ((p + q) / 2) ∧ combineN 3 fmt a b = (deliver f 0 (e, 0)).1) ∧
    ((readF f a).isNan ∨ (readF f b).isNan → combineN 0 fmt a b = f.nan ∧ combineN 3 fmt a b = f.nan) ∧
    combineN 0 fmt a b = (faddF f 0 a b).1 ∧ combineN 1 fmt a b = (minMaxNum f true a b).1 ∧ combineN 2 fmt a b = (minMaxNum f false a b).1) ∧
  (∀ (a b : Nat), a < 2 ^ 32 → b < 2 ^ 32 → ((readF fp32 a).isNan ∨ (readF fp32 b).isNan → combineN 4 4 a b = fp32.nan) ∧
    (∀ p, Spec.value fp32 a = some p → combineN 4 4 a 0xFF800000 = (deliver fp32 0 (readF fp32 a, 0)).1 ∧
      combineN 4 4 0xFF800000 a = (deliver fp32 0 (readF fp32 a, 0)).1 ∧ combineN 4 4 a 0x7F800000 = 0x7F800000 ∧
      ∃ e, Spec.rational e = some (p + 1) ∧ combineN 4 4 a a = (deliver fp32 0 (e, 0)).1)) ∧
  (∀ (fmt a b : Nat), combineN 5 fmt a b = a ∧ combineN 6 fmt a b = b)

/-- R268 to R270, R272: INSTAR_MERGE performs the first merge due: the two oldest items of the lowest level above its capacity become one item
of the next level, whose elements are the combined ones and whose span starts at the older's; a source that fails its check halts the stream
with its items in place, and a PROG merge becomes a command of the home NMU. -/
def Spec.StreamMerge : Prop :=
  ∀ (ctx handle : Word) (s : State) (i : Instar) (k : Nat) (a b : Item) (rest : List Item), s.instar ctx handle = some i → i.ctx = ctx →
    i.handle = handle → i.halted = false → (s.nmu i.home).power ≠ .down → i.levels.length = i.levelsN →
    k + 1 < i.levelsN → i.level k = a :: b :: rest → i.cap k < (i.level k).length → (∀ j, j < k → (i.level j).length ≤ i.cap j) →
    (i.level (k + 1)).length ≤ i.cap (k + 1) → (i.level (i.levelsN - 1)).length ≤ i.cap (i.levelsN - 1) →
    let bad := ∃ x ∈ [a, b], ∃ key ∈ i.slotKeys k x.slot, s.poisoned key = true
    (bad → ∃ t, exec (.instarMerge ctx handle) s = .next t ∧ t.instar ctx handle = some { i with halted := true } ∧ t.mem = s.mem) ∧
    (¬ bad → i.comb = 7 → (∀ c ∈ (s.nmu i.home).queue, c.kind ≠ .merge ctx handle) → (s.nmu i.home).run = none →
      ∃ t c, exec (.instarMerge ctx handle) s = .next t ∧ (t.nmu i.home).queue = (s.nmu i.home).queue ++ [c] ∧ c.kind = .merge ctx handle ∧
        c.block.take 6 = [i.kernel, i.slotAddr k a.slot, i.slotAddr k a.slot, i.slotAddr k b.slot, i.slotAddr (k + 1) (i.freeSlot (k + 1)),
          BitVec.ofNat 64 i.size] ∧ t.instars = s.instars ∧ t.mem = s.mem) ∧
    (¬ bad → i.comb < 7 → ∃ t j p, exec (.instarMerge ctx handle) s = .next t ∧ t.instar ctx handle = some j ∧ j.level k = rest ∧
      (∀ x ∈ i.level (k + 1), x.slot ≠ p) ∧ j.next = i.next ∧ (∀ m, m ≠ k → m ≠ k + 1 → j.level m = i.level m) ∧
      (let all : List Item := i.level (k + 1) ++ [{ start := a.start, slot := p }]
       j.level (k + 1) = if k + 2 = i.levelsN then all.drop (all.length - i.cap (k + 1)) else all) ∧
      ((i.slotKeys (k + 1) p).Nodup → i.fmt ≤ 8 → ∀ e, e < i.elems → i.size = i.elems * (fmtWidth i.fmt / 8) →
        let at_ (m : List Host.Cell) (lv sl : Nat) := elemN (leNat (readKeys m (i.slotKeys lv sl))) (fmtWidth i.fmt) e
        at_ t.mem (k + 1) p = combineN i.comb i.fmt (at_ s.mem k a.slot) (at_ s.mem k b.slot) % 2 ^ fmtWidth i.fmt) ∧
      (∀ key, key ∉ i.slotKeys (k + 1) p → Memory.get t.mem key = Memory.get s.mem key))

/-- A stored item of level j covers a time. -/
def Spec.Covers (i : Instar) (j : Nat) (y : Item) (t : Nat) : Prop :=
  j < i.levelsN ∧ y ∈ i.level j ∧ y.start ≤ t ∧ t < y.start + 2 ^ j

/-- R200: the span descriptor of a load at time t and level k: FUTURE, EXPIRED, or the item that covers t, EXACT, COARSER or FINER. -/
def Spec.Answers (i : Instar) (t k : Nat) (x : Word) (got : Option (Nat × Item)) : Prop :=
  let word (status level start : Nat) : Word := BitVec.ofNat 4 status ++ 0#2 ++ BitVec.ofNat 6 level ++ BitVec.ofNat 52 start
  (i.next ≤ t → got = none ∧ x = word 3 0 i.next) ∧
  (t < i.next → (∀ j y, ¬ Spec.Covers i j y t) → got = none ∧
    ((∀ j, j < i.levelsN → i.level j = []) → x = word 4 0 0) ∧
    (∀ j y l, j < i.levelsN → i.level j = y :: l → (∀ m, j < m → m < i.levelsN → i.level m = []) → x = word 4 j y.start)) ∧
  (∀ j y, t < i.next → Spec.Covers i j y t → (∀ j' y', Spec.Covers i j' y' t → j' = j ∧ y' = y) → got = some (j, y) ∧
    x = word (if j = k then 0 else if k < j then 1 else 2) j y.start)

/-- R200, R201, R265, R271, R272: PYLD, unsettled and with no recorder or settled with no merge due, answers from the items as they stand: xs
takes the span descriptor, the first S bytes of the group at vd the item, and no other byte changes; a settled one waits while merges are due or
an earlier request waits, and it traps when the item's data fail their check (bit 63 of `tcause` in its traps is log 15, the order of the requests that
wait log 64).  INSTAR_LOAD_SERVE serves one that waits. -/
def Spec.StreamLoad : Prop :=
  (∀ (vd h tt xs : Reg) (level : BitVec 4) (settled : Bool) (s u t : State) (i : Instar) (size : Nat), PlainHart s → s.observing = false →
    s.start.handleReady (s.cur.rx h) true = (.ok i, u) → u.apItemSize (s.cur.rx h) = (.ok size, t) →
    i.levels.length = i.levelsN → i.levelsN ≤ 16 →
    let c := t.cur.vctx false
    let fits := vd.toNat % c.g = 0 ∧ size ≤ 32 * c.lanes * c.g
    let w := Instr.pyld vd h tt xs level settled
    let b := t.bankTurn
    let time := (b.cur.rx tt).toNat
    (t.blocked = none → ¬ fits → exec w s = .next (s.start.trapWord (encode w) { cause := 1, tval := 0, vec := true } t)) ∧
    (t.blocked = none → fits → size ≠ i.size → exec w s = .next (s.start.trapWord (encode w) { cause := 6, tval := s.cur.rx h, vec := true } t)) ∧
    (b.blocked = none → b.cur.strikes = [] → fits → size = i.size →
      (settled = true → i.halted = false → i.backlog ≠ 0 → exec w s = .next (Spec.waits b w)) ∧
      (settled = true → b.pyBefore i.ctx i.handle = true → exec w s = .next (Spec.waits b w)) ∧
      ((settled = false ∧ b.recorder b.cur.launch = none) ∨ (settled = true ∧ Spec.First b ∧ (i.halted = true ∨ i.backlog = 0)) →
        (b.nmu i.home).power ≠ .down → ∃ x got, Spec.Answers i time level.toNat x got ∧
        (got = none → exec w s = .next ({ b with cur := b.cur.wx xs x } : State).completed) ∧
        (∀ j y, got = some (j, y) → (∃ key ∈ i.slotKeys j y.slot, b.poisoned key = true) →
          exec w s = .next (s.start.trapWord (encode w) { cause := 8, tval := i.slotAddr j y.slot, vec := true } b)) ∧
        (∀ j y, got = some (j, y) → (∀ key ∈ i.slotKeys j y.slot, b.poisoned key = false) →
          ∃ g : Hart, exec w s = .next ({ b with cur := g.wx xs x } : State).completed ∧
            g = { b.cur with v := g.v, dirty := g.dirty } ∧
            (∀ n, n < 32 * c.lanes * c.g → elemN (g.groupN vd.toNat c.g) 8 n =
              if n < size then ((readKeys b.mem (i.slotKeys j y.slot)).getD n 0).toNat else elemN (b.cur.groupN vd.toNat c.g) 8 n) ∧
            (∀ k, k < 32 → ¬ (vd.toNat ≤ k ∧ k < vd.toNat + c.g) → g.rv k = b.cur.rv k ∧ g.dirty.getLsbD k = b.cur.dirty.getLsbD k))))) ∧
  (∀ (vd h tt xs : Reg) (level : BitVec 4) (settled : Bool) (s : State), PlainHart s → s.cur.held = false → Spec.NoneWaits s.others →
    s.cur.status = .waiting (.again (encode (.pyld vd h tt xs level settled))) →
    ∃ t, exec (.instarLoadServe s.cur.sctx (s.cur.rx h) (s.cur.rx tt) level settled) s = .next t ∧
      exec (.pyld vd h tt xs level settled) { s with cur := { s.cur with status := .running } } = .next t)

/-- Pyramid streams: combiners, merges and PYLD (R200, R201, R265, R267, R268, R269, R270, R271, R272). -/
def Obligations.InstarItems : Prop := Spec.Combiners ∧ Spec.StreamMerge ∧ Spec.StreamLoad

/-- R201, R202: PYSTAT writes the backlog, saturating at 255, and the next time, settled once no merge is due and no earlier request waits;
INSTAR_STATUS_SERVE serves one that waits. -/
def Spec.StreamStatus : Prop :=
  (∀ (d h : Reg) (settled : Bool) (s t : State) (i : Instar), PlainHart s → s.observing = false → s.start.handleReady (s.cur.rx h) false = (.ok i, t) →
    let w := Instr.pystat d h settled
    let b := t.bankTurn
    b.blocked = none → b.cur.strikes = [] →
    (settled = true → i.halted = false → i.backlog ≠ 0 → exec w s = .next (Spec.waits b w)) ∧
    (settled = true → b.pyBefore i.ctx i.handle = true → exec w s = .next (Spec.waits b w)) ∧
    ((settled = false ∧ b.recorder b.cur.launch = none) ∨ (settled = true ∧ Spec.First b ∧ (i.halted = true ∨ i.backlog = 0)) → exec w s =
      .next ({ b with cur := b.cur.wx d (BitVec.ofNat 8 (min i.backlog 255) ++ 0#4 ++ BitVec.ofNat 52 i.next) } : State).completed)) ∧
  (∀ (d h : Reg) (settled : Bool) (s : State), PlainHart s → s.cur.held = false → Spec.NoneWaits s.others →
    s.cur.status = .waiting (.again (encode (.pystat d h settled))) →
    ∃ t, exec (.instarStatusServe s.cur.sctx (s.cur.rx h) settled) s = .next t ∧
      exec (.pystat d h settled) { s with cur := { s.cur with status := .running } } = .next t)

/-- Pyramid streams: handles, PYINIT, PYAPP and PYSTAT (R197, R198, R199, R201, R202, R260, R265, R266, R269, R270, R272). -/
def Obligations.InstarStreams : Prop := Spec.StreamHandles ∧ Spec.StreamInit ∧ Spec.StreamStatus ∧ Spec.StreamAppend

/-- Nothing keeps the current hart from what it asks of a home NMU: it has no access or bank command to be performed first, no write is on its
way, no other hart waits at its instruction, no kernel runs and no channel is powered down, no debug block serves a context, and no data fail
their check. -/
def Spec.Quiet (s : State) : Prop :=
  Spec.NoneSent s ∧ s.cur.stores = [] ∧ s.net = [] ∧ (∀ c ∈ (s.cluster (clusterOf s.cur.place)).pool, c.owner ≠ s.cur.place) ∧ Spec.NoneWaits s.others ∧
  (∀ p ∈ s.nmus, p.2.run = none ∧ p.2.power ≠ .down) ∧ Spec.Unwatched s ∧ s.poison = [] ∧ s.cur.noAnswer = none

/-- The core's micro-TLB holds the page of an address for reads, in HBM at a physical address (R259). -/
def Spec.HeldPage (s : State) (a : Word) (pa : Nat) : Prop :=
  (∃ e, findTlb (microTlb s.cur.place s.cur.lowLane) s.cur.sctx a.toNat .read s.tlb = some e ∧ pa = e.frame * 4096 + a.toNat % 2 ^ e.bits) ∧
  ∃ off, s.target pa = .hbm off

/-- A handle that checks 1 and 2 of R197 accept. -/
def Spec.HandleAt (s : State) (a : Word) : Prop := a.toNat % 256 = 0 ∧ a.toNat + 256 ≤ 0x00FFFF0000000000 ∧ ∃ pa, Spec.HeldPage s a pa

/-- A ready stream under a handle, and the item size its descriptor now gives (R199). -/
def Spec.StreamAt (s : State) (a : Word) (i : Instar) (size : Nat) : Prop :=
  Spec.HandleAt s a ∧ s.instar s.cur.sctx a = some i ∧ i.levels.length = i.levelsN ∧ 1 ≤ i.levelsN ∧ i.levelsN ≤ 16 ∧
  ∃ pa, Spec.HeldPage s (a + 8) pa ∧ s.instarHit (s.paKey pa) = false ∧
    let d := leNat (Memory.getList s.mem (s.paKey pa) 8)
    size = d % 2 ^ 13 * fmtWidth (d / 2 ^ 16 % 16) / 8

/-- R198 to R202, R265, R266, R269, R270: where every pyramid instruction and step of a home NMU completes.  PYINIT writes 0 or 1 unless a page
is missing or a segment held; PYAPP writes the item's time, PYSTAT the status, PYLD a span descriptor; a validation, an append, a merge, and the
serving of a load or a status end. -/
def Obligations.PyramidCompletes : Prop :=
  (∀ (d h : Reg) (s : State), PlainHart s → Spec.Quiet s → Spec.HandleAt s (s.cur.rx h) →
    let r := s.start.instarInit s.cur.sctx s.cur.sptb (s.cur.rx h)
    (∀ p, r.1 ≠ .page p) → r.1 ≠ .held → ∃ t, exec (.pyinit d h) s = .next t ∧
      t.cur = (s.cur.wx d (if r.1 = .ready then 0 else 1)).advance ∧ t.instars = r.2.instars) ∧
  (∀ (d h v xs tt : Reg) (level : BitVec 4) (settled : Bool) (s : State) (i : Instar) (size : Nat), PlainHart s → Spec.Quiet s →
    Spec.StreamAt s (s.cur.rx h) i size →
    let c := s.cur.vctx false
    let fits := v.toNat % c.g = 0 ∧ size ≤ 32 * c.lanes * c.g
    (fits → size = i.size → i.halted = false → i.backlog = 0 → i.next < 2 ^ 52 →
      ∃ t, exec (.pyapp d h v) s = .next t ∧ t.cur = (s.cur.wx d (BitVec.ofNat 64 i.next)).advance) ∧
    (settled = false ∨ i.halted = true ∨ i.backlog = 0 →
      exec (.pystat d h settled) s =
        .next ({ s.start with cur := s.cur.wx d (BitVec.ofNat 8 (min i.backlog 255) ++ 0#4 ++ BitVec.ofNat 52 i.next) } : State).completed ∧
      (fits → size = i.size → ∃ (g : Hart) (x : Word), exec (.pyld v h tt xs level settled) s = .next ({ s.start with cur := g.wx xs x } : State).completed ∧
        g = { s.cur with v := g.v, dirty := g.dirty } ∧
        (i.next ≤ (s.cur.rx tt).toNat → g = s.cur ∧ x = BitVec.ofNat 4 3 ++ 0#8 ++ BitVec.ofNat 52 i.next)))) ∧
  (∀ (ctx handle : Word) (s : State), Spec.NoneWaits s.harts → Spec.NoneSent s →
    (∀ c, s.context ctx = some c → ¬ Spec.merging s ctx handle → ∃ t, exec (.instarInitRequest ctx handle) s = .next t ∧
      t.instars = (s.instarInit ctx c.sptb handle).2.instars) ∧
    (∀ (i : Instar) (item : List Byte), s.instar ctx handle = some i → i.ctx = ctx → i.handle = handle → i.halted = false → i.next < 2 ^ 52 →
      i.backlog = 0 → item.length = i.size → ∃ t j, exec (.instarAppend ctx handle item) s = .next t ∧ t.instar ctx handle = some j ∧
        j.next = i.next + 1) ∧
    (∀ (i : Instar) (k : Nat) (a b : Item) (rest : List Item), s.instar ctx handle = some i → i.ctx = ctx → i.handle = handle → i.halted = false →
      i.comb < 7 → s.poison = [] → i.due = some k → i.level k = a :: b :: rest → k + 1 < i.levels.length → i.levels.length = i.levelsN →
      ∃ t j, exec (.instarMerge ctx handle) s = .next t ∧ t.instar ctx handle = some j ∧ j.level k = rest)) ∧
  (∀ (d h tt xs : Reg) (level : BitVec 4) (settled : Bool) (s : State), PlainHart s → s.cur.held = false → Spec.NoneWaits s.others →
    let running : State := { s with cur := { s.cur with status := .running } }
    (s.cur.status = .waiting (.again (encode (.pyld d h tt xs level settled))) →
      ∃ t, exec (.instarLoadServe s.cur.sctx (s.cur.rx h) (s.cur.rx tt) level settled) s = .next t ∧
        exec (.pyld d h tt xs level settled) running = .next t) ∧
    (s.cur.status = .waiting (.again (encode (.pystat d h settled))) →
      ∃ t, exec (.instarStatusServe s.cur.sctx (s.cur.rx h) settled) s = .next t ∧ exec (.pystat d h settled) running = .next t))
/-! ## Replayed objects (R203 to R205, R320 to R335) -/

/-- The hart after a call returned (R203, R205): `rstat` holds the status, the cause and the TRAP immediate, xd the result of a call that
succeeded, else 0. -/
def Spec.Returned (h : Hart) (d : Reg) (status : Nat) (result : Word) (cause imm : Nat) : Hart :=
  ({ h with rstat := BitVec.ofNat 64 (status + 2 ^ 8 * cause + 2 ^ 16 * imm), status := .running } : Hart).wx d (if status = 0 then result else 0)

/-- The arguments of a call: x10 to x15. -/
def Spec.args (h : Hart) : List Word := [h.x[10], h.x[11], h.x[12], h.x[13], h.x[14], h.x[15]]

/-- R327: the entry of a new position, in its ring slot, with its 64 bytes on both dies of the log. -/
def Spec.newEntry (k : Robj) (die n : Nat) (args : List Word) : LogEntry :=
  let bytes := leBytes 8 (k.tail + 1) ++ leBytes 8 (die % 4 * 256 + (if k.isUpdate n then 0 else 64) + n % 64) ++ args.flatMap (fun x => leBytes 8 x.toNat)
  { p := k.tail + 1, slot := (k.tail + 1) % 2 ^ k.k, copyA := some bytes, copyB := some bytes, dies := k.logDies, result := none }

/-- No other hart's RCALL of an object waits with an earlier arrival than the current hart's (R328). -/
def Spec.FirstCaller (s : State) (slot : Nat) : Prop :=
  ∀ x ∈ s.others, ∀ w since n, x.status = .waiting (.logFull w slot since) → x.arrived = some n → ∃ m, s.cur.arrived = some m ∧ m ≤ n

/-- R203 to R205, R322, R328, R330, R332: RCALL and RREAD return BADOBJ for a handle of no object of the context, and BADMETHOD for a method it has
not; RREAD returns BADKIND for an update method, and runs a read-only one on its die's replica in its object's turn at the die's engine, once that has
applied the tail; RCALL takes the
next position, with its entry in the log, and waits for its result, or waits without one, in its order of arrival, while the log is full or a
copy of it is made again, as an RREAD does. -/
def Spec.ObjectCalls : Prop :=
  ∀ (d o : Reg) (n : BitVec 6) (s : State), PlainHart s →
    let x := s.cur.rx o
    let call := Instr.rcall d o n
    let read := Instr.rread d o n
    let returns (i : Instr) (status : Nat) (r : Word) (cause imm : Nat) : Prop :=
      exec i s = .next ({ s.start with cur := Spec.Returned s.cur d status r cause imm } : State).completed
    ((∀ k ∈ s.hub.objects, ¬ (k.handle = x ∧ k.ctx = s.cur.sctx ∧ k.leaving = false)) → returns call 5 0 0 0 ∧ returns read 5 0 0 0) ∧
    (∀ k, s.objFor s.cur.sctx x = some k → s.objSlot k.slot = some k →
      (k.methods.length ≤ n.toNat → returns call 3 0 0 0 ∧ returns read 3 0 0 0) ∧
      (n.toNat < k.methods.length →
        (2 ^ k.k ≤ k.log.length ∨ s.logReady k = false ∨ s.start.calledBefore k.slot = true →
          exec call s = .next { s.start.arrive with cur.status := .waiting (.logFull (encode call) k.slot s.time) }) ∧
        (k.log.length < 2 ^ k.k → s.logReady k = true → Spec.FirstCaller s k.slot → ∃ t, exec call s = .next t ∧
          t.cur = { s.cur with status := .waiting (.call (encode call) k.slot (k.tail + 1) none) } ∧
          t.objSlot k.slot = some { k with tail := k.tail + 1, log := k.log ++ [Spec.newEntry k (s.cur.place / 896) n.toNat (Spec.args s.cur)] } ∧
          t.mem = s.mem ∧ ∀ m, m ≠ k.slot → t.objSlot m = s.objSlot m) ∧
        (k.isUpdate n.toNat = true → returns read 4 0 0 0) ∧
        (k.isUpdate n.toNat = false → s.recorder s.cur.launch = none →
          let r := k.replica (s.cur.place / 896)
          let e := (k.runMethod n.toNat (Spec.args s.cur) r.bytes).1
          let die := s.cur.place / 896
          (r.stale = false → k.tail ≤ r.applied → s.logReady k = true → die < 4 → die ∉ s.down →
            (∀ m ∈ s.hub.objects, m.slot ≠ k.slot → s.engineWork die m = false) → ∃ t, exec read s = .next t ∧
              t.cur = (Spec.Returned s.cur d e.2.1 e.1 e.2.2.1 e.2.2.2).advance ∧ t.hub.objects = s.hub.objects ∧ t.mem = s.mem) ∧
          (r.stale = true ∨ r.applied < k.tail ∨ s.logReady k = false ∨ s.turnAmong die (k.slot :: s.engineReady die) ≠ some k.slot →
            exec read s = .next { s.start with cur.status := .waiting (.rread (encode read) k.slot k.tail) }))))

/-- R204, R329 to R331: what ends a call's wait.  CALL_RETURN gives the caller its result once its die's replica counts; RREAD_RUN runs a
waiting RREAD in its object's turn; LOGFULL_TIMEOUT ends a wait for room that lasted the object's rtimeout; LOG_POSITION_ASSIGN gives the freed position to a call
that waits for room. -/
def Spec.CallsReturn : Prop :=
  ∀ (h : Nat) (s : State) (k : Robj) (d o : Reg) (n : BitVec 6),
    let f := s.focus h
    f.cur.place = h → f.cur.held = false → f.objSlot k.slot = some k →
    let r := k.replica (h / 896)
    let back (status : Nat) (x : Word) (cause imm : Nat) : State := { f with cur := (Spec.Returned f.cur d status x cause imm).advance }
    (∀ p e, f.cur.status = .waiting (.call (encode (.rcall d o n)) k.slot p (some e)) → r.stale = false →
      exec (.callReturn h) s = .next (back e.2.1 e.1 e.2.2.1 e.2.2.2)) ∧
    (∀ tail, f.cur.status = .waiting (.rread (encode (.rread d o n)) k.slot tail) → r.stale = false → tail ≤ r.applied → k.leaving = false →
      f.logReady k = true → f.recorder f.cur.launch = none →
      let e := (k.runMethod n.toNat (Spec.args f.cur) r.bytes).1
      (f.engineTurn (h / 896) ≠ some k.slot → exec (.rreadRun h) s = .next f) ∧
      (f.engineTurn (h / 896) = some k.slot → ∃ t, exec (.rreadRun h) s = .next t ∧ t.cur = (back e.2.1 e.1 e.2.2.1 e.2.2.2).cur ∧
        t.hub.objects = s.hub.objects ∧ t.mem = s.mem)) ∧
    (∀ since, f.cur.status = .waiting (.logFull (encode (.rcall d o n)) k.slot since) →
      (k.log.length = 2 ^ k.k → k.rtimeout ≠ 0 → since + 1000 * k.rtimeout ≤ f.time → exec (.logfullTimeout h) s = .next (back 2 0 0 0)) ∧
      (k.rtimeout = 0 → exec (.logfullTimeout h) s = .next f) ∧
      (s.cur.place = h → k.log.length < 2 ^ k.k → k.leaving = false → s.logReady k = true →
        (∀ x ∈ s.others, ∀ w t, x.status ≠ .waiting (.logFull w k.slot t)) →
        ∃ t, exec (.logPositionAssign k.slot (h / 896) n.toNat (Spec.args s.cur)) s = .next t ∧
          t.cur = { s.cur with status := .waiting (.call (encode (.rcall d o n)) k.slot (k.tail + 1) none), arrived := none } ∧
          t.objSlot k.slot = some { k with tail := k.tail + 1, log := k.log ++ [Spec.newEntry k (h / 896) n.toNat (Spec.args s.cur)] }))

/-- R326: a method that aborts, and a read-only one, leaves the state bytes as they were; an update changes no byte's place: their number
stays; and its outcome is a function of the state bytes and the arguments alone. -/
def Spec.MethodsWhole : Prop :=
  ∀ (o : Robj) (n : Nat) (args : List Word) (bytes : List Byte),
    (o.runMethod n args bytes).2.length = bytes.length ∧
    (o.isUpdate n = false → (o.runMethod n args bytes).2 = bytes) ∧
    ((o.runMethod n args bytes).1.2.1 ≠ 0 → (o.runMethod n args bytes).1.2.1 = 1 ∧ (o.runMethod n args bytes).2 = bytes) ∧
    (∀ p : Robj, p.code = o.code → p.methods = o.methods → p.runMethod n args bytes = o.runMethod n args bytes)

/-- R105, R324: the scalar ALU instructions at width 64, with what each writes. -/
noncomputable def Spec.scalarTable (d a b : Reg) (x y : Word) : List (Instr × Word) :=
  let n := y.toNat % 64
  [(.add d a b, x + y), (.sub d a b, x - y), (.and d a b, x &&& y), (.or d a b, x ||| y), (.xor d a b, x ^^^ y), (.andn d a b, x &&& ~~~y),
   (.shl d a b, x <<< n), (.shr d a b, x >>> n), (.sra d a b, x.sshiftRight n), (.rol d a b, x.rotateLeft n), (.ror d a b, x.rotateRight n),
   (.slt d a b, if x.toInt < y.toInt then 1 else 0), (.sltn d a b, if x.toNat < y.toNat then 1 else 0),
   (.min d a b, if x.toInt ≤ y.toInt then x else y), (.max d a b, if x.toInt ≤ y.toInt then y else x),
   (.minn d a b, if x.toNat ≤ y.toNat then x else y), (.maxn d a b, if x.toNat ≤ y.toNat then y else x),
   (.mul d a b, x * y), (.mulh d a b, BitVec.ofInt 64 (x.toInt * y.toInt / 2 ^ 64)), (.mulhn d a b, BitVec.ofNat 64 (x.toNat * y.toNat / 2 ^ 64)),
   (.div d a b, if y = 0 then BitVec.allOnes 64 else BitVec.ofInt 64 (x.toInt.tdiv y.toInt)),
   (.divn d a b, if y = 0 then BitVec.allOnes 64 else BitVec.ofNat 64 (x.toNat / y.toNat)),
   (.rem d a b, if y = 0 then x else BitVec.ofInt 64 (x.toInt - x.toInt.tdiv y.toInt * y.toInt)),
   (.remn d a b, if y = 0 then x else BitVec.ofNat 64 (x.toNat % y.toNat)),
   (.clz d a, BitVec.ofNat 64 ((List.range 64).countP (fun k => x.toNat < 2 ^ (63 - k)))),
   (.ctz d a, BitVec.ofNat 64 ((List.range 64).countP (fun k => x.toNat % 2 ^ (k + 1) = 0))),
   (.popc d a, BitVec.ofNat 64 ((List.range 64).countP (fun k => x.getLsbD k))),
   (.sextb d a, (x.setWidth 8).signExtend 64), (.sexth d a, (x.setWidth 16).signExtend 64), (.sextw d a, (x.setWidth 32).signExtend 64)]

/-- R112: the branches, with when each is taken. -/
noncomputable def Spec.branchTable (a b : Reg) (off : BitVec 16) (x y : Word) : List (Instr × Bool) :=
  [(.beq a b off, x == y), (.bne a b off, x != y), (.blt a b off, x.slt y), (.bge a b off, !x.slt y), (.bltn a b off, x.ult y), (.bgen a b off, !x.ult y)]

/-- R109: the loads, with their widths and what each makes of the natural it reads; the stores with their widths. -/
noncomputable def Spec.loadTable (d a : Reg) (imm : BitVec 16) (x : Nat) : List (Instr × Nat × Word) :=
  [(.ldb d a imm, 1, (BitVec.ofNat 8 x).signExtend 64), (.ldh d a imm, 2, (BitVec.ofNat 16 x).signExtend 64),
   (.ldw d a imm, 4, (BitVec.ofNat 32 x).signExtend 64), (.ldd d a imm, 8, BitVec.ofNat 64 x), (.ldbn d a imm, 1, BitVec.ofNat 64 x),
   (.ldhn d a imm, 2, BitVec.ofNat 64 x), (.ldwn d a imm, 4, BitVec.ofNat 64 x)]
noncomputable def Spec.storeTable (d a : Reg) (imm : BitVec 16) : List (Instr × Nat) :=
  [(.stb d a imm, 1), (.sth d a imm, 2), (.stw d a imm, 4), (.std d a imm, 8)]

/-- A word of R324's table. -/
def Spec.MethodWord (w : BitVec 32) : Prop :=
  (∃ d a b, ∃ p ∈ Spec.scalarTable d a b 0 0, w = encode p.1) ∨ (∃ d a imm, w = encode (.addi d a imm)) ∨
  (∃ d a imm, ∃ p ∈ Spec.loadTable d a imm 0, w = encode p.1) ∨ (∃ d a imm, ∃ p ∈ Spec.storeTable d a imm, w = encode p.1) ∨
  (∃ a b off, ∃ p ∈ Spec.branchTable a b off 0 0, w = encode p.1) ∨ (∃ a off, 0 < off.toInt ∧ w = encode (.loop a off)) ∨
  (∃ imm, w = encode (.trap imm)) ∨ w = encode .halt

/-- R324 to R326: what a word of a method does when no check stops it: the scalar instructions, loads and stores of its state bytes, branches and LOOP,
each counting one step; and how a method begins. -/
def Spec.MethodValues : Prop :=
  (∀ (entry : Nat) (args : List Word) (bytes : List Byte),
    let r := MRun.start entry args bytes
    r.pc = entry ∧ r.lc = 0 ∧ r.lbeg = 0 ∧ r.lend = 0 ∧ r.armed = false ∧ r.steps = 0 ∧ r.bytes = bytes ∧
    ∀ k : Reg, r.rx k = if 10 ≤ k.toNat ∧ k.toNat ≤ 15 then args.getD (k.toNat - 10) 0 else 0) ∧
  (∀ r : MRun,
    r.next = (if r.armed = true ∧ r.pc = r.lend then (if r.lc ≤ 1 then { r with lc := 0, armed := false, pc := r.lend + 1 }
      else { r with lc := r.lc - 1, pc := r.lbeg }) else { r with pc := r.pc + 1 }) ∧
    ∀ t : Int, let inside (x : Int) : Prop := r.lbeg ≤ x ∧ x ≤ r.lend
      (r.armed = true → inside r.pc → ¬ inside t → r.branch t = { r with pc := t, armed := false }) ∧
      (¬ (inside r.pc ∧ ¬ inside t) → r.branch t = { r with pc := t })) ∧
  ∀ (r : MRun) (update : Bool) (code : List (BitVec 32)) (w : BitVec 32), 0 ≤ r.pc → code[r.pc.toNat]? = some w → r.steps < 4096 →
    let counts (x : MRun) : Prop := r.step update code = .inl { x with steps := r.steps + 1 }
    (∀ d a b, ∀ p ∈ Spec.scalarTable d a b (r.rx a) (r.rx b), w = encode p.1 → counts (r.wx d p.2).next) ∧
    (∀ d a imm, w = encode (.addi d a imm) → counts (r.wx d (r.rx a + imm.signExtend 64)).next) ∧
    (∀ (d a : Reg) (imm : BitVec 16) (n : Nat),
      let o := (r.rx a + imm.signExtend 64).toNat
      o % n = 0 → o + n ≤ r.bytes.length →
      (∀ p ∈ Spec.loadTable d a imm (leNat ((r.bytes.drop o).take n)), w = encode p.1 → p.2.1 = n → counts (r.wx d p.2.2).next) ∧
      (∀ p ∈ Spec.storeTable d a imm, w = encode p.1 → p.2 = n → update = true →
        counts { r with bytes := r.bytes.take o ++ leBytes n (r.rx d).toNat ++ r.bytes.drop (o + n) }.next)) ∧
    (∀ a b off, ∀ p ∈ Spec.branchTable a b off (r.rx a) (r.rx b), w = encode p.1 → counts (if p.2 then r.branch (r.pc + off.toInt) else r.next)) ∧
    (∀ a off, w = encode (.loop a off) → 0 < off.toInt → r.armed = false →
      let last := r.pc + off.toInt
      counts { r with lbeg := r.pc + 1, lend := last, lc := r.rx a, armed := r.rx a != 0, pc := if r.rx a = 0 then last + 1 else r.pc + 1 })

/-- R325: the checks of an executed word of a method, in their order. -/
def Spec.MethodAborts : Prop :=
  ∀ (r : MRun) (update : Bool) (code : List (BitVec 32)) (w : BitVec 32), 0 ≤ r.pc →
    (code.length ≤ r.pc.toNat → r.step update code = .inr (.abort 0x01 0)) ∧
    (code[r.pc.toNat]? = some w →
      (¬ Spec.MethodWord w → r.step update code = .inr (.abort 0x01 0)) ∧
      (∀ a off, w = encode (.loop a off) → 0 < off.toInt → r.armed = true → r.step update code = .inr (.abort 0x13 0)) ∧
      (4096 ≤ r.steps → ∃ cause imm, r.step update code = .inr (.abort cause imm)) ∧
      (∀ major (d a : Reg) (imm : BitVec 16), w = (BitVec.ofNat 6 major ++ d ++ a ++ imm).setWidth 32 → 0x0C ≤ major → major ≤ 0x16 →
        let width := [1, 2, 4, 8, 1, 2, 4, 1, 2, 4, 8].getD (major - 0x0C) 1
        let at_ := (r.rx a + imm.signExtend 64).toNat
        (at_ % width ≠ 0 → r.step update code = .inr (.abort 0x04 0)) ∧
        (at_ % width = 0 → r.bytes.length < at_ + width ∨ (0x13 ≤ major ∧ update = false) →
          r.step update code = .inr (.abort 0x06 0))) ∧
      (∀ imm : BitVec 12, w = encode (.trap imm) → r.step update code = .inr (.abort 0x0E imm.toNat)) ∧
      (w = encode .halt → r.steps < 4096 → r.step update code = .inr (.halt r.x[10] r.bytes)) ∧
      (w = encode .halt → 4096 ≤ r.steps → r.step update code = .inr (.abort 0x16 0)))

/-- Methods run whole or leave nothing (R324, R325, R326). -/
def Obligations.ObjectMethods : Prop := Spec.MethodsWhole ∧ Spec.MethodValues ∧ Spec.MethodAborts

/-- R328, R329, R330: the replay engine of a die turns between its objects that have a read to run or an entry to apply, the reads first;
a healthy replica applies the entry after its applied position: it runs an update and only passes a read-only entry of
another die; the others stay; its caller's wait takes the outcome; and an entry that every healthy replica has applied is trimmed. -/
def Spec.ReplayApplies : Prop :=
  (∀ (s : State) (die slot : Nat), s.engineTurn die = some slot →
    let last := s.hub.roturn[reg4 die]
    (∃ o ∈ s.hub.objects, o.slot = slot ∧ s.engineWork die o = true) ∧
    (∀ o ∈ s.hub.objects, s.engineWork die o = true →
      (last < slot ∧ (last < o.slot → slot ≤ o.slot)) ∨ (slot ≤ last ∧ slot ≤ o.slot ∧ o.slot ≤ last))) ∧
  ∀ (s : State) (o : Robj) (die : Nat) (e : LogEntry), s.objSlot o.slot = some o → o.leaving = false → die < 4 →
    (o.replica die).stale = false → die ∉ s.down → s.logReady o = true →
    o.log.find? (fun x => x.p == (o.replica die).applied + 1) = some e → (∀ h ∈ s.harts, h.readsNow o die = false) →
    s.engineTurn die = some o.slot →
    let r := o.replica die
    let out := o.runMethod e.n e.args r.bytes
    ∃ t o', exec (.replayApplyEntry o.slot die) s = .next t ∧ t.objSlot o.slot = some o' ∧
      o'.replica die = { r with bytes := if e.ro then r.bytes else out.2, applied := e.p } ∧
      (∀ m, m < 4 → m ≠ die → o'.replica m = o.replica m) ∧
      o'.log.map (fun x => x.p) = (o.log.map (fun x => x.p)).filter (fun p => !o'.passed p) ∧ o'.tail = o.tail ∧ t.mem = s.mem ∧
      (∀ w, s.cur.status = .waiting (.call w o.slot e.p none) → e.die = die →
        t.cur = { s.cur with status := .waiting (.call w o.slot e.p (some out.1)) })

/-- Calls of replayed objects, and their replay (R203, R204, R205, R322, R328, R329, R330, R331, R332). -/
def Obligations.ReplayedCalls : Prop := Spec.ObjectCalls ∧ Spec.CallsReturn ∧ Spec.ReplayApplies

/-- R331, R332: a stale replica of a die that is up becomes a copy of the lowest-numbered healthy one; an entry's failed copy is written anew from the
other one in a third die, and an object with an entry whose copies both failed is lost: its waiting calls return BADOBJ. -/
def Spec.ReplicasRepaired : Prop :=
  ∀ (s : State) (o : Robj) (die : Nat), s.objSlot o.slot = some o → die < 4 → die ∉ s.down →
    (∀ src, o.leaving = false → (o.replica die).stale = true → src < 4 → (o.replica src).stale = false → (∀ m, m < src → (o.replica m).stale = true) →
      ∃ t o', exec (.replicaRebuild o.slot die) s = .next t ∧ t.objSlot o.slot = some o' ∧ o'.replica die = o.replica src ∧
        (∀ m, m < 4 → m ≠ die → o'.replica m = o.replica m) ∧ o'.tail = o.tail ∧ t.mem = s.mem) ∧
    (∀ copy, copy ≤ 1 →
      let home := if copy = 0 then o.logDies.1 else o.logDies.2
      let other := if copy = 0 then o.logDies.2 else o.logDies.1
      let lost := ∃ e ∈ o.log, e.copyA = none ∧ e.copyB = none
      let failed (e : LogEntry) : Prop := (if copy = 0 then e.copyA else e.copyB) = none
      die ≠ other →
      (¬ lost → (∀ e ∈ o.log, failed e → die ≠ e.dies.1 ∧ die ≠ e.dies.2) → ∃ t o', exec (.logCopyRepair o.slot copy die) s = .next t ∧ t.mem = s.mem ∧
        t.objSlot o.slot = some o' ∧ o'.tail = o.tail ∧ o'.replicas = o.replicas ∧ o'.log.length = o.log.length ∧
        o'.logDies = (let at_ := if home ∈ s.down then die else home; if copy = 0 then (at_, other) else (other, at_)) ∧
        ∀ (j : Nat) (e e' : LogEntry), o.log[j]? = some e → o'.log[j]? = some e' → (¬ failed e → e' = e) ∧
          (failed e → e' = (if copy = 0 then { e with copyA := e.copyB, dies := (die, e.dies.2) } else { e with copyB := e.copyA, dies := (e.dies.1, die) }))) ∧
      (lost → ∃ t, exec (.logCopyRepair o.slot copy die) s = .next t ∧ t.objSlot o.slot = none ∧ t.mem = s.mem ∧
        ∀ w p, s.cur.status = .waiting (.call w o.slot p none) →
          t.cur = { s.cur with status := .waiting (.call w o.slot 0 (some (0, 5, 0, 0))) }))

/-- R321 to R323: a write of ROREG or RODEREG by a port that does not hold semaphore 0, or before the firmware runs, is discarded and logged.
A good descriptor that the areas can hold makes an object with four zeroed replicas, an empty log and the next generation of its slot, and its
handle is in ROHDL; a bad one, and one they cannot hold, is refused; one that meets a held segment, or comes while another is busy, waits.  A deregistration frees an object with nothing in its log, and one of a handle of no object is logged.
That writes before the firmware runs are logged is log 50, the lowest free slot and the bytes an object takes of the areas are log 48. -/
def Spec.ObjectRegistration : Prop :=
  ∀ (port : Nat) (a : Word) (s : State),
    let w := s.wakeUp
    (s.hub.sems.toList.getD 0 none ≠ some port ∨ s.hub.booted = false → ∃ m n,
      exec (.objectRegister port a) s = .next (w.logS m a) ∧ exec (.objectDeregister port a) s = .next (w.logS n a)) ∧
    (s.hub.sems.toList.getD 0 none = some port → s.hub.booted = true → s.hub.robusy = true ∨ s.hub.rowait ≠ [] →
      exec (.objectRegister port a) s = .next { w with hub := { w.hub with rowait := s.hub.rowait ++ [(true, a)] } } ∧
      exec (.objectDeregister port a) s = .next { w with hub := { w.hub with rowait := s.hub.rowait ++ [(false, a)] } }) ∧
    (s.hub.sems.toList.getD 0 none = some port → s.hub.booted = true → s.hub.robusy = false → s.hub.rowait = [] →
      (∀ c, s.context s.hub.roctx = some c →
        (∀ g u, w.readRobj c.sptb a = (.error g, u) → ∃ t, exec (.objectRegister port a) s = .next t ∧ t.hub.objects = s.hub.objects ∧
          (g = .held → t.hub.rowait = [(true, a)]) ∧ (g ≠ .held → t.hub.rorefused = true ∧ t.hub.roreason = 1)) ∧
        (∀ size code methods u room, w.readRobj c.sptb a = (.ok (size, code, methods), u) → 4 ≤ s.hub.roparm.toNat % 32 →
          s.hub.roparm.toNat % 32 ≤ 16 → s.hub.roarea = some room →
          room < (s.hub.objects.map Robj.areaBytes).sum + (4 * (size + 4 * code.length) + 128 * 2 ^ (s.hub.roparm.toNat % 32)) →
          ∃ t, exec (.objectRegister port a) s = .next t ∧ t.hub.objects = s.hub.objects ∧ t.hub.rorefused = true ∧ t.hub.roreason = 2) ∧
        (∀ size code methods u, w.readRobj c.sptb a = (.ok (size, code, methods), u) → 4 ≤ s.hub.roparm.toNat % 32 →
          s.hub.roparm.toNat % 32 ≤ 16 → (∀ m, m < 4096 → s.objSlot m ≠ none) →
          ∃ t, exec (.objectRegister port a) s = .next t ∧ t.hub.objects = s.hub.objects ∧ t.hub.rorefused = true ∧ t.hub.roreason = 2) ∧
        (∀ size code methods slot u, w.readRobj c.sptb a = (.ok (size, code, methods), u) → 4 ≤ s.hub.roparm.toNat % 32 →
          s.hub.roparm.toNat % 32 ≤ 16 →
          (∀ room, s.hub.roarea = some room →
            (s.hub.objects.map Robj.areaBytes).sum + (4 * (size + 4 * code.length) + 128 * 2 ^ (s.hub.roparm.toNat % 32)) ≤ room) → slot < 4096 → s.objSlot slot = none → (∀ m, m < slot → s.objSlot m ≠ none) →
          let gen := (look 0 s.hub.gens slot + 1) % 2 ^ 16
          ∃ t o, exec (.objectRegister port a) s = .next t ∧ t.hub.objects = s.hub.objects ++ [o] ∧ o.slot = slot ∧ o.gen = gen ∧
            o.ctx = s.hub.roctx ∧ o.size = size ∧ o.code = code ∧ o.methods = methods ∧ o.k = s.hub.roparm.toNat % 32 ∧
            o.rtimeout = s.hub.roparm.toNat / 2 ^ 32 ∧ o.tail = 0 ∧ o.log = [] ∧
            (∀ m, m < 4 → (o.replica m).bytes = List.replicate size 0 ∧ (o.replica m).applied = 0) ∧
            t.hub.rohdl = s.hub.roctx.extractLsb' 0 32 ++ BitVec.ofNat 16 gen ++ 0#4 ++ BitVec.ofNat 12 slot ∧ t.hub.rorefused = false ∧
            Spec.MarksOnly s t ∧ t.cur = s.cur)) ∧
      ((∀ o ∈ s.hub.objects, o.handle ≠ a) → ∃ n, exec (.objectDeregister port a) s = .next (w.logS n a)) ∧
      (∀ o, s.hub.objects.find? (fun x => x.handle == a) = some o → s.objSlot o.slot = some o → o.log = [] →
        (∀ x ∈ s.harts, x.readsObj o.slot = false) → (∀ x ∈ s.frames, x.hart.readsObj o.slot = false) →
        ∃ t, exec (.objectDeregister port a) s = .next t ∧ t.objSlot o.slot = none ∧
          ∀ x since, s.cur.status = .waiting (.logFull x o.slot since) →
            t.cur = { s.cur with status := .waiting (.call x o.slot 0 (some (0, 5, 0, 0))) }))

/-- Registration of objects and repair of replicas (R321, R322, R323, R331, R332). -/
def Obligations.ObjectLife : Prop := Spec.ReplicasRepaired ∧ Spec.ObjectRegistration

/-! ## Near-memory units (R214, R215, R252, R253, R276 to R283) -/

/-- R214: the NMRUN and NMBAG blocks that check 3 takes. -/
def Spec.NmrunBlock (b : List Word) : Prop := Spec.field b 0 0 2 = 0 ∧ Spec.field b 7 0 64 = 0
def Spec.NmbagBlock (b : List Word) : Prop :=
  1 ≤ Spec.field b 1 32 32 ∧ Spec.field b 1 0 2 = 0 ∧ 4 ≤ Spec.field b 1 0 32 ∧ Spec.field b 1 0 32 ≤ 256 ∧ 1 ≤ Spec.field b 5 0 32 ∧
  Spec.field b 5 32 32 = 0 ∧ Spec.field b 6 0 64 = 0 ∧ Spec.field b 7 0 64 = 0

/-- The command that a hart's NMRUN or NMBAG makes: it comes after every earlier command of the hart (R214, R218). -/
def Spec.nmuCmd (w : State) (bag : Bool) (token : Word) (ds : List Word) (out : Option (Nat × Nat × Nat)) : NmuCmd :=
  { kind := if bag then .bag else .run, token := token, owner := w.cur.place, ctx := w.cur.sctx, sptb := w.cur.sptb, block := ds, code := none,
    out := out, home := clusterOf w.cur.place, after := w.ownTokens, nmus := w.ownNmuTokens }

/-- R214, R245, R279: NMRUN and NMBAG check their block, translate its first data address, and are accepted by the channel of that address while it
holds fewer than 16: xd takes the token, and every access of the hart is performed for the device first.  A kernel with nothing to come after is
read at once, and ends with the failure of that read (log 38: a command comes after the earlier ones of its hart; log 39: where the kernel is read).
A first address that is not HBM raises the access violation. -/
def Spec.NmuCommands : Prop :=
  ∀ (bag : Bool) (d a : Reg) (s : State), PlainHart s →
    let x := s.cur.rx a
    let i := if bag then Instr.nmbag d a else .nmrun d a
    (x.toNat % 64 ≠ 0 → exec i s = .next (s.start.trapWord (encode i) { cause := 4, tval := x } s.start)) ∧
    (∀ ds u, x.toNat % 64 = 0 → s.start.loadBlock x = (.ok ds, u) → u.blocked = none → u.cur.strikes = [] →
      let good := if bag then Spec.NmbagBlock ds else Spec.NmrunBlock ds
      let first := if bag then ds.getD 0 0 else ds.getD 1 0
      let out := ds.getD 4 0
      let bytes := Spec.field ds 5 0 32 * Spec.field ds 1 0 32
      let near := bag = true ∧ inLocal out = true
      let granted := near → ∀ j, j < bytes → Spec.Granted u.cur ((out.toNat : Int) - 0x00FFFF0000000000 + j)
      (¬ good → exec i s = .next (s.start.trapWord (encode i) { cause := 1, tval := 0 } u)) ∧
      (good → granted → canonical first = false ∨ Spec.InWindow first →
        exec i s = .next (s.start.trapWord (encode i) { cause := 6, tval := first } u)) ∧
      (∀ c v, good → granted → canonical first = true → ¬ Spec.InWindow first →
        u.xlateHart u.cur.lowLane first .read = (.bad c, v) → v.blocked = none →
        exec i s = .next (s.start.trapWord (encode i) { cause := c, tval := first } v)) ∧
      (∀ pa v, good → granted → canonical first = true → ¬ Spec.InWindow first →
        u.xlateHart u.cur.lowLane first .read = (.ok pa, v) → v.blocked = none → (∀ off, v.target pa ≠ .hbm off) →
        exec i s = .next (s.start.trapWord (encode i) { cause := 6, tval := first } v)) ∧
      (∀ pa off v, good → granted → canonical first = true → ¬ Spec.InWindow first →
        u.xlateHart u.cur.lowLane first .read = (.ok pa, v) → v.blocked = none → v.target pa = .hbm off →
        let ch := channelOf off
        let n := v.nmu ch
        let cl := clusterOf v.cur.place
        let held := n.queue.length + (if n.run.isSome then 1 else 0)
        let token : Word := BitVec.ofNat 2 (ch / 96) ++ BitVec.ofNat 2 (ch / 32 % 3) ++ BitVec.ofNat 5 (ch % 32) ++ BitVec.ofNat 55 (n.seq + 1)
        let w := (v.drainTo 3 (fun _ => true)).awaitNet 3 true (fun _ => true)
        (16 ≤ held → exec i s = .next { v with cur := { v.cur with status := .waiting .pool } }) ∧
        (held < 16 → (near → (v.cluster cl).held .nmuOut < 16) → w.blocked = none → n.power ≠ .down →
          let lo := out.toNat - 0x00FFFF0000000000
          let c := Spec.nmuCmd w bag token ds (if bag && inLocal out then some (cl, lo, lo + bytes) else none)
          let reads := bag = false ∧ w.ownTokens = [] ∧ w.ownNmuTokens = []
          let read := (w.setNmu ch { w.nmu ch with seq := n.seq + 1 }).kernelWords ch c []
          ∃ t, exec i s = .next t ∧ t.cur = (w.cur.wx d token).advance ∧ (t.nmu ch).seq = n.seq + 1 ∧
            (∀ x ∈ (w.cluster cl).pool, x.owner = v.cur.place → x.engine ≠ .nmuOut → x.token ∈ c.after) ∧
            (∀ p ∈ w.nmus, ∀ x ∈ p.2.queue, x.owner = v.cur.place → x.token ∈ c.nmus) ∧
            (¬ reads → (t.nmu ch).queue = n.queue ++ [c]) ∧
            (reads → (∀ ws, read.1 = .ok ws → (t.nmu ch).queue = n.queue ++ [{ c with code := some ws }]) ∧
              (∀ p, read.1 = .page p ∨ read.1 = .busy → (t.nmu ch).queue = n.queue ++ [c]) ∧
              (∀ code p, read.1 = .fail code p → (t.nmu ch).queue = n.queue ∧ (n.seq + 1 < 2 ^ 55 →
                ∃ x, (t.nmu ch).log.head? = some x ∧ x.token = token ∧ x.ctx = v.cur.sctx ∧ x.code = code ∧ x.addr = p))) ∧
            (near → ∃ e, (t.cluster cl).pool = (v.cluster cl).pool ++ [e] ∧
              e.engine = .nmuOut ∧ e.token = token ∧ e.writes = [((out.toNat - 0x00FFFF0000000000), out.toNat - 0x00FFFF0000000000 + bytes)]))))

/-- R215: NMWAIT waits while its token's status is PENDING, goes on at DONE and UNKNOWN, and traps at FAULT and BADSEG with the channel, at
ACCESS and DATACHECK with the kept address; a token of no channel's last 256 commands reads UNKNOWN. -/
def Spec.NmuWaits : Prop :=
  (∀ (a : Reg) (s : State) (code ch : Nat) (addr : Word), PlainHart s → s.nmuStatus s.cur.sctx (s.cur.rx a) = (code, ch, addr) → code ≤ 6 →
    let i := Instr.nmwait a
    let trap (cause : Nat) (tval : Word) := exec i s = .next (s.start.trapWord (encode i) { cause := cause, tval := tval } s.start)
    (code = 0 → exec i s = .next { s.start with cur.status := .waiting (.again (encode i)) }) ∧
    (code = 1 ∨ code = 6 → exec i s = .next s.start.completed) ∧
    (code = 2 ∨ code = 5 → trap 0x14 (BitVec.ofNat 64 ch)) ∧ (code = 3 → trap 6 addr) ∧ (code = 4 → trap 8 addr)) ∧
  (∀ (a : Reg) (h : Nat), Spec.Reissues (.nmwaitWake h) (.nmwait a) h) ∧
  (∀ (s : State) (ctx : Word) (ch n : Nat), ch < 384 → n < 2 ^ 55 → n = 0 ∨ (s.nmu ch).seq < n ∨ n + 256 ≤ (s.nmu ch).seq →
    s.nmuStatus ctx (BitVec.ofNat 2 (ch / 96) ++ BitVec.ofNat 2 (ch / 32 % 3) ++ BitVec.ofNat 5 (ch % 32) ++ BitVec.ofNat 55 n) = (6, ch, 0))

/-- Commands to a near-memory unit and waits for them (R214, R215, R245, R279). -/
def Obligations.NmuCommandsAndWaits : Prop := Spec.NmuCommands ∧ Spec.NmuWaits

/-- R276, R279: a channel whose engine is free takes its oldest command; a kernel starts with the five arguments in x1 to x5, the row-0 address
in x6 and in rp, rs 0x2000, c 1 and every other register zero, and then holds the segment at the row-0 address in s0, with a step count of 1. -/
def Spec.NmuKernelStarts : Prop :=
  ∀ (ch : Nat) (s t : State) (c : NmuCmd) (rest : List NmuCmd) (ws : List (BitVec 32)) (key : Nat),
    (s.nmu ch).run = none → (s.nmu ch).queue = c :: rest → (s.nmu ch).power ≠ .down → c.kind = .run → c.code = some ws → ¬ Spec.Unacquired s c.home 3 c.after c.nmus →
    Spec.Unwatched s →
    let r0 := NmuRun.start c
    (s.setNmu ch { s.nmu ch with queue := rest, run := some r0 }).nmuSeg ch r0 (c.block.getD 1 0) .read = (.ok key, t) →
    t.poisonIn key 256 = false → Spec.Unwatched t →
    ∃ u r, exec (.nmuKernelStart ch) s = .next u ∧ (u.nmu ch).run = some r ∧ (u.nmu ch).queue = rest ∧
      (∀ k, 1 ≤ k → k ≤ 5 → r.rx k = c.block.getD (k + 1) 0) ∧ r.rx 6 = c.block.getD 1 0 ∧ (∀ k, k = 0 ∨ (7 ≤ k ∧ k < 16) → r.rx k = 0) ∧
      r.rp = c.block.getD 1 0 ∧ r.rs = 0x2000 ∧ r.c = 1 ∧ r.vl = 0 ∧ r.vtype = 0 ∧ r.lc = 0 ∧ r.pc = 0 ∧ r.code = ws ∧ r.steps = 1 ∧
      r.primed = true ∧ r.window = [key] ∧ r.v[0] = segReg t.mem key ∧ (∀ k : Fin 16, k ≠ 0 → r.v[k] = 0) ∧ u.mem = t.mem

/-- R115, R279: where a kernel goes on: at the next word, or where the end of its loop sends it; with its LOOP count and whether the loop is armed. -/
def Spec.kernelNext (r : NmuRun) : Nat × Word × Bool :=
  if r.armed = true ∧ r.pc = r.lend then (if r.lc.toNat ≤ 1 then (r.lend + 1, 0, false) else (r.lbeg, r.lc - 1, true)) else (r.pc + 1, r.lc, r.armed)

/-- The running kernel of a channel after one more of its instructions: the registers `f` changes, one step more and the next word. -/
def Spec.KernelGoes (s : State) (ch : Nat) (r : NmuRun) (i : Instr) (t : State) (f : NmuRun → NmuRun) : Prop :=
  let p := Spec.kernelNext r
  exec i s = .next t ∧ (t.nmu ch).run = some { f r with steps := (f r).steps + 1, pc := p.1, lc := p.2.1, armed := p.2.2 }

/-- The NMU fault (R276, R278): the kernel is gone with its registers; with no write, and, for an NMRUN, with the status FAULT. -/
def Spec.KernelFaults (s : State) (ch : Nat) (r : NmuRun) (i : Instr) : Prop :=
  ∃ t, exec i s = .next t ∧ (t.nmu ch).run = none ∧ (r.cmd.kind = .run → t.mem = s.mem ∧ t.cur.x = s.cur.x ∧
    ((s.nmu ch).seq < r.cmd.token.toNat % 2 ^ 55 + 256 → ∃ x, (t.nmu ch).log.head? = some x ∧ x.token = r.cmd.token ∧ x.ctx = r.cmd.ctx ∧ x.code = 2))

/-- R277, R279: the kernel after a row step that found its window's segments at these keys: they are in s0, s1, … and held, and it counts one
step. -/
def Spec.rowStepped (r : NmuRun) (t : State) (ks : List Nat) : NmuRun :=
  { r with v := loadSegs t.mem 0 ks r.v, window := ks, steps := r.steps + 1, wait := none, paged := [] }

/-- R278, R280: NRNEXT adds rs to rp and loads the window, NRSEEK sets rp, rs and c from a register pair and loads it, and NRWB writes 256 bytes
of a segment register to its place in the window; each counts a step, and a row step one more.  Executed by a hart they are illegal. -/
def Spec.NmuRowInstructions : Prop :=
  (∀ (a v : Reg) (s : State), PlainHart s → ∀ i ∈ [Instr.nrnext, .nrseek a, .nrwb v],
    exec i s = .next (s.start.trapWord (encode i) { cause := 1, tval := 0 } s.start)) ∧
  (∀ (ch : Nat) (s : State) (r : NmuRun), s.unit = .nmu ch → (s.nmu ch).run = some r → r.steps + 2 < 2 ^ 20 → Spec.Unwatched s →
    (∀ r1 ks t, r1 = { r with rp := r.rp + r.rs } → s.rowKeys ch r1 r.c 0 = (.keys ks, t) → Spec.Unwatched t →
      ∃ u, Spec.KernelGoes s ch r .nrnext u (fun _ => Spec.rowStepped r1 t ks) ∧ u.mem = t.mem) ∧
    (∀ (a : Reg),
      let y := r.rx (a.toNat + 1)
      let bad := a.toNat % 2 = 1 ∨ a.toNat = 0 ∨ 15 ≤ a.toNat ∨ y.toNat / 2 ^ 53 ≠ 0 ∨ 16 < y.toNat / 2 ^ 48 % 32 ∨ y.toNat % 0x2000 ≠ 0
      (bad → Spec.KernelFaults s ch r (.nrseek a)) ∧
      (¬ bad → ∀ r1 ks t, r1 = { r with rp := r.rx a.toNat, rs := (y.extractLsb' 0 48).signExtend 64, c := y.toNat / 2 ^ 48 % 32 } →
        s.rowKeys ch r1 r1.c 0 = (.keys ks, t) → Spec.Unwatched t →
        ∃ u, Spec.KernelGoes s ch r (.nrseek a) u (fun _ => Spec.rowStepped r1 t ks) ∧ u.mem = t.mem)) ∧
    (∀ (v : Reg), v.toNat ≤ 15 → ∀ key t,
      s.nmuSeg ch r (r.rp + BitVec.ofNat 64 (0x2000 * (if v.toNat < r.c then v.toNat else 0))) .write = (.ok key, t) → Spec.Unwatched t →
      ∃ u, Spec.KernelGoes s ch r (.nrwb v) u (fun r => { r with paged := [] }) ∧
        u.mem = Memory.setList t.mem key (leBytes 256 (r.rv v.toNat))) ∧
    (∀ (v : Reg), 15 < v.toNat → Spec.KernelFaults s ch r (.nrwb v)))

/-- R141, R278: the FP operations of the subset on two elements and the old destination element, in a format and a rounding mode. -/
noncomputable def Spec.floatTable : List ((VOp → Instr) × ((g : FFmt) → (m a b d : Nat) → ERes)) :=
  [(.vfadd, fun g m a b _ => .ofF (deliver g m (addEx m (readF g a) (readF g b)))),
   (.vfsub, fun g m a b _ => .ofF (deliver g m (addEx m (readF g a) (readF g b).negate))),
   (.vfmul, fun g m a b _ => .ofF (deliver g m (mulEx (readF g a) (readF g b)))),
   (.vfdiv, fun g m a b _ => .ofF (deliver g m (divEx (readF g a) (readF g b)))),
   (.vfsqrt, fun g m a _ _ => .ofF (deliver g m (sqrtEx (readF g a)))),
   (.vfma, fun g m a b d => .ofF (deliver g m (fmaEx m (readF g a) (readF g b) (readF g d)))),
   (.vfms, fun g m a b d => .ofF (deliver g m (fmaEx m (readF g a) (readF g b) (readF g d).negate))),
   (.vfnma, fun g m a b d => .ofF (deliver g m (fmaEx m (readF g a).negate (readF g b) (readF g d)))),
   (.vfmin, fun g m a b _ => .ofF (minMaxArg g m false false a { bits := b, fmt := g })),
   (.vfmax, fun g m a b _ => .ofF (minMaxArg g m true false a { bits := b, fmt := g })),
   (.vfminp, fun g m a b _ => .ofF (minMaxArg g m false true a { bits := b, fmt := g })),
   (.vfmaxp, fun g m a b _ => .ofF (minMaxArg g m true true a { bits := b, fmt := g })),
   (.vfabs, fun g _ a _ _ => .of (a % 2 ^ (g.w - 1))), (.vfneg, fun g _ a _ _ => .of ((a + 2 ^ (g.w - 1)) % 2 ^ g.w)),
   (.vfsgnj, fun g _ a b _ => .of (a % 2 ^ (g.w - 1) + if b.testBit (g.w - 1) then 2 ^ (g.w - 1) else 0)),
   (.vfclass, fun g _ a _ _ => .of (classF g a))]

/-- R96, R145, R278: the reductions, with their op codes and formats. -/
noncomputable def Spec.reductionTable : List ((VOp → Instr) × Nat × List Nat) :=
  [(.vredsum, 0, [0, 1, 2, 3]), (.vredmax, 1, [0, 1, 2, 3]), (.vredmin, 2, [0, 1, 2, 3]), (.vfredo, 3, [4, 5, 6]), (.vfredt, 4, [4, 5, 6]),
   (.vfredc, 5, [4]), (.vfredmax, 6, [4, 5, 6]), (.vfredmin, 7, [4, 5, 6])]

/-- R278: the fields a vector word of the subset may set. -/
def Spec.nearFields (o : VOp) (ta : Bool) : Prop :=
  o.vd.toNat < 16 ∧ o.vs1.toNat < 16 ∧ o.vs2.toNat < 16 ∧ o.m = false ∧ (o.ta = true → ta = true) ∧ o.ma = false ∧ o.e = false ∧ o.q = false ∧ o.i = false

/-- R278: a word of the subset, within the limits visible in it (log 39: the limit on registers for the branches, LOOP and VSETL). -/
def Spec.NearWord (i : Instr) : Prop :=
  i = .halt ∨ i = .nrnext ∨ (∃ a, i = .nrseek a) ∨ (∃ v, i = .nrwb v ∧ v.toNat < 16) ∨
  (∃ d a imm, i = .addi d a imm ∧ d.toNat < 16 ∧ a.toNat < 16) ∨
  (∃ d a b, d.toNat < 16 ∧ a.toNat < 16 ∧ b.toNat < 16 ∧ ∃ p ∈ Spec.scalarTable d a b 0 0, i = p.1) ∨
  (∃ a b off, a.toNat < 16 ∧ b.toNat < 16 ∧ ∃ p ∈ Spec.branchTable a b off 0 0, i = p.1) ∨
  (∃ a off, i = .loop a off ∧ a.toNat < 16) ∨
  (∃ d a vt, i = .vsetl d a 0 vt ∧ d.toNat < 16 ∧ a.toNat < 16 ∧ vt.toNat ≤ 6) ∨
  (∃ o, Spec.nearFields o false ∧ ((∃ p ∈ Spec.intTable, i = p.1 o) ∨ (∃ p ∈ Spec.intTable1, i = p.1 o) ∨ ∃ p ∈ Spec.floatTable, i = p.1 o)) ∨
  (∃ o, Spec.nearFields o true ∧ ∃ p ∈ Spec.reductionTable, i = p.1 o)

/-- R276, R278, R279, R282: the scalar words of the subset in an NMU: the ALU, ADDI, the branches, LOOP and VSETL, with the limits of their targets;
a HALT; a word outside the subset; a word beyond the 256th; and a kernel at its step limit. -/
def Spec.NmuScalars : Prop :=
  ∀ (ch : Nat) (s : State) (r : NmuRun), s.unit = .nmu ch → (s.nmu ch).run = some r →
    let goes (i : Instr) (f : NmuRun → NmuRun) : Prop := ∃ t, Spec.KernelGoes s ch r i t f ∧ t.mem = s.mem
    let target (off : BitVec 16) : Int := r.pc + off.toInt
    (r.steps + 1 < 2 ^ 20 →
      (∀ d a imm, d.toNat < 16 → a.toNat < 16 → goes (.addi d a imm) (fun r => r.wx d.toNat (r.rx a.toNat + imm.signExtend 64))) ∧
      (∀ d a b, d.toNat < 16 → a.toNat < 16 → b.toNat < 16 →
        ∀ p ∈ Spec.scalarTable d a b (r.rx a.toNat) (r.rx b.toNat), goes p.1 (fun r => r.wx d.toNat p.2)) ∧
      (∀ a b off, a.toNat < 16 → b.toNat < 16 → 0 ≤ target off → target off < 256 → ∀ p ∈ Spec.branchTable a b off (r.rx a.toNat) (r.rx b.toNat),
        (p.2 = false → goes p.1 id) ∧
        (p.2 = true → ∃ t, exec p.1 s = .next t ∧ t.mem = s.mem ∧
          let inside (x : Int) : Prop := r.lbeg ≤ x ∧ x ≤ r.lend
          ∃ armed : Bool, (t.nmu ch).run = some { r with steps := r.steps + 1, pc := (target off).toNat, armed := armed } ∧
            (armed = true ↔ r.armed = true ∧ ¬ (inside r.pc ∧ ¬ inside (target off))))) ∧
      (∀ a off, a.toNat < 16 → 0 < off.toInt → target off < 256 → r.armed = false →
        ∃ t, exec (.loop a off) s = .next t ∧ t.mem = s.mem ∧
          (t.nmu ch).run = some { r with
            lbeg := r.pc + 1, lend := (target off).toNat, lc := r.rx a.toNat, armed := r.rx a.toNat != 0, steps := r.steps + 1,
            pc := if r.rx a.toNat = 0 then (target off).toNat + 1 else r.pc + 1 }) ∧
      (∀ d a vt, d.toNat < 16 → a.toNat < 16 → vt.toNat ≤ 6 →
        let n := min (r.rx a.toNat).toNat ([256, 128, 64, 32, 64, 128, 128].getD vt.toNat 0)
        goes (.vsetl d a 0 vt) (fun r => ({ r with vl := n, vtype := vt.toNat } : NmuRun).wx d.toNat (BitVec.ofNat 64 n)))) ∧
    (∀ a b off, target off < 0 ∨ 256 ≤ target off → (∀ p ∈ Spec.branchTable a b off 0 0, Spec.KernelFaults s ch r p.1) ∧
      Spec.KernelFaults s ch r (.loop a off)) ∧
    (∀ a off, r.armed = true → Spec.KernelFaults s ch r (.loop a off)) ∧
    (∀ i, i.hasWord = true → i.wf = true → ¬ Spec.NearWord i → Spec.KernelFaults s ch r i) ∧
    (∀ d a imm, r.steps + 1 = 2 ^ 20 → d.toNat < 16 → a.toNat < 16 → Spec.KernelFaults s ch r (.addi d a imm)) ∧
    (r.cmd.kind = .run → ∃ t x, exec .halt s = .next t ∧ (t.nmu ch).run = none ∧ t.mem = s.mem ∧ t.cur.x = s.cur.x ∧
      ((s.nmu ch).seq < r.cmd.token.toNat % 2 ^ 55 + 256 → (t.nmu ch).log.head? = some x ∧ x.token = r.cmd.token ∧ x.ctx = r.cmd.ctx ∧ x.code = 1)) ∧
    (r.cmd.kind = .run → r.wait = none → r.primed = true → (s.nmu ch).power ≠ .down → r.code.length ≤ r.pc →
      ∃ t, stepNmu ch s = .next t ∧ (t.nmu ch).run = none ∧ t.mem = s.mem) ∧
    (2 ^ 20 ≤ r.steps → Spec.KernelFaults s ch r (.nmuStepLimit ch)) ∧
    (r.steps < 2 ^ 20 → exec (.nmuStepLimit ch) s = .next s)

/-- R278: the vector words of the subset in an NMU, at the width of its vtype and in round to nearest: each element below vl as R139 and R141 say,
the others kept; a reduction's element 0 as R145 says, with the other positions kept or, with ta, all ones. -/
def Spec.NmuVectors : Prop :=
  ∀ (ch : Nat) (s : State) (r : NmuRun) (o : VOp), s.unit = .nmu ch → (s.nmu ch).run = some r →
    let fmt := r.vtype % 16
    let w := fmtWidth fmt
    let a (i : Nat) : Nat := elemN (r.rv o.vs1.toNat) w i
    let b (i : Nat) : Nat := elemN (r.rv o.vs2.toNat) w i
    let d (i : Nat) : Nat := elemN (r.rv o.vd.toNat) w i
    let elements (con : VOp → Instr) (f : Nat → ERes) : Prop := (con o).wf = true → r.steps + 1 < 2 ^ 20 → ∃ t y,
      Spec.KernelGoes s ch r (con o) t (fun r => r.wv o.vd.toNat y) ∧ t.mem = s.mem ∧ y < 2 ^ 2048 ∧
        ∀ i, i < 2048 / w → elemN y w i = if i < r.vl then (f i).val % 2 ^ w else d i
    (Spec.nearFields o false → fmt ≤ 3 →
      (∀ p ∈ Spec.intTable, elements p.1 (fun i => p.2.2 w (a i) (b i) (d i))) ∧ (∀ p ∈ Spec.intTable1, elements p.1 (fun i => .of (p.2 w (a i))))) ∧
    (Spec.nearFields o false → 4 ≤ fmt → fmt ≤ 6 → ∀ p ∈ Spec.floatTable, elements p.1 (fun i => p.2 (ffmt fmt) 0 (a i) (b i) (d i))) ∧
    (3 < fmt → (∀ p ∈ Spec.intTable, Spec.KernelFaults s ch r (p.1 o)) ∧ ∀ p ∈ Spec.intTable1, Spec.KernelFaults s ch r (p.1 o)) ∧
    (fmt < 4 ∨ 6 < fmt → ∀ p ∈ Spec.floatTable, Spec.KernelFaults s ch r (p.1 o)) ∧
    (∀ p ∈ Spec.reductionTable, (p.1 o).wf = true →
      let pair := p.2.1 = 5
      let clash := pair ∧ (o.vd.toNat % 2 = 1 ∨ o.vs1.toNat = o.vd.toNat + 1 ∨ o.vs2.toNat = o.vd.toNat + 1)
      let z := vredN p.2.1 w (ffmt fmt) 0 0 (b 0) ((List.range r.vl).map (fun i => some (a i)))
      let written (old x y : Nat) : Prop := y < 2 ^ 2048 ∧
        ∀ i, i < 2048 / w → elemN y w i = if i = 0 then x % 2 ^ w else if o.ta then 2 ^ w - 1 else elemN old w i
      (fmt ∉ p.2.2 ∨ clash → Spec.KernelFaults s ch r (p.1 o)) ∧
      (Spec.nearFields o true → fmt ∈ p.2.2 → ¬ clash → r.steps + 1 < 2 ^ 20 →
        (r.vl = 0 → ∃ t, Spec.KernelGoes s ch r (p.1 o) t id ∧ t.mem = s.mem) ∧
        (r.vl ≠ 0 → ∃ t y y1, written (r.rv o.vd.toNat) z.val y ∧ t.mem = s.mem ∧ (¬ pair → Spec.KernelGoes s ch r (p.1 o) t (fun r => r.wv o.vd.toNat y)) ∧
          (pair → written (r.rv (o.vd.toNat + 1)) z.err y1 ∧
            Spec.KernelGoes s ch r (p.1 o) t (fun r => (r.wv o.vd.toNat y).wv (o.vd.toNat + 1) y1)))))

/-- Kernels of a near-memory unit (R276, R278, R279, R280, R282). -/
def Obligations.NmuKernels : Prop := Spec.NmuKernelStarts ∧ Spec.NmuRowInstructions ∧ Spec.NmuScalars ∧ Spec.NmuVectors

/-- R214, R283: a bag whose arrays are read and one of whose segment values is not below the bag count ends with BADSEG and no write; otherwise
word k of the output, at output + 4k, takes the sum of word k mod (row words) of the rows whose segment value is k / (row words), in list order, and
nothing else is written.  With a local output the words go to the scratchpad of the hart's cluster (log 39: a bag runs whole). -/
def Spec.NmuBags : Prop :=
  ∀ (ch : Nat) (s u v : State) (c : NmuCmd) (rest : List NmuCmd) (idx seg : List Nat), (s.nmu ch).run = none → (s.nmu ch).queue = c :: rest →
    (s.nmu ch).power ≠ .down → c.kind = .bag → c.out = none ∨ s.outReady c = true → ¬ Spec.Unacquired s c.home 3 c.after c.nmus →
    let r := NmuRun.start c
    let b := c.block
    let n := Spec.field b 1 32 32
    let nb := Spec.field b 5 0 32
    let rb := Spec.field b 1 0 32
    let words := rb / 4
    let s0 := s.takeCmd ch c rest
    (s0.setNmu ch { s0.nmu ch with due := [] }).bagArray ch r (b.getD 2 0) n = (.ok idx, u) → u.bagArray ch r (b.getD 3 0) n = (.ok seg, v) →
    ((∃ x ∈ seg, nb ≤ x) → ∃ t x, exec (.nmbagRun ch) s = .next t ∧ (t.nmu ch).run = none ∧ t.mem = v.mem ∧
      ((v.nmu ch).seq < c.token.toNat % 2 ^ 55 + 256 → (t.nmu ch).log.head? = some x ∧ x.token = c.token ∧ x.ctx = c.ctx ∧ x.code = 5)) ∧
    ((∀ x ∈ seg, x < nb) → ∀ (w : State) (ws : List (Nat × Nat)),
      InOrder (fun q k x q' => ∃ ks q1 q2,
          q.bagSum ch r (b.getD 0 0) rb (k % words) (((idx.zip seg).filter (fun p => p.2 == k / words)).map (fun p => p.1)) none = (.ok x, q1) ∧
          q1.bagOut ch r (b.getD 4 0 + BitVec.ofNat 64 (4 * k)) = (.ok ks, q2) ∧
          q' = ({ q2 with mem := writeKeys q2.mem ks (leBytes 4 x) } : State).agentAccess (q2.ownerLaunch c.owner) (nmuAgent ch) (c.out.map (fun o => o.1))
            .atomic (ks.headD 0) 4)
        (List.range (nb * rb / 4)) v ws w →
      ∃ t x, exec (.nmbagRun ch) s = .next t ∧ (t.nmu ch).run = none ∧ t.mem = w.mem ∧
        ((w.nmu ch).seq < c.token.toNat % 2 ^ 55 + 256 → (t.nmu ch).log.head? = some x ∧ x.token = c.token ∧ x.ctx = c.ctx ∧ x.code = 1)) ∧
    (∀ (w w' : State) (base : Word) (e : Nat) (l : List Nat) (rs : List (Nat × Nat)),
      InOrder (fun q i x q' => ∃ ks q1, q.bagRow ch r (base + BitVec.ofNat 64 (i * rb + 4 * e)) 4 = (.ok ks, q1) ∧
        x = leNat (readKeys q1.mem ks) ∧ q' = q1.agentAccess (q1.ownerLaunch c.owner) (nmuAgent ch) none .read (ks.headD 0) 4) l w rs w' →
      w.bagSum ch r base rb e l none =
        (.ok (match rs.map (fun p => p.2) with | [] => 0 | y :: t => t.foldl (fun acc z => (faddF fp32 0 acc z).1) y), w')) ∧
    (∀ (w : State) (a : Word) (cl lo hi : Nat), c.out = some (cl, lo, hi) →
      w.bagOut ch r a = (.ok ((List.range 4).map (fun j => scratchKey cl (a.toNat - 0x00FFFF0000000000 + j))), w)) ∧
    (∀ (w w1 : State) (a : Word) (ks : List Nat), c.out = none → w.nmuBytes ch c [] .write 4 a = (.ok ks, w1) →
      (∀ k ∈ ks, ∃ off, w1.target k = .hbm off) → w.bagOut ch r a = (.ok ks, w1))

/-- R252, R253: a refresh that falls due during a kernel waits in the channel; a channel asked to power down does so at once when its NMU is
idle, else it waits, and 10 µs after it was asked a busy one saves the segment registers of its kernel and powers down; waking it restores them. -/
def Spec.ChannelPower : Prop :=
  ∀ (ch bank : Nat) (s : State),
    let n := s.nmu ch
    let idle := n.run = none ∧ n.queue = [] ∧ ∀ i ∈ s.instars, i.home = ch → i.halted = true ∨ i.backlog = 0
    exec (.refreshDue ch bank) s = .next (if n.run.isSome then s.setNmu ch { n with due := n.due ++ [bank] } else s) ∧
    (n.power ≠ .down → idle → exec (.channelPowerdown ch) s = .next (s.setNmu ch { n with power := .down, saved := none })) ∧
    (n.power = .up → ¬ idle → exec (.channelPowerdown ch) s = .next (s.setNmu ch { n with power := .asked s.time })) ∧
    (∀ r since, n.power = .asked since → n.run = some r →
      (since + 10000 ≤ s.time → exec (.channelPowerdownTimeout ch) s = .next (s.setNmu ch { n with power := .down, saved := some r.v })) ∧
      (s.time < since + 10000 → exec (.channelPowerdownTimeout ch) s = .next s)) ∧
    (n.power = .up ∨ n.power = .down → exec (.channelPowerdownTimeout ch) s = .next s) ∧
    (∀ r v, n.power = .down → n.run = some r → n.saved = some v → s.poisonIn (2 ^ 53 + 4096 * ch) 4096 = false →
      exec (.channelWake ch) s = .next (s.setNmu ch { n with power := .up, run := some { r with v := v }, saved := none }))

/-- Bag reductions, refresh and power of a channel (R214, R252, R253, R283). -/
def Obligations.NmuChannels : Prop := Spec.NmuBags ∧ Spec.ChannelPower

/-! ## Stage groups, time and event counters (R189, R208 to R213) -/

/-- A release at CLU (1) or DEV (3) scope over the scalar, vector, q and bank streams (R111, R209, R213, R221): their queued accesses are
performed; with a bank command of the hart still to be performed the instruction waits. -/
def Spec.AfterRelease (s : State) (i : Instr) (level : Nat) (then_ : State → Prop) : Prop :=
  let u := s.start.drainTo level (fun st => match st with | .thread _ => false | _ => true)
  u.blocked = none →
    (u.ownCommand (fun e => e == .bank) = true → exec i s = .next u.waitCommands) ∧ (u.ownCommand (fun e => e == .bank) = false → then_ u)

/-- R208, R209: in a stage group QPUSH appends the low 32 bytes of its register to a queue of fewer than 16 entries, QPOP takes the oldest entry
into the low 32 bytes of its register, and QSTAT counts the entries; a QPUSH on a full queue and a QPOP on an empty one wait, and issue again
when their event comes; entries go into a queue in the order in which the QPUSHes arrived at it; in a launch without stages each is the
stage-queue error.  That QPUSH's and QPOP's error sets bit 63 of `tcause` is the model's choice (log 15). -/
def Spec.StageQueues : Prop :=
  (∀ (v d n : Reg) (s : State), PlainHart s →
    let q := (s.cluster (clusterOf s.cur.place)).queues[reg16q n.toNat]
    let err (i : Instr) (vec : Bool) := exec i s =
      .next (s.start.trapWord (encode i) { cause := 0x12, tval := n.setWidth 64, vec := vec } s.start)
    (s.stagesOf s.cur < 2 → err (.qpush v n) true ∧ err (.qpop v n) true ∧ err (.qstat d n) false) ∧
    let u0 := s.start.drainTo 1 (fun st => match st with | .thread _ => false | _ => true)
    (2 ≤ s.stagesOf s.cur →
      Spec.AfterRelease s (.qpush v n) 1 (fun u =>
        (q.length < 16 → u.pushedBefore n.toNat = false → exec (.qpush v n) s = .next (u.setStageQueue n.toNat (q ++ [(s.cur.rv v.toNat).setWidth 256])).completed) ∧
        (16 ≤ q.length ∨ u.pushedBefore n.toNat = true →
          exec (.qpush v n) s = .next { u.arrive with cur := { u.arrive.cur with status := .waiting (.again (encode (.qpush v n))) } })) ∧
      (u0.pushedBefore n.toNat = true ↔ ∃ h ∈ s.others, clusterOf h.place = clusterOf s.cur.place ∧ 2 ≤ s.stagesOf h ∧
        ∃ a, h.pushing n.toNat = some a ∧ ∀ b, s.cur.arrived = some b → a < b) ∧
      (∀ (h : Hart) (x : Reg), h.status = .waiting (.again (encode (.qpush x n))) → h.pushing n.toNat = h.arrived) ∧
      (∀ x rest, q = x :: rest → ∃ (g : Hart) (y : BitVec 4096), exec (.qpop v n) s =
          .next ({ s.start.setStageQueue n.toNat rest with cur := g } : State).completed ∧ g = s.cur.wv v.toNat y ∧
        y.extractLsb' 0 256 = x ∧ y.extractLsb' 256 3840 = (s.cur.rv v.toNat).extractLsb' 256 3840) ∧
      (q = [] → exec (.qpop v n) s = .next { s.start with cur.status := .waiting (.again (encode (.qpop v n))) }) ∧
      (s.recorder s.cur.launch = none →
        exec (.qstat d n) s = .next ({ s.start with cur := s.cur.wx d (BitVec.ofNat 64 q.length) } : State).completed))) ∧
  (∀ (v n : Reg) (h : Nat), Spec.Reissues (.queueWaitWake h) (.qpush v n) h ∧ Spec.Reissues (.queueWaitWake h) (.qpop v n) h)

/-- R210, R211: BAR waits at its barrier after a fence, and passes at once in a launch without stages; when every hart of the group that has not
halted waits at one barrier, BAR_RELEASE lets them all go on; when each waits in QPUSH on a full queue, QPOP on an empty one or BAR, but not all at
one barrier, STAGE_GROUP_DEADLOCK gives each the stage-queue error with its queue, or 16 and its barrier, in tval. -/
def Spec.Barriers : Prop :=
  (∀ (a : Reg) (s : State), PlainHart s →
    let b := (s.cur.rx a).toNat
    let u := (s.start.drainTo 1 (fun _ => true)).awaitNet 1 true (fun _ => true)
    (16 ≤ b → exec (.bar a) s = .next (s.start.trapWord (encode (.bar a)) { cause := 1, tval := 0 } s.start)) ∧
    (b < 16 → u.blocked = none → Spec.hasCommands u → exec (.bar a) s = .next u.waitCommands) ∧
    (b < 16 → u.blocked = none → ¬ Spec.hasCommands u →
      (2 ≤ s.stagesOf s.cur → exec (.bar a) s = .next { u with cur := { u.cur with status := .waiting (.barrier b) } }) ∧
      (s.stagesOf s.cur < 2 → exec (.bar a) s = .next u.completed))) ∧
  (∀ (cl b : Nat) (s : State) (g : Nat × Nat × Nat × Nat), (s.cluster cl).group = some g →
    let live := (s.harts ++ s.frames.map (fun f => f.hart)).filter (fun h => h.inGroup g)
    (live ≠ [] → (∀ h ∈ live, h.status = .waiting (.barrier b) ∧ h.held = false) →
      ∃ t, exec (.barRelease cl b) s = .next t ∧ t.mem = s.mem ∧ t.frames = s.frames ∧
        t.harts = s.harts.map (fun h => if h.inGroup g then { h.advance with status := .running } else h)) ∧
    ((∃ h ∈ live, h.status ≠ .waiting (.barrier b)) → exec (.barRelease cl b) s = .next s) ∧
    (∀ stuck : Hart → Nat, live ≠ [] → (∀ f ∈ s.frames, f.hart.inGroup g = false) → (s.harts.map (fun h => h.place)).Nodup →
      (∀ b', ∃ h ∈ live, h.status ≠ .waiting (.barrier b')) → (∀ h ∈ live, h.strikes = []) →
      (∀ h ∈ live, h.held = false ∧ ((∃ b', h.status = .waiting (.barrier b') ∧ stuck h = 16 + b') ∨
        ∃ v n : Reg, stuck h = n.toNat ∧
          ((h.status = .waiting (.again (encode (.qpush v n))) ∧ 16 ≤ ((s.cluster cl).queues[reg16q n.toNat]).length) ∨
           (h.status = .waiting (.again (encode (.qpop v n))) ∧ (s.cluster cl).queues[reg16q n.toNat] = [])))) →
      ∃ t, exec (.stageGroupDeadlock cl) s = .next t ∧ t.mem = s.mem ∧
        ∀ h ∈ live, ∃ k ∈ t.harts, k.place = h.place ∧ k.status = .stopped ∧ k.tcause.extractLsb' 0 8 = 0x12#8 ∧
          k.tval = BitVec.ofNat 64 (stuck h) ∧ k.x = h.x ∧ k.v = h.v))

/-- Stage queues and barriers (R208, R209, R210, R211). -/
def Obligations.StageGroups : Prop := Spec.StageQueues ∧ Spec.Barriers

/-- R189, R212: TIME reads the module time; SLEEPT acts on its token's status at once unless it is PENDING and the promise time is still to come,
sleeps till then, and takes the second status with the promise-missed trap for PENDING; it is illegal on an odd register or x0. -/
def Spec.TimeAndSleep : Prop :=
  (∀ (d : Reg) (s : State), PlainHart s → s.recorder s.cur.launch = none →
    exec (.time d) s = .next ({ s.start with cur := s.cur.wx d (BitVec.ofNat 64 (s.sevenths / 7)) } : State).completed) ∧
  (∀ (a : Reg) (s : State), PlainHart s →
    let i := Instr.sleept a
    let t := s.cur.rx a
    let token := s.cur.rx (a + 1)
    (a.toNat % 2 = 1 ∨ a = 0 → exec i s = .next (s.start.trapWord (encode i) { cause := 1, tval := 0 } s.start)) ∧
    (∀ code addr, a.toNat % 2 = 0 → a ≠ 0 → Spec.Status s s.cur.sctx token code addr → code ≤ 4 →
      (code ≠ 0 → ∃ u, exec i s = .next u ∧ Spec.AfterStatus s.start s.start (encode i) code addr u) ∧
      (code = 0 → s.timeWord < t → exec i s = .next { s.start with cur.status := .waiting (.sleep (encode i) t token) }) ∧
      (code = 0 → t ≤ s.timeWord → s.recorder s.cur.launch = none →
        exec i s = .next (s.start.trapWord (encode i) { cause := 7, tval := token } s.start)))) ∧
  (∀ (a : Reg) (h : Nat) (t token : Word) (s : State) (code : Nat) (addr : Word),
    let i := Instr.sleept a
    let f := s.focus h
    f.cur.place = h → f.cur.held = false → f.cur.strikes = [] → f.cur.status = .waiting (.sleep (encode i) t token) →
    f.recorder f.cur.launch = none → Spec.Status f f.cur.sctx token code addr → code ≤ 4 →
    let r : State := { f with blocked := none, cur := { f.cur with status := .running } }
    (f.timeWord < t → exec (.sleeptWake h) s = .next f) ∧
    (t ≤ f.timeWord → code = 0 → exec (.sleeptWake h) s = .next (r.trapWord (encode i) { cause := 7, tval := token } r)) ∧
    (t ≤ f.timeWord → code ≠ 0 → ∃ u, exec (.sleeptWake h) s = .next u ∧ Spec.AfterStatus r r (encode i) code addr u))

/-- R213: EVSET is a release and adds to a counter of the context modulo 2^64; EVWAIT goes on when the counter is at or above its value and
otherwise waits; a launch of the context whose wait conditions hold after an EVSET is eligible from then on (R303); a counter number from 4,096 up
is illegal. -/
def Spec.EventCounters : Prop :=
  (∀ (a b : Reg) (s : State), PlainHart s →
    let n := (s.cur.rx a).toNat
    let x := s.cur.rx b
    (4096 ≤ n → ∀ i ∈ [Instr.evset a b, .evwait a b], exec i s = .next (s.start.trapWord (encode i) { cause := 1, tval := 0 } s.start)) ∧
    (n < 4096 →
      Spec.AfterRelease s (.evset a b) 3 (fun u => ∃ t, exec (.evset a b) s = .next t ∧ t.cur = u.cur.advance ∧ t.mem = u.mem ∧
        t.others = u.others ∧ t.clusters = u.clusters ∧ (∀ c m, t.counter c m = if c = s.cur.sctx ∧ m = n then s.counter c m + x else s.counter c m) ∧
        ∀ l ∈ u.hub.launches, l.ctx = s.cur.sctx → l.stopped = false → (∀ w ∈ l.lr.waits, w.2 ≤ t.counter l.ctx w.1) →
          ∃ k ∈ t.hub.launches, k.queue = l.queue ∧ k.seq = l.seq ∧ k.lr = l.lr ∧ k.eligible = true) ∧
      (x ≤ s.counter s.cur.sctx n → exec (.evwait a b) s = .next s.start.completed) ∧
      (s.counter s.cur.sctx n < x → exec (.evwait a b) s = .next { s.start with cur.status := .waiting (.again (encode (.evwait a b))) }))) ∧
  (∀ (a b : Reg) (h : Nat), Spec.Reissues (.evwaitWake h) (.evwait a b) h)

/-- TIME, SLEEPT and the event counters (R189, R212, R213). -/
def Obligations.TimeAndEvents : Prop := Spec.TimeAndSleep ∧ Spec.EventCounters

/-! ## Launches from a hart (R206, R207, R300, R302) -/

/-- A fold can take place: the hart's queued accesses, and its frame, meet nothing they must wait for, no stop is asked of it, and no debug block
watches its accesses (R250, R310, R341). -/
def Spec.FoldFree (s : State) : Prop :=
  ((s.drain (fun _ => true)).touchAll (s.frameSegs s.cur)).blocked = none ∧ s.cur.pending = none ∧ ∀ p ∈ s.hub.debug, p.2.ctx = 0

/-- A fold performs the hart's queued accesses; only the 704 bytes of its frame are written besides, at `sframe` where it has one (R311). -/
def Spec.FrameOnly (s t : State) : Prop :=
  ∀ a, (∀ k, s.frameKey s.cur = some k → ¬ (k ≤ a ∧ a < k + 704)) → Memory.get t.mem a = Memory.get (s.drain (fun _ => true)).mem a

/-- The hart is in a frame, its queued accesses performed, and its slot is free (R207, R310). -/
def Spec.GivesSlotUp (s t : State) (w : Wait) : Prop :=
  ∃ f : Frame, t.frames = s.frames ++ [f] ∧ t.cur = s.cur.unbound ∧ t.others = s.others ∧ Spec.FrameOnly s t ∧
    f.hart.status = .waiting w ∧ f.hart.place = s.cur.place ∧ f.hart.x = s.cur.x ∧ f.hart.pc = s.cur.pc ∧ f.hart.tiles = s.cur.tiles ∧
    f.hart.q = s.cur.q.map QReg.rewind ∧ f.hart.sctx = s.cur.sctx ∧ f.hart.launch = s.cur.launch ∧ f.hart.ord = s.cur.ord ∧ f.hart.vl = s.cur.vl ∧
    f.hart.vtype = s.cur.vtype ∧ f.hart.stores = [] ∧ f.evicted = false

/-- R206, R299, R300, R302: LNCH and LNCH.W read their record and, after a release, submit it to their die's device queue: xd takes the handle of
the next sequence number, or a refusal; a launch whose wait conditions hold is eligible at once (R303); with no shared entry free LNCH is refused, and LNCH.W gives its slot up till its own entry is free; a bad record is told before a full queue (log 46). -/
def Spec.LaunchInstructions : Prop :=
  ∀ (own : Bool) (d a : Reg) (s : State), PlainHart s →
    let x := s.cur.rx a
    let i := if own then Instr.lnchW d a else .lnch d a
    (x.toNat % 64 ≠ 0 → exec i s = .next (s.start.trapWord (encode i) { cause := 4, tval := x } s.start)) ∧
    (∀ ds u, x.toNat % 64 = 0 → s.start.loadRecord x = (.ok ds, u) → u.blocked = none → u.cur.strikes = [] → Spec.Unwatched u →
      let v := u.drainTo 3 (fun st => match st with | .thread _ => false | _ => true)
      let die := v.cur.place / 896
      let used := v.hub.launches.filter (fun l => l.queue == 64 + die && l.reserved.isNone && l.holdsEntry)
      let mine := ∃ l ∈ v.hub.launches, l.reserved = some v.cur.place ∧ l.holdsEntry = true
      v.blocked = none → v.ownCommand (fun e => e == .bank) = false → die < 4 →
      (v.checkRecord v.cur.sctx ds = none → exec i s = .next ({ v with cur := v.cur.wx d 0x8000000000000002 } : State).completed) ∧
      (∀ r, v.checkRecord v.cur.sctx ds = some r →
        (own = false → 256 ≤ used.length → exec i s = .next ({ v with cur := v.cur.wx d 0x8000000000000001 } : State).completed) ∧
        (own = true → mine → Spec.FoldFree v → ∃ t, exec i s = .next t ∧ Spec.GivesSlotUp v t (.entry v.cur.place)) ∧
        (own = false ∧ used.length < 256 ∨ own = true ∧ ¬ mine →
          let seq := v.hub.devSeq.toList.getD die 0 + 1
          ∃ t l, exec i s = .next t ∧ t.cur = (v.cur.wx d (0#1 ++ BitVec.ofNat 2 die ++ BitVec.ofNat 61 seq)).advance ∧
            t.hub.launches = v.hub.launches ++ [l] ∧ l.queue = 64 + die ∧ l.seq = seq ∧ l.addr = x ∧ l.ctx = v.cur.sctx ∧ l.lr = r ∧
            (l.eligible = true ↔ ∀ w ∈ r.waits, w.2 ≤ v.counter v.cur.sctx w.1) ∧ l.next = 0 ∧ l.halted = 0 ∧ l.done = none ∧ l.reserved = (if own then some v.cur.place else none) ∧
            t.hub.devSeq.toList.getD die 0 = seq ∧ t.mem = v.mem)))

/-- R207, R309: LWAIT writes the status of a completed launch, 3 for a handle of no launch of the context, and otherwise gives the slot up;
LWAIT_RELEASE lets the folded hart go on after it once the launch has completed, and one that waits for its entry once that is free. -/
def Spec.LaunchWaits : Prop :=
  (∀ (d a : Reg) (s : State), PlainHart s →
    let x := s.cur.rx a
    let named (l : Launch) : Prop := l.ctx = s.cur.sctx ∧ 64 ≤ l.queue ∧ launchHandle (l.queue - 64) l.seq = x
    ((∀ l ∈ s.hub.launches, ¬ named l) → exec (.lwait d a) s = .next ({ s.start with cur := s.cur.wx d 3 } : State).completed) ∧
    (∀ l ∈ s.hub.launches, named l → (∀ k ∈ s.hub.launches, named k → k = l) →
      (∀ st, l.done = some st → exec (.lwait d a) s = .next ({ s.start with cur := s.cur.wx d (BitVec.ofNat 64 st) } : State).completed) ∧
      (l.done = none → Spec.FoldFree s.start →
        ∃ t, exec (.lwait d a) s = .next t ∧ Spec.GivesSlotUp s.start t (.launch (encode (.lwait d a)) x)))) ∧
  (∀ (d a : Reg) (s : State) (f : Frame) (x : Word) (l : Launch) (st : Nat), s.frames = [f] → f.hart.held = false → f.hart.lane = none →
    f.hart.status = .waiting (.launch (encode (.lwait d a)) x) → s.ctxStopped f.hart.sctx = false → s.launchOf f.hart.sctx x = some l →
    (l.done = none → exec (.lwaitRelease f.hart.place) s = .next s) ∧
    (l.done = some st → ∃ g, exec (.lwaitRelease f.hart.place) s = .next { s with frames := [{ f with hart := g }] } ∧ g.status = .running ∧
      g.x = (f.hart.wx d (BitVec.ofNat 64 st)).x ∧ g.sresume = f.hart.advance.pc ∧ g.v = f.hart.v)) ∧
  (∀ (s : State) (f : Frame) (slot : Nat), s.frames = [f] → f.hart.held = false → f.hart.status = .waiting (.entry slot) →
    (s.entryTaken slot = false → exec (.lwaitRelease f.hart.place) s =
      .next { s with frames := [{ f with hart := { f.hart with status := .running } }] }) ∧
    (s.entryTaken slot = true → exec (.lwaitRelease f.hart.place) s = .next s))

/-- Launches from a hart (R206, R207, R299, R300, R302, R309). -/
def Obligations.DeviceLaunches : Prop := Spec.LaunchInstructions ∧ Spec.LaunchWaits

/-! ## Launches in the hub (R296 to R309, R317) -/

/-- R303, R304, R309: a launch whose wait conditions hold becomes eligible; one that waited another 64 µs rises by one, at most by two; a launch
whose iterations have all ended completes, with its record written at the record address + 384, its signal added and its status kept. -/
def Spec.LaunchLifecycle : Prop :=
  ∀ (s : State) (l : Launch), s.launchAt l.queue l.seq = some l →
    let q := l.queue
    let n := l.seq
    (l.eligible = false → l.stopped = false → (∀ w ∈ l.lr.waits, w.2 ≤ s.counter l.ctx w.1) → ∃ t k, exec (.launchEligible q n) s = .next t ∧
      t.launchAt q n = some k ∧ k.eligible = true ∧ k.boost = 0 ∧ k.since = s.time ∧ k.next = l.next ∧ k.lr = l.lr ∧ k.done = l.done ∧
      t.mem = s.mem ∧ t.cur = s.cur) ∧
    ((∃ w ∈ l.lr.waits, s.counter l.ctx w.1 < w.2) → exec (.launchEligible q n) s = .next s) ∧
    (s.live l = true → l.dispatched = false →
      (l.boost < 2 → l.lr.prio + l.boost < 7 → l.since + 64000 * (l.boost + 1) ≤ s.time → ∃ t k, exec (.priorityAging q n) s = .next t ∧
        t.launchAt q n = some k ∧ k.boost = l.boost + 1 ∧ k.next = l.next ∧ k.lr = l.lr ∧ t.mem = s.mem ∧ t.cur = s.cur) ∧
      (l.boost = 2 ∨ s.time < l.since + 64000 * (l.boost + 1) → exec (.priorityAging q n) s = .next s)) ∧
    (l.done = none → l.stopped = false → l.eligible = true → l.dispatched = true → s.ctxStopped l.ctx = false →
      (∀ h ∈ s.harts ++ s.frames.map (fun f => f.hart), h.launch ≠ some (q, n)) → l.cut = [] → l.lr.total = l.next →
      (∀ x ∈ s.hub.launches, x.heldAt = none) → (∀ p ∈ s.hub.debug, p.2.ctx = 0) → (∀ o ∈ s.hub.objects, o.leaving = false) →
      (∀ k ∈ s.writeTrail l.sptb (l.addr + 384) 8, s.heldSegment k = false) → ∀ ks, s.writeKeys8 l.sptb 8 (l.addr + 384) = some ks →
      (∀ k ∈ ks, s.heldSegment k.1 = false ∧ s.heldSegment k.2 = false) → ∃ t k, exec (.launchComplete q n) s = .next t ∧
        t.launchAt q n = some k ∧ k.done = some 0 ∧
        t.mem = (s.writeDwords ks [0, BitVec.ofNat 64 l.lr.total, BitVec.ofNat 64 l.halted, 0, BitVec.ofNat 64 s.time, 0, 0, 0]).mem ∧
        (l.lr.sigVal ≠ 0 → t.counter l.ctx l.lr.sigCtr = s.counter l.ctx l.lr.sigCtr + l.lr.sigVal) ∧ t.cur = s.cur) ∧
    (∀ h, l.done = none → l.stopped = false → h ∈ s.harts → h.launch = some (q, n) → h.status = .stopped → h.held = false → (∀ x ∈ s.harts, x.pending = none) →
      ∃ t k, exec (.supervisorStopLaunch q n) s = .next t ∧ t.launchAt q n = some k ∧ k.stopped = true ∧ k.redo = [] ∧ t.mem = s.mem ∧
        t.harts = s.harts.map (fun x => if x.launch = some (q, n) then x.supervisorStop else x))

/-- R19, R296, R304, R306: the next iteration of a launch without stages, regions or stack binds a hart at a free place: its x registers hold the
indices, the stage and the argument address, its granted lanes stand in lmap, it starts at the launch's entry, and every other register is
cleared; the dispatch is an update of the queue's log at its next position (log 62). -/
def Spec.IterationDispatched : Prop :=
  ∀ (s : State) (l : Launch) (p : Nat), s.launchAt l.queue l.seq = some l → s.live l = true → l.dispatched = false → l.redo = [] →
    s.hub.power ≠ .standby → l.lr.stages = 1 → l.lr.stack = 0 → l.lr.regions = [] → s.placesOk l [p] = true → s.framesOn l (dieOf p) = [] →
    s.outranked l (dieOf p) = false → s.recorder (some (l.queue, l.seq)) = none →
    ∃ t h k, exec (.dispatchIteration l.queue l.seq [p]) s = .next t ∧ h ∈ t.harts ∧ t.launchAt l.queue l.seq = some k ∧ k.next = l.next + 1 ∧
      k.lr = l.lr ∧ t.mem = s.mem ∧ t.frames = s.frames ∧ h.place = p ∧ h.status = .running ∧ h.pc = l.lr.entries.getD 0 0 ∧ h.ord = l.next ∧
      (let at_ := ((s.queueLog l.queue).tail.1, (s.queueLog l.queue).tail.2 + 1)
       (t.queueLog l.queue).tail = at_ ∧ (at_, QUpdate.dispatch l.seq l.next (dieOf p)) ∈ (t.queueLog l.queue).entries) ∧
      h.launch = some (l.queue, l.seq) ∧ h.x[2] = 0 ∧ (∀ d : Fin 4, h.rx (BitVec.ofNat 5 (3 + d.val)) = BitVec.ofInt 64 ((l.lr.indices l.next).getD d.val 0)) ∧
      h.x[7] = 0 ∧ h.x[8] = l.lr.args ∧ (∀ r : Fin 32, r = 0 ∨ r = 1 ∨ 9 ≤ r.val → h.x[r] = 0) ∧ h.sctx = l.ctx ∧ h.sptb = l.sptb ∧
      h.lmap = BitVec.ofNat 64 (s.grant p l.lr.cap) ∧ h.coord = coordOf p ∧ h.stage = 0 ∧ h.v = Vector.replicate 32 0 ∧
      h.tiles = Vector.replicate 8 0 ∧ h.q = Vector.replicate 8 .unbound ∧ h.vl = 0 ∧ h.vtype = 0 ∧ h.vstart = 0 ∧ h.vrm = 0 ∧ h.vxflags = 0 ∧
      h.vxsel = 0 ∧ h.sord = 0 ∧ h.lc = 0 ∧ h.lend = 0 ∧ h.pfxs = 0 ∧ h.dirty = 0 ∧ h.tvec = 0 ∧ h.tcause = 0 ∧ h.regions = [] ∧ h.stores = []

/-- R300, R331, R335: the log of a launch queue: an acceptance stands at its sequence number, later updates after it; a replica applies the updates in
order of position, and what each does to its launches; of two dispatches of one iteration the later one changes nothing; a stale replica becomes a
copy of a healthy one.  That the updates between two acceptances are numbered with a second component is the model's choice (log 62). -/
def Spec.QueueReplicas : Prop :=
  (∀ (s : State) (q seq ord die : Nat) (again : Bool), let x := s.queueLog q
    ((s.enter q (.accept seq)).queueLog q).tail = (seq, 0) ∧
    (∀ u ∈ [QUpdate.dispatch seq ord die, .halted seq ord, .cut seq ord again, .complete seq], let at_ := (x.tail.1, x.tail.2 + 1)
      ((s.enter q u).queueLog q).tail = at_ ∧ ((s.enter q u).queueLog q).entries = x.entries ++ [(at_, u)] ∧
      ((s.enter q u).queueLog q).replicas = x.replicas)) ∧
  (∀ (r : QReplica) (p : Nat × Nat) (l : QLaunch) (ord die : Nat), r.launches = [l] →
    let after (u : QUpdate) (ls : List QLaunch) : Prop := r.apply p u = { applied := p, launches := ls }
    (∀ seq, after (.accept seq) [l, { seq := seq, next := 0, redo := [], halted := 0, cut := [] }]) ∧
    (ord = l.next → ord ∉ l.redo → after (.dispatch l.seq ord die) [{ l with next := ord + 1 }]) ∧
    (ord ∈ l.redo → after (.dispatch l.seq ord die) [{ l with redo := l.redo.erase ord }]) ∧
    (ord < l.next → ord ∉ l.redo → after (.dispatch l.seq ord die) [l]) ∧
    after (.halted l.seq ord) [{ l with halted := l.halted + 1 }] ∧
    after (.cut l.seq ord true) [{ l with redo := l.redo ++ [ord] }] ∧ after (.cut l.seq ord false) [{ l with cut := l.cut ++ [ord] }] ∧
    after (.complete l.seq) []) ∧
  (∀ (x : QueueLog) (die : Nat), die < 4 →
    (∀ r e rest, x.replicas[reg4 die] = some r → x.entries.filter (fun e => beyond e.1 r.applied) = e :: rest →
      (x.next die).replicas = x.replicas.set (reg4 die) (some (r.apply e.1 e.2)) ∧ (x.next die).tail = x.tail) ∧
    (∀ src r, x.replicas[reg4 die] = none → src < 4 → x.replicas[reg4 src] = some r → (∀ k, k < src → x.replicas[reg4 k] = none) →
      (x.next die).replicas = x.replicas.set (reg4 die) (some r))) ∧
  (∀ (s : State) (q die : Nat) (rest : List Turn), s.parkIdle = s → s.schedule = .hub (.replica q die) :: rest → die < 4 → die ∉ s.down →
    ∃ t, step s = .next t ∧ t.queueLog q = (s.queueLog q).next die ∧ t.mem = s.mem ∧ t.cur = s.cur)

/-- From acceptance of a launch to its completion (R19, R296, R300, R303, R304, R306, R309, R331, R335). -/
def Obligations.LaunchWalk : Prop := Spec.LaunchLifecycle ∧ Spec.IterationDispatched ∧ Spec.QueueReplicas

/-- R30, R31, R126: a 1 written to shalt stops a hart, bound or in its frame, with cause 0x15 and its resume address; SUPERVISOR_RESUME continues a stopped
hart at sresume. -/
def Spec.SupervisorStops : Prop :=
  (∀ (h : Nat) (s : State) (y : Hart), s.hartAt h = some y → (s.harts.map (fun z => z.place)).Nodup →
    (y.held = false → y.status ≠ .stopped → y.pending = none → (∀ o ∈ s.hub.objects, o.leaving = false) →
      exec (.shaltWrite h 1) s = .next (s.mapHarts (fun z => if z.place = h then { y with
      shalt := 1, status := .stopped, pending := none, more := [], tcause := 0x15, tval := 0, tpc := y.ip, sresume := y.ip } else z))) ∧
    (∀ x : Word, 2 ≤ x.toNat → ∃ m, exec (.shaltWrite h x) s = .next (s.logS m x)) ∧
    (y.held = false → y.status = .stopped → y.lane = none → s.hub.launches = [] → exec (.supervisorResume h) s =
      .next (s.mapHarts (fun z => if z.place = h then
        { y with status := .running, shalt := 0, pc := y.sresume, held := s.ctxStopped y.sctx } else z))) ∧
    (y.status ≠ .stopped → exec (.supervisorResume h) s = .next s)) ∧
  (∀ (s : State) (f : Frame), s.frames = [f] → s.hartAt f.hart.place = none → f.hart.held = false → f.hart.status ≠ .stopped →
    f.hart.status ≠ .unbound → (∀ z ∈ s.harts, z.pending = none) → (∀ o ∈ s.hub.objects, o.leaving = false) →
    exec (.shaltWrite f.hart.place 1) s = .next { s with frames := [{ f with hart := { f.hart with
      shalt := 1, status := .stopped, pending := none, more := [], tcause := 0x15, tval := 0, tpc := f.hart.ip, sresume := f.hart.ip } }] })

/-- R262, R263, R317: a lane is retired for the harts bound from then on; a hart whose state failed its check stops with the data-check trap; a die
reset loses its harts, scratchpads, commands, translations and near-memory commands, and DIE_BACK returns it (log 45: what is lost, and what a reset channel keeps). -/
def Spec.LostParts : Prop :=
  (∀ (core lane : Nat) (s : State), core < 1792 → lane < 16 → (core, lane) ∉ s.retired →
    exec (.laneRetire core lane) s = .next { s with retired := (core, lane) :: s.retired }) ∧
  (∀ (h : Nat) (s : State), let f := s.focus h
    f.cur.place = h → f.cur.status ≠ .unbound → f.cur.launch = none → f.cur.lane = none → ∃ g, exec (.hartStateError h) s = .next { f with cur := g } ∧
      Spec.GoesToSupervisor f.cur g 8 0) ∧
  (∀ (die : Nat) (s : State), die < 4 → (∀ h ∈ s.harts, h.status ≠ .unbound → dieOf h.place = die → h.launch = none) → s.hub.objects = [] →
    (s.harts.map (fun h => h.place)).Nodup →
    ∃ t, exec (.dieReset die) s = .next t ∧ die ∈ t.down ∧ (∀ h ∈ t.harts, dieOf h.place = die → h.status = .unbound) ∧
      (∀ h ∈ s.harts, dieOf h.place ≠ die → ∃ k ∈ t.harts, k.place = h.place ∧ k.x = h.x ∧ k.v = h.v ∧ k.pc = h.pc) ∧
      (∀ cl, clusterDie cl = die → (t.cluster cl).pool = [] ∧ (t.cluster cl).group = none) ∧ (∀ e ∈ t.tlb, e.home ≠ die) ∧
      (∀ e ∈ t.walks, e.die ≠ die) ∧ (∀ x ∈ t.hub.qlogs, x.replicas[reg4 die] = none) ∧
      (∀ ch, ch / 96 = die → (t.nmu ch).run = none ∧ (t.nmu ch).queue = []) ∧
      (∀ k, ¬ (scratchKey (56 * die) 0 ≤ k ∧ k < scratchKey (56 * die + 56) 0) → Memory.get t.mem k = Memory.get s.mem k) ∧
      (∀ k, scratchKey (56 * die) 0 ≤ k → k < scratchKey (56 * die + 56) 0 → Memory.get t.mem k = Memory.empty)) ∧
  (∀ (die : Nat) (s : State), exec (.dieBack die) s = .next { s with down := s.down.filter (fun d => d != die) }) ∧
  (∀ (ch : Nat) (s : State), ch < 384 → ∃ t, exec (.channelReset ch) s = .next t ∧ (t.nmu ch).run = none ∧ (t.nmu ch).queue = [] ∧
    (t.nmu ch).power = .up ∧ (t.nmu ch).seq = (s.nmu ch).seq ∧ (∀ i ∈ t.instars, i.home ≠ ch) ∧ t.mem = s.mem ∧
    ∀ k, k ≠ ch → t.nmu k = s.nmu k)

/-- Supervisor stops and lost parts (R30, R31, R126, R262, R263, R317). -/
def Obligations.StopsAndLosses : Prop := Spec.SupervisorStops ∧ Spec.LostParts

/-- R305, R310 to R314, R316: a hart of the lowest class that a pressing launch may displace folds into its frame, with a mirror on another die,
sealed for a cocoon's launch, and resumes from it at a free place of its cluster with the same registers, granted lanes and program counter; an
evicted launch's keep regions and stacks are saved; when both copies of its frame fail, the promise is void (log 10).  The layout of the frame is
log 8, what the slot keeps log 58, the sets of victims log 44. -/
def Obligations.FoldAndResume : Prop :=
  (∀ (s : State) (l : Launch), l ∈ s.hub.launches → s.presses l (dieOf s.cur.place) = true → s.firstVictim l (dieOf s.cur.place) = some s.cur →
    s.hartAt s.cur.place = some s.cur → s.stagesOf s.cur < 2 → Spec.Unwatched s → s.sendOff = s →
    ∃ t, exec (.preemptFold s.cur.place) s = .next t ∧ ∃ f : Frame, t.frames = s.frames ++ [f] ∧ t.cur = s.cur.unbound ∧
      t.others = s.others ∧ Spec.FrameOnly s t ∧ f.hart.x = s.cur.x ∧ f.hart.tiles = s.cur.tiles ∧ f.hart.q = s.cur.q.map QReg.rewind ∧
      f.hart.sresume = s.cur.ip ∧ f.hart.status = s.cur.status ∧ f.hart.stores = [] ∧ f.copyOk = true ∧ f.mirrorOk = true ∧
      (∀ k, s.frameKey s.cur = some k →
        let bytes := sealBytes (s.frameSeal s.cur) k (dwordBytes (s.cur.frameWords f.resizable (s.frameSeal s.cur).isSome false))
        Memory.getList t.mem k 704 = bytes ∧ f.mirror.2 = bytes ∧ f.mirror.1 < 4 ∧ ∀ off, s.target s.cur.sframe.toNat = .hbm off → f.mirror.1 ≠ off / 2 ^ 36 / 3)) ∧
  (∀ (s : State) (l : Launch) (die : Nat) (h : Hart), s.firstVictim l die = some h → h.foldable = true ∧ h.cls < l.lr.prio ∧
    ∀ hs, s.victims l die = some hs → h ∈ hs ∧
      ((∀ x ∈ hs, x.bornAt < 2 ^ 64) → ∀ x ∈ hs, h.cls < x.cls ∨ (h.cls = x.cls ∧ x.bornAt ≤ h.bornAt))) ∧
  (∀ (s : State) (l v : Launch) (cl : Nat), l ∈ s.hub.launches → s.presses l (clusterDie cl) = true →
    s.firstEvictee l (clusterDie cl) = some (v, cl) → s.launchAt v.queue v.seq = some v → s.hartsOn v.queue v.seq cl = [] →
    (s.cluster cl).group = none → (∀ c ∈ (s.cluster cl).pool, c.ctx ≠ v.ctx) →
    ∃ t, exec (.evictLaunch v.queue v.seq cl) s = .next t ∧ t.mem = s.mem ∧ t.cur = s.cur ∧
      t.frames = s.frames.map (fun f => if f.hart.launch = some (v.queue, v.seq) ∧ clusterOf f.hart.place = cl ∧
        f.evicted = false then { f with
          evicted := true, era := s.nextEra, bad := (s.evictFrame cl 0 f).bad
          saved := (f.hart.local_.filter (fun r => !r.disc)).map (fun r =>
            (r, sealBytes (s.frameSeal f.hart) r.off (Memory.getList s.mem (scratchKey cl r.off) r.size))) } else f) ∧
      ∀ x ∈ (t.cluster cl).segs, x.holder ≠ some (.region v.queue v.seq) ∧ ∀ o k, x.holder ≠ some (.stack v.queue v.seq o k)) ∧
  (∀ (s : State) (f : Frame) (p : Nat), s.frames = [f] → f.ready = true → f.evicted = false → f.hart.launch = none → s.hub.power ≠ .standby →
    clusterOf p = clusterOf f.hart.place → p < 3584 → f.hart.lane = none → (∀ k ∈ s.frameSegs f.hart, s.heldSegment k = false) →
    let m := s.resumeMap f p
    (f.copyOk = false → f.mirrorOk = false → exec (.hartResume f.hart.place p) s = .fault .promiseVoid) ∧
    (f.resizable = false → (p = f.hart.place → s.slotOpen p f.hart.half = true → m = f.hart.lmap.toNat % 2 ^ 16) ∧
      (p ≠ f.hart.place → popcN 16 (s.grant p f.hart.cap) = f.hart.lanes → m = s.grant p f.hart.cap) ∧
      (p ≠ f.hart.place → popcN 16 (s.grant p f.hart.cap) ≠ f.hart.lanes → m = 0)) ∧
    (s.firstCopy f = true ∨ f.mirrorOk = true → m = 0 → exec (.hartResume f.hart.place p) s = .next s) ∧
    (s.firstCopy f = true ∨ f.mirrorOk = true → f.image = [] → popcN 16 m = f.hart.lanes → m ≠ 0 → ∃ t h,
      exec (.hartResume f.hart.place p) s = .next t ∧ h ∈ t.harts ∧ t.frames = [] ∧ t.mem = s.mem ∧ h.place = p ∧ h.coord = coordOf p ∧
        h.pc = f.hart.sresume ∧ h.x = f.hart.x ∧ h.v = f.hart.v ∧ h.tiles = f.hart.tiles ∧ h.q = f.hart.q ∧ h.vl = f.hart.vl ∧
        h.vtype = f.hart.vtype ∧ h.vstart = f.hart.vstart ∧ h.dirty = 0 ∧ h.lmap = BitVec.ofNat 64 m ∧
        h.status = f.hart.status.afterFold))

/-! ## Pages and invalidation (R259, R260) -/

/-- R260: a request is answered once: after Success its hart issues again, and after any other answer it takes the access violation with the
address. -/
def Spec.PageAnswers : Prop :=
  ∀ (s : State) (r : PageReq), s.hub.pages.find? (fun p => p.id == r.id) = some r → s.cur.status = .waiting (.page r.id) →
    s.recorder s.cur.launch = none → r.who = .hart s.cur.place →
    (∃ t, exec (.pageRequestResponse r.id true) s = .next t ∧ t.cur = { s.cur with status := .running, paged := pageOf r.addr :: s.cur.paged } ∧
      (∀ p ∈ t.hub.pages, p.id ≠ r.id) ∧ t.mem = s.mem) ∧
    (s.cur.strikes = [] → ∃ t, exec (.pageRequestResponse r.id false) s = .next t ∧ t.cur.status = .stopped ∧ t.cur.tcause.extractLsb' 0 8 = 6#8 ∧
      t.cur.tval = r.tval ∧ t.cur.tpc = s.cur.ip ∧ t.cur.x = s.cur.x ∧ (∀ p ∈ t.hub.pages, p.id ≠ r.id) ∧ t.mem = s.mem) ∧
    exec (.pageRequestResponse r.id true) { s with hub := { s.hub with pages := [] } } = .next { s with hub := { s.hub with pages := [] } }

/-- R259, R355: a request goes to the end of the invalidation queue, which holds 64; the oldest one leaves no translation of its range behind and
writes 1 to its done address, or 2, with nothing invalidated, when a reserved bit is set; while an access that was translated cannot yet be
performed, or a kernel holds the segment of its done address, it waits; a request in a held segment is read after the hold (R250).  Before firmware
runs the write is not presented (R364, log 50). -/
def Spec.Invalidation : Prop :=
  (∀ (port : Nat) (a : Word) (s : State), port < 2 →
    let u := s.wakeUp
    let held := s.heldSegment (s.paKey a.toNat) = true ∨ s.heldSegment (s.paKey (a.toNat + 31)) = true
    (s.hub.booted = false → exec (.invalidationRequest port a) s = .next u) ∧
    (s.hub.booted = true → s.hub.requests = [] →
      (held → exec (.invalidationRequest port a) s = .next (u.setHub { u.hub with requests := [.inv a] })) ∧
      (¬ held →
        (s.hub.invs.length < 64 → s.target a.toNat ≠ .hole → s.poisonIn (s.paKey a.toNat) 32 = false → ∃ t, exec (.invalidationRequest port a) s = .next t ∧
          t.hub.invs = s.hub.invs ++ [s.invRequest a] ∧ t.mem = s.mem ∧ t.cur = s.cur) ∧
        (s.hub.invs.length = 64 → ∃ m, exec (.invalidationRequest port a) s = .next (u.logS m a))))) ∧
  (∀ (s : State) (r : InvReq) (rest : List InvReq), s.hub.invs = r :: rest → s.target r.done.toNat ≠ .hole →
    let held := s.heldSegment (s.paKey r.done.toNat) = true
    (held ∨ r.bad = false ∧ s.invReady r = false → exec .invalidationComplete s = .next s) ∧
    (¬ held → r.bad = true ∨ s.invReady r = true → ∃ t, exec .invalidationComplete s = .next t ∧ t.hub.invs = rest ∧
    (r.bad = true → t.tlb = s.tlb ∧ t.mem = Memory.setList s.mem (s.paKey r.done.toNat) (leBytes 8 2)) ∧
    (r.bad = false →
      (∀ e ∈ t.tlb, e ∈ s.tlb ∧ ¬ ((r.ctx = 0xFFFFFFFF ∨ r.ctx = e.ctx) ∧ (r.size = 3 ∨
        (e.page * 2 ^ e.bits < r.va.toNat + r.count.toNat * 2 ^ (12 + 9 * r.size) ∧ r.va.toNat < (e.page + 1) * 2 ^ e.bits)))) ∧
      (∀ e ∈ s.tlb, e.ctx ≠ r.ctx → r.ctx ≠ 0xFFFFFFFF → e ∈ t.tlb) ∧
      ((∀ h ∈ s.harts, h.stores = []) → t.mem = Memory.setList s.mem (s.paKey r.done.toNat) (leBytes 8 1)))))

/-- Answers to page requests, and invalidation (R259, R260, R355). -/
def Obligations.PagesAndTranslations : Prop := Spec.PageAnswers ∧ Spec.Invalidation

/-! ## Debug blocks and ports (R336 to R351) -/

/-- R336, R340, R343: DBCTX binds a block to a context that no other block serves and that may be debugged, and 0 releases it; DBCTL stop makes a
running hart of the context stop at its next strip boundary and holds a waiting one where it stands; DBCTL resume lets the held harts go on, but
waits while records are held or those from before there was a ring are not consumed (R344).  That DBCTX of a context that may not be debugged, and
the release of a stopped block, act so is the model's choice (log 49). -/
def Spec.DebugStops : Prop :=
  ∀ (n : Nat) (x : Word) (s : State), n < 64 →
    let d := s.debug n
    (x.toNat < 2 ^ 32 → x ≠ 0 → d.ctx = 0 → d.stopped = false → (∀ p ∈ s.hub.debug, p.1 ≠ n → p.2.ctx ≠ x) →
      (∀ c ∈ s.hub.cocoons, c.ctx = x → c.debug = true) → ∃ (t : State) (keys : Vector (Option Nat) 4), exec (.dbctxWrite n x) s = .next t ∧
        t.debug n = { d with ctx := x, recs := [], comp := keys } ∧ (∀ w : Fin 4, keys[w] = s.comparator x d.wpaddr[w]) ∧
        (∀ m, m ≠ n → t.debug m = s.debug m) ∧ t.mem = s.mem ∧ t.cur = s.cur) ∧
    (2 ^ 32 ≤ x.toNat ∨ (x ≠ 0 ∧ ∃ p ∈ s.hub.debug, p.1 ≠ n ∧ p.2.ctx = x) → ∃ m, exec (.dbctxWrite n x) s = .next (s.logS m x)) ∧
    (d.stopped = false → ∃ t, exec (.dbctxWrite n 0) s = .next t ∧
      t.debug n = { d with ctx := 0, comp := Vector.replicate 4 none } ∧ t.cur = s.cur ∧ t.mem = s.mem) ∧
    (d.ctx ≠ 0 → d.stopped = false → ∃ t, exec (.dbctlStop n) s = .next t ∧ (t.debug n).stopped = true ∧ (s.blockOf d.ctx = some (n, d) → t.ctxStopped d.ctx = true) ∧
      (s.cur.sctx = d.ctx → s.cur.held = false → s.cur.status = .running → s.cur.pending = none →
        t.cur = { s.cur with pending := t.cur.pending } ∧ t.cur.pending.isSome = true) ∧
      (∀ w, s.cur.sctx = d.ctx → s.cur.held = false → s.cur.status = .waiting w → s.cur.lane = none →
        t.cur = { s.cur with held := true, pending := none, more := [], tcause := 0x15, tval := 0, tpc := s.cur.ip }) ∧
      (s.cur.sctx ≠ d.ctx → t.cur = s.cur)) ∧
    (d.ctx ≠ 0 → d.stopped = true → d.waiting = [] → d.owed ≤ d.tail →
      (∀ h ∈ s.harts, h.sctx = d.ctx → h.pending = none) → ∃ t, exec (.dbctlResume n) s = .next t ∧ (t.debug n).stopped = false ∧ t.mem = s.mem ∧
      (s.cur.sctx = d.ctx → s.cur.held = true → s.cur.status = .running → t.cur = { s.cur with held := false }) ∧
      (s.cur.sctx = d.ctx → s.cur.held = true → s.cur.status = .stopped → s.cur.lane = none → s.cur.tcause.extractLsb' 0 8 = 0x0D#8 →
        t.cur = { s.cur with held := false, status := .running, pc := s.cur.sresume }) ∧ (s.cur.sctx ≠ d.ctx → t.cur = s.cur)) ∧
    (d.ctx ≠ 0 → d.stopped = true → d.waiting ≠ [] ∨ d.tail < d.owed → exec (.dbctlResume n) s = .next (s.setDebug n { d with wanted := true }))

/-- R337, R341, R344: a DBRING that is taken makes an empty ring, and one with a reserved bit or a size outside 6 to 20 is discarded; DBTAIL takes
a value that is not above DBHEAD; a stop or hit record is written to the ring, under the key of the context's cocoon, or held while that is full or a
kernel holds its segment; 4,096 cycles after its event a hart that reached no strip boundary stops; and one that waits by then has stopped where it
stands (R379). -/
def Spec.DebugRecords : Prop :=
  (∀ (n : Nat) (x : Word) (s : State), n < 64 →
    let d := s.debug n
    let good := 6 ≤ x.toNat % 32 ∧ x.toNat % 32 ≤ 20 ∧ x.toNat / 2 ^ 5 % 2 ^ 7 = 0 ∧ x.toNat < 2 ^ 57
    (good → d.waiting = [] → d.wanted = false → ∃ t, exec (.dbringWrite n x) s = .next t ∧
      t.debug n = { d with ring := x, hasRing := true, head := 0, tail := 0, owed := 0 } ∧
      (∀ m, m ≠ n → t.debug m = s.debug m) ∧ t.mem = s.mem ∧ t.cur = s.cur) ∧
    (¬ good → ∃ m, exec (.dbringWrite n x) s = .next (s.logS m x)) ∧
    (x.toNat ≤ d.head → d.waiting = [] → d.wanted = false → ∃ t, exec (.dbtailWrite n x) s = .next t ∧ t.debug n = { d with tail := x.toNat } ∧ t.mem = s.mem ∧
      t.cur = s.cur) ∧
    (d.head < x.toNat → ∃ m, exec (.dbtailWrite n x) s = .next (s.logS m x)) ∧
    (∀ r : List Word, r.length = 8 →
      let key := s.paKey (d.ring.toNat / 4096 % 2 ^ 45 * 4096 + 64 * (d.head % 2 ^ (d.ring.toNat % 32)))
      let held := d.hasRing = true ∧ s.heldSegment key = true
      (d.hasRing = true → d.head - d.tail < 2 ^ (d.ring.toNat % 32) → d.waiting = [] → ¬ held →
        (s.stopRecord n r).debug n = { d with head := d.head + 1 } ∧
        (s.stopRecord n r).mem = Memory.setList s.mem key (sealBytes (s.sealKey d.ctx) key (r.flatMap (fun w => leBytes 8 w.toNat)))) ∧
      (d.hasRing = false ∨ 2 ^ (d.ring.toNat % 32) ≤ d.head - d.tail ∨ d.waiting ≠ [] ∨ held →
        (s.stopRecord n r).debug n = { d with waiting := d.waiting ++ [(s.sealKey d.ctx, r)] } ∧ (s.stopRecord n r).mem = s.mem))) ∧
  (∀ (h : Nat) (s : State), let f := s.focus h
    f.cur.place = h → (f.cur.pending = none → exec (.stopSkidTimeout h) s = .next f) ∧
    (∀ k n d, f.cur.pending = some k → f.cur.more = [] → f.blockOf f.cur.sctx = some (n, d) → (f.debug n).stopped = true → f.cur.lane = none →
      k.at_ + 4096 * 5 * f.hub.divider ≤ f.sevenths → ∃ t, exec (.stopSkidTimeout h) s = .next t ∧
        t.cur = { f.cur with held := true, pending := none, more := [], tcause := BitVec.ofNat 64 k.cause, tval := BitVec.ofNat 64 k.tval, tpc := f.cur.ip }) ∧
    (∀ k, f.cur.pending = some k → f.cur.more = [] → f.sevenths < k.at_ + 4096 * 5 * f.hub.divider → exec (.stopSkidTimeout h) s = .next f)) ∧
  (∀ (s : State) (k : StopAsk) (n : Nat) (d : DebugBlock) (w : Wait), s.others = [] → s.cur.pending = some k → s.cur.more = [] → s.cur.status = .waiting w →
    s.blockOf s.cur.sctx = some (n, d) → (s.debug n).stopped = true → s.cur.lane = none →
    s.parkIdle.cur = { s.cur with
      held := true, pending := none, more := [], tcause := BitVec.ofNat 64 k.cause, tval := BitVec.ofNat 64 k.tval, tpc := s.cur.ip })

/-- Debug stops and their records (R336, R337, R340, R341, R343, R344). -/
def Obligations.Debugging : Prop := Spec.DebugStops ∧ Spec.DebugRecords

/-- No block records what a message may write for another launch (R348). -/
def Spec.NoForeign (s : State) (msg : Message) : Prop := msg.payload = [] ∨ ∀ b ∈ s.hub.debug, b.2.ctx = 0 ∨ b.2.mode = 1

/-- R345, R347, R350, R351: a port of a recorded launch counts a message once, for that launch, chains its header into the digest and notes its place
for the journal; the accesses of the launch's own agents are such messages; in replay one that comes early, or before a foreign write, is held, and one
that is not expected at all, or whose turn has not come 10 ms after the last, is a divergence, which stops the context with a record at the end of the
cycle.  Which port an access reaches, and what its header says of its kind and stream, is log 9; how a block's ports are kept, log 49. -/
def Obligations.PortDigests : Prop :=
  (∀ (port : Nat) (msg : Message) (s : State) (n : Nat) (b : DebugBlock), s.recorder (some (msg.queue, msg.launch)) = some (n, b) →
    let i := b.number (some (msg.queue, msg.launch))
    let key := portKey port n i
    let p := s.port key
    let hdr := headerBytes msg
    let foreign := ∃ e ∈ b.journal, writeAt port i p.count e = true
    hdr.length = 32 ∧
    (b.mode ≠ 1 ∨ (¬ foreign ∧ (p.expect = [] ∨ p.expect.head? = some hdr)) → ∃ t, exec (.portMessageAccept port msg) s = .next t ∧
      (t.port key).count = p.count + 1 ∧ (t.port key).digest = (sha384 (beBytes 16 p.digest.toNat ++ hdr)).extractLsb' 256 128 ∧
      (t.port key).lastAt = s.sevenths ∧ (t.port key).expect = p.expect.tail ∧ t.mem = s.mem ∧ t.cur = s.cur ∧
      (b.mode ≠ 1 → ∃ es, (t.port key).fresh = es ++ [[BitVec.ofNat 64 (14 + 256 * i), BitVec.ofNat 64 port] ++ hdr.map (fun b => b.setWidth 64)]) ∧
      ∀ k, k ≠ key → (t.port k).count = (s.port k).count ∧ (t.port k).digest = (s.port k).digest) ∧
    (∀ x rest, b.mode = 1 → p.expect = x :: rest → Spec.NoForeign s msg →
      (foreign ∨ x ≠ hdr ∧ hdr ∈ rest → exec (.portMessageAccept port msg) s = .next s) ∧
      (¬ foreign → hdr ∉ p.expect → ∃ t r, exec (.portMessageAccept port msg) s = .next t ∧ (t.port key).split = some r ∧
        (t.port key).count = p.count ∧ (t.port key).digest = p.digest ∧ t.mem = s.mem ∧ t.cur = s.cur))) ∧
  (∀ (port agent sort addr n m : Nat) (launch : Nat × Nat) (pay : List Byte) (s : State) (b : DebugBlock), s.observing = true →
    s.recorder (some launch) = some (m, b) → b.mode ≠ 1 →
    let key := portKey port m (b.number (some launch))
    let p := s.port key
    ∃ msg, msg.agent = BitVec.ofNat 16 agent ∧ msg.addr = BitVec.ofNat 64 addr ∧ msg.sizeLog = BitVec.ofNat 8 n.log2 ∧ msg.payload = pay ∧
      msg.seq = BitVec.ofNat 64 (look 0 p.talk agent) ∧ ((s.tell port (some launch) agent sort addr n pay).port key).count = p.count + 1 ∧
      ((s.tell port (some launch) agent sort addr n pay).port key).digest = (sha384 (beBytes 16 p.digest.toNat ++ headerBytes msg)).extractLsb' 256 128) ∧
  (∀ (port n : Nat) (s : State) (b : DebugBlock) (l : Nat × Nat) (x : List Byte) (rest : List (List Byte)), s.hub.debug = [(n, b)] → b.ctx ≠ 0 →
    b.recs = [l] → b.mode = 1 →
    let p := s.port (portKey port n 0)
    p.expect = x :: rest →
    (p.lastAt + 70000000 ≤ s.sevenths → ∃ t r, exec (.replayDivergenceTimeout port) s = .next t ∧ (t.port (portKey port n 0)).split = some r ∧
      t.mem = s.mem) ∧
    (s.sevenths < p.lastAt + 70000000 → exec (.replayDivergenceTimeout port) s = .next s)) ∧
  (∀ (n u m v d k : Nat) (s : State) (b : DebugBlock) (p : PortRec) (r : List Word), s.hub.debug = [(n, b)] → b.stopped = false → b.wanted = false →
    (k, p) ∈ s.hub.ports → k / 2 ^ 16 % 64 = n → p.split = some r →
    ∃ t, exec (.clockCycle u m v d) s = .next t ∧ (t.debug n).stopped = true ∧ ∀ q ∈ t.hub.ports, q.2.split = none ∧ q.2.fresh = [])

/-! ## The hub's window (R301, R355 to R358) -/

/-- R357: a port's read of a free semaphore claims it, a held one stays its holder's, and only its holder releases it; reads of both ports in one
cycle go to the loser of the last such tie, first to port 0, where the schedule's next turn is the other port's read (the model's choice, log 40).
A host's access makes the module ACTIVE (R369). -/
def Spec.Semaphores : Prop :=
  ∀ (port n : Nat) (s : State), port < 2 → n < 16 →
    let holder := s.hub.sems.toList.getD n none
    let u := s.wakeUp
    let with_ (p : Option Nat) : State := { u with hub := { u.hub with sems := u.hub.sems.set (reg16 n) p } }
    (∀ p, holder = some p → exec (.semaphoreClaim port n) s = .next u) ∧
    (holder = none → s.tied port n = false → exec (.semaphoreClaim port n) s = .next (with_ (some port))) ∧
    (holder = none → s.tied port n = true → exec (.semaphoreClaim port n) s =
      .next { with_ (some (s.hub.lastLoser.getD 0)) with hub.lastLoser := some (1 - s.hub.lastLoser.getD 0) }) ∧
    (holder = some port → exec (.semaphoreRelease port n) s = .next (with_ none)) ∧
    (holder ≠ some port → exec (.semaphoreRelease port n) s = .next u)

/-- R300, R301: a port claims an unowned host launch queue and releases its own; its submission is refused while 64 launches are held, with a bad
record, or accepted with the queue's next sequence number, which is its position in the queue's log (R300), and one that comes while another is being
checked waits; another port's is discarded and logged.  A full queue is told before the record is read (log 46); before firmware runs nothing is
taken (R364, log 50). -/
def Spec.HostQueues : Prop :=
  ∀ (port n : Nat) (addr : Word) (s : State), port < 2 → n < 64 →
    let q := s.hostQueue n
    let v := s.wakeUp
    let held := s.hub.launches.filter (fun l => l.queue == n && l.done.isNone)
    (s.hub.booted = false → exec (.hqownClaim port n) s = .next v ∧ exec (.hqownRelease port n) s = .next v ∧
      ∃ m, exec (.hqsubSubmit port n addr) s = .next (v.logS m addr)) ∧
    (s.hub.booted = true → q.owner = none → exec (.hqownClaim port n) s = .next (v.setHostQueue n { q with owner := some port })) ∧
    (s.hub.booted = true → q.owner ≠ none → exec (.hqownClaim port n) s = .next v) ∧
    (s.hub.booted = true → q.owner = some port → exec (.hqownRelease port n) s = .next (v.setHostQueue n { q with owner := none })) ∧
    (s.hub.booted = true → q.owner ≠ some port → ∃ m x, exec (.hqownRelease port n) s = .next (v.logS m x) ∧
      ∃ m, exec (.hqsubSubmit port n addr) s = .next (v.logS m addr)) ∧
    (q.owner = some port → s.hub.booted = true → q.busy = true ∨ q.waiting ≠ [] →
      exec (.hqsubSubmit port n addr) s = .next (v.setHostQueue n { q with waiting := q.waiting ++ [addr] })) ∧
    (q.owner = some port → s.hub.booted = true → q.busy = false → q.waiting = [] →
      let refused (reason : Nat) := ∃ t, exec (.hqsubSubmit port n addr) s = .next t ∧ (t.hostQueue n).refused = true ∧
        (t.hostQueue n).reason = reason ∧ (t.hostQueue n).busy = false ∧ (t.hostQueue n).seq = q.seq ∧ t.hub.launches = s.hub.launches
      (64 ≤ held.length → refused 1) ∧
      (held.length < 64 → addr.toNat % 64 ≠ 0 → refused 2) ∧
      (∀ c ds u, held.length < 64 → addr.toNat % 64 = 0 → s.context q.ctx = some c →
        (v.setHostQueue n { q with sub := addr, paged := [] }).submitRead c.sptb addr = (.ok ds, u) →
        (s.checkRecord q.ctx ds = none → refused 2) ∧
        (∀ r, s.checkRecord q.ctx ds = some r → ∃ t l, exec (.hqsubSubmit port n addr) s = .next t ∧ t.hub.launches = s.hub.launches ++ [l] ∧
          l.queue = n ∧ l.seq = q.seq + 1 ∧ l.addr = addr ∧ l.ctx = q.ctx ∧ l.lr = r ∧ l.done = none ∧
          (l.eligible = true ↔ ∀ w ∈ r.waits, w.2 ≤ s.counter q.ctx w.1) ∧
          (t.hostQueue n).seq = q.seq + 1 ∧ (t.queueLog n).tail = (q.seq + 1, 0) ∧ (t.hostQueue n).refused = false ∧ (t.hostQueue n).reason = 0 ∧ t.mem = u.mem ∧ t.cur = s.cur)))

/-- R3, R355, R358, R305, R368: with semaphore 1 a port adds to and clears the selected counter of the selected context, an addition after
the port's earlier writes; without it the write is discarded and logged, and before firmware runs it is not presented (R364, log 50).  A write of the management window, REGISTER_WRITE, reaches the register its offset names: the pre-emption threshold and
the power limit with their semaphores, and the event window; a value with a reserved bit set is discarded and logged; an offset that names none, or is no multiple of 8, changes nothing. -/
def Spec.ManagementWindow : Prop :=
  (∀ (port : Nat) (x : Word) (s : State) (c : Context),
    let mine := s.hub.sems.toList.getD 1 none = some port
    let n := s.hub.evidx.toNat
    let v := s.wakeUp
    let on := s.hub.booted = true
    (¬ on → exec (.evadd port x) s = .next v ∧ exec (.evclr port x) s = .next v) ∧
    (on → ¬ mine → ∃ a b, exec (.evadd port x) s = .next (v.logS a x) ∧ exec (.evclr port x) s = .next (v.logS b x)) ∧
    (on → mine → s.context s.hub.evctx = some c → c.ctx = s.hub.evctx → (∃ r ∈ s.hub.requests, r.agent = 0x6000 + port) → exec (.evadd port x) s =
      .next { v with hub := { v.hub with requests := s.hub.requests ++ [.add (0x6000 + port) s.hub.evctx n x] } }) ∧
    (on → mine → s.context s.hub.evctx = some c → c.ctx = s.hub.evctx → (∀ r ∈ s.hub.requests, r.agent ≠ 0x6000 + port) →
      (∃ t, exec (.evadd port x) s = .next t ∧ t.cur = s.cur ∧ t.mem = s.mem ∧
        ∀ k m, t.counter k m = if k = s.hub.evctx ∧ m = n then s.counter k m + x else s.counter k m) ∧
      (∃ t, exec (.evclr port 1) s = .next t ∧ t.cur = s.cur ∧ t.mem = s.mem ∧
        ∀ k m, t.counter k m = if k = s.hub.evctx ∧ m = n then 0 else s.counter k m))) ∧
  (∀ (port : Nat) (x : Word) (s : State), port < 2 → s.hub.booted = true →
    let u : State := { s with hub := { s.hub with power := .active, idleSince := s.sevenths } }
    let holds (n : Nat) : Prop := s.hub.sems.toList.getD n none = some port
    (holds 2 → x.toNat < 8 → exec (.registerWrite port 0x50000 x) s = .next { u with hub := { u.hub with pthr := x.toNat } }) ∧
    (holds 4 → 1200 ≤ x.toNat → x.toNat ≤ 3600 → exec (.registerWrite port 0x80000 x) s = .next { u with hub := { u.hub with pwrlim := x.toNat } }) ∧
    (holds 1 → x.toNat < 2 ^ 32 → exec (.registerWrite port 0x90000 x) s = .next { u with hub := { u.hub with evctx := x } }) ∧
    (holds 1 → x.toNat < 2 ^ 12 → exec (.registerWrite port 0x90008 x) s = .next { u with hub := { u.hub with evidx := x } }) ∧
    (∀ o n, (o = 0x50000 ∧ n = 2) ∨ (o = 0x80000 ∧ n = 4) ∨ (o = 0x90000 ∧ n = 1) ∨ (o = 0x60000 ∧ n = 2) → ¬ holds n →
      ∃ m, exec (.registerWrite port o x) s = .next (u.logS m x)) ∧
    (x.toNat < 2 ^ 32 → exec (.registerWrite port 0x80 x) s = .next u) ∧
    (∀ o, (o = 0x80 ∧ 2 ^ 32 ≤ x.toNat) ∨ (o < 0x80 ∧ o % 8 = 0 ∧ 8 ≤ x.toNat) → ∃ m, exec (.registerWrite port o x) s = .next (u.logS m x)) ∧
    (∀ o, o % 8 ≠ 0 ∨ (0x50008 ≤ o ∧ o < 0x60000) → exec (.registerWrite port o x) s = .next u))

/-- Semaphores, host launch queues and the management window (R3, R300, R301, R305, R355, R357, R358, R368). -/
def Obligations.HubRegisters : Prop := Spec.Semaphores ∧ Spec.HostQueues ∧ Spec.ManagementWindow

/-! ## Reset, firmware and ports (R248, R354, R364 to R366) -/

/-- R212, R246, R364, R365: MODULE_RESET leaves every part of the module at its value after reset but for the flash and the fuses, the memory
outside it, and the device number and tier the host has set (the model's choice, log 12); a good image in flash, or the staged one, then runs. -/
def Spec.ModuleReset : Prop :=
  ∀ s : State, ∃ t, exec .moduleReset s = .next t ∧ t.cur = State.reset.cur ∧ t.others = [] ∧ t.frames = [] ∧ t.clusters = [] ∧ t.nmus = [] ∧
    t.instars = [] ∧ t.tlb = [] ∧ t.poison = [] ∧ t.sevenths = 0 ∧ t.retired = [] ∧ t.down = [] ∧ t.hub.launches = [] ∧ t.hub.objects = [] ∧
    t.hub.contexts = [] ∧ t.hub.debug = [] ∧ t.hub.queues = [] ∧ t.hub.sems = Vector.replicate 16 none ∧ t.hub.pthr = 6 ∧ t.hub.pwrlim = 3600 ∧
    t.hub.hdmOk = false ∧ t.hub.mbstat = 0 ∧ t.hub.cocoons = [] ∧ t.hub.flash = s.hub.staged.getD s.hub.flash ∧ t.hub.fuseHash = s.hub.fuseHash ∧
    t.hub.booted = imageOk s.hub.fuseVersion s.hub.fuseHash (s.hub.staged.getD s.hub.flash) ∧
    (∀ k, 2 ^ 52 ≤ k → Memory.get t.mem k = Memory.empty) ∧
    (∀ k, s.hbmKey 0 ≤ k → k < s.hbmKey (2 ^ 42) → Memory.get t.mem k = Memory.empty) ∧
    (∀ k, k < 2 ^ 52 → ¬ (s.hbmKey 0 ≤ k ∧ k < s.hbmKey (2 ^ 42)) → Memory.get t.mem k = Memory.get s.mem k)

/-- R364, R365: with semaphore 3 a port starts a fetch of the image at MBADDR; an image that passes runs, or is staged while firmware runs, and
one that cannot be read or fails a check is rejected.  That retired lanes are granted again after a module reset is log 45. -/
def Spec.RecoveryMailbox : Prop :=
  ∀ (port : Nat) (s : State),
    let set_ (f : Hub → Hub) : State := { s with hub := f s.hub }
    let v := s.wakeUp
    (s.hub.sems.toList.getD 3 none = some port → s.hub.mbstat ≠ 1 →
      exec (.mbgoFetch port 1) s = .next { v with hub := { v.hub with mbstat := 1 } }) ∧
    (s.hub.sems.toList.getD 3 none ≠ some port → ∃ m, exec (.mbgoFetch port 1) s = .next (v.logS m 1)) ∧
    (s.hub.mbstat ≠ 1 → exec .recoveryFetchComplete s = .next s) ∧
    (s.hub.mbstat = 1 →
      (s.mailboxImage = none → exec .recoveryFetchComplete s = .next (set_ (fun h => { h with mbstat := 3 }))) ∧
      (∀ im, s.mailboxImage = some im →
        (imageOk s.hub.fuseVersion s.hub.fuseHash im = false → exec .recoveryFetchComplete s = .next (set_ (fun h => { h with mbstat := 3 }))) ∧
        (imageOk s.hub.fuseVersion s.hub.fuseHash im = true → s.hub.booted = true →
          exec .recoveryFetchComplete s = .next (set_ (fun h => { h with mbstat := 2, staged := some im }))) ∧
        (imageOk s.hub.fuseVersion s.hub.fuseHash im = true → s.hub.booted = false →
          ∃ t, exec .recoveryFetchComplete s = .next t ∧ t.hub.booted = true ∧ t.hub.flash = im ∧ t.hub.mbstat = 2 ∧
            s.hub.fuseVersion ≤ t.hub.fuseVersion ∧ t.mem = s.mem ∧ t.cur = s.cur)))

/-- Module reset and firmware (R212, R246, R364, R365). -/
def Obligations.ModuleLife : Prop := Spec.ModuleReset ∧ Spec.RecoveryMailbox

/-- R248, R354, R366: a decoder commit is taken when its base is a multiple of 2^40, its size the 768 GiB and its base the other port's; a port
that goes down loses its semaphores and queues while launches stay, and dirty lines of a host that can no longer be reached, and writes still to be
performed there, are dropped; SPDM is answered with the measurements, signed by the alias key of the running firmware, once firmware runs (what is
signed, and the keys' derivation: log 6; when the HBM window becomes active: log 50). -/
def Spec.HostPorts : Prop :=
  (∀ (port : Nat) (base size : Word) (s : State), port < 2 →
    let good := base.toNat % 2 ^ 40 = 0 ∧ size.toNat = 0xC000000000 ∧ ∀ b z, s.hub.hdmPort[reg2 (port + 1)] = some (b, z) → b = base
    (good → ∃ t, exec (.hdmDecoderCommit port base size) s = .next t ∧ t.hub.hdmBase = base ∧ t.hub.hdmOk = true ∧
      t.hub.hdmPort[reg2 port] = some (base, size) ∧ t.hub.hdmErr[reg2 port] = false ∧ t.mem = s.mem ∧ t.cur = s.cur) ∧
    (¬ good → ∃ t, exec (.hdmDecoderCommit port base size) s = .next t ∧ t.hub.hdmBase = s.hub.hdmBase ∧ t.hub.hdmOk = s.hub.hdmOk ∧
      t.hub.hdmErr[reg2 port] = true ∧ t.mem = s.mem ∧ t.cur = s.cur)) ∧
  (∀ (port : Nat) (same : Bool) (s : State), port < 2 → ∃ t, exec (.portLinkDown port same) s = .next t ∧ t.hub.linkUp[reg2 port] = false ∧
    t.hub.linkUp[reg2 (port + 1)] = s.hub.linkUp[reg2 (port + 1)] ∧ t.hub.launches = s.hub.launches ∧ t.cur.x = s.cur.x ∧ t.cur.pc = s.cur.pc ∧
    t.hub.sessions[reg2 port] = false ∧ (same = true ∧ s.hub.linkUp[reg2 (port + 1)] = true → t.cur = s.cur ∧ t.net = s.net) ∧
    (same = false ∨ s.hub.linkUp[reg2 (port + 1)] = false →
      (∀ p, p ∈ t.cur.stores ↔ p ∈ s.cur.stores ∧ ∀ k ∈ p.act.keys, t.lostKey k = false) ∧
      (∀ p, p ∈ t.net ↔ p ∈ s.net ∧ ∀ k ∈ p.act.keys, t.lostKey k = false)) ∧
    (s.hub.dirty = [] ∨ (same = true ∧ s.hub.linkUp[reg2 (port + 1)] = true) → t.mem = s.mem) ∧
    (∀ line bs, s.hub.dirty = [(line, bs)] → same = false ∨ s.hub.linkUp[reg2 (port + 1)] = false →
      (t.hostGone line = true → t.mem = Memory.setList s.mem line bs ∧ t.hub.dirty = []) ∧
      (t.hostGone line = false → t.mem = s.mem ∧ t.hub.dirty = s.hub.dirty)) ∧
    (∀ n, n < 16 → t.hub.sems.toList.getD n none = if s.hub.sems.toList.getD n none = some port then none else s.hub.sems.toList.getD n none) ∧
    (∀ n, (t.hostQueue n).owner = if (s.hostQueue n).owner = some port then none else (s.hostQueue n).owner) ∧
    (same = true → s.hub.linkUp[reg2 (port + 1)] = true → t.hub.hostLost = s.hub.hostLost) ∧
    (same = false ∨ s.hub.linkUp[reg2 (port + 1)] = false → t.hub.hostLost[reg2 port] = true)) ∧
  (∀ (port : Nat) (nonce : Word) (s : State), port < 2 → s.hub.booted = true → s.hub.linkUp[reg2 port] = true →
    let u := s.wakeUp
    let h := s.hub
    let signed := beBytes 48 Config.romMeasure.toNat ++ beBytes 48 h.measure.toNat ++ beBytes 4 h.fuseVersion ++ beBytes 48 h.fuseHash.toNat ++
      beBytes 8 nonce.toNat
    let g := ecdsaSign (Config.aliasKey (Config.identityKey h.secret) h.measure).toNat (Config.signNonce s.freeCount).toNat (sha384 signed)
    g.length = 96 ∧ exec (.spdmRequest port nonce) s = .next { u with
      freeCount := s.freeCount + 1, hub := { u.hub with sessions := u.hub.sessions.set (reg2 port) true, spdm := h.spdm ++ [(port, nonce, g)] } })

/-! ## Contexts and cocoons (R213, R323, R352, R367) -/

/-- R213, R273, R323, R352, R367: a new context has its counters at zero; one with nothing live ends with its streams, translations and objects; a
cocoon is made for a context (a context ends when nothing of it is live: log 42) and goes from CONFIG_UNLOCKED to CONFIG_LOCKED to RUN, takes the debug enable only while locked, is served by no debug block without it, and in ERROR has no
key left and no hart running. -/
def Spec.ContextsAndCocoons : Prop :=
  (∀ (ctx sptb : Word) (s : State), ctx.toNat < 2 ^ 32 → s.context ctx = none → ∃ t c, exec (.contextCreate ctx sptb) s = .next t ∧
    t.context ctx = some c ∧ c.sptb = sptb ∧ c.cocoon = 0 ∧ (∀ n, t.counter ctx n = 0) ∧ (∀ k, k ≠ ctx → t.context k = s.context k) ∧
    t.mem = s.mem ∧ t.cur = s.cur) ∧
  (∀ (ctx : Word) (s : State), s.context ctx ≠ none → s.contextLive ctx = true → exec (.contextEnd ctx) s = .next s) ∧
  (∀ (ctx : Word) (s : State), s.context ctx ≠ none → s.contextLive ctx = false → (∀ o ∈ s.hub.objects, o.ctx ≠ ctx) →
    ∃ t, exec (.contextEnd ctx) s = .next t ∧ t.context ctx = none ∧ (∀ i ∈ t.instars, i.ctx ≠ ctx) ∧ (∀ e ∈ t.tlb, e.ctx ≠ ctx) ∧
      (∀ e ∈ t.walks, e.ctx ≠ ctx) ∧
      (∀ k, k ≠ ctx → t.context k = s.context k) ∧ t.mem = s.mem ∧ t.cur = s.cur) ∧
  (∀ (id : Nat) (ctx : Word) (s : State), s.mayUnlock id ctx = true → (∀ p ∈ s.hub.debug, p.2.stopped = false) → ∃ t c, exec (.cocoonConfigUnlocked id ctx) s = .next t ∧
    t.cocoon id = some c ∧ c.ctx = ctx ∧ c.state = .unlocked ∧ c.debug = false ∧ t.hub.keySeq = s.hub.keySeq + 1 ∧
    (∀ n d, s.hub.debug = [(n, d)] → d.ctx = ctx → (t.debug n).ctx = 0) ∧
    (∀ k, t.context ctx = some k → k.cocoon = id) ∧ t.mem = s.mem ∧ t.cur = s.cur) ∧
  (∀ (id : Nat) (s : State) (c : Cocoon), s.cocoon id = some c →
    let becomes (i : Instr) (c' : Cocoon) := ∃ t, exec i s = .next t ∧ t.cocoon id = some c' ∧ t.mem = s.mem ∧ t.cur = s.cur
    (c.state = .unlocked → becomes (.cocoonConfigLocked id) { c with state := .locked }) ∧
    (c.state ≠ .unlocked → exec (.cocoonConfigLocked id) s = .next s) ∧
    (c.state = .locked → becomes (.cocoonRun id) { c with state := .run } ∧ becomes (.tenantDebugEnable id) { c with debug := true }) ∧
    (c.state ≠ .locked → exec (.cocoonRun id) s = .next s ∧ exec (.tenantDebugEnable id) s = .next s) ∧
    (c.state ≠ .error → s.hub.launches = [] → s.clusters = [] → (∀ p ∈ s.hub.debug, p.2.stopped = false) → (∀ h ∈ s.harts, h.pending = none) →
      (∀ o ∈ s.hub.objects, o.leaving = false) → ∃ t, exec (.cocoonError id) s = .next t ∧
      t.cocoon id = some { c with state := .error, key := 0, debug := false } ∧ t.mem = s.mem ∧
      (∀ h ∈ t.harts, h.sctx = c.ctx → h.status = .stopped ∨ h.status = .unbound) ∧
      (s.cur.sctx ≠ c.ctx → t.cur = s.cur)))

/-- Host ports, contexts and cocoons (R213, R248, R273, R323, R352, R354, R366, R367). -/
def Obligations.PortsAndContexts : Prop := Spec.HostPorts ∧ Spec.ContextsAndCocoons

/-! ## Power and time (R28, R212, R307, R346, R368, R369) -/

/-- R28, R212, R368, R369: a clock cycle adds to the module time and charges each bound hart's lanes to the classes named for it, the rest of them to stalled
ones; IDLE is entered after 1 ms with nothing live, STANDBY saves every channel, and the return makes the module
ACTIVE; a thermal trip stops every hart with cause 0x15.  That time passes by clock cycles alone is log 17; what STANDBY saves and a thermal trip
leaves, log 52. -/
def Obligations.PowerAndTime : Prop :=
  (∀ (use mask bvl dead : Nat) (s : State), use + mask + bvl + dead ≤ s.cur.lanes → s.cur.status ≠ .unbound →
    (∀ p ∈ s.hub.debug, p.2.waiting = [] ∧ p.2.jlate = [] ∧ p.2.recs = []) → (∀ p ∈ s.hub.ports, p.2.fresh = [] ∧ p.2.split = none) →
    (∀ h ∈ s.others, h.slots.1 + h.slots.2.1 + h.slots.2.2.1 + h.slots.2.2.2 ≤ h.lanes) → ∃ t,
    exec (.clockCycle use mask bvl dead) s = .next t ∧ t.sevenths = s.sevenths + 5 * s.hub.divider ∧ t.mem = s.mem ∧
    t.cur = { s.cur with
      lccyc := s.cur.lccyc + 1, lcuse := s.cur.lcuse + BitVec.ofNat 64 use, lcmask := s.cur.lcmask + BitVec.ofNat 64 mask,
      lcbvl := s.cur.lcbvl + BitVec.ofNat 64 bvl, lcdead := s.cur.lcdead + BitVec.ofNat 64 dead,
      lcstall := s.cur.lcstall + BitVec.ofNat 64 (s.cur.lanes - use - mask - bvl - dead) } ∧
    t.others = s.others.map (fun h => if h.status = .unbound then { h with slots := (0, 0, 0, 0) } else
      { h with
        slots := (0, 0, 0, 0), lccyc := h.lccyc + 1, lcuse := h.lcuse + BitVec.ofNat 64 h.slots.1, lcmask := h.lcmask + BitVec.ofNat 64 h.slots.2.1,
        lcbvl := h.lcbvl + BitVec.ofNat 64 h.slots.2.2.1, lcdead := h.lcdead + BitVec.ofNat 64 h.slots.2.2.2,
        lcstall := h.lcstall + BitVec.ofNat 64 (h.lanes - h.slots.1 - h.slots.2.1 - h.slots.2.2.1 - h.slots.2.2.2) })) ∧
  (∀ (d : Nat) (s : State), d ≠ 0 → ∃ w, exec (.powerClockStep d) s =
    .next { s with freeCount := s.freeCount + 1, hub := { s.hub with divider := d, pwrnow := w } } ∧ w < 2 ^ 16) ∧
  (∀ s : State,
    (s.hub.power = .active → s.busyNow = false → s.hub.idleSince + 7000000 ≤ s.sevenths →
      exec .idleEntry s = .next { s with hub := { s.hub with power := .idle } }) ∧
    (s.busyNow = true ∨ s.sevenths < s.hub.idleSince + 7000000 → exec .idleEntry s = .next s) ∧
    (∃ t, exec .standbyEntry s = .next t ∧ t.hub = { s.hub with power := .standby } ∧ t.mem = s.mem ∧ t.cur = s.cur ∧
      ∀ ch, ch < 384 → (t.nmu ch).power ≠ .up ∧ (t.nmu ch).run = (s.nmu ch).run) ∧
    exec .activeReturn s = .next { s with hub := { s.hub with power := .active, idleSince := s.sevenths } } ∧
    ((∀ h ∈ s.harts, h.pending = none) → ∃ t, exec .thermalTrip s = .next t ∧ t.hub.power = .standby ∧ t.mem = s.mem ∧
      (s.cur.status ≠ .unbound → s.cur.status ≠ .stopped → t.cur =
        { s.cur with status := .stopped, held := false, pending := none, more := [], tcause := 0x15, tval := 0, tpc := s.cur.ip, sresume := s.cur.ip }) ∧
      ∀ h ∈ t.harts, h.status = .stopped ∨ h.status = .unbound))

/-! ## The scale-up ports and requests from outside (R261, R353, R359 to R363) -/

/-- R360 to R363: a flit that failed is sent again; an acknowledgement puts its message in the port's table and makes room; a failing port's
unacknowledged messages go, in their order, to a working port to the same peer, the one named or else the lowest, as far as it has room; an access
without an answer for 1 ms raises the access violation, or ends its engine command as ACCESS.  Which ports reach a peer is log 47. -/
def Spec.ScaleUpPorts : Prop :=
  ∀ (port : Nat) (s : State), port < 18 →
    let p := s.hub.fabric[reg18 port]
    let put_ (q : FabricPort) : State := { s with hub := { s.hub with fabric := s.hub.fabric.set (reg18 port) q } }
    (p.working = true → exec (.flitCrcRetry port) s = .next (put_ { p with retries := p.retries + 1 })) ∧
    (∀ n, p.working = true → n ∈ p.unacked → (∀ k : Fin 18, (s.hub.fabric[k]).working = true ∨ (s.hub.fabric[k]).unacked = []) →
      ∃ t, exec (.messageAck port n true) s = .next t ∧
      t.hub.fabric[reg18 port] = { p with unacked := p.unacked.filter (fun x => x != n), txTable := put p.txTable (n % 64) n } ∧ t.mem = s.mem ∧
      (∀ a since, s.cur.status = .waiting (.remote a since) → t.cur = { s.cur with status := .running })) ∧
    (∀ n dev, p.working = true → (dev, n) ∈ s.hub.accepted →
      exec (.messageAck port n false) s = .next (put_ { p with rxTable := put p.rxTable (n % 64) n })) ∧
    (∀ other, other < 18 → other ≠ port → p.working = true → (s.hub.fabric[reg18 other]).working = true →
      (s.hub.fabric[reg18 other]).peer = p.peer →
      (∀ k : Fin 18, k ≠ reg18 port → (s.hub.fabric[k]).working = true ∨ (s.hub.fabric[k]).unacked = []) →
      let old := (s.hub.fabric[reg18 other]).unacked
      ∃ t, exec (.scaleupPortFail port other) s = .next t ∧
        (t.hub.fabric[reg18 port]).working = false ∧ (t.hub.fabric[reg18 port]).unacked = p.unacked.drop (32 - old.length) ∧
        (t.hub.fabric[reg18 other]).unacked = old ++ p.unacked.take (32 - old.length) ∧ t.mem = s.mem ∧ t.cur = s.cur) ∧
    (let carries (k : Nat) : Prop := k < 18 ∧ k ≠ port ∧ (s.hub.fabric[reg18 k]).working = true ∧ (s.hub.fabric[reg18 k]).peer = p.peer
     ∀ other, other < 18 → p.working = true → ¬ carries other →
      (∀ k, carries k → (∀ j, j < k → ¬ carries j) → exec (.scaleupPortFail port other) s = exec (.scaleupPortFail port k) s) ∧
      ((∀ k, ¬ carries k) → exec (.scaleupPortFail port other) s = .next (put_ { p with working := false }))) ∧
    (∀ h st a since, (s.focus h).cur.place = h → (s.focus h).cur.held = false → (s.focus h).cur.status = .waiting (.remote a since) →
      (since + 1000000 ≤ (s.focus h).time → exec (.remoteAccessTimeout (.hart h st)) s =
        .next { s.focus h with cur := { (s.focus h).cur with status := .running, noAnswer := some a } }) ∧
      ((s.focus h).time < since + 1000000 → exec (.remoteAccessTimeout (.hart h st)) s = .next (s.focus h))) ∧
    (∀ (u : State) (w : Word) (n : Nat) (kind : AKind) (need : ANeed), u.cur.noAnswer = some w → canonical w = true → ¬ Spec.InWindow w →
      ∀ pa v, u.xlateHart u.cur.lowLane w kind = (.ok pa, v) → v.cur.noAnswer = some w →
        (u.reach w n kind need).1 = .bad 6) ∧
    (∀ cl token c a since, s.findCmd cl token = some c → c.token = token → c.remote = some (a, since) → since + 1000000 ≤ s.time →
      c.engine = .copy → (s.cluster cl).copySeq < token.toNat % 2 ^ 55 + 256 →
      ∃ t x, exec (.remoteAccessTimeout (.engine cl token)) s = .next t ∧ (t.cluster cl).copyLog.head? = some x ∧ x.token = token ∧ x.code = 2 ∧
        x.addr = a ∧ t.mem = s.mem)

/-- What a request from outside does to the bytes it names (R110, R359, R361). -/
def Spec.requested (old : Nat) : MemRequest → Option Nat
  | .read _ _ => none
  | .write _ n x => some (x.toNat % 2 ^ (8 * n))
  | .amo op wide _ x c =>
    let w : Nat := if op.val = 10 ∨ wide = false then 32 else 64
    let y := x.toNat % 2 ^ w
    match op.val with
    | 0 => some ((old + y) % 2 ^ w)
    | 1 => some (old &&& y)
    | 2 => some (old ||| y)
    | 3 => some (old ^^^ y)
    | 4 => some (if sintN w y < sintN w old then y else old)
    | 5 => some (if sintN w old < sintN w y then y else old)
    | 6 => some (min old y)
    | 7 => some (max old y)
    | 8 => some y
    | 9 => if old = c.toNat % 2 ^ w then some y else none
    | _ => some ((faddF fp32 0 old y).1 % 2 ^ 32)

/-- R353, R359, R361, R363: a request for HBM that comes through a port is performed once at its home: a write or an atomic leaves the new value and
no other byte changes, and a read or an atomic is answered with the old one; one that meets a held segment waits; a message whose number was accepted before is discarded, nothing is taken before firmware runs, and a CXL AtomicOp and a
snoop touch no memory.  Data fail in the units of their check, 32 bytes in HBM and 8 elsewhere, and a TLB entry that fails its parity is dropped and
counted as corrected (R261).  Requests are aligned accesses of up to 8 bytes (log 47); what a snoop takes is log 43. -/
def Spec.OutsideRequests : Prop :=
  (∀ (s : State) (req : MemRequest) (off : Nat), s.target (requestAddr req) = .hbm off →
    let a := requestAddr req
    let n := requestWidth req
    let key := s.paKey a
    n ∈ [1, 2, 4, 8] → a % n = 0 → s.instarHit key = false → Spec.Unwatched s → s.hub.requests = [] →
    (s.heldSegment key = true → ∀ port, port < 2 → s.hub.booted = true → s.hub.linkUp[reg2 port] = true → ∃ t,
      exec (.cxlMemRequest port req) s = .next t ∧ t.mem = s.mem ∧ t.cur = s.cur ∧ t.hub.requests = [.mem (0x6000 + port) req]) ∧
    (s.heldSegment key = false →
    (∀ j, j < n → s.poisoned (key + j) = false) →
    let done (t : State) := (∀ k, ¬ (key ≤ k ∧ k < key + n) → Memory.get t.mem k = Memory.get s.mem k) ∧
      (∀ agent x, (agent, BitVec.ofNat 64 a, x) ∈ t.hub.replies → (agent, BitVec.ofNat 64 a, x) ∈ s.hub.replies ∨
        x = some (BitVec.ofNat 64 (leNat (Memory.getList s.mem key n)))) ∧
      (t.hub.replies.length = s.hub.replies.length + match req with | .write _ _ _ => 0 | _ => 1) ∧
      leNat (Memory.getList t.mem key n) = (Spec.requested (leNat (Memory.getList s.mem key n)) req).getD (leNat (Memory.getList s.mem key n)) ∧
      t.cur = s.cur
    (∀ port, port < 2 → s.hub.booted = true → s.hub.linkUp[reg2 port] = true → ∃ t, exec (.cxlMemRequest port req) s = .next t ∧ done t) ∧
    (∀ port m dev, (s.hub.fabric[reg18 port]).working = true → (dev, m) ∉ s.hub.accepted →
      ∃ t, exec (.remoteRequest port m dev req) s = .next t ∧ done t ∧ t.hub.accepted = (dev, m) :: s.hub.accepted))) ∧
  (∀ (s : State) (req : MemRequest) (port m dev : Nat), (dev, m) ∈ s.hub.accepted → exec (.remoteRequest port m dev req) s = .next s) ∧
  (∀ (s : State) (req : MemRequest) (port : Nat), s.hub.booted = false → exec (.cxlMemRequest port req) s = .next s) ∧
  (∀ (s : State) (a : Word) (ex : Bool) (port : Nat), port < 2 → s.hub.linkUp[reg2 port] = true →
    exec (.cxlCacheSnoop port a ex) s = .next { s with hub := { s.hub with
      power := .active, idleSince := s.sevenths, dirty := s.hub.dirty.filter (fun d => d.1 != a.toNat / 64 * 64) } } ∧
    exec (.atomicopRequest port a) s = .next { s with hub := { s.hub with power := .active, idleSince := s.sevenths } }) ∧
  (∀ (s : State) (slice : Bool) (key g : Nat), g ∈ (s.failData slice key).poison ↔ g ∈ s.poison ∨
    (if slice = false ∧ 2 ^ 51 ≤ key ∧ key < 2 ^ 52 then g / 4 = key / 32 else g = key / 8)) ∧
  (∀ (s : State) (n : Nat) (rest : List Turn), s.parkIdle = s → s.schedule = .outside (.dropTlb n) :: rest → n < s.tlb.length →
    ∃ t, step s = .next t ∧ t.tlb = s.tlb.eraseIdx n ∧ t.hub.corrected = s.hub.corrected + 1 ∧ t.mem = s.mem ∧ t.cur = s.cur) ∧
  (∀ (s : State) (g : Nat), (g ∉ s.poison → exec (.patrolScrub g) s = .next { s with hub := { s.hub with corrected := s.hub.corrected + 1 } }) ∧
    (g ∈ s.poison → exec (.patrolScrub g) s = .next s))

/-- Scale-up ports and requests from outside (R353, R359, R360, R361, R362, R363). -/
def Obligations.OutsideAccess : Prop := Spec.ScaleUpPorts ∧ Spec.OutsideRequests

/-! ## The whole machine (R85, R88, R89, R121, R122, R277, R307) -/

/-- R89 check 2: an instruction outside the lane-thread set that a hart in lane mode executes raises the lane-mode error and has no other effect,
whatever the instruction. -/
def Spec.LaneModeErrors : Prop :=
  ∀ (i : Instr) (s : State), i.hasWord = true → s.unit = .hart → s.cur.lane.isSome = true → laneMajor (encode i) = false →
    exec i s = .next (s.start.trapWord (encode i) { cause := 0x11, tval := 0 } s.start)

/-- R121: while the innermost region drops, every instruction of majors 0x22 to 0x31 completes with no effect but the end of the prefix; one with
an x destination delivers 0. -/
def Spec.RegionDrops : Prop :=
  ∀ (i : Instr) (s : State), i.hasWord = true → Executes s → s.cur.lane = none → dropMajor (encode i) = true → s.cur.dropping = true →
    exec i s = .next ({ s.start with cur := if readQueueDest (encode i) then s.cur.wx (wD (encode i)) 0 else s.cur } : State).completed

/-- R89 check 3, R122: a pending prefix before an instruction of a major that takes none raises the illegal-instruction trap, and the
instruction has no effect. -/
def Spec.PrefixRefused : Prop :=
  ∀ (i : Instr) (s : State), i.hasWord = true → s.unit = .hart → s.cur.lane = none → pfxPending s.cur.pendingPfx = true →
    (let m := (wMajor (encode i)).toNat
     m ≤ 0x09 ∨ (0x0C ≤ m ∧ m ≤ 0x21) ∨ m = 0x31 ∨ m = 0x32 ∨ 0x34 ≤ m) → (dropMajor (encode i) = true → s.cur.dropping = false) →
    exec i s = .next (s.start.trapWord (encode i) { cause := 1, tval := 0, vec := dropMajor (encode i) } s.start)

/-- R277: a word that a near-memory unit executes is executed by the unit's own rules, whatever the instruction, and the word of another subset
ends the kernel. -/
def Spec.NmuExecutes : Prop :=
  ∀ (i : Instr) (ch : Nat) (s : State), i.hasWord = true → s.unit = .nmu ch → exec i s = .next (s.nmuWord ch (encode i))

/-- The checks every instruction passes, for every instruction (R89, R121, R122, R277). -/
def Obligations.WholeMachineChecks : Prop := Spec.LaneModeErrors ∧ Spec.RegionDrops ∧ Spec.PrefixRefused ∧ Spec.NmuExecutes

/-- Every instruction and every event of the table answers a next state from every state, but for a resume whose frame has lost both copies: no
step of the module is refused, and none faults for another reason (the model's reading of its stops, log 10). -/
def Obligations.EveryStepAnswers : Prop :=
  (∀ (i : Instr) (s : State), (∃ t, exec i s = .next t) ∨ ((∃ h p, i = .hartResume h p) ∧ exec i s = .fault .promiseVoid)) ∧
  (∀ s : State, (∃ t, step s = .next t) ∨ step s = .fault .promiseVoid)

/-! ## A step (R85, R88, R112, R307, R339) -/

/-- The state in which a hart whose turn it is issues: its turn is off the schedule, and the other slot of its core is next when it is ready. -/
def Spec.turn (s : State) (rest : List Turn) : State := ({ s with schedule := rest, unit := .hart } : State).passTurn

/-- The state in which a word executes: elements that the stream units hold ahead for the queues whose accesses the word orders are dropped, to be
fetched again (R164). -/
def Spec.readied (w : BitVec 32) (s : State) : State := { s with cur := s.cur.refetch (ordersQueue w) }

/-- No hart has a stop asked of it: a step begins with no stop (R341). -/
def Spec.NoStopAsked (s : State) : Prop := ∀ h ∈ s.harts, h.pending = none

/-- What the hart does with a word it has fetched: it executes the instruction of the word, or raises the illegal-instruction trap. -/
def Spec.RunsWord (w : BitVec 32) (u : State) (o : Host.Outcome State Fault Refusal) : Prop :=
  (∀ i, decode w = .ok i → o = exec i (Spec.readied w u)) ∧ (∀ r, decode w = .error r → o = exec (.illegalInstruction w) (Spec.readied w u))

/-- R85, R88, R89, R112, R307, R339: a step of a hart that may issue fetches the four bytes at its next address and executes exactly the
instruction they decode to, in the state the fetch leaves; bytes that are no instruction raise the illegal-instruction trap; an entry set aside is
issued again first; an address that is no code raises the access violation, a failing translation its own cause and failing data the data
error, each with tval the address; a fetch that must wait changes nothing but the hart's state; a matching instruction breakpoint stops the hart
before the fetch.  Before an IFENCE the hart may execute the word its fetch unit read earlier instead (R115, R125).  The clauses are of states
where no stop is asked of a hart and, but for the last word, no append of the hart is on its way (R63).  An empty schedule is a round of every hart
that may issue and every unit with something to do (log 3). -/
def Obligations.StepRunsDecoded : Prop :=
  (∀ s : State, Spec.NoStopAsked s → s.schedule = [] → s.round ≠ [] → step s = step { s with schedule := s.round }) ∧
  (∀ (s : State) (i : Instr) (rest : List Turn), Spec.NoStopAsked s → s.schedule = .event i :: rest → (∀ h ∈ s.harts, h.late = none) →
    step s = exec i { s with schedule := rest, unit := .hart }) ∧
  (∀ (s : State) (rest : List Turn) (w : BitVec 32), Spec.NoStopAsked s → s.schedule = .old s.cur.place :: rest → s.mayIssue s.cur = true →
    let u := Spec.turn s rest
    u.cur.words = [(u.cur.ip, w)] → u.breakpoint = none → s.cur.reissue = none → s.cur.late = none → s.cur.viq = [] → s.cur.sent = [] →
    Spec.RunsWord w u.start (step s)) ∧
  (∀ (s : State) (rest : List Turn), Spec.NoStopAsked s → s.schedule = .issue s.cur.place :: rest → s.mayIssue s.cur = true → s.cur.late = none →
    let u := Spec.turn s rest
    (∀ e, s.cur.reissue = some e → Spec.RunsWord e.word u (step s)) ∧
    (∀ b, s.cur.reissue = none → s.cur.viq = [] → u.breakpoint = some b → step s = .next (u.breakAt 3 b)) ∧
    (s.cur.reissue = none → s.cur.viq = [] → u.breakpoint = none →
      let a := u.cur.ip
      (canonical a = false ∨ inLocal a = true ∨ inReserved a = true → step s = .next (u.start.raise { cause := 6, tval := a } none)) ∧
      (canonical a = true → inLocal a = false → inReserved a = false →
        (∀ c v, u.start.xlateHart u.cur.lowLane a .fetch = (.bad c, v) →
          (v.blocked = none → step s = .next (v.raise { cause := c, tval := a } none)) ∧
          (∀ x, v.blocked = some x → step s = .next { u with cur := u.cur.waitOn x })) ∧
        (∀ pa v x, u.start.xlateHart u.cur.lowLane a .fetch = (.ok pa, v) → v.blocked = some x → step s = .next { u with cur := u.cur.waitOn x }) ∧
        (∀ pa v, u.start.xlateHart u.cur.lowLane a .fetch = (.ok pa, v) → v.blocked = none →
          (targetOk .plain (v.target pa) = false ∨ v.cur.noAnswer = some a → step s = .next (v.raise { cause := 6, tval := a } none)) ∧
          (targetOk .plain (v.target pa) = true → v.cur.noAnswer ≠ some a →
          (v.poisonIn (v.paKey pa) 4 = true → step s = .next (v.raise { cause := 8, tval := a } none)) ∧
          (∀ x, v.poisonIn (v.paKey pa) 4 = false → (v.touchAt a pa).blocked = some x →
            step s = .next { u with cur := u.cur.waitOn x }) ∧
          (v.poisonIn (v.paKey pa) 4 = false → (v.touchAt a pa).blocked = none → s.cur.sent = [] →
            ∀ b0 b1 b2 b3, Memory.getList v.mem (v.paKey pa) 4 = [b0, b1, b2, b3] →
              Spec.RunsWord (b3 ++ b2 ++ b1 ++ b0) (v.touchAt a pa) (step s)))))))

/-! ## Decoding (R85, R88) -/

/-- R85, R88, R91 to R103: words written out from the encodings decode to the instructions they stand for; a word with a reserved major, function or
bit is refused; and a word the decoder accepts is the encoding of the instruction it answers. -/
def Obligations.DecodeWords : Prop :=
  decode 0b000100_00001_00010_00011_00000000000#32 = .ok (.add 1#5 2#5 3#5) ∧
  decode 0b000011_00101_00110_1111111111111100#32 = .ok (.addi 5#5 6#5 0xFFFC#16) ∧
  decode 0b000000_00000_00000_1101_000000000000#32 = .ok .halt ∧
  decode 0b100001_00011_00100_00000_0_0000_10_0111#32 = .ok (.vsetl 3#5 4#5 0#5 0x27#10) ∧
  (∃ r, decode 0b111111_00000_00000_00000_00000000000#32 = .error r) ∧
  (∃ r, decode 0b000100_00001_00010_00011_11111111111#32 = .error r) ∧
  (∀ (w : BitVec 32) (i : Instr), decode w = .ok i → i.wf = true ∧ encode i = w)

/-- R85, R88: writing a well-formed instruction as its word and decoding the word gives the instruction back, with every operand, for every row with
an encoding. -/
def Obligations.DecodeInvertsEncode : Prop :=
  ∀ i : Instr, i.hasWord = true → i.wf = true → decode (encode i) = .ok i

/-! ## Memory and reset (R19, R305, R357, R364, R365, R368) -/

/-- The memory keeps its canonical form, addresses strictly rising and no byte listed that an unlisted address would read as, through every step from
every state (the model's own form, log 1). -/
def Obligations.StepKeepsMemoryCanonical : Prop :=
  ∀ s t : State, MemoryCanonical s → step s = .next t → MemoryCanonical t

/-- The memory has its canonical form at reset (the model's own form, log 1). -/
def Spec.ResetMemoryCanonical : Prop := MemoryCanonical State.reset

/-- R212, R213, R301, R305, R357, R365, R368: at module reset no hart is bound and no launch, object or context exists, TIME is 0, PTHR is 6, every
semaphore is free, the recovery mailbox is idle, the power limit is 3,600 W in state ACTIVE, and the registers of a hart that the spec gives no value
before a launch read as zero (the model's choice, log 2). -/
def Spec.ResetValues : Prop :=
  State.reset.harts.all (fun h => h.status == .unbound) = true ∧ State.reset.frames = [] ∧ State.reset.hub.launches = [] ∧
  State.reset.hub.objects = [] ∧ State.reset.hub.contexts = [] ∧ State.reset.time = 0 ∧ State.reset.hub.pthr = 6 ∧
  (∀ n, n < 16 → State.reset.hub.sems.toList.getD n (some 0) = none) ∧ State.reset.hub.mbstat = 0 ∧ State.reset.hub.pwrlim = 3600 ∧
  State.reset.hub.power = .active ∧ (∀ n, n < 64 → (State.reset.hostQueue n).owner = none ∧ (State.reset.hostQueue n).seq = 0) ∧
  (∀ n, n < 64 → (State.reset.debug n).ctx = 0) ∧ (∀ p ∈ Spec.csrs, p.2 State.reset.cur = 0) ∧ (∀ r, State.reset.cur.rx r = 0) ∧
  (∀ n, State.reset.cur.rv n = 0) ∧ (∀ a, Memory.get State.reset.mem a = 0)


/-- The module right after reset (R212, R213, R301, R305, R357, R365, R368). -/
def Obligations.ResetState : Prop := Spec.ResetMemoryCanonical ∧ Spec.ResetValues
end

