-- ==== Sys2Proof/Laws/Memory.lean ====
section
/-!
SUPPORT. The laws of memory: what a read gives after a write, and that every operation keeps the canonical form (R242, R244,
R248; log 1).
-/

namespace Sys2Proof.Machine

/-! ## Reads after writes -/

theorem Memory.get_of_above {m : List Host.Cell} {k a : Nat} (h : Memory.above (some k) m = true) (ha : a ≤ k) :
    Memory.get m a = Memory.empty := by
  induction m generalizing k with
  | nil => rfl
  | cons c t ih =>
    obtain ⟨k', b⟩ := c
    simp only [Memory.above, Bool.and_eq_true, decide_eq_true_eq] at h
    obtain ⟨⟨hk, -⟩, ht⟩ := h
    simp only [Memory.get]
    rw [if_neg (by omega)]
    exact ih ht (by omega)

theorem Memory.get_set_other (m : List Host.Cell) (a : Nat) (b : Byte) {a' : Nat} (h : a' ≠ a) :
    Memory.get (Memory.set m a b) a' = Memory.get m a' := by
  have h' : a ≠ a' := h.symm
  induction m with
  | nil => simp only [Memory.set]; split <;> simp [Memory.get, h']
  | cons c t ih =>
    obtain ⟨k, x⟩ := c
    simp only [Memory.set]
    split
    · split <;> simp [Memory.get, h']
    · split
      · rename_i _ hk
        subst hk
        split <;> simp [Memory.get, h']
      · simp only [Memory.get, ih]

theorem Memory.get_set_same_above {m : List Host.Cell} {lo : Option Nat} (h : Memory.above lo m = true) (a : Nat) (b : Byte) :
    Memory.get (Memory.set m a b) a = b := by
  induction m generalizing lo with
  | nil => simp only [Memory.set]; split <;> simp_all [Memory.get]
  | cons c t ih =>
    obtain ⟨k, x⟩ := c
    simp only [Memory.above, Bool.and_eq_true] at h
    simp only [Memory.set]
    split
    · split
      · rename_i hk hb
        simp only [Memory.get]
        rw [if_neg (by omega), Memory.get_of_above h.2 (by omega), hb]
      · simp [Memory.get]
    · split
      · rename_i hk
        subst hk
        split
        · rename_i hb
          rw [Memory.get_of_above h.2 (by omega), hb]
        · simp [Memory.get]
      · rename_i h1 h2
        simp only [Memory.get]
        rw [if_neg (by omega)]
        exact ih h.2

/-- A read of the byte just written gives it. -/
theorem Memory.get_set_same {m : List Host.Cell} (h : Memory.wf m = true) (a : Nat) (b : Byte) :
    Memory.get (Memory.set m a b) a = b := Memory.get_set_same_above h a b

/-! ## The canonical form -/

theorem Memory.lower_ok (lo : Option Nat) (a : Nat) :
    (∀ j, lo = some j → j < a) → (match lo with | none => true | some j => decide (j < a)) = true := by
  intro ha
  cases lo with
  | none => rfl
  | some j => simpa using ha j rfl

theorem Memory.above_set {m : List Host.Cell} {lo : Option Nat} {a : Nat} (b : Byte) (h : Memory.above lo m = true)
    (ha : ∀ j, lo = some j → j < a) : Memory.above lo (Memory.set m a b) = true := by
  have hlo := Memory.lower_ok lo a ha
  induction m generalizing lo with
  | nil =>
    simp only [Memory.set]
    split
    · rfl
    · rename_i hb
      simp only [Memory.above, Bool.and_eq_true]
      exact ⟨⟨hlo, by simpa using hb⟩, trivial⟩
  | cons c t ih =>
    obtain ⟨k, x⟩ := c
    have h0 := h
    simp only [Memory.above, Bool.and_eq_true] at h
    simp only [Memory.set]
    split
    · rename_i hk
      split
      · exact h0
      · rename_i hb
        simp only [Memory.above, Bool.and_eq_true]
        exact ⟨⟨hlo, by simpa using hb⟩, ⟨by simpa using hk, h.1.2⟩, h.2⟩
    · split
      · rename_i hk
        subst hk
        split
        · cases t with
          | nil => rfl
          | cons c' t' =>
            obtain ⟨k', x'⟩ := c'
            simp only [Memory.above, Bool.and_eq_true, decide_eq_true_eq] at h ⊢
            refine ⟨⟨?_, h.2.1.2⟩, h.2.2⟩
            cases lo with
            | none => rfl
            | some j => have := ha j rfl; have := h.2.1.1; simp; omega
        · rename_i hb
          simp only [Memory.above, Bool.and_eq_true]
          exact ⟨⟨hlo, by simpa using hb⟩, h.2⟩
      · rename_i h1 h2
        simp only [Memory.above, Bool.and_eq_true]
        exact ⟨h.1, ih h.2 (fun j hj => by cases hj; omega) (by simp; omega)⟩

theorem Memory.wf_set {m : List Host.Cell} (h : Memory.wf m = true) (a : Nat) (b : Byte) :
    Memory.wf (Memory.set m a b) = true := Memory.above_set b h (fun _ hj => nomatch hj)

theorem Memory.wf_setList {m : List Host.Cell} (h : Memory.wf m = true) (a : Nat) (bs : List Byte) :
    Memory.wf (Memory.setList m a bs) = true := by
  induction bs generalizing m a with
  | nil => exact h
  | cons b t ih => exact ih (Memory.wf_set h a b) (a + 1)

theorem performBytes_wf {m : List Host.Cell} (h : Memory.wf m = true) (bs : List PByte) :
    Memory.wf (performBytes m bs) = true := by
  induction bs generalizing m with
  | nil => exact h
  | cons b t ih => exact ih (Memory.wf_set h _ _)

theorem performAct_wf {m : List Host.Cell} (h : Memory.wf m = true) (a : PAct) : Memory.wf (performAct m a) = true := by
  cases a with
  | write bs => exact performBytes_wf h bs
  | rmw op key x => exact Memory.wf_setList h _ _

theorem performStores_wf (sel : Stream → Bool) {m : List Host.Cell} (h : Memory.wf m = true) (ps : List PStore) :
    Memory.wf (performStores sel m ps).1 = true := by
  induction ps generalizing m with
  | nil => exact h
  | cons p t ih =>
    simp only [performStores]
    split
    · exact ih (performAct_wf h _)
    · exact ih h

theorem writeKeys_wf {m : List Host.Cell} (h : Memory.wf m = true) (ks : List Nat) (bs : List Byte) :
    Memory.wf (writeKeys m ks bs) = true := by
  induction ks generalizing m bs with
  | nil => cases bs <;> exact h
  | cons k t ih =>
    cases bs with
    | nil => exact h
    | cons b bs => exact ih (Memory.wf_set h k b) bs

theorem Memory.above_filter {m : List Host.Cell} {lo : Option Nat} (p : Host.Cell → Bool) (h : Memory.above lo m = true) :
    Memory.above lo (m.filter p) = true := by
  induction m generalizing lo with
  | nil => rfl
  | cons c t ih =>
    obtain ⟨k, x⟩ := c
    simp only [Memory.above, Bool.and_eq_true] at h
    by_cases hp : p (k, x) = true
    · rw [List.filter_cons_of_pos hp]
      simp only [Memory.above, Bool.and_eq_true]
      exact ⟨h.1, ih h.2⟩
    · rw [List.filter_cons_of_neg (by simpa using hp)]
      refine ih ?_
      cases t with
      | nil => rfl
      | cons c' t' =>
        obtain ⟨k', x'⟩ := c'
        simp only [Memory.above, Bool.and_eq_true, decide_eq_true_eq] at h ⊢
        refine ⟨⟨?_, h.2.1.2⟩, h.2.2⟩
        cases lo with
        | none => rfl
        | some j => have := h.1.1; have := h.2.1.1; simp_all; omega

theorem Memory.wf_filter {m : List Host.Cell} (h : Memory.wf m = true) (p : Host.Cell → Bool) :
    Memory.wf (m.filter p) = true := Memory.above_filter p h

theorem zeroRange_wf {m : List Host.Cell} (h : Memory.wf m = true) (key n : Nat) : Memory.wf (zeroRange m key n) = true :=
  Memory.wf_filter h _

/-! ## Lists of bytes -/

/-- Writing bytes leaves every address outside them alone. -/
theorem Memory.get_setList_other (m : List Host.Cell) (a : Nat) (bs : List Byte) {a' : Nat}
    (h : a' < a ∨ a + bs.length ≤ a') : Memory.get (Memory.setList m a bs) a' = Memory.get m a' := by
  induction bs generalizing m a with
  | nil => rfl
  | cons b t ih =>
    simp only [List.length_cons] at h
    rw [Memory.setList, ih _ _ (by omega), Memory.get_set_other _ _ _ (by omega)]

/-- Reading the bytes just written gives them. -/
theorem Memory.getList_setList {m : List Host.Cell} (h : Memory.wf m = true) (a : Nat) (bs : List Byte) :
    Memory.getList (Memory.setList m a bs) a bs.length = bs := by
  induction bs generalizing m a with
  | nil => rfl
  | cons b t ih =>
    simp only [Memory.setList, List.length_cons, Memory.getList]
    rw [Memory.get_setList_other _ _ _ (by omega), Memory.get_set_same h, ih (Memory.wf_set h a b)]

/-- Equal reads are equal memories: the canonical form of a memory is unique. -/
theorem Memory.ext_above {m m' : List Host.Cell} {lo : Option Nat} (h : Memory.above lo m = true)
    (h' : Memory.above lo m' = true) (hr : ∀ a, Memory.get m a = Memory.get m' a) : m = m' := by
  induction m generalizing lo m' with
  | nil =>
    cases m' with
    | nil => rfl
    | cons c t =>
      obtain ⟨k, b⟩ := c
      simp only [Memory.above, Bool.and_eq_true] at h'
      have := hr k
      simp [Memory.get] at this
      simp_all
  | cons c t ih =>
    obtain ⟨k, b⟩ := c
    simp only [Memory.above, Bool.and_eq_true] at h
    have hb : b ≠ Memory.empty := by simpa using h.1.2
    cases m' with
    | nil => have := hr k; simp [Memory.get] at this; exact absurd this hb
    | cons c' t' =>
      obtain ⟨k', b'⟩ := c'
      simp only [Memory.above, Bool.and_eq_true] at h'
      have hb' : b' ≠ Memory.empty := by simpa using h'.1.2
      have hk : k = k' := by
        by_contra hne
        rcases Nat.lt_or_gt_of_ne hne with hlt | hlt
        · have := hr k
          simp only [Memory.get, if_true] at this
          rw [if_neg (by omega), Memory.get_of_above h'.2 (by omega)] at this
          exact hb this
        · have := hr k'
          simp only [Memory.get, if_true] at this
          rw [if_neg (by omega), Memory.get_of_above h.2 (by omega)] at this
          exact hb' this.symm
      subst hk
      have hbb : b = b' := by have := hr k; simpa [Memory.get] using this
      subst hbb
      congr 1
      refine ih h.2 h'.2 (fun a => ?_)
      by_cases ha : a ≤ k
      · rw [Memory.get_of_above h.2 ha, Memory.get_of_above h'.2 ha]
      · have := hr a
        simp only [Memory.get] at this
        rwa [if_neg (by omega), if_neg (by omega)] at this

theorem Memory.ext {m m' : List Host.Cell} (h : Memory.wf m = true) (h' : Memory.wf m' = true)
    (hr : ∀ a, Memory.get m a = Memory.get m' a) : m = m' := Memory.ext_above h h' hr

end Sys2Proof.Machine
end

