-- ==== Sys2Proof/Laws/State.lean ====
section
/-!
SUPPORT. One lemma per field per update of the state and of a hart, so that no proof unfolds a record update; what a keyed
list reads after a write; and what the register file reads after a write (R6, R7).
-/

set_option Elab.async false

namespace Sys2Proof.Machine

/-! ## Keyed lists -/

theorem look_put_same {α : Type} (d : α) (l : List (Nat × α)) (n : Nat) (x : α) : look d (put l n x) n = x := by
  induction l with
  | nil => simp [put, look]
  | cons c t ih =>
    obtain ⟨k, v⟩ := c
    simp only [put]
    split
    · simp [look]
    · split
      · simp [look]
      · rename_i h1 h2
        have h3 : (k == n) = false := by simp at h2 ⊢; omega
        simp [look, h3, ih]

theorem look_put_other {α : Type} (d : α) (l : List (Nat × α)) (n : Nat) (x : α) {k : Nat} (h : k ≠ n) :
    look d (put l n x) k = look d l k := by
  have hn : (n == k) = false := by simp; omega
  induction l with
  | nil => simp [put, look, hn]
  | cons c t ih =>
    obtain ⟨j, v⟩ := c
    simp only [put]
    split
    · simp [look, hn]
    · split
      · rename_i h1 h2
        have : n = j := by simpa using h2
        subst this
        simp [look, hn]
      · simp only [look, ih]

@[simp] theorem State.cluster_setCluster (s : State) (c : Nat) (x : Cluster) : (s.setCluster c x).cluster c = x :=
  look_put_same _ _ _ _

theorem State.cluster_setCluster_other (s : State) (x : Cluster) {c k : Nat} (h : k ≠ c) :
    (s.setCluster c x).cluster k = s.cluster k := look_put_other _ _ _ _ h

@[simp] theorem State.nmu_setNmu (s : State) (c : Nat) (x : Nmu) : (s.setNmu c x).nmu c = x := look_put_same _ _ _ _

theorem State.nmu_setNmu_other (s : State) (x : Nmu) {c k : Nat} (h : k ≠ c) : (s.setNmu c x).nmu k = s.nmu k :=
  look_put_other _ _ _ _ h

@[simp] theorem State.hostQueue_setHostQueue (s : State) (c : Nat) (x : HostQueue) : (s.setHostQueue c x).hostQueue c = x :=
  look_put_same _ _ _ _

@[simp] theorem State.debug_setDebug (s : State) (c : Nat) (x : DebugBlock) : (s.setDebug c x).debug c = x :=
  look_put_same _ _ _ _

@[simp] theorem State.port_setPort (s : State) (c : Nat) (x : PortRec) : (s.setPort c x).port c = x :=
  look_put_same _ _ _ _

/-! ## The state's fields -/

@[simp] theorem State.setCluster_cur (s : State) (c : Nat) (x : Cluster) : (s.setCluster c x).cur = s.cur := rfl
@[simp] theorem State.setCluster_others (s : State) (c : Nat) (x : Cluster) : (s.setCluster c x).others = s.others := rfl
@[simp] theorem State.setCluster_frames (s : State) (c : Nat) (x : Cluster) : (s.setCluster c x).frames = s.frames := rfl
@[simp] theorem State.setCluster_mem (s : State) (c : Nat) (x : Cluster) : (s.setCluster c x).mem = s.mem := rfl
@[simp] theorem State.setCluster_poison (s : State) (c : Nat) (x : Cluster) : (s.setCluster c x).poison = s.poison := rfl
@[simp] theorem State.setCluster_tlb (s : State) (c : Nat) (x : Cluster) : (s.setCluster c x).tlb = s.tlb := rfl
@[simp] theorem State.setCluster_clusters (s : State) (c : Nat) (x : Cluster) : (s.setCluster c x).clusters = put s.clusters c x := rfl
@[simp] theorem State.setCluster_nmus (s : State) (c : Nat) (x : Cluster) : (s.setCluster c x).nmus = s.nmus := rfl
@[simp] theorem State.setCluster_instars (s : State) (c : Nat) (x : Cluster) : (s.setCluster c x).instars = s.instars := rfl
@[simp] theorem State.setCluster_hub (s : State) (c : Nat) (x : Cluster) : (s.setCluster c x).hub = s.hub := rfl
@[simp] theorem State.setCluster_retired (s : State) (c : Nat) (x : Cluster) : (s.setCluster c x).retired = s.retired := rfl
@[simp] theorem State.setCluster_down (s : State) (c : Nat) (x : Cluster) : (s.setCluster c x).down = s.down := rfl
@[simp] theorem State.setCluster_sevenths (s : State) (c : Nat) (x : Cluster) : (s.setCluster c x).sevenths = s.sevenths := rfl
@[simp] theorem State.setCluster_turns (s : State) (c : Nat) (x : Cluster) : (s.setCluster c x).turns = s.turns := rfl
@[simp] theorem State.setCluster_walks (s : State) (c : Nat) (x : Cluster) : (s.setCluster c x).walks = s.walks := rfl
@[simp] theorem State.setCluster_net (s : State) (c : Nat) (x : Cluster) : (s.setCluster c x).net = s.net := rfl
@[simp] theorem State.setCluster_hits (s : State) (c : Nat) (x : Cluster) : (s.setCluster c x).hits = s.hits := rfl
@[simp] theorem State.setCluster_arrivals (s : State) (c : Nat) (x : Cluster) : (s.setCluster c x).arrivals = s.arrivals := rfl
@[simp] theorem State.setCluster_cut (s : State) (c : Nat) (x : Cluster) : (s.setCluster c x).cut = s.cut := rfl
@[simp] theorem State.setCluster_unit (s : State) (c : Nat) (x : Cluster) : (s.setCluster c x).unit = s.unit := rfl
@[simp] theorem State.setCluster_schedule (s : State) (c : Nat) (x : Cluster) : (s.setCluster c x).schedule = s.schedule := rfl
@[simp] theorem State.setCluster_freeCount (s : State) (c : Nat) (x : Cluster) : (s.setCluster c x).freeCount = s.freeCount := rfl
@[simp] theorem State.setCluster_blocked (s : State) (c : Nat) (x : Cluster) : (s.setCluster c x).blocked = s.blocked := rfl

@[simp] theorem State.setNmu_cur (s : State) (c : Nat) (x : Nmu) : (s.setNmu c x).cur = s.cur := rfl
@[simp] theorem State.setNmu_others (s : State) (c : Nat) (x : Nmu) : (s.setNmu c x).others = s.others := rfl
@[simp] theorem State.setNmu_frames (s : State) (c : Nat) (x : Nmu) : (s.setNmu c x).frames = s.frames := rfl
@[simp] theorem State.setNmu_mem (s : State) (c : Nat) (x : Nmu) : (s.setNmu c x).mem = s.mem := rfl
@[simp] theorem State.setNmu_poison (s : State) (c : Nat) (x : Nmu) : (s.setNmu c x).poison = s.poison := rfl
@[simp] theorem State.setNmu_tlb (s : State) (c : Nat) (x : Nmu) : (s.setNmu c x).tlb = s.tlb := rfl
@[simp] theorem State.setNmu_clusters (s : State) (c : Nat) (x : Nmu) : (s.setNmu c x).clusters = s.clusters := rfl
@[simp] theorem State.setNmu_nmus (s : State) (c : Nat) (x : Nmu) : (s.setNmu c x).nmus = put s.nmus c x := rfl
@[simp] theorem State.setNmu_instars (s : State) (c : Nat) (x : Nmu) : (s.setNmu c x).instars = s.instars := rfl
@[simp] theorem State.setNmu_hub (s : State) (c : Nat) (x : Nmu) : (s.setNmu c x).hub = s.hub := rfl
@[simp] theorem State.setNmu_retired (s : State) (c : Nat) (x : Nmu) : (s.setNmu c x).retired = s.retired := rfl
@[simp] theorem State.setNmu_down (s : State) (c : Nat) (x : Nmu) : (s.setNmu c x).down = s.down := rfl
@[simp] theorem State.setNmu_sevenths (s : State) (c : Nat) (x : Nmu) : (s.setNmu c x).sevenths = s.sevenths := rfl
@[simp] theorem State.setNmu_turns (s : State) (c : Nat) (x : Nmu) : (s.setNmu c x).turns = s.turns := rfl
@[simp] theorem State.setNmu_walks (s : State) (c : Nat) (x : Nmu) : (s.setNmu c x).walks = s.walks := rfl
@[simp] theorem State.setNmu_net (s : State) (c : Nat) (x : Nmu) : (s.setNmu c x).net = s.net := rfl
@[simp] theorem State.setNmu_hits (s : State) (c : Nat) (x : Nmu) : (s.setNmu c x).hits = s.hits := rfl
@[simp] theorem State.setNmu_arrivals (s : State) (c : Nat) (x : Nmu) : (s.setNmu c x).arrivals = s.arrivals := rfl
@[simp] theorem State.setNmu_cut (s : State) (c : Nat) (x : Nmu) : (s.setNmu c x).cut = s.cut := rfl
@[simp] theorem State.setNmu_unit (s : State) (c : Nat) (x : Nmu) : (s.setNmu c x).unit = s.unit := rfl
@[simp] theorem State.setNmu_schedule (s : State) (c : Nat) (x : Nmu) : (s.setNmu c x).schedule = s.schedule := rfl
@[simp] theorem State.setNmu_freeCount (s : State) (c : Nat) (x : Nmu) : (s.setNmu c x).freeCount = s.freeCount := rfl
@[simp] theorem State.setNmu_blocked (s : State) (c : Nat) (x : Nmu) : (s.setNmu c x).blocked = s.blocked := rfl

@[simp] theorem State.setHub_cur (s : State) (h : Hub) : (s.setHub h).cur = s.cur := rfl
@[simp] theorem State.setHub_others (s : State) (h : Hub) : (s.setHub h).others = s.others := rfl
@[simp] theorem State.setHub_frames (s : State) (h : Hub) : (s.setHub h).frames = s.frames := rfl
@[simp] theorem State.setHub_mem (s : State) (h : Hub) : (s.setHub h).mem = s.mem := rfl
@[simp] theorem State.setHub_poison (s : State) (h : Hub) : (s.setHub h).poison = s.poison := rfl
@[simp] theorem State.setHub_tlb (s : State) (h : Hub) : (s.setHub h).tlb = s.tlb := rfl
@[simp] theorem State.setHub_clusters (s : State) (h : Hub) : (s.setHub h).clusters = s.clusters := rfl
@[simp] theorem State.setHub_nmus (s : State) (h : Hub) : (s.setHub h).nmus = s.nmus := rfl
@[simp] theorem State.setHub_instars (s : State) (h : Hub) : (s.setHub h).instars = s.instars := rfl
@[simp] theorem State.setHub_hub (s : State) (h : Hub) : (s.setHub h).hub = h := rfl
@[simp] theorem State.setHub_retired (s : State) (h : Hub) : (s.setHub h).retired = s.retired := rfl
@[simp] theorem State.setHub_down (s : State) (h : Hub) : (s.setHub h).down = s.down := rfl
@[simp] theorem State.setHub_sevenths (s : State) (h : Hub) : (s.setHub h).sevenths = s.sevenths := rfl
@[simp] theorem State.setHub_turns (s : State) (h : Hub) : (s.setHub h).turns = s.turns := rfl
@[simp] theorem State.setHub_walks (s : State) (h : Hub) : (s.setHub h).walks = s.walks := rfl
@[simp] theorem State.setHub_net (s : State) (h : Hub) : (s.setHub h).net = s.net := rfl
@[simp] theorem State.setHub_hits (s : State) (h : Hub) : (s.setHub h).hits = s.hits := rfl
@[simp] theorem State.setHub_arrivals (s : State) (h : Hub) : (s.setHub h).arrivals = s.arrivals := rfl
@[simp] theorem State.setHub_cut (s : State) (h : Hub) : (s.setHub h).cut = s.cut := rfl
@[simp] theorem State.setHub_unit (s : State) (h : Hub) : (s.setHub h).unit = s.unit := rfl
@[simp] theorem State.setHub_schedule (s : State) (h : Hub) : (s.setHub h).schedule = s.schedule := rfl
@[simp] theorem State.setHub_freeCount (s : State) (h : Hub) : (s.setHub h).freeCount = s.freeCount := rfl
@[simp] theorem State.setHub_blocked (s : State) (h : Hub) : (s.setHub h).blocked = s.blocked := rfl

@[simp] theorem State.setHostQueue_cur (s : State) (n : Nat) (x : HostQueue) : (s.setHostQueue n x).cur = s.cur := rfl
@[simp] theorem State.setHostQueue_others (s : State) (n : Nat) (x : HostQueue) : (s.setHostQueue n x).others = s.others := rfl
@[simp] theorem State.setHostQueue_frames (s : State) (n : Nat) (x : HostQueue) : (s.setHostQueue n x).frames = s.frames := rfl
@[simp] theorem State.setHostQueue_mem (s : State) (n : Nat) (x : HostQueue) : (s.setHostQueue n x).mem = s.mem := rfl
@[simp] theorem State.setHostQueue_poison (s : State) (n : Nat) (x : HostQueue) : (s.setHostQueue n x).poison = s.poison := rfl
@[simp] theorem State.setHostQueue_tlb (s : State) (n : Nat) (x : HostQueue) : (s.setHostQueue n x).tlb = s.tlb := rfl
@[simp] theorem State.setHostQueue_clusters (s : State) (n : Nat) (x : HostQueue) : (s.setHostQueue n x).clusters = s.clusters := rfl
@[simp] theorem State.setHostQueue_nmus (s : State) (n : Nat) (x : HostQueue) : (s.setHostQueue n x).nmus = s.nmus := rfl
@[simp] theorem State.setHostQueue_instars (s : State) (n : Nat) (x : HostQueue) : (s.setHostQueue n x).instars = s.instars := rfl
@[simp] theorem State.setHostQueue_retired (s : State) (n : Nat) (x : HostQueue) : (s.setHostQueue n x).retired = s.retired := rfl
@[simp] theorem State.setHostQueue_down (s : State) (n : Nat) (x : HostQueue) : (s.setHostQueue n x).down = s.down := rfl
@[simp] theorem State.setHostQueue_sevenths (s : State) (n : Nat) (x : HostQueue) : (s.setHostQueue n x).sevenths = s.sevenths := rfl
@[simp] theorem State.setHostQueue_turns (s : State) (n : Nat) (x : HostQueue) : (s.setHostQueue n x).turns = s.turns := rfl
@[simp] theorem State.setHostQueue_walks (s : State) (n : Nat) (x : HostQueue) : (s.setHostQueue n x).walks = s.walks := rfl
@[simp] theorem State.setHostQueue_net (s : State) (n : Nat) (x : HostQueue) : (s.setHostQueue n x).net = s.net := rfl
@[simp] theorem State.setHostQueue_hits (s : State) (n : Nat) (x : HostQueue) : (s.setHostQueue n x).hits = s.hits := rfl
@[simp] theorem State.setHostQueue_arrivals (s : State) (n : Nat) (x : HostQueue) : (s.setHostQueue n x).arrivals = s.arrivals := rfl
@[simp] theorem State.setHostQueue_cut (s : State) (n : Nat) (x : HostQueue) : (s.setHostQueue n x).cut = s.cut := rfl
@[simp] theorem State.setHostQueue_unit (s : State) (n : Nat) (x : HostQueue) : (s.setHostQueue n x).unit = s.unit := rfl
@[simp] theorem State.setHostQueue_schedule (s : State) (n : Nat) (x : HostQueue) : (s.setHostQueue n x).schedule = s.schedule := rfl
@[simp] theorem State.setHostQueue_freeCount (s : State) (n : Nat) (x : HostQueue) : (s.setHostQueue n x).freeCount = s.freeCount := rfl
@[simp] theorem State.setHostQueue_blocked (s : State) (n : Nat) (x : HostQueue) : (s.setHostQueue n x).blocked = s.blocked := rfl

@[simp] theorem State.setDebug_cur (s : State) (n : Nat) (x : DebugBlock) : (s.setDebug n x).cur = s.cur := rfl
@[simp] theorem State.setDebug_others (s : State) (n : Nat) (x : DebugBlock) : (s.setDebug n x).others = s.others := rfl
@[simp] theorem State.setDebug_frames (s : State) (n : Nat) (x : DebugBlock) : (s.setDebug n x).frames = s.frames := rfl
@[simp] theorem State.setDebug_mem (s : State) (n : Nat) (x : DebugBlock) : (s.setDebug n x).mem = s.mem := rfl
@[simp] theorem State.setDebug_poison (s : State) (n : Nat) (x : DebugBlock) : (s.setDebug n x).poison = s.poison := rfl
@[simp] theorem State.setDebug_tlb (s : State) (n : Nat) (x : DebugBlock) : (s.setDebug n x).tlb = s.tlb := rfl
@[simp] theorem State.setDebug_clusters (s : State) (n : Nat) (x : DebugBlock) : (s.setDebug n x).clusters = s.clusters := rfl
@[simp] theorem State.setDebug_nmus (s : State) (n : Nat) (x : DebugBlock) : (s.setDebug n x).nmus = s.nmus := rfl
@[simp] theorem State.setDebug_instars (s : State) (n : Nat) (x : DebugBlock) : (s.setDebug n x).instars = s.instars := rfl
@[simp] theorem State.setDebug_retired (s : State) (n : Nat) (x : DebugBlock) : (s.setDebug n x).retired = s.retired := rfl
@[simp] theorem State.setDebug_down (s : State) (n : Nat) (x : DebugBlock) : (s.setDebug n x).down = s.down := rfl
@[simp] theorem State.setDebug_sevenths (s : State) (n : Nat) (x : DebugBlock) : (s.setDebug n x).sevenths = s.sevenths := rfl
@[simp] theorem State.setDebug_turns (s : State) (n : Nat) (x : DebugBlock) : (s.setDebug n x).turns = s.turns := rfl
@[simp] theorem State.setDebug_walks (s : State) (n : Nat) (x : DebugBlock) : (s.setDebug n x).walks = s.walks := rfl
@[simp] theorem State.setDebug_net (s : State) (n : Nat) (x : DebugBlock) : (s.setDebug n x).net = s.net := rfl
@[simp] theorem State.setDebug_hits (s : State) (n : Nat) (x : DebugBlock) : (s.setDebug n x).hits = s.hits := rfl
@[simp] theorem State.setDebug_arrivals (s : State) (n : Nat) (x : DebugBlock) : (s.setDebug n x).arrivals = s.arrivals := rfl
@[simp] theorem State.setDebug_cut (s : State) (n : Nat) (x : DebugBlock) : (s.setDebug n x).cut = s.cut := rfl
@[simp] theorem State.setDebug_unit (s : State) (n : Nat) (x : DebugBlock) : (s.setDebug n x).unit = s.unit := rfl
@[simp] theorem State.setDebug_schedule (s : State) (n : Nat) (x : DebugBlock) : (s.setDebug n x).schedule = s.schedule := rfl
@[simp] theorem State.setDebug_freeCount (s : State) (n : Nat) (x : DebugBlock) : (s.setDebug n x).freeCount = s.freeCount := rfl
@[simp] theorem State.setDebug_blocked (s : State) (n : Nat) (x : DebugBlock) : (s.setDebug n x).blocked = s.blocked := rfl

@[simp] theorem State.setPort_cur (s : State) (n : Nat) (x : PortRec) : (s.setPort n x).cur = s.cur := rfl
@[simp] theorem State.setPort_others (s : State) (n : Nat) (x : PortRec) : (s.setPort n x).others = s.others := rfl
@[simp] theorem State.setPort_frames (s : State) (n : Nat) (x : PortRec) : (s.setPort n x).frames = s.frames := rfl
@[simp] theorem State.setPort_mem (s : State) (n : Nat) (x : PortRec) : (s.setPort n x).mem = s.mem := rfl
@[simp] theorem State.setPort_poison (s : State) (n : Nat) (x : PortRec) : (s.setPort n x).poison = s.poison := rfl
@[simp] theorem State.setPort_tlb (s : State) (n : Nat) (x : PortRec) : (s.setPort n x).tlb = s.tlb := rfl
@[simp] theorem State.setPort_clusters (s : State) (n : Nat) (x : PortRec) : (s.setPort n x).clusters = s.clusters := rfl
@[simp] theorem State.setPort_nmus (s : State) (n : Nat) (x : PortRec) : (s.setPort n x).nmus = s.nmus := rfl
@[simp] theorem State.setPort_instars (s : State) (n : Nat) (x : PortRec) : (s.setPort n x).instars = s.instars := rfl
@[simp] theorem State.setPort_retired (s : State) (n : Nat) (x : PortRec) : (s.setPort n x).retired = s.retired := rfl
@[simp] theorem State.setPort_down (s : State) (n : Nat) (x : PortRec) : (s.setPort n x).down = s.down := rfl
@[simp] theorem State.setPort_sevenths (s : State) (n : Nat) (x : PortRec) : (s.setPort n x).sevenths = s.sevenths := rfl
@[simp] theorem State.setPort_turns (s : State) (n : Nat) (x : PortRec) : (s.setPort n x).turns = s.turns := rfl
@[simp] theorem State.setPort_walks (s : State) (n : Nat) (x : PortRec) : (s.setPort n x).walks = s.walks := rfl
@[simp] theorem State.setPort_net (s : State) (n : Nat) (x : PortRec) : (s.setPort n x).net = s.net := rfl
@[simp] theorem State.setPort_hits (s : State) (n : Nat) (x : PortRec) : (s.setPort n x).hits = s.hits := rfl
@[simp] theorem State.setPort_arrivals (s : State) (n : Nat) (x : PortRec) : (s.setPort n x).arrivals = s.arrivals := rfl
@[simp] theorem State.setPort_cut (s : State) (n : Nat) (x : PortRec) : (s.setPort n x).cut = s.cut := rfl
@[simp] theorem State.setPort_unit (s : State) (n : Nat) (x : PortRec) : (s.setPort n x).unit = s.unit := rfl
@[simp] theorem State.setPort_schedule (s : State) (n : Nat) (x : PortRec) : (s.setPort n x).schedule = s.schedule := rfl
@[simp] theorem State.setPort_freeCount (s : State) (n : Nat) (x : PortRec) : (s.setPort n x).freeCount = s.freeCount := rfl
@[simp] theorem State.setPort_blocked (s : State) (n : Nat) (x : PortRec) : (s.setPort n x).blocked = s.blocked := rfl

@[simp] theorem State.putContext_cur (s : State) (c : Context) : (s.putContext c).cur = s.cur := rfl
@[simp] theorem State.putContext_others (s : State) (c : Context) : (s.putContext c).others = s.others := rfl
@[simp] theorem State.putContext_frames (s : State) (c : Context) : (s.putContext c).frames = s.frames := rfl
@[simp] theorem State.putContext_mem (s : State) (c : Context) : (s.putContext c).mem = s.mem := rfl
@[simp] theorem State.putContext_poison (s : State) (c : Context) : (s.putContext c).poison = s.poison := rfl
@[simp] theorem State.putContext_tlb (s : State) (c : Context) : (s.putContext c).tlb = s.tlb := rfl
@[simp] theorem State.putContext_clusters (s : State) (c : Context) : (s.putContext c).clusters = s.clusters := rfl
@[simp] theorem State.putContext_nmus (s : State) (c : Context) : (s.putContext c).nmus = s.nmus := rfl
@[simp] theorem State.putContext_instars (s : State) (c : Context) : (s.putContext c).instars = s.instars := rfl
@[simp] theorem State.putContext_retired (s : State) (c : Context) : (s.putContext c).retired = s.retired := rfl
@[simp] theorem State.putContext_down (s : State) (c : Context) : (s.putContext c).down = s.down := rfl
@[simp] theorem State.putContext_sevenths (s : State) (c : Context) : (s.putContext c).sevenths = s.sevenths := rfl
@[simp] theorem State.putContext_turns (s : State) (c : Context) : (s.putContext c).turns = s.turns := rfl
@[simp] theorem State.putContext_walks (s : State) (c : Context) : (s.putContext c).walks = s.walks := rfl
@[simp] theorem State.putContext_net (s : State) (c : Context) : (s.putContext c).net = s.net := rfl
@[simp] theorem State.putContext_hits (s : State) (c : Context) : (s.putContext c).hits = s.hits := rfl
@[simp] theorem State.putContext_arrivals (s : State) (c : Context) : (s.putContext c).arrivals = s.arrivals := rfl
@[simp] theorem State.putContext_cut (s : State) (c : Context) : (s.putContext c).cut = s.cut := rfl
@[simp] theorem State.putContext_unit (s : State) (c : Context) : (s.putContext c).unit = s.unit := rfl
@[simp] theorem State.putContext_schedule (s : State) (c : Context) : (s.putContext c).schedule = s.schedule := rfl
@[simp] theorem State.putContext_freeCount (s : State) (c : Context) : (s.putContext c).freeCount = s.freeCount := rfl
@[simp] theorem State.putContext_blocked (s : State) (c : Context) : (s.putContext c).blocked = s.blocked := rfl

@[simp] theorem State.logS_cur (s : State) (w : String) (x : Word) : (s.logS w x).cur = s.cur := rfl
@[simp] theorem State.logS_others (s : State) (w : String) (x : Word) : (s.logS w x).others = s.others := rfl
@[simp] theorem State.logS_frames (s : State) (w : String) (x : Word) : (s.logS w x).frames = s.frames := rfl
@[simp] theorem State.logS_mem (s : State) (w : String) (x : Word) : (s.logS w x).mem = s.mem := rfl
@[simp] theorem State.logS_poison (s : State) (w : String) (x : Word) : (s.logS w x).poison = s.poison := rfl
@[simp] theorem State.logS_tlb (s : State) (w : String) (x : Word) : (s.logS w x).tlb = s.tlb := rfl
@[simp] theorem State.logS_clusters (s : State) (w : String) (x : Word) : (s.logS w x).clusters = s.clusters := rfl
@[simp] theorem State.logS_nmus (s : State) (w : String) (x : Word) : (s.logS w x).nmus = s.nmus := rfl
@[simp] theorem State.logS_instars (s : State) (w : String) (x : Word) : (s.logS w x).instars = s.instars := rfl
@[simp] theorem State.logS_retired (s : State) (w : String) (x : Word) : (s.logS w x).retired = s.retired := rfl
@[simp] theorem State.logS_down (s : State) (w : String) (x : Word) : (s.logS w x).down = s.down := rfl
@[simp] theorem State.logS_sevenths (s : State) (w : String) (x : Word) : (s.logS w x).sevenths = s.sevenths := rfl
@[simp] theorem State.logS_turns (s : State) (w : String) (x : Word) : (s.logS w x).turns = s.turns := rfl
@[simp] theorem State.logS_walks (s : State) (w : String) (x : Word) : (s.logS w x).walks = s.walks := rfl
@[simp] theorem State.logS_net (s : State) (w : String) (x : Word) : (s.logS w x).net = s.net := rfl
@[simp] theorem State.logS_hits (s : State) (w : String) (x : Word) : (s.logS w x).hits = s.hits := rfl
@[simp] theorem State.logS_arrivals (s : State) (w : String) (x : Word) : (s.logS w x).arrivals = s.arrivals := rfl
@[simp] theorem State.logS_cut (s : State) (w : String) (x : Word) : (s.logS w x).cut = s.cut := rfl
@[simp] theorem State.logS_unit (s : State) (w : String) (x : Word) : (s.logS w x).unit = s.unit := rfl
@[simp] theorem State.logS_schedule (s : State) (w : String) (x : Word) : (s.logS w x).schedule = s.schedule := rfl
@[simp] theorem State.logS_freeCount (s : State) (w : String) (x : Word) : (s.logS w x).freeCount = s.freeCount := rfl
@[simp] theorem State.logS_blocked (s : State) (w : String) (x : Word) : (s.logS w x).blocked = s.blocked := rfl

@[simp] theorem State.hart_cur (s : State) (f : Hart → Hart) : (s.hart f).cur = f s.cur := rfl
@[simp] theorem State.hart_others (s : State) (f : Hart → Hart) : (s.hart f).others = s.others := rfl
@[simp] theorem State.hart_frames (s : State) (f : Hart → Hart) : (s.hart f).frames = s.frames := rfl
@[simp] theorem State.hart_mem (s : State) (f : Hart → Hart) : (s.hart f).mem = s.mem := rfl
@[simp] theorem State.hart_poison (s : State) (f : Hart → Hart) : (s.hart f).poison = s.poison := rfl
@[simp] theorem State.hart_tlb (s : State) (f : Hart → Hart) : (s.hart f).tlb = s.tlb := rfl
@[simp] theorem State.hart_clusters (s : State) (f : Hart → Hart) : (s.hart f).clusters = s.clusters := rfl
@[simp] theorem State.hart_nmus (s : State) (f : Hart → Hart) : (s.hart f).nmus = s.nmus := rfl
@[simp] theorem State.hart_instars (s : State) (f : Hart → Hart) : (s.hart f).instars = s.instars := rfl
@[simp] theorem State.hart_hub (s : State) (f : Hart → Hart) : (s.hart f).hub = s.hub := rfl
@[simp] theorem State.hart_retired (s : State) (f : Hart → Hart) : (s.hart f).retired = s.retired := rfl
@[simp] theorem State.hart_down (s : State) (f : Hart → Hart) : (s.hart f).down = s.down := rfl
@[simp] theorem State.hart_sevenths (s : State) (f : Hart → Hart) : (s.hart f).sevenths = s.sevenths := rfl
@[simp] theorem State.hart_turns (s : State) (f : Hart → Hart) : (s.hart f).turns = s.turns := rfl
@[simp] theorem State.hart_walks (s : State) (f : Hart → Hart) : (s.hart f).walks = s.walks := rfl
@[simp] theorem State.hart_net (s : State) (f : Hart → Hart) : (s.hart f).net = s.net := rfl
@[simp] theorem State.hart_hits (s : State) (f : Hart → Hart) : (s.hart f).hits = s.hits := rfl
@[simp] theorem State.hart_arrivals (s : State) (f : Hart → Hart) : (s.hart f).arrivals = s.arrivals := rfl
@[simp] theorem State.hart_cut (s : State) (f : Hart → Hart) : (s.hart f).cut = s.cut := rfl
@[simp] theorem State.hart_unit (s : State) (f : Hart → Hart) : (s.hart f).unit = s.unit := rfl
@[simp] theorem State.hart_schedule (s : State) (f : Hart → Hart) : (s.hart f).schedule = s.schedule := rfl
@[simp] theorem State.hart_freeCount (s : State) (f : Hart → Hart) : (s.hart f).freeCount = s.freeCount := rfl
@[simp] theorem State.hart_blocked (s : State) (f : Hart → Hart) : (s.hart f).blocked = s.blocked := rfl

@[simp] theorem State.mapHarts_cur (s : State) (f : Hart → Hart) : (s.mapHarts f).cur = f s.cur := rfl
@[simp] theorem State.mapHarts_others (s : State) (f : Hart → Hart) : (s.mapHarts f).others = s.others.map f := rfl
@[simp] theorem State.mapHarts_frames (s : State) (f : Hart → Hart) : (s.mapHarts f).frames = s.frames := rfl
@[simp] theorem State.mapHarts_mem (s : State) (f : Hart → Hart) : (s.mapHarts f).mem = s.mem := rfl
@[simp] theorem State.mapHarts_poison (s : State) (f : Hart → Hart) : (s.mapHarts f).poison = s.poison := rfl
@[simp] theorem State.mapHarts_tlb (s : State) (f : Hart → Hart) : (s.mapHarts f).tlb = s.tlb := rfl
@[simp] theorem State.mapHarts_clusters (s : State) (f : Hart → Hart) : (s.mapHarts f).clusters = s.clusters := rfl
@[simp] theorem State.mapHarts_nmus (s : State) (f : Hart → Hart) : (s.mapHarts f).nmus = s.nmus := rfl
@[simp] theorem State.mapHarts_instars (s : State) (f : Hart → Hart) : (s.mapHarts f).instars = s.instars := rfl
@[simp] theorem State.mapHarts_hub (s : State) (f : Hart → Hart) : (s.mapHarts f).hub = s.hub := rfl
@[simp] theorem State.mapHarts_retired (s : State) (f : Hart → Hart) : (s.mapHarts f).retired = s.retired := rfl
@[simp] theorem State.mapHarts_down (s : State) (f : Hart → Hart) : (s.mapHarts f).down = s.down := rfl
@[simp] theorem State.mapHarts_sevenths (s : State) (f : Hart → Hart) : (s.mapHarts f).sevenths = s.sevenths := rfl
@[simp] theorem State.mapHarts_turns (s : State) (f : Hart → Hart) : (s.mapHarts f).turns = s.turns := rfl
@[simp] theorem State.mapHarts_walks (s : State) (f : Hart → Hart) : (s.mapHarts f).walks = s.walks := rfl
@[simp] theorem State.mapHarts_net (s : State) (f : Hart → Hart) : (s.mapHarts f).net = s.net := rfl
@[simp] theorem State.mapHarts_hits (s : State) (f : Hart → Hart) : (s.mapHarts f).hits = s.hits := rfl
@[simp] theorem State.mapHarts_arrivals (s : State) (f : Hart → Hart) : (s.mapHarts f).arrivals = s.arrivals := rfl
@[simp] theorem State.mapHarts_cut (s : State) (f : Hart → Hart) : (s.mapHarts f).cut = s.cut := rfl
@[simp] theorem State.mapHarts_unit (s : State) (f : Hart → Hart) : (s.mapHarts f).unit = s.unit := rfl
@[simp] theorem State.mapHarts_schedule (s : State) (f : Hart → Hart) : (s.mapHarts f).schedule = s.schedule := rfl
@[simp] theorem State.mapHarts_freeCount (s : State) (f : Hart → Hart) : (s.mapHarts f).freeCount = s.freeCount := rfl
@[simp] theorem State.mapHarts_blocked (s : State) (f : Hart → Hart) : (s.mapHarts f).blocked = s.blocked := rfl

@[simp] theorem State.queueStore_others (s : State) (w : Stream) (a : PAct) : (s.queueStore w a).others = s.others := rfl
@[simp] theorem State.queueStore_frames (s : State) (w : Stream) (a : PAct) : (s.queueStore w a).frames = s.frames := rfl
@[simp] theorem State.queueStore_mem (s : State) (w : Stream) (a : PAct) : (s.queueStore w a).mem = s.mem := rfl
@[simp] theorem State.queueStore_poison (s : State) (w : Stream) (a : PAct) : (s.queueStore w a).poison = s.poison := rfl
@[simp] theorem State.queueStore_tlb (s : State) (w : Stream) (a : PAct) : (s.queueStore w a).tlb = s.tlb := rfl
@[simp] theorem State.queueStore_clusters (s : State) (w : Stream) (a : PAct) : (s.queueStore w a).clusters = s.clusters := rfl
@[simp] theorem State.queueStore_nmus (s : State) (w : Stream) (a : PAct) : (s.queueStore w a).nmus = s.nmus := rfl
@[simp] theorem State.queueStore_instars (s : State) (w : Stream) (a : PAct) : (s.queueStore w a).instars = s.instars := rfl
@[simp] theorem State.queueStore_hub (s : State) (w : Stream) (a : PAct) : (s.queueStore w a).hub = s.hub := rfl
@[simp] theorem State.queueStore_retired (s : State) (w : Stream) (a : PAct) : (s.queueStore w a).retired = s.retired := rfl
@[simp] theorem State.queueStore_down (s : State) (w : Stream) (a : PAct) : (s.queueStore w a).down = s.down := rfl
@[simp] theorem State.queueStore_sevenths (s : State) (w : Stream) (a : PAct) : (s.queueStore w a).sevenths = s.sevenths := rfl
@[simp] theorem State.queueStore_turns (s : State) (w : Stream) (a : PAct) : (s.queueStore w a).turns = s.turns := rfl
@[simp] theorem State.queueStore_walks (s : State) (w : Stream) (a : PAct) : (s.queueStore w a).walks = s.walks := rfl
@[simp] theorem State.queueStore_net (s : State) (w : Stream) (a : PAct) : (s.queueStore w a).net = s.net := rfl
@[simp] theorem State.queueStore_hits (s : State) (w : Stream) (a : PAct) : (s.queueStore w a).hits = s.hits := rfl
@[simp] theorem State.queueStore_arrivals (s : State) (w : Stream) (a : PAct) : (s.queueStore w a).arrivals = s.arrivals := rfl
@[simp] theorem State.queueStore_cut (s : State) (w : Stream) (a : PAct) : (s.queueStore w a).cut = s.cut := rfl
@[simp] theorem State.queueStore_unit (s : State) (w : Stream) (a : PAct) : (s.queueStore w a).unit = s.unit := rfl
@[simp] theorem State.queueStore_schedule (s : State) (w : Stream) (a : PAct) : (s.queueStore w a).schedule = s.schedule := rfl
@[simp] theorem State.queueStore_freeCount (s : State) (w : Stream) (a : PAct) : (s.queueStore w a).freeCount = s.freeCount := rfl
@[simp] theorem State.queueStore_blocked (s : State) (w : Stream) (a : PAct) : (s.queueStore w a).blocked = s.blocked := rfl

@[simp] theorem State.block_cur (s : State) (w : Wait) : (s.block w).cur = s.cur := rfl
@[simp] theorem State.block_others (s : State) (w : Wait) : (s.block w).others = s.others := rfl
@[simp] theorem State.block_frames (s : State) (w : Wait) : (s.block w).frames = s.frames := rfl
@[simp] theorem State.block_mem (s : State) (w : Wait) : (s.block w).mem = s.mem := rfl
@[simp] theorem State.block_poison (s : State) (w : Wait) : (s.block w).poison = s.poison := rfl
@[simp] theorem State.block_tlb (s : State) (w : Wait) : (s.block w).tlb = s.tlb := rfl
@[simp] theorem State.block_clusters (s : State) (w : Wait) : (s.block w).clusters = s.clusters := rfl
@[simp] theorem State.block_nmus (s : State) (w : Wait) : (s.block w).nmus = s.nmus := rfl
@[simp] theorem State.block_instars (s : State) (w : Wait) : (s.block w).instars = s.instars := rfl
@[simp] theorem State.block_hub (s : State) (w : Wait) : (s.block w).hub = s.hub := rfl
@[simp] theorem State.block_retired (s : State) (w : Wait) : (s.block w).retired = s.retired := rfl
@[simp] theorem State.block_down (s : State) (w : Wait) : (s.block w).down = s.down := rfl
@[simp] theorem State.block_sevenths (s : State) (w : Wait) : (s.block w).sevenths = s.sevenths := rfl
@[simp] theorem State.block_turns (s : State) (w : Wait) : (s.block w).turns = s.turns := rfl
@[simp] theorem State.block_walks (s : State) (w : Wait) : (s.block w).walks = s.walks := rfl
@[simp] theorem State.block_net (s : State) (w : Wait) : (s.block w).net = s.net := rfl
@[simp] theorem State.block_hits (s : State) (w : Wait) : (s.block w).hits = s.hits := rfl
@[simp] theorem State.block_arrivals (s : State) (w : Wait) : (s.block w).arrivals = s.arrivals := rfl
@[simp] theorem State.block_cut (s : State) (w : Wait) : (s.block w).cut = s.cut := rfl
@[simp] theorem State.block_unit (s : State) (w : Wait) : (s.block w).unit = s.unit := rfl
@[simp] theorem State.block_schedule (s : State) (w : Wait) : (s.block w).schedule = s.schedule := rfl
@[simp] theorem State.block_freeCount (s : State) (w : Wait) : (s.block w).freeCount = s.freeCount := rfl
@[simp] theorem State.block_blocked (s : State) (w : Wait) : (s.block w).blocked = s.blocked.or (some w) := rfl

@[simp] theorem State.waitCommands_cur (s : State)  : (s.waitCommands ).cur = { s.cur with status := .waiting .commands } := rfl
@[simp] theorem State.waitCommands_others (s : State)  : (s.waitCommands ).others = s.others := rfl
@[simp] theorem State.waitCommands_frames (s : State)  : (s.waitCommands ).frames = s.frames := rfl
@[simp] theorem State.waitCommands_mem (s : State)  : (s.waitCommands ).mem = s.mem := rfl
@[simp] theorem State.waitCommands_poison (s : State)  : (s.waitCommands ).poison = s.poison := rfl
@[simp] theorem State.waitCommands_tlb (s : State)  : (s.waitCommands ).tlb = s.tlb := rfl
@[simp] theorem State.waitCommands_clusters (s : State)  : (s.waitCommands ).clusters = s.clusters := rfl
@[simp] theorem State.waitCommands_nmus (s : State)  : (s.waitCommands ).nmus = s.nmus := rfl
@[simp] theorem State.waitCommands_instars (s : State)  : (s.waitCommands ).instars = s.instars := rfl
@[simp] theorem State.waitCommands_hub (s : State)  : (s.waitCommands ).hub = s.hub := rfl
@[simp] theorem State.waitCommands_retired (s : State)  : (s.waitCommands ).retired = s.retired := rfl
@[simp] theorem State.waitCommands_down (s : State)  : (s.waitCommands ).down = s.down := rfl
@[simp] theorem State.waitCommands_sevenths (s : State)  : (s.waitCommands ).sevenths = s.sevenths := rfl
@[simp] theorem State.waitCommands_turns (s : State)  : (s.waitCommands ).turns = s.turns := rfl
@[simp] theorem State.waitCommands_walks (s : State)  : (s.waitCommands ).walks = s.walks := rfl
@[simp] theorem State.waitCommands_net (s : State)  : (s.waitCommands ).net = s.net := rfl
@[simp] theorem State.waitCommands_hits (s : State)  : (s.waitCommands ).hits = s.hits := rfl
@[simp] theorem State.waitCommands_arrivals (s : State)  : (s.waitCommands ).arrivals = s.arrivals := rfl
@[simp] theorem State.waitCommands_cut (s : State)  : (s.waitCommands ).cut = s.cut := rfl
@[simp] theorem State.waitCommands_unit (s : State)  : (s.waitCommands ).unit = s.unit := rfl
@[simp] theorem State.waitCommands_schedule (s : State)  : (s.waitCommands ).schedule = s.schedule := rfl
@[simp] theorem State.waitCommands_freeCount (s : State)  : (s.waitCommands ).freeCount = s.freeCount := rfl
@[simp] theorem State.waitCommands_blocked (s : State)  : (s.waitCommands ).blocked = s.blocked := rfl

/-! ## A hart's fields -/

@[simp] theorem Hart.wx_place (h : Hart) (r : Reg) (y : Word) : (h.wx r y).place = h.place := by unfold Hart.wx; split <;> rfl
@[simp] theorem Hart.wx_v (h : Hart) (r : Reg) (y : Word) : (h.wx r y).v = h.v := by unfold Hart.wx; split <;> rfl
@[simp] theorem Hart.wx_tiles (h : Hart) (r : Reg) (y : Word) : (h.wx r y).tiles = h.tiles := by unfold Hart.wx; split <;> rfl
@[simp] theorem Hart.wx_q (h : Hart) (r : Reg) (y : Word) : (h.wx r y).q = h.q := by unfold Hart.wx; split <;> rfl
@[simp] theorem Hart.wx_scaleA (h : Hart) (r : Reg) (y : Word) : (h.wx r y).scaleA = h.scaleA := by unfold Hart.wx; split <;> rfl
@[simp] theorem Hart.wx_scaleB (h : Hart) (r : Reg) (y : Word) : (h.wx r y).scaleB = h.scaleB := by unfold Hart.wx; split <;> rfl
@[simp] theorem Hart.wx_pc (h : Hart) (r : Reg) (y : Word) : (h.wx r y).pc = h.pc := by unfold Hart.wx; split <;> rfl
@[simp] theorem Hart.wx_vl (h : Hart) (r : Reg) (y : Word) : (h.wx r y).vl = h.vl := by unfold Hart.wx; split <;> rfl
@[simp] theorem Hart.wx_vr (h : Hart) (r : Reg) (y : Word) : (h.wx r y).vr = h.vr := by unfold Hart.wx; split <;> rfl
@[simp] theorem Hart.wx_vtype (h : Hart) (r : Reg) (y : Word) : (h.wx r y).vtype = h.vtype := by unfold Hart.wx; split <;> rfl
@[simp] theorem Hart.wx_vlmax (h : Hart) (r : Reg) (y : Word) : (h.wx r y).vlmax = h.vlmax := by unfold Hart.wx; split <;> rfl
@[simp] theorem Hart.wx_vstart (h : Hart) (r : Reg) (y : Word) : (h.wx r y).vstart = h.vstart := by unfold Hart.wx; split <;> rfl
@[simp] theorem Hart.wx_vrm (h : Hart) (r : Reg) (y : Word) : (h.wx r y).vrm = h.vrm := by unfold Hart.wx; split <;> rfl
@[simp] theorem Hart.wx_vxflags (h : Hart) (r : Reg) (y : Word) : (h.wx r y).vxflags = h.vxflags := by unfold Hart.wx; split <;> rfl
@[simp] theorem Hart.wx_vxsel (h : Hart) (r : Reg) (y : Word) : (h.wx r y).vxsel = h.vxsel := by unfold Hart.wx; split <;> rfl
@[simp] theorem Hart.wx_sord (h : Hart) (r : Reg) (y : Word) : (h.wx r y).sord = h.sord := by unfold Hart.wx; split <;> rfl
@[simp] theorem Hart.wx_sva (h : Hart) (r : Reg) (y : Word) : (h.wx r y).sva = h.sva := by unfold Hart.wx; split <;> rfl
@[simp] theorem Hart.wx_lc (h : Hart) (r : Reg) (y : Word) : (h.wx r y).lc = h.lc := by unfold Hart.wx; split <;> rfl
@[simp] theorem Hart.wx_lbeg (h : Hart) (r : Reg) (y : Word) : (h.wx r y).lbeg = h.lbeg := by unfold Hart.wx; split <;> rfl
@[simp] theorem Hart.wx_lend (h : Hart) (r : Reg) (y : Word) : (h.wx r y).lend = h.lend := by unfold Hart.wx; split <;> rfl
@[simp] theorem Hart.wx_pfxs (h : Hart) (r : Reg) (y : Word) : (h.wx r y).pfxs = h.pfxs := by unfold Hart.wx; split <;> rfl
@[simp] theorem Hart.wx_dirty (h : Hart) (r : Reg) (y : Word) : (h.wx r y).dirty = h.dirty := by unfold Hart.wx; split <;> rfl
@[simp] theorem Hart.wx_lmap (h : Hart) (r : Reg) (y : Word) : (h.wx r y).lmap = h.lmap := by unfold Hart.wx; split <;> rfl
@[simp] theorem Hart.wx_coord (h : Hart) (r : Reg) (y : Word) : (h.wx r y).coord = h.coord := by unfold Hart.wx; split <;> rfl
@[simp] theorem Hart.wx_stage (h : Hart) (r : Reg) (y : Word) : (h.wx r y).stage = h.stage := by unfold Hart.wx; split <;> rfl
@[simp] theorem Hart.wx_rstat (h : Hart) (r : Reg) (y : Word) : (h.wx r y).rstat = h.rstat := by unfold Hart.wx; split <;> rfl
@[simp] theorem Hart.wx_discf (h : Hart) (r : Reg) (y : Word) : (h.wx r y).discf = h.discf := by unfold Hart.wx; split <;> rfl
@[simp] theorem Hart.wx_tvec (h : Hart) (r : Reg) (y : Word) : (h.wx r y).tvec = h.tvec := by unfold Hart.wx; split <;> rfl
@[simp] theorem Hart.wx_tcause (h : Hart) (r : Reg) (y : Word) : (h.wx r y).tcause = h.tcause := by unfold Hart.wx; split <;> rfl
@[simp] theorem Hart.wx_tval (h : Hart) (r : Reg) (y : Word) : (h.wx r y).tval = h.tval := by unfold Hart.wx; split <;> rfl
@[simp] theorem Hart.wx_tpc (h : Hart) (r : Reg) (y : Word) : (h.wx r y).tpc = h.tpc := by unfold Hart.wx; split <;> rfl
@[simp] theorem Hart.wx_tqpos (h : Hart) (r : Reg) (y : Word) : (h.wx r y).tqpos = h.tqpos := by unfold Hart.wx; split <;> rfl
@[simp] theorem Hart.wx_tsave (h : Hart) (r : Reg) (y : Word) : (h.wx r y).tsave = h.tsave := by unfold Hart.wx; split <;> rfl
@[simp] theorem Hart.wx_vpad (h : Hart) (r : Reg) (y : Word) : (h.wx r y).vpad = h.vpad := by unfold Hart.wx; split <;> rfl
@[simp] theorem Hart.wx_lbase (h : Hart) (r : Reg) (y : Word) : (h.wx r y).lbase = h.lbase := by unfold Hart.wx; split <;> rfl
@[simp] theorem Hart.wx_lcuse (h : Hart) (r : Reg) (y : Word) : (h.wx r y).lcuse = h.lcuse := by unfold Hart.wx; split <;> rfl
@[simp] theorem Hart.wx_lcmask (h : Hart) (r : Reg) (y : Word) : (h.wx r y).lcmask = h.lcmask := by unfold Hart.wx; split <;> rfl
@[simp] theorem Hart.wx_lcbvl (h : Hart) (r : Reg) (y : Word) : (h.wx r y).lcbvl = h.lcbvl := by unfold Hart.wx; split <;> rfl
@[simp] theorem Hart.wx_lcdead (h : Hart) (r : Reg) (y : Word) : (h.wx r y).lcdead = h.lcdead := by unfold Hart.wx; split <;> rfl
@[simp] theorem Hart.wx_lcstall (h : Hart) (r : Reg) (y : Word) : (h.wx r y).lcstall = h.lcstall := by unfold Hart.wx; split <;> rfl
@[simp] theorem Hart.wx_lccyc (h : Hart) (r : Reg) (y : Word) : (h.wx r y).lccyc = h.lccyc := by unfold Hart.wx; split <;> rfl
@[simp] theorem Hart.wx_sctx (h : Hart) (r : Reg) (y : Word) : (h.wx r y).sctx = h.sctx := by unfold Hart.wx; split <;> rfl
@[simp] theorem Hart.wx_sptb (h : Hart) (r : Reg) (y : Word) : (h.wx r y).sptb = h.sptb := by unfold Hart.wx; split <;> rfl
@[simp] theorem Hart.wx_sgrant (h : Hart) (r : Reg) (y : Word) : (h.wx r y).sgrant = h.sgrant := by unfold Hart.wx; split <;> rfl
@[simp] theorem Hart.wx_sprio (h : Hart) (r : Reg) (y : Word) : (h.wx r y).sprio = h.sprio := by unfold Hart.wx; split <;> rfl
@[simp] theorem Hart.wx_sframe (h : Hart) (r : Reg) (y : Word) : (h.wx r y).sframe = h.sframe := by unfold Hart.wx; split <;> rfl
@[simp] theorem Hart.wx_sresume (h : Hart) (r : Reg) (y : Word) : (h.wx r y).sresume = h.sresume := by unfold Hart.wx; split <;> rfl
@[simp] theorem Hart.wx_scocoon (h : Hart) (r : Reg) (y : Word) : (h.wx r y).scocoon = h.scocoon := by unfold Hart.wx; split <;> rfl
@[simp] theorem Hart.wx_shalt (h : Hart) (r : Reg) (y : Word) : (h.wx r y).shalt = h.shalt := by unfold Hart.wx; split <;> rfl
@[simp] theorem Hart.wx_vlcap (h : Hart) (r : Reg) (y : Word) : (h.wx r y).vlcap = h.vlcap := by unfold Hart.wx; split <;> rfl
@[simp] theorem Hart.wx_regions (h : Hart) (r : Reg) (y : Word) : (h.wx r y).regions = h.regions := by unfold Hart.wx; split <;> rfl
@[simp] theorem Hart.wx_handler (h : Hart) (r : Reg) (y : Word) : (h.wx r y).handler = h.handler := by unfold Hart.wx; split <;> rfl
@[simp] theorem Hart.wx_reissue (h : Hart) (r : Reg) (y : Word) : (h.wx r y).reissue = h.reissue := by unfold Hart.wx; split <;> rfl
@[simp] theorem Hart.wx_ahead (h : Hart) (r : Reg) (y : Word) : (h.wx r y).ahead = h.ahead := by unfold Hart.wx; split <;> rfl
@[simp] theorem Hart.wx_viq (h : Hart) (r : Reg) (y : Word) : (h.wx r y).viq = h.viq := by unfold Hart.wx; split <;> rfl
@[simp] theorem Hart.wx_lane (h : Hart) (r : Reg) (y : Word) : (h.wx r y).lane = h.lane := by unfold Hart.wx; split <;> rfl
@[simp] theorem Hart.wx_stores (h : Hart) (r : Reg) (y : Word) : (h.wx r y).stores = h.stores := by unfold Hart.wx; split <;> rfl
@[simp] theorem Hart.wx_status (h : Hart) (r : Reg) (y : Word) : (h.wx r y).status = h.status := by unfold Hart.wx; split <;> rfl
@[simp] theorem Hart.wx_local_ (h : Hart) (r : Reg) (y : Word) : (h.wx r y).local_ = h.local_ := by unfold Hart.wx; split <;> rfl
@[simp] theorem Hart.wx_launch (h : Hart) (r : Reg) (y : Word) : (h.wx r y).launch = h.launch := by unfold Hart.wx; split <;> rfl
@[simp] theorem Hart.wx_ord (h : Hart) (r : Reg) (y : Word) : (h.wx r y).ord = h.ord := by unfold Hart.wx; split <;> rfl
@[simp] theorem Hart.wx_bornAt (h : Hart) (r : Reg) (y : Word) : (h.wx r y).bornAt = h.bornAt := by unfold Hart.wx; split <;> rfl
@[simp] theorem Hart.wx_paged (h : Hart) (r : Reg) (y : Word) : (h.wx r y).paged = h.paged := by unfold Hart.wx; split <;> rfl
@[simp] theorem Hart.wx_noAnswer (h : Hart) (r : Reg) (y : Word) : (h.wx r y).noAnswer = h.noAnswer := by unfold Hart.wx; split <;> rfl
@[simp] theorem Hart.wx_held (h : Hart) (r : Reg) (y : Word) : (h.wx r y).held = h.held := by unfold Hart.wx; split <;> rfl
@[simp] theorem Hart.wx_sent (h : Hart) (r : Reg) (y : Word) : (h.wx r y).sent = h.sent := by unfold Hart.wx; split <;> rfl
@[simp] theorem Hart.wx_asked (h : Hart) (r : Reg) (y : Word) : (h.wx r y).asked = h.asked := by unfold Hart.wx; split <;> rfl
@[simp] theorem Hart.wx_arrivedEp (h : Hart) (r : Reg) (y : Word) : (h.wx r y).arrivedEp = h.arrivedEp := by unfold Hart.wx; split <;> rfl
@[simp] theorem Hart.wx_passed (h : Hart) (r : Reg) (y : Word) : (h.wx r y).passed = h.passed := by unfold Hart.wx; split <;> rfl
@[simp] theorem Hart.wx_pending (h : Hart) (r : Reg) (y : Word) : (h.wx r y).pending = h.pending := by unfold Hart.wx; split <;> rfl
@[simp] theorem Hart.wx_strikes (h : Hart) (r : Reg) (y : Word) : (h.wx r y).strikes = h.strikes := by unfold Hart.wx; split <;> rfl
@[simp] theorem Hart.wx_late (h : Hart) (r : Reg) (y : Word) : (h.wx r y).late = h.late := by unfold Hart.wx; split <;> rfl
@[simp] theorem Hart.wx_words (h : Hart) (r : Reg) (y : Word) : (h.wx r y).words = h.words := by unfold Hart.wx; split <;> rfl
@[simp] theorem Hart.wx_more (h : Hart) (r : Reg) (y : Word) : (h.wx r y).more = h.more := by unfold Hart.wx; split <;> rfl
@[simp] theorem Hart.wx_arrived (h : Hart) (r : Reg) (y : Word) : (h.wx r y).arrived = h.arrived := by unfold Hart.wx; split <;> rfl
@[simp] theorem Hart.wx_slots (h : Hart) (r : Reg) (y : Word) : (h.wx r y).slots = h.slots := by unfold Hart.wx; split <;> rfl
@[simp] theorem Hart.wx_stripAt (h : Hart) (r : Reg) (y : Word) : (h.wx r y).stripAt = h.stripAt := by unfold Hart.wx; split <;> rfl

@[simp] theorem Hart.wv_place (h : Hart) (n : Nat) (y : BitVec 4096) : (h.wv n y).place = h.place := rfl
@[simp] theorem Hart.wv_x (h : Hart) (n : Nat) (y : BitVec 4096) : (h.wv n y).x = h.x := rfl
@[simp] theorem Hart.wv_v (h : Hart) (n : Nat) (y : BitVec 4096) : (h.wv n y).v = h.v.set (reg32 n) y := rfl
@[simp] theorem Hart.wv_tiles (h : Hart) (n : Nat) (y : BitVec 4096) : (h.wv n y).tiles = h.tiles := rfl
@[simp] theorem Hart.wv_q (h : Hart) (n : Nat) (y : BitVec 4096) : (h.wv n y).q = h.q := rfl
@[simp] theorem Hart.wv_scaleA (h : Hart) (n : Nat) (y : BitVec 4096) : (h.wv n y).scaleA = h.scaleA := rfl
@[simp] theorem Hart.wv_scaleB (h : Hart) (n : Nat) (y : BitVec 4096) : (h.wv n y).scaleB = h.scaleB := rfl
@[simp] theorem Hart.wv_pc (h : Hart) (n : Nat) (y : BitVec 4096) : (h.wv n y).pc = h.pc := rfl
@[simp] theorem Hart.wv_vl (h : Hart) (n : Nat) (y : BitVec 4096) : (h.wv n y).vl = h.vl := rfl
@[simp] theorem Hart.wv_vr (h : Hart) (n : Nat) (y : BitVec 4096) : (h.wv n y).vr = h.vr := rfl
@[simp] theorem Hart.wv_vtype (h : Hart) (n : Nat) (y : BitVec 4096) : (h.wv n y).vtype = h.vtype := rfl
@[simp] theorem Hart.wv_vlmax (h : Hart) (n : Nat) (y : BitVec 4096) : (h.wv n y).vlmax = h.vlmax := rfl
@[simp] theorem Hart.wv_vstart (h : Hart) (n : Nat) (y : BitVec 4096) : (h.wv n y).vstart = h.vstart := rfl
@[simp] theorem Hart.wv_vrm (h : Hart) (n : Nat) (y : BitVec 4096) : (h.wv n y).vrm = h.vrm := rfl
@[simp] theorem Hart.wv_vxflags (h : Hart) (n : Nat) (y : BitVec 4096) : (h.wv n y).vxflags = h.vxflags := rfl
@[simp] theorem Hart.wv_vxsel (h : Hart) (n : Nat) (y : BitVec 4096) : (h.wv n y).vxsel = h.vxsel := rfl
@[simp] theorem Hart.wv_sord (h : Hart) (n : Nat) (y : BitVec 4096) : (h.wv n y).sord = h.sord := rfl
@[simp] theorem Hart.wv_sva (h : Hart) (n : Nat) (y : BitVec 4096) : (h.wv n y).sva = h.sva := rfl
@[simp] theorem Hart.wv_lc (h : Hart) (n : Nat) (y : BitVec 4096) : (h.wv n y).lc = h.lc := rfl
@[simp] theorem Hart.wv_lbeg (h : Hart) (n : Nat) (y : BitVec 4096) : (h.wv n y).lbeg = h.lbeg := rfl
@[simp] theorem Hart.wv_lend (h : Hart) (n : Nat) (y : BitVec 4096) : (h.wv n y).lend = h.lend := rfl
@[simp] theorem Hart.wv_pfxs (h : Hart) (n : Nat) (y : BitVec 4096) : (h.wv n y).pfxs = h.pfxs := rfl
@[simp] theorem Hart.wv_dirty (h : Hart) (n : Nat) (y : BitVec 4096) : (h.wv n y).dirty = h.dirty ||| (1#64 <<< (n % 32)) := rfl
@[simp] theorem Hart.wv_lmap (h : Hart) (n : Nat) (y : BitVec 4096) : (h.wv n y).lmap = h.lmap := rfl
@[simp] theorem Hart.wv_coord (h : Hart) (n : Nat) (y : BitVec 4096) : (h.wv n y).coord = h.coord := rfl
@[simp] theorem Hart.wv_stage (h : Hart) (n : Nat) (y : BitVec 4096) : (h.wv n y).stage = h.stage := rfl
@[simp] theorem Hart.wv_rstat (h : Hart) (n : Nat) (y : BitVec 4096) : (h.wv n y).rstat = h.rstat := rfl
@[simp] theorem Hart.wv_discf (h : Hart) (n : Nat) (y : BitVec 4096) : (h.wv n y).discf = h.discf := rfl
@[simp] theorem Hart.wv_tvec (h : Hart) (n : Nat) (y : BitVec 4096) : (h.wv n y).tvec = h.tvec := rfl
@[simp] theorem Hart.wv_tcause (h : Hart) (n : Nat) (y : BitVec 4096) : (h.wv n y).tcause = h.tcause := rfl
@[simp] theorem Hart.wv_tval (h : Hart) (n : Nat) (y : BitVec 4096) : (h.wv n y).tval = h.tval := rfl
@[simp] theorem Hart.wv_tpc (h : Hart) (n : Nat) (y : BitVec 4096) : (h.wv n y).tpc = h.tpc := rfl
@[simp] theorem Hart.wv_tqpos (h : Hart) (n : Nat) (y : BitVec 4096) : (h.wv n y).tqpos = h.tqpos := rfl
@[simp] theorem Hart.wv_tsave (h : Hart) (n : Nat) (y : BitVec 4096) : (h.wv n y).tsave = h.tsave := rfl
@[simp] theorem Hart.wv_vpad (h : Hart) (n : Nat) (y : BitVec 4096) : (h.wv n y).vpad = h.vpad := rfl
@[simp] theorem Hart.wv_lbase (h : Hart) (n : Nat) (y : BitVec 4096) : (h.wv n y).lbase = h.lbase := rfl
@[simp] theorem Hart.wv_lcuse (h : Hart) (n : Nat) (y : BitVec 4096) : (h.wv n y).lcuse = h.lcuse := rfl
@[simp] theorem Hart.wv_lcmask (h : Hart) (n : Nat) (y : BitVec 4096) : (h.wv n y).lcmask = h.lcmask := rfl
@[simp] theorem Hart.wv_lcbvl (h : Hart) (n : Nat) (y : BitVec 4096) : (h.wv n y).lcbvl = h.lcbvl := rfl
@[simp] theorem Hart.wv_lcdead (h : Hart) (n : Nat) (y : BitVec 4096) : (h.wv n y).lcdead = h.lcdead := rfl
@[simp] theorem Hart.wv_lcstall (h : Hart) (n : Nat) (y : BitVec 4096) : (h.wv n y).lcstall = h.lcstall := rfl
@[simp] theorem Hart.wv_lccyc (h : Hart) (n : Nat) (y : BitVec 4096) : (h.wv n y).lccyc = h.lccyc := rfl
@[simp] theorem Hart.wv_sctx (h : Hart) (n : Nat) (y : BitVec 4096) : (h.wv n y).sctx = h.sctx := rfl
@[simp] theorem Hart.wv_sptb (h : Hart) (n : Nat) (y : BitVec 4096) : (h.wv n y).sptb = h.sptb := rfl
@[simp] theorem Hart.wv_sgrant (h : Hart) (n : Nat) (y : BitVec 4096) : (h.wv n y).sgrant = h.sgrant := rfl
@[simp] theorem Hart.wv_sprio (h : Hart) (n : Nat) (y : BitVec 4096) : (h.wv n y).sprio = h.sprio := rfl
@[simp] theorem Hart.wv_sframe (h : Hart) (n : Nat) (y : BitVec 4096) : (h.wv n y).sframe = h.sframe := rfl
@[simp] theorem Hart.wv_sresume (h : Hart) (n : Nat) (y : BitVec 4096) : (h.wv n y).sresume = h.sresume := rfl
@[simp] theorem Hart.wv_scocoon (h : Hart) (n : Nat) (y : BitVec 4096) : (h.wv n y).scocoon = h.scocoon := rfl
@[simp] theorem Hart.wv_shalt (h : Hart) (n : Nat) (y : BitVec 4096) : (h.wv n y).shalt = h.shalt := rfl
@[simp] theorem Hart.wv_vlcap (h : Hart) (n : Nat) (y : BitVec 4096) : (h.wv n y).vlcap = h.vlcap := rfl
@[simp] theorem Hart.wv_regions (h : Hart) (n : Nat) (y : BitVec 4096) : (h.wv n y).regions = h.regions := rfl
@[simp] theorem Hart.wv_handler (h : Hart) (n : Nat) (y : BitVec 4096) : (h.wv n y).handler = h.handler := rfl
@[simp] theorem Hart.wv_reissue (h : Hart) (n : Nat) (y : BitVec 4096) : (h.wv n y).reissue = h.reissue := rfl
@[simp] theorem Hart.wv_ahead (h : Hart) (n : Nat) (y : BitVec 4096) : (h.wv n y).ahead = h.ahead := rfl
@[simp] theorem Hart.wv_viq (h : Hart) (n : Nat) (y : BitVec 4096) : (h.wv n y).viq = h.viq := rfl
@[simp] theorem Hart.wv_lane (h : Hart) (n : Nat) (y : BitVec 4096) : (h.wv n y).lane = h.lane := rfl
@[simp] theorem Hart.wv_stores (h : Hart) (n : Nat) (y : BitVec 4096) : (h.wv n y).stores = h.stores := rfl
@[simp] theorem Hart.wv_status (h : Hart) (n : Nat) (y : BitVec 4096) : (h.wv n y).status = h.status := rfl
@[simp] theorem Hart.wv_local_ (h : Hart) (n : Nat) (y : BitVec 4096) : (h.wv n y).local_ = h.local_ := rfl
@[simp] theorem Hart.wv_launch (h : Hart) (n : Nat) (y : BitVec 4096) : (h.wv n y).launch = h.launch := rfl
@[simp] theorem Hart.wv_ord (h : Hart) (n : Nat) (y : BitVec 4096) : (h.wv n y).ord = h.ord := rfl
@[simp] theorem Hart.wv_bornAt (h : Hart) (n : Nat) (y : BitVec 4096) : (h.wv n y).bornAt = h.bornAt := rfl
@[simp] theorem Hart.wv_paged (h : Hart) (n : Nat) (y : BitVec 4096) : (h.wv n y).paged = h.paged := rfl
@[simp] theorem Hart.wv_noAnswer (h : Hart) (n : Nat) (y : BitVec 4096) : (h.wv n y).noAnswer = h.noAnswer := rfl
@[simp] theorem Hart.wv_held (h : Hart) (n : Nat) (y : BitVec 4096) : (h.wv n y).held = h.held := rfl
@[simp] theorem Hart.wv_sent (h : Hart) (n : Nat) (y : BitVec 4096) : (h.wv n y).sent = h.sent := rfl
@[simp] theorem Hart.wv_asked (h : Hart) (n : Nat) (y : BitVec 4096) : (h.wv n y).asked = h.asked := rfl
@[simp] theorem Hart.wv_arrivedEp (h : Hart) (n : Nat) (y : BitVec 4096) : (h.wv n y).arrivedEp = h.arrivedEp := rfl
@[simp] theorem Hart.wv_passed (h : Hart) (n : Nat) (y : BitVec 4096) : (h.wv n y).passed = h.passed := rfl
@[simp] theorem Hart.wv_pending (h : Hart) (n : Nat) (y : BitVec 4096) : (h.wv n y).pending = h.pending := rfl
@[simp] theorem Hart.wv_strikes (h : Hart) (n : Nat) (y : BitVec 4096) : (h.wv n y).strikes = h.strikes := rfl
@[simp] theorem Hart.wv_late (h : Hart) (n : Nat) (y : BitVec 4096) : (h.wv n y).late = h.late := rfl
@[simp] theorem Hart.wv_words (h : Hart) (n : Nat) (y : BitVec 4096) : (h.wv n y).words = h.words := rfl
@[simp] theorem Hart.wv_more (h : Hart) (n : Nat) (y : BitVec 4096) : (h.wv n y).more = h.more := rfl
@[simp] theorem Hart.wv_arrived (h : Hart) (n : Nat) (y : BitVec 4096) : (h.wv n y).arrived = h.arrived := rfl
@[simp] theorem Hart.wv_slots (h : Hart) (n : Nat) (y : BitVec 4096) : (h.wv n y).slots = h.slots := rfl
@[simp] theorem Hart.wv_stripAt (h : Hart) (n : Nat) (y : BitVec 4096) : (h.wv n y).stripAt = h.stripAt := rfl

@[simp] theorem Hart.raise_place (h : Hart) (fl : Nat) : (h.raise fl).place = h.place := rfl
@[simp] theorem Hart.raise_x (h : Hart) (fl : Nat) : (h.raise fl).x = h.x := rfl
@[simp] theorem Hart.raise_v (h : Hart) (fl : Nat) : (h.raise fl).v = h.v := rfl
@[simp] theorem Hart.raise_tiles (h : Hart) (fl : Nat) : (h.raise fl).tiles = h.tiles := rfl
@[simp] theorem Hart.raise_q (h : Hart) (fl : Nat) : (h.raise fl).q = h.q := rfl
@[simp] theorem Hart.raise_scaleA (h : Hart) (fl : Nat) : (h.raise fl).scaleA = h.scaleA := rfl
@[simp] theorem Hart.raise_scaleB (h : Hart) (fl : Nat) : (h.raise fl).scaleB = h.scaleB := rfl
@[simp] theorem Hart.raise_pc (h : Hart) (fl : Nat) : (h.raise fl).pc = h.pc := rfl
@[simp] theorem Hart.raise_vl (h : Hart) (fl : Nat) : (h.raise fl).vl = h.vl := rfl
@[simp] theorem Hart.raise_vr (h : Hart) (fl : Nat) : (h.raise fl).vr = h.vr := rfl
@[simp] theorem Hart.raise_vtype (h : Hart) (fl : Nat) : (h.raise fl).vtype = h.vtype := rfl
@[simp] theorem Hart.raise_vlmax (h : Hart) (fl : Nat) : (h.raise fl).vlmax = h.vlmax := rfl
@[simp] theorem Hart.raise_vstart (h : Hart) (fl : Nat) : (h.raise fl).vstart = h.vstart := rfl
@[simp] theorem Hart.raise_vrm (h : Hart) (fl : Nat) : (h.raise fl).vrm = h.vrm := rfl
@[simp] theorem Hart.raise_vxflags (h : Hart) (fl : Nat) : (h.raise fl).vxflags = h.vxflags ||| BitVec.ofNat 64 fl := rfl
@[simp] theorem Hart.raise_vxsel (h : Hart) (fl : Nat) : (h.raise fl).vxsel = h.vxsel := rfl
@[simp] theorem Hart.raise_sord (h : Hart) (fl : Nat) : (h.raise fl).sord = h.sord := rfl
@[simp] theorem Hart.raise_sva (h : Hart) (fl : Nat) : (h.raise fl).sva = h.sva := rfl
@[simp] theorem Hart.raise_lc (h : Hart) (fl : Nat) : (h.raise fl).lc = h.lc := rfl
@[simp] theorem Hart.raise_lbeg (h : Hart) (fl : Nat) : (h.raise fl).lbeg = h.lbeg := rfl
@[simp] theorem Hart.raise_lend (h : Hart) (fl : Nat) : (h.raise fl).lend = h.lend := rfl
@[simp] theorem Hart.raise_pfxs (h : Hart) (fl : Nat) : (h.raise fl).pfxs = h.pfxs := rfl
@[simp] theorem Hart.raise_dirty (h : Hart) (fl : Nat) : (h.raise fl).dirty = h.dirty := rfl
@[simp] theorem Hart.raise_lmap (h : Hart) (fl : Nat) : (h.raise fl).lmap = h.lmap := rfl
@[simp] theorem Hart.raise_coord (h : Hart) (fl : Nat) : (h.raise fl).coord = h.coord := rfl
@[simp] theorem Hart.raise_stage (h : Hart) (fl : Nat) : (h.raise fl).stage = h.stage := rfl
@[simp] theorem Hart.raise_rstat (h : Hart) (fl : Nat) : (h.raise fl).rstat = h.rstat := rfl
@[simp] theorem Hart.raise_discf (h : Hart) (fl : Nat) : (h.raise fl).discf = h.discf := rfl
@[simp] theorem Hart.raise_tvec (h : Hart) (fl : Nat) : (h.raise fl).tvec = h.tvec := rfl
@[simp] theorem Hart.raise_tcause (h : Hart) (fl : Nat) : (h.raise fl).tcause = h.tcause := rfl
@[simp] theorem Hart.raise_tval (h : Hart) (fl : Nat) : (h.raise fl).tval = h.tval := rfl
@[simp] theorem Hart.raise_tpc (h : Hart) (fl : Nat) : (h.raise fl).tpc = h.tpc := rfl
@[simp] theorem Hart.raise_tqpos (h : Hart) (fl : Nat) : (h.raise fl).tqpos = h.tqpos := rfl
@[simp] theorem Hart.raise_tsave (h : Hart) (fl : Nat) : (h.raise fl).tsave = h.tsave := rfl
@[simp] theorem Hart.raise_vpad (h : Hart) (fl : Nat) : (h.raise fl).vpad = h.vpad := rfl
@[simp] theorem Hart.raise_lbase (h : Hart) (fl : Nat) : (h.raise fl).lbase = h.lbase := rfl
@[simp] theorem Hart.raise_lcuse (h : Hart) (fl : Nat) : (h.raise fl).lcuse = h.lcuse := rfl
@[simp] theorem Hart.raise_lcmask (h : Hart) (fl : Nat) : (h.raise fl).lcmask = h.lcmask := rfl
@[simp] theorem Hart.raise_lcbvl (h : Hart) (fl : Nat) : (h.raise fl).lcbvl = h.lcbvl := rfl
@[simp] theorem Hart.raise_lcdead (h : Hart) (fl : Nat) : (h.raise fl).lcdead = h.lcdead := rfl
@[simp] theorem Hart.raise_lcstall (h : Hart) (fl : Nat) : (h.raise fl).lcstall = h.lcstall := rfl
@[simp] theorem Hart.raise_lccyc (h : Hart) (fl : Nat) : (h.raise fl).lccyc = h.lccyc := rfl
@[simp] theorem Hart.raise_sctx (h : Hart) (fl : Nat) : (h.raise fl).sctx = h.sctx := rfl
@[simp] theorem Hart.raise_sptb (h : Hart) (fl : Nat) : (h.raise fl).sptb = h.sptb := rfl
@[simp] theorem Hart.raise_sgrant (h : Hart) (fl : Nat) : (h.raise fl).sgrant = h.sgrant := rfl
@[simp] theorem Hart.raise_sprio (h : Hart) (fl : Nat) : (h.raise fl).sprio = h.sprio := rfl
@[simp] theorem Hart.raise_sframe (h : Hart) (fl : Nat) : (h.raise fl).sframe = h.sframe := rfl
@[simp] theorem Hart.raise_sresume (h : Hart) (fl : Nat) : (h.raise fl).sresume = h.sresume := rfl
@[simp] theorem Hart.raise_scocoon (h : Hart) (fl : Nat) : (h.raise fl).scocoon = h.scocoon := rfl
@[simp] theorem Hart.raise_shalt (h : Hart) (fl : Nat) : (h.raise fl).shalt = h.shalt := rfl
@[simp] theorem Hart.raise_vlcap (h : Hart) (fl : Nat) : (h.raise fl).vlcap = h.vlcap := rfl
@[simp] theorem Hart.raise_regions (h : Hart) (fl : Nat) : (h.raise fl).regions = h.regions := rfl
@[simp] theorem Hart.raise_handler (h : Hart) (fl : Nat) : (h.raise fl).handler = h.handler := rfl
@[simp] theorem Hart.raise_reissue (h : Hart) (fl : Nat) : (h.raise fl).reissue = h.reissue := rfl
@[simp] theorem Hart.raise_ahead (h : Hart) (fl : Nat) : (h.raise fl).ahead = h.ahead := rfl
@[simp] theorem Hart.raise_viq (h : Hart) (fl : Nat) : (h.raise fl).viq = h.viq := rfl
@[simp] theorem Hart.raise_lane (h : Hart) (fl : Nat) : (h.raise fl).lane = h.lane := rfl
@[simp] theorem Hart.raise_stores (h : Hart) (fl : Nat) : (h.raise fl).stores = h.stores := rfl
@[simp] theorem Hart.raise_status (h : Hart) (fl : Nat) : (h.raise fl).status = h.status := rfl
@[simp] theorem Hart.raise_local_ (h : Hart) (fl : Nat) : (h.raise fl).local_ = h.local_ := rfl
@[simp] theorem Hart.raise_launch (h : Hart) (fl : Nat) : (h.raise fl).launch = h.launch := rfl
@[simp] theorem Hart.raise_ord (h : Hart) (fl : Nat) : (h.raise fl).ord = h.ord := rfl
@[simp] theorem Hart.raise_bornAt (h : Hart) (fl : Nat) : (h.raise fl).bornAt = h.bornAt := rfl
@[simp] theorem Hart.raise_paged (h : Hart) (fl : Nat) : (h.raise fl).paged = h.paged := rfl
@[simp] theorem Hart.raise_noAnswer (h : Hart) (fl : Nat) : (h.raise fl).noAnswer = h.noAnswer := rfl
@[simp] theorem Hart.raise_held (h : Hart) (fl : Nat) : (h.raise fl).held = h.held := rfl
@[simp] theorem Hart.raise_sent (h : Hart) (fl : Nat) : (h.raise fl).sent = h.sent := rfl
@[simp] theorem Hart.raise_asked (h : Hart) (fl : Nat) : (h.raise fl).asked = h.asked := rfl
@[simp] theorem Hart.raise_arrivedEp (h : Hart) (fl : Nat) : (h.raise fl).arrivedEp = h.arrivedEp := rfl
@[simp] theorem Hart.raise_passed (h : Hart) (fl : Nat) : (h.raise fl).passed = h.passed := rfl
@[simp] theorem Hart.raise_pending (h : Hart) (fl : Nat) : (h.raise fl).pending = h.pending := rfl
@[simp] theorem Hart.raise_strikes (h : Hart) (fl : Nat) : (h.raise fl).strikes = h.strikes := rfl
@[simp] theorem Hart.raise_late (h : Hart) (fl : Nat) : (h.raise fl).late = h.late := rfl
@[simp] theorem Hart.raise_words (h : Hart) (fl : Nat) : (h.raise fl).words = h.words := rfl
@[simp] theorem Hart.raise_more (h : Hart) (fl : Nat) : (h.raise fl).more = h.more := rfl
@[simp] theorem Hart.raise_arrived (h : Hart) (fl : Nat) : (h.raise fl).arrived = h.arrived := rfl
@[simp] theorem Hart.raise_slots (h : Hart) (fl : Nat) : (h.raise fl).slots = h.slots := rfl
@[simp] theorem Hart.raise_stripAt (h : Hart) (fl : Nat) : (h.raise fl).stripAt = h.stripAt := rfl

@[simp] theorem Hart.wq_place (h : Hart) (n : Nat) (y : QReg) : (h.wq n y).place = h.place := rfl
@[simp] theorem Hart.wq_x (h : Hart) (n : Nat) (y : QReg) : (h.wq n y).x = h.x := rfl
@[simp] theorem Hart.wq_v (h : Hart) (n : Nat) (y : QReg) : (h.wq n y).v = h.v := rfl
@[simp] theorem Hart.wq_tiles (h : Hart) (n : Nat) (y : QReg) : (h.wq n y).tiles = h.tiles := rfl
@[simp] theorem Hart.wq_q (h : Hart) (n : Nat) (y : QReg) : (h.wq n y).q = h.q.set (reg8 n) y := rfl
@[simp] theorem Hart.wq_scaleA (h : Hart) (n : Nat) (y : QReg) : (h.wq n y).scaleA = h.scaleA := rfl
@[simp] theorem Hart.wq_scaleB (h : Hart) (n : Nat) (y : QReg) : (h.wq n y).scaleB = h.scaleB := rfl
@[simp] theorem Hart.wq_pc (h : Hart) (n : Nat) (y : QReg) : (h.wq n y).pc = h.pc := rfl
@[simp] theorem Hart.wq_vl (h : Hart) (n : Nat) (y : QReg) : (h.wq n y).vl = h.vl := rfl
@[simp] theorem Hart.wq_vr (h : Hart) (n : Nat) (y : QReg) : (h.wq n y).vr = h.vr := rfl
@[simp] theorem Hart.wq_vtype (h : Hart) (n : Nat) (y : QReg) : (h.wq n y).vtype = h.vtype := rfl
@[simp] theorem Hart.wq_vlmax (h : Hart) (n : Nat) (y : QReg) : (h.wq n y).vlmax = h.vlmax := rfl
@[simp] theorem Hart.wq_vstart (h : Hart) (n : Nat) (y : QReg) : (h.wq n y).vstart = h.vstart := rfl
@[simp] theorem Hart.wq_vrm (h : Hart) (n : Nat) (y : QReg) : (h.wq n y).vrm = h.vrm := rfl
@[simp] theorem Hart.wq_vxflags (h : Hart) (n : Nat) (y : QReg) : (h.wq n y).vxflags = h.vxflags := rfl
@[simp] theorem Hart.wq_vxsel (h : Hart) (n : Nat) (y : QReg) : (h.wq n y).vxsel = h.vxsel := rfl
@[simp] theorem Hart.wq_sord (h : Hart) (n : Nat) (y : QReg) : (h.wq n y).sord = h.sord := rfl
@[simp] theorem Hart.wq_sva (h : Hart) (n : Nat) (y : QReg) : (h.wq n y).sva = h.sva := rfl
@[simp] theorem Hart.wq_lc (h : Hart) (n : Nat) (y : QReg) : (h.wq n y).lc = h.lc := rfl
@[simp] theorem Hart.wq_lbeg (h : Hart) (n : Nat) (y : QReg) : (h.wq n y).lbeg = h.lbeg := rfl
@[simp] theorem Hart.wq_lend (h : Hart) (n : Nat) (y : QReg) : (h.wq n y).lend = h.lend := rfl
@[simp] theorem Hart.wq_pfxs (h : Hart) (n : Nat) (y : QReg) : (h.wq n y).pfxs = h.pfxs := rfl
@[simp] theorem Hart.wq_dirty (h : Hart) (n : Nat) (y : QReg) : (h.wq n y).dirty = h.dirty := rfl
@[simp] theorem Hart.wq_lmap (h : Hart) (n : Nat) (y : QReg) : (h.wq n y).lmap = h.lmap := rfl
@[simp] theorem Hart.wq_coord (h : Hart) (n : Nat) (y : QReg) : (h.wq n y).coord = h.coord := rfl
@[simp] theorem Hart.wq_stage (h : Hart) (n : Nat) (y : QReg) : (h.wq n y).stage = h.stage := rfl
@[simp] theorem Hart.wq_rstat (h : Hart) (n : Nat) (y : QReg) : (h.wq n y).rstat = h.rstat := rfl
@[simp] theorem Hart.wq_discf (h : Hart) (n : Nat) (y : QReg) : (h.wq n y).discf = h.discf := rfl
@[simp] theorem Hart.wq_tvec (h : Hart) (n : Nat) (y : QReg) : (h.wq n y).tvec = h.tvec := rfl
@[simp] theorem Hart.wq_tcause (h : Hart) (n : Nat) (y : QReg) : (h.wq n y).tcause = h.tcause := rfl
@[simp] theorem Hart.wq_tval (h : Hart) (n : Nat) (y : QReg) : (h.wq n y).tval = h.tval := rfl
@[simp] theorem Hart.wq_tpc (h : Hart) (n : Nat) (y : QReg) : (h.wq n y).tpc = h.tpc := rfl
@[simp] theorem Hart.wq_tqpos (h : Hart) (n : Nat) (y : QReg) : (h.wq n y).tqpos = h.tqpos := rfl
@[simp] theorem Hart.wq_tsave (h : Hart) (n : Nat) (y : QReg) : (h.wq n y).tsave = h.tsave := rfl
@[simp] theorem Hart.wq_vpad (h : Hart) (n : Nat) (y : QReg) : (h.wq n y).vpad = h.vpad := rfl
@[simp] theorem Hart.wq_lbase (h : Hart) (n : Nat) (y : QReg) : (h.wq n y).lbase = h.lbase := rfl
@[simp] theorem Hart.wq_lcuse (h : Hart) (n : Nat) (y : QReg) : (h.wq n y).lcuse = h.lcuse := rfl
@[simp] theorem Hart.wq_lcmask (h : Hart) (n : Nat) (y : QReg) : (h.wq n y).lcmask = h.lcmask := rfl
@[simp] theorem Hart.wq_lcbvl (h : Hart) (n : Nat) (y : QReg) : (h.wq n y).lcbvl = h.lcbvl := rfl
@[simp] theorem Hart.wq_lcdead (h : Hart) (n : Nat) (y : QReg) : (h.wq n y).lcdead = h.lcdead := rfl
@[simp] theorem Hart.wq_lcstall (h : Hart) (n : Nat) (y : QReg) : (h.wq n y).lcstall = h.lcstall := rfl
@[simp] theorem Hart.wq_lccyc (h : Hart) (n : Nat) (y : QReg) : (h.wq n y).lccyc = h.lccyc := rfl
@[simp] theorem Hart.wq_sctx (h : Hart) (n : Nat) (y : QReg) : (h.wq n y).sctx = h.sctx := rfl
@[simp] theorem Hart.wq_sptb (h : Hart) (n : Nat) (y : QReg) : (h.wq n y).sptb = h.sptb := rfl
@[simp] theorem Hart.wq_sgrant (h : Hart) (n : Nat) (y : QReg) : (h.wq n y).sgrant = h.sgrant := rfl
@[simp] theorem Hart.wq_sprio (h : Hart) (n : Nat) (y : QReg) : (h.wq n y).sprio = h.sprio := rfl
@[simp] theorem Hart.wq_sframe (h : Hart) (n : Nat) (y : QReg) : (h.wq n y).sframe = h.sframe := rfl
@[simp] theorem Hart.wq_sresume (h : Hart) (n : Nat) (y : QReg) : (h.wq n y).sresume = h.sresume := rfl
@[simp] theorem Hart.wq_scocoon (h : Hart) (n : Nat) (y : QReg) : (h.wq n y).scocoon = h.scocoon := rfl
@[simp] theorem Hart.wq_shalt (h : Hart) (n : Nat) (y : QReg) : (h.wq n y).shalt = h.shalt := rfl
@[simp] theorem Hart.wq_vlcap (h : Hart) (n : Nat) (y : QReg) : (h.wq n y).vlcap = h.vlcap := rfl
@[simp] theorem Hart.wq_regions (h : Hart) (n : Nat) (y : QReg) : (h.wq n y).regions = h.regions := rfl
@[simp] theorem Hart.wq_handler (h : Hart) (n : Nat) (y : QReg) : (h.wq n y).handler = h.handler := rfl
@[simp] theorem Hart.wq_reissue (h : Hart) (n : Nat) (y : QReg) : (h.wq n y).reissue = h.reissue := rfl
@[simp] theorem Hart.wq_ahead (h : Hart) (n : Nat) (y : QReg) : (h.wq n y).ahead = h.ahead := rfl
@[simp] theorem Hart.wq_viq (h : Hart) (n : Nat) (y : QReg) : (h.wq n y).viq = h.viq := rfl
@[simp] theorem Hart.wq_lane (h : Hart) (n : Nat) (y : QReg) : (h.wq n y).lane = h.lane := rfl
@[simp] theorem Hart.wq_stores (h : Hart) (n : Nat) (y : QReg) : (h.wq n y).stores = h.stores := rfl
@[simp] theorem Hart.wq_status (h : Hart) (n : Nat) (y : QReg) : (h.wq n y).status = h.status := rfl
@[simp] theorem Hart.wq_local_ (h : Hart) (n : Nat) (y : QReg) : (h.wq n y).local_ = h.local_ := rfl
@[simp] theorem Hart.wq_launch (h : Hart) (n : Nat) (y : QReg) : (h.wq n y).launch = h.launch := rfl
@[simp] theorem Hart.wq_ord (h : Hart) (n : Nat) (y : QReg) : (h.wq n y).ord = h.ord := rfl
@[simp] theorem Hart.wq_bornAt (h : Hart) (n : Nat) (y : QReg) : (h.wq n y).bornAt = h.bornAt := rfl
@[simp] theorem Hart.wq_paged (h : Hart) (n : Nat) (y : QReg) : (h.wq n y).paged = h.paged := rfl
@[simp] theorem Hart.wq_noAnswer (h : Hart) (n : Nat) (y : QReg) : (h.wq n y).noAnswer = h.noAnswer := rfl
@[simp] theorem Hart.wq_held (h : Hart) (n : Nat) (y : QReg) : (h.wq n y).held = h.held := rfl
@[simp] theorem Hart.wq_sent (h : Hart) (n : Nat) (y : QReg) : (h.wq n y).sent = h.sent := rfl
@[simp] theorem Hart.wq_asked (h : Hart) (n : Nat) (y : QReg) : (h.wq n y).asked = h.asked := rfl
@[simp] theorem Hart.wq_arrivedEp (h : Hart) (n : Nat) (y : QReg) : (h.wq n y).arrivedEp = h.arrivedEp := rfl
@[simp] theorem Hart.wq_passed (h : Hart) (n : Nat) (y : QReg) : (h.wq n y).passed = h.passed := rfl
@[simp] theorem Hart.wq_pending (h : Hart) (n : Nat) (y : QReg) : (h.wq n y).pending = h.pending := rfl
@[simp] theorem Hart.wq_strikes (h : Hart) (n : Nat) (y : QReg) : (h.wq n y).strikes = h.strikes := rfl
@[simp] theorem Hart.wq_late (h : Hart) (n : Nat) (y : QReg) : (h.wq n y).late = h.late := rfl
@[simp] theorem Hart.wq_words (h : Hart) (n : Nat) (y : QReg) : (h.wq n y).words = h.words := rfl
@[simp] theorem Hart.wq_more (h : Hart) (n : Nat) (y : QReg) : (h.wq n y).more = h.more := rfl
@[simp] theorem Hart.wq_arrived (h : Hart) (n : Nat) (y : QReg) : (h.wq n y).arrived = h.arrived := rfl
@[simp] theorem Hart.wq_slots (h : Hart) (n : Nat) (y : QReg) : (h.wq n y).slots = h.slots := rfl
@[simp] theorem Hart.wq_stripAt (h : Hart) (n : Nat) (y : QReg) : (h.wq n y).stripAt = h.stripAt := rfl

@[simp] theorem Hart.retire_place (h : Hart)  : (h.retire ).place = h.place := rfl
@[simp] theorem Hart.retire_x (h : Hart)  : (h.retire ).x = h.x := rfl
@[simp] theorem Hart.retire_v (h : Hart)  : (h.retire ).v = h.v := rfl
@[simp] theorem Hart.retire_tiles (h : Hart)  : (h.retire ).tiles = h.tiles := rfl
@[simp] theorem Hart.retire_q (h : Hart)  : (h.retire ).q = h.q := rfl
@[simp] theorem Hart.retire_scaleA (h : Hart)  : (h.retire ).scaleA = h.scaleA := rfl
@[simp] theorem Hart.retire_scaleB (h : Hart)  : (h.retire ).scaleB = h.scaleB := rfl
@[simp] theorem Hart.retire_pc (h : Hart)  : (h.retire ).pc = h.pc := rfl
@[simp] theorem Hart.retire_vl (h : Hart)  : (h.retire ).vl = h.vl := rfl
@[simp] theorem Hart.retire_vr (h : Hart)  : (h.retire ).vr = h.vr := rfl
@[simp] theorem Hart.retire_vtype (h : Hart)  : (h.retire ).vtype = h.vtype := rfl
@[simp] theorem Hart.retire_vlmax (h : Hart)  : (h.retire ).vlmax = h.vlmax := rfl
@[simp] theorem Hart.retire_vstart (h : Hart)  : (h.retire ).vstart = h.vstart := rfl
@[simp] theorem Hart.retire_vrm (h : Hart)  : (h.retire ).vrm = h.vrm := rfl
@[simp] theorem Hart.retire_vxflags (h : Hart)  : (h.retire ).vxflags = h.vxflags := rfl
@[simp] theorem Hart.retire_vxsel (h : Hart)  : (h.retire ).vxsel = h.vxsel := rfl
@[simp] theorem Hart.retire_sord (h : Hart)  : (h.retire ).sord = h.sord := rfl
@[simp] theorem Hart.retire_sva (h : Hart)  : (h.retire ).sva = h.sva := rfl
@[simp] theorem Hart.retire_lc (h : Hart)  : (h.retire ).lc = h.lc := rfl
@[simp] theorem Hart.retire_lbeg (h : Hart)  : (h.retire ).lbeg = h.lbeg := rfl
@[simp] theorem Hart.retire_lend (h : Hart)  : (h.retire ).lend = h.lend := rfl
@[simp] theorem Hart.retire_pfxs (h : Hart)  : (h.retire ).pfxs = 0 := rfl
@[simp] theorem Hart.retire_dirty (h : Hart)  : (h.retire ).dirty = h.dirty := rfl
@[simp] theorem Hart.retire_lmap (h : Hart)  : (h.retire ).lmap = h.lmap := rfl
@[simp] theorem Hart.retire_coord (h : Hart)  : (h.retire ).coord = h.coord := rfl
@[simp] theorem Hart.retire_stage (h : Hart)  : (h.retire ).stage = h.stage := rfl
@[simp] theorem Hart.retire_rstat (h : Hart)  : (h.retire ).rstat = h.rstat := rfl
@[simp] theorem Hart.retire_discf (h : Hart)  : (h.retire ).discf = h.discf := rfl
@[simp] theorem Hart.retire_tvec (h : Hart)  : (h.retire ).tvec = h.tvec := rfl
@[simp] theorem Hart.retire_tcause (h : Hart)  : (h.retire ).tcause = h.tcause := rfl
@[simp] theorem Hart.retire_tval (h : Hart)  : (h.retire ).tval = h.tval := rfl
@[simp] theorem Hart.retire_tpc (h : Hart)  : (h.retire ).tpc = h.tpc := rfl
@[simp] theorem Hart.retire_tqpos (h : Hart)  : (h.retire ).tqpos = h.tqpos := rfl
@[simp] theorem Hart.retire_tsave (h : Hart)  : (h.retire ).tsave = h.tsave := rfl
@[simp] theorem Hart.retire_vpad (h : Hart)  : (h.retire ).vpad = h.vpad := rfl
@[simp] theorem Hart.retire_lbase (h : Hart)  : (h.retire ).lbase = h.lbase := rfl
@[simp] theorem Hart.retire_lcuse (h : Hart)  : (h.retire ).lcuse = h.lcuse := rfl
@[simp] theorem Hart.retire_lcmask (h : Hart)  : (h.retire ).lcmask = h.lcmask := rfl
@[simp] theorem Hart.retire_lcbvl (h : Hart)  : (h.retire ).lcbvl = h.lcbvl := rfl
@[simp] theorem Hart.retire_lcdead (h : Hart)  : (h.retire ).lcdead = h.lcdead := rfl
@[simp] theorem Hart.retire_lcstall (h : Hart)  : (h.retire ).lcstall = h.lcstall := rfl
@[simp] theorem Hart.retire_lccyc (h : Hart)  : (h.retire ).lccyc = h.lccyc := rfl
@[simp] theorem Hart.retire_sctx (h : Hart)  : (h.retire ).sctx = h.sctx := rfl
@[simp] theorem Hart.retire_sptb (h : Hart)  : (h.retire ).sptb = h.sptb := rfl
@[simp] theorem Hart.retire_sgrant (h : Hart)  : (h.retire ).sgrant = h.sgrant := rfl
@[simp] theorem Hart.retire_sprio (h : Hart)  : (h.retire ).sprio = h.sprio := rfl
@[simp] theorem Hart.retire_sframe (h : Hart)  : (h.retire ).sframe = h.sframe := rfl
@[simp] theorem Hart.retire_sresume (h : Hart)  : (h.retire ).sresume = h.sresume := rfl
@[simp] theorem Hart.retire_scocoon (h : Hart)  : (h.retire ).scocoon = h.scocoon := rfl
@[simp] theorem Hart.retire_shalt (h : Hart)  : (h.retire ).shalt = h.shalt := rfl
@[simp] theorem Hart.retire_vlcap (h : Hart)  : (h.retire ).vlcap = h.vlcap := rfl
@[simp] theorem Hart.retire_regions (h : Hart)  : (h.retire ).regions = h.regions := rfl
@[simp] theorem Hart.retire_handler (h : Hart)  : (h.retire ).handler = h.handler := rfl
@[simp] theorem Hart.retire_reissue (h : Hart)  : (h.retire ).reissue = none := rfl
@[simp] theorem Hart.retire_ahead (h : Hart)  : (h.retire ).ahead = h.ahead := rfl
/-- An instruction outside lane mode ends at the next address in sequence, or, when it came from the VIQ, where the AP stood (R32, R115). -/
theorem Hart.advance_next {h : Hart} (hl : h.lane = none) (ha : h.ahead = none) : h.advance = h.retire.nextPc := by
  simp [Hart.advance, hl, ha]
theorem Hart.advance_entry {h : Hart} {a : ApPoint} (hl : h.lane = none) (ha : h.ahead = some a) :
    h.advance = { h.retire with pc := a.pc, pfxs := a.pfxs, ahead := none, passed := h.passed } := by
  simp [Hart.advance, hl, ha]
@[simp] theorem Hart.retire_viq (h : Hart)  : (h.retire ).viq = h.viq := rfl
@[simp] theorem Hart.retire_lane (h : Hart)  : (h.retire ).lane = h.lane := rfl
@[simp] theorem Hart.retire_stores (h : Hart)  : (h.retire ).stores = h.stores := rfl
@[simp] theorem Hart.retire_status (h : Hart)  : (h.retire ).status = h.status := rfl
@[simp] theorem Hart.retire_local_ (h : Hart)  : (h.retire ).local_ = h.local_ := rfl
@[simp] theorem Hart.retire_launch (h : Hart)  : (h.retire ).launch = h.launch := rfl
@[simp] theorem Hart.retire_ord (h : Hart)  : (h.retire ).ord = h.ord := rfl
@[simp] theorem Hart.retire_bornAt (h : Hart)  : (h.retire ).bornAt = h.bornAt := rfl
@[simp] theorem Hart.retire_paged (h : Hart)  : (h.retire ).paged = [] := rfl
@[simp] theorem Hart.retire_noAnswer (h : Hart)  : (h.retire ).noAnswer = none := rfl
@[simp] theorem Hart.retire_held (h : Hart)  : (h.retire ).held = h.held := rfl
@[simp] theorem Hart.retire_sent (h : Hart)  : (h.retire ).sent = h.sent := rfl
@[simp] theorem Hart.retire_asked (h : Hart)  : (h.retire ).asked = none := rfl
@[simp] theorem Hart.retire_arrived (h : Hart)  : (h.retire ).arrived = none := rfl
@[simp] theorem Hart.retire_arrivedEp (h : Hart)  : (h.retire ).arrivedEp = h.arrivedEp := rfl
@[simp] theorem Hart.retire_passed (h : Hart)  : (h.retire ).passed = [] := rfl
@[simp] theorem Hart.retire_pending (h : Hart)  : (h.retire ).pending = h.pending := rfl
@[simp] theorem Hart.retire_strikes (h : Hart)  : (h.retire ).strikes = [] := rfl
@[simp] theorem Hart.retire_late (h : Hart)  : (h.retire ).late = h.late := rfl
@[simp] theorem Hart.retire_words (h : Hart)  : (h.retire ).words = h.words := rfl
@[simp] theorem Hart.retire_more (h : Hart)  : (h.retire ).more = h.more := rfl
@[simp] theorem Hart.retire_slots (h : Hart)  : (h.retire ).slots = h.slots := rfl
@[simp] theorem Hart.retire_stripAt (h : Hart)  : (h.retire ).stripAt = h.stripAt := rfl

@[simp] theorem Hart.disarm_place (h : Hart)  : (h.disarm ).place = h.place := rfl
@[simp] theorem Hart.disarm_x (h : Hart)  : (h.disarm ).x = h.x := rfl
@[simp] theorem Hart.disarm_v (h : Hart)  : (h.disarm ).v = h.v := rfl
@[simp] theorem Hart.disarm_tiles (h : Hart)  : (h.disarm ).tiles = h.tiles := rfl
@[simp] theorem Hart.disarm_q (h : Hart)  : (h.disarm ).q = h.q := rfl
@[simp] theorem Hart.disarm_scaleA (h : Hart)  : (h.disarm ).scaleA = h.scaleA := rfl
@[simp] theorem Hart.disarm_scaleB (h : Hart)  : (h.disarm ).scaleB = h.scaleB := rfl
@[simp] theorem Hart.disarm_pc (h : Hart)  : (h.disarm ).pc = h.pc := rfl
@[simp] theorem Hart.disarm_vl (h : Hart)  : (h.disarm ).vl = h.vl := rfl
@[simp] theorem Hart.disarm_vr (h : Hart)  : (h.disarm ).vr = h.vr := rfl
@[simp] theorem Hart.disarm_vtype (h : Hart)  : (h.disarm ).vtype = h.vtype := rfl
@[simp] theorem Hart.disarm_vlmax (h : Hart)  : (h.disarm ).vlmax = h.vlmax := rfl
@[simp] theorem Hart.disarm_vstart (h : Hart)  : (h.disarm ).vstart = h.vstart := rfl
@[simp] theorem Hart.disarm_vrm (h : Hart)  : (h.disarm ).vrm = h.vrm := rfl
@[simp] theorem Hart.disarm_vxflags (h : Hart)  : (h.disarm ).vxflags = h.vxflags := rfl
@[simp] theorem Hart.disarm_vxsel (h : Hart)  : (h.disarm ).vxsel = h.vxsel := rfl
@[simp] theorem Hart.disarm_sord (h : Hart)  : (h.disarm ).sord = h.sord := rfl
@[simp] theorem Hart.disarm_sva (h : Hart)  : (h.disarm ).sva = h.sva := rfl
@[simp] theorem Hart.disarm_lc (h : Hart)  : (h.disarm ).lc = h.lc := rfl
@[simp] theorem Hart.disarm_lbeg (h : Hart)  : (h.disarm ).lbeg = h.lbeg := rfl
@[simp] theorem Hart.disarm_lend (h : Hart)  : (h.disarm ).lend = h.lend &&& ~~~(1#64) := rfl
@[simp] theorem Hart.disarm_pfxs (h : Hart)  : (h.disarm ).pfxs = h.pfxs := rfl
@[simp] theorem Hart.disarm_dirty (h : Hart)  : (h.disarm ).dirty = h.dirty := rfl
@[simp] theorem Hart.disarm_lmap (h : Hart)  : (h.disarm ).lmap = h.lmap := rfl
@[simp] theorem Hart.disarm_coord (h : Hart)  : (h.disarm ).coord = h.coord := rfl
@[simp] theorem Hart.disarm_stage (h : Hart)  : (h.disarm ).stage = h.stage := rfl
@[simp] theorem Hart.disarm_rstat (h : Hart)  : (h.disarm ).rstat = h.rstat := rfl
@[simp] theorem Hart.disarm_discf (h : Hart)  : (h.disarm ).discf = h.discf := rfl
@[simp] theorem Hart.disarm_tvec (h : Hart)  : (h.disarm ).tvec = h.tvec := rfl
@[simp] theorem Hart.disarm_tcause (h : Hart)  : (h.disarm ).tcause = h.tcause := rfl
@[simp] theorem Hart.disarm_tval (h : Hart)  : (h.disarm ).tval = h.tval := rfl
@[simp] theorem Hart.disarm_tpc (h : Hart)  : (h.disarm ).tpc = h.tpc := rfl
@[simp] theorem Hart.disarm_tqpos (h : Hart)  : (h.disarm ).tqpos = h.tqpos := rfl
@[simp] theorem Hart.disarm_tsave (h : Hart)  : (h.disarm ).tsave = h.tsave := rfl
@[simp] theorem Hart.disarm_vpad (h : Hart)  : (h.disarm ).vpad = h.vpad := rfl
@[simp] theorem Hart.disarm_lbase (h : Hart)  : (h.disarm ).lbase = h.lbase := rfl
@[simp] theorem Hart.disarm_lcuse (h : Hart)  : (h.disarm ).lcuse = h.lcuse := rfl
@[simp] theorem Hart.disarm_lcmask (h : Hart)  : (h.disarm ).lcmask = h.lcmask := rfl
@[simp] theorem Hart.disarm_lcbvl (h : Hart)  : (h.disarm ).lcbvl = h.lcbvl := rfl
@[simp] theorem Hart.disarm_lcdead (h : Hart)  : (h.disarm ).lcdead = h.lcdead := rfl
@[simp] theorem Hart.disarm_lcstall (h : Hart)  : (h.disarm ).lcstall = h.lcstall := rfl
@[simp] theorem Hart.disarm_lccyc (h : Hart)  : (h.disarm ).lccyc = h.lccyc := rfl
@[simp] theorem Hart.disarm_sctx (h : Hart)  : (h.disarm ).sctx = h.sctx := rfl
@[simp] theorem Hart.disarm_sptb (h : Hart)  : (h.disarm ).sptb = h.sptb := rfl
@[simp] theorem Hart.disarm_sgrant (h : Hart)  : (h.disarm ).sgrant = h.sgrant := rfl
@[simp] theorem Hart.disarm_sprio (h : Hart)  : (h.disarm ).sprio = h.sprio := rfl
@[simp] theorem Hart.disarm_sframe (h : Hart)  : (h.disarm ).sframe = h.sframe := rfl
@[simp] theorem Hart.disarm_sresume (h : Hart)  : (h.disarm ).sresume = h.sresume := rfl
@[simp] theorem Hart.disarm_scocoon (h : Hart)  : (h.disarm ).scocoon = h.scocoon := rfl
@[simp] theorem Hart.disarm_shalt (h : Hart)  : (h.disarm ).shalt = h.shalt := rfl
@[simp] theorem Hart.disarm_vlcap (h : Hart)  : (h.disarm ).vlcap = h.vlcap := rfl
@[simp] theorem Hart.disarm_regions (h : Hart)  : (h.disarm ).regions = h.regions := rfl
@[simp] theorem Hart.disarm_handler (h : Hart)  : (h.disarm ).handler = h.handler := rfl
@[simp] theorem Hart.disarm_reissue (h : Hart)  : (h.disarm ).reissue = h.reissue := rfl
@[simp] theorem Hart.disarm_ahead (h : Hart)  : (h.disarm ).ahead = h.ahead := rfl
@[simp] theorem Hart.disarm_viq (h : Hart)  : (h.disarm ).viq = h.viq := rfl
@[simp] theorem Hart.disarm_lane (h : Hart)  : (h.disarm ).lane = h.lane := rfl
@[simp] theorem Hart.disarm_stores (h : Hart)  : (h.disarm ).stores = h.stores := rfl
@[simp] theorem Hart.disarm_status (h : Hart)  : (h.disarm ).status = h.status := rfl
@[simp] theorem Hart.disarm_local_ (h : Hart)  : (h.disarm ).local_ = h.local_ := rfl
@[simp] theorem Hart.disarm_launch (h : Hart)  : (h.disarm ).launch = h.launch := rfl
@[simp] theorem Hart.disarm_ord (h : Hart)  : (h.disarm ).ord = h.ord := rfl
@[simp] theorem Hart.disarm_bornAt (h : Hart)  : (h.disarm ).bornAt = h.bornAt := rfl
@[simp] theorem Hart.disarm_paged (h : Hart)  : (h.disarm ).paged = h.paged := rfl
@[simp] theorem Hart.disarm_noAnswer (h : Hart)  : (h.disarm ).noAnswer = h.noAnswer := rfl
@[simp] theorem Hart.disarm_held (h : Hart)  : (h.disarm ).held = h.held := rfl
@[simp] theorem Hart.disarm_sent (h : Hart)  : (h.disarm ).sent = h.sent := rfl
@[simp] theorem Hart.disarm_asked (h : Hart)  : (h.disarm ).asked = h.asked := rfl
@[simp] theorem Hart.disarm_arrivedEp (h : Hart)  : (h.disarm ).arrivedEp = h.arrivedEp := rfl
@[simp] theorem Hart.disarm_passed (h : Hart)  : (h.disarm ).passed = h.passed := rfl
@[simp] theorem Hart.disarm_pending (h : Hart)  : (h.disarm ).pending = h.pending := rfl
@[simp] theorem Hart.disarm_strikes (h : Hart)  : (h.disarm ).strikes = h.strikes := rfl
@[simp] theorem Hart.disarm_late (h : Hart)  : (h.disarm ).late = h.late := rfl
@[simp] theorem Hart.disarm_words (h : Hart)  : (h.disarm ).words = h.words := rfl
@[simp] theorem Hart.disarm_more (h : Hart)  : (h.disarm ).more = h.more := rfl
@[simp] theorem Hart.disarm_arrived (h : Hart)  : (h.disarm ).arrived = h.arrived := rfl
@[simp] theorem Hart.disarm_slots (h : Hart)  : (h.disarm ).slots = h.slots := rfl
@[simp] theorem Hart.disarm_stripAt (h : Hart)  : (h.disarm ).stripAt = h.stripAt := rfl


/-! ## Registers (R6, R7) -/

@[simp] theorem Hart.rx_zero (h : Hart) : h.rx 0#5 = 0 := rfl

/-- x0 discards what is written to it. -/
@[simp] theorem Hart.wx_zero (h : Hart) (y : Word) : h.wx 0#5 y = h := rfl

theorem Hart.rx_wx_same (h : Hart) {r : Reg} (y : Word) (hr : r ≠ 0#5) : (h.wx r y).rx r = y := by
  simp [Hart.rx, Hart.wx, hr]

theorem Hart.rx_wx_other (h : Hart) {r k : Reg} (y : Word) (hk : k ≠ r) : (h.wx r y).rx k = h.rx k := by
  unfold Hart.rx Hart.wx
  split
  · rfl
  · split
    · rfl
    · have : r.toNat ≠ k.toNat := fun e => hk (BitVec.eq_of_toNat_eq e.symm)
      simp [this]

/-- What every register reads after a write. -/
theorem Hart.rx_wx (h : Hart) (r k : Reg) (y : Word) :
    (h.wx r y).rx k = if k = r ∧ r ≠ 0#5 then y else h.rx k := by
  split
  · rename_i e; obtain ⟨rfl, hr⟩ := e; exact h.rx_wx_same y hr
  · rename_i e
    by_cases hk : k = r
    · subst hk
      have : k = 0#5 := by by_contra hr; exact e ⟨rfl, hr⟩
      subst this; rfl
    · exact h.rx_wx_other y hk

theorem Hart.rv_wv_same (h : Hart) (n : Nat) (y : BitVec 4096) : (h.wv n y).rv n = y := by
  simp [Hart.rv, Hart.wv]

theorem Hart.rv_wv_other (h : Hart) {n k : Nat} (y : BitVec 4096) (hk : k % 32 ≠ n % 32) : (h.wv n y).rv k = h.rv k := by
  have : ¬ (n % 32 = k % 32) := fun e => hk e.symm
  simp [Hart.rv, Hart.wv, reg32, this]

end Sys2Proof.Machine
end

