-- ==== Sys2Proof/Laws/Access.lean ====
section
/-!
SUPPORT. What decoding, translating and noting an access can change (R109, R242, R253 to R259, R361): the memory's A and D bits,
the TLBs and the walkers' entries, the channels it wakes, the matches at the homes, the fabric's message tables, the lines of host memory it takes, and whether it must wait; and what performing queued accesses can
change (R218, R220).
-/

namespace Sys2Proof.Machine

/-- What an access changes besides its own effect. -/
def Reached (s t : State) : Prop :=
  ∃ (m : List Host.Cell) (tl : List TlbEntry) (wk : List NonLeaf) (nm : List (Nat × Nmu)) (ht : List HomeHit) (fb : Vector FabricPort 18)
    (sn : Nat) (dl : List (Nat × List Byte)) (ps : List (Nat × PortRec)) (b : Option Wait),
    t = { s with mem := m, tlb := tl, walks := wk, nmus := nm, hits := ht, hub := { s.hub with fabric := fb, sent := sn, dirty := dl, ports := ps },
                 blocked := b }

namespace Reached

theorem refl (s : State) : Reached s s := ⟨_, _, _, _, _, _, _, _, _, _, rfl⟩

theorem trans {s t u : State} (h : Reached s t) (k : Reached t u) : Reached s u := by
  obtain ⟨m, tl, wk, nm, ht, fb, sn, dl, ps, b, rfl⟩ := h
  obtain ⟨m', tl', wk', nm', ht', fb', sn', dl', ps', b', rfl⟩ := k
  exact ⟨m', tl', wk', nm', ht', fb', sn', dl', ps', b', rfl⟩

variable {s t : State} (h : Reached s t)
include h

theorem cur : t.cur = s.cur := by obtain ⟨_, _, _, _, _, _, _, _, _, _, rfl⟩ := h; rfl
theorem others : t.others = s.others := by obtain ⟨_, _, _, _, _, _, _, _, _, _, rfl⟩ := h; rfl
theorem frames : t.frames = s.frames := by obtain ⟨_, _, _, _, _, _, _, _, _, _, rfl⟩ := h; rfl
theorem poison : t.poison = s.poison := by obtain ⟨_, _, _, _, _, _, _, _, _, _, rfl⟩ := h; rfl
theorem clusters : t.clusters = s.clusters := by obtain ⟨_, _, _, _, _, _, _, _, _, _, rfl⟩ := h; rfl
theorem instars : t.instars = s.instars := by obtain ⟨_, _, _, _, _, _, _, _, _, _, rfl⟩ := h; rfl
theorem retired : t.retired = s.retired := by obtain ⟨_, _, _, _, _, _, _, _, _, _, rfl⟩ := h; rfl
theorem down : t.down = s.down := by obtain ⟨_, _, _, _, _, _, _, _, _, _, rfl⟩ := h; rfl
theorem sevenths : t.sevenths = s.sevenths := by obtain ⟨_, _, _, _, _, _, _, _, _, _, rfl⟩ := h; rfl
theorem unit : t.unit = s.unit := by obtain ⟨_, _, _, _, _, _, _, _, _, _, rfl⟩ := h; rfl
theorem schedule : t.schedule = s.schedule := by obtain ⟨_, _, _, _, _, _, _, _, _, _, rfl⟩ := h; rfl
theorem net : t.net = s.net := by obtain ⟨_, _, _, _, _, _, _, _, _, _, rfl⟩ := h; rfl
theorem arrivals : t.arrivals = s.arrivals := by obtain ⟨_, _, _, _, _, _, _, _, _, _, rfl⟩ := h; rfl
theorem cut : t.cut = s.cut := by obtain ⟨_, _, _, _, _, _, _, _, _, _, rfl⟩ := h; rfl
theorem freeCount : t.freeCount = s.freeCount := by obtain ⟨_, _, _, _, _, _, _, _, _, _, rfl⟩ := h; rfl
theorem debug : t.hub.debug = s.hub.debug := by obtain ⟨_, _, _, _, _, _, _, _, _, _, rfl⟩ := h; rfl
theorem ownMatch (c : Word) (k : WKind) (a : Word) (n : Nat) : t.ownMatch c k a n = s.ownMatch c k a n := by
  obtain ⟨_, _, _, _, _, _, _, _, _, _, rfl⟩ := h; rfl

end Reached

/-! ## Noting an access -/

theorem block_reached (s : State) (w : Wait) : Reached s (s.block w) := ⟨_, _, _, _, _, _, _, _, _, _, rfl⟩

theorem setNmu_reached (s : State) (c : Nat) (x : Nmu) : Reached s (s.setNmu c x) := ⟨_, _, _, _, _, _, _, _, _, _, rfl⟩

theorem wakeChannel_reached (s : State) (ch : Nat) : Reached s (s.wakeChannel ch) := by
  unfold State.wakeChannel
  dsimp only
  split
  · exact .refl s
  · exact setNmu_reached ..

theorem wakeKey_reached (s : State) (key : Nat) : Reached s (s.wakeKey key) := by
  unfold State.wakeKey
  split
  · exact wakeChannel_reached ..
  · exact .refl s

theorem touch_reached (s : State) (key : Nat) : Reached s (s.touch key) := by
  unfold State.touch
  dsimp only
  split
  · exact (wakeKey_reached s key).trans (block_reached ..)
  · exact wakeKey_reached s key

theorem sendRemote_reached (s : State) (dev : Nat) (a : Word) : Reached s (s.sendRemote dev a) := by
  unfold State.sendRemote
  split
  · dsimp only
    split <;> exact ⟨_, _, _, _, _, _, _, _, _, _, rfl⟩
  · exact block_reached ..

theorem touchAt_reached (s : State) (a : Word) (pa : Nat) : Reached s (s.touchAt a pa) := by
  unfold State.touchAt
  split
  · exact sendRemote_reached ..
  · exact touch_reached ..

theorem touchNet_reached (s : State) (key : Nat) : Reached s (s.touchNet key) := by
  unfold State.touchNet
  split
  · exact block_reached ..
  · exact .refl s

theorem touchNets_reached (s : State) (ks : List Nat) : Reached s (s.touchNets ks) := by
  unfold State.touchNets
  split
  · exact block_reached ..
  · exact .refl s

theorem touchChained_reached (s : State) (sel : Stream → Bool) : Reached s (s.touchChained sel) := by
  unfold State.touchChained
  split
  · exact block_reached ..
  · exact .refl s

theorem touchStreams_reached (s : State) (sel : Stream → Bool) : Reached s (s.touchStreams sel) := by
  unfold State.touchStreams
  split
  · exact block_reached ..
  · exact .refl s

theorem awaitNet_reached (s : State) (level : Nat) (engines : Bool) (sel : Stream → Bool) : Reached s (s.awaitNet level engines sel) := by
  unfold State.awaitNet
  split
  · exact block_reached ..
  · exact .refl s

theorem touchAll_reached (s : State) (ks : List Nat) : Reached s (s.touchAll ks) := by
  induction ks generalizing s with
  | nil => exact .refl s
  | cons k t ih => exact (touch_reached s k).trans (ih _)

/-! ### Ports -/

/-- Of a state only the ports' records change. -/
def PortsOnly (s t : State) : Prop := ∃ ps, t = s.setHub { s.hub with ports := ps }

namespace PortsOnly

theorem refl (s : State) : PortsOnly s s := ⟨s.hub.ports, rfl⟩

theorem trans {s t u : State} (h : PortsOnly s t) (k : PortsOnly t u) : PortsOnly s u := by
  obtain ⟨ps, rfl⟩ := h
  obtain ⟨qs, rfl⟩ := k
  exact ⟨qs, rfl⟩

theorem setPort (s : State) (n : Nat) (x : PortRec) : PortsOnly s (s.setPort n x) := ⟨_, rfl⟩

theorem foldl {α : Type} (f : State → α → State) (h : ∀ s a, PortsOnly s (f s a)) (xs : List α) : ∀ s, PortsOnly s (xs.foldl f s) := by
  induction xs with
  | nil => exact refl
  | cons a t ih => exact fun s => (h s a).trans (ih _)

theorem noteForeign (s : State) (port : Nat) (l : Option (Nat × Nat)) (m : Message) : PortsOnly s (s.noteForeign port l m) := by
  unfold State.noteForeign
  split
  · exact refl s
  refine foldl _ (fun s b => ?_) _ s
  dsimp only
  split
  · exact refl s
  refine foldl _ (fun s i => ?_) _ s
  split
  · exact setPort ..
  · exact refl s

theorem acceptMessage {s t : State} {port : Nat} {l : Option (Nat × Nat)} {m : Message} (h : s.acceptMessage port l m = some t) : PortsOnly s t := by
  refine (noteForeign s port l m).trans ?_
  unfold State.acceptMessage at h
  revert h
  generalize s.noteForeign port l m = u
  intro h
  dsimp only at h
  repeat' split at h
  all_goals cases h
  all_goals exact refl _

theorem reached {s t : State} (h : PortsOnly s t) : Reached s t := by
  obtain ⟨ps, rfl⟩ := h
  exact ⟨_, _, _, _, _, _, _, _, _, _, rfl⟩

theorem mem {s t : State} (h : PortsOnly s t) : t.mem = s.mem := by obtain ⟨ps, rfl⟩ := h; rfl

end PortsOnly

/-- While no launch is recorded or replayed, a message changes nothing. -/
@[simp] theorem tell_plain {s : State} (h : s.observing = false) (port : Nat) (l : Option (Nat × Nat)) (agent sort addr n : Nat) (pay : List Byte) :
    s.tell port l agent sort addr n pay = s := by simp [State.tell, h]

@[simp] theorem tellHart_plain {s : State} (h : s.observing = false) (a : Word) (n : Nat) (lane : Option Nat) (sort : Nat) (pay : List Byte) :
    s.tellHart a n lane sort pay = s := by simp [State.tellHart, h]

@[simp] theorem orHeld_plain {s : State} (h : s.observing = false) (f : State → State) : s.orHeld f = f s := by simp [State.orHeld, h]

theorem observing_none {s : State} (h : ∀ p ∈ s.hub.debug, p.2.ctx = 0) : s.observing = false := by
  simp only [State.observing, List.any_eq_false, Bool.and_eq_true, bne_iff_ne, not_and]
  exact fun p hp hc => absurd (h p hp) hc

theorem tell_reached (s : State) (port : Nat) (l : Option (Nat × Nat)) (agent sort addr n : Nat) (pay : List Byte) :
    Reached s (s.tell port l agent sort addr n pay) := by
  unfold State.tell
  split
  · exact .refl s
  split
  · rename_i e; exact (PortsOnly.acceptMessage e).reached
  · exact block_reached ..

theorem tell_mem (s : State) (port : Nat) (l : Option (Nat × Nat)) (agent sort addr n : Nat) (pay : List Byte) :
    (s.tell port l agent sort addr n pay).mem = s.mem := by
  unfold State.tell
  split
  · rfl
  split
  · rename_i e; exact (PortsOnly.acceptMessage e).mem
  · rfl

theorem tellHart_reached (s : State) (a : Word) (n : Nat) (lane : Option Nat) (sort : Nat) (pay : List Byte) :
    Reached s (s.tellHart a n lane sort pay) := by
  unfold State.tellHart
  split
  · exact .refl s
  split
  · exact tell_reached ..
  · exact .refl s

theorem tellHart_mem (s : State) (a : Word) (n : Nat) (lane : Option Nat) (sort : Nat) (pay : List Byte) :
    (s.tellHart a n lane sort pay).mem = s.mem := by
  unfold State.tellHart
  split
  · rfl
  split
  · exact tell_mem ..
  · rfl

/-! ### Homes -/

theorem noteAt_reached (s : State) (f : DebugBlock → Nat → Bool) (l : Option (Nat × Nat)) (agent : Nat) (k : WKind) (rs : List (Nat × Nat)) (sort : Nat)
    (pay : List Byte) : Reached s (s.noteAt f l agent k rs sort pay) := by
  unfold State.noteAt
  split
  · exact .refl s
  · exact Reached.trans ⟨_, _, _, _, _, _, _, _, _, _, rfl⟩ (tell_reached ..)

theorem noteHomes_reached (s : State) (ps : List PStore) : Reached s (s.noteHomes ps) := by
  unfold State.noteHomes
  induction ps generalizing s with
  | nil => exact .refl s
  | cons p t ih => exact (noteAt_reached ..).trans (ih _)

/-- With no debug block in use no access is noted. -/
theorem noteAt_none {s : State} (h : ∀ p ∈ s.hub.debug, p.2.ctx = 0) (f : DebugBlock → Nat → Bool) (l : Option (Nat × Nat)) (agent : Nat) (k : WKind)
    (rs : List (Nat × Nat)) (sort : Nat) (pay : List Byte) : s.noteAt f l agent k rs sort pay = s := by
  have hn : (s.hub.debug).any (fun p => p.2.ctx != 0) = false := by simpa using h
  rw [State.noteAt, hn]
  rfl

/-- What draining streams notes first changes nothing else. -/
theorem noteDrain_reached (s : State) (level : Nat) (sel : Stream → Bool) : Reached s (s.noteDrain level sel) :=
  (((((touchAll_reached ..).trans (touchNets_reached ..)).trans (touchChained_reached ..)).trans (touchStreams_reached ..)).trans (awaitNet_reached ..)).trans (noteHomes_reached ..)

theorem touchBank_reached (s : State) (off n : Nat) (w : Bool) : Reached s (s.touchBank off n w) := by
  unfold State.touchBank
  split
  · exact block_reached ..
  · exact .refl s

theorem holdTables_reached (s : State) (die : Nat) (ctx a : Word) (tr : List (Nat × Nat × Nat)) : Reached s (s.holdTables die ctx a tr) :=
  ⟨_, _, _, _, _, _, _, _, _, _, rfl⟩

theorem xlate_reached (s : State) (die : Nat) (ctx sptb a : Word) (k : AKind) : Reached s (s.xlate die ctx sptb a k).2 := by
  unfold State.xlate
  split
  · exact .refl s
  · have ht := (touchAll_reached s ((s.walkBy die ctx sptb a k).2.map (fun x => x.2.2))).trans
      (holdTables_reached _ die ctx a (s.walkBy die ctx sptb a k).2)
    dsimp only [State.touchTrail]
    split
    · exact ht
    · exact ht
    · exact ht.trans ⟨_, _, _, _, _, _, _, _, _, _, rfl⟩

theorem xlateHart_reached (s : State) (lane : Nat) (a : Word) (k : AKind) : Reached s (s.xlateHart lane a k).2 := by
  have hx := xlate_reached s (dieOf s.cur.place) s.cur.sctx s.cur.sptb a k
  unfold State.xlateHart
  dsimp only
  split
  · exact .refl s
  · dsimp only
    split
    · exact hx.trans ⟨_, _, _, _, _, _, _, _, _, _, rfl⟩
    · exact hx

/-- Decoding and translating an access, and noting it at its home, changes nothing else. -/
theorem reach_reached (s : State) (a : Word) (n : Nat) (k : AKind) (need : ANeed) (lane : Option Nat := none) :
    Reached s (s.reach a n k need lane).2 := by
  have hx := xlateHart_reached s (lane.getD s.cur.lowLane) a k
  unfold State.reach
  split
  · exact .refl s
  split
  · split
    · exact touchBank_reached ..
    · exact .refl s
  split
  · exact .refl s
  split
  · rename_i e; rw [e] at hx; exact hx
  · rename_i e
    rw [e] at hx
    split
    · exact (hx.trans (touchAt_reached ..)).trans (touchNet_reached ..)
    · exact hx

theorem loadN_reached (s : State) (st : Stream) (a : Word) (n : Nat) : Reached s (s.loadN st a n).2 := by
  have hr := reach_reached s a n .read .plain
  unfold State.loadN
  split
  · rename_i e; rw [e] at hr; exact hr
  · rename_i e
    rw [e] at hr
    split <;> exact hr

theorem loadDwords_reached (s : State) (st : Stream) (a : Word) (n : Nat) : Reached s (s.loadDwords st a n).2 := by
  induction n generalizing s a with
  | zero => exact .refl s
  | succ n ih =>
    have hl := loadN_reached s st a 8
    unfold State.loadDwords
    split
    · rename_i e; rw [e] at hl; exact hl
    · rename_i t e
      rw [e] at hl
      have hn := ih t (a + 8)
      split <;> (rename_i e'; rw [e'] at hn; exact hl.trans hn)

/-! ## A and D bits: the one byte a translation writes (R258) -/

/-- The leaf entry's first byte that a translation of this access writes, none when a TLB answers or the walk fails. -/
def leafKey (s : State) (die : Nat) (ctx sptb a : Word) (k : AKind) : Option Nat :=
  match findTlb die ctx a.toNat k s.tlb with
  | some _ => none
  | none => match (s.walkBy die ctx sptb a k).1 with
    | .leaf key _ _ _ _ _ => some key
    | _ => none

theorem touch_mem (s : State) (key : Nat) : (s.touch key).mem = s.mem := by
  have hw : (s.wakeKey key).mem = s.mem := by
    unfold State.wakeKey
    split
    · unfold State.wakeChannel; dsimp only; split <;> rfl
    · rfl
  unfold State.touch
  dsimp only
  split
  · exact hw
  · exact hw

theorem touchAt_mem (s : State) (a : Word) (pa : Nat) : (s.touchAt a pa).mem = s.mem := by
  have hr (d : Nat) : (s.sendRemote d a).mem = s.mem := by
    unfold State.sendRemote
    cases sendOn s.hub.sent s.hub.fabric.toList with
    | none => exact State.block_mem ..
    | some ps =>
      have hb (c : Prop) [Decidable c] (t : State) (w : Wait) : (if c then t.block w else t).mem = t.mem := by split <;> rfl
      exact (hb ..).trans (State.setHub_mem s _)
  unfold State.touchAt
  split
  · exact hr _
  · exact touch_mem ..

theorem touchNet_mem (s : State) (key : Nat) : (s.touchNet key).mem = s.mem := by
  unfold State.touchNet; split <;> rfl

theorem touchAll_mem (s : State) (ks : List Nat) : (s.touchAll ks).mem = s.mem := by
  induction ks generalizing s with
  | nil => rfl
  | cons k t ih => exact (ih _).trans (touch_mem s k)

theorem noteAt_mem (s : State) (f : DebugBlock → Nat → Bool) (l : Option (Nat × Nat)) (agent : Nat) (k : WKind) (rs : List (Nat × Nat)) (sort : Nat)
    (pay : List Byte) : (s.noteAt f l agent k rs sort pay).mem = s.mem := by
  unfold State.noteAt
  split
  · rfl
  · exact tell_mem ..

theorem noteHomes_mem (s : State) (ps : List PStore) : (s.noteHomes ps).mem = s.mem := by
  unfold State.noteHomes
  induction ps generalizing s with
  | nil => rfl
  | cons p t ih => exact (ih _).trans (noteAt_mem ..)

theorem noteDrain_mem (s : State) (level : Nat) (sel : Stream → Bool) : (s.noteDrain level sel).mem = s.mem := by
  have h (s : State) : (s.awaitNet level false sel).mem = s.mem := by unfold State.awaitNet; split <;> rfl
  have hc (s : State) : (s.touchChained sel).mem = s.mem := by unfold State.touchChained; split <;> rfl
  have hn (s : State) (ks : List Nat) : (s.touchNets ks).mem = s.mem := by unfold State.touchNets; split <;> rfl
  have hs (s : State) : (s.touchStreams sel).mem = s.mem := by unfold State.touchStreams; split <;> rfl
  rw [State.noteDrain, noteHomes_mem, h, hs, hc, hn, touchAll_mem]

theorem touchBank_mem (s : State) (off n : Nat) (w : Bool) : (s.touchBank off n w).mem = s.mem := by
  unfold State.touchBank; split <;> rfl

/-- A translation changes at most the byte of the leaf entry's A and D bits. -/
theorem xlate_mem (s : State) (die : Nat) (ctx sptb a : Word) (k : AKind) :
    (s.xlate die ctx sptb a k).2.mem = match leafKey s die ctx sptb a k with
      | some key => Memory.set s.mem key (Memory.get s.mem key ||| (if k == .write then 0x60#8 else 0x20#8))
      | none => s.mem := by
  unfold State.xlate leafKey
  cases h : findTlb die ctx a.toNat k s.tlb with
  | some e => rfl
  | none =>
    have ht : (s.touchTrail (s.walkBy die ctx sptb a k).2).mem = s.mem := touchAll_mem ..
    dsimp only
    cases hw : (s.walkBy die ctx sptb a k).1 <;> simp [State.holdTables, State.markLeaf, State.takeLines, State.setHub, State.fillTlb, ht]

theorem xlate_get_other (s : State) (die : Nat) (ctx sptb a : Word) (k : AKind) (key : Nat)
    (h : leafKey s die ctx sptb a k ≠ some key) :
    Memory.get (s.xlate die ctx sptb a k).2.mem key = Memory.get s.mem key := by
  rw [xlate_mem]
  split
  · rename_i j hj
    exact Memory.get_set_other _ _ _ (fun e => h (by rw [hj, e]))
  · rfl

theorem xlate_wf {s : State} (hw : Memory.wf s.mem = true) (die : Nat) (ctx sptb a : Word) (k : AKind) :
    Memory.wf (s.xlate die ctx sptb a k).2.mem = true := by
  rw [xlate_mem]
  split
  · exact Memory.wf_set hw _ _
  · exact hw

/-- A hart's translation changes no other byte, and none when its core's micro-TLB answers. -/
theorem xlateHart_get_other (s : State) (lane : Nat) (a : Word) (k : AKind) (key : Nat)
    (h : leafKey s (dieOf s.cur.place) s.cur.sctx s.cur.sptb a k ≠ some key) :
    Memory.get (s.xlateHart lane a k).2.mem key = Memory.get s.mem key := by
  have hx := xlate_get_other s (dieOf s.cur.place) s.cur.sctx s.cur.sptb a k key h
  unfold State.xlateHart
  dsimp only
  split
  · rfl
  · dsimp only
    split <;> exact hx

theorem xlateHart_wf {s : State} (hw : Memory.wf s.mem = true) (lane : Nat) (a : Word) (k : AKind) :
    Memory.wf (s.xlateHart lane a k).2.mem = true := by
  have hx := xlate_wf hw (dieOf s.cur.place) s.cur.sctx s.cur.sptb a k
  unfold State.xlateHart
  dsimp only
  split
  · exact hw
  · dsimp only
    split <;> exact hx

theorem reach_get_other (s : State) (a : Word) (n : Nat) (k : AKind) (need : ANeed) (key : Nat)
    (h : leafKey s (dieOf s.cur.place) s.cur.sctx s.cur.sptb a k ≠ some key) (lane : Option Nat := none) :
    Memory.get (s.reach a n k need lane).2.mem key = Memory.get s.mem key := by
  have hx := xlateHart_get_other s (lane.getD s.cur.lowLane) a k key h
  unfold State.reach
  split
  · rfl
  split
  · split
    · rw [touchBank_mem]
    · rfl
  split
  · rfl
  split
  · rename_i e; rw [e] at hx; exact hx
  · rename_i e
    rw [e] at hx
    split
    · rw [touchNet_mem, touchAt_mem]; exact hx
    · exact hx

theorem reach_wf {s : State} (hw : Memory.wf s.mem = true) (a : Word) (n : Nat) (k : AKind) (need : ANeed) (lane : Option Nat := none) :
    Memory.wf (s.reach a n k need lane).2.mem = true := by
  have hx := xlateHart_wf hw (lane.getD s.cur.lowLane) a k
  unfold State.reach
  split
  · exact hw
  split
  · split
    · rw [touchBank_mem]; exact hw
    · exact hw
  split
  · exact hw
  split
  · rename_i e; rw [e] at hx; exact hx
  · rename_i e
    rw [e] at hx
    split
    · rw [touchNet_mem, touchAt_mem]; exact hx
    · exact hx

theorem loadN_get_other (s : State) (st : Stream) (a : Word) (n : Nat) (key : Nat)
    (h : leafKey s (dieOf s.cur.place) s.cur.sctx s.cur.sptb a .read ≠ some key) :
    Memory.get (s.loadN st a n).2.mem key = Memory.get s.mem key := by
  have hr := reach_get_other s a n .read .plain key h
  unfold State.loadN
  split
  · rename_i e; rw [e] at hr; exact hr
  · rename_i e
    rw [e] at hr
    split <;> exact hr

theorem loadN_wf {s : State} (hw : Memory.wf s.mem = true) (st : Stream) (a : Word) (n : Nat) :
    Memory.wf (s.loadN st a n).2.mem = true := by
  have hr := reach_wf hw a n .read .plain
  unfold State.loadN
  split
  · rename_i e; rw [e] at hr; exact hr
  · rename_i e
    rw [e] at hr
    split <;> exact hr

theorem loadDwords_wf {s : State} (hw : Memory.wf s.mem = true) (st : Stream) (a : Word) (n : Nat) :
    Memory.wf (s.loadDwords st a n).2.mem = true := by
  induction n generalizing s a with
  | zero => exact hw
  | succ n ih =>
    have hl := loadN_wf hw st a 8
    unfold State.loadDwords
    split
    · rename_i e; rw [e] at hl; exact hl
    · rename_i t e
      rw [e] at hl
      have hn := ih hl (a + 8)
      split <;> (rename_i e'; rw [e'] at hn; exact hn)

/-! ## Performing queued accesses (R218, R220) -/

theorem performBytes_get_other (m : List Host.Cell) (bs : List PByte) {a : Nat} (h : ∀ b ∈ bs, b.key ≠ a) :
    Memory.get (performBytes m bs) a = Memory.get m a := by
  induction bs generalizing m with
  | nil => rfl
  | cons b t ih =>
    rw [performBytes, ih _ (fun x hx => h x (List.mem_cons_of_mem _ hx)),
      Memory.get_set_other _ _ _ (fun e => h b List.mem_cons_self e.symm)]

theorem drainTo_wf {s : State} (hw : Memory.wf s.mem = true) (level : Nat) (sel : Stream → Bool) :
    Memory.wf (s.drainTo level sel).mem = true := by
  unfold State.drainTo
  exact performStores_wf sel (by rw [noteDrain_mem]; exact hw) _

/-- Performing queued accesses changes of the hart its queue alone. -/
theorem drainTo_cur (s : State) (level : Nat) (sel : Stream → Bool) :
    (s.drainTo level sel).cur = { s.cur with stores := (performStores sel s.mem s.cur.stores).2 } := by
  have hr := noteDrain_reached s level sel
  unfold State.drainTo
  dsimp only
  rw [hr.cur, noteDrain_mem]

theorem drainTo_mem (s : State) (level : Nat) (sel : Stream → Bool) :
    (s.drainTo level sel).mem = (performStores sel s.mem s.cur.stores).1 := by
  have hr := noteDrain_reached s level sel
  unfold State.drainTo
  dsimp only
  rw [hr.cur, noteDrain_mem]

theorem drainTo_ownMatch (s : State) (level : Nat) (sel : Stream → Bool) (c : Word) (k : WKind) (a : Word) (n : Nat) :
    (s.drainTo level sel).ownMatch c k a n = s.ownMatch c k a n := by
  have hr := noteDrain_reached s level sel
  rw [← hr.ownMatch c k a n]; rfl

theorem drain_wf {s : State} (hw : Memory.wf s.mem = true) (sel : Stream → Bool) : Memory.wf (s.drain sel).mem = true := drainTo_wf hw 4 sel

theorem drain_cur (s : State) (sel : Stream → Bool) :
    (s.drain sel).cur = { s.cur with stores := (performStores sel s.mem s.cur.stores).2 } := drainTo_cur s 4 sel

theorem drain_mem (s : State) (sel : Stream → Bool) : (s.drain sel).mem = (performStores sel s.mem s.cur.stores).1 := drainTo_mem s 4 sel

theorem drain_ownMatch (s : State) (sel : Stream → Bool) (c : Word) (k : WKind) (a : Word) (n : Nat) :
    (s.drain sel).ownMatch c k a n = s.ownMatch c k a n := drainTo_ownMatch s 4 sel c k a n

/-! ## Watchpoints -/

@[simp] theorem strike_none {s : State} {k : WKind} {a : Word} {n : Nat} {sort : Nat} {pay : List Byte} (e : Nat) (h : s.watched s.cur.sctx k a n = none) :
    s.strike k a n e none sort pay = s := by simp [State.strike, h]

theorem strike_mem (s : State) (k : WKind) (a : Word) (n e : Nat) (lane : Option Nat) (sort : Nat) (pay : List Byte) :
    (s.strike k a n e lane sort pay).mem = s.mem := by
  unfold State.strike
  split
  · rfl
  · exact tellHart_mem ..

theorem noteStrike_mem (s : State) (k : WKind) (a : Word) (n e : Nat) (lane : Option Nat) : (s.noteStrike k a n e lane).mem = s.mem := by
  unfold State.noteStrike; split <;> rfl

theorem strikeOwn_mem (s : State) (k : WKind) (a : Word) (n e : Nat) : (s.strikeOwn k a n e).mem = s.mem := by
  unfold State.strikeOwn; split <;> rfl

/-- What the hart's own block does not match leaves the state as it is. -/
@[simp] theorem strikeOwn_none {s : State} {k : WKind} {a : Word} {n : Nat} (e : Nat) (h : s.watched s.cur.sctx k a n = none) :
    s.strikeOwn k a n e = s := by
  unfold State.watched at h
  unfold State.strikeOwn
  cases ho : s.ownMatch s.cur.sctx k a n with
  | none => rfl
  | some x => simp [ho] at h

theorem strikeAhead_mem (s : State) (a : Word) (n e : Nat) : (s.strikeAhead a n e).mem = s.mem := by
  unfold State.strikeAhead
  split
  · rfl
  · exact tellHart_mem ..

end Sys2Proof.Machine
end

