-- ==== Sys2Proof/Laws/Decode.lean ====
section
/-!
SUPPORT. What the fields of each layout of R85 read back, what a major decodes to, and what an accepted word says.
-/

set_option Elab.async false

namespace Sys2Proof

/-! ## The layouts -/

@[simp] theorem wMajor_xWord (m : BitVec 6) (d a b : Reg) (f : BitVec 11) : wMajor (xWord m d a b f) = m := by
  apply BitVec.eq_of_getLsbD_eq; intro i hi
  simp only [wMajor, xWord, BitVec.getLsbD_extractLsb', BitVec.getLsbD_append]
  interval_cases i <;> simp

@[simp] theorem wD_xWord (m : BitVec 6) (d a b : Reg) (f : BitVec 11) : wD (xWord m d a b f) = d := by
  apply BitVec.eq_of_getLsbD_eq; intro i hi
  simp only [wD, xWord, BitVec.getLsbD_extractLsb', BitVec.getLsbD_append]
  interval_cases i <;> simp

@[simp] theorem wA_xWord (m : BitVec 6) (d a b : Reg) (f : BitVec 11) : wA (xWord m d a b f) = a := by
  apply BitVec.eq_of_getLsbD_eq; intro i hi
  simp only [wA, xWord, BitVec.getLsbD_extractLsb', BitVec.getLsbD_append]
  interval_cases i <;> simp

@[simp] theorem wB_xWord (m : BitVec 6) (d a b : Reg) (f : BitVec 11) : wB (xWord m d a b f) = b := by
  apply BitVec.eq_of_getLsbD_eq; intro i hi
  simp only [wB, xWord, BitVec.getLsbD_extractLsb', BitVec.getLsbD_append]
  interval_cases i <;> simp

@[simp] theorem wFn_xWord (m : BitVec 6) (d a b : Reg) (f : BitVec 11) : wFn (xWord m d a b f) = f := by
  apply BitVec.eq_of_getLsbD_eq; intro i hi
  simp only [wFn, xWord, BitVec.getLsbD_extractLsb', BitVec.getLsbD_append]
  interval_cases i <;> simp

/-- A field inside fn11. -/
@[simp] theorem low_xWord (m : BitVec 6) (d a b : Reg) (f : BitVec 11) (k n : Nat) (h : k + n ≤ 11 := by decide) :
    (xWord m d a b f).extractLsb' k n = f.extractLsb' k n := by
  apply BitVec.eq_of_getLsbD_eq; intro i hi
  simp only [xWord, BitVec.getLsbD_extractLsb', BitVec.getLsbD_append]
  simp [hi, show k + i < 11 by omega]

@[simp] theorem wBit_xWord (m : BitVec 6) (d a b : Reg) (f : BitVec 11) (n : Nat) (h : n < 11 := by decide) :
    wBit (xWord m d a b f) n = f.getLsbD n := by
  simp only [wBit, xWord, BitVec.getLsbD_append, h, if_true]

@[simp] theorem wQ_xWord (m : BitVec 6) (q : BitVec 3) (a b : Reg) (f : BitVec 11) : wQ (xWord m (0#2 ++ q) a b f) = q := by
  apply BitVec.eq_of_getLsbD_eq; intro i hi
  simp only [wQ, xWord, BitVec.getLsbD_extractLsb', BitVec.getLsbD_append]
  interval_cases i <;> simp

@[simp] theorem wMajor_iWord (m : BitVec 6) (d a : Reg) (imm : BitVec 16) : wMajor (iWord m d a imm) = m := by
  apply BitVec.eq_of_getLsbD_eq; intro i hi
  simp only [wMajor, iWord, BitVec.getLsbD_extractLsb', BitVec.getLsbD_append]
  interval_cases i <;> simp

@[simp] theorem wD_iWord (m : BitVec 6) (d a : Reg) (imm : BitVec 16) : wD (iWord m d a imm) = d := by
  apply BitVec.eq_of_getLsbD_eq; intro i hi
  simp only [wD, iWord, BitVec.getLsbD_extractLsb', BitVec.getLsbD_append]
  interval_cases i <;> simp

@[simp] theorem wA_iWord (m : BitVec 6) (d a : Reg) (imm : BitVec 16) : wA (iWord m d a imm) = a := by
  apply BitVec.eq_of_getLsbD_eq; intro i hi
  simp only [wA, iWord, BitVec.getLsbD_extractLsb', BitVec.getLsbD_append]
  interval_cases i <;> simp

@[simp] theorem wImm_iWord (m : BitVec 6) (d a : Reg) (imm : BitVec 16) : wImm (iWord m d a imm) = imm := by
  apply BitVec.eq_of_getLsbD_eq; intro i hi
  simp only [wImm, iWord, BitVec.getLsbD_extractLsb', BitVec.getLsbD_append]
  interval_cases i <;> simp

@[simp] theorem low_iWord (m : BitVec 6) (d a : Reg) (imm : BitVec 16) (k n : Nat) (h : k + n ≤ 16 := by decide) :
    (iWord m d a imm).extractLsb' k n = imm.extractLsb' k n := by
  apply BitVec.eq_of_getLsbD_eq; intro i hi
  simp only [iWord, BitVec.getLsbD_extractLsb', BitVec.getLsbD_append]
  simp [hi, show k + i < 16 by omega]

@[simp] theorem bit25_iWord (m : BitVec 6) (d a : Reg) (imm : BitVec 16) : (iWord m d a imm).extractLsb' 25 1 = d.extractLsb' 4 1 := by
  apply BitVec.eq_of_getLsbD_eq; intro i hi
  simp only [iWord, BitVec.getLsbD_extractLsb', BitVec.getLsbD_append]
  interval_cases i; simp

@[simp] theorem sel_iWord (m : BitVec 6) (d a : Reg) (imm : BitVec 16) : (iWord m d a imm).extractLsb' 24 2 = d.extractLsb' 3 2 := by
  apply BitVec.eq_of_getLsbD_eq; intro i hi
  simp only [iWord, BitVec.getLsbD_extractLsb', BitVec.getLsbD_append]
  interval_cases i <;> simp

@[simp] theorem wMajor_sysWord (d a : Reg) (fn : BitVec 4) (g : BitVec 12) : wMajor (sysWord d a fn g) = 0#6 := by
  apply BitVec.eq_of_getLsbD_eq; intro i hi
  simp only [wMajor, sysWord, BitVec.getLsbD_extractLsb', BitVec.getLsbD_append]
  interval_cases i <;> simp

@[simp] theorem wD_sysWord (d a : Reg) (fn : BitVec 4) (g : BitVec 12) : wD (sysWord d a fn g) = d := by
  apply BitVec.eq_of_getLsbD_eq; intro i hi
  simp only [wD, sysWord, BitVec.getLsbD_extractLsb', BitVec.getLsbD_append]
  interval_cases i <;> simp

@[simp] theorem wA_sysWord (d a : Reg) (fn : BitVec 4) (g : BitVec 12) : wA (sysWord d a fn g) = a := by
  apply BitVec.eq_of_getLsbD_eq; intro i hi
  simp only [wA, sysWord, BitVec.getLsbD_extractLsb', BitVec.getLsbD_append]
  interval_cases i <;> simp

@[simp] theorem wArg_sysWord (d a : Reg) (fn : BitVec 4) (g : BitVec 12) : wArg (sysWord d a fn g) = g := by
  apply BitVec.eq_of_getLsbD_eq; intro i hi
  simp only [wArg, sysWord, BitVec.getLsbD_extractLsb', BitVec.getLsbD_append]
  interval_cases i <;> simp

@[simp] theorem fn_sysWord (d a : Reg) (fn : BitVec 4) (g : BitVec 12) : (sysWord d a fn g).extractLsb' 12 4 = fn := by
  apply BitVec.eq_of_getLsbD_eq; intro i hi
  simp only [sysWord, BitVec.getLsbD_extractLsb', BitVec.getLsbD_append]
  interval_cases i <;> simp

@[simp] theorem low_sysWord (d a : Reg) (fn : BitVec 4) (g : BitVec 12) (k n : Nat) (h : k + n ≤ 12 := by decide) :
    (sysWord d a fn g).extractLsb' k n = g.extractLsb' k n := by
  apply BitVec.eq_of_getLsbD_eq; intro i hi
  simp only [sysWord, BitVec.getLsbD_extractLsb', BitVec.getLsbD_append]
  simp [hi, show k + i < 12 by omega]

@[simp] theorem wMajor_jWord (m : BitVec 6) (off : BitVec 26) : wMajor (jWord m off) = m := by
  apply BitVec.eq_of_getLsbD_eq; intro i hi
  simp only [wMajor, jWord, BitVec.getLsbD_extractLsb', BitVec.getLsbD_append]
  interval_cases i <;> simp

@[simp] theorem off_jWord (m : BitVec 6) (off : BitVec 26) : (jWord m off).extractLsb' 0 26 = off := by
  apply BitVec.eq_of_getLsbD_eq; intro i hi
  simp only [jWord, BitVec.getLsbD_extractLsb', BitVec.getLsbD_append]
  interval_cases i <;> simp

@[simp] theorem wMajor_vWord (m : BitVec 6) (o : VOp) (op : BitVec 5) : wMajor (vWord m o op) = m := by
  apply BitVec.eq_of_getLsbD_eq; intro i hi
  simp only [wMajor, vWord, BitVec.getLsbD_extractLsb', BitVec.getLsbD_append]
  interval_cases i <;> simp

@[simp] theorem op_vWord (m : BitVec 6) (o : VOp) (op : BitVec 5) : (vWord m o op).extractLsb' 0 5 = op := by
  apply BitVec.eq_of_getLsbD_eq; intro i hi
  simp only [vWord, BitVec.getLsbD_extractLsb', BitVec.getLsbD_append]
  interval_cases i <;> simp

@[simp] theorem wD_vWord (m : BitVec 6) (o : VOp) (op : BitVec 5) : wD (vWord m o op) = o.vd := by
  apply BitVec.eq_of_getLsbD_eq; intro i hi
  simp only [wD, vWord, BitVec.getLsbD_extractLsb', BitVec.getLsbD_append]
  interval_cases i <;> simp

@[simp] theorem wA_vWord (m : BitVec 6) (o : VOp) (op : BitVec 5) : wA (vWord m o op) = o.vs1 := by
  apply BitVec.eq_of_getLsbD_eq; intro i hi
  simp only [wA, vWord, BitVec.getLsbD_extractLsb', BitVec.getLsbD_append]
  interval_cases i <;> simp

@[simp] theorem wB_vWord (m : BitVec 6) (o : VOp) (op : BitVec 5) : wB (vWord m o op) = o.vs2 := by
  apply BitVec.eq_of_getLsbD_eq; intro i hi
  simp only [wB, vWord, BitVec.getLsbD_extractLsb', BitVec.getLsbD_append]
  interval_cases i <;> simp

@[simp] theorem bit10_vWord (m : BitVec 6) (o : VOp) (op : BitVec 5) : wBit (vWord m o op) 10 = o.m := by
  simp only [wBit, vWord, bit, BitVec.getLsbD_append]; simp

@[simp] theorem bit9_vWord (m : BitVec 6) (o : VOp) (op : BitVec 5) : wBit (vWord m o op) 9 = o.ta := by
  simp only [wBit, vWord, bit, BitVec.getLsbD_append]; simp

@[simp] theorem bit8_vWord (m : BitVec 6) (o : VOp) (op : BitVec 5) : wBit (vWord m o op) 8 = o.ma := by
  simp only [wBit, vWord, bit, BitVec.getLsbD_append]; simp

@[simp] theorem bit7_vWord (m : BitVec 6) (o : VOp) (op : BitVec 5) : wBit (vWord m o op) 7 = o.e := by
  simp only [wBit, vWord, bit, BitVec.getLsbD_append]; simp

@[simp] theorem bit6_vWord (m : BitVec 6) (o : VOp) (op : BitVec 5) : wBit (vWord m o op) 6 = o.q := by
  simp only [wBit, vWord, bit, BitVec.getLsbD_append]; simp

@[simp] theorem bit5_vWord (m : BitVec 6) (o : VOp) (op : BitVec 5) : wBit (vWord m o op) 5 = o.i := by
  simp only [wBit, vWord, bit, BitVec.getLsbD_append]; simp

@[simp] theorem wV_vWord (m : BitVec 6) (o : VOp) (op : BitVec 5) : wV (vWord m o op) = o := by simp [wV]

@[simp] theorem wMajor_vlWord (m : BitVec 6) (o : VLOp) (mode : BitVec 3) : wMajor (vlWord m o mode) = m := by
  apply BitVec.eq_of_getLsbD_eq; intro i hi
  simp only [wMajor, vlWord, BitVec.getLsbD_extractLsb', BitVec.getLsbD_append]
  interval_cases i <;> simp

@[simp] theorem mode_vlWord (m : BitVec 6) (o : VLOp) (mode : BitVec 3) : (vlWord m o mode).extractLsb' 4 3 = mode := by
  apply BitVec.eq_of_getLsbD_eq; intro i hi
  simp only [vlWord, BitVec.getLsbD_extractLsb', BitVec.getLsbD_append]
  interval_cases i <;> simp

@[simp] theorem fmt_vlWord (m : BitVec 6) (o : VLOp) (mode : BitVec 3) : (vlWord m o mode).extractLsb' 0 4 = o.fmt := by
  apply BitVec.eq_of_getLsbD_eq; intro i hi
  simp only [vlWord, BitVec.getLsbD_extractLsb', BitVec.getLsbD_append]
  interval_cases i <;> simp

@[simp] theorem wD_vlWord (m : BitVec 6) (o : VLOp) (mode : BitVec 3) : wD (vlWord m o mode) = o.reg := by
  apply BitVec.eq_of_getLsbD_eq; intro i hi
  simp only [wD, vlWord, BitVec.getLsbD_extractLsb', BitVec.getLsbD_append]
  interval_cases i <;> simp

@[simp] theorem wA_vlWord (m : BitVec 6) (o : VLOp) (mode : BitVec 3) : wA (vlWord m o mode) = o.base := by
  apply BitVec.eq_of_getLsbD_eq; intro i hi
  simp only [wA, vlWord, BitVec.getLsbD_extractLsb', BitVec.getLsbD_append]
  interval_cases i <;> simp

@[simp] theorem wB_vlWord (m : BitVec 6) (o : VLOp) (mode : BitVec 3) : wB (vlWord m o mode) = o.idx := by
  apply BitVec.eq_of_getLsbD_eq; intro i hi
  simp only [wB, vlWord, BitVec.getLsbD_extractLsb', BitVec.getLsbD_append]
  interval_cases i <;> simp

@[simp] theorem bit10_vlWord (m : BitVec 6) (o : VLOp) (mode : BitVec 3) : wBit (vlWord m o mode) 10 = o.m := by
  simp only [wBit, vlWord, bit, BitVec.getLsbD_append]; simp

@[simp] theorem bit9_vlWord (m : BitVec 6) (o : VLOp) (mode : BitVec 3) : wBit (vlWord m o mode) 9 = o.ta := by
  simp only [wBit, vlWord, bit, BitVec.getLsbD_append]; simp

@[simp] theorem bit8_vlWord (m : BitVec 6) (o : VLOp) (mode : BitVec 3) : wBit (vlWord m o mode) 8 = o.ma := by
  simp only [wBit, vlWord, bit, BitVec.getLsbD_append]; simp

@[simp] theorem bit7_vlWord (m : BitVec 6) (o : VLOp) (mode : BitVec 3) : wBit (vlWord m o mode) 7 = o.q := by
  simp only [wBit, vlWord, bit, BitVec.getLsbD_append]; simp

@[simp] theorem wVL_vlWord (m : BitVec 6) (o : VLOp) (mode : BitVec 3) : wVL (vlWord m o mode) = o := by simp [wVL]

@[simp] theorem wMajor_mWord (j : BitVec 6) (t : BitVec 3) (a b c : Reg) (m : Bool) (p : BitVec 3) (f : BitVec 4) : wMajor (mWord j t a b c m p f) = j := by
  apply BitVec.eq_of_getLsbD_eq; intro i hi
  simp only [wMajor, mWord, BitVec.getLsbD_extractLsb', BitVec.getLsbD_append]
  interval_cases i <;> simp

@[simp] theorem wTile_mWord (j : BitVec 6) (t : BitVec 3) (a b c : Reg) (m : Bool) (p : BitVec 3) (f : BitVec 4) : wTile (mWord j t a b c m p f) = t := by
  apply BitVec.eq_of_getLsbD_eq; intro i hi
  simp only [wTile, mWord, BitVec.getLsbD_extractLsb', BitVec.getLsbD_append]
  interval_cases i <;> simp

@[simp] theorem wMa_mWord (j : BitVec 6) (t : BitVec 3) (a b c : Reg) (m : Bool) (p : BitVec 3) (f : BitVec 4) : wMa (mWord j t a b c m p f) = a := by
  apply BitVec.eq_of_getLsbD_eq; intro i hi
  simp only [wMa, mWord, BitVec.getLsbD_extractLsb', BitVec.getLsbD_append]
  interval_cases i <;> simp

@[simp] theorem wMb_mWord (j : BitVec 6) (t : BitVec 3) (a b c : Reg) (m : Bool) (p : BitVec 3) (f : BitVec 4) : wMb (mWord j t a b c m p f) = b := by
  apply BitVec.eq_of_getLsbD_eq; intro i hi
  simp only [wMb, mWord, BitVec.getLsbD_extractLsb', BitVec.getLsbD_append]
  interval_cases i <;> simp

@[simp] theorem wMc_mWord (j : BitVec 6) (t : BitVec 3) (a b c : Reg) (m : Bool) (p : BitVec 3) (f : BitVec 4) : wMc (mWord j t a b c m p f) = c := by
  apply BitVec.eq_of_getLsbD_eq; intro i hi
  simp only [wMc, mWord, BitVec.getLsbD_extractLsb', BitVec.getLsbD_append]
  interval_cases i <;> simp

@[simp] theorem bit7_mWord (j : BitVec 6) (t : BitVec 3) (a b c : Reg) (m : Bool) (p : BitVec 3) (f : BitVec 4) : wBit (mWord j t a b c m p f) 7 = m := by
  simp only [wBit, mWord, bit, BitVec.getLsbD_append]; simp

@[simp] theorem pair_mWord (j : BitVec 6) (t : BitVec 3) (a b c : Reg) (m : Bool) (p : BitVec 3) (f : BitVec 4) : (mWord j t a b c m p f).extractLsb' 4 3 = p := by
  apply BitVec.eq_of_getLsbD_eq; intro i hi
  simp only [mWord, BitVec.getLsbD_extractLsb', BitVec.getLsbD_append]
  interval_cases i <;> simp

@[simp] theorem fn_mWord (j : BitVec 6) (t : BitVec 3) (a b c : Reg) (m : Bool) (p : BitVec 3) (f : BitVec 4) : (mWord j t a b c m p f).extractLsb' 0 4 = f := by
  apply BitVec.eq_of_getLsbD_eq; intro i hi
  simp only [mWord, BitVec.getLsbD_extractLsb', BitVec.getLsbD_append]
  interval_cases i <;> simp

@[simp] theorem wMajor_pWord (m : BitVec 6) (d a b : Reg) (r : BitVec 3) (u v : Bool) (k : BitVec 6) : wMajor (pWord m d a b r u v k) = m := by
  apply BitVec.eq_of_getLsbD_eq; intro i hi
  simp only [wMajor, pWord, BitVec.getLsbD_extractLsb', BitVec.getLsbD_append]
  interval_cases i <;> simp

@[simp] theorem wD_pWord (m : BitVec 6) (d a b : Reg) (r : BitVec 3) (u v : Bool) (k : BitVec 6) : wD (pWord m d a b r u v k) = d := by
  apply BitVec.eq_of_getLsbD_eq; intro i hi
  simp only [wD, pWord, BitVec.getLsbD_extractLsb', BitVec.getLsbD_append]
  interval_cases i <;> simp

@[simp] theorem wA_pWord (m : BitVec 6) (d a b : Reg) (r : BitVec 3) (u v : Bool) (k : BitVec 6) : wA (pWord m d a b r u v k) = a := by
  apply BitVec.eq_of_getLsbD_eq; intro i hi
  simp only [wA, pWord, BitVec.getLsbD_extractLsb', BitVec.getLsbD_append]
  interval_cases i <;> simp

@[simp] theorem wB_pWord (m : BitVec 6) (d a b : Reg) (r : BitVec 3) (u v : Bool) (k : BitVec 6) : wB (pWord m d a b r u v k) = b := by
  apply BitVec.eq_of_getLsbD_eq; intro i hi
  simp only [wB, pWord, BitVec.getLsbD_extractLsb', BitVec.getLsbD_append]
  interval_cases i <;> simp

@[simp] theorem rm_pWord (m : BitVec 6) (d a b : Reg) (r : BitVec 3) (u v : Bool) (k : BitVec 6) : (pWord m d a b r u v k).extractLsb' 8 3 = r := by
  apply BitVec.eq_of_getLsbD_eq; intro i hi
  simp only [pWord, BitVec.getLsbD_extractLsb', BitVec.getLsbD_append]
  interval_cases i <;> simp

@[simp] theorem bit7_pWord (m : BitVec 6) (d a b : Reg) (r : BitVec 3) (u v : Bool) (k : BitVec 6) : wBit (pWord m d a b r u v k) 7 = u := by
  simp only [wBit, pWord, bit, BitVec.getLsbD_append]; simp

@[simp] theorem bit6_pWord (m : BitVec 6) (d a b : Reg) (r : BitVec 3) (u v : Bool) (k : BitVec 6) : wBit (pWord m d a b r u v k) 6 = v := by
  simp only [wBit, pWord, bit, BitVec.getLsbD_append]; simp

@[simp] theorem low6_pWord (m : BitVec 6) (d a b : Reg) (r : BitVec 3) (u v : Bool) (k : BitVec 6) : (pWord m d a b r u v k).extractLsb' 0 6 = k := by
  apply BitVec.eq_of_getLsbD_eq; intro i hi
  simp only [pWord, BitVec.getLsbD_extractLsb', BitVec.getLsbD_append]
  interval_cases i <;> simp

@[simp] theorem bit5_pWord (m : BitVec 6) (d a b : Reg) (r : BitVec 3) (u v : Bool) (e : Bool) (k : BitVec 5) : wBit (pWord m d a b r u v (bit e ++ k)) 5 = e := by
  simp only [wBit, pWord, bit, BitVec.getLsbD_append]; simp

@[simp] theorem low5_pWord (m : BitVec 6) (d a b : Reg) (r : BitVec 3) (u v : Bool) (e : Bool) (k : BitVec 5) : (pWord m d a b r u v (bit e ++ k)).extractLsb' 0 5 = k := by
  apply BitVec.eq_of_getLsbD_eq; intro i hi
  simp only [pWord, BitVec.getLsbD_extractLsb', BitVec.getLsbD_append]
  interval_cases i <;> simp

@[simp] theorem wMajor_setlWord (d a b : Reg) (s : BitVec 1) (vt : BitVec 10) : wMajor (setlWord d a b s vt) = 0x21#6 := by
  apply BitVec.eq_of_getLsbD_eq; intro i hi
  simp only [wMajor, setlWord, BitVec.getLsbD_extractLsb', BitVec.getLsbD_append]
  interval_cases i <;> simp

@[simp] theorem wD_setlWord (d a b : Reg) (s : BitVec 1) (vt : BitVec 10) : wD (setlWord d a b s vt) = d := by
  apply BitVec.eq_of_getLsbD_eq; intro i hi
  simp only [wD, setlWord, BitVec.getLsbD_extractLsb', BitVec.getLsbD_append]
  interval_cases i <;> simp

@[simp] theorem wA_setlWord (d a b : Reg) (s : BitVec 1) (vt : BitVec 10) : wA (setlWord d a b s vt) = a := by
  apply BitVec.eq_of_getLsbD_eq; intro i hi
  simp only [wA, setlWord, BitVec.getLsbD_extractLsb', BitVec.getLsbD_append]
  interval_cases i <;> simp

@[simp] theorem wB_setlWord (d a b : Reg) (s : BitVec 1) (vt : BitVec 10) : wB (setlWord d a b s vt) = b := by
  apply BitVec.eq_of_getLsbD_eq; intro i hi
  simp only [wB, setlWord, BitVec.getLsbD_extractLsb', BitVec.getLsbD_append]
  interval_cases i <;> simp

@[simp] theorem sel_setlWord (d a b : Reg) (s : BitVec 1) (vt : BitVec 10) : (setlWord d a b s vt).extractLsb' 10 1 = s := by
  apply BitVec.eq_of_getLsbD_eq; intro i hi
  simp only [setlWord, BitVec.getLsbD_extractLsb', BitVec.getLsbD_append]
  interval_cases i; simp

@[simp] theorem vt_setlWord (d a b : Reg) (s : BitVec 1) (vt : BitVec 10) : (setlWord d a b s vt).extractLsb' 0 10 = vt := by
  apply BitVec.eq_of_getLsbD_eq; intro i hi
  simp only [setlWord, BitVec.getLsbD_extractLsb', BitVec.getLsbD_append]
  interval_cases i <;> simp

@[simp] theorem wMajor_laneXrd (d a b : Reg) : wMajor (laneXrd d a b) = 0x34#6 := by
  apply BitVec.eq_of_getLsbD_eq; intro i hi
  simp only [wMajor, laneXrd, BitVec.getLsbD_extractLsb', BitVec.getLsbD_append]
  interval_cases i <;> simp

@[simp] theorem f24_laneXrd (d a b : Reg) : (laneXrd d a b).extractLsb' 24 2 = 3#2 := by
  apply BitVec.eq_of_getLsbD_eq; intro i hi
  simp only [laneXrd, BitVec.getLsbD_extractLsb', BitVec.getLsbD_append]
  interval_cases i <;> simp

@[simp] theorem f19_laneXrd (d a b : Reg) : (laneXrd d a b).extractLsb' 19 5 = d := by
  apply BitVec.eq_of_getLsbD_eq; intro i hi
  simp only [laneXrd, BitVec.getLsbD_extractLsb', BitVec.getLsbD_append]
  interval_cases i <;> simp

@[simp] theorem f14_laneXrd (d a b : Reg) : (laneXrd d a b).extractLsb' 14 5 = a := by
  apply BitVec.eq_of_getLsbD_eq; intro i hi
  simp only [laneXrd, BitVec.getLsbD_extractLsb', BitVec.getLsbD_append]
  interval_cases i <;> simp

@[simp] theorem f9_laneXrd (d a b : Reg) : (laneXrd d a b).extractLsb' 9 5 = b := by
  apply BitVec.eq_of_getLsbD_eq; intro i hi
  simp only [laneXrd, BitVec.getLsbD_extractLsb', BitVec.getLsbD_append]
  interval_cases i <;> simp

/-! ## Fields inside fn11 and the immediates -/

@[simp] theorem fps_rm (r : BitVec 3) (c : BitVec 8) : (r ++ c).extractLsb' 8 3 = r := by
  apply BitVec.eq_of_getLsbD_eq; intro i hi
  simp only [ BitVec.getLsbD_extractLsb', BitVec.getLsbD_append]
  interval_cases i <;> simp

@[simp] theorem fps_op (r : BitVec 3) (c : BitVec 8) : (r ++ c).extractLsb' 0 5 = c.extractLsb' 0 5 := by
  apply BitVec.eq_of_getLsbD_eq; intro i hi
  simp only [ BitVec.getLsbD_extractLsb', BitVec.getLsbD_append]
  interval_cases i <;> simp

@[simp] theorem fcvt_rm (r k : BitVec 3) (c : BitVec 5) : (r ++ k ++ c).extractLsb' 8 3 = r := by
  apply BitVec.eq_of_getLsbD_eq; intro i hi
  simp only [ BitVec.getLsbD_extractLsb', BitVec.getLsbD_append]
  interval_cases i <;> simp

@[simp] theorem fcvt_kind (r k : BitVec 3) (c : BitVec 5) : (r ++ k ++ c).extractLsb' 5 3 = k := by
  apply BitVec.eq_of_getLsbD_eq; intro i hi
  simp only [ BitVec.getLsbD_extractLsb', BitVec.getLsbD_append]
  interval_cases i <;> simp

@[simp] theorem fcvt_op (r k : BitVec 3) (c : BitVec 5) : (r ++ k ++ c).extractLsb' 0 5 = c := by
  apply BitVec.eq_of_getLsbD_eq; intro i hi
  simp only [ BitVec.getLsbD_extractLsb', BitVec.getLsbD_append]
  interval_cases i <;> simp

@[simp] theorem shi_op (c : BitVec 10) (n : BitVec 6) : (c ++ n).extractLsb' 6 2 = c.extractLsb' 0 2 := by
  apply BitVec.eq_of_getLsbD_eq; intro i hi
  simp only [ BitVec.getLsbD_extractLsb', BitVec.getLsbD_append]
  interval_cases i <;> simp

@[simp] theorem shi_count (c : BitVec 10) (n : BitVec 6) : (c ++ n).extractLsb' 0 6 = n := by
  apply BitVec.eq_of_getLsbD_eq; intro i hi
  simp only [ BitVec.getLsbD_extractLsb', BitVec.getLsbD_append]
  interval_cases i <;> simp

@[simp] theorem amo_op (c : BitVec 4) (u v : Bool) (k : BitVec 3) (z : BitVec 2) : (c ++ bit u ++ bit v ++ k ++ z).extractLsb' 7 4 = c := by
  apply BitVec.eq_of_getLsbD_eq; intro i hi
  simp only [bit,  BitVec.getLsbD_extractLsb', BitVec.getLsbD_append]
  interval_cases i <;> simp

@[simp] theorem amo_scope (c : BitVec 4) (u v : Bool) (k : BitVec 3) (z : BitVec 2) : (c ++ bit u ++ bit v ++ k ++ z).extractLsb' 2 3 = k := by
  apply BitVec.eq_of_getLsbD_eq; intro i hi
  simp only [bit,  BitVec.getLsbD_extractLsb', BitVec.getLsbD_append]
  interval_cases i <;> simp

@[simp] theorem amo_acq (c : BitVec 4) (u v : Bool) (k : BitVec 3) (z : BitVec 2) : (c ++ bit u ++ bit v ++ k ++ z)[6] = u := by
  rw [← BitVec.getLsbD_eq_getElem]; simp only [bit, BitVec.getLsbD_append]; simp

@[simp] theorem amo_rel (c : BitVec 4) (u v : Bool) (k : BitVec 3) (z : BitVec 2) : (c ++ bit u ++ bit v ++ k ++ z)[5] = v := by
  rw [← BitVec.getLsbD_eq_getElem]; simp only [bit, BitVec.getLsbD_append]; simp

@[simp] theorem fence_scope (c : BitVec 9) (k : BitVec 3) : (c ++ k).extractLsb' 0 3 = k := by
  apply BitVec.eq_of_getLsbD_eq; intro i hi
  simp only [ BitVec.getLsbD_extractLsb', BitVec.getLsbD_append]
  interval_cases i <;> simp

@[simp] theorem sbar_mask (c : BitVec 1) (k : BitVec 11) : (c ++ k).extractLsb' 0 11 = k := by
  apply BitVec.eq_of_getLsbD_eq; intro i hi
  simp only [ BitVec.getLsbD_extractLsb', BitVec.getLsbD_append]
  interval_cases i <;> simp

@[simp] theorem pystat_load (c : BitVec 7) (u : Bool) (k : BitVec 3) : (c ++ bit u ++ k)[0] = k[0] := by
  rw [← BitVec.getLsbD_eq_getElem]; simp only [bit, BitVec.getLsbD_append]; simp

@[simp] theorem pystat_settled (c : BitVec 7) (u : Bool) (k : BitVec 3) : (c ++ bit u ++ k)[3] = u := by
  rw [← BitVec.getLsbD_eq_getElem]; simp only [bit, BitVec.getLsbD_append]; simp

@[simp] theorem pystat_op (c : BitVec 7) (u : Bool) (k : BitVec 3) : (c ++ bit u ++ k).extractLsb' 1 2 = k.extractLsb' 1 2 := by
  apply BitVec.eq_of_getLsbD_eq; intro i hi
  simp only [bit,  BitVec.getLsbD_extractLsb', BitVec.getLsbD_append]
  interval_cases i <;> simp

@[simp] theorem pyld_load (x : Reg) (l : BitVec 4) (u : Bool) (k : BitVec 1) : (x ++ l ++ bit u ++ k)[0] = k[0] := by
  rw [← BitVec.getLsbD_eq_getElem]; simp only [bit, BitVec.getLsbD_append]; simp

@[simp] theorem pyld_settled (x : Reg) (l : BitVec 4) (u : Bool) (k : BitVec 1) : (x ++ l ++ bit u ++ k)[1] = u := by
  rw [← BitVec.getLsbD_eq_getElem]; simp only [bit, BitVec.getLsbD_append]; simp

@[simp] theorem pyld_scale (x : Reg) (l : BitVec 4) (u : Bool) (k : BitVec 1) : (x ++ l ++ bit u ++ k).extractLsb' 6 5 = x := by
  apply BitVec.eq_of_getLsbD_eq; intro i hi
  simp only [bit,  BitVec.getLsbD_extractLsb', BitVec.getLsbD_append]
  interval_cases i <;> simp

@[simp] theorem pyld_level (x : Reg) (l : BitVec 4) (u : Bool) (k : BitVec 1) : (x ++ l ++ bit u ++ k).extractLsb' 2 4 = l := by
  apply BitVec.eq_of_getLsbD_eq; intro i hi
  simp only [bit,  BitVec.getLsbD_extractLsb', BitVec.getLsbD_append]
  interval_cases i <;> simp

@[simp] theorem rcall_op (c : BitVec 5) (n : BitVec 6) : (c ++ n).extractLsb' 6 1 = c.extractLsb' 0 1 := by
  apply BitVec.eq_of_getLsbD_eq; intro i hi
  simp only [ BitVec.getLsbD_extractLsb', BitVec.getLsbD_append]
  interval_cases i; simp

@[simp] theorem rcall_n (c : BitVec 5) (n : BitVec 6) : (c ++ n).extractLsb' 0 6 = n := by
  apply BitVec.eq_of_getLsbD_eq; intro i hi
  simp only [ BitVec.getLsbD_extractLsb', BitVec.getLsbD_append]
  interval_cases i <;> simp

/-! ## Majors -/

variable {w : BitVec 32}

theorem raw_decodeSys (h : wMajor w = 0x00#6) : rawDecode w = decodeSys w := by simp [rawDecode, h]
theorem raw_decodeAlu (h : wMajor w = 0x04#6) : rawDecode w = decodeAlu w := by simp [rawDecode, h]
theorem raw_decodeShi (h : wMajor w = 0x08#6) : rawDecode w = decodeShi w := by simp [rawDecode, h]
theorem raw_decodeFps (h : wMajor w = 0x0A#6) : rawDecode w = decodeFps w := by simp [rawDecode, h]
theorem raw_decodeAmo (h : wMajor w = 0x17#6) : rawDecode w = decodeAmo w := by simp [rawDecode, h]
theorem raw_decodeSetl (h : wMajor w = 0x21#6) : rawDecode w = decodeSetl w := by simp [rawDecode, h]
theorem raw_decodeVint (h : wMajor w = 0x22#6) : rawDecode w = decodeVint w := by simp [rawDecode, h]
theorem raw_decodeVintx (h : wMajor w = 0x23#6) : rawDecode w = decodeVintx w := by simp [rawDecode, h]
theorem raw_decodeVfp (h : wMajor w = 0x24#6) : rawDecode w = decodeVfp w := by simp [rawDecode, h]
theorem raw_decodeVfpx (h : wMajor w = 0x25#6) : rawDecode w = decodeVfpx w := by simp [rawDecode, h]
theorem raw_decodeVpair (h : wMajor w = 0x26#6) : rawDecode w = decodeVpair w := by simp [rawDecode, h]
theorem raw_decodeVred (h : wMajor w = 0x27#6) : rawDecode w = decodeVred w := by simp [rawDecode, h]
theorem raw_decodeVperm (h : wMajor w = 0x28#6) : rawDecode w = decodeVperm w := by simp [rawDecode, h]
theorem raw_decodeVmsk (h : wMajor w = 0x29#6) : rawDecode w = decodeVmsk w := by simp [rawDecode, h]
theorem raw_decodeVcvt (h : wMajor w = 0x2A#6) : rawDecode w = decodeVcvt w := by simp [rawDecode, h]
theorem raw_decodeVxf (h : wMajor w = 0x2B#6) : rawDecode w = decodeVxf w := by simp [rawDecode, h]
theorem raw_decodeVsfu (h : wMajor w = 0x2C#6) : rawDecode w = decodeVsfu w := by simp [rawDecode, h]
theorem raw_decodeVld (h : wMajor w = 0x2D#6) : rawDecode w = decodeVld w := by simp [rawDecode, h]
theorem raw_decodeVst (h : wMajor w = 0x2E#6) : rawDecode w = decodeVst w := by simp [rawDecode, h]
theorem raw_decodeVmv (h : wMajor w = 0x2F#6) : rawDecode w = decodeVmv w := by simp [rawDecode, h]
theorem raw_decodeMopa (h : wMajor w = 0x30#6) : rawDecode w = decodeMopa w := by simp [rawDecode, h]
theorem raw_decodeMtile (h : wMajor w = 0x31#6) : rawDecode w = decodeMtile w := by simp [rawDecode, h]
theorem raw_decodeStrm (h : wMajor w = 0x32#6) : rawDecode w = decodeStrm w := by simp [rawDecode, h]
theorem raw_decodeVrgn (h : wMajor w = 0x33#6) : rawDecode w = decodeVrgn w := by simp [rawDecode, h]
theorem raw_decodeLane (h : wMajor w = 0x34#6) : rawDecode w = decodeLane w := by simp [rawDecode, h]
theorem raw_decodeXeng (h : wMajor w = 0x35#6) : rawDecode w = decodeXeng w := by simp [rawDecode, h]
theorem raw_decodeBank (h : wMajor w = 0x36#6) : rawDecode w = decodeBank w := by simp [rawDecode, h]
theorem raw_decodePyr (h : wMajor w = 0x37#6) : rawDecode w = decodePyr w := by simp [rawDecode, h]
theorem raw_decodeRcall (h : wMajor w = 0x38#6) : rawDecode w = decodeRcall w := by simp [rawDecode, h]
theorem raw_decodeLnch (h : wMajor w = 0x39#6) : rawDecode w = decodeLnch w := by simp [rawDecode, h]
theorem raw_decodeQop (h : wMajor w = 0x3A#6) : rawDecode w = decodeQop w := by simp [rawDecode, h]
theorem raw_decodeSync (h : wMajor w = 0x3B#6) : rawDecode w = decodeSync w := by simp [rawDecode, h]
theorem raw_decodeNmu (h : wMajor w = 0x3C#6) : rawDecode w = decodeNmu w := by simp [rawDecode, h]

/-! ## Accepted words -/

theorem decode_of_raw {w : BitVec 32} {i : Instr} (h : rawDecode w = some i) (hw : i.wf = true) (he : encode i = w) :
    decode w = .ok i := by simp [decode, h, hw, he]

/-- A word is accepted only as an instruction that is well formed and spells exactly it. -/
theorem decode_sound {w : BitVec 32} {i : Instr} (h : decode w = .ok i) :
    rawDecode w = some i ∧ i.wf = true ∧ encode i = w := by
  unfold decode at h
  split at h
  · split at h <;> cases h
  · split at h
    · cases h; simp_all
    · cases h

end Sys2Proof
end

