-- ==== Sys2Proof/Laws/Numbers.lean ====
section
/-!
SUPPORT. The integers of R34 as bit vectors: two's complement reading, wrapping, and the counts of R49.
-/

namespace Sys2Proof.Machine

theorem sintN_toInt {w : Nat} (hw : 0 < w) (a : BitVec w) : sintN w a.toNat = a.toInt := by
  obtain ⟨k, rfl⟩ : ∃ k, w = k + 1 := ⟨w - 1, by omega⟩
  have e : 2 ^ (k + 1) = 2 * 2 ^ k := by rw [Nat.pow_succ']
  have e' : (2 : Int) ^ (k + 1) = ((2 ^ (k + 1) : Nat) : Int) := by push_cast; rfl
  simp only [sintN, BitVec.toInt_eq_toNat_cond, Nat.add_sub_cancel, e']
  split <;> split <;> (first | rfl | omega)

theorem wrapN_lt (x : Int) (w : Nat) : wrapN x w < 2 ^ w := by
  have e : ((2 : Int) ^ w) = ((2 ^ w : Nat) : Int) := by push_cast; rfl
  have h := Int.emod_lt_of_pos x (show (0 : Int) < 2 ^ w by positivity)
  have h' := Int.emod_nonneg x (show ((2 : Int) ^ w) ≠ 0 by positivity)
  simp only [wrapN]
  omega

theorem ofNat_wrapN (w : Nat) (x : Int) : BitVec.ofNat w (wrapN x w) = BitVec.ofInt w x := by
  apply BitVec.eq_of_toNat_eq
  rw [BitVec.toNat_ofNat, Nat.mod_eq_of_lt (wrapN_lt x w), BitVec.toNat_ofInt, wrapN]
  push_cast; rfl

theorem ofInt_toNat_sub {w : Nat} (a b : BitVec w) : BitVec.ofInt w ((a.toNat : Int) - b.toNat) = a - b := by
  apply BitVec.eq_of_toInt_eq
  rw [BitVec.toInt_ofInt, BitVec.toInt_sub, BitVec.toInt_eq_toNat_bmod a, BitVec.toInt_eq_toNat_bmod b]
  simp

theorem ctzN_eq (w x : Nat) : ctzN w x = (List.range w).countP (fun k => decide (x % 2 ^ (k + 1) = 0)) := by
  induction w generalizing x with
  | zero => rfl
  | succ w ih =>
    rw [ctzN, List.range_succ_eq_map, List.countP_cons, List.countP_map]
    by_cases h : x % 2 = 1
    · have h0 : ∀ k ∈ List.range w, ¬ ((fun k => decide (x % 2 ^ (k + 1) = 0)) ∘ Nat.succ) k = true := by
        intro k _
        simp only [Function.comp, decide_eq_true_eq]
        intro h2
        have : 2 ∣ x := dvd_trans (dvd_pow_self 2 (by omega)) (Nat.dvd_of_mod_eq_zero h2)
        omega
      rw [List.countP_eq_zero.mpr h0]
      simp [h]
    · have h1 : x % 2 = 0 := by omega
      have h2 : (List.range w).countP ((fun k => decide (x % 2 ^ (k + 1) = 0)) ∘ Nat.succ) =
          (List.range w).countP (fun k => decide (x / 2 % 2 ^ (k + 1) = 0)) := by
        apply List.countP_congr
        intro k _
        simp only [Function.comp, decide_eq_true_eq, Nat.succ_eq_add_one]
        have e : 2 ^ (k + 1 + 1) = 2 * 2 ^ (k + 1) := by ring
        rw [e, Nat.mod_mul, h1]
        omega
      rw [h2, ← ih]
      simp [h1]; omega

theorem popcN_eq {w : Nat} (a : BitVec w) (n : Nat) : popcN n a.toNat = (List.range n).countP (fun k => a.getLsbD k) := by
  have key : ∀ n x, popcN n x = (List.range n).countP (fun k => x.testBit k) := by
    intro n
    induction n with
    | zero => intro x; rfl
    | succ n ih =>
      intro x
      rw [popcN, List.range_succ_eq_map, List.countP_cons, List.countP_map, ih]
      have h2 : (List.range n).countP ((fun k => x.testBit k) ∘ Nat.succ) = (List.range n).countP (fun k => (x / 2).testBit k) :=
        List.countP_congr (fun k _ => by simp [Function.comp, Nat.testBit_succ])
      rw [h2]
      simp only [Nat.testBit_zero, decide_eq_true_eq]
      split <;> omega
  rw [key]
  rfl

theorem clzN_eq {w x : Nat} (hx : x < 2 ^ w) :
    clzN w x = (List.range w).countP (fun k => decide (x < 2 ^ (w - 1 - k))) := by
  unfold clzN
  by_cases h0 : x = 0
  · subst h0
    simp
  · have hl : x.log2 < w := (Nat.log2_lt h0).mpr hx
    have hc : ∀ k ∈ List.range w, (decide (x < 2 ^ (w - 1 - k))) = decide (k < w - 1 - x.log2) := by
      intro k hk
      have hk' : k < w := by simpa using hk
      rw [decide_eq_decide, ← Nat.log2_lt h0]
      omega
    rw [List.countP_congr (q := fun k => decide (k < w - 1 - x.log2)) (fun k hk => by rw [hc k hk])]
    have hr : ∀ n m, m ≤ n → (List.range n).countP (fun k => decide (k < m)) = m := by
      intro n
      induction n with
      | zero => intro m hm; simp; omega
      | succ n ih =>
        intro m hm
        rw [List.range_succ, List.countP_append]
        rcases Nat.lt_or_ge n m with h | h
        · have : m = n + 1 := by omega
          subst this
          have h3 : ∀ k ∈ List.range n, decide (k < n + 1) = true := fun k hk => by simp at hk ⊢; omega
          rw [List.countP_eq_length.mpr h3]
          simp
        · rw [ih m h]; simp; omega
    rw [hr _ _ (by omega)]
    simp [h0]

end Sys2Proof.Machine
end

