-- ==== Sys2Proof/Laws/PerInstr.lean ====
section
/-!
SUPPORT. The statements about every instruction as syntax, one lemma per constructor.  RoundTrip: decoding the word of a
well-formed instruction gives it back (R85 to R104); a row without a word has nothing to decode.
-/

set_option Elab.async false

namespace Sys2Proof.Laws.RoundTrip

def Statement (i : Instr) : Prop := i.hasWord = true → i.wf = true → decode (encode i) = .ok i

theorem add (d : Reg) (a : Reg) (b : Reg) : Statement (.add d a b) := fun _ hw =>
  decode_of_raw ((raw_decodeAlu (by simp [encode, addWord])).trans (by simp [decodeAlu, encode, addWord])) hw rfl

theorem sub (d : Reg) (a : Reg) (b : Reg) : Statement (.sub d a b) := fun _ hw =>
  decode_of_raw ((raw_decodeAlu (by simp [encode, subWord])).trans (by simp [decodeAlu, encode, subWord])) hw rfl

theorem and (d : Reg) (a : Reg) (b : Reg) : Statement (.and d a b) := fun _ hw =>
  decode_of_raw ((raw_decodeAlu (by simp [encode, andWord])).trans (by simp [decodeAlu, encode, andWord])) hw rfl

theorem or (d : Reg) (a : Reg) (b : Reg) : Statement (.or d a b) := fun _ hw =>
  decode_of_raw ((raw_decodeAlu (by simp [encode, orWord])).trans (by simp [decodeAlu, encode, orWord])) hw rfl

theorem xor (d : Reg) (a : Reg) (b : Reg) : Statement (.xor d a b) := fun _ hw =>
  decode_of_raw ((raw_decodeAlu (by simp [encode, xorWord])).trans (by simp [decodeAlu, encode, xorWord])) hw rfl

theorem andn (d : Reg) (a : Reg) (b : Reg) : Statement (.andn d a b) := fun _ hw =>
  decode_of_raw ((raw_decodeAlu (by simp [encode, andnWord])).trans (by simp [decodeAlu, encode, andnWord])) hw rfl

theorem shl (d : Reg) (a : Reg) (b : Reg) : Statement (.shl d a b) := fun _ hw =>
  decode_of_raw ((raw_decodeAlu (by simp [encode, shlWord])).trans (by simp [decodeAlu, encode, shlWord])) hw rfl

theorem shr (d : Reg) (a : Reg) (b : Reg) : Statement (.shr d a b) := fun _ hw =>
  decode_of_raw ((raw_decodeAlu (by simp [encode, shrWord])).trans (by simp [decodeAlu, encode, shrWord])) hw rfl

theorem sra (d : Reg) (a : Reg) (b : Reg) : Statement (.sra d a b) := fun _ hw =>
  decode_of_raw ((raw_decodeAlu (by simp [encode, sraWord])).trans (by simp [decodeAlu, encode, sraWord])) hw rfl

theorem rol (d : Reg) (a : Reg) (b : Reg) : Statement (.rol d a b) := fun _ hw =>
  decode_of_raw ((raw_decodeAlu (by simp [encode, rolWord])).trans (by simp [decodeAlu, encode, rolWord])) hw rfl

theorem ror (d : Reg) (a : Reg) (b : Reg) : Statement (.ror d a b) := fun _ hw =>
  decode_of_raw ((raw_decodeAlu (by simp [encode, rorWord])).trans (by simp [decodeAlu, encode, rorWord])) hw rfl

theorem slt (d : Reg) (a : Reg) (b : Reg) : Statement (.slt d a b) := fun _ hw =>
  decode_of_raw ((raw_decodeAlu (by simp [encode, sltWord])).trans (by simp [decodeAlu, encode, sltWord])) hw rfl

theorem sltn (d : Reg) (a : Reg) (b : Reg) : Statement (.sltn d a b) := fun _ hw =>
  decode_of_raw ((raw_decodeAlu (by simp [encode, sltnWord])).trans (by simp [decodeAlu, encode, sltnWord])) hw rfl

theorem min (d : Reg) (a : Reg) (b : Reg) : Statement (.min d a b) := fun _ hw =>
  decode_of_raw ((raw_decodeAlu (by simp [encode, minWord])).trans (by simp [decodeAlu, encode, minWord])) hw rfl

theorem max (d : Reg) (a : Reg) (b : Reg) : Statement (.max d a b) := fun _ hw =>
  decode_of_raw ((raw_decodeAlu (by simp [encode, maxWord])).trans (by simp [decodeAlu, encode, maxWord])) hw rfl

theorem minn (d : Reg) (a : Reg) (b : Reg) : Statement (.minn d a b) := fun _ hw =>
  decode_of_raw ((raw_decodeAlu (by simp [encode, minnWord])).trans (by simp [decodeAlu, encode, minnWord])) hw rfl

theorem maxn (d : Reg) (a : Reg) (b : Reg) : Statement (.maxn d a b) := fun _ hw =>
  decode_of_raw ((raw_decodeAlu (by simp [encode, maxnWord])).trans (by simp [decodeAlu, encode, maxnWord])) hw rfl

theorem mul (d : Reg) (a : Reg) (b : Reg) : Statement (.mul d a b) := fun _ hw =>
  decode_of_raw ((raw_decodeAlu (by simp [encode, mulWord])).trans (by simp [decodeAlu, encode, mulWord])) hw rfl

theorem mulh (d : Reg) (a : Reg) (b : Reg) : Statement (.mulh d a b) := fun _ hw =>
  decode_of_raw ((raw_decodeAlu (by simp [encode, mulhWord])).trans (by simp [decodeAlu, encode, mulhWord])) hw rfl

theorem mulhn (d : Reg) (a : Reg) (b : Reg) : Statement (.mulhn d a b) := fun _ hw =>
  decode_of_raw ((raw_decodeAlu (by simp [encode, mulhnWord])).trans (by simp [decodeAlu, encode, mulhnWord])) hw rfl

theorem div (d : Reg) (a : Reg) (b : Reg) : Statement (.div d a b) := fun _ hw =>
  decode_of_raw ((raw_decodeAlu (by simp [encode, divWord])).trans (by simp [decodeAlu, encode, divWord])) hw rfl

theorem divn (d : Reg) (a : Reg) (b : Reg) : Statement (.divn d a b) := fun _ hw =>
  decode_of_raw ((raw_decodeAlu (by simp [encode, divnWord])).trans (by simp [decodeAlu, encode, divnWord])) hw rfl

theorem rem (d : Reg) (a : Reg) (b : Reg) : Statement (.rem d a b) := fun _ hw =>
  decode_of_raw ((raw_decodeAlu (by simp [encode, remWord])).trans (by simp [decodeAlu, encode, remWord])) hw rfl

theorem remn (d : Reg) (a : Reg) (b : Reg) : Statement (.remn d a b) := fun _ hw =>
  decode_of_raw ((raw_decodeAlu (by simp [encode, remnWord])).trans (by simp [decodeAlu, encode, remnWord])) hw rfl

theorem clz (d : Reg) (a : Reg) : Statement (.clz d a) := fun _ hw =>
  decode_of_raw ((raw_decodeAlu (by simp [encode, clzWord])).trans (by simp [decodeAlu, encode, clzWord])) hw rfl

theorem ctz (d : Reg) (a : Reg) : Statement (.ctz d a) := fun _ hw =>
  decode_of_raw ((raw_decodeAlu (by simp [encode, ctzWord])).trans (by simp [decodeAlu, encode, ctzWord])) hw rfl

theorem popc (d : Reg) (a : Reg) : Statement (.popc d a) := fun _ hw =>
  decode_of_raw ((raw_decodeAlu (by simp [encode, popcWord])).trans (by simp [decodeAlu, encode, popcWord])) hw rfl

theorem sextb (d : Reg) (a : Reg) : Statement (.sextb d a) := fun _ hw =>
  decode_of_raw ((raw_decodeAlu (by simp [encode, sextbWord])).trans (by simp [decodeAlu, encode, sextbWord])) hw rfl

theorem sexth (d : Reg) (a : Reg) : Statement (.sexth d a) := fun _ hw =>
  decode_of_raw ((raw_decodeAlu (by simp [encode, sexthWord])).trans (by simp [decodeAlu, encode, sexthWord])) hw rfl

theorem sextw (d : Reg) (a : Reg) : Statement (.sextw d a) := fun _ hw =>
  decode_of_raw ((raw_decodeAlu (by simp [encode, sextwWord])).trans (by simp [decodeAlu, encode, sextwWord])) hw rfl

theorem addi (d : Reg) (a : Reg) (imm : BitVec 16) : Statement (.addi d a imm) := fun _ hw =>
  decode_of_raw (by simp [rawDecode, encode, addiWord]) hw rfl

theorem andi (d : Reg) (a : Reg) (imm : BitVec 16) : Statement (.andi d a imm) := fun _ hw =>
  decode_of_raw (by simp [rawDecode, encode, andiWord]) hw rfl

theorem ori (d : Reg) (a : Reg) (imm : BitVec 16) : Statement (.ori d a imm) := fun _ hw =>
  decode_of_raw (by simp [rawDecode, encode, oriWord]) hw rfl

theorem xori (d : Reg) (a : Reg) (imm : BitVec 16) : Statement (.xori d a imm) := fun _ hw =>
  decode_of_raw (by simp [rawDecode, encode, xoriWord]) hw rfl

theorem slti (d : Reg) (a : Reg) (imm : BitVec 16) : Statement (.slti d a imm) := fun _ hw =>
  decode_of_raw (by simp [rawDecode, encode, sltiWord]) hw rfl

theorem lih (d : Reg) (a : Reg) (imm : BitVec 16) : Statement (.lih d a imm) := fun _ hw =>
  decode_of_raw (by simp [rawDecode, encode, lihWord]) hw rfl

theorem shli (d : Reg) (a : Reg) (sh : BitVec 6) : Statement (.shli d a sh) := fun _ hw =>
  decode_of_raw ((raw_decodeShi (by simp [encode, shliWord])).trans (by simp [decodeShi, encode, shliWord])) hw rfl

theorem shri (d : Reg) (a : Reg) (sh : BitVec 6) : Statement (.shri d a sh) := fun _ hw =>
  decode_of_raw ((raw_decodeShi (by simp [encode, shriWord])).trans (by simp [decodeShi, encode, shriWord])) hw rfl

theorem srai (d : Reg) (a : Reg) (sh : BitVec 6) : Statement (.srai d a sh) := fun _ hw =>
  decode_of_raw ((raw_decodeShi (by simp [encode, sraiWord])).trans (by simp [decodeShi, encode, sraiWord])) hw rfl

theorem fadd (d : Reg) (a : Reg) (b : Reg) (rm : BitVec 3) : Statement (.fadd d a b rm) := fun _ hw =>
  decode_of_raw ((raw_decodeFps (by simp [encode, faddWord])).trans (by simp [decodeFps, encode, faddWord])) hw rfl

theorem fsub (d : Reg) (a : Reg) (b : Reg) (rm : BitVec 3) : Statement (.fsub d a b rm) := fun _ hw =>
  decode_of_raw ((raw_decodeFps (by simp [encode, fsubWord])).trans (by simp [decodeFps, encode, fsubWord])) hw rfl

theorem fmul (d : Reg) (a : Reg) (b : Reg) (rm : BitVec 3) : Statement (.fmul d a b rm) := fun _ hw =>
  decode_of_raw ((raw_decodeFps (by simp [encode, fmulWord])).trans (by simp [decodeFps, encode, fmulWord])) hw rfl

theorem fdiv (d : Reg) (a : Reg) (b : Reg) (rm : BitVec 3) : Statement (.fdiv d a b rm) := fun _ hw =>
  decode_of_raw ((raw_decodeFps (by simp [encode, fdivWord])).trans (by simp [decodeFps, encode, fdivWord])) hw rfl

theorem fsqrt (d : Reg) (a : Reg) (rm : BitVec 3) : Statement (.fsqrt d a rm) := fun _ hw =>
  decode_of_raw ((raw_decodeFps (by simp [encode, fsqrtWord])).trans (by simp [decodeFps, encode, fsqrtWord])) hw rfl

theorem fmadd (d : Reg) (a : Reg) (b : Reg) (rm : BitVec 3) : Statement (.fmadd d a b rm) := fun _ hw =>
  decode_of_raw ((raw_decodeFps (by simp [encode, fmaddWord])).trans (by simp [decodeFps, encode, fmaddWord])) hw rfl

theorem fmin (d : Reg) (a : Reg) (b : Reg) : Statement (.fmin d a b) := fun _ hw =>
  decode_of_raw ((raw_decodeFps (by simp [encode, fminWord])).trans (by simp [decodeFps, encode, fminWord])) hw rfl

theorem fmax (d : Reg) (a : Reg) (b : Reg) : Statement (.fmax d a b) := fun _ hw =>
  decode_of_raw ((raw_decodeFps (by simp [encode, fmaxWord])).trans (by simp [decodeFps, encode, fmaxWord])) hw rfl

theorem feq (d : Reg) (a : Reg) (b : Reg) : Statement (.feq d a b) := fun _ hw =>
  decode_of_raw ((raw_decodeFps (by simp [encode, feqWord])).trans (by simp [decodeFps, encode, feqWord])) hw rfl

theorem flt (d : Reg) (a : Reg) (b : Reg) : Statement (.flt d a b) := fun _ hw =>
  decode_of_raw ((raw_decodeFps (by simp [encode, fltWord])).trans (by simp [decodeFps, encode, fltWord])) hw rfl

theorem fle (d : Reg) (a : Reg) (b : Reg) : Statement (.fle d a b) := fun _ hw =>
  decode_of_raw ((raw_decodeFps (by simp [encode, fleWord])).trans (by simp [decodeFps, encode, fleWord])) hw rfl

theorem fcvt (d : Reg) (a : Reg) (kind : BitVec 3) (rm : BitVec 3) : Statement (.fcvt d a kind rm) := fun _ hw =>
  decode_of_raw ((raw_decodeFps (by simp [encode, fcvtWord])).trans (by simp [decodeFps, encode, fcvtWord])) hw rfl

theorem fclass (d : Reg) (a : Reg) : Statement (.fclass d a) := fun _ hw =>
  decode_of_raw ((raw_decodeFps (by simp [encode, fclassWord])).trans (by simp [decodeFps, encode, fclassWord])) hw rfl

theorem ldb (d : Reg) (a : Reg) (imm : BitVec 16) : Statement (.ldb d a imm) := fun _ hw =>
  decode_of_raw (by simp [rawDecode, encode, ldbWord]) hw rfl

theorem ldh (d : Reg) (a : Reg) (imm : BitVec 16) : Statement (.ldh d a imm) := fun _ hw =>
  decode_of_raw (by simp [rawDecode, encode, ldhWord]) hw rfl

theorem ldw (d : Reg) (a : Reg) (imm : BitVec 16) : Statement (.ldw d a imm) := fun _ hw =>
  decode_of_raw (by simp [rawDecode, encode, ldwWord]) hw rfl

theorem ldd (d : Reg) (a : Reg) (imm : BitVec 16) : Statement (.ldd d a imm) := fun _ hw =>
  decode_of_raw (by simp [rawDecode, encode, lddWord]) hw rfl

theorem ldbn (d : Reg) (a : Reg) (imm : BitVec 16) : Statement (.ldbn d a imm) := fun _ hw =>
  decode_of_raw (by simp [rawDecode, encode, ldbnWord]) hw rfl

theorem ldhn (d : Reg) (a : Reg) (imm : BitVec 16) : Statement (.ldhn d a imm) := fun _ hw =>
  decode_of_raw (by simp [rawDecode, encode, ldhnWord]) hw rfl

theorem ldwn (d : Reg) (a : Reg) (imm : BitVec 16) : Statement (.ldwn d a imm) := fun _ hw =>
  decode_of_raw (by simp [rawDecode, encode, ldwnWord]) hw rfl

theorem stb (s : Reg) (a : Reg) (imm : BitVec 16) : Statement (.stb s a imm) := fun _ hw =>
  decode_of_raw (by simp [rawDecode, encode, stbWord]) hw rfl

theorem sth (s : Reg) (a : Reg) (imm : BitVec 16) : Statement (.sth s a imm) := fun _ hw =>
  decode_of_raw (by simp [rawDecode, encode, sthWord]) hw rfl

theorem stw (s : Reg) (a : Reg) (imm : BitVec 16) : Statement (.stw s a imm) := fun _ hw =>
  decode_of_raw (by simp [rawDecode, encode, stwWord]) hw rfl

theorem std (s : Reg) (a : Reg) (imm : BitVec 16) : Statement (.std s a imm) := fun _ hw =>
  decode_of_raw (by simp [rawDecode, encode, stdWord]) hw rfl

theorem amoadd (d : Reg) (a : Reg) (b : Reg) (acq : Bool) (rel : Bool) (scope : BitVec 3) : Statement (.amoadd d a b acq rel scope) := fun _ hw =>
  decode_of_raw ((raw_decodeAmo (by simp [encode, amoaddWord])).trans (by simp [decodeAmo, encode, amoaddWord])) hw rfl

theorem amoand (d : Reg) (a : Reg) (b : Reg) (acq : Bool) (rel : Bool) (scope : BitVec 3) : Statement (.amoand d a b acq rel scope) := fun _ hw =>
  decode_of_raw ((raw_decodeAmo (by simp [encode, amoandWord])).trans (by simp [decodeAmo, encode, amoandWord])) hw rfl

theorem amoor (d : Reg) (a : Reg) (b : Reg) (acq : Bool) (rel : Bool) (scope : BitVec 3) : Statement (.amoor d a b acq rel scope) := fun _ hw =>
  decode_of_raw ((raw_decodeAmo (by simp [encode, amoorWord])).trans (by simp [decodeAmo, encode, amoorWord])) hw rfl

theorem amoxor (d : Reg) (a : Reg) (b : Reg) (acq : Bool) (rel : Bool) (scope : BitVec 3) : Statement (.amoxor d a b acq rel scope) := fun _ hw =>
  decode_of_raw ((raw_decodeAmo (by simp [encode, amoxorWord])).trans (by simp [decodeAmo, encode, amoxorWord])) hw rfl

theorem amomin (d : Reg) (a : Reg) (b : Reg) (acq : Bool) (rel : Bool) (scope : BitVec 3) : Statement (.amomin d a b acq rel scope) := fun _ hw =>
  decode_of_raw ((raw_decodeAmo (by simp [encode, amominWord])).trans (by simp [decodeAmo, encode, amominWord])) hw rfl

theorem amomax (d : Reg) (a : Reg) (b : Reg) (acq : Bool) (rel : Bool) (scope : BitVec 3) : Statement (.amomax d a b acq rel scope) := fun _ hw =>
  decode_of_raw ((raw_decodeAmo (by simp [encode, amomaxWord])).trans (by simp [decodeAmo, encode, amomaxWord])) hw rfl

theorem amominn (d : Reg) (a : Reg) (b : Reg) (acq : Bool) (rel : Bool) (scope : BitVec 3) : Statement (.amominn d a b acq rel scope) := fun _ hw =>
  decode_of_raw ((raw_decodeAmo (by simp [encode, amominnWord])).trans (by simp [decodeAmo, encode, amominnWord])) hw rfl

theorem amomaxn (d : Reg) (a : Reg) (b : Reg) (acq : Bool) (rel : Bool) (scope : BitVec 3) : Statement (.amomaxn d a b acq rel scope) := fun _ hw =>
  decode_of_raw ((raw_decodeAmo (by simp [encode, amomaxnWord])).trans (by simp [decodeAmo, encode, amomaxnWord])) hw rfl

theorem amoswap (d : Reg) (a : Reg) (b : Reg) (acq : Bool) (rel : Bool) (scope : BitVec 3) : Statement (.amoswap d a b acq rel scope) := fun _ hw =>
  decode_of_raw ((raw_decodeAmo (by simp [encode, amoswapWord])).trans (by simp [decodeAmo, encode, amoswapWord])) hw rfl

theorem amocas (d : Reg) (a : Reg) (b : Reg) (acq : Bool) (rel : Bool) (scope : BitVec 3) : Statement (.amocas d a b acq rel scope) := fun _ hw =>
  decode_of_raw ((raw_decodeAmo (by simp [encode, amocasWord])).trans (by simp [decodeAmo, encode, amocasWord])) hw rfl

theorem amofadd (d : Reg) (a : Reg) (b : Reg) (acq : Bool) (rel : Bool) (scope : BitVec 3) : Statement (.amofadd d a b acq rel scope) := fun _ hw =>
  decode_of_raw ((raw_decodeAmo (by simp [encode, amofaddWord])).trans (by simp [decodeAmo, encode, amofaddWord])) hw rfl

theorem beq (a : Reg) (b : Reg) (off : BitVec 16) : Statement (.beq a b off) := fun _ hw =>
  decode_of_raw (by simp [rawDecode, encode, beqWord]) hw rfl

theorem bne (a : Reg) (b : Reg) (off : BitVec 16) : Statement (.bne a b off) := fun _ hw =>
  decode_of_raw (by simp [rawDecode, encode, bneWord]) hw rfl

theorem blt (a : Reg) (b : Reg) (off : BitVec 16) : Statement (.blt a b off) := fun _ hw =>
  decode_of_raw (by simp [rawDecode, encode, bltWord]) hw rfl

theorem bge (a : Reg) (b : Reg) (off : BitVec 16) : Statement (.bge a b off) := fun _ hw =>
  decode_of_raw (by simp [rawDecode, encode, bgeWord]) hw rfl

theorem bltn (a : Reg) (b : Reg) (off : BitVec 16) : Statement (.bltn a b off) := fun _ hw =>
  decode_of_raw (by simp [rawDecode, encode, bltnWord]) hw rfl

theorem bgen (a : Reg) (b : Reg) (off : BitVec 16) : Statement (.bgen a b off) := fun _ hw =>
  decode_of_raw (by simp [rawDecode, encode, bgenWord]) hw rfl

theorem jal (off : BitVec 26) : Statement (.jal off) := fun _ hw =>
  decode_of_raw (by simp [rawDecode, encode, jalWord]) hw rfl

theorem jalr (d : Reg) (a : Reg) (imm : BitVec 16) : Statement (.jalr d a imm) := fun _ hw =>
  decode_of_raw (by simp [rawDecode, encode, jalrWord]) hw rfl

theorem loop (a : Reg) (off : BitVec 16) : Statement (.loop a off) := fun _ hw =>
  decode_of_raw (by simp [rawDecode, encode, loopWord]) hw rfl

theorem csrr (d : Reg) (csr : BitVec 12) : Statement (.csrr d csr) := fun _ hw =>
  decode_of_raw ((raw_decodeSys (by simp [encode, csrrWord])).trans (by simp [decodeSys, encode, csrrWord])) hw rfl

theorem csrw (a : Reg) (csr : BitVec 12) : Statement (.csrw a csr) := fun _ hw =>
  decode_of_raw ((raw_decodeSys (by simp [encode, csrwWord])).trans (by simp [decodeSys, encode, csrwWord])) hw rfl

theorem csrs (a : Reg) (csr : BitVec 12) : Statement (.csrs a csr) := fun _ hw =>
  decode_of_raw ((raw_decodeSys (by simp [encode, csrsWord])).trans (by simp [decodeSys, encode, csrsWord])) hw rfl

theorem csrc (a : Reg) (csr : BitVec 12) : Statement (.csrc a csr) := fun _ hw =>
  decode_of_raw ((raw_decodeSys (by simp [encode, csrcWord])).trans (by simp [decodeSys, encode, csrcWord])) hw rfl

theorem trap (imm : BitVec 12) : Statement (.trap imm) := fun _ hw =>
  decode_of_raw ((raw_decodeSys (by simp [encode, trapWord])).trans (by simp [decodeSys, encode, trapWord])) hw rfl

theorem brk (imm : BitVec 12) : Statement (.brk imm) := fun _ hw =>
  decode_of_raw ((raw_decodeSys (by simp [encode, brkWord])).trans (by simp [decodeSys, encode, brkWord])) hw rfl

theorem eret : Statement .eret := fun _ hw =>
  decode_of_raw ((raw_decodeSys (by simp [encode, eretWord])).trans (by simp [decodeSys, encode, eretWord])) hw rfl

theorem fence (scope : BitVec 3) : Statement (.fence scope) := fun _ hw =>
  decode_of_raw ((raw_decodeSys (by simp [encode, fenceWord])).trans (by simp [decodeSys, encode, fenceWord])) hw rfl

theorem fenceSv : Statement .fenceSv := fun _ hw =>
  decode_of_raw ((raw_decodeSys (by simp [encode, fenceSvWord])).trans (by simp [decodeSys, encode, fenceSvWord])) hw rfl

theorem fenceVs : Statement .fenceVs := fun _ hw =>
  decode_of_raw ((raw_decodeSys (by simp [encode, fenceVsWord])).trans (by simp [decodeSys, encode, fenceVsWord])) hw rfl

theorem fenceVv : Statement .fenceVv := fun _ hw =>
  decode_of_raw ((raw_decodeSys (by simp [encode, fenceVvWord])).trans (by simp [decodeSys, encode, fenceVvWord])) hw rfl

theorem sbar (mask : BitVec 11) : Statement (.sbar mask) := fun _ hw =>
  decode_of_raw ((raw_decodeSys (by simp [encode, sbarWord])).trans (by simp [decodeSys, encode, sbarWord])) hw rfl

theorem ifence : Statement .ifence := fun _ hw =>
  decode_of_raw ((raw_decodeSys (by simp [encode, ifenceWord])).trans (by simp [decodeSys, encode, ifenceWord])) hw rfl

theorem yield : Statement .yield := fun _ hw =>
  decode_of_raw ((raw_decodeSys (by simp [encode, yieldWord])).trans (by simp [decodeSys, encode, yieldWord])) hw rfl

theorem halt : Statement .halt := fun _ hw =>
  decode_of_raw ((raw_decodeSys (by simp [encode, haltWord])).trans (by simp [decodeSys, encode, haltWord])) hw rfl

theorem haltDrained (h : Nat) : Statement (.haltDrained h) := fun h => nomatch h

theorem pfx (pred : Reg) (copy : Reg) (emask : Reg) (rm : BitVec 3) (pv : Bool) (cv : Bool) (ev : Bool) (chain : BitVec 5) : Statement (.pfx pred copy emask rm pv cv ev chain) := fun _ hw =>
  decode_of_raw (by simp [rawDecode, encode, pfxWord]) hw rfl

theorem vsetl (d : Reg) (a : Reg) (b : Reg) (vt : BitVec 10) : Statement (.vsetl d a b vt) := fun _ hw =>
  decode_of_raw ((raw_decodeSetl (by simp [encode, vsetlWord])).trans (by simp [decodeSetl, encode, vsetlWord])) hw rfl

theorem vlenq (d : Reg) : Statement (.vlenq d) := fun _ hw =>
  decode_of_raw ((raw_decodeSetl (by simp [encode, vlenqWord])).trans (by simp [decodeSetl, encode, vlenqWord])) hw rfl

theorem vadd (o : VOp) : Statement (.vadd o) := fun _ hw =>
  decode_of_raw ((raw_decodeVint (by simp [encode, vaddWord])).trans (by simp [decodeVint, encode, vaddWord])) hw rfl

theorem vsub (o : VOp) : Statement (.vsub o) := fun _ hw =>
  decode_of_raw ((raw_decodeVint (by simp [encode, vsubWord])).trans (by simp [decodeVint, encode, vsubWord])) hw rfl

theorem vrsub (o : VOp) : Statement (.vrsub o) := fun _ hw =>
  decode_of_raw ((raw_decodeVint (by simp [encode, vrsubWord])).trans (by simp [decodeVint, encode, vrsubWord])) hw rfl

theorem vmul (o : VOp) : Statement (.vmul o) := fun _ hw =>
  decode_of_raw ((raw_decodeVint (by simp [encode, vmulWord])).trans (by simp [decodeVint, encode, vmulWord])) hw rfl

theorem vmulh (o : VOp) : Statement (.vmulh o) := fun _ hw =>
  decode_of_raw ((raw_decodeVint (by simp [encode, vmulhWord])).trans (by simp [decodeVint, encode, vmulhWord])) hw rfl

theorem vmulhn (o : VOp) : Statement (.vmulhn o) := fun _ hw =>
  decode_of_raw ((raw_decodeVint (by simp [encode, vmulhnWord])).trans (by simp [decodeVint, encode, vmulhnWord])) hw rfl

theorem vmacc (o : VOp) : Statement (.vmacc o) := fun _ hw =>
  decode_of_raw ((raw_decodeVint (by simp [encode, vmaccWord])).trans (by simp [decodeVint, encode, vmaccWord])) hw rfl

theorem vand (o : VOp) : Statement (.vand o) := fun _ hw =>
  decode_of_raw ((raw_decodeVint (by simp [encode, vandWord])).trans (by simp [decodeVint, encode, vandWord])) hw rfl

theorem vor (o : VOp) : Statement (.vor o) := fun _ hw =>
  decode_of_raw ((raw_decodeVint (by simp [encode, vorWord])).trans (by simp [decodeVint, encode, vorWord])) hw rfl

theorem vxor (o : VOp) : Statement (.vxor o) := fun _ hw =>
  decode_of_raw ((raw_decodeVint (by simp [encode, vxorWord])).trans (by simp [decodeVint, encode, vxorWord])) hw rfl

theorem vshl (o : VOp) : Statement (.vshl o) := fun _ hw =>
  decode_of_raw ((raw_decodeVint (by simp [encode, vshlWord])).trans (by simp [decodeVint, encode, vshlWord])) hw rfl

theorem vshr (o : VOp) : Statement (.vshr o) := fun _ hw =>
  decode_of_raw ((raw_decodeVint (by simp [encode, vshrWord])).trans (by simp [decodeVint, encode, vshrWord])) hw rfl

theorem vsra (o : VOp) : Statement (.vsra o) := fun _ hw =>
  decode_of_raw ((raw_decodeVint (by simp [encode, vsraWord])).trans (by simp [decodeVint, encode, vsraWord])) hw rfl

theorem vmin (o : VOp) : Statement (.vmin o) := fun _ hw =>
  decode_of_raw ((raw_decodeVint (by simp [encode, vminWord])).trans (by simp [decodeVint, encode, vminWord])) hw rfl

theorem vmax (o : VOp) : Statement (.vmax o) := fun _ hw =>
  decode_of_raw ((raw_decodeVint (by simp [encode, vmaxWord])).trans (by simp [decodeVint, encode, vmaxWord])) hw rfl

theorem vminn (o : VOp) : Statement (.vminn o) := fun _ hw =>
  decode_of_raw ((raw_decodeVint (by simp [encode, vminnWord])).trans (by simp [decodeVint, encode, vminnWord])) hw rfl

theorem vmaxn (o : VOp) : Statement (.vmaxn o) := fun _ hw =>
  decode_of_raw ((raw_decodeVint (by simp [encode, vmaxnWord])).trans (by simp [decodeVint, encode, vmaxnWord])) hw rfl

theorem vsadd (o : VOp) : Statement (.vsadd o) := fun _ hw =>
  decode_of_raw ((raw_decodeVint (by simp [encode, vsaddWord])).trans (by simp [decodeVint, encode, vsaddWord])) hw rfl

theorem vssub (o : VOp) : Statement (.vssub o) := fun _ hw =>
  decode_of_raw ((raw_decodeVint (by simp [encode, vssubWord])).trans (by simp [decodeVint, encode, vssubWord])) hw rfl

theorem vsaddn (o : VOp) : Statement (.vsaddn o) := fun _ hw =>
  decode_of_raw ((raw_decodeVint (by simp [encode, vsaddnWord])).trans (by simp [decodeVint, encode, vsaddnWord])) hw rfl

theorem vssubn (o : VOp) : Statement (.vssubn o) := fun _ hw =>
  decode_of_raw ((raw_decodeVint (by simp [encode, vssubnWord])).trans (by simp [decodeVint, encode, vssubnWord])) hw rfl

theorem vclz (o : VOp) : Statement (.vclz o) := fun _ hw =>
  decode_of_raw ((raw_decodeVint (by simp [encode, vclzWord])).trans (by simp [decodeVint, encode, vclzWord])) hw rfl

theorem vctz (o : VOp) : Statement (.vctz o) := fun _ hw =>
  decode_of_raw ((raw_decodeVint (by simp [encode, vctzWord])).trans (by simp [decodeVint, encode, vctzWord])) hw rfl

theorem vpopc (o : VOp) : Statement (.vpopc o) := fun _ hw =>
  decode_of_raw ((raw_decodeVint (by simp [encode, vpopcWord])).trans (by simp [decodeVint, encode, vpopcWord])) hw rfl

theorem vmseq (o : VOp) : Statement (.vmseq o) := fun _ hw =>
  decode_of_raw ((raw_decodeVint (by simp [encode, vmseqWord])).trans (by simp [decodeVint, encode, vmseqWord])) hw rfl

theorem vmsne (o : VOp) : Statement (.vmsne o) := fun _ hw =>
  decode_of_raw ((raw_decodeVint (by simp [encode, vmsneWord])).trans (by simp [decodeVint, encode, vmsneWord])) hw rfl

theorem vmslt (o : VOp) : Statement (.vmslt o) := fun _ hw =>
  decode_of_raw ((raw_decodeVint (by simp [encode, vmsltWord])).trans (by simp [decodeVint, encode, vmsltWord])) hw rfl

theorem vmsle (o : VOp) : Statement (.vmsle o) := fun _ hw =>
  decode_of_raw ((raw_decodeVint (by simp [encode, vmsleWord])).trans (by simp [decodeVint, encode, vmsleWord])) hw rfl

theorem vmsltn (o : VOp) : Statement (.vmsltn o) := fun _ hw =>
  decode_of_raw ((raw_decodeVint (by simp [encode, vmsltnWord])).trans (by simp [decodeVint, encode, vmsltnWord])) hw rfl

theorem vmslen (o : VOp) : Statement (.vmslen o) := fun _ hw =>
  decode_of_raw ((raw_decodeVint (by simp [encode, vmslenWord])).trans (by simp [decodeVint, encode, vmslenWord])) hw rfl

theorem vaddVx (o : VOp) : Statement (.vaddVx o) := fun _ hw =>
  decode_of_raw ((raw_decodeVintx (by simp [encode, vaddVxWord])).trans (by simp [decodeVintx, encode, vaddVxWord])) hw rfl

theorem vsubVx (o : VOp) : Statement (.vsubVx o) := fun _ hw =>
  decode_of_raw ((raw_decodeVintx (by simp [encode, vsubVxWord])).trans (by simp [decodeVintx, encode, vsubVxWord])) hw rfl

theorem vrsubVx (o : VOp) : Statement (.vrsubVx o) := fun _ hw =>
  decode_of_raw ((raw_decodeVintx (by simp [encode, vrsubVxWord])).trans (by simp [decodeVintx, encode, vrsubVxWord])) hw rfl

theorem vmulVx (o : VOp) : Statement (.vmulVx o) := fun _ hw =>
  decode_of_raw ((raw_decodeVintx (by simp [encode, vmulVxWord])).trans (by simp [decodeVintx, encode, vmulVxWord])) hw rfl

theorem vmulhVx (o : VOp) : Statement (.vmulhVx o) := fun _ hw =>
  decode_of_raw ((raw_decodeVintx (by simp [encode, vmulhVxWord])).trans (by simp [decodeVintx, encode, vmulhVxWord])) hw rfl

theorem vmulhnVx (o : VOp) : Statement (.vmulhnVx o) := fun _ hw =>
  decode_of_raw ((raw_decodeVintx (by simp [encode, vmulhnVxWord])).trans (by simp [decodeVintx, encode, vmulhnVxWord])) hw rfl

theorem vmaccVx (o : VOp) : Statement (.vmaccVx o) := fun _ hw =>
  decode_of_raw ((raw_decodeVintx (by simp [encode, vmaccVxWord])).trans (by simp [decodeVintx, encode, vmaccVxWord])) hw rfl

theorem vandVx (o : VOp) : Statement (.vandVx o) := fun _ hw =>
  decode_of_raw ((raw_decodeVintx (by simp [encode, vandVxWord])).trans (by simp [decodeVintx, encode, vandVxWord])) hw rfl

theorem vorVx (o : VOp) : Statement (.vorVx o) := fun _ hw =>
  decode_of_raw ((raw_decodeVintx (by simp [encode, vorVxWord])).trans (by simp [decodeVintx, encode, vorVxWord])) hw rfl

theorem vxorVx (o : VOp) : Statement (.vxorVx o) := fun _ hw =>
  decode_of_raw ((raw_decodeVintx (by simp [encode, vxorVxWord])).trans (by simp [decodeVintx, encode, vxorVxWord])) hw rfl

theorem vshlVx (o : VOp) : Statement (.vshlVx o) := fun _ hw =>
  decode_of_raw ((raw_decodeVintx (by simp [encode, vshlVxWord])).trans (by simp [decodeVintx, encode, vshlVxWord])) hw rfl

theorem vshrVx (o : VOp) : Statement (.vshrVx o) := fun _ hw =>
  decode_of_raw ((raw_decodeVintx (by simp [encode, vshrVxWord])).trans (by simp [decodeVintx, encode, vshrVxWord])) hw rfl

theorem vsraVx (o : VOp) : Statement (.vsraVx o) := fun _ hw =>
  decode_of_raw ((raw_decodeVintx (by simp [encode, vsraVxWord])).trans (by simp [decodeVintx, encode, vsraVxWord])) hw rfl

theorem vminVx (o : VOp) : Statement (.vminVx o) := fun _ hw =>
  decode_of_raw ((raw_decodeVintx (by simp [encode, vminVxWord])).trans (by simp [decodeVintx, encode, vminVxWord])) hw rfl

theorem vmaxVx (o : VOp) : Statement (.vmaxVx o) := fun _ hw =>
  decode_of_raw ((raw_decodeVintx (by simp [encode, vmaxVxWord])).trans (by simp [decodeVintx, encode, vmaxVxWord])) hw rfl

theorem vminnVx (o : VOp) : Statement (.vminnVx o) := fun _ hw =>
  decode_of_raw ((raw_decodeVintx (by simp [encode, vminnVxWord])).trans (by simp [decodeVintx, encode, vminnVxWord])) hw rfl

theorem vmaxnVx (o : VOp) : Statement (.vmaxnVx o) := fun _ hw =>
  decode_of_raw ((raw_decodeVintx (by simp [encode, vmaxnVxWord])).trans (by simp [decodeVintx, encode, vmaxnVxWord])) hw rfl

theorem vsaddVx (o : VOp) : Statement (.vsaddVx o) := fun _ hw =>
  decode_of_raw ((raw_decodeVintx (by simp [encode, vsaddVxWord])).trans (by simp [decodeVintx, encode, vsaddVxWord])) hw rfl

theorem vssubVx (o : VOp) : Statement (.vssubVx o) := fun _ hw =>
  decode_of_raw ((raw_decodeVintx (by simp [encode, vssubVxWord])).trans (by simp [decodeVintx, encode, vssubVxWord])) hw rfl

theorem vsaddnVx (o : VOp) : Statement (.vsaddnVx o) := fun _ hw =>
  decode_of_raw ((raw_decodeVintx (by simp [encode, vsaddnVxWord])).trans (by simp [decodeVintx, encode, vsaddnVxWord])) hw rfl

theorem vssubnVx (o : VOp) : Statement (.vssubnVx o) := fun _ hw =>
  decode_of_raw ((raw_decodeVintx (by simp [encode, vssubnVxWord])).trans (by simp [decodeVintx, encode, vssubnVxWord])) hw rfl

theorem vmseqVx (o : VOp) : Statement (.vmseqVx o) := fun _ hw =>
  decode_of_raw ((raw_decodeVintx (by simp [encode, vmseqVxWord])).trans (by simp [decodeVintx, encode, vmseqVxWord])) hw rfl

theorem vmsneVx (o : VOp) : Statement (.vmsneVx o) := fun _ hw =>
  decode_of_raw ((raw_decodeVintx (by simp [encode, vmsneVxWord])).trans (by simp [decodeVintx, encode, vmsneVxWord])) hw rfl

theorem vmsltVx (o : VOp) : Statement (.vmsltVx o) := fun _ hw =>
  decode_of_raw ((raw_decodeVintx (by simp [encode, vmsltVxWord])).trans (by simp [decodeVintx, encode, vmsltVxWord])) hw rfl

theorem vmsleVx (o : VOp) : Statement (.vmsleVx o) := fun _ hw =>
  decode_of_raw ((raw_decodeVintx (by simp [encode, vmsleVxWord])).trans (by simp [decodeVintx, encode, vmsleVxWord])) hw rfl

theorem vmsltnVx (o : VOp) : Statement (.vmsltnVx o) := fun _ hw =>
  decode_of_raw ((raw_decodeVintx (by simp [encode, vmsltnVxWord])).trans (by simp [decodeVintx, encode, vmsltnVxWord])) hw rfl

theorem vmslenVx (o : VOp) : Statement (.vmslenVx o) := fun _ hw =>
  decode_of_raw ((raw_decodeVintx (by simp [encode, vmslenVxWord])).trans (by simp [decodeVintx, encode, vmslenVxWord])) hw rfl

theorem vfadd (o : VOp) : Statement (.vfadd o) := fun _ hw =>
  decode_of_raw ((raw_decodeVfp (by simp [encode, vfaddWord])).trans (by simp [decodeVfp, encode, vfaddWord])) hw rfl

theorem vfsub (o : VOp) : Statement (.vfsub o) := fun _ hw =>
  decode_of_raw ((raw_decodeVfp (by simp [encode, vfsubWord])).trans (by simp [decodeVfp, encode, vfsubWord])) hw rfl

theorem vfmul (o : VOp) : Statement (.vfmul o) := fun _ hw =>
  decode_of_raw ((raw_decodeVfp (by simp [encode, vfmulWord])).trans (by simp [decodeVfp, encode, vfmulWord])) hw rfl

theorem vfdiv (o : VOp) : Statement (.vfdiv o) := fun _ hw =>
  decode_of_raw ((raw_decodeVfp (by simp [encode, vfdivWord])).trans (by simp [decodeVfp, encode, vfdivWord])) hw rfl

theorem vfsqrt (o : VOp) : Statement (.vfsqrt o) := fun _ hw =>
  decode_of_raw ((raw_decodeVfp (by simp [encode, vfsqrtWord])).trans (by simp [decodeVfp, encode, vfsqrtWord])) hw rfl

theorem vfma (o : VOp) : Statement (.vfma o) := fun _ hw =>
  decode_of_raw ((raw_decodeVfp (by simp [encode, vfmaWord])).trans (by simp [decodeVfp, encode, vfmaWord])) hw rfl

theorem vfms (o : VOp) : Statement (.vfms o) := fun _ hw =>
  decode_of_raw ((raw_decodeVfp (by simp [encode, vfmsWord])).trans (by simp [decodeVfp, encode, vfmsWord])) hw rfl

theorem vfnma (o : VOp) : Statement (.vfnma o) := fun _ hw =>
  decode_of_raw ((raw_decodeVfp (by simp [encode, vfnmaWord])).trans (by simp [decodeVfp, encode, vfnmaWord])) hw rfl

theorem vfmin (o : VOp) : Statement (.vfmin o) := fun _ hw =>
  decode_of_raw ((raw_decodeVfp (by simp [encode, vfminWord])).trans (by simp [decodeVfp, encode, vfminWord])) hw rfl

theorem vfmax (o : VOp) : Statement (.vfmax o) := fun _ hw =>
  decode_of_raw ((raw_decodeVfp (by simp [encode, vfmaxWord])).trans (by simp [decodeVfp, encode, vfmaxWord])) hw rfl

theorem vfminp (o : VOp) : Statement (.vfminp o) := fun _ hw =>
  decode_of_raw ((raw_decodeVfp (by simp [encode, vfminpWord])).trans (by simp [decodeVfp, encode, vfminpWord])) hw rfl

theorem vfmaxp (o : VOp) : Statement (.vfmaxp o) := fun _ hw =>
  decode_of_raw ((raw_decodeVfp (by simp [encode, vfmaxpWord])).trans (by simp [decodeVfp, encode, vfmaxpWord])) hw rfl

theorem vfabs (o : VOp) : Statement (.vfabs o) := fun _ hw =>
  decode_of_raw ((raw_decodeVfp (by simp [encode, vfabsWord])).trans (by simp [decodeVfp, encode, vfabsWord])) hw rfl

theorem vfneg (o : VOp) : Statement (.vfneg o) := fun _ hw =>
  decode_of_raw ((raw_decodeVfp (by simp [encode, vfnegWord])).trans (by simp [decodeVfp, encode, vfnegWord])) hw rfl

theorem vfsgnj (o : VOp) : Statement (.vfsgnj o) := fun _ hw =>
  decode_of_raw ((raw_decodeVfp (by simp [encode, vfsgnjWord])).trans (by simp [decodeVfp, encode, vfsgnjWord])) hw rfl

theorem vfclass (o : VOp) : Statement (.vfclass o) := fun _ hw =>
  decode_of_raw ((raw_decodeVfp (by simp [encode, vfclassWord])).trans (by simp [decodeVfp, encode, vfclassWord])) hw rfl

theorem vfwma (o : VOp) : Statement (.vfwma o) := fun _ hw =>
  decode_of_raw ((raw_decodeVfp (by simp [encode, vfwmaWord])).trans (by simp [decodeVfp, encode, vfwmaWord])) hw rfl

theorem vfwadd (o : VOp) : Statement (.vfwadd o) := fun _ hw =>
  decode_of_raw ((raw_decodeVfp (by simp [encode, vfwaddWord])).trans (by simp [decodeVfp, encode, vfwaddWord])) hw rfl

theorem vmfeq (o : VOp) : Statement (.vmfeq o) := fun _ hw =>
  decode_of_raw ((raw_decodeVfp (by simp [encode, vmfeqWord])).trans (by simp [decodeVfp, encode, vmfeqWord])) hw rfl

theorem vmflt (o : VOp) : Statement (.vmflt o) := fun _ hw =>
  decode_of_raw ((raw_decodeVfp (by simp [encode, vmfltWord])).trans (by simp [decodeVfp, encode, vmfltWord])) hw rfl

theorem vmfle (o : VOp) : Statement (.vmfle o) := fun _ hw =>
  decode_of_raw ((raw_decodeVfp (by simp [encode, vmfleWord])).trans (by simp [decodeVfp, encode, vmfleWord])) hw rfl

theorem vmfun (o : VOp) : Statement (.vmfun o) := fun _ hw =>
  decode_of_raw ((raw_decodeVfp (by simp [encode, vmfunWord])).trans (by simp [decodeVfp, encode, vmfunWord])) hw rfl

theorem vfaddVf (o : VOp) : Statement (.vfaddVf o) := fun _ hw =>
  decode_of_raw ((raw_decodeVfpx (by simp [encode, vfaddVfWord])).trans (by simp [decodeVfpx, encode, vfaddVfWord])) hw rfl

theorem vfsubVf (o : VOp) : Statement (.vfsubVf o) := fun _ hw =>
  decode_of_raw ((raw_decodeVfpx (by simp [encode, vfsubVfWord])).trans (by simp [decodeVfpx, encode, vfsubVfWord])) hw rfl

theorem vfmulVf (o : VOp) : Statement (.vfmulVf o) := fun _ hw =>
  decode_of_raw ((raw_decodeVfpx (by simp [encode, vfmulVfWord])).trans (by simp [decodeVfpx, encode, vfmulVfWord])) hw rfl

theorem vfdivVf (o : VOp) : Statement (.vfdivVf o) := fun _ hw =>
  decode_of_raw ((raw_decodeVfpx (by simp [encode, vfdivVfWord])).trans (by simp [decodeVfpx, encode, vfdivVfWord])) hw rfl

theorem vfmaVf (o : VOp) : Statement (.vfmaVf o) := fun _ hw =>
  decode_of_raw ((raw_decodeVfpx (by simp [encode, vfmaVfWord])).trans (by simp [decodeVfpx, encode, vfmaVfWord])) hw rfl

theorem vfmsVf (o : VOp) : Statement (.vfmsVf o) := fun _ hw =>
  decode_of_raw ((raw_decodeVfpx (by simp [encode, vfmsVfWord])).trans (by simp [decodeVfpx, encode, vfmsVfWord])) hw rfl

theorem vfnmaVf (o : VOp) : Statement (.vfnmaVf o) := fun _ hw =>
  decode_of_raw ((raw_decodeVfpx (by simp [encode, vfnmaVfWord])).trans (by simp [decodeVfpx, encode, vfnmaVfWord])) hw rfl

theorem vfminVf (o : VOp) : Statement (.vfminVf o) := fun _ hw =>
  decode_of_raw ((raw_decodeVfpx (by simp [encode, vfminVfWord])).trans (by simp [decodeVfpx, encode, vfminVfWord])) hw rfl

theorem vfmaxVf (o : VOp) : Statement (.vfmaxVf o) := fun _ hw =>
  decode_of_raw ((raw_decodeVfpx (by simp [encode, vfmaxVfWord])).trans (by simp [decodeVfpx, encode, vfmaxVfWord])) hw rfl

theorem vfminpVf (o : VOp) : Statement (.vfminpVf o) := fun _ hw =>
  decode_of_raw ((raw_decodeVfpx (by simp [encode, vfminpVfWord])).trans (by simp [decodeVfpx, encode, vfminpVfWord])) hw rfl

theorem vfmaxpVf (o : VOp) : Statement (.vfmaxpVf o) := fun _ hw =>
  decode_of_raw ((raw_decodeVfpx (by simp [encode, vfmaxpVfWord])).trans (by simp [decodeVfpx, encode, vfmaxpVfWord])) hw rfl

theorem vfsgnjVf (o : VOp) : Statement (.vfsgnjVf o) := fun _ hw =>
  decode_of_raw ((raw_decodeVfpx (by simp [encode, vfsgnjVfWord])).trans (by simp [decodeVfpx, encode, vfsgnjVfWord])) hw rfl

theorem vmfeqVf (o : VOp) : Statement (.vmfeqVf o) := fun _ hw =>
  decode_of_raw ((raw_decodeVfpx (by simp [encode, vmfeqVfWord])).trans (by simp [decodeVfpx, encode, vmfeqVfWord])) hw rfl

theorem vmfltVf (o : VOp) : Statement (.vmfltVf o) := fun _ hw =>
  decode_of_raw ((raw_decodeVfpx (by simp [encode, vmfltVfWord])).trans (by simp [decodeVfpx, encode, vmfltVfWord])) hw rfl

theorem vmfleVf (o : VOp) : Statement (.vmfleVf o) := fun _ hw =>
  decode_of_raw ((raw_decodeVfpx (by simp [encode, vmfleVfWord])).trans (by simp [decodeVfpx, encode, vmfleVfWord])) hw rfl

theorem vmfunVf (o : VOp) : Statement (.vmfunVf o) := fun _ hw =>
  decode_of_raw ((raw_decodeVfpx (by simp [encode, vmfunVfWord])).trans (by simp [decodeVfpx, encode, vmfunVfWord])) hw rfl

theorem vfaddx (o : VOp) : Statement (.vfaddx o) := fun _ hw =>
  decode_of_raw ((raw_decodeVpair (by simp [encode, vfaddxWord])).trans (by simp [decodeVpair, encode, vfaddxWord])) hw rfl

theorem vfsubx (o : VOp) : Statement (.vfsubx o) := fun _ hw =>
  decode_of_raw ((raw_decodeVpair (by simp [encode, vfsubxWord])).trans (by simp [decodeVpair, encode, vfsubxWord])) hw rfl

theorem vfmulx (o : VOp) : Statement (.vfmulx o) := fun _ hw =>
  decode_of_raw ((raw_decodeVpair (by simp [encode, vfmulxWord])).trans (by simp [decodeVpair, encode, vfmulxWord])) hw rfl

theorem vdwadd (o : VOp) : Statement (.vdwadd o) := fun _ hw =>
  decode_of_raw ((raw_decodeVpair (by simp [encode, vdwaddWord])).trans (by simp [decodeVpair, encode, vdwaddWord])) hw rfl

theorem vdwadds (o : VOp) : Statement (.vdwadds o) := fun _ hw =>
  decode_of_raw ((raw_decodeVpair (by simp [encode, vdwaddsWord])).trans (by simp [decodeVpair, encode, vdwaddsWord])) hw rfl

theorem vdwmul (o : VOp) : Statement (.vdwmul o) := fun _ hw =>
  decode_of_raw ((raw_decodeVpair (by simp [encode, vdwmulWord])).trans (by simp [decodeVpair, encode, vdwmulWord])) hw rfl

theorem vdwren (o : VOp) : Statement (.vdwren o) := fun _ hw =>
  decode_of_raw ((raw_decodeVpair (by simp [encode, vdwrenWord])).trans (by simp [decodeVpair, encode, vdwrenWord])) hw rfl

theorem vredsum (o : VOp) : Statement (.vredsum o) := fun _ hw =>
  decode_of_raw ((raw_decodeVred (by simp [encode, vredsumWord])).trans (by simp [decodeVred, encode, vredsumWord])) hw rfl

theorem vredmax (o : VOp) : Statement (.vredmax o) := fun _ hw =>
  decode_of_raw ((raw_decodeVred (by simp [encode, vredmaxWord])).trans (by simp [decodeVred, encode, vredmaxWord])) hw rfl

theorem vredmin (o : VOp) : Statement (.vredmin o) := fun _ hw =>
  decode_of_raw ((raw_decodeVred (by simp [encode, vredminWord])).trans (by simp [decodeVred, encode, vredminWord])) hw rfl

theorem vfredo (o : VOp) : Statement (.vfredo o) := fun _ hw =>
  decode_of_raw ((raw_decodeVred (by simp [encode, vfredoWord])).trans (by simp [decodeVred, encode, vfredoWord])) hw rfl

theorem vfredt (o : VOp) : Statement (.vfredt o) := fun _ hw =>
  decode_of_raw ((raw_decodeVred (by simp [encode, vfredtWord])).trans (by simp [decodeVred, encode, vfredtWord])) hw rfl

theorem vfredc (o : VOp) : Statement (.vfredc o) := fun _ hw =>
  decode_of_raw ((raw_decodeVred (by simp [encode, vfredcWord])).trans (by simp [decodeVred, encode, vfredcWord])) hw rfl

theorem vfredmax (o : VOp) : Statement (.vfredmax o) := fun _ hw =>
  decode_of_raw ((raw_decodeVred (by simp [encode, vfredmaxWord])).trans (by simp [decodeVred, encode, vfredmaxWord])) hw rfl

theorem vfredmin (o : VOp) : Statement (.vfredmin o) := fun _ hw =>
  decode_of_raw ((raw_decodeVred (by simp [encode, vfredminWord])).trans (by simp [decodeVred, encode, vfredminWord])) hw rfl

theorem vslideup (o : VOp) : Statement (.vslideup o) := fun _ hw =>
  decode_of_raw ((raw_decodeVperm (by simp [encode, vslideupWord])).trans (by simp [decodeVperm, encode, vslideupWord])) hw rfl

theorem vslidedn (o : VOp) : Statement (.vslidedn o) := fun _ hw =>
  decode_of_raw ((raw_decodeVperm (by simp [encode, vslidednWord])).trans (by simp [decodeVperm, encode, vslidednWord])) hw rfl

theorem vslide1up (o : VOp) : Statement (.vslide1up o) := fun _ hw =>
  decode_of_raw ((raw_decodeVperm (by simp [encode, vslide1upWord])).trans (by simp [decodeVperm, encode, vslide1upWord])) hw rfl

theorem vslide1dn (o : VOp) : Statement (.vslide1dn o) := fun _ hw =>
  decode_of_raw ((raw_decodeVperm (by simp [encode, vslide1dnWord])).trans (by simp [decodeVperm, encode, vslide1dnWord])) hw rfl

theorem vpermv (o : VOp) : Statement (.vpermv o) := fun _ hw =>
  decode_of_raw ((raw_decodeVperm (by simp [encode, vpermvWord])).trans (by simp [decodeVperm, encode, vpermvWord])) hw rfl

theorem vcompress (o : VOp) : Statement (.vcompress o) := fun _ hw =>
  decode_of_raw ((raw_decodeVperm (by simp [encode, vcompressWord])).trans (by simp [decodeVperm, encode, vcompressWord])) hw rfl

theorem vexpand (o : VOp) : Statement (.vexpand o) := fun _ hw =>
  decode_of_raw ((raw_decodeVperm (by simp [encode, vexpandWord])).trans (by simp [decodeVperm, encode, vexpandWord])) hw rfl

theorem vmerge (o : VOp) : Statement (.vmerge o) := fun _ hw =>
  decode_of_raw ((raw_decodeVperm (by simp [encode, vmergeWord])).trans (by simp [decodeVperm, encode, vmergeWord])) hw rfl

theorem vid (o : VOp) : Statement (.vid o) := fun _ hw =>
  decode_of_raw ((raw_decodeVperm (by simp [encode, vidWord])).trans (by simp [decodeVperm, encode, vidWord])) hw rfl

theorem viota (o : VOp) : Statement (.viota o) := fun _ hw =>
  decode_of_raw ((raw_decodeVperm (by simp [encode, viotaWord])).trans (by simp [decodeVperm, encode, viotaWord])) hw rfl

theorem vmand (o : VOp) : Statement (.vmand o) := fun _ hw =>
  decode_of_raw ((raw_decodeVmsk (by simp [encode, vmandWord])).trans (by simp [decodeVmsk, encode, vmandWord])) hw rfl

theorem vmor (o : VOp) : Statement (.vmor o) := fun _ hw =>
  decode_of_raw ((raw_decodeVmsk (by simp [encode, vmorWord])).trans (by simp [decodeVmsk, encode, vmorWord])) hw rfl

theorem vmxor (o : VOp) : Statement (.vmxor o) := fun _ hw =>
  decode_of_raw ((raw_decodeVmsk (by simp [encode, vmxorWord])).trans (by simp [decodeVmsk, encode, vmxorWord])) hw rfl

theorem vmandn (o : VOp) : Statement (.vmandn o) := fun _ hw =>
  decode_of_raw ((raw_decodeVmsk (by simp [encode, vmandnWord])).trans (by simp [decodeVmsk, encode, vmandnWord])) hw rfl

theorem vmnot (o : VOp) : Statement (.vmnot o) := fun _ hw =>
  decode_of_raw ((raw_decodeVmsk (by simp [encode, vmnotWord])).trans (by simp [decodeVmsk, encode, vmnotWord])) hw rfl

theorem vmpopc (o : VOp) : Statement (.vmpopc o) := fun _ hw =>
  decode_of_raw ((raw_decodeVmsk (by simp [encode, vmpopcWord])).trans (by simp [decodeVmsk, encode, vmpopcWord])) hw rfl

theorem vmfirst (o : VOp) : Statement (.vmfirst o) := fun _ hw =>
  decode_of_raw ((raw_decodeVmsk (by simp [encode, vmfirstWord])).trans (by simp [decodeVmsk, encode, vmfirstWord])) hw rfl

theorem vmany (o : VOp) : Statement (.vmany o) := fun _ hw =>
  decode_of_raw ((raw_decodeVmsk (by simp [encode, vmanyWord])).trans (by simp [decodeVmsk, encode, vmanyWord])) hw rfl

theorem vfcvt (o : VOp) : Statement (.vfcvt o) := fun _ hw =>
  decode_of_raw ((raw_decodeVcvt (by simp [encode, vfcvtWord])).trans (by simp [decodeVcvt, encode, vfcvtWord])) hw rfl

theorem vfwcvt (o : VOp) : Statement (.vfwcvt o) := fun _ hw =>
  decode_of_raw ((raw_decodeVcvt (by simp [encode, vfwcvtWord])).trans (by simp [decodeVcvt, encode, vfwcvtWord])) hw rfl

theorem vfncvt (o : VOp) : Statement (.vfncvt o) := fun _ hw =>
  decode_of_raw ((raw_decodeVcvt (by simp [encode, vfncvtWord])).trans (by simp [decodeVcvt, encode, vfncvtWord])) hw rfl

theorem vbdec (o : VOp) : Statement (.vbdec o) := fun _ hw =>
  decode_of_raw ((raw_decodeVcvt (by simp [encode, vbdecWord])).trans (by simp [decodeVcvt, encode, vbdecWord])) hw rfl

theorem vbenc (o : VOp) : Statement (.vbenc o) := fun _ hw =>
  decode_of_raw ((raw_decodeVcvt (by simp [encode, vbencWord])).trans (by simp [decodeVcvt, encode, vbencWord])) hw rfl

theorem vunpk (o : VOp) : Statement (.vunpk o) := fun _ hw =>
  decode_of_raw ((raw_decodeVxf (by simp [encode, vunpkWord])).trans (by simp [decodeVxf, encode, vunpkWord])) hw rfl

theorem vpack (o : VOp) : Statement (.vpack o) := fun _ hw =>
  decode_of_raw ((raw_decodeVxf (by simp [encode, vpackWord])).trans (by simp [decodeVxf, encode, vpackWord])) hw rfl

theorem vlut (o : VOp) : Statement (.vlut o) := fun _ hw =>
  decode_of_raw ((raw_decodeVxf (by simp [encode, vlutWord])).trans (by simp [decodeVxf, encode, vlutWord])) hw rfl

theorem vfrcp (o : VOp) : Statement (.vfrcp o) := fun _ hw =>
  decode_of_raw ((raw_decodeVsfu (by simp [encode, vfrcpWord])).trans (by simp [decodeVsfu, encode, vfrcpWord])) hw rfl

theorem vfrsqrt (o : VOp) : Statement (.vfrsqrt o) := fun _ hw =>
  decode_of_raw ((raw_decodeVsfu (by simp [encode, vfrsqrtWord])).trans (by simp [decodeVsfu, encode, vfrsqrtWord])) hw rfl

theorem vfexp2 (o : VOp) : Statement (.vfexp2 o) := fun _ hw =>
  decode_of_raw ((raw_decodeVsfu (by simp [encode, vfexp2Word])).trans (by simp [decodeVsfu, encode, vfexp2Word])) hw rfl

theorem vflog2 (o : VOp) : Statement (.vflog2 o) := fun _ hw =>
  decode_of_raw ((raw_decodeVsfu (by simp [encode, vflog2Word])).trans (by simp [decodeVsfu, encode, vflog2Word])) hw rfl

theorem vfsinpi (o : VOp) : Statement (.vfsinpi o) := fun _ hw =>
  decode_of_raw ((raw_decodeVsfu (by simp [encode, vfsinpiWord])).trans (by simp [decodeVsfu, encode, vfsinpiWord])) hw rfl

theorem vfcospi (o : VOp) : Statement (.vfcospi o) := fun _ hw =>
  decode_of_raw ((raw_decodeVsfu (by simp [encode, vfcospiWord])).trans (by simp [decodeVsfu, encode, vfcospiWord])) hw rfl

theorem vld (o : VLOp) : Statement (.vld o) := fun _ hw =>
  decode_of_raw ((raw_decodeVld (by simp [encode, vldWord])).trans (by simp [decodeVld, encode, vldWord])) hw rfl

theorem vlds (o : VLOp) : Statement (.vlds o) := fun _ hw =>
  decode_of_raw ((raw_decodeVld (by simp [encode, vldsWord])).trans (by simp [decodeVld, encode, vldsWord])) hw rfl

theorem vldx (o : VLOp) : Statement (.vldx o) := fun _ hw =>
  decode_of_raw ((raw_decodeVld (by simp [encode, vldxWord])).trans (by simp [decodeVld, encode, vldxWord])) hw rfl

theorem vldb (o : VLOp) : Statement (.vldb o) := fun _ hw =>
  decode_of_raw ((raw_decodeVld (by simp [encode, vldbWord])).trans (by simp [decodeVld, encode, vldbWord])) hw rfl

theorem vfill (o : VLOp) : Statement (.vfill o) := fun _ hw =>
  decode_of_raw ((raw_decodeVld (by simp [encode, vfillWord])).trans (by simp [decodeVld, encode, vfillWord])) hw rfl

theorem vst (o : VLOp) : Statement (.vst o) := fun _ hw =>
  decode_of_raw ((raw_decodeVst (by simp [encode, vstWord])).trans (by simp [decodeVst, encode, vstWord])) hw rfl

theorem vsts (o : VLOp) : Statement (.vsts o) := fun _ hw =>
  decode_of_raw ((raw_decodeVst (by simp [encode, vstsWord])).trans (by simp [decodeVst, encode, vstsWord])) hw rfl

theorem vstx (o : VLOp) : Statement (.vstx o) := fun _ hw =>
  decode_of_raw ((raw_decodeVst (by simp [encode, vstxWord])).trans (by simp [decodeVst, encode, vstxWord])) hw rfl

theorem vstb (o : VLOp) : Statement (.vstb o) := fun _ hw =>
  decode_of_raw ((raw_decodeVst (by simp [encode, vstbWord])).trans (by simp [decodeVst, encode, vstbWord])) hw rfl

theorem vspill (o : VLOp) : Statement (.vspill o) := fun _ hw =>
  decode_of_raw ((raw_decodeVst (by simp [encode, vspillWord])).trans (by simp [decodeVst, encode, vspillWord])) hw rfl

theorem chainedOperation (h : Nat) : Statement (.chainedOperation h) := fun h => nomatch h

theorem queueElementsArrive (h : Nat) : Statement (.queueElementsArrive h) := fun h => nomatch h

theorem vmove (o : VOp) : Statement (.vmove o) := fun _ hw =>
  decode_of_raw ((raw_decodeVmv (by simp [encode, vmoveWord])).trans (by simp [decodeVmv, encode, vmoveWord])) hw rfl

theorem vsplat (o : VOp) : Statement (.vsplat o) := fun _ hw =>
  decode_of_raw ((raw_decodeVmv (by simp [encode, vsplatWord])).trans (by simp [decodeVmv, encode, vsplatWord])) hw rfl

theorem vmvxs (o : VOp) : Statement (.vmvxs o) := fun _ hw =>
  decode_of_raw ((raw_decodeVmv (by simp [encode, vmvxsWord])).trans (by simp [decodeVmv, encode, vmvxsWord])) hw rfl

theorem vmvsx (o : VOp) : Statement (.vmvsx o) := fun _ hw =>
  decode_of_raw ((raw_decodeVmv (by simp [encode, vmvsxWord])).trans (by simp [decodeVmv, encode, vmvsxWord])) hw rfl

theorem mopa (tile : BitVec 3) (va : Reg) (vb : Reg) (m : Bool) (pair : BitVec 3) : Statement (.mopa tile va vb m pair) := fun _ hw =>
  decode_of_raw ((raw_decodeMopa (by simp [encode, mopaWord])).trans (by simp [decodeMopa, encode, mopaWord])) hw rfl

theorem mopax (tile : BitVec 3) (vb : Reg) (vidx : Reg) (m : Bool) (pair : BitVec 3) : Statement (.mopax tile vb vidx m pair) := fun _ hw =>
  decode_of_raw ((raw_decodeMopa (by simp [encode, mopaxWord])).trans (by simp [decodeMopa, encode, mopaxWord])) hw rfl

theorem msclA (vs : Reg) : Statement (.msclA vs) := fun _ hw =>
  decode_of_raw ((raw_decodeMopa (by simp [encode, msclAWord])).trans (by simp [decodeMopa, encode, msclAWord])) hw rfl

theorem msclB (vs : Reg) : Statement (.msclB vs) := fun _ hw =>
  decode_of_raw ((raw_decodeMopa (by simp [encode, msclBWord])).trans (by simp [decodeMopa, encode, msclBWord])) hw rfl

theorem mzero (tile : BitVec 3) : Statement (.mzero tile) := fun _ hw =>
  decode_of_raw ((raw_decodeMtile (by simp [encode, mzeroWord])).trans (by simp [decodeMtile, encode, mzeroWord])) hw rfl

theorem mldt (tile : BitVec 3) (a : Reg) (s : Reg) (n : Reg) : Statement (.mldt tile a s n) := fun _ hw =>
  decode_of_raw ((raw_decodeMtile (by simp [encode, mldtWord])).trans (by simp [decodeMtile, encode, mldtWord])) hw rfl

theorem mstt (tile : BitVec 3) (a : Reg) (s : Reg) (n : Reg) : Statement (.mstt tile a s n) := fun _ hw =>
  decode_of_raw ((raw_decodeMtile (by simp [encode, msttWord])).trans (by simp [decodeMtile, encode, msttWord])) hw rfl

theorem mrdv (tile : BitVec 3) (vd : Reg) (n : Reg) (m : Bool) : Statement (.mrdv tile vd n m) := fun _ hw =>
  decode_of_raw ((raw_decodeMtile (by simp [encode, mrdvWord])).trans (by simp [decodeMtile, encode, mrdvWord])) hw rfl

theorem mwrv (tile : BitVec 3) (vs : Reg) (n : Reg) (m : Bool) : Statement (.mwrv tile vs n m) := fun _ hw =>
  decode_of_raw ((raw_decodeMtile (by simp [encode, mwrvWord])).trans (by simp [decodeMtile, encode, mwrvWord])) hw rfl

theorem sbind (q : BitVec 3) (a : Reg) : Statement (.sbind q a) := fun _ hw =>
  decode_of_raw ((raw_decodeStrm (by simp [encode, sbindWord])).trans (by simp [decodeStrm, encode, sbindWord])) hw rfl

theorem sbindc (q : BitVec 3) (a : Reg) : Statement (.sbindc q a) := fun _ hw =>
  decode_of_raw ((raw_decodeStrm (by simp [encode, sbindcWord])).trans (by simp [decodeStrm, encode, sbindcWord])) hw rfl

theorem sunbind (q : BitVec 3) : Statement (.sunbind q) := fun _ hw =>
  decode_of_raw ((raw_decodeStrm (by simp [encode, sunbindWord])).trans (by simp [decodeStrm, encode, sunbindWord])) hw rfl

theorem vrgn (off : BitVec 16) : Statement (.vrgn off) := fun _ hw =>
  decode_of_raw ((raw_decodeVrgn (by simp [encode, vrgnWord])).trans (by simp [decodeVrgn, encode, vrgnWord])) hw rfl

theorem vrgne : Statement .vrgne := fun _ hw =>
  decode_of_raw ((raw_decodeVrgn (by simp [encode, vrgneWord])).trans (by simp [decodeVrgn, encode, vrgneWord])) hw rfl

theorem lfork (off : BitVec 16) : Statement (.lfork off) := fun _ hw =>
  decode_of_raw ((raw_decodeLane (by simp [encode, lforkWord])).trans (by simp [decodeLane, encode, lforkWord])) hw rfl

theorem ljoin : Statement .ljoin := fun _ hw =>
  decode_of_raw ((raw_decodeLane (by simp [encode, ljoinWord])).trans (by simp [decodeLane, encode, ljoinWord])) hw rfl

theorem lexit : Statement .lexit := fun _ hw =>
  decode_of_raw ((raw_decodeLane (by simp [encode, lexitWord])).trans (by simp [decodeLane, encode, lexitWord])) hw rfl

theorem lxrd (d : Reg) (a : Reg) (b : Reg) : Statement (.lxrd d a b) := fun _ hw =>
  decode_of_raw ((raw_decodeLane (by simp [encode, lxrdWord])).trans (by simp [decodeLane, encode, lxrdWord])) hw rfl

theorem xcopy (d : Reg) (a : Reg) (b : Reg) (scope : BitVec 3) (acq : Bool) (rel : Bool) : Statement (.xcopy d a b scope acq rel) := fun _ hw =>
  decode_of_raw ((raw_decodeXeng (by simp [encode, xcopyWord])).trans (by simp [decodeXeng, encode, xcopyWord])) hw rfl

theorem xgath (d : Reg) (a : Reg) (b : Reg) (scope : BitVec 3) (acq : Bool) (rel : Bool) : Statement (.xgath d a b scope acq rel) := fun _ hw =>
  decode_of_raw ((raw_decodeXeng (by simp [encode, xgathWord])).trans (by simp [decodeXeng, encode, xgathWord])) hw rfl

theorem xwait (a : Reg) : Statement (.xwait a) := fun _ hw =>
  decode_of_raw ((raw_decodeXeng (by simp [encode, xwaitWord])).trans (by simp [decodeXeng, encode, xwaitWord])) hw rfl

theorem xwaitWake (h : Nat) : Statement (.xwaitWake h) := fun h => nomatch h

theorem xpoll (d : Reg) (a : Reg) : Statement (.xpoll d a) := fun _ hw =>
  decode_of_raw ((raw_decodeXeng (by simp [encode, xpollWord])).trans (by simp [decodeXeng, encode, xpollWord])) hw rfl

theorem commandPoolFreed (h : Nat) : Statement (.commandPoolFreed h) := fun h => nomatch h

theorem engineCommandStart (cl : Nat) (token : Word) : Statement (.engineCommandStart cl token) := fun h => nomatch h

theorem engineCommandComplete (cl : Nat) (token : Word) : Statement (.engineCommandComplete cl token) := fun h => nomatch h

theorem bkadd (d : Reg) (a : Reg) (b : Reg) : Statement (.bkadd d a b) := fun _ hw =>
  decode_of_raw ((raw_decodeBank (by simp [encode, bkaddWord])).trans (by simp [decodeBank, encode, bkaddWord])) hw rfl

theorem bkmax (d : Reg) (a : Reg) (b : Reg) : Statement (.bkmax d a b) := fun _ hw =>
  decode_of_raw ((raw_decodeBank (by simp [encode, bkmaxWord])).trans (by simp [decodeBank, encode, bkmaxWord])) hw rfl

theorem bkmul (d : Reg) (a : Reg) (b : Reg) : Statement (.bkmul d a b) := fun _ hw =>
  decode_of_raw ((raw_decodeBank (by simp [encode, bkmulWord])).trans (by simp [decodeBank, encode, bkmulWord])) hw rfl

theorem bksmx (d : Reg) (a : Reg) (b : Reg) : Statement (.bksmx d a b) := fun _ hw =>
  decode_of_raw ((raw_decodeBank (by simp [encode, bksmxWord])).trans (by simp [decodeBank, encode, bksmxWord])) hw rfl

theorem bkzero (a : Reg) (b : Reg) : Statement (.bkzero a b) := fun _ hw =>
  decode_of_raw ((raw_decodeBank (by simp [encode, bkzeroWord])).trans (by simp [decodeBank, encode, bkzeroWord])) hw rfl

theorem bkred (d : Reg) (a : Reg) (b : Reg) : Statement (.bkred d a b) := fun _ hw =>
  decode_of_raw ((raw_decodeBank (by simp [encode, bkredWord])).trans (by simp [decodeBank, encode, bkredWord])) hw rfl

theorem bankCommandPerform (cl : Nat) (id : Nat) : Statement (.bankCommandPerform cl id) := fun h => nomatch h

theorem pyinit (d : Reg) (h : Reg) : Statement (.pyinit d h) := fun _ hw =>
  decode_of_raw ((raw_decodePyr (by simp [encode, pyinitWord])).trans (by simp [decodePyr, encode, pyinitWord])) hw rfl

theorem pyapp (d : Reg) (h : Reg) (v : Reg) : Statement (.pyapp d h v) := fun _ hw =>
  decode_of_raw ((raw_decodePyr (by simp [encode, pyappWord])).trans (by simp [decodePyr, encode, pyappWord])) hw rfl

theorem pystat (d : Reg) (h : Reg) (settled : Bool) : Statement (.pystat d h settled) := fun _ hw =>
  decode_of_raw ((raw_decodePyr (by simp [encode, pystatWord])).trans (by simp [decodePyr, encode, pystatWord])) hw rfl

theorem pyld (vd : Reg) (h : Reg) (t : Reg) (xs : Reg) (level : BitVec 4) (settled : Bool) : Statement (.pyld vd h t xs level settled) := fun _ hw =>
  decode_of_raw ((raw_decodePyr (by simp [encode, pyldWord])).trans (by simp [decodePyr, encode, pyldWord])) hw rfl

theorem instarInitRequest (ctx : Word) (handle : Word) : Statement (.instarInitRequest ctx handle) := fun h => nomatch h

theorem instarAppend (ctx : Word) (handle : Word) (item : List Byte) : Statement (.instarAppend ctx handle item) := fun h => nomatch h

theorem instarMerge (ctx : Word) (handle : Word) : Statement (.instarMerge ctx handle) := fun h => nomatch h

theorem instarLoadServe (ctx : Word) (handle : Word) (t : Word) (level : BitVec 4) (settled : Bool) : Statement (.instarLoadServe ctx handle t level settled) := fun h => nomatch h

theorem instarStatusServe (ctx : Word) (handle : Word) (settled : Bool) : Statement (.instarStatusServe ctx handle settled) := fun h => nomatch h

theorem rcall (d : Reg) (o : Reg) (n : BitVec 6) : Statement (.rcall d o n) := fun _ hw =>
  decode_of_raw ((raw_decodeRcall (by simp [encode, rcallWord])).trans (by simp [decodeRcall, encode, rcallWord])) hw rfl

theorem rread (d : Reg) (o : Reg) (n : BitVec 6) : Statement (.rread d o n) := fun _ hw =>
  decode_of_raw ((raw_decodeRcall (by simp [encode, rreadWord])).trans (by simp [decodeRcall, encode, rreadWord])) hw rfl

theorem callReturn (h : Nat) : Statement (.callReturn h) := fun h => nomatch h

theorem logPositionAssign (obj : Nat) (die : Nat) (n : Nat) (args : List Word) : Statement (.logPositionAssign obj die n args) := fun h => nomatch h

theorem replayApplyEntry (obj : Nat) (die : Nat) : Statement (.replayApplyEntry obj die) := fun h => nomatch h

theorem rreadRun (h : Nat) : Statement (.rreadRun h) := fun h => nomatch h

theorem logfullTimeout (h : Nat) : Statement (.logfullTimeout h) := fun h => nomatch h

theorem replicaRebuild (obj : Nat) (die : Nat) : Statement (.replicaRebuild obj die) := fun h => nomatch h

theorem logCopyRepair (obj : Nat) (copy : Nat) (die : Nat) : Statement (.logCopyRepair obj copy die) := fun h => nomatch h

theorem lnch (d : Reg) (a : Reg) : Statement (.lnch d a) := fun _ hw =>
  decode_of_raw ((raw_decodeLnch (by simp [encode, lnchWord])).trans (by simp [decodeLnch, encode, lnchWord])) hw rfl

theorem lnchW (d : Reg) (a : Reg) : Statement (.lnchW d a) := fun _ hw =>
  decode_of_raw ((raw_decodeLnch (by simp [encode, lnchWWord])).trans (by simp [decodeLnch, encode, lnchWWord])) hw rfl

theorem lwait (d : Reg) (a : Reg) : Statement (.lwait d a) := fun _ hw =>
  decode_of_raw ((raw_decodeLnch (by simp [encode, lwaitWord])).trans (by simp [decodeLnch, encode, lwaitWord])) hw rfl

theorem lwaitRelease (h : Nat) : Statement (.lwaitRelease h) := fun h => nomatch h

theorem qpush (v : Reg) (n : Reg) : Statement (.qpush v n) := fun _ hw =>
  decode_of_raw ((raw_decodeQop (by simp [encode, qpushWord])).trans (by simp [decodeQop, encode, qpushWord])) hw rfl

theorem qpop (v : Reg) (n : Reg) : Statement (.qpop v n) := fun _ hw =>
  decode_of_raw ((raw_decodeQop (by simp [encode, qpopWord])).trans (by simp [decodeQop, encode, qpopWord])) hw rfl

theorem qstat (d : Reg) (n : Reg) : Statement (.qstat d n) := fun _ hw =>
  decode_of_raw ((raw_decodeQop (by simp [encode, qstatWord])).trans (by simp [decodeQop, encode, qstatWord])) hw rfl

theorem queueWaitWake (h : Nat) : Statement (.queueWaitWake h) := fun h => nomatch h

theorem time (d : Reg) : Statement (.time d) := fun _ hw =>
  decode_of_raw ((raw_decodeSync (by simp [encode, timeWord])).trans (by simp [decodeSync, encode, timeWord])) hw rfl

theorem sleept (a : Reg) : Statement (.sleept a) := fun _ hw =>
  decode_of_raw ((raw_decodeSync (by simp [encode, sleeptWord])).trans (by simp [decodeSync, encode, sleeptWord])) hw rfl

theorem sleeptWake (h : Nat) : Statement (.sleeptWake h) := fun h => nomatch h

theorem evset (a : Reg) (b : Reg) : Statement (.evset a b) := fun _ hw =>
  decode_of_raw ((raw_decodeSync (by simp [encode, evsetWord])).trans (by simp [decodeSync, encode, evsetWord])) hw rfl

theorem evwait (a : Reg) (b : Reg) : Statement (.evwait a b) := fun _ hw =>
  decode_of_raw ((raw_decodeSync (by simp [encode, evwaitWord])).trans (by simp [decodeSync, encode, evwaitWord])) hw rfl

theorem evwaitWake (h : Nat) : Statement (.evwaitWake h) := fun h => nomatch h

theorem bar (a : Reg) : Statement (.bar a) := fun _ hw =>
  decode_of_raw ((raw_decodeSync (by simp [encode, barWord])).trans (by simp [decodeSync, encode, barWord])) hw rfl

theorem barRelease (cl : Nat) (b : Nat) : Statement (.barRelease cl b) := fun h => nomatch h

theorem stageGroupDeadlock (cl : Nat) : Statement (.stageGroupDeadlock cl) := fun h => nomatch h

theorem nmrun (d : Reg) (a : Reg) : Statement (.nmrun d a) := fun _ hw =>
  decode_of_raw ((raw_decodeNmu (by simp [encode, nmrunWord])).trans (by simp [decodeNmu, encode, nmrunWord])) hw rfl

theorem nmbag (d : Reg) (a : Reg) : Statement (.nmbag d a) := fun _ hw =>
  decode_of_raw ((raw_decodeNmu (by simp [encode, nmbagWord])).trans (by simp [decodeNmu, encode, nmbagWord])) hw rfl

theorem nmwait (a : Reg) : Statement (.nmwait a) := fun _ hw =>
  decode_of_raw ((raw_decodeNmu (by simp [encode, nmwaitWord])).trans (by simp [decodeNmu, encode, nmwaitWord])) hw rfl

theorem nmwaitWake (h : Nat) : Statement (.nmwaitWake h) := fun h => nomatch h

theorem nrnext : Statement .nrnext := fun _ hw =>
  decode_of_raw ((raw_decodeNmu (by simp [encode, nrnextWord])).trans (by simp [decodeNmu, encode, nrnextWord])) hw rfl

theorem nrseek (a : Reg) : Statement (.nrseek a) := fun _ hw =>
  decode_of_raw ((raw_decodeNmu (by simp [encode, nrseekWord])).trans (by simp [decodeNmu, encode, nrseekWord])) hw rfl

theorem nrwb (v : Reg) : Statement (.nrwb v) := fun _ hw =>
  decode_of_raw ((raw_decodeNmu (by simp [encode, nrwbWord])).trans (by simp [decodeNmu, encode, nrwbWord])) hw rfl

theorem nmuKernelStart (ch : Nat) : Statement (.nmuKernelStart ch) := fun h => nomatch h

theorem nmuStepLimit (ch : Nat) : Statement (.nmuStepLimit ch) := fun h => nomatch h

theorem nmbagRun (ch : Nat) : Statement (.nmbagRun ch) := fun h => nomatch h

theorem chunkDecode (h : Nat) (q : BitVec 3) : Statement (.chunkDecode h q) := fun h => nomatch h

theorem pageRequestResponse (req : Nat) (success : Bool) : Statement (.pageRequestResponse req success) := fun h => nomatch h

theorem invalidationRequest (port : Nat) (addr : Word) : Statement (.invalidationRequest port addr) := fun h => nomatch h

theorem invalidationComplete : Statement .invalidationComplete := fun h => nomatch h

theorem stopSkidTimeout (h : Nat) : Statement (.stopSkidTimeout h) := fun h => nomatch h

theorem dispatchIteration (queue : Nat) (seq : Nat) (places : List Nat) : Statement (.dispatchIteration queue seq places) := fun h => nomatch h

theorem launchEligible (queue : Nat) (seq : Nat) : Statement (.launchEligible queue seq) := fun h => nomatch h

theorem priorityAging (queue : Nat) (seq : Nat) : Statement (.priorityAging queue seq) := fun h => nomatch h

theorem preemptFold (h : Nat) : Statement (.preemptFold h) := fun h => nomatch h

theorem evictLaunch (queue : Nat) (seq : Nat) (cl : Nat) : Statement (.evictLaunch queue seq cl) := fun h => nomatch h

theorem hartResume (h : Nat) (place : Nat) : Statement (.hartResume h place) := fun h => nomatch h

theorem launchComplete (queue : Nat) (seq : Nat) : Statement (.launchComplete queue seq) := fun h => nomatch h

theorem supervisorStopLaunch (queue : Nat) (seq : Nat) : Statement (.supervisorStopLaunch queue seq) := fun h => nomatch h

theorem shaltWrite (h : Nat) (value : Word) : Statement (.shaltWrite h value) := fun h => nomatch h

theorem dieReset (die : Nat) : Statement (.dieReset die) := fun h => nomatch h

theorem laneRetire (core : Nat) (lane : Nat) : Statement (.laneRetire core lane) := fun h => nomatch h

theorem hartStateError (h : Nat) : Statement (.hartStateError h) := fun h => nomatch h

theorem hqownClaim (port : Nat) (n : Nat) : Statement (.hqownClaim port n) := fun h => nomatch h

theorem hqownRelease (port : Nat) (n : Nat) : Statement (.hqownRelease port n) := fun h => nomatch h

theorem hqsubSubmit (port : Nat) (n : Nat) (addr : Word) : Statement (.hqsubSubmit port n addr) := fun h => nomatch h

theorem objectRegister (port : Nat) (addr : Word) : Statement (.objectRegister port addr) := fun h => nomatch h

theorem objectDeregister (port : Nat) (handle : Word) : Statement (.objectDeregister port handle) := fun h => nomatch h

theorem semaphoreClaim (port : Nat) (n : Nat) : Statement (.semaphoreClaim port n) := fun h => nomatch h

theorem semaphoreRelease (port : Nat) (n : Nat) : Statement (.semaphoreRelease port n) := fun h => nomatch h

theorem evadd (port : Nat) (value : Word) : Statement (.evadd port value) := fun h => nomatch h

theorem evclr (port : Nat) (value : Word) : Statement (.evclr port value) := fun h => nomatch h

theorem dbctxWrite (n : Nat) (value : Word) : Statement (.dbctxWrite n value) := fun h => nomatch h

theorem dbctlStop (n : Nat) : Statement (.dbctlStop n) := fun h => nomatch h

theorem dbctlResume (n : Nat) : Statement (.dbctlResume n) := fun h => nomatch h

theorem dbringWrite (n : Nat) (value : Word) : Statement (.dbringWrite n value) := fun h => nomatch h

theorem dbtailWrite (n : Nat) (value : Word) : Statement (.dbtailWrite n value) := fun h => nomatch h

theorem portMessageAccept (port : Nat) (msg : Message) : Statement (.portMessageAccept port msg) := fun h => nomatch h

theorem replayDivergenceTimeout (port : Nat) : Statement (.replayDivergenceTimeout port) := fun h => nomatch h

theorem registerWrite (port : Nat) (offset : Nat) (value : Word) : Statement (.registerWrite port offset value) := fun h => nomatch h

theorem refreshDue (ch : Nat) (bank : Nat) : Statement (.refreshDue ch bank) := fun h => nomatch h

theorem channelPowerdownTimeout (ch : Nat) : Statement (.channelPowerdownTimeout ch) := fun h => nomatch h

theorem channelPowerdown (ch : Nat) : Statement (.channelPowerdown ch) := fun h => nomatch h

theorem channelWake (ch : Nat) : Statement (.channelWake ch) := fun h => nomatch h

theorem moduleReset : Statement .moduleReset := fun h => nomatch h

theorem mbgoFetch (port : Nat) (value : Word) : Statement (.mbgoFetch port value) := fun h => nomatch h

theorem recoveryFetchComplete : Statement .recoveryFetchComplete := fun h => nomatch h

theorem hdmDecoderCommit (port : Nat) (base : Word) (size : Word) : Statement (.hdmDecoderCommit port base size) := fun h => nomatch h

theorem portLinkDown (port : Nat) (sameHost : Bool) : Statement (.portLinkDown port sameHost) := fun h => nomatch h

theorem spdmRequest (port : Nat) (nonce : Word) : Statement (.spdmRequest port nonce) := fun h => nomatch h

theorem cocoonConfigUnlocked (id : Nat) (ctx : Word) : Statement (.cocoonConfigUnlocked id ctx) := fun h => nomatch h

theorem cocoonConfigLocked (id : Nat) : Statement (.cocoonConfigLocked id) := fun h => nomatch h

theorem cocoonRun (id : Nat) : Statement (.cocoonRun id) := fun h => nomatch h

theorem cocoonError (id : Nat) : Statement (.cocoonError id) := fun h => nomatch h

theorem tenantDebugEnable (id : Nat) : Statement (.tenantDebugEnable id) := fun h => nomatch h

theorem powerClockStep (divider : Nat) : Statement (.powerClockStep divider) := fun h => nomatch h

theorem idleEntry : Statement .idleEntry := fun h => nomatch h

theorem standbyEntry : Statement .standbyEntry := fun h => nomatch h

theorem activeReturn : Statement .activeReturn := fun h => nomatch h

theorem thermalTrip : Statement .thermalTrip := fun h => nomatch h

theorem flitCrcRetry (port : Nat) : Statement (.flitCrcRetry port) := fun h => nomatch h

theorem messageAck (port : Nat) (n : Nat) (received : Bool) : Statement (.messageAck port n received) := fun h => nomatch h

theorem scaleupPortFail (port : Nat) (other : Nat) : Statement (.scaleupPortFail port other) := fun h => nomatch h

theorem remoteAccessTimeout (who : Accessor) : Statement (.remoteAccessTimeout who) := fun h => nomatch h

theorem illegalInstruction (w : BitVec 32) : Statement (.illegalInstruction w) := fun h => nomatch h

theorem accessPerformed (who : Accessor) : Statement (.accessPerformed who) := fun h => nomatch h

theorem clockCycle (use : Nat) (mask : Nat) (bvl : Nat) (dead : Nat) : Statement (.clockCycle use mask bvl dead) := fun h => nomatch h

theorem supervisorResume (h : Nat) : Statement (.supervisorResume h) := fun h => nomatch h

theorem contextCreate (ctx : Word) (sptb : Word) : Statement (.contextCreate ctx sptb) := fun h => nomatch h

theorem contextEnd (ctx : Word) : Statement (.contextEnd ctx) := fun h => nomatch h

theorem channelReset (ch : Nat) : Statement (.channelReset ch) := fun h => nomatch h

theorem dieBack (die : Nat) : Statement (.dieBack die) := fun h => nomatch h

theorem cxlMemRequest (port : Nat) (req : MemRequest) : Statement (.cxlMemRequest port req) := fun h => nomatch h

theorem cxlCacheSnoop (port : Nat) (addr : Word) (exclusive : Bool) : Statement (.cxlCacheSnoop port addr exclusive) := fun h => nomatch h

theorem atomicopRequest (port : Nat) (addr : Word) : Statement (.atomicopRequest port addr) := fun h => nomatch h

theorem remoteRequest (port : Nat) (n : Nat) (dev : Nat) (req : MemRequest) : Statement (.remoteRequest port n dev req) := fun h => nomatch h

theorem patrolScrub (gran : Nat) : Statement (.patrolScrub gran) := fun h => nomatch h

end Sys2Proof.Laws.RoundTrip
end

