-- ==== Sys2Proof/Laws/Perform.lean ====
section
/-!
SUPPORT. What executing a word does, said once for every instruction of a hart: it completes, it branches, it continues
elsewhere, it stays, or it traps (R89, R121, R122, R340).
-/

namespace Sys2Proof.Machine

@[simp] theorem State.start_cur (s : State) : s.start.cur = s.cur := rfl
@[simp] theorem State.start_unit (s : State) : s.start.unit = s.unit := rfl
@[simp] theorem State.start_mem (s : State) : s.start.mem = s.mem := rfl
@[simp] theorem State.start_blocked (s : State) : s.start.blocked = none := rfl

/-- A major of the lane-thread set (R117). -/
theorem laneMajor_of {w : BitVec 32} (m : BitVec 6) (h : wMajor w = m)
    (hm : ((0x02 ≤ m.toNat && m.toNat ≤ 0x0E && m.toNat != 0x0B) || (0x10 ≤ m.toNat && m.toNat ≤ 0x15) ||
      (0x17 ≤ m.toNat && m.toNat ≤ 0x1D)) = true := by decide) : laneMajor w = true := by
  subst h
  simp only [laneMajor, hm, Bool.true_or]

/-- A major that no region drops (R121). -/
theorem dropMajor_of {w : BitVec 32} (m : BitVec 6) (h : wMajor w = m)
    (hm : (0x22 ≤ m.toNat && m.toNat ≤ 0x31) = false := by decide) : dropMajor w = false := by
  subst h; exact hm

/-- A word outside lane mode, or of the lane-thread set, that no region drops reaches its own effect. -/
theorem performAs_hart {own : Bool} {w : BitVec 32} {s : State} {body : State → Flow} (hu : s.unit = .hart)
    (hl : s.cur.lane.isSome = true → laneMajor w = true) (hd : dropMajor w = true → s.cur.dropping = false)
    (hp : own = false → pfxPending s.cur.pendingPfx = false) :
    performAs own w s body = .next (s.start.finish w (body s.start)) := by
  have h1 : (s.cur.lane.isSome && !laneMajor w) = false := by
    cases h : s.cur.lane.isSome <;> simp_all
  have h2 : (dropMajor w && s.cur.dropping) = false := by
    cases h : dropMajor w <;> simp_all
  have h3 : (!own && pfxPending s.cur.pendingPfx) = false := by
    cases own <;> simp_all
  have h0 : performAs own w s body = .next (s.start.hartWord w own body) := by
    unfold performAs State.start; rw [hu]
  rw [h0]
  simp [State.hartWord, h1, h2, h3]

@[simp] theorem settle_plain (s0 : State) {s : State} (h : Hart) (hs : s.cur.strikes = []) :
    s0.settle s h = { s with cur := h } := by simp [State.settle, State.agentHits, lowestStrike, hs]

@[simp] theorem finish_done (s0 : State) (w : BitVec 32) {t : State} (hb : t.blocked = none) (hs : t.cur.strikes = []) :
    s0.finish w (.done t) = t.completed := by simp [State.finish, hb, hs, State.completed]

@[simp] theorem finish_branch (s0 : State) (w : BitVec 32) (a : Word) {t : State} (hb : t.blocked = none)
    (hs : t.cur.strikes = []) : s0.finish w (.branch a t) = t.jumped a := by simp [State.finish, hb, hs, State.jumped]

@[simp] theorem finish_goto (s0 : State) (w : BitVec 32) (a : Word) {t : State} (hb : t.blocked = none)
    (hs : t.cur.strikes = []) : s0.finish w (.goto a t) = { t with cur := { t.cur.retire with pc := a } } := by
  simp [State.finish, hb, hs]

@[simp] theorem finish_stay (s0 : State) (w : BitVec 32) {t : State} (hb : t.blocked = none) :
    s0.finish w (.stay t) = t := by simp [State.finish, hb]

@[simp] theorem finish_trap (s0 : State) (w : BitVec 32) (x : Trap) {t : State} (hb : t.blocked = none) :
    s0.finish w (.trap x t) = s0.trapWord w x t := by simp [State.finish, hb]

/-- An instruction that takes no prefix and completes. -/
theorem perform_done {w : BitVec 32} {s t : State} {body : State → Flow} (h : Plain s)
    (hl : s.cur.lane.isSome = true → laneMajor w = true) (hd : dropMajor w = true → s.cur.dropping = false)
    (hb : body s.start = .done t) (ht : t.blocked = none) (hs : t.cur.strikes = []) :
    perform w s body = .next t.completed := by
  rw [perform, performAs_hart h.1.1 hl hd (fun _ => h.2), hb, finish_done _ _ ht hs]

/-- An instruction that checks the prefix itself and completes. -/
theorem performPfx_done {w : BitVec 32} {s t : State} {body : State → Flow} (h : Executes s)
    (hl : s.cur.lane.isSome = true → laneMajor w = true) (hd : dropMajor w = true → s.cur.dropping = false)
    (hb : body s.start = .done t) (ht : t.blocked = none) (hs : t.cur.strikes = []) :
    performPfx w s body = .next t.completed := by
  rw [performPfx, performAs_hart h.1 hl hd (fun e => absurd e (by decide)), hb, finish_done _ _ ht hs]

end Sys2Proof.Machine
end

