-- ==== Sys2Proof/Laws/Vector.lean ====
section
/-!
SUPPORT. What the shared vector operations do: reading an element of a register group, writing elements into registers, the
scan over the element positions, and an elementwise instruction as a whole (R11, R134).
-/

namespace Sys2Proof.Machine

/-! ## Elements of bit strings (R11) -/

theorem elemN_lt (x w i : Nat) : elemN x w i < 2 ^ w := Nat.mod_lt _ (Nat.two_pow_pos w)

theorem elemN_eq_mod (x w i : Nat) : elemN x w i = x % 2 ^ (w * i + w) / 2 ^ (w * i) := by
  rw [Nat.pow_add, Nat.mod_mul_right_div_self, elemN]

/-- An element below the seam of two strings. -/
theorem elemN_add_low {a b w i n : Nat} (hi : w * i + w ≤ n) : elemN (a + b * 2 ^ n) w i = elemN a w i := by
  rw [elemN_eq_mod, elemN_eq_mod]
  obtain ⟨m, rfl⟩ := Nat.exists_eq_add_of_le hi
  rw [Nat.pow_add 2 (w * i + w) m, ← Nat.mul_assoc, Nat.mul_comm b, Nat.mul_assoc, Nat.add_mul_mod_self_left]

/-- An element above the seam. -/
theorem elemN_add_high {a b w i n : Nat} (ha : a < 2 ^ (w * n)) (hi : n ≤ i) :
    elemN (a + b * 2 ^ (w * n)) w i = elemN b w (i - n) := by
  obtain ⟨m, rfl⟩ := Nat.exists_eq_add_of_le hi
  simp only [elemN, Nat.add_sub_cancel_left]
  rw [Nat.mul_add, Nat.pow_add, ← Nat.div_div_eq_div_mul, Nat.add_mul_div_right _ _ (Nat.two_pow_pos _),
    Nat.div_eq_of_lt ha, Nat.zero_add]

theorem vN_lt (h : Hart) (n : Nat) : h.vN n < 2 ^ h.regBits := Nat.mod_lt _ (Nat.two_pow_pos _)

theorem groupN_lt (h : Hart) (base n : Nat) : h.groupN base n < 2 ^ (h.regBits * n) := by
  induction n with
  | zero => simp [Hart.groupN]
  | succ n ih =>
    have := vN_lt h (base + n)
    rw [Hart.groupN, Nat.mul_succ, Nat.pow_add]
    calc h.groupN base n + h.vN (base + n) * 2 ^ (h.regBits * n)
        < 2 ^ (h.regBits * n) + h.vN (base + n) * 2 ^ (h.regBits * n) := by omega
      _ = (h.vN (base + n) + 1) * 2 ^ (h.regBits * n) := by ring
      _ ≤ 2 ^ h.regBits * 2 ^ (h.regBits * n) := Nat.mul_le_mul_right _ this
      _ = _ := Nat.mul_comm _ _

/-- Element i of a group lies in register i / e of it, where e elements fill a register. -/
theorem elemN_groupN {h : Hart} {w e : Nat} (base n i : Nat) (he : h.regBits = w * e) (hi : i < n * e) :
    elemN (h.groupN base n) w i = elemN (h.vN (base + i / e)) w (i % e) := by
  have e0 : 0 < e := by rcases Nat.eq_zero_or_pos e with h0 | h0 <;> simp_all
  induction n with
  | zero => simp at hi
  | succ n ih =>
    rw [Hart.groupN]
    have hr : h.regBits * n = w * (n * e) := by rw [he]; ring
    rcases Nat.lt_or_ge i (n * e) with hlt | hge
    · rw [elemN_add_low, ih hlt]
      rw [hr, ← Nat.mul_succ]; exact Nat.mul_le_mul_left _ hlt
    · rw [hr, elemN_add_high (by rw [← hr]; exact groupN_lt h base n) hge]
      have hq : i / e = n := by
        apply Nat.div_eq_of_lt_le (by omega); rw [Nat.succ_mul] at hi; rw [Nat.succ_mul]; omega
      rw [hq]
      congr 1
      have := Nat.div_add_mod i e
      rw [hq, Nat.mul_comm] at this; omega

/-! ## Writing elements -/

theorem packElems_lt (w : Nat) : ∀ (n old : Nat) (ws : List (Option Nat)), (∀ x ∈ ws, ∀ y, x = some y → y < 2 ^ w) →
    old < 2 ^ (w * n) → packElems w n old ws < 2 ^ (w * n)
  | 0, _, _, _, _ => by simp [packElems]
  | n + 1, old, [], _, ho => by simpa [packElems] using ho
  | n + 1, old, x :: t, hx, ho => by
    have h1 : old / 2 ^ w < 2 ^ (w * n) := by
      rw [Nat.div_lt_iff_lt_mul (Nat.two_pow_pos w), ← Nat.pow_add]; rwa [Nat.mul_succ] at ho
    have h2 := packElems_lt w n (old / 2 ^ w) t (fun y hy => hx y (List.mem_cons_of_mem _ hy)) h1
    have h3 : x.getD (old % 2 ^ w) < 2 ^ w := by
      cases x with
      | none => exact Nat.mod_lt _ (Nat.two_pow_pos w)
      | some y => exact hx (some y) (List.mem_cons_self ..) y rfl
    rw [packElems, Nat.mul_succ, Nat.pow_add, Nat.mul_comm (2 ^ (w * n))]
    calc _ < 2 ^ w + 2 ^ w * packElems w n (old / 2 ^ w) t := by omega
      _ = 2 ^ w * (packElems w n (old / 2 ^ w) t + 1) := by ring
      _ ≤ _ := Nat.mul_le_mul_left _ h2

theorem elemN_packElems (w : Nat) : ∀ (n old : Nat) (ws : List (Option Nat)) (i : Nat),
    (∀ x ∈ ws, ∀ y, x = some y → y < 2 ^ w) → i < n →
    elemN (packElems w n old ws) w i = (ws.getD i none).getD (elemN old w i)
  | n + 1, old, [], i, _, _ => by simp [packElems]
  | n + 1, old, x :: t, 0, hx, _ => by
    have h3 : x.getD (old % 2 ^ w) < 2 ^ w := by
      cases x with
      | none => exact Nat.mod_lt _ (Nat.two_pow_pos w)
      | some y => exact hx (some y) (List.mem_cons_self ..) y rfl
    cases x <;> simp_all [packElems, elemN, Nat.mod_eq_of_lt]
  | n + 1, old, x :: t, i + 1, hx, hi => by
    have h3 : x.getD (old % 2 ^ w) < 2 ^ w := by
      cases x with
      | none => exact Nat.mod_lt _ (Nat.two_pow_pos w)
      | some y => exact hx (some y) (List.mem_cons_self ..) y rfl
    have ih := elemN_packElems w n (old / 2 ^ w) t i (fun y hy => hx y (List.mem_cons_of_mem _ hy)) (by omega)
    have hs : elemN old w (i + 1) = elemN (old / 2 ^ w) w i := by
      rw [elemN, elemN, Nat.div_div_eq_div_mul, ← Nat.pow_add]; congr 3; ring
    rw [packElems, Nat.mul_comm, elemN, show w * (i + 1) = w + w * i by ring, Nat.pow_add, ← Nat.div_div_eq_div_mul,
      Nat.add_mul_div_right _ _ (Nat.two_pow_pos w), Nat.div_eq_of_lt h3, Nat.zero_add, hs]
    simpa [elemN] using ih

/-- Writes of elements narrower than 2^w. -/
def fitsIn (w : Nat) (ws : List (Option Nat)) : Prop := ∀ x ∈ ws, ∀ y, x = some y → y < 2 ^ w

theorem popcN_le (k x : Nat) : popcN k x ≤ k := by
  induction k generalizing x with
  | zero => simp [popcN]
  | succ n ih => rw [popcN]; have := ih (x / 2); omega

theorem regBits_le (h : Hart) : h.regBits ≤ 4096 := by
  have := popcN_le 16 h.lmap.toNat
  unfold Hart.regBits Hart.lanes; omega

theorem rv_wv (h : Hart) {k n : Nat} (x : BitVec 4096) (hk : k < 32) (hn : n < 32) :
    (h.wv n x).rv k = if k = n then x else h.rv k := by
  by_cases e : k = n
  · rw [if_pos e, e, Hart.rv_wv_same]
  · rw [if_neg e, Hart.rv_wv_other _ _ (by omega)]

theorem vN_wv (h : Hart) {n x : Nat} (hn : n < 32) (hx : x < 2 ^ h.regBits) : (h.wv n (BitVec.ofNat 4096 x)).vN n = x := by
  have hx' : x < 2 ^ 4096 := Nat.lt_of_lt_of_le hx (Nat.pow_le_pow_right Nat.two_pos (regBits_le h))
  have hb : (h.wv n (BitVec.ofNat 4096 x)).regBits = h.regBits := rfl
  unfold Hart.vN
  rw [rv_wv _ _ hn hn, if_pos rfl, BitVec.toNat_ofNat, Nat.mod_eq_of_lt hx', hb, Nat.mod_eq_of_lt hx]

theorem getLsbD_one_shift (k n : Nat) (hn : n < 64) : (1#64 <<< n).getLsbD k = decide (k = n) := by
  rw [BitVec.getLsbD_shiftLeft, BitVec.getLsbD_one]
  by_cases e : k = n
  · subst e; simp [hn]
  · by_cases l : k < n
    · simp [l, e]
    · simp [e]; intros; omega

/-- What writing elements into registers base, base + 1, … leaves. -/
structure RegsWritten (h : Hart) (w base regs : Nat) (ws : List (Option Nat)) (t : Hart) : Prop where
  rest : t = { h with v := t.v, dirty := t.dirty }
  others : ∀ k, k < 32 → (k < base ∨ base + regs ≤ k) → t.rv k = h.rv k ∧ t.dirty.getLsbD k = h.dirty.getLsbD k
  element : ∀ e, h.regBits = w * e → 0 < w → ∀ j, j < regs → ∀ m, m < e →
    elemN (t.vN (base + j)) w m = (ws.getD (j * e + m) none).getD (elemN (h.vN (base + j)) w m)
  dirtied : ∀ k, (h.dirty.getLsbD k = true → t.dirty.getLsbD k = true) ∧
    (k < 32 → t.rv k ≠ h.rv k → t.dirty.getLsbD k = true) ∧ (32 ≤ k → t.dirty.getLsbD k = h.dirty.getLsbD k)

theorem RegsWritten.regBits {h t : Hart} {w base regs : Nat} {ws : List (Option Nat)} (r : RegsWritten h w base regs ws t) :
    t.regBits = h.regBits := by rw [r.rest]; rfl

theorem writeRegs_written (w : Nat) : ∀ (regs base : Nat) (ws : List (Option Nat)) (h : Hart), fitsIn w ws →
    base + regs ≤ 32 → RegsWritten h w base regs ws (h.writeRegs w base regs ws)
  | 0, base, ws, h, _, _ =>
    { rest := rfl, others := fun _ _ _ => ⟨rfl, rfl⟩, element := fun _ _ _ j hj => absurd hj (by omega),
      dirtied := fun _ => ⟨id, fun _ e => absurd rfl e, fun _ => rfl⟩ }
  | regs + 1, base, ws, h, hf, hb => by
    have hmine : fitsIn w (ws.take (h.regBits / w)) := fun x hx => hf x (List.mem_of_mem_take hx)
    have hrest : fitsIn w (ws.drop (h.regBits / w)) := fun x hx => hf x (List.mem_of_mem_drop hx)
    rw [Hart.writeRegs]
    generalize hh' : (if ((ws.take (h.regBits / w)).any fun x => x.isSome) = true then
        h.wv base (BitVec.ofNat 4096 (packElems w (h.regBits / w) (h.vN base) (ws.take (h.regBits / w)))) else h) = h'
    -- the first register
    have h1 : h' = { h with v := h'.v, dirty := h'.dirty } := by subst hh'; split <;> rfl
    have h1b : h'.regBits = h.regBits := by rw [h1]; rfl
    have h2 : ∀ k, k < 32 → k ≠ base → h'.rv k = h.rv k ∧ h'.dirty.getLsbD k = h.dirty.getLsbD k := by
      intro k hk hne; subst hh'; split
      · refine ⟨by rw [rv_wv _ _ hk (by omega), if_neg hne], ?_⟩
        rw [Hart.wv_dirty, Nat.mod_eq_of_lt (show base < 32 by omega), BitVec.getLsbD_or, getLsbD_one_shift _ _ (by omega)]
        simp; omega
      · exact ⟨rfl, rfl⟩
    have h3 : ∀ e, h.regBits = w * e → 0 < w → ∀ m, m < e →
        elemN (h'.vN base) w m = (ws.getD m none).getD (elemN (h.vN base) w m) := by
      intro e he hw m hm
      have hdiv : h.regBits / w = e := by rw [he, Nat.mul_div_cancel_left _ hw]
      have hget : (ws.take e).getD m none = ws.getD m none := by
        simp [List.getD_eq_getElem?_getD, hm]
      have hh : (ws.take (h.regBits / w)) = ws.take e := by rw [hdiv]
      rw [hh] at hmine
      rw [hdiv] at hh'
      clear h1 h1b h2
      subst hh'; split
      · have hlt : packElems w e (h.vN base) (ws.take e) < 2 ^ h.regBits := by
          rw [he]; exact packElems_lt w e _ _ hmine (by rw [← he]; exact vN_lt h base)
        rw [vN_wv _ (by omega) hlt, elemN_packElems w e _ _ m hmine hm, hget]
      · rename_i hn
        have : ws.getD m none = none := by
          rw [← hget]
          rcases hx : (ws.take e).getD m none with _ | y
          · rfl
          · exfalso; apply hn; rw [List.any_eq_true]
            refine ⟨some y, ?_, rfl⟩
            rw [List.getD_eq_getElem?_getD] at hx
            cases hq : (ws.take e)[m]? with
            | none => simp [hq] at hx
            | some z => simp [hq] at hx; subst hx; exact List.mem_of_getElem? hq
        rw [this]; rfl
    have h4 : ∀ k, (h.dirty.getLsbD k = true → h'.dirty.getLsbD k = true) ∧
        (k < 32 → h'.rv k ≠ h.rv k → h'.dirty.getLsbD k = true) ∧ (32 ≤ k → h'.dirty.getLsbD k = h.dirty.getLsbD k) := by
      intro k; subst hh'; split
      · rw [Hart.wv_dirty, Nat.mod_eq_of_lt (show base < 32 by omega), BitVec.getLsbD_or, getLsbD_one_shift _ _ (by omega)]
        refine ⟨fun e => by simp [e], fun hk hne => ?_, fun hk => ?_⟩
        rw [rv_wv _ _ hk (by omega)] at hne
        by_cases e : k = base
        · simp [e]
        · simp [e] at hne
        · have : k ≠ base := by omega
          simp [this]
      · exact ⟨id, fun _ e => absurd rfl e, fun _ => rfl⟩
    have ih := writeRegs_written w regs (base + 1) (ws.drop (h.regBits / w)) h' hrest (by omega)
    refine ⟨?_, ?_, ?_, ?_⟩
    · rw [ih.rest, h1]
    · intro k hk hout
      have a := ih.others k hk (by omega)
      have b := h2 k hk (by omega)
      exact ⟨a.1.trans b.1, a.2.trans b.2⟩
    · intro e he hw j hj m hm
      have hdiv : h.regBits / w = e := by rw [he, Nat.mul_div_cancel_left _ hw]
      cases j with
      | zero =>
        have a := (ih.others base (by omega) (by omega)).1
        have : (h'.writeRegs w (base + 1) regs (ws.drop (h.regBits / w))).vN base = h'.vN base := by
          unfold Hart.vN; rw [ih.regBits, a]
        simp only [Nat.add_zero, Nat.zero_mul, Nat.zero_add]; rw [this, h3 e he hw m hm]
      | succ j =>
        have a := ih.element e (by rw [h1b, he]) hw j (by omega) m hm
        have hv : h'.vN (base + 1 + j) = h.vN (base + 1 + j) := by
          unfold Hart.vN; rw [h1b, (h2 _ (by omega) (by omega)).1]
        have hb : base + (j + 1) = base + 1 + j := by omega
        have hw : (ws.drop e).getD (j * e + m) none = ws.getD ((j + 1) * e + m) none := by
          rw [List.getD_eq_getElem?_getD, List.getD_eq_getElem?_getD, List.getElem?_drop,
            show e + (j * e + m) = (j + 1) * e + m by ring]
        rw [hdiv, hw, hv] at a
        rw [hb, hdiv]; exact a
    · intro k
      have a := ih.dirtied k
      have b := h4 k
      refine ⟨fun e => a.1 (b.1 e), fun hk hne => ?_, fun hk => (a.2.2 hk).trans (b.2.2 hk)⟩
      by_cases e : h'.rv k = h.rv k
      · rw [← e] at hne; exact a.2.1 hk hne
      · exact a.1 (b.2.1 hk e)

theorem groupN_congr {h t : Hart} (hr : t.regBits = h.regBits) {base : Nat} : ∀ n, (∀ j, j < n → t.vN (base + j) = h.vN (base + j)) →
    t.groupN base n = h.groupN base n
  | 0, _ => rfl
  | n + 1, hv => by rw [Hart.groupN, Hart.groupN, groupN_congr hr n (fun j hj => hv j (by omega)), hv n (by omega), hr]

theorem groupN_of {h t : Hart} (hv : t.v = h.v) (hl : t.lmap = h.lmap) (base n : Nat) : t.groupN base n = h.groupN base n := by
  have hr : t.regBits = h.regBits := by unfold Hart.regBits Hart.lanes; rw [hl]
  exact groupN_congr hr n (fun j _ => by unfold Hart.vN Hart.rv; rw [hr, hv])

@[simp] theorem groupN_vstart (h : Hart) (y : Word) (base n : Nat) : ({ h with vstart := y } : Hart).groupN base n = h.groupN base n :=
  groupN_of (h := h) (t := { h with vstart := y }) rfl rfl base n

@[simp] theorem groupN_raise (h : Hart) (fl : Nat) (base n : Nat) : (h.raise fl).groupN base n = h.groupN base n :=
  groupN_of (h := h) (t := h.raise fl) rfl rfl base n

theorem vN_congr {h t : Hart} {n : Nat} (hr : t.regBits = h.regBits) (hv : t.rv n = h.rv n) : t.vN n = h.vN n := by
  rw [Hart.vN, Hart.vN, hr, hv]

theorem slotWrite_lt (ta ma : Bool) (w : Nat) (pick : ERes → Nat) (x : Slot) (y : Nat) (h : x.write ta ma w pick = some y) :
    y < 2 ^ w := by
  have := Nat.two_pow_pos w
  cases x <;> simp only [Slot.write] at h
  · exact absurd h (by simp)
  · split at h <;> simp at h; omega
  · split at h <;> simp at h; omega
  · simp at h; subst h; exact Nat.mod_lt _ this

theorem slotMask_lt (ta : Bool) (sel : Nat) (x : Slot) (y : Nat) (h : x.emask ta sel = some y) : y < 2 ^ 1 := by
  cases x <;> simp only [Slot.emask] at h
  · exact absurd h (by simp)
  · simp at h; omega
  · split at h <;> simp at h; omega
  · simp at h; subst h; unfold b2n; split <;> decide

/-- A group of elements after a write of elements into it. -/
theorem RegsWritten.group {h t : Hart} {w base regs e : Nat} {ws : List (Option Nat)} (r : RegsWritten h w base regs ws t)
    (he : h.regBits = w * e) (hw : 0 < w) {i : Nat} (hi : i < regs * e) :
    elemN (t.groupN base regs) w i = (ws.getD i none).getD (elemN (h.groupN base regs) w i) := by
  have e0 : 0 < e := by rcases Nat.eq_zero_or_pos e with h0 | h0 <;> simp_all
  rw [elemN_groupN base regs i (by rw [r.regBits, he]) hi, elemN_groupN base regs i he hi,
    r.element e he hw (i / e) (by rwa [Nat.div_lt_iff_lt_mul e0]) (i % e) (Nat.mod_lt _ e0), Nat.div_add_mod']

theorem overlap_false {a n b k : Nat} (h : overlap a n b k = false) : b + k ≤ a ∨ a + n ≤ b := by
  simp only [overlap, Bool.and_eq_false_iff, decide_eq_false_iff_not, Nat.not_lt] at h; omega

/-- A group apart from the one written. -/
theorem RegsWritten.apart {h t : Hart} {w base regs : Nat} {ws : List (Option Nat)} (r : RegsWritten h w base regs ws t)
    {b n : Nat} (hb : b + n ≤ 32) (ho : overlap base regs b n = false) : t.groupN b n = h.groupN b n := by
  have := overlap_false ho
  refine groupN_congr r.regBits n (fun j hj => vN_congr r.regBits (r.others (b + j) (by omega) (by omega)).1)

/-- A destination the laws below hold for: whole registers of the file, and elements that fill a register. -/
structure Dest.fits (h : Hart) (d : Dest) : Prop where
  inFile : d.base + d.regs ≤ 32
  pos : 0 < d.width
  whole : h.regBits = d.width * (h.regBits / d.width)

/-- Two destinations are one, or lie apart. -/
def Dest.apart (a b : Dest) : Prop := a = b ∨ overlap a.base a.regs b.base b.regs = false

/-- What writing the slots to several destinations leaves. -/
structure DestsWritten (h : Hart) (ta ma : Bool) (slots : List Slot) (dests : List Dest) (t : Hart) : Prop where
  rest : t = { h with v := t.v, dirty := t.dirty }
  others : ∀ k, k < 32 → (∀ d ∈ dests, overlap k 1 d.base d.regs = false) →
    t.rv k = h.rv k ∧ t.dirty.getLsbD k = h.dirty.getLsbD k
  element : ∀ d ∈ dests, ∀ i, i < d.regs * (h.regBits / d.width) → elemN (t.groupN d.base d.regs) d.width i =
    ((slots[i]?).bind (Slot.write ta ma d.width d.pick)).getD (elemN (h.groupN d.base d.regs) d.width i)
  apart : ∀ b n, b + n ≤ 32 → (∀ d ∈ dests, overlap d.base d.regs b n = false) → t.groupN b n = h.groupN b n
  dirtied : ∀ k, (h.dirty.getLsbD k = true → t.dirty.getLsbD k = true) ∧
    (k < 32 → t.rv k ≠ h.rv k → t.dirty.getLsbD k = true) ∧ (32 ≤ k → t.dirty.getLsbD k = h.dirty.getLsbD k)

theorem DestsWritten.regBits {h t : Hart} {ta ma : Bool} {slots : List Slot} {dests : List Dest}
    (r : DestsWritten h ta ma slots dests t) : t.regBits = h.regBits := by rw [r.rest]; rfl

theorem getD_map_write (slots : List Slot) (f : Slot → Option Nat) (i : Nat) :
    (slots.map f).getD i none = (slots[i]?).bind f := by
  rw [List.getD_eq_getElem?_getD, List.getElem?_map]; cases slots[i]? <;> rfl

theorem fitsIn_map {w : Nat} {slots : List Slot} {f : Slot → Option Nat} (h : ∀ x y, f x = some y → y < 2 ^ w) :
    fitsIn w (slots.map f) := by
  intro x hx y hy
  obtain ⟨z, -, rfl⟩ := List.mem_map.mp hx
  exact h z y hy

theorem writeDests_written (ta ma : Bool) (slots : List Slot) : ∀ (dests : List Dest) (h : Hart),
    (∀ d ∈ dests, d.fits h) → (∀ a ∈ dests, ∀ b ∈ dests, a.apart b) →
    DestsWritten h ta ma slots dests (dests.foldl (fun h d => h.writeDest ta ma slots d) h)
  | [], h, _, _ =>
    { rest := rfl, others := fun _ _ _ => ⟨rfl, rfl⟩, element := fun _ hd => absurd hd (by simp), apart := fun _ _ _ _ => rfl,
      dirtied := fun _ => ⟨id, fun _ e => absurd rfl e, fun _ => rfl⟩ }
  | a :: l, h, hf, ha => by
    classical
    have fa := hf a (List.mem_cons_self ..)
    have r := writeRegs_written a.width a.regs a.base (slots.map (Slot.write ta ma a.width a.pick)) h
      (fitsIn_map (slotWrite_lt ta ma a.width a.pick)) fa.inFile
    have hb := r.regBits
    have ih := writeDests_written ta ma slots l (h.writeDest ta ma slots a)
      (fun d hd => by
        have := hf d (List.mem_cons_of_mem _ hd)
        exact ⟨this.inFile, this.pos, by rw [Hart.writeDest, hb]; exact this.whole⟩)
      (fun x hx y hy => ha x (List.mem_cons_of_mem _ hx) y (List.mem_cons_of_mem _ hy))
    rw [List.foldl_cons]
    have hb' : (h.writeDest ta ma slots a).regBits = h.regBits := hb
    refine ⟨?_, ?_, ?_, ?_, ?_⟩
    · rw [ih.rest]; rw [Hart.writeDest, r.rest]
    · intro k hk ho
      have h1 := ih.others k hk (fun d hd => ho d (List.mem_cons_of_mem _ hd))
      have h2 := r.others k hk (by have := overlap_false (ho a (List.mem_cons_self ..)); omega)
      exact ⟨h1.1.trans h2.1, h1.2.trans h2.2⟩
    · intro d hd i hi
      have fd := hf d hd
      have hwd : elemN ((h.writeDest ta ma slots a).groupN d.base d.regs) d.width i =
          if a = d then ((slots[i]?).bind (Slot.write ta ma d.width d.pick)).getD (elemN (h.groupN d.base d.regs) d.width i)
          else elemN (h.groupN d.base d.regs) d.width i := by
        split
        · rename_i e; subst e
          rw [Hart.writeDest, r.group fa.whole fa.pos hi, getD_map_write]
        · rename_i e
          rcases ha a (List.mem_cons_self ..) d hd with e' | o
          · exact absurd e' e
          · rw [Hart.writeDest, r.apart fd.inFile o]
      by_cases hm : d ∈ l
      · rw [ih.element d hm i (by rw [hb']; exact hi), hwd]
        split
        · cases (slots[i]?).bind (Slot.write ta ma d.width d.pick) <;> rfl
        · rfl
      · have e : d = a := by
          rcases List.mem_cons.mp hd with e | e
          · exact e
          · exact absurd e hm
        subst e
        rw [ih.apart d.base d.regs fd.inFile, hwd, if_pos rfl]
        intro x hx
        rcases ha x (List.mem_cons_of_mem _ hx) d hd with e | o
        · subst e; exact absurd hx hm
        · exact o
    · intro b n hbn ho
      rw [ih.apart b n hbn (fun d hd => ho d (List.mem_cons_of_mem _ hd)), Hart.writeDest,
        r.apart hbn (ho a (List.mem_cons_self ..))]
    · intro k
      have h1 := ih.dirtied k
      have h2 := r.dirtied k
      refine ⟨fun e => h1.1 (h2.1 e), fun hk hne => ?_, fun hk => (h1.2.2 hk).trans (h2.2.2 hk)⟩
      by_cases e : (h.writeDest ta ma slots a).rv k = h.rv k
      · rw [← e] at hne; exact h1.2.1 hk hne
      · exact h1.1 (h2.2.1 hk e)

/-! ## The scan (R134) -/

/-- The slot of an element position when nothing stops the instruction. -/
def slotOf (c : VCtx) (kept : Nat → Bool) (f : Nat → ERes) (i : Nat) : Slot :=
  if i < c.vstart then .keep
  else if !c.granted i then .tail
  else if kept i then .keep
  else if !c.gov i then .off
  else .res (f i)

theorem scan_clear {c : VCtx} {en : Nat} {kept : Nat → Bool} {f : Nat → ERes}
    (ok : ∀ i, c.active i = true → kept i = false → (f i).trap = none ∧ (f i).flags &&& en = 0) : ∀ n i,
    (scan c en none kept f n i).slots = (List.range' i n).map (slotOf c kept f) ∧
    (scan c en none kept f n i).stop = none ∧
    ∀ b, (scan c en none kept f n i).flags.testBit b = true ↔
      ∃ k, i ≤ k ∧ k < i + n ∧ c.active k = true ∧ kept k = false ∧ (f k).flags.testBit b = true
  | 0, i => by
    refine ⟨rfl, rfl, fun b => ?_⟩
    simp [scan]; omega
  | n + 1, i => by
    obtain ⟨h1, h2, h3⟩ := scan_clear ok n (i + 1)
    have skip : ∀ x : Slot, (c.active i = true ∧ kept i = false → False) → slotOf c kept f i = x →
        scan c en none kept f (n + 1) i = (scan c en none kept f n (i + 1)).cons x 0 →
        (scan c en none kept f (n + 1) i).slots = (List.range' i (n + 1)).map (slotOf c kept f) ∧
        (scan c en none kept f (n + 1) i).stop = none ∧
        ∀ b, (scan c en none kept f (n + 1) i).flags.testBit b = true ↔
          ∃ k, i ≤ k ∧ k < i + (n + 1) ∧ c.active k = true ∧ kept k = false ∧ (f k).flags.testBit b = true := by
      intro x hx hs he
      rw [he]
      refine ⟨?_, h2, fun b => ?_⟩
      · simp [Scan.cons, h1, List.range'_succ, hs]
      · simp only [Scan.cons, Nat.zero_or]
        rw [h3 b]
        constructor
        · rintro ⟨k, a1, a2, a3⟩; exact ⟨k, by omega, by omega, a3⟩
        · rintro ⟨k, a1, a2, a3, a4, a5⟩
          have : k ≠ i := fun e => hx (by subst e; exact ⟨a3, a4⟩)
          exact ⟨k, by omega, by omega, a3, a4, a5⟩
    by_cases v : i < c.vstart
    · exact skip .keep (fun e => by simp [VCtx.active] at e; omega) (by simp [slotOf, v]) (by simp [scan, v])
    by_cases g : c.granted i = true
    swap
    · exact skip .tail (fun e => by simp [VCtx.active] at e; exact g e.1.1.2) (by simp [slotOf, v, g]) (by simp [scan, v, g])
    by_cases p : kept i = true
    · exact skip .keep (fun e => by simp [p] at e) (by simp [slotOf, v, g, p]) (by simp [scan, v, g, p])
    by_cases q : c.gov i = true
    swap
    · exact skip .off (fun e => by simp [VCtx.active] at e; exact q e.1.2) (by simp [slotOf, v, g, p, q]) (by simp [scan, v, g, p, q])
    have act : c.active i = true := by simp [VCtx.active, g, q]; omega
    obtain ⟨o1, o2⟩ := ok i act (by simpa using p)
    have he : scan c en none kept f (n + 1) i = (scan c en none kept f n (i + 1)).cons (.res (f i)) (f i).flags := by
      simp [scan, v, g, p, q, o1, o2]
    rw [he]
    refine ⟨?_, h2, fun b => ?_⟩
    · simp [Scan.cons, h1, List.range'_succ, slotOf, v, g, p, q]
    · simp only [Scan.cons, Nat.testBit_or, Bool.or_eq_true]
      rw [h3 b]
      constructor
      · rintro (a | ⟨k, a1, a2, a3⟩)
        · exact ⟨i, by omega, by omega, act, by simpa using p, a⟩
        · exact ⟨k, by omega, by omega, a3⟩
      · rintro ⟨k, a1, a2, a3, a4, a5⟩
        by_cases e : k = i
        · subst e; exact .inl a5
        · exact .inr ⟨k, by omega, by omega, a3, a4, a5⟩

/-! ## An elementwise instruction (R134) -/

theorem slotOf_write {c : VCtx} {kept : Nat → Bool} {f : Nat → ERes} {ta ma : Bool} {w old i : Nat} {pick : ERes → Nat}
    (hv : c.vl ≠ 0) :
    (Slot.write ta ma w pick (slotOf c kept f i)).getD old = elementAfter c ta ma kept w old (pick (f i)) i := by
  unfold slotOf elementAfter
  by_cases v : i < c.vstart
  · simp [v, Slot.write]
  by_cases g : c.granted i = true
  swap
  · cases ta <;> simp [v, g, hv, Slot.write]
  by_cases p : kept i = true
  · simp [v, g, p, hv, Slot.write]
  by_cases q : c.gov i = true
  swap
  · cases ma <;> simp [v, g, p, q, hv, Slot.write]
  simp [v, g, p, q, hv, Slot.write]

theorem slotOf_mask {c : VCtx} {kept : Nat → Bool} {f : Nat → ERes} {ta : Bool} {sel old i : Nat} (hv : c.vl ≠ 0) :
    (Slot.emask ta sel (slotOf c kept f i)).getD old = maskAfter c ta kept sel old (f i).flags i := by
  unfold slotOf maskAfter
  by_cases v : i < c.vstart
  · simp [v, Slot.emask]
  by_cases g : c.granted i = true
  swap
  · cases ta <;> simp [v, g, hv, Slot.emask]
  by_cases p : kept i = true
  · simp [v, g, p, hv, Slot.emask]
  by_cases q : c.gov i = true
  swap
  · simp [v, g, p, q, hv, Slot.emask]
  by_cases r : (f i).flags &&& sel = 0 <;> simp [v, g, p, q, r, hv, Slot.emask, b2n]

theorem foldl_max_ge (l : List Nat) : ∀ b, b ≤ l.foldl max b ∧ ∀ x ∈ l, x ≤ l.foldl max b := by
  induction l with
  | nil => simp
  | cons a l ih =>
    intro b
    have := ih (max b a)
    refine ⟨by simp only [List.foldl_cons]; omega, fun x hx => ?_⟩
    rcases List.mem_cons.mp hx with rfl | hx
    · simp only [List.foldl_cons]; omega
    · exact this.2 x hx

theorem getElem?_range'_map {α : Type} (f : Nat → α) {n i : Nat} (hi : i < n) : ((List.range' 0 n).map f)[i]? = some (f i) := by
  simp [hi]

/-- An elementwise instruction whose elements raise nothing that stops it completes and leaves what R134 says. -/
theorem elementwise_done {s : State} {c : VCtx} {md : VMods} {dests : List Dest} {src : Src} {f : Nat → ERes}
    {kept : Nat → Bool} (hc : s.cur.regBits = 256 * c.lanes) (hl : src.limit = none) (hcut : s.cut = none)
    (ok : ∀ i, takes c kept i → (f i).trap = none ∧ (f i).flags &&& s.cur.enabled = 0)
    (hf : ∀ d ∈ dests, d.fits s.cur) (ha : ∀ a ∈ dests, ∀ b ∈ dests, a.apart b)
    (he : ∀ k, md.em = some k → k < 32 ∧ ∀ d ∈ dests, overlap k 1 d.base d.regs = false) :
    ∃ h, s.elementwise c md dests src f kept = .done { s with cur := h } ∧ ElementsWritten s.cur c md dests kept f h := by
  by_cases hv : c.vl = 0
  · refine ⟨{ s.cur with vstart := 0 }, by simp [State.elementwise, hv], rfl, ?_, ?_, fun _ _ _ _ => ⟨rfl, rfl⟩, ?_,
      fun _ => ⟨id, fun _ e => absurd rfl e, fun _ => rfl⟩⟩
    · intro d _ i _
      refine (congrArg (fun x => elemN x d.width i) (groupN_vstart s.cur 0 d.base d.regs)).trans ?_
      simp [elementAfter, hv]
    · intro k _ i _
      refine (congrArg (fun x => elemN x 1 i) (groupN_vstart s.cur 0 k 1)).trans ?_
      simp [maskAfter, hv]
    · intro b _; simp [takes, hv]
  · obtain ⟨r1, r2, r3⟩ := scan_clear (en := s.cur.enabled) (fun i a k => ok i ⟨hv, a, k⟩) (spanOf c md dests) 0
    have hb : (c.vl == 0) = false := by simpa using hv
    have hspan := foldl_max_ge (dests.map c.positions) (if md.em.isSome then 256 * c.lanes else 0)
    have w := writeDests_written md.ta md.ma ((List.range' 0 (spanOf c md dests)).map (slotOf c kept f)) dests s.cur hf ha
    generalize hh : dests.foldl (fun h d => h.writeDest md.ta md.ma ((List.range' 0 (spanOf c md dests)).map (slotOf c kept f)) d)
      s.cur = h1 at w
    have hpos : ∀ d ∈ dests, c.positions d = d.regs * (s.cur.regBits / d.width) := by intro d _; rw [hc]; rfl
    have hsel : h1.sel = s.cur.sel := by rw [w.rest]; rfl
    -- the elements of the destinations, before the exception mask is written
    have el : ∀ d ∈ dests, ∀ i, i < c.positions d → elemN (h1.groupN d.base d.regs) d.width i =
        elementAfter c md.ta md.ma kept d.width (elemN (s.cur.groupN d.base d.regs) d.width i) (d.pick (f i)) i := by
      intro d hd i hi
      have hn : i < spanOf c md dests := Nat.lt_of_lt_of_le hi (hspan.2 _ (List.mem_map_of_mem hd))
      rw [w.element d hd i (by rw [← hpos d hd]; exact hi), getElem?_range'_map _ hn]
      exact slotOf_write hv
    have fl : ∀ (t : Hart) b, b < 64 → ((t.raise (scan c s.cur.enabled none kept f (spanOf c md dests) 0).flags).vxflags.getLsbD b = true ↔
        t.vxflags.getLsbD b = true ∨ ∃ i, i < spanOf c md dests ∧ takes c kept i ∧ (f i).flags.testBit b = true) := by
      intro t b hb
      simp only [Hart.raise, BitVec.getLsbD_or, Bool.or_eq_true, BitVec.getLsbD_ofNat, hb, decide_true, Bool.true_and]
      rw [r3 b]
      refine or_congr_right ⟨?_, ?_⟩
      · rintro ⟨k, -, a2, a3, a4, a5⟩; exact ⟨k, by omega, ⟨hv, a3, a4⟩, a5⟩
      · rintro ⟨k, a2, ⟨-, a3, a4⟩, a5⟩; exact ⟨k, by omega, by omega, a3, a4, a5⟩
    have fin : ∀ h2 : Hart, h2 = { h1 with v := h2.v, dirty := h2.dirty } →
        (∀ d ∈ dests, h2.groupN d.base d.regs = h1.groupN d.base d.regs) →
        (∀ k, md.em = some k → ∀ i, i < 256 * c.lanes → elemN (h2.groupN k 1) 1 i =
          maskAfter c md.ta kept s.cur.sel (elemN (s.cur.groupN k 1) 1 i) (f i).flags i) →
        (∀ k, k < 32 → md.em ≠ some k → h2.rv k = h1.rv k ∧ h2.dirty.getLsbD k = h1.dirty.getLsbD k) →
        (∀ k, (h1.dirty.getLsbD k = true → h2.dirty.getLsbD k = true) ∧
          (k < 32 → h2.rv k ≠ h1.rv k → h2.dirty.getLsbD k = true) ∧ (32 ≤ k → h2.dirty.getLsbD k = h1.dirty.getLsbD k)) →
        ElementsWritten s.cur c md dests kept f
          { h2.raise (scan c s.cur.enabled none kept f (spanOf c md dests) 0).flags with vstart := 0 } := by
      intro h2 p1 p2 p3 p4 p5
      refine ⟨?_, ?_, ?_, ?_, ?_, ?_⟩
      · rw [p1, w.rest]; rfl
      · intro d hd i hi
        refine (congrArg (fun x => elemN x d.width i) ((groupN_vstart (h2.raise _) 0 d.base d.regs).trans (groupN_raise h2 _ d.base d.regs))).trans ?_
        rw [p2 d hd, el d hd i hi]
      · intro k hk i hi
        refine (congrArg (fun x => elemN x 1 i) ((groupN_vstart (h2.raise _) 0 k 1).trans (groupN_raise h2 _ k 1))).trans ?_
        rw [p3 k hk i hi]
      · intro k hk hne ho
        have a := p4 k hk hne
        have b := w.others k hk ho
        exact ⟨a.1.trans b.1, a.2.trans b.2⟩
      · intro b hb
        refine (fl h2 b hb).trans ?_
        rw [p1, w.rest]
      · intro k
        have a := p5 k
        have b := w.dirtied k
        refine ⟨fun e => a.1 (b.1 e), fun hk hne => ?_, fun hk => (a.2.2 hk).trans (b.2.2 hk)⟩
        by_cases e : h1.rv k = s.cur.rv k
        · rw [← e] at hne; exact a.2.1 hk hne
        · exact a.1 (b.2.1 hk e)
    cases hem : md.em with
    | none =>
      refine ⟨{ h1.raise (scan c s.cur.enabled none kept f (spanOf c md dests) 0).flags with vstart := 0 }, ?_, ?_⟩
      · have : spanOf c md dests = (dests.map c.positions).foldl max 0 := by simp [spanOf, hem]
        rw [this] at r2 r1 hh ⊢
        simp only [State.elementwise, hb, hl, hem, State.cutAt, hcut, Option.map_none, Limit.lower, Option.isSome_none, Bool.false_eq_true, if_false, r1, hh, r2, Option.or, vecEnd]
      · exact fin h1 rfl (fun _ _ => rfl) (fun k hk => absurd (hem.symm.trans hk) (by simp)) (fun _ _ _ => ⟨rfl, rfl⟩)
          (fun _ => ⟨id, fun _ e => absurd rfl e, fun _ => rfl⟩)
    | some k =>
      obtain ⟨hk, hko⟩ := he k hem
      have r := writeRegs_written 1 1 k (((List.range' 0 (spanOf c md dests)).map (slotOf c kept f)).map (Slot.emask md.ta s.cur.sel))
        h1 (fitsIn_map (slotMask_lt md.ta s.cur.sel)) (by omega)
      have hg : s.cur.groupN k 1 = h1.groupN k 1 := by
        refine (w.apart k 1 (by omega) (fun d hd => ?_)).symm
        have := overlap_false (hko d hd)
        simp [overlap]; omega
      refine ⟨_, ?_, fin _ r.rest ?_ ?_ ?_ r.dirtied⟩
      · have : spanOf c md dests = (dests.map c.positions).foldl max (256 * c.lanes) := by simp [spanOf, hem]
        rw [this] at r2 r1 hh ⊢
        simp only [State.elementwise, hb, hl, hem, State.cutAt, hcut, Option.map_none, Limit.lower, Option.isSome_some, Bool.false_eq_true, if_false, if_true, r1, hh, r2, hsel, Option.or, vecEnd]
      · intro d hd
        exact r.apart (hf d hd).inFile (hko d hd)
      · intro k' hk' i hi
        rw [hem] at hk'; cases hk'
        have hn : i < spanOf c md dests := Nat.lt_of_lt_of_le hi (by simpa [spanOf, hem] using hspan.1)
        rw [r.group (e := 256 * c.lanes) (by rw [w.regBits, hc]; ring) (by decide) (by omega), ← hg, getD_map_write,
          getElem?_range'_map _ hn]
        exact slotOf_mask hv
      · intro j hj hne
        rw [hem] at hne
        exact r.others j hj (by have : j ≠ k := fun e => hne (by rw [e]); omega)

/-! ## Fetching a source (R135, R164, R166) -/

/-- Fetching changes of the hart only its queues and its watchpoint matches, and of memory only access bits. -/
def Fetched (s t : State) : Prop :=
  (∃ q st, t.cur = { s.cur with q := q, strikes := st }) ∧ (Memory.wf s.mem = true → Memory.wf t.mem = true) ∧ t.cut = s.cut

namespace Fetched

theorem refl (s : State) : Fetched s s := ⟨⟨_, _, rfl⟩, id, rfl⟩

theorem trans {s t u : State} (h : Fetched s t) (k : Fetched t u) : Fetched s u := by
  obtain ⟨⟨q, st, h1⟩, h2, h3⟩ := h
  obtain ⟨⟨q', st', k1⟩, k2, k3⟩ := k
  exact ⟨⟨q', st', by rw [k1, h1]⟩, fun e => k2 (h2 e), k3.trans h3⟩

theorem of_load {s : State} (st : Stream) (a : Word) (n : Nat) : Fetched s (s.loadN st a n).2 :=
  ⟨⟨s.cur.q, s.cur.strikes, by rw [(loadN_reached s st a n).cur]⟩, fun h => loadN_wf h st a n, by rw [(loadN_reached s st a n).cut]⟩

theorem of_reached {s t : State} (h : Reached s t) (hm : t.mem = s.mem) : Fetched s t :=
  ⟨⟨s.cur.q, s.cur.strikes, by rw [h.cur]⟩, fun hw => by rw [hm]; exact hw, h.cut⟩

theorem noted (s : State) (e : Nat) (xs : List (Option Nat × Nat × Word)) : Fetched s { s with cur := s.cur.note e xs } :=
  ⟨⟨s.cur.q, _, rfl⟩, id, rfl⟩

theorem strike (s : State) (k : WKind) (a : Word) (n e : Nat) : Fetched s (s.strike k a n e) := by
  unfold State.strike
  split
  · exact refl s
  · exact (noted ..).trans (of_reached (tellHart_reached ..) (tellHart_mem ..))

theorem noteStrike (s : State) (k : WKind) (a : Word) (n e : Nat) : Fetched s (s.noteStrike k a n e) := by
  unfold State.noteStrike
  split
  · exact refl s
  · exact noted ..

theorem strikeAhead (s : State) (a : Word) (n e : Nat) : Fetched s (s.strikeAhead a n e) := by
  unfold State.strikeAhead
  split
  · exact refl s
  · exact (noted ..).trans (of_reached (tellHart_reached ..) (tellHart_mem ..))

theorem wq (s : State) (n : Nat) (x : QReg) : Fetched s { s with cur := s.cur.wq n x } := ⟨⟨_, s.cur.strikes, rfl⟩, id, rfl⟩

theorem imageLoad (s : State) (qn : Nat) (pg : List Word) (a : Word) (n : Nat) : Fetched s (s.imageLoad qn pg a n).2 := by
  have := of_load (s := s) (.q (BitVec.ofNat 3 qn)) a n
  unfold State.imageLoad
  split <;> rename_i e <;> rw [e] at this
  · exact this.trans (strikeAhead ..)
  · exact this

theorem imageLoads (qn : Nat) (pg : List Word) (k : Nat) : ∀ (n : Nat) (s : State) (a : Word),
    Fetched s (s.imageLoads qn pg k a n).2
  | 0, s, _ => refl s
  | n + 1, s, a => by
    have h := imageLoad s qn pg a k
    rw [State.imageLoads]
    split
    · rename_i x s1 e
      rw [e] at h
      have h2 := imageLoads qn pg k n s1 (a + BitVec.ofNat 64 k)
      split <;> rename_i e2 <;> rw [e2] at h2 <;> exact h.trans h2
    all_goals rename_i e; rw [e] at h; exact h

theorem imageStep (s : State) (qn : Nat) (im : ImageState) : Fetched s (s.imageStep qn im).2 := by
  unfold State.imageStep
  split
  · exact refl s
  split
  · have h := imageLoads qn im.paged 8 18 s im.header
    split <;> rename_i e <;> rw [e] at h <;> exact h
  · have h := imageLoad s qn im.paged im.addr 8
    split <;> rename_i e <;> rw [e] at h
    · exact h
    · exact h
    · exact h
    · rename_i hd s1
      dsimp only
      split
      · exact h
      · have h2 := h.trans (imageLoads qn im.paged 4 (hd / 2 ^ 32) s1 (im.addr + 8))
        split <;> rename_i e2 <;> rw [e2] at h2
        · exact h2
        · exact h2
        · exact h2
        · split <;> exact h2

theorem fetchAffine (s : State) (qn : Nat) (d : AffDesc) (p e : Nat) : Fetched s (s.fetchAffine qn d p e).2 := by
  unfold State.fetchAffine
  dsimp only
  split
  · exact refl s
  · have h := of_load (s := s) (.q (BitVec.ofNat 3 qn)) (d.addr p) (fmtWidth d.fmt / 8)
    split <;> rename_i e <;> rw [e] at h
    · exact h.trans (strike ..)
    · exact h

theorem askPage (s : State) (who : PageWho) (ctx a : Word) : Fetched s (s.askPage who ctx a).2 := ⟨⟨s.cur.q, s.cur.strikes, rfl⟩, id, rfl⟩

theorem fetchImage (qn p e : Nat) : ∀ (fuel : Nat) (s : State) (im : ImageState) (pos : Nat),
    Fetched s (s.fetchImage qn p e fuel im pos).2
  | 0, s, _, _ => refl s
  | fuel + 1, s, im, pos => by
    rw [State.fetchImage]
    split
    · exact refl s
    split
    · exact refl s
    · exact refl s
    · split
      · exact refl s
      split
      · exact refl s
      · have h := imageStep s qn im
        split <;> rename_i e1 <;> rw [e1] at h
        · exact (h.trans (askPage ..)).trans (wq ..)
        · exact (h.trans (wq ..)).trans (fetchImage qn p e fuel _ _ pos)

theorem fetchHeld (s : State) (qn p e : Nat) : Fetched s (s.fetchHeld qn p e).2 := by
  unfold State.fetchHeld
  split
  · rename_i d _ _ _
    have h := fetchAffine s qn d p e
    split <;> rename_i e1 <;> rw [e1] at h <;> exact h
  · exact fetchImage ..
  · exact refl s

theorem strikeGot (s : State) (qn p e : Nat) : Fetched s (s.strikeGot qn p e) := by
  unfold State.strikeGot; split
  · exact noteStrike ..
  · exact refl s

theorem resolve (qn : Nat) (place : Nat → Nat) : ∀ (hs : List Held) (j : Nat) (s : State),
    Fetched s (s.resolve qn place j hs).2.2
  | [], _, s => refl s
  | .val x :: t, j, s => resolve qn place t (j + 1) s
  | .got p x :: t, j, s => (strikeGot s qn p (place j)).trans (resolve qn place t (j + 1) _)
  | .pos p :: t, j, s => by
    rw [State.resolve]
    have h := fetchHeld s qn p (place j)
    split <;> rename_i e1 <;> rw [e1] at h
    · exact h
    · exact h.trans (resolve qn place t (j + 1) _)

theorem takeQ {s u : State} {qn n w : Nat} {place : Nat → Nat} {x : List Held × Option Limit}
    (h : s.takeQ qn n w place = some (x, u)) : Fetched s u := by
  unfold State.takeQ at h
  split at h
  · rename_i hs _
    have := resolve qn place hs 0 s
    simp only [Option.some.injEq, Prod.mk.injEq] at h
    rw [← h.2]; exact this
  · split at h
    · cases h
    · rename_i hs q _
      have := (wq s qn q).trans (resolve qn place hs 0 _)
      simp only [Option.some.injEq, Prod.mk.injEq] at h
      rw [← h.2]; exact this

theorem src1 {s u : State} {o : VOp} {c : VCtx} {w n : Nat} {a : Src} (h : s.src1 o c w n = some (a, u)) : Fetched s u := by
  unfold State.src1 at h
  split at h
  · split at h
    · cases h
    · rename_i e
      simp only [Option.some.injEq, Prod.mk.injEq] at h
      rw [← h.2]; exact takeQ e
  · simp only [Option.some.injEq, Prod.mk.injEq] at h
    rw [← h.2]; exact refl s

theorem cut {s t : State} (h : Fetched s t) : t.cut = s.cut := h.2.2
theorem v {s t : State} (h : Fetched s t) : t.cur.v = s.cur.v := by obtain ⟨⟨q, st, e⟩, -⟩ := h; rw [e]
theorem lmap {s t : State} (h : Fetched s t) : t.cur.lmap = s.cur.lmap := by obtain ⟨⟨q, st, e⟩, -⟩ := h; rw [e]
theorem pfx {s t : State} (h : Fetched s t) : t.cur.pfx = s.cur.pfx := by obtain ⟨⟨q, st, e⟩, -⟩ := h; rw [e]; rfl
theorem enabled {s t : State} (h : Fetched s t) : t.cur.enabled = s.cur.enabled := by obtain ⟨⟨q, st, e⟩, -⟩ := h; rw [e]; rfl

end Fetched

/-! ## The checks and the single-destination form (R136, R137) -/

theorem vctx_regBits (h : Hart) (m : Bool) : h.regBits = 256 * (h.vctx m).lanes := rfl

theorem aligned_fits {b n : Nat} (hb : b < 32) (hn : n ∣ 32) (ha : b % n = 0) : b + n ≤ 32 := by
  obtain ⟨q, rfl⟩ := Nat.dvd_of_mod_eq_zero ha
  obtain ⟨m, hm⟩ := hn
  have n0 : 0 < n := Nat.pos_of_ne_zero (fun e => by subst e; omega)
  have : q < m := Nat.lt_of_mul_lt_mul_left (hm ▸ hb)
  calc n * q + n = n * (q + 1) := by ring
    _ ≤ n * m := Nat.mul_le_mul_left _ this
    _ = 32 := hm.symm

theorem aligned_apart {a b n : Nat} (ha : a % n = 0) (hb : b % n = 0) (hne : a ≠ b) : overlap a n b n = false := by
  obtain ⟨p, rfl⟩ := Nat.dvd_of_mod_eq_zero ha
  obtain ⟨q, rfl⟩ := Nat.dvd_of_mod_eq_zero hb
  have hpq : p ≠ q := fun e => hne (by rw [e])
  rcases Nat.lt_or_gt_of_ne hpq with l | l
  · have : n * (p + 1) ≤ n * q := Nat.mul_le_mul_left _ l
    simp [overlap]; intro; nlinarith
  · have : n * (q + 1) ≤ n * p := Nat.mul_le_mul_left _ l
    simp [overlap]; intro; nlinarith

theorem pfxCopy_lt {p : Word} {r : Nat} (h : pfxCopy p = some r) : r < 32 := by
  unfold pfxCopy at h; split at h
  · simp only [Option.some.injEq] at h; omega
  · cases h

theorem pfxEmask_lt (p : Word) : (pfxEmask p).getD 31 < 32 := by
  unfold pfxEmask; split
  · simp only [Option.getD_some]; omega
  · decide

theorem fits_of {h : Hart} {d : Dest} (hf : d.base + d.regs ≤ 32) (hw : d.width ∣ 256) (h0 : 0 < d.width) : d.fits h := by
  refine ⟨hf, h0, ?_⟩
  have : d.width ∣ h.regBits := Dvd.dvd.mul_right hw h.lanes
  exact (Nat.mul_div_cancel' this).symm

/-- What checks 3 and 4 say of the destination, its copy and the exception mask when they pass. -/
theorem vCheck_dests {h t : Hart} {o : VOp} {c : VCtx} {k : Shape} {w : Nat} {pick : ERes → Nat} (hv : vCheck h o c k = true)
    (h1 : k.halves = 1) (hn : k.nd ∣ 32) (hw : w ∣ 256) (w0 : 0 < w) (hp : t.pfx = h.pfx) :
    let d : Dest := { base := o.vd.toNat, regs := k.nd, width := w, pick := pick }
    (∀ x ∈ d :: t.copyDest d, x.fits t) ∧ (∀ a ∈ d :: t.copyDest d, ∀ b ∈ d :: t.copyDest d, a.apart b) ∧
    (∀ e, (VMods.of t o).em = some e → e < 32 ∧ ∀ x ∈ d :: t.copyDest d, overlap e 1 x.base x.regs = false) := by
  intro d
  simp only [vCheck, Bool.and_eq_true, h1, Nat.mul_one] at hv
  obtain ⟨⟨⟨⟨⟨⟨⟨⟨⟨-, hcp⟩, -⟩, -⟩, hg⟩, -⟩, -⟩, -⟩, -⟩, hem⟩ := hv
  have hal : o.vd.toNat % k.nd = 0 := by simp only [groupOk, Bool.and_eq_true, beq_iff_eq] at hg; exact hg.2
  have hd : d.base + d.regs ≤ 32 := aligned_fits (by have := o.vd.isLt; omega) hn hal
  have hcopy : ∀ x ∈ t.copyDest d, ∃ r, pfxCopy h.pfx = some r ∧ x = { d with base := r } ∧ r % k.nd = 0 := by
    intro x hx
    unfold Hart.copyDest at hx
    rw [hp] at hx
    split at hx
    · rename_i r e
      rw [e] at hcp
      exact ⟨r, e, by simpa using hx, by simpa using hcp⟩
    · simp at hx
  have all : ∀ x ∈ d :: t.copyDest d, ∃ r, r < 32 ∧ r % k.nd = 0 ∧ x = { d with base := r } := by
    intro x hx
    rcases List.mem_cons.mp hx with rfl | hx
    · exact ⟨o.vd.toNat, by have := o.vd.isLt; omega, hal, rfl⟩
    · obtain ⟨r, h1, h2, h3⟩ := hcopy x hx
      exact ⟨r, pfxCopy_lt h1, h3, h2⟩
  refine ⟨?_, ?_, ?_⟩
  · intro x hx
    obtain ⟨r, r1, r2, rfl⟩ := all x hx
    exact fits_of (aligned_fits r1 hn r2) hw w0
  · intro a ha b hb
    obtain ⟨r, r1, r2, rfl⟩ := all a ha
    obtain ⟨q, q1, q2, rfl⟩ := all b hb
    by_cases e : r = q
    · left; rw [e]
    · right; exact aligned_apart r2 q2 e
  · intro e he
    simp only [VMods.of, hp] at he
    split at he
    · rename_i ho
      simp only [Option.some.injEq] at he
      subst he
      refine ⟨pfxEmask_lt _, fun x hx => ?_⟩
      simp only [ho, if_true, emClear, Bool.and_eq_true, List.all_cons, Bool.not_eq_true'] at hem
      rcases List.mem_cons.mp hx with rfl | hx
      · exact hem.1.1
      · obtain ⟨r, h1, rfl, -⟩ := hcopy x hx
        rw [h1] at hem
        simpa using hem.2
    · cases he

/-- The single-destination form (R134, R136, R137): it is refused where a check fails, and else completes with every element
as its rule gives it. -/
theorem vElem_done {s u : State} {o : VOp} {k : Shape} {w1 w2 wd : Nat} {f : VCtx → Nat → Nat → Nat → ERes} {a : Src}
    (hv : vCheck s.cur o (s.cur.vctx o.m) k = true) (hs : s.src1 o (s.cur.vctx o.m) w1 k.n1 = some (a, u))
    (hl : a.limit = none) (hcut : s.cut = none) (h1 : k.halves = 1) (hn : k.nd ∣ 32) (hw : wd ∣ 256) (w0 : 0 < wd)
    (ok : ∀ i, takes (s.cur.vctx o.m) (fun _ => false) i →
      let r := f (s.cur.vctx o.m) (a.elem i) (elemN (u.cur.groupN o.vs2.toNat k.n2) w2 i) (elemN (u.cur.groupN o.vd.toNat k.nd) wd i)
      r.trap = none ∧ r.flags &&& u.cur.enabled = 0) :
    let d : Dest := { base := o.vd.toNat, regs := k.nd, width := wd, pick := fun r => r.val }
    ∃ h, s.vElem o k w1 w2 wd f = .done { u with cur := h } ∧
      ElementsWritten u.cur (s.cur.vctx o.m) (VMods.of u.cur o) (d :: u.cur.copyDest d) (fun _ => false)
        (fun i => f (s.cur.vctx o.m) (a.elem i) (elemN (u.cur.groupN o.vs2.toNat k.n2) w2 i)
          (elemN (u.cur.groupN o.vd.toNat k.nd) wd i)) h := by
  intro d
  have fu := Fetched.src1 hs
  obtain ⟨d1, d2, d3⟩ := vCheck_dests (t := u.cur) (pick := fun r => r.val) hv h1 hn hw w0 fu.pfx
  have hreg : u.cur.regBits = 256 * (s.cur.vctx o.m).lanes := by
    unfold Hart.regBits Hart.lanes; rw [fu.lmap]; rfl
  obtain ⟨h, h2, h3⟩ := elementwise_done (src := a) (kept := fun _ => false) (md := VMods.of u.cur o) hreg hl (fu.cut.trans hcut) ok d1 d2 d3
  refine ⟨h, ?_, h3⟩
  rw [← h2]
  simp only [State.vElem, hv, hs, Bool.not_true, Bool.false_eq_true, if_false]

theorem vElem_refused {s : State} {o : VOp} {k : Shape} {w1 w2 wd : Nat} {f : VCtx → Nat → Nat → Nat → ERes}
    (h : vCheck s.cur o (s.cur.vctx o.m) k = false ∨ s.src1 o (s.cur.vctx o.m) w1 k.n1 = none) :
    s.vElem o k w1 w2 wd f = illegalV s := by
  unfold State.vElem
  rcases h with h | h
  · simp [h]
  · simp only [h]; split <;> rfl

end Sys2Proof.Machine
end

