-- ==== Sys2Proof/Tests/Slice0.lean ====
section
/-!
SUPPORT. The model's own tests: words decoded, ill-formed terms refused, single steps on small states with results taken from
the spec, and for every statement a state and operands that meet its hypotheses.
-/

set_option Elab.async false
set_option maxRecDepth 8000

open Sys2Proof Sys2Proof.Machine

namespace Sys2Proof.Tests

/-! ## Decoding: words written out from R85 and R91 to R103 -/

theorem test_decode_alu : decode 0b000100_00001_00010_00011_00000000001#32 = .ok (.sub 1#5 2#5 3#5) := by decide
theorem test_decode_imm : decode 0b000010_01010_00000_0000001000000000#32 = .ok (.lih 10#5 0#5 0x0200#16) := by decide
theorem test_decode_shi : decode 0b001000_00001_00010_00000000_10_111111#32 = .ok (.srai 1#5 2#5 63#6) := by decide
theorem test_decode_fps : decode 0b001010_00001_00010_00011_001_000_00010#32 = .ok (.fmul 1#5 2#5 3#5 1#3) := by decide
theorem test_decode_load : decode 0b001110_00001_00010_1111111111111100#32 = .ok (.ldw 1#5 2#5 0xFFFC#16) := by decide
theorem test_decode_store : decode 0b010110_00001_00010_0000000000001000#32 = .ok (.std 1#5 2#5 8#16) := by decide
theorem test_decode_amo : decode 0b010111_00001_00010_00011_1001_1_0_101_00#32 = .ok (.amocas 1#5 2#5 3#5 true false 5#3) := by decide
theorem test_decode_branch : decode 0b011010_00001_00010_1111111111111110#32 = .ok (.blt 1#5 2#5 0xFFFE#16) := by decide
theorem test_decode_jal : decode 0b011110_11111111111111111111111111#32 = .ok (.jal 0x3FFFFFF#26) := by decide
theorem test_decode_jalr : decode 0b011111_00000_00001_0000000000000000#32 = .ok (.jalr 0#5 1#5 0#16) := by decide
theorem test_decode_loop : decode 0b100000_00101_00000_0000000000000001#32 = .ok (.loop 5#5 1#16) := by decide
theorem test_decode_sys : decode 0b000000_00101_00000_0001_000000000000#32 = .ok (.csrr 5#5 0#12) := by decide
theorem test_decode_pfx : decode 0b000001_00001_00000_00000_111_1_0_0_00000#32 = .ok (.pfx 1#5 0#5 0#5 7#3 true false false 0#5) := by decide
theorem test_decode_vsetl : decode 0b100001_00011_00100_00101_0_01_00_01_0100#32 = .ok (.vsetl 3#5 4#5 5#5 0x114#10) := by decide
theorem test_decode_vint : decode 0b100010_00001_00010_00011_1_1_0_0_0_0_00000#32 = .ok (.vadd ⟨1#5, 2#5, 3#5, true, true, false, false, false, false⟩) := by decide
theorem test_decode_vintx : decode 0b100011_00001_00010_11111_0_0_1_0_0_1_00000#32 = .ok (.vaddVx ⟨1#5, 2#5, 31#5, false, false, true, false, false, true⟩) := by decide
theorem test_decode_vfp : decode 0b100100_00001_00010_00011_0_0_0_1_0_0_00000#32 = .ok (.vfadd ⟨1#5, 2#5, 3#5, false, false, false, true, false, false⟩) := by decide
theorem test_decode_vfpx : decode 0b100101_00001_00010_00011_0_0_0_0_0_0_00000#32 = .ok (.vfaddVf ⟨1#5, 2#5, 3#5, false, false, false, false, false, false⟩) := by decide
theorem test_decode_vpair : decode 0b100110_00010_00100_00110_0_0_0_0_0_0_00000#32 = .ok (.vfaddx ⟨2#5, 4#5, 6#5, false, false, false, false, false, false⟩) := by decide
theorem test_decode_vred : decode 0b100111_00001_00010_00011_0_0_0_0_0_0_00000#32 = .ok (.vredsum ⟨1#5, 2#5, 3#5, false, false, false, false, false, false⟩) := by decide
theorem test_decode_vperm : decode 0b101000_00001_00010_00011_0_0_0_0_0_0_00000#32 = .ok (.vslideup ⟨1#5, 2#5, 3#5, false, false, false, false, false, false⟩) := by decide
theorem test_decode_vmsk : decode 0b101001_00001_00010_00011_0_1_0_0_0_0_00000#32 = .ok (.vmand ⟨1#5, 2#5, 3#5, false, true, false, false, false, false⟩) := by decide
theorem test_decode_vcvt : decode 0b101010_00001_00010_0_0101_0_0_0_0_0_0_00000#32 = .ok (.vfcvt ⟨1#5, 2#5, 5#5, false, false, false, false, false, false⟩) := by decide
theorem test_decode_vxf : decode 0b101011_00001_00010_00100_0_0_0_0_0_0_00000#32 = .ok (.vunpk ⟨1#5, 2#5, 4#5, false, false, false, false, false, false⟩) := by decide
theorem test_decode_vsfu : decode 0b101100_00001_00010_00000_0_0_0_0_1_0_00000#32 = .ok (.vfrcp ⟨1#5, 2#5, 0#5, false, false, false, false, true, false⟩) := by decide
theorem test_decode_vld : decode 0b101101_00001_00010_00000_1_0_0_0_000_1111#32 = .ok (.vld ⟨1#5, 2#5, 0#5, true, false, false, false, 15#4⟩) := by decide
theorem test_decode_vst : decode 0b101110_00001_00010_00000_0_0_0_1_000_0010#32 = .ok (.vst ⟨1#5, 2#5, 0#5, false, false, false, true, 2#4⟩) := by decide
theorem test_decode_vmv : decode 0b101111_00001_00010_00000_0_0_0_0_0_0_00000#32 = .ok (.vmove ⟨1#5, 2#5, 0#5, false, false, false, false, false, false⟩) := by decide
theorem test_decode_mopa : decode 0b110000_111_00001_00010_00000_1_010_0000#32 = .ok (.mopa 7#3 1#5 2#5 true 2#3) := by decide
theorem test_decode_mtile : decode 0b110001_011_00000_00000_00000_0_000_0000#32 = .ok (.mzero 3#3) := by decide
theorem test_decode_strm : decode 0b110010_00111_00001_00000_00000000000#32 = .ok (.sbind 7#3 1#5) := by decide
theorem test_decode_rgn : decode 0b110011_00000_00000_0000000000000010#32 = .ok (.vrgn 2#16) := by decide
theorem test_decode_lane : decode 0b110100_00000_00000_0000000000000011#32 = .ok (.lfork 3#16) := by decide
theorem test_decode_xeng : decode 0b110101_00010_00011_00100_001_1_1_000000#32 = .ok (.xcopy 2#5 3#5 4#5 1#3 true true) := by decide
theorem test_decode_bank : decode 0b110110_00001_00010_00011_00000000000#32 = .ok (.bkadd 1#5 2#5 3#5) := by decide
theorem test_decode_pyr : decode 0b110111_00001_00010_00000_00000000000#32 = .ok (.pyinit 1#5 2#5) := by decide
theorem test_decode_rcall : decode 0b111000_00001_00010_00000_00000_111111#32 = .ok (.rcall 1#5 2#5 63#6) := by decide
theorem test_decode_lnch : decode 0b111001_00001_00010_00000_00000000001#32 = .ok (.lnchW 1#5 2#5) := by decide
theorem test_decode_qop : decode 0b111010_00001_00000_01111_00000000000#32 = .ok (.qpush 1#5 15#5) := by decide
theorem test_decode_sync_evset : decode 0xEC14A802#32 = .ok (.evset 20#5 21#5) := by decide
theorem test_decode_sync_evwait : decode 0xEC14B003#32 = .ok (.evwait 20#5 22#5) := by decide
theorem test_decode_nmu : decode 0b111100_00001_00010_00000_00000000000#32 = .ok (.nmrun 1#5 2#5) := by decide
theorem test_decode_reserved : decode 0b111111_00000_00000_00000_00000000000#32 = .error .reservedMajor := by decide
theorem test_decode_bytes : decodeBytes [0x01, 0x18, 0x22, 0x10, 0xFF] = .ok (.sub 1#5 2#5 3#5, [0xFF]) := by decide

/-! ## A term that each check of WellFormed refuses -/

theorem test_wf_rounding : (Instr.fadd 1 2 3 5).wf = false := by decide
theorem test_wf_scope : (Instr.fence 6).wf = false := by decide
theorem test_wf_loop_offset : (Instr.loop 1 0).wf = false := by decide
theorem test_wf_format_pair : (Instr.mopa 0 1 2 false 3).wf = false := by decide
theorem test_wf_prefix : (Instr.pfx 1 0 0 7 false false false 0).wf = false := by decide
theorem test_wf_prefix_empty : (Instr.pfx 0 0 0 7 false false false 0).wf = false := by decide
theorem test_wf_vtype : (Instr.vsetl 1 2 0 0x00D).wf = false := by decide
theorem test_wf_vtype_block : (Instr.vsetl 1 2 0 0x040).wf = false := by decide
theorem test_wf_rows : (Instr.vsetl 1 2 3 0x000).wf = false := by decide
theorem test_wf_queue : (Instr.vadd ⟨1, 8, 3, false, false, false, false, true, false⟩).wf = false := by decide
theorem test_wf_imm_bit : (Instr.vadd ⟨1, 2, 3, false, false, false, false, false, true⟩).wf = false := by decide
theorem test_wf_exceptions : (Instr.vadd ⟨1, 2, 3, false, false, false, true, false, false⟩).wf = false := by decide
theorem test_wf_vs2 : (Instr.vfabs ⟨1, 2, 3, false, false, false, false, false, false⟩).wf = false := by decide
theorem test_wf_vs1 : (Instr.vsplat ⟨1, 2, 3, false, false, false, false, false, false⟩).wf = false := by decide
theorem test_wf_mask_modifier : (Instr.vmand ⟨1, 2, 3, true, false, false, false, false, false⟩).wf = false := by decide
theorem test_wf_ma : (Instr.vredsum ⟨1, 2, 3, false, false, true, false, false, false⟩).wf = false := by decide
theorem test_wf_ta : (Instr.vmpopc ⟨1, 2, 0, false, true, false, false, false, false⟩).wf = false := by decide
theorem test_wf_slide : (Instr.vslideup ⟨1, 2, 16, false, false, false, false, false, true⟩).wf = false := by decide
theorem test_wf_field_width : (Instr.vunpk ⟨1, 2, 5, false, false, false, false, false, false⟩).wf = false := by decide
theorem test_wf_load_format : (Instr.vld ⟨1, 2, 0, false, false, false, false, 13⟩).wf = false := by decide
theorem test_wf_load_queue : (Instr.vld ⟨8, 2, 0, false, false, false, true, 2⟩).wf = false := by decide
theorem test_wf_load_index : (Instr.vld ⟨1, 2, 3, false, false, false, false, 2⟩).wf = false := by decide
theorem test_wf_bar_mask : (Instr.sbar 0).wf = false := by decide
theorem test_wf_token_pair : (Instr.xcopy 1 2 3 0 false false).wf = false := by decide
theorem test_wf_queue_number : (Instr.qpush 1 16).wf = false := by decide
theorem test_wf_place : (Instr.haltDrained 3584).wf = false := by decide
theorem test_wf_port : (Instr.evadd 2 0).wf = false := by decide
theorem test_wf_channel : (Instr.refreshDue 384 0).wf = false := by decide
theorem test_wf_cluster : (Instr.barRelease 224 0).wf = false := by decide
theorem test_wf_cocoon : (Instr.cocoonRun 0).wf = false := by decide
/-! ## States for the tests -/

/-- A running hart with one lane, 4 KiB of scratchpad at offset 0, and 32 FP32 elements at its disposal. -/
def hart0 : Hart := { Hart.blank 0 with status := .running, lmap := 1, vlmax := 32, local_ := [⟨0, 4096, 0, false⟩], sctx := 1 }
def st (h : Hart) : State := { State.reset with cur := h }
def s0 : State := st hart0
def lane0 : LaneState := { join := 64, threads := [⟨0, 8, .running⟩], turn := 0, len := 1, snap := Vector.replicate 32 0 }
def sLane : State := st { hart0 with lane := some lane0 }
/-- Registers x1 and x2 set. -/
def sx (a b : Word) : State := st ((hart0.wx 1 a).wx 2 b)
/-- The first byte of the local window. -/
def W : Word := 0x00FFFF0000000000

/-! ## Witnesses: states that meet the statements' hypotheses -/

theorem wit_Numbers : fp32 ∈ [fp32, bf16, fp16, e5m2] ∧ Spec.value fp32 0x3F800000 = some 1 ∧ Spec.value fp32 0 = some 0 := by
  refine ⟨by simp, ?_, ?_⟩ <;> norm_num [Spec.value, Spec.rational, readF, fp32, bitN]
theorem wit_plain : PlainHart s0 ∧ Plain s0 ∧ Executes s0 ∧ s0.cur.lane = none := ⟨⟨⟨⟨rfl, rfl, rfl⟩, rfl⟩, rfl⟩, ⟨⟨rfl, rfl, rfl⟩, rfl⟩, ⟨rfl, rfl, rfl⟩, rfl⟩
theorem wit_lane : Plain sLane ∧ sLane.cur.lane = some lane0 := ⟨⟨⟨rfl, rfl, rfl⟩, rfl⟩, rfl⟩
theorem wit_UnaryFieldZero : 24 ≤ (24#11).toNat ∧ (29#11).toNat ≤ 29 ∧ (1#5) ≠ 0 := by decide
theorem wit_prefix_rounding : Executes s0 ∧ pfxFits s0.cur.pfx { rm := true } = true ∧ pfxFits (0x8000000000000100 : Word) { rm := true } = true :=
  ⟨⟨rfl, rfl, rfl⟩, by decide, by decide⟩
theorem wit_ScalarConvert : sLane.cur.lane.isSome = true ∧ (7#3).getLsbD 0 = true ∧ ¬ (sLane.cur.lane.isSome = true ∧ (6#3).getLsbD 0 = true) := by decide
theorem wit_ScalarLoads : ∃ x t, ((sx W 0).cur.scalarAddr 1 0xFF8).toNat % 8 = 0 ∧
    (sx W 0).start.loadN (sx W 0).cur.scalarStream ((sx W 0).cur.scalarAddr 1 0xFF8) 8 = (.ok x, t) ∧ t.blocked = none ∧
    t.watched t.cur.sctx .read ((sx W 0).cur.scalarAddr 1 0xFF8) 8 = none := by
  refine ⟨_, _, by decide, rfl, ?_, ?_⟩ <;> rfl
theorem wit_ScalarStores : ∃ key t, (sx W 0).start.reach ((sx W 0).cur.scalarAddr 1 0xFF8) 8 .write .plain = (.ok key, t) ∧ t.blocked = none ∧
    t.ownMatch t.cur.sctx .write ((sx W 0).cur.scalarAddr 1 0xFF8) 8 = none := by
  refine ⟨_, _, rfl, ?_, ?_⟩ <;> rfl
theorem wit_ScalarAccessTraps : ((sx 1 0).cur.scalarAddr 1 0).toNat % 2 ≠ 0 ∧ canonical ((sx (2 ^ 56) 0).cur.scalarAddr 1 0) = false ∧
    ∃ t, (sx W 0).start.reach ((sx W 0).cur.scalarAddr 1 0x1000) 1 .read .plain = (.bad 6, t) ∧ t.blocked = none :=
  ⟨by decide, by decide, _, rfl, rfl⟩
theorem wit_AtomicOperations : ∃ key t, (Spec.amoAddr (sx (W + 4088) 0) 1).toNat % Spec.amoBytes (sx (W + 4088) 0) 8 = 0 ∧
    (sx (W + 4088) 0).start.reach (Spec.amoAddr (sx (W + 4088) 0) 1) 8 .write .amo = (.ok key, t) ∧
    (t.drain (amoAfter t.cur.scalarStream true)).ownCommand bankEngine = false ∧ (t.drain (amoAfter t.cur.scalarStream true)).poisonIn key 8 = false ∧
    (t.drain (amoAfter t.cur.scalarStream true)).blocked = none ∧
    (t.drain (amoAfter t.cur.scalarStream true)).watched 1 .atomic (Spec.amoAddr (sx (W + 4088) 0) 1) 8 = none :=
  by refine ⟨_, _, by decide, rfl, ?_, ?_, ?_, ?_⟩ <;> rfl
theorem wit_AtomicTraps : (Spec.amoAddr (sx (W + 4) 0) 1).toNat % Spec.amoBytes (sx (W + 4) 0) 8 ≠ 0 ∧
    ∃ t, (sx (W + 4096) 0).start.reach (Spec.amoAddr (sx (W + 4096) 0) 1) 8 .write .amo = (.bad 6, t) ∧ t.blocked = none := ⟨by decide, _, rfl, rfl⟩
theorem wit_LoopInstruction : s0.cur.pc.toNat % 4 = 0 := by decide
theorem wit_EndStep :
    (let h : Hart := { hart0 with pc := 8, lbeg := 4, lend := 9, lc := 1 }
     h.lane = none ∧ h.ahead = none ∧ h.handler = none ∧ h.lend.getLsbD 0 = true ∧ h.pc = h.lend &&& ~~~3 ∧ h.lc.toNat ≤ 1) ∧
    (let h : Hart := { hart0 with pc := 8, lbeg := 4, lend := 9, lc := 2 }
     h.pc = h.lend &&& ~~~3 ∧ 1 < h.lc.toNat) ∧ hart0.lend.getLsbD 0 = false := by decide
theorem wit_BranchesAndLoops :
    let h : Hart := { hart0 with pc := 8, lbeg := 4, lend := 9, lc := 2 }
    let inside (a : Word) : Prop := h.lbeg.toNat ≤ a.toNat ∧ a.toNat ≤ (h.lend &&& ~~~3).toNat
    h.lane = none ∧ h.handler = none ∧ h.lend.getLsbD 0 = true ∧ inside h.pc ∧ ¬ inside 12 ∧ inside 4 := by
  refine ⟨rfl, rfl, rfl, ⟨by decide, by decide⟩, ?_, ⟨by decide, by decide⟩⟩
  intro h; exact absurd h.2 (by decide)
theorem wit_CsrRead : (0x025, Hart.lccyc) ∈ Spec.csrs ∧ s0.recorder s0.cur.launch = none := ⟨by simp [Spec.csrs], rfl⟩
theorem wit_CsrWrite : (0x004, Hart.vstart) ∈ Spec.csrs ∧ 0x004 ∈ Spec.rwCsrs ∧ Spec.csrTakes s0.cur 0x004 31 ∧
    Spec.csrTakes s0.cur 0x01B 0xFFFFFFFFFFFFFFFF := by
  refine ⟨by simp [Spec.csrs], by simp [Spec.rwCsrs], ?_, ?_⟩ <;> simp [Spec.csrTakes, s0, st, hart0]
theorem wit_CsrTraps : 0x800 ≤ (0x800#12).toNat ∧ (0x7FF#12).toNat < 0x800 ∧ 0x01C ∉ Spec.csrs.map (fun p => p.1) ∧
    0x000 ∈ Spec.csrs.map (fun p => p.1) ∧ 0x000 ∉ Spec.rwCsrs ∧ ¬ Spec.csrTakes s0.cur 0x005 5 := by
  refine ⟨by decide, by decide, by simp [Spec.csrs], by simp [Spec.csrs], by simp [Spec.rwCsrs], ?_⟩
  intro h; exact absurd (h.2.1 rfl) (by decide)
theorem wit_TrapInstruction : (let s := st { hart0 with tvec := 4 }; s.cur.tvec ≠ 0 ∧ s.cur.handler = none) ∧ ¬ (s0.cur.tvec ≠ 0 ∧ s0.cur.handler = none) := by decide
theorem wit_BreakInstruction : s0.blockOf s0.cur.sctx = none := rfl
/-- A handler entered from a vector trap, from a scalar one, and from TRAP. -/
def handlerOf (cause : BitVec 8) (vec : Bool) : Handler := { cause := cause, vec := vec, commit := 16, entry := none, ahead := none, viq := [], regions := [], pfxs := 0, lane := none, strikes := [] }
theorem wit_HandlerReturn : s0.cur.handler = none ∧ (st { hart0 with handler := some (handlerOf 0x0E false) }).cur.handler = some (handlerOf 0x0E false) ∧
    (handlerOf 0x0E false).cause = 0x0E#8 ∧ (handlerOf 0x0F false).cause ≠ 0x0E#8 ∧ (handlerOf 0x0F true).vec = true := by decide
/-- A hart with one queued store, and one with a copy still to be performed. -/
def sStore : State := st { hart0 with stores := [⟨.scalar, .write [⟨0, 0xFF, 7⟩], []⟩] }
def cmd0 : Cmd :=
  { engine := .copy, token := 1, owner := 0, ctx := 1, sptb := 0, block := [], base := 0, scope := 0, rel := false, after := [], nmus := [], reads := [], writes := [],
    started := false, step := 0, page := none, paged := [], remote := none }
def sCmd : State := { s0 with clusters := [(0, { Cluster.blank with pool := [cmd0], copySeq := 1 })] }
theorem wit_Fences : (sStore.start.drain (fun _ => true)).blocked = none ∧ (sStore.start.drain (fun _ => true)).ownCommand (fun e => e != .nmuOut) = false ∧
    (sCmd.start.drain (fun _ => true)).ownCommand (fun e => e != .nmuOut) = true := by decide
theorem wit_YieldInstruction : let m : Hart := { hart0 with place := 1 }
    let s : State := { s0 with others := [m], turns := [0] }
    PlainHart s0 ∧ s.cur.place ∈ s.turns ∧ m ∈ s.harts ∧ m.place = matePlace s.cur.place ∧ m.status = .running ∧ m.held = false :=
  ⟨⟨⟨⟨rfl, rfl, rfl⟩, rfl⟩, rfl⟩, by decide, List.mem_cons_of_mem _ List.mem_cons_self, by decide, by decide, by decide⟩
theorem wit_HaltInstruction : (s0.start.drain (fun _ => true)).ownCommand fenceEngine = false ∧ (sCmd.start.drain (fun _ => true)).ownCommand fenceEngine = true ∧
    (let s := st { hart0 with status := .waiting .halt }; s.cur.status = .waiting .halt ∧ s.cur.held = false ∧ s.ownCommand fenceEngine = false) := by decide
theorem wit_StripOpens : s0.cur.pending = none ∧ s0.blockOf s0.cur.sctx = none ∧ (0x100#10).getLsbD 8 = true ∧
    vlmaxOf s0.cur.lanes (fmtWidth 3) 1 0 / 64 = 0 ∧ vlmaxOf s0.cur.lanes (fmtWidth 0) 8 0 / 64 ≠ 0 := by decide
/-- A strip of `n` elements with `vtype` t and `vr` rows, VLMAX 32. -/
def sv (t : Word) (n r : Word) : State := st { hart0 with vtype := t, vl := n, vr := r }
def op (d a b : Reg) : VOp := ⟨d, a, b, false, false, false, false, false, false⟩

/-- A vector instruction that checks 3 and 4 accept, from registers, with no flag enabled. -/
def Accepted (con : VOp → Instr) (k : VOp → VCtx → Shape) (o : VOp) (s : State) : Prop :=
  (con o).wf = true ∧ Executes s ∧ s.cur.lane = none ∧ s.cur.dropping = false ∧ vCheck s.cur o (s.cur.vctx o.m) (k o (s.cur.vctx o.m)) = true ∧
  s.cur.enabled = 0 ∧ (∃ i, takes (s.cur.vctx o.m) (fun _ => false) i) ∧
  ∀ w n, ∃ a, s.start.src1 o (s.cur.vctx o.m) w n = some (a, s.start) ∧ a.limit = none ∧ s.start.blocked = none ∧ s.start.cur.strikes = []

theorem wit_VectorInteger : Accepted .vadd (fun _ c => { formats := [0, 1, 2, 3], n1 := c.g, n2 := c.g, nd := c.g }) (op 31 30 29) (sv 0 32 1) ∧
    vCheck (sv 0x10 2 1).cur (op 1 2 4) ((sv 0x10 2 1).cur.vctx false) { formats := [0, 1, 2, 3], n1 := 2, n2 := 2, nd := 2 } = false :=
  ⟨⟨by decide, ⟨rfl, rfl, rfl⟩, rfl, rfl, by decide, by decide, ⟨31, by decide, by decide, by decide⟩, fun _ _ => ⟨_, rfl, rfl, rfl, rfl⟩⟩, by decide⟩
theorem wit_VectorCompares : Accepted .vmseq (Spec.maskShape [0, 1, 2, 3] true) (op 0 30 29) (sv 0 32 1) ∧
    Accepted .vmflt (Spec.maskShape [4, 5, 6] true) (op 0 30 29) (sv 4 8 1) ∧
    vCheck (sv 0 2 1).cur (op 1 1 2) ((sv 0 2 1).cur.vctx false) (Spec.maskShape [0, 1, 2, 3] true (op 1 1 2) ((sv 0 2 1).cur.vctx false)) = false :=
  ⟨⟨by decide, ⟨rfl, rfl, rfl⟩, rfl, rfl, by decide, by decide, ⟨31, by decide, by decide, by decide⟩, fun _ _ => ⟨_, rfl, rfl, rfl, rfl⟩⟩,
   ⟨by decide, ⟨rfl, rfl, rfl⟩, rfl, rfl, by decide, by decide, ⟨7, by decide, by decide, by decide⟩, fun _ _ => ⟨_, rfl, rfl, rfl, rfl⟩⟩, by decide⟩
theorem wit_VectorFloat : Accepted .vfadd (fun _ c => { formats := [4, 5, 6], n1 := c.g, n2 := c.g, nd := c.g, rounds := true }) (op 3 1 2) (sv 4 8 1) ∧
    vCheck (sv 0 2 1).cur (op 3 1 2) ((sv 0 2 1).cur.vctx false) { formats := [4, 5, 6], n1 := 1, n2 := 1, nd := 1, rounds := true } = false :=
  ⟨⟨by decide, ⟨rfl, rfl, rfl⟩, rfl, rfl, by decide, by decide, ⟨7, by decide, by decide, by decide⟩, fun _ _ => ⟨_, rfl, rfl, rfl, rfl⟩⟩, by decide⟩
theorem wit_VectorPairs : Accepted .vfaddx (fun _ _ => { formats := [4], n1 := 1, n2 := 1, nd := 1, halves := 2, rounds := true, copy := false }) (op 4 1 2) (sv 4 8 1) ∧
    Accepted .vdwadd (fun _ _ => { formats := [4], n1 := 2, n2 := 2, nd := 1, halves := 2, copy := false }) (op 4 2 6) (sv 4 8 1) :=
  ⟨⟨by decide, ⟨rfl, rfl, rfl⟩, rfl, rfl, by decide, by decide, ⟨7, by decide, by decide, by decide⟩, fun _ _ => ⟨_, rfl, rfl, rfl, rfl⟩⟩,
   ⟨by decide, ⟨rfl, rfl, rfl⟩, rfl, rfl, by decide, by decide, ⟨7, by decide, by decide, by decide⟩, fun _ _ => ⟨_, rfl, rfl, rfl, rfl⟩⟩⟩
theorem wit_VectorMasks : Accepted .vmand (fun _ _ => { formats := List.range 13, n1 := 1, n2 := 1, nd := 1 }) (op 0 1 2) (sv 0 32 1) ∧
    (pfxFits s0.cur.pfx { pred := false } = true ∧ s0.cur.vstart = 0) ∧ ¬ (pfxFits s0.cur.pfx { pred := false } = true ∧ (1 : Word) = 0) :=
  ⟨⟨by decide, ⟨rfl, rfl, rfl⟩, rfl, rfl, by decide, by decide, ⟨31, by decide, by decide, by decide⟩, fun _ _ => ⟨_, rfl, rfl, rfl, rfl⟩⟩, by decide, by decide⟩
theorem wit_VectorConversions :
    Accepted .vfcvt (fun o c => { formats := if (c.fmt, o.vs2.toNat % 16) ∈ [(4, 2), (2, 4), (6, 1), (1, 6), (5, 1), (1, 5)] then [c.fmt] else [], n1 := c.g, n2 := 0, nd := c.g, rounds := true }) (op 3 1 4) (sv 2 8 1) ∧
    Accepted .vfwcvt (Spec.wideShape [5, 6, 7, 8] (fun c => c.g) (fun o => o.vs2.toNat != 4)) (op 4 1 4) (sv 7 32 1) :=
  ⟨⟨by decide, ⟨rfl, rfl, rfl⟩, rfl, rfl, by decide, by decide, ⟨7, by decide, by decide, by decide⟩, fun _ _ => ⟨_, rfl, rfl, rfl, rfl⟩⟩,
   ⟨by decide, ⟨rfl, rfl, rfl⟩, rfl, rfl, by decide, by decide, ⟨31, by decide, by decide, by decide⟩, fun _ _ => ⟨_, rfl, rfl, rfl, rfl⟩⟩⟩
theorem wit_BlockEncode : Accepted .vbenc (fun _ _ => { formats := [9, 10, 11, 12], n1 := 4, n2 := 0, nd := 1 }) (op 2 4 0) (sv 0x8A 32 1) ∧
    ((sv 0x8A 32 1).cur.vctx false).vl ≠ 0 :=
  ⟨⟨by decide, ⟨rfl, rfl, rfl⟩, rfl, rfl, by decide, by decide, ⟨31, by decide, by decide, by decide⟩, fun _ _ => ⟨_, rfl, rfl, rfl, rfl⟩⟩, by decide⟩
theorem wit_VectorReductions : Accepted .vredsum (fun _ _ => { formats := [0, 1, 2, 3], n1 := 1, n2 := 1, nd := 1, flat := true }) (op 3 1 2) (sv 0 32 1) ∧
    Accepted .vfredo (fun _ _ => { formats := [4, 5, 6], n1 := 1, n2 := 1, nd := 1, flat := true, rounds := true }) (op 3 1 2) (sv 4 8 1) ∧
    (vredN 3 32 fp32 0 0 0 [some 0x3F800000]).stop = none ∧ (vredN 3 32 fp32 0 16 0 [some 0x7F800001]).stop = some 0 ∧
    ((sv 4 0 1).cur.vctx false).vl = 0 :=
  ⟨⟨by decide, ⟨rfl, rfl, rfl⟩, rfl, rfl, by decide, by decide, ⟨31, by decide, by decide, by decide⟩, fun _ _ => ⟨_, rfl, rfl, rfl, rfl⟩⟩,
   ⟨by decide, ⟨rfl, rfl, rfl⟩, rfl, rfl, by decide, by decide, ⟨7, by decide, by decide, by decide⟩, fun _ _ => ⟨_, rfl, rfl, rfl, rfl⟩⟩, by decide, by decide, by decide⟩
theorem wit_VectorPermutes : Accepted .vslideup (Spec.permShape (fun c => c.g) (fun _ => 0) (fun _ _ => false)) (op 3 1 2) (sv 0 32 1) ∧
    Accepted .vcompress (Spec.permShape (fun c => c.g) (fun _ => 0) (fun o c => c.vstart != 0 || o.q)) (op 3 1 0) (sv 0 32 1) :=
  ⟨⟨by decide, ⟨rfl, rfl, rfl⟩, rfl, rfl, by decide, by decide, ⟨31, by decide, by decide, by decide⟩, fun _ _ => ⟨_, rfl, rfl, rfl, rfl⟩⟩,
   ⟨by decide, ⟨rfl, rfl, rfl⟩, rfl, rfl, by decide, by decide, ⟨31, by decide, by decide, by decide⟩, fun _ _ => ⟨_, rfl, rfl, rfl, rfl⟩⟩⟩
theorem wit_VectorMoves : Accepted .vmove (fun _ c => { formats := List.range 13, n1 := c.g, n2 := 0, nd := c.g }) (op 3 1 0) (sv 3 4 1) ∧
    (let o := op 5 1 0
     (Instr.vmvxs o).wf = true ∧ pfxFits s0.cur.pfx {} = true ∧ (o.q = true ∨ o.vs1.toNat % (s0.cur.vctx false).g = 0)) ∧
    (Instr.vmvsx (op 3 0 1)).wf = true ∧ vCheck (sv 0 1 1).cur (op 3 0 1) ((sv 0 1 1).cur.vctx false) { formats := List.range 13, n1 := 0, n2 := 0, nd := 1 } = true :=
  ⟨⟨by decide, ⟨rfl, rfl, rfl⟩, rfl, rfl, by decide, by decide, ⟨3, by decide, by decide, by decide⟩, fun _ _ => ⟨_, rfl, rfl, rfl, rfl⟩⟩, by decide, by decide, by decide⟩
theorem wit_VectorTransforms :
    Accepted .vunpk (fun o c => { formats := [0, 1, 2, 3], n1 := c.g, n2 := 0, nd := c.g, flat := true, clash := c.w ≤ o.vs2.toNat }) (op 3 1 4) (sv 0 32 1) ∧
    vCheck (sv 0 2 1).cur (op 3 1 8) ((sv 0 2 1).cur.vctx false) { formats := [0, 1, 2, 3], n1 := 1, n2 := 0, nd := 1, flat := true, clash := true } = false :=
  ⟨⟨by decide, ⟨rfl, rfl, rfl⟩, rfl, rfl, by decide, by decide, ⟨31, by decide, by decide, by decide⟩, fun _ _ => ⟨_, rfl, rfl, rfl, rfl⟩⟩, by decide⟩

/-- One INT32 element with x1 the last word of the granted scratchpad, and a stride in x2. -/
def sm : State := st { (hart0.wx 1 (W + 4092)).wx 2 4 with vtype := 2, vl := 1, vr := 1, vlmax := 8 }
def vl0 : VLOp := ⟨3, 1, 0, false, false, false, false, 15⟩
theorem wit_VectorLoads : ∃ vals u, (Instr.vld vl0).wf = true ∧ Executes sm ∧ loadCheck sm.cur vl0 (sm.cur.vctx false).padded 1 0 [6, 7, 8] = true ∧
    VForm.unit.badStride sm.cur (sm.cur.vctx false).padded 0 = none ∧
    InOrder (fun s i x t => Spec.Reads .vector 32 (VForm.unit.place sm.cur (sm.cur.vctx false).padded 1 0 i) 4 s x t)
      (sm.cur.vctx false).padded.touched sm.start vals u ∧ vals ≠ [] ∧ u.blocked = none ∧ u.cur.strikes = [] :=
  ⟨_, _, by decide, ⟨rfl, rfl, rfl⟩, by decide, by decide,
    .next (t := sm.start.loadN .vector (W + 4092) 4 |>.2) (l := []) ⟨fun _ => by decide, rfl, scratchKey 0 4092, rfl, rfl, rfl⟩ (.none _), by simp, rfl, rfl⟩
theorem wit_VectorStores : ∃ rs u, storeCheck sm.cur vl0 (sm.cur.vctx false) 3 1 0 [1, 2, 3, 4, 5] = true ∧
    InOrder (fun s i x t => Spec.Writes .plain .write 32 (VForm.unit.place sm.cur (sm.cur.vctx false) 1 0 i) 4 s x t)
      (sm.cur.vctx false).touched sm.start rs u ∧ rs ≠ [] ∧ u.blocked = none ∧ u.cur.strikes = [] :=
  ⟨_, _, by decide, .next (t := (sm.start.reach (W + 4092) 4 .write .plain).2) (x := (scratchKey 0 4092, false)) (l := [])
    ⟨fun _ => by decide, rfl, rfl, rfl⟩ (.none _), by simp, rfl, rfl⟩
theorem wit_bad_stride : (VForm.strided.badStride ((sv 0x8A 32 1).cur.wx 2 3) ((sv 0x8A 32 1).cur.vctx false) 2).isSome = true := by decide
theorem wit_refused_memory : loadCheck sm.cur { vl0 with fmt := 9 } (sm.cur.vctx false).padded 1 0 [6, 7, 8] = false ∧
    storeCheck sm.cur { vl0 with fmt := 9 } (sm.cur.vctx false) 3 1 0 [] = false := by decide
theorem wit_VFILL : (let c := sm.cur.vctx false; fmtNamed vl0 c = true ∧ (3#5).toNat % c.g = 0 ∧ (3#5).toNat + c.g ≤ 32) ∧ (sm.cur.ox 1).toNat % 4 = 0 ∧
    (sx 1 0).cur.ox 1 ≠ 0 := by decide
theorem wit_VLDB : let c := ((sv 0x89 32 1).cur.vctx false).padded
    9 ≤ c.fmt ∧ c.fmt ≤ 12 ∧ loadCheck (sv 0x89 32 1).cur { vl0 with reg := 2 } c (2 * c.g) 0 [] = true := by decide
/-- A 2D INT8 strip of one row and two columns. -/
def s2 : State := st { hart0 with vtype := 0x130, vl := 2, vr := 1, vlmax := 256 }
theorem wit_OuterProducts : Spec.outerOk s2.cur (s2.cur.vctx false) false 0 [(8, 8), (16, 8)] ∧ (s2.cur.vctx false).vl ≤ 64 ∧ (s2.cur.vctx false).fmt = 0 ∧
    ¬ Spec.outerOk s0.cur (s0.cur.vctx false) false 0 [] := by
  refine ⟨⟨by decide, by decide, by decide, by decide, by decide, by decide⟩, by decide, by decide, ?_⟩
  intro h; exact absurd h.2.1 (by decide)
theorem wit_TileInstructions : (0#5).toNat + Spec.regsOf (s0.cur.vctx false) 64 ≤ 32 ∧ ¬ ((25#5).toNat + Spec.regsOf (s0.cur.vctx false) 64 ≤ 32) ∧
    Spec.tileGroupOk ((sv 4 8 1).cur.vctx false) 3 63 ∧ (2 : Nat) ^ 6 + 63 < 2 ^ 13 ∧ ((sv 4 8 1).cur.vctx false).touched ≠ [] := by
  refine ⟨by decide, by decide, ⟨by decide, by decide, by decide, by decide⟩, by decide, by decide⟩
/-- A block of doublewords at the first byte of the scratchpad. -/
def withBlock (s : State) (b : List Word) : State := { s with mem := Memory.setList s.mem (scratchKey 0 0) (b.flatMap (fun w => leBytes 8 w.toNat)) }
/-- A decidable form of "the read answers this and makes nothing wait". -/
def readsAs {α : Type} [BEq α] (r : Except Trap α × State) (x : α) : Bool :=
  (match r.1 with | .ok y => y == x | .error _ => false) && r.2.blocked == none && r.2.cur.strikes == []
theorem wit_StreamDescriptor : let dims : List (BitVec 32 × BitVec 32) := [(4, -8), (2, 32), (1, 0)]
    4 ≤ 8 ∧ 1 ≤ dims.length ∧ dims.length ≤ 3 ∧ ∀ e ∈ dims, e.1 ≠ 0 :=
  ⟨by decide, by decide, by decide, by simp⟩
def desc0 : List Word := [W, 0x140, 4, 0, 0, 0, 0, 0]
theorem wit_StreamBinding : PlainHart (sx W 0) ∧ (sx W 0).cur.rq 7 = .unbound ∧ W.toNat % 64 = 0 ∧ (W + 8).toNat % 64 ≠ 0 ∧
    readsAs ((withBlock (sx W 0) desc0).start.loadBlock W) desc0 = true ∧ (affineOf desc0).isSome = true ∧
    readsAs ((sx W 0).start.loadBlock W) (List.replicate 8 0) = true ∧ affineOf (List.replicate 8 0) = none ∧
    (((withBlock (sx W 0) desc0).start.loadBlock W).2.drain (fun st => st == .q 7)).blocked = none ∧ ((sx W 0).start.drain (fun st => st == .q 7)).blocked = none :=
  ⟨⟨⟨⟨rfl, rfl, rfl⟩, rfl⟩, rfl⟩, by decide, by decide, by decide, by decide, by decide, by decide, by decide, by decide, by decide⟩
def img0 : ImageState := { header := W, total := 0, chunks := 0, lens := [], opened := false, next := 0, addr := 0, done := 0, syms := [], fail := none, marks := [], ask := none, paged := [] }
def sImg (a : Word) : State := st { hart0 with q := hart0.q.set 0 (.image { img0 with header := a } 0) }
def storeOf (st : Stream) (a : PAct) : PStore := ⟨st, a, []⟩
theorem wit_access : let p : PStore := ⟨.scalar, .write [⟨0, 0xFF, 7⟩], []⟩
    (sStore.focus 0).cur.place = 0 ∧ Spec.oldest .scalar (sStore.focus 0).cur.stores p [] ∧ ∀ k ∈ p.act.keys, (sStore.focus 0).heldSegment k = false :=
  ⟨by decide, ⟨[], [], rfl, rfl, by simp, rfl⟩, by decide⟩
theorem wit_chained : let s : State := st { hart0 with stores := [⟨.bank, .rmw .addI (scratchKey 0 0) 1, []⟩] }
    (s.focus 0).cur.place = 0 ∧ Spec.oldest .bank (s.focus 0).cur.stores ⟨.bank, .rmw .addI (scratchKey 0 0) 1, []⟩ [] ∧
    (PAct.rmw .addI (scratchKey 0 0) 1).isRmw = true ∧ ∀ k ∈ (PAct.rmw .addI (scratchKey 0 0) 1).keys, (s.focus 0).heldSegment k = false :=
  ⟨by decide, ⟨[], [], rfl, rfl, by simp, rfl⟩, by decide, by decide⟩
theorem wit_decoder : ((sImg W).focus 0).cur.place = 0 ∧ ((sImg W).focus 0).cur.status ≠ .unbound ∧ ((sImg W).focus 0).cur.rq 0 = .image img0 0 ∧
    (match ((sImg W).focus 0).imageStep 0 img0 with | (.ok _, _) => true | (.error _, _) => false) = true ∧
    (match ((sImg 0).focus 0).imageStep 0 { img0 with header := 0 } with
      | (.ok _, _) => false | (.error _, u) => !u.hub.pages.any (fun p => p.who == .image u.cur.key 0)) = true := by decide
theorem wit_arrive : let s : State := st { hart0 with status := .waiting (.page 0) }
    (s.focus 0).cur.place = 0 ∧ (s.focus 0).cur.status = .waiting (.page 0) ∧ ∀ p ∈ (s.focus 0).hub.pages, p.id ≠ 0 := by decide
/-- The module with a word at the program counter of its boot hart. -/
def sPC (w : BitVec 32) : State := State.reset.withFetchWord 32 w.toNat
theorem wit_Regions : Executes (sPC (encode .vrgne)) ∧ (sPC 0).cur.lane = none ∧ (sPC 0).cur.dropping = false ∧
    pfxPending (sPC 0).cur.pfxs = false ∧ (sPC 0).cur.regions.length < 4 ∧
    readsAs ((sPC (encode .vrgne)).start.peekWord ((sPC 0).cur.pc + 4 * (0 : BitVec 16).setWidth 64)) (encode .vrgne) = true ∧
    readsAs ((sPC 0).start.peekWord ((sPC 0).cur.pc + 4 * (0 : BitVec 16).setWidth 64)) 0 = true ∧
    (let h : Hart := { hart0 with regions := [⟨0, true⟩, ⟨4, true⟩, ⟨8, true⟩, ⟨12, true⟩] }
     h.dropping = true ∧ 4 ≤ h.regions.length ∧ (⟨0, true⟩ : RegionEntry).stop = h.pc) :=
  ⟨⟨rfl, rfl, rfl⟩, rfl, by decide, by decide, by decide, by decide, by decide, by decide⟩
theorem wit_LaneMode : PlainHart (sPC 0) ∧ readsAs ((sPC (encode .ljoin)).start.peekWord 0) (encode .ljoin) = true ∧
    ((sPC (encode .ljoin)).start.peekWord 0).2.cur = (sPC (encode .ljoin)).cur ∧ readsAs ((sPC 0).start.peekWord 0) 0 = true ∧
    Spec.newThreads (sPC 0).cur = [] ∧ Spec.newThreads ({ hart0 with vl := 2 }.wv 0 2) ≠ [] ∧ (2 : Word).toNat ≤ 8 * hart0.lanes ∧
    8 * hart0.lanes < (9 : Word).toNat ∧ lane0.thread.pc ≠ lane0.join ∧ { lane0 with join := 8 }.thread.pc = { lane0 with join := 8 }.join :=
  ⟨⟨⟨⟨rfl, rfl, rfl⟩, rfl⟩, rfl⟩, by decide, rfl, by decide, by decide, by decide, by decide, by decide, by decide, by decide⟩
theorem wit_LaneTraps : sLane.cur.lane = some lane0 ∧ lane0.thread.index < 128 ∧ (0x11 : Nat) < 256 := by decide

/-! ### Engine and bank commands -/

/-- A copy of one byte between global address 0 and local offset 4095, and one whose local byte is not granted. -/
def copy0 (off : Nat) : List Word := [0, BitVec.ofNat 64 off, 0x0001000100000001, 0, 0, 0, 0, 0]
theorem wit_EngineCommands : let s := withBlock (sx W 0) (copy0 4095)
    PlainHart s ∧ s.cur.rx 1 = W ∧ readsAs (s.start.loadBlock W) (copy0 4095) = true ∧ (s.start.loadBlock W).2.cur.x = s.cur.x ∧
    Spec.CopyBlock (copy0 4095) ∧ (W + 1).toNat % 64 ≠ 0 ∧
    (∀ i1 i2 y, i1 < Spec.field (copy0 4095) 2 32 16 → i2 < Spec.field (copy0 4095) 2 48 16 → y < Spec.field (copy0 4095) 2 0 32 →
      Spec.Granted (s.start.loadBlock W).2.cur (Spec.copyByte (copy0 4095) 0 i1 i2 y).2 ∧ ¬ Spec.InWindow (Spec.copyByte (copy0 4095) 0 i1 i2 y).1) ∧
    (s.start.loadBlock W).2.recorder (s.start.loadBlock W).2.cur.launch = none ∧ ((s.start.loadBlock W).2.drain (fun _ => true)).blocked = none := by
  refine ⟨⟨⟨⟨rfl, rfl, rfl⟩, rfl⟩, rfl⟩, by decide, by decide, by decide, ⟨by decide, by decide, by decide, by decide, by decide, by decide⟩, by decide, ?_, by decide, by decide⟩
  intro i1 i2 y h1 h2 h3
  have e1 : Spec.field (copy0 4095) 2 32 16 = 1 := by decide
  have e2 : Spec.field (copy0 4095) 2 48 16 = 1 := by decide
  have e3 : Spec.field (copy0 4095) 2 0 32 = 1 := by decide
  obtain rfl : i1 = 0 := by omega
  obtain rfl : i2 = 0 := by omega
  obtain rfl : y = 0 := by omega
  refine ⟨⟨⟨0, 4096, 0, false⟩, by decide, by decide, by decide⟩, ?_⟩
  intro h; exact absurd h.1 (by decide)
theorem wit_ungranted : let s := withBlock (sx W 0) (copy0 4096)
    readsAs (s.start.loadBlock W) (copy0 4096) = true ∧ Spec.CopyBlock (copy0 4096) ∧ (Spec.copyByte (copy0 4096) 0 0 0 0).2 = 4096 ∧
    ¬ Spec.Granted (s.start.loadBlock W).2.cur 4096 := by
  refine ⟨by decide, ⟨by decide, by decide, by decide, by decide, by decide, by decide⟩, by decide, ?_⟩
  rintro ⟨r, hr, -, h2⟩
  have e : ((withBlock (sx W 0) (copy0 4096)).start.loadBlock W).2.cur.local_ = [⟨0, 4096, 0, false⟩] := by decide
  rw [e] at hr; obtain rfl := List.mem_singleton.1 hr
  exact absurd h2 (by decide)
theorem wit_windowed : Spec.CopyBlock [W, 0, 0x0001000100000001, 0, 0, 0, 0, 0] ∧ Spec.InWindow (Spec.copyByte [W, 0, 0x0001000100000001, 0, 0, 0, 0, 0] 0 0 0 0).1 :=
  ⟨⟨by decide, by decide, by decide, by decide, by decide, by decide⟩, by decide, by decide⟩
theorem wit_gather : Spec.GatherBlock [0, 0, 0x0000000100000001, 4, 0, 0, 0, 0] := ⟨by decide, by decide, by decide, by decide, by decide, by decide, by decide, by decide⟩
/-- A cluster whose pool is full, and one that completed a command with a data failure. -/
def sLog : State := { s0 with clusters := [(0, { Cluster.blank with copySeq := 257, copyLog := [⟨2, 1, 3, 64, false⟩] })] }
theorem wit_EngineStatus : 1 ≤ 1 ∧ 1 ≤ (sCmd.cluster 0).copySeq ∧ (sCmd.cluster 0).copySeq < 1 + 256 ∧
    (∀ c ∈ (sCmd.cluster 0).pool, c.token = 1 → c.ctx = 1) ∧ (∃ c ∈ (sCmd.cluster 0).pool, c.token = 1 ∧ c.engine = .copy) ∧
    (sLog.cluster 0).copySeq < 2 + 256 ∧ (∀ c ∈ (sLog.cluster 0).pool, c.token ≠ 2) ∧ 1 + 256 ≤ (sLog.cluster 0).copySeq ∧
    (⟨2, 1, 3, 64, false⟩ : CmdStatus) ∈ (sLog.cluster 0).copyLog ∧
    ∀ y ∈ (sLog.cluster 0).copyLog, y.token = 2 → y = ⟨2, 1, 3, 64, false⟩ := by decide
theorem wit_EngineWaits : PlainHart sCmd ∧ sCmd.recorder sCmd.cur.launch = none ∧ Spec.Status sCmd sCmd.cur.sctx 1 0 0 ∧ Spec.Status sLog 1 2 3 64 ∧
    Spec.Status s0 1 0 4 0 ∧ (let f := (st { hart0 with status := .waiting .pool }).focus 0
      f.cur.place = 0 ∧ f.cur.status = .waiting .pool ∧ f.cur.held = false) :=
  ⟨⟨⟨⟨rfl, rfl, rfl⟩, rfl⟩, rfl⟩, rfl, by unfold Spec.Status; decide, by unfold Spec.Status; decide, by unfold Spec.Status; decide, by decide⟩
theorem wit_reissues : let f := (st { hart0 with status := .waiting (.again (encode (.xwait 1))) }).focus 0
    f.cur.place = 0 ∧ f.cur.held = false ∧ PlainHart f ∧ f.cur.status = .waiting (.again (encode (.xwait 1))) :=
  ⟨by decide, by decide, ⟨⟨⟨rfl, rfl, rfl⟩, rfl⟩, rfl⟩, by decide⟩
theorem wit_RangeChecker : cmd0.after = [] ∧ (sCmd.cluster 0).pool = [] ++ cmd0 :: [] ∧ (∀ x ∈ ([] : List Cmd) ++ [], x.token ≠ cmd0.token) ∧ cmd0.engine ≠ .bank ∧
    (let w : Cmd := { cmd0 with token := 2, writes := [(0, 64)] }
     ∃ r ∈ w.reads ++ w.writes, ∃ q ∈ cmd0.reads ++ [(63, 127)], (r ∈ w.writes ∨ q ∈ cmd0.writes) ∧ r.1 < q.2 ∧ q.1 < r.2) := by decide
/-- A started copy of one byte out of the scratchpad to the boot hart's page, with its pages translated. -/
def copyCmd : Cmd := { cmd0 with started := true, block := [0, 0, 0x0001000100000001, 0, 0, 0, 1, 0], sptb := (sPC 0).cur.sptb }
def sCopy : State := { sPC 0 with clusters := [(0, { Cluster.blank with pool := [copyCmd], copySeq := 1 })] }
theorem wit_CopyCompletes : sCopy.findCmd 0 1 = some copyCmd ∧ Spec.CopyBlock copyCmd.block ∧ Spec.field copyCmd.block 2 0 32 = 1 ∧
    (copyCmd.block.getD 0 0 + copyCmd.base).toNat % 64 + 1 ≤ 64 ∧ (sCopy.cluster 0).copySeq < 1 + 256 ∧
    (match sCopy.engineReach 0 copyCmd 0 .write with
      | (.ok _, t) => (t.hub.debug).all (fun p => p.2.ctx == 0) && !t.poisoned (scratchKey 0 0)
      | _ => false) = true :=
  ⟨by decide, ⟨by decide, by decide, by decide, by decide, by decide, by decide⟩, by decide, by decide, by decide, by decide⟩
theorem wit_BankCommands : (let s := st ((hart0.wx 1 (W + 4092)).wx 2 0x20001)
      PlainHart s ∧ (∀ sel, (s.start.drain sel).blocked = none) ∧ (s.cur.rx 2).toNat / 2 ^ 20 = 0 ∧ Spec.bankTakes 0 2 = true ∧
      Spec.bankBytes 0 2 1 = 4 ∧ (s.cur.rx 1).toNat % Spec.bankAlign 0 2 = 0 ∧ (s.cluster (clusterOf s.cur.place)).held .bank < 112 ∧
      ∀ j : Nat, j < 4 → ∃ r ∈ s.cur.local_, (r.off : Int) ≤ (W + 4092).toNat - 0x00FFFF0000000000 + j ∧
        (W + 4092).toNat - 0x00FFFF0000000000 + j < (r.off + r.size : Nat)) ∧
    Spec.bankTakes 4 4 = false ∧ (W + 4094).toNat % Spec.bankAlign 0 2 ≠ 0 ∧ ¬ Spec.Granted hart0 4096 ∧ (5 : Word).toNat % 4 ≠ 0 := by
  refine ⟨⟨⟨⟨⟨rfl, rfl, rfl⟩, rfl⟩, rfl⟩, fun _ => rfl, by decide, by decide, by decide, by decide, by decide, by decide⟩, by decide, by decide, ?_, by decide⟩
  rintro ⟨r, hr, -, h2⟩
  obtain rfl : r = ⟨0, 4096, 0, false⟩ := List.mem_singleton.1 hr
  exact absurd h2 (by decide)
/-- A started BKADD of 16 INT32 elements of the granule at offset 0 and the one at 64. -/
def bankCmd : Cmd := { cmd0 with engine := .bank, token := bankToken 1, started := true, block := [0, 2, 16, W, W + 64, 64] }
theorem wit_BankPerforms : (let s : State := { s0 with clusters := [(0, { Cluster.blank with pool := [bankCmd], bankSeq := 1 })] }
      s.findCmd 0 (bankToken 1) = some bankCmd ∧ ∀ p ∈ s.hub.debug, p.2.ctx = 0) ∧
    bankCmd.block = [BitVec.ofNat 64 0, BitVec.ofNat 64 2, BitVec.ofNat 64 16, W, W + 64, BitVec.ofNat 64 64] ∧
    0x00FFFF0000000000 ≤ W.toNat ∧ W.toNat % 64 + 64 ≤ 64 ∧ W.toNat + 64 ≤ (W + 64).toNat := by decide
theorem wit_BankReduces : let s := st ((({ hart0 with vtype := 2, vl := 8, vr := 1, vlmax := 8 }).wx 1 W).wx 2 0x20002)
    let c := s.cur.vctx false
    PlainHart s ∧ s.cur.reissue = none ∧ s.cur.dropping = false ∧ c.twoD = false ∧ c.fmt = 2 ∧ groupOk 31 c.g = true ∧ s.cur.regBits = 256 * c.lanes ∧
    W.toNat % 4 = 0 ∧ 1 ≤ c.vl ∧ 2 * c.vl * 4 = 64 ∧ ((s.start.drain (fun st => st == .bank)).touchBank 0 64 false).blocked = none ∧
    (∀ j, j < 64 → ((s.start.drain (fun st => st == .bank)).touchBank 0 64 false).poisoned (scratchKey 0 (0 + j)) = false) ∧ c.fmt ≠ 4 ∧
    ∀ j : Nat, j < 64 → ∃ r ∈ s.cur.local_, (r.off : Int) ≤ W.toNat - 0x00FFFF0000000000 + j ∧ W.toNat - 0x00FFFF0000000000 + j < (r.off + r.size : Nat) :=
  ⟨⟨⟨⟨rfl, rfl, rfl⟩, rfl⟩, rfl⟩, by decide, by decide, by decide, by decide, by decide, by decide, by decide, by decide, by decide, by decide, by decide, by decide, by decide⟩

/-! ### Pyramid streams -/

/-- The descriptor of a stream of 32 INT8 elements, two levels of capacity 2, at 0x100, its storage from 0x2000 in a 2 MiB page. -/
def pyDesc : List Word := [0x2000, 32, 0, 2, 0x0101] ++ List.replicate 27 0
def pyInstar : Instar :=
  { ctx := 0, handle := 0x100, sptb := 0x10000, store := 0x2000, comb := 0, fmt := 0, elems := 32, size := 32, kernel := 0, home := 0, caps := [1, 1],
    segs := [0x202000, 0x204000, 0x206000, 0x208000, 0x20A000, 0x20C000, 0x20E000].map (fun k => 2 ^ 51 + k), next := 3, levels := [[⟨1, 0⟩, ⟨2, 1⟩], []], halted := false }
def sPy (is : List Instar) : State :=
  { sPC 0 with instars := is,
               mem := Memory.setList (Memory.setList (bootTables []) 0x12000 (leBytes 8 (2 ^ 51 + 0x20007F))) (2 ^ 51 + 0x200100) (pyDesc.flatMap (fun w => leBytes 8 w.toNat)) }
/-- The hart that issues to the stream: the handle in x1. -/
def sPy1 (is : List Instar) : State := { sPy is with cur := (sPy is).cur.wx 1 0x100 }
theorem wit_StreamHandles : PlainHart (sPy1 []) ∧ (sx 1 0).cur.rx 1 = 1 ∧ (1 : Word).toNat % 256 ≠ 0 ∧ W.toNat % 256 = 0 ∧ Spec.InWindow W ∧
    (match (sPy1 []).start.handleOk 0x100 with | (.ok (), u) => u.blocked == none | _ => false) = true ∧
    ((sPy1 []).start.handleOk 0x100).2.cur = (sPy1 []).cur ∧ ∀ r ∈ ((sPy1 []).start.handleOk 0x100).2.instars, ¬ (r.ctx = (sPy1 []).cur.sctx ∧ r.handle = 0x100) :=
  ⟨⟨⟨⟨rfl, rfl, rfl⟩, rfl⟩, rfl⟩, by decide, by decide, by decide, ⟨by decide, by decide⟩, by decide, rfl, by decide⟩
theorem wit_StreamInit : (sPy1 []).cur.rx 1 = 0x100 ∧ (((sPy1 []).start.handleOk 0x100).2.instarInit 0 0x10000 0x100).1 = .ready ∧
    (((sPy1 []).start.handleOk 0x100).2.instarInit 0 0x10000 0x100).2.blocked = none ∧
    (((sPy1 []).start.handleOk 0x100).2.instarInit 0 0x10000 0x400).1 = .bad ∧ (match ((sPC 0).instarInit 0 0x10000 0x2000).1 with | .page _ => true | _ => false) = true ∧
    ({ (sPy []) with hub := { (sPy []).hub with contexts := [⟨0, 0x10000, 0, []⟩] } } : State).context 0 = some ⟨0, 0x10000, 0, []⟩ := by decide
theorem wit_StreamAppend : let t := ((sPy1 [pyInstar]).start.handleReady 0x100 true).2.apItemSize 0x100
    (match (sPy1 [pyInstar]).start.handleReady 0x100 true with | (.ok i, _) => i == pyInstar | _ => false) = true ∧ readsAs t 32 = true ∧
    t.2.instar 0 0x100 = some pyInstar ∧ pyInstar.levels.length = pyInstar.levelsN ∧ (pyInstar.level 0).length ≤ pyInstar.cap 0 ∧
    t.2.cur.sctx = 0 ∧ (7#5).toNat % (t.2.cur.vctx false).g = 0 ∧ 32 ≤ 32 * (t.2.cur.vctx false).lanes * (t.2.cur.vctx false).g ∧ pyInstar.backlog = 0 ∧
    pyInstar.next < 2 ^ 52 ∧ { pyInstar with levels := [[⟨0, 0⟩, ⟨1, 1⟩, ⟨2, 2⟩], []] }.backlog ≠ 0 := by decide
theorem wit_instarAppend : (sPy [pyInstar]).instar 0 0x100 = some pyInstar ∧ (List.replicate 32 (0 : Byte)).length = pyInstar.size ∧
    ((pyInstar.slotKeys 0 2).Nodup ∧ pyInstar.slotKeys 0 2 ≠ []) := by decide
/-- A hart whose micro-TLB holds the page of the handle, and one that waits for the same stream since before it. -/
def sQuiet (is : List Instar) : State := { sPy1 is with tlb := [⟨4, 0, 21, 0, 2 ^ 39 + 0x200, false, false, false⟩] }
def waiter (w : BitVec 32) : Hart := { (sPy1 []).cur with place := 5, arrived := some 0, status := .waiting (.again w) }
theorem wit_heldPage : Spec.HeldPage (sQuiet []) 0x100 (2 ^ 51 + 0x200100) ∧ Spec.HeldPage (sQuiet [pyInstar]) 0x100 (2 ^ 51 + 0x200100) ∧
    Spec.HeldPage (sQuiet [pyInstar]) 0x108 (2 ^ 51 + 0x200108) :=
  let e : TlbEntry := ⟨4, 0, 21, 0, 2 ^ 39 + 0x200, false, false, false⟩
  ⟨⟨⟨e, by decide, by decide⟩, _, rfl⟩, ⟨⟨e, by decide, by decide⟩, _, rfl⟩, ⟨⟨e, by decide, by decide⟩, _, rfl⟩⟩
theorem sent_none (s : State) (hc : s.cur.sent = []) (ho : s.others = []) (hf : s.frames = []) : Spec.NoneSent s := by
  intro h hh; simp [State.harts, ho, hf] at hh; rw [hh]; exact hc
theorem waits_none (s : State) (h : s.others = []) : Spec.NoneWaits s.others := by rw [h]; intro x hx; cases hx
theorem wit_Quiet : Spec.Quiet (sQuiet [pyInstar]) :=
  ⟨sent_none _ rfl rfl rfl, rfl, rfl, by decide, waits_none _ rfl, by decide, (by intro p hp; cases hp), rfl, rfl⟩
theorem wit_PyramidCompletes : PlainHart (sQuiet [pyInstar]) ∧ Spec.HandleAt (sQuiet []) 0x100 ∧ Spec.StreamAt (sQuiet [pyInstar]) 0x100 pyInstar 32 ∧
    (match ((sQuiet []).start.instarInit 0 0x10000 0x100).1 with | .ready => true | _ => false) = true ∧
    (match ((sQuiet []).start.instarInit 0 0x10000 0x400).1 with | .bad => true | _ => false) = true ∧
    pyInstar.backlog = 0 ∧ pyInstar.halted = false ∧ pyInstar.due = none := by
  refine ⟨⟨⟨⟨rfl, rfl, rfl⟩, rfl⟩, rfl⟩, ⟨by decide, by decide, _, wit_heldPage.1⟩,
    ⟨⟨by decide, by decide, _, wit_heldPage.2.1⟩, by decide, by decide, by decide, by decide, _,
      wit_heldPage.2.2, by decide, by decide⟩, by decide, by decide, by decide, by decide, by decide⟩
theorem wit_requests : (let v := ((sPy1 []).start.handleOk 0x100).2.bankTurn
      v.blocked = none ∧ v.cur.strikes = [] ∧ v.others = [] ∧ v.nmus = []) ∧
    (let r := NmuRun.start { kind := .merge 0 0x100, token := 0, owner := 0, ctx := 0, sptb := 0, block := [], code := none, out := none, home := 0, after := [], nmus := [] }
     Spec.merging { sPy1 [] with nmus := [(0, { Nmu.blank with run := some r })] } 0 0x100) ∧
    ({ sPy1 [pyInstar] with others := [waiter (encode (.pystat 2 1 true))] } : State).pyBefore 0 0x100 = true ∧ Spec.First (sPy1 []) ∧ Spec.NoneWaits (sPy1 []).harts := by
  refine ⟨by decide, ⟨_, List.mem_cons_self, _, rfl, rfl⟩, by decide, ?_, ?_⟩
  · exact ⟨fun x hx => (by cases hx), sent_none _ rfl rfl rfl⟩
  · intro x hx w; rw [List.mem_singleton.1 hx]; exact ⟨nofun, nofun⟩
theorem wit_Combiners : 3 ≤ 3 ∧ 2 ^ 64 - 1 < 2 ^ fmtWidth 3 ∧ 128 < 2 ^ fmtWidth 0 := by decide
def pyFull (comb : Nat) : Instar := { pyInstar with comb := comb, levels := [[⟨0, 0⟩, ⟨1, 1⟩, ⟨2, 2⟩], []] }
theorem wit_mergeDue : (pyFull 0).due = some 0 ∧ (sPy [pyFull 0]).poison = [] ∧ 0 + 1 < (pyFull 0).levels.length := by decide
theorem wit_StreamMerge : (sPy [pyFull 0]).instar 0 0x100 = some (pyFull 0) ∧ (pyFull 0).level 0 = ⟨0, 0⟩ :: ⟨1, 1⟩ :: [⟨2, 2⟩] ∧
    (pyFull 0).cap 0 < ((pyFull 0).level 0).length ∧ ((pyFull 0).level 1).length ≤ (pyFull 0).cap 1 ∧ ((sPy []).nmu 0).power ≠ .down ∧
    (∀ x ∈ [(⟨0, 0⟩ : Item), ⟨1, 1⟩], ∀ key ∈ (pyFull 0).slotKeys 0 x.slot, (sPy [pyFull 0]).poisoned key = false) ∧
    (pyFull 7).comb = 7 ∧ ((sPy []).nmu 0).queue = [] ∧ ((sPy []).nmu 0).run = none ∧ ((pyFull 0).slotKeys 1 0).Nodup ∧
    ({ sPy [] with poison := [(2 ^ 51 + 0x204000) / 8] } : State).poisoned (2 ^ 51 + 0x204000) = true ∧ 2 ^ 51 + 0x204000 ∈ (pyFull 0).slotKeys 0 0 := by decide
theorem wit_StreamLoad : Spec.Covers pyInstar 0 ⟨1, 0⟩ 1 ∧ 3 ≤ pyInstar.next ∧ ¬ (∃ y ∈ pyInstar.level 0, y.start ≤ 0) ∧
    (∀ key ∈ pyInstar.slotKeys 0 0, (sPy1 [pyInstar]).poisoned key = false) ∧ pyInstar.levelsN ≤ 16 ∧
    (sPy1 [pyInstar]).recorder (sPy1 [pyInstar]).cur.launch = none :=
  ⟨⟨by decide, by decide, by decide, by decide⟩, by decide, by decide, by decide, by decide, by decide⟩
/-- PYINIT meets a missing page of the handle. -/
theorem wit_asksPage : let s := { sPy1 [] with mem := [] }
    PlainHart s ∧ s.observing = false ∧ (match s.start.handleOk 0x100 with | (.error t, u) => t.cause == 5 && u.blocked == none | _ => false) = true ∧
    pageOf (s.cur.rx 1) ∉ s.cur.paged := ⟨⟨⟨⟨rfl, rfl, rfl⟩, rfl⟩, rfl⟩, by decide, by decide, by decide⟩
/-- A hart whose PYAPP waits at the home unit, and one that has gone on from it. -/
noncomputable def sSend : State :=
  { sPy [pyInstar] with cur := { (sPy1 []).cur with status := .waiting (.again (encode (.pyapp 2 1 0))), arrived := some 0 }
                        schedule := [.send 0] }
noncomputable def sSent : State := { sSend with cur := { sSend.cur with status := .running, arrived := none, sent := [⟨encode (.pyapp 2 1 0), 0x100, List.replicate 32 0, 0⟩] } }
theorem wit_sendTurn : sSend.parkIdle = sSend ∧ sSend.schedule = .send sSend.cur.place :: [] ∧ sSend.cur.held = false ∧ sSend.cur.arrived = some 0 ∧
    sSend.instar sSend.cur.sctx (sSend.cur.rx 1) = some pyInstar := ⟨rfl, rfl, rfl, rfl, rfl⟩
theorem wit_sentAppend : sSent.instar sSent.cur.sctx 0x100 = some pyInstar ∧ pyInstar.ctx = sSent.cur.sctx ∧ pyInstar.handle = 0x100 ∧
    (∀ h ∈ sSent.others ++ sSent.frames.map (fun f => f.hart), h.sent = []) ∧ pyInstar.levels.length = pyInstar.levelsN ∧
    (pyInstar.level 0).length ≤ pyInstar.cap 0 ∧ 1 ≤ pyInstar.levelsN ∧ pyInstar.backlog = 0 ∧ (List.replicate 32 (0 : Byte)).length = pyInstar.size ∧
    Spec.NoneWaits sSent.harts := by
  refine ⟨by decide, by decide, by decide, by decide, by decide, by decide, by decide, by decide, by decide, ?_⟩
  intro x hx w; rw [List.mem_singleton.1 hx]; exact ⟨nofun, nofun⟩
theorem wit_served : let i := Instr.pyld 1 1 2 3 0 true
    let j := Instr.pystat 2 1 true
    (st { hart0 with status := .waiting (.again (encode i)) }).cur.held = false ∧ PlainHart (st { hart0 with status := .waiting (.again (encode i)) }) ∧
    PlainHart (st { hart0 with status := .waiting (.again (encode j)) }) := ⟨rfl, ⟨⟨⟨rfl, rfl, rfl⟩, rfl⟩, rfl⟩, ⟨⟨⟨rfl, rfl, rfl⟩, rfl⟩, rfl⟩⟩

/-! ### Replayed objects -/

def rep0 : Replica := ⟨List.replicate 64 0, 0, false⟩
/-- An object with one read-only and one update method, both HALT. -/
def obj0 : Robj := { slot := 0, gen := 1, ctx := 1, size := 64, code := [encode .halt], methods := [(false, 0), (true, 0)], rtimeout := 1, k := 4, tail := 0, log := [], replicas := Vector.replicate 4 rep0, logDies := (0, 1), leaving := false }
def sObj (o : Robj) (h : Hart) : State := { st h with hub := { Hub.reset with objects := [o] } }
/-- An entry of position p of a call of update method 1 from die 0, with six arguments 0. -/
def entryAt (p : Nat) : LogEntry := Spec.newEntry { obj0 with tail := p - 1 } 0 1 (List.replicate 6 0)
def entry0 : LogEntry := entryAt 1
def obj1 : Robj := { obj0 with tail := 1, log := [entry0] }
def objFull : Robj := { obj0 with tail := 16, log := (List.range 16).map (fun p => entryAt (p + 1)) }
theorem wit_ObjectCalls : PlainHart (sObj obj0 hart0) ∧ (sObj obj0 hart0).objFor 1 obj0.handle = some obj0 ∧ (sObj obj0 hart0).objSlot 0 = some obj0 ∧
    obj0.methods.length ≤ (2#6).toNat ∧ (1#6).toNat < obj0.methods.length ∧ obj0.log.length < 2 ^ obj0.k ∧ (sObj obj0 hart0).logReady obj0 = true ∧
    objFull.log.length = 2 ^ objFull.k ∧ obj0.isUpdate 1 = true ∧ obj0.isUpdate 0 = false ∧ (sObj obj0 hart0).recorder none = none ∧
    (obj0.replica 0).stale = false ∧ obj0.tail ≤ (obj0.replica 0).applied ∧ (obj1.replica 0).applied < obj1.tail :=
  ⟨⟨⟨⟨rfl, rfl, rfl⟩, rfl⟩, rfl⟩, by decide, by decide, by decide, by decide, by decide, by decide, by decide, by decide, by decide, by decide, by decide, by decide, by decide⟩
theorem wit_FirstCaller : Spec.FirstCaller (sObj obj0 hart0) 0 ∧
    ({ sObj obj0 hart0 with others := [{ hart0 with place := 1, arrived := some 0, status := .waiting (.logFull (encode (.rcall 3 4 1)) 0 0) }] } : State).calledBefore 0 = true := by
  refine ⟨?_, by decide⟩
  intro x hx; cases hx
theorem wit_CallsReturn : let f (w : Wait) := (sObj obj0 { hart0 with status := .waiting w }).focus 0
    (f .halt).cur.place = 0 ∧ (f .halt).cur.held = false ∧ (f .halt).objSlot 0 = some obj0 ∧
    (f (.call (encode (.rcall 3 4 1)) 0 1 (some (7, 0, 0, 0)))).cur.status = .waiting (.call (encode (.rcall 3 4 1)) 0 1 (some (7, 0, 0, 0))) ∧
    (f (.rread (encode (.rread 3 4 0)) 0 0)).cur.status = .waiting (.rread (encode (.rread 3 4 0)) 0 0) ∧ (f .halt).recorder none = none ∧
    ((sObj objFull { hart0 with status := .waiting (.logFull (encode (.rcall 3 4 1)) 0 0) }).focus 0).objSlot 0 = some objFull ∧ objFull.rtimeout ≠ 0 ∧
    0 + 1000 * objFull.rtimeout ≤ ({ sObj objFull hart0 with sevenths := 7000 } : State).time := by decide
theorem wit_MethodsWhole : obj0.isUpdate 0 = false ∧ (obj0.runMethod 1 [] rep0.bytes).1.2.1 = 0 ∧ ({ obj0 with code := [] }.runMethod 1 [] rep0.bytes).1.2.1 ≠ 0 := by decide
theorem wit_MethodAborts : let r : MRun := { x := Vector.replicate 32 0, pc := 0, lc := 0, lbeg := 0, lend := 0, armed := false, bytes := rep0.bytes, steps := 0 }
    0 ≤ r.pc ∧ [encode Instr.halt][r.pc.toNat]? = some (encode .halt) ∧ r.steps < 4096 ∧ ([] : List (BitVec 32)).length ≤ r.pc.toNat ∧
    (BitVec.ofNat 6 0x0F ++ 1#5 ++ 2#5 ++ 1#16).setWidth 32 = encode (.ldd 1 2 1) ∧ (r.rx 2 + (1#16).signExtend 64).toNat % 8 ≠ 0 ∧
    (r.rx 2 + (64#16).signExtend 64).toNat % 8 = 0 ∧ r.bytes.length < (r.rx 2 + (64#16).signExtend 64).toNat + 8 := by decide
theorem wit_ReplayApplies : (sObj obj1 hart0).objSlot 0 = some obj1 ∧ (obj1.replica 3).stale = false ∧ 3 ∉ (sObj obj1 hart0).down ∧
    (sObj obj1 hart0).logReady obj1 = true ∧ obj1.log.find? (fun x => x.p == (obj1.replica 3).applied + 1) = some entry0 ∧
    (∀ h ∈ (sObj obj1 hart0).harts, h.readsNow obj1 3 = false) ∧ (sObj obj1 hart0).engineTurn 3 = some 0 ∧ (sObj obj1 hart0).mayApply 3 obj1 = true := by decide
theorem wit_ReplicasRepaired : (let o := { obj1 with replicas := obj1.replicas.set 3 { rep0 with stale := true } }
      (sObj o hart0).objSlot 0 = some o ∧ o.leaving = false ∧ (o.replica 3).stale = true ∧ (o.replica 0).stale = false ∧ 3 ∉ (sObj o hart0).down) ∧
    obj1.logDies.1 ≠ 2 ∧ obj1.logDies.2 ≠ 2 ∧ ¬ (∃ e ∈ obj1.log, e.copyA = none ∧ e.copyB = none) ∧
    (let e := { entry0 with copyB := none }
     ¬ (e.copyA = none ∧ e.copyB = none) ∧ e.copyB = none ∧ 2 ≠ e.dies.1 ∧ 2 ≠ e.dies.2) ∧
    ∃ e ∈ [{ entry0 with copyA := none, copyB := none }], e.copyA = none ∧ e.copyB = none := by decide
/-- A registration record at address 0: 64 bytes, one update method, one word of code at 0x40; port 1 holds semaphore 0. -/
def sReg (os : List Robj) : State :=
  { sPC 0 with mem := Memory.setList (bootTables []) 0x14000 ([2 ^ 32 + 64, 0x40, 1, 0x8000, 0, 0, 0, 0, 0].flatMap (leBytes 8))
               hub := { Hub.reset with objects := os, booted := true, sems := Hub.reset.sems.set 0 (some 1), roctx := 1, roparm := 4, contexts := [⟨1, 0x10000, 0, []⟩] } }
theorem wit_ObjectRegistration : let s := sReg [obj0]
    s.hub.sems.toList.getD 0 none = some 1 ∧ s.hub.booted = true ∧ s.hub.robusy = false ∧ s.context s.hub.roctx = some ⟨1, 0x10000, 0, []⟩ ∧
    (s.readRobj 0x10000 0).1.isOk = true ∧ (s.readRobj 0x10000 64).1.isOk = false ∧ s.hub.rowait = [] ∧ s.hub.roarea = none ∧
    (some 0 : Option Nat) = some 0 ∧ 0 < (s.hub.objects.map Robj.areaBytes).sum ∧ 4 ≤ s.hub.roparm.toNat % 32 ∧ s.hub.roparm.toNat % 32 ≤ 16 ∧
    s.objSlot 1 = none ∧ (∀ m, m < 1 → s.objSlot m ≠ none) ∧ s.hub.sems.toList.getD 0 none ≠ some 0 ∧
    s.hub.objects.find? (fun x => x.handle == obj0.handle) = some obj0 ∧ s.objSlot obj0.slot = some obj0 ∧ obj0.log = [] ∧
    (∀ x ∈ s.harts, x.readsObj obj0.slot = false) ∧ ∀ x ∈ s.frames, x.hart.readsObj obj0.slot = false := by decide

/-! ### Near-memory units -/

/-- A hart that reads its block from the scratchpad and whose address 0 lies in HBM. -/
def sNm (b : List Word) : State := withBlock { sPy [] with cur := { (sPy []).cur with local_ := [⟨0, 4096, 0, false⟩] }.wx 1 W } b
theorem wit_NmuCommands : PlainHart (sNm (List.replicate 8 0)) ∧ readsAs ((sNm (List.replicate 8 0)).start.loadBlock W) (List.replicate 8 0) = true ∧
    Spec.NmrunBlock (List.replicate 8 0) ∧ ¬ Spec.NmbagBlock (List.replicate 8 0) ∧ Spec.NmbagBlock [0, 0x100000004, 0, 0, W, 1, 0, 0] ∧ inLocal W = true ∧
    canonical 0 = true ∧ ¬ Spec.InWindow 0 ∧ Spec.InWindow W ∧ canonical (2 ^ 56) = false ∧
    (let v := ((sNm (List.replicate 8 0)).start.loadBlock W).2.xlateHart 0 0 .read
     v.1 = .ok (2 ^ 51 + 0x200000) ∧ (match v.2.target (2 ^ 51 + 0x200000) with | .hbm off => off == 0x200000 | _ => false) = true ∧
     (v.2.nmu (channelOf 0x200000)).queue.length < 16 ∧ (v.2.nmu (channelOf 0x200000)).power ≠ .down ∧ ((v.2.drainTo 3 (fun _ => true)).awaitNet 3 true (fun _ => true)).blocked = none ∧
     v.2.cur.lowLane = 0) ∧
    (match (((sNm (List.replicate 8 0)).start.loadBlock W).2.xlateHart 0 0x200000 .read).1 with | .bad _ => true | _ => false) = true ∧
    (∀ j : Nat, j < 4 → ∃ r ∈ (sNm (List.replicate 8 0)).cur.local_, (r.off : Int) ≤ W.toNat - 0x00FFFF0000000000 + j ∧
      W.toNat - 0x00FFFF0000000000 + j < (r.off + r.size : Nat)) := by
  refine ⟨⟨⟨⟨rfl, rfl, rfl⟩, rfl⟩, rfl⟩, by decide, ⟨by decide, by decide⟩, fun h => absurd h.1 (by decide), ?_, by decide, by decide, ?_, ⟨by decide, by decide⟩,
    by decide, by decide, by decide, by decide⟩
  · exact ⟨by decide, by decide, by decide, by decide, by decide, by decide, by decide, by decide⟩
  · intro h; exact absurd h.1 (by decide)
def nmCmd (k : NmuKind) (b : List Word) : NmuCmd :=
  { kind := k, token := 1, owner := 0, ctx := 0, sptb := 0x10000, block := b, code := if k = .run then some [encode .halt] else none, out := none, home := 0, after := [], nmus := [] }
def sCh (n : Nmu) : State := { sPy [] with nmus := [(0, n)] }
theorem wit_NmuWaits : s0.nmuStatus 1 0 = (6, 0, 0) ∧ (sCh { Nmu.blank with seq := 1, queue := [nmCmd .run []] }).nmuStatus 0 1 = (0, 0, 0) ∧
    (sCh { Nmu.blank with seq := 1, log := [⟨1, 0, 3, 64, false⟩] }).nmuStatus 0 1 = (3, 0, 64) ∧ ((sCh { Nmu.blank with seq := 257 }).nmu 0).seq = 1 + 256 := by decide
def run0 : NmuRun := NmuRun.start (nmCmd .run (List.replicate 8 0))
theorem wit_NmuKernelStarts : let s := sCh { Nmu.blank with seq := 1, queue := [nmCmd .run (List.replicate 8 0)] }
    let t := (s.setNmu 0 { s.nmu 0 with queue := [], run := some run0 }).nmuSeg 0 run0 0 .read
    (s.nmu 0).run = none ∧ (s.nmu 0).queue = [nmCmd .run (List.replicate 8 0)] ∧ (s.nmu 0).power ≠ .down ∧ (nmCmd .run []).after = [] ∧
    (nmCmd .run (List.replicate 8 0)).code = some [encode .halt] ∧ (match t.1 with | .ok key => key == 2 ^ 51 + 0x200000 | _ => false) = true ∧
    t.2.poisonIn (2 ^ 51 + 0x200000) 256 = false ∧ ∀ p ∈ t.2.hub.debug, p.2.ctx = 0 := by decide
def sRun : State := { sCh { Nmu.blank with seq := 1, run := some { run0 with rs := 0x2000, c := 1, steps := 1, v := Vector.replicate 16 0 } } with unit := .nmu 0 }
theorem wit_NmuRowInstructions : let r := { run0 with rs := 0x2000, c := 1, steps := 1, v := Vector.replicate 16 0 }
    sRun.unit = .nmu 0 ∧ (sRun.nmu 0).run = some r ∧ r.steps + 2 < 2 ^ 20 ∧
    (match sRun.rowKeys 0 { r with rp := r.rp + r.rs } r.c 0 with | (.keys ks, t) => ks == [2 ^ 51 + 0x202000] && (t.hub.debug).all (fun p => p.2.ctx == 0) | _ => false) = true ∧
    (r.rx 3).toNat % 0x2000 = 0 ∧ (2#5).toNat % 2 = 0 ∧ (15#5).toNat ≤ 15 ∧ (16#5).toNat > 15 ∧
    (match sRun.nmuSeg 0 r (r.rp + BitVec.ofNat 64 (0x2000 * 0)) .write with | (.ok _, _) => true | _ => false) = true := by decide
theorem wit_NmuSubset : (sRun.nmu 0).run.isSome = true ∧ run0.cmd.kind = .run ∧ (15#5).toNat < 16 ∧ (sRun.nmu 0).seq < run0.cmd.token.toNat % 2 ^ 55 + 256 ∧
    2 ^ 20 ≤ { run0 with steps := 2 ^ 20 }.steps := by decide
/-- A bag of one row of 4 bytes at 0: index and segment arrays at 0x2000 and `seg`, output at 0x4000. -/
def bag0 (seg : Word) : NmuCmd := nmCmd .bag [0, 0x100000004, 0x2000, seg, 0x4000, 1, 0, 0]
theorem wit_NmuBags : let s (seg : Word) := sCh { Nmu.blank with seq := 1, queue := [bag0 seg] }
    let s0 (seg : Word) := (s seg).takeCmd 0 (bag0 seg) []
    let u (seg : Word) := ((s0 seg).setNmu 0 { (s0 seg).nmu 0 with due := [] }).bagArray 0 (NmuRun.start (bag0 seg)) 0x2000 1
    ((s 0x2000).nmu 0).queue = [bag0 0x2000] ∧ (bag0 0x2000).out = none ∧ (bag0 0x2000).after = [] ∧
    (match (u 0x2000).1 with | .ok l => l == [0] | _ => false) = true ∧
    (match ((u 0x2000).2.bagArray 0 (NmuRun.start (bag0 0x2000)) 0x2000 1).1 with | .ok l => l == [0] | _ => false) = true ∧
    (match ((u 0x100).2.bagArray 0 (NmuRun.start (bag0 0x100)) 0x100 1).1 with | .ok l => l == [0x2000] | _ => false) = true ∧
    (match ((u 0x2000).2.bagArray 0 (NmuRun.start (bag0 0x2000)) 0x2000 1).2.bagWords 0 (NmuRun.start (bag0 0x2000)) [0] [0] 1 0 with | (.ok (), _) => true | _ => false) = true := by decide
theorem no_poison (s : State) (h : s.poison = []) : ∀ n k, s.poisonIn k n = false := by
  intro n
  induction n with
  | zero => intro k; rfl
  | succ n ih => intro k; simp [State.poisonIn, State.poisoned, h, ih]
theorem wit_wake : (sCh Nmu.blank).poisonIn (2 ^ 53 + 4096 * 0) 4096 = false := no_poison _ rfl _ _
theorem wit_ChannelPower : (s0.nmu 0).power ≠ .down ∧ (s0.nmu 0).run = none ∧ (s0.nmu 0).queue = [] ∧
    (sCh { Nmu.blank with power := .asked 0, run := some run0 }).nmus.length = 1 ∧ ((sCh { Nmu.blank with power := .asked 0, run := some run0 }).nmu 0).power = .asked 0 ∧
    (let n := (sCh { Nmu.blank with power := .down, run := some run0, saved := some run0.v }).nmu 0
     n.power = .down ∧ n.run = some run0 ∧ n.saved = some run0.v) := by decide

/-! ### Stage groups, time and event counters -/

def lr0 : LaunchRec :=
  { cocoon := false, record := false, restart := false, weight := 1, prio := 7, lanes := 0, stages := 2, order := 0, args := 0, vlcap := 0, stack := 0,
    dims := [(0, 2, 1)], entries := [0, 0], waits := [(1, 5)], sigCtr := 2, sigVal := 1, regions := [] }
def launch0 : Launch :=
  { queue := 0, seq := 1, addr := 0, ctx := 1, sptb := 0, lr := lr0, eligible := true, next := 2, redo := [], halted := 0, cut := [], stopped := false, done := none,
    reserved := none, since := 0, boost := 0, ring := Vector.replicate 4 (0, 0, 0), heldAt := none }
def sL (ls : List Launch) (h : Hart) : State := { st h with hub := { Hub.reset with launches := ls } }
def staged (w : Status) : Hart := { hart0 with launch := some (0, 1), status := w }
def sGroup (w : Status) (q : List (BitVec 256)) : State :=
  { sL [launch0] (staged w) with clusters := [(0, { Cluster.blank with group := some (0, 1, 0, 2), queues := Cluster.blank.queues.set 3 q })] }
theorem wit_StageQueues : PlainHart (sGroup .running []) ∧ 2 ≤ (sGroup .running []).stagesOf (sGroup .running []).cur ∧ s0.stagesOf s0.cur < 2 ∧
    ((sGroup .running []).cluster 0).queues[reg16q (3#5).toNat] = [] ∧ ((sGroup .running [7]).cluster 0).queues[reg16q (3#5).toNat] = [7] ∧
    16 ≤ (((sGroup .running (List.replicate 16 7)).cluster 0).queues[reg16q (3#5).toNat]).length ∧
    (sGroup .running []).recorder (sGroup .running []).cur.launch = none ∧
    ((sGroup .running []).start.drain (fun x => match x with | .thread _ => false | _ => true)).blocked = none ∧
    ((sGroup .running []).start.drain (fun x => match x with | .thread _ => false | _ => true)).ownCommand (fun e => e == .bank) = false :=
  ⟨⟨⟨⟨rfl, rfl, rfl⟩, rfl⟩, rfl⟩, by decide, by decide, by decide, by decide, by decide, by decide, by decide, by decide⟩
theorem wit_Barriers : (let s := sGroup (.waiting (.barrier 4)) []
      let live := (s.harts ++ s.frames.map (fun f => f.hart)).filter (fun h => h.inGroup (0, 1, 0, 2))
      (s.cluster 0).group = some (0, 1, 0, 2) ∧ live ≠ [] ∧ (∀ h ∈ live, h.status = .waiting (.barrier 4) ∧ h.held = false) ∧ (s.harts.map (fun h => h.place)).Nodup) ∧
    (let s := sGroup (.waiting (.again (encode (.qpop 1 3)))) []
      let live := (s.harts ++ s.frames.map (fun f => f.hart)).filter (fun h => h.inGroup (0, 1, 0, 2))
      live ≠ [] ∧ (∀ h ∈ live, h.held = false ∧ h.strikes = [] ∧ h.status = .waiting (.again (encode (.qpop 1 3)))) ∧
      (s.cluster 0).queues[reg16q (3#5).toNat] = []) ∧ 16 ≤ (16 : Word).toNat ∧ (15 : Word).toNat < 16 := by decide
theorem wit_TimeAndSleep : PlainHart sCmd ∧ Spec.Status { sCmd with cur := sCmd.cur.wx 3 1 } 1 1 0 0 ∧ sCmd.timeWord < 1 ∧ (0 : Word) ≤ sCmd.timeWord ∧
    (2#5).toNat % 2 = 0 ∧ (2#5) ≠ 0 ∧ (3#5).toNat % 2 = 1 ∧
    (let f := (st { hart0 with status := .waiting (.sleep (encode (.sleept 2)) 0 1) }).focus 0
     f.cur.place = 0 ∧ f.cur.held = false ∧ f.cur.strikes = [] ∧ f.cur.status = .waiting (.sleep (encode (.sleept 2)) 0 1) ∧ f.recorder f.cur.launch = none) :=
  ⟨⟨⟨⟨rfl, rfl, rfl⟩, rfl⟩, rfl⟩, by unfold Spec.Status; decide, by decide, by decide, by decide, by decide, by decide, by decide⟩
theorem wit_EventCounters : (sx 4095 0).cur.rx 1 = 4095 ∧ 4096 ≤ (4096 : Word).toNat ∧ (4095 : Word).toNat < 4096 ∧ (0 : Word) ≤ s0.counter 1 4095 ∧ s0.counter 1 4095 < 1 := by decide

/-! ### Launches -/

/-- A record of one iteration with its entry at 0: one lane, one stage, one dimension of one. -/
theorem wit_LaunchInstructions : PlainHart (sx W 0) ∧ readsAs ((sx W 0).start.loadRecord W) (List.replicate 48 0) = true ∧
    (sx W 0).checkRecord 1 (List.replicate 48 0) = none ∧ (sx W 0).cur.place / 896 < 4 ∧
    (((sx W 0).start.loadRecord W).2.drain (fun x => match x with | .thread _ => false | _ => true)).blocked = none ∧
    (∀ p ∈ ((sx W 0).start.loadRecord W).2.hub.debug, p.2.ctx = 0) ∧ (W + 32).toNat % 64 ≠ 0 :=
  ⟨⟨⟨⟨rfl, rfl, rfl⟩, rfl⟩, rfl⟩, by decide, by decide, by decide, by decide, by decide, by decide⟩
def devLaunch (d : Option Nat) : Launch := { launch0 with queue := 64, done := d }
theorem wit_LaunchWaits : (let s := sL [devLaunch (some 1)] (hart0.wx 1 (launchHandle 0 1))
      devLaunch (some 1) ∈ s.hub.launches ∧ (devLaunch (some 1)).ctx = s.cur.sctx ∧ launchHandle 0 (devLaunch (some 1)).seq = s.cur.rx 1) ∧
    (s0.start.drain (fun _ => true)).blocked = none ∧
    (let f : Frame := { hart := { hart0 with status := .waiting (.launch (encode (.lwait 2 1)) (launchHandle 0 1)) }, copyOk := true, mirrorOk := true,
                        resizable := false, evicted := false, lost := false, mirror := (1, []), era := 0, saved := [], bad := [], queues := [], image := [] }
     let s : State := { sL [devLaunch (some 1)] (Hart.blank 1) with frames := [f] }
     f.hart.held = false ∧ f.hart.lane = none ∧ s.ctxStopped f.hart.sctx = false ∧ s.launchOf f.hart.sctx (launchHandle 0 1) = some (devLaunch (some 1))) ∧
    (sL [{ devLaunch none with reserved := some 0, next := 0 }] hart0).entryTaken 0 = true ∧ s0.entryTaken 0 = false := by decide
theorem wit_LaunchLifecycle : (let l := { launch0 with eligible := false, next := 0, lr := { lr0 with waits := [(1, 0)] } }
      (sL [l] hart0).launchAt 0 1 = some l ∧ ∀ w ∈ l.lr.waits, w.2 ≤ (sL [l] hart0).counter l.ctx w.1) ∧
    (∃ w ∈ lr0.waits, (sL [launch0] hart0).counter 1 w.1 < w.2) ∧
    (let l := { launch0 with next := 0, lr := { lr0 with prio := 5 } }
     let s := { sL [l] hart0 with sevenths := 64000 * 7 }
     s.live l = true ∧ l.dispatched = false ∧ l.lr.prio + l.boost < 7 ∧ l.since + 64000 * (l.boost + 1) ≤ s.time) ∧
    (let s := { sL [launch0] { hart0 with launch := none } with mem := bootTables [] }
     launch0.dispatched = true ∧ s.ctxStopped 1 = false ∧ (∀ h ∈ s.harts ++ s.frames.map (fun f => f.hart), h.launch ≠ some (0, 1)) ∧ launch0.lr.total = launch0.next ∧
     (s.writeKeys8 0x10000 8 (launch0.addr + 384)).isSome = true ∧ (∀ x ∈ s.hub.launches, x.heldAt = none) ∧
     ∀ k ∈ (s.writeKeys8 0x10000 8 (launch0.addr + 384)).getD [], s.heldSegment k.1 = false ∧ s.heldSegment k.2 = false) := by decide
/-- An accepted launch is in the queue's log until the replicas of all four dies have applied it (R335). -/
theorem test_queue_replicas : let s := s0.enter 64 (.accept 1)
    let r : QReplica := { applied := (1, 0), launches := [{ seq := 1, next := 0, redo := [], halted := 0, cut := [] }] }
    (s.queueLog 64).entries = [((1, 0), .accept 1)] ∧
    ((((s.replicaGo 64 0).replicaGo 64 1).replicaGo 64 2).queueLog 64).entries = [((1, 0), .accept 1)] ∧
    ((((s.replicaGo 64 0).replicaGo 64 1).replicaGo 64 2).replicaGo 64 3).queueLog 64 = ⟨64, (1, 0), [], Vector.replicate 4 (some r), (0, 1)⟩ := by decide
/-- One launch in each replica but that of die 3, which is stale, and a dispatch that no replica has applied. -/
def qlaunch0 : QLaunch := { seq := 1, next := 2, redo := [0], halted := 0, cut := [] }
def qrep0 : QReplica := { applied := (1, 1), launches := [qlaunch0] }
def qlog0 : QueueLog := ⟨64, (1, 2), [((1, 2), .dispatch 1 2 0)], #v[some qrep0, some qrep0, some qrep0, none], (0, 1)⟩
theorem wit_QueueReplicas : qrep0.launches = [qlaunch0] ∧ 2 ∉ qlaunch0.redo ∧ 0 ∈ qlaunch0.redo ∧ 1 < qlaunch0.next ∧ 1 ∉ qlaunch0.redo ∧
    qlog0.replicas[reg4 0] = some qrep0 ∧ qlog0.entries.filter (fun e => beyond e.1 qrep0.applied) = ((1, 2), .dispatch 1 2 0) :: [] ∧
    qlog0.replicas[reg4 3] = none ∧
    (let s : State := { s0 with schedule := [.hub (.replica 64 3)] }
     s.parkIdle = s ∧ 3 ∉ s.down) := ⟨rfl, by decide, by decide, by decide, by decide, rfl, rfl, rfl, rfl, by decide⟩
theorem wit_launch_stop : let s := sL [launch0] (staged .stopped)
    s.cur ∈ s.harts ∧ s.cur.launch = some (0, 1) ∧ s.cur.status = .stopped ∧ s.cur.held = false := ⟨List.mem_cons_self, rfl, rfl, rfl⟩
def launch1 : Launch := { launch0 with next := 0, lr := { lr0 with stages := 1, entries := [0x40], dims := [(3, 11, 4)] } }
theorem wit_IterationDispatched : let s := sL [launch1] (Hart.blank 0)
    s.launchAt 0 1 = some launch1 ∧ s.live launch1 = true ∧ launch1.dispatched = false ∧ launch1.redo = [] ∧ s.hub.power ≠ .standby ∧
    s.placesOk launch1 [5] = true ∧ s.framesOn launch1 (dieOf 5) = [] ∧ s.outranked launch1 (dieOf 5) = false ∧ s.recorder (some (0, 1)) = none := by decide
theorem wit_SupervisorStops : (s0.focus 0).cur.place = 0 ∧ (s0.focus 0).cur.status ≠ .unbound ∧ (s0.focus 0).cur.status ≠ .stopped ∧ s0.cur.held = false ∧
    (st { hart0 with status := .stopped }).cur.status = .stopped ∧ s0.hub.launches = [] ∧ hart0.lane = none ∧ 2 ≤ (2 : Word).toNat := by decide
theorem wit_SupervisorStops_frame : s0.hartAt 0 = some hart0 ∧ (s0.harts.map (fun z => z.place)).Nodup ∧
    (let f : Frame := { hart := { hart0 with place := 3 }, copyOk := true, mirrorOk := true, resizable := false, evicted := false, lost := false, mirror := (1, []), era := 0, saved := [],
                        bad := [], queues := [], image := [] }
     ({ s0 with frames := [f] } : State).hartAt f.hart.place = none ∧ f.hart.held = false ∧ f.hart.status ≠ .stopped ∧ f.hart.status ≠ .unbound) := ⟨rfl, by decide, rfl, rfl, by decide, by decide⟩
theorem wit_LostParts : (1791, 15) ∉ s0.retired ∧ (s0.focus 0).cur.launch = none ∧ (∀ h ∈ s0.harts, h.status ≠ .unbound → dieOf h.place = 3 → h.launch = none) ∧
    s0.hub.objects = [] ∧ (s0.harts.map (fun h => h.place)).Nodup ∧ dieOf hart0.place ≠ 3 := by decide
/-- A launch of class 7 that fits nowhere, all dies being down, presses a hart of class 0. -/
def pressing : Launch := { launch1 with queue := 64, lr := { launch1.lr with regions := [⟨0, 4096, 0, false⟩] } }
/-- Clusters from 1 on whose segment 0 is held. -/
def heldClusters : List (Nat × Cluster) := (List.range 55).map (fun k => (k + 1, { Cluster.blank with segs := [⟨0, 9, some (.region 0 9), false⟩] }))
/-- A launch presses on die 0: only the current hart, of class 0, may be folded for it. -/
def sPress : State :=
  { sL [pressing] hart0 with clusters := heldClusters, others := (List.range 7).map (fun k => { hart0 with place := 2 * k + 2, sprio := 7 }) }
theorem wit_fold : pressing ∈ sPress.hub.launches ∧ sPress.presses pressing 0 = true ∧ sPress.firstVictim pressing 0 = some sPress.cur ∧
    sPress.hartAt sPress.cur.place = some sPress.cur ∧ sPress.stagesOf sPress.cur < 2 ∧ sPress.cur.bornAt < 2 ^ 64 ∧
    sPress.frameKey { hart0 with sframe := 2 ^ 51 + 0x100000 } = some (2 ^ 51 + 0x100000) :=
  ⟨List.mem_cons_self, by decide, rfl, rfl, by decide, by decide, by decide⟩
/-- A launch of class 0 whose region holds segment 0 of cluster 0. -/
def evictee : Launch := { launch0 with seq := 2, lr := { lr0 with prio := 0 } }
def sEvict : State :=
  { sL [pressing, evictee] hart0 with clusters := (0, { Cluster.blank with segs := [⟨0, 1, some (.region 0 2), false⟩] }) :: heldClusters }
theorem wit_evict : pressing ∈ sEvict.hub.launches ∧ sEvict.presses pressing 0 = true ∧ sEvict.firstEvictee pressing 0 = some (evictee, 0) ∧
    sEvict.launchAt 0 2 = some evictee ∧ sEvict.hartsOn 0 2 0 = [] ∧ (sEvict.cluster 0).group = none ∧ (sEvict.cluster 0).pool = [] :=
  ⟨List.mem_cons_self, by decide, by decide, by decide, by decide, by decide, by decide⟩
def frame0 (ok : Bool) : Frame :=
  { hart := { hart0 with place := 3, sgrant := 16 }, copyOk := ok, mirrorOk := false, resizable := false, evicted := false, lost := false, mirror := (1, []), era := 0, saved := [], bad := [], queues := [], image := [] }
theorem wit_resume : let s : State := { st (Hart.blank 0) with frames := [frame0 false] }
    (frame0 true).ready = true ∧ (frame0 true).hart.launch = none ∧ s.hub.power ≠ .standby ∧ clusterOf 5 = clusterOf (frame0 true).hart.place ∧
    (frame0 true).hart.lane = none ∧ (frame0 false).copyOk = false ∧ (frame0 false).mirrorOk = false ∧
    (let f : Frame := { frame0 true with hart := { (frame0 true).hart with lmap := 0xFFFF } }
     s.firstCopy f = true ∧ f.image = [] ∧ f.resizable = false ∧ s.slotOpen 3 f.hart.half = true ∧ s.resumeMap f 3 = 0xFFFF ∧
     popcN 16 (s.resumeMap f 5) = f.hart.lanes ∧ s.resumeMap f 5 ≠ 0 ∧ popcN 16 (s.grant 5 (frame0 true).hart.cap) ≠ (frame0 true).hart.lanes ∧
     s.resumeMap (frame0 true) 5 = 0) := by decide
theorem wit_PageAnswers : let r : PageReq := { id := 4, who := .hart 0, ctx := 1, addr := 0x1000, tval := 0x1000 }
    let s := { st { hart0 with status := .waiting (.page 4) } with hub := { Hub.reset with pages := [r] } }
    s.hub.pages.find? (fun p => p.id == r.id) = some r ∧ s.cur.status = .waiting (.page 4) ∧ s.recorder s.cur.launch = none ∧ r.who = .hart s.cur.place := by decide
theorem wit_Invalidation : s0.hub.invs.length < 64 ∧ (List.replicate 64 (s0.invRequest 0)).length = 64 ∧
    ({ s0 with hub := { s0.hub with invs := [s0.invRequest 0] } } : State).hub.invs = s0.invRequest 0 :: [] ∧ (s0.invRequest 0).bad = false ∧
    ({ s0.invRequest 0 with bad := true } : InvReq).bad = true ∧ s0.target 0 ≠ .hole ∧ s0.poisonIn (s0.paKey 0) 32 = false ∧
    s0.target (s0.invRequest 0).done.toNat ≠ .hole ∧ s0.invReady (s0.invRequest 0) = true ∧ ∀ h ∈ s0.harts, h.stores = [] := by decide

/-! ### Debug blocks, the hub and the ports -/

def dbg0 : DebugBlock := { DebugBlock.blank with ctx := 1, ring := 0x14006, hasRing := true }
def sDbg (d : DebugBlock) (h : Hart) : State := { st h with hub := { Hub.reset with debug := [(63, d)] } }
theorem wit_DebugStops : (1 : Word).toNat < 2 ^ 32 ∧ (1 : Word) ≠ 0 ∧ (s0.debug 63).ctx = 0 ∧ (s0.debug 63).stopped = false ∧
    (∀ p ∈ s0.hub.debug, p.1 ≠ 63 → p.2.ctx ≠ 1) ∧ (∀ c ∈ s0.hub.cocoons, c.ctx = 1 → c.debug = true) ∧ 2 ^ 32 ≤ (2 ^ 32 : Word).toNat ∧
    (∃ p ∈ (sDbg dbg0 hart0).hub.debug, p.1 ≠ 0 ∧ p.2.ctx = 1) ∧ ((sDbg dbg0 hart0).debug 63).ctx ≠ 0 ∧ ((sDbg dbg0 hart0).debug 63).stopped = false ∧
    (sDbg dbg0 hart0).cur.sctx = ((sDbg dbg0 hart0).debug 63).ctx ∧ (sDbg dbg0 hart0).cur.held = false ∧ (sDbg dbg0 hart0).cur.pending = none ∧
    (let d := { dbg0 with stopped := true }
     ((sDbg d hart0).debug 63).waiting = [] ∧ ((sDbg d hart0).debug 63).owed ≤ ((sDbg d hart0).debug 63).tail ∧ ((sDbg { d with waiting := [(none, [])] } hart0).debug 63).waiting ≠ [] ∧
     (st { hart0 with held := true, status := .stopped, tcause := 0x0D }).cur.tcause.extractLsb' 0 8 = 0x0D#8 ∧ (∀ h ∈ (sDbg d hart0).harts, h.pending = none) ∧
     (sDbg dbg0 hart0).blockOf 1 = some (63, dbg0)) := by decide
theorem wit_DebugRecords : (let x : Word := 0x14006
      6 ≤ x.toNat % 32 ∧ x.toNat % 32 ≤ 20 ∧ x.toNat / 2 ^ 5 % 2 ^ 7 = 0 ∧ x.toNat < 2 ^ 57) ∧ ¬ (6 ≤ (5 : Word).toNat % 32) ∧
    (0 : Word).toNat ≤ (s0.debug 0).head ∧ (s0.debug 0).wanted = false ∧ (s0.debug 0).head < (1 : Word).toNat ∧ (s0.debug 0).hasRing = false ∧
    (let d := (sDbg dbg0 hart0).debug 63
     d.hasRing = true ∧ d.head - d.tail < 2 ^ (d.ring.toNat % 32) ∧ d.waiting = [] ∧ (sDbg dbg0 hart0).sealKey d.ctx = none) ∧
    (List.replicate 8 (0 : Word)).length = 8 ∧ 2 ^ (dbg0.ring.toNat % 32) ≤ { dbg0 with head := 64 }.head - { dbg0 with head := 64 }.tail := by decide
theorem wit_skid : let k : StopAsk := ⟨0x0D, 0, 0, 0, 0, 0, 0⟩
    let s := { sDbg { dbg0 with stopped := true } { hart0 with pending := some k } with sevenths := 4096 * 5 * Hub.reset.divider }
    (s.focus 0).cur.place = 0 ∧ (s.focus 0).cur.pending = some k ∧ ((s.focus 0).blockOf 1).map (fun p => p.1) = some 63 ∧ ((s.focus 0).debug 63).stopped = true ∧
    k.at_ + 4096 * 5 * (s.focus 0).hub.divider ≤ (s.focus 0).sevenths ∧ s0.sevenths < 0 + 4096 * 5 * s0.hub.divider := by decide
def msg0 : Message := ⟨0, 1, 0, 0, 0, 0, 0, 0, []⟩
/-- A recorded launch in block 63, the messages that port 0 expects in its replay, and the mode. -/
def sPort (mode : Nat) (es : List (List Byte)) : State :=
  { s0 with sevenths := 70000000,
            hub := { Hub.reset with launches := [{ launch0 with lr := { lr0 with record := true } }], debug := [(63, { dbg0 with mode := mode, recs := [(0, 1)] })],
                                    ports := [(portKey 0 63 0, { PortRec.blank with expect := es })] } }
theorem wit_PortDigests : (sPort 1 []).recorder (some (msg0.queue, msg0.launch)) = some (63, { dbg0 with mode := 1, recs := [(0, 1)] }) ∧
    ({ dbg0 with recs := [(0, 1)] } : DebugBlock).number (some (0, 1)) = 0 ∧ ((sPort 1 []).port (portKey 0 63 0)).expect = [] ∧
    ((sPort 1 [headerBytes msg0]).port (portKey 0 63 0)).expect.head? = some (headerBytes msg0) ∧ msg0.payload = [] ∧
    ([] : List Byte) ≠ headerBytes msg0 ∧ headerBytes msg0 ∈ [headerBytes msg0] ∧ headerBytes msg0 ∉ ((sPort 1 [[]]).port (portKey 0 63 0)).expect ∧
    (sPort 1 [[]]).debug 63 = { dbg0 with mode := 1, recs := [(0, 1)] } ∧ dbg0.stopped = false ∧ dbg0.wanted = false ∧
    ((sPort 1 [[]]).port (portKey 0 63 0)).expect = [] :: [] ∧ ((sPort 1 [[]]).port (portKey 0 63 0)).lastAt + 70000000 ≤ (sPort 1 [[]]).sevenths ∧
    s0.sevenths < ((sPort 1 [[]]).port (portKey 0 63 0)).lastAt + 70000000 ∧ (sPort 1 []).observing = true ∧
    (let b : DebugBlock := { dbg0 with mode := 1, recs := [(0, 1)] }
     let p : PortRec := { PortRec.blank with split := some [] }
     let s : State := { sDbg b hart0 with hub := { Hub.reset with debug := [(63, b)], ports := [(portKey 2 63 0, p)] } }
     s.hub.debug = [(63, b)] ∧ (portKey 2 63 0, p) ∈ s.hub.ports ∧ portKey 2 63 0 / 2 ^ 16 % 64 = 63) ∧
    (msg0.payload = [] ∧ writeAt 0 0 0 [Machine.jWord 0 jWrite, 0, 0, 5] = true) ∧ ({ dbg0 with mode := 0, recs := [(0, 1)] } : DebugBlock).mode ≠ 1 := by decide
theorem wit_Semaphores : s0.hub.sems.toList.getD 15 none = none ∧ s0.tied 1 15 = false ∧ ({ s0 with schedule := [.event (.semaphoreClaim 1 15)] } : State).tied 0 15 = true ∧
    ({ s0 with hub := { s0.hub with sems := s0.hub.sems.set 15 (some 1) } } : State).hub.sems.toList.getD 15 none = some 1 := by decide
/-- A queue of port 1 with context 1, whose record at address 0 asks for one iteration. -/
def sHq (q : HostQueue) : State :=
  { sPC 0 with mem := bootTables [], hub := { Hub.reset with booted := true, queues := [(63, q)], contexts := [⟨1, 0x10000, 0, []⟩] } }
theorem wit_HostQueues : (sHq HostQueue.blank).hostQueue 63 = HostQueue.blank ∧ HostQueue.blank.owner = none ∧
    (let q := { HostQueue.blank with owner := some 1, ctx := 1 }
     ((sHq q).hostQueue 63).owner = some 1 ∧ (sHq q).hub.booted = true ∧ q.busy = false ∧ (sHq q).context q.ctx = some ⟨1, 0x10000, 0, []⟩ ∧
     (0 : Word).toNat % 64 = 0 ∧ (32 : Word).toNat % 64 ≠ 0 ∧ (((sHq q).setHostQueue 63 { q with sub := 0, paged := [] }).submitRead 0x10000 0).1.isOk = true ∧ q.waiting = [] ∧ { q with busy := true }.busy = true) := by decide
theorem wit_ManagementWindow : ({ s0 with hub := { s0.hub with sems := s0.hub.sems.set 1 (some 1), contexts := [⟨0, 0, 0, []⟩] } } : State).hub.sems.toList.getD 1 none = some 1 ∧
    ({ s0 with hub := { s0.hub with evctx := 1, contexts := [⟨1, 0, 0, []⟩] } } : State).context 1 = some ⟨1, 0, 0, []⟩ ∧ s0.hub.sems.toList.getD 1 none ≠ some 1 ∧
    (sHq HostQueue.blank).hub.booted = true ∧ (7 : Word).toNat < 8 ∧ 1200 ≤ (1200 : Word).toNat ∧ (3600 : Word).toNat ≤ 3600 ∧ 0x80 % 8 = 0 ∧ 0x50001 % 8 ≠ 0 ∧ s0.hub.requests = [] ∧
    HubReq.agent (.mem 0x6001 (.read 0 8)) = 0x6000 + 1 := by decide
theorem wit_RecoveryMailbox : ({ s0 with hub := { s0.hub with sems := s0.hub.sems.set 3 (some 0) } } : State).hub.sems.toList.getD 3 none = some 0 ∧ s0.hub.mbstat ≠ 1 ∧
    ({ s0 with hub := { s0.hub with mbstat := 1 } } : State).mailboxImage = none ∧
    imageOk 0 0 [] = false := by decide
/-- An image of 4 KiB at host address 0. -/
def sMail : State := { s0 with mem := Memory.setList [] 0 (leBytes 8 4096), hub := { s0.hub with mbstat := 1 } }
theorem wit_mailboxImage : sMail.mailboxImage = some (Memory.getList sMail.mem 0 4096) := by
  have h : sMail.hostBytes 0 8 = some (leBytes 8 4096) := by decide
  have k : sMail.hostBytes 0 4096 = some (Memory.getList sMail.mem 0 4096) := by
    have t1 : (sMail.target 0 == .host) = true := by decide
    have t2 : (sMail.target (0 + 4096 - 1) == .host) = true := by decide
    simp [State.hostBytes, t1, t2, no_poison sMail rfl]
  have e : sMail.hub.mbaddr.toNat = 0 := by decide
  have l : leNat (leBytes 8 4096) = 4096 := by decide
  simp [State.mailboxImage, e, h, l, k, imageSizeOk]
theorem wit_HostPorts : (2 ^ 40 : Word).toNat % 2 ^ 40 = 0 ∧ (0xC000000000 : Word).toNat = 0xC000000000 ∧ s0.hub.hdmPort[reg2 (1 + 1)] = none ∧ (1 : Word).toNat % 2 ^ 40 ≠ 0 ∧
    s0.hub.linkUp[reg2 1] = true ∧ (sHq HostQueue.blank).hub.booted = true ∧ s0.hub.dirty = [] ∧
    (let s : State := { s0 with hub := { s0.hub with dirty := [(0, [0])], hostLost := Vector.replicate 2 true } }
     s.hub.dirty = [(0, [0])] ∧ s.hostGone 0 = true ∧ ({ s with hub := { s.hub with hostLost := Vector.replicate 2 false } } : State).hostGone 0 = false) := by decide
def sCoc (c : Cocoon) : State := { st { hart0 with sctx := 2 } with hub := { Hub.reset with contexts := [⟨1, 0, 0, []⟩], cocoons := [c] } }
theorem wit_ContextsAndCocoons : s0.context 1 = none ∧ (sHq HostQueue.blank).context 1 ≠ none ∧ (sHq HostQueue.blank).contextLive 1 = false ∧
    (∀ o ∈ (sHq HostQueue.blank).hub.objects, o.ctx ≠ 1) ∧ ({ sHq HostQueue.blank with cur := { (sHq HostQueue.blank).cur with sctx := 1 } } : State).contextLive 1 = true ∧
    (sHq HostQueue.blank).mayUnlock 65535 1 = true ∧ (sCoc ⟨7, 1, .locked, 5, false⟩).cocoon 7 = some ⟨7, 1, .locked, 5, false⟩ ∧
    (sCoc ⟨7, 1, .unlocked, 5, false⟩).cocoon 7 = some ⟨7, 1, .unlocked, 5, false⟩ ∧ (sCoc ⟨7, 1, .run, 5, true⟩).hub.launches = [] ∧
    (sCoc ⟨7, 1, .run, 5, true⟩).clusters = [] ∧ (sCoc ⟨7, 1, .run, 5, true⟩).cur.sctx ≠ 1 := by decide
theorem wit_PowerAndTime : 1 + 0 + 0 + 0 ≤ s0.cur.lanes ∧ s0.cur.status ≠ .unbound ∧ (State.reset).hub.power = .active ∧ (State.reset).busyNow = false ∧
    s0.busyNow = true ∧ ({ State.reset with sevenths := 7000000 } : State).hub.idleSince + 7000000 ≤ ({ State.reset with sevenths := 7000000 } : State).sevenths ∧
    s0.cur.status ≠ .stopped ∧ (3 : Nat) ≠ 0 ∧
    (∀ p ∈ (sDbg dbg0 hart0).hub.debug, p.2.waiting = [] ∧ p.2.jlate = [] ∧ p.2.recs = []) ∧ (∀ p ∈ s0.hub.ports, p.2.fresh = [] ∧ p.2.split = none) ∧ (∀ h ∈ [hart0], h.slots.1 + h.slots.2.1 + h.slots.2.2.1 + h.slots.2.2.2 ≤ h.lanes) := by decide
theorem wit_ScaleUpPorts : (s0.hub.fabric[reg18 17]).working = true ∧ (∀ k : Fin 18, (s0.hub.fabric[k]).working = true ∨ (s0.hub.fabric[k]).unacked = []) ∧ (s0.hub.fabric[reg18 0]).peer = (s0.hub.fabric[reg18 17]).peer ∧
    (let s : State := { s0 with hub := { s0.hub with fabric := s0.hub.fabric.set (reg18 17) { FabricPort.blank with unacked := [65] }, accepted := [(3, 65)] } }
     65 ∈ (s.hub.fabric[reg18 17]).unacked ∧ (3, 65) ∈ s.hub.accepted) ∧
    (let f := ({ st { hart0 with status := .waiting (.remote 0x1000 0) } with sevenths := 7000000 } : State).focus 0
     f.cur.place = 0 ∧ f.cur.held = false ∧ f.cur.status = .waiting (.remote 0x1000 0) ∧ 0 + 1000000 ≤ f.time) ∧
    (let v := (({ sPC 0 with cur := { (sPC 0).cur with noAnswer := some 0 } } : State).xlateHart (sPC 0).cur.lowLane 0 .read)
     (match v.1 with | .ok _ => v.2.cur.noAnswer == some 0 | _ => false) = true) ∧
    (let c := { cmd0 with remote := some (0x1000, 0) }
     let s := { sCmd with clusters := [(0, { Cluster.blank with pool := [c], copySeq := 1 })], sevenths := 7000000 }
     s.findCmd 0 1 = some c ∧ 0 + 1000000 ≤ s.time ∧ (s.cluster 0).copySeq < (1 : Word).toNat % 2 ^ 55 + 256) := by decide
theorem wit_OutsideRequests : (let s := sHq HostQueue.blank
      let a : Word := 2 ^ 51 + 8
      (match s.target (requestAddr (.amo 0 true a 5 0)) with | .hbm off => off == 8 | _ => false) = true ∧ requestWidth (.amo 0 true a 5 0) ∈ [1, 2, 4, 8] ∧ a.toNat % 8 = 0 ∧
      s.heldSegment (s.paKey a.toNat) = false ∧ s.instarHit (s.paKey a.toNat) = false ∧ (∀ p ∈ s.hub.debug, p.2.ctx = 0) ∧
      (∀ j, j < 8 → s.poisoned (s.paKey a.toNat + j) = false) ∧ s.hub.linkUp[reg2 1] = true ∧ (s.hub.fabric[reg18 17]).working = true ∧
      (3, 65) ∉ s.hub.accepted ∧ s.hub.requests = []) ∧ s0.hub.booted = false ∧ 7 ∉ s0.poison := by decide

/-! ### Further witnesses -/

theorem wit_MinMaxValues : fp32 ∈ [fp32, bf16, fp16] ∧ fp32 ∈ [bf16, fp32] ∧ 0x7FC00000 < 2 ^ fp32.w ∧ (readF fp32 0x7FC00000).isNan = true ∧
    (readF fp32 0x3F800000).isNan = false ∧ fltRel (readF fp32 0) (readF fp32 0x3F800000) = true ∧
    ((readF fp32 0x80000000).isZero = true ∧ (readF fp32 0).isZero = true ∧ (readF fp32 0x80000000).isNeg = true ∧ (readF fp32 0).isNeg = false) := by
  refine ⟨by simp, by simp, ?_, ?_, ?_, ?_, ?_⟩ <;> decide
theorem wit_SpecialFunctions : Spec.value fp32 0x40000000 = some 2 ∧ (2 : ℚ) = (2 : ℚ) ^ (1 : Int) ∧ (2 : ℚ) = ((2 : Int) : ℚ) ∧ (2 : Int).natAbs < 4096 ∧
    Spec.value fp32 0x3F000000 = some ((0 : Int) + 1 / 2 : ℚ) ∧ Spec.value fp32 0xBF800000 = some (-1) ∧ (-1 : ℚ) < 0 := by
  refine ⟨?_, ?_, ?_, by decide, ?_, ?_, ?_⟩ <;> norm_num [Spec.value, Spec.rational, readF, fp32, bitN]
theorem wit_PairValues : Spec.value fp32 0x3F800000 = some 1 ∧ Spec.value fp32 0x7F800000 = none ∧ (0 : Nat) < 5 := by
  refine ⟨?_, ?_, by decide⟩ <;> norm_num [Spec.value, Spec.rational, readF, fp32, bitN]
theorem wit_ReductionValues : let xs : List (Option Nat) := [some 0x3F800000, none]
    xs.length ≤ 2 ^ 1 ∧ (∀ m, m < 1 → 2 ^ m < xs.length) ∧ xs.filterMap id ≠ [] := ⟨by decide, by decide, by decide⟩
/-- A hart that issues an instruction again, with the registers the instruction began with. -/
def hAgain : Hart := { hart0 with reissue := some { word := encode (.vadd (op 1 2 3)), xs := hart0.x, pfxs := 0, held := none, start := none, old := some hart0.v } }
theorem wit_SourcesKept : let d : Dest := { base := 1, regs := 1, width := 32, pick := fun r => r.val }
    (∀ e, hart0.reissue = some e → e.old = none) ∧ (hAgain.reissue.bind (fun e => e.old)) = some hart0.v ∧ d.base + d.regs ≤ 32 ∧ 0 < d.width ∧
    hAgain.regBits % d.width = 0 ∧ hAgain.regBits ≤ 4096 := ⟨by simp [hart0, Hart.blank], rfl, by decide, by decide, by decide, by decide⟩
/-- A hart with an affine load stream of 4 words at the first byte of the scratchpad, whose next element is fetched. -/
def aff0 : AffDesc := ⟨W, 4, [4], [4]⟩
def sFetch : State := { st { hart0 with q := hart0.q.set 0 (.load aff0 0 []) } with schedule := [.fetch 0 0] }
theorem wit_fetchTurn : let t := ({ sFetch with schedule := [], unit := .hart } : State).focus 0
    sFetch.parkIdle = sFetch ∧ sFetch.schedule = .fetch 0 0 :: [] ∧ sFetch.observing = false ∧ t.cur.place = 0 ∧ t.cur.status = .running ∧ t.cur.held = false ∧
    t.cur.lane = none ∧ t.cur.rq 0 = .load aff0 0 [] ∧ 0 < aff0.total ∧ (aff0.addr 0).toNat % 4 = 0 ∧
    (match t.start.loadN (.q 0) (aff0.addr 0) 4 with | (.ok x, u) => x == 0 && u.blocked.isNone && !u.observing | _ => false) = true :=
  ⟨rfl, rfl, rfl, rfl, rfl, rfl, rfl, rfl, by decide, by decide, by decide⟩
/-- Two writes on their way from cluster 0 to the home of one key, of one stream. -/
def posted0 (level : Nat) : Posted := ⟨0, level, 5, 0, some .scalar, 0, .write [⟨2 ^ 51, 0xFF, 7⟩], []⟩
def sNet (n : Nat) (net : List Posted) : State := { s0 with net := net, schedule := [.forward n] }
theorem wit_forward : (sNet 1 [posted0 1, posted0 1]).parkIdle = sNet 1 [posted0 1, posted0 1] ∧ (sNet 1 [posted0 1, posted0 1]).net[1]? = some (posted0 1) ∧
    posted0 1 ∈ (sNet 1 [posted0 1, posted0 1]).net.take 1 ∧ (sNet 0 [posted0 2]).net.take 0 = [] ∧ (sNet 0 [posted0 2]).observing = false ∧
    (∀ k ∈ (posted0 2).act.keys, ({ sNet 0 [posted0 2] with unit := .hart } : State).heldSegment k = false) :=
  ⟨rfl, rfl, List.mem_cons_self, rfl, rfl, by decide⟩
theorem wit_Unacquired : ¬ Spec.Unacquired s0 0 4 [] [] ∧ Spec.Unacquired sCmd 0 4 [1] [] ∧ cmd0.nmus = [] := by
  refine ⟨?_, .inl ⟨1, by decide, cmd0, ?_, by decide, rfl⟩, rfl⟩
  · rintro (⟨t, h, -⟩ | ⟨t, h, -⟩ | ⟨p, h, -⟩) <;> cases h
  · exact List.mem_cons_self
theorem wit_Running : Spec.Running sCopy 0 copyCmd .copy 1 ∧ Spec.Unwatched sCopy ∧ Spec.nextAccess 0 copyCmd 1 1 (.engineCommandComplete 0 1) ∧
    Spec.nextAccess 0 copyCmd 1 1 (.accessPerformed (.engine 0 1)) ∧ (0 : Int) ≤ (Spec.copyByte copyCmd.block copyCmd.base 0 0 0).2 :=
  ⟨⟨rfl, rfl, rfl, rfl, by decide, by decide, by decide⟩, (by intro p hp; cases hp), .inr ⟨by decide, rfl⟩, .inl rfl, by decide⟩
/-- A started gather of one row of one byte, whose index array and rows lie in the boot hart's page. -/
def gathCmd (step : Nat) : Cmd :=
  { cmd0 with engine := .gather, token := 2 ^ 55 + 1, started := true, step := step, block := [0, 0, 0x0000000100000002, 4, 0, 0, 0, 0] ++ List.replicate step 0,
              sptb := (sPC 0).cur.sptb }
def sGath (step : Nat) : State := { sPC 0 with clusters := [(0, { Cluster.blank with pool := [gathCmd step], gatherSeq := 1 })] }
theorem wit_gatherRuns : (∀ k, k < 2 → Spec.GatherBlock (gathCmd k).block ∧ 8 ≤ (gathCmd k).block.length ∧ Spec.Running (sGath k) 0 (gathCmd k) .gather 2) ∧
    (match (sGath 0).engineReach 0 (gathCmd 0) 4 .read with
      | (.ok gi, t) => !t.poisonIn gi 4 && (t.hub.debug).all (fun p => p.2.ctx == 0) &&
          (match t.engineReach 0 { gathCmd 0 with block := (gathCmd 0).block.take 8 ++ [0] } 0 .read with
            | (.ok g, u) => !u.poisoned g && (u.hub.debug).all (fun p => p.2.ctx == 0) | _ => false)
      | _ => false) = true ∧
    (match (sGath 1).engineReach 0 (gathCmd 1) 1 .read with | (.ok g, u) => !u.poisoned g | _ => false) = true := by
  refine ⟨?_, by decide, by decide⟩
  intro k hk
  obtain rfl | rfl : k = 0 ∨ k = 1 := by omega
  all_goals
    exact ⟨⟨by decide, by decide, by decide, by decide, by decide, by decide, by decide, by decide⟩, by decide,
      ⟨rfl, rfl, rfl, rfl, by decide, by decide, by decide⟩⟩
/-- A started BKSMX of one accumulator, of the records at offsets 0 and 64. -/
def smxCmd : Cmd := { cmd0 with engine := .bank, token := bankToken 1, started := true, block := [3, 4, 1, W, W + 64, 20] }
theorem wit_BankMerges : (let s : State := { s0 with clusters := [(0, { Cluster.blank with pool := [smxCmd], bankSeq := 1 })] }
      s.findCmd 0 (bankToken 1) = some smxCmd ∧ ∀ p ∈ s.hub.debug, p.2.ctx = 0) ∧
    Spec.inWindow W 20 ∧ Spec.inWindow (W + 64) 20 ∧ W.toNat % 16 = 0 ∧ W.toNat + 20 ≤ (W + 64).toNat ∧
    smxCmd.block = [3, 4, BitVec.ofNat 64 1, W, W + 64, BitVec.ofNat 64 20] ++ [] ∧ 0 < (W.toNat % 64 + 20 + 63) / 64 :=
  ⟨by decide, ⟨by decide, by decide⟩, ⟨by decide, by decide⟩, by decide, by decide, by decide, by decide⟩
theorem wit_BankPerforms_window : Spec.inWindow W 64 ∧ 0 < (W.toNat % 64 + 64 + 63) / 64 := ⟨⟨by decide, by decide⟩, by decide⟩
theorem wit_MethodValues : let r := MRun.start 0 [] rep0.bytes
    0 ≤ r.pc ∧ [encode (Instr.add 1 2 3)][r.pc.toNat]? = some (encode (.add 1 2 3)) ∧ r.steps < 4096 ∧
    (r.rx 2 + (8#16).signExtend 64).toNat % 8 = 0 ∧ (r.rx 2 + (8#16).signExtend 64).toNat + 8 ≤ r.bytes.length ∧ 0 < (1#16).toInt ∧ r.armed = false ∧
    ({ r with armed := true, lend := 4 } : MRun).lbeg ≤ r.pc ∧ ¬ ((5 : Int) ≤ 4) := by decide
/-- A kernel's vector words in its registers, with FP32 elements. -/
def runV (n vt : Nat) : NmuRun := { run0 with vl := n, vtype := vt, primed := true }
def sRunV (n vt : Nat) : State := { sCh { Nmu.blank with seq := 1, run := some (runV n vt) } with unit := .nmu 0 }
theorem wit_NmuScalars : (sRunV 0 0).unit = .nmu 0 ∧ ((sRunV 0 0).nmu 0).run = some (runV 0 0) ∧ (runV 0 0).steps + 1 < 2 ^ 20 ∧ (runV 0 0).armed = false ∧
    (0 ≤ ((runV 0 0).pc : Int) + (4#16).toInt ∧ ((runV 0 0).pc : Int) + (4#16).toInt < 256) ∧ ((runV 0 0).pc : Int) + (0xFFFF#16).toInt < 0 ∧
    ({ runV 0 0 with armed := true } : NmuRun).armed = true ∧ ({ runV 0 0 with steps := 2 ^ 20 - 1 } : NmuRun).steps + 1 = 2 ^ 20 ∧
    (runV 0 0).cmd.kind = .run ∧ (runV 0 0).wait = none ∧ ((sRunV 0 0).nmu 0).power ≠ .down ∧ (runV 0 0).code.length ≤ 1 ∧
    ((sRunV 0 0).nmu 0).seq < (runV 0 0).cmd.token.toNat % 2 ^ 55 + 256 := by decide
theorem wit_NmuScalars_word : (Instr.ljoin).hasWord = true ∧ (Instr.ljoin).wf = true ∧ ¬ Spec.NearWord .ljoin ∧ Spec.NearWord .halt := by
  refine ⟨by decide, by decide, ?_, .inl rfl⟩
  simp [Spec.NearWord, Spec.scalarTable, Spec.branchTable, Spec.intTable, Spec.intTable1, Spec.floatTable, Spec.reductionTable]
theorem wit_NmuVectors : ((sRunV 8 4).nmu 0).run = some (runV 8 4) ∧ Spec.nearFields (op 3 1 2) false ∧ Spec.nearFields { op 4 1 2 with ta := true } true ∧
    (runV 8 0).vtype % 16 ≤ 3 ∧ (4 ≤ (runV 8 4).vtype % 16 ∧ (runV 8 4).vtype % 16 ≤ 6) ∧ (Instr.vadd (op 3 1 2)).wf = true ∧
    (Instr.vfadd (op 3 1 2)).wf = true ∧ (Instr.vredsum (op 4 1 2)).wf = true ∧ (op 3 1 2).vd.toNat % 2 = 1 ∧
    ¬ ((op 4 1 2).vd.toNat % 2 = 1 ∨ (op 4 1 2).vs1.toNat = (op 4 1 2).vd.toNat + 1 ∨ (op 4 1 2).vs2.toNat = (op 4 1 2).vd.toNat + 1) ∧
    (runV 8 4).vl ≠ 0 ∧ (runV 0 4).vl = 0 ∧ (4 : Nat) ∉ [0, 1, 2, 3] :=
  ⟨by decide, ⟨by decide, by decide, by decide, rfl, by decide, rfl, rfl, rfl, rfl⟩,
    ⟨by decide, by decide, by decide, rfl, by decide, rfl, rfl, rfl, rfl⟩, by decide, by decide, by decide, by decide, by decide, by decide, by decide, by decide,
    by decide, by decide⟩
theorem wit_NmuBags_local : let c : NmuCmd := { bag0 0x2000 with out := some (0, 0, 4) }
    let e : Cmd := { cmd0 with engine := .nmuOut, token := c.token, writes := [(0, 4)] }
    c.out = some (0, 0, 4) ∧ ({ s0 with clusters := [(0, { Cluster.blank with pool := [e] })] } : State).outReady c = true ∧ ¬ Spec.Unacquired s0 c.home 3 c.after c.nmus ∧
    (match (sCh Nmu.blank).nmuBytes 0 (bag0 0x2000) [] .write 4 0x4000 with
      | (.ok ks, t) => ks.length == 4 && ks.all (fun k => match t.target k with | .hbm _ => true | _ => false) | _ => false) = true := by
  refine ⟨rfl, by decide, ?_, by decide⟩
  rintro (⟨t, h, -⟩ | ⟨t, h, -⟩ | ⟨p, h, -⟩) <;> cases h
theorem wit_group : (sGroup .running []).stagesOf (sGroup .running []).cur = 2 ∧
    (let w := encode (Instr.qpush 4 3)
     let h : Hart := { staged (.waiting (.again w)) with place := 2, arrived := some 0 }
     let s : State := { sGroup .running [] with others := [h] }
     h.pushing 3 = some 0 ∧ h.pushing 3 = h.arrived ∧ s.stagesOf h = 2 ∧ clusterOf h.place = clusterOf s.cur.place ∧
     (s.start.drainTo 1 (fun st => match st with | .thread _ => false | _ => true)).pushedBefore 3 = true) := by decide
theorem wit_FoldFree : Spec.FoldFree s0.start ∧ s0.sendOff = s0 ∧ (∀ k ∈ s0.frameSegs s0.cur, s0.heldSegment k = false) :=
  ⟨⟨rfl, rfl, (by intro p hp; cases hp)⟩, rfl, by decide⟩
theorem wit_haltEnd : s0.start.haltEnd.blocked = none ∧ (∀ p ∈ s0.net, p.owner ≠ s0.cur.place) ∧ (∀ h ∈ s0.harts, h.pending = none) ∧
    (∀ o ∈ s0.hub.objects, o.leaving = false) := ⟨rfl, (by intro p hp; cases hp), by decide, by decide⟩
/-- A hart that waits with a stop asked of it. -/
theorem wit_parkIdle : let k : StopAsk := ⟨0x0D, 0, 0, 0, 0, 0, 0⟩
    let s := sDbg { dbg0 with stopped := true } { hart0 with pending := some k, status := .waiting .pool }
    s.others = [] ∧ s.cur.pending = some k ∧ s.cur.more = [] ∧ s.cur.status = .waiting .pool ∧ s.blockOf s.cur.sctx = some (63, { dbg0 with stopped := true }) ∧
    (s.debug 63).stopped = true ∧ s.cur.lane = none := by decide
theorem wit_dropTlb : let s : State := { s0 with tlb := [⟨0, 1, 12, 0, 0, true, true, true⟩], schedule := [.outside (.dropTlb 0)] }
    s.parkIdle = s ∧ s.schedule = .outside (.dropTlb 0) :: [] ∧ 0 < s.tlb.length := ⟨rfl, rfl, by decide⟩
theorem wit_spdm : (sHq HostQueue.blank).hub.booted = true ∧ (sHq HostQueue.blank).hub.linkUp[reg2 1] = true := by decide
theorem wit_failData : (2 : Nat) ^ 51 ≤ 2 ^ 51 + 40 ∧ (2 : Nat) ^ 51 + 40 < 2 ^ 52 ∧ ¬ ((2 : Nat) ^ 51 ≤ 40) := by decide
/-- A message held in a segment that a kernel holds. -/
theorem wit_heldRequest : let s : State := { sHq HostQueue.blank with nmus := [(0, { Nmu.blank with run := some { run0 with window := [2 ^ 51] } })] }
    s.heldSegment (s.paKey (2 ^ 51)) = true ∧ requestWidth (.read (2 ^ 51) 8) = 8 ∧ s.hub.requests = [] := by decide

/-! ### The whole machine -/

theorem wit_LaneModeErrors : (Instr.vadd (op 1 2 3)).hasWord = true ∧ sLane.unit = .hart ∧ sLane.cur.lane.isSome = true ∧ laneMajor (encode (.vadd (op 1 2 3))) = false := by decide
theorem wit_RegionDrops : let s := st { hart0 with regions := [⟨64, true⟩] }
    Executes s ∧ s.cur.lane = none ∧ dropMajor (encode (.vadd (op 1 2 3))) = true ∧ s.cur.dropping = true := ⟨⟨rfl, rfl, rfl⟩, rfl, by decide, by decide⟩
theorem wit_PrefixRefused : let s := st { hart0 with pfxs := 0x8000000000000000 }
    pfxPending s.cur.pfxs = true ∧ (wMajor (encode (.addi 1 2 3))).toNat ≤ 0x09 ∧ dropMajor (encode (.addi 1 2 3)) = false := by decide
theorem wit_NmuExecutes : (Instr.addi 1 2 3).hasWord = true ∧ sRun.unit = .nmu 0 := by decide
theorem wit_DecodeInvertsEncode : (Instr.addi 31 30 0xFFFF).hasWord = true ∧ (Instr.addi 31 30 0xFFFF).wf = true := by decide
/-- An entry of the VIQ, and a hart whose VIQ holds one. -/
def viq0 : VEntry := { word := encode .halt, xs := (sPC 0).cur.x, pfxs := 0, held := none, start := none }
def sViq (w : BitVec 32) (q : ViqItem) : State := { sPC w with schedule := [.issue 0], cur := { (sPC w).cur with viq := [q] } }
theorem wit_QueuedEntries_ep : (sViq 0 (.op 8 viq0)).cur.ready = true ∧ (sViq 0 (.op 8 viq0)).cur.reissue = none ∧ decode viq0.word = .ok .halt ∧
    (sViq 0 (.config 8 1 0 0 32)).cur.viq = .config 8 1 0 0 32 :: [] ∧
    (let h : Hart := { hart0 with ahead := some ⟨12, 0⟩, reissue := some viq0 }
     h.lane = none ∧ h.ahead = some ⟨12, 0⟩ ∧ h.reissue = some viq0) := by decide
theorem wit_QueuedEntries_ap : let w := encode (.vmseq (op 1 2 3))
    let s := sViq w (.op 8 viq0)
    let u := ({ s with schedule := [], unit := .hart } : State).passTurn
    s.schedule = .issue s.cur.place :: [] ∧ s.mayIssue s.cur = true ∧ s.cur.reissue = none ∧ s.cur.lane = none ∧ s.cur.viq ≠ [] ∧ u.breakpoint = none ∧
    u.cur.pending = none ∧ (match u.start.fetch with | (.ok x, t) => x == w && t.blocked.isNone | _ => false) = true ∧
    (0x22 ≤ (wMajor w).toNat ∧ (wMajor w).toNat ≤ 0x31) ∧ readQueueDest w = false ∧ (wMajor (encode .halt)).toNat = 0 := by decide
/-- The hart at the program counter may issue, and its word is fetched. -/
theorem wit_StepRunsDecoded : let s : State := { sPC (encode .halt) with schedule := [.issue 0] }
    let u := Spec.turn s []
    s.schedule = .issue s.cur.place :: [] ∧ s.mayIssue s.cur = true ∧ s.cur.reissue = none ∧ s.cur.viq = [] ∧ u.breakpoint = none ∧ canonical u.cur.ip = true ∧ inLocal u.cur.ip = false ∧
    inReserved u.cur.ip = false ∧
    (let v := u.start.xlateHart u.cur.lowLane u.cur.ip .fetch
     v.1 = .ok 0x14000 ∧ targetOk .plain (v.2.target 0x14000) = true ∧ v.2.cur.noAnswer ≠ some u.cur.ip ∧ v.2.poisonIn (v.2.paKey 0x14000) 4 = false ∧
     (v.2.touchAt u.cur.ip 0x14000).blocked = none ∧ decode (BitVec.ofNat 32 (leNat (Memory.getList v.2.mem (v.2.paKey 0x14000) 4))) = .ok .halt) := by decide
theorem wit_NoStopAsked : Spec.NoStopAsked { sPC (encode .halt) with schedule := [.issue 0] } ∧ (sPC (encode .halt)).cur.sent = [] ∧
    (∀ h ∈ (sPC (encode .halt)).harts, h.late = none) ∧ (sPC (encode .halt)).round ≠ [] ∧
    (let s : State := { sPC 0 with schedule := [.old 0], cur := { (sPC 0).cur with words := [((sPC 0).cur.ip, encode .halt)] } }
     let u := Spec.turn s []
     s.mayIssue s.cur = true ∧ u.cur.words = [(u.cur.ip, encode .halt)] ∧ u.breakpoint = none ∧ decode (encode .halt) = .ok .halt) :=
  ⟨(by unfold Spec.NoStopAsked; decide), rfl, by decide, by decide, by decide⟩
theorem wit_StepRunsDecoded_fails : (match ({ sPC 0 with cur := { (sPC 0).cur with pc := 0x1000 } } : State).start.xlateHart 0 0x1000 .fetch with
      | (.bad c, _) => c == 5 | _ => false) = true ∧ canonical (2 ^ 56) = false ∧ (∃ r, decode 0#32 = .error r ∨ ∃ i, decode 0#32 = .ok i) ∧
    ({ s0 with schedule := [.event .idleEntry] } : State).schedule = .event .idleEntry :: [] := by
  refine ⟨by decide, by decide, ?_, rfl⟩
  cases h : decode 0#32 with
  | ok i => exact ⟨.badField, .inr ⟨i, rfl⟩⟩
  | error r => exact ⟨r, .inl rfl⟩
theorem wit_StepKeepsMemoryCanonical : MemoryCanonical (sPC (encode .halt)) ∧ ∃ t, step { sPC (encode .halt) with schedule := [.issue 0] } = .next t :=
  ⟨by unfold MemoryCanonical; decide, _, rfl⟩
theorem wit_moduleReset : ∃ t, exec .moduleReset State.reset = .next t := ⟨_, rfl⟩


end Sys2Proof.Tests
end

section
/-!
SUPPORT. Status registers (O8): what each number of R20 is, reads as and takes, the checks CSRR, CSRW, CSRS and CSRC make (R3, R21,
R123), and how the four complete or trap.
-/

namespace Sys2Proof.Machine

/-! ### The table of R20 -/

/-- The numbers R20 lists. -/
theorem mem_csrs_numbers {n : Nat} : n ∈ Spec.csrs.map (fun p => p.1) ↔ n ≤ 0x01B ∨ (0x020 ≤ n ∧ n ≤ 0x025) := by
  simp only [Spec.csrs, List.map_append, List.map_cons, List.map_nil, List.mem_append, List.mem_cons, List.not_mem_nil, or_false]
  omega

/-- The access code of every listed number (R3, R20). -/
theorem csrAccess_listed : ∀ n ∈ Spec.csrs.map (fun p => p.1),
    csrAccess n = some (if n ∈ Spec.rwCsrs then .rw else if n = 0x013 then .rw1c else .ro) := by decide

theorem rwCsrs_listed : ∀ n ∈ Spec.rwCsrs, n ∈ Spec.csrs.map (fun p => p.1) := by decide

theorem csrAccess_unlisted {n : Nat} (h : n ∉ Spec.csrs.map (fun p => p.1)) : csrAccess n = none := by
  rw [mem_csrs_numbers] at h
  unfold csrAccess
  split
  iterate 11 exact absurd (by omega) h
  · exact if_neg (by simpa using h)

/-- What a listed register reads as. -/
theorem readCsr_listed (h : Hart) : ∀ p ∈ Spec.csrs, h.readCsr p.1 = p.2 h := by
  simp [Spec.csrs, Hart.readCsr]

/-- The model's check of a value is the one of R23 to R25. -/
theorem csrTakes_iff (h : Hart) (x : Word) : ∀ n ∈ Spec.rwCsrs, (h.csrTakes n x = true ↔ Spec.csrTakes h n x) := by
  simp [Spec.rwCsrs, Hart.csrTakes, Spec.csrTakes, BitVec.lt_def]

/-- A write of an RW register changes that register alone. -/
theorem writeCsr_csrSet (h : Hart) (x : Word) : ∀ n ∈ Spec.rwCsrs, Spec.CsrSet h (h.writeCsr n x) n x := by
  simp [Spec.rwCsrs, Spec.CsrSet, Spec.csrs, Hart.writeCsr]

theorem writeCsr_strikes (h : Hart) (n : Nat) (x : Word) : (h.writeCsr n x).strikes = h.strikes := by
  unfold Hart.writeCsr
  split <;> rfl

/-! ### The number checks of R21 -/

theorem csrCheck_privileged {csr : BitVec 12} (s : State) (k : CsrAccess → Flow) (h : 0x800 ≤ csr.toNat) :
    csrCheck csr s k = .trap { cause := 0x10, tval := csr.setWidth 64 } s := if_pos h

theorem csrCheck_unlisted {csr : BitVec 12} (s : State) (k : CsrAccess → Flow) (h : csr.toNat < 0x800)
    (hn : csr.toNat ∉ Spec.csrs.map (fun p => p.1)) : csrCheck csr s k = illegal s := by
  rw [csrCheck, if_neg (by omega), csrAccess_unlisted hn]

theorem csrCheck_listed {csr : BitVec 12} (s : State) (k : CsrAccess → Flow) (hn : csr.toNat ∈ Spec.csrs.map (fun p => p.1)) :
    csrCheck csr s k = k (if csr.toNat ∈ Spec.rwCsrs then .rw else if csr.toNat = 0x013 then .rw1c else .ro) := by
  have hlow := mem_csrs_numbers.mp hn
  rw [csrCheck, if_neg (by omega), csrAccess_listed _ hn]

/-! ### The effects of CSRR, CSRW, CSRS and CSRC -/

/-- While no recorder is attached a journalled value is the value itself (R348). -/
theorem journalled_unrecorded {s : State} (h : s.recorder s.cur.launch = none) (kind : Nat) (x : Word) :
    s.journalled kind x = (x, s) := by
  simp [State.journalled, State.journal, State.journalOnly, State.journalStop, h]

theorem csrRead_listed (d : Reg) {csr : BitVec 12} {s : State} (hn : csr.toNat ∈ Spec.csrs.map (fun p => p.1))
    (hr : 0x020 ≤ csr.toNat → s.recorder s.cur.launch = none) :
    csrRead d csr s = .done { s with cur := s.cur.wx d (s.cur.readCsr csr.toNat) } := by
  rw [csrRead, csrCheck_listed s _ hn]
  by_cases hj : 0x020 ≤ csr.toNat
  · simp [hj, journalled_unrecorded (hr hj)]
  · simp [hj]

theorem csrWrite_rw (a : Reg) {csr : BitVec 12} (s : State) (hn : csr.toNat ∈ Spec.rwCsrs) :
    csrWrite a csr s = if s.cur.csrTakes csr.toNat (s.cur.rx a)
      then .done { s with cur := s.cur.writeCsr csr.toNat (s.cur.rx a) } else illegal s := by
  rw [csrWrite, csrCheck_listed s _ (rwCsrs_listed _ hn), if_pos hn]

theorem csrWrite_takes {a : Reg} {csr : BitVec 12} {s : State} (hn : csr.toNat ∈ Spec.rwCsrs)
    (ht : Spec.csrTakes s.cur csr.toNat (s.cur.rx a)) :
    csrWrite a csr s = .done { s with cur := s.cur.writeCsr csr.toNat (s.cur.rx a) } := by
  rw [csrWrite_rw a s hn, if_pos ((csrTakes_iff _ _ _ hn).mpr ht)]

theorem csrWrite_notTakes {a : Reg} {csr : BitVec 12} {s : State} (hn : csr.toNat ∈ Spec.rwCsrs)
    (ht : ¬ Spec.csrTakes s.cur csr.toNat (s.cur.rx a)) : csrWrite a csr s = illegal s := by
  rw [csrWrite_rw a s hn, if_neg (fun hk => ht ((csrTakes_iff _ _ _ hn).mp hk))]

theorem csrWrite_discf (a : Reg) {csr : BitVec 12} (s : State) (hn : csr.toNat = 0x013) :
    csrWrite a csr s = .done { s with cur := { s.cur with discf := s.cur.discf &&& ~~~s.cur.rx a } } := by
  rw [csrWrite, csrCheck_listed s _ (by rw [hn]; decide), hn, if_neg (by decide), if_pos rfl]

theorem csrWrite_readOnly (a : Reg) {csr : BitVec 12} (s : State) (hl : csr.toNat ∈ Spec.csrs.map (fun p => p.1))
    (hn : csr.toNat ∉ Spec.rwCsrs) (hd : csr.toNat ≠ 0x013) : csrWrite a csr s = illegal s := by
  rw [csrWrite, csrCheck_listed s _ hl, if_neg hn, if_neg hd]

theorem csrModify_rw (f : Word → Word → Word) (a : Reg) {csr : BitVec 12} (s : State) (hn : csr.toNat ∈ Spec.rwCsrs) :
    csrModify f a csr s = if s.cur.rx a = 0 then .done s
      else if s.cur.csrTakes csr.toNat (f (s.cur.readCsr csr.toNat) (s.cur.rx a))
      then .done { s with cur := s.cur.writeCsr csr.toNat (f (s.cur.readCsr csr.toNat) (s.cur.rx a)) } else illegal s := by
  rw [csrModify, csrCheck_listed s _ (rwCsrs_listed _ hn), if_pos hn]
  simp only [beq_iff_eq]

theorem csrModify_notRw (f : Word → Word → Word) (a : Reg) {csr : BitVec 12} (s : State)
    (hl : csr.toNat ∈ Spec.csrs.map (fun p => p.1)) (hn : csr.toNat ∉ Spec.rwCsrs) : csrModify f a csr s = illegal s := by
  rw [csrModify, csrCheck_listed s _ hl, if_neg hn]
  by_cases hd : csr.toNat = 0x013
  · rw [if_pos hd]
  · rw [if_neg hd]

/-- A register that keeps the value it reads has been set to it. -/
theorem csrSet_self (h : Hart) (n : Nat) : Spec.CsrSet h h n (h.readCsr n) := by
  refine ⟨fun p hp => ?_, rfl, rfl⟩
  rw [← readCsr_listed h p hp]
  split
  · next hn => rw [hn]
  · rfl

/-- CSRS and CSRC leave in the register a value it takes; with an operand of 0 that is the value it had. -/
theorem csrModify_takes {f : Word → Word → Word} (hf : ∀ x, f x 0 = x) (a : Reg) {csr : BitVec 12} {s : State}
    (hn : csr.toNat ∈ Spec.rwCsrs) (ht : Spec.csrTakes s.cur csr.toNat (f (s.cur.readCsr csr.toNat) (s.cur.rx a))) :
    ∃ h, Spec.CsrSet s.cur h csr.toNat (f (s.cur.readCsr csr.toNat) (s.cur.rx a)) ∧ h.strikes = s.cur.strikes ∧
      csrModify f a csr s = .done { s with cur := h } := by
  rw [csrModify_rw f a s hn]
  by_cases h0 : s.cur.rx a = 0
  · rw [if_pos h0, h0, hf]
    exact ⟨s.cur, csrSet_self .., rfl, rfl⟩
  · rw [if_neg h0, if_pos ((csrTakes_iff _ _ _ hn).mpr ht)]
    exact ⟨_, writeCsr_csrSet _ _ _ hn, writeCsr_strikes .., rfl⟩

theorem csrModify_notTakes {f : Word → Word → Word} {a : Reg} {csr : BitVec 12} {s : State} (hn : csr.toNat ∈ Spec.rwCsrs)
    (h0 : s.cur.rx a ≠ 0) (ht : ¬ Spec.csrTakes s.cur csr.toNat (f (s.cur.readCsr csr.toNat) (s.cur.rx a))) :
    csrModify f a csr s = illegal s := by
  rw [csrModify_rw f a s hn, if_neg h0, if_neg (fun h => ht ((csrTakes_iff _ _ _ hn).mp h))]

/-! ### Executing a word of major 0 outside lane mode -/

/-- A hart outside lane mode comes to the effect of an instruction of major 0, which no region drops (R121). -/
theorem perform_major0 {w : BitVec 32} {s : State} {body : State → Flow} (h : PlainHart s) (hw : wMajor w = 0#6) :
    perform w s body = .next (s.start.finish w (body s.start)) :=
  performAs_hart h.1.1.1 (by simp [h.2]) (by simp [dropMajor_of 0#6 hw]) (fun _ => h.1.2)

/-- One that completes with another hart state. -/
theorem perform_major0_done {w : BitVec 32} {s : State} {body : State → Flow} {g : Hart} (h : PlainHart s) (hw : wMajor w = 0#6)
    (hb : body s.start = .done { s.start with cur := g }) (hs : g.strikes = s.cur.strikes) :
    perform w s body = .next ({ s.start with cur := g } : State).completed := by
  rw [perform_major0 h hw, hb, finish_done _ _ rfl (hs.trans h.1.1.2.1)]

/-- One that traps before it changes anything. -/
theorem perform_major0_trap {w : BitVec 32} {s : State} {body : State → Flow} {x : Trap} (h : PlainHart s) (hw : wMajor w = 0#6)
    (hb : body s.start = .trap x s.start) : perform w s body = .next (s.start.trapWord w x s.start) := by
  rw [perform_major0 h hw, hb, finish_trap _ _ _ rfl]

/-! ### A status-register instruction that traps -/

section
variable {s : State} (h : PlainHart s) {x : Trap} {r : Reg} {csr : BitVec 12}
include h

theorem exec_csrr_trap (hb : csrRead r csr s.start = .trap x s.start) :
    exec (.csrr r csr) s = .next (s.start.trapWord (encode (.csrr r csr)) x s.start) := perform_major0_trap h (wMajor_sysWord ..) hb

theorem exec_csrw_trap (hb : csrWrite r csr s.start = .trap x s.start) :
    exec (.csrw r csr) s = .next (s.start.trapWord (encode (.csrw r csr)) x s.start) := perform_major0_trap h (wMajor_sysWord ..) hb

theorem exec_csrs_trap (hb : csrModify (fun old x => old ||| x) r csr s.start = .trap x s.start) :
    exec (.csrs r csr) s = .next (s.start.trapWord (encode (.csrs r csr)) x s.start) := perform_major0_trap h (wMajor_sysWord ..) hb

theorem exec_csrc_trap (hb : csrModify (fun old x => old &&& ~~~x) r csr s.start = .trap x s.start) :
    exec (.csrc r csr) s = .next (s.start.trapWord (encode (.csrc r csr)) x s.start) := perform_major0_trap h (wMajor_sysWord ..) hb

end

/-! ### Reads, writes and traps (R123) -/

theorem csrr_completes : Spec.CsrRead := by
  intro d csr s h hr p hp hc
  have hl : csr.toNat ∈ Spec.csrs.map (fun p => p.1) := hc ▸ List.mem_map_of_mem hp
  rw [← readCsr_listed s.cur p hp, hc]
  exact perform_major0_done h (wMajor_sysWord ..) (csrRead_listed d hl hr) (Hart.wx_strikes ..)

/-- CSRS and CSRC of a value the register takes complete, by their function of the old value and the operand. -/
theorem perform_csrModify_takes {w : BitVec 32} {f : Word → Word → Word} (hf : ∀ x, f x 0 = x) {a : Reg} {csr : BitVec 12} {s : State}
    (h : PlainHart s) (hw : wMajor w = 0#6) (hn : csr.toNat ∈ Spec.rwCsrs)
    (ht : Spec.csrTakes s.cur csr.toNat (f (s.cur.readCsr csr.toNat) (s.cur.rx a))) :
    ∃ g, Spec.CsrSet s.cur g csr.toNat (f (s.cur.readCsr csr.toNat) (s.cur.rx a)) ∧
      perform w s (csrModify f a csr) = .next ({ s.start with cur := g } : State).completed := by
  obtain ⟨g, hset, hstrikes, hflow⟩ := csrModify_takes (s := s.start) hf a hn ht
  exact ⟨g, hset, perform_major0_done h hw hflow hstrikes⟩

theorem csrw_csrs_csrc_complete : Spec.CsrWrite := by
  intro a csr s h
  refine ⟨fun p hp hc hn => ?_, fun hd => ?_⟩
  · rw [← readCsr_listed s.cur p hp]
    rw [hc] at hn ⊢
    refine ⟨fun ht => ⟨_, writeCsr_csrSet s.cur _ _ hn, ?_⟩, ?_, ?_⟩
    · exact perform_major0_done h (wMajor_sysWord ..) (csrWrite_takes (s := s.start) hn ht) (writeCsr_strikes ..)
    · exact perform_csrModify_takes (f := fun old x => old ||| x) (by simp) h (wMajor_sysWord ..) hn
    · exact perform_csrModify_takes (f := fun old x => old &&& ~~~x) (fun x => BitVec.and_allOnes) h (wMajor_sysWord ..) hn
  · exact perform_major0_done h (wMajor_sysWord ..) (csrWrite_discf a s.start hd) rfl

theorem csr_instructions_trap : Spec.CsrTraps := by
  intro r csr s h listed illegal
  refine ⟨fun hp => ?privileged, fun hlow hn => ?unlisted, fun hl hn => ?notRw, fun hn ht => ?badWrite, fun p hp hc hn h0 => ?badModify⟩
  case privileged =>
    have hb := fun k => csrCheck_privileged s.start k hp
    simp only [List.forall_mem_cons, List.not_mem_nil, false_imp_iff, implies_true, and_true]
    exact ⟨exec_csrr_trap h (hb _), exec_csrw_trap h (hb _), exec_csrs_trap h (hb _), exec_csrc_trap h (hb _)⟩
  case unlisted =>
    have hb := fun k => csrCheck_unlisted s.start k hlow hn
    exact ⟨exec_csrr_trap h (hb _), exec_csrw_trap h (hb _), exec_csrs_trap h (hb _), exec_csrc_trap h (hb _)⟩
  case notRw =>
    exact ⟨exec_csrs_trap h (csrModify_notRw _ r s.start hl hn), exec_csrc_trap h (csrModify_notRw _ r s.start hl hn),
      fun hd => exec_csrw_trap h (csrWrite_readOnly r s.start hl hn hd)⟩
  case badWrite =>
    exact exec_csrw_trap h (csrWrite_notTakes (s := s.start) hn ht)
  case badModify =>
    rw [← readCsr_listed s.cur p hp]
    rw [hc] at hn ⊢
    exact ⟨fun ht => exec_csrs_trap h (csrModify_notTakes (s := s.start) hn h0 ht),
      fun ht => exec_csrc_trap h (csrModify_notTakes (s := s.start) hn h0 ht)⟩

end Sys2Proof.Machine

namespace Sys2Proof

/-- Settles O8: the number checks of R21, then the access code of the register and the check of the value. -/
theorem statusRegisters : Obligations.StatusRegisters := ⟨Machine.csrr_completes, Machine.csrw_csrs_csrc_complete, Machine.csr_instructions_trap⟩

end Sys2Proof
end

section
/-!
SUPPORT. The hub's registers (O49): host accesses (R364, R369), contexts and their event counters (R213, R358), semaphores (R357), host
launch queues and the submissions they check (R300, R301), and the management window (R355).
-/

namespace Sys2Proof.Machine

/-! ### Host accesses -/

theorem hostAccess_booted {s : State} (h : s.hub.booted = true) (early : Bool) (f : State → State) :
    s.hostAccess early f = f s.wakeUp := by simp [State.hostAccess, h]

theorem hostAccess_unbooted {s : State} (h : s.hub.booted = false) (f : State → State) : s.hostAccess false f = s.wakeUp := by
  simp [State.hostAccess, h]

theorem holds_iff (s : State) (port n : Nat) : s.holds port n = true ↔ s.hub.sems.toList.getD n none = some port := by
  simp [State.holds]

theorem guarded_held {s : State} {port n : Nat} (h : s.holds port n = true) (what : String) (x : Word) (f : State → State) :
    s.guarded port n what x f = f s := by simp [State.guarded, h]

theorem guarded_free {s : State} {port n : Nat} (h : ¬ s.holds port n = true) (what : String) (x : Word) (f : State → State) :
    s.guarded port n what x f = s.logS what x := by simp [State.guarded, h]

theorem take_ok {s : State} {ok : Bool} (h : ok = true) (what : String) (x : Word) (f : State → State) : s.take what ok x f = f s :=
  if_pos h

theorem take_discarded {s : State} {ok : Bool} (h : ¬ ok = true) (what : String) (x : Word) (f : State → State) :
    s.take what ok x f = s.logS what x := if_neg h

@[simp] theorem fits_iff (x : Word) (n : Nat) : fits x n = true ↔ x.toNat < 2 ^ n := by
  simp [fits, Nat.div_eq_zero_iff]

/-! ### Semaphores (R357) -/

theorem claimSem_held {s : State} {port n : Nat} {p : Nat} (h : s.hub.sems.toList.getD n none = some p) : s.claimSem port n = s := by
  unfold State.claimSem
  rw [h]
  simp

theorem claimSem_free {s : State} {port n : Nat} (hp : port < 2) (hn : n < 16) (h : s.hub.sems.toList.getD n none = none)
    (ht : s.tied port n = false) : s.claimSem port n = s.setSem n (some port) := by
  unfold State.claimSem
  rw [h, ht]
  simp [hp, hn]

theorem claimSem_tied {s : State} {port n : Nat} (hp : port < 2) (hn : n < 16) (h : s.hub.sems.toList.getD n none = none)
    (ht : s.tied port n = true) :
    s.claimSem port n = (s.setSem n (some (s.hub.lastLoser.getD 0))).setHub
      { (s.setSem n (some (s.hub.lastLoser.getD 0))).hub with lastLoser := some (1 - s.hub.lastLoser.getD 0) } := by
  unfold State.claimSem
  rw [h, ht]
  simp [hp, hn]

theorem writeSem_zero {s : State} {port n : Nat} (hn : n < 16) :
    s.writeSem port n 0 = if s.hub.sems.toList.getD n none = some port then s.setSem n none else s := by
  simp [State.writeSem, hn, holds_iff]

theorem writeSem_reserved {s : State} {port n : Nat} {x : Word} (hx : 8 ≤ x.toNat) :
    s.writeSem port n x = s.logS "semaphore discarded" x := by
  have : x.toNat / 8 ≠ 0 := by omega
  simp [State.writeSem, this]

theorem semaphores_spec : Spec.Semaphores := by
  intro port n s hp hn
  refine ⟨fun p h => ?_, fun h ht => ?_, fun h ht => ?_, fun h => ?_, fun h => ?_⟩
  · exact congrArg _ (claimSem_held (s := s.wakeUp) h)
  · exact congrArg _ (claimSem_free (s := s.wakeUp) hp hn h ht)
  · exact congrArg _ (claimSem_tied (s := s.wakeUp) hp hn h ht)
  · exact congrArg _ ((writeSem_zero (s := s.wakeUp) hn).trans (if_pos h))
  · exact congrArg _ ((writeSem_zero (s := s.wakeUp) hn).trans (if_neg h))

/-! ### Contexts and their counters (R213) -/

theorem findContext_ctx {l : List Context} {x : Word} {c : Context} (h : findContext l x = some c) : c.ctx = x := by
  induction l with
  | nil => simp [findContext] at h
  | cons d t ih =>
    simp only [findContext] at h
    split at h
    · next e => cases h; simpa using e
    · exact ih h

theorem findContext_setContext (l : List Context) (c : Context) (x : Word) :
    findContext (setContext l c) x = if c.ctx = x then some c else findContext l x := by
  induction l with
  | nil => simp [setContext, findContext]
  | cons d t ih =>
    simp only [setContext]
    split
    · next e =>
      have hd : d.ctx = c.ctx := by simpa using e
      simp only [findContext, hd]
      split <;> simp_all
    · next e =>
      have hd : d.ctx ≠ c.ctx := by simpa using e
      simp only [findContext, ih]
      by_cases hx : d.ctx = x
      · simp [hx, show c.ctx ≠ x from fun hc => hd (hx.trans hc.symm)]
      · simp [hx]

theorem context_putContext (s : State) (c : Context) (x : Word) :
    (s.putContext c).context x = if c.ctx = x then some c else s.context x := findContext_setContext ..

/-- What the counters read after one of a context is given another value. -/
theorem counter_putContext {s : State} {ctx : Word} {c : Context} (h : s.context ctx = some c) (n : Nat) (y : Word) (k : Word) (m : Nat) :
    (s.putContext { c with counters := put c.counters n y }).counter k m = if k = ctx ∧ m = n then y else s.counter k m := by
  have hc : c.ctx = ctx := findContext_ctx h
  unfold State.counter
  rw [context_putContext]
  by_cases hk : k = ctx
  · subst hk
    simp only [hc, if_true, h, Context.counter, true_and]
    by_cases hm : m = n
    · subst hm; simp [look_put_same]
    · simp [hm, look_put_other _ _ _ _ hm]
  · simp [hc, hk, Ne.symm hk]

@[simp] theorem readCounters_counter (s : State) (ctx k : Word) (m : Nat) : (s.readCounters ctx).counter k m = s.counter k m := rfl

theorem setCounter_context {s : State} {ctx : Word} {c : Context} (h : s.context ctx = some c) (n : Nat) (x : Word) :
    s.setCounter ctx n x = s.putContext { c with counters := put c.counters n x } := by simp [State.setCounter, h]

theorem counter_addCounter {s : State} {ctx : Word} {c : Context} (h : s.context ctx = some c) (n : Nat) (x k : Word) (m : Nat) :
    (s.addCounter ctx n x).counter k m = if k = ctx ∧ m = n then s.counter k m + x else s.counter k m := by
  rw [State.addCounter, readCounters_counter, setCounter_context h, counter_putContext h]
  split
  · next e => rw [e.1, e.2]
  · rfl

theorem addCounter_cur {s : State} {ctx : Word} {c : Context} (h : s.context ctx = some c) (n : Nat) (x : Word) :
    (s.addCounter ctx n x).cur = s.cur := by rw [State.addCounter, setCounter_context h]; rfl

theorem addCounter_mem {s : State} {ctx : Word} {c : Context} (h : s.context ctx = some c) (n : Nat) (x : Word) :
    (s.addCounter ctx n x).mem = s.mem := by rw [State.addCounter, setCounter_context h]; rfl

/-! ### The event-counter window (R358) -/

theorem writeEvadd_now {s : State} {port : Nat} {c : Context} (h : s.context s.hub.evctx = some c)
    (hr : ∀ r ∈ s.hub.requests, r.agent ≠ portAgent port) (x : Word) :
    s.writeEvadd port x = s.addCounter s.hub.evctx s.hub.evidx.toNat x := by
  have hf : s.hub.requests.any (fun r => r.agent == portAgent port) = false := by simpa using hr
  simp [State.writeEvadd, h, hf]

theorem writeEvadd_waits {s : State} {port : Nat} {c : Context} (h : s.context s.hub.evctx = some c)
    (hr : ∃ r ∈ s.hub.requests, r.agent = portAgent port) (x : Word) :
    s.writeEvadd port x =
      s.setHub { s.hub with requests := s.hub.requests ++ [.add (portAgent port) s.hub.evctx s.hub.evidx.toNat x] } := by
  have ht : s.hub.requests.any (fun r => r.agent == portAgent port) = true := by simpa using hr
  simp [State.writeEvadd, h, ht]

theorem writeEvclr_one {s : State} {c : Context} (h : s.context s.hub.evctx = some c) :
    s.writeEvclr 1 = s.putContext { c with counters := put c.counters s.hub.evidx.toNat 0 } := by
  simp [State.writeEvclr, h]

theorem exec_evadd_unbooted {s : State} (hb : s.hub.booted = false) (port : Nat) (x : Word) :
    exec (.evadd port x) s = .next s.wakeUp := congrArg _ (hostAccess_unbooted hb _)

theorem exec_evclr_unbooted {s : State} (hb : s.hub.booted = false) (port : Nat) (x : Word) :
    exec (.evclr port x) s = .next s.wakeUp := congrArg _ (hostAccess_unbooted hb _)

section
variable {s : State} {port : Nat} (hb : s.hub.booted = true)
include hb

theorem exec_evadd_guarded (x : Word) :
    exec (.evadd port x) s = .next (s.wakeUp.guarded port 1 "EVADD discarded" x (fun s => s.writeEvadd port x)) :=
  congrArg _ (hostAccess_booted hb ..)

theorem exec_evclr_guarded (x : Word) :
    exec (.evclr port x) s = .next (s.wakeUp.guarded port 1 "EVCLR discarded" x (fun s => s.writeEvclr x)) :=
  congrArg _ (hostAccess_booted hb ..)

end

/-! ### What a read of the hub can change -/

theorem markLeaf_reached (s : State) (key : Nat) (k : AKind) : Reached s (s.markLeaf key k) := ⟨_, _, _, _, _, _, _, _, _, _, rfl⟩

theorem wakeTrail_reached (tr : List (Nat × Nat × Nat)) (s : State) : Reached s (tr.foldl (fun s x => s.wakeKey x.2.2) s) := by
  induction tr generalizing s with
  | nil => exact .refl s
  | cons x t ih => exact (wakeKey_reached s x.2.2).trans (ih _)

theorem hubReach_reached (s : State) (sptb a : Word) (n : Nat) (k : AKind) : Reached s (s.hubReach sptb a n k).2 := by
  unfold State.hubReach
  split
  · exact .refl s
  · dsimp only
    split
    · exact .refl s
    · have hw := wakeTrail_reached (s.trail sptb a k) s
      split
      · exact hw
      · exact hw
      · next e _ _ _ _ _ _ =>
        have hm := hw.trans (markLeaf_reached _ e k)
        split
        · exact hm
        · split
          · exact hm
          · exact (hm.trans (wakeKey_reached ..)).trans (noteAt_reached ..)

theorem hubReads_reached (sptb : Word) (n k : Nat) (a : Word) (s : State) : Reached s (s.hubReads sptb n k a).2 := by
  induction k generalizing a s with
  | zero => exact .refl s
  | succ k ih =>
    have hr := hubReach_reached s sptb a n .read
    unfold State.hubReads
    split
    · next t e =>
      rw [e] at hr
      have hn := ih (a + BitVec.ofNat 64 n) t
      split
      · next e' => rw [e'] at hn; exact hr.trans hn
      · exact hr.trans hn
    · next e => rw [e] at hr; exact hr

theorem submitRead_reached (s : State) (sptb a : Word) : Reached s (s.submitRead sptb a).2 := by
  have hr := hubReads_reached sptb 8 48 a s
  unfold State.submitRead
  split <;> (next e => rw [e] at hr; exact hr)

namespace Reached
variable {s t : State} (h : Reached s t)
include h

theorem launches : t.hub.launches = s.hub.launches := by obtain ⟨_, _, _, _, _, _, _, _, _, _, rfl⟩ := h; rfl
theorem hostQueue (n : Nat) : t.hostQueue n = s.hostQueue n := by obtain ⟨_, _, _, _, _, _, _, _, _, _, rfl⟩ := h; rfl
theorem counter (c : Word) (n : Nat) : t.counter c n = s.counter c n := by obtain ⟨_, _, _, _, _, _, _, _, _, _, rfl⟩ := h; rfl
theorem checkRecord (c : Word) (b : List Word) : t.checkRecord c b = s.checkRecord c b := by
  obtain ⟨_, _, _, _, _, _, _, _, _, _, rfl⟩ := h; rfl

end Reached

/-! ### The replayed object of a launch queue (R300, R335) -/

theorem find?_setLog (l : List QueueLog) (x : QueueLog) : (setLog l x).find? (fun y => y.queue == x.queue) = some x := by
  induction l with
  | nil => simp [setLog]
  | cons y t ih =>
    simp only [setLog]
    split
    · simp
    · next e => simp [e, ih]

theorem queueLog_setQueueLog (s : State) {x : QueueLog} {q : Nat} (h : x.queue = q) : (s.setQueueLog x).queueLog q = x := by
  subst h
  simp [State.queueLog, State.setQueueLog, find?_setLog]

theorem queueLog_queue (s : State) (q : Nat) : (s.queueLog q).queue = q := by
  unfold State.queueLog
  dsimp only
  cases h : s.hub.qlogs.find? (fun x => x.queue == q) with
  | none => rfl
  | some x => simpa using List.find?_some h

/-- The position of an update entered last is the end of the queue's log. -/
theorem enter_tail (s : State) (q : Nat) (u : QUpdate) : ((s.enter q u).queueLog q).tail = (s.queueLog q).after u := by
  unfold State.enter
  rw [queueLog_setQueueLog]
  exact queueLog_queue s q

/-! ### Accepting a launch (R300) -/

/-- Of a state only the ports' records and the debug blocks change. -/
def RecordsOnly (s t : State) : Prop := ∃ ps ds, t = s.setHub { s.hub with ports := ps, debug := ds }

theorem record_recordsOnly (s : State) (ctx : Word) (q seq : Nat) : RecordsOnly s (s.record ctx q seq) := by
  unfold State.record
  split
  · exact ⟨_, _, rfl⟩
  · exact ⟨_, _, rfl⟩

/-- A record accepted into host launch queue n. -/
structure Accepted (s : State) (n : Nat) (a c : Word) (r : LaunchRec) (l : Launch) (t : State) : Prop where
  launches : t.hub.launches = s.hub.launches ++ [l]
  queue : l.queue = n
  seq : l.seq = (s.hostQueue n).seq + 1
  addr : l.addr = a
  ctx : l.ctx = c
  lr : l.lr = r
  notDone : l.done = none
  eligible : l.eligible = true ↔ ∀ w ∈ r.waits, w.2 ≤ s.counter c w.1
  hostQueue : t.hostQueue n = { s.hostQueue n with seq := (s.hostQueue n).seq + 1 }
  tail : (t.queueLog n).tail = ((s.hostQueue n).seq + 1, 0)
  mem : t.mem = s.mem
  cur : t.cur = s.cur

theorem waitsHold_iff (s : State) (l : Launch) : s.waitsHold l = true ↔ ∀ w ∈ l.lr.waits, w.2 ≤ s.counter l.ctx w.1 := by
  simp [State.waitsHold]

theorem acceptLaunch_host (s : State) {n : Nat} (hn : n < 64) (a c sptb : Word) (r : LaunchRec) (reserved : Option Nat) :
    ∃ l, Accepted s n a c r l (s.acceptLaunch n a c sptb r reserved).2 := by
  let u := s.setHostQueue n { s.hostQueue n with seq := (s.hostQueue n).seq + 1 }
  have hrec : RecordsOnly u (if r.record then u.record c n ((s.hostQueue n).seq + 1) else u) := by
    split
    · exact record_recordsOnly ..
    · exact ⟨_, _, rfl⟩
  obtain ⟨ps, ds, he⟩ := hrec
  simp only [State.acceptLaunch, hn, if_true]
  rw [he]
  exact ⟨_, {
    launches := rfl, queue := rfl, seq := rfl, addr := rfl, ctx := rfl, lr := rfl, notDone := rfl
    eligible := waitsHold_iff u _
    hostQueue := State.hostQueue_setHostQueue s n _
    tail := enter_tail _ n (.accept ((s.hostQueue n).seq + 1))
    mem := rfl, cur := rfl }⟩

/-! ### Checking a submission (R299 to R301) -/

theorem refuseSubmit_hostQueue (s : State) (n reason : Nat) : (s.refuseSubmit n reason).hostQueue n =
    { s.hostQueue n with busy := false, refused := true, reason := reason, paged := [] } := State.hostQueue_setHostQueue ..

theorem submit_full {s : State} {n : Nat} (h : 64 ≤ s.heldLaunches n) : s.submit n = s.refuseSubmit n reasonFull := by
  simp [State.submit, h]

theorem submit_misaligned {s : State} {n : Nat} (h : s.heldLaunches n < 64) (ha : (s.hostQueue n).sub.toNat % 64 ≠ 0) :
    s.submit n = s.refuseSubmit n reasonBadRec := by
  simp [State.submit, Nat.not_le.mpr h, ha]

section
variable {s u : State} {n : Nat} {c : Context} {ds : List Word} (h : s.heldLaunches n < 64) (ha : (s.hostQueue n).sub.toNat % 64 = 0)
  (hc : s.context (s.hostQueue n).ctx = some c) (hr : s.submitRead c.sptb (s.hostQueue n).sub = (.ok ds, u))
include h ha hc hr

theorem submit_badRecord (hk : u.checkRecord (s.hostQueue n).ctx ds = none) : s.submit n = u.refuseSubmit n reasonBadRec := by
  simp [State.submit, Nat.not_le.mpr h, ha, hc, State.sptbOf, hr, hk]

theorem submit_record {r : LaunchRec} (hk : u.checkRecord (s.hostQueue n).ctx ds = some r) :
    let t := (u.acceptLaunch n (s.hostQueue n).sub (s.hostQueue n).ctx c.sptb r none).2
    s.submit n = t.setHostQueue n { t.hostQueue n with busy := false, refused := false, reason := 0, paged := [] } := by
  simp [State.submit, Nat.not_le.mpr h, ha, hc, State.sptbOf, hr, hk]

end

/-! ### Host launch queues (R301) -/

theorem claimQueue_free {s : State} {port n : Nat} (hp : port < 2) (hn : n < 64) (h : (s.hostQueue n).owner = none) :
    s.claimQueue port n = s.setHostQueue n { s.hostQueue n with owner := some port } := by
  simp [State.claimQueue, hp, hn, h]

theorem claimQueue_owned {s : State} {port n : Nat} (h : (s.hostQueue n).owner ≠ none) : s.claimQueue port n = s := by
  simp [State.claimQueue, h]

theorem ownsQueue_iff (s : State) (port n : Nat) : s.ownsQueue port n = true ↔ (s.hostQueue n).owner = some port := by
  simp [State.ownsQueue]

theorem writeHqown_owner {s : State} {port n : Nat} (h : (s.hostQueue n).owner = some port) :
    s.writeHqown port n 0 = s.setHostQueue n { s.hostQueue n with owner := none } := by
  simp [State.writeHqown, (ownsQueue_iff s port n).mpr h]

theorem writeHqown_other {s : State} {port n : Nat} (h : (s.hostQueue n).owner ≠ some port) (x : Word) :
    s.writeHqown port n x = s.logS "HQOWN discarded" (BitVec.ofNat 64 n) := by
  simp [State.writeHqown, State.ownsQueue, h]

theorem writeHqsub_discarded {s : State} {port n : Nat} (h : s.hub.booted = false ∨ (s.hostQueue n).owner ≠ some port) (a : Word) :
    s.writeHqsub port n a = s.logS "HQSUB discarded" a := by
  unfold State.writeHqsub
  refine if_pos ?_
  simp only [Bool.or_eq_true, Bool.not_eq_true', State.ownsQueue, beq_eq_false_iff_ne]
  exact h.symm

section
variable {s : State} {port n : Nat} (hb : s.hub.booted = true) (ho : (s.hostQueue n).owner = some port)
include hb ho

theorem writeHqsub_waits (h : (s.hostQueue n).busy = true ∨ (s.hostQueue n).waiting ≠ []) (a : Word) :
    s.writeHqsub port n a = s.setHostQueue n { s.hostQueue n with waiting := (s.hostQueue n).waiting ++ [a] } := by
  have hw : ((s.hostQueue n).busy || !(s.hostQueue n).waiting.isEmpty) = true := by simpa using h
  simp only [State.writeHqsub, (ownsQueue_iff s port n).mpr ho, hb, hw, Bool.not_true, Bool.or_self, Bool.false_eq_true, if_false, if_true]

theorem writeHqsub_checks (hq : (s.hostQueue n).busy = false) (hw : (s.hostQueue n).waiting = []) (a : Word) :
    s.writeHqsub port n a = (s.setHostQueue n { s.hostQueue n with sub := a, paged := [] }).submit n := by
  simp [State.writeHqsub, (ownsQueue_iff s port n).mpr ho, hb, hq, hw]

end

/-- A submission that a port's write of HQSUB begins to check. -/
def State.submitted (s : State) (n : Nat) (a : Word) : State :=
  s.wakeUp.setHostQueue n { s.hostQueue n with sub := a, paged := [] }

@[simp] theorem submitted_hostQueue (s : State) (n : Nat) (a : Word) :
    (s.submitted n a).hostQueue n = { s.hostQueue n with sub := a, paged := [] } := State.hostQueue_setHostQueue ..

@[simp] theorem submitted_context (s : State) (n : Nat) (a x : Word) : (s.submitted n a).context x = s.context x := rfl
@[simp] theorem submitted_heldLaunches (s : State) (n m : Nat) (a : Word) : (s.submitted n a).heldLaunches m = s.heldLaunches m := rfl

/-- What a queue shows after a refusal (R301). -/
def Refused (s : State) (n reason : Nat) (t : State) : Prop :=
  (t.hostQueue n).refused = true ∧ (t.hostQueue n).reason = reason ∧ (t.hostQueue n).busy = false ∧
  (t.hostQueue n).seq = (s.hostQueue n).seq ∧ t.hub.launches = s.hub.launches

theorem refuseSubmit_refused {s u : State} {n : Nat} (reason : Nat) (hs : (u.hostQueue n).seq = (s.hostQueue n).seq)
    (hl : u.hub.launches = s.hub.launches) : Refused s n reason (u.refuseSubmit n reason) := by
  unfold Refused
  rw [refuseSubmit_hostQueue]
  exact ⟨rfl, rfl, rfl, hs, hl⟩

theorem exec_hqsubSubmit_checks {s : State} {port n : Nat} (hn : n < 64) (hb : s.hub.booted = true)
    (ho : (s.hostQueue n).owner = some port) (hq : (s.hostQueue n).busy = false) (hw : (s.hostQueue n).waiting = []) (a : Word) :
    exec (.hqsubSubmit port n a) s = .next ((s.submitted n a).submit n) := by
  have he : exec (.hqsubSubmit port n a) s = .next (s.wakeUp.writeHqsub port n a) := congrArg _ (if_pos hn)
  rw [he, writeHqsub_checks (s := s.wakeUp) hb ho hq hw]
  rfl

/-- Reading the record of a submission leaves the queue as it is. -/
theorem submitRead_submitted {s u : State} {n : Nat} {a sptb : Word} {ds : List Word}
    (hr : (s.submitted n a).submitRead sptb a = (.ok ds, u)) :
    Reached (s.submitted n a) u ∧ u.hostQueue n = { s.hostQueue n with sub := a, paged := [] } := by
  have hu : Reached (s.submitted n a) u := by simpa [hr] using submitRead_reached (s.submitted n a) sptb a
  exact ⟨hu, (hu.hostQueue n).trans (submitted_hostQueue s n a)⟩

section
variable {s : State} {n : Nat} (a : Word) {c : Context} {ds : List Word} {u : State}
  (h : s.heldLaunches n < 64) (ha : a.toNat % 64 = 0) (hc : s.context (s.hostQueue n).ctx = some c)
  (hr : (s.submitted n a).submitRead c.sptb a = (.ok ds, u))
include h ha hc hr

theorem submitted_badRecord (hk : s.checkRecord (s.hostQueue n).ctx ds = none) : Refused s n 2 ((s.submitted n a).submit n) := by
  obtain ⟨hu, hq⟩ := submitRead_submitted hr
  rw [submit_badRecord (by simpa using h) (by simpa using ha) (by simpa using hc) (by simpa using hr)
    (by simpa using (hu.checkRecord ..).trans hk)]
  exact refuseSubmit_refused 2 (by rw [hq]) hu.launches

theorem submitted_record (hn : n < 64) {r : LaunchRec} (hk : s.checkRecord (s.hostQueue n).ctx ds = some r) :
    ∃ l t, Accepted u n a (s.hostQueue n).ctx r l t ∧ (s.submitted n a).submit n =
      t.setHostQueue n { t.hostQueue n with busy := false, refused := false, reason := 0, paged := [] } := by
  obtain ⟨hu, hq⟩ := submitRead_submitted hr
  obtain ⟨l, hl⟩ := acceptLaunch_host u hn a (s.hostQueue n).ctx c.sptb r none
  refine ⟨l, _, hl, ?_⟩
  rw [submit_record (by simpa using h) (by simpa using ha) (by simpa using hc) (by simpa using hr)
    (by simpa using (hu.checkRecord ..).trans hk)]
  simp

end

theorem hostQueues_spec : Spec.HostQueues := by
  intro port n addr s hp hn
  have hclaim : exec (.hqownClaim port n) s = .next (s.hostAccess false (fun s => s.claimQueue port n)) := rfl
  have hrelease : exec (.hqownRelease port n) s = .next (s.hostAccess false (fun s => s.writeHqown port n 0)) := by
    show Host.Outcome.next (s.hostAccess false (fun s => if n < 64 then s.writeHqown port n 0 else s)) = _
    simp only [hn, if_true]
  have hsubmit : exec (.hqsubSubmit port n addr) s = .next (s.wakeUp.writeHqsub port n addr) := congrArg _ (if_pos hn)
  refine ⟨fun hb => ?unbooted, fun hb ho => ?claim, fun hb ho => ?owned, fun hb ho => ?release, fun hb ho => ?discarded,
    fun ho hb hw => ?waits, fun ho hb hq hw => ?checks⟩
  case unbooted =>
    rw [hclaim, hrelease, hsubmit, hostAccess_unbooted hb, hostAccess_unbooted hb]
    exact ⟨rfl, rfl, _, congrArg _ (writeHqsub_discarded (s := s.wakeUp) (.inl hb) addr)⟩
  case claim =>
    rw [hclaim, hostAccess_booted hb, claimQueue_free (s := s.wakeUp) hp hn ho]
    rfl
  case owned =>
    rw [hclaim, hostAccess_booted hb, claimQueue_owned (s := s.wakeUp) ho]
  case release =>
    rw [hrelease, hostAccess_booted hb, writeHqown_owner (s := s.wakeUp) ho]
    rfl
  case discarded =>
    rw [hrelease, hsubmit, hostAccess_booted hb]
    exact ⟨_, _, congrArg _ (writeHqown_other (s := s.wakeUp) ho 0), _, congrArg _ (writeHqsub_discarded (s := s.wakeUp) (.inr ho) addr)⟩
  case waits =>
    rw [hsubmit, writeHqsub_waits (s := s.wakeUp) hb ho hw]
    rfl
  case checks =>
    rw [exec_hqsubSubmit_checks hn hb ho hq hw]
    refine ⟨fun hfull => ?full, fun hroom ha => ?misaligned, fun c ds u hroom ha hc hr => ⟨fun hk => ?badRecord, fun r hk => ?accepted⟩⟩
    case full =>
      exact ⟨_, congrArg _ (submit_full (s := s.submitted n addr) hfull), refuseSubmit_refused 1 (by simp) rfl⟩
    case misaligned =>
      exact ⟨_, congrArg _ (submit_misaligned (s := s.submitted n addr) hroom (by simpa using ha)), refuseSubmit_refused 2 (by simp) rfl⟩
    case badRecord =>
      exact ⟨_, rfl, submitted_badRecord addr hroom ha hc hr hk⟩
    case accepted =>
      obtain ⟨hu, hqueue⟩ := submitRead_submitted hr
      obtain ⟨l, t, hl, ht⟩ := submitted_record addr hroom ha hc hr hn hk
      have hseq : (u.hostQueue n).seq = (s.hostQueue n).seq := by rw [hqueue]
      have hlaunches : u.hub.launches = s.hub.launches := hu.launches
      have hcounter (w : Word) (k : Nat) : u.counter w k = s.counter w k := hu.counter w k
      refine ⟨_, l, congrArg _ ht, ?_⟩
      rw [State.hostQueue_setHostQueue, hl.hostQueue, ← hseq, ← hlaunches]
      refine ⟨hl.launches, hl.queue, hl.seq, hl.addr, hl.ctx, hl.lr, hl.notDone, ?_, rfl, hl.tail, rfl, rfl, hl.mem, hl.cur.trans hu.cur⟩
      simpa only [hcounter] using hl.eligible

/-! ### The management window (R355) -/

/-! What a write at an offset does, once firmware runs. -/

theorem windowWrite_pthr {s : State} (hb : s.hub.booted = true) (port : Nat) (x : Word) :
    s.windowWrite port 0x50000 x = s.guarded port 2 "PTHR discarded" x
      (fun s => s.take "PTHR discarded" (fits x 3) x (fun s => s.setHub { s.hub with pthr := x.toNat })) := by
  simp [State.windowWrite, presented, hb]

theorem windowWrite_channel {s : State} (hb : s.hub.booted = true) (port : Nat) (x : Word) :
    s.windowWrite port 0x60000 x = s.guarded port 2 "channel register discarded" x (fun s =>
      s.take "channel register discarded" (fits x 8) x (fun s =>
        s.setNmu 0 { s.nmu 0 with wn := x.extractLsb' 4 4, wc := x.extractLsb' 0 4 })) := by
  simp [State.windowWrite, presented, hb]

theorem windowWrite_pwrlim {s : State} (hb : s.hub.booted = true) (port : Nat) (x : Word) :
    s.windowWrite port 0x80000 x = s.guarded port 4 "PWRLIM discarded" x (fun s => s.writePwrlim x) := by
  simp [State.windowWrite, presented, hb]

theorem windowWrite_evctx {s : State} (hb : s.hub.booted = true) (port : Nat) (x : Word) :
    s.windowWrite port 0x90000 x = s.guarded port 1 "event window discarded" x (fun s => s.writeEventReg port 0x00 x) := by
  simp [State.windowWrite, presented, hb]

theorem windowWrite_evidx {s : State} (hb : s.hub.booted = true) (port : Nat) (x : Word) :
    s.windowWrite port 0x90008 x = s.guarded port 1 "event window discarded" x (fun s => s.writeEventReg port 0x08 x) := by
  simp [State.windowWrite, presented, hb]

theorem windowWrite_semview {s : State} (hb : s.hub.booted = true) (port : Nat) (x : Word) :
    s.windowWrite port 0x80 x = s.take "SEMVIEW discarded" (fits x 32) x (fun s => s) := by
  simp [State.windowWrite, presented, hb]

theorem windowWrite_semaphore {s : State} (port : Nat) {o : Nat} (ho : o < 0x80) (h8 : o % 8 = 0) (x : Word) :
    s.windowWrite port o x = s.writeSem port (o / 8) x := by
  simp [State.windowWrite, presented, ho, h8]

theorem windowWrite_unaligned {s : State} (port : Nat) {o : Nat} (h8 : o % 8 ≠ 0) (x : Word) : s.windowWrite port o x = s := by
  simp [State.windowWrite, h8]

/-- Between PTHR and the channel registers the window names no register. -/
theorem windowWrite_gap {s : State} (port : Nat) {o : Nat} (hlo : 0x50008 ≤ o) (hhi : o < 0x60000) (x : Word) :
    s.windowWrite port o x = s := by
  unfold State.windowWrite
  simp only [Bool.and_eq_true, decide_eq_true_eq, beq_iff_eq]
  refine ite_eq_left_iff.mpr (fun _ => ?_)
  iterate 16 rw [if_neg (by omega)]

/-- REGISTER_WRITE by a host port. -/
theorem exec_registerWrite {port : Nat} (hp : port < 2) (o : Nat) (x : Word) (s : State) :
    exec (.registerWrite port o x) s = .next (s.wakeUp.windowWrite port o x) := congrArg _ (if_pos hp)

theorem managementWindow_spec : Spec.ManagementWindow := by
  refine ⟨fun port x s c => ⟨fun hb => ?unbooted, fun hb hm => ?discarded, fun hb hm hc _ hr => ?waits,
      fun hb hm hc _ hr => ⟨?add, ?clear⟩⟩, fun port x s hp hb => ?registers⟩
  case unbooted =>
    have hb : s.hub.booted = false := by simpa using hb
    exact ⟨exec_evadd_unbooted hb port x, exec_evclr_unbooted hb port x⟩
  case discarded =>
    have hm : ¬ s.wakeUp.holds port 1 = true := fun h => hm ((holds_iff s port 1).mp h)
    rw [exec_evadd_guarded hb, exec_evclr_guarded hb, guarded_free hm, guarded_free hm]
    exact ⟨_, _, rfl, rfl⟩
  case waits =>
    rw [exec_evadd_guarded hb, guarded_held ((holds_iff s.wakeUp port 1).mpr hm), writeEvadd_waits (s := s.wakeUp) hc hr]
    rfl
  case add =>
    rw [exec_evadd_guarded hb, guarded_held ((holds_iff s.wakeUp port 1).mpr hm), writeEvadd_now (s := s.wakeUp) hc hr]
    exact ⟨_, rfl, addCounter_cur (s := s.wakeUp) hc _ x, addCounter_mem (s := s.wakeUp) hc _ x, counter_addCounter (s := s.wakeUp) hc _ x⟩
  case clear =>
    rw [exec_evclr_guarded hb, guarded_held ((holds_iff s.wakeUp port 1).mpr hm), writeEvclr_one (s := s.wakeUp) hc]
    exact ⟨_, rfl, rfl, rfl, counter_putContext (s := s.wakeUp) hc _ 0⟩
  intro u holds
  have hw (o : Nat) : exec (.registerWrite port o x) s = .next (u.windowWrite port o x) := exec_registerWrite hp o x s
  have hold {n : Nat} (h : holds n) : u.holds port n = true := (holds_iff u port n).mpr h
  have hfree {n : Nat} (h : ¬ holds n) : ¬ u.holds port n = true := fun k => h ((holds_iff u port n).mp k)
  have hb : u.hub.booted = true := hb
  refine ⟨fun h hx => ?pthr, fun h hlo hhi => ?pwrlim, fun h hx => ?evctx, fun h hx => ?evidx, fun o n ho h => ?noSemaphore,
    fun hx => ?semview, fun o ho => ?reserved, fun o ho => ?noRegister⟩
  case pthr =>
    rw [hw, windowWrite_pthr hb, guarded_held (hold h), take_ok ((fits_iff x 3).mpr hx)]
    rfl
  case pwrlim =>
    rw [hw, windowWrite_pwrlim hb, guarded_held (hold h), State.writePwrlim, take_ok (by simp [hlo, hhi])]
    rfl
  case evctx =>
    rw [hw, windowWrite_evctx hb, guarded_held (hold h), State.writeEventReg, take_ok ((fits_iff x 32).mpr hx)]
    rfl
  case evidx =>
    rw [hw, windowWrite_evidx hb, guarded_held (hold h), State.writeEventReg, take_ok ((fits_iff x 12).mpr hx)]
    rfl
  case noSemaphore =>
    rw [hw]
    obtain ⟨rfl, rfl⟩ | ⟨rfl, rfl⟩ | ⟨rfl, rfl⟩ | ⟨rfl, rfl⟩ := ho
    · exact ⟨_, congrArg _ ((windowWrite_pthr hb port x).trans (guarded_free (hfree h) ..))⟩
    · exact ⟨_, congrArg _ ((windowWrite_pwrlim hb port x).trans (guarded_free (hfree h) ..))⟩
    · exact ⟨_, congrArg _ ((windowWrite_evctx hb port x).trans (guarded_free (hfree h) ..))⟩
    · exact ⟨_, congrArg _ ((windowWrite_channel hb port x).trans (guarded_free (hfree h) ..))⟩
  case semview =>
    rw [hw, windowWrite_semview hb, take_ok ((fits_iff x 32).mpr hx)]
  case reserved =>
    rw [hw]
    obtain ⟨rfl, hx⟩ | ⟨ho, h8, hx⟩ := ho
    · have hx : ¬ fits x 32 = true := fun k => absurd ((fits_iff x 32).mp k) (by omega)
      exact ⟨_, congrArg _ ((windowWrite_semview hb port x).trans (take_discarded hx ..))⟩
    · exact ⟨_, congrArg _ ((windowWrite_semaphore port ho h8 x).trans (writeSem_reserved hx))⟩
  case noRegister =>
    rw [hw]
    obtain h8 | ⟨hlo, hhi⟩ := ho
    · rw [windowWrite_unaligned port h8]
    · rw [windowWrite_gap port hlo hhi]

end Sys2Proof.Machine

namespace Sys2Proof

/-- Settles O49: what each access does once it is presented, and for a submission that reading the record changes none of what the
queue and the launches hold. -/
theorem hubRegisters : Obligations.HubRegisters :=
  ⟨Machine.semaphores_spec, Machine.hostQueues_spec, Machine.managementWindow_spec⟩

end Sys2Proof
end

section
/-!
SUPPORT. Traps and the return from their handlers (O9): what a taken trap leaves in the hart (R31), how a word that traps ends, what the EP
does with an entry of the VIQ (R32, R130) and what the AP puts behind the entries that stand there (R63, R135).
-/

namespace Sys2Proof.Machine

/-! ### Taking a trap (R31) -/

theorem ip_noLane {h : Hart} (hl : h.lane = none) : h.ip = h.pc := by simp [Hart.ip, hl]

section
variable {h : Hart} (hl : h.lane = none) (c : Nat) (v : Word)
include hl

/-- Outside lane mode the trap of a scalar instruction is recorded as it is (R29, R120). -/
theorem recordTrap_scalar : h.recordTrap { cause := c, tval := v } = { h with
    tcause := BitVec.ofNat 64 c, tval := v, tpc := h.pc, noAnswer := none, asked := none, arrived := none, passed := [] } := by
  simp [Hart.recordTrap, tcauseWord, tvalWord, hl, ip_noLane hl]

theorem takeTrap_entersHandler (entry : Option VEntry) (hc : handlerCause c = true) (ht : h.tvec ≠ 0) (hh : h.handler = none) :
    Spec.EntersHandler h (h.takeTrap { cause := c, tval := v } entry) c v := by
  have hif : (handlerCause c && h.tvec != 0 && h.handler.isNone) = true := by
    rw [hc, hh, bne_iff_ne.mpr ht]
    rfl
  simp only [Spec.EntersHandler, Hart.takeTrap, hif, if_true, recordTrap_scalar hl, Option.isSome_some, true_and]
  rintro k ⟨⟩
  exact ⟨rfl, rfl, rfl, rfl, rfl⟩

theorem takeTrap_goesToSupervisor (entry : Option VEntry) (hn : ¬ (handlerCause c = true ∧ h.tvec ≠ 0 ∧ h.handler = none)) :
    Spec.GoesToSupervisor h (h.takeTrap { cause := c, tval := v } entry) c v := by
  have hif : ¬ (handlerCause c && h.tvec != 0 && h.handler.isNone) = true := by simpa [and_assoc] using hn
  simp only [Spec.GoesToSupervisor, Hart.takeTrap, hif, recordTrap_scalar hl]
  exact ⟨rfl, rfl, rfl, rfl, rfl, rfl, rfl, rfl, rfl, rfl⟩

end

/-- A trap leaves no watchpoint match to an instruction that had none. -/
theorem takeTrap_strikes {h : Hart} (hs : h.strikes = []) (t : Trap) (entry : Option VEntry) : (h.takeTrap t entry).strikes = [] := by
  unfold Hart.takeTrap
  dsimp only
  split
  · rfl
  · exact hs

theorem takeTrap_sctx (h : Hart) (t : Trap) (entry : Option VEntry) : (h.takeTrap t entry).sctx = h.sctx := by
  unfold Hart.takeTrap
  dsimp only
  split <;> rfl

/-- A trap of a scalar instruction is taken, unless it is a page fault. -/
theorem raise_scalar (s : State) {c : Nat} (v : Word) (entry : Option VEntry) (h5 : c ≠ 5) :
    s.raise { cause := c, tval := v } entry = { s with cur := s.cur.takeTrap { cause := c, tval := v } entry } := by
  simp [State.raise, h5]

/-- A scalar instruction without watchpoint matches that traps leaves the trap taken, and nothing else changed. -/
theorem trapWord_scalar (s0 s : State) (w : BitVec 32) {c : Nat} (v : Word) (h1 : c ≠ 1) (h5 : c ≠ 5) (hs : s.cur.strikes = []) :
    s0.trapWord w { cause := c, tval := v } s = { s with cur := s.cur.takeTrap { cause := c, tval := v } none } := by
  simp [State.trapWord, h1, raise_scalar s v _ h5, takeTrap_strikes hs, entryOf]

/-! ### TRAP, BRK, ERET and a word that is no instruction -/

theorem trap_taken : Spec.TrapInstruction := by
  intro imm s h
  let v : Word := imm.setWidth 64
  refine ⟨s.cur.takeTrap { cause := 0xE, tval := v } none, ?_, fun ⟨ht, hh⟩ => ?_, fun hn => ?_⟩
  · refine (perform_major0_trap h (wMajor_sysWord ..) rfl).trans ?_
    exact congrArg _ (trapWord_scalar s.start s.start _ v (c := 0xE) (by decide) (by decide) h.1.1.2.1)
  · exact takeTrap_entersHandler h.2 0xE v none rfl ht hh
  · exact takeTrap_goesToSupervisor h.2 0xE v none (fun ⟨_, hk⟩ => hn hk)

theorem brkHold_unserved {s : State} (hb : s.blockOf s.cur.sctx = none) (imm : BitVec 12) : brkHold imm s = s := by
  simp [brkHold, hb]

theorem brk_taken : Spec.BreakInstruction := by
  intro imm s h hb
  let v : Word := imm.setWidth 64
  let g : Hart := s.cur.takeTrap { cause := 0xD, tval := v } none
  have hserved : ({ s.start with cur := g } : State).blockOf g.sctx = none := by rw [takeTrap_sctx]; exact hb
  have hbody : brkBody imm s.start = .stay { s.start with cur := g } := by
    rw [brkBody, raise_scalar _ _ _ (by decide)]
    exact congrArg Flow.stay (brkHold_unserved hserved imm)
  refine ⟨g, ?_, takeTrap_goesToSupervisor h.2 0xD v none (by simp [handlerCause]), ?_⟩
  · refine (perform_major0 h (wMajor_sysWord ..)).trans ?_
    rw [hbody, finish_stay _ _ rfl]
  · simp [g, Hart.takeTrap, handlerCause, ip_noLane h.2]

theorem eret_returns : Spec.HandlerReturn := by
  intro s h
  refine ⟨fun hn => ?_, fun k hk => ⟨s.cur.retire.eret k, ?_, ?_⟩⟩
  · exact perform_major0_trap h (wMajor_sysWord ..) (by simp [eretBody, hn, illegal])
  · refine (perform_major0 h (wMajor_sysWord ..)).trans ?_
    simp [eretBody, hk]
  · refine ⟨rfl, rfl, rfl, rfl, rfl, rfl, rfl, rfl, rfl, rfl, rfl, rfl, fun hc => ?_, fun hc hv hl => ?_, fun hc hv => ?_⟩
    · simp [Hart.eret, Hart.retire, hc]
    · simp [Hart.eret, Hart.retire, hc, hv, hl]
    · simp [Hart.eret, hc, hv]

theorem illegalWord_goesToSupervisor : Spec.IllegalWord := by
  intro w s hu hl
  refine ⟨s.cur.takeTrap { cause := 1, tval := w.setWidth 64 } none, ?_,
    takeTrap_goesToSupervisor hl 1 (w.setWidth 64) none (by simp [handlerCause])⟩
  have he : exec (.illegalInstruction w) s = .next (s.raise { cause := 1, tval := w.setWidth 64 } none) := by
    show execIllegalInstruction w s = _
    simp [execIllegalInstruction, hu]
  rw [he, raise_scalar s _ none (by decide)]

/-! ### A turn of the current hart -/

theorem focus_cur (s : State) : s.focus s.cur.place = s := by simp [State.focus]

/-- The head of the schedule moves once the harts that only wait have stopped. -/
theorem step_turn {s0 s : State} {t : Turn} {rest : List Turn} (hp : s0.parkIdle = s) (hs : s.schedule = t :: rest) :
    step s0 = stepTurn t { s with schedule := rest, unit := .hart } := by
  subst hp
  simp only [step, hs]

/-- A word of majors 0x22 to 0x31 orders no accesses of a queue. -/
theorem ordersQueue_dropMajor {w : BitVec 32} (hd : dropMajor w = true) (q : Nat) : ordersQueue w q = false := by
  simp only [dropMajor, Bool.and_eq_true, decide_eq_true_eq] at hd
  unfold ordersQueue
  dsimp only
  split
  iterate 7 omega
  rfl

theorem runWord_dropMajor {w : BitVec 32} {i : Instr} (hd : dropMajor w = true) (hi : decode w = .ok i) (s : State) :
    runWord w s = exec i s := by
  have hq : (List.range 8).any (ordersQueue w) = false := by simp [ordersQueue_dropMajor hd]
  simp [runWord, hq, hi]

/-- A word of one of those majors is none that issues late. -/
theorem lateWord_dropMajor {w : BitVec 32} (hd : dropMajor w = true) : lateWord w = false := by
  simp only [dropMajor, Bool.and_eq_true, decide_eq_true_eq] at hd
  have h36 : (wMajor w).toNat ≠ 0x36 := by omega
  have h3A : (wMajor w).toNat ≠ 0x3A := by omega
  have h32 : (wMajor w).toNat ≠ 0x32 := by omega
  simp [lateWord, isQpush, isQpop, isWord, h36, h3A, h32]

/-! ### The EP takes the oldest entry (R32, R130) -/

theorem stepTurn_ep {s : State} (hr : s.cur.ready = true) (hi : s.cur.reissue = none) : stepTurn (.ep s.cur.place) s = stepEp s := by
  have hm : s.cur.mayRun = true := by simp [Hart.mayRun, hr, hi]
  simp [stepTurn, focus_cur, hm]

/-- The EP of a running hart does what its oldest entry does, which is no word that waits at the head while the AP goes on (R209). -/
theorem stepEp_runs {s : State} (hr : s.cur.ready = true) (hl : s.cur.late = none)
    (hv : s.cur.viq.head?.any (ViqItem.isOp lateWord) = false) : stepEp s = epEntry s := by
  have hc : s.cur.inCall = false := by
    have hst : s.cur.status = .running := by simp [Hart.ready] at hr; exact hr.1
    simp [Hart.inCall, hst]
  rw [stepEp, if_neg (by simp [hc, hl])]
  cases epEntry s with
  | next u =>
    dsimp only
    rw [hv]
    split <;> rfl
  | fault => rfl
  | refused => rfl

/-- A turn of the EP of a running hart (log 4). -/
theorem step_ep {s0 s : State} {rest : List Turn} (hp : s0.parkIdle = s) (hs : s.schedule = .ep s.cur.place :: rest)
    (hr : s.cur.ready = true) (hi : s.cur.reissue = none) (hl : s.cur.late = none)
    (hv : s.cur.viq.head?.any (ViqItem.isOp lateWord) = false) : step s0 = epEntry { s with schedule := rest, unit := .hart } :=
  let u : State := { s with schedule := rest, unit := .hart }
  (step_turn hp hs).trans ((stepTurn_ep (s := u) hr hi).trans (stepEp_runs (s := u) hr hl hv))

/-- After an entry of the VIQ the AP stands where it stood (R32). -/
theorem advance_ahead {h : Hart} {a : ApPoint} (hl : h.lane = none) (ha : h.ahead = some a) :
    h.advance = { h.retire with pc := a.pc, pfxs := a.pfxs, ahead := none, passed := h.passed } := by
  simp [Hart.advance, hl, ha]

/-! ### The AP goes on beside the entries of the VIQ (R63, R135) -/

theorem passTurn_cur (s : State) : s.passTurn.cur = s.cur := by
  unfold State.passTurn
  split <;> rfl

theorem stepTurn_issue {s : State} (hm : s.mayIssue s.cur = true) : stepTurn (.issue s.cur.place) s = stepHart false s.passTurn := by
  simp [stepTurn, focus_cur, hm]

theorem stepHart_viq {s : State} (hl : s.cur.late = none) (hi : s.cur.reissue = none) (hv : s.cur.viq ≠ []) : stepHart false s = stepAp s := by
  simp [stepHart, hl, hi, hv]

theorem fetch_reached (s : State) : Reached s s.fetch.2 := by
  unfold State.fetch
  dsimp only
  split
  · exact .refl s
  · have hx := xlateHart_reached s s.cur.lowLane s.cur.ip .fetch
    split
    · next e => rw [e] at hx; exact hx
    · next e =>
      rw [e] at hx
      split
      · exact hx
      · split
        · exact hx
        · exact hx.trans (touchAt_reached ..)

section
variable {s t : State} {w : BitVec 32} (hp : s.cur.pending = none) (hb : s.breakpoint = none) (hl : s.cur.late = none)
  (hn : s.cur.lane = none) (hf : s.start.fetch = (.ok w, t)) (ht : t.blocked = none)
include hp hb hl hn hf ht

/-- A word that the AP may put into the VIQ goes behind its entries. -/
theorem stepAp_enqueues (h32 : s.cur.viq.length < 32) (hi : isInstr w = true) (hbar : s.cur.barred w = false) (hq : s.cur.mayQueue w = true) :
    stepAp s = .next { t with cur := t.cur.enqueue w } := by
  have hcur : t.cur = s.cur := by have hr := fetch_reached s.start; rw [hf] at hr; exact hr.cur
  have hf' : ({ s with blocked := none } : State).fetch = (.ok w, t) := hf
  simp [stepAp, hp, hb, hn, hf', ht, hi, hcur, hbar, hl, hq, Nat.not_le.mpr h32]

/-- A word that the AP neither puts into the VIQ nor executes beside its entries, and that is no call, waits. -/
theorem stepAp_waits (hq : viqWord w = false) (hpass : s.cur.mayPass w = false) (hc : callWord w = false) : stepAp s = .next s := by
  have hcur : t.cur = s.cur := by have hr := fetch_reached s.start; rw [hf] at hr; exact hr.cur
  have hf' : ({ s with blocked := none } : State).fetch = (.ok w, t) := hf
  simp [stepAp, hp, hb, hn, hf', ht, hcur, hl, hq, hpass, hc, Hart.mayQueue]

end

/-- A vector instruction of majors 0x22 to 0x31 that delivers no x register may go into a VIQ that holds no QPOP (R63, R130). -/
theorem mayQueue_dropMajor {h : Hart} {w : BitVec 32} (hd : dropMajor w = true) (hr : readQueueDest w = false)
    (hq : ∀ pc e, .op pc e ∈ h.viq → isQpop e.word = false) : h.mayQueue w = true := by
  have hlate := lateWord_dropMajor hd
  have hpush : isQpush w = false := by simp only [lateWord, Bool.or_eq_false_iff] at hlate; exact hlate.1.1.2
  have hpop : h.viq.any (ViqItem.isOp isQpop) = false := by
    rw [List.any_eq_false]
    intro x hx
    cases x with
    | op pc e => simpa [ViqItem.isOp] using hq pc e hx
    | config => simp [ViqItem.isOp]
  simp [Hart.mayQueue, viqWord, hd, hr, hpop, hpush, hlate]

/-- A word of the system, stream and command majors waits until the VIQ is empty (log 4). -/
theorem waits_majors {w : BitVec 32} (h : Hart) (hm : (wMajor w).toNat = 0 ∨
      (0x33 ≤ (wMajor w).toNat ∧ (wMajor w).toNat ≠ 0x36 ∧ (wMajor w).toNat ≠ 0x38 ∧ (wMajor w).toNat ≠ 0x3A)) :
    viqWord w = false ∧ h.mayPass w = false ∧ callWord w = false := by
  have h36 : (wMajor w).toNat ≠ 0x36 := by omega
  have h38 : (wMajor w).toNat ≠ 0x38 := by omega
  have h3A : (wMajor w).toNat ≠ 0x3A := by omega
  have h32 : (wMajor w).toNat ≠ 0x32 := by omega
  have hdrop : dropMajor w = false := by simp [dropMajor]; omega
  have hpass : (1 ≤ (wMajor w).toNat && (wMajor w).toNat ≤ 0x21) = false := by simp; omega
  refine ⟨?_, ?_, ?_⟩
  · simp [viqWord, hdrop, lateWord, isQpush, isQpop, isWord, h36, h3A, h32]
  · simp [Hart.mayPass, hpass]
  · simp [callWord, h38]

theorem viq_entries : Spec.QueuedEntries := by
  refine ⟨?op, ?config, ?after, ?operands, ?ahead⟩
  case op =>
    intro s0 s rest pc e q i hp hs hr hi hl hv hd hdrop
    rw [step_ep hp hs hr hi hl (by simp [hv, ViqItem.isOp, lateWord_dropMajor hdrop]), ← runWord_dropMajor hdrop hd]
    simp only [epEntry, hv]
  case config =>
    intro s0 s rest vl vr vpad vt vm q hp hs hr hi hl hv
    rw [step_ep hp hs hr hi hl (by simp [hv, ViqItem.isOp])]
    simp only [epEntry, hv]
  case after =>
    intro h a hl ha
    rw [advance_ahead hl ha]
    exact ⟨rfl, rfl, rfl, rfl, rfl, rfl, rfl, rfl, rfl⟩
  case operands =>
    intro h e r he
    simp [Hart.ox, he]
  case ahead =>
    intro s0 s t rest w hp hs hm hi hl hn hv u hb hpend hf ht
    have hcur : u.cur = s.cur := passTurn_cur _
    have hstep : step s0 = stepAp u := by
      refine (step_turn hp hs).trans ((stepTurn_issue (s := { s with schedule := rest, unit := .hart }) hm).trans ?_)
      exact stepHart_viq (by rw [hcur]; exact hl) (by rw [hcur]; exact hi) (by rw [hcur]; exact hv)
    have hl' : u.cur.late = none := by rw [hcur]; exact hl
    have hn' : u.cur.lane = none := by rw [hcur]; exact hn
    refine ⟨fun h32 ⟨i, hd⟩ hmaj hr hq hbar => ?_, fun hmaj => ?_⟩
    · have hdrop : dropMajor w = true := by simpa [dropMajor] using hmaj
      rw [hstep, stepAp_enqueues hpend hb hl' hn' hf ht]
      · rfl
      · rw [hcur]; exact h32
      · simp [isInstr, hd]
      · rw [hcur]; exact hbar
      · rw [hcur]; exact mayQueue_dropMajor hdrop hr hq
    · obtain ⟨hq, hpass, hc⟩ := waits_majors u.cur hmaj
      rw [hstep, stepAp_waits hpend hb hl' hn' hf ht hq hpass hc]

end Sys2Proof.Machine

namespace Sys2Proof

/-- Settles O9: a trap is taken at `tvec` or left to the device supervisor, ERET gives back what was set aside, and each turn of the EP or
of the AP beside a filled VIQ is one equation. -/
theorem trapsAndReturn : Obligations.TrapsAndReturn :=
  ⟨Machine.trap_taken, Machine.brk_taken, Machine.eret_returns, Machine.illegalWord_goesToSupervisor, Machine.viq_entries⟩

end Sys2Proof
end

section
/-!
SUPPORT. Power and time (O52): the cycle of a hart's slots (R28), what the debug blocks and ports settle in a cycle in which they noted
nothing, what STANDBY saves of the channels (R253, R369), and what a thermal trip leaves of the harts (R369).
-/

namespace Sys2Proof.Machine

/-! ### A clock cycle (R28, R212) -/

/-- Slots that fit into a bound hart's lanes are charged as they are named, and the rest are stalled. -/
theorem cycle_fits {h : Hart} (hb : h.status ≠ .unbound) {use mask bvl dead : Nat} (hf : use + mask + bvl + dead ≤ h.lanes) :
    h.cycle use mask bvl dead = { h with
      lccyc := h.lccyc + 1, lcuse := h.lcuse + BitVec.ofNat 64 use, lcmask := h.lcmask + BitVec.ofNat 64 mask,
      lcbvl := h.lcbvl + BitVec.ofNat 64 bvl, lcdead := h.lcdead + BitVec.ofNat 64 dead,
      lcstall := h.lcstall + BitVec.ofNat 64 (h.lanes - use - mask - bvl - dead) } := by
  have hu : min use h.lanes = use := by omega
  have hm : min mask (h.lanes - use) = mask := by omega
  have hv : min bvl (h.lanes - use - mask) = bvl := by omega
  have hd : min dead (h.lanes - use - mask - bvl) = dead := by omega
  rw [Hart.cycle, if_neg (by simpa using hb)]
  simp only [hu, hm, hv, hd]

theorem cycle_unbound {h : Hart} (hb : h.status = .unbound) (use mask bvl dead : Nat) : h.cycle use mask bvl dead = h :=
  if_pos (by simp [hb])

/-- The cycle of another hart: its slots as its own turn has named them, all of them stalled where none has (R28). -/
theorem cycleOn_fits {h : Hart} (hf : h.slots.1 + h.slots.2.1 + h.slots.2.2.1 + h.slots.2.2.2 ≤ h.lanes) :
    h.cycleOn = if h.status = .unbound then { h with slots := (0, 0, 0, 0) } else { h with
      slots := (0, 0, 0, 0), lccyc := h.lccyc + 1, lcuse := h.lcuse + BitVec.ofNat 64 h.slots.1, lcmask := h.lcmask + BitVec.ofNat 64 h.slots.2.1,
      lcbvl := h.lcbvl + BitVec.ofNat 64 h.slots.2.2.1, lcdead := h.lcdead + BitVec.ofNat 64 h.slots.2.2.2,
      lcstall := h.lcstall + BitVec.ofNat 64 (h.lanes - h.slots.1 - h.slots.2.1 - h.slots.2.2.1 - h.slots.2.2.2) } := by
  unfold Hart.cycleOn
  split
  · next hb => rw [cycle_unbound hb]
  · next hb => rw [cycle_fits hb hf]

/-- No debug block holds a record or a journal entry to be written, and none records a launch. -/
def QuietBlocks (s : State) : Prop := ∀ p ∈ s.hub.debug, p.2.waiting = [] ∧ p.2.jlate = [] ∧ p.2.recs = []

/-- The ports noted nothing in this cycle. -/
def QuietPorts (s : State) : Prop := ∀ p ∈ s.hub.ports, p.2.fresh = [] ∧ p.2.split = none

/-- What a keyed list gives is the default or stands in it. -/
theorem look_mem {α : Type} (d : α) (l : List (Nat × α)) (n : Nat) : look d l n = d ∨ ∃ p ∈ l, p.2 = look d l n := by
  induction l with
  | nil => exact .inl rfl
  | cons c t ih =>
    obtain ⟨k, v⟩ := c
    unfold look
    split
    · exact .inr ⟨(k, v), List.mem_cons_self, rfl⟩
    · exact ih.imp_right (fun ⟨p, hp, he⟩ => ⟨p, List.mem_cons_of_mem _ hp, he⟩)

theorem QuietBlocks.debug {s : State} (h : QuietBlocks s) (n : Nat) :
    (s.debug n).waiting = [] ∧ (s.debug n).jlate = [] ∧ (s.debug n).recs = [] := by
  obtain hd | ⟨p, hp, hd⟩ := look_mem DebugBlock.blank s.hub.debug n
  · rw [State.debug, hd]
    exact ⟨rfl, rfl, rfl⟩
  · rw [State.debug, ← hd]
    exact h p hp

theorem takeFresh_quiet {s : State} (h : QuietPorts s) (n : Nat) : s.takeFresh n = s := by
  have he : (s.hub.ports.filter (ofBlock n)).flatMap (fun p => p.2.fresh) = [] := by
    rw [List.flatMap_eq_nil_iff]
    exact fun p hp => (h p (List.mem_of_mem_filter hp)).1
  unfold State.takeFresh
  rw [he]
  rfl

theorem lowestSplit_none {l : List (Nat × PortRec)} (h : ∀ p ∈ l, p.2.split = none) : lowestSplit l = none := by
  induction l with
  | nil => rfl
  | cons p t ih =>
    rw [lowestSplit, h p List.mem_cons_self, ih (fun q hq => h q (List.mem_cons_of_mem _ hq))]

theorem settleSplit_quiet {s : State} (h : QuietPorts s) (n : Nat) : s.settleSplit n = s := by
  rw [State.settleSplit, lowestSplit_none (fun p hp => (h p (List.mem_of_mem_filter hp)).2)]

/-- Every port's notes of the cycle are forgotten. -/
def State.portsCleared (s : State) : State :=
  s.setHub { s.hub with ports := s.hub.ports.map (fun p => (p.1, { p.2 with fresh := [], split := none })) }

/-- At the end of a cycle in which nothing was noted, what the ports noted is cleared, and nothing else happens. -/
theorem settlePorts_quiet {s : State} (hd : QuietBlocks s) (hp : QuietPorts s) : s.settlePorts = s.portsCleared := by
  have hfold : (s.hub.debug).foldl (fun (s : State) (p : Nat × DebugBlock) =>
      let s := (s.takeFresh p.1).settleSplit p.1
      let s := s.flushJournal p.1 (s.debug p.1).jlate.length
      if (s.debug p.1).recs.isEmpty then s else s.whenFull p.1) s = s := by
    refine List.foldl_fixed' (fun p => ?_) _
    obtain ⟨-, hj, hr⟩ := hd.debug p.1
    simp [takeFresh_quiet hp, settleSplit_quiet hp, hj, hr, State.flushJournal]
  unfold State.settlePorts
  rw [hfold]
  rfl

theorem flushAll_quiet {s : State} (hd : QuietBlocks s) : s.flushAll = s := by
  refine List.foldl_fixed' (fun p => ?_) s.hub.debug
  rw [(hd.debug p.1).1]
  rfl

theorem injectAll_quiet {s : State} (hd : QuietBlocks s) (n : Nat) : s.injectAll n = s :=
  if_pos (by simp [(hd.debug n).2.2])

theorem exec_clockCycle_quiet {s : State} (hd : QuietBlocks s) (hp : QuietPorts s) (use mask bvl dead : Nat) :
    exec (.clockCycle use mask bvl dead) s = .next { s.portsCleared with
      cur := s.cur.cycle use mask bvl dead, others := s.others.map Hart.cycleOn, sevenths := s.sevenths + 5 * s.hub.divider
      hub := { s.portsCleared.hub with idleSince := if s.busyNow then s.sevenths + 5 * s.hub.divider else s.hub.idleSince } } := by
  have hq : QuietBlocks s.portsCleared := hd
  have hflush : s.settlePorts.flushAll = s.portsCleared := by rw [settlePorts_quiet hd hp]; exact flushAll_quiet hq
  have hinj : (s.portsCleared.hub.debug).foldl (fun (s : State) (p : Nat × DebugBlock) => s.injectAll p.1) s.portsCleared = s.portsCleared :=
    List.foldl_fixed' (fun p => injectAll_quiet hq p.1) _
  show execClockCycle use mask bvl dead s = _
  unfold execClockCycle
  rw [hflush]
  dsimp only
  rw [hinj]
  rfl

/-! ### STANDBY (R253, R369) -/

/-- Of a state only near-memory units change, and of each of them its power and the registers saved with it; no channel that was down or
asked to go down is up. -/
def ChannelsOnly (s t : State) : Prop :=
  ∃ ns, t = { s with nmus := ns } ∧ ∀ ch, (t.nmu ch).run = (s.nmu ch).run ∧ ((t.nmu ch).power = .up → (s.nmu ch).power = .up)

theorem setNmu_channelsOnly {s : State} {ch : Nat} {x : Nmu} (hr : x.run = (s.nmu ch).run) (hp : x.power ≠ .up) :
    ChannelsOnly s (s.setNmu ch x) := by
  refine ⟨_, rfl, fun k => ?_⟩
  by_cases hk : k = ch
  · subst hk
    rw [State.nmu_setNmu]
    exact ⟨hr, fun h => absurd h hp⟩
  · rw [State.nmu_setNmu_other _ _ hk]
    exact ⟨rfl, id⟩

theorem ChannelsOnly.refl (s : State) : ChannelsOnly s s := ⟨_, rfl, fun _ => ⟨rfl, id⟩⟩

theorem ChannelsOnly.trans {s t u : State} (h : ChannelsOnly s t) (k : ChannelsOnly t u) : ChannelsOnly s u := by
  obtain ⟨ns, ht, hs⟩ := h
  obtain ⟨ms, hu, ht'⟩ := k
  exact ⟨ms, by rw [hu, ht], fun ch => ⟨(ht' ch).1.trans (hs ch).1, fun e => (hs ch).2 ((ht' ch).2 e)⟩⟩

/-- A channel asked for the low-power state is not up any more. -/
theorem askDown_channelsOnly (s : State) (ch : Nat) : ChannelsOnly s (s.askDown ch) ∧ ((s.askDown ch).nmu ch).power ≠ .up := by
  unfold State.askDown
  dsimp only
  split
  · next hd =>
    have hd : (s.nmu ch).power = .down := by simpa using hd
    exact ⟨.refl s, by rw [hd]; decide⟩
  · split
    · refine ⟨setNmu_channelsOnly rfl (by simp), ?_⟩
      rw [State.powerDown, State.nmu_setNmu]
      simp
    · have hp : (if (s.nmu ch).power == .up then .asked s.time else (s.nmu ch).power) ≠ ChannelPower.up := by
        split
        · simp
        · next h => simpa using h
      exact ⟨setNmu_channelsOnly rfl hp, by rw [State.nmu_setNmu]; exact hp⟩

/-- Once every channel of a list has been asked, none of them is up. -/
theorem askDowns_channelsOnly (l : List Nat) (s : State) :
    ChannelsOnly s (l.foldl State.askDown s) ∧ ∀ ch ∈ l, ((l.foldl State.askDown s).nmu ch).power ≠ .up := by
  induction l generalizing s with
  | nil => exact ⟨.refl s, fun _ h => absurd h (by simp)⟩
  | cons c t ih =>
    obtain ⟨hs, hc⟩ := askDown_channelsOnly s c
    obtain ⟨ht, hl⟩ := ih (s.askDown c)
    refine ⟨hs.trans ht, fun ch hm => ?_⟩
    obtain rfl | hm := List.mem_cons.mp hm
    · obtain ⟨_, _, hk⟩ := ht
      exact fun e => hc ((hk ch).2 e)
    · exact hl ch hm

theorem selfRefresh_channelsOnly (s : State) : ChannelsOnly s s.selfRefresh ∧ ∀ ch, ch < 384 → (s.selfRefresh.nmu ch).power ≠ .up := by
  obtain ⟨h, hl⟩ := askDowns_channelsOnly (List.range 384) s
  exact ⟨h, fun ch hc => hl ch (List.mem_range.mpr hc)⟩

/-- STANDBY_ENTRY (R369): every channel is saved, and the units keep their kernels. -/
theorem standby_saves (s : State) : ∃ t, exec .standbyEntry s = .next t ∧ t.hub = { s.hub with power := .standby } ∧ t.mem = s.mem ∧
    t.cur = s.cur ∧ ∀ ch, ch < 384 → (t.nmu ch).power ≠ .up ∧ (t.nmu ch).run = (s.nmu ch).run := by
  have hexec : exec .standbyEntry s = .next (s.selfRefresh.setHub { s.hub with power := .standby }) := rfl
  obtain ⟨⟨ns, he, hk⟩, hup⟩ := selfRefresh_channelsOnly s
  generalize s.selfRefresh = v at *
  subst he
  exact ⟨_, hexec, rfl, rfl, rfl, fun ch hc => ⟨hup ch hc, (hk ch).1⟩⟩

/-! ### A thermal trip (R369) -/

/-- Of a state only the hub's objects change. -/
def ObjectsOnly (s t : State) : Prop := ∃ os b, t = s.setHub { s.hub with objects := os, robusy := b }

theorem freeLeaving_objectsOnly (s : State) (slot : Nat) : ObjectsOnly s (s.freeLeaving slot) := by
  unfold State.freeLeaving
  split
  · exact ⟨_, _, rfl⟩
  · dsimp only
    split
    · exact ⟨_, _, rfl⟩
    · exact ⟨_, _, rfl⟩

theorem freeAllLeaving_objectsOnly (s : State) : ObjectsOnly s s.freeAllLeaving := by
  unfold State.freeAllLeaving
  generalize s.hub.objects.filter (fun o => o.leaving) = l
  induction l generalizing s with
  | nil => exact ⟨_, _, rfl⟩
  | cons o t ih =>
    obtain ⟨os, b, he⟩ := freeLeaving_objectsOnly s o.slot
    obtain ⟨os', b', he'⟩ := ih (s.freeLeaving o.slot)
    exact ⟨os', b', by rw [List.foldl_cons, he', he]; rfl⟩

/-- With no stop asked of a hart no hit record is owed. -/
theorem payHits_none {s : State} (h : ∀ x ∈ s.harts, x.pending = none) (p : Hart → Bool) : s.payHits p = s := by
  have hf : s.harts.filter (fun h => p h && h.pending.isSome) = [] := by
    rw [List.filter_eq_nil_iff]
    intro x hx
    simp [h x hx]
  unfold State.payHits
  rw [hf]
  rfl

/-- A supervisor stop leaves every bound hart stopped. -/
theorem supervisorStop_status (h : Hart) : h.supervisorStop.status = .stopped ∨ h.supervisorStop.status = .unbound := by
  unfold Hart.supervisorStop
  split
  · next e => exact .inr (by simpa using e)
  · split
    · next e => exact .inl (by simpa using e)
    · exact .inl rfl

/-- The record a supervisor stop leaves in a hart that had not stopped (R31). -/
theorem supervisorStop_running {h : Hart} (hu : h.status ≠ .unbound) (hs : h.status ≠ .stopped) :
    h.supervisorStop = { h with
      status := .stopped, held := false, pending := none, more := [], tcause := 0x15, tval := 0, tpc := h.ip, sresume := h.ip } := by
  rw [Hart.supervisorStop, if_neg (by simpa using hu), if_neg (by simpa using hs)]

/-- THERMAL_TRIP (R369): every hart takes a supervisor stop, and the module is in STANDBY. -/
theorem thermalTrip_stops {s : State} (hpend : ∀ h ∈ s.harts, h.pending = none) : ∃ t, exec .thermalTrip s = .next t ∧
    t.hub.power = .standby ∧ t.mem = s.mem ∧ t.cur = s.cur.supervisorStop ∧ t.harts = s.harts.map Hart.supervisorStop := by
  let u := ((s.payHits (fun _ => true)).everyHart Hart.supervisorStop).freeAllLeaving
  have hexec : exec .thermalTrip s = .next (u.selfRefresh.setHub { u.hub with power := .standby }) := rfl
  obtain ⟨os, b, ho⟩ := freeAllLeaving_objectsOnly (s.everyHart Hart.supervisorStop)
  have hu : u = (s.everyHart Hart.supervisorStop).setHub { s.hub with objects := os, robusy := b } := by
    simp only [u, payHits_none hpend, ho]
    rfl
  obtain ⟨⟨ns, he, -⟩, -⟩ := selfRefresh_channelsOnly u
  rw [he, hu] at hexec
  exact ⟨_, hexec, rfl, rfl, rfl, rfl⟩

/-! ### What the clauses say -/

theorem clockCycle_charges {use mask bvl dead : Nat} {s : State} (hf : use + mask + bvl + dead ≤ s.cur.lanes) (hb : s.cur.status ≠ .unbound)
    (hd : QuietBlocks s) (hp : QuietPorts s) : ∃ t, exec (.clockCycle use mask bvl dead) s = .next t ∧
      t.sevenths = s.sevenths + 5 * s.hub.divider ∧ t.mem = s.mem ∧ t.others = s.others.map Hart.cycleOn ∧
      t.cur = { s.cur with
        lccyc := s.cur.lccyc + 1, lcuse := s.cur.lcuse + BitVec.ofNat 64 use, lcmask := s.cur.lcmask + BitVec.ofNat 64 mask,
        lcbvl := s.cur.lcbvl + BitVec.ofNat 64 bvl, lcdead := s.cur.lcdead + BitVec.ofNat 64 dead,
        lcstall := s.cur.lcstall + BitVec.ofNat 64 (s.cur.lanes - use - mask - bvl - dead) } :=
  ⟨_, exec_clockCycle_quiet hd hp use mask bvl dead, rfl, rfl, rfl, cycle_fits hb hf⟩

/-- A clock step measures the mean power anew (R368). -/
theorem powerClockStep_measures {d : Nat} (s : State) (hd : d ≠ 0) : ∃ w, exec (.powerClockStep d) s =
    .next { s with freeCount := s.freeCount + 1, hub := { s.hub with divider := d, pwrnow := w } } ∧ w < 2 ^ 16 :=
  ⟨(Config.measuredPower s.freeCount).toNat, congrArg _ (if_neg (by simpa using hd)), (Config.measuredPower s.freeCount).isLt⟩

theorem idleEntry_enters {s : State} (ha : s.hub.power = .active) (hb : s.busyNow = false) (hi : s.hub.idleSince + 7000000 ≤ s.sevenths) :
    exec .idleEntry s = .next { s with hub := { s.hub with power := .idle } } :=
  congrArg _ (if_pos (by simp [ha, hb, hi]))

theorem idleEntry_stays {s : State} (h : s.busyNow = true ∨ s.sevenths < s.hub.idleSince + 7000000) : exec .idleEntry s = .next s := by
  refine congrArg _ (if_neg ?_)
  obtain hb | hi := h
  · simp [hb]
  · simp [Nat.not_le.mpr hi]

end Sys2Proof.Machine

namespace Sys2Proof

/-- Settles O52: a quiet cycle settles nothing but the ports' notes, self-refresh leaves no channel up, and a thermal trip is a supervisor
stop of every hart. -/
theorem powerAndTime : Obligations.PowerAndTime := by
  refine ⟨?cycle, fun d s => Machine.powerClockStep_measures s,
    fun s => ⟨Machine.idleEntry_enters, Machine.idleEntry_stays, Machine.standby_saves s, rfl, ?trip⟩⟩
  case cycle =>
    intro use mask bvl dead s hf hb hd hp ho
    obtain ⟨t, he, htime, hmem, hothers, hcur⟩ := Machine.clockCycle_charges hf hb hd hp
    refine ⟨t, he, htime, hmem, hcur, hothers.trans ?_⟩
    exact List.map_congr_left (fun h hm => Machine.cycleOn_fits (ho h hm))
  case trip =>
    intro hpend
    obtain ⟨t, he, hpower, hmem, hcur, hharts⟩ := Machine.thermalTrip_stops hpend
    refine ⟨t, he, hpower, hmem, fun hb hs => hcur.trans (Machine.supervisorStop_running hb hs), fun h hm => ?_⟩
    rw [hharts] at hm
    obtain ⟨x, -, rfl⟩ := List.mem_map.mp hm
    exact Machine.supervisorStop_status x

end Sys2Proof
end

section
/-!
SUPPORT. Launches in the hub (O43): what finding and replacing a launch reads (R300, R303, R304), its completion (R309), the dispatch of an
iteration at one place (R19, R306), and the replicas of a queue's log (R331, R335).
-/

namespace Sys2Proof.Machine

/-! ### Finding and replacing a launch (R300) -/

theorem launchAt_key {s : State} {q n : Nat} {l : Launch} (h : s.launchAt q n = some l) : l.queue = q ∧ l.seq = n := by
  simpa using List.find?_some h

/-- Changing launches without their numbers changes what is found. -/
theorem find?_launches_map {f : Launch → Launch} (hf : ∀ x, (f x).queue = x.queue ∧ (f x).seq = x.seq) (ls : List Launch) (q n : Nat) :
    (ls.map f).find? (fun l => l.queue == q && l.seq == n) = (ls.find? (fun l => l.queue == q && l.seq == n)).map f := by
  rw [List.find?_map]
  congr 2
  funext x
  simp [(hf x).1, (hf x).2]

theorem launchAt_putLaunch {s : State} {q n : Nat} {l k : Launch} (h : s.launchAt q n = some l) (hq : k.queue = q) (hn : k.seq = n) :
    (s.putLaunch k).launchAt q n = some k := by
  have hf : ∀ x : Launch, (if x.queue == k.queue && x.seq == k.seq then k else x).queue = x.queue ∧
      (if x.queue == k.queue && x.seq == k.seq then k else x).seq = x.seq := by
    intro x
    split
    · next e =>
      rw [Bool.and_eq_true, beq_iff_eq, beq_iff_eq] at e
      exact ⟨e.1.symm, e.2.symm⟩
    · exact ⟨rfl, rfl⟩
  have hkey := launchAt_key h
  refine (find?_launches_map hf s.hub.launches q n).trans ?_
  rw [State.launchAt] at h
  simp [h, hkey, hq, hn]

/-! ### Eligibility and ageing (R303, R304) -/

section
variable {s : State} {l : Launch} (h : s.launchAt l.queue l.seq = some l)
include h

theorem exec_launchEligible_holds (he : l.eligible = false) (hs : l.stopped = false) (hw : ∀ w ∈ l.lr.waits, w.2 ≤ s.counter l.ctx w.1) :
    exec (.launchEligible l.queue l.seq) s = .next (s.putLaunch (s.makeEligible l)) := by
  show execLaunchEligible l.queue l.seq s = _
  simp [execLaunchEligible, h, he, hs, (waitsHold_iff s l).mpr hw]

theorem exec_launchEligible_waits (hw : ∃ w ∈ l.lr.waits, s.counter l.ctx w.1 < w.2) : exec (.launchEligible l.queue l.seq) s = .next s := by
  have hn : s.waitsHold l = false := by
    obtain ⟨w, hm, hlt⟩ := hw
    rw [← Bool.not_eq_true, waitsHold_iff]
    exact fun hall => absurd (hall w hm) (BitVec.not_le.mpr hlt)
  show execLaunchEligible l.queue l.seq s = _
  simp [execLaunchEligible, h, hn]

theorem exec_priorityAging_rises (hl : s.live l = true) (hd : l.dispatched = false) (hb : l.boost < 2) (hp : l.lr.prio + l.boost < 7)
    (ht : l.since + 64000 * (l.boost + 1) ≤ s.time) :
    exec (.priorityAging l.queue l.seq) s = .next (s.putLaunch { l with boost := l.boost + 1 }) := by
  show execPriorityAging l.queue l.seq s = _
  simp [execPriorityAging, h, hl, hd, Nat.not_le.mpr hb, Nat.not_le.mpr hp, Nat.not_lt.mpr ht]

theorem exec_priorityAging_stays (hb : l.boost = 2 ∨ s.time < l.since + 64000 * (l.boost + 1)) :
    exec (.priorityAging l.queue l.seq) s = .next s := by
  show execPriorityAging l.queue l.seq s = _
  obtain hb | ht := hb
  · simp [execPriorityAging, h, hb]
  · simp [execPriorityAging, h, ht]

end

/-! ### The completion record (R309) -/

/-- What a launch whose iterations have all halted writes. -/
theorem completion_whole {l : Launch} (hs : l.stopped = false) (hc : l.cut = []) (ht : l.lr.total = l.next) (time : Nat) :
    l.completion time = [0, BitVec.ofNat 64 l.lr.total, BitVec.ofNat 64 l.halted, 0, BitVec.ofNat 64 time, 0, 0, 0] := by
  have hr : l.ranges = [] := by simp [Launch.ranges, hc, ht, runsOf, addRange]
  simp [Launch.completion, Launch.finalStatus, hs, hc, hr]

theorem finalStatus_whole {l : Launch} (hs : l.stopped = false) (hc : l.cut = []) : l.finalStatus = 0 := by
  simp [Launch.finalStatus, hs, hc]

/-- Of a state only near-memory units change. -/
def UnitsOnly (s t : State) : Prop := ∃ ns, t = { s with nmus := ns }

theorem wakeKey_unitsOnly (s : State) (k : Nat) : UnitsOnly s (s.wakeKey k) := by
  unfold State.wakeKey
  split
  · unfold State.wakeChannel
    dsimp only
    split
    · exact ⟨_, rfl⟩
    · exact ⟨_, rfl⟩
  · exact ⟨_, rfl⟩

theorem wakeKeys_unitsOnly (ks : List Nat) (s : State) : UnitsOnly s (s.wakeKeys ks) := by
  induction ks generalizing s with
  | nil => exact ⟨_, rfl⟩
  | cons k t ih =>
    obtain ⟨ns, he⟩ := wakeKey_unitsOnly s k
    obtain ⟨ms, he'⟩ := ih (s.wakeKey k)
    exact ⟨ms, he'.trans (by rw [he])⟩

/-- A walk reads the tables whatever the units do (R257). -/
theorem walkFrom_units (s : State) (ns : List (Nat × Nmu)) (a : Nat) (kind : AKind) (level t : Nat) :
    ({ s with nmus := ns } : State).walkFrom a kind level t = s.walkFrom a kind level t := by
  have hentry : ∀ level t, ({ s with nmus := ns } : State).walkEntry a kind level t = s.walkEntry a kind level t := by
    have hpoison : ∀ n key, ({ s with nmus := ns } : State).poisonIn key n = s.poisonIn key n := by
      intro n
      induction n with
      | zero => intro key; rfl
      | succ n ih => intro key; exact congrArg (s.poisoned key || ·) (ih (key + 1))
    intro level t
    unfold State.walkEntry State.readEntry
    simp only [hpoison]
    rfl
  induction level generalizing t with
  | zero => rw [State.walkFrom, State.walkFrom, hentry]
  | succ level ih =>
    rw [State.walkFrom, State.walkFrom, hentry]
    simp only [ih]

theorem walk_units (s : State) (ns : List (Nat × Nmu)) (sptb a : Word) (kind : AKind) :
    ({ s with nmus := ns } : State).walk sptb a kind = s.walk sptb a kind := by
  unfold State.walk
  simp only [walkFrom_units]

theorem writeKeys8_units (s : State) (ns : List (Nat × Nmu)) (sptb : Word) (n : Nat) (a : Word) :
    ({ s with nmus := ns } : State).writeKeys8 sptb n a = s.writeKeys8 sptb n a := by
  induction n generalizing a with
  | zero => rfl
  | succ n ih =>
    rw [State.writeKeys8, State.writeKeys8, walk_units, ih]
    rfl

theorem writeMem_reached (s : State) (m : List Host.Cell) : Reached s { s with mem := m } := ⟨_, _, _, _, _, _, _, _, _, _, rfl⟩

/-- A doubleword that reaches its place: its channels wake, its leaf is marked, and its match is noted (R253, R258, R338). -/
def State.dwordReaches (s : State) (e k : Nat) (w : Word) : State :=
  (((s.wakeKey e).wakeKey k).markLeaf e .write).noteAt everyWatch none hubAgent .write [(k, 8)] sortWrite (leBytes 8 w.toNat)

theorem writeDwords_cons (s : State) (e k : Nat) (ks : List (Nat × Nat)) (w : Word) (ws : List Word) :
    s.writeDwords ((e, k) :: ks) (w :: ws) = ({ s.dwordReaches e k w with
      mem := Memory.setList (s.dwordReaches e k w).mem k (leBytes 8 w.toNat) } : State).writeDwords ks ws := rfl

theorem dwordReaches_reached (s : State) (e k : Nat) (w : Word) : Reached s (s.dwordReaches e k w) :=
  (((wakeKey_reached s e).trans (wakeKey_reached _ k)).trans (markLeaf_reached _ e .write)).trans (noteAt_reached ..)

theorem writeDwords_reached (ks : List (Nat × Nat)) (ws : List Word) (s : State) : Reached s (s.writeDwords ks ws) := by
  induction ks generalizing s ws with
  | nil => exact .refl s
  | cons p ks ih =>
    cases ws with
    | nil => exact .refl s
    | cons w ws =>
      rw [writeDwords_cons]
      exact ((dwordReaches_reached s p.1 p.2 w).trans (writeMem_reached _ _)).trans (ih ..)

/-- The mark of a leaf in memory is a function of the memory (R258). -/
theorem dwordReaches_mem (s : State) (e k : Nat) (w : Word) :
    (s.dwordReaches e k w).mem = Memory.set s.mem e (Memory.get s.mem e ||| 0x60#8) := by
  have hw : ((s.wakeKey e).wakeKey k).mem = s.mem := by
    obtain ⟨ns, he⟩ := wakeKey_unitsOnly s e
    obtain ⟨ms, he'⟩ := wakeKey_unitsOnly (s.wakeKey e) k
    rw [he', he]
  rw [State.dwordReaches, noteAt_mem, ← hw]
  rfl

/-- What the doublewords leave in memory is a function of the memory. -/
theorem writeDwords_mem_congr {s t : State} (h : t.mem = s.mem) (ks : List (Nat × Nat)) (ws : List Word) :
    (t.writeDwords ks ws).mem = (s.writeDwords ks ws).mem := by
  induction ks generalizing s t ws with
  | nil => exact h
  | cons p ks ih =>
    cases ws with
    | nil => exact h
    | cons w ws =>
      rw [writeDwords_cons, writeDwords_cons]
      refine ih ?_ ws
      dsimp only
      rw [dwordReaches_mem, dwordReaches_mem, h]

/-- A record that can be written is written, and besides it only what an access of the hub changes. -/
theorem writeCompletion_written {s : State} {l : Launch} {ks : List (Nat × Nat)}
    (hk : s.writeKeys8 l.sptb (l.completion s.time).length (l.addr + 384) = some ks) :
    Reached s (s.writeCompletion l) ∧ (s.writeCompletion l).mem = (s.writeDwords ks (l.completion s.time)).mem := by
  obtain ⟨ns, he⟩ := wakeKeys_unitsOnly (s.writeTrail l.sptb (l.addr + 384) (l.completion s.time).length) s
  have hw : s.writeCompletion l = ({ s with nmus := ns } : State).writeDwords ks (l.completion s.time) := by
    unfold State.writeCompletion
    dsimp only
    rw [he, writeKeys8_units, hk]
  rw [hw]
  have hu : Reached s { s with nmus := ns } := ⟨_, _, _, ns, _, _, _, _, _, _, rfl⟩
  exact ⟨hu.trans (writeDwords_reached ks _ _), writeDwords_mem_congr (s := s) (t := { s with nmus := ns }) rfl ks _⟩

/-! ### The end of a launch (R309) -/

/-- A launch without harts and frames leaves nothing to clear. -/
theorem clearLaunch_none {s : State} {q n : Nat} (hm : ∀ h ∈ s.harts ++ s.frames.map (fun f => f.hart), h.launch ≠ some (q, n))
    (ho : ∀ o ∈ s.hub.objects, o.leaving = false) : s.clearLaunch q n = s := by
  have hf : ∀ hs : List Hart, (∀ h ∈ hs, h.launch ≠ some (q, n)) → hs.filter (fun h => h.launch == some (q, n)) = [] := by
    intro hs hh
    rw [List.filter_eq_nil_iff]
    exact fun h hx => by simpa using hh h hx
  have hharts := hf s.harts (fun h hx => hm h (List.mem_append_left _ hx))
  have hframes : s.frames.filter (fun f => !(f.hart.launch == some (q, n))) = s.frames := by
    rw [List.filter_eq_self]
    exact fun f hx => by simpa using hm f.hart (List.mem_append_right _ (List.mem_map_of_mem hx))
  have hobjects : s.hub.objects.filter (fun o => o.leaving) = [] := by
    rw [List.filter_eq_nil_iff]
    exact fun o hx => by simp [ho o hx]
  unfold State.clearLaunch
  dsimp only
  rw [hharts, List.foldl_nil, hf _ hm, List.foldl_nil, List.foldl_nil, hframes]
  unfold State.freeAllLeaving
  dsimp only
  rw [hobjects, List.foldl_nil]

/-- No launch waits with its completion held. -/
theorem heldBefore_none {s : State} (hh : ∀ x ∈ s.hub.launches, x.heldAt = none) (l : Launch) : s.heldBefore l = false := by
  unfold State.heldBefore
  rw [List.any_eq_false]
  intro x hx
  simp [hh x hx]

/-- The counter added to, in a context that is listed or not (R213). -/
theorem addCounter_counter_same (s : State) (ctx : Word) (n : Nat) (x : Word) :
    (s.addCounter ctx n x).counter ctx n = s.counter ctx n + x := by
  cases hc : s.context ctx with
  | some c => rw [counter_addCounter hc, if_pos ⟨rfl, rfl⟩]
  | none =>
    rw [State.addCounter, readCounters_counter, State.setCounter, hc]
    dsimp only
    rw [State.counter, context_putContext, if_pos rfl]
    simp [Context.counter, look]

theorem setCounter_contexts (s : State) (ctx : Word) (n : Nat) (x : Word) :
    ∃ cs, s.setCounter ctx n x = s.setHub { s.hub with contexts := cs } := by
  unfold State.setCounter
  split
  · exact ⟨_, rfl⟩
  · exact ⟨_, rfl⟩

/-- Adding to a counter changes of the state the contexts, and makes launches eligible (R213, R303). -/
theorem addCounter_keeps (s : State) (ctx : Word) (n : Nat) (x : Word) :
    (s.addCounter ctx n x).mem = s.mem ∧ (s.addCounter ctx n x).cur = s.cur ∧
      ∀ q m l, s.launchAt q m = some l → ∃ k, (s.addCounter ctx n x).launchAt q m = some k := by
  obtain ⟨cs, he⟩ := setCounter_contexts s ctx n (s.counter ctx n + x)
  unfold State.addCounter
  rw [he]
  refine ⟨rfl, rfl, fun q m l hl => ?_⟩
  rw [State.launchAt] at hl
  unfold State.launchAt State.readCounters
  rw [State.setHub_hub]
  dsimp only [State.setHub_hub]
  rw [find?_launches_map ?_, hl]
  · exact ⟨_, rfl⟩
  · intro y
    split
    · exact ⟨rfl, rfl⟩
    · exact ⟨rfl, rfl⟩

theorem freeAllSegs_clusters (s : State) (mine : SegHolder → Bool) : ∃ cs, s.freeAllSegs mine = { s with clusters := cs } := by
  unfold State.freeAllSegs
  generalize s.clusters = l
  induction l generalizing s with
  | nil => exact ⟨_, rfl⟩
  | cons p t ih =>
    obtain ⟨cs, he⟩ := ih (s.freeSegs p.1 mine (fun _ => false))
    exact ⟨cs, by rw [List.foldl_cons, he]; rfl⟩

/-- The signal of a launch, where it has one (R309). -/
def State.signalled (s : State) (l : Launch) : State := if l.lr.sigVal == 0 then s else s.addCounter l.ctx l.lr.sigCtr l.lr.sigVal

/-- The launch has completed: its segments are free, its status is kept, and the queue's log has the update. -/
def State.closed (s : State) (l : Launch) : State :=
  ((s.freeAllSegs (fun w => w == .region l.queue l.seq)).putLaunch { l with done := some l.finalStatus, redo := [] }).enter l.queue (.complete l.seq)

theorem signalled_keeps (s : State) (l : Launch) :
    (s.signalled l).mem = s.mem ∧ (s.signalled l).cur = s.cur ∧
      (∀ q n k, s.launchAt q n = some k → ∃ j, (s.signalled l).launchAt q n = some j) ∧
      (l.lr.sigVal ≠ 0 → (s.signalled l).counter l.ctx l.lr.sigCtr = s.counter l.ctx l.lr.sigCtr + l.lr.sigVal) := by
  unfold State.signalled
  split
  · next h => exact ⟨rfl, rfl, fun q n k hk => ⟨k, hk⟩, fun hn => absurd (by simpa using h) hn⟩
  · obtain ⟨hm, hc, hl⟩ := addCounter_keeps s l.ctx l.lr.sigCtr l.lr.sigVal
    exact ⟨hm, hc, hl, fun _ => addCounter_counter_same ..⟩

theorem closed_keeps {s : State} {l k : Launch} (h : s.launchAt l.queue l.seq = some k) :
    (s.closed l).mem = s.mem ∧ (s.closed l).cur = s.cur ∧ (∀ c n, (s.closed l).counter c n = s.counter c n) ∧
      (s.closed l).launchAt l.queue l.seq = some { l with done := some l.finalStatus, redo := [] } := by
  obtain ⟨cs, he⟩ := freeAllSegs_clusters s (fun w => w == .region l.queue l.seq)
  unfold State.closed
  rw [he]
  exact ⟨rfl, rfl, fun _ _ => rfl, launchAt_putLaunch (s := { s with clusters := cs }) h rfl rfl⟩

/-- A launch may complete: every iteration has ended, none was cut short, and nothing holds its completion or the segments its record
goes to (R250, R309, R342). -/
structure Completes (s : State) (l : Launch) (ks : List (Nat × Nat)) : Prop where
  notDone : l.done = none
  notStopped : l.stopped = false
  eligible : l.eligible = true
  dispatched : l.dispatched = true
  running : s.ctxStopped l.ctx = false
  ended : ∀ h ∈ s.harts ++ s.frames.map (fun f => f.hart), h.launch ≠ some (l.queue, l.seq)
  uncut : l.cut = []
  total : l.lr.total = l.next
  unheld : ∀ x ∈ s.hub.launches, x.heldAt = none
  objects : ∀ o ∈ s.hub.objects, o.leaving = false
  trail : ∀ k ∈ s.writeTrail l.sptb (l.addr + 384) 8, s.heldSegment k = false
  keys : s.writeKeys8 l.sptb 8 (l.addr + 384) = some ks
  free : ∀ k ∈ ks, s.heldSegment k.2 = false

theorem Completes.allEnded {s : State} {l : Launch} {ks : List (Nat × Nat)} (c : Completes s l ks) : s.allEnded l = true := by
  have hm := c.ended
  simp only [List.forall_mem_append, List.forall_mem_map] at hm
  obtain ⟨hh, hf⟩ := hm
  have h1 : s.harts.any (fun h => h.launch == some (l.queue, l.seq) && h.status != .unbound) = false := by
    rw [List.any_eq_false]
    exact fun h hx => by simp [hh h hx]
  have h2 : s.frames.any (fun f => f.hart.launch == some (l.queue, l.seq) && f.hart.status != .unbound) = false := by
    rw [List.any_eq_false]
    exact fun f hx => by simp [hf f hx]
  simp [State.allEnded, c.notStopped, c.eligible, c.dispatched, h1, h2]

theorem Completes.completeReady {s : State} {l : Launch} {ks : List (Nat × Nat)} (c : Completes s l ks) : s.completeReady l = true := by
  have hlen : (l.completion s.time).length = 8 := by rw [completion_whole c.notStopped c.uncut c.total]; rfl
  have h1 : s.harts.filter (fun h => h.launch == some (l.queue, l.seq)) = [] := by
    rw [List.filter_eq_nil_iff]
    exact fun h hx => by simpa using c.ended h (List.mem_append_left _ hx)
  have h2 : ks.any (fun k => s.heldSegment k.2) = false := by
    rw [List.any_eq_false]
    exact fun k hx => by simp [c.free k hx]
  have h3 : (s.writeTrail l.sptb (l.addr + 384) 8).any s.heldSegment = false := by
    rw [List.any_eq_false]
    exact fun k hx => by simp [c.trail k hx]
  rw [State.completeReady, hlen, h1, c.keys, Option.getD_some, h2, h3]
  rfl

theorem Completes.exec_launchComplete {s : State} {l : Launch} {ks : List (Nat × Nat)} (h : s.launchAt l.queue l.seq = some l)
    (c : Completes s l ks) : exec (.launchComplete l.queue l.seq) s = .next (((s.writeCompletion l).signalled l).closed l) := by
  show execLaunchComplete l.queue l.seq s = _
  unfold execLaunchComplete
  rw [h]
  dsimp only
  rw [if_neg (by simp [c.notDone, State.quiet, c.running, c.allEnded, c.completeReady, heldBefore_none c.unheld]),
    clearLaunch_none c.ended c.objects]
  rfl

theorem launch_completes {s : State} {l : Launch} {ks : List (Nat × Nat)} (h : s.launchAt l.queue l.seq = some l) (c : Completes s l ks) :
    ∃ t k, exec (.launchComplete l.queue l.seq) s = .next t ∧ t.launchAt l.queue l.seq = some k ∧ k.done = some 0 ∧
      t.mem = (s.writeDwords ks [0, BitVec.ofNat 64 l.lr.total, BitVec.ofNat 64 l.halted, 0, BitVec.ofNat 64 s.time, 0, 0, 0]).mem ∧
      (l.lr.sigVal ≠ 0 → t.counter l.ctx l.lr.sigCtr = s.counter l.ctx l.lr.sigCtr + l.lr.sigVal) ∧ t.cur = s.cur := by
  have hwords := completion_whole c.notStopped c.uncut c.total s.time
  have hkeys : s.writeKeys8 l.sptb (l.completion s.time).length (l.addr + 384) = some ks := by rw [hwords]; exact c.keys
  obtain ⟨hr, hmem⟩ := writeCompletion_written hkeys
  have hl : (s.writeCompletion l).launchAt l.queue l.seq = some l := by rw [State.launchAt, hr.launches]; exact h
  obtain ⟨hm1, hc1, hl1, hs1⟩ := signalled_keeps (s.writeCompletion l) l
  obtain ⟨j, hj⟩ := hl1 _ _ _ hl
  obtain ⟨hm2, hc2, hn2, hl2⟩ := closed_keeps hj
  refine ⟨_, _, c.exec_launchComplete h, hl2, ?_, ?_, fun hv => ?_, hc2.trans (hc1.trans hr.cur)⟩
  · exact congrArg some (finalStatus_whole c.notStopped c.uncut)
  · rw [hm2, hm1, hmem, hwords]
  · rw [hn2, hs1 hv, hr.counter]

/-! ### A stop by the supervisor (R309) -/

/-- With no stop asked of a hart, ending a launch stops its harts and marks it. -/
theorem stopLaunch_stops {s : State} {l : Launch} (h : s.launchAt l.queue l.seq = some l) (hp : ∀ x ∈ s.harts, x.pending = none) :
    (s.stopLaunch l).mem = s.mem ∧
      (s.stopLaunch l).harts = s.harts.map (fun x => if x.launch = some (l.queue, l.seq) then x.supervisorStop else x) ∧
      ∃ k, (s.stopLaunch l).launchAt l.queue l.seq = some k ∧ k.stopped = true ∧ k.redo = [] := by
  have hmine : (fun x : Hart => if x.launch = some (l.queue, l.seq) then x.supervisorStop else x) =
      (fun x : Hart => if x.launch == some (l.queue, l.seq) then x.supervisorStop else x) := by simp
  unfold State.stopLaunch
  dsimp only
  rw [payHits_none hp, hmine]
  obtain ⟨os, b, he⟩ := freeAllLeaving_objectsOnly
    (s.everyHart (fun x : Hart => if x.launch == some (l.queue, l.seq) then x.supervisorStop else x))
  rw [he]
  exact ⟨rfl, rfl, _, launchAt_putLaunch (s := State.setHub _ _) h rfl rfl, rfl, rfl⟩

theorem exec_supervisorStopLaunch {s : State} {l : Launch} {h : Hart} (hl : s.launchAt l.queue l.seq = some l) (hd : l.done = none)
    (hs : l.stopped = false) (hm : h ∈ s.harts) (hq : h.launch = some (l.queue, l.seq)) (ht : h.status = .stopped) (hh : h.held = false) :
    exec (.supervisorStopLaunch l.queue l.seq) s = .next (s.stopLaunch l) := by
  have ha : s.harts.any (fun h => h.launch == some (l.queue, l.seq) && h.status == .stopped && !h.held) = true :=
    List.any_eq_true.mpr ⟨h, hm, by simp [hq, ht, hh]⟩
  show execSupervisorStopLaunch l.queue l.seq s = _
  simp [execSupervisorStopLaunch, hl, hd, hs, ha]

theorem launch_lifecycle : Spec.LaunchLifecycle := by
  intro s l h q n
  refine ⟨?eligible, exec_launchEligible_waits h, ?aging, ?complete, ?stop⟩
  case eligible =>
    intro he hs hw
    exact ⟨_, _, exec_launchEligible_holds h he hs hw, launchAt_putLaunch h rfl rfl, rfl, rfl, rfl, rfl, rfl, rfl, rfl, rfl⟩
  case aging =>
    intro hl hd
    refine ⟨fun hb hp ht => ?_, exec_priorityAging_stays h⟩
    exact ⟨_, _, exec_priorityAging_rises h hl hd hb hp ht, launchAt_putLaunch h rfl rfl, rfl, rfl, rfl, rfl, rfl⟩
  case complete =>
    intro hd hs he hp hc hm hcut ht hh _ ho htr ks hk hf
    exact launch_completes h ⟨hd, hs, he, hp, hc, hm, hcut, ht, hh, ho, htr, hk, fun k hx => (hf k hx).2⟩
  case stop =>
    intro x hd hs hm hq ht hh hp
    obtain ⟨hmem, hharts, k, hk, hks, hkr⟩ := stopLaunch_stops h hp
    exact ⟨_, k, exec_supervisorStopLaunch h hd hs hm hq ht hh, hk, hks, hkr, hmem, hharts⟩

/-! ### The replicas of a queue's log (R331, R335) -/

@[simp] theorem trim_replicas (x : QueueLog) : x.trim.replicas = x.replicas := by unfold QueueLog.trim; split <;> rfl
@[simp] theorem trim_tail (x : QueueLog) : x.trim.tail = x.tail := by unfold QueueLog.trim; split <;> rfl
@[simp] theorem trim_queue (x : QueueLog) : x.trim.queue = x.queue := by unfold QueueLog.trim; split <;> rfl

@[simp] theorem applyOn_tail (x : QueueLog) (die n : Nat) : (x.applyOn die n).tail = x.tail := by
  unfold QueueLog.applyOn
  split
  · exact trim_tail _
  · rfl

@[simp] theorem applyOn_queue (x : QueueLog) (die n : Nat) : (x.applyOn die n).queue = x.queue := by
  unfold QueueLog.applyOn
  split
  · exact trim_queue _
  · rfl

@[simp] theorem next_tail (x : QueueLog) (die : Nat) : (x.next die).tail = x.tail := by
  unfold QueueLog.next
  split
  · exact trim_tail _
  · exact applyOn_tail ..

@[simp] theorem next_queue (x : QueueLog) (die : Nat) : (x.next die).queue = x.queue := by
  unfold QueueLog.next
  split
  · exact trim_queue _
  · exact applyOn_queue ..

@[simp] theorem catchUp_tail (x : QueueLog) (die : Nat) : (x.catchUp die).tail = x.tail := by
  unfold QueueLog.catchUp
  dsimp only
  rw [applyOn_tail]
  split <;> rfl

@[simp] theorem catchUp_queue (x : QueueLog) (die : Nat) : (x.catchUp die).queue = x.queue := by
  unfold QueueLog.catchUp
  dsimp only
  rw [applyOn_queue]
  split <;> rfl

/-- An update entered last stands at the end of the queue's log. -/
theorem enter_queueLog (s : State) (q : Nat) (u : QUpdate) : (s.enter q u).queueLog q =
    { s.queueLog q with tail := (s.queueLog q).after u, entries := (s.queueLog q).entries ++ [((s.queueLog q).after u, u)] } :=
  queueLog_setQueueLog s (queueLog_queue s q)

/-- A dispatch stands at the next position of its queue's log (log 62). -/
theorem enterDispatch_queueLog (s : State) (q n ord die : Nat) :
    let at_ := ((s.queueLog q).tail.1, (s.queueLog q).tail.2 + 1)
    ((s.enterDispatch q n ord die).queueLog q).tail = at_ ∧
      (at_, QUpdate.dispatch n ord die) ∈ ((s.enterDispatch q n ord die).queueLog q).entries := by
  have hx : (s.setQueueLog ((s.queueLog q).catchUp die)).queueLog q = (s.queueLog q).catchUp die :=
    queueLog_setQueueLog s ((catchUp_queue _ _).trans (queueLog_queue s q))
  unfold State.enterDispatch
  rw [enter_queueLog, hx]
  simp [QueueLog.after]

/-- A healthy replica applies the first of the entries it has not applied. -/
theorem next_applies {x : QueueLog} {die : Nat} {r : QReplica} {e : (Nat × Nat) × QUpdate} {rest : List ((Nat × Nat) × QUpdate)}
    (hr : x.replicas[reg4 die] = some r) (he : x.entries.filter (fun e => beyond e.1 r.applied) = e :: rest) :
    (x.next die).replicas = x.replicas.set (reg4 die) (some (r.apply e.1 e.2)) := by
  rw [QueueLog.next, if_neg (by simp [hr]), QueueLog.applyOn, hr]
  dsimp only
  rw [he, trim_replicas]
  rfl

/-- The first number at which a function has a value decides. -/
theorem findSome?_range {α : Type} {f : Nat → Option α} {n k : Nat} {a : α} (hk : k < n) (ha : f k = some a) (hl : ∀ j, j < k → f j = none) :
    (List.range n).findSome? f = some a := by
  obtain ⟨m, rfl⟩ := Nat.exists_eq_add_of_lt hk
  have hnone : (List.range k).findSome? f = none := List.findSome?_eq_none_iff.mpr (fun j hj => hl j (List.mem_range.mp hj))
  rw [Nat.add_assoc, List.range_add, List.findSome?_append, hnone, List.range_succ_eq_map]
  simp [ha]

/-- A stale replica becomes a copy of the lowest-numbered healthy one. -/
theorem next_rebuilds {x : QueueLog} {die src : Nat} {r : QReplica} (hd : x.replicas[reg4 die] = none) (hs : src < 4)
    (hr : x.replicas[reg4 src] = some r) (hl : ∀ k, k < src → x.replicas[reg4 k] = none) :
    (x.next die).replicas = x.replicas.set (reg4 die) (some r) := by
  have hf : (List.range 4).findSome? (fun d => x.replicas[reg4 d]) = some r := findSome?_range hs hr hl
  rw [QueueLog.next, if_pos (by simp [hd]), trim_replicas, QueueLog.rebuild, hf]
  rfl

theorem stepTurn_replica {s : State} {q die : Nat} (hd : die < 4) (hu : die ∉ s.down) :
    stepTurn (.hub (.replica q die)) s = .next (s.setQueueLog ((s.queueLog q).next die)) := by
  have hif : ¬ (decide (die ≥ 4) || s.down.contains die) = true := by simp [Nat.not_le.mpr hd, hu]
  exact congrArg _ (if_neg hif)

/-- What each update does to a launch of a replica (R335). -/
theorem apply_single (r : QReplica) (p : Nat × Nat) (l : QLaunch) (h : r.launches = [l]) :
    (∀ seq, r.apply p (.accept seq) = { applied := p, launches := [l, { seq := seq, next := 0, redo := [], halted := 0, cut := [] }] }) ∧
    (∀ ord die, r.apply p (.dispatch l.seq ord die) = { applied := p, launches := [l.dispatch ord] }) ∧
    (∀ ord, r.apply p (.halted l.seq ord) = { applied := p, launches := [{ l with halted := l.halted + 1 }] }) ∧
    (∀ ord, r.apply p (.cut l.seq ord true) = { applied := p, launches := [{ l with redo := l.redo ++ [ord] }] }) ∧
    (∀ ord, r.apply p (.cut l.seq ord false) = { applied := p, launches := [{ l with cut := l.cut ++ [ord] }] }) ∧
    r.apply p (.complete l.seq) = { applied := p, launches := [] } := by
  refine ⟨fun _ => ?_, fun _ _ => ?_, fun _ => ?_, fun _ => ?_, fun _ => ?_, ?_⟩ <;> simp [QReplica.apply, QReplica.change, h]

theorem dispatch_next {l : QLaunch} (h : l.next ∉ l.redo) : l.dispatch l.next = { l with next := l.next + 1 } := by
  simp [QLaunch.dispatch, h]

theorem dispatch_again {l : QLaunch} {ord : Nat} (h : ord ∈ l.redo) : l.dispatch ord = { l with redo := l.redo.erase ord } := by
  simp [QLaunch.dispatch, h]

/-- Of two dispatches of one iteration the later one changes nothing. -/
theorem dispatch_taken {l : QLaunch} {ord : Nat} (h : ord < l.next) (hr : ord ∉ l.redo) : l.dispatch ord = l := by
  simp [QLaunch.dispatch, hr, Nat.ne_of_lt h]

theorem queue_replicas : Spec.QueueReplicas := by
  refine ⟨fun s q seq ord die again => ⟨?accept, ?later⟩, ?apply, ?next, ?turn⟩
  case accept => exact enter_tail s q (.accept seq)
  case later =>
    intro u hu
    have hafter : (s.queueLog q).after u = ((s.queueLog q).tail.1, (s.queueLog q).tail.2 + 1) := by
      simp only [List.mem_cons, List.not_mem_nil, or_false] at hu
      obtain rfl | rfl | rfl | rfl := hu <;> rfl
    rw [enter_queueLog, hafter]
    exact ⟨rfl, rfl, rfl⟩
  case apply =>
    intro r p l ord die h after
    obtain ⟨ha, hd, hh, hr, hc, hf⟩ := apply_single r p l h
    refine ⟨ha, fun ho hn => ?_, fun ho => ?_, fun ho hn => ?_, hh ord, hr ord, hc ord, hf⟩
    · subst ho
      exact (hd ..).trans (by rw [dispatch_next hn])
    · exact (hd ..).trans (by rw [dispatch_again ho])
    · exact (hd ..).trans (by rw [dispatch_taken ho hn])
  case next =>
    intro x die _
    exact ⟨fun r e rest hr he => ⟨next_applies hr he, next_tail x die⟩, fun src r hd hs hr hl => next_rebuilds hd hs hr hl⟩
  case turn =>
    intro s q die rest hp hs hd hu
    refine ⟨_, (step_turn hp hs).trans (stepTurn_replica hd hu), ?_, rfl, rfl⟩
    exact queueLog_setQueueLog _ ((next_queue _ _).trans (queueLog_queue _ q))

/-! ### Dispatch of an iteration at one place (R19, R306) -/

theorem grantSegs_nil (s : State) (cl : Nat) (ctx : Word) (who : SegHolder) : s.grantSegs cl ctx who [] = s := rfl

/-- The hub after a dispatch (R306, R369). -/
def State.countDispatch (s : State) : State :=
  s.setHub { s.hub with dispatches := s.hub.dispatches + 1, power := .active, idleSince := s.sevenths }

/-- Dispatching an iteration without stages, stack and regions binds one hart. -/
theorem dispatch_single {l : Launch} (s : State) (ord p : Nat) (hs : l.lr.stages = 1) (hk : l.lr.stack = 0) (hr : l.lr.regions = []) :
    s.dispatch l (clusterOf p) ord false [p] = (s.bind (s.newHart l ord 0 p (s.grant p l.lr.cap) false none)).countDispatch := by
  have hseg : stackSegs 0 = 0 := rfl
  have hreg : regionSegs [] = [] := rfl
  have hb : s.bindRegions l (clusterOf p) false = s := by simp [State.bindRegions, hr, hreg, grantSegs_nil]
  have hruns : stackRuns (s.cluster (clusterOf p)) 0 1 [] = some [0] := rfl
  unfold State.dispatch
  dsimp only
  rw [hb, hk, hs, hr, hseg, hreg, hruns, Option.getD_some]
  simp [State.bindStages, hk, hseg, grantSegs_nil, State.countDispatch]

/-- The x registers of a new hart without a stack (R19). -/
theorem newHart_x (s : State) (l : Launch) (ord p lmap : Nat) :
    let h := s.newHart l ord 0 p lmap false none
    h.x[2] = 0 ∧ (∀ d : Fin 4, h.rx (BitVec.ofNat 5 (3 + d.val)) = BitVec.ofInt 64 ((l.lr.indices ord).getD d.val 0)) ∧ h.x[7] = 0 ∧
      h.x[8] = l.lr.args ∧ ∀ r : Fin 32, r = 0 ∨ r = 1 ∨ 9 ≤ r.val → h.x[r] = 0 := by
  refine ⟨?_, fun d => ?_, ?_, ?_, fun r hr => ?_⟩
  · simp [State.newHart, Hart.blank]
  · fin_cases d <;> simp [State.newHart, Hart.rx]
  · simp [State.newHart]
  · simp [State.newHart]
  · have hr : r.val = 0 ∨ r.val = 1 ∨ 9 ≤ r.val := hr.imp (congrArg Fin.val) (Or.imp_left (congrArg Fin.val))
    have hne : 2 ≠ r.val ∧ 3 ≠ r.val ∧ 4 ≠ r.val ∧ 5 ≠ r.val ∧ 6 ≠ r.val ∧ 7 ≠ r.val ∧ 8 ≠ r.val := by omega
    simp [State.newHart, Hart.blank, hne]

/-- Every other register of a new hart of stage 0 is cleared (R19). -/
theorem newHart_cleared (s : State) (l : Launch) (ord p lmap : Nat) :
    let h := s.newHart l ord 0 p lmap false none
    h.stage = 0 ∧ h.v = Vector.replicate 32 0 ∧ h.tiles = Vector.replicate 8 0 ∧ h.q = Vector.replicate 8 .unbound ∧ h.vl = 0 ∧ h.vtype = 0 ∧
      h.vstart = 0 ∧ h.vrm = 0 ∧ h.vxflags = 0 ∧ h.vxsel = 0 ∧ h.sord = 0 ∧ h.lc = 0 ∧ h.lend = 0 ∧ h.pfxs = 0 ∧ h.dirty = 0 ∧ h.tvec = 0 ∧
      h.tcause = 0 ∧ h.regions = [] ∧ h.stores = [] :=
  ⟨rfl, rfl, rfl, rfl, rfl, rfl, rfl, rfl, rfl, rfl, rfl, rfl, rfl, rfl, rfl, rfl, rfl, rfl, rfl⟩

/-- A turn taken changes the ageing and the ring of a launch alone (R304). -/
theorem turnTaken_keeps (s : State) (l : Launch) (die : Nat) : (s.turnTaken l die).queue = l.queue ∧ (s.turnTaken l die).seq = l.seq ∧
    (s.turnTaken l die).next = l.next ∧ (s.turnTaken l die).lr = l.lr ∧ (s.turnTaken l die).ctx = l.ctx := by
  unfold State.turnTaken
  split <;> exact ⟨rfl, rfl, rfl, rfl, rfl⟩

/-- While no recorder is attached to a launch a replay decides nothing (R348). -/
theorem journalOnly_unrecorded {s : State} {x : Option (Nat × Nat)} (h : s.recorder x = none) (key kind : Nat) (xs : List Word) :
    s.journalOnly x key kind xs = (xs, s) := by simp [State.journalOnly, h]

theorem journalStop_unrecorded {s : State} {x : Option (Nat × Nat)} (h : s.recorder x = none) : s.journalStop x = s := by
  simp [State.journalStop, h]

/-- A launch replaced by one of the same record and context is recorded as before. -/
theorem recorder_putLaunch {s : State} {q n : Nat} {l k : Launch} (h : s.launchAt q n = some l) (hq : k.queue = q) (hn : k.seq = n)
    (hr : k.lr = l.lr) (hc : k.ctx = l.ctx) : (s.putLaunch k).recorder (some (q, n)) = s.recorder (some (q, n)) := by
  have hk := launchAt_putLaunch h hq hn
  rw [State.launchAt] at h hk
  unfold State.recorder
  dsimp only
  rw [h, hk]
  dsimp only
  rw [hr, hc]
  rfl

/-- The walker gives a launch's next iteration to a place: its turn has come, no iteration is to run again, and no recorder is attached
(R304, R306). -/
structure GivenTo (s : State) (l : Launch) (p : Nat) : Prop where
  found : s.launchAt l.queue l.seq = some l
  live : s.live l = true
  notDispatched : l.dispatched = false
  redo : l.redo = []
  power : s.hub.power ≠ .standby
  places : s.placesOk l [p] = true
  frames : s.framesOn l (dieOf p) = []
  turn : s.outranked l (dieOf p) = false
  unrecorded : s.recorder (some (l.queue, l.seq)) = none

/-- The launch after its next iteration was dispatched on a die. -/
def State.nextTaken (s : State) (l : Launch) (die : Nat) : Launch := s.turnTaken { l with next := l.next + 1, redo := [] } die

/-- The state in which the hart of the next iteration is bound: the launch's turn is taken, and the dispatch stands in the queue's log. -/
def State.entered (s : State) (l : Launch) (die : Nat) : State :=
  (s.putLaunch (s.nextTaken l die)).enterDispatch l.queue l.seq l.next die

theorem GivenTo.exec_dispatchIteration {s : State} {l : Launch} {p : Nat} (g : GivenTo s l p) :
    exec (.dispatchIteration l.queue l.seq [p]) s =
      .next (((s.entered l (dieOf p)).dispatch l (clusterOf p) l.next false [p]).journalStop (some (l.queue, l.seq))) := by
  show execDispatchIteration l.queue l.seq [p] s = _
  unfold execDispatchIteration
  rw [g.found]
  dsimp only
  rw [if_neg (by simp [g.live, g.notDispatched, g.power, g.places, g.frames, g.turn]), g.redo]
  dsimp only
  rw [journalOnly_unrecorded g.unrecorded]
  dsimp only
  rw [if_neg (by simp)]
  rfl

theorem nextTaken_keeps (s : State) (l : Launch) (die : Nat) : (s.nextTaken l die).queue = l.queue ∧ (s.nextTaken l die).seq = l.seq ∧
    (s.nextTaken l die).next = l.next + 1 ∧ (s.nextTaken l die).lr = l.lr ∧ (s.nextTaken l die).ctx = l.ctx :=
  turnTaken_keeps s { l with next := l.next + 1, redo := [] } die

/-- Binding the hart of a dispatch changes neither the launches nor the queues' logs nor who records. -/
theorem countDispatch_bind (s : State) (h : Hart) :
    h ∈ (s.bind h).countDispatch.harts ∧ (s.bind h).countDispatch.mem = s.mem ∧ (s.bind h).countDispatch.frames = s.frames ∧
      (∀ q n, (s.bind h).countDispatch.launchAt q n = s.launchAt q n) ∧ (∀ q, (s.bind h).countDispatch.queueLog q = s.queueLog q) ∧
      ∀ x, (s.bind h).countDispatch.recorder x = s.recorder x := by
  unfold State.bind
  split
  · exact ⟨List.mem_cons_self, rfl, rfl, fun _ _ => rfl, fun _ => rfl, fun _ => rfl⟩
  · exact ⟨List.mem_cons_of_mem _ List.mem_cons_self, rfl, rfl, fun _ _ => rfl, fun _ => rfl, fun _ => rfl⟩

/-- The hart of a launch's next iteration at a place. -/
def State.nextHart (s : State) (l : Launch) (p : Nat) : Hart :=
  (s.entered l (dieOf p)).newHart l l.next 0 p (s.grant p l.lr.cap) false none

/-- A dispatch at one place takes the launch's turn, enters the queue's log and binds the new hart. -/
theorem GivenTo.binds {s : State} {l : Launch} {p : Nat} (g : GivenTo s l p) (hs : l.lr.stages = 1) (hk : l.lr.stack = 0)
    (hr : l.lr.regions = []) :
    exec (.dispatchIteration l.queue l.seq [p]) s = .next ((s.entered l (dieOf p)).bind (s.nextHart l p)).countDispatch := by
  obtain ⟨hq, hn, -, hlr, hc⟩ := nextTaken_keeps s l (dieOf p)
  have hrec : (s.entered l (dieOf p)).recorder (some (l.queue, l.seq)) = none :=
    (recorder_putLaunch g.found hq hn hlr hc).trans g.unrecorded
  obtain ⟨-, -, -, -, -, hbind⟩ := countDispatch_bind (s.entered l (dieOf p)) (s.nextHart l p)
  have hgrant : (s.entered l (dieOf p)).grant p l.lr.cap = s.grant p l.lr.cap := rfl
  rw [g.exec_dispatchIteration, dispatch_single _ _ _ hs hk hr, hgrant]
  exact congrArg _ (journalStop_unrecorded ((hbind _).trans hrec))

theorem iteration_dispatched : Spec.IterationDispatched := by
  intro s l p h hl hd hredo hpow hs hk hr hp hf ho hrec
  have g : GivenTo s l p := ⟨h, hl, hd, hredo, hpow, hp, hf, ho, hrec⟩
  obtain ⟨hq, hn, hnext, hlr, -⟩ := nextTaken_keeps s l (dieOf p)
  have hfound : (s.entered l (dieOf p)).launchAt l.queue l.seq = some (s.nextTaken l (dieOf p)) := launchAt_putLaunch h hq hn
  obtain ⟨hmem, hcells, hframes, hlaunch, hlog, -⟩ := countDispatch_bind (s.entered l (dieOf p)) (s.nextHart l p)
  obtain ⟨htail, hentry⟩ := enterDispatch_queueLog (s.putLaunch (s.nextTaken l (dieOf p))) l.queue l.seq l.next (dieOf p)
  obtain ⟨hx2, hx3, hx7, hx8, hx0⟩ := newHart_x (s.entered l (dieOf p)) l l.next p (s.grant p l.lr.cap)
  refine ⟨_, _, _, g.binds hs hk hr, hmem, (hlaunch ..).trans hfound, hnext, hlr, hcells, hframes, rfl, rfl, rfl, rfl, ?_, rfl, hx2, hx3,
    hx7, hx8, hx0, rfl, rfl, rfl, rfl, newHart_cleared ..⟩
  rw [hlog]
  exact ⟨htail, hentry⟩

end Sys2Proof.Machine

namespace Sys2Proof

/-- Settles O43: each event of the walker is one equation, and what it leaves is read off the state after it. -/
theorem launchWalk : Obligations.LaunchWalk := ⟨Machine.launch_lifecycle, Machine.iteration_dispatched, Machine.queue_replicas⟩

end Sys2Proof
end

section
/-!
SUPPORT. The scalar FP32 instructions (R107, R108): how an FP result is delivered, with and without the FP trap.
-/

namespace Sys2Proof.Machine

@[simp] theorem Hart.writeX_strikes (h : Hart) (d : Reg) (x : Nat) : (h.writeX d x).strikes = h.strikes := by
  unfold Hart.writeX Hart.we
  split
  · split <;> rfl
  · exact Hart.wx_strikes ..

/-! ### Reaching the effect of a word of major 0x0A -/

/-- A word of the scalar FP major is of the lane-thread set, and no region drops it. -/
theorem performAs_scalarFp {own : Bool} {w : BitVec 32} {s : State} {body : State → Flow} (hu : s.unit = .hart) (hw : wMajor w = 0x0A#6)
    (hp : own = false → pfxPending s.cur.pendingPfx = false) :
    performAs own w s body = .next (s.start.finish w (body s.start)) :=
  performAs_hart hu (fun _ => laneMajor_of 0x0A#6 hw) (by simp [dropMajor_of 0x0A#6 hw]) hp

theorem perform_scalarFp {w : BitVec 32} {s : State} {body : State → Flow} (h : Plain s) (hw : wMajor w = 0x0A#6) :
    perform w s body = .next (s.start.finish w (body s.start)) :=
  performAs_scalarFp h.1.1 hw (fun _ => h.2)

theorem performPfx_scalarFp {w : BitVec 32} {s : State} {body : State → Flow} (h : Executes s) (hw : wMajor w = 0x0A#6) :
    performPfx w s body = .next (s.start.finish w (body s.start)) :=
  performAs_scalarFp h.1 hw (fun e => absurd e (by decide))

/-! ### Delivering a result -/

/-- The FP trap where a raised flag is enabled, else the register is written. -/
theorem fpDone_eq (s : State) (d : Reg) (r : Nat × Nat) : fpDone s d r =
    if r.2 &&& s.cur.enabled = 0 then .done { s with cur := (s.cur.raise r.2).writeX d r.1 }
    else .trap { cause := 0xF, tval := 0 } { s with cur := s.cur.raise r.2 } := by
  have henabled : (s.cur.raise r.2).enabled = s.cur.enabled := rfl
  by_cases hr : r.2 &&& s.cur.enabled = 0 <;> simp [fpDone, writeDone, henabled, hr]

theorem finish_fpDone (w : BitVec 32) (d : Reg) {s : State} (r : Nat × Nat) (hs : s.cur.strikes = []) :
    s.start.finish w (fpDone s.start d r) = Spec.fpDelivers w d s r := by
  rw [fpDone_eq, Spec.fpDelivers, State.start_cur]
  split
  · exact finish_done _ _ rfl ((Hart.writeX_strikes ..).trans hs)
  · exact finish_trap _ _ _ rfl

/-- With a rounding override that fits, a rounding instruction goes on to its effect. -/
theorem fpRound_fits {s : State} (k : State → Flow) (h : pfxFits s.cur.pfx { rm := true } = true) : fpRound s k = k s := by
  simp [fpRound, h]

/-- An instruction that rounds, whose effect is the delivery of a result. -/
theorem performPfx_delivers {w : BitVec 32} {d : Reg} {s : State} {body : State → Flow} {r : Nat × Nat} (h : Executes s)
    (hw : wMajor w = 0x0A#6) (hb : body s.start = fpDone s.start d r) : performPfx w s body = .next (Spec.fpDelivers w d s r) := by
  rw [performPfx_scalarFp h hw, hb, finish_fpDone _ _ _ h.2.1]

/-- An instruction that does not round, whose effect is the delivery of a result. -/
theorem perform_delivers {w : BitVec 32} {d : Reg} {s : State} {body : State → Flow} {r : Nat × Nat} (h : Plain s)
    (hw : wMajor w = 0x0A#6) (hb : body s.start = fpDone s.start d r) : perform w s body = .next (Spec.fpDelivers w d s r) := by
  rw [perform_scalarFp h hw, hb, finish_fpDone _ _ _ h.1.2.1]

/-! ### The instructions -/

theorem scalarFloat_delivers : Spec.ScalarFloat := by
  have binary : ∀ (g : Nat → Nat → Nat → Nat × Nat) (d a b : Reg) (rm : BitVec 3) (w : BitVec 32) (s : State), wMajor w = 0x0A#6 →
      Executes s → pfxFits s.cur.pfx { rm := true } = true → performPfx w s (fpBin g d a b rm) =
        .next (Spec.fpDelivers w d s (g (s.cur.fpMode rm) (s.cur.readF32 a) (s.cur.readF32 b))) :=
    fun g d a b rm w s hw h hf => performPfx_delivers h hw (fpRound_fits (s := s.start) _ hf)
  refine ⟨?fadd, ?fsub, ?fmul, ?fdiv, ?fmadd, ?fsqrt⟩
  case fadd => exact fun d a b rm s => binary _ d a b rm _ s (wMajor_xWord ..)
  case fsub => exact fun d a b rm s => binary _ d a b rm _ s (wMajor_xWord ..)
  case fmul => exact fun d a b rm s => binary _ d a b rm _ s (wMajor_xWord ..)
  case fdiv => exact fun d a b rm s => binary _ d a b rm _ s (wMajor_xWord ..)
  case fmadd => exact fun d a b rm s h hf => performPfx_delivers h (wMajor_xWord ..) (fpRound_fits (s := s.start) _ hf)
  case fsqrt => exact fun d a rm s h hf => performPfx_delivers h (wMajor_xWord ..) (fpRound_fits (s := s.start) _ hf)

/-- The result of a quiet relation as a number, with NV for a signalling NaN only (R107). -/
theorem cmpF_quiet (rel : Ex → Ex → Bool) (a b : Nat) :
    (b2n (cmpF fp32 rel true a b).1, (cmpF fp32 rel true a b).2) =
      if (readF fp32 a).isNan || (readF fp32 b).isNan then (0, if (readF fp32 a).isSig || (readF fp32 b).isSig then flagNV else 0)
      else (if rel (readF fp32 a) (readF fp32 b) then 1 else 0, 0) := by
  unfold cmpF b2n
  dsimp only
  split <;> simp

/-- The result of a relation that is not quiet, with NV for any NaN (R107). -/
theorem cmpF_notQuiet (rel : Ex → Ex → Bool) (a b : Nat) :
    (b2n (cmpF fp32 rel false a b).1, (cmpF fp32 rel false a b).2) =
      if (readF fp32 a).isNan || (readF fp32 b).isNan then (0, flagNV)
      else (if rel (readF fp32 a) (readF fp32 b) then 1 else 0, 0) := by
  unfold cmpF b2n
  dsimp only
  split <;> simp

theorem scalarFloatCompare_delivers : Spec.ScalarFloatCompare := by
  refine ⟨?feq, ?flt, ?fle, ?fmin, ?fmax, ?fclass⟩
  case feq => exact fun d a b s h => perform_delivers h (wMajor_xWord ..) (congrArg (fpDone s.start d) (cmpF_quiet feqRel _ _))
  case flt => exact fun d a b s h => perform_delivers h (wMajor_xWord ..) (congrArg (fpDone s.start d) (cmpF_notQuiet fltRel _ _))
  case fle => exact fun d a b s h => perform_delivers h (wMajor_xWord ..) (congrArg (fpDone s.start d) (cmpF_notQuiet fleRel _ _))
  case fmin => exact fun d a b s h => perform_delivers h (wMajor_xWord ..) rfl
  case fmax => exact fun d a b s h => perform_delivers h (wMajor_xWord ..) rfl
  case fclass =>
    intro d a s h
    refine (perform_scalarFp h (wMajor_xWord ..)).trans (congrArg _ (finish_done _ _ rfl ?_))
    exact (Hart.writeX_strikes ..).trans h.1.2.1

theorem fcvt_delivers : Spec.ScalarConvert := by
  intro d a kind rm s h hf
  have hm : wMajor (fcvtWord d a kind rm) = 0x0A#6 := wMajor_xWord ..
  refine ⟨fun hl => ?laneError, fun hl => ?converts⟩
  case laneError =>
    have hb : fcvt d a kind rm s.start = .trap { cause := 0x11, tval := 0 } s.start := by simp [fcvt, hl.1, hl.2]
    exact (performPfx_scalarFp h hm).trans (by rw [hb, finish_trap _ _ _ rfl]; rfl)
  case converts =>
    refine performPfx_delivers h hm ?_
    have hl' : (s.start.cur.lane.isSome && kind.getLsbD 0) = false := by
      rw [← Bool.not_eq_true, Bool.and_eq_true]; exact hl
    unfold fcvt
    rw [hl', if_neg (by decide), fpRound_fits (s := s.start) _ hf]
    cases kind.getLsbD 2 <;> rfl

end Sys2Proof.Machine

namespace Sys2Proof

/-- Settles O4: each instruction's effect is the delivery of its result, with the FP trap where a raised flag is enabled. -/
theorem scalarFloats : Obligations.ScalarFloats :=
  ⟨Machine.scalarFloat_delivers, Machine.scalarFloatCompare_delivers, Machine.fcvt_delivers⟩

end Sys2Proof
end

section
/-!
SUPPORT. The vector instructions of one destination whose effect is the form of R134, as the statements say it, and the vector FP
instructions among them (R141, R148).
-/

namespace Sys2Proof.Machine

/-! ### The strip's element width and group size -/

theorem vctx_g_dvd (h : Hart) (m : Bool) : (h.vctx m).g ∣ 8 :=
  Nat.pow_dvd_pow 2 (show h.vtype.toNat / 16 % 4 ≤ 3 by omega)

theorem vctx_w (h : Hart) (m : Bool) : (h.vctx m).w = fmtWidth (h.vctx m).fmt := rfl

/-- Checks 3 and 4 pass only for a format the instruction accepts (R136). -/
theorem vCheck_format {h : Hart} {o : VOp} {c : VCtx} {k : Shape} (hv : vCheck h o c k = true) : c.fmt ∈ k.formats := by
  simp only [vCheck, Bool.and_eq_true, List.contains_iff_mem] at hv
  obtain ⟨⟨⟨⟨⟨⟨⟨⟨⟨-, -⟩, hf⟩, -⟩, -⟩, -⟩, -⟩, -⟩, -⟩, -⟩ := hv
  exact hf

/-- The FP formats are 32 or 16 bits wide (R33). -/
theorem fmtWidth_fp {f : Nat} (h : f ∈ [4, 5, 6]) : fmtWidth f ∣ 256 ∧ 0 < fmtWidth f := by
  simp only [List.mem_cons, List.not_mem_nil, or_false] at h
  rcases h with rfl | rfl | rfl <;> decide

/-! ### From the effect to the statement -/

/-- A vector instruction comes to its effect outside lane mode and outside a region that drops. -/
theorem performPfx_vector {w : BitVec 32} {s : State} {body : State → Flow} (h : Executes s) (hl : s.cur.lane = none)
    (hd : s.cur.dropping = false) : performPfx w s body = .next (s.start.finish w (body s.start)) :=
  performAs_hart h.1 (by simp [hl]) (fun _ => hd) (fun e => absurd e (by decide))

/-- The end of a vector instruction that is refused (R89, R136). -/
theorem performPfx_illegalV {w : BitVec 32} {s : State} {body : State → Flow} (h : Executes s) (hl : s.cur.lane = none)
    (hd : s.cur.dropping = false) (hb : body s.start = illegalV s.start) :
    performPfx w s body = .next (s.start.trapWord w { cause := 1, tval := 0, vec := true } s.start) := by
  rw [performPfx_vector h hl hd, hb, illegalV, finish_trap _ _ _ rfl]

/-- The end of a vector instruction that completes. -/
theorem performPfx_vectorDone {w : BitVec 32} {s t : State} {body : State → Flow} (h : Executes s) (hl : s.cur.lane = none)
    (hd : s.cur.dropping = false) (hb : body s.start = .done t) (ht : t.blocked = none) (hs : t.cur.strikes = []) :
    performPfx w s body = .next t.completed := by
  rw [performPfx_vector h hl hd, hb, finish_done _ _ ht hs]

theorem ElementsWritten.strikes {h t : Hart} {c : VCtx} {md : VMods} {dests : List Dest} {kept : Nat → Bool} {val : Nat → ERes}
    (e : ElementsWritten h c md dests kept val t) : t.strikes = h.strikes := by
  rw [e.rest]

/-- An instruction whose effect is the single-destination form does what R134 says, by the rule its element function gives: the function
reads nothing that fetching a source changes. -/
theorem vectorOp_of_vElem {con : VOp → Instr} {shape : VOp → VCtx → Shape} {w1 w2 wd : VCtx → Nat}
    {f : Hart → VOp → VCtx → (a b d : Nat) → ERes} {rule : Spec.Rule}
    (effect : ∀ o s, exec (con o) s = performPfx (encode (con o)) s (fun s =>
      s.vElem o (shape o (s.cur.vctx o.m)) (w1 (s.cur.vctx o.m)) (w2 (s.cur.vctx o.m)) (wd (s.cur.vctx o.m))
        (fun _ => f s.cur o (s.cur.vctx o.m))))
    (blind : ∀ (h : Hart) q st o, f { h with q := q, strikes := st } o = f h o)
    (dest : ∀ (h : Hart) (o : VOp), vCheck h o (h.vctx o.m) (shape o (h.vctx o.m)) = true →
      (shape o (h.vctx o.m)).halves = 1 ∧ (shape o (h.vctx o.m)).nd ∣ 32 ∧ wd (h.vctx o.m) ∣ 256 ∧ 0 < wd (h.vctx o.m))
    (rules : ∀ h o c e i, rule h o c e i = f h o c (e i) (elemN (h.groupN o.vs2.toNat (shape o c).n2) (w2 c) i)
      (elemN (h.groupN o.vd.toNat (shape o c).nd) (wd c) i)) :
    Spec.VectorOp con shape w1 wd Spec.keepsNone rule := by
  intro o s _ hx hl hd
  dsimp only
  refine ⟨fun hbad => ?refused, fun a u hv hs ha hub hus ok => ?completes⟩
  case refused =>
    rw [effect]
    exact performPfx_illegalV hx hl hd (vElem_refused (s := s.start) hbad)
  case completes =>
    obtain ⟨⟨q, st, hcur⟩, -, -⟩ := Fetched.src1 hs
    have hfun : ∀ c, f u.cur o c = f s.cur o c := fun c => by rw [hcur, blind, State.start_cur]
    obtain ⟨h1, hn, hw, w0⟩ := dest s.cur o hv
    have hrule : ∀ i, rule u.cur o (s.cur.vctx o.m) a.elem i = f s.cur o (s.cur.vctx o.m) (a.elem i)
        (elemN (u.cur.groupN o.vs2.toNat (shape o (s.cur.vctx o.m)).n2) (w2 (s.cur.vctx o.m)) i)
        (elemN (u.cur.groupN o.vd.toNat (shape o (s.cur.vctx o.m)).nd) (wd (s.cur.vctx o.m)) i) :=
      fun i => by rw [rules, hfun]
    obtain ⟨h, hdone, hwritten⟩ := vElem_done (s := s.start) (w2 := w2 (s.cur.vctx o.m))
      (f := fun _ => f s.cur o (s.cur.vctx o.m)) hv hs ha hx.2.2 h1 hn hw w0 (fun i hi => by
        have hok := ok i hi
        rw [hrule] at hok
        exact hok)
    refine ⟨h, ?_, ?_⟩
    · rw [effect]
      exact performPfx_vectorDone hx hl hd hdone hub (hwritten.strikes.trans hus)
    · rw [show rule u.cur o (s.cur.vctx o.m) a.elem = _ from funext hrule]
      exact hwritten

/-! ### FP operations on groups and on a scalar (R141) -/

/-- The destination of an instruction that writes a group of FP elements. -/
theorem fpDest {h : Hart} {o : VOp} {k : Shape} (hv : vCheck h o (h.vctx o.m) k = true) (h1 : k.halves = 1)
    (hf : k.formats ⊆ [4, 5, 6]) (hn : k.nd = (h.vctx o.m).g) :
    k.halves = 1 ∧ k.nd ∣ 32 ∧ (h.vctx o.m).w ∣ 256 ∧ 0 < (h.vctx o.m).w := by
  have hw := fmtWidth_fp (hf (vCheck_format hv))
  refine ⟨h1, ?_, hw⟩
  rw [hn]
  exact (vctx_g_dvd h o.m).trans (by decide)

theorem vFp2_of_effect {con : VOp → Instr} {rounds : Bool} {f : (fmt : FFmt) → (mode a b d : Nat) → ERes}
    (effect : ∀ o s, exec (con o) s = performPfx (encode (con o)) s (fun s =>
      s.vElem o { formats := [4, 5, 6], n1 := (s.cur.vctx o.m).g, n2 := (s.cur.vctx o.m).g, nd := (s.cur.vctx o.m).g, rounds := rounds }
        (s.cur.vctx o.m).w (s.cur.vctx o.m).w (s.cur.vctx o.m).w (fun _ => f (ffmt (s.cur.vctx o.m).fmt) s.cur.mode))) :
    Spec.VFp2 con rounds f :=
  vectorOp_of_vElem (w2 := fun c => c.w) (f := fun h _ c => f (ffmt c.fmt) h.mode) effect (fun _ _ _ _ => rfl)
    (fun _ _ hv => fpDest hv rfl (List.Subset.refl _) rfl) (fun _ _ _ _ _ => rfl)

theorem vFpX_of_effect {con : VOp → Instr} {rounds : Bool} {f : (fmt : FFmt) → (mode a b d : Nat) → ERes}
    (effect : ∀ o s, exec (con o) s = performPfx (encode (con o)) s (fun s =>
      s.vElem o { formats := [4, 5, 6], n1 := (s.cur.vctx o.m).g, n2 := 0, nd := (s.cur.vctx o.m).g, rounds := rounds }
        (s.cur.vctx o.m).w (s.cur.vctx o.m).w (s.cur.vctx o.m).w
        (fun _ a _ d => f (ffmt (s.cur.vctx o.m).fmt) s.cur.mode a ((s.cur.ox o.vs2).toNat % 2 ^ 32) d))) :
    Spec.VFpX con rounds f :=
  vectorOp_of_vElem (w2 := fun c => c.w) (f := fun h o c a _ d => f (ffmt c.fmt) h.mode a ((h.ox o.vs2).toNat % 2 ^ 32) d) effect
    (fun _ _ _ _ => rfl) (fun _ _ hv => fpDest hv rfl (List.Subset.refl _) rfl) (fun _ _ _ _ _ => rfl)

theorem vFp1_of_effect {con : VOp → Instr} {formats : List Nat} {rounds : Bool} {f : (fmt : FFmt) → (mode a : Nat) → ERes}
    (hf : formats ⊆ [4, 5, 6])
    (effect : ∀ o s, exec (con o) s = performPfx (encode (con o)) s (fun s =>
      s.vElem o { formats := formats, n1 := (s.cur.vctx o.m).g, n2 := 0, nd := (s.cur.vctx o.m).g, rounds := rounds }
        (s.cur.vctx o.m).w (s.cur.vctx o.m).w (s.cur.vctx o.m).w (fun _ a _ _ => f (ffmt (s.cur.vctx o.m).fmt) s.cur.mode a))) :
    Spec.VFp1 con formats rounds f :=
  vectorOp_of_vElem (w2 := fun c => c.w) (f := fun h _ c a _ _ => f (ffmt c.fmt) h.mode a) effect (fun _ _ _ _ => rfl)
    (fun _ _ hv => fpDest hv rfl hf rfl) (fun _ _ _ _ _ => rfl)

/-! ### Widening operations (R141) -/

/-- The destination of a widening operation is a group of at most 8 registers of FP32. -/
theorem wideDest {h : Hart} {o : VOp} {k : Shape} (hv : vCheck h o (h.vctx o.m) k = true) (h1 : k.halves = 1)
    (hf : k.formats = [5, 6, 7, 8]) (hn : k.nd = 32 / (h.vctx o.m).w * (h.vctx o.m).g) :
    k.halves = 1 ∧ k.nd ∣ 32 := by
  refine ⟨h1, hn ▸ ?_⟩
  have hfmt := hf ▸ vCheck_format hv
  have hw : 32 / (h.vctx o.m).w ∣ 4 := by
    rw [vctx_w]
    simp only [List.mem_cons, List.not_mem_nil, or_false] at hfmt
    rcases hfmt with e | e | e | e <;> rw [e] <;> decide
  exact Nat.mul_dvd_mul hw (vctx_g_dvd h o.m)

theorem vFpWide_of_effect {con : VOp → Instr} {f : (mode : Nat) → (x y z : Ex) → Ex × Nat}
    (effect : ∀ o s, exec (con o) s = performPfx (encode (con o)) s (fun s =>
      s.vElem o { formats := [5, 6, 7, 8], n1 := (s.cur.vctx o.m).g, n2 := (s.cur.vctx o.m).g,
                  nd := 32 / (s.cur.vctx o.m).w * (s.cur.vctx o.m).g, rounds := true,
                  clash := 32 / (s.cur.vctx o.m).w * (s.cur.vctx o.m).g > 8 ||
                    (!o.q && overlap o.vd.toNat (32 / (s.cur.vctx o.m).w * (s.cur.vctx o.m).g) o.vs1.toNat (s.cur.vctx o.m).g) ||
                    overlap o.vd.toNat (32 / (s.cur.vctx o.m).w * (s.cur.vctx o.m).g) o.vs2.toNat (s.cur.vctx o.m).g }
        (s.cur.vctx o.m).w (s.cur.vctx o.m).w 32
        (fun _ a b d => .ofF (deliver fp32 s.cur.mode (f s.cur.mode (readF (ffmt (s.cur.vctx o.m).fmt) a)
          (readF (ffmt (s.cur.vctx o.m).fmt) b) (readF fp32 d)))))) : Spec.VFpWide con f :=
  vectorOp_of_vElem (w2 := fun c => c.w)
    (f := fun h _ c a b d => .ofF (deliver fp32 h.mode (f h.mode (readF (ffmt c.fmt) a) (readF (ffmt c.fmt) b) (readF fp32 d)))) effect
    (fun _ _ _ _ => rfl)
    (fun _ _ hv => ⟨rfl, (wideDest hv rfl rfl rfl).2, by decide, by decide⟩) (fun _ _ _ _ _ => rfl)

/-! ### Special functions (R148) -/

/-- A special function's width is that of the strip, as it accepts FP32 only. -/
theorem vsfu_eq (op : Nat) (o : VOp) (s : State) : vsfu op o s =
    s.vElem o { formats := [4], n1 := (s.cur.vctx o.m).g, n2 := 0, nd := (s.cur.vctx o.m).g }
      (s.cur.vctx o.m).w (s.cur.vctx o.m).w (s.cur.vctx o.m).w (fun _ a _ _ => vsfuN op a) := by
  by_cases hv : vCheck s.cur o (s.cur.vctx o.m) { formats := [4], n1 := (s.cur.vctx o.m).g, n2 := 0, nd := (s.cur.vctx o.m).g } = true
  · have hw : (s.cur.vctx o.m).w = 32 := by rw [vctx_w, List.mem_singleton.mp (vCheck_format hv)]; rfl
    simp only [vsfu, hw]
  · have hv' := Bool.eq_false_iff.mpr hv
    simp only [vsfu, vElem_refused (.inl hv')]

theorem vsfu_vFp1 {con : VOp → Instr} (op : Nat)
    (effect : ∀ o s, exec (con o) s = performPfx (encode (con o)) s (vsfu op o)) : Spec.VFp1 con [4] false (fun _ _ a => vsfuN op a) :=
  vFp1_of_effect (by simp) (fun o s => (effect o s).trans (by rw [show vsfu op o = _ from funext (vsfu_eq op o)]))

/-! ### The instructions -/

theorem bitN_eq_testBit (x i : Nat) : bitN x i = x.testBit i := by
  rw [Nat.testBit_eq_decide_div_mod_eq, bitN]
  exact (Bool.beq_eq_decide_eq ..)

/-- Each vector FP instruction is its operation on the elements (R141, R148). -/
theorem floatInstructions : Spec.FloatInstructions := by
  refine ⟨?vfadd, ?vfsub, ?vfmul, ?vfdiv, ?vfma, ?vfms, ?vfnma, ?vfsqrt, ?minmax, ?vfabs, ?vfneg, ?vfsgnj, ?vfsgnjVf, ?vfclass,
    ?vfwma, ?vfwadd, ?vfrcp, ?vfrsqrt, ?vfexp2, ?vflog2, ?vfsinpi, ?vfcospi⟩
  case vfadd => exact ⟨vFp2_of_effect fun _ _ => rfl, vFpX_of_effect fun _ _ => rfl⟩
  case vfsub => exact ⟨vFp2_of_effect fun _ _ => rfl, vFpX_of_effect fun _ _ => rfl⟩
  case vfmul => exact ⟨vFp2_of_effect fun _ _ => rfl, vFpX_of_effect fun _ _ => rfl⟩
  case vfdiv => exact ⟨vFp2_of_effect fun _ _ => rfl, vFpX_of_effect fun _ _ => rfl⟩
  case vfma => exact ⟨vFp2_of_effect fun _ _ => rfl, vFpX_of_effect fun _ _ => rfl⟩
  case vfms => exact ⟨vFp2_of_effect fun _ _ => rfl, vFpX_of_effect fun _ _ => rfl⟩
  case vfnma => exact ⟨vFp2_of_effect fun _ _ => rfl, vFpX_of_effect fun _ _ => rfl⟩
  case vfsqrt => exact vFp1_of_effect (List.Subset.refl _) fun _ _ => rfl
  case minmax =>
    simp only [List.forall_mem_cons, List.not_mem_nil, false_imp_iff, implies_true, and_true]
    exact ⟨⟨vFp2_of_effect fun _ _ => rfl, vFpX_of_effect fun _ _ => rfl⟩, ⟨vFp2_of_effect fun _ _ => rfl, vFpX_of_effect fun _ _ => rfl⟩,
      ⟨vFp2_of_effect fun _ _ => rfl, vFpX_of_effect fun _ _ => rfl⟩, ⟨vFp2_of_effect fun _ _ => rfl, vFpX_of_effect fun _ _ => rfl⟩⟩
  case vfabs => exact vFp1_of_effect (List.Subset.refl _) fun _ _ => rfl
  case vfneg => exact vFp1_of_effect (List.Subset.refl _) fun _ _ => rfl
  case vfsgnj =>
    simp only [← bitN_eq_testBit]
    exact vFp2_of_effect fun _ _ => rfl
  case vfsgnjVf =>
    simp only [← bitN_eq_testBit]
    exact vFpX_of_effect fun _ _ => rfl
  case vfclass => exact vFp1_of_effect (List.Subset.refl _) fun _ _ => rfl
  case vfwma => exact vFpWide_of_effect fun _ _ => rfl
  case vfwadd => exact vFpWide_of_effect fun _ _ => rfl
  case vfrcp => exact vsfu_vFp1 0 fun _ _ => rfl
  case vfrsqrt => exact vsfu_vFp1 1 fun _ _ => rfl
  case vfexp2 => exact vsfu_vFp1 2 fun _ _ => rfl
  case vflog2 => exact vsfu_vFp1 3 fun _ _ => rfl
  case vfsinpi => exact vsfu_vFp1 4 fun _ _ => rfl
  case vfcospi => exact vsfu_vFp1 5 fun _ _ => rfl

end Sys2Proof.Machine
end

section
/-!
SUPPORT. The pair instructions (R143, R144): a high half and a low half, in two groups of registers.
-/

namespace Sys2Proof.Machine

/-! ### The two halves of a pair -/

/-- The high half of a pair destination: the group at `base`. -/
def hiDest (base regs width : Nat) : Dest := { base := base, regs := regs, width := width, pick := fun r => r.val }

/-- The low half of a pair destination: the group after the high half's. -/
def loDest (base regs width : Nat) : Dest := { base := base + regs, regs := regs, width := width, pick := fun r => r.lo }

theorem overlap_half {e a n : Nat} (h : overlap e 1 a (n * 2) = false) : overlap e 1 a n = false ∧ overlap e 1 (a + n) n = false := by
  simp only [overlap, Bool.and_eq_false_iff, decide_eq_false_iff_not] at h ⊢
  omega

/-- What checks 3 and 4 say of the two halves of a pair destination and of the exception mask when they pass. -/
theorem vCheck_pairDests {h t : Hart} {o : VOp} {c : VCtx} {k : Shape} {w : Nat} (hv : vCheck h o c k = true) (h2 : k.halves = 2)
    (hn : k.nd * 2 ∣ 32) (hw : w ∣ 256) (w0 : 0 < w) (hp : t.pfx = h.pfx) :
    let ds := [hiDest o.vd.toNat k.nd w, loDest o.vd.toNat k.nd w]
    (∀ x ∈ ds, x.fits t) ∧ (∀ a ∈ ds, ∀ b ∈ ds, a.apart b) ∧
    (∀ e, (VMods.of t o).em = some e → e < 32 ∧ ∀ x ∈ ds, overlap e 1 x.base x.regs = false) := by
  intro ds
  simp only [vCheck, Bool.and_eq_true, h2] at hv
  obtain ⟨⟨⟨⟨⟨⟨⟨⟨⟨-, -⟩, -⟩, -⟩, hg⟩, -⟩, -⟩, -⟩, -⟩, hem⟩ := hv
  have hal : o.vd.toNat % (k.nd * 2) = 0 := by simp only [groupOk, Bool.and_eq_true, beq_iff_eq] at hg; exact hg.2
  have hd : o.vd.toNat + k.nd * 2 ≤ 32 := aligned_fits o.vd.isLt hn hal
  have halves : overlap o.vd.toNat k.nd (o.vd.toNat + k.nd) k.nd = false ∧ overlap (o.vd.toNat + k.nd) k.nd o.vd.toNat k.nd = false := by
    simp [overlap]
  simp only [ds, List.forall_mem_cons, List.not_mem_nil, false_imp_iff, implies_true, and_true]
  refine ⟨⟨fits_of ?_ hw w0, fits_of ?_ hw w0⟩, ⟨⟨.inl rfl, .inr halves.1⟩, .inr halves.2, .inl rfl⟩, fun e he => ?_⟩
  · simp only [hiDest]; omega
  · simp only [loDest]; omega
  · simp only [VMods.of, hp] at he
    split at he
    · rename_i ho
      cases he
      simp only [ho, if_true, emClear, Bool.and_eq_true, List.all_cons, Bool.not_eq_true'] at hem
      exact ⟨pfxEmask_lt _, overlap_half hem.1.1⟩
    · cases he

/-! ### The instructions -/

/-- The operands of a pair instruction: which sources are pairs, whether vs2 is unused, whether it rounds (R143). -/
def pairShape (p1 p2 one rounds : Bool) (o : VOp) (c : VCtx) : Shape :=
  { formats := [4], n1 := if p1 then 2 * c.g else c.g, n2 := if one then 0 else if p2 then 2 * c.g else c.g, nd := c.g, halves := 2,
    rounds := rounds, copy := false,
    clash := (!o.q && !p1 && overlap o.vs1.toNat c.g (o.vd.toNat + c.g) c.g) ||
      (!one && !p2 && overlap o.vs2.toNat c.g (o.vd.toNat + c.g) c.g) }

/-- What a pair instruction gives for element i of its sources (R143). -/
def pairRule (op : Nat) (h : Hart) (o : VOp) (c : VCtx) (e : Nat → Nat) (i : Nat) : ERes :=
  vpairN op h.mode (e i) (elemN (h.groupN o.vs1.toNat (2 * c.g)) 32 (i + c.g * (256 * c.lanes / 32)))
    (elemN (h.groupN o.vs2.toNat (2 * c.g)) 32 i) (elemN (h.groupN o.vs2.toNat (2 * c.g)) 32 (i + c.g * (256 * c.lanes / 32)))

section
variable {op : Nat} {p1 p2 one : Bool} {o : VOp} {s u : State} {a : Src}

theorem vpair_refused
    (h : vCheck s.cur o (s.cur.vctx o.m) (pairShape p1 p2 one (op ≤ 2) o (s.cur.vctx o.m)) = false ∨
      s.src1 o (s.cur.vctx o.m) 32 (pairShape p1 p2 one (op ≤ 2) o (s.cur.vctx o.m)).n1 = none) :
    vpair op p1 p2 one o s = illegalV s := by
  unfold vpair
  simp only [pairShape] at h
  rcases h with h | h
  · simp only [h, Bool.not_false, if_true]
  · simp only [h, ite_self]

theorem vpair_fetched (hv : vCheck s.cur o (s.cur.vctx o.m) (pairShape p1 p2 one (op ≤ 2) o (s.cur.vctx o.m)) = true)
    (hs : s.src1 o (s.cur.vctx o.m) 32 (pairShape p1 p2 one (op ≤ 2) o (s.cur.vctx o.m)).n1 = some (a, u)) :
    vpair op p1 p2 one o s = u.elementwise (s.cur.vctx o.m) (VMods.of u.cur o)
      [hiDest o.vd.toNat (s.cur.vctx o.m).g 32, loDest o.vd.toNat (s.cur.vctx o.m).g 32] a
      (pairRule op u.cur o (s.cur.vctx o.m) a.elem) := by
  unfold vpair
  simp only [pairShape] at hv hs
  simp only [hv, hs, Bool.not_true, Bool.false_eq_true, if_false]
  rfl

end

/-- An instruction whose effect is a pair operation writes both halves of every element as R134 says. -/
theorem vPair_of_effect {con : VOp → Instr} {p1 p2 one rounds : Bool} {f : (mode ah al bh bl : Nat) → Nat × Nat × Nat} (op : Nat)
    (effect : ∀ o s, exec (con o) s = performPfx (encode (con o)) s (vpair op p1 p2 one o)) (hr : decide (op ≤ 2) = rounds)
    (hf : ∀ m ah al bh bl, vpairN op m ah al bh bl = .ofP (f m ah al bh bl)) : Spec.VPair con p1 p2 one rounds f := by
  intro o s hx hl hd
  subst hr
  refine ⟨fun hbad => ?refused, fun a u hv hs ha hub hus ok => ?completes⟩
  case refused =>
    rw [effect]
    exact performPfx_illegalV hx hl hd (vpair_refused (s := s.start) hbad)
  case completes =>
    have fu := Fetched.src1 hs
    have hreg : u.cur.regBits = 256 * (s.cur.vctx o.m).lanes := by
      unfold Hart.regBits Hart.lanes; rw [fu.lmap]; rfl
    have hn : (s.cur.vctx o.m).g * 2 ∣ 32 := (Nat.mul_dvd_mul_right (vctx_g_dvd s.cur o.m) 2).trans (by decide)
    have hrule : pairRule op u.cur o (s.cur.vctx o.m) a.elem = _ := funext fun i => hf ..
    obtain ⟨d1, d2, d3⟩ := vCheck_pairDests (t := u.cur) (w := 32) hv rfl hn (by decide) (by decide) fu.pfx
    obtain ⟨h, hdone, hwritten⟩ := elementwise_done (src := a) (kept := fun _ => false) (md := VMods.of u.cur o)
      (f := pairRule op u.cur o (s.cur.vctx o.m) a.elem) hreg ha (fu.cut.trans hx.2.2)
      (fun i hi => by rw [hrule]; exact ⟨rfl, ok i hi⟩) d1 d2 d3
    refine ⟨h, ?_, ?_⟩
    · rw [effect]
      exact performPfx_vectorDone hx hl hd ((vpair_fetched (s := s.start) hv hs).trans hdone) hub (hwritten.strikes.trans hus)
    · rw [hrule] at hwritten
      exact hwritten

/-- Each pair instruction is its operation on the halves of the elements (R143, R144). -/
theorem pairInstructions : Spec.PairInstructions := by
  refine ⟨?vfaddx, ?vfsubx, ?vfmulx, ?vdwadd, ?vdwadds, ?vdwmul, ?vdwren⟩
  case vfaddx => exact vPair_of_effect 0 (fun _ _ => rfl) rfl (fun _ _ _ _ _ => rfl)
  case vfsubx => exact vPair_of_effect 1 (fun _ _ => rfl) rfl (fun _ _ _ _ _ => rfl)
  case vfmulx => exact vPair_of_effect 2 (fun _ _ => rfl) rfl (fun _ _ _ _ _ => rfl)
  case vdwadd => exact vPair_of_effect 3 (fun _ _ => rfl) rfl (fun _ _ _ _ _ => rfl)
  case vdwadds => exact vPair_of_effect 4 (fun _ _ => rfl) rfl (fun _ _ _ _ _ => rfl)
  case vdwmul => exact vPair_of_effect 5 (fun _ _ => rfl) rfl (fun _ _ _ _ _ => rfl)
  case vdwren => exact vPair_of_effect 6 (fun _ _ => rfl) rfl (fun _ _ _ _ _ => rfl)

end Sys2Proof.Machine
end

section
/-!
SUPPORT. The reductions as instructions (R145 to R147): element 0 is written and every other position is tail.
-/

namespace Sys2Proof.Machine

/-! ### Writing element 0 (R145) -/

/-- The slots of an instruction that writes element 0 of `n` positions. -/
def firstSlots (n : Nat) (r : ERes) : List Slot := .res r :: List.replicate (n - 1) .tail

theorem firstSlots_get {n i : Nat} (r : ERes) (hi : i < n) : (firstSlots n r)[i]? = some (if i = 0 then .res r else .tail) := by
  cases i with
  | zero => rfl
  | succ i =>
    simp only [firstSlots, List.getElem?_cons_succ, Nat.succ_ne_zero, if_false]
    rw [List.getElem?_replicate, if_pos (by omega)]

/-- The exception mask of a reduction at a position of it (R147). -/
theorem redEmask_get {c : VCtx} {i : Nat} (ta bit0 : Bool) (hi : i < 256 * c.lanes) :
    (redEmask c ta bit0).getD i none = if i = 0 then some (b2n bit0) else if i < c.vl then some 0 else if ta then some 1 else none := by
  simp [redEmask, List.getD_eq_getElem?_getD, hi]

theorem redEmask_fits (c : VCtx) (ta bit0 : Bool) : fitsIn 1 (redEmask c ta bit0) := by
  intro x hx y hy
  subst hy
  simp only [redEmask, List.mem_map] at hx
  obtain ⟨i, -, hi⟩ := hx
  split at hi
  · cases hi; cases bit0 <;> decide
  · split at hi
    · cases hi; decide
    · split at hi
      · cases hi; decide
      · cases hi

/-- The exception mask written, where the instruction has one. -/
def Hart.writeRedEmask (h : Hart) (c : VCtx) (md : VMods) (bit0 : Bool) : Hart :=
  match md.em with
  | some k => h.writeRegs 1 k 1 (redEmask c md.ta bit0)
  | none => h

/-- The hart after a reduction: flags raised, element 0 of each destination and bit 0 of the exception mask written, `vstart` 0. -/
def Hart.reduced (h : Hart) (c : VCtx) (o : VOp) (dests : List Dest) (n : Nat) (r : ERes) (fl : Nat) : Hart :=
  let t := dests.foldl (fun h x => h.writeDest o.ta false (firstSlots n r) x) (h.raise fl)
  { t.writeRedEmask c (VMods.of h o) (fl &&& t.sel != 0) with vstart := 0 }

/-- What writing the exception mask leaves: bit by bit the mask of R147, and every other register. -/
structure RedEmaskWritten (h : Hart) (c : VCtx) (md : VMods) (bit0 : Bool) (t : Hart) : Prop where
  rest : t = { h with v := t.v, dirty := t.dirty }
  others : ∀ k, k < 32 → md.em ≠ some k → t.rv k = h.rv k ∧ t.dirty.getLsbD k = h.dirty.getLsbD k
  apart : ∀ b n, b + n ≤ 32 → (∀ k, md.em = some k → overlap k 1 b n = false) → t.groupN b n = h.groupN b n
  mask : ∀ k, md.em = some k → ∀ i, i < 256 * c.lanes → elemN (t.groupN k 1) 1 i =
    if i = 0 then b2n bit0 else if i < c.vl then 0 else if md.ta then 1 else elemN (h.groupN k 1) 1 i

theorem writeRedEmask_written {h : Hart} {c : VCtx} {md : VMods} (bit0 : Bool) (hreg : h.regBits = 256 * c.lanes)
    (he : ∀ k, md.em = some k → k < 32) : RedEmaskWritten h c md bit0 (h.writeRedEmask c md bit0) := by
  cases hem : md.em with
  | none =>
    have hsame : h.writeRedEmask c md bit0 = h := by simp only [Hart.writeRedEmask, hem]
    rw [hsame]
    exact ⟨rfl, fun _ _ _ => ⟨rfl, rfl⟩, fun _ _ _ _ => rfl, fun k hk => absurd (hem.symm.trans hk) (by simp)⟩
  | some k =>
    have hk := he k hem
    have hwrite : h.writeRedEmask c md bit0 = h.writeRegs 1 k 1 (redEmask c md.ta bit0) := by simp only [Hart.writeRedEmask, hem]
    have r := writeRegs_written 1 1 k (redEmask c md.ta bit0) h (redEmask_fits _ _ _) (by omega)
    rw [hwrite]
    refine ⟨r.rest, fun j hj hne => ?_, fun b n hb ho => r.apart hb (ho k hem), fun j hj i hi => ?_⟩
    · rw [hem] at hne
      exact r.others j hj (by have : j ≠ k := fun e => hne (by rw [e]); omega)
    · rw [hem] at hj
      cases hj
      rw [r.group (e := 256 * c.lanes) (by rw [hreg]; ring) (by decide) (by omega), redEmask_get _ _ hi]
      by_cases h0 : i = 0
      · simp [h0]
      by_cases h1 : i < c.vl
      · simp [h0, h1]
      cases md.ta <;> simp [h0, h1]

/-- A reduction leaves what R145 and R147 say of its destinations, which are of `n` positions each and lie apart. -/
theorem reduced_firstWritten {h : Hart} {c : VCtx} {o : VOp} {dests : List Dest} {r r0 : ERes} {n : Nat}
    (hreg : h.regBits = 256 * c.lanes) (hsame : ∀ d ∈ dests, c.positions d = n ∧ d.pick r0 = d.pick r)
    (hf : ∀ d ∈ dests, d.fits h) (ha : ∀ a ∈ dests, ∀ b ∈ dests, a.apart b)
    (he : ∀ e, (VMods.of h o).em = some e → e < 32 ∧ ∀ x ∈ dests, overlap e 1 x.base x.regs = false) :
    Spec.FirstWritten h c o dests r (h.reduced c o dests n r0 r.flags) := by
  have w := writeDests_written o.ta false (firstSlots n r0) dests (h.raise r.flags)
    (fun d hd => ⟨(hf d hd).inFile, (hf d hd).pos, (hf d hd).whole⟩) ha
  unfold Hart.reduced
  generalize dests.foldl (fun h d => h.writeDest o.ta false (firstSlots n r0) d) (h.raise r.flags) = t at w
  have htreg : t.regBits = 256 * c.lanes := w.regBits.trans hreg
  have htsel : t.sel = h.sel := by rw [w.rest]; rfl
  have m := writeRedEmask_written (md := VMods.of h o) (r.flags &&& t.sel != 0) htreg (fun k hk => (he k hk).1)
  dsimp only
  generalize t.writeRedEmask c (VMods.of h o) (r.flags &&& t.sel != 0) = u at m
  have hem : o.e = true → (VMods.of h o).em = some ((pfxEmask h.pfx).getD 31) := fun e => by simp only [VMods.of, e, if_true]
  refine ⟨?rest, ?element, ?emask, ?others⟩
  case rest =>
    rw [m.rest, w.rest]
    rfl
  case element =>
    intro d hd i hi
    obtain ⟨hn, hpick⟩ := hsame d hd
    have hpos : c.positions d = d.regs * ((h.raise r.flags).regBits / d.width) := by rw [VCtx.positions, ← hreg]; rfl
    refine (congrArg (fun x => elemN x d.width i) (groupN_vstart u 0 d.base d.regs)).trans ?_
    rw [m.apart d.base d.regs (hf d hd).inFile (fun k hk => (he k hk).2 d hd), w.element d hd i (hpos ▸ hi),
      firstSlots_get r0 (hn ▸ hi), groupN_raise, ← hpick]
    by_cases h0 : i = 0
    · simp [h0, Slot.write]
    · cases hta : o.ta <;> simp [h0, Slot.write]
  case emask =>
    intro hoe i hi
    have hk := hem hoe
    refine (congrArg (fun x => elemN x 1 i) (groupN_vstart u 0 _ 1)).trans ?_
    have hold : t.groupN ((pfxEmask h.pfx).getD 31) 1 = h.groupN ((pfxEmask h.pfx).getD 31) 1 := by
      refine (w.apart _ 1 (by have := (he _ hk).1; omega) (fun d hd => ?_)).trans (groupN_raise ..)
      have := overlap_false ((he _ hk).2 d hd)
      simp [overlap]; omega
    rw [m.mask _ hk i hi, hold, htsel]
    have hta : (VMods.of h o).ta = o.ta := rfl
    rw [hta]
    by_cases h0 : i = 0
    · by_cases hs : r.flags &&& h.sel = 0 <;> simp [h0, hs, b2n]
    · simp only [h0, if_false]
  case others =>
    intro k hk hne ho
    have h1 := m.others k hk (fun e => by
      simp only [VMods.of] at e
      split at e
      · rename_i hoe
        cases e
        exact hne hoe rfl
      · cases e)
    have h2 := w.others k hk ho
    exact ⟨h1.1.trans h2.1, h1.2.trans h2.2⟩

/-! ### The instructions -/

/-- The operands of a reduction (R145): no two-dimensional strip, `vstart` 0, and for a pair a low half that meets no source. -/
def redShape (formats : List Nat) (rounds pair : Bool) (o : VOp) (c : VCtx) : Shape :=
  { formats := formats, n1 := c.g, n2 := c.g, nd := c.g, halves := if pair then 2 else 1, flat := true, rounds := rounds, copy := !pair,
    clash := c.vstart != 0 || (pair && ((!o.q && overlap o.vs1.toNat c.g (o.vd.toNat + c.g) c.g) ||
      overlap o.vs2.toNat c.g (o.vd.toNat + c.g) c.g)) }

/-- The destinations of a reduction. -/
def redDests (pair : Bool) (h : Hart) (o : VOp) (c : VCtx) : List Dest :=
  if pair then [hiDest o.vd.toNat c.g c.w, loDest o.vd.toNat c.g c.w]
  else hiDest o.vd.toNat c.g c.w :: h.copyDest (hiDest o.vd.toNat c.g c.w)

/-- What a reduction makes of its source (R146). -/
def redResult (op : Nat) (h : Hart) (o : VOp) (c : VCtx) (e : Nat → Nat) : Red :=
  vredN op c.w (ffmt c.fmt) h.mode h.enabled (elemN (h.groupN o.vs2.toNat c.g) c.w 0)
    ((List.range c.vl).map (fun i => if c.active i then some (e i) else none))

/-- The hart after a reduction that gave r. -/
def redDone (pair : Bool) (h : Hart) (o : VOp) (c : VCtx) (r : Red) : Hart :=
  h.reduced c o (redDests pair h o c) (c.g * (256 * c.lanes / c.w)) { val := r.val, lo := r.err } r.flags

section
variable {op : Nat} {o : VOp} {s u : State} {a : Src}

theorem vred_refused
    (h : vCheck s.cur o (s.cur.vctx o.m) (redShape (vredFormats op) (3 ≤ op && op ≤ 5) (op == 5) o (s.cur.vctx o.m)) = false ∨
      s.src1 o (s.cur.vctx o.m) (s.cur.vctx o.m).w (s.cur.vctx o.m).g = none) :
    vred op o s = illegalV s := by
  unfold vred
  simp only [redShape] at h
  rcases h with h | h
  · simp only [h, Bool.not_false, if_true]
  · simp only [h, ite_self]

variable (hv : vCheck s.cur o (s.cur.vctx o.m) (redShape (vredFormats op) (3 ≤ op && op ≤ 5) (op == 5) o (s.cur.vctx o.m)) = true)
  (hs : s.src1 o (s.cur.vctx o.m) (s.cur.vctx o.m).w (s.cur.vctx o.m).g = some (a, u))
include hv hs

theorem vred_empty (h0 : (s.cur.vctx o.m).vl = 0) : vred op o s = .done { u with cur := { u.cur with vstart := 0 } } := by
  unfold vred
  simp only [redShape] at hv
  simp only [hv, hs, Bool.not_true, Bool.false_eq_true, if_false, h0, beq_self_eq_true, if_true]

theorem vred_stops (h0 : (s.cur.vctx o.m).vl ≠ 0) (ha : a.limit = none) {i : Nat}
    (hr : (redResult op u.cur o (s.cur.vctx o.m) a.elem).stop = some i) :
    vred op o s = .trap { cause := 0x0F, tval := BitVec.ofNat 64 i, vec := true, held := a.held }
      { u with cur := u.cur.raise (redResult op u.cur o (s.cur.vctx o.m) a.elem).flags } := by
  unfold vred
  simp only [redShape] at hv
  simp only [redResult] at hr
  simp only [hv, hs, Bool.not_true, Bool.false_eq_true, if_false, beq_eq_false_iff_ne.mpr h0, ha, hr]
  rfl

theorem vred_reduces (h0 : (s.cur.vctx o.m).vl ≠ 0) (ha : a.limit = none)
    (hr : (redResult op u.cur o (s.cur.vctx o.m) a.elem).stop = none) :
    vred op o s = .done { u with
      cur := redDone (op == 5) u.cur o (s.cur.vctx o.m) (redResult op u.cur o (s.cur.vctx o.m) a.elem) } := by
  unfold vred
  simp only [redShape] at hv
  simp only [redResult] at hr
  simp only [hv, hs, Bool.not_true, Bool.false_eq_true, if_false, beq_eq_false_iff_ne.mpr h0, ha, hr]
  rfl

end

/-- What checks 3 and 4 say of a reduction's destinations and its exception mask when they pass. -/
theorem vCheck_redDests {h t : Hart} {o : VOp} {formats : List Nat} {rounds pair : Bool}
    (hv : vCheck h o (h.vctx o.m) (redShape formats rounds pair o (h.vctx o.m)) = true)
    (hw : (h.vctx o.m).w ∣ 256 ∧ 0 < (h.vctx o.m).w) (hp : t.pfx = h.pfx) :
    let ds := redDests pair t o (h.vctx o.m)
    (∀ x ∈ ds, x.fits t) ∧ (∀ a ∈ ds, ∀ b ∈ ds, a.apart b) ∧
    (∀ e, (VMods.of t o).em = some e → e < 32 ∧ ∀ x ∈ ds, overlap e 1 x.base x.regs = false) := by
  have hg := vctx_g_dvd h o.m
  cases pair with
  | true => exact vCheck_pairDests hv rfl ((Nat.mul_dvd_mul_right hg 2).trans (by decide)) hw.1 hw.2 hp
  | false => exact vCheck_dests hv rfl (hg.trans (by decide)) hw.1 hw.2 hp

/-- Each destination of a reduction has the positions of one group, and takes no flag. -/
theorem redDests_same (pair : Bool) (h : Hart) (o : VOp) (c : VCtx) (v e fl : Nat) : ∀ d ∈ redDests pair h o c,
    c.positions d = c.g * (256 * c.lanes / c.w) ∧ d.pick { val := v, lo := e } = d.pick { val := v, lo := e, flags := fl } := by
  have hcopy : ∀ d ∈ h.copyDest (hiDest o.vd.toNat c.g c.w), ∃ k, d = hiDest k c.g c.w := by
    intro d hd
    unfold Hart.copyDest at hd
    split at hd
    · exact ⟨_, List.mem_singleton.mp hd⟩
    · cases hd
  intro d hd
  cases pair with
  | true =>
    simp only [redDests, if_true, List.mem_cons, List.not_mem_nil, or_false] at hd
    rcases hd with rfl | rfl <;> exact ⟨rfl, rfl⟩
  | false =>
    rcases List.mem_cons.mp hd with rfl | hd
    · exact ⟨rfl, rfl⟩
    · obtain ⟨k, rfl⟩ := hcopy d hd
      exact ⟨rfl, rfl⟩

/-- An instruction whose effect is a reduction does what R145 to R147 say. -/
theorem reduction_of_effect {con : VOp → Instr} {op : Nat} {formats : List Nat} {rounds pair : Bool}
    (effect : ∀ o s, exec (con o) s = performPfx (encode (con o)) s (vred op o)) (hf : vredFormats op = formats)
    (hr : (decide (3 ≤ op) && decide (op ≤ 5)) = rounds) (hp : (op == 5) = pair)
    (hw : ∀ f ∈ formats, fmtWidth f ∣ 256 ∧ 0 < fmtWidth f) : Spec.Reduction con op formats rounds pair := by
  subst hf hr hp
  intro o s _ hx hl hd
  refine ⟨fun hbad => ?refused, fun a u hv hs ha hub hus => ⟨fun h0 => ?empty, fun h0 hr => ?reduces, fun i h0 hr => ?stops⟩⟩
  case refused =>
    rw [effect]
    exact performPfx_illegalV hx hl hd (vred_refused (s := s.start) hbad)
  case empty =>
    rw [effect]
    exact performPfx_vectorDone hx hl hd (vred_empty (s := s.start) hv hs h0) hub hus
  case reduces =>
    have fu := Fetched.src1 hs
    have hreg : u.cur.regBits = 256 * (s.cur.vctx o.m).lanes := by
      unfold Hart.regBits Hart.lanes; rw [fu.lmap]; rfl
    obtain ⟨d1, d2, d3⟩ := vCheck_redDests (t := u.cur) hv (hw _ (vCheck_format hv)) fu.pfx
    let r := redResult op u.cur o (s.cur.vctx o.m) a.elem
    have hwritten := reduced_firstWritten hreg (redDests_same _ u.cur o (s.cur.vctx o.m) r.val r.err r.flags) d1 d2 d3
    refine ⟨redDone (op == 5) u.cur o (s.cur.vctx o.m) r, ?_, hwritten⟩
    rw [effect]
    exact performPfx_vectorDone hx hl hd (vred_reduces (s := s.start) hv hs h0 ha hr) hub
      ((congrArg Hart.strikes hwritten.rest).trans hus)
  case stops =>
    rw [effect, performPfx_vector hx hl hd, vred_stops (s := s.start) hv hs h0 ha hr]
    exact congrArg _ (finish_trap _ _ _ hub)

theorem fmtWidth_int {f : Nat} (h : f ∈ [0, 1, 2, 3]) : fmtWidth f ∣ 256 ∧ 0 < fmtWidth f := by
  simp only [List.mem_cons, List.not_mem_nil, or_false] at h
  rcases h with rfl | rfl | rfl | rfl <;> decide

/-- Each reduction is its operation on the elements (R146). -/
theorem vectorReductions : Spec.VectorReductions := by
  refine ⟨?vredsum, ?vredmax, ?vredmin, ?vfredo, ?vfredt, ?vfredc, ?vfredmax, ?vfredmin⟩
  case vredsum => exact reduction_of_effect (fun _ _ => rfl) rfl rfl rfl fun _ => fmtWidth_int
  case vredmax => exact reduction_of_effect (fun _ _ => rfl) rfl rfl rfl fun _ => fmtWidth_int
  case vredmin => exact reduction_of_effect (fun _ _ => rfl) rfl rfl rfl fun _ => fmtWidth_int
  case vfredo => exact reduction_of_effect (fun _ _ => rfl) rfl rfl rfl fun _ => fmtWidth_fp
  case vfredt => exact reduction_of_effect (fun _ _ => rfl) rfl rfl rfl fun _ => fmtWidth_fp
  case vfredc => exact reduction_of_effect (fun _ _ => rfl) rfl rfl rfl fun _ hf => fmtWidth_fp (List.mem_cons.mpr (.inl (List.mem_singleton.mp hf)))
  case vfredmax => exact reduction_of_effect (fun _ _ => rfl) rfl rfl rfl fun _ => fmtWidth_fp
  case vfredmin => exact reduction_of_effect (fun _ _ => rfl) rfl rfl rfl fun _ => fmtWidth_fp

/-! ### What the reductions give (R53 to R55, R146) -/

section
variable {r : Red} (h : r.stop = none) (i val err fl : Nat)
include h

/-- With no flag enabled a step never stops the reduction, and takes its value and error term. -/
theorem Red.step_stop : (r.step 0 i val err fl).stop = none := by simp [Red.step, h]
theorem Red.step_val : (r.step 0 i val err fl).val = val := by simp [Red.step, h]
theorem Red.step_err : (r.step 0 i val err fl).err = err := by simp [Red.step, h]

end

/-- A fold of steps that never stop, seen through what the steps carry on. -/
theorem redFold_foldl {σ : Type} {f : Red → Nat → Option Nat → Red} (carried : Red → σ) (g : σ → Option Nat → σ)
    (hf : ∀ r i x, r.stop = none → (f r i x).stop = none ∧ carried (f r i x) = g (carried r) x) :
    ∀ (xs : List (Option Nat)) (r : Red) (i : Nat), r.stop = none →
      (redFold f r i xs).stop = none ∧ carried (redFold f r i xs) = xs.foldl g (carried r)
  | [], _, _, h => ⟨h, rfl⟩
  | x :: xs, r, i, h => by
    obtain ⟨hstop, hcarried⟩ := hf r i x h
    rw [redFold, List.foldl_cons, ← hcarried]
    exact redFold_foldl carried g hf xs _ _ hstop

/-- A fold that passes over what is not there is the fold of what is there. -/
theorem foldl_present (op : Nat → Nat → Nat) (xs : List (Option Nat)) (a : Nat) :
    xs.foldl (fun a x => match x with | none => a | some y => op a y) a = (xs.filterMap id).foldl op a := by
  rw [List.foldl_filterMap]
  congr 1
  funext a x
  cases x <;> rfl

section
variable (w : Nat) (f : FFmt) (mode init : Nat) (xs : List (Option Nat))

/-- A reduction by a rule on the active elements alone, which carries on its value. -/
theorem redFold_present {step : Red → Nat → Option Nat → Red} {op : Nat → Nat → Nat} (hnone : ∀ r i, step r i none = r)
    (hsome : ∀ r i y, r.stop = none → (step r i (some y)).stop = none ∧ (step r i (some y)).val = op r.val y) :
    (redFold step { val := init } 0 xs).val = (xs.filterMap id).foldl op init := by
  rw [← foldl_present]
  refine (redFold_foldl (fun r => r.val) _ (fun r i x h => ?_) xs { val := init } 0 rfl).2
  cases x with
  | none => rw [hnone]; exact ⟨h, rfl⟩
  | some y => exact hsome r i y h

/-- The sum in order: a step adds each element, −0 where it is inactive (R53). -/
theorem vredN_ordered : (vredN 3 w f mode 0 init xs).stop = none ∧
    (vredN 3 w f mode 0 init xs).val = xs.foldl (fun a x => (faddF f mode a (x.getD (2 ^ (f.w - 1)))).1) init := by
  refine redFold_foldl (fun r => r.val) (fun a x => (faddF f mode a (x.getD (2 ^ (f.w - 1)))).1) (fun r i x h => ?_) xs { val := init } 0 rfl
  exact ⟨Red.step_stop h .., Red.step_val h ..⟩

/-! The tree (R54). -/

theorem treeLevel_zipWith : ∀ (as bs : List Nat) (i : Nat) (r : Red), r.stop = none →
    (treeLevel f mode 0 i as bs r).1 = List.zipWith (fun a b => (faddF f mode a b).1) as bs ∧ (treeLevel f mode 0 i as bs r).2.stop = none
  | [], _, _, _, h => by simpa [treeLevel] using h
  | _ :: _, [], _, _, h => by simpa [treeLevel] using h
  | a :: as, b :: bs, i, r, h => by
    have ih := treeLevel_zipWith as bs (i + 1) (r.step 0 i 0 0 (faddF f mode a b).2) (Red.step_stop h ..)
    exact ⟨congrArg _ ih.1, ih.2⟩

theorem treeSum_tree : ∀ (n : Nat) (ys : List Nat) (y : Nat → Nat) (r : Red), (∀ i, i < 2 ^ n → ys[i]? = some (y i)) → r.stop = none →
    (treeSum f mode 0 n ys r).1 = Spec.tree f mode n y ∧ (treeSum f mode 0 n ys r).2.stop = none
  | 0, ys, y, r, hy, h => by
    have h0 := hy 0 (by decide)
    cases ys with
    | nil => simp at h0
    | cons a ys => exact ⟨by simpa [treeSum, Spec.tree] using h0, h⟩
  | n + 1, ys, y, r, hy, h => by
    have hlevel := treeLevel_zipWith f mode (ys.take (2 ^ n)) (ys.drop (2 ^ n)) 0 r h
    refine treeSum_tree n _ (fun i => (faddF f mode (y i) (y (i + 2 ^ n))).1) _ (fun i hi => ?_) hlevel.2
    have hlow := hy i (by rw [Nat.pow_succ]; omega)
    have hhigh := hy (2 ^ n + i) (by rw [Nat.pow_succ]; omega)
    rw [hlevel.1]
    simp [List.getElem?_zipWith, hi, hlow, hhigh, Nat.add_comm i]

/-- The depth of the tree is the least n whose 2^n positions hold the elements (R54). -/
theorem treeDepth_least {vl n : Nat} (hle : vl ≤ 2 ^ n) (hlt : ∀ m, m < n → 2 ^ m < vl) : treeDepth vl = n := by
  unfold treeDepth
  cases n with
  | zero => rw [if_pos (by simpa using hle)]
  | succ n =>
    have h0 := hlt 0 (by omega)
    have hn := hlt n (by omega)
    have hlog : (vl - 1).log2 = n := (Nat.log2_eq_iff (by omega)).mpr ⟨by omega, by omega⟩
    rw [if_neg (by simpa using h0), hlog]

/-- The tree sum of the elements and of −0 at every other place, with the start value before it (R54). -/
theorem vredN_tree {n : Nat} (hle : xs.length ≤ 2 ^ n) (hlt : ∀ m, m < n → 2 ^ m < xs.length) :
    (vredN 4 w f mode 0 init xs).val =
      (faddF f mode init (Spec.tree f mode n (fun i => (xs.getD i none).getD (2 ^ (f.w - 1))))).1 := by
  have hys : ∀ i, i < 2 ^ n → (xs.map (fun x => x.getD (negZero f)) ++ List.replicate (2 ^ n - xs.length) (negZero f))[i]? =
      some ((xs.getD i none).getD (2 ^ (f.w - 1))) := by
    intro i hi
    by_cases hx : i < xs.length
    · simp [List.getElem?_append_left, hx, negZero]
    · rw [List.getElem?_append_right (by simpa using hx), List.getElem?_replicate, List.length_map, if_pos (by omega)]
      simp [Nat.le_of_not_lt hx, negZero]
  obtain ⟨hval, hstop⟩ := treeSum_tree f mode n _ _ { val := 0 } hys rfl
  rw [← hval]
  simp only [vredN, treeDepth_least hle hlt]
  exact Red.step_val hstop ..

/-- The compensated sum: the running sum and the sum of what its steps left, then their sum as a pair (R55). -/
theorem vredN_compensated :
    let p := Spec.compensated mode (xs.map (fun x => x.getD 0x80000000)) (init, 0x80000000)
    (vredN 5 w f mode 0 init xs).val = (twoSum mode p.1 p.2).1 ∧ (vredN 5 w f mode 0 init xs).err = (twoSum mode p.1 p.2).2.1 := by
  intro p
  have hfold := redFold_foldl (f := fun r i x =>
      let (s, t, f1) := twoSum mode r.val (x.getD (negZero fp32))
      let (e, f2) := faddF fp32 mode r.err t
      r.step 0 i s e (f1 ||| f2)) (fun r => (r.val, r.err))
    (fun p x => ((twoSum mode p.1 (x.getD 0x80000000)).1, (faddF fp32 mode p.2 (twoSum mode p.1 (x.getD 0x80000000)).2.1).1))
    (fun r i x h => ⟨Red.step_stop h .., Prod.ext (Red.step_val h ..) (Red.step_err h ..)⟩) xs { val := init, err := negZero fp32 } 0 rfl
  obtain ⟨hstop, hcarried⟩ := hfold
  have hp : p = _ := (List.foldl_map ..).trans hcarried.symm
  rw [hp]
  exact ⟨Red.step_val hstop .., Red.step_err hstop ..⟩

/-- A step of a maximum or minimum reduction: an inactive element is passed over. -/
def minMaxStep (f : FFmt) (isMax : Bool) (r : Red) (i : Nat) : Option Nat → Red
  | none => r
  | some y => r.step 0 i (minMaxNum f isMax r.val y).1 0 (minMaxNum f isMax r.val y).2

/-- A maximum or minimum with an active element is that of the start value and the active elements in turn (R146). -/
theorem redFold_minMax (isMax : Bool) (h : xs.filterMap id ≠ []) :
    (redFold (minMaxStep f isMax) { val := init } 0 (if xs.all (fun x => x.isNone) then [some init] else xs)).val =
      (xs.filterMap id).foldl (fun a b => (minMaxNum f isMax a b).1) init := by
  have hall : xs.all (fun x => x.isNone) = false := by
    rw [← Bool.not_eq_true]
    intro hn
    exact h (List.filterMap_eq_nil_iff.mpr (fun x hx => by simpa using List.all_eq_true.mp hn x hx))
  rw [hall]
  exact redFold_present init xs (fun _ _ => rfl) (fun r i y hr => ⟨Red.step_stop hr .., Red.step_val hr ..⟩)

end

theorem reductionValues : Spec.ReductionValues := by
  intro w f mode init xs
  refine ⟨?sum, ?max, ?min, (vredN_ordered w f mode init xs).2, (vredN_ordered w f mode init xs).1, fun n => vredN_tree w f mode init xs,
    vredN_compensated w f mode init xs, fun h => ⟨redFold_minMax f init xs true h, redFold_minMax f init xs false h⟩⟩
  case sum => exact redFold_present init xs (fun _ _ => rfl) (fun _ _ _ h => ⟨h, rfl⟩)
  case max => exact redFold_present init xs (fun _ _ => rfl) (fun _ _ _ h => ⟨h, rfl⟩)
  case min => exact redFold_present init xs (fun _ _ => rfl) (fun _ _ _ h => ⟨h, rfl⟩)

end Sys2Proof.Machine

namespace Sys2Proof

/-- Settles O18: the checks and the writing of element 0 once for all eight, and each fold as the sum or the choice it makes. -/
theorem vectorReduces : Obligations.VectorReduces := ⟨Machine.vectorReductions, Machine.reductionValues⟩

end Sys2Proof
end

section
/-!
SUPPORT. Exact operations on the numbers that patterns stand for (R35, R38, R40): a number as a sign, a whole number and a power of two, what
the operations and the relations make of such numbers, and roots.
-/

namespace Sys2Proof.Machine

/-! ### Numbers -/

/-- A sign as a factor. -/
def signQ (neg : Bool) : ℚ := if neg then -1 else 1

@[simp] theorem signQ_true : signQ true = -1 := rfl
@[simp] theorem signQ_false : signQ false = 1 := rfl
@[simp] theorem signQ_not (neg : Bool) : signQ (!neg) = -signQ neg := by cases neg <;> simp

theorem signQ_bne (p q : Bool) : signQ (p != q) = signQ p * signQ q := by cases p <;> cases q <;> simp

theorem signQ_ne_zero (neg : Bool) : signQ neg ≠ 0 := by cases neg <;> simp

/-- An exact value is the number v: it is finite and a whole number times a power of two. -/
def IsNum (x : Ex) (v : ℚ) : Prop := ∃ neg n e, x = .fin neg n 1 e ∧ v = signQ neg * n * (2 : ℚ) ^ e

theorem rational_fin (neg : Bool) (n d : Nat) (e : Int) : Spec.rational (.fin neg n d e) = some (signQ neg * (n / d : ℚ) * (2 : ℚ) ^ e) := rfl

namespace IsNum

theorem rational {x : Ex} {v : ℚ} (h : IsNum x v) : Spec.rational x = some v := by
  obtain ⟨neg, n, e, rfl, rfl⟩ := h
  simp [rational_fin]

theorem isNan {x : Ex} {v : ℚ} (h : IsNum x v) : x.isNan = false := by obtain ⟨neg, n, e, rfl, -⟩ := h; rfl
theorem isSig {x : Ex} {v : ℚ} (h : IsNum x v) : x.isSig = false := by obtain ⟨neg, n, e, rfl, -⟩ := h; rfl
theorem isInf {x : Ex} {v : ℚ} (h : IsNum x v) : x.isInf = false := by obtain ⟨neg, n, e, rfl, -⟩ := h; rfl

theorem isZero_iff {x : Ex} {v : ℚ} (h : IsNum x v) : x.isZero = true ↔ v = 0 := by
  obtain ⟨neg, n, e, rfl, rfl⟩ := h
  cases n with
  | zero => simp [Ex.isZero]
  | succ n => exact iff_of_false (by simp [Ex.isZero]) (mul_ne_zero (mul_ne_zero (signQ_ne_zero neg) (by positivity)) (by positivity))

theorem negate {x : Ex} {v : ℚ} (h : IsNum x v) : IsNum x.negate (-v) := by
  obtain ⟨neg, n, e, rfl, rfl⟩ := h
  exact ⟨!neg, n, e, rfl, by rw [signQ_not]; ring⟩

end IsNum

/-- A pattern that stands for a number is read as that number. -/
theorem readF_isNum {f : FFmt} {a : Nat} {v : ℚ} (h : Spec.value f a = some v) : IsNum (readF f a) v := by
  have hfin : ∀ {neg n e}, readF f a = .fin neg n 1 e → IsNum (readF f a) v := by
    intro neg n e he
    rw [Spec.value, he, rational_fin] at h
    exact ⟨neg, n, e, he, by rw [← Option.some.inj h]; simp⟩
  have hcases : (∃ neg n e, readF f a = .fin neg n 1 e) ∨ Spec.value f a = none := by
    unfold Spec.value readF
    dsimp only
    split
    · split
      · exact .inr rfl
      · exact .inr rfl
    · split
      · exact .inr rfl
      · split
        · exact .inl ⟨_, _, _, rfl⟩
        · exact .inl ⟨_, _, _, rfl⟩
  rcases hcases with ⟨neg, n, e, he⟩ | hn
  · exact hfin he
  · rw [hn] at h; cases h

/-! ### Powers of two -/

theorem pow2_cast {k : Int} (h : 0 ≤ k) : (pow2 k : ℚ) = (2 : ℚ) ^ k := by
  obtain ⟨n, rfl⟩ := Int.eq_ofNat_of_zero_le h
  simp [pow2]

theorem pow2_pos (k : Int) : 0 < pow2 k := Nat.two_pow_pos _

/-- One of the two factors is 1: their quotient is the power of two. -/
theorem pow2_div (k : Int) : (pow2 k : ℚ) / pow2 (-k) = (2 : ℚ) ^ k := by
  rcases le_total 0 k with h | h
  · rw [pow2_cast h, show pow2 (-k) = 1 by simp [pow2, h]]; simp
  · rw [pow2_cast (show 0 ≤ -k by omega), show pow2 k = 1 by simp [pow2, h]]
    rw [zpow_neg]; simp

/-- A power of two as a whole power of two and a square. -/
theorem zpow_square {e s : Int} (c : Nat) (h : e = c + s + s) : (2 : ℚ) ^ e = (2 : ℚ) ^ c * ((2 : ℚ) ^ s * (2 : ℚ) ^ s) := by
  rw [h, zpow_add₀ (by norm_num), zpow_add₀ (by norm_num), zpow_natCast, mul_assoc]

/-- A number at a scale that is not above its own exponent. -/
theorem atScale_mul (neg : Bool) (n : Nat) {e k : Int} (h : k ≤ e) : (atScale neg n e k : ℚ) * (2 : ℚ) ^ k = signQ neg * n * (2 : ℚ) ^ e := by
  have hpow : (pow2 (e - k) : ℚ) * (2 : ℚ) ^ k = (2 : ℚ) ^ e := by
    rw [pow2_cast (by omega), ← zpow_add₀ (by norm_num)]; congr 1; ring
  rw [← hpow]
  cases neg <;> simp [atScale] <;> ring

/-! ### Sums, products, quotients (R38, R40) -/

/-- An integer times a power of two, by its sign and magnitude. -/
theorem isNum_ofScaled (s k : Int) : IsNum (.fin (s < 0) s.natAbs 1 k) (s * (2 : ℚ) ^ k) := by
  refine ⟨_, _, _, rfl, congrArg (· * _) ?_⟩
  rcases lt_or_ge s 0 with h | h
  · simp [h, Nat.cast_natAbs, abs_of_neg]
  · simp [not_lt.mpr h, Nat.cast_natAbs, abs_of_nonneg h]

theorem isNum_zero (neg : Bool) : IsNum (.fin neg 0 1 0) 0 := ⟨neg, 0, 0, rfl, by simp⟩

theorem isNum_add (mode : Nat) {x y : Ex} {p q : ℚ} (hx : IsNum x p) (hy : IsNum y q) :
    IsNum (addEx mode x y).1 (p + q) ∧ (addEx mode x y).2 = 0 := by
  obtain ⟨a, n, e, rfl, rfl⟩ := hx
  obtain ⟨b, m, g, rfl, rfl⟩ := hy
  by_cases h0 : n = 0 ∧ m = 0
  · obtain ⟨rfl, rfl⟩ := h0
    have hadd : addEx mode (.fin a 0 1 e) (.fin b 0 1 g) = (.fin (if a == b then a else mode == 2) 0 1 0, 0) := by simp [addEx]
    rw [hadd]
    exact ⟨by simpa using isNum_zero _, rfl⟩
  · let k := if e < g then e else g
    let s := atScale a n e k + atScale b m g k
    have hk : k ≤ e ∧ k ≤ g := by dsimp only [k]; split <;> omega
    have hsum : (s : ℚ) * (2 : ℚ) ^ k = signQ a * n * (2 : ℚ) ^ e + signQ b * m * (2 : ℚ) ^ g := by
      rw [← atScale_mul a n hk.1, ← atScale_mul b m hk.2]; push_cast [s]; ring
    have hadd : addEx mode (.fin a n 1 e) (.fin b m 1 g) = if s == 0 then (.fin (mode == 2) 0 1 0, 0) else (.fin (s < 0) s.natAbs 1 k, 0) := by
      simp [addEx, h0, s, k]
    rw [hadd, ← hsum]
    by_cases hs : s = 0
    · simpa [hs] using isNum_zero _
    · simpa [hs] using isNum_ofScaled s k

theorem isNum_mul {x y : Ex} {p q : ℚ} (hx : IsNum x p) (hy : IsNum y q) : IsNum (mulEx x y).1 (p * q) ∧ (mulEx x y).2 = 0 := by
  obtain ⟨a, n, e, rfl, rfl⟩ := hx
  obtain ⟨b, m, g, rfl, rfl⟩ := hy
  refine ⟨⟨a != b, n * m, e + g, rfl, ?_⟩, rfl⟩
  rw [signQ_bne, zpow_add₀ (by norm_num)]; push_cast; ring

theorem rational_div {x y : Ex} {p q : ℚ} (hx : IsNum x p) (hy : IsNum y q) (hq : q ≠ 0) :
    Spec.rational (divEx x y).1 = some (p / q) ∧ (divEx x y).2 = 0 := by
  obtain ⟨a, n, e, rfl, rfl⟩ := hx
  obtain ⟨b, m, g, rfl, rfl⟩ := hy
  have hm : m ≠ 0 := by rintro rfl; simp at hq
  have hdiv : divEx (.fin a n 1 e) (.fin b m 1 g) = (.fin (a != b) (n * 1) (1 * m) (e - g), 0) := by simp [divEx, Ex.isNan, hm]
  rw [hdiv, rational_fin]
  refine ⟨congrArg some ?_, rfl⟩
  rw [signQ_bne, zpow_sub₀ (by norm_num)]
  cases b <;> simp <;> ring

theorem isNum_fma (mode : Nat) {x y z : Ex} {p q r : ℚ} (hx : IsNum x p) (hy : IsNum y q) (hz : IsNum z r) :
    IsNum (fmaEx mode x y z).1 (p * q + r) ∧ (fmaEx mode x y z).2 = 0 := by
  obtain ⟨hmul, hmulFlags⟩ := isNum_mul hx hy
  obtain ⟨hadd, haddFlags⟩ := isNum_add mode hmul hz
  have hfma : fmaEx mode x y z = ((addEx mode (mulEx x y).1 z).1, 0) := by
    obtain ⟨a, n, e, he, -⟩ := hadd
    simp [fmaEx, hx.isSig, hy.isSig, hz.isSig, hmulFlags, haddFlags, he]
  rw [hfma]
  exact ⟨hadd, rfl⟩

/-! ### Relations (R48, R107) -/

theorem ltEx_iff {x y : Ex} {p q : ℚ} (hx : IsNum x p) (hy : IsNum y q) : ltEx x y = true ↔ p < q := by
  obtain ⟨a, n, e, rfl, rfl⟩ := hx
  obtain ⟨b, m, g, rfl, rfl⟩ := hy
  let k := if e < g then e else g
  have hk : k ≤ e ∧ k ≤ g := by dsimp only [k]; split <;> omega
  have hlt : ltEx (.fin a n 1 e) (.fin b m 1 g) = decide (atScale a n e k < atScale b m g k) := by simp [ltEx, k]
  rw [hlt, decide_eq_true_eq, ← atScale_mul a n hk.1, ← atScale_mul b m hk.2, mul_lt_mul_iff_left₀ (by positivity), Int.cast_lt]

theorem eqEx_iff {x y : Ex} {p q : ℚ} (hx : IsNum x p) (hy : IsNum y q) : eqEx x y = true ↔ p = q := by
  have h1 := ltEx_iff hx hy
  have h2 := ltEx_iff hy hx
  simp only [eqEx, hx.isNan, hy.isNan, Bool.not_false, Bool.true_and, Bool.and_eq_true, Bool.not_eq_true', ← Bool.not_eq_true, h1, h2, not_lt]
  exact ⟨fun h => le_antisymm h.2 h.1, fun h => ⟨h.ge, h.le⟩⟩

theorem fleRel_iff {x y : Ex} {p q : ℚ} (hx : IsNum x p) (hy : IsNum y q) : fleRel x y = true ↔ p ≤ q := by
  rw [fleRel, Bool.not_eq_true', ← Bool.not_eq_true, ltEx_iff hy hx, not_lt]

/-! ### Roots (R40, R41) -/

theorem isqrtFrom_root : ∀ (k n r : Nat), r * r ≤ n → n < (r + 2 ^ k) * (r + 2 ^ k) →
    isqrtFrom k n r * isqrtFrom k n r ≤ n ∧ n < (isqrtFrom k n r + 1) * (isqrtFrom k n r + 1)
  | 0, n, r, hlow, hhigh => ⟨hlow, hhigh⟩
  | k + 1, n, r, hlow, hhigh => by
    rw [isqrtFrom]
    split
    · rename_i h
      exact isqrtFrom_root k n _ h (by rw [Nat.add_assoc, ← Nat.two_mul, ← Nat.pow_succ']; exact hhigh)
    · rename_i h
      exact isqrtFrom_root k n r hlow (Nat.lt_of_not_le h)

theorem isqrt_root (n : Nat) : isqrt n * isqrt n ≤ n ∧ n < (isqrt n + 1) * (isqrt n + 1) := by
  refine isqrtFrom_root _ n 0 (Nat.zero_le _) ?_
  rw [Nat.zero_add, ← Nat.pow_add]
  exact Nat.lt_of_lt_of_le Nat.lt_log2_self (Nat.pow_le_pow_right (by decide) (by omega))

/-- A number of up to 40 significant bits lies on the same side of the root of T as of any x of the root's unit interval, when that begins
at 2^40 or above: above it such a number is whole. -/
theorem sameSide {T x : ℚ} {r m : Nat} (k : Int) (hlow : (r : ℚ) * r ≤ T) (hhigh : T < (r + 1) * (r + 1)) (hx : (r : ℚ) ≤ x)
    (hx1 : x < r + 1) (h40 : 2 ^ 40 ≤ r) (hm : m < 2 ^ 40) : (m * (2 : ℚ) ^ k) * (m * (2 : ℚ) ^ k) ≤ T ↔ m * (2 : ℚ) ^ k ≤ x := by
  have hr : (0 : ℚ) ≤ r := Nat.cast_nonneg r
  rcases lt_or_ge k 0 with h | h
  · have hu : (m : ℚ) * (2 : ℚ) ^ k ≤ r := by
      calc (m : ℚ) * (2 : ℚ) ^ k ≤ m * 1 := by gcongr; exact zpow_le_one_of_nonpos₀ (by norm_num) h.le
        _ ≤ r := by rw [mul_one]; exact_mod_cast hm.le.trans h40
    have h0 : (0 : ℚ) ≤ m * (2 : ℚ) ^ k := by positivity
    exact ⟨fun _ => hu.trans hx, fun _ => (mul_self_le_mul_self h0 hu).trans hlow⟩
  · obtain ⟨j, rfl⟩ := Int.eq_ofNat_of_zero_le h
    obtain ⟨u, hu⟩ : ∃ u : Nat, (m : ℚ) * (2 : ℚ) ^ ((j : Nat) : Int) = u := ⟨m * 2 ^ j, by push_cast; rw [zpow_natCast]⟩
    rw [hu]
    rcases Nat.lt_or_ge r u with h | h
    · have hru : (r : ℚ) + 1 ≤ u := by exact_mod_cast h
      exact ⟨fun hle => absurd (mul_self_le_mul_self (by positivity) hru) (not_le.mpr (hle.trans_lt hhigh)),
        fun hle => absurd hle (not_le.mpr (hx1.trans_le hru))⟩
    · have hur : (u : ℚ) ≤ r := by exact_mod_cast h
      exact ⟨fun _ => hur.trans hx, fun _ => (mul_self_le_mul_self (by positivity) hur).trans hlow⟩

/-- The same at another scale. -/
theorem sameSide_scaled {T x : ℚ} {r m : Nat} (k s : Int) (hlow : (r : ℚ) * r ≤ T) (hhigh : T < (r + 1) * (r + 1)) (hx : (r : ℚ) ≤ x)
    (hx1 : x < r + 1) (h40 : 2 ^ 40 ≤ r) (hm : m < 2 ^ 40) :
    (m * (2 : ℚ) ^ k) * (m * (2 : ℚ) ^ k) ≤ T * ((2 : ℚ) ^ s * (2 : ℚ) ^ s) ↔ m * (2 : ℚ) ^ k ≤ x * (2 : ℚ) ^ s := by
  have hs : (0 : ℚ) < (2 : ℚ) ^ s := by positivity
  have hsplit : (m : ℚ) * (2 : ℚ) ^ k = m * (2 : ℚ) ^ (k - s) * (2 : ℚ) ^ s := by rw [mul_assoc, ← zpow_add₀ (by norm_num)]; congr 2; ring
  rw [hsplit, show ∀ u c : ℚ, u * c * (u * c) = u * u * (c * c) from fun u c => by ring, mul_le_mul_iff_left₀ (by positivity),
    mul_le_mul_iff_left₀ hs]
  exact sameSide (k - s) hlow hhigh hx hx1 h40 hm

/-- A root of at least 2^80 is at least 2^40. -/
theorem isqrt_large {n : Nat} (h : 2 ^ 80 ≤ n) : 2 ^ 40 ≤ isqrt n := by
  obtain ⟨-, hhigh⟩ := isqrt_root n
  by_contra hlt
  have : (isqrt n + 1) * (isqrt n + 1) ≤ 2 ^ 40 * 2 ^ 40 := Nat.mul_self_le_mul_self (Nat.lt_of_not_le hlt)
  omega

/-- The model's root of n · 2^e, rewritten as N · 4^s with N at least 2^128: the whole root of N where that is exact, else the middle of its
unit interval. -/
theorem sqrtEx_scaled {n : Nat} (e : Int) (hn : n ≠ 0) : ∃ (N : Nat) (s : Int), 2 ^ 128 ≤ N ∧
    (n : ℚ) * (2 : ℚ) ^ e = N * ((2 : ℚ) ^ s * (2 : ℚ) ^ s) ∧
    sqrtEx (.fin false n 1 e) =
      if isqrt N * isqrt N == N then (.fin false (isqrt N) 1 s, 0) else (.fin false (2 * isqrt N + 1) 1 (s - 1), 0) := by
  have hpos : 1 ≤ n := Nat.pos_of_ne_zero hn
  by_cases ho : e % 2 = 0
  · refine ⟨n * 2 ^ 128, (e - 128) / 2, Nat.le_mul_of_pos_left _ hpos, ?_, by simp [sqrtEx, hn, ho]⟩
    rw [zpow_square (e := e) (s := (e - 128) / 2) 128 (by omega), ← mul_assoc]
    push_cast; rfl
  · refine ⟨2 * n * 2 ^ 128, (e - 1 - 128) / 2, Nat.le_mul_of_pos_left _ (by omega), ?_, by simp [sqrtEx, hn, ho]⟩
    rw [zpow_square (e := e) (s := (e - 1 - 128) / 2) 129 (by omega), ← mul_assoc]
    push_cast; ring

/-- The middle of the unit interval from r on, at scale s. -/
theorem rational_middle (r : Nat) (s : Int) :
    Spec.rational (.fin false (2 * r + 1) 1 (s - 1)) = some (((r : ℚ) + 1 / 2) * (2 : ℚ) ^ s) := by
  rw [rational_fin, zpow_sub_one₀ (by norm_num)]
  push_cast
  exact congrArg some (by rw [signQ_false]; ring)

/-- A positive number is read with no sign, a negative one with its sign, and neither as a zero. -/
theorem signQ_mul_pos {neg : Bool} {A : ℚ} (hA : 0 ≤ A) (h : 0 < signQ neg * A) : neg = false ∧ 0 < A := by
  cases neg
  · exact ⟨rfl, by simpa using h⟩
  · simp at h; linarith

theorem signQ_mul_neg {neg : Bool} {A : ℚ} (hA : 0 ≤ A) (h : signQ neg * A < 0) : neg = true ∧ 0 < A := by
  cases neg
  · simp at h; linarith
  · exact ⟨rfl, by simpa using h⟩

/-- The root of a positive number lies on the same side as the exact root of every number of up to 40 significant bits. -/
theorem sqrtEx_side {a : Ex} {p : ℚ} (ha : IsNum a p) (hp : 0 < p) : ∃ x, Spec.rational (sqrtEx a).1 = some x ∧ (sqrtEx a).2 = 0 ∧
    ∀ (m : Nat) (k : Int), m < 2 ^ 40 → ((m * (2 : ℚ) ^ k) * (m * (2 : ℚ) ^ k) ≤ p ↔ m * (2 : ℚ) ^ k ≤ x) := by
  obtain ⟨neg, n, e, rfl, rfl⟩ := ha
  rw [mul_assoc] at hp
  obtain ⟨rfl, hA⟩ := signQ_mul_pos (by positivity) hp
  have hn : n ≠ 0 := by rintro rfl; simp at hA
  obtain ⟨N, s, hN, hval, hsqrt⟩ := sqrtEx_scaled e hn
  obtain ⟨hlow, hhigh⟩ := isqrt_root N
  have hlowQ : (isqrt N : ℚ) * isqrt N ≤ N := by exact_mod_cast hlow
  have hhighQ : (N : ℚ) < (isqrt N + 1) * (isqrt N + 1) := by exact_mod_cast hhigh
  have h40 := isqrt_large (le_trans (by decide) hN)
  rw [hsqrt, signQ_false, one_mul, hval]
  by_cases hexact : isqrt N * isqrt N = N
  · rw [if_pos (by simpa using hexact)]
    exact ⟨(isqrt N : ℚ) * (2 : ℚ) ^ s, by simp [rational_fin], rfl,
      fun m k hm => sameSide_scaled k s hlowQ hhighQ le_rfl (by linarith) h40 hm⟩
  · rw [if_neg (by simpa using hexact)]
    exact ⟨_, rational_middle _ s, rfl, fun m k hm => sameSide_scaled k s hlowQ hhighQ (by linarith) (by linarith) h40 hm⟩

theorem exactResults : Spec.ExactResults := by
  intro f _ g _ h _ mode a b c p q r hp hq hr
  have hx := readF_isNum hp
  have hy := readF_isNum hq
  have hz := readF_isNum hr
  obtain ⟨hadd, haddFlags⟩ := isNum_add mode hx hy
  obtain ⟨hmul, hmulFlags⟩ := isNum_mul hx hy
  obtain ⟨hfma, hfmaFlags⟩ := isNum_fma mode hx hy hz
  exact ⟨hadd.rational, haddFlags, hmul.rational, hmulFlags, rational_div hx hy, hfma.rational, hfmaFlags, eqEx_iff hx hy, ltEx_iff hx hy,
    fleRel_iff hx hy, sqrtEx_side hx⟩

end Sys2Proof.Machine
end

section
/-!
SUPPORT. Rounding (R37, R38): the magnitudes of a format's patterns in order, the pattern below and the pattern above a number, and which of
the two each mode delivers, with which flags.
-/

namespace Sys2Proof.Machine

/-! ### The magnitudes of a format (R35) -/

/-- The magnitude of pattern m, whatever the format's largest finite one. -/
def FFmt.mag (f : FFmt) (m : Nat) : ℚ :=
  if m < 2 ^ f.p then m * (2 : ℚ) ^ (1 - f.bias - f.p)
  else (2 ^ f.p + (m % 2 ^ f.p : Nat)) * (2 : ℚ) ^ (((m / 2 ^ f.p : Nat) : Int) - f.bias - f.p)

/-- A format with infinities whose patterns fill its width (R35). -/
structure FFmt.Binary (f : FFmt) : Prop where
  infs : f.infs = true
  fraction : 0 < f.p
  width : 0 < f.w - 1
  fits : f.maxM + 1 < 2 ^ (f.w - 1)

theorem binary_of_mem {f : FFmt} (h : f ∈ [fp32, bf16, fp16, e5m2]) : f.Binary := by
  simp only [List.mem_cons, List.not_mem_nil, or_false] at h
  rcases h with rfl | rfl | rfl | rfl <;> exact ⟨rfl, by decide, by decide, by decide⟩

theorem fp32_binary : fp32.Binary := binary_of_mem (by decide)

namespace FFmt
variable (f : FFmt)

/-- s units of binade t, counted from the lowest: the magnitude is s times the unit. -/
theorem mag_binade {t s : Nat} (hs : s ≤ 2 * 2 ^ f.p) (ht : t = 0 ∨ 2 ^ f.p ≤ s) :
    f.mag (t * 2 ^ f.p + s) = s * (2 : ℚ) ^ ((t : Int) + 1 - f.bias - f.p) := by
  have hp : 0 < 2 ^ f.p := Nat.two_pow_pos _
  have h2 : (2 : ℚ) ^ f.p ≠ 0 := by positivity
  unfold mag
  rcases Nat.lt_or_ge s (2 ^ f.p) with h | h
  · obtain rfl : t = 0 := by omega
    simp [h]
  · have hge : ¬ t * 2 ^ f.p + s < 2 ^ f.p := by omega
    rw [if_neg hge]
    rcases Nat.lt_or_ge s (2 * 2 ^ f.p) with h' | h'
    · obtain ⟨d, rfl⟩ := Nat.exists_eq_add_of_le h
      have hd : d < 2 ^ f.p := by omega
      rw [show t * 2 ^ f.p + (2 ^ f.p + d) = d + 2 ^ f.p * (t + 1) by ring, Nat.add_mul_mod_self_left, Nat.mod_eq_of_lt hd,
        Nat.add_mul_div_left _ _ hp, Nat.div_eq_of_lt hd]
      push_cast
      ring_nf
    · obtain rfl : s = 2 * 2 ^ f.p := by omega
      rw [show t * 2 ^ f.p + 2 * 2 ^ f.p = 2 ^ f.p * (t + 2) by ring, Nat.mul_mod_right, Nat.mul_div_cancel_left _ hp,
        show (((t + 2 : Nat) : Int) - f.bias - f.p) = ((t : Int) + 1 - f.bias - f.p) + 1 by push_cast; ring, zpow_add_one₀ (by norm_num)]
      push_cast
      ring

/-- Every pattern is a count of units of a binade. -/
theorem exists_binade (m : Nat) : ∃ t s, m = t * 2 ^ f.p + s ∧ s < 2 * 2 ^ f.p ∧ (t = 0 ∨ 2 ^ f.p ≤ s) := by
  have hp : 0 < 2 ^ f.p := Nat.two_pow_pos _
  rcases Nat.lt_or_ge m (2 ^ f.p) with h | h
  · exact ⟨0, m, by omega, by omega, .inl rfl⟩
  · obtain ⟨t, ht⟩ : ∃ t, m / 2 ^ f.p = t + 1 := ⟨m / 2 ^ f.p - 1, by have := Nat.div_pos h hp; omega⟩
    have hmod := Nat.mod_lt m hp
    have hdiv := Nat.div_add_mod m (2 ^ f.p)
    rw [ht, Nat.mul_comm, Nat.succ_mul] at hdiv
    exact ⟨t, 2 ^ f.p + m % 2 ^ f.p, by omega, by omega, .inr (by omega)⟩

theorem mag_strictMono : StrictMono f.mag := by
  refine strictMono_nat_of_lt_succ (fun m => ?_)
  obtain ⟨t, s, rfl, hs, ht⟩ := f.exists_binade m
  rw [Nat.add_assoc, f.mag_binade (by omega) ht, f.mag_binade (s := s + 1) (by omega) (by omega)]
  push_cast
  gcongr
  linarith

theorem mag_zero : f.mag 0 = 0 := by simp [mag]

theorem mag_nonneg (m : Nat) : 0 ≤ f.mag m := f.mag_zero ▸ f.mag_strictMono.monotone (Nat.zero_le m)

end FFmt

/-! ### Patterns and numbers (R35, R36) -/

/-- The sign bit and the magnitude of a pattern made of them. -/
theorem signed_split {f : FFmt} (neg : Bool) {m : Nat} (hm : m < 2 ^ (f.w - 1)) :
    signed f neg m % 2 ^ (f.w - 1) = m ∧ bitN (signed f neg m) (f.w - 1) = neg := by
  cases neg
  · simp [signed, bitN, Nat.mod_eq_of_lt hm, Nat.div_eq_of_lt hm]
  · refine ⟨by simp [signed, Nat.mod_eq_of_lt hm], ?_⟩
    rw [signed, if_pos rfl, bitN, Nat.add_div_left _ (Nat.two_pow_pos _), Nat.div_eq_of_lt hm]
    rfl

namespace FFmt.Binary
variable {f : FFmt} (hf : f.Binary)
include hf

theorem signed_lt (neg : Bool) {m : Nat} (hm : m ≤ f.maxM) : signed f neg m < 2 ^ f.w := by
  have hw : 2 ^ f.w = 2 ^ (f.w - 1) + 2 ^ (f.w - 1) := by
    rw [← Nat.two_mul, ← Nat.pow_succ']; congr 1; have := hf.width; omega
  have := hf.fits
  unfold signed
  split <;> omega

theorem signed_parity (neg : Bool) (m : Nat) : signed f neg m % 2 = m % 2 := by
  have h2 : 2 ∣ 2 ^ (f.w - 1) := dvd_pow_self 2 (by have := hf.width; omega)
  unfold signed
  split <;> omega

/-- A pattern up to the largest finite one stands for its magnitude with its sign. -/
theorem readF_finite {x : Nat} (h : x % 2 ^ (f.w - 1) ≤ f.maxM) :
    IsNum (readF f x) (signQ (bitN x (f.w - 1)) * f.mag (x % 2 ^ (f.w - 1))) := by
  unfold readF FFmt.mag
  have h1 : ¬ x % 2 ^ (f.w - 1) > f.maxM := by omega
  simp only [hf.infs, Bool.true_and, decide_eq_true_eq, if_neg h1, Bool.not_true, Bool.false_and, Bool.false_eq_true, if_false]
  by_cases he : x % 2 ^ (f.w - 1) < 2 ^ f.p
  · rw [if_pos he, Nat.div_eq_of_lt he, Nat.mod_eq_of_lt he]
    exact ⟨_, _, _, rfl, by ring⟩
  · have hdiv : (x % 2 ^ (f.w - 1)) / 2 ^ f.p ≠ 0 := by
      rw [Nat.div_ne_zero_iff]; exact ⟨by positivity, Nat.le_of_not_lt he⟩
    rw [if_neg he, if_neg (by simpa using hdiv)]
    exact ⟨_, _, _, rfl, by push_cast; ring⟩

theorem value_finite {x : Nat} (h : x % 2 ^ (f.w - 1) ≤ f.maxM) :
    Spec.value f x = some (signQ (bitN x (f.w - 1)) * f.mag (x % 2 ^ (f.w - 1))) := (hf.readF_finite h).rational

/-- The patterns that stand for numbers are those up to the largest finite one. -/
theorem value_some {x : Nat} {y : ℚ} (h : Spec.value f x = some y) :
    x % 2 ^ (f.w - 1) ≤ f.maxM ∧ y = signQ (bitN x (f.w - 1)) * f.mag (x % 2 ^ (f.w - 1)) := by
  have hle : x % 2 ^ (f.w - 1) ≤ f.maxM := by
    by_contra hgt
    have h1 : x % 2 ^ (f.w - 1) > f.maxM := by omega
    have hnone : Spec.value f x = none := by
      unfold Spec.value readF
      simp only [hf.infs, Bool.true_and, decide_eq_true_eq, if_pos h1]
      split <;> rfl
    rw [hnone] at h; cases h
  rw [hf.value_finite hle] at h
  exact ⟨hle, (Option.some.inj h).symm⟩

theorem readF_signed (neg : Bool) {m : Nat} (hm : m ≤ f.maxM) : IsNum (readF f (signed f neg m)) (signQ neg * f.mag m) := by
  obtain ⟨h1, h2⟩ := signed_split (f := f) neg (m := m) (by have := hf.fits; omega)
  have h := hf.readF_finite (x := signed f neg m) (by rw [h1]; exact hm)
  rwa [h1, h2] at h

theorem value_signed (neg : Bool) {m : Nat} (hm : m ≤ f.maxM) : Spec.value f (signed f neg m) = some (signQ neg * f.mag m) :=
  (hf.readF_signed neg hm).rational

theorem readF_signed_inf (neg : Bool) : readF f (signed f neg (f.maxM + 1)) = .inf neg := by
  obtain ⟨h1, h2⟩ := signed_split neg hf.fits
  unfold readF
  simp only [hf.infs, h1, h2, Bool.true_and, decide_eq_true_eq, if_pos (show f.maxM + 1 > f.maxM by omega), beq_self_eq_true, if_true]

theorem value_signed_inf (neg : Bool) : Spec.value f (signed f neg (f.maxM + 1)) = none := by
  rw [Spec.value, hf.readF_signed_inf]; rfl

end FFmt.Binary

/-! ### The binade of a number -/

/-- The logarithm of a ratio, rounded down. -/
theorem log2Ratio_spec {num den : Nat} (hn : 0 < num) (hd : 0 < den) :
    (2 : ℚ) ^ log2Ratio num den ≤ (num : ℚ) / den ∧ (num : ℚ) / den < (2 : ℚ) ^ (log2Ratio num den + 1) := by
  have hdQ : (0 : ℚ) < den := by exact_mod_cast hd
  let k : Int := (num.log2 : Int) - den.log2
  have hnlo : (2 : ℚ) ^ (num.log2 : Int) ≤ num := by rw [zpow_natCast]; exact_mod_cast Nat.log2_self_le hn.ne'
  have hnhi : (num : ℚ) < (2 : ℚ) ^ ((num.log2 : Int) + 1) := by rw [zpow_add_one₀ (by norm_num), zpow_natCast]; exact_mod_cast Nat.lt_log2_self
  have hdlo : (2 : ℚ) ^ (den.log2 : Int) ≤ den := by rw [zpow_natCast]; exact_mod_cast Nat.log2_self_le hd.ne'
  have hdhi : (den : ℚ) < (2 : ℚ) ^ ((den.log2 : Int) + 1) := by rw [zpow_add_one₀ (by norm_num), zpow_natCast]; exact_mod_cast Nat.lt_log2_self
  have hlow : (2 : ℚ) ^ (k - 1) ≤ (num : ℚ) / den := by
    rw [le_div_iff₀ hdQ]
    calc (2 : ℚ) ^ (k - 1) * den ≤ (2 : ℚ) ^ (k - 1) * (2 : ℚ) ^ ((den.log2 : Int) + 1) := by gcongr
      _ = (2 : ℚ) ^ (num.log2 : Int) := by rw [← zpow_add₀ (by norm_num)]; congr 1; ring
      _ ≤ num := hnlo
  have hhigh : (num : ℚ) / den < (2 : ℚ) ^ (k + 1) := by
    rw [div_lt_iff₀ hdQ]
    calc (num : ℚ) < (2 : ℚ) ^ ((num.log2 : Int) + 1) := hnhi
      _ = (2 : ℚ) ^ (k + 1) * (2 : ℚ) ^ (den.log2 : Int) := by rw [← zpow_add₀ (by norm_num)]; congr 1; ring
      _ ≤ (2 : ℚ) ^ (k + 1) * den := by gcongr
  have htest : num * pow2 (-k) < den * pow2 k ↔ (num : ℚ) / den < (2 : ℚ) ^ k := by
    have hpos : (0 : ℚ) < pow2 (-k) := by exact_mod_cast pow2_pos _
    rw [← pow2_div, div_lt_div_iff₀ hdQ hpos, mul_comm (pow2 k : ℚ)]
    exact_mod_cast Iff.rfl
  have hlog : log2Ratio num den = if num * pow2 (-k) < den * pow2 k then k - 1 else k := rfl
  rw [hlog]
  by_cases h : num * pow2 (-k) < den * pow2 k
  · rw [if_pos h, Int.sub_add_cancel]
    exact ⟨hlow, htest.mp h⟩
  · rw [if_neg h]
    exact ⟨not_lt.mp (fun hlt => h (htest.mpr hlt)), hhigh⟩

/-! ### The two neighbours, and the choice of a mode (R37) -/

/-- Whether the mode takes the upper neighbour of V, where the lower one is pattern m. -/
def TakesUpper (mode : Nat) (neg : Bool) (m : Nat) (lo V hi : ℚ) : Prop :=
  match mode with
  | 0 => hi - V < V - lo ∨ (hi - V = V - lo ∧ m % 2 = 1)
  | 1 => False
  | 2 => neg = true ∧ lo < V
  | 3 => neg = false ∧ lo < V
  | _ => hi - V ≤ V - lo

/-- A remainder of a division against its divisor is a number against its two neighbours. -/
theorem roundsUp_iff (mode : Nat) (neg : Bool) {q r d m : Nat} {lo V hi u : ℚ} (hu : 0 < u) (hd : 0 < d) (hlo : lo = q * u)
    (hV : V = (q + r / d) * u) (hhi : hi = (q + 1) * u) (hm : m % 2 = q % 2) :
    (roundsUp mode neg q r d = true ↔ TakesUpper mode neg m lo V hi) ∧ (r = 0 ↔ V = lo) := by
  have hdQ : (0 : ℚ) < d := by exact_mod_cast hd
  have hud : 0 < u / d := by positivity
  have hbelow : V - lo = r * (u / d) := by rw [hV, hlo]; ring
  have habove : hi - V = (d - r) * (u / d) := by rw [hV, hhi]; field_simp; ring
  have hlt : lo < V ↔ r ≠ 0 := by
    rw [← sub_pos, hbelow, mul_pos_iff_of_pos_right hud, Nat.cast_pos]; omega
  have heq : V = lo ↔ r = 0 := by
    rw [← sub_eq_zero, hbelow, mul_eq_zero, Nat.cast_eq_zero, or_iff_left hud.ne']
  have hup : hi - V < V - lo ↔ 2 * r > d := by
    rw [hbelow, habove, mul_lt_mul_iff_left₀ hud, sub_lt_iff_lt_add, ← two_mul]; exact_mod_cast Iff.rfl
  have htie : hi - V = V - lo ↔ 2 * r = d := by
    rw [hbelow, habove, mul_left_inj' hud.ne', sub_eq_iff_eq_add, ← two_mul, eq_comm]; exact_mod_cast Iff.rfl
  have hupTie : hi - V ≤ V - lo ↔ 2 * r ≥ d := by
    rw [hbelow, habove, mul_le_mul_iff_left₀ hud, sub_le_iff_le_add, ← two_mul]; exact_mod_cast Iff.rfl
  refine ⟨?_, heq.symm⟩
  unfold roundsUp TakesUpper
  split
  · simp [hup, htie, hm]
  · simp
  · simp [hlt]
  · simp [hlt]
  · simp [hupTie]; omega

/-- The pattern the mode chooses next to V, before overflow: m is the one below. -/
theorem takesUpper_lt {mode : Nat} {neg : Bool} {m : Nat} {lo V hi : ℚ} (h : TakesUpper mode neg m lo V hi) (hhi : V < hi) : lo < V := by
  unfold TakesUpper at h
  split at h
  · rcases h with h | h
    · linarith
    · linarith [h.1]
  · exact h.elim
  · exact h.2
  · exact h.2
  · linarith

/-- The quotient and the remainder that are rounded, as the number they stand for. -/
theorem quantize_spec (mode : Nat) (neg : Bool) (num : Nat) {den : Nat} (e q : Int) (hd : 0 < den) :
    ∃ quo r d : Nat, 0 < d ∧ r < d ∧ (num / den : ℚ) * (2 : ℚ) ^ e = (quo + r / d) * (2 : ℚ) ^ q ∧
      quantize mode neg num den e q = (if roundsUp mode neg quo r d then quo + 1 else quo, r != 0) := by
  have hpos : 0 < den * pow2 (q - e) := Nat.mul_pos hd (pow2_pos _)
  refine ⟨_, _, _, hpos, Nat.mod_lt (num * pow2 (e - q)) hpos, ?_, rfl⟩
  have hdQ : ((den * pow2 (q - e) : Nat) : ℚ) ≠ 0 := by exact_mod_cast hpos.ne'
  have hsplit := Nat.div_add_mod (num * pow2 (e - q)) (den * pow2 (q - e))
  have hquo : ((num * pow2 (e - q) / (den * pow2 (q - e)) : Nat) : ℚ) +
      ((num * pow2 (e - q) % (den * pow2 (q - e)) : Nat) : ℚ) / ((den * pow2 (q - e) : Nat) : ℚ) =
      ((num * pow2 (e - q) : Nat) : ℚ) / ((den * pow2 (q - e) : Nat) : ℚ) := by
    rw [eq_div_iff hdQ, add_mul, div_mul_cancel₀ _ hdQ, mul_comm]
    exact_mod_cast hsplit
  have hscale : (2 : ℚ) ^ e = (pow2 (e - q) : ℚ) / pow2 (q - e) * (2 : ℚ) ^ q := by
    rw [show q - e = -(e - q) by ring, pow2_div, ← zpow_add₀ (by norm_num)]; congr 1; ring
  rw [hquo, hscale]
  push_cast
  rw [mul_div_mul_comm, mul_assoc]

/-- The exponent of the binade a number is rounded in: its own, or the lowest (R38). -/
def roundExp (f : FFmt) (num den : Nat) (e : Int) : Int :=
  if log2Ratio num den + e < 1 - f.bias then 1 - f.bias else log2Ratio num den + e

/-- What is delivered for a chosen pattern c, before its sign (R38): the overflow result, or c with the flags fl. -/
def delivered (f : FFmt) (mode : Nat) (neg : Bool) (c fl : Nat) : Nat × Nat :=
  if c > f.maxM then
    if ovfToInf mode neg then (if f.infs then (signed f neg (f.maxM + 1), flagOF + flagNX) else (f.nan, flagOF + flagNX))
    else (signed f neg f.maxM, flagOF + flagNX)
  else (signed f neg c, fl)

/-- A number is tiny where it is below the lowest normal one after rounding with an unbounded exponent (R38, log 20). -/
def tinyAfter (f : FFmt) (mode : Nat) (neg : Bool) (num den : Nat) (e : Int) : Bool :=
  log2Ratio num den + e < 1 - f.bias && (log2Ratio num den + e < 1 - f.bias - 1 ||
    (quantize mode neg num den e (log2Ratio num den + e - f.p)).1 < 2 ^ (f.p + 1))

theorem roundF_fin (f : FFmt) (mode : Nat) (neg : Bool) {num : Nat} (den : Nat) (e : Int) (hn : 0 < num) :
    roundF f mode false (.fin neg num den e) =
      delivered f mode neg ((roundExp f num den e - (1 - f.bias)).toNat * 2 ^ f.p + (quantize mode neg num den e (roundExp f num den e - f.p)).1)
        ((if (quantize mode neg num den e (roundExp f num den e - f.p)).2 then flagNX else 0) +
          if (quantize mode neg num den e (roundExp f num den e - f.p)).2 && tinyAfter f mode neg num den e then flagUF else 0) := by
  have h0 : (num == 0) = false := by simpa using hn.ne'
  unfold roundF delivered roundExp
  simp only [h0, Bool.false_eq_true, if_false, Bool.false_or, Bool.not_eq_true', ← Bool.not_eq_true]
  by_cases ho : ovfToInf mode neg = true
  · simp only [ho, not_true, if_false, if_true]
    rfl
  · simp only [ho]
    rfl

/-- The binade a number is rounded in: not below the lowest, above the number's own, and the number's own but for the lowest. -/
theorem roundExp_spec (f : FFmt) {num den : Nat} (e : Int) (hn : 0 < num) (hd : 0 < den) :
    1 - f.bias ≤ roundExp f num den e ∧ (num / den : ℚ) * (2 : ℚ) ^ e < (2 : ℚ) ^ (roundExp f num den e + 1) ∧
      (roundExp f num den e = 1 - f.bias ∨ (2 : ℚ) ^ roundExp f num den e ≤ (num / den : ℚ) * (2 : ℚ) ^ e) := by
  obtain ⟨hlow, hhigh⟩ := log2Ratio_spec hn hd
  have hlowV : (2 : ℚ) ^ (log2Ratio num den + e) ≤ (num / den : ℚ) * (2 : ℚ) ^ e := by rw [zpow_add₀ (by norm_num)]; gcongr
  have hle : log2Ratio num den + e ≤ roundExp f num den e := by unfold roundExp; split <;> omega
  refine ⟨by unfold roundExp; split <;> omega, ?_, ?_⟩
  · calc (num / den : ℚ) * (2 : ℚ) ^ e < (2 : ℚ) ^ (log2Ratio num den + 1) * (2 : ℚ) ^ e := by gcongr
      _ = (2 : ℚ) ^ (log2Ratio num den + e + 1) := by rw [← zpow_add₀ (by norm_num)]; congr 1; ring
      _ ≤ (2 : ℚ) ^ (roundExp f num den e + 1) := zpow_le_zpow_right₀ (by norm_num) (by omega)
  · unfold roundExp
    split
    · exact .inl rfl
    · exact .inr hlowV

/-- The units of a number of binade `top`, p bits to the unit: fewer than 2^(p + 1), and 2^p or more but below the binade. -/
theorem units_spec {V : ℚ} {quo r d p : Nat} {top : Int} (hrd : r < d) (hV : V = (quo + r / d) * (2 : ℚ) ^ (top - p)) :
    (V < (2 : ℚ) ^ (top + 1) → quo < 2 * 2 ^ p) ∧ ((2 : ℚ) ^ top ≤ V → 2 ^ p ≤ quo) := by
  have hdQ : (0 : ℚ) < d := by exact_mod_cast Nat.zero_lt_of_lt hrd
  have hu : (0 : ℚ) < (2 : ℚ) ^ (top - p) := by positivity
  have hfrac : (r : ℚ) / d < 1 := by rw [div_lt_one hdQ]; exact_mod_cast hrd
  have hfrac0 : (0 : ℚ) ≤ (r : ℚ) / d := by positivity
  have htop : (2 : ℚ) ^ top = 2 ^ p * (2 : ℚ) ^ (top - p) := by rw [← zpow_natCast, ← zpow_add₀ (by norm_num)]; congr 1; ring
  refine ⟨fun h => ?_, fun h => ?_⟩
  · rw [zpow_add_one₀ (by norm_num), mul_comm, htop, ← mul_assoc, hV] at h
    have h' := lt_of_mul_lt_mul_right h hu.le
    exact_mod_cast (show (quo : ℚ) < 2 * 2 ^ p by linarith)
  · rw [htop, hV] at h
    have h' := le_of_mul_le_mul_right h hu
    have : ((2 ^ p : Nat) : ℚ) < quo + 1 := by push_cast; linarith
    exact Nat.lt_succ_iff.mp (by exact_mod_cast this)

/-- A mode rounds V to the pattern c, with the flags fl where c is finite: m is the pattern below, the mode chooses m or its successor, and the
flags say whether V is m, and raise nothing where it is. -/
structure Rounds (f : FFmt) (mode : Nat) (neg : Bool) (V : ℚ) (m c fl : Nat) : Prop where
  below : f.mag m ≤ V
  above : V < f.mag (m + 1)
  choice : (c = m + 1 ∧ TakesUpper mode neg m (f.mag m) V (f.mag (m + 1))) ∨
    (c = m ∧ ¬ TakesUpper mode neg m (f.mag m) V (f.mag (m + 1)))
  inexact : fl % 2 = 1 ↔ V ≠ f.mag m
  exact : fl % 2 ≠ 1 → fl = 0

/-- A number in a format is rounded to one of its two neighbours. -/
theorem roundF_rounds {f : FFmt} (hp : 0 < f.p) (mode : Nat) (neg : Bool) {num den : Nat} (e : Int) (hn : 0 < num) (hd : 0 < den) :
    ∃ m c fl : Nat, Rounds f mode neg ((num / den : ℚ) * (2 : ℚ) ^ e) m c fl ∧
      roundF f mode false (.fin neg num den e) = delivered f mode neg c fl := by
  obtain ⟨htop, hhigh, hlow⟩ := roundExp_spec f e hn hd
  obtain ⟨quo, r, d, hd0, hrd, hV, hquant⟩ := quantize_spec mode neg num e (roundExp f num den e - f.p) hd
  rw [roundF_fin f mode neg den e hn, hquant]
  generalize tinyAfter f mode neg num den e = tiny
  generalize roundExp f num den e = top at hV htop hhigh hlow
  generalize (num / den : ℚ) * (2 : ℚ) ^ e = V at hV hhigh hlow
  obtain ⟨hfew, hmany⟩ := units_spec hrd hV
  obtain ⟨t, ht⟩ : ∃ t : Nat, top - (1 - f.bias) = t := Int.eq_ofNat_of_zero_le (by omega)
  have hbinade : t = 0 ∨ 2 ^ f.p ≤ quo := hlow.imp (fun h => by omega) hmany
  have hunit : (t : Int) + 1 - f.bias - f.p = top - f.p := by rw [← ht]; ring
  have hlo := hunit ▸ f.mag_binade (t := t) (hfew hhigh).le hbinade
  have hhi := hunit ▸ f.mag_binade (t := t) (s := quo + 1) (hfew hhigh) (hbinade.imp_right (fun h => by omega))
  push_cast at hhi
  have hparity : (t * 2 ^ f.p + quo) % 2 = quo % 2 := by
    have : 2 ∣ 2 ^ f.p := dvd_pow_self 2 hp.ne'
    rw [Nat.add_mod, Nat.mod_eq_zero_of_dvd (this.mul_left _)]; simp
  have hu : (0 : ℚ) < (2 : ℚ) ^ (top - f.p) := by positivity
  obtain ⟨hup, hexact⟩ := roundsUp_iff mode neg hu hd0 hlo hV hhi hparity
  have hdQ : (0 : ℚ) < d := by exact_mod_cast hd0
  have hfrac : (r : ℚ) / d < 1 := by rw [div_lt_one hdQ]; exact_mod_cast hrd
  have hfrac0 : (0 : ℚ) ≤ (r : ℚ) / d := by positivity
  rw [ht, Int.toNat_natCast]
  refine ⟨t * 2 ^ f.p + quo, _, _, ⟨?below, ?above, ?choice, ?inexact, ?exact⟩, rfl⟩
  case below => rw [hlo, hV]; gcongr; linarith
  case above => rw [Nat.add_assoc, hhi, hV]; gcongr
  case choice =>
    rw [Nat.add_assoc, ← hup]
    by_cases h : roundsUp mode neg quo r d = true
    · left; simp [h]
    · right; simp [h]
  case inexact =>
    rw [ne_eq, ← hexact]
    by_cases h : r = 0
    · simp [h]
    · cases tiny <;> simp [h, flagNX, flagUF]
  case exact =>
    by_cases h : r = 0
    · simp [h]
    · cases tiny <;> simp [h, flagNX, flagUF]

namespace Rounds
variable {f : FFmt} {mode m c fl : Nat} {neg : Bool} {V : ℚ} (h : Rounds f mode neg V m c fl)
include h

/-- Where V is the pattern below, that is the choice, with no flag. -/
theorem of_exact (hV : V = f.mag m) : c = m ∧ fl = 0 := by
  refine ⟨?_, h.exact (fun hfl => h.inexact.mp hfl hV)⟩
  rcases h.choice with ⟨-, hup⟩ | ⟨hc, -⟩
  · exact absurd hV (takesUpper_lt hup h.above).ne'
  · exact hc

/-- The choice is V only where V is the pattern below. -/
theorem ne_iff : fl % 2 = 1 ↔ f.mag c ≠ V := by
  rw [h.inexact]
  rcases h.choice with ⟨rfl, hup⟩ | ⟨rfl, -⟩
  · exact iff_of_true (takesUpper_lt hup h.above).ne' h.above.ne'
  · exact not_congr eq_comm

/-- A number whose choice has no finite pattern is above every finite one. -/
theorem lt_of_overflow (ho : f.maxM < c) : f.mag f.maxM < V := by
  rcases h.choice with ⟨rfl, hup⟩ | ⟨rfl, -⟩
  · exact (f.mag_strictMono.monotone (Nat.lt_succ_iff.mp ho)).trans_lt (takesUpper_lt hup h.above)
  · exact (f.mag_strictMono ho).trans_le h.below

end Rounds

/-! ### What each mode's choice means (R37) -/

theorem signQ_mul_self (neg : Bool) : signQ neg * signQ neg = 1 := by cases neg <;> simp
theorem abs_signQ (neg : Bool) : |signQ neg| = 1 := by cases neg <;> simp
theorem abs_signQ_mul (neg : Bool) (x : ℚ) : |signQ neg * x| = |x| := by rw [abs_mul, abs_signQ, one_mul]

theorem abs_signQ_sub (neg : Bool) (x y : ℚ) : |signQ neg * x - signQ neg * y| = |x - y| := by rw [← mul_sub, abs_signQ_mul]

/-- What R37 asks of x, delivered in a mode for the number v, against another number y of the format; r is the pattern of x. -/
def RoundedTo (mode r : Nat) (x v y : ℚ) : Prop :=
  (mode = 0 → |x - v| ≤ |y - v| ∧ (|x - v| = |y - v| → y ≠ x → r % 2 = 0)) ∧
  (mode = 1 → |x| ≤ |v| ∧ (|y| ≤ |v| → |y| ≤ |x|)) ∧
  (mode = 2 → x ≤ v ∧ (y ≤ v → y ≤ x)) ∧
  (mode = 3 → v ≤ x ∧ (v ≤ y → x ≤ y)) ∧
  (mode = 4 → |x - v| ≤ |y - v| ∧ (|x - v| = |y - v| → |y| ≤ |x|))

/-- Away from zero where the number is not the lower neighbour itself. -/
theorem directed_up {lo V hi W z : ℚ} (hlo : lo ≤ V) (hhi : V < hi) (hz : z ≤ lo ∨ hi ≤ z)
    (hc : (W = hi ∧ lo < V) ∨ (W = lo ∧ ¬ lo < V)) : V ≤ W ∧ (V ≤ z → W ≤ z) := by
  rcases hc with ⟨rfl, h⟩ | ⟨rfl, h⟩
  · exact ⟨hhi.le, fun hVz => hz.resolve_left (by linarith)⟩
  · have : W = V := le_antisymm hlo (not_lt.mp h)
    exact ⟨this.ge, fun hVz => by linarith⟩

/-- Towards zero. -/
theorem directed_down {lo V hi z : ℚ} (hlo : lo ≤ V) (hhi : V < hi) (hz : z ≤ lo ∨ hi ≤ z) :
    lo ≤ V ∧ (z ≤ V → z ≤ lo) := ⟨hlo, fun h => hz.resolve_right (by linarith)⟩

section
variable {lo V hi W z : ℚ} {m c : Nat} {neg : Bool} (hlo0 : 0 ≤ lo) (hlo : lo ≤ V) (hhi : V < hi) (hz : z ≤ lo ∨ hi ≤ z)
include hlo0 hlo hhi hz

/-- To nearest, ties to even: no number is nearer than the choice, and one as near is the other neighbour of an even choice. -/
theorem nearest_even (hc : (c = m + 1 ∧ W = hi ∧ TakesUpper 0 neg m lo V hi) ∨ (c = m ∧ W = lo ∧ ¬ TakesUpper 0 neg m lo V hi)) :
    |W - V| ≤ |z - V| ∧ (|W - V| = |z - V| → z ≠ W → c % 2 = 0) := by
  simp only [TakesUpper, not_or, not_and, not_lt] at hc
  rcases hc with ⟨rfl, rfl, hup⟩ | ⟨rfl, rfl, hle, hne⟩
  · have hle : W - V ≤ V - lo := by rcases hup with h | h <;> linarith
    rw [abs_of_pos (by linarith : 0 < W - V)]
    rcases hz with h | h
    · rw [abs_of_nonpos (by linarith)]
      refine ⟨by linarith, fun heq _ => ?_⟩
      rcases hup with hup | ⟨-, hodd⟩
      · linarith
      · omega
    · rw [abs_of_pos (by linarith)]
      exact ⟨by linarith, fun heq hne => absurd (by linarith) hne⟩
  · rw [abs_of_nonpos (by linarith : W - V ≤ 0)]
    rcases hz with h | h
    · rw [abs_of_nonpos (by linarith)]
      exact ⟨by linarith, fun heq hne => absurd (by linarith) hne⟩
    · rw [abs_of_pos (by linarith)]
      exact ⟨by linarith, fun heq _ => by have := hne (by linarith); omega⟩

/-- To nearest, ties away: no number is nearer than the choice, and one as near is no larger. -/
theorem nearest_away (hc : (c = m + 1 ∧ W = hi ∧ TakesUpper 4 neg m lo V hi) ∨ (c = m ∧ W = lo ∧ ¬ TakesUpper 4 neg m lo V hi)) :
    |W - V| ≤ |z - V| ∧ (|W - V| = |z - V| → |z| ≤ W) := by
  simp only [TakesUpper, not_le] at hc
  rcases hc with ⟨-, rfl, hup⟩ | ⟨-, rfl, hlt⟩
  · rw [abs_of_pos (by linarith : 0 < W - V)]
    rcases hz with h | h
    · rw [abs_of_nonpos (by linarith)]
      exact ⟨by linarith, fun heq => abs_le.mpr ⟨by linarith, by linarith⟩⟩
    · rw [abs_of_pos (by linarith)]
      exact ⟨by linarith, fun heq => abs_le.mpr ⟨by linarith, by linarith⟩⟩
  · rw [abs_of_nonpos (by linarith : W - V ≤ 0)]
    rcases hz with h | h
    · rw [abs_of_nonpos (by linarith)]
      exact ⟨by linarith, fun heq => abs_le.mpr ⟨by linarith, by linarith⟩⟩
    · rw [abs_of_pos (by linarith)]
      exact ⟨by linarith, fun heq => absurd heq (by linarith [heq])⟩

/-- The neighbour a mode chooses is what R37 asks for. -/
theorem roundedTo_of_choice {mode r : Nat} (hr : r % 2 = c % 2) (hzabs : |z| ≤ lo ∨ hi ≤ |z|)
    (hc : (c = m + 1 ∧ W = hi ∧ TakesUpper mode neg m lo V hi) ∨ (c = m ∧ W = lo ∧ ¬ TakesUpper mode neg m lo V hi)) :
    RoundedTo mode r (signQ neg * W) (signQ neg * V) (signQ neg * z) := by
  have hW0 : 0 ≤ W := by rcases hc with ⟨-, rfl, -⟩ | ⟨-, rfl, -⟩ <;> linarith
  have hV0 : 0 ≤ V := hlo0.trans hlo
  refine ⟨?even, ?zero, ?down, ?up, ?away⟩
  case even =>
    rintro rfl
    obtain ⟨h1, h2⟩ := nearest_even hlo0 hlo hhi hz hc
    rw [abs_signQ_sub, abs_signQ_sub, hr]
    exact ⟨h1, fun heq hne => h2 heq (fun e => hne (by rw [e]))⟩
  case zero =>
    rintro rfl
    obtain ⟨-, rfl, -⟩ : c = m ∧ W = lo ∧ True := by simpa [TakesUpper] using hc
    rw [abs_signQ_mul, abs_signQ_mul, abs_signQ_mul, abs_of_nonneg hW0, abs_of_nonneg hV0]
    exact ⟨hlo, fun h => hzabs.resolve_right (by linarith)⟩
  case down =>
    rintro rfl
    cases neg with
    | false =>
      obtain ⟨-, rfl⟩ : c = m ∧ W = lo := by simpa [TakesUpper] using hc
      simpa using directed_down hlo hhi hz
    | true =>
      obtain ⟨h1, h2⟩ := directed_up hlo hhi hz (hc.imp (fun h => ⟨h.2.1, h.2.2.2⟩) (fun h => ⟨h.2.1, fun hl => h.2.2 ⟨rfl, hl⟩⟩))
      simpa using ⟨h1, h2⟩
  case up =>
    rintro rfl
    cases neg with
    | true =>
      obtain ⟨-, rfl⟩ : c = m ∧ W = lo := by simpa [TakesUpper] using hc
      simpa using directed_down hlo hhi hz
    | false =>
      obtain ⟨h1, h2⟩ := directed_up hlo hhi hz (hc.imp (fun h => ⟨h.2.1, h.2.2.2⟩) (fun h => ⟨h.2.1, fun hl => h.2.2 ⟨rfl, hl⟩⟩))
      simpa using ⟨h1, h2⟩
  case away =>
    rintro rfl
    rw [abs_signQ_sub, abs_signQ_sub, abs_signQ_mul, abs_signQ_mul, abs_of_nonneg hW0]
    exact nearest_away hlo0 hlo hhi hz hc

end

/-! ### Rounding, as the statement says it (R37, R38) -/

/-- The magnitudes of the finite patterns lie at or below the lower neighbour, or at or above the upper one. -/
theorem FFmt.mag_apart (f : FFmt) (m j : Nat) : f.mag j ≤ f.mag m ∨ f.mag (m + 1) ≤ f.mag j :=
  (Nat.lt_or_ge m j).symm.imp (fun h => f.mag_strictMono.monotone h) (fun h => f.mag_strictMono.monotone h)

/-- The number of a finite pattern, with a sign taken out of it, and the pattern's magnitude. -/
theorem FFmt.Binary.value_signed_cases {f : FFmt} (hf : f.Binary) (neg : Bool) {b : Nat} {y : ℚ} (h : Spec.value f b = some y) :
    ∃ j z, j ≤ f.maxM ∧ y = signQ neg * z ∧ |z| = f.mag j ∧ |y| = f.mag j := by
  obtain ⟨hj, rfl⟩ := hf.value_some h
  refine ⟨_, signQ neg * (signQ (bitN b (f.w - 1)) * f.mag (b % 2 ^ (f.w - 1))), hj, ?_, ?_, ?_⟩
  · rw [← mul_assoc, signQ_mul_self, one_mul]
  · rw [abs_signQ_mul, abs_signQ_mul, abs_of_nonneg (f.mag_nonneg _)]
  · rw [abs_signQ_mul, abs_of_nonneg (f.mag_nonneg _)]

/-- Where R38 delivers the largest finite number for one above it, that is what its mode asks for. -/
theorem roundedTo_of_saturation {mode r : Nat} {neg : Bool} {M V z : ℚ} (hM0 : 0 ≤ M) (hMV : M < V) (hz : |z| ≤ M) (hm : mode < 5)
    (ho : ovfToInf mode neg = false) : RoundedTo mode r (signQ neg * M) (signQ neg * V) (signQ neg * z) := by
  have hzM := abs_le.mp hz
  have hdir : mode = 1 ∨ (mode = 2 ∧ neg = false) ∨ (mode = 3 ∧ neg = true) := by
    interval_cases mode <;> simp_all [ovfToInf]
  rcases hdir with rfl | ⟨rfl, rfl⟩ | ⟨rfl, rfl⟩
  · refine ⟨by simp, fun _ => ?_, by simp, by simp, by simp⟩
    rw [abs_signQ_mul, abs_signQ_mul, abs_signQ_mul, abs_of_nonneg hM0, abs_of_pos (hM0.trans_lt hMV)]
    exact ⟨hMV.le, fun _ => hz⟩
  · exact ⟨by simp, by simp, fun _ => by simpa using ⟨hMV.le, fun _ => hzM.2⟩, by simp, by simp⟩
  · exact ⟨by simp, by simp, by simp, fun _ => by simpa using ⟨hMV.le, fun _ => by linarith [hzM.1]⟩, by simp⟩

/-- Where the overflow result is an infinity the mode is not one that turns away from it. -/
theorem ovfToInf_modes {mode : Nat} {neg : Bool} (h : ovfToInf mode neg = true) :
    mode ≠ 1 ∧ (mode = 2 → neg = true) ∧ (mode = 3 → neg = false) := by
  refine ⟨?_, ?_, ?_⟩
  · rintro rfl; cases h
  · rintro rfl; exact h
  · rintro rfl; simpa [ovfToInf] using h

/-- What R37 and R38 say of a result r delivered in a mode for a number v of sign neg: a finite pattern is the one the mode names, with NX where
it is not v; else it is an infinity above every finite pattern, with its flags. -/
def RoundedResult (f : FFmt) (mode : Nat) (neg : Bool) (v : ℚ) (r : Nat × Nat) : Prop :=
  (∀ x, Spec.value f r.1 = some x → (r.2 % 2 = 1 ↔ x ≠ v) ∧
    ∀ (b : Nat) (y : ℚ), b < 2 ^ f.w → Spec.value f b = some y → RoundedTo mode r.1 x v y) ∧
  (Spec.value f r.1 = none → readF f r.1 = .inf neg ∧ r.2 = flagOF + flagNX ∧ mode ≠ 1 ∧ (mode = 2 → neg = true) ∧
    (mode = 3 → neg = false) ∧ ∀ (b : Nat) (y : ℚ), b < 2 ^ f.w → Spec.value f b = some y → |y| < |v|)

section
variable {f : FFmt} (hf : f.Binary) {mode : Nat} {neg : Bool} {V : ℚ}
include hf

/-- Overflow to an infinity. -/
theorem roundedResult_infinity (hV : f.mag f.maxM < V) (hinf : ovfToInf mode neg = true) :
    RoundedResult f mode neg (signQ neg * V) (signed f neg (f.maxM + 1), flagOF + flagNX) := by
  refine ⟨fun x hx => absurd hx (by rw [hf.value_signed_inf]; simp), fun _ => ?_⟩
  obtain ⟨h1, h2, h3⟩ := ovfToInf_modes hinf
  refine ⟨hf.readF_signed_inf neg, rfl, h1, h2, h3, fun b y _ hy => ?_⟩
  obtain ⟨j, z, hj, -, -, habs⟩ := hf.value_signed_cases neg hy
  rw [habs, abs_signQ_mul, abs_of_pos ((f.mag_nonneg _).trans_lt hV)]
  exact (f.mag_strictMono.monotone hj).trans_lt hV

/-- Overflow to the largest finite number. -/
theorem roundedResult_saturated (hV : f.mag f.maxM < V) (hmode : mode < 5) (hinf : ovfToInf mode neg = false) :
    RoundedResult f mode neg (signQ neg * V) (signed f neg f.maxM, flagOF + flagNX) := by
  have hval := hf.value_signed neg (le_refl f.maxM)
  refine ⟨fun x hx => ?_, fun hnone => absurd hnone (by rw [hval]; simp)⟩
  obtain rfl : signQ neg * f.mag f.maxM = x := Option.some.inj (hval.symm.trans hx)
  refine ⟨iff_of_true (show (flagOF + flagNX) % 2 = 1 by decide) (fun h => hV.ne (mul_left_cancel₀ (signQ_ne_zero neg) h)),
    fun b y _ hy => ?_⟩
  obtain ⟨j, z, hj, rfl, hz, -⟩ := hf.value_signed_cases neg hy
  exact roundedTo_of_saturation (f.mag_nonneg _) hV (hz ▸ f.mag_strictMono.monotone hj) hmode hinf

/-- A finite pattern c, the neighbour of V that the mode chooses. -/
theorem roundedResult_finite {m c fl : Nat} (h : Rounds f mode neg V m c fl) (ho : c ≤ f.maxM) :
    RoundedResult f mode neg (signQ neg * V) (signed f neg c, fl) := by
  have hval := hf.value_signed neg ho
  refine ⟨fun x hx => ?_, fun hnone => absurd hnone (by rw [hval]; simp)⟩
  obtain rfl : signQ neg * f.mag c = x := Option.some.inj (hval.symm.trans hx)
  refine ⟨?_, fun b y _ hy => ?_⟩
  · rw [h.ne_iff, ne_eq, ne_eq, (mul_right_injective₀ (signQ_ne_zero neg)).eq_iff]
  · obtain ⟨j, z, hj, rfl, hz, -⟩ := hf.value_signed_cases neg hy
    have hlo0 := f.mag_nonneg m
    have hzabs : |z| ≤ f.mag m ∨ f.mag (m + 1) ≤ |z| := hz ▸ f.mag_apart m j
    have hzside : z ≤ f.mag m ∨ f.mag (m + 1) ≤ z := by
      rcases abs_cases z with ⟨hz, -⟩ | ⟨-, hz⟩
      · rwa [hz] at hzabs
      · exact .inl (hz.le.trans hlo0)
    refine roundedTo_of_choice (m := m) hlo0 h.below h.above hzside (hf.signed_parity neg c) hzabs ?_
    exact h.choice.imp (fun hc => ⟨hc.1, by rw [hc.1], hc.2⟩) (fun hc => ⟨hc.1, by rw [hc.1], hc.2⟩)

end

theorem rounding : Spec.Rounding := by
  intro f hmem mode neg num den e hmode hn hd v r
  have hf := binary_of_mem hmem
  obtain ⟨m, c, fl, h, hr⟩ := roundF_rounds hf.fraction mode neg e hn hd
  have hv : v = signQ neg * ((num / den : ℚ) * (2 : ℚ) ^ e) := mul_assoc ..
  have hr' : r = delivered f mode neg c fl := hr
  rw [hv, hr', delivered]
  split
  · rename_i ho
    by_cases hinf : ovfToInf mode neg = true
    · rw [if_pos hinf, if_pos hf.infs]
      exact roundedResult_infinity hf (h.lt_of_overflow ho) hinf
    · rw [if_neg hinf]
      exact roundedResult_saturated hf (h.lt_of_overflow ho) hmode (by simpa using hinf)
  · rename_i ho
    exact roundedResult_finite hf h (Nat.le_of_not_lt ho)

end Sys2Proof.Machine

namespace Sys2Proof

/-- Settles O1: rounding by the two neighbours of the number, the exact results by the numbers that the patterns stand for. -/
theorem numbers : Obligations.Numbers := ⟨Machine.rounding, Machine.exactResults⟩

end Sys2Proof
end

section
/-!
SUPPORT. What the pair operations give (R50, R52): the rounded result, and what its rounding left.
-/

namespace Sys2Proof.Machine

/-! ### Rounding a number (R38) -/

section
variable {f : FFmt} (hf : f.Binary) {x : Ex} {v : ℚ} (hx : IsNum x v) (mode : Nat)
include hf hx

/-- What rounding a number gives: zero with a sign, or the pattern its mode chooses. -/
theorem roundF_isNum : (v = 0 ∧ ∃ neg, roundF f mode false x = (signed f neg 0, 0)) ∨
    ∃ neg V m c fl, v = signQ neg * V ∧ Rounds f mode neg V m c fl ∧ roundF f mode false x = delivered f mode neg c fl := by
  obtain ⟨neg, n, e, rfl, rfl⟩ := hx
  rcases Nat.eq_zero_or_pos n with rfl | hn
  · exact .inl ⟨by simp, neg, rfl⟩
  · obtain ⟨m, c, fl, h⟩ := roundF_rounds hf.fraction mode neg e hn Nat.one_pos
    exact .inr ⟨neg, _, m, c, fl, by simp [mul_assoc], h⟩

/-- A number is delivered as a pattern of a number, or as an infinity. -/
theorem readF_roundF : (∃ h, IsNum (readF f (roundF f mode false x).1) h) ∨ ∃ neg, readF f (roundF f mode false x).1 = .inf neg := by
  rcases roundF_isNum hf hx mode with ⟨-, neg, hr⟩ | ⟨neg, V, m, c, fl, -, -, hr⟩
  · rw [hr]
    exact .inl ⟨_, hf.readF_signed neg (Nat.zero_le _)⟩
  · rw [hr]
    unfold delivered
    split
    · rw [hf.infs]
      split
      · exact .inr ⟨neg, hf.readF_signed_inf neg⟩
      · exact .inl ⟨_, hf.readF_signed neg (le_refl _)⟩
    · rename_i ho
      exact .inl ⟨_, hf.readF_signed neg (Nat.le_of_not_lt ho)⟩

/-- A nonzero number that a pattern stands for is delivered as it is, with no flag. -/
theorem roundF_exact (hv : v ≠ 0) {b : Nat} (hb : Spec.value f b = some v) :
    Spec.value f (roundF f mode false x).1 = some v ∧ (roundF f mode false x).2 = 0 := by
  rcases roundF_isNum hf hx mode with ⟨h0, -⟩ | ⟨neg, V, m, c, fl, rfl, h, hr⟩
  · exact absurd h0 hv
  · obtain ⟨j, -, hj, -, -, habs⟩ := hf.value_signed_cases neg hb
    have hV : V = f.mag j := by rw [← habs, abs_signQ_mul, abs_of_nonneg ((f.mag_nonneg m).trans h.below)]
    obtain rfl : j = m := by
      have h1 := f.mag_strictMono.le_iff_le.mp (hV ▸ h.below)
      have h2 := f.mag_strictMono.lt_iff_lt.mp (hV ▸ h.above)
      omega
    obtain ⟨rfl, rfl⟩ := h.of_exact hV
    rw [hr, delivered, if_neg (Nat.not_lt.mpr hj), hV]
    exact ⟨hf.value_signed neg hj, rfl⟩

/-- A nonzero number that no pattern stands for is not delivered without a flag. -/
theorem roundF_inexact (hv : v ≠ 0) (hb : ¬ ∃ b, b < 2 ^ f.w ∧ Spec.value f b = some v) : (roundF f mode false x).2 ≠ 0 := by
  intro hflags
  rcases roundF_isNum hf hx mode with ⟨h0, -⟩ | ⟨neg, V, m, c, fl, rfl, h, hr⟩
  · exact absurd h0 hv
  · rw [hr] at hflags
    unfold delivered at hflags
    split at hflags
    · rw [hf.infs] at hflags
      split at hflags <;> cases hflags
    · rename_i ho
      have hle : c ≤ f.maxM := Nat.le_of_not_lt ho
      have hfl : fl = 0 := hflags
      have hV : f.mag c = V := by
        by_contra hne
        have := h.ne_iff.mpr hne
        omega
      exact hb ⟨signed f neg c, hf.signed_lt neg hle, by rw [← hV]; exact hf.value_signed neg hle⟩

end

/-! ### The pair of an exact value (R50) -/

/-- A number is delivered rounded; it brings no flag of its own. -/
theorem deliver_isNum {f : FFmt} {x : Ex × Nat} {v : ℚ} (hx : IsNum x.1 v) (h0 : x.2 = 0) (mode : Nat) :
    deliver f mode x = roundF f mode false x.1 := by
  obtain ⟨neg, n, e, he, -⟩ := hx
  simp only [deliver, he, h0, Nat.or_zero]

/-- The low half beside a finite high half: what the rounding left, delivered in the same mode. -/
theorem pairEx_finite {mode : Nat} {x : Ex × Nat} {v h : ℚ} (hx : IsNum x.1 v) (hh : IsNum (readF fp32 (deliver fp32 mode x).1) h) :
    ∃ d, IsNum d (v - h) ∧ pairEx mode false x = ((deliver fp32 mode x).1,
      if v = h then (0, (deliver fp32 mode x).2)
      else ((roundF fp32 mode false d).1,
        if (roundF fp32 mode false d).2 = 0 then (deliver fp32 mode x).2 else (deliver fp32 mode x).2 ||| flagPX)) := by
  obtain ⟨hd, -⟩ := isNum_add 0 hx hh.negate
  refine ⟨(addEx 0 x.1 (readF fp32 (deliver fp32 mode x).1).negate).1, by rw [sub_eq_add_neg]; exact hd, ?_⟩
  have hzero : (addEx 0 x.1 (readF fp32 (deliver fp32 mode x).1).negate).1.isZero = true ↔ v = h := by
    rw [hd.isZero_iff, ← sub_eq_add_neg, sub_eq_zero]
  obtain ⟨neg, n, e, he, -⟩ := hh
  rw [he] at hzero ⊢
  simp only [pairEx, he, Ex.isInf, Bool.false_eq_true, if_false, hzero]
  by_cases hvh : v = h
  · simp only [hvh, if_true]
  · simp only [hvh, if_false, beq_iff_eq]

/-- The low half beside an infinite high half of finite operands: +0, with the overflow and its inexactness (R50). -/
theorem pairEx_overflow {mode : Nat} {x : Ex × Nat} {neg : Bool} (hh : readF fp32 (deliver fp32 mode x).1 = .inf neg) :
    pairEx mode false x = ((deliver fp32 mode x).1, 0, (deliver fp32 mode x).2 ||| flagOF ||| flagPX) := by
  simp only [pairEx, hh, Ex.isInf, Bool.false_eq_true, if_false, if_true]

/-- The pair of an exact sum or product of finite operands is what R50 says. -/
theorem pairEx_pairOf {x : Ex × Nat} {v : ℚ} (hx : IsNum x.1 v) (h0 : x.2 = 0) (mode : Nat) :
    Spec.PairOf mode (deliver fp32 mode x) v (pairEx mode false x) := by
  have hdel := deliver_isNum (f := fp32) hx h0 mode
  rcases hdel ▸ readF_roundF fp32_binary hx mode with ⟨h, hh⟩ | ⟨neg, hinf⟩
  · obtain ⟨d, hd, hpair⟩ := pairEx_finite hx hh
    rw [hpair]
    refine ⟨rfl, fun h' hval => ?_, fun hnone => ?_⟩
    · obtain rfl : h = h' := Option.some.inj (hh.rational.symm.trans hval)
      refine ⟨fun hvh => if_pos hvh, fun hvh hex => ?_, fun hno => ⟨d, hd.rational, ?_⟩⟩
      · obtain ⟨b, -, hb⟩ := hex
        obtain ⟨hlo, hflags⟩ := roundF_exact fp32_binary hd mode (sub_ne_zero.mpr hvh) hb
        simp only [if_neg hvh, hflags, if_true]
        exact ⟨hlo, trivial⟩
      · have hvh : v ≠ h := fun e => hno ⟨0, by decide, by rw [e, sub_self]; simp [Spec.value, readF, Spec.rational, fp32]⟩
        have hflags := roundF_inexact fp32_binary hd mode (sub_ne_zero.mpr hvh) hno
        simp only [if_neg hvh, if_neg hflags]
    · exact absurd (hh.rational.symm.trans hnone) (by simp)
  · rw [pairEx_overflow hinf]
    refine ⟨rfl, fun h hval => ?_, fun _ => rfl⟩
    rw [Spec.value, hinf] at hval
    cases hval

/-! ### Infinities and NaNs (R50) -/

/-- With an infinite operand or a NaN result the low half is the canonical NaN beside a NaN, else +0. -/
theorem pairEx_limit {mode : Nat} {infOp : Bool} {x : Ex × Nat} (h : infOp = true ∨ (readF fp32 (deliver fp32 mode x).1).isNan = true) :
    Spec.PairLimit (deliver fp32 mode x) (pairEx mode infOp x) := by
  unfold Spec.PairLimit pairEx
  cases hr : readF fp32 (deliver fp32 mode x).1 with
  | nan s => simp [hr, Ex.isNan]
  | inf neg => simp_all [Ex.isNan]
  | fin neg n d e => simp_all [Ex.isNan]

theorem deliver_nan {mode : Nat} {x : Ex × Nat} (h : x.1.isNan = true) : (readF fp32 (deliver fp32 mode x).1).isNan = true := by
  obtain ⟨y, fl⟩ := x
  cases y with
  | nan s => exact (show (readF fp32 fp32.nan).isNan = true by decide)
  | inf neg => cases h
  | fin neg n d e => cases h

theorem addEx_isNan (mode : Nat) {x y : Ex} (h : x.isNan = true ∨ y.isNan = true) : (addEx mode x y).1.isNan = true := by
  cases x with
  | nan s => rfl
  | inf p => cases y <;> simp_all [addEx, Ex.isNan]
  | fin p n d e => cases y <;> simp_all [addEx, Ex.isNan]

theorem mulEx_isNan {x y : Ex} (h : x.isNan = true ∨ y.isNan = true) : (mulEx x y).1.isNan = true := by
  simp only [mulEx, Bool.or_eq_true, if_pos h]
  rfl

theorem isNan_negate (x : Ex) : x.negate.isNan = x.isNan := by cases x <;> rfl
theorem isInf_negate (x : Ex) : x.negate.isInf = x.isInf := by cases x <;> rfl

/-- What stands for no number is an infinity or a NaN. -/
theorem limit_of_value_none {f : FFmt} {a : Nat} (h : Spec.value f a = none) : (readF f a).isInf = true ∨ (readF f a).isNan = true := by
  unfold Spec.value at h
  cases hr : readF f a with
  | nan s => exact .inr rfl
  | inf neg => exact .inl rfl
  | fin neg n d e => rw [hr] at h; cases h

/-! ### The pair operations and the double-word sequences (R50, R52) -/

/-- The pairs of a sum and of a product with an operand that is no number. -/
theorem pairs_limit (mode : Nat) {x y : Ex} (h : (x.isInf = true ∨ x.isNan = true) ∨ (y.isInf = true ∨ y.isNan = true)) :
    Spec.PairLimit (deliver fp32 mode (addEx mode x y)) (pairEx mode (x.isInf || y.isInf) (addEx mode x y)) ∧
    Spec.PairLimit (deliver fp32 mode (mulEx x y)) (pairEx mode (x.isInf || y.isInf) (mulEx x y)) := by
  have hcases : (x.isInf || y.isInf) = true ∨ (x.isNan = true ∨ y.isNan = true) := by rw [Bool.or_eq_true]; tauto
  exact ⟨pairEx_limit (hcases.imp_right (fun hn => deliver_nan (addEx_isNan mode hn))),
    pairEx_limit (hcases.imp_right (fun hn => deliver_nan (mulEx_isNan hn)))⟩

theorem pairValues : Spec.PairValues := by
  refine ⟨fun mode a b _ _ _ => ⟨fun p q hp hq => ?finite, fun hnone => ?limit⟩, fun xh xl yh yl => ?sequences⟩
  case finite =>
    have hx := readF_isNum hp
    have hy := readF_isNum hq
    obtain ⟨hadd, haddFlags⟩ := isNum_add mode hx hy
    obtain ⟨hsub, hsubFlags⟩ := isNum_add mode hx hy.negate
    obtain ⟨hmul, hmulFlags⟩ := isNum_mul hx hy
    simp only [twoSum, twoDiff, twoProd, hx.isInf, hy.isInf, isInf_negate, Bool.or_false]
    exact ⟨pairEx_pairOf hadd haddFlags mode, sub_eq_add_neg p q ▸ pairEx_pairOf hsub hsubFlags mode, pairEx_pairOf hmul hmulFlags mode⟩
  case limit =>
    have h := hnone.imp limit_of_value_none limit_of_value_none
    obtain ⟨hadd, hmul⟩ := pairs_limit mode h
    obtain ⟨hsub, -⟩ := pairs_limit mode (x := readF fp32 a) (y := (readF fp32 b).negate) (by rw [isInf_negate, isNan_negate]; exact h)
    exact ⟨hadd, hsub, hmul⟩
  case sequences =>
    refine ⟨⟨rfl, rfl, ?_⟩, ⟨rfl, rfl, ?_⟩, ⟨rfl, rfl, ?_⟩, rfl, rfl, rfl⟩
    · simp only [dwAdd, dwEnd, List.foldl_cons, List.foldl_nil, Nat.or_assoc]
    · simp only [dwAddS, dwEnd, List.foldl_cons, List.foldl_nil, Nat.or_assoc]
    · simp only [dwMul, dwEnd, List.foldl_cons, List.foldl_nil, Nat.or_assoc]

end Sys2Proof.Machine

namespace Sys2Proof

/-- Settles O16: the halves of a pair by the exact value they are made of, the double-word results by their sequences. -/
theorem vectorPairs : Obligations.VectorPairs := ⟨Machine.pairValues, Machine.pairInstructions⟩

end Sys2Proof
end

section
/-!
SUPPORT. What the minimum and maximum of mixed formats give (R48, R141), and the special functions where they are exact (R41).
-/

namespace Sys2Proof.Machine

/-! ### Minimum and maximum (R48, R141) -/

theorem ltZ_iff (p q : Ex) :
    ltZ p q = true ↔ fltRel p q = true ∨ (p.isZero = true ∧ q.isZero = true ∧ p.isNeg = true ∧ q.isNeg = false) := by
  simp [ltZ, fltRel, and_assoc]

/-- The second operand as it is delivered: in the element's format its bits, else rounded once (R141). -/
def minMaxOther (f g : FFmt) (mode b : Nat) : Nat × Nat := if g = f then (b, 0) else roundF f mode false (readF g b)

/-- The flags of a minimum or maximum: NV for a signalling NaN (R48). -/
def minMaxFlags (x y : Ex) : Nat := if x.isSig ∨ y.isSig then flagNV else 0

section
variable (f g : FFmt) (mode a b : Nat) (isMax : Bool)

/-- A NaN beside a NaN, and with `prop` beside anything, gives the canonical NaN (R48). -/
theorem minMaxArg_nan {prop : Bool} (h : ((readF f a).isNan = true ∧ (readF g b).isNan = true) ∨
    (prop = true ∧ ((readF f a).isNan = true ∨ (readF g b).isNan = true))) :
    minMaxArg f mode isMax prop a { bits := b, fmt := g } = (f.nan, minMaxFlags (readF f a) (readF g b)) := by
  by_cases hgf : g = f
  · subst hgf
    rcases h with ⟨hx, hy⟩ | ⟨rfl, hx | hy⟩
    · cases prop <;> simp [minMaxArg, minMaxProp, minMaxNum, minMaxFlags, hx, hy]
    · simp [minMaxArg, minMaxProp, minMaxFlags, hx]
    · simp [minMaxArg, minMaxProp, minMaxFlags, hy]
  · rcases h with ⟨hx, hy⟩ | ⟨rfl, hx | hy⟩
    · cases prop <;> simp [minMaxArg, minMaxFlags, FArg.ex, hgf, hx, hy]
    · simp [minMaxArg, minMaxFlags, FArg.ex, hgf, hx]
    · simp [minMaxArg, minMaxFlags, FArg.ex, hgf, hy]

/-- An element that is a NaN gives the other operand (R48). -/
theorem minMaxArg_left (hx : (readF f a).isNan = true) (hy : (readF g b).isNan = false) :
    minMaxArg f mode isMax false a { bits := b, fmt := g } =
      ((minMaxOther f g mode b).1, (minMaxOther f g mode b).2 ||| minMaxFlags (readF f a) (readF g b)) := by
  by_cases hgf : g = f
  · subst hgf
    simp [minMaxArg, minMaxNum, minMaxOther, minMaxFlags, hx, hy]
  · simp [minMaxArg, minMaxOther, minMaxFlags, FArg.ex, hgf, hx, hy]

/-- An operand that is a NaN gives the element (R48). -/
theorem minMaxArg_right (hx : (readF f a).isNan = false) (hy : (readF g b).isNan = true) :
    minMaxArg f mode isMax false a { bits := b, fmt := g } = (a, minMaxFlags (readF f a) (readF g b)) := by
  by_cases hgf : g = f
  · subst hgf
    simp [minMaxArg, minMaxNum, minMaxFlags, hx, hy]
  · simp [minMaxArg, minMaxFlags, FArg.ex, hgf, hx, hy]

/-- Of two numbers the operand where it is the smaller or the larger, else the element (R48). -/
theorem minMaxArg_numbers (prop : Bool) (hx : (readF f a).isNan = false) (hy : (readF g b).isNan = false) :
    minMaxArg f mode isMax prop a { bits := b, fmt := g } =
      if (if isMax then ltZ (readF f a) (readF g b) else ltZ (readF g b) (readF f a)) = true then minMaxOther f g mode b else (a, 0) := by
  by_cases hgf : g = f
  · subst hgf
    simp only [minMaxArg, minMaxNum, minMaxProp, minMaxOther, beq_self_eq_true, hx, hy, Bool.or_self, Bool.false_eq_true, if_true, if_false,
      ite_self]
    generalize (if isMax = true then ltZ (readF g a) (readF g b) else ltZ (readF g b) (readF g a)) = below
    cases below <;> rfl
  · simp [minMaxArg, minMaxOther, FArg.ex, hgf, hx, hy]

end

theorem minMaxValues : Spec.MinMaxValues := by
  intro f _ g _ mode a b isMax prop _ _
  refine ⟨minMaxArg_nan f g mode a b isMax, ?left, ?right, fun hx hy => ?numbers⟩
  case left =>
    rintro rfl hx hy
    exact minMaxArg_left f g mode a b isMax hx hy
  case right =>
    rintro rfl hx hy
    exact minMaxArg_right f g mode a b isMax hx hy
  case numbers =>
    have h := minMaxArg_numbers f g mode a b isMax prop hx hy
    dsimp only
    rw [h]
    cases isMax <;> simp only [Bool.false_eq_true, if_true, if_false, ← ltZ_iff] <;>
      exact ⟨fun hlt => if_pos hlt, fun hlt => if_neg hlt⟩

/-! ### Reading an FP32 number (R35) -/

/-- The whole number and the exponent a pattern is read as are bounded by its format. -/
theorem readF_bounds {f : FFmt} {a : Nat} {neg : Bool} {n d : Nat} {e : Int} (h : readF f a = .fin neg n d e) :
    n < 2 ^ (f.p + 1) ∧ 1 - f.bias - f.p ≤ e ∧ neg = bitN a (f.w - 1) := by
  have hp := Nat.mod_lt (a % 2 ^ (f.w - 1)) (Nat.two_pow_pos f.p)
  have h2 : 2 ^ (f.p + 1) = 2 ^ f.p + 2 ^ f.p := by rw [Nat.pow_succ]; ring
  unfold readF at h
  dsimp only at h
  split at h
  · split at h <;> cases h
  · split at h
    · cases h
    · split at h
      · cases h
        exact ⟨by omega, le_refl _, rfl⟩
      · rename_i he
        cases h
        have hone : 1 ≤ a % 2 ^ (f.w - 1) / 2 ^ f.p := Nat.one_le_iff_ne_zero.mpr (by simpa using he)
        have honeInt : (1 : Int) ≤ ((a % 2 ^ (f.w - 1) / 2 ^ f.p : Nat) : Int) := by exact_mod_cast hone
        exact ⟨by omega, by linarith, rfl⟩

/-- An FP32 pattern that stands for v, as it is read. -/
theorem readF_fp32 {a : Nat} {v : ℚ} (h : Spec.value fp32 a = some v) : ∃ neg n e, readF fp32 a = .fin neg n 1 e ∧
    v = signQ neg * (n * (2 : ℚ) ^ e) ∧ n < 2 ^ 24 ∧ -149 ≤ e ∧ neg = bitN a 31 := by
  obtain ⟨neg, n, e, he, hv⟩ := readF_isNum h
  obtain ⟨hn, hle, hneg⟩ := readF_bounds he
  exact ⟨neg, n, e, he, by rw [hv, mul_assoc], hn, hle, hneg⟩

/-! ### Special values (R41) -/

/-- The special functions of R41 on a NaN. -/
theorem special_nan {a : Nat} (h : (readF fp32 a).isNan = true) : ∀ g ∈ [rcpEx, rsqrtEx, exp2Ex, log2Ex, sinPiEx, cosPiEx],
    sfuF g a = (fp32.nan, if (readF fp32 a).isSig then flagNV else 0) := by
  simp only [List.forall_mem_cons, List.not_mem_nil, false_imp_iff, implies_true, and_true, sfuF]
  cases hr : readF fp32 a with
  | nan s =>
    cases s <;> decide
  | inf neg => rw [hr] at h; cases h
  | fin neg n d e => rw [hr] at h; cases h

theorem special_zero : sfuF rcpEx 0 = (0x7F800000, flagDZ) ∧ sfuF rsqrtEx 0 = (0x7F800000, flagDZ) ∧ sfuF exp2Ex 0 = (0x3F800000, 0) ∧
    sfuF log2Ex 0 = (0xFF800000, flagDZ) := by decide

theorem special_negZero : sfuF rcpEx 0x80000000 = (0xFF800000, flagDZ) ∧ sfuF rsqrtEx 0x80000000 = (0xFF800000, flagDZ) ∧
    sfuF exp2Ex 0x80000000 = (0x3F800000, 0) ∧ sfuF log2Ex 0x80000000 = (0xFF800000, flagDZ) := by decide

theorem special_inf : sfuF rcpEx 0x7F800000 = (0, 0) ∧ sfuF rsqrtEx 0x7F800000 = (0, 0) ∧ sfuF exp2Ex 0x7F800000 = (0x7F800000, 0) ∧
    sfuF log2Ex 0x7F800000 = (0x7F800000, 0) ∧ sfuF sinPiEx 0x7F800000 = (fp32.nan, flagNV) ∧
    sfuF cosPiEx 0x7F800000 = (fp32.nan, flagNV) := by decide

theorem special_negInf : sfuF rcpEx 0xFF800000 = (0x80000000, 0) ∧ sfuF rsqrtEx 0xFF800000 = (fp32.nan, flagNV) ∧
    sfuF exp2Ex 0xFF800000 = (0, 0) ∧ sfuF log2Ex 0xFF800000 = (fp32.nan, flagNV) ∧ sfuF sinPiEx 0xFF800000 = (fp32.nan, flagNV) ∧
    sfuF cosPiEx 0xFF800000 = (fp32.nan, flagNV) := by decide

/-! ### The reciprocal and the reciprocal root (R41) -/

/-- The model's reciprocal root of n · 2^e, rewritten as M · 4^t with M below 2^25: the root of 2^256 / M where that is exact, else the middle
of its unit interval. -/
theorem rsqrtEx_scaled {n : Nat} (e : Int) (hn : n ≠ 0) (hn24 : n < 2 ^ 24) : ∃ (M : Nat) (t : Int), 0 < M ∧ M < 2 ^ 25 ∧
    (n : ℚ) * (2 : ℚ) ^ e = M * ((2 : ℚ) ^ t * (2 : ℚ) ^ t) ∧
    rsqrtEx (.fin false n 1 e) = if isqrt (2 ^ 256 / M) * isqrt (2 ^ 256 / M) * M == 2 ^ 256
      then (.fin false (isqrt (2 ^ 256 / M)) 1 (-t - 128), 0) else (.fin false (2 * isqrt (2 ^ 256 / M) + 1) 1 (-t - 128 - 1), 0) := by
  have hpos : 0 < n := Nat.pos_of_ne_zero hn
  have hscale : ∀ t : Int, -t - 128 - 1 = -t - 129 := fun t => by ring
  by_cases ho : e % 2 = 0
  · refine ⟨n, e / 2, hpos, by omega, ?_, by simp [rsqrtEx, hn, ho, hscale]⟩
    rw [zpow_square (e := e) (s := e / 2) 0 (by omega), pow_zero, one_mul]
  · refine ⟨2 * n, (e - 1) / 2, by omega, by omega, ?_, by simp [rsqrtEx, hn, ho, hscale]⟩
    rw [zpow_square (e := e) (s := (e - 1) / 2) 1 (by omega)]
    push_cast; ring

/-- The whole root of a whole quotient is that of the exact quotient, and a large one for a divisor below 2^25. -/
theorem isqrt_quotient {M : Nat} (hM0 : 0 < M) (hM : M < 2 ^ 25) : (isqrt (2 ^ 256 / M) : ℚ) * isqrt (2 ^ 256 / M) ≤ 2 ^ 256 / M ∧
    (2 : ℚ) ^ 256 / M < (isqrt (2 ^ 256 / M) + 1) * (isqrt (2 ^ 256 / M) + 1) ∧ 2 ^ 40 ≤ isqrt (2 ^ 256 / M) := by
  have hMQ : (0 : ℚ) < M := by exact_mod_cast hM0
  generalize hN : 2 ^ 256 / M = N
  obtain ⟨hlow, hhigh⟩ := isqrt_root N
  refine ⟨?_, ?_, isqrt_large ?_⟩
  · rw [le_div_iff₀ hMQ]
    have : isqrt N * isqrt N * M ≤ 2 ^ 256 := (Nat.mul_le_mul_right M hlow).trans (hN ▸ Nat.div_mul_le_self _ _)
    exact_mod_cast this
  · rw [div_lt_iff₀ hMQ]
    have h1 : 2 ^ 256 < (N + 1) * M := by rw [← hN, Nat.mul_comm]; exact Nat.lt_mul_div_succ _ hM0
    have h2 : (N + 1) * M ≤ (isqrt N + 1) * (isqrt N + 1) * M := Nat.mul_le_mul_right M hhigh
    exact_mod_cast h1.trans_le h2
  · rw [← hN, Nat.le_div_iff_mul_le hM0]
    exact (Nat.mul_le_mul_left _ hM.le).trans (by decide)

section
variable {a : Nat} {p : ℚ} (hv : Spec.value fp32 a = some p)
include hv

/-- The reciprocal is the exact quotient, rounded once. -/
theorem rcp_exact (hp : p ≠ 0) : ∃ e, Spec.rational e = some (1 / p) ∧ sfuF rcpEx a = deliver fp32 0 (e, 0) := by
  have hone : IsNum (.fin false 1 1 0) 1 := ⟨false, 1, 0, rfl, by simp⟩
  obtain ⟨hdiv, hflags⟩ := rational_div hone (readF_isNum hv) hp
  exact ⟨_, hdiv, congrArg (deliver fp32 0) (Prod.ext rfl hflags)⟩

/-- The reciprocal root and the logarithm of a negative number are invalid. -/
theorem rsqrt_log2_negative (hp : p < 0) : sfuF rsqrtEx a = (fp32.nan, flagNV) ∧ sfuF log2Ex a = (fp32.nan, flagNV) := by
  obtain ⟨neg, n, e, he, rfl, -, -, -⟩ := readF_fp32 hv
  obtain ⟨rfl, hA⟩ := signQ_mul_neg (by positivity) hp
  have hn : n ≠ 0 := by rintro rfl; simp at hA
  simp [sfuF, he, rsqrtEx, log2Ex, deliver, hn]

/-- The reciprocal root lies on the same side as the exact one of every number of up to 40 significant bits. -/
theorem rsqrt_side (hp : 0 < p) : ∃ e y, Spec.rational e = some y ∧ sfuF rsqrtEx a = deliver fp32 0 (e, 0) ∧ 0 < y ∧
    ∀ (m : Nat) (k : Int), m < 2 ^ 40 → ((m * (2 : ℚ) ^ k) * (m * (2 : ℚ) ^ k) * p ≤ 1 ↔ m * (2 : ℚ) ^ k ≤ y) := by
  obtain ⟨neg, n, e, he, rfl, hn24, -, -⟩ := readF_fp32 hv
  obtain ⟨rfl, hA⟩ := signQ_mul_pos (by positivity) hp
  have hn : n ≠ 0 := by rintro rfl; simp at hA
  obtain ⟨M, t, hM0, hM, hval, hrsqrt⟩ := rsqrtEx_scaled e hn hn24
  obtain ⟨hlow, hhigh, h40⟩ := isqrt_quotient hM0 hM
  generalize isqrt (2 ^ 256 / M) = r at hlow hhigh h40 hrsqrt
  have hMQ : (0 : ℚ) < M := by exact_mod_cast hM0
  have hside : ∀ x : ℚ, (r : ℚ) ≤ x → x < r + 1 → ∀ (m : Nat) (k : Int), m < 2 ^ 40 →
      ((m * (2 : ℚ) ^ k) * (m * (2 : ℚ) ^ k) * (signQ false * (n * (2 : ℚ) ^ e)) ≤ 1 ↔
        m * (2 : ℚ) ^ k ≤ x * (2 : ℚ) ^ (-t - 128)) := by
    intro x hx hx1 m k hm
    rw [← sameSide_scaled k (-t - 128) hlow hhigh hx hx1 h40 hm, signQ_false, one_mul, hval, ← le_div_iff₀ (by positivity)]
    have hsq : (2 : ℚ) ^ 256 / M * ((2 : ℚ) ^ (-t - 128) * (2 : ℚ) ^ (-t - 128)) = 1 / (M * ((2 : ℚ) ^ t * (2 : ℚ) ^ t)) := by
      rw [zpow_sub₀ (by norm_num), zpow_neg]
      field_simp
    rw [hsq]
  have hrQ : (0 : ℚ) < r := by exact_mod_cast lt_of_lt_of_le (by decide) h40
  simp only [sfuF, he, hrsqrt]
  by_cases hexact : r * r * M = 2 ^ 256
  · rw [if_pos (beq_iff_eq.mpr hexact)]
    exact ⟨_, (r : ℚ) * (2 : ℚ) ^ (-t - 128), by simp [rational_fin], rfl, by positivity, hside _ le_rfl (by linarith)⟩
  · rw [if_neg (fun h => hexact (beq_iff_eq.mp h))]
    exact ⟨_, _, rational_middle _ _, rfl, by positivity, hside _ (by linarith) (by linarith)⟩

end

/-! ### Fixed point (R41) -/

/-- A number in fixed point, where its fraction has at most 400 bits. -/
theorem toFix_cast (neg : Bool) (n : Nat) {e : Int} (he : 0 ≤ e + fixK) :
    (toFix neg n e : ℚ) = signQ neg * (n * (2 : ℚ) ^ e) * ((2 ^ fixK : Nat) : ℚ) := by
  have h := atScale_mul neg n he
  rw [zpow_zero, mul_one] at h
  rw [toFix, h, zpow_add₀ (by norm_num), zpow_natCast]
  push_cast
  ring

/-! ### Powers of two and their logarithms (R41) -/

/-- 2 to the power of a whole number is exact before it is rounded. -/
theorem exp2_whole {a : Nat} {k : Int} (hv : Spec.value fp32 a = some (k : ℚ)) (hk : k.natAbs < 4096) :
    sfuF exp2Ex a = deliver fp32 0 (.fin false 1 1 k, 0) := by
  obtain ⟨neg, n, e, he, hval, -, hle, -⟩ := readF_fp32 hv
  refine congrArg (deliver fp32 0) ?_
  rw [he]
  rcases Nat.eq_zero_or_pos n with rfl | hn
  · obtain rfl : k = 0 := by simpa using hval
    rfl
  · have habs : (n : ℚ) * (2 : ℚ) ^ e = k.natAbs := by
      rw [Nat.cast_natAbs, Int.cast_abs, hval, abs_signQ_mul, abs_of_nonneg (by positivity)]
    have hsmall : ¬ log2Ratio n 1 + e ≥ 12 := by
      obtain ⟨hlow, -⟩ := log2Ratio_spec hn Nat.one_pos
      rw [not_le, ← zpow_lt_zpow_iff_right₀ (show (1 : ℚ) < 2 by norm_num), zpow_add₀ (by norm_num)]
      calc (2 : ℚ) ^ log2Ratio n 1 * (2 : ℚ) ^ e ≤ n * (2 : ℚ) ^ e := by gcongr; simpa using hlow
        _ = k.natAbs := habs
        _ < ((4096 : Nat) : ℚ) := Nat.cast_lt.mpr hk
        _ = (2 : ℚ) ^ (12 : Int) := by norm_num
    have hfix : toFix neg n e = k * (2 ^ fixK : Int) := by
      have h := toFix_cast neg n (e := e) (by simp only [fixK]; omega)
      rw [← hval] at h
      exact_mod_cast h
    have hpos : (2 ^ fixK : Int) ≠ 0 := by positivity
    simp only [exp2Ex, beq_eq_false_iff_ne.mpr hn.ne', Bool.false_eq_true, if_false, hsmall, hfix, Int.mul_emod_left,
      Int.mul_ediv_cancel _ hpos, Int.toNat_zero, beq_self_eq_true, if_true]

/-- The logarithm of a power of two is exact before it is rounded. -/
theorem log2_power {a : Nat} {k : Int} (hv : Spec.value fp32 a = some ((2 : ℚ) ^ k)) :
    sfuF log2Ex a = deliver fp32 0 (Ex.ofInt k, 0) := by
  obtain ⟨neg, n, e, he, hval, -, -, -⟩ := readF_fp32 hv
  obtain ⟨rfl, hA⟩ := signQ_mul_pos (by positivity) (hval ▸ (by positivity : (0 : ℚ) < (2 : ℚ) ^ k))
  have hn : n ≠ 0 := by rintro rfl; simp at hA
  have hpow : (n : ℚ) = (2 : ℚ) ^ (k - e) := by
    rw [zpow_sub₀ (by norm_num), hval, signQ_false, one_mul, mul_div_assoc, div_self (by positivity), mul_one]
  obtain ⟨j, hj⟩ : ∃ j : Nat, k - e = j := by
    refine Int.eq_ofNat_of_zero_le ?_
    rw [← zpow_le_zpow_iff_right₀ (show (1 : ℚ) < 2 by norm_num), ← hpow, zpow_zero]
    exact_mod_cast Nat.pos_of_ne_zero hn
  have hnj : n = 2 ^ j := by
    rw [hj, zpow_natCast] at hpow
    exact_mod_cast hpow
  have hlog : log2Pos n e = Ex.ofInt k := by
    have hk : (j : Int) + e = k := by omega
    simp only [log2Pos, hnj, Nat.log2_two_pow, beq_self_eq_true, if_true, hk]
  simp only [sfuF, he, log2Ex, hlog, beq_eq_false_iff_ne.mpr hn, Bool.false_eq_true, if_false]

/-! ### Sines and cosines at multiples of a half (R41) -/

/-- The quarters of the circle in fixed point: what the sine of π times j halves is. -/
theorem sinPiOf_quarter (neg : Bool) {j : Nat} (hj : j < 4) : sinPiOf neg (j * 2 ^ (fixK - 1)) =
    if j % 2 = 0 then .fin neg 0 1 0 else .fin (neg != decide (j = 3)) 1 1 0 := by
  interval_cases j <;> cases neg <;> decide

/-- Twice a number's magnitude is whole: modulo 2 it is a number of quarters of the circle. -/
theorem mod2Fix_halves {n H : Nat} {e : Int} (he : -149 ≤ e) (h : (n : ℚ) * (2 : ℚ) ^ e * 2 = H) : mod2Fix n e = H % 4 * 2 ^ (fixK - 1) := by
  unfold mod2Fix
  split
  · rename_i h1
    obtain ⟨i, rfl⟩ : ∃ i : Nat, e = i + 1 := ⟨(e - 1).toNat, by omega⟩
    have hH : H = 4 * (n * 2 ^ i) := by
      rw [zpow_add_one₀ (by norm_num), zpow_natCast] at h
      exact_mod_cast (show (H : ℚ) = 4 * (n * 2 ^ i) by rw [← h]; ring)
    rw [hH, Nat.mul_mod_right, Nat.zero_mul]
  · have hfix : toFix false n e = ((H * 2 ^ (fixK - 1) : Nat) : Int) := by
      have hc := toFix_cast false n (e := e) (by simp only [fixK]; omega)
      have hK : ((2 ^ fixK : Nat) : ℚ) = 2 * ((2 ^ (fixK - 1) : Nat) : ℚ) := by
        exact_mod_cast (show 2 ^ fixK = 2 * 2 ^ (fixK - 1) from Nat.pow_succ' (m := 2) (n := fixK - 1))
      rw [hK, signQ_false, one_mul, ← mul_assoc, h] at hc
      exact_mod_cast hc
    have h4 : 2 ^ (fixK + 1) = 4 * 2 ^ (fixK - 1) := by
      rw [show fixK + 1 = 2 + (fixK - 1) by simp only [fixK], Nat.pow_add]
    rw [hfix, Int.toNat_natCast, h4, Nat.mul_mod_mul_right]

/-- A number of halves t, as it is read: its magnitude has |t| halves, and its sign is that of t. -/
theorem halves_read {a : Nat} {t : Int} {v : ℚ} (hv : Spec.value fp32 a = some v) (ht : v * 2 = t) : ∃ neg n e, readF fp32 a = .fin neg n 1 e ∧
    mod2Fix n e = t.natAbs % 4 * 2 ^ (fixK - 1) ∧ (n = 0 → t = 0) ∧ (t ≠ 0 → (neg = true ↔ t < 0)) ∧ neg = bitN a 31 := by
  obtain ⟨neg, n, e, he, rfl, -, hle, hneg⟩ := readF_fp32 hv
  have hH : (n : ℚ) * (2 : ℚ) ^ e * 2 = t.natAbs := by
    rw [Nat.cast_natAbs, Int.cast_abs, ← ht, mul_assoc (signQ neg), abs_signQ_mul, abs_of_nonneg (by positivity)]
  refine ⟨neg, n, e, he, mod2Fix_halves hle hH, ?_, fun h0 => ?_, hneg⟩
  · rintro rfl
    exact_mod_cast (show (t : ℚ) = 0 by rw [← ht]; simp)
  · have hpos : (0 : ℚ) < n * (2 : ℚ) ^ e * 2 := by rw [hH]; exact_mod_cast Int.natAbs_pos.mpr h0
    have hlt : t < 0 ↔ (signQ neg * (n * (2 : ℚ) ^ e * 2) : ℚ) < 0 := by rw [← mul_assoc, ht]; exact_mod_cast Iff.rfl
    rw [hlt]
    cases neg
    · simpa using hpos.le
    · simpa using hpos

/-- The sine and the cosine of π times t halves. -/
theorem sinPi_cosPi_halves {a : Nat} {t : Int} {v : ℚ} (hv : Spec.value fp32 a = some v) (ht : v * 2 = t) :
    sfuF sinPiEx a = deliver fp32 0 (sinPiOf (bitN a 31) (t.natAbs % 4 * 2 ^ (fixK - 1)), 0) ∧
    sfuF cosPiEx a = deliver fp32 0 (sinPiOf false ((t.natAbs % 4 + 1) % 4 * 2 ^ (fixK - 1)), 0) ∧
    (t ≠ 0 → (bitN a 31 = true ↔ t < 0)) := by
  obtain ⟨neg, n, e, he, hmod, h0, hsign, rfl⟩ := halves_read hv ht
  have h4 : 2 ^ (fixK + 1) = 4 * 2 ^ (fixK - 1) := by
    rw [show fixK + 1 = 2 + (fixK - 1) by simp only [fixK], Nat.pow_add]
  refine ⟨?_, ?_, hsign⟩
  · simp only [sfuF, he, sinPiEx, hmod]
    by_cases hn : n = 0
    · rw [if_pos (by simpa using hn), h0 hn, Int.natAbs_zero, sinPiOf_quarter _ (by decide)]
      rfl
    · rw [if_neg (by simpa using hn)]
  · simp only [sfuF, he, cosPiEx, hmod, h4]
    rw [show t.natAbs % 4 * 2 ^ (fixK - 1) + 2 ^ (fixK - 1) = (t.natAbs % 4 + 1) * 2 ^ (fixK - 1) by ring, Nat.mul_mod_mul_right]

/-- A zero and a one are delivered with their sign. -/
theorem deliver_zero (neg : Bool) : deliver fp32 0 (.fin neg 0 1 0, 0) = (if neg then 0x80000000 else 0, 0) := by cases neg <;> decide
theorem deliver_one (neg : Bool) : deliver fp32 0 (.fin neg 1 1 0, 0) = (if neg then 0xBF800000 else 0x3F800000, 0) := by cases neg <;> decide

/-- The sign bit of an FP32 pattern. -/
theorem bitN_sign {a : Nat} (ha : a < 2 ^ 32) : bitN a 31 = true ↔ ¬ a < 0x80000000 := by
  rw [bitN, beq_iff_eq]
  omega

/-- At whole numbers the sine is a zero with the number's sign and the cosine is 1 or −1. -/
theorem sinPi_cosPi_whole {a : Nat} {k : Int} (ha : a < 2 ^ 32) (hv : Spec.value fp32 a = some (k : ℚ)) :
    sfuF sinPiEx a = (if a < 0x80000000 then 0 else 0x80000000, 0) ∧
    sfuF cosPiEx a = (if k % 2 = 0 then 0x3F800000 else 0xBF800000, 0) := by
  obtain ⟨hsin, hcos, -⟩ := sinPi_cosPi_halves (t := 2 * k) hv (by push_cast; ring)
  have hsign := bitN_sign ha
  have heven : (2 * k).natAbs % 4 % 2 = 0 := by omega
  have hodd : ¬ ((2 * k).natAbs % 4 + 1) % 4 % 2 = 0 := by omega
  rw [hsin, hcos, sinPiOf_quarter _ (by omega), sinPiOf_quarter _ (by omega), if_pos heven, if_neg hodd, deliver_zero, deliver_one]
  refine ⟨?_, ?_⟩
  · by_cases h : a < 0x80000000 <;> simp [hsign, h]
  · have hneg : (false != decide (((2 * k).natAbs % 4 + 1) % 4 = 3)) = true ↔ ¬ k % 2 = 0 := by
      rw [Bool.false_bne, decide_eq_true_eq]
      omega
    by_cases h : k % 2 = 0
    · rw [if_neg (fun hn => hneg.mp hn h), if_pos h]
    · rw [if_pos (hneg.mpr h), if_neg h]

/-- At halves the sine is 1 or −1 and the cosine is +0. -/
theorem sinPi_cosPi_half {a : Nat} {k : Int} (hv : Spec.value fp32 a = some (k + 1 / 2 : ℚ)) :
    sfuF sinPiEx a = (if k % 2 = 0 then 0x3F800000 else 0xBF800000, 0) ∧ sfuF cosPiEx a = (0, 0) := by
  obtain ⟨hsin, hcos, hsign⟩ := sinPi_cosPi_halves (t := 2 * k + 1) hv (by push_cast; ring)
  have hodd : ¬ (2 * k + 1).natAbs % 4 % 2 = 0 := by omega
  have heven : ((2 * k + 1).natAbs % 4 + 1) % 4 % 2 = 0 := by omega
  rw [hsin, hcos, sinPiOf_quarter _ (by omega), sinPiOf_quarter _ (by omega), if_neg hodd, if_pos heven, deliver_zero, deliver_one]
  refine ⟨?_, rfl⟩
  have hneg : (bitN a 31 != decide ((2 * k + 1).natAbs % 4 = 3)) = true ↔ ¬ k % 2 = 0 := by
    have hs := hsign (by omega)
    rw [bne_iff_ne, ne_eq, Bool.eq_iff_iff, hs, decide_eq_true_eq]
    omega
  by_cases h : k % 2 = 0 <;> simp [hneg, h]

theorem specialFunctions : Spec.SpecialFunctions := by
  intro a ha
  refine ⟨special_nan, ?_, ?_, ?_, ?_, fun p => rcp_exact, fun p => rsqrt_log2_negative, fun p => rsqrt_side, fun k => exp2_whole,
    fun k => log2_power, fun k => sinPi_cosPi_whole ha, fun k => sinPi_cosPi_half⟩
  · rintro rfl; exact special_zero
  · rintro rfl; exact special_negZero
  · rintro rfl; exact special_inf
  · rintro rfl; exact special_negInf

end Sys2Proof.Machine

namespace Sys2Proof

/-- Settles O15: the choice of a minimum or maximum by its NaNs and its order, the special functions where they are exact, and each
instruction as its operation on the elements. -/
theorem vectorFloat : Obligations.VectorFloat := ⟨Machine.minMaxValues, Machine.specialFunctions, Machine.floatInstructions⟩

end Sys2Proof
end

section
/-!
SUPPORT. YIELD and HALT (R69, R128, R307): the slot whose turn comes next, and the hart that a HALT leaves in its slot.
-/

namespace Sys2Proof.Machine

/-! ### The turn of a core's slots (R307) -/

/-- Of a core's slots, only the current hart's is noted as having had its turn after `giveTurn`. -/
theorem mem_giveTurn_turns (s : State) (p : Nat) :
    p ∈ s.giveTurn.turns ↔ p = s.cur.place ∨ (p ∈ s.turns ∧ p ≠ matePlace s.cur.place) := by
  simp only [State.giveTurn, List.mem_cons, List.mem_filter, Bool.and_eq_true, bne_iff_ne]
  tauto

/-- The other slot's hart is ready when it runs and is not held. -/
theorem mateReady_of_running {s : State} {m : Hart} {place : Nat} (hm : m ∈ s.harts) (hp : m.place = matePlace place)
    (hrun : m.status = .running) (hheld : m.held = false) : s.mateReady place = true :=
  List.any_eq_true.mpr ⟨m, hm, by simp [Hart.ready, hp, hrun, hheld]⟩

theorem mayIssue_false_of_turn {s : State} {h : Hart} (ht : h.place ∈ s.turns) (hm : s.mateReady h.place = true) :
    s.mayIssue h = false := by
  simp [State.mayIssue, ht, hm]

theorem yieldInstruction : Spec.YieldInstruction := by
  refine ⟨fun s hs => ⟨s.start.giveTurn.turns, ?effect, mem_giveTurn_turns s.start⟩, fun s h m ht hm hp hrun hheld =>
    mayIssue_false_of_turn ht (mateReady_of_running hm hp hrun hheld)⟩
  case effect =>
    obtain ⟨⟨⟨-, hstrikes, -⟩, -⟩, -⟩ := id hs
    exact (perform_major0 hs (wMajor_sysWord ..)).trans (congrArg _ (finish_done _ _ rfl hstrikes))

/-! ### What the end of an iteration leaves of its hart (R128, log 58) -/

theorem wakeKey_cur (s : State) (key : Nat) : (s.wakeKey key).cur = s.cur := (wakeKey_reached s key).cur

theorem writeRecord_cur (s : State) (n : Nat) (r : Option Config.XtsKey × List Word) : (s.writeRecord n r).cur = s.cur :=
  wakeKey_cur s (s.recordKey n)

theorem stopRecord_cur (s : State) (n : Nat) (r : List Word) : (s.stopRecord n r).cur = s.cur := by
  unfold State.stopRecord
  dsimp only
  split
  · rfl
  · exact writeRecord_cur ..

theorem flushRecords_cur (n : Nat) : ∀ (fuel : Nat) (s : State), (s.flushRecords n fuel).cur = s.cur
  | 0, _ => rfl
  | fuel + 1, s => by
    unfold State.flushRecords
    dsimp only
    split
    · rfl
    · split
      · rfl
      · exact (flushRecords_cur n fuel _).trans (writeRecord_cur ..)

theorem stripRecord_cur (s : State) (n : Nat) (r : List Word) : (s.stripRecord n r).cur = s.cur := by
  have hflush := flushRecords_cur n (s.debug n).waiting.length s
  unfold State.stripRecord
  dsimp only
  split
  · exact hflush
  split
  · exact hflush
  · exact (writeRecord_cur ..).trans hflush

/-- Closing a strip changes of the hart at most the counters its next strip record starts from. -/
theorem closeStrip_cur (s : State) : ∃ at_, s.closeStrip.cur = { s.cur with stripAt := at_ } := by
  unfold State.closeStrip
  split
  · exact ⟨_, rfl⟩
  split
  · refine ⟨s.cur.counters, ?_⟩
    dsimp only
    rw [stripRecord_cur]
  · exact ⟨_, rfl⟩

theorem foldl_cur {α : Type} {f : State → α → State} (hf : ∀ s x, (f s x).cur = s.cur) (xs : List α) (s : State) :
    (xs.foldl f s).cur = s.cur := by
  induction xs generalizing s with
  | nil => rfl
  | cons x xs ih => exact (ih (f s x)).trans (hf s x)

theorem payHits_cur (s : State) (p : Hart → Bool) : (s.payHits p).cur = s.cur := by
  refine foldl_cur (fun s h => ?_) _ s
  split
  · exact foldl_cur (fun s k => stopRecord_cur ..) _ s
  · rfl

theorem leave_cur (s : State) (h : Hart) : (s.leave h).cur = s.cur := by
  unfold State.leave
  dsimp only
  split
  · split <;> rfl
  · rfl

theorem noteHeld_cur (s : State) (q n : Nat) : (s.noteHeld q n).cur = s.cur := by
  unfold State.noteHeld
  split
  · split <;> rfl
  · rfl

theorem enter_cur (s : State) (q : Nat) (u : QUpdate) : (s.enter q u).cur = s.cur := rfl

theorem putLaunch_cur (s : State) (l : Launch) : (s.putLaunch l).cur = s.cur := rfl

theorem unbind_cur (s : State) : (s.unbind s.cur.place).cur = s.cur.unbound := by
  simp [State.unbind]

/-- The end of an iteration unbinds its hart, and changes else at most the counters its strip records start from. -/
theorem haltEnd_cur (s : State) : ∃ at_, s.haltEnd.cur = ({ s.cur with stripAt := at_ } : Hart).unbound := by
  obtain ⟨at_, hstrip⟩ := closeStrip_cur s
  have hpaid : s.closeStrip.payOwn.cur = { s.cur with stripAt := at_ } := (payHits_cur ..).trans hstrip
  refine ⟨at_, ?_⟩
  rw [← hpaid, ← unbind_cur]
  unfold State.haltEnd
  generalize s.closeStrip.payOwn = t
  dsimp only
  split
  · exact leave_cur ..
  split
  · exact leave_cur ..
  split
  · rw [noteHeld_cur, enter_cur, putLaunch_cur, leave_cur]
  · exact leave_cur ..

/-- A slot whose hart is unbound is free, with its registers as they were. -/
theorem slotLeft_unbound (h : Hart) (at_ : List Word) : Spec.slotLeft h ({ h with stripAt := at_ } : Hart).unbound := by
  refine ⟨rfl, rfl, rfl, rfl, rfl, ?_⟩
  simp [Spec.csrs, Hart.unbound]

theorem haltEnd_slotLeft (s : State) : Spec.slotLeft s.cur s.haltEnd.cur := by
  obtain ⟨at_, hcur⟩ := haltEnd_cur s
  rw [hcur]
  exact slotLeft_unbound s.cur at_

/-! ### What HALT waits for (R128) -/

theorem fenceEngine_eq : fenceEngine = fun e => e != .nmuOut := by
  funext e
  cases e <;> rfl

/-- Nothing is left to wait for when the hart has no engine or bank command and no write of it is on its way. -/
theorem drained_iff (s : State) : s.drained = true ↔
    ¬ (s.ownCommand (fun e => e != .nmuOut) = true ∨ ∃ p ∈ s.net, p.owner = s.cur.place) := by
  have howns : s.net.any (s.owns true anyStream) = true ↔ ∃ p ∈ s.net, p.owner = s.cur.place := by
    rw [List.any_eq_true]
    refine exists_congr fun p => and_congr_right fun _ => ?_
    cases hp : p.stream <;> simp [State.owns, hp, anyStream]
  rw [← howns, State.drained, fenceEngine_eq, Bool.and_eq_true, Bool.not_eq_true', Bool.not_eq_true', not_or, Bool.not_eq_true,
    Bool.not_eq_true]

theorem halt_ends {s : State} (hs : PlainHart s) (hd : (s.start.drain anyStream).drained = true)
    (hb : (s.start.drain anyStream).haltEnd.blocked = none) : exec .halt s = .next (s.start.drain anyStream).haltEnd := by
  have hbody : haltBody s.start = .stay (s.start.drain anyStream).haltEnd := by simp only [haltBody, hd, if_true]
  refine (perform_major0 hs (wMajor_sysWord ..)).trans (congrArg _ ?_)
  rw [hbody, finish_stay _ _ hb]

theorem halt_waits {s : State} (hs : PlainHart s) (hd : (s.start.drain anyStream).drained = false)
    (hb : (s.start.drain anyStream).blocked = none) : exec .halt s = .next
      { s.start.drain anyStream with cur := { (s.start.drain anyStream).cur with status := .waiting .halt } } := by
  have hbody : haltBody s.start = waitFor .halt (s.start.drain anyStream) := by
    simp only [haltBody, hd, Bool.false_eq_true, if_false]
  refine (perform_major0 hs (wMajor_sysWord ..)).trans (congrArg _ ?_)
  rw [hbody, waitFor]
  exact finish_stay _ _ hb

/-- The waiting hart itself acts. -/
theorem onWaiting_cur {s : State} {x : Wait} (hw : s.cur.status = .waiting x) (hh : s.cur.held = false) (f : Wait → State → State) :
    s.onWaiting s.cur.place f = f x s := by
  simp [State.onWaiting, focus_cur, hw, hh]

theorem haltDrained_ends {s : State} (hw : s.cur.status = .waiting .halt) (hh : s.cur.held = false) (hd : s.drained = true)
    (hb : s.start.haltEnd.blocked = none) : exec (.haltDrained s.cur.place) s = .next s.start.haltEnd := by
  refine congrArg _ ((onWaiting_cur hw hh _).trans ?_)
  have hb' : ({ s with blocked := none } : State).haltEnd.blocked = none := hb
  simp only [hd, hb', Option.isSome_none, Bool.not_true, bne_self_eq_false, Bool.or_self, Bool.false_eq_true, if_false]
  rfl

theorem haltInstruction : Spec.HaltInstruction := by
  refine ⟨fun s hs hb => ⟨fun hleft hend => ?ends, fun hleft => ?waits⟩, fun s hw hh hcmd hnet hb => ?drained⟩
  case ends => exact ⟨halt_ends hs ((drained_iff _).mpr (drain_cur s.start anyStream ▸ hleft)) hend, haltEnd_slotLeft _⟩
  case waits =>
    refine halt_waits hs ?_ hb
    rw [← Bool.not_eq_true, drained_iff, not_not, drain_cur]
    exact hleft
  case drained =>
    have hdrained : s.drained = true := (drained_iff s).mpr (by
      rw [not_or, Bool.not_eq_true]
      exact ⟨hcmd, fun ⟨p, hp, ho⟩ => hnet p hp ho⟩)
    exact ⟨haltDrained_ends hw hh hdrained hb, haltEnd_slotLeft s.start⟩

end Sys2Proof.Machine

namespace Sys2Proof

/-- Settles O11: YIELD notes its slot alone of the core's two; HALT and HALT_DRAINED end in `haltEnd`, which unbinds the hart and leaves its
registers. -/
theorem turnsAndEnds : Obligations.TurnsAndEnds := ⟨Machine.yieldInstruction, Machine.haltInstruction⟩

end Sys2Proof
end

section
/-!
SUPPORT. What an instruction that is issued again reads (R66, R170): of its destinations the elements below `vstart` as the registers held
them when it began.
-/

namespace Sys2Proof.Machine

/-! ### The low bits of a string of bits (R11) -/

/-- Elements within the low bits of a string. -/
theorem elemN_mod {w i n : Nat} (x : Nat) (hi : w * i + w ≤ n) : elemN (x % 2 ^ n) w i = elemN x w i := by
  conv_rhs => rw [← Nat.mod_add_div x (2 ^ n), Nat.mul_comm (2 ^ n)]
  exact (elemN_add_low hi).symm

theorem elemN_ofNat {w i n : Nat} (x : Nat) (hi : w * i + w ≤ n) : elemN (BitVec.ofNat n x).toNat w i = elemN x w i := by
  rw [BitVec.toNat_ofNat, elemN_mod x hi]

/-- A string whose lowest k bits are those of another one. -/
def lowReplaced (x y k : Nat) : Nat := x / 2 ^ k * 2 ^ k + y % 2 ^ k

theorem elemN_lowReplaced (x y w p i : Nat) : elemN (lowReplaced x y (w * p)) w i = if i < p then elemN y w i else elemN x w i := by
  rw [lowReplaced, Nat.add_comm]
  split
  · rename_i hi
    have hseam : w * i + w ≤ w * p := by rw [← Nat.mul_succ]; exact Nat.mul_le_mul_left w hi
    rw [elemN_add_low hseam, elemN_mod y hseam]
  · rename_i hi
    have hx : x = x % 2 ^ (w * p) + x / 2 ^ (w * p) * 2 ^ (w * p) := (Nat.mod_add_div' ..).symm
    rw [elemN_add_high (Nat.mod_lt _ (Nat.two_pow_pos _)) (Nat.le_of_not_lt hi)]
    conv_rhs => rw [hx, elemN_add_high (Nat.mod_lt _ (Nat.two_pow_pos _)) (Nat.le_of_not_lt hi)]

/-- A register's granted bits hold its elements. -/
theorem elemN_vN {h : Hart} {w e m : Nat} (n : Nat) (he : h.regBits = w * e) (hm : m < e) :
    elemN (h.vN n) w m = elemN (h.rv n).toNat w m :=
  elemN_mod _ (by rw [he, ← Nat.mul_succ]; exact Nat.mul_le_mul_left w hm)

/-! ### The registers as an instruction that is issued again reads them (R66, R170) -/

section
variable (old : Vector (BitVec 4096) 32)

/-- The hart with the lowest n bits of one register as they stand in an older file. -/
def Hart.regLow (h : Hart) (base n : Nat) : Hart :=
  { h with v := h.v.set (reg32 base) (BitVec.ofNat 4096 (lowReplaced (h.rv base).toNat (old[reg32 base]).toNat (min n h.regBits))) }

@[simp] theorem regLow_regBits (h : Hart) (base n : Nat) : (h.regLow old base n).regBits = h.regBits := rfl

theorem regLow_rv (h : Hart) (n : Nat) {k base : Nat} (hk : k < 32) (hb : base < 32) : (h.regLow old base n).rv k =
    if k = base then BitVec.ofNat 4096 (lowReplaced (h.rv base).toNat (old[reg32 base]).toNat (min n h.regBits)) else h.rv k :=
  rv_wv h _ hk hb

theorem takeLow_succ (h : Hart) (base regs n : Nat) :
    h.takeLow old base (regs + 1) n = (h.regLow old base n).takeLow old (base + 1) regs (n - h.regBits) := rfl

/-- Taking bits from an older file changes the v registers alone. -/
theorem takeLow_rest : ∀ (regs base n : Nat) (h : Hart), h.takeLow old base regs n = { h with v := (h.takeLow old base regs n).v }
  | 0, _, _, _ => rfl
  | regs + 1, base, n, h => takeLow_rest regs (base + 1) (n - h.regBits) (h.regLow old base n)

theorem takeLow_rv_other : ∀ (regs base n : Nat) (h : Hart), base + regs ≤ 32 → ∀ k, k < 32 → (k < base ∨ base + regs ≤ k) →
    (h.takeLow old base regs n).rv k = h.rv k
  | 0, _, _, _, _, _, _, _ => rfl
  | regs + 1, base, n, h, hb, k, hk, ho => by
    rw [takeLow_succ, takeLow_rv_other regs (base + 1) _ _ (by omega) k hk (by omega), regLow_rv old h n hk (by omega), if_neg (by omega)]

/-- Register r of a group that takes its lowest n bits from an older file. -/
theorem takeLow_rv (regs : Nat) : ∀ (base n : Nat) (h : Hart), base + regs ≤ 32 → ∀ r, base ≤ r → r < base + regs →
    (h.takeLow old base regs n).rv r = BitVec.ofNat 4096
      (lowReplaced (h.rv r).toNat (old[reg32 r]).toNat (min (n - (r - base) * h.regBits) h.regBits)) := by
  induction regs with
  | zero => exact fun _ _ _ _ r hlow hhigh => absurd hhigh (Nat.not_lt.mpr hlow)
  | succ regs ih =>
    intro base n h hb r hlow hhigh
    rw [takeLow_succ]
    rcases Nat.eq_or_lt_of_le hlow with rfl | habove
    · rw [takeLow_rv_other old regs (base + 1) _ _ (by omega) base (by omega) (by omega), regLow_rv old h n (by omega) (by omega), if_pos rfl,
        Nat.sub_self, Nat.zero_mul, Nat.sub_zero]
    · have hbits : n - h.regBits - (r - (base + 1)) * h.regBits = n - (r - base) * h.regBits := by
        rw [Nat.sub_sub, show r - base = r - (base + 1) + 1 by omega, Nat.add_one_mul, Nat.add_comm]
      rw [ih (base + 1) _ _ (by omega) r habove (by omega), regLow_regBits, hbits, regLow_rv old h n (by omega) (by omega),
        if_neg (by omega)]

/-- Element i of a group that takes its lowest `p` elements from an older file. -/
theorem elemN_takeLow {h : Hart} {base regs w e p i : Nat} (hb : base + regs ≤ 32) (he : h.regBits = w * e) (hle : h.regBits ≤ 4096)
    (hi : i < regs * e) : elemN ((h.takeLow old base regs (p * w)).groupN base regs) w i =
      if i < p then elemN (({ h with v := old } : Hart).groupN base regs) w i else elemN (h.groupN base regs) w i := by
  have e0 : 0 < e := Nat.pos_of_ne_zero fun h0 => by rw [h0] at hi; omega
  have hj : i / e < regs := by rwa [Nat.div_lt_iff_lt_mul e0]
  have hm : i % e < e := Nat.mod_lt _ e0
  have ht : (h.takeLow old base regs (p * w)).regBits = w * e := by rw [takeLow_rest, ← he]; rfl
  have hold : ({ h with v := old } : Hart).regBits = w * e := he
  have hlow : min (p * w - i / e * h.regBits) h.regBits = w * min (p - i / e * e) e := by
    rw [he, ← Nat.mul_min_mul_left, Nat.mul_sub, Nat.mul_comm w p, Nat.mul_left_comm]
  have hwithin : w * (i % e) + w ≤ 4096 := by
    rw [← Nat.mul_succ]; exact (Nat.mul_le_mul_left w hm).trans (he ▸ hle)
  rw [elemN_groupN base regs i ht hi, elemN_groupN base regs i he hi, elemN_groupN base regs i hold hi, elemN_vN _ ht hm,
    elemN_vN _ he hm, elemN_vN _ hold hm, takeLow_rv old regs base _ h hb _ (Nat.le_add_right ..) (Nat.add_lt_add_left hj _),
    Nat.add_sub_cancel_left, hlow, elemN_ofNat _ hwithin, elemN_lowReplaced]
  have hpos : i % e < min (p - i / e * e) e ↔ i < p := by
    have := Nat.div_add_mod' i e
    rw [Nat.lt_min]; omega
  simp only [hpos]
  rfl

end

theorem sourcesKept : Spec.SourcesKept := by
  refine ⟨fun h ds hnone => ?fresh, fun h d e old he ho hb hw hdvd hle => ?again⟩
  case fresh =>
    have : h.reissue.bind (fun e => e.old) = none := by
      cases hr : h.reissue with
      | none => rfl
      | some e => exact hnone e hr
    simp only [Hart.asIssued, this]
  case again =>
    have ht : h.asIssued [d] = h.takeLow old d.base d.regs (h.vstart.toNat * d.width) := by simp [Hart.asIssued, he, ho]
    have hfill : h.regBits = d.width * (h.regBits / d.width) := (Nat.mul_div_cancel' (Nat.dvd_of_mod_eq_zero hdvd)).symm
    rw [ht]
    refine ⟨fun i hi => elemN_takeLow old hb hfill hle ?_, fun k hk hout => ?_, ?_, ?_, ?_⟩
    · rw [hfill, Nat.mul_left_comm, Nat.mul_comm d.width] at hi
      exact Nat.lt_of_mul_lt_mul_right (Nat.lt_of_lt_of_le (Nat.mul_lt_mul_of_pos_right (Nat.lt_succ_self i) hw) hi)
    · have := overlap_false hout
      exact takeLow_rv_other old _ _ _ _ hb k hk (by omega)
    all_goals rw [takeLow_rest]

end Sys2Proof.Machine
end

section
/-!
SUPPORT. The permutes as instructions (R171): their checks, the positions the governing bits select, and where each places its elements.
-/

namespace Sys2Proof.Machine

/-! ### Elements that raise no flag -/

/-- The value matters only where an element takes it (R134). -/
theorem elementAfter_congr {c : VCtx} {ta ma : Bool} {kept : Nat → Bool} {w x y i : Nat} (old : Nat)
    (hxy : takes c kept i → x % 2 ^ w = y % 2 ^ w) : elementAfter c ta ma kept w old x i = elementAfter c ta ma kept w old y i := by
  unfold elementAfter
  by_cases h0 : c.vl = 0 ∨ i < c.vstart
  · simp only [h0, if_true]
  by_cases hg : c.granted i = false
  · simp only [h0, hg, if_true, if_false]
  by_cases hk : kept i = true
  · simp only [h0, hg, hk, if_true, if_false]
  by_cases hm : c.gov i = false
  · simp only [h0, hg, hk, hm, if_true, if_false]
  have hactive : c.active i = true := by
    simp only [VCtx.active, Bool.and_eq_true, decide_eq_true_eq]
    exact ⟨⟨by omega, by simpa using hg⟩, by simpa using hm⟩
  rw [hxy ⟨fun h => h0 (.inl h), hactive, by simpa using hk⟩]

/-- Values that agree on the elements an instruction takes leave the same hart. -/
theorem ElementsWritten.of_values {h t : Hart} {c : VCtx} {md : VMods} {dests : List Dest} {kept : Nat → Bool} {x y : Nat → Nat} {w : Nat}
    (hw : ElementsWritten h c md dests kept (fun i => .of (x i)) t) (hd : ∀ d ∈ dests, d.width = w ∧ ∀ r, d.pick r = r.val)
    (hxy : ∀ i, takes c kept i → x i % 2 ^ w = y i % 2 ^ w) : ElementsWritten h c md dests kept (fun i => .of (y i)) t where
  rest := hw.rest
  element := fun d hm i hi => by
    obtain ⟨hwd, hpick⟩ := hd d hm
    rw [hw.element d hm i hi, hpick, hpick, hwd]
    exact elementAfter_congr _ (hxy i)
  emask := hw.emask
  others := hw.others
  flags := hw.flags
  dirtied := hw.dirtied

/-- The destinations of one group: the copy differs in its first register alone (R64). -/
theorem mem_copyDest {h : Hart} {d x : Dest} (hx : x ∈ d :: h.copyDest d) : x.regs = d.regs ∧ x.width = d.width ∧ x.pick = d.pick := by
  rcases List.mem_cons.mp hx with rfl | hx
  · exact ⟨rfl, rfl, rfl⟩
  · unfold Hart.copyDest at hx
    split at hx
    · rw [List.mem_singleton.mp hx]
      exact ⟨rfl, rfl, rfl⟩
    · cases hx

/-- An instruction whose effect is the template of R134 and whose elements raise no flag: `runs` gives its effect once its source is
fetched, by values that agree with the rule's on the elements it takes. -/
theorem vectorFrom_of_values {con : VOp → Instr} {shape : VOp → VCtx → Shape} {fetch : State → VOp → VCtx → Option (Src × State)}
    {strip : VCtx → VCtx} {wd : VOp → VCtx → Nat} {kept : Hart → VOp → VCtx → Nat → Bool}
    {value : Hart → VOp → VCtx → (Nat → Nat) → Nat → Nat} {body : VOp → State → Flow}
    (effect : ∀ o s, exec (con o) s = performPfx (encode (con o)) s (body o))
    (fetched : ∀ s o c a u, fetch s o c = some (a, u) → Fetched s u) (lanes : ∀ c, (strip c).lanes = c.lanes)
    (dest : ∀ (h : Hart) (o : VOp), vCheck h o (h.vctx o.m) (shape o (h.vctx o.m)) = true →
      (shape o (h.vctx o.m)).halves = 1 ∧ (shape o (h.vctx o.m)).nd ∣ 32 ∧ wd o (h.vctx o.m) ∣ 256 ∧ 0 < wd o (h.vctx o.m))
    (refused : ∀ (s : State) (o : VOp), vCheck s.cur o (s.cur.vctx o.m) (shape o (s.cur.vctx o.m)) = false ∨
      fetch s o (s.cur.vctx o.m) = none → body o s = illegalV s)
    (runs : ∀ (s : State) (o : VOp) a u, let c := s.cur.vctx o.m
      let d : Dest := { base := o.vd.toNat, regs := (shape o c).nd, width := wd o c, pick := fun r => r.val }
      vCheck s.cur o c (shape o c) = true → fetch s o c = some (a, u) →
      ∃ (back : Nat) (x : Nat → Nat), body o s = u.elementwise (strip c) (VMods.of u.cur o) (d :: u.cur.copyDest d) { a with back := back }
          (fun i => .of (x i)) (kept s.cur o c) ∧
        ∀ i, takes (strip c) (kept s.cur o c) i → x i % 2 ^ wd o c = value u.cur o c a.elem i % 2 ^ wd o c) :
    Spec.VectorFrom con shape fetch strip wd kept (fun h o c e i => .of (value h o c e i)) := by
  intro o s _ hx hl hd
  refine ⟨fun hbad => ?refused, fun a u hv hs ha hub hus _ => ?completes⟩
  case refused =>
    rw [effect]
    exact performPfx_illegalV hx hl hd (refused s.start o hbad)
  case completes =>
    have fu := fetched _ _ _ _ _ hs
    obtain ⟨back, x, hbody, hvalue⟩ := runs s.start o a u hv hs
    obtain ⟨h1, hn, hw, w0⟩ := dest s.cur o hv
    obtain ⟨d1, d2, d3⟩ := vCheck_dests (t := u.cur) (pick := fun r => r.val) hv h1 hn hw w0 fu.pfx
    have hreg : u.cur.regBits = 256 * (strip (s.cur.vctx o.m)).lanes := by
      rw [lanes]; unfold Hart.regBits Hart.lanes; rw [fu.lmap]; rfl
    obtain ⟨h, hdone, hwritten⟩ := elementwise_done (src := { a with back := back }) (kept := kept s.cur o (s.cur.vctx o.m))
      (md := VMods.of u.cur o) (f := fun i => .of (x i)) hreg ha (fu.cut.trans hx.2.2) (fun _ _ => ⟨rfl, Nat.zero_and _⟩) d1 d2 d3
    refine ⟨h, ?_, hwritten.of_values (fun d hm => ?_) hvalue⟩
    · rw [effect]
      exact performPfx_vectorDone hx hl hd (hbody.trans hdone) hub (hwritten.strikes.trans hus)
    · obtain ⟨-, hwd, hpick⟩ := mem_copyDest hm
      exact ⟨hwd, fun r => congrFun hpick r⟩

/-! ### Checks of a permute (R170) -/

/-- Every format that checks 3 and 4 let a permute take has elements that fill a register (R33). -/
theorem fmtWidth_any {f : Nat} (h : f ∈ List.range 13) : fmtWidth f ∣ 256 ∧ 0 < fmtWidth f := by
  revert f
  decide

theorem permDest {h : Hart} {o : VOp} {k : Shape} (hv : vCheck h o (h.vctx o.m) k = true) (h1 : k.halves = 1)
    (hf : k.formats = List.range 13) (hn : k.nd = (h.vctx o.m).g) :
    k.halves = 1 ∧ k.nd ∣ 32 ∧ (h.vctx o.m).w ∣ 256 ∧ 0 < (h.vctx o.m).w :=
  ⟨h1, hn ▸ (vctx_g_dvd h o.m).trans (by decide), fmtWidth_any (hf ▸ vCheck_format hv)⟩

/-- A shape that takes no two-dimensional strip (R170). -/
theorem vCheck_flat {h : Hart} {o : VOp} {c : VCtx} {k : Shape} (hv : vCheck h o c k = true) (hk : k.flat = true) : c.twoD = false := by
  simp only [vCheck, Bool.and_eq_true, hk, Bool.true_and, Bool.not_eq_true'] at hv
  obtain ⟨⟨⟨⟨⟨⟨⟨-, h2⟩, -⟩, -⟩, -⟩, -⟩, -⟩, -⟩ := hv
  exact h2

/-- Operands that check 4 accepts meet no clash of the instruction's entry. -/
theorem vCheck_noClash {h : Hart} {o : VOp} {c : VCtx} {k : Shape} (hv : vCheck h o c k = true) : k.clash = false := by
  simp only [vCheck, Bool.and_eq_true, Bool.not_eq_true'] at hv
  obtain ⟨⟨-, hclash⟩, -⟩ := hv
  exact hclash

theorem granted_flat {c : VCtx} (h : c.twoD = false) (i : Nat) : c.granted i = decide (i < c.vl - c.vpad) := by
  simp [VCtx.granted, h]

theorem lt_of_active {c : VCtx} (h : c.twoD = false) {i : Nat} (hi : c.active i = true) : i < c.vl - c.vpad := by
  simp only [VCtx.active, Bool.and_eq_true, granted_flat h, decide_eq_true_eq] at hi
  obtain ⟨⟨-, hbelow⟩, -⟩ := hi
  exact hbelow

/-! ### What a permute that is issued again reads (R66, R170) -/

section
variable (q : Vector QReg 8) (st : List Strike)

theorem takeLow_fetched (old : Vector (BitVec 4096) 32) : ∀ (regs base n : Nat) (h : Hart),
    ({ h with q := q, strikes := st } : Hart).takeLow old base regs n = { h.takeLow old base regs n with q := q, strikes := st }
  | 0, _, _, _ => rfl
  | regs + 1, base, n, h => takeLow_fetched old regs (base + 1) (n - h.regBits) (h.regLow old base n)

/-- Fetching a source changes nothing that the registers, as the instruction first read them, depend on. -/
theorem asIssued_fetched (h : Hart) (ds : List Dest) :
    ({ h with q := q, strikes := st } : Hart).asIssued ds = { h.asIssued ds with q := q, strikes := st } := by
  unfold Hart.asIssued
  dsimp only
  split
  · rfl
  · rename_i old hold
    clear hold
    induction ds generalizing h with
    | nil => rfl
    | cons d ds ih =>
      rw [List.foldl_cons, List.foldl_cons, takeLow_fetched]
      exact ih (h.takeLow old d.base d.regs (h.vstart.toNat * d.width))

theorem begun_groupN_fetched (h : Hart) (o : VOp) (c : VCtx) (w base n : Nat) :
    (Spec.begun { h with q := q, strikes := st } o c w).groupN base n = (Spec.begun h o c w).groupN base n := by
  rw [show Spec.begun { h with q := q, strikes := st } o c w = _ from asIssued_fetched q st h _]
  exact groupN_of (h := Spec.begun h o c w) (t := { Spec.begun h o c w with q := q, strikes := st }) rfl rfl base n

end

/-! ### The positions that the governing bits select (R171) -/

theorem popcN_eq_filter (n x : Nat) : popcN n x = ((List.range n).filter (fun k => x.testBit k)).length := by
  have hx : (BitVec.ofNat x x).toNat = x := by
    rw [BitVec.toNat_ofNat, Nat.mod_eq_of_lt Nat.lt_two_pow_self]
  have h := popcN_eq (BitVec.ofNat x x) n
  simp only [BitVec.getLsbD, hx] at h
  rw [h, List.countP_eq_length_filter]

theorem gov_eq_testBit (c : VCtx) : c.gov = fun i => !c.masked || c.mask.testBit i :=
  funext fun i => by rw [VCtx.gov, bitN_eq_testBit]

theorem selected_eq_chosen (c : VCtx) : c.selected = Spec.chosen c (c.vl - c.vpad) := by
  rw [Spec.chosen, Nat.min_self]
  rfl

/-- Below the strip's element count c(i) is the number of selected positions below i. -/
theorem selectedBelow_eq_chosen {c : VCtx} {i : Nat} (hi : i < c.vl - c.vpad) : c.selectedBelow i = (Spec.chosen c i).length := by
  unfold VCtx.selectedBelow Spec.chosen
  rw [gov_eq_testBit]
  cases c.masked with
  | true => simp [popcN_eq_filter]
  | false => simp [Nat.min_eq_left (Nat.le_of_lt hi)]

/-- What VIOTA gives for position i of the mask register x. -/
def iotaValue (c : VCtx) (x i : Nat) : Nat := popcN (min i (c.vl - c.vpad)) (if c.masked then x &&& c.mask else x)

/-- VIOTA counts the ones of its source at the selected positions below i. -/
theorem iotaValue_eq_chosen (c : VCtx) (x i : Nat) : iotaValue c x i = ((Spec.chosen c i).filter (fun j => x.testBit j)).length := by
  rw [iotaValue, popcN_eq_filter, Spec.chosen, List.filter_filter, gov_eq_testBit]
  cases c.masked <;> simp [Nat.testBit_and]

/-! ### The permutes of the elements of vs1 (R171) -/

theorem permute_refused {s : State} {o : VOp} {k : VCtx → Shape} {f : Hart → VCtx → (Nat → Nat) → Nat → Nat}
    {kept : VCtx → Nat → Bool} {back : Nat} (h : vCheck s.cur o (s.cur.vctx o.m) (k (s.cur.vctx o.m)) = false ∨
      s.src1 o (s.cur.vctx o.m) (s.cur.vctx o.m).w (s.cur.vctx o.m).g
        (Spec.begun s.cur o (s.cur.vctx o.m) (s.cur.vctx o.m).w) = none) : permute o k f kept s back = illegalV s := by
  unfold permute
  rcases h with h | h
  · simp only [h, Bool.not_false, if_true]
  · simp only [Spec.begun] at h
    simp only [groupDest, h, ite_self]

theorem permute_fetched {s u : State} {o : VOp} {k : VCtx → Shape} {f : Hart → VCtx → (Nat → Nat) → Nat → Nat}
    {kept : VCtx → Nat → Bool} {back : Nat} {a : Src} (hv : vCheck s.cur o (s.cur.vctx o.m) (k (s.cur.vctx o.m)) = true)
    (hs : s.src1 o (s.cur.vctx o.m) (s.cur.vctx o.m).w (s.cur.vctx o.m).g
      (Spec.begun s.cur o (s.cur.vctx o.m) (s.cur.vctx o.m).w) = some (a, u)) :
    permute o k f kept s back = u.elementwise (s.cur.vctx o.m) (VMods.of u.cur o)
      (groupDest o (s.cur.vctx o.m) :: u.cur.copyDest (groupDest o (s.cur.vctx o.m))) { a with back := back }
      (fun i => .of (f (Spec.begun s.cur o (s.cur.vctx o.m) (s.cur.vctx o.m).w) (s.cur.vctx o.m) a.elem i)) (kept (s.cur.vctx o.m)) := by
  unfold permute
  simp only [Spec.begun] at hs
  simp only [hv, groupDest, hs, Bool.not_true, Bool.false_eq_true, if_false]
  rfl

theorem Fetched.src1_from {s u : State} {o : VOp} {c : VCtx} {w n : Nat} {from_ : Hart} {a : Src}
    (h : s.src1 o c w n from_ = some (a, u)) : Fetched s u := by
  cases hq : o.q with
  | true => exact Fetched.src1 (o := o) (c := c) (w := w) (n := n) (a := a) (by simpa only [State.src1, hq, if_true] using h)
  | false =>
    simp only [State.src1, hq, Bool.false_eq_true, if_false] at h
    cases h
    exact refl s

/-- An instruction whose effect is a permute places the elements as `place` says: of the hart before the fetch and of the registers as it
first read them. -/
theorem permute_of_effect {con : VOp → Instr} {n2 : VCtx → Nat} {kept : Hart → VOp → VCtx → Nat → Bool}
    {value : Hart → VOp → VCtx → (Nat → Nat) → Nat → Nat} (place : Hart → VOp → Hart → VCtx → (Nat → Nat) → Nat → Nat)
    (back : Hart → VOp → Nat)
    (effect : ∀ o s, exec (con o) s = performPfx (encode (con o)) s (fun s =>
      permute o (fun c => permShape c c.g (n2 c) false) (place s.cur o) (kept s.cur o) s (back s.cur o)))
    (values : ∀ (h : Hart) q st o c, value { h with q := q, strikes := st } o c = place h o (Spec.begun h o c c.w) c) :
    Spec.Permute con n2 kept value := by
  refine vectorFrom_of_values effect (fun _ _ _ _ _ hs => Fetched.src1_from hs) (fun _ => rfl) (fun _ _ hv => permDest hv rfl rfl rfl)
    (fun s o hbad => permute_refused hbad) (fun s o a u hv hs => ?_)
  obtain ⟨⟨q, st, hcur⟩, -, -⟩ := Fetched.src1_from hs
  refine ⟨back s.cur o, _, permute_fetched hv hs, fun i _ => ?_⟩
  rw [hcur, values]

theorem other_begun_fetched (h : Hart) (q : Vector QReg 8) (st : List Strike) (o : VOp) (c : VCtx) (w : Nat) (r : Reg) (i : Nat) :
    Spec.other (Spec.begun { h with q := q, strikes := st } o c w) r c i = Spec.other (Spec.begun h o c w) r c i := by
  rw [Spec.other, begun_groupN_fetched]
  rfl

theorem vslideup_permutes : Spec.Permute .vslideup (fun _ => 0) (fun h o _ i => i < Spec.slide h o)
    (fun h o _ e i => e (i - Spec.slide h o)) :=
  permute_of_effect (fun h o _ _ e i => e (i - slideBy h o)) (fun _ _ => 0) (fun _ _ => rfl) (fun _ _ _ _ _ => rfl)

theorem vslidedn_permutes : Spec.Permute .vslidedn (fun _ => 0) Spec.keepsNone
    (fun h o c e i => if i + Spec.slide h o < c.vlmax then e (i + Spec.slide h o) else 0) :=
  permute_of_effect (fun h o _ c e i => if i + slideBy h o < c.vlmax then e (i + slideBy h o) else 0) slideBy (fun _ _ => rfl)
    (fun _ _ _ _ _ => rfl)

theorem vslide1up_permutes : Spec.Permute .vslide1up (fun _ => 0) Spec.keepsNone
    (fun h o _ e i => if i = 0 then (h.ox o.vs2).toNat else e (i - 1)) :=
  permute_of_effect (fun h o _ _ e i => if i == 0 then (h.ox o.vs2).toNat else e (i - 1)) (fun _ _ => 0) (fun _ _ => rfl)
    (fun _ _ _ _ _ => by funext e i; simp only [beq_iff_eq]; rfl)

theorem vslide1dn_permutes : Spec.Permute .vslide1dn (fun _ => 0) Spec.keepsNone
    (fun h o c e i => if i + 1 < c.vl - c.vpad then e (i + 1) else (h.ox o.vs2).toNat) :=
  permute_of_effect (fun h o _ c e i => if i + 1 < c.vl - c.vpad then e (i + 1) else (h.ox o.vs2).toNat) (fun _ _ => 1) (fun _ _ => rfl)
    (fun _ _ _ _ _ => rfl)

theorem vpermv_permutes : Spec.Permute .vpermv (fun c => c.g) Spec.keepsNone
    (fun h o c e i => if e i < c.vlmax then Spec.other (Spec.begun h o c c.w) o.vs2 c (e i) else 0) :=
  permute_of_effect (fun _ o h c e i => if e i < c.vlmax then Spec.other h o.vs2 c (e i) else 0) (fun _ _ => 0) (fun _ _ => rfl)
    (fun h q st o c => by funext e i; rw [other_begun_fetched])

/-! ### The permutes of other sources (R171) -/

theorem vmerge_chooses : Spec.VectorFrom .vmerge
    (fun o c => { formats := List.range 13, n1 := c.g, n2 := c.g, nd := c.g, clash := !o.m || o.ma })
    (fun s o c => s.src1 o c c.w c.g) (fun c => { c with masked := false }) (fun _ c => c.w) Spec.keepsNone
    (fun h o c e i => .of (if c.mask.testBit i then e i else Spec.other h o.vs2 c i)) := by
  refine vectorFrom_of_values (body := vmergeBody) (fun _ _ => rfl) (fun _ _ _ _ _ hs => Fetched.src1_from hs) (fun _ => rfl)
    (fun _ _ hv => permDest hv rfl rfl rfl) (fun s o hbad => ?refused) (fun s o a u hv hs => ⟨a.back, _, ?runs, fun _ _ => rfl⟩)
  case refused =>
    unfold vmergeBody
    rcases hbad with h | h
    · simp only [anyFormat, h, Bool.not_false, if_true]
    · simp only [h, ite_self]
  case runs =>
    unfold vmergeBody
    simp only [anyFormat, hv, hs, Bool.not_true, Bool.false_eq_true, if_false, bitN_eq_testBit]
    rfl

theorem vid_counts : Spec.VectorFrom .vid (fun _ c => { formats := List.range 13, n1 := 0, n2 := 0, nd := c.g })
    (fun s _ _ => some ({ elem := fun _ => 0 }, s)) id (fun _ c => c.w) Spec.keepsNone (fun _ _ _ _ i => .of i) := by
  refine vectorFrom_of_values (body := vidBody) (fun _ _ => rfl) (fun s _ _ _ _ hs => ?fetched) (fun _ => rfl)
    (fun _ _ hv => permDest hv rfl rfl rfl) (fun s o hbad => ?refused)
    (fun s o a u hv hs => ⟨0, fun i => i % 2 ^ (s.cur.vctx o.m).w, ?runs, fun _ _ => Nat.mod_mod ..⟩)
  case fetched => cases hs; exact .refl s
  case refused =>
    have hv := hbad.resolve_right (by simp)
    unfold vidBody
    simp only [anyFormat, hv, Bool.not_false, if_true]
  case runs =>
    cases hs
    unfold vidBody
    simp only [anyFormat, hv, Bool.not_true, Bool.false_eq_true, if_false]
    rfl

theorem viota_counts : Spec.VectorFrom .viota (Spec.permShape (fun _ => 1) (fun _ => 0) (fun o _ => o.q))
    (fun s _ _ => some ({ elem := fun _ => 0 }, s)) id (fun _ c => c.w) Spec.keepsNone
    (fun h o c _ i => .of ((Spec.chosen c i).filter (fun j => ((Spec.begun h o c c.w).vN o.vs1.toNat).testBit j)).length) := by
  refine vectorFrom_of_values (body := viotaBody) (fun _ _ => rfl) (fun s _ _ _ _ hs => ?fetched) (fun _ => rfl)
    (fun _ _ hv => permDest hv rfl rfl rfl) (fun s o hbad => ?refused)
    (fun s o a u hv hs => ⟨0, iotaValue (s.cur.vctx o.m) ((Spec.begun s.cur o (s.cur.vctx o.m) (s.cur.vctx o.m).w).vN o.vs1.toNat),
      ?runs, fun i _ => ?values⟩)
  case fetched => cases hs; exact .refl s
  case refused =>
    have hv := hbad.resolve_right (by simp)
    unfold viotaBody
    simp only [Spec.permShape] at hv
    simp only [permShape, anyFormat, hv, Bool.not_false, if_true]
  case runs =>
    cases hs
    unfold viotaBody
    simp only [Spec.permShape] at hv
    simp only [permShape, anyFormat, hv, Bool.not_true, Bool.false_eq_true, if_false]
    rfl
  case values =>
    cases hs
    exact congrArg (· % _) (iotaValue_eq_chosen (s.cur.vctx o.m) _ i)

/-- The source of VEXPAND: a group, or as many elements of a queue as are selected (R171, R176). -/
def expandSource (s : State) (o : VOp) (c : VCtx) : Option (Src × State) :=
  if o.q then
    (s.takeQ (o.vs1.toNat % 8) (Spec.chosen c (c.vl - c.vpad)).length c.w (fun j => (Spec.chosen c (c.vl - c.vpad)).getD j 0)).map
      (fun r => ({ elem := heldVal r.1.1, held := some r.1.1, limit := r.1.2 }, r.2))
  else some ({ elem := fun j => Spec.other (Spec.begun s.cur o c c.w) o.vs1 c j }, s)

theorem Fetched.expandSource {s u : State} {o : VOp} {c : VCtx} {a : Src} (h : expandSource s o c = some (a, u)) : Fetched s u := by
  unfold Machine.expandSource at h
  split at h
  · obtain ⟨r, hr, he⟩ := Option.map_eq_some_iff.mp h
    cases he
    exact takeQ hr
  · cases h
    exact refl s

/-- VEXPAND is the template of R134 on its source. -/
theorem vexpandBody_eq (o : VOp) (s : State) : vexpandBody o s =
    if !vCheck s.cur o (s.cur.vctx o.m) (Spec.permShape (fun c => c.g) (fun _ => 0) (fun _ _ => false) o (s.cur.vctx o.m)) then illegalV s else
    match expandSource s o (s.cur.vctx o.m) with
    | none => illegalV s
    | some (a, u) => u.elementwise (s.cur.vctx o.m) (VMods.of u.cur o)
        (groupDest o (s.cur.vctx o.m) :: u.cur.copyDest (groupDest o (s.cur.vctx o.m))) a
        (fun i => .of (a.elem ((s.cur.vctx o.m).selectedBelow i))) := by
  unfold vexpandBody expandSource
  simp only [selected_eq_chosen]
  cases o.q with
  | false => rfl
  | true =>
    simp only [if_true]
    generalize Spec.chosen (s.cur.vctx o.m) _ = sel
    cases s.takeQ (o.vs1.toNat % 8) sel.length (s.cur.vctx o.m).w (fun j => sel.getD j 0) <;> rfl

theorem vexpand_spreads : Spec.VectorFrom .vexpand (Spec.permShape (fun c => c.g) (fun _ => 0) (fun _ _ => false)) expandSource
    id (fun _ c => c.w) Spec.keepsNone (fun _ _ c e i => .of (e (Spec.chosen c i).length)) := by
  refine vectorFrom_of_values (body := vexpandBody) (fun _ _ => rfl) (fun _ _ _ _ _ hs => Fetched.expandSource hs) (fun _ => rfl)
    (fun _ _ hv => permDest hv rfl rfl rfl) (fun s o hbad => ?refused)
    (fun s o a u hv hs => ⟨a.back, fun i => a.elem ((s.cur.vctx o.m).selectedBelow i), ?runs, fun i hi => ?values⟩)
  case refused =>
    rw [vexpandBody_eq]
    rcases hbad with h | h
    · exact if_pos (by rw [h]; rfl)
    · simp only [h, ite_self]
  case runs =>
    rw [vexpandBody_eq, hs]
    exact if_neg (by rw [hv]; decide)
  case values =>
    obtain ⟨-, hactive, -⟩ := hi
    exact congrArg (a.elem · % _) (selectedBelow_eq_chosen (lt_of_active (vCheck_flat hv rfl) hactive))

/-! ### VCOMPRESS (R171) -/

/-- The slots of VCOMPRESS: the elements at the selected positions, then inactive ones to the end of the strip, then `n` of the tail. -/
def packedSlots (c : VCtx) (all : List Nat) (val : Nat → Nat) (n : Nat) : List Slot :=
  all.map (fun j => Slot.res (.of (val j))) ++ List.replicate (c.vl - c.vpad - all.length) .off ++ List.replicate n .tail

/-- The strip of VCOMPRESS: as many leading positions are governed as elements are selected. -/
def VCtx.packed (c : VCtx) (all : List Nat) : VCtx := { c with masked := true, mask := 2 ^ all.length - 1 }

theorem packed_gov (c : VCtx) (all : List Nat) (i : Nat) : (c.packed all).gov i = decide (i < all.length) := by
  simp [gov_eq_testBit, VCtx.packed, Nat.testBit_two_pow_sub_one]

theorem packedSlots_get {c : VCtx} {all : List Nat} {n i : Nat} (val : Nat → Nat) (h0 : c.vstart = 0) (hflat : c.twoD = false)
    (hall : all.length ≤ c.vl - c.vpad) (hi : i < n) :
    (packedSlots c all val n)[i]? = some (slotOf (c.packed all) (fun _ => false) (fun i => .of (val (all.getD i 0))) i) := by
  have hstart : ¬ i < (c.packed all).vstart := by rw [show (c.packed all).vstart = 0 from h0]; omega
  have hgranted : (c.packed all).granted i = decide (i < c.vl - c.vpad) := granted_flat (c := c.packed all) hflat i
  rw [slotOf, if_neg hstart, hgranted, packed_gov, packedSlots]
  by_cases hsel : i < all.length
  · have hin : i < c.vl - c.vpad := by omega
    simp [List.getElem?_append_left, hsel, hin]
  by_cases hin : i < c.vl - c.vpad
  · rw [List.getElem?_append_left (by simp; omega), List.getElem?_append_right (by simp; omega), List.getElem?_replicate]
    simp [hsel, hin]
    omega
  · rw [List.getElem?_append_right (by simp; omega), List.getElem?_replicate]
    simp [hin]
    omega

/-- Writing the slots of a strip to the destinations, with no exception mask and no flag raised, leaves what R134 says. -/
theorem DestsWritten.elementsWritten {h t : Hart} {c : VCtx} {md : VMods} {dests : List Dest} {slots : List Slot} {kept : Nat → Bool}
    {val : Nat → Nat} (w : DestsWritten h md.ta md.ma slots dests t) (hreg : h.regBits = 256 * c.lanes) (hem : md.em = none)
    (h0 : c.vl ≠ 0) (hs : ∀ d ∈ dests, ∀ i, i < c.positions d → slots[i]? = some (slotOf c kept (fun i => .of (val i)) i)) :
    ElementsWritten h c md dests kept (fun i => .of (val i)) { t with vstart := 0 } where
  rest := by rw [w.rest]
  element := fun d hd i hi => by
    have hpos : c.positions d = d.regs * (h.regBits / d.width) := by rw [hreg]; rfl
    rw [groupN_vstart, w.element d hd i (hpos ▸ hi), hs d hd i hi]
    exact slotOf_write h0
  emask := fun k hk => absurd (hem.symm.trans hk) (by simp)
  others := fun k hk _ ho => w.others k hk ho
  flags := fun b _ => by rw [w.rest]; simp [ERes.of]
  dirtied := w.dirtied

/-- A strip without elements leaves every register as it was (R134). -/
theorem elementsWritten_empty {h : Hart} {c : VCtx} {md : VMods} {dests : List Dest} {kept : Nat → Bool} {val : Nat → ERes}
    (h0 : c.vl = 0) : ElementsWritten h c md dests kept val { h with vstart := 0 } where
  rest := rfl
  element := fun d _ i _ => by rw [groupN_vstart]; simp [elementAfter, h0]
  emask := fun k _ i _ => by rw [groupN_vstart]; simp [maskAfter, h0]
  others := fun _ _ _ _ => ⟨rfl, rfl⟩
  flags := fun b _ => by simp [takes, h0]
  dirtied := fun _ => ⟨id, fun _ e => absurd rfl e, fun _ => rfl⟩

/-- The operands of VCOMPRESS. -/
def compressShape (o : VOp) (c : VCtx) : Shape := Spec.permShape (fun c => c.g) (fun _ => 0) (fun o c => c.vstart != 0 || o.q) o c

/-- The hart after VCOMPRESS. -/
def Hart.compressed (h : Hart) (o : VOp) (c : VCtx) : Hart :=
  if c.vl = 0 then { h with vstart := 0 } else
  let slots := packedSlots c c.selected (Spec.other h o.vs1 c) (c.positions (groupDest o c))
  { (groupDest o c :: h.copyDest (groupDest o c)).foldl (fun t x => t.writeDest o.ta o.ma slots x) h with vstart := 0 }

theorem vcompressBody_eq (o : VOp) (s : State) : vcompressBody o s =
    if !vCheck s.cur o (s.cur.vctx o.m) (compressShape o (s.cur.vctx o.m)) then illegalV s
    else .done { s with cur := s.cur.compressed o (s.cur.vctx o.m) } := by
  unfold vcompressBody Hart.compressed
  by_cases h0 : (s.cur.vctx o.m).vl = 0
  · simp only [h0, beq_self_eq_true, if_true]
    rfl
  · simp only [beq_eq_false_iff_ne.mpr h0, h0, Bool.false_eq_true, if_false, packedSlots, List.length_map]
    rfl

/-- VCOMPRESS leaves what R134 says of a strip whose leading positions are governed and take the selected elements. -/
theorem compressed_elementsWritten {h : Hart} {o : VOp} (hv : vCheck h o (h.vctx o.m) (compressShape o (h.vctx o.m)) = true) :
    let c := h.vctx o.m
    ElementsWritten h (c.packed c.selected) { ta := o.ta, ma := o.ma } (groupDest o c :: h.copyDest (groupDest o c)) (fun _ => false)
      (fun i => .of (Spec.other h o.vs1 c (c.selected.getD i 0))) (h.compressed o c) := by
  obtain ⟨h1, hn, hw, w0⟩ := permDest hv rfl rfl rfl
  obtain ⟨hfits, hapart, -⟩ := vCheck_dests (t := h) (pick := fun r => r.val) hv h1 hn hw w0 rfl
  obtain ⟨hstart, -⟩ := Bool.or_eq_false_iff.mp (vCheck_noClash hv)
  have hflat := vCheck_flat hv rfl
  have hreg := vctx_regBits h o.m
  dsimp only
  generalize h.vctx o.m = c at *
  have hall : c.selected.length ≤ c.vl - c.vpad := (List.length_filter_le ..).trans (List.length_range ..).le
  unfold Hart.compressed
  by_cases h0 : c.vl = 0
  · rw [if_pos h0]
    exact elementsWritten_empty h0
  · rw [if_neg h0]
    refine (writeDests_written o.ta o.ma _ _ h hfits hapart).elementsWritten hreg rfl h0 (fun d hd i hi => ?_)
    obtain ⟨hregs, hwidth, -⟩ := mem_copyDest hd
    have hpos : (c.packed c.selected).positions d = c.positions (groupDest o c) := by
      simp only [VCtx.positions, hregs, hwidth]
      rfl
    exact packedSlots_get _ (bne_eq_false_iff_eq.mp hstart) hflat hall (hpos ▸ hi)

theorem vcompress_refused {o : VOp} {s : State} (hx : Executes s) (hl : s.cur.lane = none) (hd : s.cur.dropping = false)
    (hv : vCheck s.cur o (s.cur.vctx o.m) (compressShape o (s.cur.vctx o.m)) = false) : exec (.vcompress o) s =
      .next (s.start.trapWord (encode (.vcompress o)) { cause := 1, tval := 0, vec := true } s.start) := by
  refine performPfx_illegalV hx hl hd ((vcompressBody_eq o s.start).trans (if_pos ?_))
  rw [State.start_cur, hv]
  rfl

theorem vcompress_completes {o : VOp} {s : State} (hx : Executes s) (hl : s.cur.lane = none) (hd : s.cur.dropping = false)
    (hv : vCheck s.cur o (s.cur.vctx o.m) (compressShape o (s.cur.vctx o.m)) = true) : exec (.vcompress o) s =
      .next ({ s.start with cur := s.cur.compressed o (s.cur.vctx o.m) } : State).completed := by
  obtain ⟨-, hstrikes, -⟩ := id hx
  refine performPfx_vectorDone hx hl hd ((vcompressBody_eq o s.start).trans (if_neg ?_)) rfl
    ((compressed_elementsWritten hv).strikes.trans hstrikes)
  rw [State.start_cur, hv]
  decide

/-- Each permute places the elements as R171 says. -/
theorem permuteInstructions : Spec.PermuteInstructions :=
  ⟨vslideup_permutes, vslidedn_permutes, vslide1up_permutes, vslide1dn_permutes, vpermv_permutes, vexpand_spreads, vmerge_chooses,
    vid_counts, viota_counts, fun _ _ _ hx hl hd => ⟨vcompress_refused hx hl hd, fun hv =>
      ⟨_, vcompress_completes hx hl hd hv, selected_eq_chosen _ ▸ compressed_elementsWritten hv⟩⟩⟩

end Sys2Proof.Machine

namespace Sys2Proof

/-- Settles O19: every permute but VCOMPRESS is the template of R134 on the source it reads as it began, and VCOMPRESS is a strip whose
leading positions are governed. -/
theorem vectorPermutes : Obligations.VectorPermutes := ⟨Machine.sourcesKept, Machine.permuteInstructions⟩

end Sys2Proof
end

section
/-!
SUPPORT. Words and instructions (O57, O58): decoding the word of an instruction gives it back, for all of them at once (R85, R88).
-/

namespace Sys2Proof.Laws.RoundTrip

/-- The round trips of the single instructions, and of the events, which have no word, are that of every instruction. -/
theorem decode_encode : ∀ i : Instr, Statement i
  | .add .. => add _ _ _ | .sub .. => sub _ _ _ | .and .. => and _ _ _ | .or .. => or _ _ _ | .xor .. => xor _ _ _
  | .andn .. => andn _ _ _ | .shl .. => shl _ _ _ | .shr .. => shr _ _ _ | .sra .. => sra _ _ _ | .rol .. => rol _ _ _
  | .ror .. => ror _ _ _ | .slt .. => slt _ _ _ | .sltn .. => sltn _ _ _ | .min .. => min _ _ _ | .max .. => max _ _ _
  | .minn .. => minn _ _ _ | .maxn .. => maxn _ _ _ | .mul .. => mul _ _ _ | .mulh .. => mulh _ _ _ | .mulhn .. => mulhn _ _ _
  | .div .. => div _ _ _ | .divn .. => divn _ _ _ | .rem .. => rem _ _ _ | .remn .. => remn _ _ _ | .clz .. => clz _ _
  | .ctz .. => ctz _ _ | .popc .. => popc _ _ | .sextb .. => sextb _ _ | .sexth .. => sexth _ _ | .sextw .. => sextw _ _
  | .addi .. => addi _ _ _ | .andi .. => andi _ _ _ | .ori .. => ori _ _ _ | .xori .. => xori _ _ _ | .slti .. => slti _ _ _
  | .lih .. => lih _ _ _ | .shli .. => shli _ _ _ | .shri .. => shri _ _ _ | .srai .. => srai _ _ _ | .fadd .. => fadd _ _ _ _
  | .fsub .. => fsub _ _ _ _ | .fmul .. => fmul _ _ _ _ | .fdiv .. => fdiv _ _ _ _ | .fsqrt .. => fsqrt _ _ _
  | .fmadd .. => fmadd _ _ _ _ | .fmin .. => fmin _ _ _ | .fmax .. => fmax _ _ _ | .feq .. => feq _ _ _ | .flt .. => flt _ _ _
  | .fle .. => fle _ _ _ | .fcvt .. => fcvt _ _ _ _ | .fclass .. => fclass _ _ | .ldb .. => ldb _ _ _ | .ldh .. => ldh _ _ _
  | .ldw .. => ldw _ _ _ | .ldd .. => ldd _ _ _ | .ldbn .. => ldbn _ _ _ | .ldhn .. => ldhn _ _ _ | .ldwn .. => ldwn _ _ _
  | .stb .. => stb _ _ _ | .sth .. => sth _ _ _ | .stw .. => stw _ _ _ | .std .. => std _ _ _ | .amoadd .. => amoadd _ _ _ _ _ _
  | .amoand .. => amoand _ _ _ _ _ _ | .amoor .. => amoor _ _ _ _ _ _ | .amoxor .. => amoxor _ _ _ _ _ _
  | .amomin .. => amomin _ _ _ _ _ _ | .amomax .. => amomax _ _ _ _ _ _ | .amominn .. => amominn _ _ _ _ _ _
  | .amomaxn .. => amomaxn _ _ _ _ _ _ | .amoswap .. => amoswap _ _ _ _ _ _ | .amocas .. => amocas _ _ _ _ _ _
  | .amofadd .. => amofadd _ _ _ _ _ _ | .beq .. => beq _ _ _ | .bne .. => bne _ _ _ | .blt .. => blt _ _ _ | .bge .. => bge _ _ _
  | .bltn .. => bltn _ _ _ | .bgen .. => bgen _ _ _ | .jal .. => jal _ | .jalr .. => jalr _ _ _ | .loop .. => loop _ _
  | .csrr .. => csrr _ _ | .csrw .. => csrw _ _ | .csrs .. => csrs _ _ | .csrc .. => csrc _ _ | .trap .. => trap _ | .brk .. => brk _
  | .eret => eret | .fence .. => fence _ | .fenceSv => fenceSv | .fenceVs => fenceVs | .fenceVv => fenceVv | .sbar .. => sbar _
  | .ifence => ifence | .yield => yield | .halt => halt | .haltDrained .. => haltDrained _ | .pfx .. => pfx _ _ _ _ _ _ _ _
  | .vsetl .. => vsetl _ _ _ _ | .vlenq .. => vlenq _ | .vadd .. => vadd _ | .vsub .. => vsub _ | .vrsub .. => vrsub _
  | .vmul .. => vmul _ | .vmulh .. => vmulh _ | .vmulhn .. => vmulhn _ | .vmacc .. => vmacc _ | .vand .. => vand _ | .vor .. => vor _
  | .vxor .. => vxor _ | .vshl .. => vshl _ | .vshr .. => vshr _ | .vsra .. => vsra _ | .vmin .. => vmin _ | .vmax .. => vmax _
  | .vminn .. => vminn _ | .vmaxn .. => vmaxn _ | .vsadd .. => vsadd _ | .vssub .. => vssub _ | .vsaddn .. => vsaddn _
  | .vssubn .. => vssubn _ | .vclz .. => vclz _ | .vctz .. => vctz _ | .vpopc .. => vpopc _ | .vmseq .. => vmseq _ | .vmsne .. => vmsne _
  | .vmslt .. => vmslt _ | .vmsle .. => vmsle _ | .vmsltn .. => vmsltn _ | .vmslen .. => vmslen _ | .vaddVx .. => vaddVx _
  | .vsubVx .. => vsubVx _ | .vrsubVx .. => vrsubVx _ | .vmulVx .. => vmulVx _ | .vmulhVx .. => vmulhVx _ | .vmulhnVx .. => vmulhnVx _
  | .vmaccVx .. => vmaccVx _ | .vandVx .. => vandVx _ | .vorVx .. => vorVx _ | .vxorVx .. => vxorVx _ | .vshlVx .. => vshlVx _
  | .vshrVx .. => vshrVx _ | .vsraVx .. => vsraVx _ | .vminVx .. => vminVx _ | .vmaxVx .. => vmaxVx _ | .vminnVx .. => vminnVx _
  | .vmaxnVx .. => vmaxnVx _ | .vsaddVx .. => vsaddVx _ | .vssubVx .. => vssubVx _ | .vsaddnVx .. => vsaddnVx _
  | .vssubnVx .. => vssubnVx _ | .vmseqVx .. => vmseqVx _ | .vmsneVx .. => vmsneVx _ | .vmsltVx .. => vmsltVx _
  | .vmsleVx .. => vmsleVx _ | .vmsltnVx .. => vmsltnVx _ | .vmslenVx .. => vmslenVx _ | .vfadd .. => vfadd _ | .vfsub .. => vfsub _
  | .vfmul .. => vfmul _ | .vfdiv .. => vfdiv _ | .vfsqrt .. => vfsqrt _ | .vfma .. => vfma _ | .vfms .. => vfms _ | .vfnma .. => vfnma _
  | .vfmin .. => vfmin _ | .vfmax .. => vfmax _ | .vfminp .. => vfminp _ | .vfmaxp .. => vfmaxp _ | .vfabs .. => vfabs _
  | .vfneg .. => vfneg _ | .vfsgnj .. => vfsgnj _ | .vfclass .. => vfclass _ | .vfwma .. => vfwma _ | .vfwadd .. => vfwadd _
  | .vmfeq .. => vmfeq _ | .vmflt .. => vmflt _ | .vmfle .. => vmfle _ | .vmfun .. => vmfun _ | .vfaddVf .. => vfaddVf _
  | .vfsubVf .. => vfsubVf _ | .vfmulVf .. => vfmulVf _ | .vfdivVf .. => vfdivVf _ | .vfmaVf .. => vfmaVf _ | .vfmsVf .. => vfmsVf _
  | .vfnmaVf .. => vfnmaVf _ | .vfminVf .. => vfminVf _ | .vfmaxVf .. => vfmaxVf _ | .vfminpVf .. => vfminpVf _
  | .vfmaxpVf .. => vfmaxpVf _ | .vfsgnjVf .. => vfsgnjVf _ | .vmfeqVf .. => vmfeqVf _ | .vmfltVf .. => vmfltVf _
  | .vmfleVf .. => vmfleVf _ | .vmfunVf .. => vmfunVf _ | .vfaddx .. => vfaddx _ | .vfsubx .. => vfsubx _ | .vfmulx .. => vfmulx _
  | .vdwadd .. => vdwadd _ | .vdwadds .. => vdwadds _ | .vdwmul .. => vdwmul _ | .vdwren .. => vdwren _ | .vredsum .. => vredsum _
  | .vredmax .. => vredmax _ | .vredmin .. => vredmin _ | .vfredo .. => vfredo _ | .vfredt .. => vfredt _ | .vfredc .. => vfredc _
  | .vfredmax .. => vfredmax _ | .vfredmin .. => vfredmin _ | .vslideup .. => vslideup _ | .vslidedn .. => vslidedn _
  | .vslide1up .. => vslide1up _ | .vslide1dn .. => vslide1dn _ | .vpermv .. => vpermv _ | .vcompress .. => vcompress _
  | .vexpand .. => vexpand _ | .vmerge .. => vmerge _ | .vid .. => vid _ | .viota .. => viota _ | .vmand .. => vmand _
  | .vmor .. => vmor _ | .vmxor .. => vmxor _ | .vmandn .. => vmandn _ | .vmnot .. => vmnot _ | .vmpopc .. => vmpopc _
  | .vmfirst .. => vmfirst _ | .vmany .. => vmany _ | .vfcvt .. => vfcvt _ | .vfwcvt .. => vfwcvt _ | .vfncvt .. => vfncvt _
  | .vbdec .. => vbdec _ | .vbenc .. => vbenc _ | .vunpk .. => vunpk _ | .vpack .. => vpack _ | .vlut .. => vlut _ | .vfrcp .. => vfrcp _
  | .vfrsqrt .. => vfrsqrt _ | .vfexp2 .. => vfexp2 _ | .vflog2 .. => vflog2 _ | .vfsinpi .. => vfsinpi _ | .vfcospi .. => vfcospi _
  | .vld .. => vld _ | .vlds .. => vlds _ | .vldx .. => vldx _ | .vldb .. => vldb _ | .vfill .. => vfill _ | .vst .. => vst _
  | .vsts .. => vsts _ | .vstx .. => vstx _ | .vstb .. => vstb _ | .vspill .. => vspill _ | .chainedOperation .. => chainedOperation _
  | .queueElementsArrive .. => queueElementsArrive _ | .vmove .. => vmove _ | .vsplat .. => vsplat _ | .vmvxs .. => vmvxs _
  | .vmvsx .. => vmvsx _ | .mopa .. => mopa _ _ _ _ _ | .mopax .. => mopax _ _ _ _ _ | .msclA .. => msclA _ | .msclB .. => msclB _
  | .mzero .. => mzero _ | .mldt .. => mldt _ _ _ _ | .mstt .. => mstt _ _ _ _ | .mrdv .. => mrdv _ _ _ _ | .mwrv .. => mwrv _ _ _ _
  | .sbind .. => sbind _ _ | .sbindc .. => sbindc _ _ | .sunbind .. => sunbind _ | .vrgn .. => vrgn _ | .vrgne => vrgne
  | .lfork .. => lfork _ | .ljoin => ljoin | .lexit => lexit | .lxrd .. => lxrd _ _ _ | .xcopy .. => xcopy _ _ _ _ _ _
  | .xgath .. => xgath _ _ _ _ _ _ | .xwait .. => xwait _ | .xwaitWake .. => xwaitWake _ | .xpoll .. => xpoll _ _
  | .commandPoolFreed .. => commandPoolFreed _ | .engineCommandStart .. => engineCommandStart _ _
  | .engineCommandComplete .. => engineCommandComplete _ _ | .bkadd .. => bkadd _ _ _ | .bkmax .. => bkmax _ _ _
  | .bkmul .. => bkmul _ _ _ | .bksmx .. => bksmx _ _ _ | .bkzero .. => bkzero _ _ | .bkred .. => bkred _ _ _
  | .bankCommandPerform .. => bankCommandPerform _ _ | .pyinit .. => pyinit _ _ | .pyapp .. => pyapp _ _ _ | .pystat .. => pystat _ _ _
  | .pyld .. => pyld _ _ _ _ _ _ | .instarInitRequest .. => instarInitRequest _ _ | .instarAppend .. => instarAppend _ _ _
  | .instarMerge .. => instarMerge _ _ | .instarLoadServe .. => instarLoadServe _ _ _ _ _
  | .instarStatusServe .. => instarStatusServe _ _ _ | .rcall .. => rcall _ _ _ | .rread .. => rread _ _ _
  | .callReturn .. => callReturn _ | .logPositionAssign .. => logPositionAssign _ _ _ _ | .replayApplyEntry .. => replayApplyEntry _ _
  | .rreadRun .. => rreadRun _ | .logfullTimeout .. => logfullTimeout _ | .replicaRebuild .. => replicaRebuild _ _
  | .logCopyRepair .. => logCopyRepair _ _ _ | .lnch .. => lnch _ _ | .lnchW .. => lnchW _ _ | .lwait .. => lwait _ _
  | .lwaitRelease .. => lwaitRelease _ | .qpush .. => qpush _ _ | .qpop .. => qpop _ _ | .qstat .. => qstat _ _
  | .queueWaitWake .. => queueWaitWake _ | .time .. => time _ | .sleept .. => sleept _ | .sleeptWake .. => sleeptWake _
  | .evset .. => evset _ _ | .evwait .. => evwait _ _ | .evwaitWake .. => evwaitWake _ | .bar .. => bar _
  | .barRelease .. => barRelease _ _ | .stageGroupDeadlock .. => stageGroupDeadlock _ | .nmrun .. => nmrun _ _ | .nmbag .. => nmbag _ _
  | .nmwait .. => nmwait _ | .nmwaitWake .. => nmwaitWake _ | .nrnext => nrnext | .nrseek .. => nrseek _ | .nrwb .. => nrwb _
  | .nmuKernelStart .. => nmuKernelStart _ | .nmuStepLimit .. => nmuStepLimit _ | .nmbagRun .. => nmbagRun _
  | .chunkDecode .. => chunkDecode _ _ | .pageRequestResponse .. => pageRequestResponse _ _
  | .invalidationRequest .. => invalidationRequest _ _ | .invalidationComplete => invalidationComplete
  | .stopSkidTimeout .. => stopSkidTimeout _ | .dispatchIteration .. => dispatchIteration _ _ _
  | .launchEligible .. => launchEligible _ _ | .priorityAging .. => priorityAging _ _ | .preemptFold .. => preemptFold _
  | .evictLaunch .. => evictLaunch _ _ _ | .hartResume .. => hartResume _ _ | .launchComplete .. => launchComplete _ _
  | .supervisorStopLaunch .. => supervisorStopLaunch _ _ | .shaltWrite .. => shaltWrite _ _ | .dieReset .. => dieReset _
  | .laneRetire .. => laneRetire _ _ | .hartStateError .. => hartStateError _ | .hqownClaim .. => hqownClaim _ _
  | .hqownRelease .. => hqownRelease _ _ | .hqsubSubmit .. => hqsubSubmit _ _ _ | .objectRegister .. => objectRegister _ _
  | .objectDeregister .. => objectDeregister _ _ | .semaphoreClaim .. => semaphoreClaim _ _
  | .semaphoreRelease .. => semaphoreRelease _ _ | .evadd .. => evadd _ _ | .evclr .. => evclr _ _ | .dbctxWrite .. => dbctxWrite _ _
  | .dbctlStop .. => dbctlStop _ | .dbctlResume .. => dbctlResume _ | .dbringWrite .. => dbringWrite _ _
  | .dbtailWrite .. => dbtailWrite _ _ | .portMessageAccept .. => portMessageAccept _ _
  | .replayDivergenceTimeout .. => replayDivergenceTimeout _ | .registerWrite .. => registerWrite _ _ _
  | .refreshDue .. => refreshDue _ _ | .channelPowerdownTimeout .. => channelPowerdownTimeout _
  | .channelPowerdown .. => channelPowerdown _ | .channelWake .. => channelWake _ | .moduleReset => moduleReset
  | .mbgoFetch .. => mbgoFetch _ _ | .recoveryFetchComplete => recoveryFetchComplete | .hdmDecoderCommit .. => hdmDecoderCommit _ _ _
  | .portLinkDown .. => portLinkDown _ _ | .spdmRequest .. => spdmRequest _ _ | .cocoonConfigUnlocked .. => cocoonConfigUnlocked _ _
  | .cocoonConfigLocked .. => cocoonConfigLocked _ | .cocoonRun .. => cocoonRun _ | .cocoonError .. => cocoonError _
  | .tenantDebugEnable .. => tenantDebugEnable _ | .powerClockStep .. => powerClockStep _ | .idleEntry => idleEntry
  | .standbyEntry => standbyEntry | .activeReturn => activeReturn | .thermalTrip => thermalTrip | .flitCrcRetry .. => flitCrcRetry _
  | .messageAck .. => messageAck _ _ _ | .scaleupPortFail .. => scaleupPortFail _ _ | .remoteAccessTimeout .. => remoteAccessTimeout _
  | .illegalInstruction .. => illegalInstruction _ | .accessPerformed .. => accessPerformed _ | .clockCycle .. => clockCycle _ _ _ _
  | .supervisorResume .. => supervisorResume _ | .contextCreate .. => contextCreate _ _ | .contextEnd .. => contextEnd _
  | .channelReset .. => channelReset _ | .dieBack .. => dieBack _ | .cxlMemRequest .. => cxlMemRequest _ _
  | .cxlCacheSnoop .. => cxlCacheSnoop _ _ _ | .atomicopRequest .. => atomicopRequest _ _ | .remoteRequest .. => remoteRequest _ _ _ _
  | .patrolScrub .. => patrolScrub _

end Sys2Proof.Laws.RoundTrip

namespace Sys2Proof

/-- Settles O58: in each layout of R85 a field reads back what was written there, and the major picks the decoder of its table. -/
theorem decodeInvertsEncode : Obligations.DecodeInvertsEncode := Laws.RoundTrip.decode_encode

/-- An instruction's word decodes to it. -/
theorem decode_word {i : Instr} {w : BitVec 32} (hi : i.hasWord = true) (hw : i.wf = true) (he : encode i = w) : decode w = .ok i :=
  he ▸ Laws.RoundTrip.decode_encode i hi hw

/-- A word that the table of its major does not list is refused. -/
theorem decode_refused {w : BitVec 32} (h : rawDecode w = none) : ∃ r, decode w = .error r := by
  simp only [decode, h]
  split <;> exact ⟨_, rfl⟩

/-- Settles O57: each word written out is the encoding of its instruction and so decodes to it; major 0x3F has no table, and the ALU word with
reserved function bits reads as no ALU function; what the decoder accepts it has written back and compared. -/
theorem decodeWords : Obligations.DecodeWords :=
  ⟨decode_word rfl rfl (by decide), decode_word rfl rfl (by decide), decode_word rfl rfl (by decide), decode_word rfl rfl (by decide),
    decode_refused (by decide), decode_refused (by decide), fun _ _ h => (decode_sound h).2⟩

end Sys2Proof
end

section
/-!
SUPPORT. The checks every instruction passes (O54): a near-memory unit's own rules, the lane-mode error, the drop of a region and the
refusal of a pending PFX, each said of `performAs` once, and every instruction with a word is a use of it (R89, R121, R122, R277).
-/

namespace Sys2Proof.Machine

/-- The majors whose instructions check a pending PFX themselves (R122): scalar floating point, the vector majors but 0x31, that of VRGN. -/
def ownsPfx (m : Nat) : Bool := m == 0x0A || (0x22 ≤ m && m ≤ 0x30) || m == 0x33

/-! ### What the checks do, whatever the effect -/

section
variable {own : Bool} {w : BitVec 32} {s : State} {body : State → Flow}

/-- Check 2 of R89 comes before every other. -/
theorem hartWord_laneError (hl : s.cur.lane.isSome = true) (hm : laneMajor w = false) :
    s.hartWord w own body = s.finish w (.trap { cause := 0x11, tval := 0 } s) := by simp [State.hartWord, hl, hm]

/-- A region that drops ends the instruction before a pending PFX is looked at (R121). -/
theorem hartWord_drops (hl : s.cur.lane = none) (hm : dropMajor w = true) (hd : s.cur.dropping = true) :
    s.hartWord w own body = s.finish w (.done { s with cur := if readQueueDest w then s.cur.wx (wD w) 0 else s.cur }) := by
  simp only [State.hartWord, hl, hm, hd, Option.isSome_none, Bool.false_and, Bool.true_and, Bool.false_eq_true, if_false, if_true]
  split <;> rfl

/-- Check 3 of R89 (R122). -/
theorem hartWord_pfxPending (hl : s.cur.lane = none) (hp : pfxPending s.cur.pendingPfx = true)
    (hd : dropMajor w = true → s.cur.dropping = false) :
    s.hartWord w false body = s.finish w (.trap { cause := 1, tval := 0, vec := dropMajor w } s) := by
  have hdrop : (dropMajor w && s.cur.dropping) = false := by simpa using hd
  simp [State.hartWord, hl, hdrop, hp]

theorem performAs_nmu {ch : Nat} (hu : s.unit = .nmu ch) : performAs own w s body = .next (s.nmuWord ch w) := by simp [performAs, hu]

theorem performAs_hartWord (hu : s.unit = .hart) : performAs own w s body = .next (s.start.hartWord w own body) := by
  simp [performAs, hu, State.start]

theorem performAs_laneError (hu : s.unit = .hart) (hl : s.cur.lane.isSome = true) (hm : laneMajor w = false) :
    performAs own w s body = .next (s.start.trapWord w { cause := 0x11, tval := 0 } s.start) := by
  rw [performAs_hartWord hu, hartWord_laneError (s := s.start) hl hm, finish_trap _ _ _ (State.start_blocked s)]

theorem performAs_drops (h : Executes s) (hl : s.cur.lane = none) (hm : dropMajor w = true) (hd : s.cur.dropping = true) :
    performAs own w s body = .next ({ s.start with cur := if readQueueDest w then s.cur.wx (wD w) 0 else s.cur } : State).completed := by
  obtain ⟨hu, hs, -⟩ := h
  have hstrikes : (if readQueueDest w then s.cur.wx (wD w) 0 else s.cur).strikes = [] := by split <;> simp [hs]
  rw [performAs_hartWord hu, hartWord_drops (s := s.start) hl hm hd]
  exact congrArg _ (finish_done _ _ rfl hstrikes)

theorem perform_pfxPending (hu : s.unit = .hart) (hl : s.cur.lane = none) (hp : pfxPending s.cur.pendingPfx = true)
    (hd : dropMajor w = true → s.cur.dropping = false) :
    performAs false w s body = .next (s.start.trapWord w { cause := 1, tval := 0, vec := dropMajor w } s.start) := by
  rw [performAs_hartWord hu, hartWord_pfxPending (s := s.start) hl hp hd, finish_trap _ _ _ (State.start_blocked s)]

end

/-! ### Every instruction passes them -/

/-- An instruction goes through the shared checks with its own word, and leaves the check of a pending PFX to its effect in the majors of
R122 alone. -/
def PassesChecks (i : Instr) : Prop :=
  ∃ (own : Bool) (body : State → Flow), (own = true → ownsPfx (wMajor (encode i)).toNat = true) ∧
    ∀ s, exec i s = performAs own (encode i) s body

theorem PassesChecks.plain {i : Instr} {body : State → Flow} (h : ∀ s, exec i s = perform (encode i) s body) : PassesChecks i :=
  ⟨false, body, nofun, h⟩

theorem PassesChecks.own {i : Instr} {body : State → Flow} {m : BitVec 6} (hw : wMajor (encode i) = m)
    (h : ∀ s, exec i s = performPfx (encode i) s body) (hm : ownsPfx m.toNat = true := by decide) : PassesChecks i :=
  ⟨true, body, fun _ => hw ▸ hm, h⟩

/-- Every instruction with a word passes the shared checks: first the ones that take no PFX, then those of R122 by the layout of their
word. -/
theorem passesChecks (i : Instr) (hi : i.hasWord = true) : PassesChecks i := by
  cases i with
  | add | sub | and | or | xor | andn | shl | shr | sra | rol | ror | slt | sltn | min | max | minn | maxn | mul | mulh | mulhn | div
  | divn | rem | remn | clz | ctz | popc | sextb | sexth | sextw | addi | andi | ori | xori | slti | lih | shli | shri | srai | fmin
  | fmax | feq | flt | fle | fclass | ldb | ldh | ldw | ldd | ldbn | ldhn | ldwn | stb | sth | stw | std | amoadd | amoand | amoor
  | amoxor | amomin | amomax | amominn | amomaxn | amoswap | amocas | amofadd | beq | bne | blt | bge | bltn | bgen | jal | jalr | loop
  | csrr | csrw | csrs | csrc | trap | brk | eret | fence | fenceSv | fenceVs | fenceVv | sbar | ifence | yield | halt | pfx | vsetl
  | vlenq | vfill | vspill | msclA | msclB | mzero | mldt | mstt | mrdv | mwrv | sbind | sbindc | sunbind | vrgne | lfork | ljoin
  | lexit | lxrd | xcopy | xgath | xwait | xpoll | bkadd | bkmax | bkmul | bksmx | bkzero | bkred | pyinit | pyapp | pystat | pyld
  | rcall | rread | lnch | lnchW | lwait | qpush | qpop | qstat | time | sleept | evset | evwait | bar | nmrun | nmbag | nmwait
  | nrnext | nrseek | nrwb =>
    exact .plain fun _ => rfl
  | fadd | fsub | fmul | fdiv | fsqrt | fmadd | fcvt =>
    exact .own (wMajor_xWord ..) fun _ => rfl
  | vadd | vsub | vrsub | vmul | vmulh | vmulhn | vmacc | vand | vor | vxor | vshl | vshr | vsra | vmin | vmax | vminn | vmaxn | vsadd
  | vssub | vsaddn | vssubn | vclz | vctz | vpopc | vmseq | vmsne | vmslt | vmsle | vmsltn | vmslen | vaddVx | vsubVx | vrsubVx
  | vmulVx | vmulhVx | vmulhnVx | vmaccVx | vandVx | vorVx | vxorVx | vshlVx | vshrVx | vsraVx | vminVx | vmaxVx | vminnVx | vmaxnVx
  | vsaddVx | vssubVx | vsaddnVx | vssubnVx | vmseqVx | vmsneVx | vmsltVx | vmsleVx | vmsltnVx | vmslenVx | vfadd | vfsub | vfmul
  | vfdiv | vfsqrt | vfma | vfms | vfnma | vfmin | vfmax | vfminp | vfmaxp | vfabs | vfneg | vfsgnj | vfclass | vfwma | vfwadd | vmfeq
  | vmflt | vmfle | vmfun | vfaddVf | vfsubVf | vfmulVf | vfdivVf | vfmaVf | vfmsVf | vfnmaVf | vfminVf | vfmaxVf | vfminpVf | vfmaxpVf
  | vfsgnjVf | vmfeqVf | vmfltVf | vmfleVf | vmfunVf | vfaddx | vfsubx | vfmulx | vdwadd | vdwadds | vdwmul | vdwren | vredsum
  | vredmax | vredmin | vfredo | vfredt | vfredc | vfredmax | vfredmin | vslideup | vslidedn | vslide1up | vslide1dn | vpermv
  | vcompress | vexpand | vmerge | vid | viota | vmand | vmor | vmxor | vmandn | vmnot | vmpopc | vmfirst | vmany | vfcvt | vfwcvt
  | vfncvt | vbdec | vbenc | vunpk | vpack | vlut | vfrcp | vfrsqrt | vfexp2 | vflog2 | vfsinpi | vfcospi | vmove | vsplat | vmvxs
  | vmvsx =>
    exact .own (wMajor_vWord ..) fun _ => rfl
  | vld | vlds | vldx | vldb | vst | vsts | vstx | vstb =>
    exact .own (wMajor_vlWord ..) fun _ => rfl
  | mopa | mopax =>
    exact .own (wMajor_mWord ..) fun _ => rfl
  | vrgn =>
    exact .own (wMajor_iWord ..) fun _ => rfl
  | _ => exact nomatch hi

theorem laneModeErrors : Spec.LaneModeErrors := by
  intro i s hi hu hl hm
  obtain ⟨own, body, -, h⟩ := passesChecks i hi
  rw [h, performAs_laneError hu hl hm]

theorem regionDrops : Spec.RegionDrops := by
  intro i s hi hx hl hm hd
  obtain ⟨own, body, -, h⟩ := passesChecks i hi
  rw [h, performAs_drops hx hl hm hd]

theorem pfxRefused : Spec.PrefixRefused := by
  intro i s hi hu hl hp hm hd
  obtain ⟨own, body, hown, h⟩ := passesChecks i hi
  have hno : ownsPfx (wMajor (encode i)).toNat = false := by
    simp only [ownsPfx, Bool.or_eq_false_iff, Bool.and_eq_false_iff, beq_eq_false_iff_ne, decide_eq_false_iff_not]
    omega
  cases own with
  | false => rw [h, perform_pfxPending hu hl hp hd]
  | true => simp [hno] at hown

theorem nmuExecutes : Spec.NmuExecutes := by
  intro i ch s hi hu
  obtain ⟨own, body, -, h⟩ := passesChecks i hi
  rw [h, performAs_nmu hu]

end Sys2Proof.Machine

namespace Sys2Proof

/-- Settles O54: every instruction with a word is a use of `performAs`, whose checks come in the order of R89. -/
theorem wholeMachineChecks : Obligations.WholeMachineChecks :=
  ⟨Machine.laneModeErrors, Machine.regionDrops, Machine.pfxRefused, Machine.nmuExecutes⟩

end Sys2Proof
end

section
/-!
SUPPORT. A step of a hart that issues (O56): what each outcome of the fetch makes of it, and that a fetched word runs the instruction it
decodes to (R85, R88, R89, R112, R115, R307, R339).
-/

namespace Sys2Proof.Machine

/-! ### Executing a word -/

/-- With no queue selected nothing is fetched again. -/
theorem Hart.refetch_none {h : Hart} {sel : Nat → Bool} (hs : ∀ k, k < 8 → sel k = false) : h.refetch sel = h := by
  have hq : (h.refetch sel).q = h.q := by
    ext k hk
    simp only [Hart.refetch, Vector.getElem_ofFn, hs k hk, Bool.false_eq_true, if_false]
    split
    · next e => exact e.symm
    · rfl
  calc h.refetch sel = { h with q := (h.refetch sel).q } := rfl
    _ = h := by rw [hq]

/-- A word runs its instruction, or raises the trap of R88, after the queues whose accesses it orders (R164). -/
theorem runWord_runs (w : BitVec 32) (s : State) : Spec.RunsWord w s (runWord w s) := by
  have hr : (if (List.range 8).any (ordersQueue w) then { s with cur := s.cur.refetch (ordersQueue w) } else s) = Spec.readied w s := by
    split
    · rfl
    · next h =>
      have hnone : s.cur.refetch (ordersQueue w) = s.cur := Hart.refetch_none (by simpa using h)
      rw [Spec.readied, hnone]
  unfold runWord
  dsimp only
  rw [hr]
  exact ⟨fun i hi => by rw [hi], fun r hi => by rw [hi]⟩

/-! ### The fetch (R85, R112, R242, R257) -/

/-- An address that code can stand at, before it is translated (R242). -/
def CodeAddress (a : Word) : Prop := canonical a = true ∧ inLocal a = false ∧ inReserved a = false

section
variable {s v : State} {pa : Nat}

theorem fetch_noCode (h : canonical s.cur.ip = false ∨ inLocal s.cur.ip = true ∨ inReserved s.cur.ip = true) :
    s.fetch = (.error { cause := 6, tval := s.cur.ip }, s) := by
  have hc : (!canonical s.cur.ip || inLocal s.cur.ip || inReserved s.cur.ip) = true := by
    simpa only [Bool.or_eq_true, Bool.not_eq_true', or_assoc] using h
  simp only [State.fetch, hc, if_true]

theorem fetch_untranslated {c : Nat} (h : CodeAddress s.cur.ip) (hx : s.xlateHart s.cur.lowLane s.cur.ip .fetch = (.bad c, v)) :
    s.fetch = (.error { cause := c, tval := s.cur.ip }, v) := by
  obtain ⟨hc, hl, hr⟩ := h
  simp [State.fetch, hc, hl, hr, hx]

variable (h : CodeAddress s.cur.ip) (hx : s.xlateHart s.cur.lowLane s.cur.ip .fetch = (.ok pa, v))
include h hx

theorem fetch_unreachable (ht : targetOk .plain (v.target pa) = false ∨ v.cur.noAnswer = some s.cur.ip) :
    s.fetch = (.error { cause := 6, tval := s.cur.ip }, v) := by
  obtain ⟨hc, hl, hr⟩ := h
  have hgone : (!targetOk .plain (v.target pa) || v.cur.noAnswer == some s.cur.ip) = true := by simpa using ht
  simp only [State.fetch, hc, hl, hr, hx, hgone, Bool.not_true, Bool.or_self, Bool.false_eq_true, if_false, if_true]

variable (ht : targetOk .plain (v.target pa) = true) (hn : v.cur.noAnswer ≠ some s.cur.ip)
include ht hn

theorem fetch_reaches : s.fetch = if v.poisonIn (v.paKey pa) 4 then (.error { cause := 8, tval := s.cur.ip }, v)
    else (.ok (BitVec.ofNat 32 (leNat (Memory.getList v.mem (v.paKey pa) 4))), v.touchAt s.cur.ip pa) := by
  obtain ⟨hc, hl, hr⟩ := h
  simp [State.fetch, hc, hl, hr, hx, ht, hn]

theorem fetch_poisoned (hp : v.poisonIn (v.paKey pa) 4 = true) : s.fetch = (.error { cause := 8, tval := s.cur.ip }, v) :=
  (fetch_reaches h hx ht hn).trans (if_pos hp)

theorem fetch_word (hp : v.poisonIn (v.paKey pa) 4 = false) :
    s.fetch = (.ok (BitVec.ofNat 32 (leNat (Memory.getList v.mem (v.paKey pa) 4))), v.touchAt s.cur.ip pa) :=
  (fetch_reaches h hx ht hn).trans (if_neg (by simp [hp]))

end

/-! ### Noting an access keeps an earlier reason to wait -/

theorem wakeChannel_blocked (s : State) (ch : Nat) : (s.wakeChannel ch).blocked = s.blocked := by
  unfold State.wakeChannel
  dsimp only
  split <;> rfl

theorem wakeKey_blocked (s : State) (key : Nat) : (s.wakeKey key).blocked = s.blocked := by
  unfold State.wakeKey
  split
  · exact wakeChannel_blocked ..
  · rfl

theorem touch_blocked {s : State} {x : Wait} (h : s.blocked = some x) (key : Nat) : (s.touch key).blocked = some x := by
  have hk := (wakeKey_blocked s key).trans h
  unfold State.touch
  dsimp only
  split
  · simp [hk]
  · exact hk

theorem sendRemote_blocked {s : State} {x : Wait} (h : s.blocked = some x) (dev : Nat) (a : Word) :
    (s.sendRemote dev a).blocked = some x := by
  unfold State.sendRemote
  split
  · dsimp only
    split <;> simp [h]
  · simp [h]

theorem touchAt_blocked {s : State} {x : Wait} (h : s.blocked = some x) (a : Word) (pa : Nat) : (s.touchAt a pa).blocked = some x := by
  unfold State.touchAt
  split
  · exact sendRemote_blocked h ..
  · exact touch_blocked h ..

/-- A fetch whose translation must wait must wait. -/
theorem fetch_blocked {s v : State} {pa : Nat} {x : Wait} (h : CodeAddress s.cur.ip)
    (hx : s.xlateHart s.cur.lowLane s.cur.ip .fetch = (.ok pa, v)) (hb : v.blocked = some x) : s.fetch.2.blocked = some x := by
  by_cases ht : targetOk .plain (v.target pa) = false ∨ v.cur.noAnswer = some s.cur.ip
  · rw [fetch_unreachable h hx ht]
    exact hb
  · obtain ⟨hok, hn⟩ := not_or.mp ht
    rw [fetch_reaches h hx (by simpa using hok) hn]
    split
    · exact hb
    · exact touchAt_blocked hb ..

/-! ### What a hart that issues makes of its fetch -/

theorem stepWord_breaks {s : State} {b : Nat} (hb : s.breakpoint = some b) : stepWord s = .next (s.breakAt 3 b) := by simp only [stepWord, hb]

section
variable {s t : State} (hb : s.breakpoint = none)
include hb

theorem stepWord_waits {x : Wait} (hx : s.start.fetch.2.blocked = some x) : stepWord s = .next { s with cur := s.cur.waitOn x } := by
  have hx' : ({ s with blocked := none } : State).fetch.2.blocked = some x := hx
  simp only [stepWord, hb, hx']

theorem stepWord_traps {e : Trap} (hf : s.start.fetch = (.error e, t)) (ht : t.blocked = none) : stepWord s = .next (t.raise e none) := by
  have hf' : ({ s with blocked := none } : State).fetch = (.error e, t) := hf
  simp only [stepWord, hb, hf', ht]

theorem stepWord_runs {w : BitVec 32} (hf : s.start.fetch = (.ok w, t)) (ht : t.blocked = none) (hw : t.cur.barred w = false) :
    stepWord s = runWord w t := by
  have hf' : ({ s with blocked := none } : State).fetch = (.ok w, t) := hf
  simp only [stepWord, hb, hf', ht, hw, Bool.false_eq_true, if_false]

end

theorem stepHart_reissues {s : State} {e : VEntry} (hl : s.cur.late = none) (hi : s.cur.reissue = some e) :
    stepHart false s = runWord e.word s := by
  simp [stepHart, hl, hi]

theorem stepHart_word {s : State} (hl : s.cur.late = none) (hi : s.cur.reissue = none) (hv : s.cur.viq = []) :
    stepHart false s = stepWord s := by
  simp [stepHart, hl, hi, hv]

/-- A hart that waits for no append executes what it fetched (R63). -/
theorem barred_noneSent {h : Hart} (hs : h.sent = []) (w : BitVec 32) : h.barred w = false := by simp [Hart.barred, hs]

/-- A word the fetch unit read earlier runs as one fetched now (R115, R125). -/
theorem stepOld_runs {s : State} {w : BitVec 32} (hw : s.cur.words = [(s.cur.ip, w)]) (hb : s.breakpoint = none) (hi : s.cur.reissue = none)
    (hl : s.cur.late = none) (hv : s.cur.viq = []) (hs : s.cur.sent = []) : stepOld s = runWord w s.start := by
  simp [stepOld, hw, hb, hi, hl, hv, barred_noneSent hs, State.start]

/-- The four bytes of a word, the lowest first (R85). -/
theorem ofNat_leNat (b0 b1 b2 b3 : Byte) : BitVec.ofNat 32 (leNat [b0, b1, b2, b3]) = b3 ++ b2 ++ b1 ++ b0 := by
  apply BitVec.eq_of_toNat_eq
  rw [BitVec.toNat_append, ← Nat.shiftLeft_add_eq_or_of_lt b0.isLt, BitVec.toNat_append, ← Nat.shiftLeft_add_eq_or_of_lt b1.isLt,
    BitVec.toNat_append, ← Nat.shiftLeft_add_eq_or_of_lt b2.isLt]
  simp only [BitVec.toNat_ofNat, leNat, Nat.shiftLeft_eq]
  omega

/-! ### Turns of the schedule -/

/-- Where no stop is asked of a hart, a step begins with its turn (R341). -/
theorem parkIdle_noStop {s : State} (h : Spec.NoStopAsked s) : s.parkIdle = s := by
  have hidle : s.harts.any Hart.idles = false := by
    rw [List.any_eq_false]
    intro x hx
    simp [Hart.idles, h x hx]
  simp [State.parkIdle, hidle]

theorem settleLates_none {s : State} (i : Instr) (h : ∀ x ∈ s.harts, x.late = none) : s.settleLates i = s := by
  have hall : s.harts.all (fun x => x.late.isNone) = true := by
    rw [List.all_eq_true]
    intro x hx
    simp [h x hx]
  simp [State.settleLates, hall]

theorem step_round {s : State} (h : Spec.NoStopAsked s) (he : s.schedule = []) (hr : s.round ≠ []) :
    step s = step { s with schedule := s.round } := by
  obtain ⟨t, rest, hround⟩ := List.exists_cons_of_ne_nil hr
  have hs : step s = stepTurn t { s with schedule := rest, unit := .hart } := by simp only [step, parkIdle_noStop h, he, hround]
  rw [hs, hround]
  exact (step_turn (s := { s with schedule := t :: rest }) (parkIdle_noStop h) rfl).symm

theorem stepTurn_old {s : State} (hm : s.mayIssue s.cur = true) : stepTurn (.old s.cur.place) s = stepOld s.passTurn := by
  simp [stepTurn, focus_cur, hm]

section
variable {s : State} {rest : List Turn} (h : Spec.NoStopAsked s)
include h

theorem step_event {i : Instr} (hs : s.schedule = .event i :: rest) (hl : ∀ x ∈ s.harts, x.late = none) :
    step s = exec i { s with schedule := rest, unit := .hart } := by
  rw [step_turn (parkIdle_noStop h) hs, stepTurn, settleLates_none (s := { s with schedule := rest, unit := .hart }) i hl]

variable (hm : s.mayIssue s.cur = true)
include hm

theorem step_old (hs : s.schedule = .old s.cur.place :: rest) : step s = stepOld (Spec.turn s rest) :=
  (step_turn (parkIdle_noStop h) hs).trans (stepTurn_old (s := { s with schedule := rest, unit := .hart }) hm)

theorem step_issue (hs : s.schedule = .issue s.cur.place :: rest) : step s = stepHart false (Spec.turn s rest) :=
  (step_turn (parkIdle_noStop h) hs).trans (stepTurn_issue (s := { s with schedule := rest, unit := .hart }) hm)

end

theorem turn_cur (s : State) (rest : List Turn) : (Spec.turn s rest).cur = s.cur := passTurn_cur _

/-! ### The outcomes of an issue, in the order of the fetch -/

section
variable {u v : State} (hb : u.breakpoint = none)
include hb

theorem issue_noCode (h : canonical u.cur.ip = false ∨ inLocal u.cur.ip = true ∨ inReserved u.cur.ip = true) :
    stepWord u = .next (u.start.raise { cause := 6, tval := u.cur.ip } none) :=
  stepWord_traps hb (fetch_noCode (s := u.start) h) rfl

variable (ha : CodeAddress u.start.cur.ip)
include ha

theorem issue_untranslated {c : Nat} (hx : u.start.xlateHart u.cur.lowLane u.cur.ip .fetch = (.bad c, v)) :
    (v.blocked = none → stepWord u = .next (v.raise { cause := c, tval := u.cur.ip } none)) ∧
    (∀ x, v.blocked = some x → stepWord u = .next { u with cur := u.cur.waitOn x }) := by
  have hf : u.start.fetch = (.error { cause := c, tval := u.cur.ip }, v) := fetch_untranslated ha hx
  exact ⟨stepWord_traps hb hf, fun x hw => stepWord_waits hb (by rw [hf]; exact hw)⟩

variable {pa : Nat} (hx : u.start.xlateHart u.cur.lowLane u.cur.ip .fetch = (.ok pa, v))
include hx

theorem issue_translationWaits {x : Wait} (hw : v.blocked = some x) : stepWord u = .next { u with cur := u.cur.waitOn x } :=
  stepWord_waits hb (fetch_blocked ha hx hw)

theorem issue_unreachable (hv : v.blocked = none) (ht : targetOk .plain (v.target pa) = false ∨ v.cur.noAnswer = some u.cur.ip) :
    stepWord u = .next (v.raise { cause := 6, tval := u.cur.ip } none) :=
  stepWord_traps hb (fetch_unreachable ha hx ht) hv

variable (ht : targetOk .plain (v.target pa) = true) (hn : v.cur.noAnswer ≠ some u.cur.ip)
include ht hn

theorem issue_poisoned (hv : v.blocked = none) (hp : v.poisonIn (v.paKey pa) 4 = true) :
    stepWord u = .next (v.raise { cause := 8, tval := u.cur.ip } none) :=
  stepWord_traps hb (fetch_poisoned ha hx ht hn hp) hv

variable (hp : v.poisonIn (v.paKey pa) 4 = false)
include hp

theorem issue_accessWaits {x : Wait} (hw : (v.touchAt u.cur.ip pa).blocked = some x) : stepWord u = .next { u with cur := u.cur.waitOn x } :=
  stepWord_waits hb (by rw [fetch_word ha hx ht hn hp]; exact hw)

/-- The fetch leaves the hart, and so its appends on their way, as they were. -/
theorem issue_runs (hw : (v.touchAt u.cur.ip pa).blocked = none) (hs : u.cur.sent = []) {b0 b1 b2 b3 : Byte}
    (hd : Memory.getList v.mem (v.paKey pa) 4 = [b0, b1, b2, b3]) :
    Spec.RunsWord (b3 ++ b2 ++ b1 ++ b0) (v.touchAt u.cur.ip pa) (stepWord u) := by
  have hf := fetch_word ha hx ht hn hp
  have hcur : (v.touchAt u.cur.ip pa).cur = u.cur := by
    have hr := fetch_reached u.start
    rw [hf] at hr
    exact hr.cur
  have hsent : (v.touchAt u.cur.ip pa).cur.sent = [] := by rw [hcur, hs]
  rw [stepWord_runs hb hf hw (barred_noneSent hsent _), hd, ofNat_leNat]
  exact runWord_runs ..

end

/-! ### The turns of O56 -/

theorem old_runs {s : State} {rest : List Turn} {w : BitVec 32} (h : Spec.NoStopAsked s) (hs : s.schedule = .old s.cur.place :: rest)
    (hm : s.mayIssue s.cur = true) (hw : (Spec.turn s rest).cur.words = [((Spec.turn s rest).cur.ip, w)])
    (hb : (Spec.turn s rest).breakpoint = none) (hi : s.cur.reissue = none) (hl : s.cur.late = none) (hv : s.cur.viq = [])
    (hsent : s.cur.sent = []) : Spec.RunsWord w (Spec.turn s rest).start (step s) := by
  have hc := turn_cur s rest
  rw [step_old h hm hs, stepOld_runs hw hb (hc ▸ hi) (hc ▸ hl) (hc ▸ hv) (hc ▸ hsent)]
  exact runWord_runs ..

section
variable {s : State} {rest : List Turn} (h : Spec.NoStopAsked s) (hs : s.schedule = .issue s.cur.place :: rest)
  (hm : s.mayIssue s.cur = true) (hl : s.cur.late = none)
include h hs hm hl

theorem issue_reissues {e : VEntry} (he : s.cur.reissue = some e) : Spec.RunsWord e.word (Spec.turn s rest) (step s) := by
  have hc := turn_cur s rest
  rw [step_issue h hm hs, stepHart_reissues (hc ▸ hl) (hc ▸ he)]
  exact runWord_runs ..

theorem issue_word (hi : s.cur.reissue = none) (hv : s.cur.viq = []) : step s = stepWord (Spec.turn s rest) := by
  have hc := turn_cur s rest
  rw [step_issue h hm hs, stepHart_word (hc ▸ hl) (hc ▸ hi) (hc ▸ hv)]

end

end Sys2Proof.Machine

namespace Sys2Proof

/-- Settles O56: a turn of the current hart is its issue, the issue of a word follows the outcomes of its fetch, and the word fetched runs
what it decodes to. -/
theorem stepRunsDecoded : Obligations.StepRunsDecoded := by
  refine ⟨fun s h => Machine.step_round h, fun s i rest h => Machine.step_event h, ?old, ?issue⟩
  case old => exact fun s rest w h hs hm => Machine.old_runs h hs hm
  case issue =>
    intro s rest h hs hm hl u
    refine ⟨fun e => Machine.issue_reissues h hs hm hl, fun b hi hv hb => ?_, fun hi hv hb => ?_⟩
    · rw [Machine.issue_word h hs hm hl hi hv, Machine.stepWord_breaks hb]
    · rw [Machine.issue_word h hs hm hl hi hv]
      refine ⟨Machine.issue_noCode hb, fun hc hloc hres => ?_⟩
      have ha : Machine.CodeAddress u.start.cur.ip := ⟨hc, hloc, hres⟩
      refine ⟨fun c v => Machine.issue_untranslated hb ha, fun pa v x hx => Machine.issue_translationWaits hb ha hx, fun pa v hx hv => ?_⟩
      refine ⟨Machine.issue_unreachable hb ha hx hv, fun ht hn => ?_⟩
      exact ⟨Machine.issue_poisoned hb ha hx ht hn hv, fun x hp => Machine.issue_accessWaits hb ha hx ht hn hp, fun hp hw hsent b0 b1 b2 b3 =>
        Machine.issue_runs hb ha hx ht hn hp hw ((Machine.turn_cur s rest).symm ▸ hsent)⟩

end Sys2Proof
end

section
/-!
SUPPORT. The scalar integer instructions (R105, R106): the codes of R91 as operations on words of every width, and what a scalar instruction
writes in a hart and in a lane thread.
-/

set_option Elab.async false

namespace Sys2Proof.Machine

/-! ### The operations of R91's fn11 codes as operations on words (R34, R105) -/

/-- Where a tie gives one value, < and ≤ choose alike. -/
theorem ite_lt_eq_ite_le {α β : Type} [LinearOrder α] {p q : α} {x y : β} (h : p = q → x = y) :
    (if p < q then x else y) = if p ≤ q then x else y := by
  rcases lt_trichotomy p q with hlt | heq | hgt
  · rw [if_pos hlt, if_pos hlt.le]
  · simp [h heq]
  · rw [if_neg hgt.asymm, if_neg hgt.not_ge]

section
variable {w : Nat} (a b : BitVec w)

/-- Rotating by s < w is the bits shifted up joined with the bits that leave at the top. -/
theorem rolN_eq_or {s : Nat} (hs : s < w) : rolN w a.toNat s = a.toNat <<< s % 2 ^ w ||| a.toNat >>> (w - s) := by
  have hw : 2 ^ w = 2 ^ s * 2 ^ (w - s) := by rw [← Nat.pow_add]; congr 1; omega
  have hlow : a.toNat / 2 ^ (w - s) < 2 ^ s := Nat.div_lt_of_lt_mul (by rw [Nat.mul_comm, ← hw]; exact a.isLt)
  have hshift : a.toNat * 2 ^ s % 2 ^ w = 2 ^ s * (a.toNat % 2 ^ (w - s)) := by
    rw [hw, Nat.mul_comm, Nat.mul_mod_mul_left]
  have hsum : 2 ^ s * (a.toNat % 2 ^ (w - s)) + a.toNat / 2 ^ (w - s) < 2 ^ w := by
    have hmod : a.toNat % 2 ^ (w - s) + 1 ≤ 2 ^ (w - s) := Nat.mod_lt _ (Nat.two_pow_pos _)
    calc _ < 2 ^ s * (a.toNat % 2 ^ (w - s)) + 2 ^ s := by omega
      _ = 2 ^ s * (a.toNat % 2 ^ (w - s) + 1) := (Nat.mul_succ ..).symm
      _ ≤ 2 ^ w := hw ▸ Nat.mul_le_mul_left _ hmod
  rw [rolN, Nat.shiftLeft_eq, Nat.shiftRight_eq_div_pow, hshift, ← Nat.two_pow_add_eq_or_of_lt hlow, Nat.add_mod, hshift,
    Nat.add_mod_mod, Nat.mod_eq_of_lt hsum]

theorem rolN_rotateLeft (hw : 0 < w) (s : Nat) : BitVec.ofNat w (rolN w a.toNat (s % w)) = a.rotateLeft (s % w) := by
  apply BitVec.eq_of_toNat_eq
  rw [BitVec.toNat_rotateLeft, Nat.mod_mod, ← rolN_eq_or a (Nat.mod_lt s hw), BitVec.toNat_ofNat]
  exact Nat.mod_eq_of_lt (Nat.mod_lt _ (Nat.two_pow_pos _))

theorem rolN_rotateRight (hw : 0 < w) (s : Nat) : BitVec.ofNat w (rolN w a.toNat ((w - s % w) % w)) = a.rotateRight (s % w) := by
  have hs := Nat.mod_lt s hw
  apply BitVec.eq_of_toNat_eq
  rw [rolN_rotateLeft a hw, BitVec.toNat_rotateLeft, BitVec.toNat_rotateRight, Nat.mod_mod, Nat.mod_mod]
  rcases Nat.eq_zero_or_pos (s % w) with h0 | hpos
  · simp [h0, Nat.shiftLeft_eq, Nat.shiftRight_eq_div_pow, Nat.div_eq_of_lt a.isLt]
  · rw [Nat.mod_eq_of_lt (by omega : w - s % w < w), Nat.sub_sub_self hs.le, Nat.or_comm]

theorem sraN_sshiftRight (hw : 0 < w) (s : Nat) : BitVec.ofNat w (sraN w a.toNat s) = a.sshiftRight s := by
  rw [sraN, ofNat_wrapN, sintN_toInt hw, BitVec.sshiftRight_eq, Int.shiftRight_eq_div_pow]
  norm_cast

theorem mulhS_toInt (hw : 0 < w) : BitVec.ofNat w (mulhS w a.toNat b.toNat) = BitVec.ofInt w (a.toInt * b.toInt / 2 ^ w) := by
  rw [mulhS, ofNat_wrapN, sintN_toInt hw, sintN_toInt hw]

theorem ofNat_toNat_self : BitVec.ofNat w a.toNat = a := by simp

theorem ofNat_add_mod : BitVec.ofNat w ((a.toNat + b.toNat) % 2 ^ w) = a + b := BitVec.eq_of_toNat_eq (by simp)

theorem ofNat_mul_mod : BitVec.ofNat w (a.toNat * b.toNat % 2 ^ w) = a * b := BitVec.eq_of_toNat_eq (by simp)

theorem ofNat_shiftLeft (s : Nat) : BitVec.ofNat w (a.toNat * 2 ^ s % 2 ^ w) = a <<< s :=
  BitVec.eq_of_toNat_eq (by simp [Nat.shiftLeft_eq])

theorem ofNat_shiftRight (s : Nat) : BitVec.ofNat w (a.toNat / 2 ^ s) = a >>> s := by
  apply BitVec.eq_of_toNat_eq
  rw [BitVec.toNat_ofNat, BitVec.toNat_ushiftRight, Nat.shiftRight_eq_div_pow]
  exact Nat.mod_eq_of_lt (Nat.lt_of_le_of_lt (Nat.div_le_self ..) a.isLt)

theorem ofNat_andn : BitVec.ofNat w (a.toNat &&& (2 ^ w - 1 - b.toNat)) = a &&& ~~~b := by
  rw [← BitVec.toNat_not, ← BitVec.toNat_and, BitVec.ofNat_toNat, BitVec.setWidth_eq]

theorem ofNat_b2n (p : Prop) [Decidable p] : BitVec.ofNat w (b2n (decide p)) = if p then 1#w else 0#w := by
  by_cases h : p <;> simp [b2n, h]

theorem ofNat_ite (p : Prop) [Decidable p] : BitVec.ofNat w (if p then a.toNat else b.toNat) = if p then a else b := by
  split <;> simp

theorem slt_toInt (hw : 0 < w) : BitVec.ofNat w (b2n (sintN w a.toNat < sintN w b.toNat)) = if a.toInt < b.toInt then 1#w else 0#w := by
  rw [sintN_toInt hw, sintN_toInt hw]; exact ofNat_b2n _

/-- A choice between two words by the signed order (R34). -/
theorem ofNat_ite_sintN (hw : 0 < w) (x y : BitVec w) :
    BitVec.ofNat w (if sintN w a.toNat < sintN w b.toNat then x.toNat else y.toNat) = if a.toInt < b.toInt then x else y := by
  rw [ofNat_ite, sintN_toInt hw, sintN_toInt hw]

theorem toNat_beq_zero_iff : (b.toNat == 0) = true ↔ b = 0#w := by
  rw [beq_iff_eq, ← BitVec.toNat_inj, BitVec.toNat_zero]

theorem ofNat_allOnes (w : Nat) : BitVec.ofNat w (2 ^ w - 1) = BitVec.allOnes w := by
  apply BitVec.eq_of_toNat_eq
  rw [BitVec.toNat_ofNat, BitVec.toNat_allOnes, Nat.mod_eq_of_lt (Nat.sub_one_lt (Nat.two_pow_pos w).ne')]

theorem divSN_toInt (hw : 0 < w) : BitVec.ofNat w (divSN w a.toNat b.toNat) =
    if b = 0#w then BitVec.allOnes w else BitVec.ofInt w (a.toInt.tdiv b.toInt) := by
  simp only [divSN, toNat_beq_zero_iff]
  split
  · exact ofNat_allOnes w
  · rw [ofNat_wrapN, sintN_toInt hw, sintN_toInt hw]

theorem divNN_toNat : BitVec.ofNat w (divNN w a.toNat b.toNat) =
    if b = 0#w then BitVec.allOnes w else BitVec.ofNat w (a.toNat / b.toNat) := by
  simp only [divNN, toNat_beq_zero_iff]
  split
  · exact ofNat_allOnes w
  · rfl

theorem remSN_toInt (hw : 0 < w) : BitVec.ofNat w (remSN w a.toNat b.toNat) =
    if b = 0#w then a else BitVec.ofInt w (a.toInt - a.toInt.tdiv b.toInt * b.toInt) := by
  simp only [remSN, toNat_beq_zero_iff]
  split
  · simp
  · rw [ofNat_wrapN, sintN_toInt hw, sintN_toInt hw, Int.tmod_def, Int.mul_comm]

theorem remNN_toNat : BitVec.ofNat w (remNN a.toNat b.toNat) = if b = 0#w then a else BitVec.ofNat w (a.toNat % b.toNat) := by
  simp only [remNN, toNat_beq_zero_iff]
  split <;> simp

/-- The low n bits, sign-extended (R105). -/
theorem wrapN_sintN_signExtend {n : Nat} (hn : 0 < n) : BitVec.ofNat w (wrapN (sintN n (a.toNat % 2 ^ n)) w) = (a.setWidth n).signExtend w := by
  rw [ofNat_wrapN, ← BitVec.toNat_setWidth, sintN_toInt hn]
  rfl

theorem wrapN_signExtend {n : Nat} (x : BitVec n) : wrapN x.toInt w = (x.signExtend w).toNat := by
  rw [BitVec.signExtend, ← ofNat_wrapN, BitVec.toNat_ofNat, Nat.mod_eq_of_lt (wrapN_lt ..)]

theorem toNat_zeroExtend {n : Nat} (x : BitVec n) (h : n ≤ w) : x.toNat = (x.setWidth w).toNat := by
  rw [BitVec.toNat_setWidth, Nat.mod_eq_of_lt (Nat.lt_of_lt_of_le x.isLt (Nat.pow_le_pow_right (by decide) h))]

/-- Bits put below a word that is shifted up (R106). -/
theorem ofNat_shiftedIn {n : Nat} (x : BitVec n) (h : n ≤ w) :
    BitVec.ofNat w ((a.toNat * 2 ^ n + x.toNat) % 2 ^ w) = a <<< n ||| x.setWidth w := by
  apply BitVec.eq_of_toNat_eq
  rw [Nat.mul_comm, Nat.two_pow_add_eq_or_of_lt x.isLt, BitVec.toNat_ofNat, BitVec.toNat_or, BitVec.toNat_shiftLeft, Nat.shiftLeft_eq,
    ← toNat_zeroExtend x h, Nat.mod_mod, Nat.or_mod_two_pow, Nat.mul_comm]
  congr 1
  exact Nat.mod_eq_of_lt (Nat.lt_of_lt_of_le x.isLt (Nat.pow_le_pow_right (by decide) h))

end

theorem lt_32_of_bit5 {n : BitVec 6} (h : ¬ n.getLsbD 5 = true) : n.toNat < 32 := by
  revert h; revert n; decide

/-! ### A scalar instruction in a hart and in a lane thread (R89, R105, R117) -/

section
variable {h : Hart}

theorem sw_hart (hl : h.lane = none) : h.sw = 64 := by simp [Hart.sw, hl]
theorem readX_hart (hl : h.lane = none) (r : Reg) : h.readX r = (h.rx r).toNat := by simp [Hart.readX, hl]
theorem writeX_hart (hl : h.lane = none) (r : Reg) (x : Nat) : h.writeX r x = h.wx r (BitVec.ofNat 64 x) := by simp [Hart.writeX, hl]

variable {l : LaneState}

theorem sw_thread (hl : h.lane = some l) : h.sw = 32 := by simp [Hart.sw, hl]
theorem readX_thread (hl : h.lane = some l) (r : Reg) : h.readX r = (h.re l.thread.index r).toNat := by simp [Hart.readX, hl]
theorem writeX_thread (hl : h.lane = some l) (r : Reg) (x : Nat) : h.writeX r x = h.we l.thread.index r (BitVec.ofNat 32 x) := by
  simp [Hart.writeX, hl]

end

theorem Plain.unit {s : State} (h : Plain s) : s.unit = .hart := h.1.1
theorem Plain.strikes {s : State} (h : Plain s) : s.cur.strikes = [] := h.1.2.1
theorem PlainHart.strikes {s : State} (h : PlainHart s) : s.cur.strikes = [] := h.1.strikes

section
variable {w : BitVec 32} {s t : State} {body : State → Flow} (h : Plain s) (hl : s.cur.lane.isSome = true → laneMajor w = true)
  (hd : dropMajor w = false)
include h hl hd

/-- A word that no region drops, outside lane mode or of the lane-thread set, comes to its effect. -/
theorem perform_scalar : perform w s body = .next (s.start.finish w (body s.start)) :=
  performAs_hart h.unit hl (by simp [hd]) (fun _ => h.2)

theorem perform_scalar_done (hb : body s.start = .done t) (ht : t.blocked = none) (hs : t.cur.strikes = []) :
    perform w s body = .next t.completed := by
  rw [perform_scalar h hl hd, hb, finish_done _ _ ht hs]

theorem perform_scalar_trap {x : Trap} (hb : body s.start = .trap x t) (ht : t.blocked = none) :
    perform w s body = .next (s.start.trapWord w x t) := by
  rw [perform_scalar h hl hd, hb, finish_trap _ _ _ ht]

end

/-- A word that a lane thread may execute and no region drops (R117, R121). -/
def ThreadWord (w : BitVec 32) : Prop := laneMajor w = true ∧ dropMajor w = false

theorem threadWord_of {w : BitVec 32} (m : BitVec 6) (h : wMajor w = m)
    (hm : ((0x02 ≤ m.toNat && m.toNat ≤ 0x0E && m.toNat != 0x0B) || (0x10 ≤ m.toNat && m.toNat ≤ 0x15) ||
      (0x17 ≤ m.toNat && m.toNat ≤ 0x1D)) = true := by decide)
    (hd : (0x22 ≤ m.toNat && m.toNat ≤ 0x31) = false := by decide) : ThreadWord w :=
  ⟨laneMajor_of m h hm, dropMajor_of m h hd⟩

/-- A scalar instruction whose effect is a value in its destination register. -/
theorem perform_writes {w : BitVec 32} {s : State} {body : State → Flow} {d : Reg} {x : Nat} (h : Plain s) (hw : ThreadWord w)
    (hb : body s.start = writeDone s.start d x) : perform w s body = .next ({ s.start with cur := s.cur.writeX d x } : State).completed :=
  perform_scalar_done h (fun _ => hw.1) hw.2 hb rfl ((Hart.writeX_strikes ..).trans h.strikes)

/-- An instruction of the integer major whose code computes `f` at every width. -/
theorem scalarOp_of_alu {con : Reg → Reg → Reg → Instr} {f : (w : Nat) → BitVec w → BitVec w → BitVec w} (op : Nat)
    (hf : ∀ w, 0 < w → ∀ a b : BitVec w, BitVec.ofNat w (aluN op w a.toNat b.toNat) = f w a b)
    (hx : ∀ d a b s, exec (con d a b) s = perform (xWord 0x04#6 d a b (BitVec.ofNat 11 op)) s (alu op d a b) := by intros; rfl) :
    Spec.ScalarOp con f := by
  intro d a b s h
  have hdone : exec (con d a b) s = .next ({ s.start with
      cur := s.cur.writeX d (aluN op s.cur.sw (s.cur.readX a) (s.cur.readX b)) } : State).completed :=
    (hx d a b s).trans (perform_writes h (threadWord_of 0x04#6 (wMajor_xWord ..)) rfl)
  refine ⟨fun hl => ?hart, fun l hl => ?thread⟩
  case hart => rw [hdone, writeX_hart hl, sw_hart hl, readX_hart hl, readX_hart hl, hf 64 (by decide)]
  case thread => rw [hdone, writeX_thread hl, sw_thread hl, readX_thread hl, readX_thread hl, hf 32 (by decide)]

/-- An instruction of one source register whose value `g` is `f` of it at both widths. -/
theorem scalarOp1_of_writes {con : Reg → Reg → Instr} {word : Reg → Reg → BitVec 32} {f : (w : Nat) → BitVec w → BitVec w}
    (g : Nat → Nat → Nat) (hw : ∀ d a, ThreadWord (word d a)) (hf : ∀ w, 16 < w → ∀ a : BitVec w, BitVec.ofNat w (g w a.toNat) = f w a)
    (hx : ∀ d a s, exec (con d a) s = perform (word d a) s (fun s => writeDone s d (g s.cur.sw (s.cur.readX a))) := by intros; rfl) :
    Spec.ScalarOp1 con f := by
  intro d a s h
  have hdone : exec (con d a) s = .next ({ s.start with cur := s.cur.writeX d (g s.cur.sw (s.cur.readX a)) } : State).completed :=
    (hx d a s).trans (perform_writes h (hw ..) rfl)
  refine ⟨fun hl => ?hart, fun l hl => ?thread⟩
  case hart => rw [hdone, writeX_hart hl, sw_hart hl, readX_hart hl, hf 64 (by decide)]
  case thread => rw [hdone, writeX_thread hl, sw_thread hl, readX_thread hl, hf 32 (by decide)]

/-- An instruction of the integer major with one source register. -/
theorem scalarOp1_of_alu {con : Reg → Reg → Instr} {f : (w : Nat) → BitVec w → BitVec w} (op : Nat)
    (g : Nat → Nat → Nat) (hf : ∀ w, 16 < w → ∀ a : BitVec w, BitVec.ofNat w (g w a.toNat) = f w a)
    (hx : ∀ d a s, exec (con d a) s = perform (xWord 0x04#6 d a 0#5 (BitVec.ofNat 11 op)) s (fun s => writeDone s d (g s.cur.sw (s.cur.readX a))) :=
      by intros; rfl) : Spec.ScalarOp1 con f :=
  scalarOp1_of_writes g (fun _ _ => threadWord_of 0x04#6 (wMajor_xWord ..)) hf hx

/-- An instruction with an immediate of a major of the lane-thread set. -/
theorem scalarOp1_of_imm {con : Reg → Reg → Instr} {f : (w : Nat) → BitVec w → BitVec w} (m : BitVec 6) (imm : BitVec 16)
    (g : Nat → Nat → Nat) (hf : ∀ w, 16 < w → ∀ a : BitVec w, BitVec.ofNat w (g w a.toNat) = f w a)
    (hm : ∀ d a, ThreadWord (iWord m d a imm) := by exact fun _ _ => threadWord_of _ (wMajor_iWord ..))
    (hx : ∀ d a s, exec (con d a) s = perform (iWord m d a imm) s (fun s => writeDone s d (g s.cur.sw (s.cur.readX a))) := by intros; rfl) :
    Spec.ScalarOp1 con f :=
  scalarOp1_of_writes g hm hf hx

/-! ### The integer instructions (R105) -/

theorem scalarArithmetic : Spec.ScalarArithmetic := by
  refine ⟨?add, ?sub, ?and, ?or, ?xor, ?andn, ?mul, ?mulh, ?mulhn⟩
  case add => exact scalarOp_of_alu 0x0 fun _ _ => ofNat_add_mod
  case sub => exact scalarOp_of_alu 0x1 fun _ _ a b => (ofNat_wrapN ..).trans (ofInt_toNat_sub a b)
  case and => exact scalarOp_of_alu 0x2 fun w _ a b => ofNat_toNat_self (a &&& b)
  case or => exact scalarOp_of_alu 0x3 fun w _ a b => ofNat_toNat_self (a ||| b)
  case xor => exact scalarOp_of_alu 0x4 fun w _ a b => ofNat_toNat_self (a ^^^ b)
  case andn => exact scalarOp_of_alu 0x5 fun w _ => ofNat_andn
  case mul => exact scalarOp_of_alu 0x11 fun w _ => ofNat_mul_mod
  case mulh => exact scalarOp_of_alu 0x12 fun w hw a b => mulhS_toInt a b hw
  case mulhn => exact scalarOp_of_alu 0x13 fun _ _ _ _ => rfl

theorem scalarShifts : Spec.ScalarShifts := by
  refine ⟨?shl, ?shr, ?sra, ?rol, ?ror⟩
  case shl => exact scalarOp_of_alu 0x6 fun w _ a b => ofNat_shiftLeft a (Spec.amount b)
  case shr => exact scalarOp_of_alu 0x7 fun w _ a b => ofNat_shiftRight a (Spec.amount b)
  case sra => exact scalarOp_of_alu 0x8 fun w hw a b => sraN_sshiftRight a hw (Spec.amount b)
  case rol => exact scalarOp_of_alu 0x9 fun w hw a b => rolN_rotateLeft a hw b.toNat
  case ror => exact scalarOp_of_alu 0xA fun w hw a b => rolN_rotateRight a hw b.toNat

theorem scalarComparisons : Spec.ScalarComparisons := by
  refine ⟨?slt, ?sltn, ?min, ?max, ?minn, ?maxn⟩
  case slt => exact scalarOp_of_alu 0xB fun w hw a b => slt_toInt a b hw
  case sltn => exact scalarOp_of_alu 0xC fun w _ a b => ofNat_b2n _
  case min => exact scalarOp_of_alu 0xD fun w hw a b => (ofNat_ite_sintN a b hw a b).trans (ite_lt_eq_ite_le BitVec.eq_of_toInt_eq)
  case max => exact scalarOp_of_alu 0xE fun w hw a b => (ofNat_ite_sintN a b hw b a).trans (ite_lt_eq_ite_le fun e => (BitVec.eq_of_toInt_eq e).symm)
  case minn => exact scalarOp_of_alu 0xF fun w _ a b => (ofNat_ite ..).trans (ite_lt_eq_ite_le BitVec.eq_of_toNat_eq)
  case maxn => exact scalarOp_of_alu 0x10 fun w _ a b => (ofNat_ite ..).trans (ite_lt_eq_ite_le fun e => (BitVec.eq_of_toNat_eq e).symm)

theorem scalarDivision : Spec.ScalarDivision := by
  refine ⟨?div, ?divn, ?rem, ?remn⟩
  case div => exact scalarOp_of_alu 0x14 fun w hw a b => divSN_toInt a b hw
  case divn => exact scalarOp_of_alu 0x15 fun w _ => divNN_toNat
  case rem => exact scalarOp_of_alu 0x16 fun w hw a b => remSN_toInt a b hw
  case remn => exact scalarOp_of_alu 0x17 fun w _ => remNN_toNat

theorem scalarUnary : Spec.ScalarUnary := by
  refine ⟨?clz, ?ctz, ?popc, ?sextb, ?sexth, ?sextw⟩
  case clz => exact scalarOp1_of_alu 0x18 clzN fun w _ a => congrArg _ (clzN_eq a.isLt)
  case ctz => exact scalarOp1_of_alu 0x19 ctzN fun w _ a => congrArg _ (ctzN_eq w a.toNat)
  case popc => exact scalarOp1_of_alu 0x1A popcN fun w _ a => congrArg _ (popcN_eq a w)
  case sextb => exact scalarOp1_of_alu 0x1B (fun w x => wrapN (sintN 8 (x % 2 ^ 8)) w) fun w _ a => wrapN_sintN_signExtend a (by decide)
  case sexth => exact scalarOp1_of_alu 0x1C (fun w x => wrapN (sintN 16 (x % 2 ^ 16)) w) fun w _ a => wrapN_sintN_signExtend a (by decide)
  case sextw => exact scalarOp1_of_alu 0x1D (fun w x => wrapN (sintN 32 (x % 2 ^ 32)) w) fun w _ a => wrapN_sintN_signExtend a (by decide)

/-! ### The b field of a word with one source (R105) -/

/-- What the codes 24 to 29 of the integer major decode to has a b field of 0. -/
theorem wB_decodeAlu_unary {w : BitVec 32} {i : Instr} (h24 : 24 ≤ (wFn w).toNat) (h29 : (wFn w).toNat ≤ 29) (h : decodeAlu w = some i) :
    wB (encode i) = 0#5 := by
  unfold decodeAlu at h
  interval_cases (wFn w).toNat <;> (cases h; exact wB_xWord ..)

theorem unaryFieldZero : Spec.UnaryFieldZero := by
  intro d a b fn h24 h29 hb
  change ∃ r, decode (xWord 0x04#6 d a b fn) = .error r
  cases hdec : decode (xWord 0x04#6 d a b fn) with
  | error r => exact ⟨r, rfl⟩
  | ok i =>
    obtain ⟨hraw, -, henc⟩ := decode_sound hdec
    rw [raw_decodeAlu (wMajor_xWord ..)] at hraw
    have hzero := wB_decodeAlu_unary (by rwa [wFn_xWord]) (by rwa [wFn_xWord]) hraw
    rw [henc, wB_xWord] at hzero
    exact absurd hzero hb

/-! ### The immediate forms (R106) -/

theorem scalarImmediates : Spec.ScalarImmediates := by
  intro imm
  refine ⟨?addi, ?andi, ?ori, ?xori, ?slti, ?lih⟩
  case addi =>
    refine scalarOp1_of_imm 0x03#6 imm (fun w x => aluN 0x0 w x (wrapN imm.toInt w)) fun w hw a => ?_
    rw [wrapN_signExtend]
    exact ofNat_add_mod a (imm.signExtend w)
  case andi =>
    refine scalarOp1_of_imm 0x05#6 imm (fun w x => aluN 0x2 w x imm.toNat) fun w hw a => ?_
    rw [toNat_zeroExtend imm hw.le]
    exact ofNat_toNat_self (a &&& imm.setWidth w)
  case ori =>
    refine scalarOp1_of_imm 0x06#6 imm (fun w x => aluN 0x3 w x imm.toNat) fun w hw a => ?_
    rw [toNat_zeroExtend imm hw.le]
    exact ofNat_toNat_self (a ||| imm.setWidth w)
  case xori =>
    refine scalarOp1_of_imm 0x07#6 imm (fun w x => aluN 0x4 w x imm.toNat) fun w hw a => ?_
    rw [toNat_zeroExtend imm hw.le]
    exact ofNat_toNat_self (a ^^^ imm.setWidth w)
  case slti =>
    refine scalarOp1_of_imm 0x09#6 imm (fun w x => aluN 0xB w x (wrapN imm.toInt w)) fun w hw a => ?_
    rw [wrapN_signExtend]
    exact slt_toInt a (imm.signExtend w) (by omega)
  case lih =>
    exact scalarOp1_of_imm 0x02#6 imm (fun w x => (x * 2 ^ 16 + imm.toNat) % 2 ^ w) fun w hw a => ofNat_shiftedIn a imm hw.le

/-- Outside lane mode, or with an amount below 32, an immediate shift writes its value (R106). -/
theorem shiftImm_writes (op : Nat) (d a : Reg) {n : BitVec 6} {s : State} (h : s.cur.lane = none ∨ ¬ n.getLsbD 5 = true) :
    shiftImm op d a n s = writeDone s d (aluN op s.cur.sw (s.cur.readX a) n.toNat) := by
  refine if_neg ?_
  rw [Bool.and_eq_true, Option.isSome_iff_ne_none]
  rintro ⟨hl, h5⟩
  exact h.elim hl (absurd h5)

theorem shiftImm_laneError (op : Nat) (d a : Reg) {n : BitVec 6} {s : State} {l : LaneState} (hl : s.cur.lane = some l)
    (h5 : n.getLsbD 5 = true) : shiftImm op d a n s = .trap { cause := 0x11, tval := 0 } s := by
  refine if_pos ?_
  rw [hl, h5]
  rfl

/-- An immediate shift whose code computes `f` for every amount below the width. -/
theorem shiftOp_of_alu {con : Reg → Reg → BitVec 6 → Instr} {f : (w : Nat) → BitVec w → Nat → BitVec w} (op : Nat) (k : BitVec 10)
    (hf : ∀ w n, n < w → ∀ a : BitVec w, BitVec.ofNat w (aluN op w a.toNat n) = f w a n)
    (he : ∀ d a n, encode (con d a n) = iWord 0x08#6 d a (k ++ n) := by intros; rfl)
    (hx : ∀ d a n s, exec (con d a n) s = perform (encode (con d a n)) s (shiftImm op d a n) := by intros; rfl) : Spec.ShiftOp con f := by
  intro d a n s h
  have hw : ThreadWord (encode (con d a n)) := he d a n ▸ threadWord_of 0x08#6 (wMajor_iWord ..)
  have hdone (hok : s.cur.lane = none ∨ ¬ n.getLsbD 5 = true) : exec (con d a n) s = .next ({ s.start with
      cur := s.cur.writeX d (aluN op s.cur.sw (s.cur.readX a) n.toNat) } : State).completed :=
    (hx d a n s).trans (perform_writes h hw (shiftImm_writes op d a (s := s.start) hok))
  refine ⟨fun hl => ?hart, fun l hl => ?thread⟩
  case hart => rw [hdone (.inl hl), writeX_hart hl, sw_hart hl, readX_hart hl, hf 64 _ n.isLt]
  case thread =>
    split
    · next h5 => rw [hx]; exact perform_scalar_trap h (fun _ => hw.1) hw.2 (shiftImm_laneError op d a (s := s.start) hl h5) rfl
    · next h5 => rw [hdone (.inr h5), writeX_thread hl, sw_thread hl, readX_thread hl, hf 32 _ (lt_32_of_bit5 h5)]

theorem scalarShiftImmediates : Spec.ScalarShiftImmediates := by
  refine ⟨?shli, ?shri, ?srai⟩
  case shli =>
    refine shiftOp_of_alu 0x6 0x0#10 fun w n hn a => ?_
    simp only [aluN, Nat.mod_eq_of_lt hn]
    exact ofNat_shiftLeft a n
  case shri =>
    refine shiftOp_of_alu 0x7 0x1#10 fun w n hn a => ?_
    simp only [aluN, Nat.mod_eq_of_lt hn]
    exact ofNat_shiftRight a n
  case srai =>
    refine shiftOp_of_alu 0x8 0x2#10 fun w n hn a => ?_
    simp only [aluN, Nat.mod_eq_of_lt hn]
    exact sraN_sshiftRight a (by omega) n

end Sys2Proof.Machine

namespace Sys2Proof

/-- Settles O2: each code of R91 computes its rule's value at every width, so at the 64 bits of a hart and the 32 of a lane thread. -/
theorem scalarIntegers : Obligations.ScalarIntegers :=
  ⟨Machine.scalarArithmetic, Machine.scalarShifts, Machine.scalarComparisons, Machine.scalarDivision, Machine.scalarUnary, Machine.unaryFieldZero⟩

/-- Settles O3: each immediate, extended to the width, is the operand of its code, and a shift reaches its code unless bit 5 is an error. -/
theorem scalarImmediateForms : Obligations.ScalarImmediateForms := ⟨Machine.scalarImmediates, Machine.scalarShiftImmediates⟩

end Sys2Proof
end

section
/-!
SUPPORT. Scalar loads, stores and atomics (R109 to R111): what each effect is when its address is misaligned, when it reaches nothing and when it
is performed, and the instructions as uses of them.
-/

set_option Elab.async false

namespace Sys2Proof.Machine

/-! ### Where a scalar access goes (R109, R242) -/

/-- An access to an address that is not canonical, or in the reserved range, reaches nothing. -/
theorem reach_noAddress {a : Word} (h : canonical a = false ∨ (inLocal a = false ∧ inReserved a = true)) (s : State) (n : Nat) (k : AKind)
    (need : ANeed) : s.reach a n k need = (.bad 6, s) := by
  cases hc : canonical a with
  | false => simp [State.reach, hc]
  | true =>
    obtain ⟨hl, hr⟩ := h.resolve_left (by simp [hc])
    simp [State.reach, hc, hl, hr]

theorem reach_cur {s t : State} {a : Word} {n : Nat} {k : AKind} {need : ANeed} {r : Reach} (h : s.reach a n k need = (r, t)) : t.cur = s.cur :=
  (congrArg (fun p => p.2.cur) h).symm.trans (reach_reached s a n k need).cur

theorem loadN_cur {s t : State} {st : Stream} {a : Word} {n : Nat} {r : Except Trap Nat} (h : s.loadN st a n = (r, t)) : t.cur = s.cur :=
  (congrArg (fun p => p.2.cur) h).symm.trans (loadN_reached s st a n).cur

theorem loadN_bad {s t : State} {st : Stream} {a : Word} {n c : Nat} (h : s.reach a n .read .plain = (.bad c, t)) :
    s.loadN st a n = (.error { cause := c, tval := a }, t) := by simp only [State.loadN, h]

/-- A store whose own block watches nothing of it notes no match (R338). -/
theorem strikeOwn_noMatch {s : State} {k : WKind} {a : Word} {n : Nat} (e : Nat) (h : s.ownMatch s.cur.sctx k a n = none) :
    s.strikeOwn k a n e = s := by simp only [State.strikeOwn, h]

/-! ### The effects of a load and of a store (R109) -/

section
variable {n : Nat} {d a : Reg} {imm : BitVec 16} {s t : State}

section
variable (h : (s.cur.scalarAddr a imm).toNat % n ≠ 0)
include h

theorem load_misaligned {natural : Bool} : load n natural d a imm s = .trap { cause := 4, tval := s.cur.scalarAddr a imm } s :=
  if_pos (bne_iff_ne.mpr h)

theorem store_misaligned : store n d a imm s = .trap { cause := 4, tval := s.cur.scalarAddr a imm } s := if_pos (bne_iff_ne.mpr h)

end

variable (h : (s.cur.scalarAddr a imm).toNat % n = 0)
include h

theorem load_unreachable {natural : Bool} {c : Nat} (hr : s.reach (s.cur.scalarAddr a imm) n .read .plain = (.bad c, t)) :
    load n natural d a imm s = .trap { cause := c, tval := s.cur.scalarAddr a imm } t := by
  simp only [load, h, loadN_bad hr, bne_self_eq_false, Bool.false_eq_true, if_false]

theorem store_unreachable {c : Nat} (hr : s.reach (s.cur.scalarAddr a imm) n .write .plain = (.bad c, t)) :
    store n d a imm s = .trap { cause := c, tval := s.cur.scalarAddr a imm } t := by
  simp only [store, h, hr, bne_self_eq_false, Bool.false_eq_true, if_false]

theorem load_reads {natural : Bool} {x : Nat} (hr : s.loadN s.cur.scalarStream (s.cur.scalarAddr a imm) n = (.ok x, t))
    (hw : t.watched t.cur.sctx .read (s.cur.scalarAddr a imm) n = none) :
    load n natural d a imm s = writeDone t d (if natural then x else wrapN (sintN (8 * n) x) t.cur.sw) := by
  simp only [load, h, hr, strike_none _ hw, bne_self_eq_false, Bool.false_eq_true, if_false]

theorem store_queues {key : Nat} (hr : s.reach (s.cur.scalarAddr a imm) n .write .plain = (.ok key, t))
    (hw : t.ownMatch t.cur.sctx .write (s.cur.scalarAddr a imm) n = none) :
    store n d a imm s = .done (t.queueStore t.cur.scalarStream (.write (plainBytes key (leBytes n (t.cur.readX d))))) := by
  simp only [store, h, hr, strikeOwn_noMatch _ hw, bne_self_eq_false, Bool.false_eq_true, if_false]

end

/-! ### Loads and stores as instructions -/

/-- The majors of the accesses of n bytes: of the lane-thread set but for 8 bytes, which no lane thread accesses (R117). -/
def accessMajor (n : Nat) (m : BitVec 6) : Bool :=
  (n == 8 || (0x02 ≤ m.toNat && m.toNat ≤ 0x0E && m.toNat != 0x0B) || (0x10 ≤ m.toNat && m.toNat ≤ 0x15)) && m.toNat < 0x22

section
variable {n : Nat} {m : BitVec 6} {w : BitVec 32} {s : State} (hm : accessMajor n m = true) (hw : wMajor w = m)
include hm hw

theorem laneMajor_access (h8 : n = 8 → s.cur.lane = none) : s.cur.lane.isSome = true → laneMajor w = true := by
  intro hl
  have hn : n ≠ 8 := fun h => by simp [h8 h] at hl
  refine laneMajor_of m hw ?_
  simp only [accessMajor, beq_eq_false_iff_ne.mpr hn, Bool.false_or, Bool.and_eq_true] at hm
  simp [hm.1]

theorem dropMajor_access : dropMajor w = false := by
  simp only [accessMajor, Bool.and_eq_true, decide_eq_true_eq] at hm
  refine dropMajor_of m hw ?_
  simp only [Bool.and_eq_false_iff, decide_eq_false_iff_not]
  omega

end

section
variable {con : Reg → Reg → BitVec 16 → Instr} {n : Nat} (m : BitVec 6)

theorem loadOp_of_load {ext : Nat → Nat → Nat} (natural : Bool) (hm : accessMajor n m = true := by decide)
    (hext : ∀ w x, ext w x = if natural then x else wrapN (sintN (8 * n) x) w := by intros; rfl)
    (hx : ∀ d a imm s, exec (con d a imm) s = perform (iWord m d a imm) s (load n natural d a imm) := by intros; rfl) : Spec.LoadOp con n ext := by
  intro d a imm s t x h h8 hal hload hb hwatch
  have hbody : load n natural d a imm s.start = writeDone t d (ext t.cur.sw x) := by
    rw [hext]; exact load_reads (s := s.start) hal hload hwatch
  rw [hx]
  refine perform_scalar_done h (laneMajor_access hm (wMajor_iWord ..) h8) (dropMajor_access hm (wMajor_iWord ..)) hbody hb ?_
  rw [Hart.writeX_strikes, loadN_cur hload]
  exact h.strikes

theorem storeOp_of_store (hm : accessMajor n m = true := by decide)
    (hx : ∀ d a imm s, exec (con d a imm) s = perform (iWord m d a imm) s (store n d a imm) := by intros; rfl) : Spec.StoreOp con n := by
  intro d a imm s t key h h8 hal hreach hb hmatch
  rw [hx]
  refine perform_scalar_done h (laneMajor_access hm (wMajor_iWord ..) h8) (dropMajor_access hm (wMajor_iWord ..))
    (store_queues (s := s.start) hal hreach hmatch) hb ?_
  exact (congrArg Hart.strikes (reach_cur hreach)).trans h.strikes

/-- An instruction whose effect traps on a misaligned address and then on one that is not reached. -/
theorem accessTraps_of_effect {kind : AKind} {body : Reg → Reg → BitVec 16 → State → Flow}
    (hmis : ∀ d a imm (s : State), (s.cur.scalarAddr a imm).toNat % n ≠ 0 →
      body d a imm s = .trap { cause := 4, tval := s.cur.scalarAddr a imm } s)
    (hbad : ∀ d a imm (s t : State) c, (s.cur.scalarAddr a imm).toNat % n = 0 → s.reach (s.cur.scalarAddr a imm) n kind .plain = (.bad c, t) →
      body d a imm s = .trap { cause := c, tval := s.cur.scalarAddr a imm } t)
    (hm : accessMajor n m = true := by decide)
    (he : ∀ d a imm, encode (con d a imm) = iWord m d a imm := by intros; rfl)
    (hx : ∀ d a imm s, exec (con d a imm) s = perform (encode (con d a imm)) s (body d a imm) := by intros; rfl) : Spec.AccessTraps con n kind := by
  intro d a imm s h h8 A
  have hmaj : wMajor (encode (con d a imm)) = m := he d a imm ▸ wMajor_iWord ..
  have htrap {x : Trap} {t : State} (hb : body d a imm s.start = .trap x t) (ht : t.blocked = none) :
      exec (con d a imm) s = .next (s.start.trapWord (encode (con d a imm)) x t) :=
    (hx d a imm s).trans (perform_scalar_trap h (laneMajor_access hm hmaj h8) (dropMajor_access hm hmaj) hb ht)
  refine ⟨fun hne => ?misaligned, fun hal hno => ?noAddress, fun c t hal hr ht => ?unreachable⟩
  case misaligned => exact htrap (hmis d a imm s.start hne) rfl
  case noAddress => exact htrap (hbad d a imm s.start s.start 6 hal (reach_noAddress hno ..)) rfl
  case unreachable => exact htrap (hbad d a imm s.start t c hal hr) ht

theorem accessTraps_of_load (natural : Bool) (hm : accessMajor n m = true := by decide)
    (he : ∀ d a imm, encode (con d a imm) = iWord m d a imm := by intros; rfl)
    (hx : ∀ d a imm s, exec (con d a imm) s = perform (encode (con d a imm)) s (load n natural d a imm) := by intros; rfl) :
    Spec.AccessTraps con n .read :=
  accessTraps_of_effect m (fun _ _ _ _ hne => load_misaligned hne) (fun _ _ _ _ _ _ hal => load_unreachable hal) hm he hx

theorem accessTraps_of_store (hm : accessMajor n m = true := by decide)
    (he : ∀ d a imm, encode (con d a imm) = iWord m d a imm := by intros; rfl)
    (hx : ∀ d a imm s, exec (con d a imm) s = perform (encode (con d a imm)) s (store n d a imm) := by intros; rfl) :
    Spec.AccessTraps con n .write :=
  accessTraps_of_effect m (fun _ _ _ _ hne => store_misaligned hne) (fun _ _ _ _ _ _ hal => store_unreachable hal) hm he hx

end

theorem scalarLoads : Spec.ScalarLoads :=
  ⟨loadOp_of_load 0x0C#6 false, loadOp_of_load 0x0D#6 false, loadOp_of_load 0x0E#6 false, loadOp_of_load 0x0F#6 true,
    loadOp_of_load 0x10#6 true, loadOp_of_load 0x11#6 true, loadOp_of_load 0x12#6 true⟩

theorem scalarStores : Spec.ScalarStores :=
  ⟨storeOp_of_store 0x13#6, storeOp_of_store 0x14#6, storeOp_of_store 0x15#6, storeOp_of_store 0x16#6⟩

theorem scalarAccessTraps : Spec.ScalarAccessTraps :=
  ⟨accessTraps_of_load 0x0C#6 false, accessTraps_of_load 0x0D#6 false, accessTraps_of_load 0x0E#6 false, accessTraps_of_load 0x0F#6 true,
    accessTraps_of_load 0x10#6 true, accessTraps_of_load 0x11#6 true, accessTraps_of_load 0x12#6 true,
    accessTraps_of_store 0x13#6, accessTraps_of_store 0x14#6, accessTraps_of_store 0x15#6, accessTraps_of_store 0x16#6⟩

/-! ### Bytes read as a number, and the bytes of a number -/

theorem leNat_lt : ∀ bs : List Byte, leNat bs < 2 ^ (8 * bs.length)
  | [] => by simp [leNat]
  | b :: t => by
    have ih := leNat_lt t
    have hb : b.toNat < 256 := b.isLt
    rw [List.length_cons, Nat.mul_succ, Nat.pow_add, leNat]
    omega

theorem length_getList (m : List Host.Cell) (a : Nat) : ∀ n, (Memory.getList m a n).length = n := by
  intro n
  induction n generalizing a with
  | zero => rfl
  | succ n ih => simp [Memory.getList, ih]

/-- Only the low bits of a number are in its bytes. -/
theorem leBytes_mod (n x : Nat) : leBytes n (x % 2 ^ (8 * n)) = leBytes n x := by
  induction n generalizing x with
  | zero => rfl
  | succ n ih =>
    have hpow : 2 ^ (8 * (n + 1)) = 256 * 2 ^ (8 * n) := by rw [Nat.mul_succ, Nat.pow_add, Nat.mul_comm]
    have hdiv : x % (256 * 2 ^ (8 * n)) / 256 = x / 256 % 2 ^ (8 * n) := Nat.mod_mul_right_div_self ..
    have hbyte : BitVec.ofNat 8 (x % (256 * 2 ^ (8 * n))) = BitVec.ofNat 8 x :=
      BitVec.eq_of_toNat_eq (by simp only [BitVec.toNat_ofNat]; exact Nat.mod_mul_right_mod ..)
    rw [leBytes, hpow, hbyte, hdiv, ih]
    rfl

/-! ### The effect of an AMO (R110, R111) -/

theorem amoAddr_eq (s : State) (a : Reg) : Spec.amoAddr s a = s.cur.amoAddr a := by
  unfold Spec.amoAddr Hart.amoAddr
  cases s.cur.lane <;> rfl

theorem amoBytes_eq (s : State) {op n : Nat} (hn : n = if op = 10 then 4 else 8) : Spec.amoBytes s n = s.cur.amoBytes op := by
  unfold Spec.amoBytes Hart.amoBytes
  cases s.cur.lane <;> by_cases h : op = 10 <;> simp [hn, h]

/-- Where an AMO that has reached its home is performed: after the accesses that its release covers have passed the ordering point of its scope,
with the lines of host memory taken exclusive at SYS scope and above (R111, R221). -/
def State.amoPoint (t : State) (key : Nat) (rel : Bool) (scope : BitVec 3) : State :=
  (if 4 ≤ scope.toNat then t.takeLines (key :: t.queuedKeys (amoAfter t.cur.scalarStream rel)) else t).drainTo
    (if rel then scopeLevel scope else 0) (amoAfter t.cur.scalarStream rel)

theorem amoPoint_strikes (t : State) (key : Nat) (rel : Bool) (scope : BitVec 3) : (t.amoPoint key rel scope).cur.strikes = t.cur.strikes := by
  rw [State.amoPoint, drainTo_cur]
  split <;> rfl

section
variable {op m : Nat} {d a b : Reg} {rel : Bool} {scope : BitVec 3} {A : Word} {s t : State} (hm : s.cur.amoBytes op = m) (hA : s.cur.amoAddr a = A)
include hm hA

theorem amo_misaligned (h : A.toNat % m ≠ 0) : amo op d a b rel scope s = .trap { cause := 4, tval := A } s := by
  subst hm hA
  exact if_pos (bne_iff_ne.mpr h)

variable (h : A.toNat % m = 0)
include h

theorem amo_unreachable {c : Nat} (hr : s.reach A m .write .amo = (.bad c, t)) : amo op d a b rel scope s = .trap { cause := c, tval := A } t := by
  subst hm hA
  simp only [amo, h, hr, bne_self_eq_false, Bool.false_eq_true, if_false]

theorem amo_performs {key : Nat} {u : State} (hr : s.reach A m .write .amo = (.ok key, t)) (hu : t.amoPoint key rel scope = u)
    (hbank : rel = true → u.ownCommand bankEngine = false) (hp : u.poisonIn key m = false) (hw : u.watched u.cur.sctx .atomic A m = none) :
    amo op d a b rel scope s = writeDone { u with mem := amoMem op m key (leNat (Memory.getList u.mem key m)) b d u } d
      (leNat (Memory.getList u.mem key m)) := by
  have hheld : (rel && u.ownCommand bankEngine) = false := by
    cases rel with
    | false => rfl
    | true => exact hbank rfl
  subst hm hA hu
  unfold State.amoPoint at hheld hp hw ⊢
  simp only [amo, h, hr, bne_self_eq_false, Bool.false_eq_true, if_false, ge_iff_le, hheld, hp, strike_none _ hw]

end

/-- The memory of an AMO whose code computes `f` on words of its width. -/
theorem amoMem_eq {op n key old : Nat} {b d : Reg} {s : State} {f : BitVec (8 * n) → BitVec (8 * n) → BitVec (8 * n) → Option (BitVec (8 * n))}
    (hold : old < 2 ^ (8 * n))
    (hf : ∀ o x y : BitVec (8 * n), (amoNew op (8 * n) o.toNat x.toNat y.toNat).map (BitVec.ofNat (8 * n)) = f o x y) :
    amoMem op n key old b d s =
      (f (BitVec.ofNat _ old) (BitVec.ofNat _ (s.cur.readX b)) (BitVec.ofNat _ (s.cur.readX d))).elim s.mem
        (fun x => Memory.setList s.mem key (leBytes n x.toNat)) := by
  rw [← hf, BitVec.toNat_ofNat, BitVec.toNat_ofNat, BitVec.toNat_ofNat, Nat.mod_eq_of_lt hold]
  unfold amoMem
  cases amoNew op (8 * n) old (s.cur.readX b % 2 ^ (8 * n)) (s.cur.readX d % 2 ^ (8 * n)) with
  | none => rfl
  | some x => exact congrArg _ (leBytes_mod n x).symm

/-! ### AMOs as instructions -/

theorem threadWord_amo (d a b : Reg) (f : BitVec 11) : ThreadWord (xWord 0x17#6 d a b f) := threadWord_of 0x17#6 (wMajor_xWord ..)

/-- An AMO whose code computes `f` at every width (R110). -/
theorem amoOp_of_new {con : Reg → Reg → Reg → Bool → Bool → BitVec 3 → Instr} {n : Nat}
    {f : (w : Nat) → BitVec w → BitVec w → BitVec w → Option (BitVec w)} (op : Nat)
    (hf : ∀ w, 0 < w → ∀ o x d : BitVec w, (amoNew op w o.toNat x.toNat d.toNat).map (BitVec.ofNat w) = f w o x d)
    (hn : n = if op = 10 then 4 else 8 := by rfl)
    (hx : ∀ d a b acq rel scope s, exec (con d a b acq rel scope) s =
      perform (xWord 0x17#6 d a b (BitVec.ofNat 4 op ++ bit acq ++ bit rel ++ scope ++ 0x0#2)) s (amo op d a b rel scope) := by intros; rfl) :
    Spec.AmoOp con n f := by
  intro d a b acq rel scope s t key h m A hal hr after u hbank hp hb hw old
  have hm : s.cur.amoBytes op = m := (amoBytes_eq s hn).symm
  have hpos : 0 < 8 * m := by
    rw [← hm, Hart.amoBytes]
    split <;> decide
  have hold : old < 2 ^ (8 * m) := (leNat_lt _).trans_eq (by rw [length_getList])
  have hstrikes : u.cur.strikes = [] :=
    (amoPoint_strikes t key rel scope).trans ((congrArg Hart.strikes (reach_cur hr)).trans h.strikes)
  have hbody : amo op d a b rel scope s.start = writeDone { u with mem := amoMem op m key old b d u } d old :=
    amo_performs (s := s.start) hm (amoAddr_eq s a).symm hal hr rfl hbank hp hw
  rw [hx]
  refine (perform_scalar_done h (fun _ => (threadWord_amo ..).1) (threadWord_amo ..).2 hbody hb ((Hart.writeX_strikes ..).trans hstrikes)).trans ?_
  rw [amoMem_eq hold (hf _ hpos)]
  cases f (8 * m) (BitVec.ofNat (8 * m) old) (BitVec.ofNat (8 * m) (u.cur.readX b)) (BitVec.ofNat (8 * m) (u.cur.readX d)) <;> rfl

theorem scalarAtomics : Spec.ScalarAtomics := by
  refine ⟨?add, ?and, ?or, ?xor, ?min, ?max, ?minn, ?maxn, ?swap, ?cas, ?fadd⟩
  case add => exact amoOp_of_new 0 fun w _ o x _ => congrArg some (ofNat_add_mod o x)
  case and => exact amoOp_of_new 1 fun w _ o x _ => congrArg some (ofNat_toNat_self (o &&& x))
  case or => exact amoOp_of_new 2 fun w _ o x _ => congrArg some (ofNat_toNat_self (o ||| x))
  case xor => exact amoOp_of_new 3 fun w _ o x _ => congrArg some (ofNat_toNat_self (o ^^^ x))
  case min => exact amoOp_of_new 4 fun w hw o x _ => congrArg some (ofNat_ite_sintN x o hw x o)
  case max => exact amoOp_of_new 5 fun w hw o x _ => congrArg some (ofNat_ite_sintN o x hw x o)
  case minn => exact amoOp_of_new 6 fun w _ o x _ => congrArg some (ofNat_ite ..)
  case maxn => exact amoOp_of_new 7 fun w _ o x _ => congrArg some (ofNat_ite ..)
  case swap => exact amoOp_of_new 8 fun w _ _ x _ => congrArg some (ofNat_toNat_self x)
  case cas =>
    refine amoOp_of_new 9 fun w _ o x d => ?_
    by_cases hod : o = d
    · simp [amoNew, hod]
    · simp [amoNew, hod, BitVec.toNat_inj]
  case fadd => exact amoOp_of_new 10 fun w _ o x _ => rfl

theorem atomicTraps : Spec.AtomicTraps := by
  intro d a b acq rel scope s h p hp m A
  obtain ⟨op, hx, hn, hw⟩ : ∃ op, (∀ s, exec p.1 s = perform (encode p.1) s (amo op d a b rel scope)) ∧ p.2 = (if op = 10 then 4 else 8) ∧
      ThreadWord (encode p.1) := by
    fin_cases hp <;> exact ⟨_, fun _ => rfl, rfl, threadWord_amo ..⟩
  have hm : s.cur.amoBytes op = m := (amoBytes_eq s hn).symm
  have hA : s.cur.amoAddr a = A := (amoAddr_eq s a).symm
  have htrap {x : Trap} {t : State} (hb : amo op d a b rel scope s.start = .trap x t) (ht : t.blocked = none) :
      exec p.1 s = .next (s.start.trapWord (encode p.1) x t) := (hx s).trans (perform_scalar_trap h (fun _ => hw.1) hw.2 hb ht)
  exact ⟨fun hne => htrap (amo_misaligned (s := s.start) hm hA hne) rfl,
    fun c t hal hr ht => htrap (amo_unreachable (s := s.start) hm hA hal hr) ht⟩

end Sys2Proof.Machine

namespace Sys2Proof

/-- Settles O5: every load and store is one of two effects, each said once for a misaligned, an unreachable and a reached address. -/
theorem scalarMemory : Obligations.ScalarMemory := ⟨Machine.scalarLoads, Machine.scalarStores, Machine.scalarAccessTraps⟩

/-- Settles O6: every AMO is one effect, whose code computes its rule's value at the width of the access. -/
theorem atomicOperations : Obligations.AtomicOperations := ⟨Machine.scalarAtomics, Machine.atomicTraps⟩

end Sys2Proof
end

section
/-!
SUPPORT. The fences (R124, R125) and what performing the queued accesses of some streams leaves (R218, R220, R221, R222): each note of what an
access must wait for, read backwards from a state that does not wait.
-/

set_option Elab.async false

namespace Sys2Proof.Machine

/-! ### Performing the accesses of some streams (R218, R220) -/

theorem performStores_kept (sel : Stream → Bool) (ps : List PStore) (m : List Host.Cell) :
    (performStores sel m ps).2 = ps.filter (fun p => !sel p.stream) := by
  induction ps generalizing m with
  | nil => rfl
  | cons p t ih => cases hp : sel p.stream <;> simp [performStores, hp, ih]

theorem performStores_performed (sel : Stream → Bool) (ps : List PStore) (m : List Host.Cell) :
    (performStores sel m ps).1 = (ps.filter (fun p => sel p.stream)).foldl (fun m p => performAct m p.act) m := by
  induction ps generalizing m with
  | nil => rfl
  | cons p t ih => cases hp : sel p.stream <;> simp [performStores, hp, ih]

/-! ### What an access that has nothing to wait for tells (R218, R221) -/

theorem block_waits (s : State) (w : Wait) : (s.block w).blocked ≠ none := by
  rw [State.block_blocked]
  cases s.blocked <;> simp

theorem tell_noWait {s : State} {port : Nat} {l : Option (Nat × Nat)} {agent sort addr n : Nat} {pay : List Byte}
    (h : (s.tell port l agent sort addr n pay).blocked = none) : s.blocked = none := by
  unfold State.tell at h
  split at h
  · exact h
  split at h
  · next e =>
    obtain ⟨ps, rfl⟩ := PortsOnly.acceptMessage e
    exact h
  · exact absurd h (block_waits _ _)

theorem noteAt_noWait {s : State} {f : DebugBlock → Nat → Bool} {l : Option (Nat × Nat)} {agent : Nat} {k : WKind} {rs : List (Nat × Nat)}
    {sort : Nat} {pay : List Byte} (h : (s.noteAt f l agent k rs sort pay).blocked = none) : s.blocked = none := by
  unfold State.noteAt at h
  split at h
  · exact h
  · exact (tell_noWait h :)

theorem noteHomes_noWait {ps : List PStore} : ∀ {s : State}, (s.noteHomes ps).blocked = none → s.blocked = none := by
  unfold State.noteHomes
  induction ps with
  | nil => exact id
  | cons p t ih => exact fun h => noteAt_noWait (ih h)

theorem touchStreams_noWait {s : State} {sel : Stream → Bool} (h : (s.touchStreams sel).blocked = none) : s.blocked = none := by
  unfold State.touchStreams at h
  split at h
  · exact absurd h (block_waits _ _)
  · exact h

/-- Where awaiting the writes on their way does not wait, each of them has passed the ordering point. -/
theorem awaitNet_noWait {s : State} {level : Nat} {engines : Bool} {sel : Stream → Bool} (h : (s.awaitNet level engines sel).blocked = none) :
    s.awaitNet level engines sel = s ∧ s.blocked = none ∧ ∀ p ∈ s.net, s.owns engines sel p = true → level ≤ p.level := by
  by_cases hany : s.net.any (fun p => p.level < level && s.owns engines sel p) = true
  · rw [State.awaitNet, if_pos hany] at h
    exact absurd h (block_waits _ _)
  · have hsame : s.awaitNet level engines sel = s := if_neg hany
    refine ⟨hsame, hsame ▸ h, fun p hp ho => ?_⟩
    by_contra hlt
    exact hany (List.any_eq_true.mpr ⟨p, hp, by simp [ho, Nat.lt_of_not_le hlt]⟩)

/-- Where a chained operation does not wait, no bank command and no append sent comes before it. -/
theorem touchChained_noWait {s : State} {sel : Stream → Bool} (h : (s.touchChained sel).blocked = none) (hsel : sel .bank = true)
    (hq : ∃ p ∈ s.cur.stores, p.stream = .bank) : s.bankHeld = false := by
  obtain ⟨p, hp, hbank⟩ := hq
  have hany : s.cur.stores.any (fun p => p.stream == .bank && sel .bank) = true := List.any_eq_true.mpr ⟨p, hp, by simp [hbank, hsel]⟩
  rw [← Bool.not_eq_true]
  intro hheld
  rw [State.touchChained, hany, hheld] at h
  exact block_waits _ _ h

/-- An access changes nothing of the hart's accepted commands. -/
theorem Reached.ownCommand {s t : State} (h : Reached s t) (sel : Engine → Bool) : t.ownCommand sel = s.ownCommand sel := by
  simp only [State.ownCommand, State.cluster, h.cur, h.clusters]

theorem bankEngine_eq : bankEngine = fun e => e == .bank := by
  funext e
  cases e <;> rfl

theorem queuedAccessesPerformed : Spec.QueuedAccessesPerformed := by
  intro s level sel t
  refine ⟨rfl, ?cur, ?mem, fun hb => ?noWait⟩
  case cur => exact (drainTo_cur s level sel).trans (by rw [performStores_kept])
  case mem => exact (drainTo_mem s level sel).trans (performStores_performed ..)
  case noWait =>
    let u := (s.touchAll (s.queuedKeys sel)).touchNets (s.queuedKeys sel)
    have hu : Reached s u := (touchAll_reached ..).trans (touchNets_reached ..)
    have hv : Reached s ((u.touchChained sel).touchStreams sel) := (hu.trans (touchChained_reached ..)).trans (touchStreams_reached ..)
    have hawait : (((u.touchChained sel).touchStreams sel).awaitNet level false sel).blocked = none := noteHomes_noWait hb
    obtain ⟨-, hstreams, hpassed⟩ := awaitNet_noWait hawait
    refine ⟨fun p hp st ho hst hsel => ?passed, fun hsel hq => ?bank⟩
    case passed =>
      refine hpassed p (hv.net ▸ hp) ?_
      simp [State.owns, hv.cur, ho, hst, hsel]
    case bank =>
      have hheld := touchChained_noWait (touchStreams_noWait hstreams) hsel (hu.cur ▸ hq)
      rw [State.bankHeld, Bool.or_eq_false_iff, bankEngine_eq] at hheld
      exact (hu.ownCommand _).symm.trans hheld.1

/-! ### The fences (R124, R125) -/

theorem drain_strikes (s : State) (sel : Stream → Bool) : (s.drain sel).cur.strikes = s.cur.strikes := by rw [drain_cur]

theorem finish_waitCommands (s0 : State) (w : BitVec 32) {t : State} (hb : t.blocked = none) :
    s0.finish w (.stay t.waitCommands) = t.waitCommands := finish_stay _ _ hb

/-- A fence of some streams and engines is a drain that then looks at the hart's commands. -/
theorem fences_of_fenceOn {i : Instr} {streams : Stream → Bool} {engines : Engine → Bool} (hw : wMajor (encode i) = 0#6)
    (hx : ∀ s, exec i s = perform (encode i) s (fenceOn streams engines) := by intros; rfl) : Spec.Fences i streams engines := by
  intro s h hb
  refine ⟨fun hnone => ?done, fun hleft => ?waits⟩
  case done =>
    have hbody : fenceOn streams engines s.start = .done (s.start.drain streams) := if_neg (by simp [hnone])
    rw [hx, perform_major0 h hw, hbody, finish_done _ _ hb ((drain_strikes ..).trans h.strikes)]
  case waits =>
    have hbody : fenceOn streams engines s.start = .stay (s.start.drain streams).waitCommands := if_pos hleft
    rw [hx, perform_major0 h hw, hbody, finish_waitCommands _ _ hb]

theorem ownNmu_iff (s : State) : s.ownNmu = true ↔ Spec.hasNmu s := by
  simp only [State.ownNmu, Spec.hasNmu, Nmu.commands, List.any_eq_true, List.mem_append, Option.mem_toList, Option.map_eq_some_iff, beq_iff_eq]
  refine exists_congr fun p => and_congr_right fun _ => ⟨?_, ?_⟩
  · rintro ⟨c, ⟨r, hr, rfl⟩ | hc, ho⟩
    · exact .inl ⟨r, hr, ho⟩
    · exact .inr ⟨c, hc, ho⟩
  · rintro (⟨r, hr, ho⟩ | ⟨c, hc, ho⟩)
    · exact ⟨r.cmd, .inl ⟨r, hr, rfl⟩, ho⟩
    · exact ⟨c, .inr hc, ho⟩

theorem ownStreams_iff (s : State) : s.ownStreams = true ↔ Spec.hasCommands s := by
  rw [State.ownStreams, fenceEngine_eq, Bool.or_eq_true, ownNmu_iff, Spec.hasCommands]

/-- Where a full fence stands when it looks at the hart's commands: after its queued accesses, and its writes on their way to the point of its
scope (R124, R221). -/
def State.fenced (s : State) (scope : BitVec 3) : State :=
  ((if 4 ≤ scope.toNat then s.takeLines (s.queuedKeys anyStream) else s).drainTo (scopeLevel scope) anyStream).awaitNet
    (scopeLevel scope) true anyStream

theorem fullFence_eq (scope : BitVec 3) (s : State) : fullFence scope s =
    if (s.fenced scope).ownStreams then .stay (s.fenced scope).waitCommands else .done (s.fenced scope) := rfl

theorem fenced_keeps (s : State) (scope : BitVec 3) :
    (s.fenced scope).cur.strikes = s.cur.strikes ∧ (s.fenced scope).cur.place = s.cur.place := by
  rw [State.fenced, (awaitNet_reached ..).cur, drainTo_cur]
  split <;> exact ⟨rfl, rfl⟩

theorem fullFence_waits (scope : BitVec 3) : Spec.FullFence scope := by
  intro s h all u hb
  have hu : s.start.fenced scope = u := rfl
  have hexec : exec (.fence scope) s = .next (s.start.finish (fenceWord scope) (fullFence scope s.start)) :=
    perform_major0 h (wMajor_sysWord ..)
  refine ⟨fun p hp ho => ?passed, fun hnone => ?done, fun hleft => ?waits⟩
  case passed =>
    obtain ⟨hsame, -, hpassed⟩ := awaitNet_noWait hb
    have hplace : u.cur.place = s.cur.place := (fenced_keeps s.start scope).2
    rw [show u = _ from hsame] at hp hplace
    refine hpassed p hp ?_
    cases hst : p.stream <;> simp [State.owns, hplace, ho, hst, all]
  case done =>
    rw [hexec, fullFence_eq, hu, if_neg (mt (ownStreams_iff u).mp hnone), finish_done _ _ hb ((fenced_keeps s.start scope).1.trans h.strikes)]
  case waits => rw [hexec, fullFence_eq, hu, if_pos ((ownStreams_iff u).mpr hleft), finish_waitCommands _ _ hb]

theorem fenceInstructions : Spec.FenceInstructions := by
  refine ⟨fullFence_waits, fences_of_fenceOn (wMajor_sysWord ..), ?vs, ?vv, fun mask => ?sbar, fun s h hb => ?ifence⟩
  case vs => exact fences_of_fenceOn (streams := vectorStream) (wMajor_sysWord ..)
  case vv => exact fences_of_fenceOn (streams := vectorStream) (wMajor_sysWord ..)
  case sbar =>
    have hbank : (fun e => mask.getLsbD 10 && e == .bank) = fun e => mask.getLsbD 10 && bankEngine e := by rw [bankEngine_eq]
    rw [hbank]
    exact fences_of_fenceOn (streams := sbarStream mask) (wMajor_sysWord ..)
  case ifence =>
    refine (perform_major0 h (wMajor_sysWord ..)).trans (congrArg _ (finish_done _ _ hb ?_))
    exact (drain_strikes ..).trans h.strikes

end Sys2Proof.Machine

namespace Sys2Proof

/-- Settles O10: a fence is a drain of its streams that then looks at the hart's commands; a drain performs its accesses in order, and that it does
not wait says what each of its notes found. -/
theorem fences : Obligations.Fences := ⟨Machine.fenceInstructions, Machine.queuedAccessesPerformed⟩

end Sys2Proof
end

section
/-!
SUPPORT. Vector regions and lane mode (R116 to R121): the effects of VRGN, VRGNE, LFORK, LJOIN, LEXIT and LXRD, and what a trap records.
-/

set_option Elab.async false

namespace Sys2Proof.Machine

/-! ### The bits that govern (R116, R121) -/

theorem mod_two_pow_ne_zero_iff (m n : Nat) : m % 2 ^ n ≠ 0 ↔ ∃ i, i < n ∧ m.testBit i = true := by
  constructor
  · intro h
    by_contra hno
    refine h (Nat.eq_of_testBit_eq fun i => ?_)
    rw [Nat.testBit_mod_two_pow, Nat.zero_testBit]
    by_cases hi : i < n
    · simpa [hi] using fun hbit => hno ⟨i, hi, hbit⟩
    · simp [hi]
  · rintro ⟨i, hi, hbit⟩ h0
    have hmod : (m % 2 ^ n).testBit i = true := by rw [Nat.testBit_mod_two_pow]; simp [hi, hbit]
    simp [h0] at hmod

theorem anyMask_iff (h : Hart) : h.anyMask = true ↔ Spec.someBit h := by
  have h2d : bitN h.vtype.toNat 8 = h.vtype.getLsbD 8 := bitN_eq_testBit ..
  unfold Hart.anyMask Spec.someBit
  dsimp only
  rw [h2d]
  split
  · simp only [List.any_eq_true, List.mem_range, bne_iff_ne, mod_two_pow_ne_zero_iff, Nat.testBit_div_two_pow, Nat.add_comm (64 * _),
      ← exists_and_left]
  · exact bne_iff_ne.trans (mod_two_pow_ne_zero_iff ..)

theorem threads_eq (h : Hart) : ((List.range h.vl.toNat).filter (fun i => bitN (h.vN 0) i)).map
    (fun i => ({ index := i, pc := h.pc + 4, run := .running } : LaneThread)) = Spec.newThreads h := by
  simp only [bitN_eq_testBit, Spec.newThreads]

/-- The address that a word's offset names, counted in words (R101). -/
theorem shiftLeft_two (x : Word) : x <<< 2 = 4 * x := by
  apply BitVec.eq_of_toNat_eq
  rw [BitVec.toNat_shiftLeft, BitVec.toNat_mul, Nat.shiftLeft_eq, Nat.mul_comm]
  rfl

/-- Reading a word as the fetch does leaves the hart (R242). -/
theorem peekWord_reached (s : State) (a : Word) : Reached s (s.peekWord a).2 := by
  have hx := xlateHart_reached s s.cur.lowLane a .fetch
  unfold State.peekWord
  split
  · exact .refl s
  split
  · next e => rw [e] at hx; exact hx
  · next e =>
    rw [e] at hx
    split
    · exact hx
    split
    · exact hx
    · exact hx.trans (touchAt_reached ..)

theorem peekWord_cur {s t : State} {a : Word} {r : Except Trap (BitVec 32)} (h : s.peekWord a = (r, t)) : t.cur = s.cur :=
  (congrArg (fun p => p.2.cur) h).symm.trans (peekWord_reached s a).cur

/-! ### Regions (R121) -/

section
variable {off : BitVec 16} {s : State}

theorem exec_vrgn (h : Executes s) (hl : s.cur.lane = none) :
    exec (.vrgn off) s = .next (s.start.finish (vrgnWord off) (vrgnBody off s.start)) :=
  performAs_hart h.1 (by simp [hl]) (by simp [vrgnWord, dropMajor_of 0x33#6 (wMajor_iWord ..)]) (by simp)

theorem vrgnBody_dropping (hd : s.cur.dropping = true) : vrgnBody off s = .done s := if_pos hd

theorem vrgnBody_illegal (hd : s.cur.dropping = false) (h : pfxPending s.cur.pendingPfx = true ∨ 4 ≤ s.cur.regions.length) :
    vrgnBody off s = illegalV s := by
  unfold vrgnBody
  dsimp only
  rw [hd, if_neg (by decide)]
  by_cases hp : pfxPending s.cur.pendingPfx = true
  · exact if_pos hp
  · rw [if_neg hp, if_pos (h.resolve_left hp)]

theorem vrgnBody_peeks {t : State} {w : BitVec 32} (hd : s.cur.dropping = false) (hp : pfxPending s.cur.pendingPfx = false)
    (hn : s.cur.regions.length < 4) (hw : s.peekWord (s.cur.pc + 4 * off.setWidth 64) = (.ok w, t)) : vrgnBody off s =
      if w = encode .vrgne then
        .done { t with cur := { t.cur with regions := { stop := s.cur.pc + 4 * off.setWidth 64, drop := !s.cur.anyMask } :: t.cur.regions } }
      else illegalV t := by
  have hword : encode .vrgne = vrgneWord := rfl
  unfold vrgnBody
  dsimp only
  rw [hd, hp, if_neg (by decide), if_neg (by decide), if_neg (Nat.not_le.mpr hn), shiftLeft_two, hw]
  by_cases h : w = vrgneWord <;> simp [h, hword]

theorem exec_vrgne (h : PlainHart s) : exec .vrgne s = .next (s.start.finish vrgneWord (vrgneBody s.start)) :=
  perform_scalar h.1 (by simp [h.2]) (by decide)

theorem vrgneBody_innermost {r : RegionEntry} {rest : List RegionEntry} (hr : s.cur.regions = r :: rest) (hs : r.stop = s.cur.pc) :
    vrgneBody s = .done { s with cur := { s.cur with regions := rest } } := by
  simp only [vrgneBody, hr, hs, beq_self_eq_true, if_true]

theorem vrgneBody_other (hr : ∀ r rest, s.cur.regions = r :: rest → r.stop ≠ s.cur.pc) : vrgneBody s = .done s := by
  unfold vrgneBody
  cases hc : s.cur.regions with
  | nil => rfl
  | cons r rest => simp [hr r rest hc]

end

theorem vectorRegions : Spec.Regions := by
  refine ⟨fun off s h hl => ?vrgn, fun s h => ⟨fun r rest hr hs => ?closes, fun hr => ?none⟩⟩
  case vrgn =>
    intro i stop bad
    have hexec := exec_vrgn (off := off) h hl
    have hbad {t : State} (hb : vrgnBody off s.start = illegalV t) (ht : t.blocked = none) : bad t := by
      rw [show bad t = (exec i s = _) from rfl, hexec, hb, illegalV, finish_trap _ _ _ ht]
      rfl
    refine ⟨fun hd => ?drops, fun hd hno => hbad (vrgnBody_illegal (s := s.start) hd hno) rfl, fun hd hp hn w t hw ht hs => ?peeks⟩
    case drops => rw [hexec, vrgnBody_dropping (s := s.start) hd, finish_done (t := s.start) _ _ rfl h.2.1]
    case peeks =>
      have hbody := vrgnBody_peeks (s := s.start) hd hp hn hw
      have hcur : t.cur = s.cur := peekWord_cur (s := s.start) hw
      refine ⟨fun hne => hbad (hbody.trans (if_neg hne)) ht, fun he => ⟨!s.cur.anyMask, ?drop, ?opens⟩⟩
      case drop => rw [hcur, ← anyMask_iff, Bool.not_eq_true', Bool.not_eq_true]
      case opens =>
        rw [hexec, hbody, if_pos he]
        exact congrArg _ (finish_done _ _ ht hs)
  case closes =>
    rw [exec_vrgne h, vrgneBody_innermost (s := s.start) hr hs]
    exact congrArg _ (finish_done _ _ rfl h.strikes)
  case none => rw [exec_vrgne h, vrgneBody_other (s := s.start) hr, finish_done (t := s.start) _ _ rfl h.strikes]

/-! ### Entering lane mode (R116) -/

section
variable {off : BitVec 16} {s : State}

theorem exec_lfork (h : PlainHart s) : exec (.lfork off) s = .next (s.start.finish (lforkWord off) (lforkBody off s.start)) :=
  perform_scalar h.1 (by simp [h.2]) (dropMajor_of 0x34#6 (wMajor_iWord ..))

theorem lforkBody_tooLong (h : 8 * s.cur.lanes < s.cur.vl.toNat) : lforkBody off s = illegal s := if_pos h

theorem lforkBody_peeks {t : State} {w : BitVec 32} (h : s.cur.vl.toNat ≤ 8 * s.cur.lanes)
    (hw : s.peekWord (s.cur.pc + 4 * off.setWidth 64) = (.ok w, t)) : lforkBody off s =
      if w = encode .ljoin then
        if Spec.newThreads s.cur = [] then .goto (s.cur.pc + 4 * off.setWidth 64 + 4) t
        else .stay { t with cur := { t.cur.retire with
          lane := some { join := s.cur.pc + 4 * off.setWidth 64, threads := Spec.newThreads s.cur, turn := 0, len := s.cur.vl.toNat,
                         snap := s.cur.v } } }
      else illegal t := by
  have hword : encode .ljoin = ljoinWord := rfl
  unfold lforkBody
  dsimp only
  rw [if_neg (Nat.not_lt.mpr h), shiftLeft_two, hw, threads_eq]
  by_cases hj : w = ljoinWord <;> by_cases hts : Spec.newThreads s.cur = [] <;> simp [hj, hword, hts]

end

/-! ### What a thread does (R119) -/

theorem over_iff (l : LaneState) : l.over = true ↔ ∀ k ∈ l.threads, k.run ≠ .running := by simp [LaneState.over]

theorem settleThread_rests {h : Hart} {l : LaneState} (hl : h.lane = some l) (run : ThreadRun) : Spec.ThreadRests h l run (h.settleThread run) := by
  have hover := over_iff (l.turnOver (fun t => { t with run := run }))
  unfold Hart.settleThread Hart.joinLanes
  rw [hl]
  dsimp only
  by_cases ho : (l.turnOver (fun t => { t with run := run })).over = true
  · rw [if_pos ho]
    exact ⟨rfl, rfl, rfl, fun _ => ⟨rfl, rfl⟩, fun ⟨k, hk, hrun⟩ => absurd hrun (hover.mp ho k hk)⟩
  · rw [if_neg ho]
    exact ⟨rfl, rfl, rfl, fun hnone => absurd (hover.mpr hnone) ho, fun _ => ⟨rfl, rfl⟩⟩

theorem threadWord_ljoin : ThreadWord ljoinWord := ⟨by decide, by decide⟩
theorem threadWord_lexit : ThreadWord lexitWord := ⟨by decide, by decide⟩

theorem threadWord_lxrd (d a b : Reg) : ThreadWord (lxrdWord d a b) := by
  refine ⟨?_, dropMajor_of 0x34#6 (wMajor_laneXrd ..)⟩
  have hsub : (laneXrd d a b).toNat / 2 ^ 24 % 4 = 3 := by
    have h := congrArg BitVec.toNat (f24_laneXrd d a b)
    rwa [BitVec.extractLsb'_toNat, Nat.shiftRight_eq_div_pow] at h
  simp only [laneMajor, lxrdWord, wMajor_laneXrd, hsub]
  decide

theorem laneInstructions : Spec.LaneMode := by
  refine ⟨fun off s h => ?fork, fun s l h hl => ⟨fun hj => ?join, fun hj => ?elsewhere, ?exit, fun d a b => ?read⟩,
    fun s d a b h i hi => ?outside⟩
  case fork =>
    intro i join
    have hexec := exec_lfork (off := off) h
    refine ⟨fun hlong => ?tooLong, fun hfits w t hw ht hcur => ?peeks⟩
    case tooLong =>
      rw [hexec, lforkBody_tooLong (s := s.start) hlong, illegal, finish_trap _ _ _ rfl]
      rfl
    case peeks =>
      have hbody := lforkBody_peeks (s := s.start) hfits hw
      refine ⟨fun hne => ?illegal, fun he hts => ?skips, fun he hts => ?forks⟩
      case illegal =>
        rw [hexec, hbody, if_neg hne, illegal, finish_trap _ _ _ ht]
        rfl
      case skips =>
        have hskip : lforkBody off s.start = .goto (join + 4) t := hbody.trans ((if_pos he).trans (if_pos hts))
        rw [hexec, hskip, finish_goto _ _ _ ht (hcur ▸ h.strikes), hcur]
      case forks =>
        rw [hexec, hbody.trans ((if_pos he).trans (if_neg hts)), hcur]
        exact congrArg _ (finish_stay (t := { t with cur := _ }) _ _ ht)
  case join =>
    have hbody : ljoinBody s.start = .stay { s.start with cur := s.cur.settleThread .waiting } := by simp [ljoinBody, hl, hj]
    refine ⟨_, (perform_scalar h (fun _ => threadWord_ljoin.1) threadWord_ljoin.2).trans ?_, settleThread_rests hl .waiting⟩
    rw [hbody]
    exact congrArg _ (finish_stay _ _ rfl)
  case elsewhere =>
    exact perform_scalar_trap h (fun _ => threadWord_ljoin.1) threadWord_ljoin.2 (by simp [ljoinBody, hl, hj, laneError]) rfl
  case exit =>
    have hbody : lexitBody s.start = .stay { s.start with cur := s.cur.settleThread .retired } := by simp [lexitBody, hl]
    refine ⟨_, (perform_scalar h (fun _ => threadWord_lexit.1) threadWord_lexit.2).trans ?_, settleThread_rests hl .retired⟩
    rw [hbody]
    exact congrArg _ (finish_stay _ _ rfl)
  case read =>
    intro j x
    have hbody : lxrdBody d a b s.start = writeDone s.start d x.toNat := by
      simp only [lxrdBody, State.start_cur, hl, readX_thread hl, x, j]
      split <;> rfl
    refine (perform_writes h (threadWord_lxrd d a b) hbody).trans ?_
    rw [writeX_thread hl, ofNat_toNat_self]
  case outside =>
    simp only [List.mem_cons, List.not_mem_nil, or_false] at hi
    obtain rfl | rfl | rfl := hi
    · exact perform_scalar_trap h.1 (fun _ => threadWord_ljoin.1) threadWord_ljoin.2 (by simp [ljoinBody, h.2, laneError]) rfl
    · exact perform_scalar_trap h.1 (fun _ => threadWord_lexit.1) threadWord_lexit.2 (by simp [lexitBody, h.2, laneError]) rfl
    · exact perform_scalar_trap h.1 (fun _ => (threadWord_lxrd d a b).1) (threadWord_lxrd d a b).2 (by simp [lxrdBody, h.2, laneError]) rfl

/-! ### A trap of a lane thread (R120) -/

theorem takeTrap_recorded (h : Hart) (t : Trap) (entry : Option VEntry) :
    (h.takeTrap t entry).tpc = h.ip ∧ (h.takeTrap t entry).tcause = tcauseWord h t ∧ (h.takeTrap t entry).tval = tvalWord h t := by
  unfold Hart.takeTrap
  dsimp only
  split <;> exact ⟨rfl, rfl, rfl⟩

theorem laneTraps : Spec.LaneTraps := by
  intro h l t entry hl hi hc hv
  obtain ⟨hpc, hcause, hval⟩ := takeTrap_recorded h t entry
  refine ⟨?_, ?_, ?_⟩
  · rw [hpc, Hart.ip, hl]
  · rw [hcause, tcauseWord, hl, hv]
    refine congrArg _ ?_
    dsimp only
    rw [Nat.mod_eq_of_lt hi, if_neg (by decide)]
    omega
  · rw [hval, tvalWord, hl]
    simp [or_assoc]

end Sys2Proof.Machine

namespace Sys2Proof

/-- Settles O27: VRGN and LFORK are decided by the word at the address they name; a thread that rests gives the turn on or ends lane mode; and
every trap records the thread it came from. -/
theorem regionsAndLanes : Obligations.RegionsAndLanes := ⟨Machine.vectorRegions, Machine.laneInstructions, Machine.laneTraps⟩

end Sys2Proof
end

section
/-!
SUPPORT. The vector integer operations and the vector compares as instructions (R139, R140, R142): each is the template of R134 with the
operation of its row.
-/

namespace Sys2Proof.Machine

/-! ### Integer operations on groups, on a scalar and on one group (R139) -/

/-- The destination of an instruction that writes a group of integers. -/
theorem intDest {h : Hart} {o : VOp} {k : Shape} (hv : vCheck h o (h.vctx o.m) k = true) (h1 : k.halves = 1)
    (hf : k.formats = [0, 1, 2, 3]) (hn : k.nd = (h.vctx o.m).g) :
    k.halves = 1 ∧ k.nd ∣ 32 ∧ (h.vctx o.m).w ∣ 256 ∧ 0 < (h.vctx o.m).w :=
  ⟨h1, hn ▸ (vctx_g_dvd h o.m).trans (by decide), fmtWidth_int (hf ▸ vCheck_format hv)⟩

/-- An X form reads its scalar once, before its elements (R135). -/
theorem vintX_eq (op : Nat) (o : VOp) : vintX op o = fun s =>
    s.vElem o { formats := [0, 1, 2, 3], n1 := (s.cur.vctx o.m).g, n2 := 0, nd := (s.cur.vctx o.m).g } (s.cur.vctx o.m).w (s.cur.vctx o.m).w
      (s.cur.vctx o.m).w (fun _ a _ d => vintN op (s.cur.vctx o.m).w a (vintScalar s.cur o (s.cur.vctx o.m).w) d) := rfl

theorem vintCmpX_eq (op : Nat) (o : VOp) : vintCmpX op o = fun s =>
    s.vElem o (Spec.maskShape [0, 1, 2, 3] false o (s.cur.vctx o.m)) (s.cur.vctx o.m).w (s.cur.vctx o.m).w 1
      (fun _ a _ _ => vintN op (s.cur.vctx o.m).w a (vintScalar s.cur o (s.cur.vctx o.m).w) 0) := rfl

/-- An instruction and its scalar form whose effects are operation `op` of R96 are the operation that `op` stands for. -/
theorem intOp_of_effect {con conX : VOp → Instr} {f : (w a b d : Nat) → ERes} (op : Nat)
    (hf : ∀ w a b d, vintN op w a b d = f w a b d)
    (effect : ∀ o s, exec (con o) s = performPfx (encode (con o)) s (vint op o) := by exact fun _ _ => rfl)
    (effectX : ∀ o s, exec (conX o) s = performPfx (encode (conX o)) s (vintX op o) := by exact fun _ _ => rfl) :
    Spec.IntOp con conX f := by
  constructor
  · exact vectorOp_of_vElem (w2 := fun c => c.w) (f := fun _ _ c a b d => vintN op c.w a b d) effect (fun _ _ _ _ => rfl)
      (fun _ _ hv => intDest hv rfl rfl rfl) (fun _ _ c _ _ => (hf c.w _ _ _).symm)
  · exact vectorOp_of_vElem (w2 := fun c => c.w) (f := fun h o c a _ d => vintN op c.w a (vintScalar h o c.w) d)
      (fun o s => (effectX o s).trans (by rw [vintX_eq]))
      (fun _ _ _ _ => rfl) (fun _ _ hv => intDest hv rfl rfl rfl) (fun h o c _ _ => (hf c.w _ (vintScalar h o c.w) _).symm)

theorem intOp1_of_effect {con : VOp → Instr} {f : (w a : Nat) → Nat} (op : Nat)
    (hf : ∀ w a d, vintN op w a 0 d = .of (f w a))
    (effect : ∀ o s, exec (con o) s = performPfx (encode (con o)) s (vintUnary op o) := by exact fun _ _ => rfl) :
    Spec.IntOp1 con f :=
  vectorOp_of_vElem (w2 := fun c => c.w) (f := fun _ _ c a _ d => vintN op c.w a 0 d) effect (fun _ _ _ _ => rfl)
    (fun _ _ hv => intDest hv rfl rfl rfl) (fun _ _ c e i => (hf c.w (e i) _).symm)

/-! ### What the operations give (R34, R49, R139) -/

/-- Clamping to the range of a width raises SAT where the exact result lies outside it (R34). -/
theorem satN_eq_clamped (w : Nat) (natural : Bool) (x : Int) :
    satN w natural x = Spec.clamped w (if natural then 0 else -2 ^ (w - 1)) (if natural then 2 ^ w - 1 else 2 ^ (w - 1) - 1) x := by
  unfold satN clampN Spec.clamped
  dsimp only
  generalize (if natural = true then (0 : Int) else -2 ^ (w - 1)) = lo
  generalize (if natural = true then (2 : Int) ^ w - 1 else 2 ^ (w - 1) - 1) = hi
  by_cases hlo : x < lo
  · simp [hlo, flagSAT]
  · by_cases hhi : hi < x
    · simp [hlo, hhi, flagSAT]
    · simp [hlo, hhi]

theorem satN_signed (w : Nat) (x : Int) : satN w false x = Spec.clamped w (-2 ^ (w - 1)) (2 ^ (w - 1) - 1) x := satN_eq_clamped w false x

theorem satN_natural (w : Nat) (x : Int) : satN w true x = Spec.clamped w 0 (2 ^ w - 1) x := satN_eq_clamped w true x

theorem clzN_eq_ite (w a : Nat) : clzN w a = if a = 0 then w else w - 1 - a.log2 := by
  simp only [clzN, beq_iff_eq]

theorem popcN_eq_countP (w a : Nat) : popcN w a = (List.range w).countP (fun k => a.testBit k) := by
  rw [popcN_eq_filter, List.countP_eq_length_filter]

/-- Each integer operation on two operands is its row of the table (R139). -/
theorem intTable_holds : ∀ p ∈ Spec.intTable, Spec.IntOp p.1 p.2.1 p.2.2 := by
  simp only [Spec.intTable, List.forall_mem_cons, List.not_mem_nil, false_imp_iff, implies_true, and_true]
  refine ⟨?vadd, ?vsub, ?vrsub, ?vmul, ?vmulh, ?vmulhn, ?vmacc, ?vand, ?vor, ?vxor, ?vshl, ?vshr, ?vsra, ?vmin, ?vmax, ?vminn, ?vmaxn,
    ?vsadd, ?vssub, ?vsaddn, ?vssubn⟩
  case vadd => exact intOp_of_effect 0 (fun _ _ _ _ => rfl)
  case vsub => exact intOp_of_effect 1 (fun _ _ _ _ => rfl)
  case vrsub => exact intOp_of_effect 2 (fun _ _ _ _ => rfl)
  case vmul => exact intOp_of_effect 3 (fun _ _ _ _ => rfl)
  case vmulh => exact intOp_of_effect 4 (fun _ _ _ _ => rfl)
  case vmulhn => exact intOp_of_effect 5 (fun _ _ _ _ => rfl)
  case vmacc => exact intOp_of_effect 6 (fun _ _ _ _ => rfl)
  case vand => exact intOp_of_effect 7 (fun _ _ _ _ => rfl)
  case vor => exact intOp_of_effect 8 (fun _ _ _ _ => rfl)
  case vxor => exact intOp_of_effect 9 (fun _ _ _ _ => rfl)
  case vshl => exact intOp_of_effect 10 (fun _ _ _ _ => rfl)
  case vshr => exact intOp_of_effect 11 (fun _ _ _ _ => rfl)
  case vsra => exact intOp_of_effect 12 (fun _ _ _ _ => rfl)
  case vmin => exact intOp_of_effect 13 (fun _ _ _ _ => rfl)
  case vmax => exact intOp_of_effect 14 (fun _ _ _ _ => rfl)
  case vminn => exact intOp_of_effect 15 (fun _ _ _ _ => rfl)
  case vmaxn => exact intOp_of_effect 16 (fun _ _ _ _ => rfl)
  case vsadd => exact intOp_of_effect 17 (fun _ _ _ _ => satN_signed ..)
  case vssub => exact intOp_of_effect 18 (fun _ _ _ _ => satN_signed ..)
  case vsaddn => exact intOp_of_effect 19 (fun w a b _ => satN_natural w (a + b))
  case vssubn => exact intOp_of_effect 20 (fun _ _ _ _ => satN_natural ..)

/-- Each integer operation on one group counts what its row of the table says (R49, R139). -/
theorem intTable1_holds : ∀ p ∈ Spec.intTable1, Spec.IntOp1 p.1 p.2 := by
  simp only [Spec.intTable1, List.forall_mem_cons, List.not_mem_nil, false_imp_iff, implies_true, and_true]
  refine ⟨?vclz, ?vctz, ?vpopc⟩
  case vclz => exact intOp1_of_effect 21 (fun w a _ => congrArg ERes.of (clzN_eq_ite w a))
  case vctz => exact intOp1_of_effect 22 (fun w a _ => congrArg ERes.of (ctzN_eq w a))
  case vpopc => exact intOp1_of_effect 23 (fun w a _ => congrArg ERes.of (popcN_eq_countP w a))

/-! ### Compares (R140, R142) -/

theorem intCompare_of_effect {con conX : VOp → Instr} {f : (w a b : Nat) → ERes} (op : Nat)
    (hf : ∀ w a b, vintN op w a b 0 = f w a b)
    (effect : ∀ o s, exec (con o) s = performPfx (encode (con o)) s (vintCmp op o) := by exact fun _ _ => rfl)
    (effectX : ∀ o s, exec (conX o) s = performPfx (encode (conX o)) s (vintCmpX op o) := by exact fun _ _ => rfl) :
    Spec.IntCompare con conX f := by
  constructor
  · exact vectorOp_of_vElem (w2 := fun c => c.w) (f := fun _ _ c a b _ => vintN op c.w a b 0) effect (fun _ _ _ _ => rfl)
      (fun _ _ _ => ⟨rfl, one_dvd _, one_dvd _, Nat.one_pos⟩) (fun _ _ c _ _ => (hf c.w _ _).symm)
  · exact vectorOp_of_vElem (w2 := fun c => c.w) (f := fun h o c a _ _ => vintN op c.w a (vintScalar h o c.w) 0)
      (fun o s => (effectX o s).trans (by rw [vintCmpX_eq]))
      (fun _ _ _ _ => rfl) (fun _ _ _ => ⟨rfl, one_dvd _, one_dvd _, Nat.one_pos⟩)
      (fun h o c _ _ => (hf c.w _ (vintScalar h o c.w)).symm)

theorem fpCompare_of_effect {con conX : VOp → Instr} {f : (x y : Ex) → ERes} (op : Nat)
    (hf : ∀ g a b, vfpN op g g 0 a b 0 = f (readF g a) (readF b.fmt b.bits))
    (effect : ∀ o s, exec (con o) s = performPfx (encode (con o)) s (vfpCmp op o) := by exact fun _ _ => rfl)
    (effectX : ∀ o s, exec (conX o) s = performPfx (encode (conX o)) s (vfpCmpX op o) := by exact fun _ _ => rfl) :
    Spec.FpCompare con conX f := by
  constructor
  · exact vectorOp_of_vElem (w2 := fun c => c.w) (f := fun _ _ c a b _ => vfpN op (ffmt c.fmt) (ffmt c.fmt) 0 a { bits := b, fmt := ffmt c.fmt } 0)
      effect (fun _ _ _ _ => rfl) (fun _ _ _ => ⟨rfl, one_dvd _, one_dvd _, Nat.one_pos⟩)
      (fun h o c e i => (hf (ffmt c.fmt) (e i) { bits := Spec.other h o.vs2 c i, fmt := ffmt c.fmt }).symm)
  · exact vectorOp_of_vElem (w2 := fun c => c.w) (f := fun h o c a _ _ => vfpN op (ffmt c.fmt) (ffmt c.fmt) 0 a (vfpScalar h o) 0)
      effectX (fun _ _ _ _ => rfl) (fun _ _ _ => ⟨rfl, one_dvd _, one_dvd _, Nat.one_pos⟩)
      (fun h o c e i => (hf (ffmt c.fmt) (e i) (vfpScalar h o)).symm)

/-- A mask bit is 1 exactly where its condition holds. -/
theorem of_b2n {b : Bool} {p : Prop} [Decidable p] (h : b = true ↔ p) : ERes.of (b2n b) = Spec.bit p := by
  simp only [Spec.bit, b2n, h]

/-- A comparison of exact values is the relation of R142: 0 beside a NaN, and else what the relation says. -/
theorem cmpArg_eq_relation (rel : Ex → Ex → Bool) (quiet : Bool) (x y : Ex) : cmpArg rel quiet x y = Spec.relation quiet rel x y := by
  simp only [cmpArg, Spec.relation, Spec.bit, b2n, Bool.or_eq_true, Bool.not_eq_true', or_assoc]
  rfl

/-- The unordered compare is 1 exactly beside a NaN (R142). -/
theorem vfpN_unordered (g : FFmt) (a : Nat) (b : FArg) : vfpN 21 g g 0 a b 0 =
    { val := if (readF g a).isNan ∨ (readF b.fmt b.bits).isNan then 1 else 0
      flags := if (readF g a).isSig ∨ (readF b.fmt b.bits).isSig then 0x10 else 0 } := by
  simp only [← Bool.or_eq_true]
  rfl

end Sys2Proof.Machine

namespace Sys2Proof

/-- Settles O13: each instruction is the template of R134 with the operation of its row, and each operation is what its row says. -/
theorem vectorInteger : Obligations.VectorInteger := ⟨Machine.intTable_holds, Machine.intTable1_holds⟩

/-- Settles O14: each compare is the template of R134 with one mask bit for each element, and each bit is its relation of the elements. -/
theorem vectorCompares : Obligations.VectorCompares := by
  refine ⟨?vmseq, ?vmsne, ?vmslt, ?vmsle, ?vmsltn, ?vmslen, ?vmfeq, ?vmflt, ?vmfle, ?vmfun⟩
  case vmseq => exact Machine.intCompare_of_effect 24 (fun _ _ _ => Machine.of_b2n beq_iff_eq)
  case vmsne => exact Machine.intCompare_of_effect 25 (fun _ _ _ => Machine.of_b2n bne_iff_ne)
  case vmslt => exact Machine.intCompare_of_effect 26 (fun _ _ _ => Machine.of_b2n decide_eq_true_iff)
  case vmsle => exact Machine.intCompare_of_effect 27 (fun _ _ _ => Machine.of_b2n decide_eq_true_iff)
  case vmsltn => exact Machine.intCompare_of_effect 28 (fun _ _ _ => Machine.of_b2n decide_eq_true_iff)
  case vmslen => exact Machine.intCompare_of_effect 29 (fun _ _ _ => Machine.of_b2n decide_eq_true_iff)
  case vmfeq => exact Machine.fpCompare_of_effect 18 (fun _ _ _ => Machine.cmpArg_eq_relation ..)
  case vmflt => exact Machine.fpCompare_of_effect 19 (fun _ _ _ => Machine.cmpArg_eq_relation ..)
  case vmfle => exact Machine.fpCompare_of_effect 20 (fun _ _ _ => Machine.cmpArg_eq_relation ..)
  case vmfun => exact Machine.fpCompare_of_effect 21 Machine.vfpN_unordered

end Sys2Proof
end

section
/-!
SUPPORT. The conversions as instructions (R149 to R151): each is the template of R134 with the rounding or the block product it makes; and the
state in which VBENC (R152) does not leave what its statement says.
-/

namespace Sys2Proof.Machine

/-! ### Between FP and integers (R149, R150) -/

/-- The format pairs of VFCVT (R149). -/
theorem vfcvtPair_iff (d s : Nat) : vfcvtPair d s = true ↔ (d, s) ∈ [(4, 2), (2, 4), (6, 1), (1, 6), (5, 1), (1, 5)] := List.contains_iff_mem

/-- The operands of VFCVT: one of the pairs of R149. -/
def cvtShape (o : VOp) (c : VCtx) : Shape :=
  { formats := if (c.fmt, o.vs2.toNat % 16) ∈ [(4, 2), (2, 4), (6, 1), (1, 6), (5, 1), (1, 5)] then [c.fmt] else [],
    n1 := c.g, n2 := 0, nd := c.g, rounds := true }

theorem vfcvtBody_eq (o : VOp) (s : State) : vfcvtBody o s =
    s.vElem o (cvtShape o (s.cur.vctx o.m)) (s.cur.vctx o.m).w (s.cur.vctx o.m).w (s.cur.vctx o.m).w
      (fun _ a _ _ => .ofF (if (s.cur.vctx o.m).fmt < 4 then toIntEx s.cur.mode (s.cur.vctx o.m).w false (readF (ffmt (o.vs2.toNat % 16)) a)
        else deliver (ffmt (s.cur.vctx o.m).fmt) s.cur.mode (ofIntBits (s.cur.vctx o.m).w false a, 0))) := by
  unfold vfcvtBody cvtShape
  simp only [vfcvtPair_iff, fmtIsInt, decide_eq_true_eq]
  rfl

theorem vfcvtPair_fmt {d s : Nat} (h : (d, s) ∈ [(4, 2), (2, 4), (6, 1), (1, 6), (5, 1), (1, 5)]) : d ∈ List.range 13 := by
  simp only [List.mem_cons, Prod.mk.injEq, List.not_mem_nil, or_false] at h
  exact List.mem_range.mpr (by omega)

theorem cvtDest {h : Hart} {o : VOp} (hv : vCheck h o (h.vctx o.m) (cvtShape o (h.vctx o.m)) = true) :
    (cvtShape o (h.vctx o.m)).halves = 1 ∧ (cvtShape o (h.vctx o.m)).nd ∣ 32 ∧ (h.vctx o.m).w ∣ 256 ∧ 0 < (h.vctx o.m).w := by
  refine ⟨rfl, (vctx_g_dvd h o.m).trans (by decide), fmtWidth_any ?_⟩
  have hf := vCheck_format hv
  unfold cvtShape at hf
  dsimp only at hf
  split at hf
  · exact vfcvtPair_fmt ‹_›
  · cases hf

theorem vfcvt_converts : Spec.VectorOp .vfcvt cvtShape (fun c => c.w) (fun c => c.w) Spec.keepsNone
    (fun h o c e i => .ofF (if c.fmt < 4 then toIntEx h.mode c.w false (readF (ffmt (o.vs2.toNat % 16)) (e i))
      else deliver (ffmt c.fmt) h.mode (ofIntBits c.w false (e i), 0))) :=
  vectorOp_of_vElem (w2 := fun c => c.w)
    (f := fun h o c a _ _ => .ofF (if c.fmt < 4 then toIntEx h.mode c.w false (readF (ffmt (o.vs2.toNat % 16)) a)
      else deliver (ffmt c.fmt) h.mode (ofIntBits c.w false a, 0)))
    (fun o _ => congrArg (performPfx _ _) (funext (vfcvtBody_eq o))) (fun _ _ _ _ => rfl) (fun _ _ hv => cvtDest hv) (fun _ _ _ _ _ => rfl)

/-! ### Widening and narrowing (R149, R150) -/

theorem vfwcvt_widens : Spec.VectorOp .vfwcvt (Spec.wideShape [5, 6, 7, 8] (fun c => c.g) (fun o => o.vs2.toNat != 4)) (fun c => c.w)
    (fun _ => 32) Spec.keepsNone (fun _ _ c e i => .ofF (roundF fp32 0 false (readF (ffmt c.fmt) (e i)))) :=
  vectorOp_of_vElem (w2 := fun c => c.w) (f := fun _ _ c a _ _ => .ofF (roundF fp32 0 false (readF (ffmt c.fmt) a))) (fun _ _ => rfl)
    (fun _ _ _ _ => rfl) (fun _ _ hv => ⟨rfl, (wideDest hv rfl rfl rfl).2, by decide, by decide⟩) (fun _ _ _ _ _ => rfl)

/-- The operands of VFNCVT: a group of FP32, and .SAT for the 8-bit formats only. -/
def narrowShape (o : VOp) (c : VCtx) : Shape :=
  { formats := [5, 6, 7, 8], n1 := 32 / c.w * c.g, n2 := 0, nd := c.g, rounds := true,
    clash := 32 / c.w * c.g > 8 || (!o.q && overlap o.vd.toNat c.g o.vs1.toNat (32 / c.w * c.g)) || o.vs2.toNat != 4 || (o.i && c.w != 8) }

theorem narrowDest {h : Hart} {o : VOp} (hv : vCheck h o (h.vctx o.m) (narrowShape o (h.vctx o.m)) = true) :
    (narrowShape o (h.vctx o.m)).halves = 1 ∧ (narrowShape o (h.vctx o.m)).nd ∣ 32 ∧ (h.vctx o.m).w ∣ 256 ∧ 0 < (h.vctx o.m).w :=
  ⟨rfl, (vctx_g_dvd h o.m).trans (by decide), fmtWidth_any ((show [5, 6, 7, 8] ⊆ List.range 13 by decide) (vCheck_format hv))⟩

theorem vfncvt_narrows : Spec.VectorOp .vfncvt narrowShape (fun _ => 32) (fun c => c.w) Spec.keepsNone
    (fun h o c e i => .ofF (roundF (ffmt c.fmt) h.mode o.i (readF fp32 (e i)))) :=
  vectorOp_of_vElem (w2 := fun _ => 32) (f := fun h o c a _ _ => .ofF (roundF (ffmt c.fmt) h.mode o.i (readF fp32 a))) (fun _ _ => rfl)
    (fun _ _ _ _ => rfl) (fun _ _ hv => narrowDest hv) (fun _ _ _ _ _ => rfl)

/-! ### Decoding blocks (R151) -/

/-- The operands of VBDEC: the elements in one group, the scale words in the next. -/
def decShape (o : VOp) (c : VCtx) : Shape :=
  { formats := [9, 10, 11, 12], n1 := 2 * c.g, n2 := 0, nd := 32 / c.w * c.g,
    clash := 32 / c.w * c.g > 8 || overlap o.vd.toNat (32 / c.w * c.g) o.vs1.toNat (2 * c.g) }

theorem blockElem_eq_decoded (fmt scale x : Nat) : blockElem fmt scale x = Spec.decodedElement fmt scale x := by
  unfold blockElem Spec.decodedElement
  cases readScale fmt scale <;> cases readBlockElem fmt x <;> rfl

/-- What VBDEC makes of element i of the registers of a hart. -/
def decodedAt (h : Hart) (o : VOp) (c : VCtx) (i : Nat) : ERes :=
  Spec.decodedElement c.fmt (elemN (h.groupN (o.vs1.toNat + c.g) c.g) 32 (i / c.blk)) (Spec.other h o.vs1 c i)

theorem vbdecBody_eq (o : VOp) (s : State) : vbdecBody o s =
    if !vCheck s.cur o (s.cur.vctx o.m) (decShape o (s.cur.vctx o.m)) then illegalV s else
    s.elementwise (s.cur.vctx o.m) (VMods.of s.cur o)
      (hiDest o.vd.toNat (32 / (s.cur.vctx o.m).w * (s.cur.vctx o.m).g) 32 ::
        s.cur.copyDest (hiDest o.vd.toNat (32 / (s.cur.vctx o.m).w * (s.cur.vctx o.m).g) 32))
      { elem := fun _ => 0 } (decodedAt s.cur o (s.cur.vctx o.m)) := by
  unfold vbdecBody
  simp only [blockElem_eq_decoded]
  rfl

/-- The block formats are 8 or 4 bits wide (R33). -/
theorem fmtWidth_block {f : Nat} (h : f ∈ [9, 10, 11, 12]) : 32 / fmtWidth f ∣ 8 := by
  revert f
  decide

/-- The destination of VBDEC is a group of at most 8 registers of FP32. -/
theorem decDest {h : Hart} {o : VOp} (hv : vCheck h o (h.vctx o.m) (decShape o (h.vctx o.m)) = true) :
    (decShape o (h.vctx o.m)).nd ∣ 32 := by
  have hclash := vCheck_noClash hv
  have hwide : 32 / (h.vctx o.m).w * (h.vctx o.m).g ∣ 8 * 8 := Nat.mul_dvd_mul (fmtWidth_block (vCheck_format hv)) (vctx_g_dvd h o.m)
  obtain ⟨k, -, hk⟩ := (Nat.dvd_prime_pow Nat.prime_two (m := 6)).mp hwide
  have hle : 2 ^ k ≤ 2 ^ 3 := by
    simp only [decShape, hk, Bool.or_eq_false_iff, decide_eq_false_iff_not] at hclash
    omega
  rw [show (decShape o (h.vctx o.m)).nd = _ from hk]
  exact (Nat.pow_dvd_pow 2 ((Nat.pow_le_pow_iff_right (by decide)).mp hle)).trans (by decide)

/-- VBDEC decodes each element under its block's scale word, or raises its trap (R151). -/
theorem vbdec_decodes : Spec.VectorFrom .vbdec decShape (fun s _ _ => some ({ elem := fun _ => 0 }, s)) id (fun _ _ => 32) Spec.keepsNone
    (fun h o c _ i => decodedAt h o c i) := by
  intro o s _ hx hl hd
  refine ⟨fun hbad => ?refused, fun a u hv hs ha hub hus ok => ?completes⟩
  case refused =>
    have hv := hbad.resolve_right (by simp)
    refine performPfx_illegalV (body := vbdecBody o) hx hl hd ((vbdecBody_eq o s.start).trans (if_pos ?_))
    rw [State.start_cur, hv]
    rfl
  case completes =>
    cases hs
    obtain ⟨d1, d2, d3⟩ := vCheck_dests (t := s.cur) (w := 32) (pick := fun r => r.val) hv rfl (decDest hv) (by decide) (by decide) rfl
    obtain ⟨h, hdone, hwritten⟩ := elementwise_done (s := s.start) (kept := fun _ => false) (vctx_regBits s.cur o.m) ha hx.2.2 ok d1 d2 d3
    refine ⟨h, performPfx_vectorDone (body := vbdecBody o) hx hl hd (((vbdecBody_eq o s.start).trans (if_neg ?_)).trans hdone) hub
      (hwritten.strikes.trans hus), hwritten⟩
    rw [State.start_cur, hv]
    decide

/-- The conversions and the decoding of blocks do what R149 to R151 say. -/
theorem vectorConversions : Spec.VectorConversions := ⟨vfcvt_converts, vfwcvt_widens, vfncvt_narrows, vbdec_decodes⟩

/-! ### VBENC with its copy at its scale words (R64, R152) -/

theorem advance_keeps_registers (h : Hart) : h.advance.v = h.v ∧ h.advance.lmap = h.lmap := by
  unfold Hart.advance
  split
  · exact ⟨rfl, rfl⟩
  · exact ⟨rfl, rfl⟩
  · unfold Hart.nextPc
    split
    · split <;> exact ⟨rfl, rfl⟩
    · exact ⟨rfl, rfl⟩

theorem groupN_completed (s : State) (base n : Nat) : s.completed.cur.groupN base n = s.cur.groupN base n :=
  groupN_of (advance_keeps_registers s.cur).1 (advance_keeps_registers s.cur).2 base n

/-- `VBENC v2, v4`. -/
def encodeV2 : VOp := ⟨2, 4, 0, false, false, false, false, false, false⟩

/-- A strip of 32 Taper8 elements in blocks of 8, one register to a group, after a PFX that asks for a copy at v3: the register of the scale words of
`VBENC v2, v4`.  The FP32 values in v4 to v7 are 0, and word 4 of v3 holds 1. -/
def copyOnScales : State :=
  { State.reset with cur := { Hart.blank 0 with
      status := .running, lmap := 1, vtype := 9, vl := 32, vlmax := 32, pfxs := 0x8000000000030740
      v := (Vector.replicate 32 0).set 3 ((1#160 <<< 128).setWidth 4096) } }

/-- Scale word k in v3 after an outcome. -/
def scaleAfter (k : Nat) : Host.Outcome State Fault Refusal → Option Nat
  | .next t => some (elemN (t.cur.groupN 3 1) 32 k)
  | _ => none

set_option maxRecDepth 8000 in
/-- The strip has 4 blocks, so word 4 lies beyond their scale words: the codes of the copy stand there. -/
theorem scaleAfter_copyOnScales : scaleAfter 4 (exec (.vbenc encodeV2) copyOnScales) = some 0 := by decide

/-- Where the copy of the codes goes to the register of the scale words, the words beyond the last block take codes and do not keep what they
held, although `ta` is 0. -/
theorem not_blockEncode : ¬ Spec.BlockEncode := by
  intro h
  obtain ⟨-, completes⟩ := h encodeV2 copyOnScales (by decide) ⟨rfl, rfl, rfl⟩ rfl rfl
  obtain ⟨t, hexec, -, -, hscales, -⟩ := completes _ copyOnScales.start (by decide) rfl rfl rfl rfl (by decide)
    (fun i _ _ _ => Nat.and_zero _)
  have hkept : elemN (t.groupN 3 1) 32 4 = 1 := (hscales 4 (by decide)).trans (by decide)
  have hword := scaleAfter_copyOnScales
  rw [hexec, scaleAfter, groupN_completed] at hword
  exact absurd (hkept.symm.trans (Option.some.inj hword)) (by decide)

end Sys2Proof.Machine

namespace Sys2Proof

/-- Of O22 the conversions hold, and its statement of VBENC does not: it leaves out that a copy (R64) may go to the registers of the scale
words. -/
theorem vectorConversions_not_blockEncode : Spec.VectorConversions ∧ ¬ Spec.BlockEncode := ⟨Machine.vectorConversions, Machine.not_blockEncode⟩

/-- Refutes O22: `VBENC v2, v4` with a copy at v3 leaves codes in v3 beyond its last scale word, where the statement keeps the old bits. -/
theorem not_vectorConverts : ¬ Obligations.VectorConverts := fun h => vectorConversions_not_blockEncode.2 h.2

end Sys2Proof
end

section
/-!
SUPPORT. The mask instructions (R173, R174): the mask operations, the mask-to-scalar instructions by the strip's first position, and the
re-issued entry under which that position is not `vstart`.
-/

namespace Sys2Proof.Machine

/-! ### Mask operations (R173) -/

/-- An instruction whose effect is a mask operation is that operation on the bits of its sources. -/
theorem maskOp_of_effect {con : VOp → Instr} {two : Bool} {f : Bool → Bool → Bool}
    (effect : ∀ o s, exec (con o) s = performPfx (encode (con o)) s (vmask two f o) := by exact fun _ _ => rfl) :
    Spec.MaskOp con two f := by
  have hbit : ∀ a b : Nat, ERes.of (b2n (f (a == 1) (b == 1))) = Spec.bit (f (a = 1) (b = 1) = true) := fun a b =>
    (of_b2n Iff.rfl).trans (by simp only [beq_eq_decide])
  exact vectorOp_of_vElem (w2 := fun _ => 1) (f := fun _ _ _ a b _ => .of (b2n (f (a == 1) (b == 1)))) effect (fun _ _ _ _ => rfl)
    (fun _ _ _ => ⟨rfl, one_dvd _, one_dvd _, Nat.one_pos⟩) (fun _ _ _ _ _ => (hbit ..).symm)

/-- The mask operations are their functions of two bits, or of one. -/
theorem maskOperations : Spec.MaskOp .vmand true (fun a b => a && b) ∧ Spec.MaskOp .vmor true (fun a b => a || b) ∧
    Spec.MaskOp .vmxor true (fun a b => a != b) ∧ Spec.MaskOp .vmandn true (fun a b => a && !b) ∧ Spec.MaskOp .vmnot false (fun a _ => !a) :=
  ⟨maskOp_of_effect, maskOp_of_effect, maskOp_of_effect, maskOp_of_effect, maskOp_of_effect⟩

/-! ### The mask-to-scalar instructions (R174) -/

/-- What R174 says, by the first position of the strip: a mask-to-scalar instruction is refused where its PFX does not fit or that position is not
0, and else gives its number of the bits of vs1 that are granted and governed. -/
def CountsMask (con : VOp → Instr) (f : List Nat → Word) : Prop :=
  ∀ (o : VOp) (s : State), Executes s → s.cur.lane = none → s.cur.dropping = false →
    let c := s.cur.vctx o.m
    let bits := (List.range (256 * c.lanes)).filter (fun i => c.granted i && c.gov i && (s.cur.vN o.vs1.toNat).testBit i)
    let ok := pfxFits s.cur.pfx { pred := o.m } = true ∧ s.cur.firstPos = 0
    (¬ ok → exec (con o) s = .next (s.start.trapWord (encode (con o)) { cause := 1, tval := 0, vec := true } s.start)) ∧
    (ok → exec (con o) s = .next ({ s.start with cur := s.cur.wx o.vd (f bits) } : State).completed)

theorem countedBits_eq (h : Hart) (o : VOp) (c : VCtx) : countedBits h o c =
    (List.range (256 * c.lanes)).filter (fun i => c.granted i && c.gov i && (h.vN o.vs1.toNat).testBit i) := by
  unfold countedBits
  simp only [bitN_eq_testBit]

theorem vmaskToX_eq (f : List Nat → Word) (o : VOp) (s : State) : vmaskToX f o s =
    if pfxFits s.cur.pfx { pred := o.m } = true ∧ s.cur.firstPos = 0
    then .done { s with cur := s.cur.wx o.vd (f (countedBits s.cur o (s.cur.vctx o.m))) } else illegalV s := by
  have hstart : (s.cur.vctx o.m).vstart = s.cur.firstPos := rfl
  unfold vmaskToX
  by_cases hp : pfxFits s.cur.pfx { pred := o.m } = true <;> by_cases hs : s.cur.firstPos = 0 <;> simp [hp, hs, hstart]

theorem countsMask_of_effect {con : VOp → Instr} {f g : List Nat → Word} (hg : ∀ l, f l = g l)
    (effect : ∀ o s, exec (con o) s = performPfx (encode (con o)) s (vmaskToX f o) := by exact fun _ _ => rfl) : CountsMask con g := by
  intro o s hx hl hd
  obtain ⟨-, hstrikes, -⟩ := id hx
  refine ⟨fun hbad => (effect o s).trans ?refused, fun hok => (effect o s).trans ?counts⟩
  case refused => exact performPfx_illegalV hx hl hd ((vmaskToX_eq f o s.start).trans (if_neg hbad))
  case counts =>
    rw [← hg, ← countedBits_eq]
    exact performPfx_vectorDone hx hl hd ((vmaskToX_eq f o s.start).trans (if_pos hok)) rfl ((Hart.wx_strikes ..).trans hstrikes)

/-- VMPOPC gives how many bits there are, VMFIRST the lowest of them or −1, and VMANY whether there is one (R49, R174). -/
theorem maskToScalars : CountsMask .vmpopc (fun l => BitVec.ofNat 64 l.length) ∧
    CountsMask .vmfirst (fun l => if l = [] then BitVec.allOnes 64 else BitVec.ofNat 64 (l.headD 0)) ∧
    CountsMask .vmany (fun l => if l = [] then 0 else 1) := by
  refine ⟨countsMask_of_effect fun _ => rfl, countsMask_of_effect fun l => ?first, countsMask_of_effect fun l => ?any⟩
  case first => cases l <;> rfl
  case any => cases l <;> rfl

/-! ### An entry whose first position is not `vstart` -/

/-- `VMPOPC x1, v0` of the hart below. -/
def popcount : VOp := ⟨1, 0, 0, false, false, false, false, false, false⟩

/-- A hart that issues again an entry which stopped at queue element 5 with nothing written: `vstart` is 5 and the first position 0. -/
def stoppedAtFive : State :=
  { State.reset with cur := { Hart.blank 0 with
      status := .running, lmap := 1, vl := 8, vlmax := 32, vstart := 5,
      reissue := some { word := vmpopcWord popcount, xs := Vector.replicate 32 0, pfxs := 0, held := none, start := some (5, 0) } } }

/-- There `vstart` is not 0 and VMPOPC completes. -/
theorem not_maskToX_vmpopc : ¬ Spec.MaskToX .vmpopc (fun l => BitVec.ofNat 64 l.length) := by
  intro h
  have hx : Executes stoppedAtFive := ⟨rfl, rfl, rfl⟩
  obtain ⟨hpopc, -⟩ := maskToScalars
  obtain ⟨-, counts⟩ := hpopc popcount stoppedAtFive hx rfl rfl
  obtain ⟨refused, -⟩ := h popcount stoppedAtFive hx rfl rfl
  have hsame := (counts (by decide)).symm.trans (refused (by decide))
  have hstatus := congrArg (fun t => t.cur.status) (Host.Outcome.next.inj hsame)
  exact absurd hstatus (by decide)

end Sys2Proof.Machine

namespace Sys2Proof

/-- Of O17 the mask operations hold, and the mask-to-scalar instructions by the first position of the strip; its statement of VMPOPC, by `vstart`,
does not. -/
theorem maskOperations_not_maskToX : (Spec.MaskOp .vmand true (fun a b => a && b) ∧ Spec.MaskOp .vmor true (fun a b => a || b) ∧
      Spec.MaskOp .vmxor true (fun a b => a != b) ∧ Spec.MaskOp .vmandn true (fun a b => a && !b) ∧
      Spec.MaskOp .vmnot false (fun a _ => !a)) ∧
    Machine.CountsMask .vmpopc (fun l => BitVec.ofNat 64 l.length) ∧ ¬ Spec.MaskToX .vmpopc (fun l => BitVec.ofNat 64 l.length) := by
  obtain ⟨hpopc, -⟩ := Machine.maskToScalars
  exact ⟨Machine.maskOperations, hpopc, Machine.not_maskToX_vmpopc⟩

/-- Refutes O17: a re-issued entry that stopped at queue element 5 with nothing written has `vstart` 5 and first position 0, and a VMPOPC issued so
completes, where the statement has it refused. -/
theorem not_vectorMasks : ¬ Obligations.VectorMasks := by
  rintro ⟨-, -, -, -, -, hpopc, -⟩
  exact Machine.not_maskToX_vmpopc hpopc

end Sys2Proof
end

section
/-!
SUPPORT. The vector moves (R172): VMOVE and VSPLAT by the template of R134, VMVXS as element 0 of its source, and VMVSX as a strip of at most
one element.
-/

namespace Sys2Proof.Machine

/-! ### VMOVE and VSPLAT -/

/-- VMOVE copies the elements of vs1. -/
theorem vmove_copies : Spec.VectorOp .vmove (fun _ c => { formats := List.range 13, n1 := c.g, n2 := 0, nd := c.g }) (fun c => c.w)
    (fun c => c.w) Spec.keepsNone (fun _ _ _ e i => .of (e i)) :=
  vectorOp_of_vElem (w2 := fun c => c.w) (f := fun _ _ _ a _ _ => .of a) (fun _ _ => rfl) (fun _ _ _ _ => rfl)
    (fun _ _ hv => permDest hv rfl rfl rfl) (fun _ _ _ _ _ => rfl)

/-- VSPLAT writes its x register to every active element. -/
theorem vsplat_spreads : Spec.VectorOp .vsplat (fun _ c => { formats := List.range 13, n1 := 0, n2 := 0, nd := c.g }) (fun c => c.w)
    (fun c => c.w) Spec.keepsNone (fun h o _ _ _ => .of (h.ox o.vs2).toNat) :=
  vectorOp_of_vElem (w2 := fun c => c.w) (f := fun h o _ _ _ _ => .of (h.ox o.vs2).toNat) (fun _ _ => rfl) (fun _ _ _ _ => rfl)
    (fun _ _ hv => permDest hv rfl rfl rfl) (fun _ _ _ _ _ => rfl)

/-! ### VMVXS -/

/-- The number VMVXS delivers: an element of an integer format with its sign. -/
def moveValue (c : VCtx) (x : Nat) : Word := if c.fmt < 4 then BitVec.ofInt 64 (sintN c.w x) else BitVec.ofNat 64 x

/-- VMVXS is accepted with no field of a PFX and an aligned group, or a queue. -/
def MoveFits (h : Hart) (o : VOp) : Prop := pfxFits h.pfx {} = true ∧ (o.q = true ∨ o.vs1.toNat % (h.vctx false).g = 0)

/-- A group that checks 3 and 4 size has at most 8 registers, so only its alignment can be refused. -/
theorem groupOk_iff_aligned (h : Hart) (m : Bool) (base : Nat) : groupOk base (h.vctx m).g = true ↔ base % (h.vctx m).g = 0 := by
  have hle : (h.vctx m).g ≤ 16 := (Nat.le_of_dvd (by decide) (vctx_g_dvd h m)).trans (by decide)
  simp [groupOk, hle]

theorem moveFits_iff (h : Hart) (o : VOp) :
    (!pfxFits h.pfx {} || !(o.q || groupOk o.vs1.toNat (h.vctx false).g)) = false ↔ MoveFits h o := by
  cases hq : o.q <;> simp [MoveFits, groupOk_iff_aligned, hq]

theorem moveValue_eq (c : VCtx) (x : Nat) : BitVec.ofNat 64 (if fmtIsInt c.fmt then wrapN (sintN c.w x) 64 else x) = moveValue c x := by
  unfold moveValue fmtIsInt
  by_cases hf : c.fmt < 4
  · simp only [hf, decide_true, if_true, ofNat_wrapN]
  · simp only [hf, decide_false, Bool.false_eq_true, if_false]

theorem vmvxsBody_refused {o : VOp} {s : State} (h : ¬ MoveFits s.cur o ∨ s.src1 o (s.cur.vctx false) (s.cur.vctx false).w
    (s.cur.vctx false).g = none) : vmvxsBody o s = illegalV s := by
  unfold vmvxsBody
  dsimp only
  rcases h with h | h
  · rw [if_pos (Bool.of_not_eq_false fun e => h ((moveFits_iff ..).mp e))]
  · rw [h, ite_self]

theorem vmvxsBody_moves {o : VOp} {s u : State} {a : Src} (h : MoveFits s.cur o) (ha : a.limit = none)
    (hs : s.src1 o (s.cur.vctx false) (s.cur.vctx false).w (s.cur.vctx false).g = some (a, u)) : vmvxsBody o s =
      .done { u with cur := ({ u.cur with vstart := 0 } : Hart).wx o.vd (moveValue (s.cur.vctx false) (a.elem 0)) } := by
  unfold vmvxsBody
  dsimp only
  rw [(moveFits_iff ..).mpr h, hs]
  simp only [Bool.false_eq_true, if_false, ha, moveValue_eq]

/-- VMVXS is refused, or delivers element 0 of its source, whatever vl and `vstart` hold. -/
theorem vmvxs_moves {o : VOp} {s : State} (hx : Executes s) (hl : s.cur.lane = none) (hd : s.cur.dropping = false) :
    let src := s.start.src1 o (s.cur.vctx false) (s.cur.vctx false).w (s.cur.vctx false).g
    (¬ MoveFits s.cur o ∨ src = none → exec (.vmvxs o) s =
      .next (s.start.trapWord (encode (.vmvxs o)) { cause := 1, tval := 0, vec := true } s.start)) ∧
    (∀ a u, MoveFits s.cur o → src = some (a, u) → a.limit = none → u.blocked = none → u.cur.strikes = [] →
      exec (.vmvxs o) s = .next
        ({ u with cur := ({ u.cur with vstart := 0 } : Hart).wx o.vd (moveValue (s.cur.vctx false) (a.elem 0)) } : State).completed) :=
  ⟨fun h => performPfx_illegalV (body := vmvxsBody o) hx hl hd (vmvxsBody_refused h),
    fun _ _ h hs ha hub hus => performPfx_vectorDone (body := vmvxsBody o) hx hl hd (vmvxsBody_moves (s := s.start) h ha hs) hub
      ((Hart.wx_strikes ..).trans hus)⟩

/-! ### VMVSX -/

/-- The operands of VMVSX. -/
def moveShape (c : VCtx) : Shape := { formats := List.range 13, n1 := 0, n2 := 0, nd := c.g }

/-- The strip of VMVSX: element 0 at most, and that one padding where the strip has no element 0. -/
def VCtx.first (c : VCtx) : VCtx := { c with twoD := false, vl := min c.vl 1, vpad := if c.granted 0 then 0 else 1 }

theorem first_granted {c : VCtx} (h0 : c.vl ≠ 0) (i : Nat) : c.first.granted i = (decide (i = 0) && c.granted 0) := by
  have hvl : min c.vl 1 = 1 := by omega
  rw [granted_flat rfl, show c.first.vl = 1 from hvl, show c.first.vpad = if c.granted 0 then 0 else 1 from rfl]
  cases c.granted 0 <;> simp

/-- The slots of VMVSX as the model makes them are those of its strip. -/
theorem first_slot {c : VCtx} (h0 : c.vl ≠ 0) (x i : Nat) :
    (if i < c.vstart then Slot.keep else if i != 0 then .tail else if !c.granted 0 then .tail else if c.gov 0 then .res (.of x) else .off) =
      slotOf c.first (fun _ => false) (fun _ => .of x) i := by
  unfold slotOf
  rw [first_granted h0]
  change _ = if i < c.vstart then _ else if _ then _ else if _ then _ else if !c.gov i then _ else _
  by_cases hi : i = 0
  · subst hi
    cases c.granted 0 <;> cases c.gov 0 <;> rfl
  · simp [hi]

/-- The hart after VMVSX. -/
def Hart.firstMoved (h : Hart) (o : VOp) (c : VCtx) : Hart :=
  if c.vl = 0 then { h with vstart := 0 } else
  let slots := (List.range (c.positions (groupDest o c))).map (slotOf c.first (fun _ => false) (fun _ => .of (h.ox o.vs2).toNat))
  { (groupDest o c :: h.copyDest (groupDest o c)).foldl (fun t x => t.writeDest o.ta o.ma slots x) h with vstart := 0 }

theorem vmvsxBody_eq (o : VOp) (s : State) : vmvsxBody o s =
    if !vCheck s.cur o (s.cur.vctx o.m) (moveShape (s.cur.vctx o.m)) then illegalV s
    else .done { s with cur := s.cur.firstMoved o (s.cur.vctx o.m) } := by
  unfold vmvsxBody Hart.firstMoved
  by_cases h0 : (s.cur.vctx o.m).vl = 0
  · simp only [h0, beq_self_eq_true, if_true]
    rfl
  · simp only [beq_eq_false_iff_ne.mpr h0, h0, Bool.false_eq_true, if_false, first_slot h0]
    rfl

/-- VMVSX leaves what R134 says of its strip. -/
theorem firstMoved_elementsWritten {h : Hart} {o : VOp} (hv : vCheck h o (h.vctx o.m) (moveShape (h.vctx o.m)) = true) :
    ElementsWritten h (h.vctx o.m).first { ta := o.ta, ma := o.ma } (groupDest o (h.vctx o.m) :: h.copyDest (groupDest o (h.vctx o.m)))
      (fun _ => false) (fun _ => .of (h.ox o.vs2).toNat) (h.firstMoved o (h.vctx o.m)) := by
  obtain ⟨h1, hn, hw, w0⟩ := permDest hv rfl rfl rfl
  obtain ⟨hfits, hapart, -⟩ := vCheck_dests (t := h) (pick := fun r => r.val) hv h1 hn hw w0 rfl
  have hreg : h.regBits = 256 * (h.vctx o.m).first.lanes := vctx_regBits h o.m
  unfold Hart.firstMoved
  generalize h.vctx o.m = c at *
  by_cases h0 : c.vl = 0
  · rw [if_pos h0]
    exact elementsWritten_empty (by simp [VCtx.first, h0])
  · rw [if_neg h0]
    refine (writeDests_written o.ta o.ma _ _ h hfits hapart).elementsWritten hreg rfl (by simp [VCtx.first, h0]) (fun d hd i hi => ?_)
    obtain ⟨hregs, hwidth, -⟩ := mem_copyDest hd
    have hpos : c.first.positions d = c.positions (groupDest o c) := by
      simp only [VCtx.positions, hregs, hwidth]
      rfl
    rw [List.getElem?_map, List.getElem?_range (hpos ▸ hi)]
    rfl

/-- VMVSX is refused, or writes element 0 where it is active, every other position being tail. -/
theorem vmvsx_moves {o : VOp} {s : State} (hx : Executes s) (hl : s.cur.lane = none) (hd : s.cur.dropping = false) :
    (vCheck s.cur o (s.cur.vctx o.m) (moveShape (s.cur.vctx o.m)) = false → exec (.vmvsx o) s =
      .next (s.start.trapWord (encode (.vmvsx o)) { cause := 1, tval := 0, vec := true } s.start)) ∧
    (vCheck s.cur o (s.cur.vctx o.m) (moveShape (s.cur.vctx o.m)) = true →
      exec (.vmvsx o) s = .next ({ s.start with cur := s.cur.firstMoved o (s.cur.vctx o.m) } : State).completed) := by
  obtain ⟨-, hstrikes, -⟩ := id hx
  refine ⟨fun hv => performPfx_illegalV hx hl hd ((vmvsxBody_eq o s.start).trans (if_pos ?refused)), fun hv =>
    performPfx_vectorDone hx hl hd ((vmvsxBody_eq o s.start).trans (if_neg ?fits)) rfl
      ((firstMoved_elementsWritten hv).strikes.trans hstrikes)⟩
  case refused => rw [State.start_cur, hv]; rfl
  case fits => rw [State.start_cur, hv]; decide

end Sys2Proof.Machine

namespace Sys2Proof

/-- Settles O20: VMOVE and VSPLAT are the template of R134, VMVXS delivers element 0 of its source, and VMVSX is a strip of at most one element. -/
theorem vectorMoves : Obligations.VectorMoves :=
  ⟨Machine.vmove_copies, Machine.vsplat_spreads, fun _ _ _ hx hl hd => Machine.vmvxs_moves hx hl hd, fun _ _ _ hx hl hd =>
    have ⟨refused, completes⟩ := Machine.vmvsx_moves hx hl hd
    ⟨refused, fun hv => ⟨_, completes hv, Machine.firstMoved_elementsWritten hv⟩⟩⟩

end Sys2Proof
end

section
/-!
SUPPORT. The transformations (R175): VUNPK and VLUT read a byte string, VPACK writes one whose positions are fields of vs2 bits.
-/

namespace Sys2Proof.Machine

/-! ### The byte string -/

/-- Fetching a byte string changes the entries of a queue and the strikes alone. -/
theorem Fetched.bytesOf {n : VOp → VCtx → Nat} {place : VOp → Nat → Nat} {s u : State} {o : VOp} {c : VCtx} {a : Src}
    (h : Spec.bytesOf n place s o c = some (a, u)) : Fetched s u := by
  unfold Spec.bytesOf at h
  split at h
  · obtain ⟨r, hr, he⟩ := Option.map_eq_some_iff.mp h
    cases he
    exact takeQ hr
  · cases h
    exact refl s

theorem byteSource_eq_bytesOf (n : VOp → VCtx → Nat) (place : VOp → Nat → Nat) (s : State) (o : VOp) (c : VCtx) :
    s.byteSource o c (Spec.begun s.cur o c c.w) (n o c) (place o) = Spec.bytesOf n place s o c := by
  unfold State.byteSource Spec.bytesOf
  cases o.q with
  | false => rfl
  | true =>
    simp only [if_true]
    cases s.takeQ (o.vs1.toNat % 8) (n o c) 8 (place o) <;> rfl

/-- The field of a byte string, by the number of its bits as the instruction holds it (R175). -/
theorem fieldOf_eq (e : Nat → Nat) (r : Reg) (i : Nat) : fieldOf e r.toNat i =
    if r = 4 then e (i / 2) / 16 ^ (i % 2) % 16 else if r = 8 then e i else e (2 * i) + 256 * e (2 * i + 1) := by
  have h4 : r.toNat = 4 ↔ r = 4 := BitVec.toNat_inj (y := (4 : Reg))
  have h8 : r.toNat = 8 ↔ r = 8 := BitVec.toNat_inj (y := (8 : Reg))
  unfold fieldOf
  simp only [beq_iff_eq, h4, h8, Nat.pow_mul]

/-! ### VUNPK -/

/-- The operands of VUNPK: a field narrower than the elements. -/
def unpackShape (o : VOp) (c : VCtx) : Shape :=
  { formats := [0, 1, 2, 3], n1 := c.g, n2 := 0, nd := c.g, flat := true, clash := c.w ≤ o.vs2.toNat }

/-- The bytes VUNPK reads: as many as hold the fields of the strip. -/
def unpackSource : State → VOp → VCtx → Option (Src × State) :=
  Spec.bytesOf (fun o c => ((c.vl - c.vpad) * o.vs2.toNat + 7) / 8) (fun o j => 8 * j / o.vs2.toNat)

theorem vunpkBody_eq (o : VOp) (s : State) : vunpkBody o s =
    if !vCheck s.cur o (s.cur.vctx o.m) (unpackShape o (s.cur.vctx o.m)) then illegalV s else
    match unpackSource s o (s.cur.vctx o.m) with
    | none => illegalV s
    | some (a, u) => u.elementwise (s.cur.vctx o.m) (VMods.of u.cur o)
        (groupDest o (s.cur.vctx o.m) :: u.cur.copyDest (groupDest o (s.cur.vctx o.m))) a (fun i => .of (fieldOf a.elem o.vs2.toNat i)) := by
  unfold vunpkBody unpackSource
  rw [← byteSource_eq_bytesOf]
  rfl

/-- VUNPK reads fields of 4, 8 or 16 bits. -/
theorem vunpk_reads : Spec.VectorFrom .vunpk unpackShape unpackSource id (fun _ c => c.w) Spec.keepsNone
    (fun _ o _ e i => .of (if o.vs2 = 4 then e (i / 2) / 16 ^ (i % 2) % 16 else if o.vs2 = 8 then e i else e (2 * i) + 256 * e (2 * i + 1))) := by
  refine vectorFrom_of_values (body := vunpkBody) (fun _ _ => rfl) (fun _ _ _ _ _ hs => Fetched.bytesOf hs) (fun _ => rfl)
    (fun h o hv => intDest hv rfl rfl rfl) (fun s o hbad => ?refused)
    (fun s o a u hv hs => ⟨a.back, fun i => fieldOf a.elem o.vs2.toNat i, ?runs, fun i _ => congrArg (· % _) (fieldOf_eq ..)⟩)
  case refused =>
    rw [vunpkBody_eq]
    rcases hbad with h | h
    · exact if_pos (by rw [h]; rfl)
    · simp only [h, ite_self]
  case runs =>
    rw [vunpkBody_eq, hs]
    exact if_neg (by rw [hv]; decide)

/-! ### VLUT -/

/-- The operands of VLUT: the bytes it reads end at v31 or before. -/
def lookupShape (o : VOp) (c : VCtx) : Shape :=
  { formats := List.range 13, n1 := c.g, n2 := c.g, nd := c.g, flat := true,
    clash := !o.q && decide (32 * (32 * c.lanes) < o.vs1.toNat * (32 * c.lanes) + (c.vl - c.vpad)) }

/-- The bytes VLUT reads: one for each element of the strip. -/
def lookupSource : State → VOp → VCtx → Option (Src × State) := Spec.bytesOf (fun _ c => c.vl - c.vpad) (fun _ j => j)

/-- The entry of the table of VLUT for the byte k. -/
def lookedUp (table : Nat → Nat) (c : VCtx) (k : Nat) : Nat := if k < c.vlmax then table k else 0

theorem vlutBody_eq (o : VOp) (s : State) : vlutBody o s =
    if !vCheck s.cur o (s.cur.vctx o.m) (lookupShape o (s.cur.vctx o.m)) then illegalV s else
    match lookupSource s o (s.cur.vctx o.m) with
    | none => illegalV s
    | some (a, u) => u.elementwise (s.cur.vctx o.m) (VMods.of u.cur o)
        (groupDest o (s.cur.vctx o.m) :: u.cur.copyDest (groupDest o (s.cur.vctx o.m))) a
        (fun i => .of (lookedUp (Spec.other (Spec.begun s.cur o (s.cur.vctx o.m) (s.cur.vctx o.m).w) o.vs2 (s.cur.vctx o.m)) (s.cur.vctx o.m)
          (a.elem i))) := by
  unfold vlutBody lookupSource
  rw [← byteSource_eq_bytesOf]
  rfl

/-- VLUT looks each byte up in vs2. -/
theorem vlut_looksUp : Spec.VectorFrom .vlut lookupShape lookupSource id (fun _ c => c.w) Spec.keepsNone
    (fun h o c e i => .of (lookedUp (Spec.other (Spec.begun h o c c.w) o.vs2 c) c (e i))) := by
  refine vectorFrom_of_values (body := vlutBody) (fun _ _ => rfl) (fun _ _ _ _ _ hs => Fetched.bytesOf hs) (fun _ => rfl)
    (fun _ _ hv => permDest hv rfl rfl rfl) (fun s o hbad => ?refused)
    (fun s o a u hv hs => ⟨a.back, fun i => lookedUp (Spec.other (Spec.begun s.cur o (s.cur.vctx o.m) (s.cur.vctx o.m).w) o.vs2
      (s.cur.vctx o.m)) (s.cur.vctx o.m) (a.elem i), ?runs, fun i _ => ?values⟩)
  case refused =>
    rw [vlutBody_eq]
    rcases hbad with h | h
    · exact if_pos (by rw [h]; rfl)
    · simp only [h, ite_self]
  case runs =>
    rw [vlutBody_eq, hs]
    exact if_neg (by rw [hv]; decide)
  case values =>
    obtain ⟨⟨q, st, hcur⟩, -, -⟩ := Fetched.bytesOf hs
    simp only [lookedUp, hcur, other_begun_fetched]

/-! ### VPACK -/

/-- The operands of VPACK: a field narrower than the elements, and no queue. -/
def packShape (o : VOp) (c : VCtx) : Shape :=
  { formats := [0, 1, 2, 3], n1 := c.g, n2 := 0, nd := c.g, flat := true, clash := decide (c.w ≤ o.vs2.toNat) || o.q }

/-- The destination of VPACK: its positions are the fields. -/
def packDest (o : VOp) (c : VCtx) : Dest := { base := o.vd.toNat, regs := c.g, width := o.vs2.toNat, pick := fun r => r.val }

theorem vpackBody_eq (o : VOp) (s : State) : vpackBody o s =
    if !vCheck s.cur o (s.cur.vctx o.m) (packShape o (s.cur.vctx o.m)) then illegalV s else
    s.elementwise (s.cur.vctx o.m) (VMods.of s.cur o)
      (packDest o (s.cur.vctx o.m) :: s.cur.copyDest (packDest o (s.cur.vctx o.m))) { elem := fun _ => 0 }
      (fun i => .of (Spec.other (Spec.begun s.cur o (s.cur.vctx o.m) o.vs2.toNat) o.vs1 (s.cur.vctx o.m) i)) := rfl

/-- A VPACK that decodes has fields of 4, 8 or 16 bits (R175). -/
theorem vpack_wf_field {o : VOp} (h : (Instr.vpack o).wf = true) : o.vs2.toNat ∣ 256 ∧ 0 < o.vs2.toNat := by
  obtain ⟨-, hfield⟩ := (Bool.and_eq_true _ _).mp h
  simp only [Bool.or_eq_true, beq_iff_eq] at hfield
  obtain (e | e) | e := hfield <;> rw [e] <;> decide

/-- VPACK writes the elements of vs1 as fields. -/
theorem vpack_writes : Spec.VectorFrom .vpack packShape (fun s _ _ => some ({ elem := fun _ => 0 }, s)) id (fun o _ => o.vs2.toNat)
    Spec.keepsNone (fun h o c _ i => .of (Spec.other (Spec.begun h o c o.vs2.toNat) o.vs1 c i)) := by
  intro o s hwf hx hl hd
  refine ⟨fun hbad => ?refused, fun a u hv hs ha hub hus ok => ?completes⟩
  case refused =>
    have hv := hbad.resolve_right (by simp)
    refine performPfx_illegalV (body := vpackBody o) hx hl hd ((vpackBody_eq o s.start).trans (if_pos ?_))
    rw [State.start_cur, hv]
    rfl
  case completes =>
    cases hs
    obtain ⟨-, -, hcut⟩ := id hx
    obtain ⟨hw, w0⟩ := vpack_wf_field hwf
    obtain ⟨d1, d2, d3⟩ := vCheck_dests (t := s.cur) (pick := fun r => r.val) hv rfl ((vctx_g_dvd s.cur o.m).trans (by decide)) hw w0 rfl
    obtain ⟨h, hdone, hwritten⟩ := elementwise_done (s := s.start) (kept := fun _ => false) (vctx_regBits s.cur o.m) ha hcut ok d1 d2 d3
    refine ⟨h, performPfx_vectorDone (body := vpackBody o) hx hl hd (((vpackBody_eq o s.start).trans (if_neg ?_)).trans hdone) hub
      (hwritten.strikes.trans hus), hwritten⟩
    rw [State.start_cur, hv]
    decide

end Sys2Proof.Machine

namespace Sys2Proof

/-- Settles O21: each transformation is the template of R134, VUNPK and VLUT on the bytes of their source, VPACK on fields as its positions. -/
theorem vectorTransforms : Obligations.VectorTransforms := ⟨Machine.vunpk_reads, Machine.vpack_writes, Machine.vlut_looksUp⟩

end Sys2Proof
end

section
/-!
SUPPORT. The vector stores (R154 to R160, R165, R169): what reaching the homes of their elements in order comes to, the accesses they queue, and
the stores through an address form, to a stream, of blocks and to a spill frame.
-/

namespace Sys2Proof.Machine

/-! ### Accesses in order (R156, R310) -/

/-- Accesses that each succeed are made in their order, and nothing stops the instruction. -/
theorem eachElem_inOrder {α : Type} {acc : State → Nat → α → State → Prop} {f : State → Nat → Except Limit α × State} {l : List Nat}
    {s u : State} {rs : List (Nat × α)} (h : InOrder acc l s rs u) (hcut : s.cut = none)
    (step : ∀ s i x t, acc s i x t → f s i = (.ok x, t) ∧ Reached s t) : eachElem f l s = (rs, none, u) := by
  induction h with
  | none s => rfl
  | next hacc _ ih =>
    obtain ⟨hf, ht⟩ := step _ _ _ _ hacc
    rw [eachElem, hcut]
    simp only [Option.any_none, Bool.false_eq_true, if_false, hf, ih (ht.cut.trans hcut)]

/-- An element whose home is reached for a write passes its checks. -/
theorem probeAt_of_writes {need : ANeed} {wk : WKind} {w n : Nat} {p : Place} {s t : State} {x : Nat × Bool} {lane : Option Nat}
    (h : Spec.Writes need wk w p n s x t lane) {aligned : Bool} (hal : aligned = true → 8 ≤ w ∨ n = 1) (i : Nat) :
    s.probeAt .write need wk aligned n i p.addr lane = (.ok x.1, t) ∧ Reached s t ∧ x.2 = p.high := by
  obtain ⟨hmod, hreach, hmatch, hhigh⟩ := h
  have halign : (aligned && p.addr.toNat % n != 0) = false := by
    rw [Bool.and_eq_false_iff, bne_eq_false_iff_eq, or_iff_not_imp_left, Bool.not_eq_false]
    intro ha
    rcases hal ha with hw | rfl
    · exact hmod hw
    · exact Nat.mod_one _
  refine ⟨?_, ?_, hhigh⟩
  · simp only [State.probeAt, halign, Bool.false_eq_true, if_false, hreach, beq_self_eq_true, if_true, strikeOwn_noMatch _ hmatch]
  · have := reach_reached s p.addr n .write need lane
    rwa [hreach] at this

/-! ### The accesses queued (R157, R159, R160) -/

theorem queued_kept (st : Stream) : ∀ (acts : List PAct) (s : State),
    (Spec.queued s st acts).blocked = s.blocked ∧ (Spec.queued s st acts).cur.strikes = s.cur.strikes
  | [], _ => ⟨rfl, rfl⟩
  | a :: acts, s => queued_kept st acts (s.queueStore st a)

theorem storeActs_eq_elementWrites (w : Nat) (data : Nat → Nat) (rs : List (Nat × Nat × Bool)) :
    storeActs w data rs = Spec.elementWrites w data rs := by
  unfold Spec.elementWrites
  by_cases hw : w = 4
  · subst hw
    rfl
  · rw [if_neg hw, storeActs, beq_eq_false_iff_ne.mpr hw]
    rfl

theorem rmwOf_eq (chain : Nat) : rmwOf chain =
    if chain = 1 then .addF else if chain = 2 then .maxF else if chain = 3 then .minF else if chain = 4 then .addI else .addBf := by
  match chain with
  | 0 | 1 | 2 | 3 | 4 => rfl
  | n + 5 => simp [rmwOf]

theorem queueElems_eq_stored (s : State) (chain : Nat) (st : Stream) (w : Nat) (data : Nat → Nat) (rs : List (Nat × Nat × Bool)) :
    s.queueElems chain st w data rs = Spec.stored s chain st w data rs := by
  unfold State.queueElems Spec.stored
  rw [storeActs_eq_elementWrites, rmwOf_eq]
  by_cases hc : chain = 0
  · subst hc
    rfl
  · rw [if_neg hc, if_pos (bne_iff_ne.mpr hc)]
    rfl

theorem stored_kept (s : State) (chain : Nat) (st : Stream) (w : Nat) (data : Nat → Nat) (rs : List (Nat × Nat × Bool)) :
    (Spec.stored s chain st w data rs).blocked = s.blocked ∧ (Spec.stored s chain st w data rs).cur.strikes = s.cur.strikes := by
  unfold Spec.stored
  split <;> exact queued_kept ..

/-! ### Stores through an address form (R154 to R157, R160) -/

/-- The access of element i of a store through an address form. -/
def storeAccess (f : VForm) (h : Hart) (o : VLOp) (s : State) (i : Nat) (x : Nat × Bool) (t : State) : Prop :=
  Spec.Writes (if pfxChain h.pfx = 0 then .plain else .chain) (if pfxChain h.pfx = 0 then .write else .atomic) (h.vctx o.m).w
    (f.place h (h.vctx o.m) o.base o.idx i) (max 1 ((h.vctx o.m).w / 8)) s x t (f.lane h (h.vctx o.m) i)

/-- The checks of a store through an address form. -/
def StoreFits (f : VForm) (chains : List Nat) (h : Hart) (o : VLOp) : Prop :=
  storeCheck h o (h.vctx o.m) o.reg.toNat (h.vctx o.m).g (f.idxRegs (h.vctx o.m)) chains = true

/-- The state after a store through an address form, from the state in which the homes of its elements are reached. -/
def elementsStored (h : Hart) (o : VLOp) (u : State) (rs : List (Nat × Nat × Bool)) : State :=
  Spec.stored u (pfxChain h.pfx) .vector (h.vctx o.m).w (elemN (h.groupN o.reg.toNat (h.vctx o.m).g) (h.vctx o.m).w) rs

/-- The need and the kind of a watched access of a store, chained or not. -/
theorem chain_choice {α : Type} (chain : Nat) (x y : α) : (if chain != 0 then x else y) = if chain = 0 then y else x := by
  by_cases h : chain = 0 <;> simp [h]

section
variable {f : VForm} {chains : List Nat} {o : VLOp} {s : State}

theorem vstore_refused (h : ¬ StoreFits f chains s.cur o) : vstore f chains o s = illegalV s := by
  unfold StoreFits at h
  unfold vstore
  exact if_pos (by simpa using h)

theorem vstore_badStride {x : Word} (h : StoreFits f chains s.cur o) (hx : f.badStride s.cur (s.cur.vctx o.m) o.idx = some x) :
    vstore f chains o s = .trap { cause := 0xA, tval := x, vec := true } s := by
  unfold StoreFits at h
  unfold vstore
  simp only [h, hx, Bool.not_true, Bool.false_eq_true, if_false]

theorem vstore_queues {rs : List (Nat × Nat × Bool)} {u : State} (hcut : s.cut = none) (h : StoreFits f chains s.cur o)
    (hx : f.badStride s.cur (s.cur.vctx o.m) o.idx = none) (hord : InOrder (storeAccess f s.cur o) (s.cur.vctx o.m).touched s rs u) :
    vstore f chains o s = .done (Spec.restarted (elementsStored s.cur o u rs)) := by
  unfold StoreFits at h
  unfold vstore
  simp only [h, hx, Bool.not_true, Bool.false_eq_true, if_false, chain_choice]
  rw [eachElem_inOrder hord hcut fun s' i x t hw => ?step]
  · simp only [queueElems_eq_stored]
    rfl
  case step =>
    obtain ⟨hprobe, hreached, hhigh⟩ :=
      probeAt_of_writes hw (aligned := decide (8 ≤ (s.cur.vctx o.m).w)) (fun e => .inl (of_decide_eq_true e)) i
    refine ⟨?_, hreached⟩
    rw [show decide ((s.cur.vctx o.m).w ≥ 8) = decide (8 ≤ (s.cur.vctx o.m).w) from rfl, elemBytes, hprobe, ← hhigh]

/-- An instruction whose effect is a store through an address form does what R154 to R157 and R160 say. -/
theorem store_of_effect {con : VLOp → Instr} (effect : ∀ o s, o.q = false →
    exec (con o) s = performPfx (encode (con o)) s (vstore f chains o)) : Spec.Store con f chains := by
  intro o s hq hx hl hd
  obtain ⟨-, -, hcut⟩ := id hx
  refine ⟨fun hbad => ?refused, fun x hok hs => ?stride, fun rs u hok hs hord hub hus => ?queues⟩ <;> rw [effect o s hq]
  case refused => exact performPfx_illegalV hx hl hd (vstore_refused hbad)
  case stride => rw [performPfx_vector hx hl hd, vstore_badStride (s := s.start) hok hs, finish_trap _ _ _ rfl]
  case queues =>
    obtain ⟨hblocked, hstrikes⟩ : (elementsStored s.cur o u rs).blocked = _ ∧ (elementsStored s.cur o u rs).cur.strikes = _ := stored_kept ..
    exact performPfx_vectorDone hx hl hd (vstore_queues (s := s.start) hcut hok hs hord) (hblocked.trans hub) (hstrikes.trans hus)

end

theorem vst_stores : Spec.Store .vst .unit [1, 2, 3, 4, 5] :=
  store_of_effect fun o s hq => congrArg (performPfx (vstWord o) s) (if_neg (by simp [hq]))

/-! ### Stores to a bound stream (R165) -/

section
variable {chains : List Nat} {o : VLOp} {s : State}

theorem vstoreStream_unbound (h : ∀ d pos, s.cur.rq o.reg.toNat ≠ .store d pos) : vstoreStream chains o s = illegalV s := by
  unfold vstoreStream
  dsimp only
  split
  · exact absurd ‹_› (h _ _)
  · rfl

/-- The checks of a store to a stream: its own, and that the stream's elements are as wide as the strip's. -/
def StreamFits (h : Hart) (o : VLOp) (d : AffDesc) (chains : List Nat) : Prop :=
  storeCheck h o (h.vctx o.m) o.base.toNat (h.vctx o.m).g 0 chains = true ∧ fmtWidth d.fmt = (h.vctx o.m).w

theorem streamFits_iff (h : Hart) (o : VLOp) (d : AffDesc) (chains : List Nat) :
    (!storeCheck h o (h.vctx o.m) o.base.toNat (h.vctx o.m).g 0 chains || fmtWidth d.fmt != (h.vctx o.m).w) = false ↔
      StreamFits h o d chains := by
  simp [StreamFits]

theorem vstoreStream_refused {d : AffDesc} {pos : Nat} (hq : s.cur.rq o.reg.toNat = .store d pos) (h : ¬ StreamFits s.cur o d chains) :
    vstoreStream chains o s = illegalV s := by
  unfold vstoreStream
  simp only [hq]
  exact if_pos (Bool.of_not_eq_false fun e => h ((streamFits_iff ..).mp e))

/-- The position in a stream at which a store puts element i of its strip. -/
def streamAt (c : VCtx) (pos i : Nat) : Nat := pos + (c.queuePlace i).getD 0

/-- The access of element i of a store to a stream. -/
def streamAccess (h : Hart) (o : VLOp) (d : AffDesc) (pos : Nat) (s : State) (i : Nat) (x : Nat × Bool) (t : State) : Prop :=
  Spec.Writes (if pfxChain h.pfx = 0 then .plain else .chain) (if pfxChain h.pfx = 0 then .write else .atomic) 8
    { addr := d.addr (streamAt (h.vctx o.m) pos i), high := false } ((h.vctx o.m).w / 8) s x t

/-- The elements that a store to a stream still has room for. -/
def streamElems (h : Hart) (o : VLOp) (d : AffDesc) (pos : Nat) : List Nat :=
  (h.vctx o.m).touched.filter (fun i => streamAt (h.vctx o.m) pos i < d.total)

/-- The state after a store to a stream, from the state in which the homes of its elements are reached. -/
def streamStored (s u : State) (o : VLOp) (d : AffDesc) (pos : Nat) (rs : List (Nat × Nat × Bool)) : State :=
  let t := Spec.stored u (pfxChain s.cur.pfx) (.q (BitVec.ofNat 3 o.reg.toNat)) (s.cur.vctx o.m).w
    (elemN (s.cur.groupN o.base.toNat (s.cur.vctx o.m).g) (s.cur.vctx o.m).w) rs
  Spec.restarted { t with cur := t.cur.wq o.reg.toNat (.store d (min d.total (pos + (s.cur.vctx o.m).count))) }

theorem vstoreStream_queues {d : AffDesc} {pos : Nat} {rs : List (Nat × Nat × Bool)} {u : State} (hcut : s.cut = none)
    (hq : s.cur.rq o.reg.toNat = .store d pos) (h : StreamFits s.cur o d chains)
    (hord : InOrder (streamAccess s.cur o d pos) (streamElems s.cur o d pos) s rs u) :
    vstoreStream chains o s = .done (streamStored s u o d pos rs) := by
  unfold vstoreStream
  simp only [hq, (streamFits_iff ..).mpr h, Bool.false_eq_true, if_false, chain_choice]
  unfold streamElems streamAt at hord
  rw [eachElem_inOrder hord hcut fun s' i x t hw => ?step]
  · simp only [queueElems_eq_stored, Option.isNone_none, if_true]
    rfl
  case step =>
    unfold streamAccess streamAt at hw
    obtain ⟨hprobe, hreached, hhigh⟩ := probeAt_of_writes hw (aligned := true) (fun _ => .inl (Nat.le_refl 8)) i
    refine ⟨?_, hreached⟩
    rw [hprobe, ← show x.2 = false from hhigh]

end

/-- VST to a queue is refused, or queues its elements at their positions in the stream bound there and moves its position past them. -/
theorem vst_storesToStream {o : VLOp} {s : State} (hq : o.q = true) (hx : Executes s) (hl : s.cur.lane = none) (hd : s.cur.dropping = false) :
    let illegal := exec (.vst o) s = .next (s.start.trapWord (encode (.vst o)) { cause := 1, tval := 0, vec := true } s.start)
    ((∀ d pos, s.cur.rq o.reg.toNat ≠ .store d pos) → illegal) ∧
    ∀ d pos, s.cur.rq o.reg.toNat = .store d pos → (¬ StreamFits s.cur o d [1, 2, 3, 4, 5] → illegal) ∧
      ∀ rs u, StreamFits s.cur o d [1, 2, 3, 4, 5] → InOrder (streamAccess s.cur o d pos) (streamElems s.cur o d pos) s.start rs u →
        u.blocked = none → u.cur.strikes = [] → exec (.vst o) s = .next (streamStored s u o d pos rs).completed := by
  obtain ⟨-, -, hcut⟩ := id hx
  have effect : exec (.vst o) s = performPfx (encode (.vst o)) s (vstoreStream [1, 2, 3, 4, 5] o) :=
    congrArg (performPfx (vstWord o) s) (if_pos hq)
  refine ⟨fun hno => ?unbound, fun d pos hb => ⟨fun hbad => ?refused, fun rs u hok hord hub hus => ?queues⟩⟩ <;> rw [effect]
  case unbound => exact performPfx_illegalV hx hl hd (vstoreStream_unbound hno)
  case refused => exact performPfx_illegalV hx hl hd (vstoreStream_refused (s := s.start) hb hbad)
  case queues =>
    obtain ⟨hblocked, hstrikes⟩ := stored_kept u (pfxChain s.cur.pfx) (.q (BitVec.ofNat 3 o.reg.toNat)) (s.cur.vctx o.m).w
      (elemN (s.cur.groupN o.base.toNat (s.cur.vctx o.m).g) (s.cur.vctx o.m).w) rs
    exact performPfx_vectorDone hx hl hd (vstoreStream_queues (s := s.start) hcut hb hok hord) (hblocked.trans hub) (hstrikes.trans hus)

/-! ### Stores of blocks (R158) -/

theorem scaleBytes_eq (fmt : Nat) : scaleBytes fmt = if fmt = 9 then 4 else 1 := by
  unfold scaleBytes
  simp only [beq_iff_eq]

/-- The format is a block format and the other checks of a store of blocks pass. -/
def BlocksFit (h : Hart) (o : VLOp) : Prop :=
  9 ≤ (h.vctx o.m).fmt ∧ (h.vctx o.m).fmt ≤ 12 ∧ storeCheck h o (h.vctx o.m) o.reg.toNat (2 * (h.vctx o.m).g) 0 [] = true

theorem blocksFit_iff (h : Hart) (o : VLOp) :
    (!fmtIsBlock (h.vctx o.m).fmt || !storeCheck h o (h.vctx o.m) o.reg.toNat (2 * (h.vctx o.m).g) 0 []) = false ↔ BlocksFit h o := by
  simp [BlocksFit, fmtIsBlock, and_assoc]

/-- The access of element i of a store of blocks: its scale's home first, where the element leads its block, and then its own. -/
def blockAccess (h : Hart) (o : VLOp) (s0 : State) (i : Nat) (x : (Nat × Bool) × Option Nat) (t : State) : Prop := ∃ t1,
  (if (h.vctx o.m).leads i then ∃ z, Spec.Writes .plain .write 8
      { addr := h.ox o.idx + BitVec.ofNat 64 ((if (h.vctx o.m).fmt = 9 then 4 else 1) * (h.vctx o.m).blockNo i), high := false }
      (if (h.vctx o.m).fmt = 9 then 4 else 1) s0 z t1 ∧ x.2 = some z.1
    else t1 = s0 ∧ x.2 = none) ∧
  Spec.Writes .plain .write (h.vctx o.m).w (VForm.unit.place h (h.vctx o.m) o.base o.idx i) (max 1 ((h.vctx o.m).w / 8)) t1 x.1 t

/-- The state after a store of blocks, from the state in which the homes of its elements and scales are reached. -/
def blocksStored (h : Hart) (o : VLOp) (u : State) (rs : List (Nat × (Nat × Bool) × Option Nat)) : State :=
  Spec.queued
    (Spec.queued u .vector (Spec.elementWrites (h.vctx o.m).w (elemN (h.groupN o.reg.toNat (h.vctx o.m).g) (h.vctx o.m).w)
      (rs.map (fun r => (r.1, r.2.1)))))
    .vector (rs.filterMap (fun r => r.2.2.map (fun key => .write (plainBytes key (leBytes (if (h.vctx o.m).fmt = 9 then 4 else 1)
      (elemN (h.groupN (o.reg.toNat + (h.vctx o.m).g) (h.vctx o.m).g) 32 ((h.vctx o.m).blockNo r.1)))))))

theorem blocksStored_kept (h : Hart) (o : VLOp) (u : State) (rs : List (Nat × (Nat × Bool) × Option Nat)) :
    (blocksStored h o u rs).blocked = u.blocked ∧ (blocksStored h o u rs).cur.strikes = u.cur.strikes := by
  obtain ⟨hb, hs⟩ := queued_kept .vector (Spec.elementWrites (h.vctx o.m).w (elemN (h.groupN o.reg.toNat (h.vctx o.m).g) (h.vctx o.m).w)
    (rs.map (fun r => (r.1, r.2.1)))) u
  obtain ⟨hb', hs'⟩ := queued_kept .vector (rs.filterMap (fun r => r.2.2.map (fun key => PAct.write (plainBytes key
    (leBytes (if (h.vctx o.m).fmt = 9 then 4 else 1) (elemN (h.groupN (o.reg.toNat + (h.vctx o.m).g) (h.vctx o.m).g) 32
      ((h.vctx o.m).blockNo r.1))))))) (Spec.queued u .vector (Spec.elementWrites (h.vctx o.m).w
        (elemN (h.groupN o.reg.toNat (h.vctx o.m).g) (h.vctx o.m).w) (rs.map (fun r => (r.1, r.2.1)))))
  exact ⟨hb'.trans hb, hs'.trans hs⟩

/-- The bytes of an element are one, or as many as its width says. -/
theorem elemBytes_aligned (w : Nat) : 8 ≤ w ∨ elemBytes w = 1 := by
  unfold elemBytes
  omega

theorem vstbBody_queues {o : VLOp} {s u : State} {rs : List (Nat × (Nat × Bool) × Option Nat)} (hcut : s.cut = none)
    (h : BlocksFit s.cur o) (hord : InOrder (blockAccess s.cur o) (s.cur.vctx o.m).touched s rs u) :
    vstbBody o s = .done (Spec.restarted (blocksStored s.cur o u rs)) := by
  unfold vstbBody
  simp only [(blocksFit_iff ..).mpr h, Bool.false_eq_true, if_false, scaleAddr, scaleBytes_eq, storeActs_eq_elementWrites]
  rw [eachElem_inOrder hord hcut fun s' i x t ⟨t1, hscale, helem⟩ => ?step]
  · rfl
  case step =>
    obtain ⟨hprobe, hreached, hhigh⟩ := probeAt_of_writes helem (aligned := true) (fun _ => elemBytes_aligned _) i
    unfold elemBytes
    by_cases hleads : (s.cur.vctx o.m).leads i = true
    · rw [if_pos hleads] at hscale
      obtain ⟨z, hz, hkey⟩ := hscale
      obtain ⟨hprobe', hreached', -⟩ := probeAt_of_writes hz (aligned := true) (fun _ => .inl (Nat.le_refl 8)) i
      refine ⟨?_, hreached'.trans hreached⟩
      simp only [hleads, Bool.not_true, Bool.false_eq_true, if_false, hprobe', hprobe, ← hhigh, ← hkey]
    · rw [if_neg hleads] at hscale
      obtain ⟨rfl, hkey⟩ := hscale
      refine ⟨?_, hreached⟩
      simp only [hleads, Bool.not_false, if_true, hprobe, ← hhigh]
      rw [← hkey]

theorem vstb_stores {o : VLOp} {s : State} (hx : Executes s) (hl : s.cur.lane = none) (hd : s.cur.dropping = false) :
    (¬ BlocksFit s.cur o → exec (.vstb o) s = .next (s.start.trapWord (encode (.vstb o)) { cause := 1, tval := 0, vec := true } s.start)) ∧
    ∀ rs u, BlocksFit s.cur o → InOrder (blockAccess s.cur o) (s.cur.vctx o.m).touched s.start rs u → u.blocked = none →
      u.cur.strikes = [] → exec (.vstb o) s = .next (Spec.restarted (blocksStored s.cur o u rs)).completed := by
  obtain ⟨-, -, hcut⟩ := id hx
  refine ⟨fun hbad => performPfx_illegalV (body := vstbBody o) hx hl hd (if_pos ?refused), fun rs u hok hord hub hus => ?queues⟩
  case refused => exact Bool.of_not_eq_false fun e => hbad ((blocksFit_iff ..).mp e)
  case queues =>
    obtain ⟨hblocked, hstrikes⟩ := blocksStored_kept s.cur o u rs
    exact performPfx_vectorDone hx hl hd (vstbBody_queues (s := s.start) hcut hok hord) (hblocked.trans hub) (hstrikes.trans hus)

/-! ### Spill frames (R168, R169) -/

/-- Every format is 4, 8, 16, 32 or 64 bits wide (R33). -/
theorem fmtWidth_mem (f : Nat) : fmtWidth f ∈ [4, 8, 16, 32, 64] := by
  unfold fmtWidth
  split <;> decide

/-- The frame bytes of an element are where R168 says: one piece, or for a 64-bit element one for each half. -/
theorem framePieces_eq (c : VCtx) (i : Nat) : c.framePieces i =
    if c.w = 64 then [(Spec.frameAt c (Spec.frameReg c i) (Spec.frameBit c i / 32), 0, 4),
      (Spec.frameAt c (Spec.frameReg c i) (Spec.frameBit c i / 32 + 1), 32, 4)]
    else [(Spec.frameAt c (Spec.frameReg c i) (Spec.frameBit c i / 32) + Spec.frameBit c i % 32 / 8, 0, max 1 (c.w / 8))] := by
  unfold VCtx.framePieces
  simp only [beq_iff_eq]
  rfl

/-- A 64-bit element is its two halves. -/
theorem elemN_half (x i : Nat) : x / 2 ^ (i * 64 / 8 * 8 + 0) % 2 ^ (8 * 4) = elemN x 64 i % 2 ^ 32 ∧
    x / 2 ^ (i * 64 / 8 * 8 + 32) % 2 ^ (8 * 4) = elemN x 64 i / 2 ^ 32 := by
  rw [show i * 64 / 8 * 8 = 64 * i by omega, Nat.pow_add, Nat.pow_add, ← Nat.div_div_eq_div_mul, ← Nat.div_div_eq_div_mul, elemN]
  generalize x / 2 ^ (64 * i) = y
  constructor <;> omega

/-- The bytes of a narrower element in its group: its own, or of a 4-bit format the byte of its nibble. -/
theorem elemN_bytes {w : Nat} (hw : w ∈ [4, 8, 16, 32, 64]) (h64 : w ≠ 64) (x i : Nat) :
    x / 2 ^ (i * w / 8 * 8 + 0) % 2 ^ (8 * max 1 (w / 8)) = if w = 4 then elemN x 8 (i / 2) else elemN x w i := by
  simp only [List.mem_cons, List.not_mem_nil, or_false] at hw
  rcases hw with rfl | rfl | rfl | rfl | rfl
  case inr.inr.inr.inr => exact absurd rfl h64
  all_goals
    simp only [elemN]
    congr 3
    omega

/-- The checks of VSPILL. -/
def SpillFits (h : Hart) (o : VLOp) : Prop :=
  fmtNamed o (h.vctx o.m).spilled = true ∧ o.reg.toNat % (h.vctx o.m).spilled.g = 0 ∧ o.reg.toNat + (h.vctx o.m).spilled.g ≤ 32

theorem spillFits_iff (h : Hart) (o : VLOp) : spillCheck o (h.vctx o.m).spilled = true ↔ SpillFits h o := by
  simp [spillCheck, SpillFits, and_assoc]

/-- A piece of a frame is reached for a write. -/
def framePart (h : Hart) (o : VLOp) (p : Nat × Nat) (s : State) (key : Nat) (t : State) : Prop :=
  Spec.Writes .plain .write 0 { addr := h.ox o.base + BitVec.ofNat 64 p.1, high := false } p.2 s (key, false) t

/-- The write of n bytes of a number. -/
def frameWrite (key n v : Nat) : PAct := .write (plainBytes key (leBytes n v))

/-- The pieces of element i of a spilled group are reached, and what is to be written there. -/
def spillAccess (h : Hart) (o : VLOp) (s : State) (i : Nat) (l : List PAct) (t : State) : Prop :=
  let c := (h.vctx o.m).spilled
  let x := h.groupN o.reg.toNat c.g
  match Spec.frameParts c i with
  | [p, q] => ∃ t1 k k', framePart h o p s k t1 ∧ framePart h o q t1 k' t ∧
      l = [frameWrite k 4 (elemN x 64 i % 2 ^ 32), frameWrite k' 4 (elemN x 64 i / 2 ^ 32)]
  | ps => ∃ k, framePart h o (ps.headD (0, 1)) s k t ∧
      l = [frameWrite k (ps.headD (0, 1)).2 (if c.w = 4 then elemN x 8 (i / 2) else elemN x c.w i)]

/-- A piece that is reached passes its checks. -/
theorem probeAt_of_framePart {h : Hart} {o : VLOp} {p : Nat × Nat} {s t : State} {key : Nat} (hp : framePart h o p s key t) (i : Nat) :
    s.probeAt .write .plain .write false p.2 i (h.ox o.base + BitVec.ofNat 64 p.1) = (.ok key, t) ∧ Reached s t := by
  obtain ⟨hprobe, hreached, -⟩ := probeAt_of_writes hp (aligned := false) (fun e => absurd e (by decide)) i
  exact ⟨hprobe, hreached⟩

theorem vspillBody_queues {o : VLOp} {s u : State} {rs : List (Nat × List PAct)} (hcut : s.cut = none) (h : SpillFits s.cur o)
    (hbase : (s.cur.ox o.base).toNat % 4 = 0) (hord : InOrder (spillAccess s.cur o) (s.cur.vctx o.m).spilled.touched s rs u) :
    vspillBody o s = .done (Spec.restarted (Spec.queued u .vector (rs.flatMap (fun r => r.2)))) := by
  unfold vspillBody
  simp only [(spillFits_iff ..).mpr h, hbase, Bool.not_true, bne_self_eq_false, Bool.false_eq_true, if_false]
  rw [eachElem_inOrder hord hcut fun s' i l t hacc => ?step]
  · rfl
  case step =>
    have hw : (s.cur.vctx o.m).spilled.w ∈ [4, 8, 16, 32, 64] := fmtWidth_mem _
    unfold spillAccess Spec.frameParts at hacc
    rw [framePieces_eq]
    by_cases h64 : (s.cur.vctx o.m).spilled.w = 64
    · simp only [h64, if_true] at hacc ⊢
      obtain ⟨t1, k, k', hp, hq, rfl⟩ := hacc
      obtain ⟨hprobe, hreached⟩ := probeAt_of_framePart hp i
      obtain ⟨hprobe', hreached'⟩ := probeAt_of_framePart hq i
      obtain ⟨hlow, hhigh⟩ := elemN_half (s.cur.groupN o.reg.toNat (s.cur.vctx o.m).spilled.g) i
      refine ⟨?_, hreached.trans hreached'⟩
      simp only [hprobe, hprobe', hlow, hhigh]
      rfl
    · simp only [h64, if_false] at hacc ⊢
      obtain ⟨k, hp, rfl⟩ := hacc
      obtain ⟨hprobe, hreached⟩ := probeAt_of_framePart hp i
      refine ⟨?_, hreached⟩
      simp only [List.headD_cons] at hprobe ⊢
      rw [hprobe]
      simp only [elemN_bytes hw h64]
      rfl

theorem vspill_stores {o : VLOp} {s : State} (hp : PlainHart s) (hd : s.cur.dropping = false) :
    (¬ SpillFits s.cur o →
      exec (.vspill o) s = .next (s.start.trapWord (encode (.vspill o)) { cause := 1, tval := 0, vec := true } s.start)) ∧
    (SpillFits s.cur o → (s.cur.ox o.base).toNat % 4 ≠ 0 → exec (.vspill o) s =
      .next (s.start.trapWord (encode (.vspill o)) { cause := 4, tval := s.cur.ox o.base, vec := true } s.start)) ∧
    ∀ rs u, SpillFits s.cur o → (s.cur.ox o.base).toNat % 4 = 0 →
      InOrder (spillAccess s.cur o) (s.cur.vctx o.m).spilled.touched s.start rs u → u.blocked = none → u.cur.strikes = [] →
      exec (.vspill o) s = .next (Spec.restarted (Spec.queued u .vector (rs.flatMap (fun r => r.2)))).completed := by
  obtain ⟨⟨⟨hu, -, hcut⟩, hpfx⟩, hl⟩ := hp
  have effect : exec (.vspill o) s = .next (s.start.finish (encode (.vspill o)) (vspillBody o s.start)) :=
    performAs_hart hu (by simp [hl]) (fun _ => hd) (fun _ => hpfx)
  refine ⟨fun hbad => ?refused, fun hok hbase => ?misaligned, fun rs u hok hbase hord hub hus => ?queues⟩ <;> rw [effect]
  case refused =>
    have : vspillBody o s.start = illegalV s.start :=
      if_pos (by simpa using fun e => hbad ((spillFits_iff ..).mp e))
    rw [this, illegalV, finish_trap _ _ _ rfl]
  case misaligned =>
    have : vspillBody o s.start = .trap { cause := 4, tval := s.cur.ox o.base, vec := true } s.start :=
      (if_neg (by simpa using (spillFits_iff ..).mpr hok)).trans (if_pos (bne_iff_ne.mpr hbase))
    rw [this, finish_trap _ _ _ rfl]
  case queues =>
    obtain ⟨hblocked, hstrikes⟩ := queued_kept .vector (rs.flatMap (fun r => r.2)) u
    rw [vspillBody_queues (s := s.start) hcut hok hbase hord]
    exact congrArg _ (finish_done _ _ (hblocked.trans hub) (hstrikes.trans hus))

end Sys2Proof.Machine

namespace Sys2Proof

/-- Settles O24: each store reaches the homes of its elements in order and then queues what they hold. -/
theorem vectorStores : Obligations.VectorStores :=
  ⟨Machine.vst_stores, Machine.store_of_effect fun _ _ _ => rfl, Machine.store_of_effect fun _ _ _ => rfl,
    fun _ _ hq hx hl hd => Machine.vst_storesToStream hq hx hl hd, fun _ _ hx hl hd => Machine.vstb_stores hx hl hd,
    fun _ _ hp hd => Machine.vspill_stores hp hd⟩

end Sys2Proof
end

section
/-!
SUPPORT. The addresses of the elements of a vector load (R154), and the chained load whose hart has a message on its way (R159, R160).
-/

namespace Sys2Proof.Machine

/-! ### Element addresses (R154) -/

/-- The place at an offset: in bytes, or in nibbles of a 4-bit format. -/
theorem placeAt_offset (w : Nat) (b : Word) (off : Int) : (w ≠ 4 → (placeAt w b off).addr = b + BitVec.ofInt 64 off) ∧
    (w = 4 → (placeAt w b off).addr = b + BitVec.ofInt 64 (off / 2) ∧ ((placeAt w b off).high = true ↔ off % 2 = 1)) := by
  unfold placeAt
  refine ⟨fun hw => ?_, fun hw => ?_⟩
  · rw [beq_eq_false_iff_ne.mpr hw]
    rfl
  · rw [beq_iff_eq.mpr hw]
    exact ⟨rfl, beq_iff_eq⟩

theorem unitOf_eq (w : Nat) : unitOf w = if w = 4 then 1 else ((w / 8 : Nat) : Int) := by
  unfold unitOf
  simp only [beq_iff_eq]

/-- The strides of the two-dimensional view are the signed halves of the register, and a column stride 0 is one element. -/
theorem strides2_eq (w : Nat) (s : Word) : strides2 w s =
    ((s.setWidth 32).toInt, if s.toNat / 2 ^ 32 = 0 then unitOf w else (s.extractLsb' 32 32).toInt) := by
  have hlow : s.toNat % 2 ^ 32 = (s.setWidth 32).toNat := (BitVec.toNat_setWidth ..).symm
  have hhigh : s.toNat / 2 ^ 32 = (s.extractLsb' 32 32).toNat := by
    rw [BitVec.extractLsb'_toNat, Nat.shiftRight_eq_div_pow]
    omega
  unfold strides2
  simp only [hlow, sintN_toInt (show 0 < 32 by decide), beq_iff_eq]
  simp only [hhigh, sintN_toInt (show 0 < 32 by decide)]

theorem place_eq (f : VForm) (h : Hart) (c : VCtx) (base idx : Reg) (i : Nat) :
    f.place h c base idx i = placeAt c.w (h.ox base) (Spec.elementOffset f h c idx i) := by
  cases f with
  | unit => simp only [VForm.place, Spec.elementOffset, unitOf_eq]
  | strided => simp only [VForm.place, Spec.elementOffset, strides2_eq, unitOf_eq]
  | indexed => simp only [VForm.place, Spec.elementOffset, beq_iff_eq]

/-- An element lies at its offset from the base. -/
theorem elementAddresses : Spec.ElementAddresses := by
  intro f h c base idx i
  dsimp only
  rw [place_eq]
  exact placeAt_offset ..

/-! ### A chained load whose hart has a message on its way (R159, R160) -/

theorem advance_status (h : Hart) : h.advance.status = h.status := by
  unfold Hart.advance
  split
  · rfl
  · rfl
  · unfold Hart.nextPc
    split
    · split <;> rfl
    · rfl

/-- `VLD.CLR v0, (x0)`, its chain in the PFX before it. -/
def loadClear : VLOp := ⟨0, 1, 0, false, false, false, false, 15⟩

/-- A hart with an empty strip of INT8 and the chain of LD.CLR in its PFX, whose last message to a home has not arrived. -/
def sentBefore : State :=
  { State.reset with cur := { Hart.blank 0 with
      status := .running, lmap := 1, vlmax := 32, pfxs := 0x8000000000000706
      sent := [{ word := 0, handle := 0, item := [], arrived := 0 }] } }

/-- Whether the current hart runs on after an outcome. -/
def runsOn : Host.Outcome State Fault Refusal → Bool
  | .next t => t.cur.status == .running
  | _ => false

/-- The chained load waits until the message has arrived. -/
theorem runsOn_sentBefore : runsOn (exec (.vld loadClear) sentBefore) = false := by decide

/-- The strip has no element, so every accessed element is read at once, and yet VLD does not complete. -/
theorem not_load_vld : ¬ Spec.Load .vld .unit [6, 7, 8] := by
  intro h
  obtain ⟨-, -, completes⟩ := h loadClear sentBefore ⟨rfl, rfl, rfl⟩ rfl rfl
  obtain ⟨hart, hexec, hwritten⟩ := (completes [] sentBefore.start.bankTurn ⟨by decide, nofun⟩ rfl (.none _) (by decide) (by decide)).1 rfl
  have hstatus : hart.status = .running := (congrArg Hart.status hwritten.rest).trans (show sentBefore.start.bankTurn.cur.status = _ by decide)
  have hruns : runsOn (exec (.vld loadClear) sentBefore) = true := by
    rw [hexec]
    exact beq_iff_eq.mpr ((advance_status hart).trans hstatus)
  exact absurd hruns (by rw [runsOn_sentBefore]; decide)

end Sys2Proof.Machine

namespace Sys2Proof

/-- Of O23 the addresses hold, and its statement of VLD does not: it leaves out that a chained load waits for the messages its hart has sent. -/
theorem elementAddresses_not_load : Spec.ElementAddresses ∧ ¬ Spec.Load .vld .unit [6, 7, 8] :=
  ⟨Machine.elementAddresses, Machine.not_load_vld⟩

/-- Refutes O23: an LD.CLR of no element waits while its hart has a message on its way, where the statement has it complete. -/
theorem not_vectorLoading : ¬ Obligations.VectorLoading := by
  rintro ⟨-, hvld, -⟩
  exact Machine.not_load_vld hvld

end Sys2Proof
end

section
/-!
SUPPORT. Stream descriptors (R162, R163): what the fields of a well-formed descriptor give, and where the positions of its stream lie.
-/

namespace Sys2Proof.Machine

/-- The doubleword of dimension k of a descriptor: its stride above its count (R162). -/
def descEntry (dims : List (BitVec 32 × BitVec 32)) (k : Nat) : Word := match dims[k]? with | some e => e.2 ++ e.1 | none => 0#64

/-- The control doubleword: the direction, the format and the number of dimensions. -/
def descControl (store : Bool) (fmt n : Nat) : Word := BitVec.ofNat 64 ((if store then 1 else 0) + 16 * fmt + 256 * n)

/-- The stream of a base, a format and its dimensions. -/
def descStream (base : Word) (fmt : Nat) (dims : List (BitVec 32 × BitVec 32)) : AffDesc :=
  { base := base, fmt := fmt, strides := dims.map (fun e => e.2.toInt), counts := dims.map (fun e => e.1.toNat) }

section
variable {dims : List (BitVec 32 × BitVec 32)} {k : Nat}

theorem descEntry_toNat (h : k < dims.length) : (descEntry dims k).toNat = dims[k].2.toNat * 2 ^ 32 + dims[k].1.toNat := by
  rw [descEntry, List.getElem?_eq_getElem h]
  dsimp only
  rw [BitVec.toNat_append, ← Nat.shiftLeft_add_eq_or_of_lt dims[k].1.isLt, Nat.shiftLeft_eq]

theorem descEntry_none (h : ¬ k < dims.length) : descEntry dims k = 0#64 := by
  rw [descEntry, List.getElem?_eq_none (by omega)]

theorem descEntry_count (h : k < dims.length) : (descEntry dims k).toNat % 2 ^ 32 = dims[k].1.toNat := by
  have := dims[k].1.isLt
  rw [descEntry_toNat h]
  omega

theorem descEntry_stride (h : k < dims.length) : sintN 32 ((descEntry dims k).toNat / 2 ^ 32) = dims[k].2.toInt := by
  have hcount := dims[k].1.isLt
  rw [descEntry_toNat h, show (dims[k].2.toNat * 2 ^ 32 + dims[k].1.toNat) / 2 ^ 32 = dims[k].2.toNat by omega]
  exact sintN_toInt (by decide) _

/-- The fields of the control doubleword. -/
theorem descControl_fields {store : Bool} {fmt n : Nat} (hf : fmt ≤ 8) (hn : n ≤ 3) :
    (descControl store fmt n).toNat / 2 ^ 8 % 4 = n ∧ (descControl store fmt n).toNat / 2 ^ 4 % 16 = fmt ∧
    (descControl store fmt n).toNat / 2 ^ 10 = 0 ∧ (descControl store fmt n).toNat / 2 % 8 = 0 ∧
    ((descControl store fmt n).toNat % 2 == 1) = store := by
  rw [descControl, BitVec.toNat_ofNat]
  cases store <;> simp <;> omega

/-- A list mapped over its indices is the list of what they give. -/
theorem map_range_length {α β : Type} (l : List α) (f : Nat → β) (g : α → β) (h : ∀ k (hk : k < l.length), f k = g l[k]) :
    (List.range l.length).map f = l.map g :=
  List.ext_getElem (by simp) fun k _ hk => by
    rw [List.length_map] at hk
    simp only [List.getElem_map, List.getElem_range]
    exact h k hk

/-- A well-formed descriptor describes its stream. -/
theorem affineOf_descriptor (store : Bool) (base : Word) {fmt : Nat} (hf : fmt ≤ 8) (h1 : 1 ≤ dims.length) (h3 : dims.length ≤ 3)
    (hd : ∀ e ∈ dims, e.1 ≠ 0) :
    affineOf ([base, descControl store fmt dims.length] ++ (List.range 3).map (descEntry dims) ++ [0, 0, 0]) =
      some (store, descStream base fmt dims) := by
  obtain ⟨hdims, hfmt, hhigh, hres, hstore⟩ := descControl_fields (store := store) hf h3
  have hentry : ∀ k, k < 3 → ([base, descControl store fmt dims.length] ++ (List.range 3).map (descEntry dims) ++ [0, 0, 0]).getD (2 + k) 0 =
      descEntry dims k := fun k hk => by
    match k with
    | 0 | 1 | 2 => rfl
  generalize hds : [base, descControl store fmt dims.length] ++ (List.range 3).map (descEntry dims) ++ [0, 0, 0] = ds at hentry
  have hbase : ds.getD 0 0 = base := by rw [← hds]; rfl
  have hcontrol : ds.getD 1 0 = descControl store fmt dims.length := by rw [← hds]; rfl
  have hrest : (ds.drop 5).all (fun d => d == 0) = true := by rw [← hds]; rfl
  have hcounts : (List.range 3).all (fun k => if k < dims.length then (ds.getD (2 + k) 0).toNat % 2 ^ 32 != 0
      else (ds.getD (2 + k) 0).toNat == 0) = true := by
    refine List.all_eq_true.mpr fun k hk => ?_
    rw [hentry k (List.mem_range.mp hk)]
    by_cases h : k < dims.length
    · have hne := hd _ (List.getElem_mem h)
      rw [if_pos h, descEntry_count h, bne_iff_ne]
      exact fun e => hne (BitVec.eq_of_toNat_eq e)
    · rw [if_neg h, descEntry_none h]
      rfl
  have hstrides : (List.range dims.length).map (fun k => sintN 32 ((ds.getD (2 + k) 0).toNat / 2 ^ 32)) = dims.map (fun e => e.2.toInt) :=
    map_range_length dims _ _ fun k hk => by rw [hentry k (by omega), descEntry_stride hk]
  have htotals : (List.range dims.length).map (fun k => (ds.getD (2 + k) 0).toNat % 2 ^ 32) = dims.map (fun e => e.1.toNat) :=
    map_range_length dims _ _ fun k hk => by rw [hentry k (by omega), descEntry_count hk]
  have hne : (dims.length != 0) = true := bne_iff_ne.mpr (by omega)
  unfold affineOf descStream
  simp only [hcontrol, hdims, hfmt, hhigh, hres, hstore, hrest, hcounts, hne, hf, hstrides, htotals, hbase, beq_self_eq_true, decide_true,
    Bool.and_self, Bool.not_true, Bool.false_eq_true, if_false]

theorem descStream_total (base : Word) (fmt : Nat) (h1 : 1 ≤ dims.length) (h3 : dims.length ≤ 3) :
    (descStream base fmt dims).total = dims.foldl (fun n e => n * e.1.toNat) 1 := by
  match dims, h1, h3 with
  | [a], _, _ | [a, b], _, _ | [a, b, c], _, _ => simp [descStream, AffDesc.total]

theorem descStream_addr (base : Word) (fmt p : Nat) : (descStream base fmt dims).addr p = base + BitVec.ofInt 64 (
    ((p % (dims.getD 0 (1, 0)).1.toNat : Nat) : Int) * (dims.getD 0 (1, 0)).2.toInt +
    ((p / (dims.getD 0 (1, 0)).1.toNat % (dims.getD 1 (1, 0)).1.toNat : Nat) : Int) * (dims.getD 1 (1, 0)).2.toInt +
    ((p / (dims.getD 0 (1, 0)).1.toNat / (dims.getD 1 (1, 0)).1.toNat : Nat) : Int) * (dims.getD 2 (1, 0)).2.toInt) := by
  have hcount : ∀ k, (dims.map (fun e => e.1.toNat)).getD k 1 = (dims.getD k (1, 0)).1.toNat := fun _ => List.getD_map (d := (1, 0)) ..
  have hstride : ∀ k, (dims.map (fun e => e.2.toInt)).getD k 0 = (dims.getD k (1, 0)).2.toInt := fun _ => List.getD_map (d := (1, 0)) ..
  simp only [AffDesc.addr, descStream, hcount, hstride, Int.add_assoc]
  rw [BitVec.ofInt_add, BitVec.ofInt_natCast, BitVec.ofNat_toNat, BitVec.setWidth_eq]

end

theorem streamDescriptor : Spec.StreamDescriptor := by
  intro store base fmt dims hf h1 h3 hd
  exact ⟨descStream base fmt dims, affineOf_descriptor store base hf h1 h3 hd, rfl, descStream_total base fmt h1 h3,
    fun p _ => descStream_addr base fmt p⟩

end Sys2Proof.Machine
end

section
/-!
SUPPORT. Binding a queue to a stream, and freeing it (R163, R166, R167).
-/

namespace Sys2Proof.Machine

theorem isQ_eq (q : BitVec 3) : isQ q = fun st => st == .q q := by
  funext st
  cases st with
  | q m => by_cases h : m = q <;> simp [isQ, h]
  | _ => rfl

section
variable {q : BitVec 3} {a : Reg} {s : State}

/-! ### The effects -/

theorem sbindBody_bound (h : s.cur.rq q.toNat ≠ .unbound) : sbindBody q a s = illegal s := if_pos (bne_iff_ne.mpr h)

theorem sbindBody_misaligned (h : s.cur.rq q.toNat = .unbound) (hx : (s.cur.rx a).toNat % 64 ≠ 0) :
    sbindBody q a s = .trap { cause := 4, tval := s.cur.rx a } s :=
  (if_neg (by simp [h])).trans (if_pos (bne_iff_ne.mpr hx))

section
variable {ds : List Word} {t : State} (h : s.cur.rq q.toNat = .unbound) (hx : (s.cur.rx a).toNat % 64 = 0)
  (hload : s.loadBlock (s.cur.rx a) = (.ok ds, t))
include h hx hload

theorem sbindBody_illFormed (hbad : affineOf ds = none) : sbindBody q a s = illegal t := by
  unfold sbindBody
  simp only [h, hx, hload, hbad, bne_self_eq_false, Bool.false_eq_true, if_false]

theorem sbindBody_binds {store : Bool} {d : AffDesc} (hok : affineOf ds = some (store, d)) : sbindBody q a s =
    .done { t.drain (isQ q) with cur := (t.drain (isQ q)).cur.wq q.toNat (if store then .store d 0 else .load d 0 []) } := by
  unfold sbindBody
  simp only [h, hx, hload, hok, bne_self_eq_false, Bool.false_eq_true, if_false]

end

/-- The state of a compressed stream as it is bound (R288). -/
def boundImage (x : Word) : ImageState :=
  { header := x, total := 0, chunks := 0, lens := [], opened := false, next := 0, addr := 0, done := 0, syms := [], fail := none, marks := [],
    ask := none, paged := [] }

theorem sbindcBody_bound (h : s.cur.rq q.toNat ≠ .unbound) : sbindcBody q a s = illegal s := if_pos (bne_iff_ne.mpr h)

theorem sbindcBody_misaligned (h : s.cur.rq q.toNat = .unbound) (hx : (s.cur.rx a).toNat % 64 ≠ 0) :
    sbindcBody q a s = .trap { cause := 4, tval := s.cur.rx a } s :=
  (if_neg (by simp [h])).trans (if_pos (bne_iff_ne.mpr hx))

theorem sbindcBody_binds (h : s.cur.rq q.toNat = .unbound) (hx : (s.cur.rx a).toNat % 64 = 0) : sbindcBody q a s =
    .done { s.drain (isQ q) with cur := (s.drain (isQ q)).cur.wq q.toNat (.image (boundImage (s.cur.rx a)) 0) } :=
  (if_neg (by simp [h])).trans (if_neg (by simp [hx]))

/-! ### The instructions -/

theorem sbind_binds (hp : PlainHart s) :
    (s.cur.rq q.toNat ≠ .unbound →
      exec (.sbind q a) s = .next (s.start.trapWord (encode (.sbind q a)) { cause := 1, tval := 0 } s.start)) ∧
    (s.cur.rq q.toNat = .unbound → (s.cur.rx a).toNat % 64 ≠ 0 →
      exec (.sbind q a) s = .next (s.start.trapWord (encode (.sbind q a)) { cause := 4, tval := s.cur.rx a } s.start)) ∧
    (∀ ds t, s.cur.rq q.toNat = .unbound → (s.cur.rx a).toNat % 64 = 0 → s.start.loadBlock (s.cur.rx a) = (.ok ds, t) →
      t.blocked = none → t.cur.strikes = [] →
      (affineOf ds = none → exec (.sbind q a) s = .next (s.start.trapWord (encode (.sbind q a)) { cause := 1, tval := 0 } t)) ∧
      (∀ store d, affineOf ds = some (store, d) → (t.drain (isQ q)).blocked = none → exec (.sbind q a) s = .next
        ({ t.drain (isQ q) with cur := (t.drain (isQ q)).cur.wq q.toNat (if store then .store d 0 else .load d 0 []) } : State).completed)) := by
  have hl : s.cur.lane.isSome = true → laneMajor (encode (.sbind q a)) = true := by simp [hp.2]
  have hd : dropMajor (encode (.sbind q a)) = false := dropMajor_of 0x32#6 (wMajor_xWord ..)
  refine ⟨fun hb => ?bound, fun hb hx => ?misaligned, fun ds t hb hx hload ht hs => ⟨fun hbad => ?illFormed, fun store d hok hu => ?binds⟩⟩
  case bound => exact perform_scalar_trap hp.1 hl hd (sbindBody_bound (s := s.start) hb) rfl
  case misaligned => exact perform_scalar_trap hp.1 hl hd (sbindBody_misaligned (s := s.start) hb hx) rfl
  case illFormed => exact perform_scalar_trap hp.1 hl hd (sbindBody_illFormed (s := s.start) hb hx hload hbad) ht
  case binds =>
    exact perform_scalar_done hp.1 hl hd (sbindBody_binds (s := s.start) hb hx hload hok) hu ((drain_strikes ..).trans hs)

theorem sbindc_binds (hp : PlainHart s) :
    (s.cur.rq q.toNat ≠ .unbound →
      exec (.sbindc q a) s = .next (s.start.trapWord (encode (.sbindc q a)) { cause := 1, tval := 0 } s.start)) ∧
    (s.cur.rq q.toNat = .unbound → (s.cur.rx a).toNat % 64 ≠ 0 →
      exec (.sbindc q a) s = .next (s.start.trapWord (encode (.sbindc q a)) { cause := 4, tval := s.cur.rx a } s.start)) ∧
    (s.cur.rq q.toNat = .unbound → (s.cur.rx a).toNat % 64 = 0 → (s.start.drain (isQ q)).blocked = none → exec (.sbindc q a) s = .next
      ({ s.start.drain (isQ q) with cur := (s.start.drain (isQ q)).cur.wq q.toNat (.image (boundImage (s.cur.rx a)) 0) } : State).completed) := by
  have hl : s.cur.lane.isSome = true → laneMajor (encode (.sbindc q a)) = true := by simp [hp.2]
  have hd : dropMajor (encode (.sbindc q a)) = false := dropMajor_of 0x32#6 (wMajor_xWord ..)
  exact ⟨fun hb => perform_scalar_trap hp.1 hl hd (sbindcBody_bound (s := s.start) hb) rfl,
    fun hb hx => perform_scalar_trap hp.1 hl hd (sbindcBody_misaligned (s := s.start) hb hx) rfl,
    fun hb hx hu => perform_scalar_done hp.1 hl hd (sbindcBody_binds (s := s.start) hb hx) hu ((drain_strikes ..).trans hp.strikes)⟩

theorem sunbind_frees (hp : PlainHart s) :
    exec (.sunbind q) s = .next ({ s.start with cur := s.cur.wq q.toNat .unbound } : State).completed :=
  perform_scalar_done hp.1 (by simp [hp.2]) (dropMajor_of 0x32#6 (wMajor_xWord ..)) rfl rfl hp.strikes

end

theorem streamBinding : Spec.StreamBinding := by
  simp only [Spec.StreamBinding, ← isQ_eq]
  exact ⟨fun _ _ _ hp => sbind_binds hp,
    fun _ _ _ hp => have ⟨hbound, hmisaligned, hbinds⟩ := sbindc_binds hp
      ⟨hbound, hmisaligned, fun hb hx => ⟨boundImage _, rfl, rfl, rfl, rfl, hbinds hb hx⟩⟩,
    fun _ _ hp => sunbind_frees hp⟩

end Sys2Proof.Machine
end

section
/-!
SUPPORT. The header of a compressed image and its chunks (R285 to R287): what the unit makes of the doublewords and words it reads.
-/

namespace Sys2Proof.Machine

/-! ### The header (R285, R286) -/

/-- The lengths' sum, over the lengths that are not 0. -/
theorem kraft_eq_sum (lens : List Nat) : kraft lens = ((lens.filter (· ≠ 0)).map (fun l => 2 ^ (15 - l))).sum := by
  have hfold : ∀ n, lens.foldl (fun a l => if l == 0 then a else a + 2 ^ (15 - l)) n =
      n + ((lens.filter (· ≠ 0)).map (fun l => 2 ^ (15 - l))).sum := by
    induction lens with
    | nil => exact fun _ => rfl
    | cons l ls ih =>
      intro n
      rw [List.foldl_cons, ih]
      by_cases h : l = 0
      · simp [h]
      · simp [h, Nat.add_assoc]
  exact (hfold 0).trans (Nat.zero_add _)

/-- The sum is 0 only where no symbol is present. -/
theorem kraft_eq_zero (lens : List Nat) : kraft lens = 0 ↔ ∀ l ∈ lens, l = 0 := by
  rw [kraft_eq_sum, List.sum_eq_zero_iff]
  simp only [List.forall_mem_map, Nat.pow_eq_zero, List.mem_filter, decide_eq_true_eq]
  exact ⟨fun h l hl => by_contra fun hne => absurd (h l ⟨hl, hne⟩).1 (by decide), fun h l hl => absurd (h l hl.1) hl.2⟩

/-- Sixteen values of each item, as values of the indices they stand at. -/
theorem flatMap_sixteen (f : Nat → Nat → Nat) : ∀ ds : List Nat, ds.flatMap (fun d => (List.range 16).map (f d)) =
    (List.range (16 * ds.length)).map (fun k => f (ds.getD (k / 16) 0) (k % 16))
  | [] => rfl
  | d :: ds => by
    rw [List.flatMap_cons, flatMap_sixteen f ds, List.length_cons, Nat.mul_succ, Nat.add_comm, List.range_add, List.map_append, List.map_map]
    refine congrArg₂ (· ++ ·) rfl (List.map_congr_left fun k _ => ?_)
    rw [Function.comp_apply, Nat.add_mod_left, Nat.add_div_left _ (by decide), List.getD_cons_succ]

/-- The length table of a header: a nibble for each symbol. -/
theorem lensOf_header {ds : List Nat} (h : ds.length = 18) :
    lensOf (ds.drop 2) = (List.range 256).map (fun k => ds.getD (2 + k / 16) 0 / 2 ^ (4 * (k % 16)) % 16) := by
  have hlen : 16 * (ds.drop 2).length = 256 := by rw [List.length_drop, h]
  rw [lensOf, flatMap_sixteen (fun d k => d / 2 ^ (4 * k) % 16), hlen]
  refine List.map_congr_left fun k _ => ?_
  rw [List.getD_eq_getElem?_getD, List.getElem?_drop, ← List.getD_eq_getElem?_getD]

theorem imageLoads_length {q k : Nat} {paged : List Word} : ∀ {n : Nat} {s u : State} {a : Word} {xs : List Nat},
    s.imageLoads q paged k a n = (.ok xs, u) → xs.length = n
  | 0, _, _, _, _, h => by cases h; rfl
  | n + 1, s, u, a, xs, h => by
    unfold State.imageLoads at h
    split at h
    · split at h
      · rename_i hrest
        cases h
        exact congrArg (· + 1) (imageLoads_length hrest)
      all_goals cases h
    all_goals cases h

/-- A header that does not describe an image: its counts, and its code (R285, R286). -/
def BadHeader (t nc : Nat) (lens : List Nat) : Prop :=
  2 ^ 48 ≤ t ∨ 2 ^ 32 ≤ nc ∨ t = 0 ∨ nc = 0 ∨ (∀ l ∈ lens, l = 0) ∨
    2 ^ 15 < ((lens.filter (· ≠ 0)).map (fun l => 2 ^ (15 - l))).sum

theorem badHeader_iff (t nc : Nat) (lens : List Nat) :
    (t ≥ 2 ^ 48 || nc ≥ 2 ^ 32 || t == 0 || nc == 0 || kraft lens == 0 || kraft lens > 2 ^ 15) = true ↔ BadHeader t nc lens := by
  simp only [Bool.or_eq_true, decide_eq_true_eq, beq_iff_eq, kraft_eq_zero, or_assoc]
  rw [kraft_eq_sum]
  rfl

section
variable {s u : State} {q : Nat} {im : ImageState}

/-- The first read of an image opens its header, or finds it ill-formed. -/
theorem imageStep_opens {ds : List Nat} (hfail : im.fail = none) (hopened : im.opened = false)
    (hload : s.imageLoads q im.paged 8 im.header 18 = (.ok ds, u)) :
    s.imageStep q im = (.ok { im.openHeader ds with paged := [] }, u) := by
  unfold State.imageStep
  simp only [hfail, hopened, hload, Option.isSome_none, Bool.false_and, Bool.or_self, Bool.not_false, Bool.false_eq_true, if_true, if_false]

theorem openHeader_bad {ds : List Nat} (h : BadHeader (ds.getD 0 0) (ds.getD 1 0) (lensOf (ds.drop 2))) :
    im.openHeader ds = { im with opened := true, fail := some .decode } :=
  if_pos ((badHeader_iff ..).mpr h)

theorem openHeader_good {ds : List Nat} (h : ¬ BadHeader (ds.getD 0 0) (ds.getD 1 0) (lensOf (ds.drop 2))) :
    im.openHeader ds = { im with total := ds.getD 0 0, chunks := ds.getD 1 0, lens := lensOf (ds.drop 2), opened := true, next := 0,
                                 addr := im.header + 144 } :=
  if_neg fun e => h ((badHeader_iff ..).mp e)

/-! ### The chunks (R287) -/

/-- A chunk whose counts do not agree with its image (R287). -/
def BadChunk (im : ImageState) (ns nw : Nat) : Prop :=
  nw = 0 ∨ 2 ^ 20 < nw ∨ ns = 0 ∨ 65536 < ns ∨ im.total < im.done + ns ∨ (im.next + 1 = im.chunks ∧ im.done + ns < im.total)

theorem badChunk_iff (im : ImageState) (ns nw : Nat) :
    (nw == 0 || nw > 2 ^ 20 || ns == 0 || ns > 65536 || im.done + ns > im.total || (im.next + 1 == im.chunks && im.done + ns < im.total)) = true ↔
      BadChunk im ns nw := by
  simp only [Bool.or_eq_true, Bool.and_eq_true, decide_eq_true_eq, beq_iff_eq, or_assoc]
  rfl

/-- The image after a chunk has been decoded. -/
def ImageState.decoded (im : ImageState) (ns nw : Nat) (syms : List Nat) : ImageState :=
  { im with opened := true, fail := none, paged := [], next := im.next + 1, done := im.done + ns, syms := im.syms ++ syms,
            marks := im.marks ++ [(im.next, im.addr, im.done)], addr := im.addr + BitVec.ofNat 64 ((8 + 4 * nw + 7) / 8 * 8) }

variable {hd : Nat} (hfail : im.fail = none) (hopened : im.opened = true) (hmore : im.next < im.chunks)
  (hload : s.imageLoad q im.paged im.addr 8 = (.ok hd, u))
include hfail hopened hmore hload

theorem imageStep_badChunk (h : BadChunk im (hd % 2 ^ 32) (hd / 2 ^ 32)) : s.imageStep q im = (.ok { im with fail := some .decode }, u) := by
  unfold State.imageStep
  simp only [hfail, hopened, hload, Option.isSome_none, Bool.false_or, Bool.true_and, ge_iff_le, decide_eq_true_eq, Nat.not_le.mpr hmore,
    Bool.not_true, Bool.false_eq_true, if_false]
  exact if_pos ((badChunk_iff ..).mpr h)

theorem imageStep_chunk {ws : List Nat} {v : State} (h : ¬ BadChunk im (hd % 2 ^ 32) (hd / 2 ^ 32))
    (hwords : u.imageLoads q im.paged 4 (im.addr + 8) (hd / 2 ^ 32) = (.ok ws, v)) :
    s.imageStep q im = (.ok (match decodeChunk im.lens (hd % 2 ^ 32) ws with
      | none => { im with fail := some .decode }
      | some syms => im.decoded (hd % 2 ^ 32) (hd / 2 ^ 32) syms), v) := by
  unfold State.imageStep
  simp only [hfail, hopened, hload, hwords, Option.isSome_none, Bool.false_or, Bool.true_and, ge_iff_le, decide_eq_true_eq,
    Nat.not_le.mpr hmore, Bool.not_true, Bool.false_eq_true, if_false]
  refine (if_neg fun e => h ((badChunk_iff ..).mp e)).trans ?_
  cases decodeChunk im.lens (hd % 2 ^ 32) ws <;> rfl

end

/-- The next chunk begins at the doubleword after the words of this one. -/
theorem decoded_addr {im : ImageState} {ns nw : Nat} {syms : List Nat} (halign : im.addr.toNat % 8 = 0)
    (hend : im.addr.toNat + 8 + 4 * nw + 8 ≤ 2 ^ 64) : (im.decoded ns nw syms).addr.toNat = (im.addr.toNat + 8 + 4 * nw + 7) / 8 * 8 := by
  rw [ImageState.decoded, BitVec.toNat_add, BitVec.toNat_ofNat]
  omega

end Sys2Proof.Machine
end

section
/-!
SUPPORT. The decoder lanes of a chunk (R289): the lists of lanes that the model folds over are the lanes of the statements' decoder.
-/

namespace Sys2Proof.Machine

/-- Lanes l to l + m − 1 of a decoder. -/
def lanesOf (x : Spec.Decoder) (l m : Nat) : List DLane := (List.range' l m).map (fun k => (x.buf k, x.n k))

/-- Two decoders with the same lanes below l. -/
def KeepsBelow (l : Nat) (x y : Spec.Decoder) : Prop := ∀ k, k < l → y.buf k = x.buf k ∧ y.n k = x.n k

/-- Two decoders that differ in lane l alone. -/
def OnlyLane (l : Nat) (x y : Spec.Decoder) : Prop := ∀ k, k ≠ l → y.buf k = x.buf k ∧ y.n k = x.n k

theorem lanesOf_succ (x : Spec.Decoder) (l m : Nat) : lanesOf x l (m + 1) = (x.buf l, x.n l) :: lanesOf x (l + 1) m := by
  rw [lanesOf, List.range'_succ]
  rfl

theorem OnlyLane.lanesAbove {l : Nat} {x y : Spec.Decoder} (h : OnlyLane l x y) (m : Nat) : lanesOf y (l + 1) m = lanesOf x (l + 1) m :=
  List.map_congr_left fun k hk => by
    obtain ⟨hbuf, hn⟩ := h k (by have := List.mem_range'_1.mp hk; omega)
    rw [hbuf, hn]

theorem KeepsBelow.refl (l : Nat) (x : Spec.Decoder) : KeepsBelow l x x := fun _ _ => ⟨rfl, rfl⟩

/-- A step of lane l and then of the lanes above it keeps the lanes below l. -/
theorem OnlyLane.keepsBelow {l : Nat} {x y z : Spec.Decoder} (h : OnlyLane l x y) (k : KeepsBelow (l + 1) y z) : KeepsBelow l x z :=
  fun j hj =>
    have ⟨hbuf, hn⟩ := h j (by omega)
    have ⟨hbuf', hn'⟩ := k j (by omega)
    ⟨hbuf'.trans hbuf, hn'.trans hn⟩

theorem OnlyLane.refl (l : Nat) (x : Spec.Decoder) : OnlyLane l x x := fun _ _ => ⟨rfl, rfl⟩

/-! ### Claims -/

theorem claims_none (ls : List DLane) (ws : List Nat) : claims ls 0 ws = some (ls, ws) := by
  cases ls <;> rfl

/-- The claim of one lane: one with a symbol left takes a word while it has fewer than 32 bits. -/
def claimLane (active : Bool) (p : DLane) (ws : List Nat) : Option (DLane × List Nat) :=
  if active && p.2 < 32 then
    match ws with
    | [] => none
    | w :: ws => some ((p.1 + w * 2 ^ p.2, p.2 + 32), ws)
  else some (p, ws)

theorem claims_cons (p : DLane) (ls : List DLane) (left : Nat) (ws : List Nat) : claims (p :: ls) left ws =
    (claimLane (0 < left) p ws).bind (fun r => (claims ls (left - 1) r.2).map (fun q => (r.1 :: q.1, q.2))) := by
  obtain ⟨b, n⟩ := p
  cases left with
  | zero => simp [claimLane, claims_none]
  | succ left =>
    rw [claims.eq_def]
    unfold claimLane
    dsimp only
    by_cases hn : n < 32
    · cases ws <;> simp [hn]
    · simp [hn]

section
variable {ns st : Nat}

theorem claimLane_eq_claim (x : Spec.Decoder) (l : Nat) : claimLane (0 < ns - (16 * st + l)) (x.buf l, x.n l) x.ws =
    (Spec.claim ns st x l).map (fun z => ((z.buf l, z.n l), z.ws)) := by
  have hleft : 0 < ns - (16 * st + l) ↔ 16 * st + l < ns := Nat.sub_pos_iff_lt
  unfold claimLane Spec.claim
  simp only [hleft, Bool.and_eq_true, decide_eq_true_eq]
  split
  · cases x.ws <;> simp
  · rfl

theorem claim_onlyLane {x y : Spec.Decoder} {l : Nat} (h : Spec.claim ns st x l = some y) : OnlyLane l x y ∧ y.syms = x.syms := by
  unfold Spec.claim at h
  split at h
  · split at h
    · cases h
    · cases h
      exact ⟨fun k hk => by simp only [hk, if_false]; exact ⟨trivial, trivial⟩, rfl⟩
  · cases h
    exact ⟨.refl _ _, rfl⟩

theorem claims_keep : ∀ (m l : Nat) (x y : Spec.Decoder), (List.range' l m).foldlM (Spec.claim ns st) x = some y →
    KeepsBelow l x y ∧ y.syms = x.syms
  | 0, l, x, y, h => by
    cases h
    exact ⟨.refl _ _, rfl⟩
  | m + 1, l, x, y, h => by
    rw [List.range'_succ, List.foldlM_cons] at h
    obtain ⟨z, hz, hy⟩ := Option.bind_eq_some_iff.mp h
    obtain ⟨honly, hsyms⟩ := claim_onlyLane hz
    obtain ⟨hkeep, hsyms'⟩ := claims_keep m (l + 1) z y hy
    exact ⟨honly.keepsBelow hkeep, hsyms'.trans hsyms⟩

/-- The claims of a step, lane after lane. -/
theorem claims_eq_foldlM : ∀ (m l : Nat) (x : Spec.Decoder), claims (lanesOf x l m) (ns - (16 * st + l)) x.ws =
    ((List.range' l m).foldlM (Spec.claim ns st) x).map (fun y => (lanesOf y l m, y.ws))
  | 0, _, _ => rfl
  | m + 1, l, x => by
    rw [lanesOf_succ, claims_cons, claimLane_eq_claim, List.range'_succ, List.foldlM_cons]
    cases hz : Spec.claim ns st x l with
    | none => rfl
    | some z =>
      obtain ⟨honly, -⟩ := claim_onlyLane hz
      simp only [Option.map_some, Option.bind_some, Option.bind_eq_bind]
      rw [← honly.lanesAbove m, Nat.sub_sub, Nat.add_assoc, claims_eq_foldlM m (l + 1) z, Option.map_map]
      refine Option.map_congr fun y hy => ?_
      obtain ⟨hbuf, hn⟩ := (claims_keep m (l + 1) z y hy).1 l (Nat.lt_succ_self l)
      rw [Function.comp_apply, lanesOf_succ, hbuf, hn]

/-! ### Decodes -/

variable {lens : List Nat}

theorem decodes_none (table : List (Nat × Nat × Nat)) (ls : List DLane) : decodes table ls 0 = some (ls, []) := by
  cases ls <;> rfl

/-- The decode of one lane: one with a symbol left takes the codeword at the bottom of its buffer. -/
def decodeLane (table : List (Nat × Nat × Nat)) (active : Bool) (p : DLane) : Option (DLane × List Nat) :=
  if active then (matchCode table p.1).map (fun r => ((p.1 / 2 ^ r.1, p.2 - r.1), [r.2])) else some (p, [])

theorem decodes_cons (table : List (Nat × Nat × Nat)) (p : DLane) (ls : List DLane) (left : Nat) : decodes table (p :: ls) left =
    (decodeLane table (0 < left) p).bind (fun r => (decodes table ls (left - 1)).map (fun q => (r.1 :: q.1, r.2 ++ q.2))) := by
  obtain ⟨b, n⟩ := p
  cases left with
  | zero => simp [decodeLane, decodes_none]
  | succ left =>
    rw [decodes.eq_def]
    unfold decodeLane
    dsimp only
    cases matchCode table b <;> simp

theorem decodeLane_eq_symbol (x : Spec.Decoder) (l : Nat) :
    (decodeLane (codeTable lens) (0 < ns - (16 * st + l)) (x.buf l, x.n l)).map (fun r => (r.1, x.syms ++ r.2)) =
      (Spec.symbol lens ns st x l).map (fun z => ((z.buf l, z.n l), z.syms)) := by
  have hleft : 0 < ns - (16 * st + l) ↔ 16 * st + l < ns := Nat.sub_pos_iff_lt
  unfold decodeLane Spec.symbol
  simp only [hleft, decide_eq_true_eq]
  split
  · cases matchCode (codeTable lens) (x.buf l) <;> simp
  · simp

theorem symbol_onlyLane {x y : Spec.Decoder} {l : Nat} (h : Spec.symbol lens ns st x l = some y) : OnlyLane l x y ∧ y.ws = x.ws := by
  unfold Spec.symbol at h
  split at h
  · split at h
    · cases h
    · cases h
      exact ⟨fun k hk => by simp only [hk, if_false]; exact ⟨trivial, trivial⟩, rfl⟩
  · cases h
    exact ⟨.refl _ _, rfl⟩

theorem symbols_keep : ∀ (m l : Nat) (x y : Spec.Decoder), (List.range' l m).foldlM (Spec.symbol lens ns st) x = some y →
    KeepsBelow l x y ∧ y.ws = x.ws
  | 0, l, x, y, h => by
    cases h
    exact ⟨.refl _ _, rfl⟩
  | m + 1, l, x, y, h => by
    rw [List.range'_succ, List.foldlM_cons] at h
    obtain ⟨z, hz, hy⟩ := Option.bind_eq_some_iff.mp h
    obtain ⟨honly, hws⟩ := symbol_onlyLane hz
    obtain ⟨hkeep, hws'⟩ := symbols_keep m (l + 1) z y hy
    exact ⟨honly.keepsBelow hkeep, hws'.trans hws⟩

/-- The decodes of a step, lane after lane. -/
theorem decodes_eq_foldlM : ∀ (m l : Nat) (x : Spec.Decoder),
    (decodes (codeTable lens) (lanesOf x l m) (ns - (16 * st + l))).map (fun r => (r.1, x.syms ++ r.2)) =
      ((List.range' l m).foldlM (Spec.symbol lens ns st) x).map (fun y => (lanesOf y l m, y.syms))
  | 0, _, x => by simp [lanesOf, decodes]
  | m + 1, l, x => by
    have hlane := decodeLane_eq_symbol (lens := lens) (ns := ns) (st := st) x l
    rw [lanesOf_succ, decodes_cons, List.range'_succ, List.foldlM_cons]
    cases hz : Spec.symbol lens ns st x l with
    | none =>
      rw [hz] at hlane
      rw [Option.map_eq_none_iff.mp hlane]
      rfl
    | some z =>
      rw [hz] at hlane
      obtain ⟨honly, -⟩ := symbol_onlyLane hz
      obtain ⟨⟨p, syms⟩, hp, hpz⟩ := Option.map_eq_some_iff.mp hlane
      obtain ⟨rfl, hsyms⟩ := Prod.mk.inj hpz
      rw [hp]
      simp only [Option.bind_some, Option.bind_eq_bind, Option.map_map]
      rw [← honly.lanesAbove m, Nat.sub_sub, Nat.add_assoc]
      have ih := decodes_eq_foldlM m (l + 1) z
      have hcons := congrArg (Option.map (fun r => ((z.buf l, z.n l) :: r.1, r.2))) ih
      rw [Option.map_map, Option.map_map] at hcons
      refine Eq.trans (Option.map_congr fun r _ => ?_) (hcons.trans (Option.map_congr fun y hy => ?_))
      · simp only [Function.comp_apply, ← hsyms, List.append_assoc]
      · obtain ⟨hbuf, hn⟩ := (symbols_keep m (l + 1) z y hy).1 l (Nat.lt_succ_self l)
        rw [Function.comp_apply, lanesOf_succ, hbuf, hn]

/-! ### Chunks -/

/-- A step of a chunk: the claims and then the decodes. -/
def chunkStep (lens : List Nat) (ns : Nat) (x : Spec.Decoder) (st : Nat) : Option Spec.Decoder :=
  ((List.range 16).foldlM (Spec.claim ns st) x).bind (fun x => (List.range 16).foldlM (Spec.symbol lens ns st) x)

theorem chunkSteps_eq_foldlM : ∀ (n st : Nat) (x : Spec.Decoder),
    (chunkSteps (codeTable lens) n (lanesOf x 0 16) (ns - 16 * st) x.ws).map (fun r => x.syms ++ r) =
      ((List.range' st n).foldlM (chunkStep lens ns) x).bind (fun y => if y.ws = [] then some y.syms else none)
  | 0, st, x => by
    unfold chunkSteps
    cases hws : x.ws <;> simp [hws]
  | n + 1, st, x => by
    have hclaims := claims_eq_foldlM (ns := ns) (st := st) 16 0 x
    rw [List.range'_succ, List.foldlM_cons, chunkStep, List.range_eq_range', chunkSteps]
    rw [Nat.add_zero] at hclaims
    rw [hclaims]
    cases hy : (List.range' 0 16).foldlM (Spec.claim ns st) x with
    | none => rfl
    | some y =>
      obtain ⟨-, hsyms⟩ := claims_keep 16 0 x y hy
      have hdecodes := decodes_eq_foldlM (lens := lens) (ns := ns) (st := st) 16 0 y
      rw [Nat.add_zero] at hdecodes
      simp only [Option.map_some, Option.bind_some, Option.bind_eq_bind]
      cases hz : (List.range' 0 16).foldlM (Spec.symbol lens ns st) y with
      | none =>
        rw [hz] at hdecodes
        rw [Option.map_eq_none_iff.mp hdecodes]
        rfl
      | some z =>
        rw [hz] at hdecodes
        obtain ⟨-, hws⟩ := symbols_keep 16 0 y z hz
        obtain ⟨⟨lanes, new⟩, hlanes, hnew⟩ := Option.map_eq_some_iff.mp hdecodes
        obtain ⟨rfl, hnew⟩ := Prod.mk.inj hnew
        rw [hlanes, ← hws, ← hsyms]
        dsimp only
        rw [Nat.sub_sub, ← Nat.mul_succ, Option.bind_some, ← chunkSteps_eq_foldlM n (st + 1) z, Option.map_map]
        exact Option.map_congr fun r _ => by rw [Function.comp_apply, ← List.append_assoc, hnew]

/-- A chunk is decoded step after step, and it must use up its words. -/
theorem decodeChunk_eq (lens : List Nat) (ns : Nat) (ws : List Nat) : decodeChunk lens ns ws =
    ((List.range ((ns + 15) / 16)).foldlM (chunkStep lens ns) { buf := fun _ => 0, n := fun _ => 0, ws := ws, syms := [] }).bind
      (fun x => if x.ws = [] then some x.syms else none) := by
  have h := chunkSteps_eq_foldlM (lens := lens) (ns := ns) ((ns + 15) / 16) 0 { buf := fun _ => 0, n := fun _ => 0, ws := ws, syms := [] }
  rw [List.range_eq_range', ← h]
  simp only [List.nil_append, Option.map_id_fun']
  rfl

end

end Sys2Proof.Machine
end

section
/-!
SUPPORT. The canonical code of an image (R286): the table lists the symbols in code order with the codes of the statements, no codeword begins
another, and so a buffer holds at most one of them.
-/

namespace Sys2Proof.Machine

/-! ### The order of the symbols -/

/-- The order of the table: by length, then by symbol. -/
def CodeLt (e f : Nat × Nat) : Prop := e.1 < f.1 ∨ (e.1 = f.1 ∧ e.2 < f.2)

/-- Symbol t has a codeword and comes before symbol s. -/
def comesBefore (lens : List Nat) (s t : Nat) : Bool :=
  lens.getD t 0 != 0 && (lens.getD t 0 < lens.getD s 0 || (lens.getD t 0 == lens.getD s 0 && t < s))

theorem comesBefore_iff (lens : List Nat) (s t : Nat) : comesBefore lens s t = true ↔
    lens.getD t 0 ≠ 0 ∧ CodeLt (lens.getD t 0, t) (lens.getD s 0, s) := by
  simp [comesBefore, CodeLt]

theorem codeOrder_sorted (lens : List Nat) : (codeOrder lens).Pairwise CodeLt := by
  refine List.pairwise_flatMap.mpr ⟨fun l _ => ?_, List.pairwise_lt_range.imp fun hlt x hx y hy => ?_⟩
  · exact List.pairwise_map.mpr ((List.pairwise_lt_range.filter _).imp fun hlt => .inr ⟨rfl, hlt⟩)
  · obtain ⟨s, -, rfl⟩ := List.mem_map.mp hx
    obtain ⟨t, -, rfl⟩ := List.mem_map.mp hy
    exact .inl (Nat.succ_lt_succ hlt)

theorem mem_codeOrder {lens : List Nat} {e : Nat × Nat} :
    e ∈ codeOrder lens ↔ e.2 < 256 ∧ e.1 = lens.getD e.2 0 ∧ e.1 ≠ 0 ∧ e.1 ≤ 15 := by
  obtain ⟨l, s⟩ := e
  simp only [codeOrder, List.mem_flatMap, List.mem_map, List.mem_filter, List.mem_range, beq_iff_eq, Prod.mk.injEq]
  constructor
  · rintro ⟨k, hk, s', ⟨hs, hlen⟩, rfl, rfl⟩
    exact ⟨hs, hlen.symm, by omega, by omega⟩
  · rintro ⟨hs, hlen, h0, h15⟩
    exact ⟨l - 1, by omega, s, ⟨hs, by omega⟩, by omega, rfl⟩

/-! ### The codes as sums of shares -/

/-- The symbols before s. -/
def symbolsBefore (lens : List Nat) (s : Nat) : Finset Nat := (Finset.range 256).filter (fun t => comesBefore lens s t = true)

theorem mem_symbolsBefore {lens : List Nat} {s t : Nat} : t ∈ symbolsBefore lens s ↔ t < 256 ∧ comesBefore lens s t = true := by
  rw [symbolsBefore, Finset.mem_filter, Finset.mem_range]

/-- A sum over the indices a list keeps is a sum over the finite set of them. -/
theorem sum_filter_range (n : Nat) (p : Nat → Bool) (f : Nat → Nat) :
    (((List.range n).filter p).map f).sum = ∑ t ∈ (Finset.range n).filter (fun t => p t = true), f t := by
  rw [← List.sum_toFinset f (List.nodup_range.filter p), List.toFinset_filter, List.toFinset_range]

theorem codeOf_eq_sum (lens : List Nat) (s : Nat) :
    Spec.codeOf lens s = ∑ t ∈ symbolsBefore lens s, 2 ^ (lens.getD s 0 - lens.getD t 0) :=
  sum_filter_range 256 (comesBefore lens s) _

theorem not_mem_symbolsBefore_self (lens : List Nat) (s : Nat) : s ∉ symbolsBefore lens s := by
  rw [mem_symbolsBefore, comesBefore_iff]
  rintro ⟨-, -, h | ⟨-, h⟩⟩ <;> exact absurd h (Nat.lt_irrefl _)

/-- The code space, at length l, of the symbols up to s. -/
theorem codeOf_succ_shares (lens : List Nat) {s l : Nat} (hl : lens.getD s 0 ≤ l) : (Spec.codeOf lens s + 1) * 2 ^ (l - lens.getD s 0) =
    ∑ t ∈ insert s (symbolsBefore lens s), 2 ^ (l - lens.getD t 0) := by
  rw [Finset.sum_insert (not_mem_symbolsBefore_self lens s), codeOf_eq_sum, Nat.add_one_mul, Finset.sum_mul, Nat.add_comm]
  refine congrArg (_ + ·) (Finset.sum_congr rfl fun t ht => ?_)
  have hle : lens.getD t 0 ≤ lens.getD s 0 := by
    obtain ⟨-, h⟩ := mem_symbolsBefore.mp ht
    obtain ⟨-, h | ⟨h, -⟩⟩ := (comesBefore_iff ..).mp h
    · exact Nat.le_of_lt h
    · exact Nat.le_of_eq h
  rw [← Nat.pow_add]
  congr 1
  omega

/-- A later code lies beyond the code space of an earlier one. -/
theorem codeOf_grows {lens : List Nat} {s t : Nat} (hs : s < 256) (h : comesBefore lens t s = true) :
    (Spec.codeOf lens s + 1) * 2 ^ (lens.getD t 0 - lens.getD s 0) ≤ Spec.codeOf lens t := by
  have hst := (comesBefore_iff ..).mp h
  have hle : lens.getD s 0 ≤ lens.getD t 0 := by
    obtain ⟨-, h | ⟨h, -⟩⟩ := hst
    · exact Nat.le_of_lt h
    · exact Nat.le_of_eq h
  rw [codeOf_succ_shares lens hle, codeOf_eq_sum lens t]
  refine Finset.sum_le_sum_of_subset fun r hr => ?_
  rcases Finset.mem_insert.mp hr with rfl | hr
  · exact mem_symbolsBefore.mpr ⟨hs, h⟩
  · obtain ⟨hr256, hrs⟩ := mem_symbolsBefore.mp hr
    refine mem_symbolsBefore.mpr ⟨hr256, (comesBefore_iff ..).mpr ⟨((comesBefore_iff ..).mp hrs).1, ?_⟩⟩
    have hrs := ((comesBefore_iff ..).mp hrs).2
    obtain ⟨-, hst⟩ := hst
    simp only [CodeLt] at hrs hst ⊢
    omega

theorem kraft_eq_symbols {lens : List Nat} (hlen : lens.length = 256) :
    kraft lens = ∑ t ∈ (Finset.range 256).filter (fun t => (lens.getD t 0 != 0) = true), 2 ^ (15 - lens.getD t 0) := by
  have hlist : lens = (List.range 256).map (fun t => lens.getD t 0) :=
    List.ext_getElem (by simp [hlen]) fun k hk _ => by simp [hk]
  rw [← sum_filter_range 256 (fun t => lens.getD t 0 != 0), kraft_eq_sum]
  conv_lhs => rw [hlist]
  rw [List.filter_map, List.map_map]
  refine congrArg List.sum (congrArg₂ List.map rfl (List.filter_congr fun t _ => ?_))
  rw [Function.comp_apply]
  generalize lens.getD t 0 = l
  cases l <;> rfl

/-- With a Kraft sum of at most 1 a code has no more bits than its length (R286). -/
theorem codeOf_lt {lens : List Nat} (hlen : lens.length = 256) (h15 : ∀ l ∈ lens, l ≤ 15) (hk : kraft lens ≤ 2 ^ 15) {s : Nat} (hs : s < 256)
    (h0 : lens.getD s 0 ≠ 0) : Spec.codeOf lens s < 2 ^ lens.getD s 0 := by
  have hle : lens.getD s 0 ≤ 15 := by
    rw [List.getD_eq_getElem _ _ (by omega)]
    exact h15 _ (List.getElem_mem _)
  have hspace : (Spec.codeOf lens s + 1) * 2 ^ (15 - lens.getD s 0) ≤ 2 ^ 15 := by
    rw [codeOf_succ_shares lens hle]
    refine le_trans (Finset.sum_le_sum_of_subset fun t ht => ?_) ((kraft_eq_symbols hlen).symm.le.trans hk)
    rcases Finset.mem_insert.mp ht with rfl | ht
    · exact Finset.mem_filter.mpr ⟨Finset.mem_range.mpr hs, bne_iff_ne.mpr h0⟩
    · obtain ⟨ht256, hbefore⟩ := mem_symbolsBefore.mp ht
      exact Finset.mem_filter.mpr ⟨Finset.mem_range.mpr ht256, bne_iff_ne.mpr ((comesBefore_iff ..).mp hbefore).1⟩
  have hsplit : 2 ^ 15 = 2 ^ lens.getD s 0 * 2 ^ (15 - lens.getD s 0) := by
    rw [← Nat.pow_add]
    congr 1
    omega
  exact Nat.le_of_mul_le_mul_right (hsplit ▸ hspace) (Nat.two_pow_pos _)

/-! ### The table -/

section
variable {lens : List Nat}

/-- The symbols before one of the table are those that stand above it. -/
theorem symbolsBefore_codeOrder {p r : List (Nat × Nat)} {x : Nat × Nat} (h15 : ∀ l ∈ lens, l ≤ 15)
    (h : codeOrder lens = p ++ x :: r) (t : Nat) : t ∈ symbolsBefore lens x.2 ↔ (lens.getD t 0, t) ∈ p := by
  have hsorted := h ▸ codeOrder_sorted lens
  have hlength : ∀ t, lens.getD t 0 ≤ 15 := fun t => by
    rw [List.getD_eq_getElem?_getD]
    cases ht : lens[t]? with
    | none => simp
    | some l => exact h15 l (List.mem_of_getElem? ht)
  obtain ⟨-, hx, -⟩ := mem_codeOrder.mp (h ▸ List.mem_append_right p List.mem_cons_self)
  obtain ⟨-, hright, habove⟩ := List.pairwise_append.mp hsorted
  have hpair : x = (lens.getD x.2 0, x.2) := Prod.ext hx rfl
  rw [mem_symbolsBefore, comesBefore_iff, ← hpair]
  constructor
  · rintro ⟨ht, h0, hlt⟩
    have hmem : (lens.getD t 0, t) ∈ p ++ x :: r := h ▸ mem_codeOrder.mpr ⟨ht, rfl, h0, hlength t⟩
    rcases List.mem_append.mp hmem with hp | hr
    · exact hp
    · exfalso
      rcases List.mem_cons.mp hr with rfl | hr
      · simp [CodeLt] at hlt
      · have := (List.pairwise_cons.mp hright).1 _ hr
        simp only [CodeLt] at this hlt
        omega
  · intro hp
    obtain ⟨ht, -, h0, -⟩ := mem_codeOrder.mp (h ▸ List.mem_append_left _ hp)
    exact ⟨ht, h0, habove _ hp x List.mem_cons_self⟩

/-- The entry of a symbol: its length, its code and itself. -/
def codeEntry (lens : List Nat) (e : Nat × Nat) : Nat × Nat × Nat := (e.1, Spec.codeOf lens e.2, e.2)

theorem codeAssign_cons (e : Nat × Nat) (r : List (Nat × Nat)) (len code : Nat) : codeAssign (e :: r) len code =
    (e.1, code * 2 ^ (e.1 - len), e.2) :: codeAssign r e.1 (code * 2 ^ (e.1 - len) + 1) := rfl

/-- The codes after that of symbol x follow it. -/
theorem codeAssign_after (h15 : ∀ l ∈ lens, l ≤ 15) : ∀ (r p : List (Nat × Nat)) (x : Nat × Nat), codeOrder lens = p ++ x :: r →
    codeAssign r x.1 (Spec.codeOf lens x.2 + 1) = r.map (codeEntry lens)
  | [], _, _, _ => rfl
  | y :: r, p, x, h => by
    have hnext : codeOrder lens = (p ++ [x]) ++ y :: r := by rw [h, List.append_assoc]; rfl
    obtain ⟨-, hx, -⟩ := mem_codeOrder.mp (h ▸ List.mem_append_right p List.mem_cons_self)
    obtain ⟨-, hy, -⟩ := mem_codeOrder.mp (hnext ▸ List.mem_append_right (p ++ [x]) List.mem_cons_self)
    have hset : symbolsBefore lens y.2 = insert x.2 (symbolsBefore lens x.2) := by
      ext t
      rw [symbolsBefore_codeOrder h15 hnext, Finset.mem_insert, symbolsBefore_codeOrder h15 h, List.mem_append, List.mem_singleton, Or.comm,
        Prod.ext_iff, hx]
      refine or_congr_left ⟨fun e => e.2, fun e => ⟨by rw [e], e⟩⟩
    have hxy : x.1 ≤ y.1 := by
      have := (List.pairwise_append.mp (hnext ▸ codeOrder_sorted lens)).2.2 x (by simp) y (by simp)
      simp only [CodeLt] at this
      omega
    have hcode : Spec.codeOf lens y.2 = (Spec.codeOf lens x.2 + 1) * 2 ^ (y.1 - x.1) := by
      rw [codeOf_eq_sum, hset, hx, hy, codeOf_succ_shares lens (hx ▸ hy ▸ hxy)]
    rw [codeAssign_cons, List.map_cons, ← hcode, codeAssign_after h15 r (p ++ [x]) y hnext]
    rfl

/-- The table lists the symbols in code order with their codes. -/
theorem codeTable_eq (h15 : ∀ l ∈ lens, l ≤ 15) : codeTable lens = (codeOrder lens).map (codeEntry lens) := by
  unfold codeTable
  cases h : codeOrder lens with
  | nil => rfl
  | cons x r =>
    have hzero : Spec.codeOf lens x.2 = 0 := by
      rw [codeOf_eq_sum, Finset.eq_empty_of_forall_notMem fun t ht => List.not_mem_nil ((symbolsBefore_codeOrder h15 (p := []) h t).mp ht)]
      rfl
    have hrest := codeAssign_after h15 r [] x h
    rw [hzero] at hrest
    exact (codeAssign_cons x r x.1 0).trans (by rw [Nat.zero_mul, hrest, List.map_cons, codeEntry, hzero])

/-! ### The codeword at the bottom of a buffer -/

theorem revBits_lt : ∀ (l x : Nat), revBits l x < 2 ^ l
  | 0, _ => Nat.one_pos
  | l + 1, x => by
    have := revBits_lt l (x / 2)
    rw [revBits, Nat.pow_succ]
    have hbit : x % 2 ≤ 1 := by omega
    have := Nat.mul_le_mul_right (2 ^ l) hbit
    omega

theorem testBit_revBits : ∀ (l x j : Nat), (revBits l x).testBit j = (decide (j < l) && x.testBit (l - 1 - j))
  | 0, _, _ => by simp [revBits]
  | l + 1, x, j => by
    rw [revBits, Nat.mul_comm, Nat.testBit_two_pow_mul_add _ (revBits_lt l (x / 2))]
    split
    · rename_i h
      rw [testBit_revBits l (x / 2) j, Nat.testBit_div_two]
      simp only [h, decide_true, Bool.true_and, show j < l + 1 by omega, show l - 1 - j + 1 = l + 1 - 1 - j by omega]
    · rename_i h
      by_cases hj : j = l
      · subst hj
        simp [Nat.testBit_zero]
      · rw [show (decide (j < l + 1)) = false by simp; omega, Bool.false_and]
        exact Nat.testBit_lt_two_pow (Nat.lt_of_lt_of_le (Nat.mod_lt x (by decide)) (by
          rw [show j - l = (j - l - 1) + 1 by omega, Nat.pow_succ]; have := Nat.two_pow_pos (j - l - 1); omega))

/-- The first bits of a buffer are those of its longer beginnings. -/
theorem revBits_div {l m : Nat} (h : l ≤ m) (x : Nat) : revBits m x / 2 ^ (m - l) = revBits l x := by
  refine Nat.eq_of_testBit_eq fun j => ?_
  rw [Nat.testBit_div_two_pow, testBit_revBits, testBit_revBits, show m - 1 - (j + (m - l)) = l - 1 - j by omega]
  congr 1
  simp only [decide_eq_decide]
  omega

/-- The first bits of a buffer are a codeword of their number, its most significant bit first. -/
theorem revBits_eq_iff {l c : Nat} (hc : c < 2 ^ l) (x : Nat) : revBits l x = c ↔ ∀ j, j < l → x.testBit j = c.testBit (l - 1 - j) := by
  constructor
  · rintro rfl j hj
    rw [testBit_revBits, show l - 1 - (l - 1 - j) = j by omega, show decide (l - 1 - j < l) = true by simp; omega, Bool.true_and]
  · intro h
    refine Nat.eq_of_testBit_eq fun j => ?_
    rw [testBit_revBits]
    by_cases hj : j < l
    · rw [decide_eq_true hj, Bool.true_and, h _ (by omega), show l - 1 - (l - 1 - j) = j by omega]
    · rw [decide_eq_false hj, Bool.false_and, Nat.testBit_lt_two_pow (Nat.lt_of_lt_of_le hc (Nat.pow_le_pow_right (by decide) (by omega)))]

/-- No codeword begins another. -/
theorem codes_prefixFree {e f : Nat × Nat} {x : Nat} (he : e ∈ codeOrder lens) (hf : f ∈ codeOrder lens) (h : CodeLt e f)
    (hx : revBits e.1 x = Spec.codeOf lens e.2) : revBits f.1 x ≠ Spec.codeOf lens f.2 := by
  obtain ⟨he256, helen, he0, -⟩ := mem_codeOrder.mp he
  obtain ⟨-, hflen, -, -⟩ := mem_codeOrder.mp hf
  have hle : e.1 ≤ f.1 := by
    simp only [CodeLt] at h
    omega
  have hgrow := codeOf_grows (lens := lens) (s := e.2) (t := f.2) he256
    ((comesBefore_iff ..).mpr ⟨helen ▸ he0, by rw [← helen, ← hflen]; exact h⟩)
  rw [← helen, ← hflen, ← hx] at hgrow
  intro hfx
  rw [← hfx] at hgrow
  have hdiv := revBits_div hle x
  have := (Nat.le_div_iff_mul_le (Nat.two_pow_pos _)).mpr hgrow
  omega

theorem matchCode_codeTable (h15 : ∀ l ∈ lens, l ≤ 15) (x : Nat) :
    matchCode (codeTable lens) x = (codeOrder lens).find? (fun e => revBits e.1 x == Spec.codeOf lens e.2) := by
  rw [matchCode, codeTable_eq h15, List.find?_map, Option.map_map]
  exact Option.map_id'

/-- A buffer holds the codeword of a symbol exactly where its bits are the symbol's code. -/
theorem matchCode_iff (hlen : lens.length = 256) (h15 : ∀ l ∈ lens, l ≤ 15) (hk : kraft lens ≤ 2 ^ 15) (x l s : Nat) :
    matchCode (codeTable lens) x = some (l, s) ↔ s < 256 ∧ l = lens.getD s 0 ∧ l ≠ 0 ∧
      ∀ j, j < l → x.testBit j = (Spec.codeOf lens s).testBit (l - 1 - j) := by
  have hmem : (l, s) ∈ codeOrder lens ∧ revBits l x = Spec.codeOf lens s ↔ s < 256 ∧ l = lens.getD s 0 ∧ l ≠ 0 ∧
      ∀ j, j < l → x.testBit j = (Spec.codeOf lens s).testBit (l - 1 - j) := by
    rw [mem_codeOrder]
    constructor
    · rintro ⟨⟨hs, hl, h0, -⟩, hx⟩
      obtain rfl : l = lens.getD s 0 := hl
      exact ⟨hs, rfl, h0, (revBits_eq_iff (codeOf_lt hlen h15 hk hs h0) x).mp hx⟩
    · rintro ⟨hs, rfl, h0, hx⟩
      have hle : lens.getD s 0 ≤ 15 := by
        rw [List.getD_eq_getElem _ _ (by omega)]
        exact h15 _ (List.getElem_mem _)
      exact ⟨⟨hs, rfl, h0, hle⟩, (revBits_eq_iff (codeOf_lt hlen h15 hk hs h0) x).mpr hx⟩
  rw [← hmem, matchCode_codeTable h15]
  constructor
  · intro h
    have hx := List.find?_some (p := fun e : Nat × Nat => revBits e.1 x == Spec.codeOf lens e.2) h
    exact ⟨List.mem_of_find?_eq_some h, beq_iff_eq.mp hx⟩
  · rintro ⟨hin, hx⟩
    obtain ⟨p, r, hsplit⟩ := List.append_of_mem hin
    refine List.find?_eq_some_iff_append.mpr ⟨beq_iff_eq.mpr hx, p, r, hsplit, fun e he => ?_⟩
    have hlt := (List.pairwise_append.mp (hsplit ▸ codeOrder_sorted lens)).2.2 e he (l, s) List.mem_cons_self
    rw [Bool.not_eq_true', beq_eq_false_iff_ne]
    exact fun hex => codes_prefixFree (hsplit ▸ List.mem_append_left _ he) hin hlt hex hx

end

end Sys2Proof.Machine
end

section
/-!
SUPPORT. The stream unit's own steps (R160, R164, R220, R221, R289, R293): queued accesses reach their homes, decoders advance, writes on their way
pass their ordering points, and elements are fetched ahead.
-/

namespace Sys2Proof.Machine

/-! ### The current hart -/

/-- Making a hart the current one touches the harts alone. -/
theorem focus_harts (s : State) (h : Nat) : ∃ x l, s.focus h = { s with cur := x, others := l } := by
  unfold State.focus
  split
  · exact ⟨_, _, rfl⟩
  · split <;> exact ⟨_, _, rfl⟩

theorem focus_observing (s : State) (h : Nat) : (s.focus h).observing = s.observing := by
  obtain ⟨x, l, e⟩ := focus_harts s h
  rw [e]
  rfl

/-- A step that changes nothing changes nothing while messages are recorded either. -/
theorem orHeld_same {s : State} {f : State → State} (h : ∀ b, f { s with blocked := b } = { s with blocked := b }) : s.orHeld f = s := by
  unfold State.orHeld
  split
  · exact h s.blocked
  · rw [h none]
    rfl

/-! ### Queued accesses (R220) -/

/-- The oldest access of a stream is the first of its own in the queue. -/
theorem takeOldest_oldest {st : Stream} {p : PStore} {l rest : List PStore} (h : Spec.oldest st l p rest) :
    takeOldest (fun x => x == st) l = some (p, rest) := by
  obtain ⟨a, b, rfl, rfl, hbefore, rfl⟩ := h
  induction a with
  | nil => simp [takeOldest]
  | cons x a ih =>
    have hx : (x.stream == p.stream) = false := beq_eq_false_iff_ne.mpr (hbefore x List.mem_cons_self)
    rw [List.cons_append, takeOldest, hx, ih fun y hy => hbefore y (List.mem_cons_of_mem x hy)]
    rfl

/-- An access is not held back: no kernel's window holds it, no write on its way comes before it, and the bank stream waits for no command. -/
theorem notYet_false {s : State} {p : PStore} (hheld : ∀ k ∈ p.act.keys, s.heldSegment k = false)
    (hhome : ∀ q ∈ s.net, ∀ k ∈ p.act.keys, q.home ≠ s.homeNo k)
    (hstream : ∀ q ∈ s.net, q.owner = s.cur.place → q.stream = some p.stream → q.level = 3)
    (hbank : p.stream = .bank → s.ownCommand (fun e => e == .bank) = false ∧ s.cur.sent = []) : s.notYet p = false := by
  have hengine : bankEngine = fun e => e == .bank := funext fun e => by cases e <;> rfl
  have hkeys : p.act.keys.any (fun k => s.heldSegment k || s.behind (clusterOf s.cur.place) k) = false := by
    refine List.any_eq_false.mpr fun k hk => ?_
    have hbehind : s.behind (clusterOf s.cur.place) k = false :=
      List.any_eq_false.mpr fun q hq => by simp [hhome q hq k hk]
    simp [hheld k hk, hbehind]
  have hown : s.streamBehind s.cur.place (some p.stream) 0 = false := by
    refine List.any_eq_false.mpr fun q hq => ?_
    simp only [Posted.of, Bool.and_eq_true, beq_iff_eq, decide_eq_true_eq, not_and, and_imp]
    intro howner hst _
    rw [hstream q hq howner hst]
    decide
  have hcommand : (p.stream == .bank && s.bankHeld) = false := by
    by_cases hb : p.stream = .bank
    · obtain ⟨hown, hsent⟩ := hbank hb
      simp [State.bankHeld, hengine, hown, hsent]
    · rw [beq_eq_false_iff_ne.mpr hb, Bool.false_and]
  rw [State.notYet, hkeys, hown, hcommand]
  rfl

/-- Noting an access changes the hits alone, whatever the near-memory units do. -/
theorem noteAt_unrecorded {s : State} (h : s.observing = false) (ns : List (Nat × Nmu)) (f : DebugBlock → Nat → Bool) (l : Option (Nat × Nat))
    (agent : Nat) (k : WKind) (rs : List (Nat × Nat)) (sort : Nat) (pay : List Byte) :
    ({ s with nmus := ns } : State).noteAt f l agent k rs sort pay =
      { s with nmus := ns, hits := (s.noteAt f l agent k rs sort pay).hits } := by
  unfold State.noteAt
  by_cases hany : (s.hub.debug).any (fun p => p.2.ctx != 0) = true
  · simp only [hany, Bool.not_true, Bool.false_eq_true, if_false]
    rw [tell_plain (by exact h), tell_plain (by exact h)]
    rfl
  · simp only [hany, Bool.not_false, if_true]

theorem noteHome_unrecorded {s : State} (h : s.observing = false) (ns : List (Nat × Nmu)) (ctx : Word) (l : Option (Nat × Nat)) (place : Nat)
    (own : List Nat) (a : PAct) : ({ s with nmus := ns } : State).noteHome ctx l place own a =
      { s with nmus := ns, hits := (s.noteHome ctx l place own a).hits } := noteAt_unrecorded h ns ..

/-- The state after the oldest access of a stream has been performed. -/
def State.performed (t : State) (p : PStore) (rest : List PStore) : State :=
  { t with mem := performAct t.mem p.act, cur := { t.cur with stores := rest }, nmus := (t.wakeKeys p.act.keys).nmus,
           hits := (t.noteHome t.cur.sctx t.cur.launch t.cur.place p.own p.act).hits }

theorem performOldest_performed {s : State} {st : Stream} {p : PStore} {rest : List PStore} (hobs : s.observing = false)
    (h : Spec.oldest st s.cur.stores p rest) (hyet : s.notYet p = false) : s.performOldest (fun x => x == st) = s.performed p rest := by
  obtain ⟨ns, hwake⟩ := wakeKeys_unitsOnly p.act.keys s
  have hnote : (s.wakeKeys p.act.keys).noteHomes [p] =
      { s with nmus := ns, hits := (s.noteHome s.cur.sctx s.cur.launch s.cur.place p.own p.act).hits } := by
    rw [State.noteHomes, List.foldl_cons, List.foldl_nil, hwake]
    exact noteHome_unrecorded hobs ns ..
  unfold State.performOldest State.performed
  rw [takeOldest_oldest h]
  simp only [hyet, Bool.false_eq_true, if_false]
  rw [hnote, hwake]

theorem accessPerformed_performs {s : State} {h : Nat} {st : Stream} {p : PStore} {rest : List PStore} (hobs : s.observing = false)
    (hplace : (s.focus h).cur.place = h) (hold : Spec.oldest st (s.focus h).cur.stores p rest) (hyet : (s.focus h).notYet p = false) :
    exec (.accessPerformed (.hart h st)) s = .next ((s.focus h).performed p rest) := by
  refine congrArg Host.Outcome.next ((orHeld_plain hobs _).trans ?_)
  dsimp only
  rw [if_pos (beq_iff_eq.mpr hplace)]
  exact performOldest_performed ((focus_observing ..).trans hobs) hold hyet

theorem chainedOperation_performs {s : State} {h : Nat} {p : PStore} {rest : List PStore} (hobs : s.observing = false)
    (hplace : (s.focus h).cur.place = h) (hold : Spec.oldest .bank (s.focus h).cur.stores p rest) (hyet : (s.focus h).notYet p = false)
    (hrmw : p.act.isRmw = true) : exec (.chainedOperation h) s = .next ((s.focus h).performed p rest) := by
  have hobs' := (focus_observing s h).trans hobs
  refine congrArg Host.Outcome.next ((if_neg (by simp [hplace])).trans ?_)
  rw [takeOldest_oldest hold]
  exact (if_pos hrmw).trans ((orHeld_plain hobs' _).trans (performOldest_performed hobs' hold hyet))

theorem streamAccesses (h : Nat) (st : Stream) (s : State) (p : PStore) (rest : List PStore) (hobs : s.observing = false)
    (hplace : (s.focus h).cur.place = h) (hold : Spec.oldest st (s.focus h).cur.stores p rest)
    (hheld : ∀ k ∈ p.act.keys, (s.focus h).heldSegment k = false)
    (hhome : ∀ q ∈ (s.focus h).net, ∀ k ∈ p.act.keys, q.home ≠ (s.focus h).homeNo k)
    (hstream : ∀ q ∈ (s.focus h).net, q.owner = h → q.stream = some st → q.level = 3)
    (hbank : st = .bank → (s.focus h).ownCommand (fun e => e == .bank) = false ∧ (s.focus h).cur.sent = []) :
    exec (.accessPerformed (.hart h st)) s = .next ((s.focus h).performed p rest) ∧
    (st = .bank → p.act.isRmw = true → exec (.chainedOperation h) s = .next ((s.focus h).performed p rest)) := by
  obtain rfl : p.stream = st := by
    obtain ⟨_, _, _, hst, _⟩ := hold
    exact hst
  have hyet : (s.focus h).notYet p = false := notYet_false hheld hhome (by rw [hplace]; exact hstream) hbank
  exact ⟨accessPerformed_performs hobs hplace hold hyet,
    fun hb hrmw => chainedOperation_performs hobs hplace (hb ▸ hold) hyet hrmw⟩

/-! ### Decoders (R288, R289, R293) -/

/-- CHUNK_DECODE leaves what the unit makes of a bound image, when its reads can be made and match no watchpoint. -/
theorem chunkDecode_ahead {s u : State} {h : Nat} {q : BitVec 3} (hplace : (s.focus h).cur.place = h) (hbound : (s.focus h).cur.status ≠ .unbound)
    (hahead : (s.focus h).start.chunkAhead q = u) (hblocked : u.blocked = none) (hstrikes : u.cur.strikes = (s.focus h).cur.strikes) :
    exec (.chunkDecode h q) s = .next u := by
  refine congrArg Host.Outcome.next ((if_neg (by simp [hplace, hbound])).trans ?_)
  rw [show ({ s.focus h with blocked := none } : State).chunkAhead q = u from hahead]
  dsimp only
  rw [if_neg (by rw [hblocked]; decide), ← hstrikes, List.drop_length]
  rfl

section
variable {t u : State} {q : BitVec 3} {im : ImageState} {pos : Nat} (h : t.cur.rq q.toNat = .image im pos) (hask : im.ask = none)
include h hask

theorem chunkAhead_decodes {im' : ImageState} (hstep : t.imageStep q.toNat im = (.ok im', u)) :
    t.chunkAhead q = { u with cur := u.cur.wq q.toNat (.image im' pos) } := by
  unfold State.chunkAhead
  simp only [h, hask, hstep, Option.isSome_none, Bool.false_eq_true, if_false]

theorem chunkAhead_asks {a : Word} (hstep : t.imageStep q.toNat im = (.error a, u)) : t.chunkAhead q = (u.askImage q.toNat im pos a).2 := by
  unfold State.chunkAhead
  simp only [h, hask, hstep, Option.isSome_none, Bool.false_eq_true, if_false]

end

theorem queueElementsArrive_resumes {s : State} {h id : Nat} (hplace : (s.focus h).cur.place = h)
    (hstatus : (s.focus h).cur.status = .waiting (.page id)) (hgone : ∀ p ∈ (s.focus h).hub.pages, p.id ≠ id) :
    exec (.queueElementsArrive h) s = .next { s.focus h with cur := { (s.focus h).cur with status := .running } } := by
  refine congrArg Host.Outcome.next ((if_neg (by simp [hplace])).trans ?_)
  rw [hstatus]
  exact if_neg (by simpa using hgone)

/-! ### Writes on their way (R221) -/

section
variable {s : State} {n : Nat} {p : Posted} {rest : List Turn}

/-- A write that stands behind an earlier one does not move. -/
theorem forward_stands {q : Posted} (hp : s.net[n]? = some p) (hq : q ∈ s.net.take n) (h : p.stands q = true) (b : Option Wait) :
    ({ s with blocked := b } : State).forward n = { s with blocked := b } := by
  have hany : (s.net.take n).any p.stands = true := List.any_eq_true.mpr ⟨q, hq, h⟩
  unfold State.forward
  simp only [hp, hany, if_true]

theorem step_forward_stands {q : Posted} (hidle : s.parkIdle = s) (hs : s.schedule = .forward n :: rest) (hp : s.net[n]? = some p)
    (hq : q ∈ s.net.take n) (h : p.stands q = true) : step s = .next { s with schedule := rest, unit := .hart } :=
  (step_turn hidle hs).trans (congrArg Host.Outcome.next
    (orHeld_same fun b => forward_stands (s := { s with schedule := rest, unit := .hart }) hp hq h b))

/-- A write passes no earlier one of its cluster to the same home. -/
theorem stands_sameHome {q : Posted} (hhome : q.home = p.home) (hcl : q.cl = p.cl) (hle : q.level ≤ p.level)
    (hlevel : p.level = 1 ∨ p.level = 2) : p.stands q = true := by
  unfold Posted.stands
  rcases hlevel with e | e <;> simp [hhome, hcl, e] <;> omega

/-- A write passes no earlier one of its stream. -/
theorem stands_sameStream {q : Posted} (howner : q.owner = p.owner) (hstream : q.stream = p.stream) (htoken : q.token = p.token)
    (h3 : q.level < 3) (hle : q.level ≤ p.level) : p.stands q = true := by
  unfold Posted.stands
  simp [Posted.of, howner, hstream, htoken, h3, hle]

theorem stands_apart {q : Posted} (hhome : q.home ≠ p.home) (hother : q.owner ≠ p.owner ∨ q.stream ≠ p.stream) : p.stands q = false := by
  have hof : q.of p.owner p.stream p.token = false := by
    rcases hother with h | h <;> simp [Posted.of, h]
  simp [Posted.stands, hof, hhome]

/-- A write that nothing stands before is performed at its home once it has passed the die network. -/
theorem forward_performs (hp : s.net[n]? = some p)
    (hapart : ∀ q ∈ s.net.take n, q.home ≠ p.home ∧ (q.owner ≠ p.owner ∨ q.stream ≠ p.stream)) (hlevel : p.level = 2)
    (hhost : p.home ≠ 1024) (htier : p.home ≠ 1025) (hheld : ∀ k ∈ p.act.keys, s.heldSegment k = false) :
    (s.forward n).mem = performAct s.mem p.act ∧ (s.forward n).net = s.net.eraseIdx n := by
  have hnone : (s.net.take n).any p.stands = false :=
    List.any_eq_false.mpr fun q hq => by rw [stands_apart (hapart q hq).1 (hapart q hq).2]; decide
  have hkeys : p.act.keys.any s.heldSegment = false := List.any_eq_false.mpr fun k hk => by rw [hheld k hk]; decide
  unfold State.forward
  simp only [hp, hnone, hlevel, hkeys, beq_eq_false_iff_ne.mpr hhost, beq_eq_false_iff_ne.mpr htier]
  exact ⟨rfl, rfl⟩

end

/-! ### Elements fetched ahead (R164) -/

theorem fetchAhead_fetches {t u : State} {q : BitVec 3} {d : AffDesc} {pos x : Nat} {ahead : List Nat} (hq : t.cur.rq q.toNat = .load d pos ahead)
    (hmore : pos + ahead.length < d.total) (halign : (d.addr (pos + ahead.length)).toNat % (fmtWidth d.fmt / 8) = 0)
    (hload : t.start.loadN (.q q) (d.addr (pos + ahead.length)) (fmtWidth d.fmt / 8) = (.ok x, u)) (hblocked : u.blocked = none)
    (hobs : u.observing = false) : t.fetchAhead q.toNat = { u with blocked := t.blocked, cur := u.cur.wq q.toNat (.load d pos (ahead ++ [x])) } := by
  have hload' : ({ t with blocked := none } : State).loadN (.q (BitVec.ofNat 3 q.toNat)) (d.addr (pos + ahead.length)) (fmtWidth d.fmt / 8) =
      (.ok x, u) := by
    rw [BitVec.ofNat_toNat, BitVec.setWidth_eq]
    exact hload
  unfold State.fetchAhead
  simp only [hq, Nat.not_le.mpr hmore, halign, hload', hblocked, tellHart_plain hobs, decide_false, bne_self_eq_false, Bool.or_self,
    Option.isSome_none, Bool.false_eq_true, if_false]

/-- A write on its way passes no earlier one of its cluster to its home, nor one of its stream, and is else performed at its home. -/
theorem writesInOrder (s : State) (n : Nat) (p : Posted) (rest : List Turn) (hidle : s.parkIdle = s) (hs : s.schedule = .forward n :: rest)
    (hp : s.net[n]? = some p) :
    (∀ q ∈ s.net.take n, q.home = p.home → q.cl = p.cl → q.level ≤ p.level → p.level = 1 ∨ p.level = 2 →
      step s = .next { s with schedule := rest, unit := .hart }) ∧
    (∀ q ∈ s.net.take n, q.owner = p.owner → q.stream = p.stream → q.token = p.token → q.level < 3 → q.level ≤ p.level →
      step s = .next { s with schedule := rest, unit := .hart }) ∧
    (s.observing = false → (∀ q ∈ s.net.take n, q.home ≠ p.home ∧ (q.owner ≠ p.owner ∨ q.stream ≠ p.stream)) → p.level = 2 →
      p.home ≠ 1024 → p.home ≠ 1025 → (∀ k ∈ p.act.keys, ({ s with unit := .hart } : State).heldSegment k = false) →
      ∃ t, step s = .next t ∧ t.mem = performAct s.mem p.act ∧ t.net = s.net.eraseIdx n) := by
  refine ⟨fun q hq hhome hcl hle hlevel => ?sameHome, fun q hq howner hstream htoken h3 hle => ?sameStream,
    fun hobs hapart hlevel hhost htier hheld =>
      ⟨({ s with schedule := rest, unit := .hart } : State).forward n, ?moves, ?performs⟩⟩
  case sameHome => exact step_forward_stands hidle hs hp hq (stands_sameHome hhome hcl hle hlevel)
  case sameStream => exact step_forward_stands hidle hs hp hq (stands_sameStream howner hstream htoken h3 hle)
  case moves => exact (step_turn hidle hs).trans (congrArg Host.Outcome.next (orHeld_plain (by exact hobs) _))
  case performs => exact forward_performs (s := { s with schedule := rest, unit := .hart }) hp hapart hlevel hhost htier hheld

theorem streamSteps : Spec.StreamSteps := by
  refine ⟨streamAccesses, fun h q s im pos hplace hbound hq hask => ⟨fun im' u hstep hb hs => ?decodes, fun a u hstep hb hs => ?asks⟩,
    fun h id s hplace hstatus hgone => queueElementsArrive_resumes hplace hstatus hgone, writesInOrder,
    fun h q s d pos x ahead u rest hidle hsched hobs hplace hstatus hfree hlane hq hmore halign hload hb hobs' => ?fetches⟩
  case decodes => exact chunkDecode_ahead hplace hbound (chunkAhead_decodes (t := (s.focus h).start) hq hask hstep) hb hs
  case asks => exact chunkDecode_ahead hplace hbound (chunkAhead_asks (t := (s.focus h).start) hq hask hstep) hb hs
  case fetches =>
    refine (step_turn hidle hsched).trans
      (congrArg Host.Outcome.next ((if_pos ?_).trans (fetchAhead_fetches hq hmore halign hload hb hobs')))
    simp [hplace, Hart.ready, hstatus, hfree, hlane]

end Sys2Proof.Machine
end

section
/-!
SUPPORT. Compressed images and streams as the statements say them (R160 to R167, R285 to R293).
-/

namespace Sys2Proof.Machine

/-- Images are opened and decoded as R285 to R290 say. -/
theorem imageDecoding : Spec.ImageDecoding := by
  refine ⟨fun _ hlen h15 hk buf l s => matchCode_iff hlen h15 hk buf l s, decodeChunk_eq,
    fun s u q im ds hfail hopened hload => ?header, fun s u q hd im hfail hopened hmore hload =>
      ⟨fun hbad => ?badChunk, fun ws v hok hwords => ?chunk⟩⟩
  case header =>
    dsimp only
    rw [← lensOf_header (imageLoads_length hload), imageStep_opens hfail hopened hload]
    exact ⟨fun hbad => by rw [openHeader_bad hbad], fun hok => by rw [openHeader_good hok]⟩
  case badChunk => exact imageStep_badChunk hfail hopened hmore hload hbad
  case chunk =>
    rw [imageStep_chunk hfail hopened hmore hload hok hwords]
    refine ⟨fun hnone => by rw [hnone], fun syms hsome =>
      ⟨im.decoded (hd % 2 ^ 32) (hd / 2 ^ 32) syms, by rw [hsome], rfl, rfl, rfl, rfl, ?_⟩⟩
    exact fun halign hend => decoded_addr halign hend

end Sys2Proof.Machine

namespace Sys2Proof

/-- Settles O26: a descriptor by its fields, binding and the unit's steps by their effects, and an image by its canonical code, no codeword of which
begins another, and by the lanes of its decoder. -/
theorem streams : Obligations.Streams := ⟨Machine.streamDescriptor, Machine.streamBinding, Machine.imageDecoding, Machine.streamSteps⟩

end Sys2Proof
end

section
/-!
SUPPORT. Words outside lane mode that no region drops come to their own effect (R89), and a hart that waits at an instruction issues it again.
-/

namespace Sys2Proof.Machine

section
variable {w : BitVec 32} {s t : State} {body : State → Flow} (m : BitVec 6) (h : PlainHart s) (hw : wMajor w = m)
  (hm : (0x22 ≤ m.toNat && m.toNat ≤ 0x31) = false)
include h hw hm

/-- A word of a major that no region drops comes to its effect. -/
theorem perform_hart : perform w s body = .next (s.start.finish w (body s.start)) :=
  perform_scalar h.1 (by simp [h.2]) (dropMajor_of m hw hm)

theorem perform_hart_done (hb : body s.start = .done t) (ht : t.blocked = none) (hs : t.cur.strikes = []) :
    perform w s body = .next t.completed := by
  rw [perform_hart m h hw hm, hb, finish_done _ _ ht hs]

theorem perform_hart_trap {x : Trap} (hb : body s.start = .trap x t) (ht : t.blocked = none) :
    perform w s body = .next (s.start.trapWord w x t) := by
  rw [perform_hart m h hw hm, hb, finish_trap _ _ _ ht]

theorem perform_hart_stay (hb : body s.start = .stay t) (ht : t.blocked = none) : perform w s body = .next t := by
  rw [perform_hart m h hw hm, hb, finish_stay _ _ ht]

end

/-- A word of a major with a function in its lowest n bits. -/
theorem isWord_of {w : BitVec 32} {m : BitVec 6} {n : Nat} {f : BitVec n} (hw : wMajor w = m) (hf : w.extractLsb' 0 n = f) :
    isWord m.toNat f.toNat (2 ^ n) w = true := by
  have hlow : w.toNat % 2 ^ n = f.toNat := by
    rw [← hf, BitVec.extractLsb'_toNat, Nat.shiftRight_zero]
  simp [isWord, hw, hlow]

/-- The event of a hart that waits at an instruction: the hart runs and the instruction's effect is tried again. -/
theorem wake_acts {s : State} {h : Nat} {mine : BitVec 32 → Bool} {body : BitVec 32 → State → Flow} {w : BitVec 32}
    (hplace : (s.focus h).cur.place = h) (hheld : (s.focus h).cur.held = false) (hw : (s.focus h).cur.status = .waiting (.again w))
    (hmine : mine w = true) : s.wake h mine body =
      (let r : State := { s.focus h with blocked := none, cur := { (s.focus h).cur with status := .running } }
       r.finish w (body w r)) := by
  unfold State.wake
  dsimp only
  rw [if_neg (by simp [hplace, hheld]), hw]
  exact if_neg (by simp [hmine])

/-- An event that wakes the harts waiting at an instruction issues it again. -/
theorem wake_reissues {e i : Instr} {h : Nat} {mine : BitVec 32 → Bool} {body : BitVec 32 → State → Flow} (m : BitVec 6)
    (he : ∀ s, exec e s = .next (s.wake h mine body)) (hi : ∀ s, exec i s = perform (encode i) s (body (encode i)))
    (hmine : mine (encode i) = true) (hw : wMajor (encode i) = m) (hm : (0x22 ≤ m.toNat && m.toNat ≤ 0x31) = false) :
    Spec.Reissues e i h := by
  intro s f hplace hheld hp hstatus
  have hr : PlainHart { f with cur := { f.cur with status := .running } } := hp
  exact ⟨_, he s, (hi _).trans ((perform_hart m hr hw hm).trans (congrArg _ (wake_acts hplace hheld hstatus hmine).symm))⟩

end Sys2Proof.Machine
end

section
/-!
SUPPORT. TIME, SLEEPT and the event counters (O41): a status acted upon (R188, R189), and a release that adds to a counter (R213, R303).
-/

namespace Sys2Proof.Machine

/-! ### TIME and SLEEPT (R189, R212) -/

theorem time_writes {d : Reg} {s : State} (h : PlainHart s) (hr : s.recorder s.cur.launch = none) :
    exec (.time d) s = .next ({ s.start with cur := s.cur.wx d (BitVec.ofNat 64 (s.sevenths / 7)) } : State).completed := by
  refine perform_hart_done 0x3B#6 h (wMajor_xWord ..) (by decide) (t := { s.start with cur := s.cur.wx d s.timeWord }) ?_ rfl
    ((Hart.wx_strikes ..).trans h.strikes)
  have hr' : s.start.recorder s.start.cur.launch = none := hr
  simp only [journalled_unrecorded hr']
  rfl

/-- The end of an instruction that takes its second status from SLEEPT's rule. -/
theorem finish_sleepEnd {r : State} (w : BitVec 32) (token : Word) {code : Nat} {addr : Word} (hb : r.blocked = none) (hs : r.cur.strikes = [])
    (hc : code ≤ 4) (h0 : code ≠ 0) : Spec.AfterStatus r r w code addr (r.finish w (sleepEnd token (code, addr) r)) := by
  obtain rfl | rfl | rfl | rfl : code = 1 ∨ code = 2 ∨ code = 3 ∨ code = 4 := by omega
  all_goals simp [Spec.AfterStatus, sleepEnd, stPending, stAccess, stData, hb, hs]

theorem sleptBody_unrecorded {s : State} {code : Nat} {addr : Word} {w : BitVec 32} {t token : Word} (hr : s.recorder s.cur.launch = none)
    (hst : s.engineStatus s.cur.sctx token = (code, addr)) (hc : code ≤ 4) : sleptBody w t token s = sleepEnd token (code, addr) s := by
  have hn : code % 2 ^ 64 = code := Nat.mod_eq_of_lt (by omega)
  simp only [sleptBody, hst, journalled_unrecorded hr, BitVec.toNat_ofNat, hn]
  by_cases h0 : code = stPending <;> simp [h0]

theorem sleepEnd_pending (token addr : Word) (s : State) : sleepEnd token (0, addr) s = .trap { cause := 7, tval := token } s := rfl

theorem sleeptBody_illegal (w : BitVec 32) {a : Reg} (s : State) (ha : a.toNat % 2 = 1 ∨ a = 0) : sleeptBody w a s = illegal s := by
  rcases ha with ha | rfl
  · simp [sleeptBody, ha]
  · rfl

section
variable {a : Reg} {s : State} {code : Nat} {addr : Word} (ha : a.toNat % 2 = 0) (h0 : a ≠ 0)
  (hst : s.engineStatus s.cur.sctx (s.cur.rx (a + 1#5)) = (code, addr))
include ha h0 hst

theorem sleeptBody_ended (w : BitVec 32) (hc : code ≠ 0) : sleeptBody w a s = sleepEnd (s.cur.rx (a + 1#5)) (code, addr) s := by
  have hz : a ≠ 0#5 := h0
  simp [sleeptBody, ha, hz, hst, stPending, hc]

theorem sleeptBody_sleeps (w : BitVec 32) (hc : code = 0) (ht : s.timeWord < s.cur.rx a) :
    sleeptBody w a s = waitFor (.sleep w (s.cur.rx a) (s.cur.rx (a + 1#5))) s := by
  have hz : a ≠ 0#5 := h0
  simp [sleeptBody, ha, hz, hst, stPending, hc, ht]

theorem sleeptBody_missed (w : BitVec 32) (hc : code = 0) (ht : s.cur.rx a ≤ s.timeWord) (hr : s.recorder s.cur.launch = none) :
    sleeptBody w a s = .trap { cause := 7, tval := s.cur.rx (a + 1#5) } s := by
  have hz : a ≠ 0#5 := h0
  subst hc
  simp [sleeptBody, ha, hz, hst, stPending, ht, sleptBody_unrecorded hr hst (by decide), sleepEnd_pending]

end

/-- SLEEPT_WAKE of the hart that sleeps (R189). -/
theorem sleeptWake_acts {s : State} {h : Nat} {w : BitVec 32} {t token : Word} (hplace : (s.focus h).cur.place = h)
    (hheld : (s.focus h).cur.held = false) (hw : (s.focus h).cur.status = .waiting (.sleep w t token)) :
    exec (.sleeptWake h) s = .next (let f := s.focus h
      if t ≤ f.timeWord then
        let r : State := { f with blocked := none, cur := { f.cur with status := .running } }
        r.finish w (sleptBody w t token r)
      else f) := by
  change Host.Outcome.next (State.onWaiting ..) = _
  simp [State.onWaiting, hplace, hheld, hw]

theorem timeAndSleep : Spec.TimeAndSleep := by
  refine ⟨fun d s h hr => time_writes h hr, fun a s h => ⟨fun ha => ?illegal, fun code addr ha h0 hst hc => ⟨fun hne => ?ended,
    fun hz ht => ?sleeps, fun hz ht hr => ?missed⟩⟩, fun a h t token s code addr => ?wakes⟩
  case illegal => exact perform_hart_trap 0x3B#6 h (wMajor_xWord ..) (by decide) (sleeptBody_illegal _ s.start ha) rfl
  case ended =>
    refine ⟨_, perform_hart 0x3B#6 h (wMajor_xWord ..) (by decide), ?_⟩
    rw [sleeptBody_ended (s := s.start) ha h0 hst _ hne]
    exact finish_sleepEnd _ _ rfl h.strikes hc hne
  case sleeps =>
    exact perform_hart_stay 0x3B#6 h (wMajor_xWord ..) (by decide) (sleeptBody_sleeps (s := s.start) ha h0 hst _ hz ht) rfl
  case missed =>
    exact perform_hart_trap 0x3B#6 h (wMajor_xWord ..) (by decide) (sleeptBody_missed (s := s.start) ha h0 hst _ hz ht hr) rfl
  case wakes =>
    intro i f hplace hheld hs hw hr hst hc r
    have hslept : ∀ w, sleptBody w t token r = sleepEnd token (code, addr) r := fun w => sleptBody_unrecorded (s := r) hr hst hc
    have hacts := sleeptWake_acts hplace hheld hw
    refine ⟨fun ht => ?early, fun ht hz => ?missed, fun ht hne => ⟨_, hacts.trans (congrArg _ (if_pos ht)), ?ended⟩⟩
    case early => exact hacts.trans (congrArg _ (if_neg (BitVec.not_le.mpr ht)))
    case missed =>
      refine hacts.trans (congrArg _ ((if_pos ht).trans ?_))
      exact (congrArg _ ((hslept _).trans (hz ▸ sleepEnd_pending ..))).trans (finish_trap _ _ _ rfl)
    case ended =>
      change Spec.AfterStatus r r _ code addr (r.finish _ (sleptBody _ t token r))
      rw [hslept]
      exact finish_sleepEnd _ _ rfl hs hc hne

/-! ### The event counters (R213, R303) -/

/-- What a counter reads after an addition to one, in a context that is listed or not. -/
theorem addCounter_counter (s : State) (ctx : Word) (n : Nat) (x k : Word) (m : Nat) :
    (s.addCounter ctx n x).counter k m = if k = ctx ∧ m = n then s.counter k m + x else s.counter k m := by
  cases hc : s.context ctx with
  | some c => exact counter_addCounter hc ..
  | none =>
    have hset : s.setCounter ctx n (s.counter ctx n + x) =
        s.putContext { ctx := ctx, sptb := s.cur.sptb, cocoon := 0, counters := [(n, s.counter ctx n + x)] } := by
      simp only [State.setCounter, hc]
    rw [State.addCounter, readCounters_counter, hset, State.counter, context_putContext]
    by_cases hk : k = ctx
    · subst hk
      by_cases hm : m = n
      · subst hm; simp [Context.counter, look]
      · have hn : ¬ n = m := fun e => hm e.symm
        simp [Context.counter, look, hm, hn, State.counter, hc]
    · simp [hk, Ne.symm hk, State.counter]

/-- Adding to a counter changes of the state the contexts, and of the launches which of them are eligible. -/
theorem addCounter_only (s : State) (ctx : Word) (n : Nat) (x : Word) :
    ∃ cs ls, s.addCounter ctx n x = s.setHub { s.hub with contexts := cs, launches := ls } := by
  obtain ⟨cs, he⟩ := setCounter_contexts s ctx n (s.counter ctx n + x)
  rw [State.addCounter, he]
  exact ⟨cs, _, rfl⟩

/-- After an addition the launches of the context whose wait conditions hold are eligible (R303). -/
theorem addCounter_eligible {s : State} {ctx : Word} {n : Nat} {x : Word} {l : Launch} (hl : l ∈ s.hub.launches) (hctx : l.ctx = ctx)
    (hstopped : l.stopped = false) (hw : ∀ w ∈ l.lr.waits, w.2 ≤ (s.addCounter ctx n x).counter l.ctx w.1) :
    ∃ k ∈ (s.addCounter ctx n x).hub.launches, k.queue = l.queue ∧ k.seq = l.seq ∧ k.lr = l.lr ∧ k.eligible = true := by
  obtain ⟨cs, he⟩ := setCounter_contexts s ctx n (s.counter ctx n + x)
  have hholds : (s.setCounter ctx n (s.counter ctx n + x)).waitsHold l = true := (waitsHold_iff ..).mpr hw
  have hmem : l ∈ (s.setCounter ctx n (s.counter ctx n + x)).hub.launches := by rw [he]; exact hl
  refine ⟨_, List.mem_map_of_mem hmem, ?_⟩
  cases hel : l.eligible with
  | true => simp [hel]
  | false => simp [hctx, hstopped, hholds, State.makeEligible]

theorem evsetBody_illegal {a : Reg} (b : Reg) {s : State} (hn : 4096 ≤ (s.cur.rx a).toNat) : evsetBody a b s = illegal s := if_pos hn

theorem evwaitBody_illegal (w : BitVec 32) {a : Reg} (b : Reg) {s : State} (hn : 4096 ≤ (s.cur.rx a).toNat) :
    evwaitBody w a b s = illegal s := if_pos hn

section
variable {a b : Reg} {s : State} (hn : (s.cur.rx a).toNat < 4096)
include hn

theorem evsetBody_waits (hown : (s.drainTo 3 heldStream).ownCommand bankEngine = true) :
    evsetBody a b s = .stay (s.drainTo 3 heldStream).waitCommands := by
  rw [evsetBody, if_neg (by omega), State.released, if_pos hown]

theorem evsetBody_adds (hown : (s.drainTo 3 heldStream).ownCommand bankEngine = false) : evsetBody a b s = .done
    ((s.drainTo 3 heldStream).addCounter s.cur.sctx (s.cur.rx a).toNat (s.cur.rx b)) := by
  have hcur := drainTo_cur s 3 heldStream
  rw [evsetBody, if_neg (by omega), State.released, if_neg (by simp [hown])]
  dsimp only
  rw [show (s.drainTo 3 heldStream).cur.sctx = s.cur.sctx by rw [hcur],
    show (s.drainTo 3 heldStream).cur.rx b = s.cur.rx b by rw [hcur]; rfl]

theorem evwaitBody_goes (w : BitVec 32) (hx : s.cur.rx b ≤ s.counter s.cur.sctx (s.cur.rx a).toNat) : evwaitBody w a b s = .done s := by
  rw [evwaitBody, if_neg (by omega), if_pos hx]

theorem evwaitBody_waits (w : BitVec 32) (hx : s.counter s.cur.sctx (s.cur.rx a).toNat < s.cur.rx b) : evwaitBody w a b s = waitAgain w s := by
  rw [evwaitBody, if_neg (by omega), if_neg (BitVec.not_le.mpr hx)]

end

theorem drainTo_counter (s : State) (level : Nat) (sel : Stream → Bool) (k : Word) (m : Nat) :
    (s.drainTo level sel).counter k m = s.counter k m := (noteDrain_reached s level sel).counter k m

/-- A release over the streams `sel`, with the commands `own` of the hart's still to be performed (R111, R221). -/
def Release (s : State) (i : Instr) (level : Nat) (sel : Stream → Bool) (own : Engine → Bool) (next : State → Prop) : Prop :=
  let u := s.start.drainTo level sel
  u.blocked = none → (u.ownCommand own = true → exec i s = .next u.waitCommands) ∧ (u.ownCommand own = false → next u)

theorem Release.congr {s : State} {i : Instr} {level : Nat} {sel sel' : Stream → Bool} {own own' : Engine → Bool} {next : State → Prop}
    (hsel : ∀ x, sel x = sel' x) (hown : ∀ x, own x = own' x) (h : Release s i level sel' own' next) : Release s i level sel own next := by
  obtain rfl : sel = sel' := funext hsel
  obtain rfl : own = own' := funext hown
  exact h

theorem afterRelease_of_release {s : State} {i : Instr} {level : Nat} {next : State → Prop} (h : Release s i level heldStream bankEngine next) :
    Spec.AfterRelease s i level next :=
  Release.congr (fun st => by cases st <;> rfl) (fun e => by cases e <;> rfl) h

/-- EVSET adds to its counter after the release. -/
theorem evset_release {a b : Reg} {s : State} (h : PlainHart s) (hn : (s.cur.rx a).toNat < 4096) :
    Release s (.evset a b) 3 heldStream bankEngine (fun u =>
      exec (.evset a b) s = .next (u.addCounter s.cur.sctx (s.cur.rx a).toNat (s.cur.rx b)).completed) := by
  refine fun hb => ⟨fun hown => ?waits, fun hown => ?adds⟩
  case waits => exact perform_hart_stay 0x3B#6 h (wMajor_xWord ..) (by decide) (evsetBody_waits (s := s.start) hn hown) hb
  case adds =>
    obtain ⟨cs, ls, he⟩ := addCounter_only (s.start.drainTo 3 heldStream) s.cur.sctx (s.cur.rx a).toNat (s.cur.rx b)
    refine perform_hart_done 0x3B#6 h (wMajor_xWord ..) (by decide) (evsetBody_adds (s := s.start) hn hown) ?_ ?_
    · rw [he]; exact hb
    · rw [he]; exact (congrArg Hart.strikes (drainTo_cur s.start 3 heldStream)).trans h.strikes

theorem eventCounters : Spec.EventCounters := by
  refine ⟨fun a b s h => ⟨fun hn i hi => ?illegal, fun hn => ⟨?releases, fun hx => ?goes, fun hx => ?waits⟩⟩, fun a b h => ?wakes⟩
  case illegal =>
    obtain rfl | rfl : i = .evset a b ∨ i = .evwait a b := by simpa using hi
    · exact perform_hart_trap 0x3B#6 h (wMajor_xWord ..) (by decide) (evsetBody_illegal b (s := s.start) hn) rfl
    · exact perform_hart_trap 0x3B#6 h (wMajor_xWord ..) (by decide) (evwaitBody_illegal _ b (s := s.start) hn) rfl
  case releases =>
    refine afterRelease_of_release (fun hb => ⟨(evset_release h hn hb).1, fun hown => ⟨_, (evset_release h hn hb).2 hown, ?_⟩⟩)
    have hcount : ∀ c m, (s.start.drainTo 3 heldStream).counter c m = s.counter c m := drainTo_counter s.start 3 heldStream
    generalize s.start.drainTo 3 heldStream = u at hcount
    obtain ⟨cs, ls, he⟩ := addCounter_only u s.cur.sctx (s.cur.rx a).toNat (s.cur.rx b)
    refine ⟨?_, ?_, ?_, ?_, fun c m => ?_, fun l hl hctx hstopped hw => addCounter_eligible hl hctx hstopped hw⟩
    iterate 4 rw [he]; rfl
    rw [← hcount]
    exact addCounter_counter u s.cur.sctx (s.cur.rx a).toNat (s.cur.rx b) c m
  case goes => exact perform_hart_done 0x3B#6 h (wMajor_xWord ..) (by decide) (evwaitBody_goes (s := s.start) hn _ hx) rfl h.strikes
  case waits => exact perform_hart_stay 0x3B#6 h (wMajor_xWord ..) (by decide) (evwaitBody_waits (s := s.start) hn _ hx) rfl
  case wakes =>
    refine wake_reissues 0x3B#6 (fun s => rfl) (fun s => ?_) ?_ (wMajor_xWord ..) (by decide)
    · change perform _ s (evwaitBody _ a b) = perform _ s (evwaitBody _ (wA _) (wB _))
      simp [encode, evwaitWord]
    · exact isWord_of (wMajor_xWord ..) (wFn_xWord 0x3B#6 0#5 a b 3#11)

end Sys2Proof.Machine

namespace Sys2Proof

/-- Settles O41: TIME and SLEEPT by the status they act on, EVSET as a release and an addition, EVWAIT by the counter it reads. -/
theorem timeAndEvents : Obligations.TimeAndEvents := ⟨Machine.timeAndSleep, Machine.eventCounters⟩

end Sys2Proof
end

section
/-!
SUPPORT. The lowest byte of a command that its hart may not touch (R184, R191, R243): of a run of local bytes, of a run of global bytes, and of
several runs together.
-/

namespace Sys2Proof.Machine

/-! ### Lowest members -/

/-- o is the lowest number of a set, none when the set is empty. -/
def IsLowest (P : Int → Prop) (o : Option Int) : Prop := (o = none → ∀ x, ¬ P x) ∧ ∀ x, o = some x → P x ∧ ∀ y, P y → x ≤ y

theorem IsLowest.none_of {P : Int → Prop} {o : Option Int} (h : IsLowest P o) (hn : ∀ x, ¬ P x) : o = none := by
  cases o with
  | none => rfl
  | some x => exact absurd (h.2 x rfl).1 (hn x)

theorem IsLowest.some_of {P : Int → Prop} {o : Option Int} {x : Int} (h : IsLowest P o) (hx : P x) (hlow : ∀ y, P y → x ≤ y) : o = some x := by
  cases o with
  | none => exact absurd hx (h.1 rfl x)
  | some y =>
    obtain ⟨hy, hy'⟩ := h.2 y rfl
    rw [le_antisymm (hy' x hx) (hlow y hy)]

theorem isLowest_none {P : Int → Prop} (h : ∀ x, ¬ P x) : IsLowest P none := ⟨fun _ => h, nofun⟩

theorem isLowest_some {P : Int → Prop} {x : Int} (hx : P x) (hlow : ∀ y, P y → x ≤ y) : IsLowest P (some x) :=
  ⟨nofun, fun _ e => Option.some.inj e ▸ ⟨hx, hlow⟩⟩

theorem IsLowest.congr {P Q : Int → Prop} {o : Option Int} (h : IsLowest P o) (hpq : ∀ x, P x ↔ Q x) : IsLowest Q o := by
  obtain rfl : P = Q := funext fun x => propext (hpq x)
  exact h

/-- The lower of the lowest members of two sets is the lowest of both. -/
theorem IsLowest.lower {P Q : Int → Prop} {a b : Option Int} (ha : IsLowest P a) (hb : IsLowest Q b) :
    IsLowest (fun x => P x ∨ Q x) (lower a b) := by
  cases a with
  | none =>
    have hp := ha.1 rfl
    cases b with
    | none => exact isLowest_none fun x => not_or.mpr ⟨hp x, hb.1 rfl x⟩
    | some y => exact isLowest_some (.inr (hb.2 y rfl).1) fun z hz => (hb.2 y rfl).2 z (hz.resolve_left (hp z))
  | some x =>
    obtain ⟨hx, hx'⟩ := ha.2 x rfl
    cases b with
    | none => exact isLowest_some (.inl hx) fun z hz => hx' z (hz.resolve_right (hb.1 rfl z))
    | some y =>
      obtain ⟨hy, hy'⟩ := hb.2 y rfl
      rw [Sys2Proof.Machine.lower]
      split
      · next hlt => exact isLowest_some (.inr hy) fun z hz => hz.elim (fun h => le_trans hlt.le (hx' z h)) (hy' z)
      · next hge => exact isLowest_some (.inl hx) fun z hz => hz.elim (hx' z) (fun h => le_trans (not_lt.mp hge) (hy' z h))

/-- The lowest member of the union of n sets. -/
theorem isLowest_foldl {P : Nat → Int → Prop} {f : Nat → Option Int} (h : ∀ k, IsLowest (P k) (f k)) (n : Nat) :
    IsLowest (fun x => ∃ k, k < n ∧ P k x) ((List.range n).foldl (fun p k => lower p (f k)) none) := by
  induction n with
  | zero => exact isLowest_none fun x ⟨k, hk, _⟩ => absurd hk (Nat.not_lt_zero k)
  | succ n ih =>
    rw [List.range_succ, List.foldl_append]
    refine (ih.lower (h n)).congr fun x => ⟨?_, ?_⟩
    · rintro (⟨k, hk, hx⟩ | hx)
      · exact ⟨k, by omega, hx⟩
      · exact ⟨n, by omega, hx⟩
    · rintro ⟨k, hk, hx⟩
      rcases Nat.lt_succ_iff_lt_or_eq.mp hk with hlt | rfl
      · exact .inl ⟨k, hlt, hx⟩
      · exact .inr hx

/-! ### Local bytes -/

/-- A local offset lies in one of some regions. -/
def InRegion (rs : List LRegion) (x : Int) : Prop := ∃ r ∈ rs, (r.off : Int) ≤ x ∧ x < (r.off + r.size : Nat)

/-- From x on, the regions up to the one `firstOut` gives are gone through, and none holds it: each region is met at most once. -/
theorem firstOut_spec (rs : List LRegion) : ∀ (fuel x : Nat), (rs.filter (fun r => decide (x < r.off + r.size))).length < fuel →
    x ≤ firstOut rs fuel x ∧ ¬ InRegion rs (firstOut rs fuel x) ∧ ∀ y, x ≤ y → y < firstOut rs fuel x → InRegion rs y
  | 0, _, h => absurd h (Nat.not_lt_zero _)
  | fuel + 1, x, h => by
    rw [firstOut]
    cases hf : rs.find? (fun r => r.off ≤ x && x < r.off + r.size) with
    | none =>
      dsimp only
      refine ⟨le_refl x, fun ⟨r, hr, hlo, hhi⟩ => ?_, fun y h1 h2 => by omega⟩
      have := List.find?_eq_none.mp hf r hr
      simp only [Bool.and_eq_true, decide_eq_true_eq] at this
      omega
    | some r =>
      have hr := List.mem_of_find?_eq_some hf
      have hx := List.find?_some hf
      simp only [Bool.and_eq_true, decide_eq_true_eq] at hx
      have hfewer : (rs.filter (fun q => decide (r.off + r.size < q.off + q.size))).length < fuel := by
        have hsub : rs.filter (fun q => decide (r.off + r.size < q.off + q.size)) =
            (rs.filter (fun q => decide (x < q.off + q.size))).filter (fun q => decide (r.off + r.size < q.off + q.size)) := by
          rw [List.filter_filter]
          refine List.filter_congr fun q _ => ?_
          by_cases hq : r.off + r.size < q.off + q.size
          · simp [hq, hx.2.trans hq]
          · simp [hq]
        have hlt : (rs.filter (fun q => decide (r.off + r.size < q.off + q.size))).length < (rs.filter (fun q => decide (x < q.off + q.size))).length := by
          rw [hsub, List.length_filter_lt_length_iff_exists]
          exact ⟨r, List.mem_filter.mpr ⟨hr, by simpa using hx.2⟩, by simp⟩
        omega
      obtain ⟨h1, h2, h3⟩ := firstOut_spec rs fuel (r.off + r.size) hfewer
      dsimp only
      refine ⟨by omega, h2, fun y hy hy' => ?_⟩
      by_cases hin : y < r.off + r.size
      · exact ⟨r, hr, by omega, by omega⟩
      · exact h3 y (by omega) hy'

theorem badLocal_isLowest (rs : List LRegion) (lo : Int) (n : Nat) :
    IsLowest (fun x => (lo ≤ x ∧ x < lo + n) ∧ ¬ InRegion rs x) (badLocal rs lo n) := by
  rw [badLocal]
  split
  · next h0 =>
    have h0 : n = 0 := by simpa using h0
    exact isLowest_none fun x ⟨⟨_, _⟩, _⟩ => by omega
  · next h0 =>
    have h0 : n ≠ 0 := by simpa using h0
    split
    · next hneg =>
      refine isLowest_some ⟨⟨le_refl lo, by omega⟩, fun ⟨r, _, hr, _⟩ => by omega⟩ fun y hy => hy.1.1
    · next hneg =>
      obtain ⟨hle, hout, hin⟩ := firstOut_spec rs (rs.length + 1) lo.toNat (Nat.lt_succ_of_le (List.length_filter_le ..))
      dsimp only
      split
      · next hlt =>
        refine isLowest_some ⟨⟨by omega, by omega⟩, hout⟩ fun y hy => ?_
        by_contra hlow
        refine hy.2 ?_
        have := hin y.toNat (by omega) (by omega)
        rwa [Int.toNat_of_nonneg (by omega)] at this
      · next hge =>
        refine isLowest_none fun x hx => hx.2 ?_
        have := hin x.toNat (by omega) (by omega)
        rwa [Int.toNat_of_nonneg (by omega)] at this

/-- A local byte of a command: byte y of run k. -/
def Geometry.Byte (g : Geometry) (x : Int) : Prop := ∃ k, k < g.runs ∧ ∃ y, y < g.len ∧ x = g.loff k + (y : Nat)

/-- Check 4 of R184, local side. -/
theorem geometry_badLocal_isLowest (g : Geometry) (rs : List LRegion) :
    IsLowest (fun x => g.Byte x ∧ ¬ InRegion rs x) (g.badLocal rs) := by
  refine (isLowest_foldl (fun k => badLocal_isLowest rs (g.loff k) g.len) g.runs).congr fun x => ⟨?_, ?_⟩
  · rintro ⟨k, hk, ⟨h1, h2⟩, hout⟩
    exact ⟨⟨k, hk, (x - g.loff k).toNat, by omega, by omega⟩, hout⟩
  · rintro ⟨⟨k, hk, y, hy, rfl⟩, hout⟩
    exact ⟨k, hk, ⟨by omega, by omega⟩, hout⟩

/-! ### Global bytes -/

theorem inWindow_iff (a : Word) : Spec.InWindow a ↔ Config.localBase ≤ a.toNat ∧ a.toNat ≤ Config.reservedTop := Iff.rfl

/-- Check 4 of R184, global side: a run that goes past the end of the address space is not in the window there. -/
theorem badGlobal_isLowest (a : Word) {n : Nat} (hn : n < 2 ^ 32) :
    IsLowest (fun x => ∃ j, j < n ∧ x = ((a + BitVec.ofNat 64 j).toNat : Nat) ∧ Spec.InWindow (a + BitVec.ofNat 64 j)) (badGlobal a n) := by
  have hsum : ∀ j, j < n → (a + BitVec.ofNat 64 j).toNat = if a.toNat + j < 2 ^ 64 then a.toNat + j else a.toNat + j - 2 ^ 64 := by
    intro j hj
    have := a.isLt
    rw [BitVec.toNat_add, BitVec.toNat_ofNat]
    split <;> omega
  have ha := a.isLt
  have hbase : Config.localBase = 0x00FFFF0000000000 := rfl
  have htop : Config.reservedTop = 0x00FFFFFFFFFFFFFF := rfl
  obtain ⟨lo, hlo⟩ : ∃ lo, lo = max a.toNat Config.localBase := ⟨_, rfl⟩
  have hlo1 : a.toNat ≤ lo := hlo ▸ le_max_left ..
  have hlo2 : Config.localBase ≤ lo := hlo ▸ le_max_right ..
  have hlo3 : lo = a.toNat ∨ lo = Config.localBase := hlo ▸ max_choice ..
  simp only [inWindow_iff, badGlobal, ← hlo, Bool.and_eq_true, bne_iff_ne, decide_eq_true_eq]
  split
  · next h =>
    obtain ⟨⟨⟨h0, hle⟩, hlt⟩, hlow⟩ := h
    have hj := hsum (lo - a.toNat) (by omega)
    rw [if_pos (by omega)] at hj
    refine isLowest_some ⟨lo - a.toNat, by omega, by omega, by omega⟩ ?_
    rintro y ⟨j, hj, rfl, hw⟩
    have hs := hsum j hj
    split at hs <;> omega
  · next h =>
    refine isLowest_none ?_
    rintro x ⟨j, hj, rfl, hw⟩
    have hs := hsum j hj
    refine h ?_
    split at hs <;> omega

end Sys2Proof.Machine
end

section
/-!
SUPPORT. Copy and gather commands (O28): the fields of their blocks (R185, R186), the bytes they name, what accepting one leaves (R184), the status
of a token (R188), and waiting for one.
-/

namespace Sys2Proof.Machine

/-! ### Blocks (R185, R186) -/

theorem blockBits_eq (b : List Word) (k lo n : Nat) : blockBits b k lo n = Spec.field b k lo n := rfl

/-- The bits of a doubleword from one up. -/
theorem field_high (b : List Word) (k lo n : Nat) (h : lo + n = 64) : Spec.field b k lo n = blockAt b k / 2 ^ lo := by
  refine Nat.mod_eq_of_lt (Nat.div_lt_of_lt_mul ?_)
  rw [← Nat.pow_add, h]
  exact (b.getD k 0).isLt

theorem field_whole (b : List Word) (k : Nat) : Spec.field b k 0 64 = blockAt b k := by rw [field_high b k 0 64 rfl]; simp

theorem field_lt (b : List Word) (k lo n : Nat) : Spec.field b k lo n < 2 ^ n := Nat.mod_lt _ (Nat.two_pow_pos n)

theorem sintN_field (b : List Word) (k lo : Nat) : sintN 32 (Spec.field b k lo 32) = Spec.sfield b k lo := by
  rw [Spec.sfield, ← sintN_toInt (by decide), BitVec.toNat_ofNat, Nat.mod_eq_of_lt (field_lt ..)]

theorem copyFieldsOk_iff (b : List Word) : copyFieldsOk b = true ↔ Spec.CopyBlock b := by
  simp only [copyFieldsOk, Spec.CopyBlock, Bool.and_eq_true, beq_iff_eq, bne_iff_ne, blockBits_eq, field_whole, field_high b 1 21 43 rfl,
    field_high b 6 1 63 rfl, Nat.one_le_iff_ne_zero, pow_one, and_assoc]

theorem gatherFieldsOk_iff (b : List Word) : gatherFieldsOk b = true ↔ Spec.GatherBlock b := by
  simp only [gatherFieldsOk, Spec.GatherBlock, Bool.and_eq_true, beq_iff_eq, bne_iff_ne, blockBits_eq, field_whole, field_high b 1 21 43 rfl,
    Nat.one_le_iff_ne_zero, and_assoc]

/-! ### The bytes a command names -/

/-- Runs of a copy counted in two indices, or in one. -/
theorem twoIndices_iff (c1 c2 : Nat) (P : Nat → Nat → Prop) : (∀ i1 i2, i1 < c1 → i2 < c2 → P i1 i2) ↔ ∀ k, k < c1 * c2 → P (k % c1) (k / c1) := by
  constructor
  · intro h k hk
    have h1 : 0 < c1 := Nat.pos_of_ne_zero fun e => by simp [e] at hk
    exact h _ _ (Nat.mod_lt k h1) (Nat.div_lt_of_lt_mul hk)
  · intro h i1 i2 h1 h2
    have hk : i2 * c1 + i1 < c1 * c2 := by
      calc i2 * c1 + i1 < i2 * c1 + c1 := Nat.add_lt_add_left h1 _
        _ = c1 * (i2 + 1) := by ring
        _ ≤ c1 * c2 := Nat.mul_le_mul_left _ h2
    have := h _ hk
    rwa [Nat.mul_comm, Nat.mul_add_mod, Nat.mod_eq_of_lt h1, Nat.mul_add_div (by omega), Nat.div_eq_of_lt h1, Nat.add_zero] at this

/-- Byte y of run k of a copy. -/
theorem copyByte_eq (b : List Word) (base : Word) (k y : Nat) :
    Spec.copyByte b base (k % Spec.field b 2 32 16) (k / Spec.field b 2 32 16) y =
      (copyGlobal b base k + BitVec.ofNat 64 y, (copyGeometry b).loff k + (y : Nat)) := by
  simp only [Spec.copyByte, copyGlobal, copyGeometry, blockBits_eq, sintN_field]

theorem copyBytes_iff (b : List Word) (base : Word) (f : Word × Int → Prop) :
    (∀ i1 i2 y, i1 < Spec.field b 2 32 16 → i2 < Spec.field b 2 48 16 → y < Spec.field b 2 0 32 → f (Spec.copyByte b base i1 i2 y)) ↔
      ∀ k, k < (copyGeometry b).runs → ∀ y, y < (copyGeometry b).len → f (copyGlobal b base k + BitVec.ofNat 64 y, (copyGeometry b).loff k + (y : Nat)) := by
  have hk := twoIndices_iff (Spec.field b 2 32 16) (Spec.field b 2 48 16)
    (fun i1 i2 => ∀ y, y < Spec.field b 2 0 32 → f (Spec.copyByte b base i1 i2 y))
  simp only [copyByte_eq] at hk
  exact ⟨fun h => hk.mp fun i1 i2 h1 h2 y hy => h i1 i2 y h1 h2 hy, fun h i1 i2 y h1 h2 hy => hk.mpr h i1 i2 h1 h2 y hy⟩

/-- The local bytes of a command of either engine. -/
def engineGeometry (gather : Bool) (b : List Word) : Geometry := if gather then gatherGeometry b else copyGeometry b

/-- A global byte that check 4 of R184 reads of a command's block: of a copy's runs, or of a gather's index array. -/
def GlobalByte (gather : Bool) (b : List Word) (base x : Word) : Prop :=
  if gather then ∃ j, j < 4 * Spec.field b 2 32 16 ∧ x = b.getD 3 0 + BitVec.ofNat 64 j
  else ∃ k, k < (copyGeometry b).runs ∧ ∃ y, y < (copyGeometry b).len ∧ x = copyGlobal b base k + BitVec.ofNat 64 y

/-- The lowest global byte of a command that lies in the local or reserved window. -/
def engineBadGlobal (gather : Bool) (b : List Word) (base : Word) : Option Int :=
  if gather then badGlobal (b.getD 3 0) (4 * (gatherGeometry b).runs)
  else (List.range (copyGeometry b).runs).foldl (fun p k => lower p (badGlobal (copyGlobal b base k) (copyGeometry b).len)) none

theorem gatherLocals_iff (b : List Word) (f : Int → Prop) :
    (∀ r y, r < Spec.field b 2 32 16 → y < Spec.field b 2 0 32 → f ((Spec.field b 1 0 21 : Int) + r * Spec.sfield b 5 0 + y)) ↔
      ∀ x, (gatherGeometry b).Byte x → f x := by
  simp only [Geometry.Byte, gatherGeometry, blockBits_eq, sintN_field]
  constructor
  · rintro h x ⟨r, hr, y, hy, rfl⟩
    exact h r y hr hy
  · exact fun h r y hr hy => h _ ⟨r, hr, y, hy, rfl⟩

theorem copyLocals_iff (b : List Word) (base : Word) (f : Int → Prop) :
    (∀ i1 i2 y, i1 < Spec.field b 2 32 16 → i2 < Spec.field b 2 48 16 → y < Spec.field b 2 0 32 → f (Spec.copyByte b base i1 i2 y).2) ↔
      ∀ x, (copyGeometry b).Byte x → f x := by
  rw [copyBytes_iff b base (fun p => f p.2)]
  constructor
  · rintro h x ⟨k, hk, y, hy, rfl⟩
    exact h k hk y hy
  · exact fun h k hk y hy => h _ ⟨k, hk, y, hy, rfl⟩

theorem gatherGlobals_iff (b : List Word) (base : Word) (f : Word → Prop) :
    (∀ j, j < 4 * Spec.field b 2 32 16 → f (b.getD 3 0 + BitVec.ofNat 64 j)) ↔ ∀ x, GlobalByte true b base x → f x := by
  constructor
  · rintro h x ⟨j, hj, rfl⟩
    exact h j hj
  · exact fun h j hj => h _ ⟨j, hj, rfl⟩

theorem copyGlobals_iff (b : List Word) (base : Word) (f : Word → Prop) :
    (∀ i1 i2 y, i1 < Spec.field b 2 32 16 → i2 < Spec.field b 2 48 16 → y < Spec.field b 2 0 32 → f (Spec.copyByte b base i1 i2 y).1) ↔
      ∀ x, GlobalByte false b base x → f x := by
  rw [copyBytes_iff b base (fun p => f p.1)]
  constructor
  · rintro h x ⟨k, hk, y, hy, rfl⟩
    exact h k hk y hy
  · exact fun h k hk y hy => h _ ⟨k, hk, y, hy, rfl⟩

theorem engineBadGlobal_isLowest (gather : Bool) (b : List Word) (base : Word) :
    IsLowest (fun x => ∃ g : Word, x = (g.toNat : Nat) ∧ GlobalByte gather b base g ∧ Spec.InWindow g) (engineBadGlobal gather b base) := by
  cases gather with
  | true =>
    have hn : 4 * Spec.field b 2 32 16 < 2 ^ 32 := by have := field_lt b 2 32 16; omega
    refine (badGlobal_isLowest (b.getD 3 0) hn).congr fun x => ⟨?_, ?_⟩
    · rintro ⟨j, hj, hx, hw⟩
      exact ⟨_, hx, ⟨j, hj, rfl⟩, hw⟩
    · rintro ⟨g, hx, ⟨j, hj, rfl⟩, hw⟩
      exact ⟨j, hj, hx, hw⟩
  | false =>
    refine (isLowest_foldl (fun k => badGlobal_isLowest (copyGlobal b base k) (field_lt b 2 0 32)) _).congr fun x => ⟨?_, ?_⟩
    · rintro ⟨k, hk, y, hy, hx, hw⟩
      exact ⟨_, hx, ⟨k, hk, y, hy, rfl⟩, hw⟩
    · rintro ⟨g, hx, ⟨k, hk, y, hy, rfl⟩, hw⟩
      exact ⟨k, hk, y, hy, hx, hw⟩

/-! ### Accepting a command (R184) -/

theorem toNat_append_eq {n m : Nat} (x : BitVec n) (y : BitVec m) : (x ++ y).toNat = x.toNat * 2 ^ m + y.toNat := by
  rw [BitVec.toNat_append, ← Nat.shiftLeft_add_eq_or_of_lt y.isLt, Nat.shiftLeft_eq]

/-- The token of R188 as the fields it is made of. -/
theorem engineToken_eq (cl : Nat) (gather : Bool) (seq : Nat) : engineToken cl (b2n gather) seq =
    BitVec.ofNat 2 (cl / 56) ++ BitVec.ofNat 6 (cl % 56) ++ BitVec.ofBool gather ++ BitVec.ofNat 55 seq := by
  apply BitVec.eq_of_toNat_eq
  have hb : (BitVec.ofBool gather).toNat = b2n gather := by cases gather <;> rfl
  have hg : b2n gather ≤ 1 := by cases gather <;> decide
  simp only [engineToken, toNat_append_eq, hb, BitVec.toNat_ofNat]
  omega

/-- A promise time is not earlier than the acceptance (R184). -/
theorem timeWord_le_promise (s : State) (n : Nat) : s.timeWord ≤ s.promise n := by
  have h : ∀ t d p : Nat, t < 2 ^ 64 → p = max t (min (t + d) (2 ^ 64 - 1)) → t ≤ p % 2 ^ 64 := by
    intro t d p ht hp
    have hle : t ≤ p := hp ▸ le_max_left ..
    have hlt : p < 2 ^ 64 := by rw [hp]; exact max_lt ht (by omega)
    rwa [Nat.mod_eq_of_lt hlt]
  rw [BitVec.le_def, State.promise, BitVec.toNat_ofNat]
  exact h _ _ _ s.timeWord.isLt rfl

theorem mem_ownTokens {s : State} {c : Cmd} (hc : c ∈ (s.cluster (clusterOf s.cur.place)).pool) (ho : c.owner = s.cur.place) (hn : c.engine ≠ .nmuOut) :
    c.token ∈ s.ownTokens := by
  refine List.mem_map.mpr ⟨c, List.mem_filter.mpr ⟨hc, ?_⟩, rfl⟩
  simp [ho, hn]

theorem mem_ownNmuTokens {s : State} {p : Nat × Nmu} {c : NmuCmd} (hp : p ∈ s.nmus) (hc : c ∈ p.2.queue) (ho : c.owner = s.cur.place) :
    c.token ∈ s.ownNmuTokens := by
  refine List.mem_flatMap.mpr ⟨p, hp, List.mem_map.mpr ⟨c, List.mem_filter.mpr ⟨?_, by simp [ho]⟩, rfl⟩⟩
  exact List.mem_append_right _ hc

theorem acceptEngine_accepts (u : State) (hr : u.recorder u.cur.launch = none) (gather : Bool) (d : Reg) (base : Word) (b : List Word)
    (scope : BitVec 3) (acq rel : Bool) (g : Geometry) :
    (u.acceptEngine gather d base b scope acq rel g).blocked = u.blocked ∧ (u.acceptEngine gather d base b scope acq rel g).cur.strikes = u.cur.strikes ∧
    Spec.EngineAccepts u (u.acceptEngine gather d base b scope acq rel g).completed gather acq d b base := by
  have hjournal : ∀ (k : Cluster) (kind : Nat) (x : Word),
      (u.fresh.2.setCluster (clusterOf u.cur.place) k).journalled kind x = (x, u.fresh.2.setCluster (clusterOf u.cur.place) k) :=
    fun k kind x => journalled_unrecorded (s := u.fresh.2.setCluster (clusterOf u.cur.place) k) hr kind x
  unfold State.acceptEngine
  simp only [hjournal]
  generalize hc : Cmd.mk .. = c
  refine ⟨rfl, ?strikes, c, u.promise u.fresh.1, timeWord_le_promise .., ?cur, ?pool, hc ▸ engineToken_eq .., hc ▸ rfl, hc ▸ rfl, hc ▸ rfl,
    hc ▸ rfl, hc ▸ rfl, hc ▸ rfl, hc ▸ rfl, fun ha => by simp [← hc, ha], fun ha => ⟨fun x hx ho hn => ?own, fun p hp x hx ho => ?nmu⟩, ?seq,
    fun k hk => State.cluster_setCluster_other _ _ hk, rfl, rfl⟩
  case strikes => exact (Hart.wx_strikes ..).trans (Hart.wx_strikes ..)
  case cur => rw [← engineToken_eq]; rfl
  case pool => exact (congrArg Cluster.pool (State.cluster_setCluster ..)).trans (by cases gather <;> rfl)
  case own => rw [← hc]; simp only [ha, if_true]; exact mem_ownTokens hx ho hn
  case nmu => rw [← hc]; simp only [ha, if_true]; exact mem_ownNmuTokens hp hx ho
  case seq =>
    cases gather
    · exact congrArg Cluster.copySeq (State.cluster_setCluster ..)
    · exact congrArg Cluster.gatherSeq (State.cluster_setCluster ..)

/-! ### XCOPY and XGATH (R184 to R186) -/

/-- The state from which a command is accepted: with .ACQ every access of the hart has been performed for the scope. -/
def State.acquire (s : State) (acq : Bool) (scope : BitVec 3) : State :=
  if acq then (s.drainTo (scopeLevel scope) anyStream).awaitNet (scopeLevel scope) true anyStream else s

theorem acquire_strikes (s : State) (acq : Bool) (scope : BitVec 3) : (s.acquire acq scope).cur.strikes = s.cur.strikes := by
  cases acq with
  | false => rfl
  | true =>
    rw [State.acquire, if_pos rfl, (awaitNet_reached ..).cur, drainTo_cur]

theorem engineBody_misaligned (gather : Bool) (d : Reg) {a : Reg} (b : Reg) (scope : BitVec 3) (acq rel : Bool) {s : State}
    (hx : (s.cur.rx a).toNat % 64 ≠ 0) : engineBody gather d a b scope acq rel s = .trap { cause := 4, tval := s.cur.rx a } s :=
  if_pos (bne_iff_ne.mpr hx)

section
variable (gather : Bool) (d : Reg) {a : Reg} (b : Reg) (scope : BitVec 3) (acq rel : Bool) {s u : State} {ds : List Word}
  (hx : (s.cur.rx a).toNat % 64 = 0) (hload : s.loadBlock (s.cur.rx a) = (.ok ds, u))
include hx hload

/-- After the block is read: the fields, the local bytes, the global bytes, and the pool (R184). -/
theorem engineBody_loaded : engineBody gather d a b scope acq rel s =
    if !(if gather then gatherFieldsOk ds else copyFieldsOk ds) then illegal u else
    match (engineGeometry gather ds).badLocal u.cur.local_, engineBadGlobal gather ds (u.cur.rx b) with
    | some off, _ => .trap { cause := 6, tval := localAddr off } u
    | none, some x => .trap { cause := 6, tval := BitVec.ofInt 64 x } u
    | none, none =>
      if (u.cluster (clusterOf u.cur.place)).held (if gather then .gather else .copy) ≥ 64 then waitPool u else
      .done ((u.acquire acq scope).acceptEngine gather d (u.cur.rx b) ds scope acq rel (engineGeometry gather ds)) := by
  rw [engineBody, if_neg (by simp [hx]), hload]
  cases gather <;> rfl

theorem engineBody_illFormed (hbad : ¬ (if gather then gatherFieldsOk ds else copyFieldsOk ds) = true) :
    engineBody gather d a b scope acq rel s = illegal u := by
  rw [engineBody_loaded gather d b scope acq rel hx hload, if_pos (by simpa using hbad)]

variable (hok : (if gather then gatherFieldsOk ds else copyFieldsOk ds) = true)
include hok

theorem engineBody_badLocal {off : Int} (hl : (engineGeometry gather ds).badLocal u.cur.local_ = some off) :
    engineBody gather d a b scope acq rel s = .trap { cause := 6, tval := localAddr off } u := by
  rw [engineBody_loaded gather d b scope acq rel hx hload, if_neg (by simp [hok]), hl]

variable (hl : (engineGeometry gather ds).badLocal u.cur.local_ = none)
include hl

theorem engineBody_badGlobal {x : Int} (hg : engineBadGlobal gather ds (u.cur.rx b) = some x) :
    engineBody gather d a b scope acq rel s = .trap { cause := 6, tval := BitVec.ofInt 64 x } u := by
  rw [engineBody_loaded gather d b scope acq rel hx hload, if_neg (by simp [hok]), hl, hg]

variable (hg : engineBadGlobal gather ds (u.cur.rx b) = none)
include hg

theorem engineBody_full (hheld : 64 ≤ (u.cluster (clusterOf u.cur.place)).held (if gather then .gather else .copy)) :
    engineBody gather d a b scope acq rel s = waitPool u := by
  rw [engineBody_loaded gather d b scope acq rel hx hload, if_neg (by simp [hok]), hl, hg]
  exact if_pos hheld

theorem engineBody_accepts (hheld : (u.cluster (clusterOf u.cur.place)).held (if gather then .gather else .copy) < 64) :
    engineBody gather d a b scope acq rel s =
      .done ((u.acquire acq scope).acceptEngine gather d (u.cur.rx b) ds scope acq rel (engineGeometry gather ds)) := by
  rw [engineBody_loaded gather d b scope acq rel hx hload, if_neg (by simp [hok]), hl, hg]
  exact if_neg (by omega)

end

/-- XCOPY and XGATH are one effect. -/
theorem exec_engine (gather : Bool) (d a b : Reg) (scope : BitVec 3) (acq rel : Bool) (s : State) {i : Instr}
    (hi : i = if gather then Instr.xgath d a b scope acq rel else .xcopy d a b scope acq rel) :
    wMajor (encode i) = 0x35#6 ∧ exec i s = perform (encode i) s (engineBody gather d a b scope acq rel) := by
  subst hi
  cases gather <;> exact ⟨wMajor_pWord .., rfl⟩

theorem ofInt_toNat (a : Word) : BitVec.ofInt 64 (a.toNat : Int) = a := by simp

theorem engineCommands : Spec.EngineCommands := by
  intro gather d a b scope acq rel s h x base i
  obtain ⟨hmajor, hexec⟩ := exec_engine gather d a b scope acq rel s (i := i) rfl
  refine ⟨fun hx => ?misaligned, ?loaded⟩
  case misaligned =>
    exact hexec.trans (perform_hart_trap 0x35#6 h hmajor (by decide) (engineBody_misaligned gather d b scope acq rel (s := s.start) hx) rfl)
  intro ds u hx hload hb hs hxs ok runs globals held level v
  have hbase : u.cur.rx b = base := by simp only [Hart.rx, hxs, base]
  have hok : ok ↔ (if gather then gatherFieldsOk ds else copyFieldsOk ds) = true := by
    cases gather
    · exact (copyFieldsOk_iff ds).symm
    · exact (gatherFieldsOk_iff ds).symm
  have hruns : ∀ f, runs f ↔ ∀ x, (engineGeometry gather ds).Byte x → f x := by
    intro f
    cases gather
    · exact copyLocals_iff ds base f
    · exact gatherLocals_iff ds f
  have hglobals : ∀ f, globals f ↔ ∀ x, GlobalByte gather ds base x → f x := by
    intro f
    cases gather
    · exact copyGlobals_iff ds base f
    · exact gatherGlobals_iff ds base f
  have hlocalLow := geometry_badLocal_isLowest (engineGeometry gather ds) u.cur.local_
  have hglobalLow := engineBadGlobal_isLowest gather ds base
  have hnoLocal : runs (Spec.Granted u.cur) → (engineGeometry gather ds).badLocal u.cur.local_ = none := fun hr =>
    hlocalLow.none_of fun x hx => hx.2 ((hruns _).mp hr x hx.1)
  have hnoGlobal : globals (fun g => ¬ Spec.InWindow g) → engineBadGlobal gather ds (u.cur.rx b) = none := fun hg =>
    hbase ▸ hglobalLow.none_of fun x ⟨g, _, hbyte, hw⟩ => (hglobals (fun g => ¬ Spec.InWindow g)).mp hg g hbyte hw
  refine ⟨fun hn => ?illFormed, fun ho hr hg hheld => ?full, fun ho hr hg hheld hv hrec => ?accepts, fun ho off hlow hbad => ?local_,
    fun ho hr g hlow hbad => ?global⟩
  case illFormed =>
    exact hexec.trans (perform_hart_trap 0x35#6 h hmajor (by decide)
      (engineBody_illFormed gather d b scope acq rel (s := s.start) hx hload (fun e => hn (hok.mpr e))) hb)
  case full =>
    exact hexec.trans (perform_hart_stay 0x35#6 h hmajor (by decide)
      (engineBody_full gather d b scope acq rel (s := s.start) hx hload (hok.mp ho) (hnoLocal hr) (hnoGlobal hg) hheld) hb)
  case accepts =>
    obtain ⟨hblocked, hstrikes, haccepts⟩ := acceptEngine_accepts v hrec gather d base ds scope acq rel (engineGeometry gather ds)
    refine ⟨_, hexec.trans (perform_hart_done 0x35#6 h hmajor (by decide) ?_ (hblocked.trans hv)
      (hstrikes.trans ((acquire_strikes u acq scope).trans hs))), haccepts⟩
    exact hbase ▸ engineBody_accepts gather d b scope acq rel (s := s.start) hx hload (hok.mp ho) (hnoLocal hr) (hnoGlobal hg) hheld
  case local_ =>
    have hlow' := (hruns (fun o => o < off → Spec.Granted u.cur o)).mp hlow
    have hbad' : ¬ ∀ x, (engineGeometry gather ds).Byte x → x ≠ off ∨ Spec.Granted u.cur x := fun hall => hbad ((hruns (fun o => o ≠ off ∨ _)).mpr hall)
    simp only [not_forall, not_or, ne_eq, not_not] at hbad'
    obtain ⟨_, hbyte, rfl, hout⟩ := hbad'
    have hsome := hlocalLow.some_of ⟨hbyte, hout⟩ fun y hy => not_lt.mp fun hlt => hy.2 (hlow' y hy.1 hlt)
    exact hexec.trans (perform_hart_trap 0x35#6 h hmajor (by decide)
      (engineBody_badLocal gather d b scope acq rel (s := s.start) hx hload (hok.mp ho) hsome) hb)
  case global =>
    have hlow' := (hglobals (fun x => Spec.InWindow x → g.toNat ≤ x.toNat)).mp hlow
    have hbad' : ¬ ∀ x, GlobalByte gather ds base x → ¬ (x = g ∧ Spec.InWindow x) := fun hall => hbad ((hglobals (fun x => ¬ (x = g ∧ _))).mpr hall)
    simp only [not_forall, not_not] at hbad'
    obtain ⟨_, hbyte, rfl, hw⟩ := hbad'
    have hsome := hglobalLow.some_of ⟨_, rfl, hbyte, hw⟩ fun y ⟨x, hy, hx, hxw⟩ => hy ▸ Int.ofNat_le.mpr (hlow' x hx hxw)
    refine hexec.trans (perform_hart_trap 0x35#6 h hmajor (by decide) ?_ hb)
    rw [engineBody_badGlobal gather d b scope acq rel (s := s.start) hx hload (hok.mp ho) (hnoLocal hr) (hbase ▸ hsome), ofInt_toNat]

/-! ### Statuses (R188) -/

theorem tokenParts_token {cl n : Nat} (gather : Bool) (hcl : cl < 224) (hn : n < 2 ^ 55) :
    tokenParts (BitVec.ofNat 2 (cl / 56) ++ BitVec.ofNat 6 (cl % 56) ++ BitVec.ofBool gather ++ BitVec.ofNat 55 n) = some (cl, gather, n) := by
  have hb : (BitVec.ofBool gather).toNat = b2n gather := by cases gather <;> rfl
  have hg : b2n gather ≤ 1 := by cases gather <;> decide
  have hbit : (BitVec.ofNat 2 (cl / 56) ++ BitVec.ofNat 6 (cl % 56) ++ BitVec.ofBool gather ++ BitVec.ofNat 55 n).getLsbD 55 = gather := by
    rw [BitVec.getLsbD_append, BitVec.getLsbD_append]
    simp
  simp only [tokenParts, hbit, toNat_append_eq, hb, BitVec.toNat_ofNat]
  rw [if_neg (by omega)]
  congr 3 <;> omega

section
variable {s : State} {ctx t : Word} {cl n : Nat} {gather : Bool} (hparts : tokenParts t = some (cl, gather, n))
include hparts

theorem engineStatus_old (h : n = 0 ∨ (if gather then (s.cluster cl).gatherSeq else (s.cluster cl).copySeq) < n ∨
    n + 256 ≤ (if gather then (s.cluster cl).gatherSeq else (s.cluster cl).copySeq)) : s.engineStatus ctx t = (4, 0) := by
  rw [State.engineStatus, hparts]
  refine if_pos ?_
  simp only [Bool.or_eq_true, beq_iff_eq, decide_eq_true_eq]
  omega

variable (h1 : 1 ≤ n) (h2 : n ≤ (if gather then (s.cluster cl).gatherSeq else (s.cluster cl).copySeq))
  (h3 : (if gather then (s.cluster cl).gatherSeq else (s.cluster cl).copySeq) < n + 256)
include h1 h2 h3

theorem engineStatus_recent : s.engineStatus ctx t =
    match (s.cluster cl).pool.find? (fun x => x.token == t && x.engine == (if gather then .gather else .copy)) with
    | some x => if x.ctx == ctx then (0, 0) else (4, 0)
    | none =>
      match (if gather then (s.cluster cl).gatherLog else (s.cluster cl).copyLog).find? (fun x => x.token == t && x.ctx == ctx) with
      | some x => if x.hidden then (0, 0) else (x.code, x.addr)
      | none => (4, 0) := by
  rw [State.engineStatus, hparts]
  refine (if_neg ?_).trans rfl
  simp only [Bool.or_eq_true, beq_iff_eq, decide_eq_true_eq]
  omega

theorem engineStatus_held (hctx : ∀ c ∈ (s.cluster cl).pool, c.token = t → c.ctx = ctx)
    (hheld : ∃ c ∈ (s.cluster cl).pool, c.token = t ∧ c.engine = if gather then Engine.gather else .copy) : s.engineStatus ctx t = (0, 0) := by
  obtain ⟨c, hc, ht, he⟩ := hheld
  rw [engineStatus_recent hparts h1 h2 h3]
  cases hf : (s.cluster cl).pool.find? (fun x => x.token == t && x.engine == (if gather then .gather else .copy)) with
  | none =>
    have := List.find?_eq_none.mp hf c hc
    simp [ht, he] at this
  | some x =>
    have hx := List.find?_some hf
    simp only [Bool.and_eq_true, beq_iff_eq] at hx
    exact if_pos (beq_iff_eq.mpr (hctx x (List.mem_of_find?_eq_some hf) hx.1))

theorem engineStatus_kept (hnone : ∀ c ∈ (s.cluster cl).pool, c.token ≠ t) {x : CmdStatus}
    (hx : x ∈ if gather then (s.cluster cl).gatherLog else (s.cluster cl).copyLog) (ht : x.token = t) (hctx : x.ctx = ctx) (hh : x.hidden = false)
    (honly : ∀ y ∈ (if gather then (s.cluster cl).gatherLog else (s.cluster cl).copyLog), y.token = t → y = x) :
    s.engineStatus ctx t = (x.code, x.addr) := by
  have hpool : (s.cluster cl).pool.find? (fun x => x.token == t && x.engine == (if gather then .gather else .copy)) = none :=
    List.find?_eq_none.mpr fun c hc => by simp [hnone c hc]
  rw [engineStatus_recent hparts h1 h2 h3, hpool]
  dsimp only
  cases hf : (if gather then (s.cluster cl).gatherLog else (s.cluster cl).copyLog).find? (fun x => x.token == t && x.ctx == ctx) with
  | none =>
    have := List.find?_eq_none.mp hf x hx
    simp [ht, hctx] at this
  | some y =>
    have hy := List.find?_some hf
    simp only [Bool.and_eq_true, beq_iff_eq] at hy
    obtain rfl := honly y (List.mem_of_find?_eq_some hf) hy.1
    simp [hh]

end

theorem engineStatus_spec : Spec.EngineStatus := by
  intro s ctx cl n gather hcl hn token seq
  have hparts : tokenParts token = some (cl, gather, n) := tokenParts_token gather hcl hn
  exact ⟨fun h => engineStatus_old hparts h, fun h1 h2 h3 hctx hheld => engineStatus_held hparts h1 h2 h3 hctx hheld,
    fun h1 h2 h3 hnone x hx ht hctx hh honly => engineStatus_kept hparts h1 h2 h3 hnone hx ht hctx hh honly⟩

/-! ### Polling and waiting (R188, R245) -/

theorem onStatus_acts {s : State} (w : BitVec 32) {code : Nat} {addr : Word} (hb : s.blocked = none) (hs : s.cur.strikes = []) (hc : code ≤ 4) :
    Spec.AfterStatus s s w code addr (s.finish w (onStatus w (code, addr) s)) := by
  obtain rfl | rfl | rfl | rfl | rfl : code = 0 ∨ code = 1 ∨ code = 2 ∨ code = 3 ∨ code = 4 := by omega
  all_goals simp [Spec.AfterStatus, onStatus, waitAgain, stPending, stAccess, stData, hb, hs]

theorem xpoll_writes {d a : Reg} {s : State} {code : Nat} {addr : Word} (h : PlainHart s) (hr : s.recorder s.cur.launch = none)
    (hst : s.engineStatus s.cur.sctx (s.cur.rx a) = (code, addr)) :
    exec (.xpoll d a) s = .next ({ s.start with cur := s.cur.wx d (BitVec.ofNat 64 code) } : State).completed := by
  refine perform_hart_done 0x35#6 h (wMajor_pWord ..) (by decide) (t := { s.start with cur := s.cur.wx d (BitVec.ofNat 64 code) }) ?_ rfl
    ((Hart.wx_strikes ..).trans h.strikes)
  have hst' : s.start.engineStatus s.start.cur.sctx (s.start.cur.rx a) = (code, addr) := hst
  have hr' : s.start.recorder s.start.cur.launch = none := hr
  simp only [hst', journalled_unrecorded hr']
  rfl

theorem commandPoolFreed_frees {s : State} {h : Nat} (hplace : (s.focus h).cur.place = h) (hw : (s.focus h).cur.status = .waiting .pool)
    (hheld : (s.focus h).cur.held = false) :
    exec (.commandPoolFreed h) s = .next { s.focus h with cur := { (s.focus h).cur with status := .running } } := by
  refine congrArg Host.Outcome.next (if_pos ?_)
  simp [hplace, hw, hheld]

theorem engineWaits : Spec.EngineWaits := by
  refine ⟨fun d a s code addr h hr hst => xpoll_writes h hr hst, fun a s code addr h hst hc => ?xwait, fun a h => ?wakes,
    fun h s hplace hw hheld => commandPoolFreed_frees hplace hw hheld⟩
  case xwait =>
    refine ⟨_, perform_hart 0x35#6 h (wMajor_pWord ..) (by decide), ?_⟩
    have hst' : s.start.engineStatus s.start.cur.sctx (s.start.cur.rx a) = (code, addr) := hst
    rw [xwaitBody, hst']
    exact onStatus_acts _ rfl h.strikes hc
  case wakes =>
    refine wake_reissues 0x35#6 (fun s => rfl) (fun s => ?_) ?_ (wMajor_pWord ..) (by decide)
    · change perform _ s (xwaitBody _ a) = perform _ s (xwaitBody _ (wA _))
      simp [encode, xwaitWord]
    · exact isWord_of (wMajor_pWord ..) (low6_pWord 0x35#6 0#5 a 0#5 0#3 false false 2#6)

end Sys2Proof.Machine

namespace Sys2Proof

/-- Settles O28: the checks of a command by the lowest byte that fails each, its acceptance by what it leaves, a token by its parts, and XWAIT by the
status it acts on. -/
theorem engineCommandsAndWaits : Obligations.EngineCommandsAndWaits := ⟨Machine.engineCommands, Machine.engineStatus_spec, Machine.engineWaits⟩

end Sys2Proof
end

section
/-!
SUPPORT. When an engine command starts (R187), and the accesses a copy and a gather make (R185, R186, R188): what an access leaves, and the command
after it.
-/

namespace Sys2Proof.Machine

/-! ### The pool of a cluster -/

theorem find?_setCmd {p : List Cmd} {x c : Cmd} {token : Word} (hx : p.find? (fun c => c.is token) = some x) (hc : c.is token = true)
    (ht : c.token = token) : (setCmd p c).find? (fun c => c.is token) = some c := by
  induction p with
  | nil => cases hx
  | cons y t ih =>
    rw [setCmd, ht]
    cases hy : y.is token with
    | true => simp [hc]
    | false =>
      rw [List.find?_cons_of_neg (by simp [hy])] at hx
      simpa [hy] using ih hx

theorem setCmd_append {p q : List Cmd} {c d : Cmd} (hp : ∀ x ∈ p, x.token ≠ c.token) (hd : d.token = c.token) (hc : c.engine ≠ .nmuOut) :
    setCmd (p ++ c :: q) d = p ++ d :: q := by
  induction p with
  | nil => simp [setCmd, hd, Cmd.is, hc]
  | cons x t ih =>
    have hx : x.token ≠ c.token := hp x List.mem_cons_self
    have ht := ih fun y hy => hp y (List.mem_cons_of_mem _ hy)
    simp [setCmd, hd, Cmd.is, hx, ht]

theorem is_self {c : Cmd} (hc : c.engine ≠ .nmuOut) : c.is c.token = true := by simp [Cmd.is, hc]

/-- A command that stands in a pool is found after it is replaced. -/
theorem findCmd_putCmd {s : State} {cl : Nat} {x c : Cmd} {token : Word} (hx : s.findCmd cl token = some x) (hc : c.is token = true)
    (ht : c.token = token) : (s.putCmd cl c).findCmd cl token = some c := by
  rw [State.findCmd, State.putCmd, State.cluster_setCluster]
  exact find?_setCmd hx hc ht

/-! ### Starting (R187) -/

theorem findCmd_between {s : State} {cl : Nat} {c : Cmd} {before after : List Cmd} (hpool : (s.cluster cl).pool = before ++ c :: after)
    (hother : ∀ x ∈ before ++ after, x.token ≠ c.token) (hc : c.engine ≠ .nmuOut) : s.findCmd cl c.token = some c := by
  have hbefore : before.find? (fun x => x.is c.token) = none :=
    List.find?_eq_none.mpr fun x hx => by simp [Cmd.is, hother x (List.mem_append_left _ hx)]
  rw [State.findCmd, hpool, List.find?_append, hbefore]
  exact List.find?_cons_of_pos (p := fun x : Cmd => x.is c.token) (is_self hc)

theorem rangesMeet_iff (a b : Nat × Nat) : rangesMeet a b = true ↔ a.1 < b.2 ∧ b.1 < a.2 := by simp [rangesMeet]

theorem conflict_iff (x c : Cmd) : conflict x c = true ↔
    ∃ r ∈ x.reads ++ x.writes, ∃ q ∈ c.reads ++ c.writes, (r ∈ x.writes ∨ q ∈ c.writes) ∧ r.1 < q.2 ∧ q.1 < r.2 := by
  simp only [conflict, Bool.or_eq_true, List.any_eq_true, rangesMeet_iff]
  constructor
  · rintro (⟨r, hr, q, hq, hm⟩ | ⟨r, hr, q, hq, hm⟩)
    · exact ⟨r, List.mem_append_right _ hr, q, hq, .inl hr, hm⟩
    · exact ⟨r, List.mem_append_left _ hr, q, List.mem_append_right _ hq, .inr hq, hm⟩
  · rintro ⟨r, hr, q, hq, hw | hw, hm⟩
    · exact .inl ⟨r, hw, q, hq, hm⟩
    · rcases List.mem_append.mp hr with hr | hr
      · exact .inr ⟨r, hr, q, hw, hm⟩
      · exact .inl ⟨r, hr, q, hq, hm⟩

theorem waitsFor_iff {x c : Cmd} (hc : c.engine ≠ .bank) : waitsFor x c = true ↔ conflict x c = true := by simp [waitsFor, hc]

/-- A command may start when none before it stands in its way. -/
theorem mayStart_between {before after : List Cmd} {c : Cmd} {mine : Cmd → Bool} (hb : ∀ x ∈ before, mine x = false) (hc : mine c = true)
    (ha : ∀ x ∈ after, mine x = false) : mayStart mine (before ++ c :: after) = true ↔ ∀ x ∈ before, waitsFor x c = false := by
  induction before with
  | nil => simp [mayStart, hc]
  | cons y t ih =>
    have hrest := ih fun x hx => hb x (List.mem_cons_of_mem _ hx)
    have hany : (t ++ c :: after).any (fun x => mine x && waitsFor y x) = waitsFor y c := by
      have ht : t.any (fun x => mine x && waitsFor y x) = false := List.any_eq_false.mpr fun x hx => by simp [hb x (List.mem_cons_of_mem _ hx)]
      have ha' : after.any (fun x => mine x && waitsFor y x) = false := List.any_eq_false.mpr fun x hx => by simp [ha x hx]
      simp [List.any_append, ht, ha', hc]
    rw [List.cons_append, mayStart, if_neg (by simp [hb y List.mem_cons_self]), hany, Bool.and_eq_true, hrest]
    simp [and_comm]

theorem enginePending_iff (s : State) (cl : Nat) (t : Word) : s.enginePending cl t = true ↔ Spec.EnginePending s cl t := by
  simp [State.enginePending, Spec.EnginePending, Cmd.is]

theorem nmuPending_iff (s : State) (t : Word) : s.nmuPending t = true ↔ Spec.NmuPending s t := by
  simp [State.nmuPending, Spec.NmuPending, Nmu.commands]

theorem acquired_iff (s : State) (cl level : Nat) (after nmus : List Word) :
    s.acquired cl level after nmus = true ↔ ¬ Spec.Unacquired s cl level after nmus := by
  simp only [State.acquired, Spec.Unacquired, ← enginePending_iff, ← nmuPending_iff]
  simp [and_assoc]

theorem engineCommandStart_starts {s : State} {cl : Nat} {c : Cmd} (hf : s.findCmd cl c.token = some c)
    (hs : canStart (s.cluster cl).pool c.token = true) (ha : s.acquired cl (min c.scope 4) c.after c.nmus = true) :
    exec (.engineCommandStart cl c.token) s = .next (s.putCmd cl { c with started := true }) := by
  change Host.Outcome.next _ = _
  simp [hf, hs, ha]

theorem engineCommandStart_stands {s : State} {cl : Nat} {c : Cmd} (hf : s.findCmd cl c.token = some c)
    (h : canStart (s.cluster cl).pool c.token = false ∨ s.acquired cl (min c.scope 4) c.after c.nmus = false) :
    exec (.engineCommandStart cl c.token) s = .next s := by
  change Host.Outcome.next _ = _
  rcases h with h | h <;> simp [hf, h]

theorem rangeChecker : Spec.RangeChecker := by
  intro s cl c before after hpool hother hbank hout clash held
  have hfind := findCmd_between hpool hother hout
  have hstart : canStart (s.cluster cl).pool c.token = true ↔ ∀ x ∈ before, ¬ clash x := by
    rw [hpool, canStart, mayStart_between (fun x hx => by simp [Cmd.is, hother x (List.mem_append_left _ hx)]) (is_self hout)
      (fun x hx => by simp [Cmd.is, hother x (List.mem_append_right _ hx)])]
    simp only [← Bool.not_eq_true, waitsFor_iff hbank, conflict_iff, clash]
  have hacquired : s.acquired cl (min c.scope 4) c.after c.nmus = true ↔ ¬ held := acquired_iff ..
  refine ⟨fun h => engineCommandStart_stands hfind ?_, fun hclash hheld =>
    ⟨_, engineCommandStart_starts hfind (hstart.mpr hclash) (hacquired.mpr hheld), ?_⟩⟩
  · rw [← Bool.not_eq_true, ← Bool.not_eq_true, hstart, hacquired, not_not]
    exact h.imp_left fun ⟨x, hx, hcl⟩ hall => hall x hx hcl
  · refine ⟨?_, fun k hk => State.cluster_setCluster_other _ _ hk, rfl, rfl, rfl⟩
    rw [State.putCmd, State.cluster_setCluster, hpool]
    exact setCmd_append (fun x hx => hother x (List.mem_append_left _ hx)) rfl hout

/-! ### Accesses that nothing watches -/

theorem homeMatches_unwatched {s : State} (h : Spec.Unwatched s) (f : DebugBlock → Bool) (cl : Option Nat) (k : WKind) (rs : List (Nat × Nat)) :
    s.homeMatches f cl k rs = [] :=
  List.filterMap_eq_nil_iff.mpr fun p hp => by simp [h p hp]

theorem agentTouch_unwatched {s : State} (h : Spec.Unwatched s) (l : Option (Nat × Nat)) (agent : Nat) (cl : Option Nat) (k : WKind)
    (rs : List (Nat × Nat)) : s.agentTouch l agent cl k rs = s := by
  unfold State.agentTouch
  rw [homeMatches_unwatched h]
  cases rs with
  | nil => rfl
  | cons p t => exact tell_plain (observing_none h) ..

theorem agentAccess_unwatched {s : State} (h : Spec.Unwatched s) (l : Option (Nat × Nat)) (agent : Nat) (cl : Option Nat) (k : WKind)
    (key n : Nat) : s.agentAccess l agent cl k key n = s := agentTouch_unwatched h ..

theorem xlateUnit_reached (s : State) (die : Nat) (ctx sptb a : Word) (k : AKind) : Reached s (s.xlateUnit die ctx sptb a k).2 := by
  have h : Reached s (({ s with blocked := none } : State).xlate die ctx sptb a k).2 :=
    Reached.trans ⟨_, _, _, _, _, _, _, _, _, _, rfl⟩ (xlate_reached ..)
  unfold State.xlateUnit
  dsimp only
  split
  · exact .refl s
  · exact h.trans ⟨_, _, _, _, _, _, _, _, _, _, rfl⟩

/-- Reaching a command's global byte changes nothing else. -/
theorem engineReach_reached {s t : State} {cl : Nat} {c : Cmd} {a : Word} {k : AKind} {g : Nat} (h : s.engineReach cl c a k = (.ok g, t)) :
    Reached s t := by
  unfold State.engineReach at h
  split at h
  · cases h
  have hx := xlateUnit_reached s (clusterDie cl) c.ctx c.sptb a k
  split at h
  · cases h
  · cases h
  · cases h
  next pa u e =>
    rw [e] at hx
    dsimp only at h
    split at h
    · cases h
    split at h
    · split at h
      · cases h
      · cases h
        exact (hx.trans ⟨_, _, _, _, _, _, _, _, _, _, rfl⟩).trans (touchAt_reached ..)
    · cases h
    · cases h

/-! ### One access of a started command (R185, R186, R188) -/

/-- Bytes have been written, at a release with their lines taken. -/
def Wrote (t v : State) (dst : Nat) (bs : List Byte) : Prop :=
  ∃ dl, v = { t with mem := Memory.setList t.mem dst bs, hub := { t.hub with dirty := dl } }

theorem engineWrite_wrote (t : State) (cl : Nat) (c : Cmd) (dst : Nat) (bs : List Byte) : Wrote t (t.engineWrite cl c false dst bs) dst bs := by
  rw [State.engineWrite, if_neg (by simp)]
  dsimp only
  split
  · exact ⟨_, rfl⟩
  · exact ⟨t.hub.dirty, rfl⟩

theorem movePiece_moves {s t : State} {cl : Nat} {c : Cmd} {toLocal : Bool} {a : Word} {key off n src dst : Nat}
    (hnet : ∀ p ∈ s.net, p.token ≠ c.token) (hreach : s.engineReach cl c a (if toLocal then .read else .write) = (.ok key, t))
    (ht : Spec.Unwatched t) (hsrc : src = if toLocal then key else scratchKey cl off) (hdst : dst = if toLocal then scratchKey cl off else key)
    (hp : ∀ j, j < n → t.poisoned (src + j) = false) :
    ∃ v, s.movePiece cl c false toLocal a off n = (.moved, v) ∧ Wrote t v dst (Memory.getList t.mem src n) := by
  have hbehind : s.streamBehind c.owner none c.token = false :=
    List.any_eq_false.mpr fun p hp => by simp [Posted.of, hnet p hp]
  have hfine : t.firstPoison src n = none := List.find?_eq_none.mpr fun j hj => by simp [hp j (List.mem_range.mp hj)]
  have hwrote := engineWrite_wrote t cl c dst (Memory.getList t.mem src n)
  have hv : Spec.Unwatched (t.engineWrite cl c false dst (Memory.getList t.mem src n)) := by
    obtain ⟨dl, he⟩ := hwrote
    rw [he]
    exact ht
  refine ⟨_, ?_, hwrote⟩
  rw [State.movePiece, hbehind, Bool.and_false, if_neg (by decide), hreach]
  cases toLocal
  all_goals
    obtain rfl := hsrc
    obtain rfl := hdst
    simp only [Bool.false_eq_true, if_false, if_true] at hfine hv ⊢
    simp only [hfine, Bool.false_and, Bool.false_eq_true, if_false, agentAccess_unwatched hv]

theorem endEngine_pool (v : State) (cl : Nat) (c : Cmd) (code : Nat) (a : Word) :
    ((v.endEngine cl c code a).cluster cl).pool = (v.cluster cl).pool.filter (fun x => !x.is c.token) := by
  have hdrop : ((v.dropCmd cl c).cluster cl).pool = (v.cluster cl).pool.filter (fun x => !x.is c.token) :=
    congrArg Cluster.pool (State.cluster_setCluster v cl _)
  rw [State.endEngine, State.cluster_setCluster, ← hdrop]
  split <;> rfl

/-- The status of a command that ends is kept first, while the command is among the last 256 of its engine. -/
theorem endEngine_log (v : State) (cl : Nat) (c : Cmd) (code : Nat) (a : Word) (hc : c.engine = .copy ∨ c.engine = .gather)
    (hseq : (if c.engine = .gather then (v.cluster cl).gatherSeq else (v.cluster cl).copySeq) < c.token.toNat % 2 ^ 55 + 256) :
    ∃ x, (if c.engine = .gather then ((v.endEngine cl c code a).cluster cl).gatherLog else ((v.endEngine cl c code a).cluster cl).copyLog).head? = some x ∧
      x.token = c.token ∧ x.ctx = c.ctx ∧ x.code = code := by
  have hcluster : (v.dropCmd cl c).cluster cl = { v.cluster cl with pool := (v.cluster cl).pool.filter (fun x => !x.is c.token) } :=
    State.cluster_setCluster v cl _
  have hhead : ∀ (log : List CmdStatus) (seq : Nat) (x : CmdStatus), seq < x.token.toNat % 2 ^ 55 + 256 → (keepStatus log seq x).head? = some x := by
    intro log seq x h
    rw [keepStatus, List.filter_cons, if_pos (decide_eq_true h)]
    rfl
  refine ⟨{ token := c.token, ctx := c.ctx, code := code, addr := a, hidden := v.ctxStopped c.ctx }, ?_, rfl, rfl, rfl⟩
  rcases hc with hc | hc
  all_goals
    rw [State.endEngine, State.cluster_setCluster, hcluster]
    simp only [hc, reduceCtorEq, if_false, if_true] at hseq ⊢
    exact hhead _ _ _ hseq

/-- An access of a command that runs: the next state is the access's, with the command put back or, after its last byte, ended. -/
theorem exec_nextAccess {s v : State} {cl n total : Nat} {c c' : Cmd} {e : Instr} (hs : Spec.Unwatched s) (hf : s.findCmd cl c.token = some c)
    (hc : c.engine = .copy ∨ c.engine = .gather) (hstarted : c.started = true) (hpage : c.page = none) (htotal : c.total = total) (hmore : c.step < total)
    (hacc : s.engineAccess cl false c = (.moved, c', v)) (hstep : c'.step = c.step + n) (htotal' : c'.total = total)
    (he : Spec.nextAccess cl c n total e) :
    exec e s = .next (if total ≤ c.step + n then v.engineDone cl c' else v.putCmd cl c') := by
  have hgo : ∀ fuel, s.engineGo cl false c.token fuel = s.engineRun cl false (fuel c) c := by
    intro fuel
    have hkind : (c.engine == .copy || c.engine == .gather) = true := by rcases hc with hc | hc <;> simp [hc]
    simp [State.engineGo, hf, hkind, hstarted, hpage]
  have hrun : ∀ k, s.engineRun cl false (k + 1) c = if total ≤ c.step + n then v.engineDone cl c' else v.engineRun cl false k c' := by
    intro k
    rw [State.engineRun, if_neg (by omega), hacc]
    simp only [htotal', hstep, ge_iff_le]
  rcases he with rfl | ⟨hlast, rfl⟩
  · refine congrArg Host.Outcome.next ((orHeld_plain (observing_none hs) _).trans ((hgo _).trans (hrun 0)))
  · refine congrArg Host.Outcome.next ((orHeld_plain (observing_none hs) _).trans ((hgo _).trans ((hrun _).trans ?_)))
    rw [if_pos (by omega), if_pos (by omega)]

/-- What an access that moved its bytes leaves of memory, of the pool and of the statuses. -/
theorem moves_of_access {s t v : State} {cl n total src dst : Nat} {c c' : Cmd} {k : Engine} {block : List Word} {e : Instr}
    (hk : k = .copy ∨ k = .gather) (hs : Spec.Unwatched s) (hr : Spec.Running s cl c k total) (ht : Reached s t) (htotal : c.total = total)
    (hacc : s.engineAccess cl false c = (.moved, c', v)) (hc' : c' = { c with block := block, step := c.step + n, paged := [], remote := none })
    (htotal' : c'.total = total) (hw : Wrote t v dst (Memory.getList t.mem src n)) (he : Spec.nextAccess cl c n total e) :
    Spec.Moves e s t cl c block src dst n total := by
  obtain ⟨hf, rfl, hstarted, hpage, hmore, hnet, hseq⟩ := hr
  obtain ⟨dl, hw⟩ := hw
  have hcluster : v.cluster cl = s.cluster cl := by rw [hw]; exact congrArg (fun x => look Cluster.blank x cl) ht.clusters
  have hvnet : v.net = s.net := by rw [hw]; exact ht.net
  have hvmem : v.mem = Memory.setList t.mem dst (Memory.getList t.mem src n) := by rw [hw]
  have htcluster : t.cluster cl = s.cluster cl := congrArg (fun x => look Cluster.blank x cl) ht.clusters
  have htoken : c'.token = c.token := hc' ▸ rfl
  have hexec := exec_nextAccess hs hf hk hstarted hpage htotal hmore hacc (hc' ▸ rfl) htotal' he
  have hkind' : c'.engine = c.engine := hc' ▸ rfl
  have hdone : v.engineDone cl c' = v.endEngine cl c' stDone 0 := by
    have hno : v.releasing c' = false := by
      rw [State.releasing, hvnet, List.any_eq_false.mpr fun p hp => by simp [htoken, hnet p hp], Bool.and_false]
    rw [State.engineDone, hno]
    rfl
  refine ⟨_, hexec, ?mem, fun hlt => ?more, fun heq => ⟨?pool, ?log⟩⟩
  case mem =>
    split
    · rw [hdone]; exact hvmem
    · exact hvmem
  case more =>
    rw [if_neg (by omega), ← hc']
    have hfind : v.findCmd cl c.token = some c := by rw [State.findCmd, hcluster]; exact hf
    refine findCmd_putCmd hfind ?_ htoken
    rw [Cmd.is, hkind', htoken]
    rcases hk with hk | hk <;> simp [hk]
  case pool =>
    rw [if_pos (by omega), hdone, endEngine_pool, hcluster, htcluster, htoken]
  case log =>
    have hend : (if total ≤ c.step + n then v.engineDone cl c' else v.putCmd cl c') = v.endEngine cl c' stDone 0 := by
      rw [if_pos (by omega), hdone]
    obtain ⟨x, hx, h1, h2, h3⟩ := endEngine_log v cl c' stDone 0 (hkind' ▸ hk) (by rw [hkind', hcluster, htoken]; exact hseq)
    rw [hkind'] at hx
    rw [hend]
    exact ⟨x, hx, h1.trans htoken, h2.trans (hc' ▸ rfl), h3⟩

/-! ### Copies (R185) -/

theorem copy_total {c : Cmd} (hc : c.engine = .copy) :
    c.total = Spec.field c.block 2 32 16 * Spec.field c.block 2 48 16 * Spec.field c.block 2 0 32 := by
  simp [Cmd.total, hc, copyGeometry, blockBits_eq]

/-- A copy's access moves the piece at its next byte. -/
theorem engineAccess_copy {s v : State} {cl n off : Nat} {c : Cmd} {a : Word} (hc : c.engine = .copy)
    (ha : a = copyGlobal c.block c.base (c.step / (copyGeometry c.block).len) + BitVec.ofNat 64 (c.step % (copyGeometry c.block).len))
    (hoff : off = ((copyGeometry c.block).loff (c.step / (copyGeometry c.block).len)).toNat + c.step % (copyGeometry c.block).len)
    (hn : n = pieceLen (copyGeometry c.block).len (c.step % (copyGeometry c.block).len) a off)
    (hmove : s.movePiece cl c false (blockBits c.block 6 0 1 == 0) a off n = (.moved, v)) :
    s.engineAccess cl false c = (.moved, { c with step := c.step + n, paged := [], remote := none }, v) := by
  subst ha hoff hn
  have hcopy : (c.engine == .gather) = false := by rw [hc]; rfl
  rw [State.engineAccess]
  simp only [hcopy, Bool.false_or, Bool.not_false, if_true, Bool.false_eq_true, if_false, hmove]

/-- A gather's access that begins inside a row moves the piece at its next byte. -/
theorem engineAccess_row {s v : State} {cl n off : Nat} {c : Cmd} {a : Word} (hc : c.engine = .gather)
    (hy : c.step % (gatherGeometry c.block).len ≠ 0)
    (ha : a = c.block.getD 0 0 + c.base + BitVec.ofNat 64 (blockAt c.block 8) * c.block.getD 4 0 + BitVec.ofNat 64 (c.step % (gatherGeometry c.block).len))
    (hoff : off = ((gatherGeometry c.block).loff (c.step / (gatherGeometry c.block).len)).toNat + c.step % (gatherGeometry c.block).len)
    (hn : n = pieceLen (gatherGeometry c.block).len (c.step % (gatherGeometry c.block).len) a off)
    (hmove : s.movePiece cl c false true a off n = (.moved, v)) :
    s.engineAccess cl false c = (.moved, { c with step := c.step + n, paged := [], remote := none }, v) := by
  subst ha hoff hn
  have hgather : (c.engine == .gather) = true := by rw [hc]; rfl
  rw [State.engineAccess]
  simp only [hgather, Bool.true_or, Bool.not_true, if_true, Bool.false_eq_true, if_false,
    bne_iff_ne.mpr hy, hmove]

/-- A gather's access that begins a row reads the row's index first. -/
theorem engineAccess_index {s t v : State} {cl n off i : Nat} {c : Cmd} {a : Word} (hc : c.engine = .gather)
    (hy : c.step % (gatherGeometry c.block).len = 0)
    (hi : s.gatherIndex cl c (c.step / (gatherGeometry c.block).len) = (.ok i, t))
    (ha : a = c.block.getD 0 0 + c.base + BitVec.ofNat 64 i * c.block.getD 4 0 + BitVec.ofNat 64 (c.step % (gatherGeometry c.block).len))
    (hoff : off = ((gatherGeometry c.block).loff (c.step / (gatherGeometry c.block).len)).toNat + c.step % (gatherGeometry c.block).len)
    (hn : n = pieceLen (gatherGeometry c.block).len (c.step % (gatherGeometry c.block).len) a off)
    (hmove : t.movePiece cl { c with block := c.block.take 8 ++ [BitVec.ofNat 64 i] } false true a off n = (.moved, v)) :
    s.engineAccess cl false c =
      (.moved, { c with block := c.block.take 8 ++ [BitVec.ofNat 64 i], step := c.step + n, paged := [], remote := none }, v) := by
  subst ha hoff hn
  have hy' : (c.step % (gatherGeometry c.block).len != 0) = false := by simp [hy]
  have hgather : (c.engine == .gather) = true := by rw [hc]; rfl
  rw [State.engineAccess]
  simp only [hgather, Bool.true_or, Bool.not_true, if_true, Bool.false_eq_true, if_false,
    hy', hi, hmove]

theorem gatherIndex_reads {s t : State} {cl r g : Nat} {c : Cmd} (h : s.engineReach cl c (c.block.getD 3 0 + BitVec.ofNat 64 (4 * r)) .read = (.ok g, t))
    (ht : Spec.Unwatched t) (hp : t.poisonIn g 4 = false) : s.gatherIndex cl c r = (.ok (leNat (Memory.getList t.mem g 4)), t) := by
  rw [State.gatherIndex]
  simp only [h, hp, Bool.false_eq_true, if_false, agentAccess_unwatched ht]

/-- The local byte of an access, from the offset of its run. -/
theorem offset_toNat {z : Int} {y l : Nat} (hz : 0 ≤ z) (hl : z + (y : Int) = l) : l = z.toNat + y := by omega

theorem gather_total {c : Cmd} (hc : c.engine = .gather) : c.total = Spec.field c.block 2 32 16 * Spec.field c.block 2 0 32 := by
  simp [Cmd.total, hc, gatherGeometry, blockBits_eq]

/-- The index that a gather keeps with its block stands after the block's eight doublewords. -/
theorem field_take (b tail : List Word) (hb : 8 ≤ b.length) {k : Nat} (hk : k < 8) (lo n : Nat) :
    Spec.field (b.take 8 ++ tail) k lo n = Spec.field b k lo n := by
  have hget : (b.take 8 ++ tail).getD k 0 = b.getD k 0 := by
    rw [List.getD_append _ _ _ _ (by rw [List.length_take]; omega), List.getD_eq_getElem?_getD, List.getElem?_take_of_lt hk, ← List.getD_eq_getElem?_getD]
  rw [Spec.field, hget, Spec.field]

theorem copyCompletes : Spec.CopyCompletes := by
  refine ⟨fun s t cl l g c _ hr hl h0 hreach hs ht hp e he => ?copy,
    fun s t u cl l g gi c _ hlen hr hl h0 hs ht hu => ⟨fun hy hi hpi hreach hp e he => ?index,
    fun hy hreach hp e he => ?row⟩⟩
  case copy =>
    obtain ⟨_, hc, _, _, _, hnet, _⟩ := id hr
    rw [copyByte_eq] at hl h0 hreach hp he ⊢
    simp only [Nat.cast_zero, add_zero] at hl h0
    obtain ⟨v, hmove, hw⟩ := movePiece_moves hnet hreach ht rfl rfl hp
    have hacc := engineAccess_copy hc rfl (offset_toNat h0 hl) rfl hmove
    exact moves_of_access (.inl rfl) hs hr (engineReach_reached hreach) (copy_total hc) hacc rfl (copy_total hc) hw he
  case index =>
    obtain ⟨_, hc, _, _, _, hnet, _⟩ := id hr
    have hti := engineReach_reached hi
    have hnet' : ∀ p ∈ t.net, p.token ≠ c.token := by rw [hti.net]; exact hnet
    have htotal := gather_total hc
    obtain ⟨v, hmove, hw⟩ := movePiece_moves (toLocal := true) hnet' hreach hu rfl rfl hp
    simp only [Nat.cast_zero, add_zero, ← sintN_field] at hl h0
    have hacc := engineAccess_index hc hy (gatherIndex_reads hi ht hpi) rfl (offset_toNat h0 hl) rfl hmove
    refine moves_of_access (.inr rfl) hs hr (hti.trans (engineReach_reached hreach)) htotal hacc rfl ?_ hw he
    rw [gather_total (by exact hc), field_take _ _ hlen (by decide), field_take _ _ hlen (by decide)]
  case row =>
    obtain ⟨_, hc, _, _, _, hnet, _⟩ := id hr
    obtain ⟨v, hmove, hw⟩ := movePiece_moves (toLocal := true) hnet hreach hu rfl rfl hp
    simp only [Nat.cast_zero, add_zero, ← sintN_field] at hl h0
    have hacc := engineAccess_row hc hy rfl (offset_toNat h0 hl) rfl hmove
    exact moves_of_access (.inr rfl) hs hr (engineReach_reached hreach) (gather_total hc) hacc rfl (gather_total hc) hw he

end Sys2Proof.Machine

namespace Sys2Proof

/-- Settles O29: a started command's access is its next piece, moved between states that agree on all but what translation leaves. -/
theorem engineTransfers : Obligations.EngineTransfers := ⟨Machine.rangeChecker, Machine.copyCompletes⟩

end Sys2Proof
end

section
/-!
SUPPORT. Bank commands and BKRED (R191, R194, R195): the checks of a command, what accepting one leaves, and the sums that BKRED delivers.
-/

namespace Sys2Proof.Machine

/-! ### The checks of a bank command (R191) -/

/-- What the start addresses of a bank command are multiples of. -/
def BankAsk.align (k : BankAsk) : Nat := if k.fn == 3 then 16 else if k.fn == 4 then 4 else fmtWidth k.fmt / 8

/-- A local offset that a bank command touches. -/
def BankAsk.Touches (k : BankAsk) (o : Int) : Prop := Spec.inBank k.d k.bytes o ∨ (k.hasSource = true ∧ Spec.inBank k.a k.bytes o)

/-- The lowest byte of a bank command that its hart may not touch. -/
def BankAsk.bad (k : BankAsk) (h : Hart) : Option Int :=
  lower (badLocal h.local_ (localInt k.d) k.bytes) (if k.hasSource then badLocal h.local_ (localInt k.a) k.bytes else none)

theorem inBank_iff (a : Word) (n : Nat) (o : Int) : Spec.inBank a n o ↔ localInt a ≤ o ∧ o < localInt a + n := by
  have hbase : (Config.localBase : Int) = 0x00FFFF0000000000 := rfl
  rw [Spec.inBank, localInt, hbase]
  omega

theorem BankAsk.bad_isLowest (k : BankAsk) (h : Hart) : IsLowest (fun o => k.Touches o ∧ ¬ Spec.Granted h o) (k.bad h) := by
  have hd := badLocal_isLowest h.local_ (localInt k.d) k.bytes
  unfold BankAsk.bad
  cases hs : k.hasSource with
  | false =>
    refine (hd.lower (isLowest_none fun _ => not_false)).congr fun o => ?_
    simp only [BankAsk.Touches, hs, inBank_iff, Bool.false_eq_true, false_and, or_false]
    exact Iff.rfl
  | true =>
    refine (hd.lower (badLocal_isLowest h.local_ (localInt k.a) k.bytes)).congr fun o => ?_
    simp only [BankAsk.Touches, hs, inBank_iff, true_and, ← or_and_right]
    exact Iff.rfl

section
variable {k : BankAsk} {s : State}

theorem bankAccept_misaligned (h : k.d.toNat % k.align ≠ 0) : bankAccept k s = .trap { cause := 4, tval := k.d } s :=
  if_pos (bne_iff_ne.mpr h)

theorem bankAccept_misalignedSource (hd : k.d.toNat % k.align = 0) (hs : k.hasSource = true) (ha : k.a.toNat % k.align ≠ 0) :
    bankAccept k s = .trap { cause := 4, tval := k.a } s :=
  (if_neg (Bool.eq_false_iff.mp (bne_eq_false_iff_eq.mpr hd))).trans (if_pos (by rw [hs, Bool.true_and]; exact bne_iff_ne.mpr ha))

/-- The ranges of a bank command, its source's first. -/
def BankAsk.ranges (k : BankAsk) (own : Word) : List (Nat × Nat) := if k.bytes == 0 then [] else [((localInt own).toNat, (localInt own).toNat + k.bytes)]

/-- The streams whose accesses a bank command follows. -/
def BankAsk.after (k : BankAsk) (s : State) : Stream → Bool :=
  bankAfter s.cur.stores (clusterOf s.cur.place) ((if k.hasSource then k.ranges k.a else []) ++ k.ranges k.d)

/-- The bank command that is accepted. -/
def BankAsk.command (k : BankAsk) (s : State) : Cmd :=
  { engine := .bank, token := bankToken ((s.cluster (clusterOf s.cur.place)).bankSeq + 1), owner := (s.drain (k.after s)).cur.place,
    ctx := (s.drain (k.after s)).cur.sctx, sptb := (s.drain (k.after s)).cur.sptb,
    block := [BitVec.ofNat 64 k.fn, BitVec.ofNat 64 k.fmt, BitVec.ofNat 64 k.count, k.d, k.a, BitVec.ofNat 64 k.bytes],
    base := 0, scope := 0, rel := false, after := [], nmus := [], reads := if k.hasSource then k.ranges k.a else [], writes := k.ranges k.d,
    started := false, step := 0, page := none, paged := [], remote := none }

/-- The state after a bank command is accepted. -/
def State.bankQueued (s : State) (k : BankAsk) : State :=
  let c := s.cluster (clusterOf s.cur.place)
  (s.drain (k.after s)).setCluster (clusterOf s.cur.place) { c with pool := c.pool ++ [k.command s], bankSeq := c.bankSeq + 1 }

/-- The end of a bank command whose addresses are aligned. -/
theorem bankAccept_aligned (hd : k.d.toNat % k.align = 0) (ha : k.hasSource = true → k.a.toNat % k.align = 0) :
    bankAccept k s = match k.bad s.cur with
      | some off => .trap { cause := 6, tval := localAddr off } s
      | none => if (s.cluster (clusterOf s.cur.place)).held .bank ≥ 112 then waitPool s else .done (s.bankQueued k) := by
  have hsource : (k.hasSource && k.a.toNat % k.align != 0) = false := by simpa using ha
  exact (if_neg (Bool.eq_false_iff.mp (bne_eq_false_iff_eq.mpr hd))).trans (if_neg (Bool.eq_false_iff.mp hsource))

theorem drain_cluster (s : State) (sel : Stream → Bool) (c : Nat) : (s.drain sel).cluster c = s.cluster c :=
  congrArg (fun x => look Cluster.blank x c) (noteDrain_reached s 4 sel).clusters

/-- A queued store to a byte that a bank command touches is performed before it. -/
theorem BankAsk.after_of_touches {p : PStore} (hp : p ∈ s.cur.stores) {off : Nat} (hkey : scratchKey (clusterOf s.cur.place) off ∈ p.act.keys)
    (ht : k.Touches off) : k.after s p.stream = true := by
  have hrange : ∀ own, Spec.inBank own k.bytes off → ∃ r ∈ k.ranges own, r.1 ≤ off ∧ off < r.2 := by
    intro own h
    obtain ⟨h1, h2⟩ := (inBank_iff ..).mp h
    have hne : ¬ (k.bytes == 0) = true := by simp; omega
    rw [BankAsk.ranges, if_neg hne]
    exact ⟨_, List.mem_singleton_self _, by dsimp only; omega, by dsimp only; omega⟩
  obtain ⟨r, hr, h1, h2⟩ : ∃ r ∈ (if k.hasSource then k.ranges k.a else []) ++ k.ranges k.d, r.1 ≤ off ∧ off < r.2 := by
    rcases ht with h | ⟨hs, h⟩
    · obtain ⟨r, hr, hoff⟩ := hrange _ h
      exact ⟨r, List.mem_append_right _ hr, hoff⟩
    · obtain ⟨r, hr, hoff⟩ := hrange _ h
      exact ⟨r, List.mem_append_left _ (by rw [if_pos hs]; exact hr), hoff⟩
  have hin : (scratchKey (clusterOf s.cur.place) r.1 ≤ scratchKey (clusterOf s.cur.place) off) ∧
      scratchKey (clusterOf s.cur.place) off < scratchKey (clusterOf s.cur.place) r.2 := by
    unfold scratchKey
    omega
  refine Bool.or_eq_true_iff.mpr (.inr (List.any_eq_true.mpr ⟨p, hp, ?_⟩))
  rw [beq_self_eq_true, Bool.true_and]
  refine List.any_eq_true.mpr ⟨_, hkey, List.any_eq_true.mpr ⟨r, hr, ?_⟩⟩
  simpa using hin

/-- What accepting a bank command leaves. -/
theorem bankQueued_accepts : Spec.BankAccepts s (s.bankQueued k).completed k.fn k.fmt k.count k.bytes k.d k.a k.Touches := by
  have hcur := drain_cur s (k.after s)
  refine ⟨k.command s, k.after s, rfl, fun p hp key hkey off hoff ht => k.after_of_touches hp (hoff ▸ hkey) ht, rfl, rfl,
    ?pool, rfl, rfl, by rw [BankAsk.command, hcur], rfl, rfl, rfl, ?seq, fun c hc => ?others⟩
  case pool => exact congrArg Cluster.pool (State.cluster_setCluster ..)
  case seq => exact congrArg Cluster.bankSeq (State.cluster_setCluster ..)
  case others => exact (State.cluster_setCluster_other _ _ hc).trans (drain_cluster ..)

end

/-! ### The instructions of the bank stream (R191) -/

/-- What an instruction of the bank stream asks for, by its function and its operands. -/
def bankAsk (h : Hart) (fn : Nat) (d a b : Reg) : BankAsk :=
  let n := ((h.rx b).extractLsb' 0 16).toNat
  let fmt := ((h.rx b).extractLsb' 16 4).toNat
  { fn := fn, fmt := fmt, count := n, d := h.rx d, a := h.rx a, bytes := Spec.bankBytes fn fmt n }

theorem bankFormats_contains {fn : Nat} (hfn : fn < 4) (fmt : Nat) : (bankFormats fn).contains fmt = Spec.bankTakes fn fmt := by
  match fn with
  | 0 | 1 | 2 | 3 => simp only [bankFormats, Spec.bankTakes]; split <;> simp_all
  | n + 4 => omega

theorem bankTakes_width {fn fmt : Nat} (h : Spec.bankTakes fn fmt = true) : fn ≠ 4 ∧ fmtWidth fmt / 8 = if fmt = 5 then 2 else 4 := by
  unfold Spec.bankTakes at h
  split at h
  all_goals simp_all [fmtWidth]

theorem bankBytes_eq {fn fmt : Nat} (h : Spec.bankTakes fn fmt = true) (n : Nat) : bankBytes fn fmt n = Spec.bankBytes fn fmt n := by
  obtain ⟨-, hwidth⟩ := bankTakes_width h
  simp only [bankBytes, Spec.bankBytes, hwidth, beq_iff_eq, Nat.mul_comm n, ite_mul]

theorem align_bankAsk {h : Hart} {fn : Nat} {d a b : Reg} (ht : Spec.bankTakes fn (bankAsk h fn d a b).fmt = true) :
    (bankAsk h fn d a b).align = Spec.bankAlign fn (bankAsk h fn d a b).fmt := by
  obtain ⟨h4, hwidth⟩ := bankTakes_width ht
  simp only [BankAsk.align, Spec.bankAlign, hwidth, beq_iff_eq, show (bankAsk h fn d a b).fn = fn from rfl, h4, if_false]

theorem hasSource_bankAsk {h : Hart} {fn : Nat} (hfn : fn < 4) (d a b : Reg) : (bankAsk h fn d a b).hasSource = true ↔ fn ≠ 2 := by
  match fn with
  | 0 | 1 | 2 | 3 => simp [bankAsk, BankAsk.hasSource]
  | n + 4 => omega

/-- Check 1 of a bank command, and two ranges that overlap without being one. -/
def BankFits (h : Hart) (fn : Nat) (d a b : Reg) : Prop :=
  let k := bankAsk h fn d a b
  (h.rx b).toNat / 2 ^ 20 = 0 ∧ Spec.bankTakes fn k.fmt = true ∧
    ¬ (fn ≠ 2 ∧ k.d ≠ k.a ∧ k.d.toNat < k.a.toNat + k.bytes ∧ k.a.toNat < k.d.toNat + k.bytes)

/-- A bank command by its control word, by whether its format is one of its function's, and by what it asks for. -/
def bankChecked (x : Nat) (named : Bool) (k : BankAsk) (s : State) : Flow :=
  if x / 2 ^ 20 != 0 || !named || (k.hasSource && k.d != k.a && k.d.toNat < k.a.toNat + k.bytes && k.a.toNat < k.d.toNat + k.bytes)
  then illegal s else bankAccept k s

theorem bankBody_eq {fn : Nat} (hfn : fn < 4) {d a b : Reg} {s : State} (ht : Spec.bankTakes fn (bankAsk s.cur fn d a b).fmt = true) :
    bankBody fn d a b s = bankChecked (s.cur.rx b).toNat true (bankAsk s.cur fn d a b) s := by
  have hn : (bankAsk s.cur fn d a b).count = (s.cur.rx b).toNat % 2 ^ 16 := by simp [bankAsk, BitVec.extractLsb'_toNat]
  have hfmt : (bankAsk s.cur fn d a b).fmt = (s.cur.rx b).toNat / 2 ^ 16 % 16 := by
    simp [bankAsk, BitVec.extractLsb'_toNat, Nat.shiftRight_eq_div_pow]
  have hk : BankAsk.mk fn ((s.cur.rx b).toNat / 2 ^ 16 % 16) ((s.cur.rx b).toNat % 2 ^ 16) (s.cur.rx d) (s.cur.rx a)
      (bankBytes fn ((s.cur.rx b).toNat / 2 ^ 16 % 16) ((s.cur.rx b).toNat % 2 ^ 16)) = bankAsk s.cur fn d a b := by
    rw [← hn, ← hfmt, bankBytes_eq ht]
    rfl
  change bankChecked (s.cur.rx b).toNat ((bankFormats fn).contains ((s.cur.rx b).toNat / 2 ^ 16 % 16)) (BankAsk.mk ..) s = _
  rw [hk, ← hfmt, bankFormats_contains hfn, ht]

theorem bankClash_iff {h : Hart} {fn : Nat} (hfn : fn < 4) {d a b : Reg} :
    (let k := bankAsk h fn d a b
     ((h.rx b).toNat / 2 ^ 20 != 0 || !true ||
      (k.hasSource && k.d != k.a && decide (k.d.toNat < k.a.toNat + k.bytes) && decide (k.a.toNat < k.d.toNat + k.bytes))) = false ↔
      (h.rx b).toNat / 2 ^ 20 = 0 ∧ ¬ (fn ≠ 2 ∧ k.d ≠ k.a ∧ k.d.toNat < k.a.toNat + k.bytes ∧ k.a.toNat < k.d.toNat + k.bytes)) := by
  intro k
  rw [Bool.not_true, Bool.or_false, Bool.or_eq_false_iff, bne_eq_false_iff_eq, ← Bool.not_eq_true (_ && _)]
  simp only [Bool.and_eq_true, bne_iff_ne, decide_eq_true_eq, and_assoc, k, hasSource_bankAsk hfn]

theorem bankBody_refused {fn : Nat} (hfn : fn < 4) {d a b : Reg} {s : State} (h : ¬ BankFits s.cur fn d a b) : bankBody fn d a b s = illegal s := by
  cases ht : Spec.bankTakes fn (bankAsk s.cur fn d a b).fmt with
  | false =>
    have hfmt : (bankAsk s.cur fn d a b).fmt = (s.cur.rx b).toNat / 2 ^ 16 % 16 := by
      simp [bankAsk, BitVec.extractLsb'_toNat, Nat.shiftRight_eq_div_pow]
    have hformats : (bankFormats fn).contains ((s.cur.rx b).toNat / 2 ^ 16 % 16) = false := by rw [bankFormats_contains hfn, ← hfmt, ht]
    exact if_pos (by rw [hformats]; simp)
  | true =>
    rw [bankBody_eq hfn ht]
    refine if_pos (Bool.of_not_eq_false fun e => h ?_)
    obtain ⟨hx, hmeet⟩ := (bankClash_iff hfn).mp e
    exact ⟨hx, ht, hmeet⟩

theorem bankBody_fits {fn : Nat} (hfn : fn < 4) {d a b : Reg} {s : State} (h : BankFits s.cur fn d a b) :
    bankBody fn d a b s = bankAccept (bankAsk s.cur fn d a b) s := by
  obtain ⟨hx, ht, hmeet⟩ := h
  rw [bankBody_eq hfn ht]
  exact if_neg (Bool.eq_false_iff.mp ((bankClash_iff hfn).mpr ⟨hx, hmeet⟩))

/-- An instruction of the bank stream traps, waits or is accepted as its checks say. -/
theorem bank_acts {i : Instr} {fn : Nat} {d a b : Reg} {s : State} (hfn : fn < 4) (he : exec i s = perform (encode i) s (bankBody fn d a b))
    (hw : wMajor (encode i) = 0x36#6) (h : PlainHart s) (hfit : BankFits s.cur fn d a b) :
    exec i s = .next (s.start.finish (encode i) (bankAccept (bankAsk s.cur fn d a b) s.start)) := by
  rw [he, perform_hart 0x36#6 h hw (by decide), bankBody_fits hfn (s := s.start) hfit]
  rfl

theorem bankCommand_spec {fn : Nat} {i : Instr} {d a b : Reg} {s : State} (hfn : fn < 4) (he : exec i s = perform (encode i) s (bankBody fn d a b))
    (hw : wMajor (encode i) = 0x36#6) (h : PlainHart s) (hdrain : ∀ sel, (s.start.drain sel).blocked = none) :
    let k := bankAsk s.cur fn d a b
    let two := fn ≠ 2
    let al := Spec.bankAlign fn k.fmt
    (¬ BankFits s.cur fn d a b → exec i s = .next (s.start.trapWord (encode i) { cause := 1, tval := 0 } s.start)) ∧
    (BankFits s.cur fn d a b →
      (k.d.toNat % al ≠ 0 → exec i s = .next (s.start.trapWord (encode i) { cause := 4, tval := k.d } s.start)) ∧
      (k.d.toNat % al = 0 → two → k.a.toNat % al ≠ 0 → exec i s = .next (s.start.trapWord (encode i) { cause := 4, tval := k.a } s.start)) ∧
      (k.d.toNat % al = 0 → (two → k.a.toNat % al = 0) → (∀ o, k.Touches o → Spec.Granted s.cur o) →
        (s.cluster (clusterOf s.cur.place)).held .bank < 112 →
        ∃ t, exec i s = .next t ∧ Spec.BankAccepts s.start t fn k.fmt k.count k.bytes k.d k.a k.Touches) ∧
      (k.d.toNat % al = 0 → (two → k.a.toNat % al = 0) → ∀ off, k.Touches off → ¬ Spec.Granted s.cur off →
        (∀ o, k.Touches o → o < off → Spec.Granted s.cur o) →
        exec i s = .next (s.start.trapWord (encode i) { cause := 6, tval := localAddr off } s.start))) := by
  intro k two al
  refine ⟨fun hbad => ?refused, fun hfit => ?fits⟩
  case refused =>
    rw [he]
    exact perform_hart_trap 0x36#6 h hw (by decide) (bankBody_refused hfn (s := s.start) hbad) rfl
  case fits =>
    have hal : k.align = al := align_bankAsk hfit.2.1
    have htwo : k.hasSource = true ↔ two := hasSource_bankAsk hfn d a b
    have hacts := bank_acts hfn he hw h hfit
    rw [← hal]
    refine ⟨fun hd => ?_, fun hd h2 ha => ?_, fun hd ha hin hroom => ?_, fun hd ha off ht hout hlow => ?_⟩
    · rw [hacts, bankAccept_misaligned hd, finish_trap _ _ _ rfl]
    · rw [hacts, bankAccept_misalignedSource hd (htwo.mpr h2) ha, finish_trap _ _ _ rfl]
    · have hnone : k.bad s.start.cur = none := (k.bad_isLowest s.cur).none_of fun o ho => ho.2 (hin o ho.1)
      have hroom' : ¬ (s.start.cluster (clusterOf s.start.cur.place)).held .bank ≥ 112 := Nat.not_le.mpr hroom
      have hdone : bankAccept k s.start = .done (s.start.bankQueued k) := by
        rw [bankAccept_aligned hd fun e => ha (htwo.mp e), hnone]
        exact if_neg hroom'
      refine ⟨_, hacts.trans (congrArg Host.Outcome.next ?_), bankQueued_accepts (k := k) (s := s.start)⟩
      rw [hdone]
      exact finish_done _ _ (hdrain _) ((drain_strikes ..).trans h.strikes)
    · have hsome : k.bad s.start.cur = some off := (k.bad_isLowest s.cur).some_of ⟨ht, hout⟩ fun o ho => not_lt.mp fun hlt => ho.2 (hlow o ho.1 hlt)
      rw [hacts, bankAccept_aligned hd fun e => ha (htwo.mp e), hsome]
      exact congrArg _ (finish_trap _ _ _ rfl)

theorem granted_of_bankRange {h : Hart} {a : Word} {n : Nat} (hr : Spec.bankRange h a n) {o : Int} (ho : Spec.inBank a n o) : Spec.Granted h o := by
  obtain ⟨h1, h2⟩ := ho
  have := hr (o - ((a.toNat : Int) - 0x00FFFF0000000000)).toNat (by omega)
  rwa [Int.toNat_of_nonneg (by omega), add_sub_cancel] at this

theorem touches_bankAsk {h : Hart} {fn : Nat} (hfn : fn < 4) (d a b : Reg) : (bankAsk h fn d a b).Touches =
    fun o => Spec.inBank (h.rx d) (bankAsk h fn d a b).bytes o ∨ (fn ≠ 2 ∧ Spec.inBank (h.rx a) (bankAsk h fn d a b).bytes o) := by
  funext o
  rw [BankAsk.Touches, hasSource_bankAsk hfn]
  rfl

/-- The command of BKZERO. -/
def zeroAsk (h : Hart) (a b : Reg) : BankAsk := { fn := 4, fmt := 2, count := (h.rx b).toNat / 4, d := h.rx a, a := 0, bytes := (h.rx b).toNat }

theorem bkzero_spec {a b : Reg} {s : State} (h : PlainHart s) (hdrain : ∀ sel, (s.start.drain sel).blocked = none) :
    let n := (s.cur.rx b).toNat
    let da := s.cur.rx a
    let i := Instr.bkzero a b
    (n % 4 ≠ 0 → exec i s = .next (s.start.trapWord (encode i) { cause := 1, tval := 0 } s.start)) ∧
    (n % 4 = 0 → da.toNat % 4 = 0 → Spec.bankRange s.cur da n → (s.cluster (clusterOf s.cur.place)).held .bank < 112 →
      ∃ t, exec i s = .next t ∧ Spec.BankAccepts s.start t 4 2 (n / 4) n da 0 (Spec.inBank da n)) := by
  intro n da i
  have hw : wMajor (bkzeroWord a b) = 0x36#6 := wMajor_xWord ..
  refine ⟨fun hn => perform_hart_trap (body := bkzeroBody a b) 0x36#6 h hw (by decide) (if_pos (bne_iff_ne.mpr hn)) rfl, fun hn hd hr hroom => ?_⟩
  have htouch : (zeroAsk s.cur a b).Touches = Spec.inBank da n := funext fun o => propext (by simp [BankAsk.Touches, BankAsk.hasSource, zeroAsk, n, da])
  have hnone : (zeroAsk s.cur a b).bad s.start.cur = none :=
    ((zeroAsk s.cur a b).bad_isLowest s.cur).none_of fun o ho => ho.2 (granted_of_bankRange hr (htouch ▸ ho.1))
  have hdone : bkzeroBody a b s.start = .done (s.start.bankQueued (zeroAsk s.cur a b)) := by
    refine (if_neg (by simpa using hn)).trans ((bankAccept_aligned (k := zeroAsk s.cur a b) hd nofun).trans ?_)
    rw [hnone]
    exact if_neg (Nat.not_le.mpr hroom)
  refine ⟨_, perform_hart_done 0x36#6 h hw (by decide) hdone (hdrain _) ((drain_strikes ..).trans h.strikes), ?_⟩
  rw [← htouch]
  exact bankQueued_accepts (k := zeroAsk s.cur a b) (s := s.start)

theorem bankCommands : Spec.BankCommands := by
  refine ⟨fun d a b s h hdrain p hp => ?_, fun a b s h hdrain => bkzero_spec h hdrain⟩
  obtain ⟨hfn, he, hw⟩ : p.1 < 4 ∧ (exec p.2 s = perform (encode p.2) s (bankBody p.1 d a b)) ∧ wMajor (encode p.2) = 0x36#6 := by
    simp only [List.mem_cons, List.not_mem_nil, or_false] at hp
    rcases hp with rfl | rfl | rfl | rfl
    all_goals exact ⟨by dsimp only; decide, rfl, wMajor_xWord ..⟩
  obtain ⟨hrefused, hfits⟩ := bankCommand_spec hfn he hw h hdrain
  rw [touches_bankAsk hfn] at hfits
  refine ⟨fun hbad => hrefused fun ⟨hx, ht, hmeet⟩ => ?_, fun hx ht hmeet => ?_⟩
  · rcases hbad with hbad | hbad | hbad
    · exact hbad hx
    · exact Bool.false_ne_true (hbad.symm.trans ht)
    · exact hmeet hbad
  · obtain ⟨hmis, hmis', haccepts, hout⟩ := hfits ⟨hx, ht, hmeet⟩
    refine ⟨hmis, hmis', fun hd ha hr hr' hroom => haccepts hd ha (fun o ho => ?_) hroom, hout⟩
    rcases ho with ho | ⟨h2, ho⟩
    · exact granted_of_bankRange hr ho
    · exact granted_of_bankRange (hr' h2) ho

/-! ### BKRED (R194) -/

theorem watched_unwatched {s : State} (h : Spec.Unwatched s) (ctx : Word) (k : WKind) (a : Word) (n : Nat) (lane : Option Nat) :
    s.watched ctx k a n lane = none := by
  have hown : s.ownMatch ctx k a n = none := by
    have hblock : s.blockOf ctx = none := by
      rw [State.blockOf]
      split
      · rfl
      · next hctx =>
        refine List.find?_eq_none.mpr fun p hp e => hctx ?_
        rw [← beq_iff_eq.mp e, h p hp]
        rfl
    rw [State.ownMatch, hblock]
  have hany : (s.hub.debug).any (fun p => p.2.ctx != 0) = false := List.any_eq_false.mpr fun p hp => by simp [h p hp]
  unfold State.watched
  simp only [hown, hany, Bool.not_false, Bool.or_true, if_true]
  exact if_neg (by rw [observing_none h]; decide)

theorem strike_unwatched {s : State} (h : Spec.Unwatched s) (k : WKind) (a : Word) (n e : Nat) : s.strike k a n e = s :=
  strike_none e (watched_unwatched h ..)

theorem foldl_fixed {α : Type} {f : State → α → State} {s : State} (l : List α) (h : ∀ x, f s x = s) : l.foldl f s = s := by
  induction l with
  | nil => rfl
  | cons x t ih => rw [List.foldl_cons, h, ih]

/-- The bank stream's turn is its queued accesses performed, and perhaps a wait. -/
theorem bankTurn_drained (s : State) : ∃ b, s.bankTurn = { s.drain (fun st => st == .bank) with blocked := b } := by
  unfold State.bankTurn
  dsimp only
  split
  · exact ⟨_, rfl⟩
  · exact ⟨_, rfl⟩

theorem bankTurn_unwatched {s : State} (h : Spec.Unwatched s) : Spec.Unwatched s.bankTurn := by
  obtain ⟨_, e⟩ := bankTurn_drained s
  obtain ⟨_, _, _, _, _, _, _, _, _, _, e'⟩ := noteDrain_reached s 4 (fun st => st == .bank)
  have hdebug : (s.noteDrain 4 (fun st => st == .bank)).hub.debug = s.hub.debug := by rw [e']
  rw [e]
  exact fun p hp => h p (hdebug ▸ hp)

theorem bankTurn_cur (s : State) : ∃ q, s.bankTurn.cur = { s.cur with stores := q } := by
  obtain ⟨_, e⟩ := bankTurn_drained s
  exact ⟨_, (congrArg State.cur e).trans (drain_cur ..)⟩

theorem bankTurn_cut (s : State) : s.bankTurn.cut = s.cut := by
  obtain ⟨_, e⟩ := bankTurn_drained s
  exact (congrArg State.cut e).trans (noteDrain_reached s 4 (fun st => st == .bank)).cut

theorem poisonIn_eq_false {s : State} {key n : Nat} (h : ∀ j, j < n → s.poisoned (key + j) = false) : s.poisonIn key n = false := by
  induction n generalizing key with
  | zero => rfl
  | succ n ih =>
    rw [State.poisonIn, show s.poisoned key = false from h 0 (Nat.succ_pos n), Bool.false_or]
    exact ih fun j hj => by rw [Nat.add_assoc, Nat.add_comm 1]; exact h (j + 1) (Nat.succ_lt_succ hj)

/-- The checks of BKRED (R194). -/
def ReduceFits (h : Hart) (d b : Reg) : Prop :=
  let c := h.vctx false
  let fmt := ((h.rx b).extractLsb' 16 4).toNat
  (h.rx b).toNat / 2 ^ 20 = 0 ∧ (fmt = 2 ∨ fmt = 4) ∧ ((h.rx b).extractLsb' 0 16).toNat ≠ 0 ∧ c.twoD = false ∧ c.fmt = fmt ∧
    groupOk d.toNat c.g = true

/-- A word of the rows that BKRED adds. -/
def reduceKey (h : Hart) (a : Reg) (r j : Nat) : Nat :=
  scratchKey (clusterOf h.place) ((localInt (h.rx a)).toNat + (r * (h.vctx false).vl + j) * 4)

/-- The sum of a column. -/
def reduceSum (h : Hart) (a b : Reg) (u : State) (j : Nat) : Nat :=
  (List.range' 1 (((h.rx b).extractLsb' 0 16).toNat - 1)).foldl
    (fun acc r => if ((h.rx b).extractLsb' 16 4).toNat = 2 then (acc + u.word32 (reduceKey h a r j)) % 2 ^ 32
      else (faddF fp32 0 acc (u.word32 (reduceKey h a r j))).1) (u.word32 (reduceKey h a 0 j))

section
variable {d a b : Reg} {s : State} (hre : s.cur.reissue = none)
include hre

theorem reduceFits_iff : ((s.cur.ox b).toNat / 2 ^ 20 != 0 || !(bankFormats 5).contains ((s.cur.ox b).toNat / 2 ^ 16 % 16) ||
    (s.cur.ox b).toNat % 2 ^ 16 == 0 || (s.cur.vctx false).twoD || (s.cur.vctx false).fmt != (s.cur.ox b).toNat / 2 ^ 16 % 16 ||
    !groupOk d.toNat (s.cur.vctx false).g) = false ↔ ReduceFits s.cur d b := by
  have hox : s.cur.ox b = s.cur.rx b := by rw [Hart.ox, hre]
  have hn : ((s.cur.rx b).extractLsb' 0 16).toNat = (s.cur.rx b).toNat % 2 ^ 16 := by simp [BitVec.extractLsb'_toNat]
  have hfmt : ((s.cur.rx b).extractLsb' 16 4).toNat = (s.cur.rx b).toNat / 2 ^ 16 % 16 := by
    simp [BitVec.extractLsb'_toNat, Nat.shiftRight_eq_div_pow]
  have hformats : ∀ f, (bankFormats 5).contains f = true ↔ f = 2 ∨ f = 4 := fun f => by simp [bankFormats]
  simp only [hox, ReduceFits, hn, hfmt, Bool.or_eq_false_iff, bne_eq_false_iff_eq, Bool.not_eq_false', hformats, beq_eq_false_iff_ne, and_assoc]

theorem bkredBody_refused (h : ¬ ReduceFits s.cur d b) : bkredBody d a b s = illegalV s :=
  if_pos (Bool.of_not_eq_false fun e => h ((reduceFits_iff hre).mp e))

/-- BKRED with its words at hand: the end of its effect once nothing stands in its way. -/
theorem bkredBody_reduces (hfit : ReduceFits s.cur d b) (hal : (s.cur.rx a).toNat % 4 = 0) (hvl : 1 ≤ (s.cur.vctx false).vl)
    (hin : badLocal s.cur.local_ (localInt (s.cur.rx a)) (((s.cur.rx b).extractLsb' 0 16).toNat * (s.cur.vctx false).vl * 4) = none)
    (hw : Spec.Unwatched s.bankTurn)
    (hp : ∀ r j, r < ((s.cur.rx b).extractLsb' 0 16).toNat → j ∈ (s.cur.vctx false).touched → s.bankTurn.poisonIn (reduceKey s.cur a r j) 4 = false) :
    bkredBody d a b s = s.bankTurn.elementwise (s.cur.vctx false) {} [{ base := d.toNat, regs := (s.cur.vctx false).g, width := 32, pick := fun r => r.val }]
      { elem := fun _ => 0 } (fun j => ERes.of (reduceSum s.cur a b s.bankTurn j)) := by
  have hox : ∀ r, s.cur.ox r = s.cur.rx r := fun r => by rw [Hart.ox, hre]
  have hn : ((s.cur.rx b).extractLsb' 0 16).toNat = (s.cur.rx b).toNat % 2 ^ 16 := by simp [BitVec.extractLsb'_toNat]
  have hfmt : ((s.cur.rx b).extractLsb' 16 4).toNat = (s.cur.rx b).toNat / 2 ^ 16 % 16 := by
    simp [BitVec.extractLsb'_toNat, Nat.shiftRight_eq_div_pow]
  have hcheck := (reduceFits_iff (d := d) (b := b) hre).mpr hfit
  rw [hn] at hin hp
  simp only [reduceKey] at hp
  have hfine : (s.cur.vctx false).touched.findSome? (fun j => ((List.range ((s.cur.rx b).toNat % 2 ^ 16)).find? (fun r => s.bankTurn.poisonIn
      (scratchKey (clusterOf s.cur.place) ((localInt (s.cur.rx a)).toNat + (r * (s.cur.vctx false).vl + j) * 4)) 4)).map (fun r => (j, r))) = none :=
    List.findSome?_eq_none_iff.mpr fun j hj => Option.map_eq_none_iff.mpr (List.find?_eq_none.mpr fun r hr => by
      rw [hp r j (List.mem_range.mp hr) hj]; decide)
  have hstrikes : ∀ (addr : Nat → Nat → Word), (s.cur.vctx false).touched.foldl (fun t j => (List.range ((s.cur.rx b).toNat % 2 ^ 16)).foldl
      (fun (t : State) r => t.strike .read (addr r j) 4 j) t) s.bankTurn = s.bankTurn := fun addr =>
    foldl_fixed _ fun j => foldl_fixed _ fun r => strike_unwatched hw ..
  unfold bkredBody
  simp only [hox] at hcheck ⊢
  rw [if_neg (Bool.eq_false_iff.mp hcheck), if_neg (by simp [hal]), if_neg (by simp; omega)]
  simp only [hin, hfine, hstrikes, Option.map_none, reduceSum, reduceKey, hn, hfmt, List.range'_eq_map_range, List.foldl_map, Nat.add_comm 1, beq_iff_eq]

end

theorem bankReduces : Spec.BankReduces := by
  intro d a b s h hre hd hart c x n fmt at_ i
  have hw : wMajor (bkredWord d a b) = 0x36#6 := wMajor_xWord ..
  refine ⟨fun hbad => ?refused, ?reduces⟩
  case refused =>
    have hfit : ¬ ReduceFits s.cur d b := by
      rintro ⟨h1, h2, h3, h4, h5, h6⟩
      rcases hbad with e | ⟨e, e'⟩ | e | e | e | e
      · exact e h1
      · exact h2.elim e e'
      · exact h3 e
      · exact Bool.false_ne_true (h4.symm.trans e)
      · exact e h5
      · exact Bool.false_ne_true (e.symm.trans h6)
    exact perform_hart_trap (body := bkredBody d a b) 0x36#6 h hw (by decide) (bkredBody_refused (s := s.start) hre hfit) rfl
  case reduces =>
    intro hx hf hn h2 hc hg hbits hal hvl hr off cl u hub hs hpoison row sum
    obtain ⟨q, hcur⟩ := bankTurn_cur s.start
    have hin : badLocal s.cur.local_ (localInt at_) (n * c.vl * 4) = none :=
      (badLocal_isLowest s.cur.local_ (localInt at_) (n * c.vl * 4)).none_of fun o ho => ho.2 (granted_of_bankRange hr ((inBank_iff ..).mpr ho.1))
    have hoff : (localInt at_).toNat = off := by simp only [localInt, off, Config.localBase]; omega
    have hfine : ∀ r j, r < n → j ∈ c.touched → u.poisonIn (reduceKey s.cur a r j) 4 = false := by
      intro r j hrn hj
      have hjv : j < c.vl := by
        obtain ⟨-, hactive⟩ := List.mem_filter.mp hj
        simp only [VCtx.active, VCtx.granted, h2, Bool.and_eq_true, Bool.false_eq_true, if_false, decide_eq_true_eq] at hactive
        omega
      refine poisonIn_eq_false fun k hk => ?_
      have hrow : r * c.vl + j < n * c.vl := by
        calc r * c.vl + j < r * c.vl + c.vl := Nat.add_lt_add_left hjv _
          _ = (r + 1) * c.vl := by ring
          _ ≤ n * c.vl := Nat.mul_le_mul_right _ hrn
      have := hpoison ((r * c.vl + j) * 4 + k) (by omega)
      rw [reduceKey, show (localInt (s.cur.rx a)).toNat = off from hoff]
      simpa only [scratchKey, Nat.add_assoc] using this
    have hfits : Dest.fits u.cur { base := d.toNat, regs := c.g, width := 32, pick := fun r => r.val } := by
      refine ⟨aligned_fits d.isLt ((vctx_g_dvd s.cur false).trans (by decide)) ((groupOk_iff_aligned s.cur false d.toNat).mp hg), Nat.zero_lt_succ 31, ?_⟩
      rw [hcur]
      exact (Nat.mul_div_cancel' (Dvd.dvd.mul_right (show 32 ∣ 256 by decide) s.cur.lanes)).symm
    obtain ⟨t, hdone, hwritten⟩ := elementwise_done (s := u) (c := c) (md := {}) (src := { elem := fun _ => 0 }) (kept := fun _ => false)
      (dests := [{ base := d.toNat, regs := c.g, width := 32, pick := fun r => r.val }]) (f := fun j => .of (reduceSum s.cur a b u j))
      (by rw [hcur]; exact hbits) rfl ((bankTurn_cut s.start).trans h.1.1.2.2) (fun _ _ => ⟨rfl, Nat.zero_and _⟩)
      (fun d' hd' => by rw [List.mem_singleton.mp hd']; exact hfits)
      (fun a' ha' b' hb' => .inl ((List.mem_singleton.mp ha').trans (List.mem_singleton.mp hb').symm)) nofun
    have hbody : bkredBody d a b s.start = .done { u with cur := t } :=
      (bkredBody_reduces (s := s.start) hre ⟨hx, hf, Nat.one_le_iff_ne_zero.mp hn, h2, hc, hg⟩ hal hvl hin (bankTurn_unwatched hs) hfine).trans hdone
    refine ⟨t, perform_hart_done 0x36#6 h hw (by decide) hbody hub ?_, ?_⟩
    · exact hwritten.strikes.trans ((congrArg Hart.strikes hcur).trans h.strikes)
    · have hsum : ∀ r j, u.word32 (reduceKey s.cur a r j) = leNat (Memory.getList u.mem (scratchKey cl (off + (r * c.vl + j) * 4)) 4) := fun r j => by
        rw [State.word32, reduceKey, show (localInt (s.cur.rx a)).toNat = off from hoff]
      simp only [reduceSum, hsum] at hwritten
      exact hwritten

end Sys2Proof.Machine
end

section
/-!
SUPPORT. Bank commands (O30): the state in which a granule of BKZERO does not leave zeros. Memory there lists a byte twice, which no step makes of a
canonical memory; the statement of R192 and R262 does not ask that memory be canonical.
-/

namespace Sys2Proof.Machine

/-- A started BKZERO of the word at the first byte of the local window. -/
def zeroWord : Cmd :=
  { engine := .bank, token := bankToken 1, owner := 0, ctx := 1, sptb := 0, block := [4, 2, 1, 0x00FFFF0000000000, 0, 4], base := 0, scope := 0, rel := false,
    after := [], nmus := [], reads := [], writes := [], started := true, step := 0, page := none, paged := [], remote := none }

/-- A state whose memory lists the first byte of the scratchpad twice. -/
def listedTwice : State :=
  { State.reset with mem := [(scratchKey 0 0, 1), (scratchKey 0 0, 2)], clusters := [(0, { Cluster.blank with pool := [zeroWord], bankSeq := 1 })] }

/-- The first word of the scratchpad after an outcome. -/
def firstWord : Host.Outcome State Fault Refusal → Nat
  | .next t => leNat (Memory.getList t.mem (scratchKey 0 0) 4)
  | _ => 0

/-- Writing zero takes the first of the two entries away and uncovers the second. -/
theorem firstWord_listedTwice : firstWord (exec (.bankCommandPerform 0 1) listedTwice) = 2 := by decide

theorem not_bankPerforms : ¬ Spec.BankPerforms := by
  intro h
  obtain ⟨t, hexec, hzero, -⟩ := h listedTwice 0 1 zeroWord 4 2 1 0x00FFFF0000000000 0 (by decide) (by decide) (by unfold Spec.Unwatched; decide) rfl
    (by decide) (by decide) (by decide) (by decide) (by decide) ⟨by decide, by decide⟩ (.inr (.inr rfl))
    (by decide) (by decide) (by decide) (by decide) (by decide)
  have hword : firstWord (exec (.bankCommandPerform 0 1) listedTwice) = 0 := by
    rw [hexec]
    exact hzero 0 (by decide)
  exact absurd hword (by rw [firstWord_listedTwice]; decide)

end Sys2Proof.Machine

namespace Sys2Proof

/-- Of O30 the commands and BKRED hold, and its statement of the granules does not: it leaves out that memory is canonical, as every step keeps it. -/
theorem bankOperations_not_performs : Spec.BankCommands ∧ Spec.BankReduces ∧ ¬ Spec.BankPerforms :=
  ⟨Machine.bankCommands, Machine.bankReduces, Machine.not_bankPerforms⟩

/-- Refutes O30: where memory lists a byte twice, a granule of BKZERO leaves the second entry's byte, where the statement has it leave zero. -/
theorem not_bankOperations : ¬ Obligations.BankOperations := by
  rintro ⟨-, hperforms, -⟩
  exact bankOperations_not_performs.2.2 hperforms

end Sys2Proof
end

section
/-!
SUPPORT. The tiles (R14, R27): what writing cells leaves of a tile, and of the hart.
-/

namespace Sys2Proof.Machine

/-! ### Cells (R14) -/

/-- Bit j of cell k. -/
theorem getLsbD_setCell (t : BitVec 131072) (k x b : Nat) : (setCell t k x).getLsbD b =
    if 32 * k ≤ b ∧ b < 32 * k + 32 then decide (b < 131072) && x.testBit (b - 32 * k) else t.getLsbD b := by
  have hones : (0xFFFFFFFF : Nat) = 2 ^ 32 - 1 := rfl
  simp only [setCell, hones, BitVec.getLsbD_or, BitVec.getLsbD_and, BitVec.getLsbD_not, BitVec.getLsbD_shiftLeft, BitVec.getLsbD_ofNat,
    Nat.testBit_two_pow_sub_one, Nat.testBit_mod_two_pow]
  by_cases hb : b < 131072
  · by_cases hlow : 32 * k ≤ b
    · have hin : b - 32 * k < 131072 := by omega
      by_cases hhigh : b < 32 * k + 32
      · have : b - 32 * k < 32 := by omega
        simp [hb, hlow, hhigh, hin, this, Nat.not_lt.mpr hlow]
      · have : ¬ b - 32 * k < 32 := by omega
        simp [hb, hlow, hhigh, hin, this]
    · have : b < 32 * k := by omega
      simp [hb, hlow, this]
  · have : t.getLsbD b = false := BitVec.getLsbD_of_ge _ _ (by omega)
    simp [hb, this]

theorem tileCell_setCell (t : BitVec 131072) (k x : Nat) {j : Nat} (hj : j < 4096) :
    tileCell (setCell t k x) j = if j = k then x % 2 ^ 32 else tileCell t j := by
  have hbits : (setCell t k x).extractLsb' (32 * j) 32 = if j = k then BitVec.ofNat 32 x else t.extractLsb' (32 * j) 32 := by
    ext i hi
    rw [BitVec.getElem_extractLsb', getLsbD_setCell]
    by_cases hk : j = k
    · subst hk
      have h1 : 32 * j + i < 131072 := by omega
      simp [h1, hi, ← BitVec.getLsbD_eq_getElem, BitVec.getLsbD_ofNat]
    · rw [if_neg (by omega), if_neg hk, BitVec.getElem_extractLsb']
  rw [tileCell, hbits, tileCell]
  split
  · exact BitVec.toNat_ofNat ..
  · rfl

/-- Writing each of some cells with a value of its own. -/
theorem tileCell_setCells (f : Nat → Nat) {j : Nat} (hj : j < 4096) : ∀ (ks : List Nat) (t : BitVec 131072),
    tileCell (setCells t (ks.map (fun k => (k, f k)))) j = if j ∈ ks then f j % 2 ^ 32 else tileCell t j
  | [], t => rfl
  | k :: ks, t => by
    have ih := tileCell_setCells f hj ks (setCell t k (f k))
    rw [tileCell_setCell t k _ hj] at ih
    refine ih.trans ?_
    by_cases hjk : j = k
    · subst hjk
      simp
    · simp [hjk]

theorem tileCell_zero (k : Nat) : tileCell 0 k = 0 := by
  have : (0 : BitVec 131072).extractLsb' (32 * k) 32 = 0 := by
    ext i hi
    simp
  rw [tileCell, this]
  rfl

/-! ### Tiles (R27) -/

theorem wt_tile (h : Hart) (tile : BitVec 3) (x : BitVec 131072) : (h.wt tile x).tile tile = x := Vector.getElem_set_self ..

theorem wt_tile_other {tile u : BitVec 3} (h : Hart) (x : BitVec 131072) (hu : u ≠ tile) : (h.wt tile x).tile u = h.tile u := by
  refine Vector.getElem_set_ne (reg8 tile.toNat).isLt (reg8 u.toNat).isLt fun e => hu ?_
  simp only [reg8] at e
  have h1 := tile.isLt
  have h2 := u.isLt
  exact BitVec.eq_of_toNat_eq (by omega)

/-- A hart whose tile is replaced, with a cell that is written, is what `Spec.TileWritten` says of the cells that are. -/
theorem wt_written {h : Hart} {tile : BitVec 3} {x : BitVec 131072} {cell : Nat → Nat → Option Nat} (flags : Nat)
    (hx : ∀ i j, i < 64 → j < 64 → tileCell x (64 * i + j) = match cell i j with
      | some y => y % 2 ^ 32
      | none => tileCell (h.tile tile) (64 * i + j))
    (hsome : ∃ i j, i < 64 ∧ j < 64 ∧ cell i j ≠ none) : Spec.TileWritten h tile flags cell { (h.raise flags).wt tile x with vstart := 0 } := by
  obtain ⟨i, j, hi, hj, hcell⟩ := hsome
  refine ⟨rfl, fun _ _ _ _ _ => rfl, fun hnone => absurd (hnone i j hi hj) hcell, fun i j hi hj => ?_, fun u hu => wt_tile_other (h.raise flags) x hu⟩
  refine (congrArg (fun t => tileCell t (64 * i + j)) (wt_tile (h.raise flags) tile x)).trans (hx i j hi hj)

/-- Cells of a tile are written by their numbers. -/
theorem writeCells_written {h : Hart} {tile : BitVec 3} {cell : Nat → Nat → Option Nat} (flags : Nat) (ks : List Nat) (f : Nat → Nat)
    (hks : ∀ k ∈ ks, k < 4096) (hcell : ∀ i j, i < 64 → j < 64 → cell i j = if 64 * i + j ∈ ks then some (f (64 * i + j)) else none) :
    Spec.TileWritten h tile flags cell { (h.raise flags).writeCells tile (ks.map (fun k => (k, f k))) with vstart := 0 } := by
  cases ks with
  | nil =>
    have hnone : ∀ i j, i < 64 → j < 64 → cell i j = none := fun i j hi hj => (hcell i j hi hj).trans (if_neg List.not_mem_nil)
    refine ⟨rfl, fun i j hi hj hne => absurd (hnone i j hi hj) hne, fun _ => rfl, fun i j hi hj => ?_, fun _ _ => rfl⟩
    rw [hnone i j hi hj]
    rfl
  | cons k ks =>
    refine wt_written flags (fun i j hi hj => ?_) ⟨k / 64, k % 64, ?_, Nat.mod_lt _ (by decide), ?_⟩
    · rw [tileCell_setCells f (by omega), hcell i j hi hj]
      split <;> rfl
    · have := hks k List.mem_cons_self
      omega
    · have hk := hks k List.mem_cons_self
      rw [hcell _ _ (by omega) (by omega), if_pos (by rw [Nat.div_add_mod]; exact List.mem_cons_self)]
      exact Option.some_ne_none _

end Sys2Proof.Machine
end

section
/-!
SUPPORT. Outer products (R178 to R181): the cells that one goes through in their order, the elements that hold a reserved code, and how it ends.
-/

namespace Sys2Proof.Machine

/-! ### What is lowest of a rising list -/

/-- Of a list that rises by a key, the member with the least key of those that pass a test is found. -/
theorem find?_of_least {α : Type} (key : α → Nat) {p : α → Bool} {l : List α} {a : α} (hl : l.Pairwise (fun x y => key x < key y)) (ha : a ∈ l)
    (hp : p a = true) (hmin : ∀ x ∈ l, p x = true → key a ≤ key x) : l.find? p = some a := by
  induction l with
  | nil => cases ha
  | cons x t ih =>
    obtain ⟨hx, ht⟩ := List.pairwise_cons.mp hl
    rcases List.mem_cons.mp ha with rfl | hat
    · exact List.find?_cons_of_pos hp
    · have hpx : ¬ p x = true := fun h => absurd (hmin x List.mem_cons_self h) (by have := hx a hat; omega)
      rw [List.find?_cons_of_neg hpx]
      exact ih ht hat fun y hy => hmin y (List.mem_cons_of_mem _ hy)

/-! ### Reserved codes (R180) -/

/-- Element i of vector k is a reserved code under a latch that is not +0. -/
def Reserved (fmt : Nat) (x : Nat → Nat → Nat) (sc : Nat → Ex) (k i : Nat) : Prop := mopaElem fmt (x k i) = none ∧ (sc i).isZero = false

theorem reserved_iff (fmt : Nat) (x : Nat → Nat → Nat) (sc : Nat → Ex) (k i : Nat) :
    ((mopaElem fmt (x k i)).isNone && !(sc i).isZero) = true ↔ Reserved fmt x sc k i := by
  simp [Reserved]

theorem reservedElem_eq_none {fmt vr : Nat} {idx : List Nat} {x : Nat → Nat → Nat} {sc : Nat → Ex}
    (h : ∀ k i, k < vr → i ∈ idx → ¬ Reserved fmt x sc k i) : reservedElem fmt vr idx x sc = none := by
  refine List.findSome?_eq_none_iff.mpr fun k hk => Option.map_eq_none_iff.mpr (List.find?_eq_none.mpr fun i hi => ?_)
  rw [reserved_iff]
  exact h k i (List.mem_range.mp hk) hi

theorem reservedElem_of_least {fmt vr k r : Nat} {idx : List Nat} {x : Nat → Nat → Nat} {sc : Nat → Ex} (hidx : idx.Pairwise (· < ·))
    (h64 : ∀ i ∈ idx, i < 64) (hk : k < vr) (hr : r ∈ idx) (hres : Reserved fmt x sc k r)
    (hmin : ∀ k' r', k' < vr → r' ∈ idx → Reserved fmt x sc k' r' → 64 * k + r ≤ 64 * k' + r') :
    reservedElem fmt vr idx x sc = some (64 * k + r) := by
  have hr64 := h64 r hr
  refine findSome?_range hk ?_ fun j hj => ?_
  · rw [find?_of_least id hidx hr ((reserved_iff ..).mpr hres) fun i hi h => ?_]
    · rfl
    · have := hmin k i hk hi ((reserved_iff ..).mp h)
      show r ≤ i
      omega
  · refine Option.map_eq_none_iff.mpr (List.find?_eq_none.mpr fun i hi h => ?_)
    have := hmin j i (hj.trans hk) hi ((reserved_iff ..).mp h)
    have := h64 i hi
    omega

/-! ### The cells (R179) -/

/-- The row and column of each cell of an outer product, ascending. -/
def MopaIn.cells (p : MopaIn) : List (Nat × Nat) := p.rows.flatMap (fun i => (List.range p.n).map (fun j => (i, j)))

/-- The number of a cell. -/
def cellNo (c : Nat × Nat) : Nat := 64 * c.1 + c.2

/-- The new value of a cell and its flags. -/
def MopaIn.cell (p : MopaIn) (h : Hart) (i j : Nat) : Nat × Nat :=
  mopaCell h.mode (tileCell (h.tile p.tile) (64 * i + j)) (latch p.fa h.scaleA i) (latch p.fb h.scaleB j)
    ((List.range p.vr).map (fun k => ((mopaElem p.fa (p.a k i)).getD (.fin false 0 1 0), (mopaElem p.fb (p.b k j)).getD (.fin false 0 1 0))))

/-- The new value of a cell of an INT8 product. -/
def MopaIn.intCell (p : MopaIn) (h : Hart) (i j : Nat) : Nat :=
  wrapN ((List.range p.vr).foldl (fun (x : Int) k => x + sintN 8 (p.a k i) * sintN 8 (p.b k j)) (tileCell (h.tile p.tile) (64 * i + j))) 32

/-- The element that holds a reserved code, of A, else of B, which is read for a row that takes part. -/
def MopaIn.bad (p : MopaIn) (h : Hart) : Option Nat :=
  match reservedElem p.fa p.vr p.rows p.a (latch p.fa h.scaleA) with
  | some e => some e
  | none => if p.rows.isEmpty then none else reservedElem p.fb p.vr (List.range p.n) p.b (latch p.fb h.scaleB)

/-- The numbers of the cells, each with its new value and its flags. -/
def MopaIn.results (p : MopaIn) (h : Hart) : List (Nat × Nat × Nat) := p.cells.map (fun c => (cellNo c, p.cell h c.1 c.2))

/-- The flags of all cells. -/
def MopaIn.flags (p : MopaIn) (h : Hart) : Nat := (p.results h).foldl (fun f r => f ||| r.2.2) 0

theorem MopaIn.mem_cells {p : MopaIn} {c : Nat × Nat} : c ∈ p.cells ↔ c.1 ∈ p.rows ∧ c.2 < p.n := by
  obtain ⟨i, j⟩ := c
  simp [MopaIn.cells]

theorem MopaIn.cells_rise {p : MopaIn} (hrows : p.rows.Pairwise (· < ·)) (hn : p.n ≤ 64) : p.cells.Pairwise (fun x y => cellNo x < cellNo y) := by
  refine List.pairwise_flatMap.mpr ⟨fun i _ => List.pairwise_map.mpr ?_, hrows.imp fun {i i'} hii c hc c' hc' => ?_⟩
  · exact List.pairwise_lt_range.imp fun hjj => Nat.add_lt_add_left hjj _
  · obtain ⟨j, hj, rfl⟩ := List.mem_map.mp hc
    obtain ⟨j', hj', rfl⟩ := List.mem_map.mp hc'
    have hj := List.mem_range.mp hj
    simp only [cellNo]
    omega

/-- The cells of an outer product by their numbers, with their values. -/
theorem MopaIn.cells_map {p : MopaIn} (hn : p.n ≤ 64) (f : Nat → Nat → Nat) :
    p.cells.map (fun c => (cellNo c, f c.1 c.2)) = (p.cells.map cellNo).map (fun k => (k, f (k / 64) (k % 64))) := by
  rw [List.map_map]
  refine List.map_congr_left fun c hc => ?_
  have hj := (MopaIn.mem_cells.mp hc).2
  have h1 : cellNo c / 64 = c.1 := by simp only [cellNo]; omega
  have h2 : cellNo c % 64 = c.2 := by simp only [cellNo]; omega
  simp only [Function.comp, h1, h2]

theorem MopaIn.mem_cellNos {p : MopaIn} (hn : p.n ≤ 64) {i j : Nat} (hj : j < 64) : 64 * i + j ∈ p.cells.map cellNo ↔ i ∈ p.rows ∧ j < p.n := by
  constructor
  · intro h
    obtain ⟨c, hc, e⟩ := List.mem_map.mp h
    obtain ⟨h1, h2⟩ := MopaIn.mem_cells.mp hc
    simp only [cellNo] at e
    rw [show i = c.1 by omega, show j = c.2 by omega]
    exact ⟨h1, h2⟩
  · exact fun h => List.mem_map.mpr ⟨(i, j), MopaIn.mem_cells.mpr h, rfl⟩

/-- What writing every cell of an outer product leaves. -/
theorem MopaIn.written {p : MopaIn} (hn : p.n ≤ 64) (hrows : ∀ i ∈ p.rows, i < 64) (h : Hart) (flags : Nat) (f : Nat → Nat → Nat)
    {inTile : Nat → Nat → Prop} [∀ i j, Decidable (inTile i j)] (hin : ∀ i j, inTile i j ↔ i ∈ p.rows ∧ j < p.n) :
    Spec.TileWritten h p.tile flags (fun i j => if inTile i j then some (f i j) else none)
      { (h.raise flags).writeCells p.tile (p.cells.map (fun c => (cellNo c, f c.1 c.2))) with vstart := 0 } := by
  rw [p.cells_map hn f]
  refine writeCells_written flags _ _ (fun k hk => ?_) fun i j hi hj => ?_
  · obtain ⟨c, hc, rfl⟩ := List.mem_map.mp hk
    obtain ⟨h1, h2⟩ := MopaIn.mem_cells.mp hc
    have := hrows _ h1
    simp only [cellNo]
    omega
  · have h1 : (64 * i + j) / 64 = i := by omega
    have h2 : (64 * i + j) % 64 = j := by omega
    simp only [hin, p.mem_cellNos hn hj, h1, h2]

/-! ### How an outer product ends (R180) -/

theorem raise_zero (h : Hart) : h.raise 0 = h := by rw [Hart.raise]; simp

section
variable {p : MopaIn} {s : State}

theorem mopa_int (hf : p.fa = 0) : s.mopa p = .done { s with cur :=
    { (s.cur.raise 0).writeCells p.tile (p.cells.map (fun c => (cellNo c, p.intCell s.cur c.1 c.2))) with vstart := 0 } } := by
  have hcells : p.cells.map (fun c => (cellNo c, p.intCell s.cur c.1 c.2)) = p.cells.map (fun c => (64 * c.1 + c.2,
      mopaInt (tileCell (s.cur.tile p.tile) (64 * c.1 + c.2)) ((List.range p.vr).map (fun k => (p.a k c.1, p.b k c.2))))) :=
    List.map_congr_left fun c _ => by rw [mopaInt, List.foldl_map]; rfl
  rw [raise_zero, hcells]
  exact if_pos (beq_iff_eq.mpr hf)

theorem mopa_fp (hf : p.fa ≠ 0) : s.mopa p = match p.bad s.cur with
    | some e => .trap { cause := 2, tval := BitVec.ofNat 64 e, vec := true } s
    | none => match (p.results s.cur).find? (fun r => r.2.2 &&& s.cur.enabled != 0) with
      | some r => .trap { cause := 0xF, tval := BitVec.ofNat 64 r.1, vec := true } { s with cur := s.cur.raise (p.flags s.cur) }
      | none => .done { s with cur :=
          { (s.cur.raise (p.flags s.cur)).writeCells p.tile ((p.results s.cur).map (fun r => (r.1, r.2.1))) with vstart := 0 } } :=
  if_neg (by simpa using hf)

theorem mopa_reserved {e : Nat} (hf : p.fa ≠ 0) (hb : p.bad s.cur = some e) :
    s.mopa p = .trap { cause := 2, tval := BitVec.ofNat 64 e, vec := true } s := by
  rw [mopa_fp hf, hb]

theorem mopa_flagged {r : Nat × Nat × Nat} (hf : p.fa ≠ 0) (hb : p.bad s.cur = none)
    (hr : (p.results s.cur).find? (fun r => r.2.2 &&& s.cur.enabled != 0) = some r) :
    s.mopa p = .trap { cause := 0xF, tval := BitVec.ofNat 64 r.1, vec := true } { s with cur := s.cur.raise (p.flags s.cur) } := by
  rw [mopa_fp hf, hb, hr]

theorem mopa_done (hf : p.fa ≠ 0) (hb : p.bad s.cur = none) (hr : (p.results s.cur).find? (fun r => r.2.2 &&& s.cur.enabled != 0) = none) :
    s.mopa p = .done { s with cur :=
      { (s.cur.raise (p.flags s.cur)).writeCells p.tile (p.cells.map (fun c => (cellNo c, (p.cell s.cur c.1 c.2).1))) with vstart := 0 } } := by
  rw [mopa_fp hf, hb, hr, MopaIn.results, List.map_map]
  rfl

end

theorem MopaIn.bad_eq_none {p : MopaIn} {h : Hart} (ha : ∀ k i, k < p.vr → i ∈ p.rows → ¬ Reserved p.fa p.a (latch p.fa h.scaleA) k i)
    (hb : p.rows ≠ [] → ∀ k j, k < p.vr → j < p.n → ¬ Reserved p.fb p.b (latch p.fb h.scaleB) k j) : p.bad h = none := by
  rw [MopaIn.bad, reservedElem_eq_none ha]
  by_cases hrows : p.rows = []
  · simp [hrows]
  · rw [reservedElem_eq_none fun k j hk hj => hb hrows k j hk (List.mem_range.mp hj)]
    exact ite_self _

theorem MopaIn.bad_of_a {p : MopaIn} {h : Hart} {e : Nat} (ha : reservedElem p.fa p.vr p.rows p.a (latch p.fa h.scaleA) = some e) :
    p.bad h = some e := by
  rw [MopaIn.bad, ha]

theorem MopaIn.bad_of_b {p : MopaIn} {h : Hart} {e : Nat} (ha : ∀ k i, k < p.vr → i ∈ p.rows → ¬ Reserved p.fa p.a (latch p.fa h.scaleA) k i)
    (hrows : p.rows ≠ []) (hb : reservedElem p.fb p.vr (List.range p.n) p.b (latch p.fb h.scaleB) = some e) : p.bad h = some e := by
  rw [MopaIn.bad, reservedElem_eq_none ha, hb]
  exact if_neg (by simpa using hrows)

/-! ### The statement of an outer product -/

theorem mopaElem_eq (fmt x : Nat) : mopaElem fmt x = if 9 ≤ fmt ∧ fmt ≤ 12 then readBlockElem fmt x else some (readF (ffmt fmt) x) := by
  simp [mopaElem, fmtIsBlock]

theorem latch_eq (fmt : Nat) (v : Vector (BitVec 32) 64) (i : Nat) :
    latch fmt v i = if 9 ≤ fmt ∧ fmt ≤ 12 then readF fp32 (v.toList.getD i 0).toNat else .fin false 1 1 0 := by
  simp [latch, fmtIsBlock]

theorem pairFmts_eq {pair : BitVec 3} (fmt : Nat) (h : pair.toNat ≤ 2) :
    pairFmts fmt pair = if pair = 1 then (7, 8) else if pair = 2 then (8, 7) else (fmt, fmt) := by
  obtain ⟨⟨n, hn⟩⟩ := pair
  have hn2 : n ≤ 2 := h
  match n with
  | 0 | 1 | 2 => rfl
  | n + 3 => omega

theorem tileWritten_strikes {h t : Hart} {tile : BitVec 3} {flags : Nat} {cell : Nat → Nat → Option Nat} (w : Spec.TileWritten h tile flags cell t) :
    t.strikes = h.strikes := by
  obtain ⟨e, -⟩ := w
  rw [e]

/-- What an outer product reads of a strip. -/
def outerIn (tile : BitVec 3) (c : VCtx) (pair : BitVec 3) (a b : Nat → Nat → Nat) : MopaIn :=
  { tile := tile, fa := (pairFmts c.fmt pair).1, fb := (pairFmts c.fmt pair).2, n := c.mopaN, vr := c.vr, rows := c.mopaRows, a := a, b := b }

theorem flags_eq (p : MopaIn) (h : Hart) : p.flags h =
    (p.rows.flatMap (fun i => (List.range p.n).map (fun j => p.cell h i j))).foldl (fun x r => x ||| r.2) 0 := by
  have hcells : p.rows.flatMap (fun i => (List.range p.n).map (fun j => p.cell h i j)) = (p.results h).map (fun r => r.2) := by
    simp only [MopaIn.results, MopaIn.cells, List.map_flatMap, List.map_map]
    rfl
  rw [hcells, List.foldl_map, MopaIn.flags]

theorem results_rise {p : MopaIn} (hrows : p.rows.Pairwise (· < ·)) (hn : p.n ≤ 64) (h : Hart) :
    (p.results h).Pairwise (fun x y => x.1 < y.1) := List.pairwise_map.mpr (p.cells_rise hrows hn)

theorem mem_results {p : MopaIn} {h : Hart} {r : Nat × Nat × Nat} (hr : r ∈ p.results h) :
    ∃ i j, i ∈ p.rows ∧ j < p.n ∧ r = (64 * i + j, p.cell h i j) := by
  obtain ⟨c, hc, rfl⟩ := List.mem_map.mp hr
  obtain ⟨hi, hj⟩ := MopaIn.mem_cells.mp hc
  exact ⟨c.1, c.2, hi, hj, rfl⟩

theorem mem_mopaRows {c : VCtx} {i : Nat} : i ∈ c.mopaRows ↔ i < c.mopaN ∧ c.gov i = true := by simp [VCtx.mopaRows]

/-- An instruction that ends as an outer product does what R178 to R180 say of its operands. -/
theorem outer_of_mopa {i : Instr} {s u : State} {tile pair : BitVec 3} {c : VCtx} {a b : Nat → Nat → Nat} (hpair : pair.toNat ≤ 2) (hvl : c.vl ≤ 64)
    (hub : u.blocked = none) (hus : u.cur.strikes = [])
    (hexec : exec i s = .next (s.start.finish (encode i) (u.mopa (outerIn tile c pair a b)))) : Spec.Outer i s u tile c pair a b := by
  have hn : (outerIn tile c pair a b).n ≤ 64 := (Nat.sub_le ..).trans hvl
  have hrows : ∀ i ∈ (outerIn tile c pair a b).rows, i < 64 := fun i hi => (mem_mopaRows.mp hi).1.trans_le hn
  have hrise : (outerIn tile c pair a b).rows.Pairwise (· < ·) := List.pairwise_lt_range.filter _
  have hin : ∀ i j, (i < c.mopaN ∧ c.gov i = true ∧ j < c.mopaN) ↔
      i ∈ (outerIn tile c pair a b).rows ∧ j < (outerIn tile c pair a b).n := fun i j => by
    rw [show (outerIn tile c pair a b).rows = c.mopaRows from rfl, mem_mopaRows, and_assoc]
    rfl
  unfold Spec.Outer
  simp only [← pairFmts_eq c.fmt hpair, ← mopaElem_eq, ← latch_eq]
  refine ⟨fun hf => ?int, fun hf ⟨ha, hb⟩ hflags => ?fp, fun k r hf hk hr hres hmin => ?reservedA, fun k r hf ha hrows' hk hr hres hmin => ?reservedB,
    fun i' j hf ⟨ha, hb⟩ hij hfl hmin => ?flagged⟩
  case int =>
    have hw := MopaIn.written (p := outerIn tile c pair a b) hn hrows u.cur 0 ((outerIn tile c pair a b).intCell u.cur) hin
    refine ⟨_, hexec.trans (congrArg Host.Outcome.next ?_), hw⟩
    rw [mopa_int hf]
    exact finish_done _ _ hub ((tileWritten_strikes hw).trans hus)
  case fp =>
    have hw := MopaIn.written (p := outerIn tile c pair a b) hn hrows u.cur ((outerIn tile c pair a b).flags u.cur)
      (fun i j => ((outerIn tile c pair a b).cell u.cur i j).1) hin
    have hclear : ((outerIn tile c pair a b).results u.cur).find? (fun r => r.2.2 &&& u.cur.enabled != 0) = none := by
      refine List.find?_eq_none.mpr fun r hr => ?_
      obtain ⟨i, j, hi, hj, rfl⟩ := mem_results hr
      rw [bne_iff_ne, not_not]
      exact hflags i j ((hin i j).mpr ⟨hi, hj⟩)
    rw [flags_eq] at hw
    refine ⟨_, hexec.trans (congrArg Host.Outcome.next ?_), hw⟩
    rw [mopa_done hf (MopaIn.bad_eq_none ha hb) hclear, flags_eq]
    exact finish_done _ _ hub ((tileWritten_strikes hw).trans hus)
  case reservedA =>
    have hbad := MopaIn.bad_of_a (h := u.cur) (reservedElem_of_least hrise hrows hk hr hres hmin)
    rw [hexec, mopa_reserved hf hbad, finish_trap _ _ _ hub]
  case reservedB =>
    have hleast := reservedElem_of_least (idx := List.range c.mopaN) List.pairwise_lt_range (fun i hi => (List.mem_range.mp hi).trans_le hn) hk
      (List.mem_range.mpr hr) hres fun k' r' hk' hr' => hmin k' r' hk' (List.mem_range.mp hr')
    have hbad := MopaIn.bad_of_b (p := outerIn tile c pair a b) ha hrows' hleast
    rw [hexec, mopa_reserved hf hbad, finish_trap _ _ _ hub]
  case flagged =>
    obtain ⟨hi, hj⟩ := (hin i' j).mp hij
    have hfirst : ((outerIn tile c pair a b).results u.cur).find? (fun r => r.2.2 &&& u.cur.enabled != 0) =
        some (64 * i' + j, (outerIn tile c pair a b).cell u.cur i' j) := by
      refine find?_of_least (fun r => r.1) (results_rise hrise hn u.cur)
        (List.mem_map.mpr ⟨(i', j), MopaIn.mem_cells.mpr ⟨hi, hj⟩, rfl⟩) (bne_iff_ne.mpr hfl)
        fun r hr hne => ?_
      obtain ⟨p, q, hp, hq, rfl⟩ := mem_results hr
      exact hmin p q ((hin p q).mpr ⟨hp, hq⟩) (bne_iff_ne.mp hne)
    rw [hexec, mopa_flagged hf (MopaIn.bad_eq_none ha hb) hfirst, finish_trap _ _ _ (by exact hub), flags_eq]
    rfl

end Sys2Proof.Machine
end

section
/-!
SUPPORT. MOPA and MOPAX (R178, R181): their checks, and the rows of A that MOPAX gathers.
-/

namespace Sys2Proof.Machine

/-! ### Reading an element -/

/-- An element that is read passes its checks, and delivers its bytes or its nibble. -/
theorem loadAt_of_reads {st : Stream} {w n : Nat} {p : Place} {s t : State} {x : Nat} (h : Spec.Reads st w p n s x t) (i : Nat) :
    ∃ y, s.loadAt st false n i p.addr = (.ok y, t) ∧ nibbleOf w p.high y = x ∧ Reached s t := by
  obtain ⟨-, hwatch, key, hreach, hpoison, hx⟩ := h
  have hreached := reach_reached s p.addr n .read .plain none
  rw [hreach] at hreached
  refine ⟨leNat (t.viewBytes st key n), ?_, ?_, hreached⟩
  · simp only [State.loadAt, State.probeAt, Bool.false_and, Bool.false_eq_true, if_false, hreach, strike_none _ hwatch, hpoison,
      show (AKind.read == AKind.write) = false from rfl]
  · simp only [nibbleOf, beq_iff_eq]
    exact hx.symm

theorem inOrder_reached {α : Type} {acc : State → Nat → α → State → Prop} {l : List Nat} {s u : State} {rs : List (Nat × α)}
    (h : InOrder acc l s rs u) (step : ∀ s i x t, acc s i x t → Reached s t) : Reached s u := by
  induction h with
  | none s => exact .refl s
  | next hacc _ ih => exact (step _ _ _ _ hacc).trans ih

/-! ### The rows of A (R181) -/

/-- Where element k of a row at an offset lies. -/
def rowPlace (w off k : Nat) : Place := { addr := BitVec.ofNat 64 (Config.localBase + off + k * w / 8), high := k % 2 == 1 }

/-- Element k of a row is read. -/
def RowReads (w off : Nat) (s : State) (k x : Nat) (t : State) : Prop :=
  Spec.Reads .vector (if w = 4 then 4 else 0) (rowPlace w off k) (elemBytes w) s x t

theorem nibbleOf_row (w : Nat) (high : Bool) (y : Nat) : nibbleOf w high y = nibbleOf (if w = 4 then 4 else 0) high y := by
  by_cases hw : w = 4
  · rw [if_pos hw, hw]
  · rw [if_neg hw, nibbleOf, nibbleOf, beq_eq_false_iff_ne.mpr hw]
    rfl

theorem rowReads_reached {w off : Nat} (s : State) (k x : Nat) (t : State) (h : RowReads w off s k x t) : Reached s t := by
  obtain ⟨_, _, _, hreached⟩ := loadAt_of_reads h k
  exact hreached

theorem gatherRow_reads {s t : State} {w vr off : Nat} {rs : List (Nat × Nat)} (hcut : s.cut = none) (hal : 8 ≤ w → off % (w / 8) = 0)
    (hin : inRegions s.cur.local_ off ((vr * w + 7) / 8) = true) (hord : InOrder (RowReads w off) (List.range vr) s rs t) (i : Nat) :
    s.gatherRow w vr i off = (.ok (rs.map (fun r => r.2)), t) := by
  have halign : (decide (w ≥ 8) && off % (w / 8) != 0) = false := by
    by_cases hw : 8 ≤ w
    · simp [hal hw]
    · simp [hw]
  unfold State.gatherRow
  simp only [halign, hin, Bool.not_true, Bool.false_eq_true, if_false]
  rw [eachElem_inOrder hord hcut fun s' k x t' h => ?step]
  case step =>
    obtain ⟨y, hload, hx, hreached⟩ := loadAt_of_reads h i
    rw [← nibbleOf_row] at hx
    refine ⟨?_, hreached⟩
    rw [show s'.loadAt .vector false (elemBytes w) i (BitVec.ofNat 64 (Config.localBase + off + k * w / 8)) = _ from hload, ← hx]
    rfl

/-! ### The checks (R178) -/

theorem mopaCheck_iff (h : Hart) (c : VCtx) (m : Bool) (pair : BitVec 3) (groups : List (Nat × Nat)) :
    mopaCheck h c m pair groups = true ↔ Spec.outerOk h c m pair groups := by
  cases m <;> simp [mopaCheck, Spec.outerOk, and_assoc, or_assoc]

theorem mopa_outer {tile : BitVec 3} {va vb : Reg} {m : Bool} {pair : BitVec 3} {s : State} (hpair : pair.toNat ≤ 2) (hx : Executes s)
    (hl : s.cur.lane = none) (hd : s.cur.dropping = false) :
    let c := s.cur.vctx m
    let i := Instr.mopa tile va vb m pair
    let ok := Spec.outerOk s.cur c m pair [(va.toNat, c.g), (vb.toNat, c.g)] ∧ va.toNat % c.g = 0 ∧ vb.toNat % c.g = 0
    (¬ ok → exec i s = .next (s.start.trapWord (encode i) { cause := 1, tval := 0, vec := true } s.start)) ∧
    (ok → c.vl ≤ 64 → Spec.Outer i s s.start tile c pair
      (fun k i => elemN (s.cur.groupN va.toNat c.g) c.w (64 * k + i)) (fun k j => elemN (s.cur.groupN vb.toNat c.g) c.w (64 * k + j))) := by
  intro c i ok
  have hok : (!mopaCheck s.cur c m pair [(va.toNat, c.g), (vb.toNat, c.g)] || !groupOk va.toNat c.g || !groupOk vb.toNat c.g) = false ↔ ok := by
    simp only [Bool.or_eq_false_iff, Bool.not_eq_false', mopaCheck_iff, c, groupOk_iff_aligned, and_assoc, ok]
  refine ⟨fun hbad => ?_, fun h hvl => ?_⟩
  · exact performPfx_illegalV hx hl hd (if_pos (Bool.of_not_eq_false fun e => hbad (hok.mp e)))
  · have hbody : mopaBody tile va vb m pair s.start = s.start.mopa (outerIn tile c pair _ _) := if_neg (Bool.eq_false_iff.mp (hok.mpr h))
    exact outer_of_mopa hpair hvl rfl hx.2.1 ((performPfx_vector hx hl hd).trans (by rw [hbody]; rfl))

/-- The formats of an outer product are as wide as the strip's elements, or under a pair 8 bits. -/
theorem pairFmts_width {fmt : Nat} {pair : BitVec 3} (hpair : pair.toNat ≤ 2) :
    fmtWidth (pairFmts fmt pair).1 = if pair = 0 then fmtWidth fmt else 8 := by
  rw [pairFmts_eq fmt hpair]
  by_cases h0 : pair = 0
  · subst h0
    rfl
  · rw [if_neg h0]
    by_cases h1 : pair = 1
    · rw [if_pos h1]
      rfl
    · have h2 : pair = 2 := BitVec.eq_of_toNat_eq (by
        have : pair.toNat ≠ 0 := fun e => h0 (BitVec.eq_of_toNat_eq e)
        have : pair.toNat ≠ 1 := fun e => h1 (BitVec.eq_of_toNat_eq e)
        show pair.toNat = 2
        omega)
      rw [if_neg h1, if_pos h2]
      rfl

/-- Row i of A is read whole. -/
def GatherReads (w vr : Nat) (off : Nat → Nat) (s : State) (i : Nat) (xs : List Nat) (t : State) : Prop :=
  (8 ≤ w → off i % (w / 8) = 0) ∧ inRegions s.cur.local_ (off i) ((vr * w + 7) / 8) = true ∧
  ∃ rs, xs = rs.map (fun r => r.2) ∧ InOrder (RowReads w (off i)) (List.range vr) s rs t

theorem eachElem_gathers {w vr : Nat} {off : Nat → Nat} {l : List Nat} {s u : State} {rows : List (Nat × List Nat)} (hcut : s.cut = none)
    (hord : InOrder (GatherReads w vr off) l s rows u) : eachElem (fun s i => s.gatherRow w vr i (off i)) l s = (rows, none, u) := by
  induction hord with
  | none s => rfl
  | next hrow _ ih =>
    obtain ⟨hal, hin, rs, rfl, hread⟩ := hrow
    have ht := inOrder_reached hread rowReads_reached
    rw [eachElem, hcut]
    simp only [Option.any_none, Bool.false_eq_true, if_false, gatherRow_reads hcut hal hin hread, ih (ht.cut.trans hcut)]

/-- What MOPAX does after it has gathered. -/
def gathered (f : List (Nat × List Nat) → State → Flow) : List (Nat × List Nat) × Option Limit × State → Flow
  | (_, some l, s) => .trap { cause := l.cause, tval := l.tval, vec := true } s
  | (rows, none, s) => f rows s

theorem mopaxBody_gathers {tile : BitVec 3} {vb vidx : Reg} {m : Bool} {pair : BitVec 3} {s : State}
    (h : ¬ (!mopaCheck s.cur (s.cur.vctx m) m pair [(vidx.toNat, s.cur.regsFor (max 1 (s.cur.vctx m).mopaN)), (vb.toNat, (s.cur.vctx m).g)] ||
      decide (vidx.toNat + s.cur.regsFor (max 1 (s.cur.vctx m).mopaN) > 32) || !groupOk vb.toNat (s.cur.vctx m).g) = true) :
    mopaxBody tile vb vidx m pair s = gathered
      (fun rows u => u.mopa (outerIn tile (s.cur.vctx m) pair (fun k i => (look [] rows i).getD k 0)
        (fun k j => elemN (s.cur.groupN vb.toNat (s.cur.vctx m).g) (s.cur.vctx m).w (64 * k + j))))
      (eachElem (fun t i => t.gatherRow (fmtWidth (pairFmts (s.cur.vctx m).fmt pair).1) (s.cur.vctx m).vr i
        (s.cur.elems32 vidx.toNat (max 1 (s.cur.vctx m).mopaN) i)) (s.cur.vctx m).mopaRows { s with cut := none }) :=
  if_neg h

theorem mopax_outer {tile : BitVec 3} {vb vidx : Reg} {m : Bool} {pair : BitVec 3} {s : State} (hpair : pair.toNat ≤ 2) (hx : Executes s)
    (hl : s.cur.lane = none) (hd : s.cur.dropping = false) :
    let c := s.cur.vctx m
    let i := Instr.mopax tile vb vidx m pair
    let nv := s.cur.regsFor (max 1 c.mopaN)
    let ok := Spec.outerOk s.cur c m pair [(vidx.toNat, nv), (vb.toNat, c.g)] ∧ vidx.toNat + nv ≤ 32 ∧ vb.toNat % c.g = 0
    (¬ ok → exec i s = .next (s.start.trapWord (encode i) { cause := 1, tval := 0, vec := true } s.start)) ∧
    (∀ rows u, ok → c.vl ≤ 64 → InOrder (GatherReads (fmtWidth (pairFmts c.fmt pair).1) c.vr (elemN (s.cur.groupN vidx.toNat nv) 32))
        c.mopaRows s.start rows u →
      u.blocked = none → u.cur.strikes = [] →
      Spec.Outer i s u tile c pair (fun k i => (look [] rows i).getD k 0) (fun k j => elemN (s.cur.groupN vb.toNat c.g) c.w (64 * k + j))) := by
  intro c i nv ok
  have hok : (!mopaCheck s.cur c m pair [(vidx.toNat, nv), (vb.toNat, c.g)] || decide (vidx.toNat + nv > 32) || !groupOk vb.toNat c.g) = false ↔ ok := by
    simp only [Bool.or_eq_false_iff, Bool.not_eq_false', mopaCheck_iff, c, groupOk_iff_aligned, decide_eq_false_iff_not, Nat.not_lt, and_assoc, ok, gt_iff_lt]
  refine ⟨fun hbad => ?_, fun rows u h hvl hord hub hus => ?_⟩
  · exact performPfx_illegalV hx hl hd (if_pos (Bool.of_not_eq_false fun e => hbad (hok.mp e)))
  · obtain ⟨-, -, hcut⟩ := id hx
    have hstart : ({ s.start with cut := none } : State) = s.start := by rw [← show s.start.cut = none from hcut]
    have hbody : mopaxBody tile vb vidx m pair s.start = u.mopa (outerIn tile c pair (fun k i => (look [] rows i).getD k 0)
        (fun k j => elemN (s.cur.groupN vb.toNat c.g) c.w (64 * k + j))) :=
      (mopaxBody_gathers (s := s.start) (Bool.eq_false_iff.mp (hok.mpr h))).trans
        (congrArg (gathered _) ((congrArg (eachElem _ _) hstart).trans (eachElem_gathers (s := s.start) hcut hord)))
    exact outer_of_mopa hpair hvl hub hus ((performPfx_vector hx hl hd).trans (by rw [hbody]; rfl))

theorem outerProducts : Spec.OuterProducts :=
  ⟨fun _ _ _ _ _ _ hpair hx hl hd => mopa_outer hpair hx hl hd, fun tile vb vidx m pair s hpair hx hl hd => by
    obtain ⟨hbad, hdone⟩ := mopax_outer (tile := tile) (vb := vb) (vidx := vidx) (m := m) hpair hx hl hd
    rw [pairFmts_width hpair] at hdone
    exact ⟨hbad, hdone⟩⟩

end Sys2Proof.Machine
end

section
/-!
SUPPORT. The scale latches and the tile instructions (R182, R183).
-/

namespace Sys2Proof.Machine

/-! ### From the effect to the statement -/

section
variable {w : BitVec 32} {s t : State} {body : State → Flow} (h : PlainHart s) (hd : s.cur.dropping = false)
include h hd

/-- A word comes to its effect outside lane mode and outside a region that drops. -/
theorem perform_plain : perform w s body = .next (s.start.finish w (body s.start)) :=
  performAs_hart h.1.1.1 (by simp [h.2]) (fun _ => hd) (fun _ => h.1.2)

theorem perform_plain_done (hb : body s.start = .done t) (ht : t.blocked = none) (hs : t.cur.strikes = []) : perform w s body = .next t.completed := by
  rw [perform_plain h hd, hb, finish_done _ _ ht hs]

theorem perform_plain_trap {x : Trap} (hb : body s.start = .trap x t) (ht : t.blocked = none) :
    perform w s body = .next (s.start.trapWord w x t) := by
  rw [perform_plain h hd, hb, finish_trap _ _ _ ht]

end

/-! ### Scale latches (R182) -/

/-- An instruction whose effect is a move of latches does what R182 says. -/
theorem latches_of_effect {con : Reg → Instr} {set : Hart → Vector (BitVec 32) 64 → Hart}
    (effect : ∀ vs s, exec (con vs) s = perform (encode (con vs)) s (mscl vs set))
    (hset : ∀ h v, (set h v).strikes = h.strikes) : Spec.Latches con set := by
  intro vs s hp hd c x ok
  refine ⟨fun hbad => ?_, fun i hok hi hbad hlow => ?_, fun hok hall => ?_⟩ <;> rw [effect]
  · exact perform_plain_trap (body := mscl vs set) hp hd (if_pos (Nat.lt_of_not_le hbad)) rfl
  · have hfirst : (List.range 64).find? (fun i => !latchOk (x i)) = some i :=
      find?_of_least id List.pairwise_lt_range (List.mem_range.mpr hi) (by simp [latchOk, hbad])
        fun j _ hj => Nat.le_of_not_lt fun hji => by simp [latchOk, hlow j hji] at hj
    refine perform_plain_trap (body := mscl vs set) hp hd ((if_neg (Nat.not_lt.mpr hok)).trans ?_) rfl
    change (match (List.range 64).find? (fun i => !latchOk (x i)) with | some i => _ | none => _) = _
    rw [hfirst]
  · have hnone : (List.range 64).find? (fun i => !latchOk (x i)) = none :=
      List.find?_eq_none.mpr fun j hj => by simp [latchOk, hall j (List.mem_range.mp hj)]
    refine perform_plain_done (body := mscl vs set) hp hd ((if_neg (Nat.not_lt.mpr hok)).trans ?_) rfl ((hset _ _).trans hp.1.1.2.1)
    change (match (List.range 64).find? (fun i => !latchOk (x i)) with | some i => _ | none => _) = _
    rw [hnone]
    rfl

/-! ### MZERO -/

theorem mzero_clears (tile : BitVec 3) {s : State} (hp : PlainHart s) (hd : s.cur.dropping = false) : ∃ h, exec (.mzero tile) s =
    .next ({ s.start with cur := h } : State).completed ∧ Spec.TileWritten s.cur tile 0 (fun _ _ => some 0) h := by
  have hw : Spec.TileWritten s.cur tile 0 (fun _ _ => some 0) { (s.cur.raise 0).wt tile 0 with vstart := 0 } :=
    wt_written 0 (fun i j _ _ => tileCell_zero _) ⟨0, 0, by decide, by decide, nofun⟩
  rw [raise_zero] at hw
  exact ⟨_, perform_plain_done (w := mzeroWord tile) hp hd rfl rfl ((tileWritten_strikes hw).trans hp.1.1.2.1), hw⟩

/-! ### Moves between a tile and memory -/

theorem tileMoveCheck_iff (x : Word) : tileMoveCheck x = true ↔
    x.toNat < 2 ^ 13 ∧ 1 ≤ x.toNat / 64 % 128 ∧ x.toNat % 64 + x.toNat / 64 % 128 ≤ 64 := by
  have hcheck : tileMoveCheck x = true ↔
      ((1 ≤ x.toNat / 64 % 128 ∧ x.toNat / 64 % 128 ≤ 64) ∧ x.toNat % 64 + x.toNat / 64 % 128 ≤ 64) ∧ x.toNat / 2 ^ 13 = 0 := by
    change (decide (1 ≤ x.toNat / 64 % 128) && decide (x.toNat / 64 % 128 ≤ 64) && decide (x.toNat % 64 + x.toNat / 64 % 128 ≤ 64) &&
      x.toNat / 2 ^ 13 == 0) = true ↔ _
    simp only [Bool.and_eq_true, decide_eq_true_eq, beq_iff_eq]
  rw [hcheck]
  omega

theorem tileMisaligned_base {a st : Word} {count : Nat} (ha : a.toNat % 4 ≠ 0) : tileMisaligned a st count = some a := if_pos (bne_iff_ne.mpr ha)

theorem tileMisaligned_stride {a st : Word} {count : Nat} (ha : a.toNat % 4 = 0) (hc : 2 ≤ count) (hst : st.toNat % 4 ≠ 0) :
    tileMisaligned a st count = some (a + st) := by
  simp [tileMisaligned, ha, hc, hst]

theorem tileMisaligned_none {a st : Word} {count : Nat} (ha : a.toNat % 4 = 0) (hst : 2 ≤ count → st.toNat % 4 = 0) :
    tileMisaligned a st count = none := by
  by_cases hc : 2 ≤ count
  · simp [tileMisaligned, ha, hst hc]
  · simp [tileMisaligned, ha, hc]

/-- An instruction that checks as a tile move does is one, if it does its work after the checks. -/
theorem tileMove_of_effect {con : BitVec 3 → Reg → Reg → Reg → Instr} {body : BitVec 3 → Reg → Reg → Reg → State → Flow}
    {done : (i : Instr) → (s : State) → (tile : BitVec 3) → (a st : Word) → (first count : Nat) → Prop}
    (effect : ∀ tile ra rs rn s, exec (con tile ra rs rn) s = perform (encode (con tile ra rs rn)) s (body tile ra rs rn))
    (refused : ∀ tile ra rs rn s, tileMoveCheck (s.cur.ox rn) = false → body tile ra rs rn s = illegalV s)
    (misaligned : ∀ tile ra rs rn s x, tileMoveCheck (s.cur.ox rn) = true →
      tileMisaligned (s.cur.ox ra) (s.cur.ox rs) ((s.cur.ox rn).toNat / 64 % 128) = some x →
      body tile ra rs rn s = .trap { cause := 4, tval := x, vec := true } s)
    (works : ∀ tile ra rs rn s, PlainHart s → s.cur.dropping = false → tileMoveCheck (s.cur.ox rn) = true →
      tileMisaligned (s.cur.ox ra) (s.cur.ox rs) ((s.cur.ox rn).toNat / 64 % 128) = none →
      done (con tile ra rs rn) s tile (s.cur.ox ra) (s.cur.ox rs) ((s.cur.ox rn).toNat % 64) ((s.cur.ox rn).toNat / 64 % 128)) :
    Spec.TileMove con done := by
  intro tile ra rs rn s hp hd i a st n first count ok
  have hok : tileMoveCheck n = true ↔ ok := tileMoveCheck_iff n
  refine ⟨fun hbad => ?_, fun h ha => ?_, fun h ha hc hst => ?_, fun h ha hst => ?_⟩
  · rw [effect]
    exact perform_plain_trap (body := body tile ra rs rn) hp hd (refused tile ra rs rn s.start (Bool.eq_false_iff.mpr fun e => hbad (hok.mp e))) rfl
  · rw [effect]
    exact perform_plain_trap (body := body tile ra rs rn) hp hd (misaligned tile ra rs rn s.start a (hok.mpr h) (tileMisaligned_base ha)) rfl
  · rw [effect]
    exact perform_plain_trap (body := body tile ra rs rn) hp hd (misaligned tile ra rs rn s.start (a + st) (hok.mpr h) (tileMisaligned_stride ha hc hst)) rfl
  · exact works tile ra rs rn s hp hd (hok.mpr h) (tileMisaligned_none ha hst)

theorem inOrder_keys {α : Type} {acc : State → Nat → α → State → Prop} {l : List Nat} {s u : State} {rs : List (Nat × α)}
    (h : InOrder acc l s rs u) : rs.map (fun r => r.1) = l := by
  induction h with
  | none s => rfl
  | next _ _ ih => rw [List.map_cons, ih]

/-- What a keyed list with different keys gives the key of one of its entries. -/
theorem look_of_mem {α : Type} (d : α) {l : List (Nat × α)} {r : Nat × α} (hl : (l.map (fun r => r.1)).Nodup) (hr : r ∈ l) : look d l r.1 = r.2 := by
  induction l with
  | nil => cases hr
  | cons x t ih =>
    obtain ⟨hx, ht⟩ := List.nodup_cons.mp hl
    rcases List.mem_cons.mp hr with rfl | hr
    · simp [look]
    · have hne : x.1 ≠ r.1 := fun e => hx (List.mem_map.mpr ⟨r, hr, e.symm⟩)
      simp [look, hne, ih ht hr]

theorem mem_tileWords {h : Hart} {n k : Nat} (hk : k ∈ Spec.tileWords h n) : k < 64 * n := List.mem_range.mp (List.mem_filter.mp hk).1

theorem tileWords_nodup (h : Hart) (n : Nat) : (Spec.tileWords h n).Nodup := List.nodup_range.filter _

/-- Cells that lie from a row on, by their places in those rows. -/
theorem mem_map_row {l : List Nat} {first i j : Nat} (hj : j < 64) :
    64 * i + j ∈ l.map (fun e => 64 * first + e) ↔ first ≤ i ∧ 64 * (i - first) + j ∈ l := by
  constructor
  · intro h
    obtain ⟨e, he, heq⟩ := List.mem_map.mp h
    have hle : first ≤ i := by omega
    refine ⟨hle, ?_⟩
    rwa [show 64 * (i - first) + j = e by omega]
  · rintro ⟨hle, he⟩
    exact List.mem_map.mpr ⟨_, he, by omega⟩

/-- What writing the elements of a list from a row of a tile on leaves. -/
theorem rows_written (h : Hart) (tile : BitVec 3) (first : Nat) {l : List Nat} (f : Nat → Nat) (hl : ∀ e ∈ l, 64 * first + e < 4096) :
    Spec.TileWritten h tile 0 (fun r j => if first ≤ r ∧ 64 * (r - first) + j ∈ l then some (f (64 * (r - first) + j)) else none)
      { h.writeCells tile (l.map (fun e => (64 * first + e, f e))) with vstart := 0 } := by
  have hmap : l.map (fun e => (64 * first + e, f e)) = (l.map (fun e => 64 * first + e)).map (fun k => (k, f (k - 64 * first))) := by
    rw [List.map_map]
    exact List.map_congr_left fun e _ => by simp
  have hw := writeCells_written (h := h) (tile := tile) 0 (l.map (fun e => 64 * first + e)) (fun k => f (k - 64 * first)) ?_
    (cell := fun r j => if first ≤ r ∧ 64 * (r - first) + j ∈ l then some (f (64 * (r - first) + j)) else none) fun i j hi hj => ?_
  · rw [raise_zero] at hw
    rw [hmap]
    exact hw
  · intro k hk
    obtain ⟨e, he, rfl⟩ := List.mem_map.mp hk
    exact hl e he
  · simp only [mem_map_row hj]
    by_cases hle : first ≤ i
    · rw [show 64 * (i - first) + j = 64 * i + j - 64 * first by omega]
    · simp [hle]

/-! ### MLDT -/

/-- MLDT after its checks: the words that are read stand in the rows from the first on. -/
def loadsTile (tile : BitVec 3) (a st : Word) (first count : Nat) (s : State) : Flow :=
  let (rs, stop, u) := eachElem (fun (s : State) k => s.loadAt .vector false 4 k (tileAddr a st k)) (tileWords s.cur count) s
  vecEnd u (if rs.isEmpty then u.cur else u.cur.wt tile (setCells (u.cur.tile tile) (rs.map (fun r => (64 * first + r.1, r.2))))) none stop

theorem mldtBody_refused {tile : BitVec 3} {ra rs rn : Reg} {s : State} (h : tileMoveCheck (s.cur.ox rn) = false) :
    mldtBody tile ra rs rn s = illegalV s := if_pos (by rw [h]; rfl)

theorem mldtBody_checked {tile : BitVec 3} {ra rs rn : Reg} {s : State} (h : tileMoveCheck (s.cur.ox rn) = true) :
    mldtBody tile ra rs rn s = match tileMisaligned (s.cur.ox ra) (s.cur.ox rs) ((s.cur.ox rn).toNat / 64 % 128) with
      | some x => .trap { cause := 4, tval := x, vec := true } s
      | none => loadsTile tile (s.cur.ox ra) (s.cur.ox rs) ((s.cur.ox rn).toNat % 64) ((s.cur.ox rn).toNat / 64 % 128) s :=
  if_neg (by rw [h]; decide)

/-- Word k of a tile is read. -/
def WordReads (a st : Word) (s : State) (k x : Nat) (t : State) : Prop := Spec.Reads .vector 0 { addr := Spec.tileAt a st k, high := false } 4 s x t

theorem loadsTile_done {tile : BitVec 3} {a st : Word} {first count : Nat} {s u : State} {vals : List (Nat × Nat)} (hcut : s.cut = none)
    (hord : InOrder (WordReads a st) (Spec.tileWords s.cur count) s vals u) : loadsTile tile a st first count s =
      .done { u with cur := { u.cur.writeCells tile ((Spec.tileWords s.cur count).map (fun k => (64 * first + k, look 0 vals k))) with vstart := 0 } } := by
  have hall := eachElem_inOrder (f := fun (s : State) k => s.loadAt .vector false 4 k (tileAddr a st k)) hord hcut fun s k x t h => by
    obtain ⟨y, hload, rfl, hreached⟩ := loadAt_of_reads h k
    exact ⟨hload, hreached⟩
  have hkeys := inOrder_keys hord
  have hnodup : (vals.map (fun r => r.1)).Nodup := hkeys ▸ tileWords_nodup ..
  have hvals : vals.map (fun r => (64 * first + r.1, r.2)) = (Spec.tileWords s.cur count).map (fun k => (64 * first + k, look 0 vals k)) := by
    rw [← hkeys, List.map_map]
    exact List.map_congr_left fun r hr => by simp [look_of_mem 0 hnodup hr]
  have hwrite : (if vals.isEmpty then u.cur else u.cur.wt tile (setCells (u.cur.tile tile) (vals.map (fun r => (64 * first + r.1, r.2))))) =
      u.cur.writeCells tile (vals.map (fun r => (64 * first + r.1, r.2))) := by
    rw [Hart.writeCells, List.isEmpty_map]
  unfold loadsTile
  rw [show eachElem (fun (s : State) k => s.loadAt .vector false 4 k (tileAddr a st k)) (tileWords s.cur count) s = _ from hall, ← hvals, ← hwrite]
  rfl

theorem mldt_loads : Spec.TileMove .mldt (fun i s tile a st first count => ∀ vals u,
    InOrder (WordReads a st) (Spec.tileWords s.cur count) s.start vals u → u.blocked = none → u.cur.strikes = [] → vals ≠ [] →
    ∃ h, exec i s = .next ({ u with cur := h } : State).completed ∧
      Spec.TileWritten u.cur tile 0 (fun r j => if first ≤ r ∧ 64 * (r - first) + j ∈ Spec.tileWords s.cur count
        then some (look 0 vals (64 * (r - first) + j)) else none) h) := by
  refine tileMove_of_effect (body := mldtBody) (fun _ _ _ _ _ => rfl) (fun _ _ _ _ _ h => mldtBody_refused h)
    (fun _ _ _ _ _ x hc hx => by rw [mldtBody_checked hc, hx]) fun tile ra rs rn s hp hd hc hal vals u hord hub hus _ => ?_
  obtain ⟨-, -, hfit⟩ := (tileMoveCheck_iff _).mp hc
  have hw := rows_written u.cur tile ((s.cur.ox rn).toNat % 64) (look 0 vals) (l := Spec.tileWords s.cur ((s.cur.ox rn).toNat / 64 % 128))
    fun k hk => by have := mem_tileWords hk; omega
  have hdone := ((mldtBody_checked (tile := tile) (ra := ra) (rs := rs) (s := s.start) hc).trans (by rw [State.start_cur, hal])).trans
    (loadsTile_done (s := s.start) hp.1.1.2.2 hord)
  exact ⟨_, perform_plain_done (w := mldtWord tile ra rs rn) hp hd hdone hub ((tileWritten_strikes hw).trans hus), hw⟩

/-- MLDT at a `vstart` past its last word reads nothing. -/
theorem mldt_ends : Spec.TileMove .mldt (fun i s _ _ _ _ count => Spec.tileWords s.cur count = [] →
    exec i s = .next (Spec.restarted s.start).completed) := by
  refine tileMove_of_effect (body := mldtBody) (fun _ _ _ _ _ => rfl) (fun _ _ _ _ _ h => mldtBody_refused h)
    (fun _ _ _ _ _ x hc hx => by rw [mldtBody_checked hc, hx]) fun tile ra rs rn s hp hd hc hal hnone => ?_
  have hdone := loadsTile_done (tile := tile) (a := s.cur.ox ra) (st := s.cur.ox rs) (first := (s.cur.ox rn).toNat % 64)
    (count := (s.cur.ox rn).toNat / 64 % 128)
    (s := s.start) (u := s.start) (vals := []) hp.1.1.2.2 (by rw [State.start_cur, hnone]; exact .none _)
  rw [State.start_cur, hnone] at hdone
  refine perform_plain_done (w := mldtWord tile ra rs rn) hp hd ?_ rfl hp.1.1.2.1
  exact ((mldtBody_checked (s := s.start) hc).trans (by rw [State.start_cur, hal])).trans hdone

/-! ### MSTT -/

/-- MSTT after its checks: the homes of the words are reached, and the writes of the rows from the first on queued. -/
def storesTile (tile : BitVec 3) (a st : Word) (first count : Nat) (s : State) : Flow :=
  let (rs, stop, u) := eachElem (fun (s : State) k => s.probeAt .write .plain .write false 4 k (tileAddr a st k)) (tileWords s.cur count) s
  let v := u.queueAll .vector (rs.map (fun r => .write (plainBytes r.2 (leBytes 4 (tileCell (s.cur.tile tile) (64 * first + r.1))))))
  vecEnd v v.cur none stop

theorem msttBody_refused {tile : BitVec 3} {ra rs rn : Reg} {s : State} (h : tileMoveCheck (s.cur.ox rn) = false) :
    msttBody tile ra rs rn s = illegalV s := if_pos (by rw [h]; rfl)

theorem msttBody_checked {tile : BitVec 3} {ra rs rn : Reg} {s : State} (h : tileMoveCheck (s.cur.ox rn) = true) :
    msttBody tile ra rs rn s = match tileMisaligned (s.cur.ox ra) (s.cur.ox rs) ((s.cur.ox rn).toNat / 64 % 128) with
      | some x => .trap { cause := 4, tval := x, vec := true } s
      | none => storesTile tile (s.cur.ox ra) (s.cur.ox rs) ((s.cur.ox rn).toNat % 64) ((s.cur.ox rn).toNat / 64 % 128) s :=
  if_neg (by rw [h]; decide)

/-- The home of word k of a tile is reached for a write. -/
def WordWrites (a st : Word) (s : State) (k x : Nat) (t : State) : Prop :=
  Spec.Writes .plain .write 0 { addr := Spec.tileAt a st k, high := false } 4 s (x, false) t

/-- The writes of the words of a tile. -/
def wordActs (h : Hart) (tile : BitVec 3) (first : Nat) (keys : List (Nat × Nat)) : List PAct :=
  keys.map (fun r => .write (plainBytes r.2 (leBytes 4 (tileCell (h.tile tile) (64 * first + r.1)))))

theorem storesTile_queues {tile : BitVec 3} {a st : Word} {first count : Nat} {s u : State} {keys : List (Nat × Nat)} (hcut : s.cut = none)
    (hord : InOrder (WordWrites a st) (Spec.tileWords s.cur count) s keys u) :
    storesTile tile a st first count s = .done (Spec.restarted (Spec.queued u .vector (wordActs s.cur tile first keys))) := by
  have hall := eachElem_inOrder (f := fun (s : State) k => s.probeAt .write .plain .write false 4 k (tileAddr a st k)) hord hcut fun s k x t h => by
    obtain ⟨hprobe, hreached, -⟩ := probeAt_of_writes h (aligned := false) (fun e => absurd e (by decide)) k
    exact ⟨hprobe, hreached⟩
  unfold storesTile
  rw [show eachElem (fun (s : State) k => s.probeAt .write .plain .write false 4 k (tileAddr a st k)) (tileWords s.cur count) s = _ from hall]
  rfl

theorem mstt_stores : Spec.TileMove .mstt (fun i s tile a st first count => ∀ keys u,
    InOrder (WordWrites a st) (Spec.tileWords s.cur count) s.start keys u → u.blocked = none → u.cur.strikes = [] →
    exec i s = .next (Spec.restarted (Spec.queued u .vector (wordActs s.cur tile first keys))).completed) := by
  refine tileMove_of_effect (body := msttBody) (fun _ _ _ _ _ => rfl) (fun _ _ _ _ _ h => msttBody_refused h)
    (fun _ _ _ _ _ x hc hx => by rw [msttBody_checked hc, hx]) fun tile ra rs rn s hp hd hc hal keys u hord hub hus => ?_
  obtain ⟨hblocked, hstrikes⟩ := queued_kept .vector (wordActs s.cur tile ((s.cur.ox rn).toNat % 64) keys) u
  have hdone := ((msttBody_checked (tile := tile) (ra := ra) (rs := rs) (s := s.start) hc).trans (by rw [State.start_cur, hal])).trans
    (storesTile_queues (s := s.start) hp.1.1.2.2 hord)
  exact perform_plain_done (w := msttWord tile ra rs rn) hp hd hdone (hblocked.trans hub) (hstrikes.trans hus)

/-! ### Moves between a tile and a register group -/

theorem tileRegCheck_iff {c : VCtx} {r : Reg} {n : Word} (hg : groupOk r.toNat c.g = true ↔ r.toNat % c.g = 0) :
    tileRegCheck c r n = true ↔ Spec.tileGroupOk c r n := by
  have hreach : (match c.highest with | some e => decide (n.toNat % 64 + e / 64 ≤ 63) | none => true) = true ↔
      (c.vpad < c.vl → (c.twoD = true → c.vr ≠ 0) →
        n.toNat % 64 + (if c.twoD then 64 * (c.vr - 1) + c.vl - c.vpad - 1 else c.vl - c.vpad - 1) / 64 ≤ 63) := by
    unfold VCtx.highest
    by_cases hv : c.vl ≤ c.vpad
    · simp [hv, Nat.not_lt.mpr hv]
    · cases h2 : c.twoD
      · simp [hv, Nat.lt_of_not_le hv]
      · by_cases hr : c.vr = 0
        · simp [hr]
        · simp [hv, hr, Nat.lt_of_not_le hv]
  have hn : n.toNat / 64 = 0 ↔ n.toNat < 64 := by omega
  have hparts : tileRegCheck c r n = (n.toNat / 64 == 0 && (c.fmt == 4 || c.fmt == 2) && groupOk r.toNat c.g &&
      (match c.highest with | some e => decide (n.toNat % 64 + e / 64 ≤ 63) | none => true)) := rfl
  rw [hparts]
  simp only [Spec.tileGroupOk, Bool.and_eq_true, beq_iff_eq, Bool.or_eq_true, hg, hreach, hn, and_assoc]
  refine and_congr_right fun hlt => ?_
  rw [Nat.mod_eq_of_lt hlt]

theorem mrdv_reads {tile : BitVec 3} {vd rn : Reg} {m : Bool} {s : State} (hp : PlainHart s) (hd : s.cur.dropping = false) :
    let c := s.cur.vctx m
    let n := s.cur.ox rn
    let i := Instr.mrdv tile vd rn m
    let ok := Spec.tileGroupOk c vd n ∧ (m = true → overlap c.maskReg 1 vd.toNat c.g = false)
    (¬ ok → exec i s = .next (s.start.trapWord (encode i) { cause := 1, tval := 0, vec := true } s.start)) ∧
    (ok → ∃ h, exec i s = .next ({ s.start with cur := h } : State).completed ∧
      ElementsWritten s.cur c {} [{ base := vd.toNat, regs := c.g, width := 32, pick := fun r => r.val }] (fun _ => false)
        (fun e => .of (tileCell (s.cur.tile tile) (64 * n.toNat + e))) h) := by
  intro c n i ok
  have hcheck : tileRegCheck c vd n = true ↔ Spec.tileGroupOk c vd n := tileRegCheck_iff (groupOk_iff_aligned s.cur m vd.toNat)
  have hok : (!tileRegCheck c vd n || (m && overlap c.maskReg 1 vd.toNat c.g)) = false ↔ ok := by
    rw [Bool.or_eq_false_iff, Bool.not_eq_false', hcheck]
    cases m <;> simp [ok]
  refine ⟨fun hbad => ?_, fun h => ?_⟩
  · exact perform_plain_trap (body := mrdvBody tile vd rn m) hp hd (if_pos (Bool.of_not_eq_false fun e => hbad (hok.mp e))) rfl
  · obtain ⟨⟨hn, -, hal, -⟩, -⟩ := id h
    have hfits : Dest.fits s.cur { base := vd.toNat, regs := c.g, width := 32, pick := fun r => r.val } :=
      ⟨aligned_fits vd.isLt ((vctx_g_dvd s.cur m).trans (by decide)) hal, Nat.zero_lt_succ 31,
        (Nat.mul_div_cancel' (Dvd.dvd.mul_right (show 32 ∣ 256 by decide) s.cur.lanes)).symm⟩
    obtain ⟨t, hdone, hw⟩ := elementwise_done (s := s.start) (md := {}) (src := { elem := fun _ => 0 }) (kept := fun _ => false)
      (dests := [{ base := vd.toNat, regs := c.g, width := 32, pick := fun r => r.val }])
      (f := fun e => .of (tileCell (s.cur.tile tile) (64 * n.toNat + e))) (vctx_regBits s.cur m) rfl hp.1.1.2.2 (fun _ _ => ⟨rfl, Nat.zero_and _⟩)
      (fun d hd => by rw [List.mem_singleton.mp hd]; exact hfits)
      (fun a ha b hb => .inl ((List.mem_singleton.mp ha).trans (List.mem_singleton.mp hb).symm)) nofun
    have hbody : mrdvBody tile vd rn m s.start = .done { s.start with cur := t } := by
      refine (if_neg (Bool.eq_false_iff.mp (hok.mpr h))).trans (Eq.trans ?_ hdone)
      rw [State.start_cur, show (s.cur.ox rn).toNat % 64 = n.toNat from Nat.mod_eq_of_lt hn]
    exact ⟨t, perform_plain_done hp hd hbody rfl (hw.strikes.trans hp.1.1.2.1), hw⟩

/-- The elements that MWRV moves lie in the rows its check reaches. -/
theorem touched_reach {c : VCtx} {r : Reg} {n : Word} (h : Spec.tileGroupOk c r n) {e : Nat} (he : e ∈ c.touched) : 64 * n.toNat + e < 4096 := by
  obtain ⟨hn, -, -, hreach⟩ := h
  have hgranted : c.granted e = true := by
    obtain ⟨-, hactive⟩ := List.mem_filter.mp he
    rw [VCtx.active, Bool.and_eq_true, Bool.and_eq_true] at hactive
    exact hactive.1.2
  unfold VCtx.granted at hgranted
  cases h2 : c.twoD
  · simp only [h2, Bool.false_eq_true, if_false, decide_eq_true_eq] at hgranted hreach
    have := hreach (by omega) nofun
    omega
  · simp only [h2, if_true, Bool.and_eq_true, decide_eq_true_eq] at hgranted hreach
    have := hreach (by omega) (fun _ => by omega)
    omega

theorem mwrv_writes {tile : BitVec 3} {vs rn : Reg} {m : Bool} {s : State} (hp : PlainHart s) (hd : s.cur.dropping = false) :
    let c := s.cur.vctx m
    let n := s.cur.ox rn
    let i := Instr.mwrv tile vs rn m
    (¬ Spec.tileGroupOk c vs n → exec i s = .next (s.start.trapWord (encode i) { cause := 1, tval := 0, vec := true } s.start)) ∧
    (Spec.tileGroupOk c vs n → c.touched ≠ [] → ∃ h, exec i s = .next ({ s.start with cur := h } : State).completed ∧
      Spec.TileWritten s.cur tile 0 (fun r j => if n.toNat ≤ r ∧ 64 * (r - n.toNat) + j ∈ c.touched
        then some (elemN (s.cur.groupN vs.toNat c.g) 32 (64 * (r - n.toNat) + j)) else none) h) ∧
    (Spec.tileGroupOk c vs n → c.touched = [] → exec i s = .next (Spec.restarted s.start).completed) := by
  intro c n i
  have hcheck : tileRegCheck c vs n = true ↔ Spec.tileGroupOk c vs n := tileRegCheck_iff (groupOk_iff_aligned s.cur m vs.toNat)
  have hbody (h : Spec.tileGroupOk c vs n) : mwrvBody tile vs rn m s.start = .done { s.start with cur :=
      { s.cur.writeCells tile (c.touched.map (fun e => (64 * n.toNat + e, elemN (s.cur.groupN vs.toNat c.g) 32 e))) with vstart := 0 } } := by
    refine (if_neg (by simpa using hcheck.mpr h)).trans ?_
    rw [State.start_cur, show (s.cur.ox rn).toNat % 64 = n.toNat from Nat.mod_eq_of_lt h.1]
  refine ⟨fun hbad => ?_, fun h _ => ?_, fun h hnone => ?_⟩
  · exact perform_plain_trap (body := mwrvBody tile vs rn m) hp hd (if_pos (by simpa using fun e => hbad (hcheck.mp e))) rfl
  · have hw := rows_written s.cur tile n.toNat (elemN (s.cur.groupN vs.toNat c.g) 32) fun e he => touched_reach h he
    exact ⟨_, perform_plain_done hp hd (hbody h) rfl ((tileWritten_strikes hw).trans hp.1.1.2.1), hw⟩
  · have hdone := hbody h
    rw [hnone] at hdone
    exact perform_plain_done hp hd hdone rfl hp.1.1.2.1

theorem tileInstructions : Spec.TileInstructions :=
  ⟨latches_of_effect (fun _ _ => rfl) (fun _ _ => rfl), latches_of_effect (fun _ _ => rfl) (fun _ _ => rfl), fun tile _ hp hd => mzero_clears tile hp hd,
    mldt_loads, mldt_ends, mstt_stores, fun _ _ _ _ _ hp hd => mrdv_reads hp hd, fun _ _ _ _ _ hp hd => mwrv_writes hp hd⟩

end Sys2Proof.Machine

namespace Sys2Proof

/-- Settles O25: an outer product by its cells in their order, and the moves of tiles by the cells they write. -/
theorem matrixInstructions : Obligations.MatrixInstructions := ⟨Machine.outerProducts, Machine.tileInstructions⟩

end Sys2Proof
end
